-- ==== Sys2Proof/Word.lean ====
section
/-! DEFINITION. The machine's word and byte (spec/00_scope.md R5, R6) and their plainest conversions. -/

namespace Sys2Proof

/-- A byte is 8 bits (R6). -/
abbrev Byte := BitVec 8

/-- A word is 32 bits (R6). -/
abbrev Word := BitVec 32

/-- A double-word is 64 bits (R6). -/
abbrev DWord := BitVec 64

end Sys2Proof
end

