-- ==== Sys2Proof/Syntax.lean ====
section
/-! DEFINITION. The commands the part takes and the steps it makes of itself: one constructor per row of
spec/opcode_table.json, with the operands that the row's rule leaves to the outside or that an instruction's encoding
carries. An operand with a default says that nothing of its kind happened. -/

namespace Sys2Proof

/-- The three cores that run the core instruction set: M0, M1 (R137) and the Polder core (R375). -/
inductive CoreId where
  | m0 | m1 | pol
  deriving DecidableEq, Repr

/-- Who makes a register access (R35, R438): the cores, the debug port, or Crocus at launch. -/
inductive Initiator where
  | m0 | m1 | polder | debug | crocus
  deriving DecidableEq, Repr

/-- A register access as its target sees it: the initiator and the TID it carries (R35). -/
structure Access where
  who : Initiator
  tid : BitVec 7
  deriving DecidableEq, Repr

/-- The Hub's agents (R203). -/
inductive Agent where
  | m0 | m1 | pe
  deriving DecidableEq, Repr

/-- What the check bits of one stored 64-bit word, of its copy in the L2, or of its line's directory entry say (R190, R191, R210). -/
inductive Upset where
  | none | single | uncorrectable | directory | l2Single | l2Bad
  deriving DecidableEq, Repr

/-- The header of a lane instruction and its destination: guard enable, guard negate, guard predicate, Ld (R176). -/
structure LaneHdr where
  pe : Bool
  pn : Bool
  kg : Fin 8
  ld : Fin 64
  deriving DecidableEq, Repr

/-- The condition and target of a lane control instruction: Kc, CN and off32 (R176, R177). -/
structure LaneCtl where
  kc : Fin 8
  cn : Bool
  off : BitVec 32
  deriving DecidableEq, Repr


/-- How a CAN frame of this controller ended on the bus (R344, R346): sent, arbitration lost, an error, or no acknowledgement. -/
inductive CanSent where
  | sent | lost | error | noAck
  deriving DecidableEq, Repr

/-- The commands: one constructor per row of spec/opcode_table.json, in its order. -/
inductive Instr where
  /-- POWER_UP (R50): VIN has stayed above the UVLO rising threshold for 5 µs; the buck soft-starts and the power-up sequence runs from IRC cycle 0. -/
  | powerUp (cold ircLost : Bool) (lsx irc : Nat)
  /-- VCORE_GOOD (R51): VCORE has stayed at or above 0.70 V for 800 IRC cycles; the first AVSBus Status read and Voltage write are issued. -/
  | vcoreGood
  /-- CORE_RETRY (R51): VCORE is not good within 10 ms of CORE_EN; CORE_EN is released for 1 ms, the sequence repeats and CORE_RETRY is set. -/
  | coreRetry
  /-- AVS_TRANSACTION_DONE (R52): The regulator answers an AVSBus transaction; success updates VSET and LINK_OK, an error answer counts a failure and the transaction is retried. -/
  | avsTransactionDone (ok : Bool)
  /-- AVS_TIMEOUT (R52): An AVSBus transaction is not acknowledged within 8000 IRC cycles; RETRIES counts it and the transaction is repeated. -/
  | avsTimeout
  /-- MAIN_RESET_RELEASE (R487): The main-domain reset hold ends; the domain is released and the pre-launch work starts. -/
  | mainResetRelease (present v18 : BitVec 4) (signature busy quadOk addr4 : Bool) (modes : List (Fin 6 × Byte × BitVec 5)) (dead : List (Fin 2))
  /-- NVM_BUSY (R98): The NVM busy bit stays set for more than 500 ms; launch fails with NVM_BUSY. -/
  | nvmBusy
  /-- FAIL_REPORT (R117): Once per second after a launch failure, U0_TX sends the CROCUS failure line. -/
  | failReport
  /-- XTAL_WAIT_EXPIRY (R73): XTAL_WAIT × 1024 IRC cycles have passed since the oscillator was enabled; the PLL starts once the CLOCKS section is applied. -/
  | xtalWaitExpiry
  /-- PLL_LOCK (R78): The PLL reports lock; every main-domain clock switches glitch-free from IRC to its divider output and launch continues. -/
  | pllLock (good : Bool) (lsx irc : Nat)
  /-- PLL_NO_LOCK (R78): Lock is not reported within 1600 IRC cycles; the clock step stops and launch fails with PLL_NO_LOCK. -/
  | pllNoLock
  /-- DDR_TRAINING_END (R212): LPDDR4 training ends; the channel runs or is held down, TRAIN_EVT sets, and Crocus goes on with the TB restore, LOAD, VERIFY, REGS, PATCH, launch commit and floor advance. -/
  | ddrTrainingEnd (rate : Fin 6) (two : Bool) (density : Fin 17) (same : Bool) (lsx irc : Nat)
  /-- LAUNCH_END (R116): The workspace zeroing completes, DONE sets, LK fields lock, LNCH_DONE rises, CLK_GATE takes GATE_INIT, and the cores are released. -/
  | launchEnd (us : Nat)
  /-- M1_START (R139): A write of the SYS_M1_START key from T0 releases a held M1 at SYS_M1_PC and SYS_M1_SP. -/
  | m1Start (acc : Access)
  /-- VIN_UVLO (R53): VIN falls below 3.6 V; the buck stops and everything except the backup domain loses power. -/
  | vinUvlo (torn : Bool := false)
  /-- BERM_ARM (R55): The VIN power-fail monitor output rises for the first time after launch end, and the Berm arms. -/
  | bermArm (vin : BitVec 12)
  /-- BERM_FLUSH (R59): VIN stays below THR for FILTER µs while the Berm is armed; BERM_ACTIVE sets, line 4 asserts, and the flush steps run to step 8. -/
  | bermFlush (last : Fin 9) (torn : Bool) (us : BitVec 16) (vin : BitVec 12) (conv : List (Fin 4 × BitVec 18 × Bool × BitVec 64) := [])
    (lsx irc : Nat := 0)
  /-- VIN_RECOVERED (R60): VIN rises to THR + HYST after a completed flush while the buck still runs; power-up repeats from CORE_EN with cause PFAIL_RECOVERED. -/
  | vinRecovered
  /-- BO_WARN (R53): The 3.3 V rail falls below 3.05 V; BO_WARN sets and line 5 asserts. -/
  | boWarn
  /-- BROWN_OUT (R53): The 3.3 V rail falls below 2.90 V; the main domain resets and power-up restarts from cycle 0. -/
  | brownOut (torn : Bool := false)
  /-- VCORE_FAIL (R53): VCORE falls below 0.62 V; the main domain resets with cause VCORE_FAIL and power-up repeats from CORE_EN. -/
  | vcoreFail (same : Bool := false)
  /-- RET_LOST (R65): The backup domain stays below 1.60 V for 2 µs; RET_LOST latches. -/
  | retLost
  /-- POLDER_BROWN_OUT (R54): The backup domain falls below 1.80 V; the Polder core is held in reset and SAFE_TRIP trips with cause BROWNOUT. -/
  | polderBrownOut
  /-- BUCK_FAULT (R34): The buck reaches its current limit or over-temperature; BUCK_ILIM or BUCK_OT sets and line 7 asserts. -/
  | buckFault (ot : Bool)
  /-- RESET_PIN (R487): RESET_N is held low past the filter; a main-domain reset with cause RESET_PIN is requested, or deferred during a flush. -/
  | resetPin (same : Bool)
  /-- SOFTWARE_RESET (R67): The key 0xA5C3_0001 written to PWR_RST_REQ from T0 requests a main-domain reset with cause SOFTWARE. -/
  | softwareReset (acc : Access) (same : Bool)
  /-- RESET_WRITEBACK_DONE (R490): The writeback of dirty MRAM and SRAM lines for a reset that leaves VCORE up ends; the caches are invalidated and the reset is applied. -/
  | resetWritebackDone
  /-- DOZE_ENTRY (R68): Both cores wait with MODE DOZE; cores and Lane Array are clock-gated. -/
  | dozeEntry
  /-- DOZE_WAKE (R68): A line becomes deliverable in DOZE; the device returns to RUN and MODE reads 0b00. -/
  | dozeWake
  /-- SLEEP_ENTRY (R68): Both cores wait with MODE SLEEP and no armed commit pending; dirty MRAM lines are written back, blocks stop, TB stops and the PLL stops (emulated while a debugger is attached). -/
  | sleepEntry
  /-- SLEEP_WAKE (R71): A wake-enabled line from a block powered in SLEEP asserts; VCORE is restored, the PLL relocks and DDR recalibrates. -/
  | sleepWake
  /-- OFF_ENTRY (R72): Both cores wait with MODE OFF; Berm steps 2–8 run whether or not the Berm is armed, and cause WAKE_OFF is recorded. -/
  | offEntry (last : Fin 9) (torn : Bool) (us : BitVec 16) (vin : BitVec 12) (conv : List (Fin 4 × BitVec 18 × Bool × BitVec 64) := [])
  /-- PLL_UNLOCK (R79): The PLL loses lock; UNLOCK_SEEN sets and line 10 asserts. -/
  | pllUnlock
  /-- PLL_RELOCK (R79): Lock returns within 512 IRC cycles and running continues. -/
  | pllRelock
  /-- UNLOCK_TIMEOUT (R79): Lock has not returned 512 IRC cycles after its loss; the device resets with cause CLOCK_FAIL. -/
  | unlockTimeout (same : Bool)
  /-- WAKE_RELOCK_TIMEOUT (R81): On a SLEEP wake, lock is not reported within 1600 IRC cycles; UNLOCK_SEEN sets and the main domain resets with cause CLOCK_FAIL. -/
  | wakeRelockTimeout (same : Bool)
  /-- XO_MONITOR_WINDOW (R87): A 1024 IRC-cycle window ends; the reference edge count is checked and XO_CNT is updated. -/
  | xoMonitorWindow (n : BitVec 12)
  /-- XO_FAIL_RESET (R87): 64 IRC cycles after XO_FAIL, the device resets with cause CLOCK_FAIL. -/
  | xoFailReset (same : Bool)
  /-- LSX_MONITOR_CHECK (R87): An 8-window LSX check ends and its edge count is judged. -/
  | lsxMonitorCheck (n : BitVec 6)
  /-- TB_SLEEP_RESTORE (R90): At the first LSX edge after relock, TB is set to its entry value plus the retention count, COARSE sets, and at most one epoch boundary is generated. -/
  | tbSleepRestore (lsx irc : Nat)
  /-- EPOCH_BOUNDARY (R21): TB reaches a new whole multiple of 1 000 000 ns past the highest epoch already generated; EPOCH sets, line 241 asserts and epoch-paced work runs. -/
  | epochBoundary
  /-- HOLD_TMO (R94): No servo sample arrives for HOLD_TMO epochs; ACQUIRE falls to FREE, or TRACK falls to HOLDOVER. -/
  | holdTmo
  /-- REACQ (R94): A write of 1 to CLK_SRV_CTL.REACQ makes the servo enter ACQUIRE from any state except FREE. -/
  | reacq (acc : Access)
  /-- ASYNC_BUS_ERROR (R33): A buffered store to normal memory receives a bus error; line 0 asserts and SYS_BERR records the address and TID. -/
  | asyncBusError
  /-- REGISTER_WRITE (R485): A write to a register with no behaviour of its own is accepted or refused by TID, and SH fields are staged. -/
  | registerWrite (acc : Access) (adr v : Word)
  /-- SET_OWNER_KEY (R127): The LCS command sets the owner key hash once in BLANK or TEST. -/
  | setOwnerKey (acc : Access)
  /-- SET_DEBUG_KEY (R127): The LCS command sets the debug key hash, advancing TALLY1 first in PROD. -/
  | setDebugKey (acc : Access)
  /-- TO_TEST (R122): The LCS command moves BLANK to TEST through the transition sequence. -/
  | toTest (acc : Access)
  /-- TO_PROD (R122): The LCS command moves TEST or RTEST to PROD and starts the wipe. -/
  | toProd (acc : Access)
  /-- ENTER_RTEST (R130): The LCS command checks an RTEST token, then advances TALLY4 and transitions PROD to RTEST. -/
  | enterRtest (acc : Access)
  /-- SCRAP (R122): The LCS command with the serial wipes all MRAM, advances every tally to its maximum and moves to EOL. -/
  | scrap (acc : Access)
  /-- TRANSITION_WIPE_DONE (R123): The wipe completes; the state word is written, the marker cleared and the main domain reset with cause LCS_TRANSITION. -/
  | transitionWipeDone (same : Bool)
  /-- DBG_REQUEST (R128): The LCS issues a debug challenge with a fresh nonce in LCS_CHAL and asserts line 13. -/
  | dbgRequest (acc : Access)
  /-- DBG_RESPONSE (R129): The LCS checks a debug response in order and begins the signature verification. -/
  | dbgResponse (acc : Access)
  /-- SIGNATURE_CHECK_DONE (R129): The ECDSA verification of a debug response or RTEST token ends; the grant or the transition follows, or the command is refused with SIG_FAIL. -/
  | signatureCheckDone
  /-- DBG_REVOKE (R129): The LCS command ends the debug grant. -/
  | dbgRevoke (acc : Access)
  /-- CHALLENGE_EXPIRY (R128): A debug challenge reaches 60 s of TB and becomes invalid. -/
  | challengeExpiry
  /-- TRK_ROTATE (R126): The LCS command advances TALLY5, then replaces the tenant root key. -/
  | trkRotate (acc : Access)
  /-- TRK_DERIVE (R127): The LCS command writes the derived tenant key to LCS_MSG. -/
  | trkDerive (acc : Access)
  /-- CAL_COMMIT (R126): The LCS command checks a calibration set, writes it to the inactive bank, advances TALLY3 and makes that bank active. -/
  | calCommit (acc : Access)
  /-- AUDIT_RELEASE (R136): The LCS command releases the N oldest audit records, then appends its own record. -/
  | auditRelease (acc : Access)
  /-- LCS_RESERVED_COMMAND (R126): A reserved LCS command code is refused with BAD_ARG. -/
  | lcsReservedCommand (acc : Access) (code : Byte)
  /-- TALLY_ADVANCE (R132): A write of the present value plus one to LCS_TALLYn from T0 appends a TALLY record, writes the cell and sets TALLY_EVT. -/
  | tallyAdvance (acc : Access) (n : Fin 8) (v : Word)
  /-- INTERRUPT_GRANT (R155): INTC grants the most urgent deliverable line to one core, marks it ACTIVE and raises RUNPRI. -/
  | interruptGrant
  /-- INTC_EOI (R156): A write of a line number ends its ACTIVE state and restores RUNPRI, or sets BAD_EOI. -/
  | intcEoi (acc : Access) (c : Fin 2) (v : Word)
  /-- INTC_SWI_SET (R157): Software lines are set for the bits that the writer's TID owns. -/
  | intcSwiSet (acc : Access) (v : Word)
  /-- INTC_SWI_CLR (R157): Software lines are cleared for the bits that the writer's TID owns. -/
  | intcSwiClr (acc : Access) (v : Word)
  /-- INTC_CFG_WRITE (R157): A write to INTC_CFGk updates all fields from T0, only EN from the line owner, and is refused otherwise. -/
  | intcCfgWrite (acc : Access) (k : Fin 256) (v : Word)
  /-- WD_KICK (R162): A write to WDc_KICK reloads COUNT if valid and in window, causes expiry otherwise, or sets WRONG_CORE from the other core. -/
  | wdKick (acc : Access) (n : Fin 2) (v : Word) (elapsed : Nat)
  /-- WD_WARNING (R161): WDc COUNT reaches WARN; WARNED sets and line 181 or 182 asserts. -/
  | wdWarning (n : Fin 2)
  /-- WD_EXPIRY (R161): WDc COUNT reaches 0; the main domain resets with cause WD0 or WD1. -/
  | wdExpiry (n : Fin 2) (same : Bool)
  /-- ADD (R165): rd = ra + rb. -/
  | add (c : CoreId) (rd ra rb : Fin 32)
  /-- SUB (R165): rd = ra − rb. -/
  | sub (c : CoreId) (rd ra rb : Fin 32)
  /-- AND (R165): rd = ra AND rb. -/
  | and (c : CoreId) (rd ra rb : Fin 32)
  /-- OR (R165): rd = ra OR rb. -/
  | or (c : CoreId) (rd ra rb : Fin 32)
  /-- XOR (R165): rd = ra XOR rb. -/
  | xor (c : CoreId) (rd ra rb : Fin 32)
  /-- SLT (R165): rd = 1 if ra < rb signed. -/
  | slt (c : CoreId) (rd ra rb : Fin 32)
  /-- SLTU (R165): rd = 1 if ra < rb unsigned. -/
  | sltu (c : CoreId) (rd ra rb : Fin 32)
  /-- SLL (R165): rd = ra shifted left by rb[4:0]. -/
  | sll (c : CoreId) (rd ra rb : Fin 32)
  /-- SRL (R165): rd = ra shifted right logically by rb[4:0]. -/
  | srl (c : CoreId) (rd ra rb : Fin 32)
  /-- SRA (R165): rd = ra shifted right arithmetically by rb[4:0]. -/
  | sra (c : CoreId) (rd ra rb : Fin 32)
  /-- SLLI (R165): rd = ra shifted left by the rb field. -/
  | slli (c : CoreId) (rd ra n : Fin 32)
  /-- SRLI (R165): rd = ra shifted right logically by the rb field. -/
  | srli (c : CoreId) (rd ra n : Fin 32)
  /-- SRAI (R165): rd = ra shifted right arithmetically by the rb field. -/
  | srai (c : CoreId) (rd ra n : Fin 32)
  /-- MUL (R165): rd = low 32 bits of ra × rb. -/
  | mul (c : CoreId) (rd ra rb : Fin 32)
  /-- MULH (R165): rd = high 32 bits of the signed product. -/
  | mulh (c : CoreId) (rd ra rb : Fin 32)
  /-- MULHU (R165): rd = high 32 bits of the unsigned product. -/
  | mulhu (c : CoreId) (rd ra rb : Fin 32)
  /-- DIV (R167): rd = signed quotient, with the defined results for a zero divisor and for overflow. -/
  | div (c : CoreId) (rd ra rb : Fin 32)
  /-- DIVU (R167): rd = unsigned quotient, or 0xFFFF_FFFF for a zero divisor. -/
  | divu (c : CoreId) (rd ra rb : Fin 32)
  /-- REM (R167): rd = signed remainder, with the sign of ra. -/
  | rem (c : CoreId) (rd ra rb : Fin 32)
  /-- REMU (R167): rd = unsigned remainder, or ra for a zero divisor. -/
  | remu (c : CoreId) (rd ra rb : Fin 32)
  /-- MIN (R165): rd = signed minimum. -/
  | min (c : CoreId) (rd ra rb : Fin 32)
  /-- MAX (R165): rd = signed maximum. -/
  | max (c : CoreId) (rd ra rb : Fin 32)
  /-- MINU (R165): rd = unsigned minimum. -/
  | minu (c : CoreId) (rd ra rb : Fin 32)
  /-- MAXU (R165): rd = unsigned maximum. -/
  | maxu (c : CoreId) (rd ra rb : Fin 32)
  /-- CLZ (R165): rd = leading zeros of ra. -/
  | clz (c : CoreId) (rd ra : Fin 32)
  /-- POPC (R165): rd = number of ones in ra. -/
  | popc (c : CoreId) (rd ra : Fin 32)
  /-- BSWAP (R165): rd = ra with its byte order reversed. -/
  | bswap (c : CoreId) (rd ra : Fin 32)
  /-- ADDI (R165): rd = ra + sext(imm). -/
  | addi (c : CoreId) (rd ra : Fin 32) (imm : BitVec 16)
  /-- ANDI (R165): rd = ra AND zext(imm). -/
  | andi (c : CoreId) (rd ra : Fin 32) (imm : BitVec 16)
  /-- ORI (R165): rd = ra OR zext(imm). -/
  | ori (c : CoreId) (rd ra : Fin 32) (imm : BitVec 16)
  /-- XORI (R165): rd = ra XOR zext(imm). -/
  | xori (c : CoreId) (rd ra : Fin 32) (imm : BitVec 16)
  /-- SLTI (R165): rd = 1 if ra < sext(imm) signed. -/
  | slti (c : CoreId) (rd ra : Fin 32) (imm : BitVec 16)
  /-- SLTIU (R165): rd = 1 if ra < sext(imm) unsigned. -/
  | sltiu (c : CoreId) (rd ra : Fin 32) (imm : BitVec 16)
  /-- LUI (R165): rd = imm << 16. -/
  | lui (c : CoreId) (rd : Fin 32) (imm : BitVec 16)
  /-- PCADDH (R165): rd = PC + (imm << 16). -/
  | pcaddh (c : CoreId) (rd : Fin 32) (imm : BitVec 16)
  /-- LB (R165): Loads a sign-extended byte. -/
  | lb (c : CoreId) (rd ra : Fin 32) (imm : BitVec 16)
  /-- LBU (R165): Loads a zero-extended byte. -/
  | lbu (c : CoreId) (rd ra : Fin 32) (imm : BitVec 16)
  /-- LH (R166): Loads a sign-extended, 2-aligned half-word. -/
  | lh (c : CoreId) (rd ra : Fin 32) (imm : BitVec 16)
  /-- LHU (R166): Loads a zero-extended, 2-aligned half-word. -/
  | lhu (c : CoreId) (rd ra : Fin 32) (imm : BitVec 16)
  /-- LW (R166): Loads a 4-aligned word, checked by the MPU and the target. -/
  | lw (c : CoreId) (rd ra : Fin 32) (imm : BitVec 16) (u : Upset)
  /-- SB (R165): Stores a byte. -/
  | sb (c : CoreId) (rs ra : Fin 32) (imm : BitVec 16)
  /-- SH (R166): Stores a 2-aligned half-word. -/
  | sh (c : CoreId) (rs ra : Fin 32) (imm : BitVec 16)
  /-- SW (R166): Stores a 4-aligned word. -/
  | sw (c : CoreId) (rs ra : Fin 32) (imm : BitVec 16)
  /-- FLW (R173): Loads a word into Fd[31:0] and zeroes the upper half. -/
  | flw (c : CoreId) (fd ra : Fin 32) (imm : BitVec 16)
  /-- FLD (R173): Loads an 8-aligned double-word into Fd. -/
  | fld (c : CoreId) (fd ra : Fin 32) (imm : BitVec 16)
  /-- FSW (R173): Stores Fs[31:0]. -/
  | fsw (c : CoreId) (fs ra : Fin 32) (imm : BitVec 16)
  /-- FSD (R173): Stores the 8-aligned double-word Fs. -/
  | fsd (c : CoreId) (fs ra : Fin 32) (imm : BitVec 16)
  /-- BEQ (R165): Branches if ra = rb. -/
  | beq (c : CoreId) (ra rb : Fin 32) (off : BitVec 16)
  /-- BNE (R165): Branches if ra ≠ rb. -/
  | bne (c : CoreId) (ra rb : Fin 32) (off : BitVec 16)
  /-- BLT (R165): Branches if ra < rb signed. -/
  | blt (c : CoreId) (ra rb : Fin 32) (off : BitVec 16)
  /-- BGE (R165): Branches if ra ≥ rb signed. -/
  | bge (c : CoreId) (ra rb : Fin 32) (off : BitVec 16)
  /-- BLTU (R165): Branches if ra < rb unsigned. -/
  | bltu (c : CoreId) (ra rb : Fin 32) (off : BitVec 16)
  /-- BGEU (R165): Branches if ra ≥ rb unsigned. -/
  | bgeu (c : CoreId) (ra rb : Fin 32) (off : BitVec 16)
  /-- JMP (R165): Jumps to PC + 4 × sext(off26). -/
  | jmp (c : CoreId) (off : BitVec 26)
  /-- CALL (R165): Writes PC + 4 to G1 and jumps. -/
  | call (c : CoreId) (off : BitVec 26)
  /-- JR (R166): Jumps to ra, raising MISALIGNED if ra is not 4-aligned. -/
  | jr (c : CoreId) (ra : Fin 32)
  /-- CALLR (R166): Jumps to ra read before G1 takes PC + 4. -/
  | callr (c : CoreId) (ra : Fin 32)
  /-- LL (R169): Loads a word at the Hub and sets a reservation on its line. -/
  | ll (c : CoreId) (rd ra : Fin 32)
  /-- SC (R169): Stores if the reservation holds the line, returns success and clears the reservation. -/
  | sc (c : CoreId) (rd ra rb : Fin 32)
  /-- AMOSWAP (R168): Atomically swaps a word at the Hub. -/
  | amoswap (c : CoreId) (rd ra rb : Fin 32)
  /-- AMOADD (R168): Atomically adds to a word at the Hub. -/
  | amoadd (c : CoreId) (rd ra rb : Fin 32)
  /-- AMOAND (R168): Atomically ANDs a word at the Hub. -/
  | amoand (c : CoreId) (rd ra rb : Fin 32)
  /-- AMOOR (R168): Atomically ORs a word at the Hub. -/
  | amoor (c : CoreId) (rd ra rb : Fin 32)
  /-- AMOXOR (R168): Atomically XORs a word at the Hub. -/
  | amoxor (c : CoreId) (rd ra rb : Fin 32)
  /-- AMOMAX (R168): Atomically takes the signed maximum at the Hub. -/
  | amomax (c : CoreId) (rd ra rb : Fin 32)
  /-- AMOMIN (R168): Atomically takes the signed minimum at the Hub. -/
  | amomin (c : CoreId) (rd ra rb : Fin 32)
  /-- AMOCAS (R168): Atomically compares and swaps a word at the Hub. -/
  | amocas (c : CoreId) (rd ra rb : Fin 32)
  /-- FENCE (R208): Holds later accesses until every earlier access is complete and its stores are visible at the Hub. -/
  | fence (c : CoreId)
  /-- FENCE_WD (R31): Holds later device-space accesses until earlier normal-memory stores are visible at the Hub. -/
  | fenceWd (c : CoreId)
  /-- ISYNC (R170): Discards and refetches every instruction fetched after the ISYNC. -/
  | isync (c : CoreId)
  /-- DCWB (R170): Writes a dirty line to its memory and keeps it valid and clean. -/
  | dcwb (c : CoreId) (ra : Fin 32)
  /-- DCWBI (R170): Writes a dirty line back, then invalidates it in this D-cache. -/
  | dcwbi (c : CoreId) (ra : Fin 32)
  /-- DCINV (R170): Invalidates a line in this D-cache, discarding its dirty data. -/
  | dcinv (c : CoreId) (ra : Fin 32)
  /-- ICINV (R170): Invalidates one line in this core's I-cache. -/
  | icinv (c : CoreId) (ra : Fin 32)
  /-- ICINV_ALL (R170): Invalidates this core's whole I-cache. -/
  | icinvAll (c : CoreId)
  /-- BMOV (R171): Copies a byte block element by element, resumably. -/
  | bmov (c : CoreId) (rd ra rb : Fin 32) (limit : Option Nat)
  /-- BFIL (R171): Fills a byte block with a fill byte, resumably. -/
  | bfil (c : CoreId) (rd ra rb : Fin 32) (limit : Option Nat)
  /-- CRCB (R171): Applies the CRC-32C update over a byte block, resumably. -/
  | crcb (c : CoreId) (rd ra rb : Fin 32) (limit : Option Nat)
  /-- LDM (R172): Loads Gfirst to Glast from consecutive words, with progress held in EPROG. -/
  | ldm (c : CoreId) (first base last : Fin 32) (wb : Bool) (limit : Option Nat)
  /-- STM (R172): Stores Gfirst to Glast to consecutive words, with progress held in EPROG. -/
  | stm (c : CoreId) (first base last : Fin 32) (wb : Bool) (limit : Option Nat)
  /-- FADD (R173): Floating-point addition at precision P. -/
  | fadd (c : CoreId) (p : Bool) (rd ra rb : Fin 32)
  /-- FSUB (R173): Floating-point subtraction. -/
  | fsub (c : CoreId) (p : Bool) (rd ra rb : Fin 32)
  /-- FMUL (R173): Floating-point multiplication. -/
  | fmul (c : CoreId) (p : Bool) (rd ra rb : Fin 32)
  /-- FDIV (R173): Floating-point division. -/
  | fdiv (c : CoreId) (p : Bool) (rd ra rb : Fin 32)
  /-- FSQRT (R173): Floating-point square root. -/
  | fsqrt (c : CoreId) (p : Bool) (rd ra : Fin 32)
  /-- FMIN (R173): IEEE minimumNumber. -/
  | fmin (c : CoreId) (p : Bool) (rd ra rb : Fin 32)
  /-- FMAX (R173): IEEE maximumNumber. -/
  | fmax (c : CoreId) (p : Bool) (rd ra rb : Fin 32)
  /-- FABS (R173): Absolute value, raising no flags. -/
  | fabs (c : CoreId) (p : Bool) (rd ra : Fin 32)
  /-- FNEG (R173): Negation, raising no flags. -/
  | fneg (c : CoreId) (p : Bool) (rd ra : Fin 32)
  /-- FMOV (R173): Copies an F register. -/
  | fmov (c : CoreId) (p : Bool) (rd ra : Fin 32)
  /-- FCVT (R173): Converts between binary32 and binary64. -/
  | fcvt (c : CoreId) (p : Bool) (rd ra : Fin 32)
  /-- FTOI (R173): Converts to a signed 32-bit integer in a G register. -/
  | ftoi (c : CoreId) (p : Bool) (rd ra : Fin 32)
  /-- ITOF (R173): Converts a signed G register to precision P. -/
  | itof (c : CoreId) (p : Bool) (rd ra : Fin 32)
  /-- FEQ (R173): Compares for equality into a G register. -/
  | feq (c : CoreId) (p : Bool) (rd ra rb : Fin 32)
  /-- FLT (R173): Compares less-than into a G register, raising NV on a NaN. -/
  | flt (c : CoreId) (p : Bool) (rd ra rb : Fin 32)
  /-- FLE (R173): Compares less-or-equal into a G register, raising NV on a NaN. -/
  | fle (c : CoreId) (p : Bool) (rd ra rb : Fin 32)
  /-- FMVG (R173): Moves half of an F register to a G register. -/
  | fmvg (c : CoreId) (p : Bool) (rd ra : Fin 32)
  /-- FMVF (R173): Moves a G register into half of an F register. -/
  | fmvf (c : CoreId) (p : Bool) (rd ra : Fin 32)
  /-- FRFSR (R173): Reads FSR into a G register. -/
  | frfsr (c : CoreId) (rd : Fin 32)
  /-- FWFSR (R173): Writes FSR from a G register without trapping. -/
  | fwfsr (c : CoreId) (ra : Fin 32)
  /-- FMADD (R173): Fused ra × rb + rc with one rounding. -/
  | fmadd (c : CoreId) (p : Bool) (rd ra rb rc : Fin 32)
  /-- FMSUB (R173): Fused ra × rb − rc. -/
  | fmsub (c : CoreId) (p : Bool) (rd ra rb rc : Fin 32)
  /-- FNMADD (R173): Fused −(ra × rb + rc). -/
  | fnmadd (c : CoreId) (p : Bool) (rd ra rb rc : Fin 32)
  /-- FNMSUB (R173): Fused −(ra × rb − rc). -/
  | fnmsub (c : CoreId) (p : Bool) (rd ra rb rc : Fin 32)
  /-- SLC (R151): A Sluice gate call is checked and enters the gate handler, or raises GATE_FAULT. -/
  | slc (c : CoreId) (n : Byte)
  /-- TRAP (R175): Raises TRAP with AUX = n. -/
  | trap (c : CoreId) (n : Byte)
  /-- ERET (R144): Restores MODE, IE and TID, clears EXL and continues at EPC. -/
  | eret (c : CoreId)
  /-- WAIT (R175): Stops the core until a line is deliverable to it. -/
  | wait (c : CoreId)
  /-- WAIT_END (R175): A line becomes deliverable to a waiting core; WAIT completes and the interrupt is taken if IE = 1. -/
  | waitEnd (c : CoreId)
  /-- MFS (R138): Reads a special register. -/
  | mfs (c : CoreId) (rd n : Fin 32)
  /-- MTS (R138): Writes a special register; to TID it waits for earlier accesses and switches tenant. -/
  | mts (c : CoreId) (n ra : Fin 32)
  /-- BRK (R175): Halts the core when a debugger holding HALT_MEM is attached, and otherwise raises DEBUG. -/
  | brk (c : CoreId) (n : Byte)
  /-- LANE_NOP (R177): Lane no-operation. -/
  | laneNop (g : Fin 16) (hd : LaneHdr) (bad : Bool)
  /-- LANE_END (R177): Ends the kernel for every lane. -/
  | laneEnd (g : Fin 16)
  /-- LANE_EXIT (R184): Lanes with the condition end permanently. -/
  | laneExit (g : Fin 16) (c : LaneCtl)
  /-- LANE_IF (R184): Pushes an IF entry and narrows the active mask. -/
  | laneIf (g : Fin 16) (c : LaneCtl)
  /-- LANE_ELSE (R184): Switches the active mask to the lanes that did not take the IF. -/
  | laneElse (g : Fin 16) (c : LaneCtl)
  /-- LANE_ENDIF (R184): Restores the active mask and pops the entry. -/
  | laneEndif (g : Fin 16)
  /-- LANE_LOOP (R184): Pushes a LOOP entry. -/
  | laneLoop (g : Fin 16)
  /-- LANE_BRK (R184): Removes lanes with the condition from the loop. -/
  | laneBrk (g : Fin 16) (c : LaneCtl)
  /-- LANE_CONT (R184): Parks lanes with the condition until ENDL. -/
  | laneCont (g : Fin 16) (c : LaneCtl)
  /-- LANE_ENDL (R184): Repeats the loop for remaining lanes or pops the entry. -/
  | laneEndl (g : Fin 16)
  /-- LANE_JMP (R185): Uniform jump. -/
  | laneJmp (g : Fin 16) (c : LaneCtl) (outside : Bool)
  /-- LANE_BANY (R185): Branches if the condition holds for any active lane. -/
  | laneBany (g : Fin 16) (c : LaneCtl) (outside : Bool)
  /-- LANE_BALL (R185): Branches if the condition holds for all active lanes. -/
  | laneBall (g : Fin 16) (c : LaneCtl) (outside : Bool)
  /-- LANE_BNONE (R185): Branches if the condition holds for no active lane. -/
  | laneBnone (g : Fin 16) (c : LaneCtl) (outside : Bool)
  /-- LANE_IADD (R177): Integer addition per lane. -/
  | laneIadd (g : Fin 16) (hd : LaneHdr) (la lb : Fin 64)
  /-- LANE_ISUB (R177): Integer subtraction per lane. -/
  | laneIsub (g : Fin 16) (hd : LaneHdr) (la lb : Fin 64)
  /-- LANE_IMUL (R177): Low 32 bits of the product per lane. -/
  | laneImul (g : Fin 16) (hd : LaneHdr) (la lb : Fin 64)
  /-- LANE_IMULH (R177): High 32 bits of the product per lane. -/
  | laneImulh (g : Fin 16) (hd : LaneHdr) (t : Fin 16) (la lb : Fin 64)
  /-- LANE_IMAD (R177): Integer multiply-add per lane. -/
  | laneImad (g : Fin 16) (hd : LaneHdr) (la lb lc : Fin 64)
  /-- LANE_AND (R177): Bitwise AND per lane. -/
  | laneAnd (g : Fin 16) (hd : LaneHdr) (la lb : Fin 64)
  /-- LANE_OR (R177): Bitwise OR per lane. -/
  | laneOr (g : Fin 16) (hd : LaneHdr) (la lb : Fin 64)
  /-- LANE_XOR (R177): Bitwise XOR per lane. -/
  | laneXor (g : Fin 16) (hd : LaneHdr) (la lb : Fin 64)
  /-- LANE_SHL (R177): Left shift per lane. -/
  | laneShl (g : Fin 16) (hd : LaneHdr) (la lb : Fin 64)
  /-- LANE_SHR (R177): Logical right shift per lane. -/
  | laneShr (g : Fin 16) (hd : LaneHdr) (la lb : Fin 64)
  /-- LANE_SAR (R177): Arithmetic right shift per lane. -/
  | laneSar (g : Fin 16) (hd : LaneHdr) (la lb : Fin 64)
  /-- LANE_IMIN (R177): Signed minimum per lane. -/
  | laneImin (g : Fin 16) (hd : LaneHdr) (la lb : Fin 64)
  /-- LANE_IMAX (R177): Signed maximum per lane. -/
  | laneImax (g : Fin 16) (hd : LaneHdr) (la lb : Fin 64)
  /-- LANE_ICMP (R177): Integer compare into a predicate. -/
  | laneIcmp (g : Fin 16) (hd : LaneHdr) (kd : Fin 8) (t : Fin 16) (la lb : Fin 64)
  /-- LANE_SEL (R177): Selects by predicate. -/
  | laneSel (g : Fin 16) (hd : LaneHdr) (kd : Fin 8) (la lb : Fin 64)
  /-- LANE_POPC (R177): Population count per lane. -/
  | lanePopc (g : Fin 16) (hd : LaneHdr) (la : Fin 64)
  /-- LANE_FADD (R178): binary32 addition per lane. -/
  | laneFadd (g : Fin 16) (hd : LaneHdr) (t : Fin 16) (la lb : Fin 64)
  /-- LANE_FSUB (R178): binary32 subtraction per lane. -/
  | laneFsub (g : Fin 16) (hd : LaneHdr) (t : Fin 16) (la lb : Fin 64)
  /-- LANE_FMUL (R178): binary32 multiplication per lane. -/
  | laneFmul (g : Fin 16) (hd : LaneHdr) (t : Fin 16) (la lb : Fin 64)
  /-- LANE_FFMA (R178): Fused binary32 multiply-add per lane. -/
  | laneFfma (g : Fin 16) (hd : LaneHdr) (t : Fin 16) (la lb lc : Fin 64)
  /-- LANE_FMIN (R178): binary32 minimumNumber per lane. -/
  | laneFmin (g : Fin 16) (hd : LaneHdr) (t : Fin 16) (la lb : Fin 64)
  /-- LANE_FMAX (R178): binary32 maximumNumber per lane. -/
  | laneFmax (g : Fin 16) (hd : LaneHdr) (t : Fin 16) (la lb : Fin 64)
  /-- LANE_FCMP (R178): binary32 compare into a predicate. -/
  | laneFcmp (g : Fin 16) (hd : LaneHdr) (kd : Fin 8) (t : Fin 16) (la lb : Fin 64)
  /-- LANE_FRCP (R178): Reciprocal per lane. -/
  | laneFrcp (g : Fin 16) (hd : LaneHdr) (t : Fin 16) (la : Fin 64)
  /-- LANE_FRSQ (R178): Reciprocal square root per lane. -/
  | laneFrsq (g : Fin 16) (hd : LaneHdr) (t : Fin 16) (la : Fin 64)
  /-- LANE_FTOI (R177): Float to integer toward zero, saturated, per lane. -/
  | laneFtoi (g : Fin 16) (hd : LaneHdr) (la : Fin 64)
  /-- LANE_ITOF (R177): Integer to float per lane. -/
  | laneItof (g : Fin 16) (hd : LaneHdr) (la : Fin 64)
  /-- LANE_MOV (R177): Register copy per lane. -/
  | laneMov (g : Fin 16) (hd : LaneHdr) (la : Fin 64)
  /-- LANE_SHFL (R179): Reads La of an indexed lane. -/
  | laneShfl (g : Fin 16) (hd : LaneHdr) (la lb : Fin 64)
  /-- LANE_SHFLX (R179): Reads La of the lane at own index XOR Lb. -/
  | laneShflx (g : Fin 16) (hd : LaneHdr) (la lb : Fin 64)
  /-- LANE_VOTE (R179): Collects a predicate over active lanes into a mask. -/
  | laneVote (g : Fin 16) (hd : LaneHdr) (kd : Fin 8)
  /-- LANE_SVAL (R177): Reads a special value such as lane index, TB or an argument word. -/
  | laneSval (g : Fin 16) (hd : LaneHdr) (imm : Word)
  /-- LANE_KOP (R177): Predicate logic operation. -/
  | laneKop (g : Fin 16) (hd : LaneHdr) (kd : Fin 8) (t : Fin 16) (ka kb : Fin 8)
  /-- LANE_LD (R180): Lane load through L1, uncached or LMEM. -/
  | laneLd (g : Fin 16) (hd : LaneHdr) (sz spc : Fin 4) (la : Fin 64) (off : BitVec 24) (u : Upset)
  /-- LANE_ST (R182): Lane store through L1, uncached or LMEM. -/
  | laneSt (g : Fin 16) (hd : LaneHdr) (sz spc : Fin 4) (la ls : Fin 64) (off : BitVec 24)
  /-- LANE_ATOM (R182): Lane atomic operation, performed in ascending lane order. -/
  | laneAtom (g : Fin 16) (hd : LaneHdr) (spc : Fin 4) (aop : Fin 16) (la ls : Fin 64) (off : BitVec 24)
  /-- LANE_HADDR (R183): Validates a pool handle and returns its buffer address, or faults with HANDLE. -/
  | laneHaddr (g : Fin 16) (hd : LaneHdr) (la : Fin 64) (off : BitVec 24)
  /-- LANE_LFENCE (R182): Orders LMEM accesses or writes back dirty L1 lines. -/
  | laneLfence (g : Fin 16) (hd : LaneHdr) (aop : Fin 16)
  /-- LANE_IMMEDIATE_FORM (R177): An immediate form of ops 0x10–0x2B with imm32 in place of Lb. -/
  | laneImmediateForm (g : Fin 16) (hd : LaneHdr) (op : Byte) (kd : Fin 8) (t : Fin 16) (la : Fin 64) (imm : Word)
  /-- LANE_SHFLI (R177): SHFL with an immediate lane index. -/
  | laneShfli (g : Fin 16) (hd : LaneHdr) (la : Fin 64) (imm : Word)
  /-- LANE_SHFLXI (R177): SHFLX with an immediate. -/
  | laneShflxi (g : Fin 16) (hd : LaneHdr) (la : Fin 64) (imm : Word)
  /-- SCRUB_READ (R192): Every INTERVAL BUS_CLK, the MRC scrubs the next MRAM word and signals the end of each pass. -/
  | scrubRead (found : Upset)
  /-- SRAM_SCRUB_READ (R202): Every INTERVAL BUS_CLK, the Hub scrubs the next SRAM word. -/
  | sramScrubRead (found : Upset)
  /-- APPEND_ADDR (R196): A write to MRC_LSn_APPEND_ADDR queues one record append, or is discarded with QUEUE_FULL. -/
  | appendAddr (acc : Access) (n : Fin 16) (v : Word)
  /-- APPEND_HDL (R196): A write to MRC_LSn_APPEND_HDL queues a pool buffer for appending as consecutive records. -/
  | appendHdl (acc : Access) (n : Fin 16) (v : Word)
  /-- APPEND_COMMIT (R197): A record's word 7 is written; the append commits and HEAD advances, or the append is refused with STREAM_FULL. -/
  | appendCommit
  /-- MRC_RELEASE (R198): A write of N to MRC_LSn_RELEASE advances TAIL and rewrites the header, or is refused with BAD_RELEASE. -/
  | mrcRelease (acc : Access) (n : Fin 16) (v : Word)
  /-- LOG_STREAM_ENABLE (R200): Writing EN from 0 to 1 starts the stream's recovery scan and holds appends. -/
  | logStreamEnable (acc : Access) (n : Fin 16) (v : Word)
  /-- RECOVERY_SCAN_DONE (R200): The scan ends; HEAD and TAIL are set, the header is rewritten if bad, and appends resume. -/
  | recoveryScanDone (n : Fin 16)
  /-- SRAM_INIT_DONE (R201): The SRAM zeroing after VCORE power-up ends; INIT_DONE sets and Crocus may start. -/
  | sramInitDone
  /-- OWNERSHIP_GRANT (R204): A queued ownership request on a TRANSIT line is granted after the writeback, in rotating order. -/
  | ownershipGrant (line : Nat) (arrivals : List Agent)
  /-- L2_EVICTION (R207): The L2 evicts a line, recalling and invalidating every agent copy first. -/
  | l2Eviction (line : Nat) (found : List (Fin 8 × Upset))
  /-- DDR_REFRESH (R215): An all-bank refresh is issued every 3.904 µs, or sooner when MR4 requires it. -/
  | ddrRefresh
  /-- MR4_READ (R215): Every 16 ms MR4 is read; a rising multiplier sets DERATE and asserts line 60. -/
  | mr4Read (v : Byte) (above : Bool)
  /-- CLUSTER_MODE_WRITE (R217): A write of LAC_LCc_CFG.MODE takes effect if the cluster is idle, and otherwise sets MODE_REJ. -/
  | clusterModeWrite (acc : Access) (c : Fin 4) (v : Word)
  /-- LAC_PUSH (R219): A descriptor address is queued on a LAC queue, or discarded with FULL or NO_GROUP. -/
  | lacPush (acc : Access) (q : Fin 16) (v : Word)
  /-- DISPATCH (R224): A queue's head descriptor is read and checked, the L1 part is invalidated and the kernel starts, or the descriptor is rejected. -/
  | dispatch (q : Fin 16)
  /-- GANG_START (R223): Every cluster named by a gang descriptor is idle; the gang starts on all of them on one LANE_CLK edge. -/
  | gangStart
  /-- ISL_GO (R220): A write of 1 to LAC_LCc_ISL_GO starts a store load, or refuses it with ISL_CODE. -/
  | islGo (acc : Access) (c : Fin 4) (v : Word)
  /-- ISL_DONE (R220): The last byte of a store load is written and ISL_BUSY clears. -/
  | islDone (c : Fin 4)
  /-- KERNEL_COMPLETION (R229): A kernel ends; dirty L1 bytes are written back, the record is written and the completion line asserts. -/
  | kernelCompletion (q : Fin 16)
  /-- KERNEL_LIMIT (R232): A kernel's cycle limit expires; the group completes with LIMIT and its queue halts. -/
  | kernelLimit (q : Fin 16)
  /-- RESUME (R231): LAC_Qq_CTL.RESUME clears HALTED. -/
  | resume (acc : Access) (q : Fin 16)
  /-- FLUSH (R231): LAC_Qq_CTL.FLUSH discards every undispatched descriptor of the queue. -/
  | flush (acc : Access) (q : Fin 16)
  /-- ABORT (R231): LAC_Qq_CTL.ABORT stops the running kernel and completes it with ABORT. -/
  | abort (acc : Access) (q : Fin 16)
  /-- AVS_THROTTLE (R238): MARGIN falls below 4, or stays there for another 10 µs; LANE_CLK is throttled one step, line 84 asserts and SAFE_ACT sets. -/
  | avsThrottle (margin : Fin 64)
  /-- AVS_UNTHROTTLE (R238): MARGIN has stayed at 16 or above for 100 µs while throttled; the loop steps back one throttle step. -/
  | avsUnthrottle (margin : Fin 64)
  /-- AVS_STEP (R239): Every 10 µs the AVS loop moves VCORE 5 mV toward its demand, hint, pin or slew target. -/
  | avsStep (margin : Fin 64)
  /-- ALLOC (R249): A read of offset 0 of an operation window allocates a buffer for the reader's TID, or returns a failure word. -/
  | alloc (acc : Access) (p : Fin 16)
  /-- FREE (R254): A handle written to offset 0x004 releases the buffer, or decrements REFCNT in COUNT mode. -/
  | free (acc : Access) (p : Fin 16) (v : Word)
  /-- REF (R254): A handle written to offset 0x008 increments REFCNT in COUNT mode. -/
  | ref (acc : Access) (p : Fin 16) (v : Word)
  /-- GIVE (R254): A handle written to GIVE_t moves the buffer's ownership and quota charge to tenant t. -/
  | give (acc : Access) (p : Fin 16) (t : BitVec 7) (v : Word)
  /-- CACHE_REFILL (R249): The cache falls below W; up to 8 handles are fetched from the ring, and any held ALLOC is served. -/
  | cacheRefill (p : Fin 16)
  /-- CACHE_SPILL (R249): The cache rises above W + 8; 8 handles are written back to the ring. -/
  | cacheSpill (p : Fin 16)
  /-- POOL_INIT_DONE (R241): Pool initialisation ends, STAT.INIT clears, and held requests are served. -/
  | poolInitDone (p : Fin 16)
  /-- REGULAR_TRIGGER (R276): A regular trigger registers on a core and starts its delay, or is ignored, held or lost by state. -/
  | regularTrigger (a : Fin 4)
  /-- INJECTED_TRIGGER (R278): An injected trigger registers, pre-empting a regular pass under INJ_POLICY. -/
  | injectedTrigger (a : Fin 4)
  /-- SWTRIG (R277): A write to ADC_Aa_SWTRIG triggers the core's regular or injected sequence. -/
  | swtrig (acc : Access) (a : Fin 4) (v : Word)
  /-- SWTRIG_ALL (R277): A write to ADC_SWTRIG_ALL triggers the named sequences on one ADC_CLK edge. -/
  | swtrigAll (acc : Access) (v : Word)
  /-- TRIGGER_DELAY_EXPIRY (R276): The trigger delay D expires; acquisition starts, or the start-up delay begins after PD. -/
  | triggerDelayExpiry (a : Fin 4) (inj : Bool)
  /-- STARTUP_END (R275): The 40 ADC_CLK start-up delay ends and the first acquisition starts. -/
  | startupEnd (a : Fin 4)
  /-- CONVERSION_END (R273): A conversion ends; it is calibrated and averaged, the slot result is written, and the pass continues or ends. -/
  | conversionEnd (a : Fin 4) (code : BitVec 18) (sat : Bool) (tb : BitVec 64)
  /-- ADC_FIFO_POP (R280): A read of ADC_Aa_FIFO pops the oldest result, or returns 0. -/
  | adcFifoPop (acc : Access) (a : Fin 4)
  /-- STREAM_BUFFER_CLOSE (R283): A full stream buffer's header and LEN are written, its handle enters the DONE queue and the spare opens. -/
  | streamBufferClose (a : Fin 4)
  /-- STRM_DONE_POP (R284): A read of STRM_DONE pops a closed buffer's handle, or returns 0. -/
  | strmDonePop (acc : Access) (a : Fin 4)
  /-- IEPE_MONITOR_READING (R267): Every 100 µs the IEPE bias is measured; 8 readings in a new band change the state. -/
  | iepeMonitorReading (n : Fin 8) (bias : BitVec 12)
  /-- IEPE_SETTLED (R268): The 2.5 s settling after NORMAL entry or a TEDS access ends and INV clears. -/
  | iepeSettled (n : Fin 8)
  /-- TEDS_PRESENCE (R270): The 1-Wire presence wait ends and decides between NORMAL and NORMAL_TEDS. -/
  | tedsPresence (n : Fin 8) (seen : Bool)
  /-- TEDS_GO (R271): A write of ADC_TEDS_CTL with GO = 1 starts a TEDS read, or refuses it. -/
  | tedsGo (acc : Access) (v : Word)
  /-- TEDS_DONE (R271): The TEDS read ends, the current source is restored, and DONE is set with its outcome flags. -/
  | tedsDone (seen : Bool) (rom : BitVec 64) (data : List Byte)
  /-- CAL_LOAD (R288): A write of 1 to ADC_CAL.LOAD stages the active calibration bank again. -/
  | calLoad (acc : Access) (v : Word)
  /-- CAL_STAGED (R288): Calibration staging ends, with BAD and the identity table if the checks fail. -/
  | calStaged
  /-- BST1_CURRENT_LIMIT (R287): BST1 reaches 80 mA and limits, and SAFE_ACT sets. -/
  | bst1CurrentLimit (ma : BitVec 8) (limits : Bool)
  /-- DRV_UPDATE (R295): A DRV trigger registers; the fetched code is latched, the next sample is fetched, and the finished buffer is freed. -/
  | drvUpdate (n : Fin 4) (gap : Nat)
  /-- SAMPLE_FETCH (R297): The fetcher's read of the next sample returns, or validates the next queued handle. -/
  | sampleFetch (n : Fin 4)
  /-- DRV_PUSH (R296): A handle written to DRVn_PUSH is queued, or discarded with PUSH_FULL. -/
  | drvPush (acc : Access) (n : Fin 4) (v : Word)
  /-- DRV_DIRECT (R294): A write of DRVn_DIRECT latches at once with TRIG 0, or at the next trigger. -/
  | drvDirect (acc : Access) (n : Fin 4) (v : Word)
  /-- CL_CODE (R300): A write of CLn_CODE sets the loop current within 10 µs. -/
  | clCode (acc : Access) (n : Fin 4) (v : Word)
  /-- CL_MONITOR_READING (R301): Every 10 µs headroom and current are measured, and HEADROOM or DEVIATION update. -/
  | clMonitorReading (n : Fin 4) (hr : BitVec 12) (irb : BitVec 16)
  /-- FAULT_RETRY_WINDOW (R302): Every 10 ms a channel at its fault level returns to I_CMD for 40 µs to test the headroom. -/
  | faultRetryWindow (n : Fin 4)
  /-- BST2_STEP (R304): Every 10 µs BST2 takes the channel demands and rises 0.5 V toward a higher one. -/
  | bst2Step (ma : BitVec 8) (limits : Bool)
  /-- GT_COMPARE_MATCH (R314): A GT tick produces COUNT = CMPk; CMPk sets, the output action applies and the event pulses. -/
  | gtCompareMatch (n : Fin 16)
  /-- GT_WRAP (R313): A FREE GT wraps from 0xFFFF_FFFF to 0 and WRAP sets. -/
  | gtWrap (n : Fin 16)
  /-- GT_RELOAD (R315): A DOWN GT's zero cycle loads RELOAD, or stops a one-shot, and WRAP sets. -/
  | gtReload (n : Fin 16)
  /-- COUNT_WRITE (R312): A write of GT or PT COUNT sets the count, discards a same-edge tick and clears the prescaler. -/
  | countWrite (acc : Access) (t : Fin 20) (v : Word)
  /-- GT_CAPTURE (R317): A capture edge registers; CAP and its TB stamp are latched, and OVR sets if CAP was unread. -/
  | gtCapture (n : Fin 16) (falling : Bool := false)
  /-- CAP_READ (R318): A read of CAP latches CAP_TBL and CAP_TBH into the reader's snapshot. -/
  | capRead (acc : Access) (n : Fin 16)
  /-- PT_PERIOD_START (R319): A PT tick produces COUNT = 0; the buffers load, PSTART sets and an event may pulse. -/
  | ptPeriodStart (n : Fin 4)
  /-- PT_DUTY_MATCH (R319): A PT count reaches DUTYk and the raw output signal falls. -/
  | ptDutyMatch (n : Fin 4)
  /-- DEAD_TIME_EXPIRY (R321): DT PER_CLK after a raw edge, the delayed rise of a complementary output takes place. -/
  | deadTimeExpiry (n : Fin 4) (o : Fin 4)
  /-- PT_EVCMP_MATCH (R322): A PT counting up produces COUNT = EVCMP, sets EVT and may pulse its event. -/
  | ptEvcmpMatch (n : Fin 4)
  /-- RUN_WRITE (R320): A write of CTL.RUN starts or stops a timer; 0 to 1 loads PT buffers at once. -/
  | runWrite (acc : Access) (t : Fin 20) (v : Word)
  /-- TMR_START (R324): The named owned timers start on one PER_CLK edge. -/
  | tmrStart (acc : Access) (v : Word)
  /-- TMR_STOP (R324): The named owned timers stop on one PER_CLK edge. -/
  | tmrStop (acc : Access) (v : Word)
  /-- TBS_FIRE (R325): TB reaches the armed start time; the masked timers start and HIT sets. -/
  | tbsFire
  /-- TB_READ (R326): A read of TB_LO returns TB[31:0] and latches TB[63:32] into the reader's snapshot. -/
  | tbRead (acc : Access)
  /-- TB_SET (R327): TB_CTL.SET makes TB take TB_SET at the next PER_CLK edge. -/
  | tbSet (acc : Access) (v : Word)
  /-- TB_ADJ (R327): A write of TB_ADJ adds the signed value to TB at the next edge. -/
  | tbAdj (acc : Access) (v : Word)
  /-- TB_ALARM (R328): TB reaches the armed alarm time; ARM clears, HIT sets and line 180 may assert. -/
  | tbAlarm (lsx irc : Nat := 0)
  /-- UART_TX_PUSH (R339): A DATA write pushes a character, or sets TXOVR when the FIFO is full. -/
  | uartTxPush (acc : Access) (u : Fin 7) (v : Word)
  /-- UART_RX_POP (R339): A DATA read pops the oldest character with its flags. -/
  | uartRxPop (acc : Access) (u : Fin 7)
  /-- UART_CHARACTER_START (R340): The transmitter starts a character when the TX FIFO holds one and CTS allows. -/
  | uartCharacterStart (u : Fin 7) (ctsLow : Bool)
  /-- UART_CHARACTER_SENT (R335): The last stop bit of a character has been sent. -/
  | uartCharacterSent (u : Fin 7)
  /-- UART_START_DETECT (R336): RX reads 0 after 1; a frame starts, or it is discarded as GLITCH. -/
  | uartStartDetect (u : Fin 7) (startSample : Bool)
  /-- UART_FRAME_RECEIVED (R337): The stop sample is taken; the character enters the RX FIFO with FE, PE, BRK, or OVR if full. -/
  | uartFrameReceived (u : Fin 7) (data : BitVec 9) (par stop : Bool)
  /-- RXTO (R339): The RX FIFO holds data and no start edge has come for TOUT bit times. -/
  | rxto (u : Fin 7)
  /-- UART_CFG_WRITE (R341): A write of CFG or BAUD is applied while EN = 0, and while enabled changes only EN with CFG_REJ. -/
  | uartCfgWrite (acc : Access) (u : Fin 7) (baud : Bool) (v : Word)
  /-- RXFLUSH (R339): Empties the RX FIFO. -/
  | rxflush (acc : Access) (u : Fin 7)
  /-- TXFLUSH (R339): Empties the TX FIFO. -/
  | txflush (acc : Access) (u : Fin 7)
  /-- UART_BREAK (R333): CTL.BREAK holds TX low. -/
  | uartBreak (acc : Access) (u : Fin 7) (on : Bool)
  /-- TXREQ (R344): Marks CAN transmit buffers pending. -/
  | txreq (acc : Access) (n : Fin 2) (v : Word)
  /-- TXCANCEL (R344): Withdraws pending CAN transmit buffers that have not reached the bus. -/
  | txcancel (acc : Access) (n : Fin 2) (v : Word)
  /-- CAN_FRAME_SENT (R344): A CAN frame completes or fails on the bus, is stamped or retried, and the error counters update. -/
  | canFrameSent (n : Fin 2) (r : CanSent) (tb : DWord)
  /-- CAN_FRAME_RECEIVED (R345): A CAN frame is filtered and stored stamped in the RX FIFO, or discarded with RXOVR. -/
  | canFrameReceived (n : Fin 2) (id ctrl : Word) (data : List Byte) (tb : DWord) (err : Bool) (sof eight : Bool := false)
  /-- RXF_POP (R345): Releases the head entry of the CAN RX FIFO. -/
  | rxfPop (acc : Access) (n : Fin 2)
  /-- RECOVER (R346): Starts bus-off recovery when AUTO_REC is 0. -/
  | recover (acc : Access) (n : Fin 2)
  /-- BUS_OFF_RECOVERY (R346): 128 occurrences of 11 recessive bits have been seen, and the controller rejoins the bus. -/
  | busOffRecovery (n : Fin 2) (once : Bool := false)
  /-- SPI_TX_PUSH (R347): A DATA write pushes a TX word. -/
  | spiTxPush (acc : Access) (n : Fin 4) (v : Word)
  /-- SPI_RX_POP (R347): A DATA read pops an RX word. -/
  | spiRxPop (acc : Access) (n : Fin 4)
  /-- SPI_FRAME_START (R347): A master starts a frame when a TX word and RX room exist, or a slave frame begins. -/
  | spiFrameStart (n : Fin 4)
  /-- SPI_FRAME_END (R347): A frame ends and its received word is stored, or UDR or OVR sets. -/
  | spiFrameEnd (n : Fin 4) (v : Word)
  /-- I2C_CMD (R348): A write of CMD queues an I2C controller command entry. -/
  | i2cCmd (acc : Access) (n : Fin 4) (v : Word)
  /-- I2C_BYTE_DONE (R348): A command byte completes, with ARBLOST or NACKED handling. -/
  | i2cByteDone (n : Fin 4) (nack arb : Bool) (b : Byte)
  /-- I2C_RX_POP (R348): A read of RXDATA pops a received byte. -/
  | i2cRxPop (acc : Access) (n : Fin 4)
  /-- CLEAR (R348): Sends 9 SCL pulses and a STOP. -/
  | clear (acc : Access) (n : Fin 4)
  /-- SCL_STUCK (R348): SCL has been held low longer than TMO ms. -/
  | sclStuck (n : Fin 4)
  /-- I2C_TARGET_ADDRESSED (R348): The target port is addressed and transfers bytes, stretching SCL as needed. -/
  | i2cTargetAddressed (n : Fin 4) (written : List Byte) (reads : Nat) (adr : Option (Bool × BitVec 10) := none)
  /-- ICMD (R350): A write of XSPI_ICMD from T0 starts an indirect command, or is refused with ICMD_REJ. -/
  | icmd (acc : Access) (v : Word)
  /-- POLL_READ (R351): Every 1 µs during polling the status register is read and compared with POLL_RDY. -/
  | pollRead (status : Byte)
  /-- POLL_TMO (R351): Polling exceeds POLL_TMO ms; it stops, line 213 asserts and window reads resume. -/
  | pollTmo
  /-- ICMD_DONE (R350): An indirect command and its polling end; invalidation runs and line 212 asserts. -/
  | icmdDone (data : List Byte) (cells : List (BitVec 28 × Byte))
  /-- WINDOW_READ (R349): A read of the xSPI window fills a line in the negotiated mode, waiting for an indirect command. -/
  | windowRead (l : BitVec 22)
  /-- LF_ENABLE (R358): Enabling the link follower writes the PHY advertisements and restarts autonegotiation. -/
  | lfEnable (acc : Access) (n : Fin 2) (v : Word)
  /-- LF_POLL (R358): Every 10 ms the link follower reads PHY status and resolves the mode on a transition to up. -/
  | lfPoll (n : Fin 2) (r1 r4 r5 r9 r10 : BitVec 16)
  /-- MDIO_CMD (R357): A write of MDIO_CMD starts an MDIO frame, or sets MDIO_REJ while busy. -/
  | mdioCmd (acc : Access) (n : Fin 2) (v : Word)
  /-- MDIO_DONE (R357): An MDIO frame ends; BUSY clears, DONE sets and line 219 asserts if enabled. -/
  | mdioDone (n : Fin 2) (data : BitVec 16)
  /-- TXQ_PUSH (R362): A handle written to ETHn_TXQq_PUSH is queued, or discarded with TXQ_FULL. -/
  | txqPush (acc : Access) (n : Fin 2) (q : Fin 8) (v : Word)
  /-- TX_FRAME_START (R363): At a frame boundary the highest eligible queue's frame is validated and starts. -/
  | txFrameStart (n : Fin 2) (w6 w7 : Nat)
  /-- TX_FRAME_DONE (R362): The last FCS byte leaves; the buffer is freed, the timestamp queued and line 215 asserts. -/
  | txFrameDone (n : Fin 2) (ns other : Nat) (ok : Bool)
  /-- RX_FRAME (R364): A received frame is timestamped, checked, examined for PTP, classified and delivered or dropped. -/
  | rxFrame (n : Fin 2) (bs : List Byte) (fcsOk : Bool)
  /-- FU_MISS (R370): A Sync gets no matching Follow_Up within 100 ms and is dropped. -/
  | fuMiss (n : Fin 2)
  /-- RXQ_POP (R366): A read of RXQr_POP returns the oldest handle, or 0. -/
  | rxqPop (acc : Access) (n : Fin 2) (r : Fin 16)
  /-- TXTS_POP (R369): A read of TXTS_TBL pops a transmit timestamp and latches TBH and INFO. -/
  | txtsPop (acc : Access) (n : Fin 2)
  /-- ETH_CFG_WRITE (R356): CFG, MAXLEN or PVID write is applied while EN = 0, and otherwise ignored with CFG_REJ. -/
  | ethCfgWrite (acc : Access) (n : Fin 2) (maxlen : Bool) (v : Word)
  /-- SCAN_START (R379): Every SCAN_PER-th scan-timer tick starts a scan: conversions, biquads, threshold, rules and records. -/
  | scanStart (codes : List (BitVec 12)) (pins : Byte) (wake late : Bool) (lsx irc : Nat)
  /-- SCAN_STALL (R387): No scan completes in 4 consecutive ticks with ON_STALL = 1, and SAFE_TRIP trips. -/
  | scanStall
  /-- BQ_CLR (R380): A write of BQb_CLR clears the biquad's states. -/
  | bqClr (acc : Access) (b : Fin 4)
  /-- TRIP (R387): The TRIP key trips SAFE_TRIP. -/
  | trip (acc : Access)
  /-- RELEASE (R388): The RELEASE key clears TRIPPED if allowed, or sets REL_REJ. -/
  | release (acc : Access) (below : Bool := false)
  /-- WDP_KICK (R395): A write to WDP_KICK reloads WDP, or causes expiry if wrong. -/
  | wdpKick (acc : Access) (v : Word) (elapsed : Nat)
  /-- WDP_EXPIRY (R395): WDP reaches 0; the Polder core resets alone, a WDP record is written and SAFE_TRIP trips if ON_WDP. -/
  | wdpExpiry
  /-- POL_CORE_START (R377): The START key clears CORE_HELD and starts the Polder core. -/
  | polCoreStart (acc : Access)
  /-- POL_CORE_RESET (R377): The RESET key restarts the Polder core with cause MAIN_REQ. -/
  | polCoreReset (acc : Access)
  /-- ISLAND_LINE_ENTRY (R378): An enabled pending island line is entered by the Polder core. -/
  | islandLineEntry
  /-- HAND_TAKE (R392): The TAKE key sets POL_HAND.MODE to MAIN and writes a HANDOVER record. -/
  | handTake (acc : Access)
  /-- HAND_GIVE (R392): The GIVE key returns POL_HAND.MODE to ISLAND. -/
  | handGive (acc : Access)
  /-- HAND_REQ_SET (R393): The Polder core sets POL_HAND.REQ, which wakes or powers up the main domain. -/
  | handReqSet
  /-- HAND_REQ_CLEAR (R393): A main core with TID 0 clears REQ. -/
  | handReqClear (acc : Access)
  /-- WAKE_IN_EDGE (R393): A WAKE_IN edge sets REQ when enabled and island line 5. -/
  | wakeInEdge (falling : Bool)
  /-- PGPIO_EDGE (R378): An enabled PGPIO edge sets EVT and island line 4. -/
  | pgpioEdge (k : Fin 8) (level : Bool)
  /-- LOG_PUSH (R389): A write of POL_LOG_PUSH writes a CORE record into the island ring. -/
  | logPush
  /-- LOG_DRAIN (R391): While MAIN_UP, the oldest island record is appended to its MRAM stream and removed after commit. -/
  | logDrain
  /-- DRAIN_RETRY (R391): 1 ms after a refused drain append, the record is offered again. -/
  | drainRetry
  /-- MAIN_DB (R34): The Polder core rings the main doorbell, asserting line 255. -/
  | mainDb
  /-- POL_DB (R378): A main core rings the island doorbell, raising island line 2. -/
  | polDb (acc : Access)
  /-- RETRAIN (R398): The RETRAIN key starts Dike link training. -/
  | retrain (acc : Access)
  /-- TRAINING_RESTART (R398): 100 µs after a link fault, or 100 ms after an alignment failure, training starts again. -/
  | trainingRestart
  /-- LANE_ALIGNED (R398): A lane receives 64 consecutive error-free training sequences and the capability frame is sent. -/
  | laneAligned (lane : Fin 2)
  /-- ALIGN_TIMEOUT (R398): No lane aligns within 1 ms, and a retry is scheduled in 100 ms. -/
  | alignTimeout
  /-- CAPABILITY_FRAME (R398): The peer's capability frame is received; version and mode are chosen and the PRBS test starts. -/
  | capabilityFrame (verMin verMax ceil : Byte) (lanes pref : BitVec 2) (serial : DWord) (roleHeld : Bool) (bound : Bool := false)
  /-- PRBS_CHECK_END (R398): The 100 µs PRBS test ends; the mode steps down or training ends and NEG_RESULT is written. -/
  | prbsCheckEnd (err : Bool)
  /-- LINK_FAULT (R400): Lost sync or CRC errors end the link; LINK_ERR sets and heartbeats stop. -/
  | linkFault
  /-- HEARTBEAT_SEND (R408): Every 100 µs of TB a HEARTBEAT frame is sent. -/
  | heartbeatSend
  /-- HEARTBEAT (R408): A valid heartbeat is received; PEER_OFS updates and the miss count restarts. -/
  | heartbeat (ok : Bool) (txTb echoTx echoRx : DWord) (flags : Byte)
  /-- HB_MISS (R409): A 100 µs window passes without a heartbeat; MISSED counts, and the third miss sets HB_LOST. -/
  | hbMiss (low : Bool)
  /-- TRACK (R306): A TRACK frame delivers a latched drive code to the standby. -/
  | track (ok : Bool) (n : Fin 4) (code : BitVec 20)
  /-- HANDOVER_REQ (R419): The STANDBY answers HANDOVER_ACK or HANDOVER_NAK and arms itself around T_H. -/
  | handoverReq (ok : Bool) (tH : DWord)
  /-- HANDOVER_ACK (R419): The ACTIVE records the ACK for the planned handover. -/
  | handoverAck (ok : Bool) (tH : DWord)
  /-- HANDOVER_NAK (R419): The ACTIVE records that the handover is refused. -/
  | handoverNak (ok : Bool) (tH : DWord)
  /-- MIRROR_NAK (R411): The ACTIVE counts one REFUSED for the window. -/
  | mirrorNak (ok : Bool) (w : Fin 16)
  /-- MIRROR (R412): A MIRROR frame is written to the target bank; the LAST frame commits CUR or tears the window. -/
  | mirror (ok : Bool) (w : Fin 16) (last : Bool) (gen ofs wcrc : Word) (data : List Byte)
  /-- MESSAGE (R416): A MESSAGE frame is written into a pool buffer and queued when whole. -/
  | message (ok : Bool) (no ofs total : Word) (data : List Byte)
  /-- CLAIM (R420): The CLAIM key starts a claim under the guard and arbitration procedure. -/
  | claim (acc : Access)
  /-- CLAIM_GUARD_EXPIRY (R404): TW_ROLE has been high for 20 µs; the start pulse and serial arbitration run. -/
  | claimGuardExpiry
  /-- CLAIM_END (R404): Arbitration ends; the winner holds TW_ROLE and becomes ACTIVE, and the loser becomes ISOLATED_STANDBY. -/
  | claimEnd (win : Bool) (slots : List Bool := [])
  /-- LONE_TMO (R407): LONE_TMO ms pass without pairing, and the device claims. -/
  | loneTmo (low : Bool)
  /-- FAILOVER (R417): HB_LOST or LEAVE with TW_ROLE high makes the STANDBY pull TW_ROLE low and become ACTIVE. -/
  | failover (low : Bool)
  /-- ROLE_FAULT (R403): TW_ROLE is sensed high while driven; TW_DRIVE_OWN falls and ROLE_FAULT sets. -/
  | roleFault
  /-- DRIVE_OWN_RESTORE (R403): TW_ROLE has been sensed low for 10 µs and TW_DRIVE_OWN rises again. -/
  | driveOwnRestore
  /-- HANDOVER (R419): The HANDOVER key on the ACTIVE sends HANDOVER_REQ with T_H. -/
  | handover (acc : Access)
  /-- HANDOVER_ABORT (R419): At T_H − 2 µs without an ACK, the ACTIVE aborts with HO_REJ. -/
  | handoverAbort
  /-- HANDOVER_RELEASE (R419): At T_H the ACTIVE drops TW_DRIVE_OWN, releases TW_ROLE and becomes STANDBY. -/
  | handoverRelease
  /-- HANDOVER_TAKE (R419): The armed STANDBY senses TW_ROLE high, pulls it low and becomes ACTIVE. -/
  | handoverTake
  /-- HANDOVER_RECLAIM (R419): At T_H + 5 µs with TW_ROLE still high, the old ACTIVE reclaims it and sets HO_REJ. -/
  | handoverReclaim
  /-- TEST (R422): The TEST key puts a standby twin in TEST, or is refused with TEST_REJ on the ACTIVE. -/
  | test (acc : Access)
  /-- READY (R422): The READY key ends TEST and enters TRAINING. -/
  | ready (acc : Access)
  /-- REBIND (R421): The REBIND key advances TALLY2, binds the new peer and pairs. -/
  | rebind (acc : Access)
  /-- PUB (R411): A write of PUB starts a mirror publish, or sets PUB_BUSY. -/
  | pub (acc : Access) (w : Fin 16)
  /-- PUBLISH_DONE (R411): The LAST frame of a publish is sent and BUSY clears. -/
  | publishDone (w : Fin 16)
  /-- LOCK (R413): A write of LOCK = 1 pins the current bank. -/
  | lock (acc : Access) (w : Fin 16)
  /-- UNLOCK (R413): A write of LOCK = 0 releases the pinned bank. -/
  | unlock (acc : Access) (w : Fin 16)
  /-- MSG_PUSH (R416): A handle written to TWIN_MSG_PUSH is validated and sent as MESSAGE frames, then freed. -/
  | msgPush (acc : Access) (v : Word)
  /-- MSG_POP (R416): A read of TWIN_MSG_POP returns the oldest received message handle, or 0. -/
  | msgPop (acc : Access)
  /-- ARM_ROLL (R426): Arms a ROLL commit for the next epoch boundary. -/
  | armRoll (acc : Access)
  /-- ARM_DRAIN (R426): Arms a DRAIN commit for the next epoch boundary. -/
  | armDrain (acc : Access)
  /-- DISARM (R426): Cancels an armed commit that has not reached its boundary. -/
  | disarm (acc : Access)
  /-- DISCARD (R427): Returns every staging copy to the value in force. -/
  | discard (acc : Access)
  /-- VALIDATION_END (R428): 64 BUS_CLK after the boundary, the commit is rejected whole, starts draining, or TEN switches. -/
  | validationEnd
  /-- DOMAIN_SWITCH (R430): 64 BUS_CLK after the previous switch, the next domain takes its captured values; after POL, APPLIED sets and line 238 asserts. -/
  | domainSwitch
  /-- DRAIN_SWITCH (R432): Every drained block is idle; all domains switch on one edge and the blocks resume. -/
  | drainSwitch (us : BitVec 10)
  /-- DRAIN_TIMEOUT (R433): The drain overruns DRAIN_TIMEOUT; the commit becomes a ROLL with tags and COMMIT_FORCED. -/
  | drainTimeout
  /-- FSD_TRANSFER (R443): An FSD request is checked, permitted and performed, and answered ACCEPT, RETRY or FAULT. -/
  | fsdTransfer (inFlight : Bool) (req wdata : BitVec 40)
  /-- FSD_LINK_RESET (R443): FSD_CLK stays low for 20 µs; the request in progress is cancelled and the link waits for SYNC. -/
  | fsdLinkReset
  /-- JTAG_INSTRUCTION (R444): An instruction register update selects a JTAG instruction, or BYPASS if refused; `scans` are the boundary scans made under it (R460). -/
  | jtagInstruction (code : BitVec 5) (scans : List (BitVec 356 × BitVec 356) := [])
  /-- DBGACC (R444): Update-DR of DBGACC starts a debug access. -/
  | dbgacc (inFlight : Bool) (dr : BitVec 68)
  /-- TEST_LOGIC_RESET (R461): Every ball returns to functional control and IDCODE is selected. -/
  | testLogicReset
  /-- ATTACH (R445): The ATTACH key sets ATTACHED and asserts line 242. -/
  | attach (acc : Access) (port : Option Bool := none)
  /-- DETACH (R445): Clears ATTACHED, resumes halted cores and disables debug watchpoints and patches. -/
  | detach (acc : Access)
  /-- DEBUG_RESET (R454): The RESET key resets the main domain with cause DEBUG. -/
  | debugReset (acc : Access) (same : Bool)
  /-- DEBUG_WAKE (R455): The WAKE key ends an emulated SLEEP. -/
  | debugWake (acc : Access)
  /-- HALT (R446): Halts a core at its next instruction boundary. -/
  | halt (acc : Access) (c : Fin 3)
  /-- RUN (R447): Resumes a halted core at PC. -/
  | run (acc : Access) (c : Fin 3)
  /-- STEP (R447): Executes one instruction or element, then halts again. -/
  | step (acc : Access) (c : Fin 3)
  /-- REGDATA (R448): Reads or writes the register selected by REGSEL on a halted core, or FAULTs with NOT_HALTED. -/
  | regdata (acc : Access) (c : Fin 3) (write : Bool) (v : Word)
  /-- LANE_HALT (R451): Halts a lane group at its next instruction boundary. -/
  | laneHalt (acc : Access) (q : Fin 16)
  /-- LANE_RUN (R451): Resumes a halted lane group. -/
  | laneRun (acc : Access) (q : Fin 16)
  /-- LANE_STEP (R451): Executes one lane instruction, then halts the group again. -/
  | laneStep (acc : Access) (q : Fin 16)
  /-- PATCH_UNIT_WRITE (R453): A write to a patch unit claims or changes it and invalidates its line in both I-caches, or sets PATCH_REJ. -/
  | patchUnitWrite (acc : Access) (u : Fin 32) (w : Fin 16) (v : Word)
  /-- BIST_CMD (R456): A write of BIST_CMD starts a BIST run, or refuses it with a REASON. -/
  | bistCmd (acc : Access) (t : Byte)
  /-- BIST_DONE (R456): A BIST run ends; DONE, PASS or FAIL set and lines 246 and 247 assert. -/
  | bistDone (misr : DWord) (bad : Option Word) (spare : Fin 17) (found : List (BitVec 21 × Upset))
  /-- BIST_REL (R457): Releases a core held after LBIST at BIST_PC. -/
  | bistRel (acc : Access) (c : Fin 2)
  /-- GPIO_EDGE (R34): An enabled GPIO edge sets EVT and asserts its group line. -/
  | gpioEdge (k : Fin 75) (level : Bool)
  /-- POLDER_BROWN_OUT_RECOVERY (R377): The backup domain rises above 1.90 V after a Polder brown-out; the Polder core is restarted unless held, and scans and rules resume. -/
  | polderBrownOutRecovery
  /-- TIMER_TICK (R311): At every (PRE + 1)-th PER_CLK edge while RUN = 1, a GT or PT advances COUNT, or reverses direction in CENTER mode, without a match, wrap, reload or period start. -/
  | timerTick (t : Fin 20)
  /-- WATCHPOINT_WRITE (R450): A write to a watchpoint register records SRC on the first EN = 1, or is ignored with WP_REJ when it comes from the other source. -/
  | watchpointWrite (acc : Access) (c : Fin 3) (wp : Fin 8) (reg : Fin 4) (v : Word)
  /-- CAN_CFG_WRITE (R346): A write of CAN timing, MODE or filter registers is applied while EN = 0, and is otherwise ignored with CFG_REJ set. -/
  | canCfgWrite (acc : Access) (n : Fin 2) (o : BitVec 9) (v : Word)
  /-- ILLEGAL (R164): A core executes a word whose opcode, func or sub value is not listed, or that breaks a must-be-zero field, and raises ILLEGAL. -/
  | illegal (c : CoreId)
  /-- ILLEGAL_OP (R176): A lane group executes a reserved op or field value, or a control instruction with PE = 1, and faults with ILLEGAL_OP. -/
  | illegalOp (g : Fin 16)
  deriving DecidableEq, Repr

end Sys2Proof
end

