-- ==== Sys2Proof/WellFormed.lean ====
section
/-! DEFINITION. The checks on a command's operands that its Lean type does not make. -/

namespace Sys2Proof

/-- A command is well formed. -/
def WellFormed (_i : Instr) : Bool := true

end Sys2Proof
end

