-- ==== Sys2Proof/Decode.lean ====
section
/-! DEFINITION. The decoder over the opcode table's bits (none), and the decoders of the two instruction words that
spec/07_instruction_sets.md encodes: the core's 32 bits and the lane's 64. -/

namespace Sys2Proof

/-- The command that a word spells by the table's bits: none, for spec/opcode_table.json gives no row bits. -/
def decodeTableWord (_nbits _w : Nat) : Option Instr := none

/-! ### The core's word (R164) -/

/-- A register number of a core word, its lowest bit at `lo`. -/
def regField (w : BitVec 32) (lo : Nat) : Fin 32 := (w.extractLsb' lo 5).toFin

/-- rd, first, rs: [25:21]. -/
def rdOf (w : BitVec 32) : Fin 32 := regField w 21

/-- ra, base: [20:16]. -/
def raOf (w : BitVec 32) : Fin 32 := regField w 16

/-- rb, last: [15:11]. -/
def rbOf (w : BitVec 32) : Fin 32 := regField w 11

/-- `i` where `clear` says that the fields which the word's row shows as 0 or does not use are 0; none, ILLEGAL, elsewhere (R164). -/
def clearOnly (clear : Bool) (i : Instr) : Option Instr := if clear then some i else none

/-- Op 0x00: table "Core ALU functions". -/
def decodeAlu (c : CoreId) (func : Nat) (rd ra rb : Fin 32) : Option Instr :=
  match func with
  | 0x001 => some (.add c rd ra rb)
  | 0x002 => some (.sub c rd ra rb)
  | 0x003 => some (.and c rd ra rb)
  | 0x004 => some (.or c rd ra rb)
  | 0x005 => some (.xor c rd ra rb)
  | 0x006 => some (.slt c rd ra rb)
  | 0x007 => some (.sltu c rd ra rb)
  | 0x008 => some (.sll c rd ra rb)
  | 0x009 => some (.srl c rd ra rb)
  | 0x00A => some (.sra c rd ra rb)
  | 0x00B => some (.slli c rd ra rb)
  | 0x00C => some (.srli c rd ra rb)
  | 0x00D => some (.srai c rd ra rb)
  | 0x010 => some (.mul c rd ra rb)
  | 0x011 => some (.mulh c rd ra rb)
  | 0x012 => some (.mulhu c rd ra rb)
  | 0x013 => some (.div c rd ra rb)
  | 0x014 => some (.divu c rd ra rb)
  | 0x015 => some (.rem c rd ra rb)
  | 0x016 => some (.remu c rd ra rb)
  | 0x018 => some (.min c rd ra rb)
  | 0x019 => some (.max c rd ra rb)
  | 0x01A => some (.minu c rd ra rb)
  | 0x01B => some (.maxu c rd ra rb)
  | 0x020 => clearOnly (rb = 0) (.clz c rd ra)
  | 0x021 => clearOnly (rb = 0) (.popc c rd ra)
  | 0x022 => clearOnly (rb = 0) (.bswap c rd ra)
  | _ => none

/-- Op 0x30: table "Core memory and ordering functions". -/
def decodeMem (c : CoreId) (func : Nat) (rd ra rb : Fin 32) : Option Instr :=
  match func with
  | 0x001 => clearOnly (rb = 0) (.ll c rd ra)
  | 0x002 => some (.sc c rd ra rb)
  | 0x010 => some (.amoswap c rd ra rb)
  | 0x011 => some (.amoadd c rd ra rb)
  | 0x012 => some (.amoand c rd ra rb)
  | 0x013 => some (.amoor c rd ra rb)
  | 0x014 => some (.amoxor c rd ra rb)
  | 0x015 => some (.amomax c rd ra rb)
  | 0x016 => some (.amomin c rd ra rb)
  | 0x017 => some (.amocas c rd ra rb)
  | 0x020 => clearOnly (rd = 0 && ra = 0 && rb = 0) (.fence c)
  | 0x021 => clearOnly (rd = 0 && ra = 0 && rb = 0) (.fenceWd c)
  | 0x023 => clearOnly (rd = 0 && ra = 0 && rb = 0) (.isync c)
  | 0x030 => clearOnly (rd = 0 && rb = 0) (.dcwb c ra)
  | 0x031 => clearOnly (rd = 0 && rb = 0) (.dcwbi c ra)
  | 0x032 => clearOnly (rd = 0 && rb = 0) (.dcinv c ra)
  | 0x033 => clearOnly (rd = 0 && rb = 0) (.icinv c ra)
  | 0x034 => clearOnly (rd = 0 && ra = 0 && rb = 0) (.icinvAll c)
  | _ => none

/-- Op 0x38: table "Core FPU functions"; [10:6] are 0, [5] is P. -/
def decodeFop (c : CoreId) (p : Bool) (func : Nat) (rd ra rb : Fin 32) : Option Instr :=
  match func with
  | 0x01 => some (.fadd c p rd ra rb)
  | 0x02 => some (.fsub c p rd ra rb)
  | 0x03 => some (.fmul c p rd ra rb)
  | 0x04 => some (.fdiv c p rd ra rb)
  | 0x05 => clearOnly (rb = 0) (.fsqrt c p rd ra)
  | 0x06 => some (.fmin c p rd ra rb)
  | 0x07 => some (.fmax c p rd ra rb)
  | 0x08 => clearOnly (rb = 0) (.fabs c p rd ra)
  | 0x09 => clearOnly (rb = 0) (.fneg c p rd ra)
  | 0x0A => clearOnly (rb = 0) (.fmov c p rd ra)
  | 0x0B => clearOnly (rb = 0) (.fcvt c p rd ra)
  | 0x0C => clearOnly (rb = 0) (.ftoi c p rd ra)
  | 0x0D => clearOnly (rb = 0) (.itof c p rd ra)
  | 0x0E => some (.feq c p rd ra rb)
  | 0x0F => some (.flt c p rd ra rb)
  | 0x10 => some (.fle c p rd ra rb)
  | 0x11 => clearOnly (rb = 0) (.fmvg c p rd ra)
  | 0x12 => clearOnly (rb = 0) (.fmvf c p rd ra)
  | 0x13 => clearOnly (!p && ra = 0 && rb = 0) (.frfsr c rd)
  | 0x14 => clearOnly (!p && rd = 0 && rb = 0) (.fwfsr c ra)
  | _ => none

/-- Op 0x39: the fused operations; [10:6] name rc. -/
def decodeFma (c : CoreId) (p : Bool) (func : Nat) (rd ra rb rc : Fin 32) : Option Instr :=
  match func with
  | 0x00 => some (.fmadd c p rd ra rb rc)
  | 0x01 => some (.fmsub c p rd ra rb rc)
  | 0x02 => some (.fnmadd c p rd ra rb rc)
  | 0x03 => some (.fnmsub c p rd ra rb rc)
  | _ => none

/-- Op 0x3F: table "Core system functions"; `n` is [15:8]. In MFS and MTS, n occupies [12:8] and [15:13] are 0 (R175). -/
def decodeSys (c : CoreId) (sub : Nat) (rd ra : Fin 32) (n : Byte) : Option Instr :=
  let special : Fin 32 := (n.extractLsb' 0 5).toFin
  match sub with
  | 0x01 => clearOnly (rd = 0 && ra = 0) (.slc c n)
  | 0x02 => clearOnly (rd = 0 && ra = 0) (.trap c n)
  | 0x03 => clearOnly (rd = 0 && ra = 0 && n = 0) (.eret c)
  | 0x04 => clearOnly (rd = 0 && ra = 0 && n = 0) (.wait c)
  | 0x05 => clearOnly (ra = 0 && n.toNat < 32) (.mfs c rd special)
  | 0x06 => clearOnly (rd = 0 && n.toNat < 32) (.mts c special ra)
  | 0x07 => clearOnly (rd = 0 && ra = 0) (.brk c n)
  | _ => none

/-- The instruction that a word is for core `c`: table "Core major opcodes" and the tables of its functions (R164). A word that no
table lists, or that sets a field which must be 0, is none: it raises ILLEGAL. What the word does not carry is at its plain value: a load
meets no upset, and a long instruction is not stopped midway. -/
def decodeCore (c : CoreId) (w : BitVec 32) : Option Instr :=
  let rd := rdOf w
  let ra := raOf w
  let rb := rbOf w
  let imm := w.extractLsb' 0 16
  let func := (w.extractLsb' 0 11).toNat
  match (w.extractLsb' 26 6).toNat with
  | 0x00 => decodeAlu c func rd ra rb
  | 0x01 => some (.addi c rd ra imm)
  | 0x02 => some (.andi c rd ra imm)
  | 0x03 => some (.ori c rd ra imm)
  | 0x04 => some (.xori c rd ra imm)
  | 0x05 => some (.slti c rd ra imm)
  | 0x06 => some (.sltiu c rd ra imm)
  | 0x07 => clearOnly (ra = 0) (.lui c rd imm)
  | 0x08 => clearOnly (ra = 0) (.pcaddh c rd imm)
  | 0x10 => some (.lb c rd ra imm)
  | 0x11 => some (.lbu c rd ra imm)
  | 0x12 => some (.lh c rd ra imm)
  | 0x13 => some (.lhu c rd ra imm)
  | 0x14 => some (.lw c rd ra imm .none)
  | 0x18 => some (.sb c rd ra imm)
  | 0x19 => some (.sh c rd ra imm)
  | 0x1A => some (.sw c rd ra imm)
  | 0x1C => some (.flw c rd ra imm)
  | 0x1D => some (.fld c rd ra imm)
  | 0x1E => some (.fsw c rd ra imm)
  | 0x1F => some (.fsd c rd ra imm)
  | 0x20 => some (.beq c rd ra imm)
  | 0x21 => some (.bne c rd ra imm)
  | 0x22 => some (.blt c rd ra imm)
  | 0x23 => some (.bge c rd ra imm)
  | 0x24 => some (.bltu c rd ra imm)
  | 0x25 => some (.bgeu c rd ra imm)
  | 0x28 => some (.jmp c (w.extractLsb' 0 26))
  | 0x29 => some (.call c (w.extractLsb' 0 26))
  | 0x2A => if func = 1 then clearOnly (rd = 0 && rb = 0) (.jr c ra)
    else if func = 2 then clearOnly (rd = 0 && rb = 0) (.callr c ra) else none
  | 0x30 => decodeMem c func rd ra rb
  | 0x34 => if func = 1 then some (.bmov c rd ra rb none) else if func = 2 then some (.bfil c rd ra rb none)
    else if func = 3 then some (.crcb c rd ra rb none) else none
  | 0x35 => clearOnly (w.extractLsb' 0 10 = 0) (.ldm c rd ra rb (w.getLsbD 10) none)
  | 0x36 => clearOnly (w.extractLsb' 0 10 = 0) (.stm c rd ra rb (w.getLsbD 10) none)
  | 0x38 => if w.extractLsb' 6 5 = 0 then decodeFop c (w.getLsbD 5) (func % 32) rd ra rb else none
  | 0x39 => decodeFma c (w.getLsbD 5) (func % 32) rd ra rb (regField w 6)
  | 0x3F => decodeSys c (w.extractLsb' 0 8).toNat rd ra (w.extractLsb' 8 8)
  | _ => none

/-! ### The lane's word (R176) -/

/-- A lane register number, its lowest bit at `lo`. -/
def laneField (w : BitVec 64) (lo : Nat) : Fin 64 := (w.extractLsb' lo 6).toFin

/-- A predicate number, its lowest bit at `lo`. -/
def predField (w : BitVec 64) (lo : Nat) : Fin 8 := (w.extractLsb' lo 3).toFin

/-- A four-bit code, its lowest bit at `lo`. -/
def codeField (w : BitVec 64) (lo : Nat) : Fin 16 := (w.extractLsb' lo 4).toFin

/-- Bits [63:39] without op and La. -/
def headOf (w : BitVec 64) : LaneHdr :=
  { pe := w.getLsbD 55, pn := w.getLsbD 54, kg := predField w 51, ld := laneField w 45 }

/-- Kc, CN and off32 of format LC. -/
def ctlOf (w : BitVec 64) : LaneCtl :=
  { kc := predField w 36, cn := w.getLsbD 35, off := w.extractLsb' 0 32 }

/-- `i` where every listed field (its lowest bit, its width) is 0; none, ILLEGAL_OP, elsewhere (R176). -/
def unused (w : BitVec 64) (fields : List (Nat × Nat)) (i : Instr) : Option Instr :=
  clearOnly (fields.all (fun f => w.toNat / 2 ^ f.1 % 2 ^ f.2 = 0)) i

/-- A control instruction, op 0x01 to 0x0F: PE and the guard, Ld and La are 0 (R176, R177), and so are Kc, CN and off32 where it
has no condition or no target. `outside` says that a branch leaves its own IF or LOOP (R185). -/
def decodeLaneControl (g : Fin 16) (outside : Bool) (w : BitVec 64) : Option Instr :=
  let c := ctlOf w
  let whole := unused w [(39, 17), (32, 3)]
  let noCondition := unused w [(39, 17), (32, 7)]
  let noTarget := unused w [(39, 17), (0, 35)]
  let bare := unused w [(0, 56)]
  match (w.extractLsb' 56 8).toNat with
  | 0x01 => bare (.laneEnd g)
  | 0x02 => noTarget (.laneExit g c)
  | 0x04 => whole (.laneIf g c)
  | 0x05 => noCondition (.laneElse g c)
  | 0x06 => bare (.laneEndif g)
  | 0x08 => noCondition (.laneLoop g)
  | 0x09 => noTarget (.laneBrk g c)
  | 0x0A => noTarget (.laneCont g c)
  | 0x0B => bare (.laneEndl g)
  | 0x0C => noCondition (.laneJmp g c outside)
  | 0x0D => whole (.laneBany g c outside)
  | 0x0E => whole (.laneBall g c outside)
  | 0x0F => whole (.laneBnone g c outside)
  | _ => none

/-- Format LR, op 0x10 to 0x35: the fields that the op does not use, and [19:0], are 0. -/
def decodeLaneReg (g : Fin 16) (w : BitVec 64) : Option Instr :=
  let hd := headOf w
  let la := laneField w 39
  let lb := laneField w 33
  let lc := laneField w 27
  let kd := predField w 24
  let t := codeField w 20
  let two := unused w [(0, 33)]
  let twoT := unused w [(0, 20), (24, 9)]
  let three := unused w [(0, 27)]
  let one := unused w [(0, 39)]
  let oneT := unused w [(0, 20), (24, 15)]
  let compare := unused w [(0, 20), (27, 6), (45, 6)]
  match (w.extractLsb' 56 8).toNat with
  | 0x10 => two (.laneIadd g hd la lb)
  | 0x11 => two (.laneIsub g hd la lb)
  | 0x12 => two (.laneImul g hd la lb)
  | 0x13 => twoT (.laneImulh g hd t la lb)
  | 0x14 => three (.laneImad g hd la lb lc)
  | 0x15 => two (.laneAnd g hd la lb)
  | 0x16 => two (.laneOr g hd la lb)
  | 0x17 => two (.laneXor g hd la lb)
  | 0x18 => two (.laneShl g hd la lb)
  | 0x19 => two (.laneShr g hd la lb)
  | 0x1A => two (.laneSar g hd la lb)
  | 0x1B => two (.laneImin g hd la lb)
  | 0x1C => two (.laneImax g hd la lb)
  | 0x1D => compare (.laneIcmp g hd kd t la lb)
  | 0x1E => unused w [(0, 24), (27, 6)] (.laneSel g hd kd la lb)
  | 0x1F => one (.lanePopc g hd la)
  | 0x20 => twoT (.laneFadd g hd t la lb)
  | 0x21 => twoT (.laneFsub g hd t la lb)
  | 0x22 => twoT (.laneFmul g hd t la lb)
  | 0x23 => unused w [(0, 20), (24, 3)] (.laneFfma g hd t la lb lc)
  | 0x24 => twoT (.laneFmin g hd t la lb)
  | 0x25 => twoT (.laneFmax g hd t la lb)
  | 0x26 => compare (.laneFcmp g hd kd t la lb)
  | 0x27 => oneT (.laneFrcp g hd t la)
  | 0x28 => oneT (.laneFrsq g hd t la)
  | 0x29 => one (.laneFtoi g hd la)
  | 0x2A => one (.laneItof g hd la)
  | 0x2B => one (.laneMov g hd la)
  | 0x30 => two (.laneShfl g hd la lb)
  | 0x31 => two (.laneShflx g hd la lb)
  | 0x32 => unused w [(0, 24), (27, 18)] (.laneVote g hd kd)
  | 0x35 => unused w [(0, 20), (27, 6), (36, 3), (42, 9)] (.laneKop g hd kd t (predField w 39) (predField w 33))
  | _ => none

/-- Format LM, op 0x38 to 0x3C: bit [28] and the fields that the op does not use are 0. -/
def decodeLaneMem (g : Fin 16) (w : BitVec 64) : Option Instr :=
  let hd := headOf w
  let la := laneField w 39
  let ls := laneField w 33
  let sz : Fin 4 := (w.extractLsb' 31 2).toFin
  let spc : Fin 4 := (w.extractLsb' 29 2).toFin
  let aop := codeField w 24
  let off := w.extractLsb' 0 24
  match (w.extractLsb' 56 8).toNat with
  | 0x38 => unused w [(24, 5), (33, 6)] (.laneLd g hd sz spc la off .none)
  | 0x39 => unused w [(24, 5), (45, 6)] (.laneSt g hd sz spc la ls off)
  | 0x3A => unused w [(28, 1), (31, 2)] (.laneAtom g hd spc aop la ls off)
  | 0x3B => unused w [(24, 15)] (.laneHaddr g hd la off)
  | 0x3C => unused w [(0, 24), (28, 23)] (.laneLfence g hd aop)
  | _ => none

/-- The instruction that a word is for group `g`: table "Lane opcodes" (R176, R177). A reserved op, a reserved field value or a
non-zero unused field is ILLEGAL_OP: none here where the op or an unused field shows it, and in the instruction's meaning for the values of T, SZ,
SPC, AOP and imm32 that the op reserves. DEDUCED (log entry 161): the guard's PN and Kg are fields of every instruction that is
not a control instruction, whatever PE is. -/
def decodeLane (g : Fin 16) (outside : Bool) (w : BitVec 64) : Option Instr :=
  let op := (w.extractLsb' 56 8).toNat
  let hd := headOf w
  let la := laneField w 39
  let imm := w.extractLsb' 0 32
  if op = 0 then unused w [(0, 51)] (.laneNop g hd false)
  else if op < 0x10 then decodeLaneControl g outside w
  else if op = 0x34 then unused w [(32, 13)] (.laneSval g hd imm)
  else if op < 0x38 then decodeLaneReg g w
  else if op < 0x50 then decodeLaneMem g w
  else if op ≤ 0x6B then some (.laneImmediateForm g hd (w.extractLsb' 56 8) (predField w 36) (codeField w 32) la imm)
  else if op = 0x70 then unused w [(32, 7)] (.laneShfli g hd la imm)
  else if op = 0x71 then unused w [(32, 7)] (.laneShflxi g hd la imm)
  else none

end Sys2Proof
end

