-- ==== Sys2Proof/Config.lean ====
section
/-! DEFINITION. What an implementation of the part fixes and the spec leaves open: constants without a body, so that no proof
can see a value of theirs. -/

namespace Sys2Proof

/-- The free values: the `n`-th value that the spec leaves open (an unpredictable result, R18; a nonce, R128). -/
opaque Config.freeValue : Nat → BitVec 32

/-- The bytes of the boot ROM (R22), by offset: the spec does not give Crocus's code. -/
opaque Config.romByte : Nat → Byte

/-- Agundak's return-test public key in the boot ROM (R109, R130): X then Y, 64 bytes; the spec does not give it. -/
opaque Config.returnTestKey : List Byte

/-- Tininess is detected after rounding (true) or before: IEEE 754-2019 leaves the choice to the implementation (R173). -/
opaque Config.tinyAfterRounding : Bool

/-- 0 × ∞ + a quiet NaN raises NV: IEEE 754-2019 leaves it to the implementation (R173). -/
opaque Config.fmaInvalid : Bool

/-- Which of the results within 1 ulp FRCP gives for an operand (R177): the spec states the bound alone. -/
opaque Config.frcpPick : BitVec 32 → Nat

/-- Which of the results within 1 ulp FRSQ gives for an operand (R177). -/
opaque Config.frsqPick : BitVec 32 → Nat

/-- The default voltage of the board's VCORE regulator, in mV above 780: the spec bounds it by 950 mV (R48). -/
opaque Config.vcoreDefault : Fin 171

end Sys2Proof
end

