-- ==== Sys2Proof/Machine/Map.lean ====
section
/-! DEFINITION. Sparse tables as plain data: a list of (key, value) pairs with strictly rising keys in which no entry equals
what an unlisted key reads as, so that equal tables are equal lists; and the words that describe one register (R11 to R17). -/

namespace Sys2Proof.Machine

/-- A sparse table: an unlisted key reads as the table's default. -/
abbrev SMap (α : Type) := List (Nat × α)

/-- What key `k` reads as; an unlisted key reads as `d k`. -/
def mget {α : Type} (d : Nat → α) : SMap α → Nat → α
  | [], k => d k
  | (a, v) :: t, k => if a = k then v else mget d t k

/-- The table with key `k` listed as `v`, in key order. -/
def mins {α : Type} (k : Nat) (v : α) : SMap α → SMap α
  | [] => [(k, v)]
  | (a, w) :: t => if k < a then (k, v) :: (a, w) :: t else if k = a then (k, v) :: t else (a, w) :: mins k v t

/-- The table with key `k` not listed. -/
def mdel {α : Type} (k : Nat) (m : SMap α) : SMap α := m.filter (fun e => e.1 != k)

/-- The table in which key `k` reads as `v`, in canonical form: a value that an unlisted key reads as is not listed. -/
def mput {α : Type} [DecidableEq α] (d : Nat → α) (m : SMap α) (k : Nat) (v : α) : SMap α :=
  if v = d k then mdel k m else mins k v m

/-- The table in canonical form: `mput` of every entry, the first of two entries for one key standing. -/
def mcanon {α : Type} [DecidableEq α] (d : Nat → α) : SMap α → SMap α
  | [] => []
  | (k, v) :: t => mput d (mcanon d t) k v

/-- The canonical form: strictly rising keys, and no entry equal to what an unlisted key reads as. -/
def mwf {α : Type} [DecidableEq α] (d : Nat → α) (m : SMap α) : Bool :=
  decide (m.Pairwise (fun x y => x.1 < y.1)) && m.all (fun e => decide (e.2 ≠ d e.1))

/-- One field of a register: the register's address, the field's lowest bit and its width (R5, R11). -/
structure Fld where
  adr : Nat
  lo : Nat
  wid : Nat
  deriving DecidableEq, Repr

/-- One row of a block's register list: offset, up to two instance counts with their strides, the offset of the _LIVE twin
(0: none), the commit domain (R424; 0: none), the reset word (R17), one mask per access code (R12), and the mask of the
fields that a main-domain reset leaves as they are (reset words ret, fixed, latched). -/
structure RegRow where
  ofs : Nat
  n1 : Nat
  s1 : Nat
  n2 : Nat
  s2 : Nat
  live : Nat
  dom : Nat
  reset : Nat
  rw : Nat
  w1c : Nat
  w1s : Nat
  rc : Nat
  sh : Nat
  lk : Nat
  wo : Nat
  ro : Nat
  keep : Nat
  deriving DecidableEq, Repr

/-- Offset `d` in the block is an instance of the row's register (`delta` 0) or of its _LIVE twin (`delta` the row's `live`). -/
def RegRow.hits (r : RegRow) (d delta : Nat) : Bool :=
  let base := r.ofs + delta
  base ≤ d && (d - base) / r.s1 < r.n1 && (d - base) % r.s1 / r.s2 < r.n2 && (d - base) % r.s1 % r.s2 == 0

end Sys2Proof.Machine
end

