-- ==== Sys2Proof/Machine/Regs.lean ====
section
/-! DEFINITION. The registers of the spec: one address per register, one `Fld` per field, and the table of access and reset columns
(spec/00_scope.md R11 to R17; each block's chapter gives its tables). A field of access SH has a second name ending in `_L`:
the value in force, read at the register's _LIVE twin. Names carry the instance numbers as arguments. -/

namespace Sys2Proof.Machine

/-! ### SYS: window base 0x20000000 (spec/04_launch.md) -/

/-- spec/04_launch.md, register SYS_ID. -/
def SYS_ID : Nat := 0x20000000
def SYS_ID.PART : Fld := ⟨SYS_ID, 0, 16⟩
def SYS_ID.REV : Fld := ⟨SYS_ID, 16, 4⟩
def SYS_ID.GRADE : Fld := ⟨SYS_ID, 20, 4⟩
def SYS_ID.FAMILY : Fld := ⟨SYS_ID, 24, 8⟩
/-- spec/04_launch.md, register SYS_SERIAL_LO. -/
def SYS_SERIAL_LO : Nat := 0x20000004
def SYS_SERIAL_LO.SERIAL : Fld := ⟨SYS_SERIAL_LO, 0, 32⟩
/-- spec/04_launch.md, register SYS_SERIAL_HI. -/
def SYS_SERIAL_HI : Nat := 0x20000008
def SYS_SERIAL_HI.SERIAL : Fld := ⟨SYS_SERIAL_HI, 0, 32⟩
/-- spec/04_launch.md, register SYS_LAUNCH_STAT. -/
def SYS_LAUNCH_STAT : Nat := 0x2000000c
def SYS_LAUNCH_STAT.FAIL : Fld := ⟨SYS_LAUNCH_STAT, 0, 8⟩
def SYS_LAUNCH_STAT.DONE : Fld := ⟨SYS_LAUNCH_STAT, 8, 1⟩
def SYS_LAUNCH_STAT.COPY : Fld := ⟨SYS_LAUNCH_STAT, 9, 1⟩
def SYS_LAUNCH_STAT.FALLBACK : Fld := ⟨SYS_LAUNCH_STAT, 10, 1⟩
def SYS_LAUNCH_STAT.BOOT_MODE : Fld := ⟨SYS_LAUNCH_STAT, 11, 3⟩
def SYS_LAUNCH_STAT.REJ_A : Fld := ⟨SYS_LAUNCH_STAT, 16, 4⟩
def SYS_LAUNCH_STAT.REJ_B : Fld := ⟨SYS_LAUNCH_STAT, 20, 4⟩
/-- spec/04_launch.md, register SYS_LAUNCH_GEN. -/
def SYS_LAUNCH_GEN : Nat := 0x20000010
def SYS_LAUNCH_GEN.GEN : Fld := ⟨SYS_LAUNCH_GEN, 0, 32⟩
/-- spec/04_launch.md, register SYS_LAUNCH_INFO. -/
def SYS_LAUNCH_INFO : Nat := 0x20000014
def SYS_LAUNCH_INFO.SEC_VER : Fld := ⟨SYS_LAUNCH_INFO, 0, 8⟩
def SYS_LAUNCH_INFO.FLOOR : Fld := ⟨SYS_LAUNCH_INFO, 8, 8⟩
def SYS_LAUNCH_INFO.PATCHES : Fld := ⟨SYS_LAUNCH_INFO, 16, 6⟩
/-- spec/04_launch.md, register SYS_LAUNCH_TIME. -/
def SYS_LAUNCH_TIME : Nat := 0x20000018
def SYS_LAUNCH_TIME.US : Fld := ⟨SYS_LAUNCH_TIME, 0, 24⟩
/-- spec/04_launch.md, register SYS_M1_START. -/
def SYS_M1_START : Nat := 0x2000001c
def SYS_M1_START.KEY : Fld := ⟨SYS_M1_START, 0, 32⟩
/-- spec/04_launch.md, register SYS_M1_PC. -/
def SYS_M1_PC : Nat := 0x20000020
def SYS_M1_PC.VALUE : Fld := ⟨SYS_M1_PC, 0, 32⟩
/-- spec/04_launch.md, register SYS_M1_SP. -/
def SYS_M1_SP : Nat := 0x20000024
def SYS_M1_SP.VALUE : Fld := ⟨SYS_M1_SP, 0, 32⟩
/-- spec/04_launch.md, register SYS_LAUNCH_PREV. -/
def SYS_LAUNCH_PREV : Nat := 0x20000028
def SYS_LAUNCH_PREV.FAIL : Fld := ⟨SYS_LAUNCH_PREV, 0, 8⟩
def SYS_LAUNCH_PREV.COPY : Fld := ⟨SYS_LAUNCH_PREV, 8, 1⟩
def SYS_LAUNCH_PREV.VALID : Fld := ⟨SYS_LAUNCH_PREV, 31, 1⟩
/-- spec/04_launch.md, register SYS_BERR_ADDR. -/
def SYS_BERR_ADDR : Nat := 0x20000030
def SYS_BERR_ADDR.ADDR : Fld := ⟨SYS_BERR_ADDR, 0, 32⟩
/-- spec/04_launch.md, register SYS_BERR_INFO. -/
def SYS_BERR_INFO : Nat := 0x20000034
def SYS_BERR_INFO.TID : Fld := ⟨SYS_BERR_INFO, 0, 7⟩
def SYS_BERR_INFO.CORE : Fld := ⟨SYS_BERR_INFO, 7, 1⟩
def SYS_BERR_INFO.VALID : Fld := ⟨SYS_BERR_INFO, 31, 1⟩

/-- Register rows of SYS, part 0. -/
def rowsSYS0 : List RegRow := [
  ⟨0x0, 1, 0x4, 1, 0x4, 0, 0, 0x1024864, 0, 0, 0, 0, 0, 0, 0, 0xffffffff, 0xf00000⟩,
  ⟨0x4, 1, 0x4, 1, 0x4, 0, 0, 0, 0, 0, 0, 0, 0, 0, 0, 0xffffffff, 0xffffffff⟩,
  ⟨0x8, 1, 0x4, 1, 0x4, 0, 0, 0, 0, 0, 0, 0, 0, 0, 0, 0xffffffff, 0xffffffff⟩,
  ⟨0xc, 1, 0x4, 1, 0x4, 0, 0, 0, 0, 0, 0, 0, 0, 0, 0, 0xff3fff, 0⟩,
  ⟨0x10, 1, 0x4, 1, 0x4, 0, 0, 0, 0, 0, 0, 0, 0, 0, 0, 0xffffffff, 0⟩,
  ⟨0x14, 1, 0x4, 1, 0x4, 0, 0, 0, 0, 0, 0, 0, 0, 0, 0, 0x3fffff, 0⟩,
  ⟨0x18, 1, 0x4, 1, 0x4, 0, 0, 0, 0, 0, 0, 0, 0, 0, 0, 0xffffff, 0⟩,
  ⟨0x1c, 1, 0x4, 1, 0x4, 0, 0, 0, 0, 0, 0, 0, 0, 0, 0xffffffff, 0, 0⟩,
  ⟨0x20, 1, 0x4, 1, 0x4, 0, 0, 0, 0xffffffff, 0, 0, 0, 0, 0, 0, 0, 0⟩,
  ⟨0x24, 1, 0x4, 1, 0x4, 0, 0, 0, 0xffffffff, 0, 0, 0, 0, 0, 0, 0, 0⟩,
  ⟨0x28, 1, 0x4, 1, 0x4, 0, 0, 0, 0, 0, 0, 0, 0, 0, 0, 0x800001ff, 0⟩,
  ⟨0x30, 1, 0x4, 1, 0x4, 0, 0, 0, 0, 0, 0, 0, 0, 0, 0, 0xffffffff, 0⟩,
  ⟨0x34, 1, 0x4, 1, 0x4, 0, 0, 0, 0, 0x80000000, 0, 0, 0, 0, 0, 0xff, 0⟩]

/-! ### PWR: window base 0x20010000 (spec/02_power.md) -/

/-- spec/02_power.md, register PWR_STAT. -/
def PWR_STAT : Nat := 0x20010000
def PWR_STAT.PFAIL : Fld := ⟨PWR_STAT, 0, 1⟩
def PWR_STAT.BERM_ARMED : Fld := ⟨PWR_STAT, 1, 1⟩
def PWR_STAT.BO_WARN : Fld := ⟨PWR_STAT, 2, 1⟩
def PWR_STAT.BUCK_ILIM : Fld := ⟨PWR_STAT, 3, 1⟩
def PWR_STAT.BUCK_OT : Fld := ⟨PWR_STAT, 4, 1⟩
def PWR_STAT.AVS_ERR : Fld := ⟨PWR_STAT, 5, 1⟩
def PWR_STAT.BAK_SRC : Fld := ⟨PWR_STAT, 6, 1⟩
def PWR_STAT.VBAK_LOW : Fld := ⟨PWR_STAT, 7, 1⟩
/-- spec/02_power.md, register PWR_RST_CAUSE. -/
def PWR_RST_CAUSE : Nat := 0x20010004
def PWR_RST_CAUSE.CAUSE : Fld := ⟨PWR_RST_CAUSE, 0, 4⟩
def PWR_RST_CAUSE.COLD : Fld := ⟨PWR_RST_CAUSE, 4, 1⟩
def PWR_RST_CAUSE.MULTI : Fld := ⟨PWR_RST_CAUSE, 5, 1⟩
def PWR_RST_CAUSE.FLUSHED : Fld := ⟨PWR_RST_CAUSE, 6, 1⟩
def PWR_RST_CAUSE.FLUSH_INCOMPLETE : Fld := ⟨PWR_RST_CAUSE, 7, 1⟩
def PWR_RST_CAUSE.CORE_RETRY : Fld := ⟨PWR_RST_CAUSE, 8, 1⟩
def PWR_RST_CAUSE.BROWNOUT : Fld := ⟨PWR_RST_CAUSE, 9, 1⟩
/-- spec/02_power.md, register PWR_CFG. -/
def PWR_CFG : Nat := 0x20010008
def PWR_CFG.THR : Fld := ⟨PWR_CFG, 0, 9⟩
def PWR_CFG.HYST : Fld := ⟨PWR_CFG, 9, 4⟩
def PWR_CFG.FILTER : Fld := ⟨PWR_CFG, 13, 4⟩
def PWR_CFG.CHG : Fld := ⟨PWR_CFG, 17, 1⟩
/-- spec/02_power.md, register PWR_BERM_CFG. -/
def PWR_BERM_CFG : Nat := 0x2001000c
def PWR_BERM_CFG.LS_MASK : Fld := ⟨PWR_BERM_CFG, 0, 15⟩
def PWR_BERM_CFG.LS15 : Fld := ⟨PWR_BERM_CFG, 15, 1⟩
def PWR_BERM_CFG.APPEND_CAP : Fld := ⟨PWR_BERM_CFG, 16, 12⟩
/-- spec/02_power.md, register PWR_BERM_STAT. -/
def PWR_BERM_STAT : Nat := 0x20010010
def PWR_BERM_STAT.DUR : Fld := ⟨PWR_BERM_STAT, 0, 16⟩
def PWR_BERM_STAT.DIRTY : Fld := ⟨PWR_BERM_STAT, 16, 14⟩
def PWR_BERM_STAT.DROPPED : Fld := ⟨PWR_BERM_STAT, 30, 1⟩
/-- spec/02_power.md, register PWR_SEAL_GEN. -/
def PWR_SEAL_GEN : Nat := 0x20010014
def PWR_SEAL_GEN.GEN : Fld := ⟨PWR_SEAL_GEN, 0, 32⟩
/-- spec/02_power.md, register PWR_SEAL_CRC. -/
def PWR_SEAL_CRC : Nat := 0x20010018
def PWR_SEAL_CRC.CRC : Fld := ⟨PWR_SEAL_CRC, 0, 32⟩
/-- spec/02_power.md, register PWR_SLEEP_CTL. -/
def PWR_SLEEP_CTL : Nat := 0x2001001c
def PWR_SLEEP_CTL.MODE : Fld := ⟨PWR_SLEEP_CTL, 0, 2⟩
/-- spec/02_power.md, register PWR_WAKE_EN. -/
def PWR_WAKE_EN (w : Nat) : Nat := 0x20010020 + w * 0x4
def PWR_WAKE_EN.EN (w : Nat) : Fld := ⟨PWR_WAKE_EN w, 0, 32⟩
/-- spec/02_power.md, register PWR_AVS_STAT. -/
def PWR_AVS_STAT : Nat := 0x20010040
def PWR_AVS_STAT.VSET : Fld := ⟨PWR_AVS_STAT, 0, 10⟩
def PWR_AVS_STAT.LINK_OK : Fld := ⟨PWR_AVS_STAT, 10, 1⟩
def PWR_AVS_STAT.RETRIES : Fld := ⟨PWR_AVS_STAT, 16, 8⟩
/-- spec/02_power.md, register PWR_VMON. -/
def PWR_VMON : Nat := 0x20010044
def PWR_VMON.VIN : Fld := ⟨PWR_VMON, 0, 12⟩
def PWR_VMON.VBAK : Fld := ⟨PWR_VMON, 12, 12⟩
/-- spec/02_power.md, register PWR_RST_REQ. -/
def PWR_RST_REQ : Nat := 0x20010048
def PWR_RST_REQ.KEY : Fld := ⟨PWR_RST_REQ, 0, 32⟩

/-- Register rows of PWR, part 0. -/
def rowsPWR0 : List RegRow := [
  ⟨0x0, 1, 0x4, 1, 0x4, 0, 0, 0, 0, 0xbc, 0, 0, 0, 0, 0, 0x43, 0⟩,
  ⟨0x4, 1, 0x4, 1, 0x4, 0, 0, 0, 0, 0, 0, 0, 0, 0, 0, 0x3ff, 0x3ff⟩,
  ⟨0x8, 1, 0x4, 1, 0x4, 0, 0, 0, 0, 0, 0, 0, 0, 0x3ffff, 0, 0, 0⟩,
  ⟨0xc, 1, 0x4, 1, 0x4, 0, 0, 0x4008000, 0xfff7fff, 0, 0, 0, 0, 0, 0, 0x8000, 0⟩,
  ⟨0x10, 1, 0x4, 1, 0x4, 0, 0, 0, 0, 0, 0, 0, 0, 0, 0, 0x7fffffff, 0x7fffffff⟩,
  ⟨0x14, 1, 0x4, 1, 0x4, 0, 0, 0, 0, 0, 0, 0, 0, 0, 0, 0xffffffff, 0xffffffff⟩,
  ⟨0x18, 1, 0x4, 1, 0x4, 0, 0, 0, 0, 0, 0, 0, 0, 0, 0, 0xffffffff, 0xffffffff⟩,
  ⟨0x1c, 1, 0x4, 1, 0x4, 0, 0, 0, 0x3, 0, 0, 0, 0, 0, 0, 0, 0⟩,
  ⟨0x20, 8, 0x4, 1, 0x4, 0, 0, 0, 0xffffffff, 0, 0, 0, 0, 0, 0, 0, 0⟩,
  ⟨0x40, 1, 0x4, 1, 0x4, 0, 0, 0, 0, 0, 0, 0xff0000, 0, 0, 0, 0x7ff, 0⟩,
  ⟨0x44, 1, 0x4, 1, 0x4, 0, 0, 0, 0, 0, 0, 0, 0, 0, 0, 0xffffff, 0⟩,
  ⟨0x48, 1, 0x4, 1, 0x4, 0, 0, 0, 0, 0, 0, 0, 0, 0, 0xffffffff, 0, 0⟩]

/-! ### CLK: window base 0x20020000 (spec/03_clocks.md) -/

/-- spec/03_clocks.md, register CLK_STAT. -/
def CLK_STAT : Nat := 0x20020000
def CLK_STAT.PLL_LOCK : Fld := ⟨CLK_STAT, 0, 1⟩
def CLK_STAT.UNLOCK_SEEN : Fld := ⟨CLK_STAT, 1, 1⟩
def CLK_STAT.XO_FAIL : Fld := ⟨CLK_STAT, 2, 1⟩
def CLK_STAT.LSX_FAIL : Fld := ⟨CLK_STAT, 3, 1⟩
/-- spec/03_clocks.md, register CLK_CFG. -/
def CLK_CFG : Nat := 0x20020004
def CLK_CFG.SRC : Fld := ⟨CLK_CFG, 0, 1⟩
def CLK_CFG.XTAL_WAIT : Fld := ⟨CLK_CFG, 1, 8⟩
def CLK_CFG.LSX_EN : Fld := ⟨CLK_CFG, 9, 1⟩
/-- spec/03_clocks.md, register CLK_DIV. -/
def CLK_DIV : Nat := 0x20020008
def CLK_DIV.LANE_DIV : Fld := ⟨CLK_DIV, 0, 4⟩
def CLK_DIV.CORE_DIV : Fld := ⟨CLK_DIV, 4, 5⟩
def CLK_DIV.BUS_DIV : Fld := ⟨CLK_DIV, 9, 7⟩
def CLK_DIV.PER_DIV : Fld := ⟨CLK_DIV, 16, 8⟩
def CLK_DIV.ADC_DIV : Fld := ⟨CLK_DIV, 24, 8⟩
/-- spec/03_clocks.md, register CLK_LANE_LIVE. -/
def CLK_LANE_LIVE : Nat := 0x2002000c
def CLK_LANE_LIVE.DIV : Fld := ⟨CLK_LANE_LIVE, 0, 4⟩
/-- spec/03_clocks.md, register CLK_GATE. -/
def CLK_GATE : Nat := 0x20020010
def CLK_GATE.EN : Fld := ⟨CLK_GATE, 0, 26⟩
/-- spec/03_clocks.md, register CLK_MON. -/
def CLK_MON : Nat := 0x20020014
def CLK_MON.XO_CNT : Fld := ⟨CLK_MON, 0, 12⟩
def CLK_MON.LSX_CNT : Fld := ⟨CLK_MON, 12, 6⟩
/-- spec/03_clocks.md, register CLK_SRV_AUTH. -/
def CLK_SRV_AUTH : Nat := 0x20020020
def CLK_SRV_AUTH_LIVE : Nat := CLK_SRV_AUTH + 0xc
def CLK_SRV_AUTH.MODE : Fld := ⟨CLK_SRV_AUTH, 0, 2⟩
def CLK_SRV_AUTH.MODE_L : Fld := ⟨CLK_SRV_AUTH_LIVE, 0, 2⟩
def CLK_SRV_AUTH.CONFLICT_IE : Fld := ⟨CLK_SRV_AUTH, 4, 1⟩
def CLK_SRV_AUTH.CONFLICT_IE_L : Fld := ⟨CLK_SRV_AUTH_LIVE, 4, 1⟩
/-- spec/03_clocks.md, register CLK_SRV_AUTH_STAT. -/
def CLK_SRV_AUTH_STAT : Nat := 0x20020024
def CLK_SRV_AUTH_STAT.OVERRIDE : Fld := ⟨CLK_SRV_AUTH_STAT, 0, 1⟩
def CLK_SRV_AUTH_STAT.AT_BOUND : Fld := ⟨CLK_SRV_AUTH_STAT, 1, 2⟩
def CLK_SRV_AUTH_STAT.SAFE_ACT : Fld := ⟨CLK_SRV_AUTH_STAT, 3, 1⟩
def CLK_SRV_AUTH_STAT.CONFLICT_SEEN : Fld := ⟨CLK_SRV_AUTH_STAT, 4, 1⟩
/-- spec/03_clocks.md, register CLK_SRV_AUTH_CNT. -/
def CLK_SRV_AUTH_CNT : Nat := 0x20020028
def CLK_SRV_AUTH_CNT.CONFLICT : Fld := ⟨CLK_SRV_AUTH_CNT, 0, 16⟩
/-- spec/03_clocks.md, register CLK_SRV_LOW. -/
def CLK_SRV_LOW : Nat := 0x20020030
def CLK_SRV_LOW_LIVE : Nat := CLK_SRV_LOW + 0x10
def CLK_SRV_LOW.VALUE : Fld := ⟨CLK_SRV_LOW, 0, 32⟩
def CLK_SRV_LOW.VALUE_L : Fld := ⟨CLK_SRV_LOW_LIVE, 0, 32⟩
/-- spec/03_clocks.md, register CLK_SRV_HIGH. -/
def CLK_SRV_HIGH : Nat := 0x20020034
def CLK_SRV_HIGH_LIVE : Nat := CLK_SRV_HIGH + 0x10
def CLK_SRV_HIGH.VALUE : Fld := ⟨CLK_SRV_HIGH, 0, 32⟩
def CLK_SRV_HIGH.VALUE_L : Fld := ⟨CLK_SRV_HIGH_LIVE, 0, 32⟩
/-- spec/03_clocks.md, register CLK_SRV_PIN. -/
def CLK_SRV_PIN : Nat := 0x20020038
def CLK_SRV_PIN_LIVE : Nat := CLK_SRV_PIN + 0x10
def CLK_SRV_PIN.VALUE : Fld := ⟨CLK_SRV_PIN, 0, 32⟩
def CLK_SRV_PIN.VALUE_L : Fld := ⟨CLK_SRV_PIN_LIVE, 0, 32⟩
/-- spec/03_clocks.md, register CLK_SRV_HINT. -/
def CLK_SRV_HINT : Nat := 0x2002003c
def CLK_SRV_HINT.VALUE : Fld := ⟨CLK_SRV_HINT, 0, 32⟩
/-- spec/03_clocks.md, register CLK_SRV_CFG. -/
def CLK_SRV_CFG : Nat := 0x20020050
def CLK_SRV_CFG_LIVE : Nat := CLK_SRV_CFG + 0x4
def CLK_SRV_CFG.PORT : Fld := ⟨CLK_SRV_CFG, 0, 1⟩
def CLK_SRV_CFG.PORT_L : Fld := ⟨CLK_SRV_CFG_LIVE, 0, 1⟩
def CLK_SRV_CFG.STEP_EN : Fld := ⟨CLK_SRV_CFG, 1, 1⟩
def CLK_SRV_CFG.STEP_EN_L : Fld := ⟨CLK_SRV_CFG_LIVE, 1, 1⟩
def CLK_SRV_CFG.KP_SHIFT : Fld := ⟨CLK_SRV_CFG, 2, 4⟩
def CLK_SRV_CFG.KP_SHIFT_L : Fld := ⟨CLK_SRV_CFG_LIVE, 2, 4⟩
def CLK_SRV_CFG.KI_SHIFT : Fld := ⟨CLK_SRV_CFG, 6, 4⟩
def CLK_SRV_CFG.KI_SHIFT_L : Fld := ⟨CLK_SRV_CFG_LIVE, 6, 4⟩
def CLK_SRV_CFG.HOLD_TMO : Fld := ⟨CLK_SRV_CFG, 10, 8⟩
def CLK_SRV_CFG.HOLD_TMO_L : Fld := ⟨CLK_SRV_CFG_LIVE, 10, 8⟩
/-- spec/03_clocks.md, register CLK_SRV_THR. -/
def CLK_SRV_THR : Nat := 0x20020058
def CLK_SRV_THR_LIVE : Nat := CLK_SRV_THR + 0x4
def CLK_SRV_THR.LOCK_THR : Fld := ⟨CLK_SRV_THR, 0, 10⟩
def CLK_SRV_THR.LOCK_THR_L : Fld := ⟨CLK_SRV_THR_LIVE, 0, 10⟩
def CLK_SRV_THR.OUTLIER_THR : Fld := ⟨CLK_SRV_THR, 10, 10⟩
def CLK_SRV_THR.OUTLIER_THR_L : Fld := ⟨CLK_SRV_THR_LIVE, 10, 10⟩
def CLK_SRV_THR.STEP_THR : Fld := ⟨CLK_SRV_THR, 20, 12⟩
def CLK_SRV_THR.STEP_THR_L : Fld := ⟨CLK_SRV_THR_LIVE, 20, 12⟩
/-- spec/03_clocks.md, register CLK_SRV_CTL. -/
def CLK_SRV_CTL : Nat := 0x20020060
def CLK_SRV_CTL.REACQ : Fld := ⟨CLK_SRV_CTL, 0, 1⟩
/-- spec/03_clocks.md, register CLK_SRV_STATE. -/
def CLK_SRV_STATE : Nat := 0x20020064
def CLK_SRV_STATE.STATE : Fld := ⟨CLK_SRV_STATE, 0, 2⟩
def CLK_SRV_STATE.SAMPLES : Fld := ⟨CLK_SRV_STATE, 16, 16⟩
/-- spec/03_clocks.md, register CLK_SRV_CORR. -/
def CLK_SRV_CORR : Nat := 0x20020068
def CLK_SRV_CORR.CORR : Fld := ⟨CLK_SRV_CORR, 0, 32⟩
/-- spec/03_clocks.md, register CLK_SRV_OFS. -/
def CLK_SRV_OFS : Nat := 0x2002006c
def CLK_SRV_OFS.OFS : Fld := ⟨CLK_SRV_OFS, 0, 32⟩
/-- spec/03_clocks.md, register CLK_TB_STAT. -/
def CLK_TB_STAT : Nat := 0x20020070
def CLK_TB_STAT.VALID : Fld := ⟨CLK_TB_STAT, 0, 1⟩
def CLK_TB_STAT.COARSE : Fld := ⟨CLK_TB_STAT, 1, 1⟩
def CLK_TB_STAT.STEPPED : Fld := ⟨CLK_TB_STAT, 2, 1⟩

/-- Register rows of CLK, part 0. -/
def rowsCLK0 : List RegRow := [
  ⟨0x0, 1, 0x4, 1, 0x4, 0, 0, 0, 0, 0xe, 0, 0, 0, 0, 0, 0x1, 0x8⟩,
  ⟨0x4, 1, 0x4, 1, 0x4, 0, 0, 0, 0, 0, 0, 0, 0, 0x3ff, 0, 0, 0⟩,
  ⟨0x8, 1, 0x4, 1, 0x4, 0, 0, 0, 0, 0, 0, 0, 0, 0xffffffff, 0, 0, 0⟩,
  ⟨0xc, 1, 0x4, 1, 0x4, 0, 0, 0, 0, 0, 0, 0, 0, 0, 0, 0xf, 0⟩,
  ⟨0x10, 1, 0x4, 1, 0x4, 0, 0, 0x3ffffff, 0x3ffffff, 0, 0, 0, 0, 0, 0, 0, 0⟩,
  ⟨0x14, 1, 0x4, 1, 0x4, 0, 0, 0, 0, 0, 0, 0, 0, 0, 0, 0x3ffff, 0⟩,
  ⟨0x20, 1, 0x4, 1, 0x4, 0xc, 3, 0, 0, 0, 0, 0, 0x13, 0, 0, 0, 0⟩,
  ⟨0x24, 1, 0x4, 1, 0x4, 0, 0, 0, 0, 0x11, 0, 0, 0, 0, 0, 0xe, 0⟩,
  ⟨0x28, 1, 0x4, 1, 0x4, 0, 0, 0, 0xffff, 0, 0, 0, 0, 0, 0, 0, 0⟩,
  ⟨0x30, 1, 0x4, 1, 0x4, 0x10, 3, 0, 0, 0, 0, 0, 0xffffffff, 0, 0, 0, 0⟩,
  ⟨0x34, 1, 0x4, 1, 0x4, 0x10, 3, 0, 0, 0, 0, 0, 0xffffffff, 0, 0, 0, 0⟩,
  ⟨0x38, 1, 0x4, 1, 0x4, 0x10, 3, 0, 0, 0, 0, 0, 0xffffffff, 0, 0, 0, 0⟩,
  ⟨0x3c, 1, 0x4, 1, 0x4, 0, 0, 0, 0xffffffff, 0, 0, 0, 0, 0, 0, 0, 0⟩,
  ⟨0x50, 1, 0x4, 1, 0x4, 0x4, 3, 0x2106, 0, 0, 0, 0, 0x3ffff, 0, 0, 0, 0⟩,
  ⟨0x58, 1, 0x4, 1, 0x4, 0x4, 3, 0xafa064, 0, 0, 0, 0, 0xffffffff, 0, 0, 0, 0⟩,
  ⟨0x60, 1, 0x4, 1, 0x4, 0, 0, 0, 0, 0, 0, 0, 0, 0, 0x1, 0, 0⟩]

/-- Register rows of CLK, part 1. -/
def rowsCLK1 : List RegRow := [
  ⟨0x64, 1, 0x4, 1, 0x4, 0, 0, 0, 0, 0, 0, 0, 0, 0, 0, 0xffff0003, 0⟩,
  ⟨0x68, 1, 0x4, 1, 0x4, 0, 0, 0, 0, 0, 0, 0, 0, 0, 0, 0xffffffff, 0⟩,
  ⟨0x6c, 1, 0x4, 1, 0x4, 0, 0, 0, 0, 0, 0, 0, 0, 0, 0, 0xffffffff, 0⟩,
  ⟨0x70, 1, 0x4, 1, 0x4, 0, 0, 0, 0, 0x4, 0, 0, 0, 0, 0, 0x3, 0x3⟩]

/-! ### LCS: window base 0x20030000 (spec/05_lifecycle.md) -/

/-- spec/05_lifecycle.md, register LCS_STATE. -/
def LCS_STATE : Nat := 0x20030000
def LCS_STATE.STATE : Fld := ⟨LCS_STATE, 0, 3⟩
def LCS_STATE.OWNER_KEY : Fld := ⟨LCS_STATE, 3, 1⟩
def LCS_STATE.DEBUG_KEY : Fld := ⟨LCS_STATE, 4, 1⟩
def LCS_STATE.CAL_BANK : Fld := ⟨LCS_STATE, 5, 1⟩
def LCS_STATE.RESUMED : Fld := ⟨LCS_STATE, 6, 1⟩
/-- spec/05_lifecycle.md, register LCS_STAT. -/
def LCS_STAT : Nat := 0x20030004
def LCS_STAT.BUSY : Fld := ⟨LCS_STAT, 0, 1⟩
def LCS_STAT.DONE : Fld := ⟨LCS_STAT, 1, 1⟩
def LCS_STAT.REFUSED : Fld := ⟨LCS_STAT, 2, 1⟩
def LCS_STAT.COLLIDE : Fld := ⟨LCS_STAT, 3, 1⟩
def LCS_STAT.REASON : Fld := ⟨LCS_STAT, 4, 4⟩
def LCS_STAT.DBG_PERM : Fld := ⟨LCS_STAT, 8, 4⟩
def LCS_STAT.TALLY_EVT : Fld := ⟨LCS_STAT, 12, 1⟩
/-- spec/05_lifecycle.md, register LCS_CMD. -/
def LCS_CMD : Nat := 0x20030008
def LCS_CMD.CMD : Fld := ⟨LCS_CMD, 0, 8⟩
def LCS_CMD.KEY : Fld := ⟨LCS_CMD, 16, 16⟩
/-- spec/05_lifecycle.md, register LCS_ARG0. -/
def LCS_ARG0 : Nat := 0x2003000c
def LCS_ARG0.ARG : Fld := ⟨LCS_ARG0, 0, 32⟩
/-- spec/05_lifecycle.md, register LCS_TALLY. -/
def LCS_TALLY (n : Nat) : Nat := 0x20030040 + n * 0x4
def LCS_TALLY.VALUE (n : Nat) : Fld := ⟨LCS_TALLY n, 0, 8⟩
/-- spec/05_lifecycle.md, register LCS_AUDIT_STAT. -/
def LCS_AUDIT_STAT : Nat := 0x20030060
def LCS_AUDIT_STAT.FREE : Fld := ⟨LCS_AUDIT_STAT, 0, 12⟩
def LCS_AUDIT_STAT.DROPPED : Fld := ⟨LCS_AUDIT_STAT, 16, 16⟩
/-- spec/05_lifecycle.md, register LCS_AUDIT_SEQ. -/
def LCS_AUDIT_SEQ : Nat := 0x20030064
def LCS_AUDIT_SEQ.NEXT : Fld := ⟨LCS_AUDIT_SEQ, 0, 32⟩
/-- spec/05_lifecycle.md, register LCS_MSG. -/
def LCS_MSG (k : Nat) : Nat := 0x20030100 + k * 0x4
def LCS_MSG.DATA (k : Nat) : Fld := ⟨LCS_MSG k, 0, 32⟩
/-- spec/05_lifecycle.md, register LCS_CHAL. -/
def LCS_CHAL (k : Nat) : Nat := 0x20030200 + k * 0x4
def LCS_CHAL.DATA (k : Nat) : Fld := ⟨LCS_CHAL k, 0, 32⟩

/-- Register rows of LCS, part 0. -/
def rowsLCS0 : List RegRow := [
  ⟨0x0, 1, 0x4, 1, 0x4, 0, 0, 0, 0, 0, 0, 0, 0, 0, 0, 0x7f, 0x7f⟩,
  ⟨0x4, 1, 0x4, 1, 0x4, 0, 0, 0, 0, 0x100e, 0, 0, 0, 0, 0, 0xff1, 0⟩,
  ⟨0x8, 1, 0x4, 1, 0x4, 0, 0, 0, 0, 0, 0, 0, 0, 0, 0xffff00ff, 0, 0⟩,
  ⟨0xc, 1, 0x4, 1, 0x4, 0, 0, 0, 0xffffffff, 0, 0, 0, 0, 0, 0, 0, 0⟩,
  ⟨0x40, 8, 0x4, 1, 0x4, 0, 0, 0, 0, 0, 0, 0, 0, 0, 0, 0xff, 0xff⟩,
  ⟨0x60, 1, 0x4, 1, 0x4, 0, 0, 0, 0, 0, 0, 0xffff0000, 0, 0, 0, 0xfff, 0xfff⟩,
  ⟨0x64, 1, 0x4, 1, 0x4, 0, 0, 0, 0, 0, 0, 0, 0, 0, 0, 0xffffffff, 0xffffffff⟩,
  ⟨0x100, 64, 0x4, 1, 0x4, 0, 0, 0, 0xffffffff, 0, 0, 0, 0, 0, 0, 0, 0⟩,
  ⟨0x200, 16, 0x4, 1, 0x4, 0, 0, 0, 0, 0, 0, 0, 0, 0, 0, 0xffffffff, 0⟩]

/-! ### INTC: window base 0x20040000 (spec/06_cores.md) -/

/-- spec/06_cores.md, register INTC_CFG. -/
def INTC_CFG (k : Nat) : Nat := 0x20040000 + k * 0x4
def INTC_CFG_LIVE (k : Nat) : Nat := INTC_CFG k + 0x400
def INTC_CFG.PRIO (k : Nat) : Fld := ⟨INTC_CFG k, 0, 4⟩
def INTC_CFG.ROUTE (k : Nat) : Fld := ⟨INTC_CFG k, 4, 2⟩
def INTC_CFG.EN (k : Nat) : Fld := ⟨INTC_CFG k, 6, 1⟩
def INTC_CFG.OWNER (k : Nat) : Fld := ⟨INTC_CFG k, 8, 7⟩
def INTC_CFG.OWNER_L (k : Nat) : Fld := ⟨INTC_CFG_LIVE k, 8, 7⟩
/-- spec/06_cores.md, register INTC_PEND. -/
def INTC_PEND (w : Nat) : Nat := 0x20040800 + w * 0x4
def INTC_PEND.ASSERTED (w : Nat) : Fld := ⟨INTC_PEND w, 0, 32⟩
/-- spec/06_cores.md, register INTC_SWI_SET. -/
def INTC_SWI_SET : Nat := 0x20040820
def INTC_SWI_SET.SWI : Fld := ⟨INTC_SWI_SET, 0, 16⟩
/-- spec/06_cores.md, register INTC_SWI_CLR. -/
def INTC_SWI_CLR : Nat := 0x20040824
def INTC_SWI_CLR.SWI : Fld := ⟨INTC_SWI_CLR, 0, 16⟩
/-- spec/06_cores.md, register INTC_M_RUNPRI. -/
def INTC_M_RUNPRI (c : Nat) : Nat := 0x20040900 + c * 0x20
def INTC_M_RUNPRI.PRI (c : Nat) : Fld := ⟨INTC_M_RUNPRI c, 0, 5⟩
/-- spec/06_cores.md, register INTC_M_ACTIVE. -/
def INTC_M_ACTIVE (c : Nat) : Nat := 0x20040904 + c * 0x20
def INTC_M_ACTIVE.LINE (c : Nat) : Fld := ⟨INTC_M_ACTIVE c, 0, 8⟩
def INTC_M_ACTIVE.VALID (c : Nat) : Fld := ⟨INTC_M_ACTIVE c, 31, 1⟩
/-- spec/06_cores.md, register INTC_M_EOI. -/
def INTC_M_EOI (c : Nat) : Nat := 0x20040908 + c * 0x20
def INTC_M_EOI.LINE (c : Nat) : Fld := ⟨INTC_M_EOI c, 0, 8⟩
/-- spec/06_cores.md, register INTC_M_THRESH. -/
def INTC_M_THRESH (c : Nat) : Nat := 0x2004090c + c * 0x20
def INTC_M_THRESH.PRI (c : Nat) : Fld := ⟨INTC_M_THRESH c, 0, 5⟩
/-- spec/06_cores.md, register INTC_STAT. -/
def INTC_STAT : Nat := 0x20040a00
def INTC_STAT.BAD_EOI : Fld := ⟨INTC_STAT, 0, 1⟩

/-- Register rows of INTC, part 0. -/
def rowsINTC0 : List RegRow := [
  ⟨0x0, 256, 0x4, 1, 0x4, 0x400, 1, 0xf, 0x7f, 0, 0, 0, 0x7f00, 0, 0, 0, 0⟩,
  ⟨0x800, 8, 0x4, 1, 0x4, 0, 0, 0, 0, 0, 0, 0, 0, 0, 0, 0xffffffff, 0⟩,
  ⟨0x820, 1, 0x4, 1, 0x4, 0, 0, 0, 0, 0, 0xffff, 0, 0, 0, 0, 0, 0⟩,
  ⟨0x824, 1, 0x4, 1, 0x4, 0, 0, 0, 0, 0xffff, 0, 0, 0, 0, 0, 0, 0⟩,
  ⟨0x900, 2, 0x20, 1, 0x20, 0, 0, 0x10, 0, 0, 0, 0, 0, 0, 0, 0x1f, 0⟩,
  ⟨0x904, 2, 0x20, 1, 0x20, 0, 0, 0, 0, 0, 0, 0, 0, 0, 0, 0x800000ff, 0⟩,
  ⟨0x908, 2, 0x20, 1, 0x20, 0, 0, 0, 0, 0, 0, 0, 0, 0, 0xff, 0, 0⟩,
  ⟨0x90c, 2, 0x20, 1, 0x20, 0, 0, 0x10, 0x1f, 0, 0, 0, 0, 0, 0, 0, 0⟩,
  ⟨0xa00, 1, 0x4, 1, 0x4, 0, 0, 0, 0, 0x1, 0, 0, 0, 0, 0, 0, 0⟩]

/-! ### TEN: window base 0x20050000 (spec/06_cores.md) -/

/-- spec/06_cores.md, register TEN_RGN_BASE. -/
def TEN_RGN_BASE (t r : Nat) : Nat := 0x20050000 + t * 0x40 + r * 0x8
def TEN_RGN_BASE_LIVE (t r : Nat) : Nat := TEN_RGN_BASE t r + 0x4000
def TEN_RGN_BASE.EN (t r : Nat) : Fld := ⟨TEN_RGN_BASE t r, 0, 1⟩
def TEN_RGN_BASE.EN_L (t r : Nat) : Fld := ⟨TEN_RGN_BASE_LIVE t r, 0, 1⟩
def TEN_RGN_BASE.R (t r : Nat) : Fld := ⟨TEN_RGN_BASE t r, 1, 1⟩
def TEN_RGN_BASE.R_L (t r : Nat) : Fld := ⟨TEN_RGN_BASE_LIVE t r, 1, 1⟩
def TEN_RGN_BASE.W (t r : Nat) : Fld := ⟨TEN_RGN_BASE t r, 2, 1⟩
def TEN_RGN_BASE.W_L (t r : Nat) : Fld := ⟨TEN_RGN_BASE_LIVE t r, 2, 1⟩
def TEN_RGN_BASE.X (t r : Nat) : Fld := ⟨TEN_RGN_BASE t r, 3, 1⟩
def TEN_RGN_BASE.X_L (t r : Nat) : Fld := ⟨TEN_RGN_BASE_LIVE t r, 3, 1⟩
def TEN_RGN_BASE.ADDR (t r : Nat) : Fld := ⟨TEN_RGN_BASE t r, 8, 24⟩
def TEN_RGN_BASE.ADDR_L (t r : Nat) : Fld := ⟨TEN_RGN_BASE_LIVE t r, 8, 24⟩
/-- spec/06_cores.md, register TEN_RGN_LIMIT. -/
def TEN_RGN_LIMIT (t r : Nat) : Nat := 0x20050004 + t * 0x40 + r * 0x8
def TEN_RGN_LIMIT_LIVE (t r : Nat) : Nat := TEN_RGN_LIMIT t r + 0x4000
def TEN_RGN_LIMIT.ADDR (t r : Nat) : Fld := ⟨TEN_RGN_LIMIT t r, 8, 24⟩
def TEN_RGN_LIMIT.ADDR_L (t r : Nat) : Fld := ⟨TEN_RGN_LIMIT_LIVE t r, 8, 24⟩
/-- spec/06_cores.md, register TEN_GATE. -/
def TEN_GATE (t w : Nat) : Nat := 0x20052000 + t * 0x20 + w * 0x4
def TEN_GATE_LIVE (t w : Nat) : Nat := TEN_GATE t w + 0x4000
def TEN_GATE.MASK (t w : Nat) : Fld := ⟨TEN_GATE t w, 0, 32⟩
def TEN_GATE.MASK_L (t w : Nat) : Fld := ⟨TEN_GATE_LIVE t w, 0, 32⟩
/-- spec/06_cores.md, register TEN_VIOL_ADDR. -/
def TEN_VIOL_ADDR (c : Nat) : Nat := 0x20058000 + c * 0x10
def TEN_VIOL_ADDR.ADDR (c : Nat) : Fld := ⟨TEN_VIOL_ADDR c, 0, 32⟩
/-- spec/06_cores.md, register TEN_VIOL_INFO. -/
def TEN_VIOL_INFO (c : Nat) : Nat := 0x20058004 + c * 0x10
def TEN_VIOL_INFO.TID (c : Nat) : Fld := ⟨TEN_VIOL_INFO c, 0, 7⟩
def TEN_VIOL_INFO.KIND (c : Nat) : Fld := ⟨TEN_VIOL_INFO c, 8, 2⟩
def TEN_VIOL_INFO.VALID (c : Nat) : Fld := ⟨TEN_VIOL_INFO c, 31, 1⟩
/-- spec/06_cores.md, register TEN_DMAV_ADDR. -/
def TEN_DMAV_ADDR : Nat := 0x20058020
def TEN_DMAV_ADDR.ADDR : Fld := ⟨TEN_DMAV_ADDR, 0, 32⟩
/-- spec/06_cores.md, register TEN_DMAV_INFO. -/
def TEN_DMAV_INFO : Nat := 0x20058024
def TEN_DMAV_INFO.TID : Fld := ⟨TEN_DMAV_INFO, 0, 7⟩
def TEN_DMAV_INFO.INIT : Fld := ⟨TEN_DMAV_INFO, 8, 4⟩
def TEN_DMAV_INFO.VALID : Fld := ⟨TEN_DMAV_INFO, 31, 1⟩

/-- Register rows of TEN, part 0. -/
def rowsTEN0 : List RegRow := [
  ⟨0x0, 128, 0x40, 8, 0x8, 0x4000, 1, 0, 0, 0, 0, 0, 0xffffff0f, 0, 0, 0, 0⟩,
  ⟨0x4, 128, 0x40, 8, 0x8, 0x4000, 1, 0, 0, 0, 0, 0, 0xffffff00, 0, 0, 0, 0⟩,
  ⟨0x2000, 128, 0x20, 8, 0x4, 0x4000, 1, 0, 0, 0, 0, 0, 0xffffffff, 0, 0, 0, 0⟩,
  ⟨0x8000, 2, 0x10, 1, 0x10, 0, 0, 0, 0, 0, 0, 0, 0, 0, 0, 0xffffffff, 0⟩,
  ⟨0x8004, 2, 0x10, 1, 0x10, 0, 0, 0, 0, 0x80000000, 0, 0, 0, 0, 0, 0x37f, 0⟩,
  ⟨0x8020, 1, 0x4, 1, 0x4, 0, 0, 0, 0, 0, 0, 0, 0, 0, 0, 0xffffffff, 0⟩,
  ⟨0x8024, 1, 0x4, 1, 0x4, 0, 0, 0, 0, 0x80000000, 0, 0, 0, 0, 0, 0xf7f, 0⟩]

/-! ### HUB: window base 0x20060000 (spec/08_memory.md) -/

/-- spec/08_memory.md, register HUB_STAT. -/
def HUB_STAT : Nat := 0x20060000
def HUB_STAT.CE : Fld := ⟨HUB_STAT, 0, 1⟩
def HUB_STAT.UE : Fld := ⟨HUB_STAT, 1, 1⟩
def HUB_STAT.DIR_ERR : Fld := ⟨HUB_STAT, 2, 1⟩
def HUB_STAT.SRC : Fld := ⟨HUB_STAT, 3, 1⟩
/-- spec/08_memory.md, register HUB_ECC_ADDR. -/
def HUB_ECC_ADDR : Nat := 0x20060004
def HUB_ECC_ADDR.ADDR : Fld := ⟨HUB_ECC_ADDR, 0, 32⟩
/-- spec/08_memory.md, register HUB_ECC_CNT. -/
def HUB_ECC_CNT : Nat := 0x20060008
def HUB_ECC_CNT.CE : Fld := ⟨HUB_ECC_CNT, 0, 16⟩
/-- spec/08_memory.md, register HUB_QWAIT_CNT. -/
def HUB_QWAIT_CNT : Nat := 0x2006000c
def HUB_QWAIT_CNT.COUNT : Fld := ⟨HUB_QWAIT_CNT, 0, 32⟩
/-- spec/08_memory.md, register HUB_WT_BASE. -/
def HUB_WT_BASE (r : Nat) : Nat := 0x20060040 + r * 0x8
def HUB_WT_BASE.EN (r : Nat) : Fld := ⟨HUB_WT_BASE r, 0, 1⟩
def HUB_WT_BASE.ADDR (r : Nat) : Fld := ⟨HUB_WT_BASE r, 6, 18⟩
/-- spec/08_memory.md, register HUB_WT_LIMIT. -/
def HUB_WT_LIMIT (r : Nat) : Nat := 0x20060044 + r * 0x8
def HUB_WT_LIMIT.ADDR (r : Nat) : Fld := ⟨HUB_WT_LIMIT r, 6, 18⟩
/-- spec/08_memory.md, register HUB_SRAM_STAT. -/
def HUB_SRAM_STAT : Nat := 0x20060080
def HUB_SRAM_STAT.INIT_DONE : Fld := ⟨HUB_SRAM_STAT, 0, 1⟩
/-- spec/08_memory.md, register HUB_SCRUB_CFG. -/
def HUB_SCRUB_CFG : Nat := 0x20060084
def HUB_SCRUB_CFG.EN : Fld := ⟨HUB_SCRUB_CFG, 0, 1⟩
def HUB_SCRUB_CFG.INTERVAL : Fld := ⟨HUB_SCRUB_CFG, 1, 23⟩

/-- Register rows of HUB, part 0. -/
def rowsHUB0 : List RegRow := [
  ⟨0x0, 1, 0x4, 1, 0x4, 0, 0, 0, 0, 0x7, 0, 0, 0, 0, 0, 0x8, 0⟩,
  ⟨0x4, 1, 0x4, 1, 0x4, 0, 0, 0, 0, 0, 0, 0, 0, 0, 0, 0xffffffff, 0⟩,
  ⟨0x8, 1, 0x4, 1, 0x4, 0, 0, 0, 0, 0, 0, 0xffff, 0, 0, 0, 0, 0⟩,
  ⟨0xc, 1, 0x4, 1, 0x4, 0, 0, 0, 0, 0, 0, 0xffffffff, 0, 0, 0, 0, 0⟩,
  ⟨0x40, 8, 0x8, 1, 0x8, 0, 0, 0, 0xffffc1, 0, 0, 0, 0, 0, 0, 0, 0⟩,
  ⟨0x44, 8, 0x8, 1, 0x8, 0, 0, 0, 0xffffc0, 0, 0, 0, 0, 0, 0, 0, 0⟩,
  ⟨0x80, 1, 0x4, 1, 0x4, 0, 0, 0, 0, 0, 0, 0, 0, 0, 0, 0x1, 0x1⟩,
  ⟨0x84, 1, 0x4, 1, 0x4, 0, 0, 0x2000, 0xffffff, 0, 0, 0, 0, 0, 0, 0, 0⟩]

/-! ### MRC: window base 0x20070000 (spec/08_memory.md) -/

/-- spec/08_memory.md, register MRC_STAT. -/
def MRC_STAT : Nat := 0x20070000
def MRC_STAT.SCRUB_DONE : Fld := ⟨MRC_STAT, 0, 1⟩
def MRC_STAT.ECC_CE : Fld := ⟨MRC_STAT, 1, 1⟩
def MRC_STAT.ECC_UE : Fld := ⟨MRC_STAT, 2, 1⟩
/-- spec/08_memory.md, register MRC_ECC_CNT. -/
def MRC_ECC_CNT : Nat := 0x20070004
def MRC_ECC_CNT.CE : Fld := ⟨MRC_ECC_CNT, 0, 16⟩
def MRC_ECC_CNT.UE : Fld := ⟨MRC_ECC_CNT, 16, 8⟩
/-- spec/08_memory.md, register MRC_CE_ADDR. -/
def MRC_CE_ADDR : Nat := 0x20070008
def MRC_CE_ADDR.ADDR : Fld := ⟨MRC_CE_ADDR, 0, 32⟩
/-- spec/08_memory.md, register MRC_UE_ADDR. -/
def MRC_UE_ADDR : Nat := 0x2007000c
def MRC_UE_ADDR.ADDR : Fld := ⟨MRC_UE_ADDR, 0, 32⟩
/-- spec/08_memory.md, register MRC_SCRUB_CFG. -/
def MRC_SCRUB_CFG : Nat := 0x20070010
def MRC_SCRUB_CFG.EN : Fld := ⟨MRC_SCRUB_CFG, 0, 1⟩
def MRC_SCRUB_CFG.INTERVAL : Fld := ⟨MRC_SCRUB_CFG, 1, 23⟩
/-- spec/08_memory.md, register MRC_SCRUB_POS. -/
def MRC_SCRUB_POS : Nat := 0x20070014
def MRC_SCRUB_POS.ADDR : Fld := ⟨MRC_SCRUB_POS, 3, 21⟩
/-- spec/08_memory.md, register MRC_LOG_QSTAT. -/
def MRC_LOG_QSTAT : Nat := 0x20070018
def MRC_LOG_QSTAT.DEPTH : Fld := ⟨MRC_LOG_QSTAT, 0, 7⟩
/-- spec/08_memory.md, register MRC_LS_CFG. -/
def MRC_LS_CFG (n : Nat) : Nat := 0x20070100 + n * 0x40
def MRC_LS_CFG.EN (n : Nat) : Fld := ⟨MRC_LS_CFG n, 0, 1⟩
def MRC_LS_CFG.MODE (n : Nat) : Fld := ⟨MRC_LS_CFG n, 1, 1⟩
def MRC_LS_CFG.STAMP (n : Nat) : Fld := ⟨MRC_LS_CFG n, 2, 1⟩
/-- spec/08_memory.md, register MRC_LS_BASE. -/
def MRC_LS_BASE (n : Nat) : Nat := 0x20070104 + n * 0x40
def MRC_LS_BASE.ADDR (n : Nat) : Fld := ⟨MRC_LS_BASE n, 6, 18⟩
/-- spec/08_memory.md, register MRC_LS_SIZE. -/
def MRC_LS_SIZE (n : Nat) : Nat := 0x20070108 + n * 0x40
def MRC_LS_SIZE.SLOTS (n : Nat) : Fld := ⟨MRC_LS_SIZE n, 0, 18⟩
/-- spec/08_memory.md, register MRC_LS_OWNER. -/
def MRC_LS_OWNER (n : Nat) : Nat := 0x2007010c + n * 0x40
def MRC_LS_OWNER_LIVE (n : Nat) : Nat := MRC_LS_OWNER n + 0x30
def MRC_LS_OWNER.TID (n : Nat) : Fld := ⟨MRC_LS_OWNER n, 0, 7⟩
def MRC_LS_OWNER.TID_L (n : Nat) : Fld := ⟨MRC_LS_OWNER_LIVE n, 0, 7⟩
/-- spec/08_memory.md, register MRC_LS_LOW. -/
def MRC_LS_LOW (n : Nat) : Nat := 0x20070110 + n * 0x40
def MRC_LS_LOW.SLOTS (n : Nat) : Fld := ⟨MRC_LS_LOW n, 0, 18⟩
/-- spec/08_memory.md, register MRC_LS_APPEND_ADDR. -/
def MRC_LS_APPEND_ADDR (n : Nat) : Nat := 0x20070114 + n * 0x40
def MRC_LS_APPEND_ADDR.ADDR (n : Nat) : Fld := ⟨MRC_LS_APPEND_ADDR n, 6, 26⟩
/-- spec/08_memory.md, register MRC_LS_APPEND_HDL. -/
def MRC_LS_APPEND_HDL (n : Nat) : Nat := 0x20070118 + n * 0x40
def MRC_LS_APPEND_HDL.HANDLE (n : Nat) : Fld := ⟨MRC_LS_APPEND_HDL n, 0, 32⟩
/-- spec/08_memory.md, register MRC_LS_RELEASE. -/
def MRC_LS_RELEASE (n : Nat) : Nat := 0x2007011c + n * 0x40
def MRC_LS_RELEASE.N (n : Nat) : Fld := ⟨MRC_LS_RELEASE n, 0, 18⟩
/-- spec/08_memory.md, register MRC_LS_HEAD. -/
def MRC_LS_HEAD (n : Nat) : Nat := 0x20070120 + n * 0x40
def MRC_LS_HEAD.LSEQ (n : Nat) : Fld := ⟨MRC_LS_HEAD n, 0, 24⟩
/-- spec/08_memory.md, register MRC_LS_TAIL. -/
def MRC_LS_TAIL (n : Nat) : Nat := 0x20070124 + n * 0x40
def MRC_LS_TAIL.LSEQ (n : Nat) : Fld := ⟨MRC_LS_TAIL n, 0, 24⟩
/-- spec/08_memory.md, register MRC_LS_STAT. -/
def MRC_LS_STAT (n : Nat) : Nat := 0x20070128 + n * 0x40
def MRC_LS_STAT.SCANNING (n : Nat) : Fld := ⟨MRC_LS_STAT n, 0, 1⟩
def MRC_LS_STAT.FRESH (n : Nat) : Fld := ⟨MRC_LS_STAT n, 1, 1⟩
def MRC_LS_STAT.ERR (n : Nat) : Fld := ⟨MRC_LS_STAT n, 2, 1⟩
def MRC_LS_STAT.ERRCODE (n : Nat) : Fld := ⟨MRC_LS_STAT n, 3, 3⟩
def MRC_LS_STAT.DROPPED (n : Nat) : Fld := ⟨MRC_LS_STAT n, 16, 16⟩
/-- spec/08_memory.md, register MRC_LS_INST. -/
def MRC_LS_INST (n : Nat) : Nat := 0x2007012c + n * 0x40
def MRC_LS_INST.INST (n : Nat) : Fld := ⟨MRC_LS_INST n, 0, 32⟩

/-- Register rows of MRC, part 0. -/
def rowsMRC0 : List RegRow := [
  ⟨0x0, 1, 0x4, 1, 0x4, 0, 0, 0, 0, 0x7, 0, 0, 0, 0, 0, 0, 0⟩,
  ⟨0x4, 1, 0x4, 1, 0x4, 0, 0, 0, 0, 0, 0, 0xffffff, 0, 0, 0, 0, 0⟩,
  ⟨0x8, 1, 0x4, 1, 0x4, 0, 0, 0, 0, 0, 0, 0, 0, 0, 0, 0xffffffff, 0⟩,
  ⟨0xc, 1, 0x4, 1, 0x4, 0, 0, 0, 0, 0, 0, 0, 0, 0, 0, 0xffffffff, 0⟩,
  ⟨0x10, 1, 0x4, 1, 0x4, 0, 0, 0x2000, 0xffffff, 0, 0, 0, 0, 0, 0, 0, 0⟩,
  ⟨0x14, 1, 0x4, 1, 0x4, 0, 0, 0, 0, 0, 0, 0, 0, 0, 0, 0xfffff8, 0⟩,
  ⟨0x18, 1, 0x4, 1, 0x4, 0, 0, 0, 0, 0, 0, 0, 0, 0, 0, 0x7f, 0⟩,
  ⟨0x100, 16, 0x40, 1, 0x40, 0, 0, 0, 0x7, 0, 0, 0, 0, 0, 0, 0, 0⟩,
  ⟨0x104, 16, 0x40, 1, 0x40, 0, 0, 0, 0, 0, 0, 0, 0, 0xffffc0, 0, 0, 0⟩,
  ⟨0x108, 16, 0x40, 1, 0x40, 0, 0, 0, 0, 0, 0, 0, 0, 0x3ffff, 0, 0, 0⟩,
  ⟨0x10c, 16, 0x40, 1, 0x40, 0x30, 1, 0, 0, 0, 0, 0, 0x7f, 0, 0, 0, 0⟩,
  ⟨0x110, 16, 0x40, 1, 0x40, 0, 0, 0, 0x3ffff, 0, 0, 0, 0, 0, 0, 0, 0⟩,
  ⟨0x114, 16, 0x40, 1, 0x40, 0, 0, 0, 0, 0, 0, 0, 0, 0, 0xffffffc0, 0, 0⟩,
  ⟨0x118, 16, 0x40, 1, 0x40, 0, 0, 0, 0, 0, 0, 0, 0, 0, 0xffffffff, 0, 0⟩,
  ⟨0x11c, 16, 0x40, 1, 0x40, 0, 0, 0, 0, 0, 0, 0, 0, 0, 0x3ffff, 0, 0⟩,
  ⟨0x120, 16, 0x40, 1, 0x40, 0, 0, 0, 0, 0, 0, 0, 0, 0, 0, 0xffffff, 0⟩]

/-- Register rows of MRC, part 1. -/
def rowsMRC1 : List RegRow := [
  ⟨0x124, 16, 0x40, 1, 0x40, 0, 0, 0, 0, 0, 0, 0, 0, 0, 0, 0xffffff, 0⟩,
  ⟨0x128, 16, 0x40, 1, 0x40, 0, 0, 0, 0, 0x4, 0, 0xffff0000, 0, 0, 0, 0x3b, 0⟩,
  ⟨0x12c, 16, 0x40, 1, 0x40, 0, 0, 0, 0, 0, 0, 0, 0, 0, 0, 0xffffffff, 0⟩]

/-! ### DDR: window base 0x20080000 (spec/08_memory.md) -/

/-- spec/08_memory.md, register DDR_NEG_RESULT. -/
def DDR_NEG_RESULT : Nat := 0x20080000
def DDR_NEG_RESULT.RATE : Fld := ⟨DDR_NEG_RESULT, 0, 8⟩
def DDR_NEG_RESULT.DONE : Fld := ⟨DDR_NEG_RESULT, 8, 1⟩
def DDR_NEG_RESULT.FAIL : Fld := ⟨DDR_NEG_RESULT, 9, 1⟩
def DDR_NEG_RESULT.LINK_FLOOR : Fld := ⟨DDR_NEG_RESULT, 10, 1⟩
def DDR_NEG_RESULT.RANKS : Fld := ⟨DDR_NEG_RESULT, 11, 1⟩
def DDR_NEG_RESULT.DENSITY : Fld := ⟨DDR_NEG_RESULT, 12, 4⟩
/-- spec/08_memory.md, register DDR_TOP. -/
def DDR_TOP : Nat := 0x20080004
def DDR_TOP.TOP_MB : Fld := ⟨DDR_TOP, 0, 13⟩
/-- spec/08_memory.md, register DDR_PHY_CFG. -/
def DDR_PHY_CFG : Nat := 0x20080008
def DDR_PHY_CFG.PDDS : Fld := ⟨DDR_PHY_CFG, 0, 3⟩
def DDR_PHY_CFG.DQ_ODT : Fld := ⟨DDR_PHY_CFG, 3, 3⟩
def DDR_PHY_CFG.CA_ODT : Fld := ⟨DDR_PHY_CFG, 6, 3⟩
def DDR_PHY_CFG.DBI_RD : Fld := ⟨DDR_PHY_CFG, 9, 1⟩
def DDR_PHY_CFG.DBI_WR : Fld := ⟨DDR_PHY_CFG, 10, 1⟩
/-- spec/08_memory.md, register DDR_LINK. -/
def DDR_LINK : Nat := 0x2008000c
def DDR_LINK.FLOOR : Fld := ⟨DDR_LINK, 0, 8⟩
def DDR_LINK.CEIL : Fld := ⟨DDR_LINK, 8, 8⟩
/-- spec/08_memory.md, register DDR_STAT. -/
def DDR_STAT : Nat := 0x20080010
def DDR_STAT.CE : Fld := ⟨DDR_STAT, 0, 1⟩
def DDR_STAT.UE : Fld := ⟨DDR_STAT, 1, 1⟩
def DDR_STAT.DERATE : Fld := ⟨DDR_STAT, 2, 1⟩
def DDR_STAT.SELF_REFRESH : Fld := ⟨DDR_STAT, 3, 1⟩
def DDR_STAT.TRAIN_EVT : Fld := ⟨DDR_STAT, 4, 1⟩
def DDR_STAT.FLOOR_EVT : Fld := ⟨DDR_STAT, 5, 1⟩
/-- spec/08_memory.md, register DDR_ECC_ADDR. -/
def DDR_ECC_ADDR : Nat := 0x20080014
def DDR_ECC_ADDR.ADDR : Fld := ⟨DDR_ECC_ADDR, 0, 32⟩
/-- spec/08_memory.md, register DDR_ECC_CNT. -/
def DDR_ECC_CNT : Nat := 0x20080018
def DDR_ECC_CNT.CE : Fld := ⟨DDR_ECC_CNT, 0, 16⟩
/-- spec/08_memory.md, register DDR_MR4. -/
def DDR_MR4 : Nat := 0x2008001c
def DDR_MR4.VALUE : Fld := ⟨DDR_MR4, 0, 8⟩

/-- Register rows of DDR, part 0. -/
def rowsDDR0 : List RegRow := [
  ⟨0x0, 1, 0x4, 1, 0x4, 0, 0, 0, 0, 0, 0, 0, 0, 0, 0, 0xffff, 0⟩,
  ⟨0x4, 1, 0x4, 1, 0x4, 0, 0, 0x800, 0, 0, 0, 0, 0, 0, 0, 0x1fff, 0⟩,
  ⟨0x8, 1, 0x4, 1, 0x4, 0, 0, 0, 0, 0, 0, 0, 0, 0x7ff, 0, 0, 0⟩,
  ⟨0xc, 1, 0x4, 1, 0x4, 0, 0, 0, 0, 0, 0, 0, 0, 0xffff, 0, 0, 0⟩,
  ⟨0x10, 1, 0x4, 1, 0x4, 0, 0, 0, 0, 0x37, 0, 0, 0, 0, 0, 0x8, 0⟩,
  ⟨0x14, 1, 0x4, 1, 0x4, 0, 0, 0, 0, 0, 0, 0, 0, 0, 0, 0xffffffff, 0⟩,
  ⟨0x18, 1, 0x4, 1, 0x4, 0, 0, 0, 0, 0, 0, 0xffff, 0, 0, 0, 0, 0⟩,
  ⟨0x1c, 1, 0x4, 1, 0x4, 0, 0, 0, 0, 0, 0, 0, 0, 0, 0, 0xff, 0⟩]

/-! ### LAC: window base 0x20090000 (spec/09_lane_array.md) -/

/-- spec/09_lane_array.md, register LAC_LC_CFG. -/
def LAC_LC_CFG (c : Nat) : Nat := 0x20090100 + c * 0x40
def LAC_LC_CFG.MODE (c : Nat) : Fld := ⟨LAC_LC_CFG c, 0, 2⟩
/-- spec/09_lane_array.md, register LAC_LC_STAT. -/
def LAC_LC_STAT (c : Nat) : Nat := 0x20090104 + c * 0x40
def LAC_LC_STAT.RUN (c : Nat) : Fld := ⟨LAC_LC_STAT c, 0, 4⟩
def LAC_LC_STAT.MODE_REJ (c : Nat) : Fld := ⟨LAC_LC_STAT c, 4, 1⟩
def LAC_LC_STAT.ISL_BUSY (c : Nat) : Fld := ⟨LAC_LC_STAT c, 5, 1⟩
def LAC_LC_STAT.ISL_ERR (c : Nat) : Fld := ⟨LAC_LC_STAT c, 6, 1⟩
def LAC_LC_STAT.ISL_CODE (c : Nat) : Fld := ⟨LAC_LC_STAT c, 7, 3⟩
/-- spec/09_lane_array.md, register LAC_LC_ISL_SRC. -/
def LAC_LC_ISL_SRC (c : Nat) : Nat := 0x20090108 + c * 0x40
def LAC_LC_ISL_SRC.ADDR (c : Nat) : Fld := ⟨LAC_LC_ISL_SRC c, 3, 29⟩
/-- spec/09_lane_array.md, register LAC_LC_ISL_DST. -/
def LAC_LC_ISL_DST (c : Nat) : Nat := 0x2009010c + c * 0x40
def LAC_LC_ISL_DST.OFS (c : Nat) : Fld := ⟨LAC_LC_ISL_DST c, 3, 12⟩
/-- spec/09_lane_array.md, register LAC_LC_ISL_LEN. -/
def LAC_LC_ISL_LEN (c : Nat) : Nat := 0x20090110 + c * 0x40
def LAC_LC_ISL_LEN.BYTES (c : Nat) : Fld := ⟨LAC_LC_ISL_LEN c, 3, 13⟩
/-- spec/09_lane_array.md, register LAC_LC_ISL_GO. -/
def LAC_LC_ISL_GO (c : Nat) : Nat := 0x20090114 + c * 0x40
def LAC_LC_ISL_GO.GO (c : Nat) : Fld := ⟨LAC_LC_ISL_GO c, 0, 1⟩
/-- spec/09_lane_array.md, register LAC_Q_PUSH. -/
def LAC_Q_PUSH (q : Nat) : Nat := 0x20090400 + q * 0x20
def LAC_Q_PUSH.ADDR (q : Nat) : Fld := ⟨LAC_Q_PUSH q, 6, 26⟩
/-- spec/09_lane_array.md, register LAC_Q_CTL. -/
def LAC_Q_CTL (q : Nat) : Nat := 0x20090404 + q * 0x20
def LAC_Q_CTL.RESUME (q : Nat) : Fld := ⟨LAC_Q_CTL q, 0, 1⟩
def LAC_Q_CTL.FLUSH (q : Nat) : Fld := ⟨LAC_Q_CTL q, 1, 1⟩
def LAC_Q_CTL.ABORT (q : Nat) : Fld := ⟨LAC_Q_CTL q, 2, 1⟩
/-- spec/09_lane_array.md, register LAC_Q_STAT. -/
def LAC_Q_STAT (q : Nat) : Nat := 0x20090408 + q * 0x20
def LAC_Q_STAT.DEPTH (q : Nat) : Fld := ⟨LAC_Q_STAT q, 0, 4⟩
def LAC_Q_STAT.RUNNING (q : Nat) : Fld := ⟨LAC_Q_STAT q, 4, 1⟩
def LAC_Q_STAT.HALTED (q : Nat) : Fld := ⟨LAC_Q_STAT q, 5, 1⟩
def LAC_Q_STAT.IRQ_PEND (q : Nat) : Fld := ⟨LAC_Q_STAT q, 6, 1⟩
def LAC_Q_STAT.ERR (q : Nat) : Fld := ⟨LAC_Q_STAT q, 7, 1⟩
def LAC_Q_STAT.ERRCODE (q : Nat) : Fld := ⟨LAC_Q_STAT q, 8, 3⟩
def LAC_Q_STAT.LAST_STATUS (q : Nat) : Fld := ⟨LAC_Q_STAT q, 12, 3⟩
def LAC_Q_STAT.LAST_CAUSE (q : Nat) : Fld := ⟨LAC_Q_STAT q, 16, 4⟩
def LAC_Q_STAT.FLUSHED (q : Nat) : Fld := ⟨LAC_Q_STAT q, 24, 8⟩
/-- spec/09_lane_array.md, register LAC_Q_COMPLETED. -/
def LAC_Q_COMPLETED (q : Nat) : Nat := 0x2009040c + q * 0x20
def LAC_Q_COMPLETED.COUNT (q : Nat) : Fld := ⟨LAC_Q_COMPLETED q, 0, 16⟩
/-- spec/09_lane_array.md, register LAC_Q_OWNER. -/
def LAC_Q_OWNER (q : Nat) : Nat := 0x20090410 + q * 0x20
def LAC_Q_OWNER_LIVE (q : Nat) : Nat := LAC_Q_OWNER q + 0x4
def LAC_Q_OWNER.TID (q : Nat) : Fld := ⟨LAC_Q_OWNER q, 0, 7⟩
def LAC_Q_OWNER.TID_L (q : Nat) : Fld := ⟨LAC_Q_OWNER_LIVE q, 0, 7⟩
/-- spec/09_lane_array.md, register LAC_Q_LMEM. -/
def LAC_Q_LMEM (q : Nat) : Nat := 0x20090418 + q * 0x20
def LAC_Q_LMEM_LIVE (q : Nat) : Nat := LAC_Q_LMEM q + 0x4
def LAC_Q_LMEM.BASE (q : Nat) : Fld := ⟨LAC_Q_LMEM q, 0, 8⟩
def LAC_Q_LMEM.BASE_L (q : Nat) : Fld := ⟨LAC_Q_LMEM_LIVE q, 0, 8⟩
def LAC_Q_LMEM.LIMIT (q : Nat) : Fld := ⟨LAC_Q_LMEM q, 8, 8⟩
def LAC_Q_LMEM.LIMIT_L (q : Nat) : Fld := ⟨LAC_Q_LMEM_LIVE q, 8, 8⟩
/-- spec/09_lane_array.md, register LAC_G_FAULT_INFO. -/
def LAC_G_FAULT_INFO (q : Nat) : Nat := 0x20090800 + q * 0x10
def LAC_G_FAULT_INFO.CAUSE (q : Nat) : Fld := ⟨LAC_G_FAULT_INFO q, 0, 4⟩
def LAC_G_FAULT_INFO.CLUSTER (q : Nat) : Fld := ⟨LAC_G_FAULT_INFO q, 4, 2⟩
def LAC_G_FAULT_INFO.LOST (q : Nat) : Fld := ⟨LAC_G_FAULT_INFO q, 30, 1⟩
def LAC_G_FAULT_INFO.VALID (q : Nat) : Fld := ⟨LAC_G_FAULT_INFO q, 31, 1⟩
/-- spec/09_lane_array.md, register LAC_G_FAULT_PC. -/
def LAC_G_FAULT_PC (q : Nat) : Nat := 0x20090804 + q * 0x10
def LAC_G_FAULT_PC.OFS (q : Nat) : Fld := ⟨LAC_G_FAULT_PC q, 3, 12⟩
/-- spec/09_lane_array.md, register LAC_G_FAULT_MASK. -/
def LAC_G_FAULT_MASK (q : Nat) : Nat := 0x20090808 + q * 0x10
def LAC_G_FAULT_MASK.LANES (q : Nat) : Fld := ⟨LAC_G_FAULT_MASK q, 0, 32⟩
/-- spec/09_lane_array.md, register LAC_G_FAULT_ADDR. -/
def LAC_G_FAULT_ADDR (q : Nat) : Nat := 0x2009080c + q * 0x10
def LAC_G_FAULT_ADDR.ADDR (q : Nat) : Fld := ⟨LAC_G_FAULT_ADDR q, 0, 32⟩
/-- spec/09_lane_array.md, register LAC_AVS_AUTH. -/
def LAC_AVS_AUTH : Nat := 0x20090c00
def LAC_AVS_AUTH_LIVE : Nat := LAC_AVS_AUTH + 0xc
def LAC_AVS_AUTH.MODE : Fld := ⟨LAC_AVS_AUTH, 0, 2⟩
def LAC_AVS_AUTH.MODE_L : Fld := ⟨LAC_AVS_AUTH_LIVE, 0, 2⟩
def LAC_AVS_AUTH.CONFLICT_IE : Fld := ⟨LAC_AVS_AUTH, 4, 1⟩
def LAC_AVS_AUTH.CONFLICT_IE_L : Fld := ⟨LAC_AVS_AUTH_LIVE, 4, 1⟩
/-- spec/09_lane_array.md, register LAC_AVS_AUTH_STAT. -/
def LAC_AVS_AUTH_STAT : Nat := 0x20090c04
def LAC_AVS_AUTH_STAT.OVERRIDE : Fld := ⟨LAC_AVS_AUTH_STAT, 0, 1⟩
def LAC_AVS_AUTH_STAT.AT_BOUND : Fld := ⟨LAC_AVS_AUTH_STAT, 1, 2⟩
def LAC_AVS_AUTH_STAT.SAFE_ACT : Fld := ⟨LAC_AVS_AUTH_STAT, 3, 1⟩
def LAC_AVS_AUTH_STAT.CONFLICT_SEEN : Fld := ⟨LAC_AVS_AUTH_STAT, 4, 1⟩
/-- spec/09_lane_array.md, register LAC_AVS_AUTH_CNT. -/
def LAC_AVS_AUTH_CNT : Nat := 0x20090c08
def LAC_AVS_AUTH_CNT.CONFLICT : Fld := ⟨LAC_AVS_AUTH_CNT, 0, 16⟩
/-- spec/09_lane_array.md, register LAC_AVS_LOW. -/
def LAC_AVS_LOW : Nat := 0x20090c10
def LAC_AVS_LOW_LIVE : Nat := LAC_AVS_LOW + 0x10
def LAC_AVS_LOW.MV : Fld := ⟨LAC_AVS_LOW, 0, 10⟩
def LAC_AVS_LOW.MV_L : Fld := ⟨LAC_AVS_LOW_LIVE, 0, 10⟩
/-- spec/09_lane_array.md, register LAC_AVS_HIGH. -/
def LAC_AVS_HIGH : Nat := 0x20090c14
def LAC_AVS_HIGH_LIVE : Nat := LAC_AVS_HIGH + 0x10
def LAC_AVS_HIGH.MV : Fld := ⟨LAC_AVS_HIGH, 0, 10⟩
def LAC_AVS_HIGH.MV_L : Fld := ⟨LAC_AVS_HIGH_LIVE, 0, 10⟩
/-- spec/09_lane_array.md, register LAC_AVS_PIN. -/
def LAC_AVS_PIN : Nat := 0x20090c18
def LAC_AVS_PIN_LIVE : Nat := LAC_AVS_PIN + 0x10
def LAC_AVS_PIN.MV : Fld := ⟨LAC_AVS_PIN, 0, 10⟩
def LAC_AVS_PIN.MV_L : Fld := ⟨LAC_AVS_PIN_LIVE, 0, 10⟩
/-- spec/09_lane_array.md, register LAC_AVS_HINT. -/
def LAC_AVS_HINT : Nat := 0x20090c1c
def LAC_AVS_HINT.MV : Fld := ⟨LAC_AVS_HINT, 0, 10⟩
/-- spec/09_lane_array.md, register LAC_AVS_MON. -/
def LAC_AVS_MON : Nat := 0x20090c30
def LAC_AVS_MON.MARGIN : Fld := ⟨LAC_AVS_MON, 0, 6⟩
def LAC_AVS_MON.STEP : Fld := ⟨LAC_AVS_MON, 8, 2⟩
def LAC_AVS_MON.VOUT : Fld := ⟨LAC_AVS_MON, 16, 10⟩
/-- spec/09_lane_array.md, register LAC_AVS_THR_CNT. -/
def LAC_AVS_THR_CNT : Nat := 0x20090c34
def LAC_AVS_THR_CNT.STEPS : Fld := ⟨LAC_AVS_THR_CNT, 0, 16⟩

/-- Register rows of LAC, part 0. -/
def rowsLAC0 : List RegRow := [
  ⟨0x100, 4, 0x40, 1, 0x40, 0, 0, 0, 0x3, 0, 0, 0, 0, 0, 0, 0, 0⟩,
  ⟨0x104, 4, 0x40, 1, 0x40, 0, 0, 0, 0, 0x50, 0, 0, 0, 0, 0, 0x3af, 0⟩,
  ⟨0x108, 4, 0x40, 1, 0x40, 0, 0, 0, 0xfffffff8, 0, 0, 0, 0, 0, 0, 0, 0⟩,
  ⟨0x10c, 4, 0x40, 1, 0x40, 0, 0, 0, 0x7ff8, 0, 0, 0, 0, 0, 0, 0, 0⟩,
  ⟨0x110, 4, 0x40, 1, 0x40, 0, 0, 0, 0xfff8, 0, 0, 0, 0, 0, 0, 0, 0⟩,
  ⟨0x114, 4, 0x40, 1, 0x40, 0, 0, 0, 0, 0, 0, 0, 0, 0, 0x1, 0, 0⟩,
  ⟨0x400, 16, 0x20, 1, 0x20, 0, 0, 0, 0, 0, 0, 0, 0, 0, 0xffffffc0, 0, 0⟩,
  ⟨0x404, 16, 0x20, 1, 0x20, 0, 0, 0, 0, 0, 0, 0, 0, 0, 0x7, 0, 0⟩,
  ⟨0x408, 16, 0x20, 1, 0x20, 0, 0, 0, 0, 0xc0, 0, 0xff000000, 0, 0, 0, 0xf773f, 0⟩,
  ⟨0x40c, 16, 0x20, 1, 0x20, 0, 0, 0, 0, 0, 0, 0xffff, 0, 0, 0, 0, 0⟩,
  ⟨0x410, 16, 0x20, 1, 0x20, 0x4, 1, 0, 0, 0, 0, 0, 0x7f, 0, 0, 0, 0⟩,
  ⟨0x418, 16, 0x20, 1, 0x20, 0x4, 1, 0xff00, 0, 0, 0, 0, 0xffff, 0, 0, 0, 0⟩,
  ⟨0x800, 16, 0x10, 1, 0x10, 0, 0, 0, 0, 0xc0000000, 0, 0, 0, 0, 0, 0x3f, 0⟩,
  ⟨0x804, 16, 0x10, 1, 0x10, 0, 0, 0, 0, 0, 0, 0, 0, 0, 0, 0x7ff8, 0⟩,
  ⟨0x808, 16, 0x10, 1, 0x10, 0, 0, 0, 0, 0, 0, 0, 0, 0, 0, 0xffffffff, 0⟩,
  ⟨0x80c, 16, 0x10, 1, 0x10, 0, 0, 0, 0, 0, 0, 0, 0, 0, 0, 0xffffffff, 0⟩]

/-- Register rows of LAC, part 1. -/
def rowsLAC1 : List RegRow := [
  ⟨0xc00, 1, 0x4, 1, 0x4, 0xc, 4, 0, 0, 0, 0, 0, 0x13, 0, 0, 0, 0⟩,
  ⟨0xc04, 1, 0x4, 1, 0x4, 0, 0, 0, 0, 0x11, 0, 0, 0, 0, 0, 0xe, 0⟩,
  ⟨0xc08, 1, 0x4, 1, 0x4, 0, 0, 0, 0xffff, 0, 0, 0, 0, 0, 0, 0, 0⟩,
  ⟨0xc10, 1, 0x4, 1, 0x4, 0x10, 4, 0x28a, 0, 0, 0, 0, 0x3ff, 0, 0, 0, 0⟩,
  ⟨0xc14, 1, 0x4, 1, 0x4, 0x10, 4, 0x3b6, 0, 0, 0, 0, 0x3ff, 0, 0, 0, 0⟩,
  ⟨0xc18, 1, 0x4, 1, 0x4, 0x10, 4, 0x320, 0, 0, 0, 0, 0x3ff, 0, 0, 0, 0⟩,
  ⟨0xc1c, 1, 0x4, 1, 0x4, 0, 0, 0, 0x3ff, 0, 0, 0, 0, 0, 0, 0, 0⟩,
  ⟨0xc30, 1, 0x4, 1, 0x4, 0, 0, 0, 0, 0, 0, 0, 0, 0, 0, 0x3ff033f, 0⟩,
  ⟨0xc34, 1, 0x4, 1, 0x4, 0, 0, 0, 0, 0, 0, 0xffff, 0, 0, 0, 0, 0⟩]

/-! ### PE: window base 0x200A0000 (spec/10_pool_engine.md) -/

/-- spec/10_pool_engine.md, register PE_EVT. -/
def PE_EVT : Nat := 0x200a0000
def PE_EVT.QUOTA : Fld := ⟨PE_EVT, 0, 1⟩
def PE_EVT.EMPTY : Fld := ⟨PE_EVT, 1, 1⟩
def PE_EVT.RING_ERR : Fld := ⟨PE_EVT, 2, 1⟩
def PE_EVT.RING_POOL : Fld := ⟨PE_EVT, 4, 4⟩
/-- spec/10_pool_engine.md, register PE_QEVT. -/
def PE_QEVT : Nat := 0x200a0004
def PE_QEVT.POOL : Fld := ⟨PE_QEVT, 0, 4⟩
def PE_QEVT.TID : Fld := ⟨PE_QEVT, 4, 7⟩
/-- spec/10_pool_engine.md, register PE_EEVT. -/
def PE_EEVT : Nat := 0x200a0008
def PE_EEVT.POOL : Fld := ⟨PE_EEVT, 0, 4⟩
def PE_EEVT.TID : Fld := ⟨PE_EEVT, 4, 7⟩
/-- spec/10_pool_engine.md, register PE_FAULT_INFO. -/
def PE_FAULT_INFO : Nat := 0x200a0010
def PE_FAULT_INFO.CODE : Fld := ⟨PE_FAULT_INFO, 0, 4⟩
def PE_FAULT_INFO.TID : Fld := ⟨PE_FAULT_INFO, 4, 7⟩
def PE_FAULT_INFO.INIT : Fld := ⟨PE_FAULT_INFO, 11, 4⟩
def PE_FAULT_INFO.OP : Fld := ⟨PE_FAULT_INFO, 15, 3⟩
def PE_FAULT_INFO.LOST : Fld := ⟨PE_FAULT_INFO, 30, 1⟩
def PE_FAULT_INFO.VALID : Fld := ⟨PE_FAULT_INFO, 31, 1⟩
/-- spec/10_pool_engine.md, register PE_FAULT_HANDLE. -/
def PE_FAULT_HANDLE : Nat := 0x200a0014
def PE_FAULT_HANDLE.HANDLE : Fld := ⟨PE_FAULT_HANDLE, 0, 32⟩
/-- spec/10_pool_engine.md, register PE_LAST. -/
def PE_LAST (c : Nat) : Nat := 0x200a0020 + c * 0x4
def PE_LAST.CODE (c : Nat) : Fld := ⟨PE_LAST c, 0, 4⟩
/-- spec/10_pool_engine.md, register PE_COMMIT_ERR. -/
def PE_COMMIT_ERR : Nat := 0x200a0030
def PE_COMMIT_ERR.POOL : Fld := ⟨PE_COMMIT_ERR, 0, 4⟩
def PE_COMMIT_ERR.REASON : Fld := ⟨PE_COMMIT_ERR, 4, 4⟩
def PE_COMMIT_ERR.TID : Fld := ⟨PE_COMMIT_ERR, 8, 7⟩
/-- spec/10_pool_engine.md, register PE_POOL_CFG. -/
def PE_POOL_CFG (p : Nat) : Nat := 0x200a0100 + p * 0x80
def PE_POOL_CFG_LIVE (p : Nat) : Nat := PE_POOL_CFG p + 0x20
def PE_POOL_CFG.EN (p : Nat) : Fld := ⟨PE_POOL_CFG p, 0, 1⟩
def PE_POOL_CFG.EN_L (p : Nat) : Fld := ⟨PE_POOL_CFG_LIVE p, 0, 1⟩
def PE_POOL_CFG.MODE (p : Nat) : Fld := ⟨PE_POOL_CFG p, 1, 1⟩
def PE_POOL_CFG.MODE_L (p : Nat) : Fld := ⟨PE_POOL_CFG_LIVE p, 1, 1⟩
def PE_POOL_CFG.LOG2SIZE (p : Nat) : Fld := ⟨PE_POOL_CFG p, 2, 5⟩
def PE_POOL_CFG.LOG2SIZE_L (p : Nat) : Fld := ⟨PE_POOL_CFG_LIVE p, 2, 5⟩
def PE_POOL_CFG.SPILL (p : Nat) : Fld := ⟨PE_POOL_CFG p, 7, 4⟩
def PE_POOL_CFG.SPILL_L (p : Nat) : Fld := ⟨PE_POOL_CFG_LIVE p, 7, 4⟩
def PE_POOL_CFG.SPILL_EN (p : Nat) : Fld := ⟨PE_POOL_CFG p, 11, 1⟩
def PE_POOL_CFG.SPILL_EN_L (p : Nat) : Fld := ⟨PE_POOL_CFG_LIVE p, 11, 1⟩
/-- spec/10_pool_engine.md, register PE_POOL_NBUF. -/
def PE_POOL_NBUF (p : Nat) : Nat := 0x200a0104 + p * 0x80
def PE_POOL_NBUF_LIVE (p : Nat) : Nat := PE_POOL_NBUF p + 0x20
def PE_POOL_NBUF.COUNT (p : Nat) : Fld := ⟨PE_POOL_NBUF p, 0, 17⟩
def PE_POOL_NBUF.COUNT_L (p : Nat) : Fld := ⟨PE_POOL_NBUF_LIVE p, 0, 17⟩
/-- spec/10_pool_engine.md, register PE_POOL_AREA. -/
def PE_POOL_AREA (p : Nat) : Nat := 0x200a0108 + p * 0x80
def PE_POOL_AREA_LIVE (p : Nat) : Nat := PE_POOL_AREA p + 0x20
def PE_POOL_AREA.ADDR (p : Nat) : Fld := ⟨PE_POOL_AREA p, 6, 26⟩
def PE_POOL_AREA.ADDR_L (p : Nat) : Fld := ⟨PE_POOL_AREA_LIVE p, 6, 26⟩
/-- spec/10_pool_engine.md, register PE_POOL_META. -/
def PE_POOL_META (p : Nat) : Nat := 0x200a010c + p * 0x80
def PE_POOL_META_LIVE (p : Nat) : Nat := PE_POOL_META p + 0x20
def PE_POOL_META.ADDR (p : Nat) : Fld := ⟨PE_POOL_META p, 6, 26⟩
def PE_POOL_META.ADDR_L (p : Nat) : Fld := ⟨PE_POOL_META_LIVE p, 6, 26⟩
/-- spec/10_pool_engine.md, register PE_POOL_RING. -/
def PE_POOL_RING (p : Nat) : Nat := 0x200a0110 + p * 0x80
def PE_POOL_RING_LIVE (p : Nat) : Nat := PE_POOL_RING p + 0x20
def PE_POOL_RING.ADDR (p : Nat) : Fld := ⟨PE_POOL_RING p, 6, 26⟩
def PE_POOL_RING.ADDR_L (p : Nat) : Fld := ⟨PE_POOL_RING_LIVE p, 6, 26⟩
/-- spec/10_pool_engine.md, register PE_POOL_STAT. -/
def PE_POOL_STAT (p : Nat) : Nat := 0x200a0140 + p * 0x80
def PE_POOL_STAT.INIT (p : Nat) : Fld := ⟨PE_POOL_STAT p, 0, 1⟩
def PE_POOL_STAT.FAILED (p : Nat) : Fld := ⟨PE_POOL_STAT p, 1, 1⟩
def PE_POOL_STAT.CCOUNT (p : Nat) : Fld := ⟨PE_POOL_STAT p, 8, 6⟩
/-- spec/10_pool_engine.md, register PE_POOL_RCOUNT. -/
def PE_POOL_RCOUNT (p : Nat) : Nat := 0x200a0144 + p * 0x80
def PE_POOL_RCOUNT.COUNT (p : Nat) : Fld := ⟨PE_POOL_RCOUNT p, 0, 17⟩
/-- spec/10_pool_engine.md, register PE_POOL_RLOW. -/
def PE_POOL_RLOW (p : Nat) : Nat := 0x200a0148 + p * 0x80
def PE_POOL_RLOW.LEVEL (p : Nat) : Fld := ⟨PE_POOL_RLOW p, 0, 17⟩
def PE_POOL_RLOW.IE (p : Nat) : Fld := ⟨PE_POOL_RLOW p, 31, 1⟩
/-- spec/10_pool_engine.md, register PE_POOL_ALLOCS. -/
def PE_POOL_ALLOCS (p : Nat) : Nat := 0x200a014c + p * 0x80
def PE_POOL_ALLOCS.COUNT (p : Nat) : Fld := ⟨PE_POOL_ALLOCS p, 0, 32⟩
/-- spec/10_pool_engine.md, register PE_POOL_FAILS. -/
def PE_POOL_FAILS (p : Nat) : Nat := 0x200a0150 + p * 0x80
def PE_POOL_FAILS.COUNT (p : Nat) : Fld := ⟨PE_POOL_FAILS p, 0, 32⟩
/-- spec/10_pool_engine.md, register PE_POOL_INUSE. -/
def PE_POOL_INUSE (p : Nat) : Nat := 0x200a0154 + p * 0x80
def PE_POOL_INUSE.COUNT (p : Nat) : Fld := ⟨PE_POOL_INUSE p, 0, 17⟩
/-- spec/10_pool_engine.md, register PE_POOL_AUTH. -/
def PE_POOL_AUTH (p : Nat) : Nat := 0x200a0c00 + p * 0x40
def PE_POOL_AUTH_LIVE (p : Nat) : Nat := PE_POOL_AUTH p + 0xc
def PE_POOL_AUTH.MODE (p : Nat) : Fld := ⟨PE_POOL_AUTH p, 0, 2⟩
def PE_POOL_AUTH.MODE_L (p : Nat) : Fld := ⟨PE_POOL_AUTH_LIVE p, 0, 2⟩
def PE_POOL_AUTH.CONFLICT_IE (p : Nat) : Fld := ⟨PE_POOL_AUTH p, 4, 1⟩
def PE_POOL_AUTH.CONFLICT_IE_L (p : Nat) : Fld := ⟨PE_POOL_AUTH_LIVE p, 4, 1⟩
/-- spec/10_pool_engine.md, register PE_POOL_AUTH_STAT. -/
def PE_POOL_AUTH_STAT (p : Nat) : Nat := 0x200a0c04 + p * 0x40
def PE_POOL_AUTH_STAT.OVERRIDE (p : Nat) : Fld := ⟨PE_POOL_AUTH_STAT p, 0, 1⟩
def PE_POOL_AUTH_STAT.AT_BOUND (p : Nat) : Fld := ⟨PE_POOL_AUTH_STAT p, 1, 2⟩
def PE_POOL_AUTH_STAT.SAFE_ACT (p : Nat) : Fld := ⟨PE_POOL_AUTH_STAT p, 3, 1⟩
def PE_POOL_AUTH_STAT.CONFLICT_SEEN (p : Nat) : Fld := ⟨PE_POOL_AUTH_STAT p, 4, 1⟩
/-- spec/10_pool_engine.md, register PE_POOL_AUTH_CNT. -/
def PE_POOL_AUTH_CNT (p : Nat) : Nat := 0x200a0c08 + p * 0x40
def PE_POOL_AUTH_CNT.CONFLICT (p : Nat) : Fld := ⟨PE_POOL_AUTH_CNT p, 0, 16⟩
/-- spec/10_pool_engine.md, register PE_POOL_LOW. -/
def PE_POOL_LOW (p : Nat) : Nat := 0x200a0c10 + p * 0x40
def PE_POOL_LOW_LIVE (p : Nat) : Nat := PE_POOL_LOW p + 0x10
def PE_POOL_LOW.W (p : Nat) : Fld := ⟨PE_POOL_LOW p, 0, 5⟩
def PE_POOL_LOW.W_L (p : Nat) : Fld := ⟨PE_POOL_LOW_LIVE p, 0, 5⟩
/-- spec/10_pool_engine.md, register PE_POOL_HIGH. -/
def PE_POOL_HIGH (p : Nat) : Nat := 0x200a0c14 + p * 0x40
def PE_POOL_HIGH_LIVE (p : Nat) : Nat := PE_POOL_HIGH p + 0x10
def PE_POOL_HIGH.W (p : Nat) : Fld := ⟨PE_POOL_HIGH p, 0, 5⟩
def PE_POOL_HIGH.W_L (p : Nat) : Fld := ⟨PE_POOL_HIGH_LIVE p, 0, 5⟩
/-- spec/10_pool_engine.md, register PE_POOL_PIN. -/
def PE_POOL_PIN (p : Nat) : Nat := 0x200a0c18 + p * 0x40
def PE_POOL_PIN_LIVE (p : Nat) : Nat := PE_POOL_PIN p + 0x10
def PE_POOL_PIN.W (p : Nat) : Fld := ⟨PE_POOL_PIN p, 0, 5⟩
def PE_POOL_PIN.W_L (p : Nat) : Fld := ⟨PE_POOL_PIN_LIVE p, 0, 5⟩
/-- spec/10_pool_engine.md, register PE_POOL_HINT. -/
def PE_POOL_HINT (p : Nat) : Nat := 0x200a0c1c + p * 0x40
def PE_POOL_HINT.W (p : Nat) : Fld := ⟨PE_POOL_HINT p, 0, 5⟩
/-- spec/10_pool_engine.md, register PE_POOL_MON. -/
def PE_POOL_MON (p : Nat) : Nat := 0x200a0c2c + p * 0x40
def PE_POOL_MON.W (p : Nat) : Fld := ⟨PE_POOL_MON p, 0, 5⟩
/-- spec/10_pool_engine.md, register PE_Q_MAX. -/
def PE_Q_MAX (t p : Nat) : Nat := 0x200a2000 + t * 0x40 + p * 0x4
def PE_Q_MAX_LIVE (t p : Nat) : Nat := PE_Q_MAX t p + 0x2000
def PE_Q_MAX.COUNT (t p : Nat) : Fld := ⟨PE_Q_MAX t p, 0, 17⟩
def PE_Q_MAX.COUNT_L (t p : Nat) : Fld := ⟨PE_Q_MAX_LIVE t p, 0, 17⟩
/-- spec/10_pool_engine.md, register PE_Q_USED. -/
def PE_Q_USED (t p : Nat) : Nat := 0x200a6000 + t * 0x40 + p * 0x4
def PE_Q_USED.COUNT (t p : Nat) : Fld := ⟨PE_Q_USED t p, 0, 17⟩

/-- Register rows of PE, part 0. -/
def rowsPE0 : List RegRow := [
  ⟨0x0, 1, 0x4, 1, 0x4, 0, 0, 0, 0, 0x7, 0, 0, 0, 0, 0, 0xf0, 0⟩,
  ⟨0x4, 1, 0x4, 1, 0x4, 0, 0, 0, 0, 0, 0, 0, 0, 0, 0, 0x7ff, 0⟩,
  ⟨0x8, 1, 0x4, 1, 0x4, 0, 0, 0, 0, 0, 0, 0, 0, 0, 0, 0x7ff, 0⟩,
  ⟨0x10, 1, 0x4, 1, 0x4, 0, 0, 0, 0, 0xc0000000, 0, 0, 0, 0, 0, 0x3ffff, 0⟩,
  ⟨0x14, 1, 0x4, 1, 0x4, 0, 0, 0, 0, 0, 0, 0, 0, 0, 0, 0xffffffff, 0⟩,
  ⟨0x20, 2, 0x4, 1, 0x4, 0, 0, 0, 0, 0, 0, 0, 0, 0, 0, 0xf, 0⟩,
  ⟨0x30, 1, 0x4, 1, 0x4, 0, 0, 0, 0, 0, 0, 0, 0, 0, 0, 0x7fff, 0⟩,
  ⟨0x100, 16, 0x80, 1, 0x80, 0x20, 2, 0x18, 0, 0, 0, 0, 0xfff, 0, 0, 0, 0⟩,
  ⟨0x104, 16, 0x80, 1, 0x80, 0x20, 2, 0x1, 0, 0, 0, 0, 0x1ffff, 0, 0, 0, 0⟩,
  ⟨0x108, 16, 0x80, 1, 0x80, 0x20, 2, 0, 0, 0, 0, 0, 0xffffffc0, 0, 0, 0, 0⟩,
  ⟨0x10c, 16, 0x80, 1, 0x80, 0x20, 2, 0, 0, 0, 0, 0, 0xffffffc0, 0, 0, 0, 0⟩,
  ⟨0x110, 16, 0x80, 1, 0x80, 0x20, 2, 0, 0, 0, 0, 0, 0xffffffc0, 0, 0, 0, 0⟩,
  ⟨0x140, 16, 0x80, 1, 0x80, 0, 0, 0, 0, 0, 0, 0, 0, 0, 0, 0x3f03, 0⟩,
  ⟨0x144, 16, 0x80, 1, 0x80, 0, 0, 0, 0, 0, 0, 0, 0, 0, 0, 0x1ffff, 0⟩,
  ⟨0x148, 16, 0x80, 1, 0x80, 0, 0, 0, 0x8001ffff, 0, 0, 0, 0, 0, 0, 0, 0⟩,
  ⟨0x14c, 16, 0x80, 1, 0x80, 0, 0, 0, 0, 0, 0, 0xffffffff, 0, 0, 0, 0, 0⟩]

/-- Register rows of PE, part 1. -/
def rowsPE1 : List RegRow := [
  ⟨0x150, 16, 0x80, 1, 0x80, 0, 0, 0, 0, 0, 0, 0xffffffff, 0, 0, 0, 0, 0⟩,
  ⟨0x154, 16, 0x80, 1, 0x80, 0, 0, 0, 0, 0, 0, 0, 0, 0, 0, 0x1ffff, 0⟩,
  ⟨0xc00, 16, 0x40, 1, 0x40, 0xc, 2, 0, 0, 0, 0, 0, 0x13, 0, 0, 0, 0⟩,
  ⟨0xc04, 16, 0x40, 1, 0x40, 0, 0, 0, 0, 0x11, 0, 0, 0, 0, 0, 0xe, 0⟩,
  ⟨0xc08, 16, 0x40, 1, 0x40, 0, 0, 0, 0xffff, 0, 0, 0, 0, 0, 0, 0, 0⟩,
  ⟨0xc10, 16, 0x40, 1, 0x40, 0x10, 2, 0x2, 0, 0, 0, 0, 0x1f, 0, 0, 0, 0⟩,
  ⟨0xc14, 16, 0x40, 1, 0x40, 0x10, 2, 0x18, 0, 0, 0, 0, 0x1f, 0, 0, 0, 0⟩,
  ⟨0xc18, 16, 0x40, 1, 0x40, 0x10, 2, 0x8, 0, 0, 0, 0, 0x1f, 0, 0, 0, 0⟩,
  ⟨0xc1c, 16, 0x40, 1, 0x40, 0, 0, 0, 0x1f, 0, 0, 0, 0, 0, 0, 0, 0⟩,
  ⟨0xc2c, 16, 0x40, 1, 0x40, 0, 0, 0x8, 0, 0, 0, 0, 0, 0, 0, 0x1f, 0⟩,
  ⟨0x2000, 128, 0x40, 16, 0x4, 0x2000, 2, 0, 0, 0, 0, 0, 0x1ffff, 0, 0, 0, 0⟩,
  ⟨0x6000, 128, 0x40, 16, 0x4, 0, 0, 0, 0, 0, 0, 0, 0, 0, 0, 0x1ffff, 0⟩]

/-! ### ADC: window base 0x200B0000 (spec/11_analogue_inputs.md) -/

/-- spec/11_analogue_inputs.md, register ADC_SWTRIG_ALL. -/
def ADC_SWTRIG_ALL : Nat := 0x200b0000
def ADC_SWTRIG_ALL.REG : Fld := ⟨ADC_SWTRIG_ALL, 0, 4⟩
def ADC_SWTRIG_ALL.INJ : Fld := ⟨ADC_SWTRIG_ALL, 8, 4⟩
/-- spec/11_analogue_inputs.md, register ADC_COMMIT_ERR. -/
def ADC_COMMIT_ERR : Nat := 0x200b0004
def ADC_COMMIT_ERR.REASON : Fld := ⟨ADC_COMMIT_ERR, 0, 4⟩
def ADC_COMMIT_ERR.CORE : Fld := ⟨ADC_COMMIT_ERR, 4, 2⟩
def ADC_COMMIT_ERR.INDEX : Fld := ⟨ADC_COMMIT_ERR, 6, 5⟩
def ADC_COMMIT_ERR.INJ : Fld := ⟨ADC_COMMIT_ERR, 11, 1⟩
/-- spec/11_analogue_inputs.md, register ADC_CAL. -/
def ADC_CAL : Nat := 0x200b0008
def ADC_CAL_LIVE : Nat := ADC_CAL + 0x800
def ADC_CAL.EN : Fld := ⟨ADC_CAL, 0, 1⟩
def ADC_CAL.EN_L : Fld := ⟨ADC_CAL_LIVE, 0, 1⟩
def ADC_CAL.LOAD : Fld := ⟨ADC_CAL, 1, 1⟩
def ADC_CAL.BAD : Fld := ⟨ADC_CAL, 8, 1⟩
def ADC_CAL.LOADING : Fld := ⟨ADC_CAL, 9, 1⟩
/-- spec/11_analogue_inputs.md, register ADC_IEPE_NEG_RESULT. -/
def ADC_IEPE_NEG_RESULT : Nat := 0x200b0010
def ADC_IEPE_NEG_RESULT.BITS : Fld := ⟨ADC_IEPE_NEG_RESULT, 0, 32⟩
/-- spec/11_analogue_inputs.md, register ADC_IEPE_EVT. -/
def ADC_IEPE_EVT : Nat := 0x200b0014
def ADC_IEPE_EVT.CHG : Fld := ⟨ADC_IEPE_EVT, 0, 8⟩
/-- spec/11_analogue_inputs.md, register ADC_TEDS_CTL. -/
def ADC_TEDS_CTL : Nat := 0x200b0020
def ADC_TEDS_CTL.INPUT : Fld := ⟨ADC_TEDS_CTL, 0, 3⟩
def ADC_TEDS_CTL.LEN : Fld := ⟨ADC_TEDS_CTL, 8, 8⟩
def ADC_TEDS_CTL.GO : Fld := ⟨ADC_TEDS_CTL, 31, 1⟩
/-- spec/11_analogue_inputs.md, register ADC_TEDS_STAT. -/
def ADC_TEDS_STAT : Nat := 0x200b0024
def ADC_TEDS_STAT.BUSY : Fld := ⟨ADC_TEDS_STAT, 0, 1⟩
def ADC_TEDS_STAT.DONE : Fld := ⟨ADC_TEDS_STAT, 1, 1⟩
def ADC_TEDS_STAT.PRESENT : Fld := ⟨ADC_TEDS_STAT, 2, 1⟩
def ADC_TEDS_STAT.NO_DEVICE : Fld := ⟨ADC_TEDS_STAT, 3, 1⟩
def ADC_TEDS_STAT.CRC_ERR : Fld := ⟨ADC_TEDS_STAT, 4, 1⟩
def ADC_TEDS_STAT.REFUSED : Fld := ⟨ADC_TEDS_STAT, 5, 1⟩
/-- spec/11_analogue_inputs.md, register ADC_TEDS_ROM_LO. -/
def ADC_TEDS_ROM_LO : Nat := 0x200b0028
def ADC_TEDS_ROM_LO.ROM : Fld := ⟨ADC_TEDS_ROM_LO, 0, 32⟩
/-- spec/11_analogue_inputs.md, register ADC_TEDS_ROM_HI. -/
def ADC_TEDS_ROM_HI : Nat := 0x200b002c
def ADC_TEDS_ROM_HI.ROM : Fld := ⟨ADC_TEDS_ROM_HI, 0, 32⟩
/-- spec/11_analogue_inputs.md, register ADC_TEDS_DATA. -/
def ADC_TEDS_DATA (k : Nat) : Nat := 0x200b0040 + k * 0x4
def ADC_TEDS_DATA.DATA (k : Nat) : Fld := ⟨ADC_TEDS_DATA k, 0, 32⟩
/-- spec/11_analogue_inputs.md, register ADC_AIN_CFG. -/
def ADC_AIN_CFG (n : Nat) : Nat := 0x200b0100 + n * 0x4
def ADC_AIN_CFG_LIVE (n : Nat) : Nat := ADC_AIN_CFG n + 0x800
def ADC_AIN_CFG.OWNER (n : Nat) : Fld := ⟨ADC_AIN_CFG n, 0, 7⟩
def ADC_AIN_CFG.OWNER_L (n : Nat) : Fld := ⟨ADC_AIN_CFG_LIVE n, 0, 7⟩
def ADC_AIN_CFG.IEPE_EN (n : Nat) : Fld := ⟨ADC_AIN_CFG n, 7, 1⟩
def ADC_AIN_CFG.IEPE_EN_L (n : Nat) : Fld := ⟨ADC_AIN_CFG_LIVE n, 7, 1⟩
def ADC_AIN_CFG.IEPE_I (n : Nat) : Fld := ⟨ADC_AIN_CFG n, 8, 2⟩
def ADC_AIN_CFG.IEPE_I_L (n : Nat) : Fld := ⟨ADC_AIN_CFG_LIVE n, 8, 2⟩
def ADC_AIN_CFG.FLOOR (n : Nat) : Fld := ⟨ADC_AIN_CFG n, 10, 3⟩
def ADC_AIN_CFG.FLOOR_L (n : Nat) : Fld := ⟨ADC_AIN_CFG_LIVE n, 10, 3⟩
def ADC_AIN_CFG.TEDS_AUTO (n : Nat) : Fld := ⟨ADC_AIN_CFG n, 13, 1⟩
def ADC_AIN_CFG.TEDS_AUTO_L (n : Nat) : Fld := ⟨ADC_AIN_CFG_LIVE n, 13, 1⟩
def ADC_AIN_CFG.EXC_EN (n : Nat) : Fld := ⟨ADC_AIN_CFG n, 14, 1⟩
def ADC_AIN_CFG.EXC_EN_L (n : Nat) : Fld := ⟨ADC_AIN_CFG_LIVE n, 14, 1⟩
def ADC_AIN_CFG.EXC_I (n : Nat) : Fld := ⟨ADC_AIN_CFG n, 15, 5⟩
def ADC_AIN_CFG.EXC_I_L (n : Nat) : Fld := ⟨ADC_AIN_CFG_LIVE n, 15, 5⟩
def ADC_AIN_CFG.BURNOUT (n : Nat) : Fld := ⟨ADC_AIN_CFG n, 20, 1⟩
def ADC_AIN_CFG.BURNOUT_L (n : Nat) : Fld := ⟨ADC_AIN_CFG_LIVE n, 20, 1⟩
/-- spec/11_analogue_inputs.md, register ADC_IEPE_BIAS. -/
def ADC_IEPE_BIAS (n : Nat) : Nat := 0x200b0180 + n * 0x4
def ADC_IEPE_BIAS.BIAS (n : Nat) : Fld := ⟨ADC_IEPE_BIAS n, 0, 12⟩
def ADC_IEPE_BIAS.STATE (n : Nat) : Fld := ⟨ADC_IEPE_BIAS n, 12, 3⟩
/-- spec/11_analogue_inputs.md, register ADC_BST1_AUTH. -/
def ADC_BST1_AUTH : Nat := 0x200b0600
def ADC_BST1_AUTH_LIVE : Nat := ADC_BST1_AUTH + 0xc
def ADC_BST1_AUTH.MODE : Fld := ⟨ADC_BST1_AUTH, 0, 2⟩
def ADC_BST1_AUTH.MODE_L : Fld := ⟨ADC_BST1_AUTH_LIVE, 0, 2⟩
def ADC_BST1_AUTH.CONFLICT_IE : Fld := ⟨ADC_BST1_AUTH, 4, 1⟩
def ADC_BST1_AUTH.CONFLICT_IE_L : Fld := ⟨ADC_BST1_AUTH_LIVE, 4, 1⟩
/-- spec/11_analogue_inputs.md, register ADC_BST1_AUTH_STAT. -/
def ADC_BST1_AUTH_STAT : Nat := 0x200b0604
def ADC_BST1_AUTH_STAT.OVERRIDE : Fld := ⟨ADC_BST1_AUTH_STAT, 0, 1⟩
def ADC_BST1_AUTH_STAT.AT_BOUND : Fld := ⟨ADC_BST1_AUTH_STAT, 1, 2⟩
def ADC_BST1_AUTH_STAT.SAFE_ACT : Fld := ⟨ADC_BST1_AUTH_STAT, 3, 1⟩
def ADC_BST1_AUTH_STAT.CONFLICT_SEEN : Fld := ⟨ADC_BST1_AUTH_STAT, 4, 1⟩
/-- spec/11_analogue_inputs.md, register ADC_BST1_AUTH_CNT. -/
def ADC_BST1_AUTH_CNT : Nat := 0x200b0608
def ADC_BST1_AUTH_CNT.CONFLICT : Fld := ⟨ADC_BST1_AUTH_CNT, 0, 16⟩
/-- spec/11_analogue_inputs.md, register ADC_BST1_LOW. -/
def ADC_BST1_LOW : Nat := 0x200b0610
def ADC_BST1_LOW_LIVE : Nat := ADC_BST1_LOW + 0x10
def ADC_BST1_LOW.V : Fld := ⟨ADC_BST1_LOW, 0, 9⟩
def ADC_BST1_LOW.V_L : Fld := ⟨ADC_BST1_LOW_LIVE, 0, 9⟩
/-- spec/11_analogue_inputs.md, register ADC_BST1_HIGH. -/
def ADC_BST1_HIGH : Nat := 0x200b0614
def ADC_BST1_HIGH_LIVE : Nat := ADC_BST1_HIGH + 0x10
def ADC_BST1_HIGH.V : Fld := ⟨ADC_BST1_HIGH, 0, 9⟩
def ADC_BST1_HIGH.V_L : Fld := ⟨ADC_BST1_HIGH_LIVE, 0, 9⟩
/-- spec/11_analogue_inputs.md, register ADC_BST1_PIN. -/
def ADC_BST1_PIN : Nat := 0x200b0618
def ADC_BST1_PIN_LIVE : Nat := ADC_BST1_PIN + 0x10
def ADC_BST1_PIN.V : Fld := ⟨ADC_BST1_PIN, 0, 9⟩
def ADC_BST1_PIN.V_L : Fld := ⟨ADC_BST1_PIN_LIVE, 0, 9⟩
/-- spec/11_analogue_inputs.md, register ADC_BST1_HINT. -/
def ADC_BST1_HINT : Nat := 0x200b061c
def ADC_BST1_HINT.V : Fld := ⟨ADC_BST1_HINT, 0, 9⟩
/-- spec/11_analogue_inputs.md, register ADC_BST1_MON. -/
def ADC_BST1_MON : Nat := 0x200b062c
def ADC_BST1_MON.VOUT : Fld := ⟨ADC_BST1_MON, 0, 9⟩
def ADC_BST1_MON.IOUT : Fld := ⟨ADC_BST1_MON, 16, 8⟩
def ADC_BST1_MON.ILIM : Fld := ⟨ADC_BST1_MON, 24, 1⟩
/-- spec/11_analogue_inputs.md, register ADC_A_CTL. -/
def ADC_A_CTL (a : Nat) : Nat := 0x200b1000 + a * 0x1000
def ADC_A_CTL_LIVE (a : Nat) : Nat := ADC_A_CTL a + 0x800
def ADC_A_CTL.EN (a : Nat) : Fld := ⟨ADC_A_CTL a, 0, 1⟩
def ADC_A_CTL.EN_L (a : Nat) : Fld := ⟨ADC_A_CTL_LIVE a, 0, 1⟩
def ADC_A_CTL.AUTO_PD (a : Nat) : Fld := ⟨ADC_A_CTL a, 1, 1⟩
def ADC_A_CTL.AUTO_PD_L (a : Nat) : Fld := ⟨ADC_A_CTL_LIVE a, 1, 1⟩
def ADC_A_CTL.INJ_POLICY (a : Nat) : Fld := ⟨ADC_A_CTL a, 2, 1⟩
def ADC_A_CTL.INJ_POLICY_L (a : Nat) : Fld := ⟨ADC_A_CTL_LIVE a, 2, 1⟩
def ADC_A_CTL.CONT (a : Nat) : Fld := ⟨ADC_A_CTL a, 3, 1⟩
def ADC_A_CTL.CONT_L (a : Nat) : Fld := ⟨ADC_A_CTL_LIVE a, 3, 1⟩
/-- spec/11_analogue_inputs.md, register ADC_A_REGCFG. -/
def ADC_A_REGCFG (a : Nat) : Nat := 0x200b1004 + a * 0x1000
def ADC_A_REGCFG_LIVE (a : Nat) : Nat := ADC_A_REGCFG a + 0x800
def ADC_A_REGCFG.LEN (a : Nat) : Fld := ⟨ADC_A_REGCFG a, 0, 6⟩
def ADC_A_REGCFG.LEN_L (a : Nat) : Fld := ⟨ADC_A_REGCFG_LIVE a, 0, 6⟩
def ADC_A_REGCFG.TRIG (a : Nat) : Fld := ⟨ADC_A_REGCFG a, 8, 5⟩
def ADC_A_REGCFG.TRIG_L (a : Nat) : Fld := ⟨ADC_A_REGCFG_LIVE a, 8, 5⟩
/-- spec/11_analogue_inputs.md, register ADC_A_REGDLY. -/
def ADC_A_REGDLY (a : Nat) : Nat := 0x200b1008 + a * 0x1000
def ADC_A_REGDLY_LIVE (a : Nat) : Nat := ADC_A_REGDLY a + 0x800
def ADC_A_REGDLY.D (a : Nat) : Fld := ⟨ADC_A_REGDLY a, 0, 16⟩
def ADC_A_REGDLY.D_L (a : Nat) : Fld := ⟨ADC_A_REGDLY_LIVE a, 0, 16⟩
/-- spec/11_analogue_inputs.md, register ADC_A_INJCFG. -/
def ADC_A_INJCFG (a : Nat) : Nat := 0x200b100c + a * 0x1000
def ADC_A_INJCFG_LIVE (a : Nat) : Nat := ADC_A_INJCFG a + 0x800
def ADC_A_INJCFG.LEN (a : Nat) : Fld := ⟨ADC_A_INJCFG a, 0, 4⟩
def ADC_A_INJCFG.LEN_L (a : Nat) : Fld := ⟨ADC_A_INJCFG_LIVE a, 0, 4⟩
def ADC_A_INJCFG.TRIG (a : Nat) : Fld := ⟨ADC_A_INJCFG a, 8, 5⟩
def ADC_A_INJCFG.TRIG_L (a : Nat) : Fld := ⟨ADC_A_INJCFG_LIVE a, 8, 5⟩
/-- spec/11_analogue_inputs.md, register ADC_A_INJDLY. -/
def ADC_A_INJDLY (a : Nat) : Nat := 0x200b1010 + a * 0x1000
def ADC_A_INJDLY_LIVE (a : Nat) : Nat := ADC_A_INJDLY a + 0x800
def ADC_A_INJDLY.D (a : Nat) : Fld := ⟨ADC_A_INJDLY a, 0, 16⟩
def ADC_A_INJDLY.D_L (a : Nat) : Fld := ⟨ADC_A_INJDLY_LIVE a, 0, 16⟩
/-- spec/11_analogue_inputs.md, register ADC_A_OWN. -/
def ADC_A_OWN (a : Nat) : Nat := 0x200b1014 + a * 0x1000
def ADC_A_OWN_LIVE (a : Nat) : Nat := ADC_A_OWN a + 0x800
def ADC_A_OWN.REG_OWNER (a : Nat) : Fld := ⟨ADC_A_OWN a, 0, 7⟩
def ADC_A_OWN.REG_OWNER_L (a : Nat) : Fld := ⟨ADC_A_OWN_LIVE a, 0, 7⟩
def ADC_A_OWN.INJ_OWNER (a : Nat) : Fld := ⟨ADC_A_OWN a, 8, 7⟩
def ADC_A_OWN.INJ_OWNER_L (a : Nat) : Fld := ⟨ADC_A_OWN_LIVE a, 8, 7⟩
/-- spec/11_analogue_inputs.md, register ADC_A_SWTRIG. -/
def ADC_A_SWTRIG (a : Nat) : Nat := 0x200b1018 + a * 0x1000
def ADC_A_SWTRIG.REG (a : Nat) : Fld := ⟨ADC_A_SWTRIG a, 0, 1⟩
def ADC_A_SWTRIG.INJ (a : Nat) : Fld := ⟨ADC_A_SWTRIG a, 1, 1⟩
/-- spec/11_analogue_inputs.md, register ADC_A_STAT. -/
def ADC_A_STAT (a : Nat) : Nat := 0x200b101c + a * 0x1000
def ADC_A_STAT.STATE (a : Nat) : Fld := ⟨ADC_A_STAT a, 0, 3⟩
def ADC_A_STAT.REG_END (a : Nat) : Fld := ⟨ADC_A_STAT a, 8, 1⟩
def ADC_A_STAT.INJ_END (a : Nat) : Fld := ⟨ADC_A_STAT a, 9, 1⟩
def ADC_A_STAT.TRIG_OVR (a : Nat) : Fld := ⟨ADC_A_STAT a, 10, 1⟩
def ADC_A_STAT.INJ_OVR (a : Nat) : Fld := ⟨ADC_A_STAT a, 11, 1⟩
def ADC_A_STAT.REG_LATE (a : Nat) : Fld := ⟨ADC_A_STAT a, 12, 1⟩
def ADC_A_STAT.RETAKEN (a : Nat) : Fld := ⟨ADC_A_STAT a, 13, 1⟩
def ADC_A_STAT.PASS_CUT (a : Nat) : Fld := ⟨ADC_A_STAT a, 14, 1⟩
def ADC_A_STAT.TRANS_SEEN (a : Nat) : Fld := ⟨ADC_A_STAT a, 15, 1⟩
def ADC_A_STAT.LAST_TGEN (a : Nat) : Fld := ⟨ADC_A_STAT a, 16, 6⟩
/-- spec/11_analogue_inputs.md, register ADC_A_FIFO. -/
def ADC_A_FIFO (a : Nat) : Nat := 0x200b1020 + a * 0x1000
def ADC_A_FIFO.WORD (a : Nat) : Fld := ⟨ADC_A_FIFO a, 0, 32⟩
/-- spec/11_analogue_inputs.md, register ADC_A_FIFOSTAT. -/
def ADC_A_FIFOSTAT (a : Nat) : Nat := 0x200b1024 + a * 0x1000
def ADC_A_FIFOSTAT.LEVEL (a : Nat) : Fld := ⟨ADC_A_FIFOSTAT a, 0, 5⟩
def ADC_A_FIFOSTAT.THR (a : Nat) : Fld := ⟨ADC_A_FIFOSTAT a, 8, 4⟩
def ADC_A_FIFOSTAT.OVR (a : Nat) : Fld := ⟨ADC_A_FIFOSTAT a, 16, 1⟩
/-- spec/11_analogue_inputs.md, register ADC_A_IE. -/
def ADC_A_IE (a : Nat) : Nat := 0x200b1028 + a * 0x1000
def ADC_A_IE.EN (a : Nat) : Fld := ⟨ADC_A_IE a, 0, 7⟩
/-- spec/11_analogue_inputs.md, register ADC_A_LOST. -/
def ADC_A_LOST (a : Nat) : Nat := 0x200b102c + a * 0x1000
def ADC_A_LOST.OVR_CNT (a : Nat) : Fld := ⟨ADC_A_LOST a, 0, 16⟩
def ADC_A_LOST.TRIG_LOST (a : Nat) : Fld := ⟨ADC_A_LOST a, 16, 16⟩
/-- spec/11_analogue_inputs.md, register ADC_A_INJDATA. -/
def ADC_A_INJDATA (a k : Nat) : Nat := 0x200b1040 + a * 0x1000 + k * 0x4
def ADC_A_INJDATA.WORD (a k : Nat) : Fld := ⟨ADC_A_INJDATA a k, 0, 32⟩
/-- spec/11_analogue_inputs.md, register ADC_A_STRM_CFG. -/
def ADC_A_STRM_CFG (a : Nat) : Nat := 0x200b1060 + a * 0x1000
def ADC_A_STRM_CFG_LIVE (a : Nat) : Nat := ADC_A_STRM_CFG a + 0x800
def ADC_A_STRM_CFG.EN (a : Nat) : Fld := ⟨ADC_A_STRM_CFG a, 0, 1⟩
def ADC_A_STRM_CFG.EN_L (a : Nat) : Fld := ⟨ADC_A_STRM_CFG_LIVE a, 0, 1⟩
def ADC_A_STRM_CFG.POOL (a : Nat) : Fld := ⟨ADC_A_STRM_CFG a, 1, 4⟩
def ADC_A_STRM_CFG.POOL_L (a : Nat) : Fld := ⟨ADC_A_STRM_CFG_LIVE a, 1, 4⟩
def ADC_A_STRM_CFG.TSET (a : Nat) : Fld := ⟨ADC_A_STRM_CFG a, 5, 1⟩
def ADC_A_STRM_CFG.TSET_L (a : Nat) : Fld := ⟨ADC_A_STRM_CFG_LIVE a, 5, 1⟩
/-- spec/11_analogue_inputs.md, register ADC_A_STRM_SETS. -/
def ADC_A_STRM_SETS (a : Nat) : Nat := 0x200b1064 + a * 0x1000
def ADC_A_STRM_SETS_LIVE (a : Nat) : Nat := ADC_A_STRM_SETS a + 0x800
def ADC_A_STRM_SETS.SETS (a : Nat) : Fld := ⟨ADC_A_STRM_SETS a, 0, 16⟩
def ADC_A_STRM_SETS.SETS_L (a : Nat) : Fld := ⟨ADC_A_STRM_SETS_LIVE a, 0, 16⟩
/-- spec/11_analogue_inputs.md, register ADC_A_STRM_DONE. -/
def ADC_A_STRM_DONE (a : Nat) : Nat := 0x200b1068 + a * 0x1000
def ADC_A_STRM_DONE.HANDLE (a : Nat) : Fld := ⟨ADC_A_STRM_DONE a, 0, 32⟩
/-- spec/11_analogue_inputs.md, register ADC_A_STRM_STAT. -/
def ADC_A_STRM_STAT (a : Nat) : Nat := 0x200b106c + a * 0x1000
def ADC_A_STRM_STAT.DONE_LEVEL (a : Nat) : Fld := ⟨ADC_A_STRM_STAT a, 0, 4⟩
def ADC_A_STRM_STAT.NOBUF (a : Nat) : Fld := ⟨ADC_A_STRM_STAT a, 4, 1⟩
def ADC_A_STRM_STAT.DONE_OVR (a : Nat) : Fld := ⟨ADC_A_STRM_STAT a, 5, 1⟩
def ADC_A_STRM_STAT.DROPPED_SETS (a : Nat) : Fld := ⟨ADC_A_STRM_STAT a, 16, 16⟩
/-- spec/11_analogue_inputs.md, register ADC_A_STRM_SEQNO. -/
def ADC_A_STRM_SEQNO (a : Nat) : Nat := 0x200b1070 + a * 0x1000
def ADC_A_STRM_SEQNO.SEQNO (a : Nat) : Fld := ⟨ADC_A_STRM_SEQNO a, 0, 32⟩
/-- spec/11_analogue_inputs.md, register ADC_A_WC_CFG. -/
def ADC_A_WC_CFG (a w : Nat) : Nat := 0x200b1080 + a * 0x1000 + w * 0x10
def ADC_A_WC_CFG.EN (a w : Nat) : Fld := ⟨ADC_A_WC_CFG a w, 0, 1⟩
def ADC_A_WC_CFG.INJ (a w : Nat) : Fld := ⟨ADC_A_WC_CFG a w, 1, 1⟩
def ADC_A_WC_CFG.SLOT (a w : Nat) : Fld := ⟨ADC_A_WC_CFG a w, 2, 5⟩
def ADC_A_WC_CFG.OUTSIDE (a w : Nat) : Fld := ⟨ADC_A_WC_CFG a w, 7, 1⟩
/-- spec/11_analogue_inputs.md, register ADC_A_WC_LOW. -/
def ADC_A_WC_LOW (a w : Nat) : Nat := 0x200b1084 + a * 0x1000 + w * 0x10
def ADC_A_WC_LOW.VALUE (a w : Nat) : Fld := ⟨ADC_A_WC_LOW a w, 0, 24⟩
/-- spec/11_analogue_inputs.md, register ADC_A_WC_HIGH. -/
def ADC_A_WC_HIGH (a w : Nat) : Nat := 0x200b1088 + a * 0x1000 + w * 0x10
def ADC_A_WC_HIGH.VALUE (a w : Nat) : Fld := ⟨ADC_A_WC_HIGH a w, 0, 24⟩
/-- spec/11_analogue_inputs.md, register ADC_A_WC_STAT. -/
def ADC_A_WC_STAT (a w : Nat) : Nat := 0x200b108c + a * 0x1000 + w * 0x10
def ADC_A_WC_STAT.HIT (a w : Nat) : Fld := ⟨ADC_A_WC_STAT a w, 0, 1⟩
/-- spec/11_analogue_inputs.md, register ADC_A_REG_SLOT. -/
def ADC_A_REG_SLOT (a s : Nat) : Nat := 0x200b1100 + a * 0x1000 + s * 0x4
def ADC_A_REG_SLOT_LIVE (a s : Nat) : Nat := ADC_A_REG_SLOT a s + 0x800
def ADC_A_REG_SLOT.INPUT (a s : Nat) : Fld := ⟨ADC_A_REG_SLOT a s, 0, 5⟩
def ADC_A_REG_SLOT.INPUT_L (a s : Nat) : Fld := ⟨ADC_A_REG_SLOT_LIVE a s, 0, 5⟩
def ADC_A_REG_SLOT.GAIN (a s : Nat) : Fld := ⟨ADC_A_REG_SLOT a s, 5, 3⟩
def ADC_A_REG_SLOT.GAIN_L (a s : Nat) : Fld := ⟨ADC_A_REG_SLOT_LIVE a s, 5, 3⟩
def ADC_A_REG_SLOT.SMP (a s : Nat) : Fld := ⟨ADC_A_REG_SLOT a s, 8, 10⟩
def ADC_A_REG_SLOT.SMP_L (a s : Nat) : Fld := ⟨ADC_A_REG_SLOT_LIVE a s, 8, 10⟩
def ADC_A_REG_SLOT.AVG (a s : Nat) : Fld := ⟨ADC_A_REG_SLOT a s, 18, 4⟩
def ADC_A_REG_SLOT.AVG_L (a s : Nat) : Fld := ⟨ADC_A_REG_SLOT_LIVE a s, 18, 4⟩
def ADC_A_REG_SLOT.SHIFT (a s : Nat) : Fld := ⟨ADC_A_REG_SLOT a s, 22, 4⟩
def ADC_A_REG_SLOT.SHIFT_L (a s : Nat) : Fld := ⟨ADC_A_REG_SLOT_LIVE a s, 22, 4⟩
/-- spec/11_analogue_inputs.md, register ADC_A_INJ_SLOT. -/
def ADC_A_INJ_SLOT (a k : Nat) : Nat := 0x200b1180 + a * 0x1000 + k * 0x4
def ADC_A_INJ_SLOT_LIVE (a k : Nat) : Nat := ADC_A_INJ_SLOT a k + 0x800
def ADC_A_INJ_SLOT.INPUT (a k : Nat) : Fld := ⟨ADC_A_INJ_SLOT a k, 0, 5⟩
def ADC_A_INJ_SLOT.INPUT_L (a k : Nat) : Fld := ⟨ADC_A_INJ_SLOT_LIVE a k, 0, 5⟩
def ADC_A_INJ_SLOT.GAIN (a k : Nat) : Fld := ⟨ADC_A_INJ_SLOT a k, 5, 3⟩
def ADC_A_INJ_SLOT.GAIN_L (a k : Nat) : Fld := ⟨ADC_A_INJ_SLOT_LIVE a k, 5, 3⟩
def ADC_A_INJ_SLOT.SMP (a k : Nat) : Fld := ⟨ADC_A_INJ_SLOT a k, 8, 10⟩
def ADC_A_INJ_SLOT.SMP_L (a k : Nat) : Fld := ⟨ADC_A_INJ_SLOT_LIVE a k, 8, 10⟩
def ADC_A_INJ_SLOT.AVG (a k : Nat) : Fld := ⟨ADC_A_INJ_SLOT a k, 18, 4⟩
def ADC_A_INJ_SLOT.AVG_L (a k : Nat) : Fld := ⟨ADC_A_INJ_SLOT_LIVE a k, 18, 4⟩
def ADC_A_INJ_SLOT.SHIFT (a k : Nat) : Fld := ⟨ADC_A_INJ_SLOT a k, 22, 4⟩
def ADC_A_INJ_SLOT.SHIFT_L (a k : Nat) : Fld := ⟨ADC_A_INJ_SLOT_LIVE a k, 22, 4⟩

/-- Register rows of ADC, part 0. -/
def rowsADC0 : List RegRow := [
  ⟨0x0, 1, 0x4, 1, 0x4, 0, 0, 0, 0, 0, 0, 0, 0, 0, 0xf0f, 0, 0⟩,
  ⟨0x4, 1, 0x4, 1, 0x4, 0, 0, 0, 0, 0, 0, 0, 0, 0, 0, 0xfff, 0⟩,
  ⟨0x8, 1, 0x4, 1, 0x4, 0x800, 4, 0, 0, 0, 0, 0, 0x1, 0, 0x2, 0x300, 0⟩,
  ⟨0x10, 1, 0x4, 1, 0x4, 0, 0, 0, 0, 0, 0, 0, 0, 0, 0, 0xffffffff, 0⟩,
  ⟨0x14, 1, 0x4, 1, 0x4, 0, 0, 0, 0, 0xff, 0, 0, 0, 0, 0, 0, 0⟩,
  ⟨0x20, 1, 0x4, 1, 0x4, 0, 0, 0x8000, 0xff07, 0, 0, 0, 0, 0, 0x80000000, 0, 0⟩,
  ⟨0x24, 1, 0x4, 1, 0x4, 0, 0, 0, 0, 0x22, 0, 0, 0, 0, 0, 0x1d, 0⟩,
  ⟨0x28, 1, 0x4, 1, 0x4, 0, 0, 0, 0, 0, 0, 0, 0, 0, 0, 0xffffffff, 0⟩,
  ⟨0x2c, 1, 0x4, 1, 0x4, 0, 0, 0, 0, 0, 0, 0, 0, 0, 0, 0xffffffff, 0⟩,
  ⟨0x40, 32, 0x4, 1, 0x4, 0, 0, 0, 0, 0, 0, 0, 0, 0, 0, 0xffffffff, 0⟩,
  ⟨0x100, 24, 0x4, 1, 0x4, 0x800, 4, 0x8000, 0, 0, 0, 0, 0x1fffff, 0, 0, 0, 0⟩,
  ⟨0x180, 8, 0x4, 1, 0x4, 0, 0, 0, 0, 0, 0, 0, 0, 0, 0, 0x7fff, 0⟩,
  ⟨0x600, 1, 0x4, 1, 0x4, 0xc, 4, 0, 0, 0, 0, 0, 0x13, 0, 0, 0, 0⟩,
  ⟨0x604, 1, 0x4, 1, 0x4, 0, 0, 0, 0, 0x11, 0, 0, 0, 0, 0, 0xe, 0⟩,
  ⟨0x608, 1, 0x4, 1, 0x4, 0, 0, 0, 0xffff, 0, 0, 0, 0, 0, 0, 0, 0⟩,
  ⟨0x610, 1, 0x4, 1, 0x4, 0x10, 4, 0x78, 0, 0, 0, 0, 0x1ff, 0, 0, 0, 0⟩]

/-- Register rows of ADC, part 1. -/
def rowsADC1 : List RegRow := [
  ⟨0x614, 1, 0x4, 1, 0x4, 0x10, 4, 0x104, 0, 0, 0, 0, 0x1ff, 0, 0, 0, 0⟩,
  ⟨0x618, 1, 0x4, 1, 0x4, 0x10, 4, 0x104, 0, 0, 0, 0, 0x1ff, 0, 0, 0, 0⟩,
  ⟨0x61c, 1, 0x4, 1, 0x4, 0, 0, 0, 0x1ff, 0, 0, 0, 0, 0, 0, 0, 0⟩,
  ⟨0x62c, 1, 0x4, 1, 0x4, 0, 0, 0, 0, 0, 0, 0, 0, 0, 0, 0x1ff01ff, 0⟩,
  ⟨0x1000, 4, 0x1000, 1, 0x1000, 0x800, 4, 0x2, 0, 0, 0, 0, 0xf, 0, 0, 0, 0⟩,
  ⟨0x1004, 4, 0x1000, 1, 0x1000, 0x800, 4, 0x1, 0, 0, 0, 0, 0x1f3f, 0, 0, 0, 0⟩,
  ⟨0x1008, 4, 0x1000, 1, 0x1000, 0x800, 4, 0, 0, 0, 0, 0, 0xffff, 0, 0, 0, 0⟩,
  ⟨0x100c, 4, 0x1000, 1, 0x1000, 0x800, 4, 0x1, 0, 0, 0, 0, 0x1f0f, 0, 0, 0, 0⟩,
  ⟨0x1010, 4, 0x1000, 1, 0x1000, 0x800, 4, 0, 0, 0, 0, 0, 0xffff, 0, 0, 0, 0⟩,
  ⟨0x1014, 4, 0x1000, 1, 0x1000, 0x800, 4, 0, 0, 0, 0, 0, 0x7f7f, 0, 0, 0, 0⟩,
  ⟨0x1018, 4, 0x1000, 1, 0x1000, 0, 0, 0, 0, 0, 0, 0, 0, 0, 0x3, 0, 0⟩,
  ⟨0x101c, 4, 0x1000, 1, 0x1000, 0, 0, 0, 0, 0xff00, 0, 0, 0, 0, 0, 0x3f0007, 0⟩,
  ⟨0x1020, 4, 0x1000, 1, 0x1000, 0, 0, 0, 0, 0, 0, 0, 0, 0, 0, 0xffffffff, 0⟩,
  ⟨0x1024, 4, 0x1000, 1, 0x1000, 0, 0, 0x700, 0xf00, 0x10000, 0, 0, 0, 0, 0, 0x1f, 0⟩,
  ⟨0x1028, 4, 0x1000, 1, 0x1000, 0, 0, 0, 0x7f, 0, 0, 0, 0, 0, 0, 0, 0⟩,
  ⟨0x102c, 4, 0x1000, 1, 0x1000, 0, 0, 0, 0, 0, 0, 0xffffffff, 0, 0, 0, 0, 0⟩]

/-- Register rows of ADC, part 2. -/
def rowsADC2 : List RegRow := [
  ⟨0x1040, 4, 0x1000, 8, 0x4, 0, 0, 0, 0, 0, 0, 0, 0, 0, 0, 0xffffffff, 0⟩,
  ⟨0x1060, 4, 0x1000, 1, 0x1000, 0x800, 4, 0, 0, 0, 0, 0, 0x3f, 0, 0, 0, 0⟩,
  ⟨0x1064, 4, 0x1000, 1, 0x1000, 0x800, 4, 0x1, 0, 0, 0, 0, 0xffff, 0, 0, 0, 0⟩,
  ⟨0x1068, 4, 0x1000, 1, 0x1000, 0, 0, 0, 0, 0, 0, 0, 0, 0, 0, 0xffffffff, 0⟩,
  ⟨0x106c, 4, 0x1000, 1, 0x1000, 0, 0, 0, 0, 0x20, 0, 0xffff0000, 0, 0, 0, 0x1f, 0⟩,
  ⟨0x1070, 4, 0x1000, 1, 0x1000, 0, 0, 0, 0, 0, 0, 0, 0, 0, 0, 0xffffffff, 0⟩,
  ⟨0x1080, 4, 0x1000, 2, 0x10, 0, 0, 0, 0xff, 0, 0, 0, 0, 0, 0, 0, 0⟩,
  ⟨0x1084, 4, 0x1000, 2, 0x10, 0, 0, 0, 0xffffff, 0, 0, 0, 0, 0, 0, 0, 0⟩,
  ⟨0x1088, 4, 0x1000, 2, 0x10, 0, 0, 0, 0xffffff, 0, 0, 0, 0, 0, 0, 0, 0⟩,
  ⟨0x108c, 4, 0x1000, 2, 0x10, 0, 0, 0, 0, 0x1, 0, 0, 0, 0, 0, 0, 0⟩,
  ⟨0x1100, 4, 0x1000, 32, 0x4, 0x800, 4, 0x1400, 0, 0, 0, 0, 0x3ffffff, 0, 0, 0, 0⟩,
  ⟨0x1180, 4, 0x1000, 8, 0x4, 0x800, 4, 0x1400, 0, 0, 0, 0, 0x3ffffff, 0, 0, 0, 0⟩]

/-! ### AOUT: window base 0x200C0000 (spec/12_analogue_outputs.md) -/

/-- spec/12_analogue_outputs.md, register AOUT_COMMIT_ERR. -/
def AOUT_COMMIT_ERR : Nat := 0x200c0000
def AOUT_COMMIT_ERR.REASON : Fld := ⟨AOUT_COMMIT_ERR, 0, 4⟩
def AOUT_COMMIT_ERR.CHAN : Fld := ⟨AOUT_COMMIT_ERR, 4, 2⟩
/-- spec/12_analogue_outputs.md, register AOUT_CAL. -/
def AOUT_CAL : Nat := 0x200c0004
def AOUT_CAL_LIVE : Nat := AOUT_CAL + 0x20
def AOUT_CAL.EN : Fld := ⟨AOUT_CAL, 0, 1⟩
def AOUT_CAL.EN_L : Fld := ⟨AOUT_CAL_LIVE, 0, 1⟩
/-- spec/12_analogue_outputs.md, register AOUT_DRV_CFG. -/
def AOUT_DRV_CFG (n : Nat) : Nat := 0x200c0100 + n * 0x40
def AOUT_DRV_CFG_LIVE (n : Nat) : Nat := AOUT_DRV_CFG n + 0x20
def AOUT_DRV_CFG.EN (n : Nat) : Fld := ⟨AOUT_DRV_CFG n, 0, 1⟩
def AOUT_DRV_CFG.EN_L (n : Nat) : Fld := ⟨AOUT_DRV_CFG_LIVE n, 0, 1⟩
def AOUT_DRV_CFG.SRC (n : Nat) : Fld := ⟨AOUT_DRV_CFG n, 1, 2⟩
def AOUT_DRV_CFG.SRC_L (n : Nat) : Fld := ⟨AOUT_DRV_CFG_LIVE n, 1, 2⟩
def AOUT_DRV_CFG.TRIG (n : Nat) : Fld := ⟨AOUT_DRV_CFG n, 3, 5⟩
def AOUT_DRV_CFG.TRIG_L (n : Nat) : Fld := ⟨AOUT_DRV_CFG_LIVE n, 3, 5⟩
def AOUT_DRV_CFG.UNDER_POL (n : Nat) : Fld := ⟨AOUT_DRV_CFG n, 8, 1⟩
def AOUT_DRV_CFG.UNDER_POL_L (n : Nat) : Fld := ⟨AOUT_DRV_CFG_LIVE n, 8, 1⟩
def AOUT_DRV_CFG.RECON (n : Nat) : Fld := ⟨AOUT_DRV_CFG n, 9, 2⟩
def AOUT_DRV_CFG.RECON_L (n : Nat) : Fld := ⟨AOUT_DRV_CFG_LIVE n, 9, 2⟩
def AOUT_DRV_CFG.TRACK_TX (n : Nat) : Fld := ⟨AOUT_DRV_CFG n, 11, 1⟩
def AOUT_DRV_CFG.TRACK_TX_L (n : Nat) : Fld := ⟨AOUT_DRV_CFG_LIVE n, 11, 1⟩
def AOUT_DRV_CFG.TAKE_LOCAL (n : Nat) : Fld := ⟨AOUT_DRV_CFG n, 12, 1⟩
def AOUT_DRV_CFG.TAKE_LOCAL_L (n : Nat) : Fld := ⟨AOUT_DRV_CFG_LIVE n, 12, 1⟩
def AOUT_DRV_CFG.RAMP (n : Nat) : Fld := ⟨AOUT_DRV_CFG n, 16, 8⟩
def AOUT_DRV_CFG.RAMP_L (n : Nat) : Fld := ⟨AOUT_DRV_CFG_LIVE n, 16, 8⟩
/-- spec/12_analogue_outputs.md, register AOUT_DRV_OWNER. -/
def AOUT_DRV_OWNER (n : Nat) : Nat := 0x200c0104 + n * 0x40
def AOUT_DRV_OWNER_LIVE (n : Nat) : Nat := AOUT_DRV_OWNER n + 0x20
def AOUT_DRV_OWNER.TID (n : Nat) : Fld := ⟨AOUT_DRV_OWNER n, 0, 7⟩
def AOUT_DRV_OWNER.TID_L (n : Nat) : Fld := ⟨AOUT_DRV_OWNER_LIVE n, 0, 7⟩
/-- spec/12_analogue_outputs.md, register AOUT_DRV_PUSH. -/
def AOUT_DRV_PUSH (n : Nat) : Nat := 0x200c0108 + n * 0x40
def AOUT_DRV_PUSH.HANDLE (n : Nat) : Fld := ⟨AOUT_DRV_PUSH n, 0, 32⟩
/-- spec/12_analogue_outputs.md, register AOUT_DRV_DIRECT. -/
def AOUT_DRV_DIRECT (n : Nat) : Nat := 0x200c010c + n * 0x40
def AOUT_DRV_DIRECT.CODE (n : Nat) : Fld := ⟨AOUT_DRV_DIRECT n, 0, 20⟩
/-- spec/12_analogue_outputs.md, register AOUT_DRV_STAT. -/
def AOUT_DRV_STAT (n : Nat) : Nat := 0x200c0110 + n * 0x40
def AOUT_DRV_STAT.STATE (n : Nat) : Fld := ⟨AOUT_DRV_STAT n, 0, 2⟩
def AOUT_DRV_STAT.QLEVEL (n : Nat) : Fld := ⟨AOUT_DRV_STAT n, 2, 4⟩
def AOUT_DRV_STAT.UNDERRUN (n : Nat) : Fld := ⟨AOUT_DRV_STAT n, 8, 1⟩
def AOUT_DRV_STAT.TRIG_OVR (n : Nat) : Fld := ⟨AOUT_DRV_STAT n, 9, 1⟩
def AOUT_DRV_STAT.BAD_HANDLE (n : Nat) : Fld := ⟨AOUT_DRV_STAT n, 10, 1⟩
def AOUT_DRV_STAT.PUSH_FULL (n : Nat) : Fld := ⟨AOUT_DRV_STAT n, 11, 1⟩
def AOUT_DRV_STAT.CLIP (n : Nat) : Fld := ⟨AOUT_DRV_STAT n, 12, 1⟩
def AOUT_DRV_STAT.TRANS_SEEN (n : Nat) : Fld := ⟨AOUT_DRV_STAT n, 13, 1⟩
def AOUT_DRV_STAT.MUTED (n : Nat) : Fld := ⟨AOUT_DRV_STAT n, 14, 1⟩
/-- spec/12_analogue_outputs.md, register AOUT_DRV_CODE. -/
def AOUT_DRV_CODE (n : Nat) : Nat := 0x200c0114 + n * 0x40
def AOUT_DRV_CODE.CODE (n : Nat) : Fld := ⟨AOUT_DRV_CODE n, 0, 20⟩
/-- spec/12_analogue_outputs.md, register AOUT_DRV_COUNT. -/
def AOUT_DRV_COUNT (n : Nat) : Nat := 0x200c0118 + n * 0x40
def AOUT_DRV_COUNT.UNDERRUNS (n : Nat) : Fld := ⟨AOUT_DRV_COUNT n, 0, 16⟩
def AOUT_DRV_COUNT.TRACK_MISS (n : Nat) : Fld := ⟨AOUT_DRV_COUNT n, 16, 16⟩
/-- spec/12_analogue_outputs.md, register AOUT_DRV_IE. -/
def AOUT_DRV_IE (n : Nat) : Nat := 0x200c011c + n * 0x40
def AOUT_DRV_IE.UNDERRUN (n : Nat) : Fld := ⟨AOUT_DRV_IE n, 0, 1⟩
/-- spec/12_analogue_outputs.md, register AOUT_CL_CFG. -/
def AOUT_CL_CFG (n : Nat) : Nat := 0x200c0300 + n * 0x40
def AOUT_CL_CFG_LIVE (n : Nat) : Nat := AOUT_CL_CFG n + 0x20
def AOUT_CL_CFG.EN (n : Nat) : Fld := ⟨AOUT_CL_CFG n, 0, 1⟩
def AOUT_CL_CFG.EN_L (n : Nat) : Fld := ⟨AOUT_CL_CFG_LIVE n, 0, 1⟩
def AOUT_CL_CFG.MODE (n : Nat) : Fld := ⟨AOUT_CL_CFG n, 1, 1⟩
def AOUT_CL_CFG.MODE_L (n : Nat) : Fld := ⟨AOUT_CL_CFG_LIVE n, 1, 1⟩
def AOUT_CL_CFG.POLICY (n : Nat) : Fld := ⟨AOUT_CL_CFG n, 2, 2⟩
def AOUT_CL_CFG.POLICY_L (n : Nat) : Fld := ⟨AOUT_CL_CFG_LIVE n, 2, 2⟩
def AOUT_CL_CFG.TWIN_GATE (n : Nat) : Fld := ⟨AOUT_CL_CFG n, 4, 1⟩
def AOUT_CL_CFG.TWIN_GATE_L (n : Nat) : Fld := ⟨AOUT_CL_CFG_LIVE n, 4, 1⟩
/-- spec/12_analogue_outputs.md, register AOUT_CL_OWNER. -/
def AOUT_CL_OWNER (n : Nat) : Nat := 0x200c0304 + n * 0x40
def AOUT_CL_OWNER_LIVE (n : Nat) : Nat := AOUT_CL_OWNER n + 0x20
def AOUT_CL_OWNER.TID (n : Nat) : Fld := ⟨AOUT_CL_OWNER n, 0, 7⟩
def AOUT_CL_OWNER.TID_L (n : Nat) : Fld := ⟨AOUT_CL_OWNER_LIVE n, 0, 7⟩
/-- spec/12_analogue_outputs.md, register AOUT_CL_CODE. -/
def AOUT_CL_CODE (n : Nat) : Nat := 0x200c0308 + n * 0x40
def AOUT_CL_CODE.CODE (n : Nat) : Fld := ⟨AOUT_CL_CODE n, 0, 16⟩
/-- spec/12_analogue_outputs.md, register AOUT_CL_READBACK. -/
def AOUT_CL_READBACK (n : Nat) : Nat := 0x200c030c + n * 0x40
def AOUT_CL_READBACK.I_RB (n : Nat) : Fld := ⟨AOUT_CL_READBACK n, 0, 16⟩
def AOUT_CL_READBACK.H (n : Nat) : Fld := ⟨AOUT_CL_READBACK n, 16, 12⟩
/-- spec/12_analogue_outputs.md, register AOUT_CL_STAT. -/
def AOUT_CL_STAT (n : Nat) : Nat := 0x200c0310 + n * 0x40
def AOUT_CL_STAT.HEADROOM (n : Nat) : Fld := ⟨AOUT_CL_STAT n, 0, 1⟩
def AOUT_CL_STAT.FAULT_ACTIVE (n : Nat) : Fld := ⟨AOUT_CL_STAT n, 1, 1⟩
def AOUT_CL_STAT.FAULT_UNREACHABLE (n : Nat) : Fld := ⟨AOUT_CL_STAT n, 2, 1⟩
def AOUT_CL_STAT.DEVIATION (n : Nat) : Fld := ⟨AOUT_CL_STAT n, 3, 1⟩
def AOUT_CL_STAT.HEADROOM_SEEN (n : Nat) : Fld := ⟨AOUT_CL_STAT n, 4, 1⟩
/-- spec/12_analogue_outputs.md, register AOUT_CL_IE. -/
def AOUT_CL_IE (n : Nat) : Nat := 0x200c0314 + n * 0x40
def AOUT_CL_IE.EN (n : Nat) : Fld := ⟨AOUT_CL_IE n, 0, 3⟩
/-- spec/12_analogue_outputs.md, register AOUT_BST2_AUTH. -/
def AOUT_BST2_AUTH : Nat := 0x200c0600
def AOUT_BST2_AUTH_LIVE : Nat := AOUT_BST2_AUTH + 0xc
def AOUT_BST2_AUTH.MODE : Fld := ⟨AOUT_BST2_AUTH, 0, 2⟩
def AOUT_BST2_AUTH.MODE_L : Fld := ⟨AOUT_BST2_AUTH_LIVE, 0, 2⟩
def AOUT_BST2_AUTH.CONFLICT_IE : Fld := ⟨AOUT_BST2_AUTH, 4, 1⟩
def AOUT_BST2_AUTH.CONFLICT_IE_L : Fld := ⟨AOUT_BST2_AUTH_LIVE, 4, 1⟩
/-- spec/12_analogue_outputs.md, register AOUT_BST2_AUTH_STAT. -/
def AOUT_BST2_AUTH_STAT : Nat := 0x200c0604
def AOUT_BST2_AUTH_STAT.OVERRIDE : Fld := ⟨AOUT_BST2_AUTH_STAT, 0, 1⟩
def AOUT_BST2_AUTH_STAT.AT_BOUND : Fld := ⟨AOUT_BST2_AUTH_STAT, 1, 2⟩
def AOUT_BST2_AUTH_STAT.SAFE_ACT : Fld := ⟨AOUT_BST2_AUTH_STAT, 3, 1⟩
def AOUT_BST2_AUTH_STAT.CONFLICT_SEEN : Fld := ⟨AOUT_BST2_AUTH_STAT, 4, 1⟩
/-- spec/12_analogue_outputs.md, register AOUT_BST2_AUTH_CNT. -/
def AOUT_BST2_AUTH_CNT : Nat := 0x200c0608
def AOUT_BST2_AUTH_CNT.CONFLICT : Fld := ⟨AOUT_BST2_AUTH_CNT, 0, 16⟩
/-- spec/12_analogue_outputs.md, register AOUT_BST2_LOW. -/
def AOUT_BST2_LOW : Nat := 0x200c0610
def AOUT_BST2_LOW_LIVE : Nat := AOUT_BST2_LOW + 0x10
def AOUT_BST2_LOW.V : Fld := ⟨AOUT_BST2_LOW, 0, 9⟩
def AOUT_BST2_LOW.V_L : Fld := ⟨AOUT_BST2_LOW_LIVE, 0, 9⟩
/-- spec/12_analogue_outputs.md, register AOUT_BST2_HIGH. -/
def AOUT_BST2_HIGH : Nat := 0x200c0614
def AOUT_BST2_HIGH_LIVE : Nat := AOUT_BST2_HIGH + 0x10
def AOUT_BST2_HIGH.V : Fld := ⟨AOUT_BST2_HIGH, 0, 9⟩
def AOUT_BST2_HIGH.V_L : Fld := ⟨AOUT_BST2_HIGH_LIVE, 0, 9⟩
/-- spec/12_analogue_outputs.md, register AOUT_BST2_PIN. -/
def AOUT_BST2_PIN : Nat := 0x200c0618
def AOUT_BST2_PIN_LIVE : Nat := AOUT_BST2_PIN + 0x10
def AOUT_BST2_PIN.V : Fld := ⟨AOUT_BST2_PIN, 0, 9⟩
def AOUT_BST2_PIN.V_L : Fld := ⟨AOUT_BST2_PIN_LIVE, 0, 9⟩
/-- spec/12_analogue_outputs.md, register AOUT_BST2_HINT. -/
def AOUT_BST2_HINT : Nat := 0x200c061c
def AOUT_BST2_HINT.V : Fld := ⟨AOUT_BST2_HINT, 0, 9⟩
/-- spec/12_analogue_outputs.md, register AOUT_BST2_MON. -/
def AOUT_BST2_MON : Nat := 0x200c062c
def AOUT_BST2_MON.VOUT : Fld := ⟨AOUT_BST2_MON, 0, 9⟩
def AOUT_BST2_MON.IOUT : Fld := ⟨AOUT_BST2_MON, 16, 8⟩
def AOUT_BST2_MON.ILIM : Fld := ⟨AOUT_BST2_MON, 24, 1⟩

/-- Register rows of AOUT, part 0. -/
def rowsAOUT0 : List RegRow := [
  ⟨0x0, 1, 0x4, 1, 0x4, 0, 0, 0, 0, 0, 0, 0, 0, 0, 0, 0x3f, 0⟩,
  ⟨0x4, 1, 0x4, 1, 0x4, 0x20, 6, 0, 0, 0, 0, 0, 0x1, 0, 0, 0, 0⟩,
  ⟨0x100, 4, 0x40, 1, 0x40, 0x20, 6, 0x101000, 0, 0, 0, 0, 0xff1fff, 0, 0, 0, 0⟩,
  ⟨0x104, 4, 0x40, 1, 0x40, 0x20, 1, 0, 0, 0, 0, 0, 0x7f, 0, 0, 0, 0⟩,
  ⟨0x108, 4, 0x40, 1, 0x40, 0, 0, 0, 0, 0, 0, 0, 0, 0, 0xffffffff, 0, 0⟩,
  ⟨0x10c, 4, 0x40, 1, 0x40, 0, 0, 0, 0xfffff, 0, 0, 0, 0, 0, 0, 0, 0⟩,
  ⟨0x110, 4, 0x40, 1, 0x40, 0, 0, 0x4000, 0, 0x3f00, 0, 0, 0, 0, 0, 0x403f, 0⟩,
  ⟨0x114, 4, 0x40, 1, 0x40, 0, 0, 0, 0, 0, 0, 0, 0, 0, 0, 0xfffff, 0⟩,
  ⟨0x118, 4, 0x40, 1, 0x40, 0, 0, 0, 0, 0, 0, 0xffffffff, 0, 0, 0, 0, 0⟩,
  ⟨0x11c, 4, 0x40, 1, 0x40, 0, 0, 0, 0x1, 0, 0, 0, 0, 0, 0, 0, 0⟩,
  ⟨0x300, 4, 0x40, 1, 0x40, 0x20, 6, 0, 0, 0, 0, 0, 0x1f, 0, 0, 0, 0⟩,
  ⟨0x304, 4, 0x40, 1, 0x40, 0x20, 1, 0, 0, 0, 0, 0, 0x7f, 0, 0, 0, 0⟩,
  ⟨0x308, 4, 0x40, 1, 0x40, 0, 0, 0, 0xffff, 0, 0, 0, 0, 0, 0, 0, 0⟩,
  ⟨0x30c, 4, 0x40, 1, 0x40, 0, 0, 0, 0, 0, 0, 0, 0, 0, 0, 0xfffffff, 0⟩,
  ⟨0x310, 4, 0x40, 1, 0x40, 0, 0, 0, 0, 0x18, 0, 0, 0, 0, 0, 0x7, 0⟩,
  ⟨0x314, 4, 0x40, 1, 0x40, 0, 0, 0, 0x7, 0, 0, 0, 0, 0, 0, 0, 0⟩]

/-- Register rows of AOUT, part 1. -/
def rowsAOUT1 : List RegRow := [
  ⟨0x600, 1, 0x4, 1, 0x4, 0xc, 6, 0, 0, 0, 0, 0, 0x13, 0, 0, 0, 0⟩,
  ⟨0x604, 1, 0x4, 1, 0x4, 0, 0, 0, 0, 0x11, 0, 0, 0, 0, 0, 0xe, 0⟩,
  ⟨0x608, 1, 0x4, 1, 0x4, 0, 0, 0, 0xffff, 0, 0, 0, 0, 0, 0, 0, 0⟩,
  ⟨0x610, 1, 0x4, 1, 0x4, 0x10, 6, 0x50, 0, 0, 0, 0, 0x1ff, 0, 0, 0, 0⟩,
  ⟨0x614, 1, 0x4, 1, 0x4, 0x10, 6, 0x104, 0, 0, 0, 0, 0x1ff, 0, 0, 0, 0⟩,
  ⟨0x618, 1, 0x4, 1, 0x4, 0x10, 6, 0x104, 0, 0, 0, 0, 0x1ff, 0, 0, 0, 0⟩,
  ⟨0x61c, 1, 0x4, 1, 0x4, 0, 0, 0, 0x1ff, 0, 0, 0, 0, 0, 0, 0, 0⟩,
  ⟨0x62c, 1, 0x4, 1, 0x4, 0, 0, 0, 0, 0, 0, 0, 0, 0, 0, 0x1ff01ff, 0⟩]

/-! ### TMR: window base 0x200D0000 (spec/13_timers.md) -/

/-- spec/13_timers.md, register TMR_START. -/
def TMR_START : Nat := 0x200d0000
def TMR_START.TIMERS : Fld := ⟨TMR_START, 0, 20⟩
/-- spec/13_timers.md, register TMR_STOP. -/
def TMR_STOP : Nat := 0x200d0004
def TMR_STOP.TIMERS : Fld := ⟨TMR_STOP, 0, 20⟩
/-- spec/13_timers.md, register TMR_MISSED. -/
def TMR_MISSED : Nat := 0x200d0008
def TMR_MISSED.TIMERS : Fld := ⟨TMR_MISSED, 0, 20⟩
/-- spec/13_timers.md, register TMR_MISSED_IE. -/
def TMR_MISSED_IE : Nat := 0x200d000c
def TMR_MISSED_IE.IE : Fld := ⟨TMR_MISSED_IE, 0, 1⟩
/-- spec/13_timers.md, register TMR_COMMIT_ERR. -/
def TMR_COMMIT_ERR : Nat := 0x200d0010
def TMR_COMMIT_ERR.REASON : Fld := ⟨TMR_COMMIT_ERR, 0, 4⟩
def TMR_COMMIT_ERR.TIMER : Fld := ⟨TMR_COMMIT_ERR, 4, 5⟩
/-- spec/13_timers.md, register TMR_TBS_LO. -/
def TMR_TBS_LO : Nat := 0x200d0020
def TMR_TBS_LO.TB : Fld := ⟨TMR_TBS_LO, 0, 32⟩
/-- spec/13_timers.md, register TMR_TBS_HI. -/
def TMR_TBS_HI : Nat := 0x200d0024
def TMR_TBS_HI.TB : Fld := ⟨TMR_TBS_HI, 0, 32⟩
/-- spec/13_timers.md, register TMR_TBS_MASK. -/
def TMR_TBS_MASK : Nat := 0x200d0028
def TMR_TBS_MASK.TIMERS : Fld := ⟨TMR_TBS_MASK, 0, 20⟩
/-- spec/13_timers.md, register TMR_TBS_CTL. -/
def TMR_TBS_CTL : Nat := 0x200d002c
def TMR_TBS_CTL.ARM : Fld := ⟨TMR_TBS_CTL, 0, 1⟩
def TMR_TBS_CTL.HIT : Fld := ⟨TMR_TBS_CTL, 1, 1⟩
/-- spec/13_timers.md, register TMR_TB_LO. -/
def TMR_TB_LO : Nat := 0x200d0100
def TMR_TB_LO.TB : Fld := ⟨TMR_TB_LO, 0, 32⟩
/-- spec/13_timers.md, register TMR_TB_HI. -/
def TMR_TB_HI : Nat := 0x200d0104
def TMR_TB_HI.TB : Fld := ⟨TMR_TB_HI, 0, 32⟩
/-- spec/13_timers.md, register TMR_TB_SET_LO. -/
def TMR_TB_SET_LO : Nat := 0x200d0108
def TMR_TB_SET_LO.VALUE : Fld := ⟨TMR_TB_SET_LO, 0, 32⟩
/-- spec/13_timers.md, register TMR_TB_SET_HI. -/
def TMR_TB_SET_HI : Nat := 0x200d010c
def TMR_TB_SET_HI.VALUE : Fld := ⟨TMR_TB_SET_HI, 0, 32⟩
/-- spec/13_timers.md, register TMR_TB_CTL. -/
def TMR_TB_CTL : Nat := 0x200d0110
def TMR_TB_CTL.SET : Fld := ⟨TMR_TB_CTL, 0, 1⟩
/-- spec/13_timers.md, register TMR_TB_ADJ. -/
def TMR_TB_ADJ : Nat := 0x200d0114
def TMR_TB_ADJ.NS : Fld := ⟨TMR_TB_ADJ, 0, 32⟩
/-- spec/13_timers.md, register TMR_TB_ALM_LO. -/
def TMR_TB_ALM_LO : Nat := 0x200d0118
def TMR_TB_ALM_LO.TB : Fld := ⟨TMR_TB_ALM_LO, 0, 32⟩
/-- spec/13_timers.md, register TMR_TB_ALM_HI. -/
def TMR_TB_ALM_HI : Nat := 0x200d011c
def TMR_TB_ALM_HI.TB : Fld := ⟨TMR_TB_ALM_HI, 0, 32⟩
/-- spec/13_timers.md, register TMR_TB_ALM_CTL. -/
def TMR_TB_ALM_CTL : Nat := 0x200d0120
def TMR_TB_ALM_CTL.ARM : Fld := ⟨TMR_TB_ALM_CTL, 0, 1⟩
def TMR_TB_ALM_CTL.HIT : Fld := ⟨TMR_TB_ALM_CTL, 1, 1⟩
def TMR_TB_ALM_CTL.IE : Fld := ⟨TMR_TB_ALM_CTL, 2, 1⟩
/-- spec/13_timers.md, register TMR_GT_CFG. -/
def TMR_GT_CFG (n : Nat) : Nat := 0x200d0400 + n * 0x40
def TMR_GT_CFG_LIVE (n : Nat) : Nat := TMR_GT_CFG n + 0x38
def TMR_GT_CFG.MODE (n : Nat) : Fld := ⟨TMR_GT_CFG n, 0, 1⟩
def TMR_GT_CFG.MODE_L (n : Nat) : Fld := ⟨TMR_GT_CFG_LIVE n, 0, 1⟩
def TMR_GT_CFG.ONESHOT (n : Nat) : Fld := ⟨TMR_GT_CFG n, 1, 1⟩
def TMR_GT_CFG.ONESHOT_L (n : Nat) : Fld := ⟨TMR_GT_CFG_LIVE n, 1, 1⟩
def TMR_GT_CFG.PRE (n : Nat) : Fld := ⟨TMR_GT_CFG n, 2, 8⟩
def TMR_GT_CFG.PRE_L (n : Nat) : Fld := ⟨TMR_GT_CFG_LIVE n, 2, 8⟩
def TMR_GT_CFG.FREEZE (n : Nat) : Fld := ⟨TMR_GT_CFG n, 10, 2⟩
def TMR_GT_CFG.FREEZE_L (n : Nat) : Fld := ⟨TMR_GT_CFG_LIVE n, 10, 2⟩
def TMR_GT_CFG.CATCHUP (n : Nat) : Fld := ⟨TMR_GT_CFG n, 12, 1⟩
def TMR_GT_CFG.CATCHUP_L (n : Nat) : Fld := ⟨TMR_GT_CFG_LIVE n, 12, 1⟩
def TMR_GT_CFG.EVSEL (n : Nat) : Fld := ⟨TMR_GT_CFG n, 13, 2⟩
def TMR_GT_CFG.EVSEL_L (n : Nat) : Fld := ⟨TMR_GT_CFG_LIVE n, 13, 2⟩
def TMR_GT_CFG.CAPSEL (n : Nat) : Fld := ⟨TMR_GT_CFG n, 15, 4⟩
def TMR_GT_CFG.CAPSEL_L (n : Nat) : Fld := ⟨TMR_GT_CFG_LIVE n, 15, 4⟩
def TMR_GT_CFG.CAPEDGE (n : Nat) : Fld := ⟨TMR_GT_CFG n, 19, 2⟩
def TMR_GT_CFG.CAPEDGE_L (n : Nat) : Fld := ⟨TMR_GT_CFG_LIVE n, 19, 2⟩
def TMR_GT_CFG.FILT (n : Nat) : Fld := ⟨TMR_GT_CFG n, 21, 4⟩
def TMR_GT_CFG.FILT_L (n : Nat) : Fld := ⟨TMR_GT_CFG_LIVE n, 21, 4⟩
def TMR_GT_CFG.OUT0_ACT (n : Nat) : Fld := ⟨TMR_GT_CFG n, 25, 2⟩
def TMR_GT_CFG.OUT0_ACT_L (n : Nat) : Fld := ⟨TMR_GT_CFG_LIVE n, 25, 2⟩
def TMR_GT_CFG.OUT1_ACT (n : Nat) : Fld := ⟨TMR_GT_CFG n, 27, 2⟩
def TMR_GT_CFG.OUT1_ACT_L (n : Nat) : Fld := ⟨TMR_GT_CFG_LIVE n, 27, 2⟩
/-- spec/13_timers.md, register TMR_GT_OWNER. -/
def TMR_GT_OWNER (n : Nat) : Nat := 0x200d0404 + n * 0x40
def TMR_GT_OWNER_LIVE (n : Nat) : Nat := TMR_GT_OWNER n + 0x38
def TMR_GT_OWNER.TID (n : Nat) : Fld := ⟨TMR_GT_OWNER n, 0, 7⟩
def TMR_GT_OWNER.TID_L (n : Nat) : Fld := ⟨TMR_GT_OWNER_LIVE n, 0, 7⟩
/-- spec/13_timers.md, register TMR_GT_CTL. -/
def TMR_GT_CTL (n : Nat) : Nat := 0x200d0408 + n * 0x40
def TMR_GT_CTL.RUN (n : Nat) : Fld := ⟨TMR_GT_CTL n, 0, 1⟩
def TMR_GT_CTL.CAPEN (n : Nat) : Fld := ⟨TMR_GT_CTL n, 1, 1⟩
def TMR_GT_CTL.CMP0_EN (n : Nat) : Fld := ⟨TMR_GT_CTL n, 2, 1⟩
def TMR_GT_CTL.CMP1_EN (n : Nat) : Fld := ⟨TMR_GT_CTL n, 3, 1⟩
/-- spec/13_timers.md, register TMR_GT_COUNT. -/
def TMR_GT_COUNT (n : Nat) : Nat := 0x200d040c + n * 0x40
def TMR_GT_COUNT.COUNT (n : Nat) : Fld := ⟨TMR_GT_COUNT n, 0, 32⟩
/-- spec/13_timers.md, register TMR_GT_RELOAD. -/
def TMR_GT_RELOAD (n : Nat) : Nat := 0x200d0410 + n * 0x40
def TMR_GT_RELOAD.VALUE (n : Nat) : Fld := ⟨TMR_GT_RELOAD n, 0, 32⟩
/-- spec/13_timers.md, register TMR_GT_CMP0. -/
def TMR_GT_CMP0 (n : Nat) : Nat := 0x200d0414 + n * 0x40
def TMR_GT_CMP0.VALUE (n : Nat) : Fld := ⟨TMR_GT_CMP0 n, 0, 32⟩
/-- spec/13_timers.md, register TMR_GT_CMP1. -/
def TMR_GT_CMP1 (n : Nat) : Nat := 0x200d0418 + n * 0x40
def TMR_GT_CMP1.VALUE (n : Nat) : Fld := ⟨TMR_GT_CMP1 n, 0, 32⟩
/-- spec/13_timers.md, register TMR_GT_STAT. -/
def TMR_GT_STAT (n : Nat) : Nat := 0x200d041c + n * 0x40
def TMR_GT_STAT.CMP0 (n : Nat) : Fld := ⟨TMR_GT_STAT n, 0, 1⟩
def TMR_GT_STAT.CMP1 (n : Nat) : Fld := ⟨TMR_GT_STAT n, 1, 1⟩
def TMR_GT_STAT.WRAP (n : Nat) : Fld := ⟨TMR_GT_STAT n, 2, 1⟩
def TMR_GT_STAT.CAP (n : Nat) : Fld := ⟨TMR_GT_STAT n, 3, 1⟩
def TMR_GT_STAT.OVR (n : Nat) : Fld := ⟨TMR_GT_STAT n, 4, 1⟩
def TMR_GT_STAT.OUT (n : Nat) : Fld := ⟨TMR_GT_STAT n, 9, 1⟩
/-- spec/13_timers.md, register TMR_GT_IE. -/
def TMR_GT_IE (n : Nat) : Nat := 0x200d0420 + n * 0x40
def TMR_GT_IE.EN (n : Nat) : Fld := ⟨TMR_GT_IE n, 0, 5⟩
/-- spec/13_timers.md, register TMR_GT_CAP. -/
def TMR_GT_CAP (n : Nat) : Nat := 0x200d0424 + n * 0x40
def TMR_GT_CAP.COUNT (n : Nat) : Fld := ⟨TMR_GT_CAP n, 0, 32⟩
/-- spec/13_timers.md, register TMR_GT_CAP_TBL. -/
def TMR_GT_CAP_TBL (n : Nat) : Nat := 0x200d0428 + n * 0x40
def TMR_GT_CAP_TBL.TB (n : Nat) : Fld := ⟨TMR_GT_CAP_TBL n, 0, 32⟩
/-- spec/13_timers.md, register TMR_GT_CAP_TBH. -/
def TMR_GT_CAP_TBH (n : Nat) : Nat := 0x200d042c + n * 0x40
def TMR_GT_CAP_TBH.TB (n : Nat) : Fld := ⟨TMR_GT_CAP_TBH n, 0, 32⟩
/-- spec/13_timers.md, register TMR_GT_SLEEP. -/
def TMR_GT_SLEEP (n : Nat) : Nat := 0x200d0430 + n * 0x40
def TMR_GT_SLEEP.WRAPS (n : Nat) : Fld := ⟨TMR_GT_SLEEP n, 0, 8⟩
/-- spec/13_timers.md, register TMR_GT_RLD_ACT. -/
def TMR_GT_RLD_ACT (n : Nat) : Nat := 0x200d0434 + n * 0x40
def TMR_GT_RLD_ACT.VALUE (n : Nat) : Fld := ⟨TMR_GT_RLD_ACT n, 0, 32⟩
/-- spec/13_timers.md, register TMR_PT_CFG. -/
def TMR_PT_CFG (n : Nat) : Nat := 0x200d0800 + n * 0x80
def TMR_PT_CFG_LIVE (n : Nat) : Nat := TMR_PT_CFG n + 0x34
def TMR_PT_CFG.MODE (n : Nat) : Fld := ⟨TMR_PT_CFG n, 0, 1⟩
def TMR_PT_CFG.MODE_L (n : Nat) : Fld := ⟨TMR_PT_CFG_LIVE n, 0, 1⟩
def TMR_PT_CFG.PRE (n : Nat) : Fld := ⟨TMR_PT_CFG n, 1, 8⟩
def TMR_PT_CFG.PRE_L (n : Nat) : Fld := ⟨TMR_PT_CFG_LIVE n, 1, 8⟩
def TMR_PT_CFG.FREEZE (n : Nat) : Fld := ⟨TMR_PT_CFG n, 9, 2⟩
def TMR_PT_CFG.FREEZE_L (n : Nat) : Fld := ⟨TMR_PT_CFG_LIVE n, 9, 2⟩
def TMR_PT_CFG.CATCHUP (n : Nat) : Fld := ⟨TMR_PT_CFG n, 11, 1⟩
def TMR_PT_CFG.CATCHUP_L (n : Nat) : Fld := ⟨TMR_PT_CFG_LIVE n, 11, 1⟩
def TMR_PT_CFG.COMP01 (n : Nat) : Fld := ⟨TMR_PT_CFG n, 12, 1⟩
def TMR_PT_CFG.COMP01_L (n : Nat) : Fld := ⟨TMR_PT_CFG_LIVE n, 12, 1⟩
def TMR_PT_CFG.COMP23 (n : Nat) : Fld := ⟨TMR_PT_CFG n, 13, 1⟩
def TMR_PT_CFG.COMP23_L (n : Nat) : Fld := ⟨TMR_PT_CFG_LIVE n, 13, 1⟩
def TMR_PT_CFG.HALT_IDLE (n : Nat) : Fld := ⟨TMR_PT_CFG n, 14, 1⟩
def TMR_PT_CFG.HALT_IDLE_L (n : Nat) : Fld := ⟨TMR_PT_CFG_LIVE n, 14, 1⟩
def TMR_PT_CFG.POL (n : Nat) : Fld := ⟨TMR_PT_CFG n, 16, 4⟩
def TMR_PT_CFG.POL_L (n : Nat) : Fld := ⟨TMR_PT_CFG_LIVE n, 16, 4⟩
def TMR_PT_CFG.IDLE (n : Nat) : Fld := ⟨TMR_PT_CFG n, 20, 4⟩
def TMR_PT_CFG.IDLE_L (n : Nat) : Fld := ⟨TMR_PT_CFG_LIVE n, 20, 4⟩
def TMR_PT_CFG.EVSEL (n : Nat) : Fld := ⟨TMR_PT_CFG n, 24, 2⟩
def TMR_PT_CFG.EVSEL_L (n : Nat) : Fld := ⟨TMR_PT_CFG_LIVE n, 24, 2⟩
/-- spec/13_timers.md, register TMR_PT_OWNER. -/
def TMR_PT_OWNER (n : Nat) : Nat := 0x200d0804 + n * 0x80
def TMR_PT_OWNER_LIVE (n : Nat) : Nat := TMR_PT_OWNER n + 0x34
def TMR_PT_OWNER.TID (n : Nat) : Fld := ⟨TMR_PT_OWNER n, 0, 7⟩
def TMR_PT_OWNER.TID_L (n : Nat) : Fld := ⟨TMR_PT_OWNER_LIVE n, 0, 7⟩
/-- spec/13_timers.md, register TMR_PT_CTL. -/
def TMR_PT_CTL (n : Nat) : Nat := 0x200d0808 + n * 0x80
def TMR_PT_CTL.RUN (n : Nat) : Fld := ⟨TMR_PT_CTL n, 0, 1⟩
def TMR_PT_CTL.HOLD (n : Nat) : Fld := ⟨TMR_PT_CTL n, 1, 1⟩
/-- spec/13_timers.md, register TMR_PT_COUNT. -/
def TMR_PT_COUNT (n : Nat) : Nat := 0x200d080c + n * 0x80
def TMR_PT_COUNT.COUNT (n : Nat) : Fld := ⟨TMR_PT_COUNT n, 0, 32⟩
/-- spec/13_timers.md, register TMR_PT_PERIOD. -/
def TMR_PT_PERIOD (n : Nat) : Nat := 0x200d0810 + n * 0x80
def TMR_PT_PERIOD.VALUE (n : Nat) : Fld := ⟨TMR_PT_PERIOD n, 0, 32⟩
/-- spec/13_timers.md, register TMR_PT_DUTY. -/
def TMR_PT_DUTY (n k : Nat) : Nat := 0x200d0814 + n * 0x80 + k * 0x4
def TMR_PT_DUTY.VALUE (n k : Nat) : Fld := ⟨TMR_PT_DUTY n k, 0, 32⟩
/-- spec/13_timers.md, register TMR_PT_DT. -/
def TMR_PT_DT (n : Nat) : Nat := 0x200d0824 + n * 0x80
def TMR_PT_DT.DT01 (n : Nat) : Fld := ⟨TMR_PT_DT n, 0, 10⟩
def TMR_PT_DT.DT23 (n : Nat) : Fld := ⟨TMR_PT_DT n, 16, 10⟩
/-- spec/13_timers.md, register TMR_PT_EVCMP. -/
def TMR_PT_EVCMP (n : Nat) : Nat := 0x200d0828 + n * 0x80
def TMR_PT_EVCMP.VALUE (n : Nat) : Fld := ⟨TMR_PT_EVCMP n, 0, 32⟩
/-- spec/13_timers.md, register TMR_PT_STAT. -/
def TMR_PT_STAT (n : Nat) : Nat := 0x200d082c + n * 0x80
def TMR_PT_STAT.PSTART (n : Nat) : Fld := ⟨TMR_PT_STAT n, 0, 1⟩
def TMR_PT_STAT.EVT (n : Nat) : Fld := ⟨TMR_PT_STAT n, 1, 1⟩
def TMR_PT_STAT.LOADED (n : Nat) : Fld := ⟨TMR_PT_STAT n, 2, 1⟩
def TMR_PT_STAT.DIR (n : Nat) : Fld := ⟨TMR_PT_STAT n, 8, 1⟩
def TMR_PT_STAT.OUT (n : Nat) : Fld := ⟨TMR_PT_STAT n, 12, 4⟩
def TMR_PT_STAT.WRAPS (n : Nat) : Fld := ⟨TMR_PT_STAT n, 16, 8⟩
/-- spec/13_timers.md, register TMR_PT_IE. -/
def TMR_PT_IE (n : Nat) : Nat := 0x200d0830 + n * 0x80
def TMR_PT_IE.EN (n : Nat) : Fld := ⟨TMR_PT_IE n, 0, 3⟩
/-- spec/13_timers.md, register TMR_PT_PERIOD_ACT. -/
def TMR_PT_PERIOD_ACT (n : Nat) : Nat := 0x200d0840 + n * 0x80
def TMR_PT_PERIOD_ACT.VALUE (n : Nat) : Fld := ⟨TMR_PT_PERIOD_ACT n, 0, 32⟩
/-- spec/13_timers.md, register TMR_PT_DUTY_ACT. -/
def TMR_PT_DUTY_ACT (n k : Nat) : Nat := 0x200d0844 + n * 0x80 + k * 0x4
def TMR_PT_DUTY_ACT.VALUE (n k : Nat) : Fld := ⟨TMR_PT_DUTY_ACT n k, 0, 32⟩
/-- spec/13_timers.md, register TMR_PT_DT_ACT. -/
def TMR_PT_DT_ACT (n : Nat) : Nat := 0x200d0854 + n * 0x80
def TMR_PT_DT_ACT.DT01 (n : Nat) : Fld := ⟨TMR_PT_DT_ACT n, 0, 10⟩
def TMR_PT_DT_ACT.DT23 (n : Nat) : Fld := ⟨TMR_PT_DT_ACT n, 16, 10⟩
/-- spec/13_timers.md, register TMR_PT_EVCMP_ACT. -/
def TMR_PT_EVCMP_ACT (n : Nat) : Nat := 0x200d0858 + n * 0x80
def TMR_PT_EVCMP_ACT.VALUE (n : Nat) : Fld := ⟨TMR_PT_EVCMP_ACT n, 0, 32⟩
/-- spec/13_timers.md, register TMR_WD_CTL. -/
def TMR_WD_CTL (c : Nat) : Nat := 0x200d0e00 + c * 0x20
def TMR_WD_CTL.EN (c : Nat) : Fld := ⟨TMR_WD_CTL c, 0, 1⟩
def TMR_WD_CTL.PAUSE_DOZE (c : Nat) : Fld := ⟨TMR_WD_CTL c, 1, 1⟩
def TMR_WD_CTL.FREEZE (c : Nat) : Fld := ⟨TMR_WD_CTL c, 2, 1⟩
/-- spec/13_timers.md, register TMR_WD_LOAD. -/
def TMR_WD_LOAD (c : Nat) : Nat := 0x200d0e04 + c * 0x20
def TMR_WD_LOAD.VALUE (c : Nat) : Fld := ⟨TMR_WD_LOAD c, 0, 24⟩
/-- spec/13_timers.md, register TMR_WD_WARN. -/
def TMR_WD_WARN (c : Nat) : Nat := 0x200d0e08 + c * 0x20
def TMR_WD_WARN.VALUE (c : Nat) : Fld := ⟨TMR_WD_WARN c, 0, 24⟩
/-- spec/13_timers.md, register TMR_WD_WIN. -/
def TMR_WD_WIN (c : Nat) : Nat := 0x200d0e0c + c * 0x20
def TMR_WD_WIN.VALUE (c : Nat) : Fld := ⟨TMR_WD_WIN c, 0, 24⟩
/-- spec/13_timers.md, register TMR_WD_KICK. -/
def TMR_WD_KICK (c : Nat) : Nat := 0x200d0e10 + c * 0x20
def TMR_WD_KICK.KEY (c : Nat) : Fld := ⟨TMR_WD_KICK c, 0, 16⟩
/-- spec/13_timers.md, register TMR_WD_COUNT. -/
def TMR_WD_COUNT (c : Nat) : Nat := 0x200d0e14 + c * 0x20
def TMR_WD_COUNT.VALUE (c : Nat) : Fld := ⟨TMR_WD_COUNT c, 0, 24⟩
/-- spec/13_timers.md, register TMR_WD_STAT. -/
def TMR_WD_STAT (c : Nat) : Nat := 0x200d0e18 + c * 0x20
def TMR_WD_STAT.WARNED (c : Nat) : Fld := ⟨TMR_WD_STAT c, 0, 1⟩
def TMR_WD_STAT.WRONG_CORE (c : Nat) : Fld := ⟨TMR_WD_STAT c, 1, 1⟩

/-- Register rows of TMR, part 0. -/
def rowsTMR0 : List RegRow := [
  ⟨0x0, 1, 0x4, 1, 0x4, 0, 0, 0, 0, 0, 0, 0, 0, 0, 0xfffff, 0, 0⟩,
  ⟨0x4, 1, 0x4, 1, 0x4, 0, 0, 0, 0, 0, 0, 0, 0, 0, 0xfffff, 0, 0⟩,
  ⟨0x8, 1, 0x4, 1, 0x4, 0, 0, 0, 0, 0xfffff, 0, 0, 0, 0, 0, 0, 0⟩,
  ⟨0xc, 1, 0x4, 1, 0x4, 0, 0, 0, 0x1, 0, 0, 0, 0, 0, 0, 0, 0⟩,
  ⟨0x10, 1, 0x4, 1, 0x4, 0, 0, 0, 0, 0, 0, 0, 0, 0, 0, 0x1ff, 0⟩,
  ⟨0x20, 1, 0x4, 1, 0x4, 0, 0, 0, 0xffffffff, 0, 0, 0, 0, 0, 0, 0, 0⟩,
  ⟨0x24, 1, 0x4, 1, 0x4, 0, 0, 0, 0xffffffff, 0, 0, 0, 0, 0, 0, 0, 0⟩,
  ⟨0x28, 1, 0x4, 1, 0x4, 0, 0, 0, 0xfffff, 0, 0, 0, 0, 0, 0, 0, 0⟩,
  ⟨0x2c, 1, 0x4, 1, 0x4, 0, 0, 0, 0x1, 0x2, 0, 0, 0, 0, 0, 0, 0⟩,
  ⟨0x100, 1, 0x4, 1, 0x4, 0, 0, 0, 0, 0, 0, 0, 0, 0, 0, 0xffffffff, 0⟩,
  ⟨0x104, 1, 0x4, 1, 0x4, 0, 0, 0, 0, 0, 0, 0, 0, 0, 0, 0xffffffff, 0⟩,
  ⟨0x108, 1, 0x4, 1, 0x4, 0, 0, 0, 0xffffffff, 0, 0, 0, 0, 0, 0, 0, 0⟩,
  ⟨0x10c, 1, 0x4, 1, 0x4, 0, 0, 0, 0xffffffff, 0, 0, 0, 0, 0, 0, 0, 0⟩,
  ⟨0x110, 1, 0x4, 1, 0x4, 0, 0, 0, 0, 0, 0, 0, 0, 0, 0x1, 0, 0⟩,
  ⟨0x114, 1, 0x4, 1, 0x4, 0, 0, 0, 0, 0, 0, 0, 0, 0, 0xffffffff, 0, 0⟩,
  ⟨0x118, 1, 0x4, 1, 0x4, 0, 0, 0, 0xffffffff, 0, 0, 0, 0, 0, 0, 0, 0⟩]

/-- Register rows of TMR, part 1. -/
def rowsTMR1 : List RegRow := [
  ⟨0x11c, 1, 0x4, 1, 0x4, 0, 0, 0, 0xffffffff, 0, 0, 0, 0, 0, 0, 0, 0⟩,
  ⟨0x120, 1, 0x4, 1, 0x4, 0, 0, 0, 0x5, 0x2, 0, 0, 0, 0, 0, 0, 0⟩,
  ⟨0x400, 16, 0x40, 1, 0x40, 0x38, 5, 0x7c00, 0, 0, 0, 0, 0x1fffffff, 0, 0, 0, 0⟩,
  ⟨0x404, 16, 0x40, 1, 0x40, 0x38, 1, 0, 0, 0, 0, 0, 0x7f, 0, 0, 0, 0⟩,
  ⟨0x408, 16, 0x40, 1, 0x40, 0, 0, 0xc, 0xf, 0, 0, 0, 0, 0, 0, 0, 0⟩,
  ⟨0x40c, 16, 0x40, 1, 0x40, 0, 0, 0, 0xffffffff, 0, 0, 0, 0, 0, 0, 0, 0⟩,
  ⟨0x410, 16, 0x40, 1, 0x40, 0, 0, 0xffffffff, 0xffffffff, 0, 0, 0, 0, 0, 0, 0, 0⟩,
  ⟨0x414, 16, 0x40, 1, 0x40, 0, 0, 0, 0xffffffff, 0, 0, 0, 0, 0, 0, 0, 0⟩,
  ⟨0x418, 16, 0x40, 1, 0x40, 0, 0, 0, 0xffffffff, 0, 0, 0, 0, 0, 0, 0, 0⟩,
  ⟨0x41c, 16, 0x40, 1, 0x40, 0, 0, 0, 0, 0x1f, 0, 0, 0, 0, 0, 0x200, 0⟩,
  ⟨0x420, 16, 0x40, 1, 0x40, 0, 0, 0, 0x1f, 0, 0, 0, 0, 0, 0, 0, 0⟩,
  ⟨0x424, 16, 0x40, 1, 0x40, 0, 0, 0, 0, 0, 0, 0, 0, 0, 0, 0xffffffff, 0⟩,
  ⟨0x428, 16, 0x40, 1, 0x40, 0, 0, 0, 0, 0, 0, 0, 0, 0, 0, 0xffffffff, 0⟩,
  ⟨0x42c, 16, 0x40, 1, 0x40, 0, 0, 0, 0, 0, 0, 0, 0, 0, 0, 0xffffffff, 0⟩,
  ⟨0x430, 16, 0x40, 1, 0x40, 0, 0, 0, 0, 0, 0, 0, 0, 0, 0, 0xff, 0⟩,
  ⟨0x434, 16, 0x40, 1, 0x40, 0, 0, 0xffffffff, 0, 0, 0, 0, 0, 0, 0, 0xffffffff, 0⟩]

/-- Register rows of TMR, part 2. -/
def rowsTMR2 : List RegRow := [
  ⟨0x800, 4, 0x80, 1, 0x80, 0x34, 5, 0x2004e00, 0, 0, 0, 0, 0x3ff7fff, 0, 0, 0, 0⟩,
  ⟨0x804, 4, 0x80, 1, 0x80, 0x34, 1, 0, 0, 0, 0, 0, 0x7f, 0, 0, 0, 0⟩,
  ⟨0x808, 4, 0x80, 1, 0x80, 0, 0, 0, 0x3, 0, 0, 0, 0, 0, 0, 0, 0⟩,
  ⟨0x80c, 4, 0x80, 1, 0x80, 0, 0, 0, 0xffffffff, 0, 0, 0, 0, 0, 0, 0, 0⟩,
  ⟨0x810, 4, 0x80, 1, 0x80, 0, 0, 0x2, 0xffffffff, 0, 0, 0, 0, 0, 0, 0, 0⟩,
  ⟨0x814, 4, 0x80, 4, 0x4, 0, 0, 0, 0xffffffff, 0, 0, 0, 0, 0, 0, 0, 0⟩,
  ⟨0x824, 4, 0x80, 1, 0x80, 0, 0, 0, 0x3ff03ff, 0, 0, 0, 0, 0, 0, 0, 0⟩,
  ⟨0x828, 4, 0x80, 1, 0x80, 0, 0, 0, 0xffffffff, 0, 0, 0, 0, 0, 0, 0, 0⟩,
  ⟨0x82c, 4, 0x80, 1, 0x80, 0, 0, 0, 0, 0x7, 0, 0, 0, 0, 0, 0xfff100, 0⟩,
  ⟨0x830, 4, 0x80, 1, 0x80, 0, 0, 0, 0x7, 0, 0, 0, 0, 0, 0, 0, 0⟩,
  ⟨0x840, 4, 0x80, 1, 0x80, 0, 0, 0x2, 0, 0, 0, 0, 0, 0, 0, 0xffffffff, 0⟩,
  ⟨0x844, 4, 0x80, 4, 0x4, 0, 0, 0, 0, 0, 0, 0, 0, 0, 0, 0xffffffff, 0⟩,
  ⟨0x854, 4, 0x80, 1, 0x80, 0, 0, 0, 0, 0, 0, 0, 0, 0, 0, 0x3ff03ff, 0⟩,
  ⟨0x858, 4, 0x80, 1, 0x80, 0, 0, 0, 0, 0, 0, 0, 0, 0, 0, 0xffffffff, 0⟩,
  ⟨0xe00, 2, 0x20, 1, 0x20, 0, 0, 0x4, 0x7, 0, 0, 0, 0, 0, 0, 0, 0⟩,
  ⟨0xe04, 2, 0x20, 1, 0x20, 0, 0, 0xffffff, 0xffffff, 0, 0, 0, 0, 0, 0, 0, 0⟩]

/-- Register rows of TMR, part 3. -/
def rowsTMR3 : List RegRow := [
  ⟨0xe08, 2, 0x20, 1, 0x20, 0, 0, 0, 0xffffff, 0, 0, 0, 0, 0, 0, 0, 0⟩,
  ⟨0xe0c, 2, 0x20, 1, 0x20, 0, 0, 0xffffff, 0xffffff, 0, 0, 0, 0, 0, 0, 0, 0⟩,
  ⟨0xe10, 2, 0x20, 1, 0x20, 0, 0, 0, 0, 0, 0, 0, 0, 0, 0xffff, 0, 0⟩,
  ⟨0xe14, 2, 0x20, 1, 0x20, 0, 0, 0xffffff, 0, 0, 0, 0, 0, 0, 0, 0xffffff, 0⟩,
  ⟨0xe18, 2, 0x20, 1, 0x20, 0, 0, 0, 0, 0x3, 0, 0, 0, 0, 0, 0, 0⟩]

/-! ### UART: window base 0x200E0000 (spec/14_serial.md) -/

/-- spec/14_serial.md, register UART_CFG. -/
def UART_CFG (n : Nat) : Nat := 0x200e0000 + n * 0x100
def UART_CFG.EN (n : Nat) : Fld := ⟨UART_CFG n, 0, 1⟩
def UART_CFG.CLKSRC (n : Nat) : Fld := ⟨UART_CFG n, 1, 2⟩
def UART_CFG.OS (n : Nat) : Fld := ⟨UART_CFG n, 3, 1⟩
def UART_CFG.DATA (n : Nat) : Fld := ⟨UART_CFG n, 4, 4⟩
def UART_CFG.PARITY (n : Nat) : Fld := ⟨UART_CFG n, 8, 3⟩
def UART_CFG.STOP2 (n : Nat) : Fld := ⟨UART_CFG n, 11, 1⟩
def UART_CFG.FLOW (n : Nat) : Fld := ⟨UART_CFG n, 12, 1⟩
/-- spec/14_serial.md, register UART_BAUD. -/
def UART_BAUD (n : Nat) : Nat := 0x200e0004 + n * 0x100
def UART_BAUD.DIV (n : Nat) : Fld := ⟨UART_BAUD n, 0, 16⟩
def UART_BAUD.FRAC (n : Nat) : Fld := ⟨UART_BAUD n, 16, 6⟩
/-- spec/14_serial.md, register UART_DATA. -/
def UART_DATA (n : Nat) : Nat := 0x200e0008 + n * 0x100
def UART_DATA.DATA (n : Nat) : Fld := ⟨UART_DATA n, 0, 9⟩
def UART_DATA.PE (n : Nat) : Fld := ⟨UART_DATA n, 9, 1⟩
def UART_DATA.FE (n : Nat) : Fld := ⟨UART_DATA n, 10, 1⟩
def UART_DATA.BRK (n : Nat) : Fld := ⟨UART_DATA n, 11, 1⟩
def UART_DATA.EMPTY (n : Nat) : Fld := ⟨UART_DATA n, 31, 1⟩
/-- spec/14_serial.md, register UART_FIFO. -/
def UART_FIFO (n : Nat) : Nat := 0x200e000c + n * 0x100
def UART_FIFO.RXLVL (n : Nat) : Fld := ⟨UART_FIFO n, 0, 6⟩
def UART_FIFO.TXLVL (n : Nat) : Fld := ⟨UART_FIFO n, 8, 6⟩
def UART_FIFO.RXTHR (n : Nat) : Fld := ⟨UART_FIFO n, 16, 5⟩
def UART_FIFO.TXTHR (n : Nat) : Fld := ⟨UART_FIFO n, 24, 5⟩
/-- spec/14_serial.md, register UART_STAT. -/
def UART_STAT (n : Nat) : Nat := 0x200e0010 + n * 0x100
def UART_STAT.TXIDLE (n : Nat) : Fld := ⟨UART_STAT n, 0, 1⟩
def UART_STAT.RXIDLE (n : Nat) : Fld := ⟨UART_STAT n, 1, 1⟩
def UART_STAT.OVR (n : Nat) : Fld := ⟨UART_STAT n, 2, 1⟩
def UART_STAT.TXOVR (n : Nat) : Fld := ⟨UART_STAT n, 3, 1⟩
def UART_STAT.PE_SEEN (n : Nat) : Fld := ⟨UART_STAT n, 4, 1⟩
def UART_STAT.FE_SEEN (n : Nat) : Fld := ⟨UART_STAT n, 5, 1⟩
def UART_STAT.BRK_SEEN (n : Nat) : Fld := ⟨UART_STAT n, 6, 1⟩
def UART_STAT.RXTO (n : Nat) : Fld := ⟨UART_STAT n, 7, 1⟩
def UART_STAT.GLITCH (n : Nat) : Fld := ⟨UART_STAT n, 8, 1⟩
def UART_STAT.CFG_REJ (n : Nat) : Fld := ⟨UART_STAT n, 9, 1⟩
/-- spec/14_serial.md, register UART_IE. -/
def UART_IE (n : Nat) : Nat := 0x200e0014 + n * 0x100
def UART_IE.STAT (n : Nat) : Fld := ⟨UART_IE n, 0, 10⟩
def UART_IE.RXLVL (n : Nat) : Fld := ⟨UART_IE n, 16, 1⟩
def UART_IE.TXLVL (n : Nat) : Fld := ⟨UART_IE n, 17, 1⟩
/-- spec/14_serial.md, register UART_CTL. -/
def UART_CTL (n : Nat) : Nat := 0x200e0018 + n * 0x100
def UART_CTL.BREAK (n : Nat) : Fld := ⟨UART_CTL n, 0, 1⟩
def UART_CTL.RXFLUSH (n : Nat) : Fld := ⟨UART_CTL n, 1, 1⟩
def UART_CTL.TXFLUSH (n : Nat) : Fld := ⟨UART_CTL n, 2, 1⟩
/-- spec/14_serial.md, register UART_TOUT. -/
def UART_TOUT (n : Nat) : Nat := 0x200e001c + n * 0x100
def UART_TOUT.BITS (n : Nat) : Fld := ⟨UART_TOUT n, 0, 8⟩
/-- spec/14_serial.md, register UART_OWNER. -/
def UART_OWNER (n : Nat) : Nat := 0x200e0020 + n * 0x100
def UART_OWNER_LIVE (n : Nat) : Nat := UART_OWNER n + 0x4
def UART_OWNER.TID (n : Nat) : Fld := ⟨UART_OWNER n, 0, 7⟩
def UART_OWNER.TID_L (n : Nat) : Fld := ⟨UART_OWNER_LIVE n, 0, 7⟩

/-- Register rows of UART, part 0. -/
def rowsUART0 : List RegRow := [
  ⟨0x0, 6, 0x100, 1, 0x100, 0, 0, 0x80, 0x1fff, 0, 0, 0, 0, 0, 0, 0, 0⟩,
  ⟨0x4, 6, 0x100, 1, 0x100, 0, 0, 0x1, 0x3fffff, 0, 0, 0, 0, 0, 0, 0, 0⟩,
  ⟨0x8, 6, 0x100, 1, 0x100, 0, 0, 0, 0x1ff, 0, 0, 0, 0, 0, 0, 0x80000e00, 0⟩,
  ⟨0xc, 6, 0x100, 1, 0x100, 0, 0, 0x10100000, 0x1f1f0000, 0, 0, 0, 0, 0, 0, 0x3f3f, 0⟩,
  ⟨0x10, 6, 0x100, 1, 0x100, 0, 0, 0x3, 0, 0x3fc, 0, 0, 0, 0, 0, 0x3, 0⟩,
  ⟨0x14, 6, 0x100, 1, 0x100, 0, 0, 0, 0x303ff, 0, 0, 0, 0, 0, 0, 0, 0⟩,
  ⟨0x18, 6, 0x100, 1, 0x100, 0, 0, 0, 0x1, 0, 0, 0, 0, 0, 0x6, 0, 0⟩,
  ⟨0x1c, 6, 0x100, 1, 0x100, 0, 0, 0, 0xff, 0, 0, 0, 0, 0, 0, 0, 0⟩,
  ⟨0x20, 6, 0x100, 1, 0x100, 0x4, 1, 0, 0, 0, 0, 0, 0x7f, 0, 0, 0, 0⟩]

/-! ### CAN: window base 0x200F0000 (spec/14_serial.md) -/

/-- spec/14_serial.md, register CAN_CTL. -/
def CAN_CTL (n : Nat) : Nat := 0x200f0000 + n * 0x4000
def CAN_CTL.EN (n : Nat) : Fld := ⟨CAN_CTL n, 0, 1⟩
def CAN_CTL.MODE (n : Nat) : Fld := ⟨CAN_CTL n, 1, 2⟩
def CAN_CTL.FDOE (n : Nat) : Fld := ⟨CAN_CTL n, 3, 1⟩
def CAN_CTL.BRSE (n : Nat) : Fld := ⟨CAN_CTL n, 4, 1⟩
def CAN_CTL.AUTO_REC (n : Nat) : Fld := ⟨CAN_CTL n, 5, 1⟩
def CAN_CTL.NOMATCH (n : Nat) : Fld := ⟨CAN_CTL n, 6, 1⟩
def CAN_CTL.RECOVER (n : Nat) : Fld := ⟨CAN_CTL n, 8, 1⟩
/-- spec/14_serial.md, register CAN_NBT. -/
def CAN_NBT (n : Nat) : Nat := 0x200f0004 + n * 0x4000
def CAN_NBT.NBRP (n : Nat) : Fld := ⟨CAN_NBT n, 0, 8⟩
def CAN_NBT.NSEG1 (n : Nat) : Fld := ⟨CAN_NBT n, 8, 8⟩
def CAN_NBT.NSEG2 (n : Nat) : Fld := ⟨CAN_NBT n, 16, 7⟩
def CAN_NBT.NSJW (n : Nat) : Fld := ⟨CAN_NBT n, 23, 7⟩
/-- spec/14_serial.md, register CAN_DBT. -/
def CAN_DBT (n : Nat) : Nat := 0x200f0008 + n * 0x4000
def CAN_DBT.DBRP (n : Nat) : Fld := ⟨CAN_DBT n, 0, 5⟩
def CAN_DBT.DSEG1 (n : Nat) : Fld := ⟨CAN_DBT n, 5, 5⟩
def CAN_DBT.DSEG2 (n : Nat) : Fld := ⟨CAN_DBT n, 10, 4⟩
def CAN_DBT.DSJW (n : Nat) : Fld := ⟨CAN_DBT n, 14, 4⟩
def CAN_DBT.TDC_EN (n : Nat) : Fld := ⟨CAN_DBT n, 18, 1⟩
/-- spec/14_serial.md, register CAN_TDC. -/
def CAN_TDC (n : Nat) : Nat := 0x200f000c + n * 0x4000
def CAN_TDC.TDCO (n : Nat) : Fld := ⟨CAN_TDC n, 0, 7⟩
/-- spec/14_serial.md, register CAN_ECR. -/
def CAN_ECR (n : Nat) : Nat := 0x200f0010 + n * 0x4000
def CAN_ECR.TEC (n : Nat) : Fld := ⟨CAN_ECR n, 0, 8⟩
def CAN_ECR.REC (n : Nat) : Fld := ⟨CAN_ECR n, 8, 8⟩
def CAN_ECR.STATE (n : Nat) : Fld := ⟨CAN_ECR n, 16, 2⟩
/-- spec/14_serial.md, register CAN_STAT. -/
def CAN_STAT (n : Nat) : Nat := 0x200f0014 + n * 0x4000
def CAN_STAT.RXNE (n : Nat) : Fld := ⟨CAN_STAT n, 0, 1⟩
def CAN_STAT.TXDONE (n : Nat) : Fld := ⟨CAN_STAT n, 1, 1⟩
def CAN_STAT.RXOVR (n : Nat) : Fld := ⟨CAN_STAT n, 2, 1⟩
def CAN_STAT.STATE_CHG (n : Nat) : Fld := ⟨CAN_STAT n, 3, 1⟩
def CAN_STAT.PROT_ERR (n : Nat) : Fld := ⟨CAN_STAT n, 4, 1⟩
def CAN_STAT.CFG_REJ (n : Nat) : Fld := ⟨CAN_STAT n, 5, 1⟩
def CAN_STAT.ONESHOT_FAIL (n : Nat) : Fld := ⟨CAN_STAT n, 6, 1⟩
/-- spec/14_serial.md, register CAN_IE. -/
def CAN_IE (n : Nat) : Nat := 0x200f0018 + n * 0x4000
def CAN_IE.EN (n : Nat) : Fld := ⟨CAN_IE n, 0, 7⟩
/-- spec/14_serial.md, register CAN_TXREQ. -/
def CAN_TXREQ (n : Nat) : Nat := 0x200f001c + n * 0x4000
def CAN_TXREQ.BUF (n : Nat) : Fld := ⟨CAN_TXREQ n, 0, 16⟩
/-- spec/14_serial.md, register CAN_TXCANCEL. -/
def CAN_TXCANCEL (n : Nat) : Nat := 0x200f0020 + n * 0x4000
def CAN_TXCANCEL.BUF (n : Nat) : Fld := ⟨CAN_TXCANCEL n, 0, 16⟩
/-- spec/14_serial.md, register CAN_RXF. -/
def CAN_RXF (n : Nat) : Nat := 0x200f0024 + n * 0x4000
def CAN_RXF.LEVEL (n : Nat) : Fld := ⟨CAN_RXF n, 0, 7⟩
def CAN_RXF.POP (n : Nat) : Fld := ⟨CAN_RXF n, 8, 1⟩
/-- spec/14_serial.md, register CAN_FILT. -/
def CAN_FILT (n f : Nat) : Nat := 0x200f0100 + n * 0x4000 + f * 0x8
def CAN_FILT.ID (n f : Nat) : Fld := ⟨CAN_FILT n f, 0, 29⟩
def CAN_FILT.XTD (n f : Nat) : Fld := ⟨CAN_FILT n f, 29, 1⟩
def CAN_FILT.REJECT (n f : Nat) : Fld := ⟨CAN_FILT n f, 30, 1⟩
def CAN_FILT.EN (n f : Nat) : Fld := ⟨CAN_FILT n f, 31, 1⟩
/-- spec/14_serial.md, register CAN_FILTMASK. -/
def CAN_FILTMASK (n f : Nat) : Nat := 0x200f0104 + n * 0x4000 + f * 0x8
def CAN_FILTMASK.MASK (n f : Nat) : Fld := ⟨CAN_FILTMASK n f, 0, 29⟩
/-- spec/14_serial.md, register CAN_TXBUF. -/
def CAN_TXBUF (n k : Nat) : Nat := 0x200f1000 + n * 0x4000 + k * 0x4
def CAN_TXBUF.WORD (n k : Nat) : Fld := ⟨CAN_TXBUF n k, 0, 32⟩
/-- spec/14_serial.md, register CAN_RXHEAD. -/
def CAN_RXHEAD (n k : Nat) : Nat := 0x200f2000 + n * 0x4000 + k * 0x4
def CAN_RXHEAD.WORD (n k : Nat) : Fld := ⟨CAN_RXHEAD n k, 0, 32⟩
/-- spec/14_serial.md, register CAN_OWNER. -/
def CAN_OWNER (n : Nat) : Nat := 0x200f3000 + n * 0x4000
def CAN_OWNER_LIVE (n : Nat) : Nat := CAN_OWNER n + 0x4
def CAN_OWNER.TID (n : Nat) : Fld := ⟨CAN_OWNER n, 0, 7⟩
def CAN_OWNER.TID_L (n : Nat) : Fld := ⟨CAN_OWNER_LIVE n, 0, 7⟩

/-- Register rows of CAN, part 0. -/
def rowsCAN0 : List RegRow := [
  ⟨0x0, 2, 0x4000, 1, 0x4000, 0, 0, 0, 0x7f, 0, 0, 0, 0, 0, 0x100, 0, 0⟩,
  ⟨0x4, 2, 0x4000, 1, 0x4000, 0, 0, 0, 0x3fffffff, 0, 0, 0, 0, 0, 0, 0, 0⟩,
  ⟨0x8, 2, 0x4000, 1, 0x4000, 0, 0, 0, 0x7ffff, 0, 0, 0, 0, 0, 0, 0, 0⟩,
  ⟨0xc, 2, 0x4000, 1, 0x4000, 0, 0, 0, 0x7f, 0, 0, 0, 0, 0, 0, 0, 0⟩,
  ⟨0x10, 2, 0x4000, 1, 0x4000, 0, 0, 0, 0, 0, 0, 0, 0, 0, 0, 0x3ffff, 0⟩,
  ⟨0x14, 2, 0x4000, 1, 0x4000, 0, 0, 0, 0, 0x7e, 0, 0, 0, 0, 0, 0x1, 0⟩,
  ⟨0x18, 2, 0x4000, 1, 0x4000, 0, 0, 0, 0x7f, 0, 0, 0, 0, 0, 0, 0, 0⟩,
  ⟨0x1c, 2, 0x4000, 1, 0x4000, 0, 0, 0, 0, 0, 0xffff, 0, 0, 0, 0, 0, 0⟩,
  ⟨0x20, 2, 0x4000, 1, 0x4000, 0, 0, 0, 0, 0, 0xffff, 0, 0, 0, 0, 0, 0⟩,
  ⟨0x24, 2, 0x4000, 1, 0x4000, 0, 0, 0, 0, 0, 0, 0, 0, 0, 0x100, 0x7f, 0⟩,
  ⟨0x100, 2, 0x4000, 32, 0x8, 0, 0, 0, 0xffffffff, 0, 0, 0, 0, 0, 0, 0, 0⟩,
  ⟨0x104, 2, 0x4000, 32, 0x8, 0, 0, 0, 0x1fffffff, 0, 0, 0, 0, 0, 0, 0, 0⟩,
  ⟨0x1000, 2, 0x4000, 320, 0x4, 0, 0, 0, 0xffffffff, 0, 0, 0, 0, 0, 0, 0, 0⟩,
  ⟨0x2000, 2, 0x4000, 20, 0x4, 0, 0, 0, 0, 0, 0, 0, 0, 0, 0, 0xffffffff, 0⟩,
  ⟨0x3000, 2, 0x4000, 1, 0x4000, 0x4, 1, 0, 0, 0, 0, 0, 0x7f, 0, 0, 0, 0⟩]

/-! ### SPI: window base 0x20100000 (spec/14_serial.md) -/

/-- spec/14_serial.md, register SPI_CFG. -/
def SPI_CFG (n : Nat) : Nat := 0x20100000 + n * 0x100
def SPI_CFG.EN (n : Nat) : Fld := ⟨SPI_CFG n, 0, 1⟩
def SPI_CFG.SLAVE (n : Nat) : Fld := ⟨SPI_CFG n, 1, 1⟩
def SPI_CFG.CPOL (n : Nat) : Fld := ⟨SPI_CFG n, 2, 1⟩
def SPI_CFG.CPHA (n : Nat) : Fld := ⟨SPI_CFG n, 3, 1⟩
def SPI_CFG.LEN (n : Nat) : Fld := ⟨SPI_CFG n, 4, 5⟩
def SPI_CFG.LSBF (n : Nat) : Fld := ⟨SPI_CFG n, 9, 1⟩
def SPI_CFG.CONT (n : Nat) : Fld := ⟨SPI_CFG n, 10, 1⟩
def SPI_CFG.CS (n : Nat) : Fld := ⟨SPI_CFG n, 11, 2⟩
/-- spec/14_serial.md, register SPI_TIMING. -/
def SPI_TIMING (n : Nat) : Nat := 0x20100004 + n * 0x100
def SPI_TIMING.DIV (n : Nat) : Fld := ⟨SPI_TIMING n, 0, 8⟩
def SPI_TIMING.CSS (n : Nat) : Fld := ⟨SPI_TIMING n, 8, 4⟩
def SPI_TIMING.CSH (n : Nat) : Fld := ⟨SPI_TIMING n, 12, 4⟩
def SPI_TIMING.CSI (n : Nat) : Fld := ⟨SPI_TIMING n, 16, 4⟩
/-- spec/14_serial.md, register SPI_DATA. -/
def SPI_DATA (n : Nat) : Nat := 0x20100008 + n * 0x100
def SPI_DATA.DATA (n : Nat) : Fld := ⟨SPI_DATA n, 0, 32⟩
/-- spec/14_serial.md, register SPI_STAT. -/
def SPI_STAT (n : Nat) : Nat := 0x2010000c + n * 0x100
def SPI_STAT.TXLVL (n : Nat) : Fld := ⟨SPI_STAT n, 0, 5⟩
def SPI_STAT.RXLVL (n : Nat) : Fld := ⟨SPI_STAT n, 8, 5⟩
def SPI_STAT.UDR (n : Nat) : Fld := ⟨SPI_STAT n, 16, 1⟩
def SPI_STAT.OVR (n : Nat) : Fld := ⟨SPI_STAT n, 17, 1⟩
/-- spec/14_serial.md, register SPI_IE. -/
def SPI_IE (n : Nat) : Nat := 0x20100010 + n * 0x100
def SPI_IE.UDR (n : Nat) : Fld := ⟨SPI_IE n, 0, 1⟩
def SPI_IE.OVR (n : Nat) : Fld := ⟨SPI_IE n, 1, 1⟩
/-- spec/14_serial.md, register SPI_OWNER. -/
def SPI_OWNER (n : Nat) : Nat := 0x20100014 + n * 0x100
def SPI_OWNER_LIVE (n : Nat) : Nat := SPI_OWNER n + 0x4
def SPI_OWNER.TID (n : Nat) : Fld := ⟨SPI_OWNER n, 0, 7⟩
def SPI_OWNER.TID_L (n : Nat) : Fld := ⟨SPI_OWNER_LIVE n, 0, 7⟩

/-- Register rows of SPI, part 0. -/
def rowsSPI0 : List RegRow := [
  ⟨0x0, 4, 0x100, 1, 0x100, 0, 0, 0x70, 0x1fff, 0, 0, 0, 0, 0, 0, 0, 0⟩,
  ⟨0x4, 4, 0x100, 1, 0x100, 0, 0, 0, 0xfffff, 0, 0, 0, 0, 0, 0, 0, 0⟩,
  ⟨0x8, 4, 0x100, 1, 0x100, 0, 0, 0, 0xffffffff, 0, 0, 0, 0, 0, 0, 0, 0⟩,
  ⟨0xc, 4, 0x100, 1, 0x100, 0, 0, 0, 0, 0x30000, 0, 0, 0, 0, 0, 0x1f1f, 0⟩,
  ⟨0x10, 4, 0x100, 1, 0x100, 0, 0, 0, 0x3, 0, 0, 0, 0, 0, 0, 0, 0⟩,
  ⟨0x14, 4, 0x100, 1, 0x100, 0x4, 1, 0, 0, 0, 0, 0, 0x7f, 0, 0, 0, 0⟩]

/-! ### I2C: window base 0x20110000 (spec/14_serial.md) -/

/-- spec/14_serial.md, register I2C_CFG. -/
def I2C_CFG (n : Nat) : Nat := 0x20110000 + n * 0x100
def I2C_CFG.EN (n : Nat) : Fld := ⟨I2C_CFG n, 0, 1⟩
def I2C_CFG.TARGET (n : Nat) : Fld := ⟨I2C_CFG n, 1, 1⟩
def I2C_CFG.ADDR10 (n : Nat) : Fld := ⟨I2C_CFG n, 2, 1⟩
def I2C_CFG.ADDR (n : Nat) : Fld := ⟨I2C_CFG n, 16, 10⟩
/-- spec/14_serial.md, register I2C_SCL. -/
def I2C_SCL (n : Nat) : Nat := 0x20110004 + n * 0x100
def I2C_SCL.SCLL (n : Nat) : Fld := ⟨I2C_SCL n, 0, 10⟩
def I2C_SCL.SCLH (n : Nat) : Fld := ⟨I2C_SCL n, 16, 10⟩
/-- spec/14_serial.md, register I2C_HOLD. -/
def I2C_HOLD (n : Nat) : Nat := 0x20110008 + n * 0x100
def I2C_HOLD.SDA_HOLD (n : Nat) : Fld := ⟨I2C_HOLD n, 0, 8⟩
def I2C_HOLD.TMO (n : Nat) : Fld := ⟨I2C_HOLD n, 8, 8⟩
/-- spec/14_serial.md, register I2C_CMD. -/
def I2C_CMD (n : Nat) : Nat := 0x2011000c + n * 0x100
def I2C_CMD.BYTE (n : Nat) : Fld := ⟨I2C_CMD n, 0, 8⟩
def I2C_CMD.START (n : Nat) : Fld := ⟨I2C_CMD n, 8, 1⟩
def I2C_CMD.STOP (n : Nat) : Fld := ⟨I2C_CMD n, 9, 1⟩
def I2C_CMD.READ (n : Nat) : Fld := ⟨I2C_CMD n, 10, 1⟩
def I2C_CMD.NACK (n : Nat) : Fld := ⟨I2C_CMD n, 11, 1⟩
/-- spec/14_serial.md, register I2C_RXDATA. -/
def I2C_RXDATA (n : Nat) : Nat := 0x20110010 + n * 0x100
def I2C_RXDATA.BYTE (n : Nat) : Fld := ⟨I2C_RXDATA n, 0, 8⟩
/-- spec/14_serial.md, register I2C_STAT. -/
def I2C_STAT (n : Nat) : Nat := 0x20110014 + n * 0x100
def I2C_STAT.DONE (n : Nat) : Fld := ⟨I2C_STAT n, 0, 1⟩
def I2C_STAT.NACKED (n : Nat) : Fld := ⟨I2C_STAT n, 1, 1⟩
def I2C_STAT.ARBLOST (n : Nat) : Fld := ⟨I2C_STAT n, 2, 1⟩
def I2C_STAT.SCL_STUCK (n : Nat) : Fld := ⟨I2C_STAT n, 3, 1⟩
def I2C_STAT.BUS_CUT (n : Nat) : Fld := ⟨I2C_STAT n, 4, 1⟩
def I2C_STAT.OVR (n : Nat) : Fld := ⟨I2C_STAT n, 5, 1⟩
/-- spec/14_serial.md, register I2C_CTL. -/
def I2C_CTL (n : Nat) : Nat := 0x20110018 + n * 0x100
def I2C_CTL.CLEAR (n : Nat) : Fld := ⟨I2C_CTL n, 0, 1⟩
/-- spec/14_serial.md, register I2C_IE. -/
def I2C_IE (n : Nat) : Nat := 0x2011001c + n * 0x100
def I2C_IE.EN (n : Nat) : Fld := ⟨I2C_IE n, 0, 6⟩
/-- spec/14_serial.md, register I2C_OWNER. -/
def I2C_OWNER (n : Nat) : Nat := 0x20110020 + n * 0x100
def I2C_OWNER_LIVE (n : Nat) : Nat := I2C_OWNER n + 0x4
def I2C_OWNER.TID (n : Nat) : Fld := ⟨I2C_OWNER n, 0, 7⟩
def I2C_OWNER.TID_L (n : Nat) : Fld := ⟨I2C_OWNER_LIVE n, 0, 7⟩

/-- Register rows of I2C, part 0. -/
def rowsI2C0 : List RegRow := [
  ⟨0x0, 4, 0x100, 1, 0x100, 0, 0, 0, 0x3ff0007, 0, 0, 0, 0, 0, 0, 0, 0⟩,
  ⟨0x4, 4, 0x100, 1, 0x100, 0, 0, 0x3e803e8, 0x3ff03ff, 0, 0, 0, 0, 0, 0, 0, 0⟩,
  ⟨0x8, 4, 0x100, 1, 0x100, 0, 0, 0x1904, 0xffff, 0, 0, 0, 0, 0, 0, 0, 0⟩,
  ⟨0xc, 4, 0x100, 1, 0x100, 0, 0, 0, 0, 0, 0, 0, 0, 0, 0xfff, 0, 0⟩,
  ⟨0x10, 4, 0x100, 1, 0x100, 0, 0, 0, 0, 0, 0, 0, 0, 0, 0, 0xff, 0⟩,
  ⟨0x14, 4, 0x100, 1, 0x100, 0, 0, 0, 0, 0x3f, 0, 0, 0, 0, 0, 0, 0⟩,
  ⟨0x18, 4, 0x100, 1, 0x100, 0, 0, 0, 0, 0, 0, 0, 0, 0, 0x1, 0, 0⟩,
  ⟨0x1c, 4, 0x100, 1, 0x100, 0, 0, 0, 0x3f, 0, 0, 0, 0, 0, 0, 0, 0⟩,
  ⟨0x20, 4, 0x100, 1, 0x100, 0x4, 1, 0, 0, 0, 0, 0, 0x7f, 0, 0, 0, 0⟩]

/-! ### XSPI: window base 0x20120000 (spec/14_serial.md) -/

/-- spec/14_serial.md, register XSPI_NEG_RESULT. -/
def XSPI_NEG_RESULT : Nat := 0x20120000
def XSPI_NEG_RESULT.MODE : Fld := ⟨XSPI_NEG_RESULT, 0, 8⟩
def XSPI_NEG_RESULT.FREQ : Fld := ⟨XSPI_NEG_RESULT, 8, 8⟩
def XSPI_NEG_RESULT.DUMMY : Fld := ⟨XSPI_NEG_RESULT, 16, 5⟩
def XSPI_NEG_RESULT.ADDR4 : Fld := ⟨XSPI_NEG_RESULT, 21, 1⟩
def XSPI_NEG_RESULT.DONE : Fld := ⟨XSPI_NEG_RESULT, 22, 1⟩
def XSPI_NEG_RESULT.LINK_FLOOR : Fld := ⟨XSPI_NEG_RESULT, 23, 1⟩
/-- spec/14_serial.md, register XSPI_LINK. -/
def XSPI_LINK : Nat := 0x20120004
def XSPI_LINK.FLOOR : Fld := ⟨XSPI_LINK, 0, 8⟩
def XSPI_LINK.CEIL : Fld := ⟨XSPI_LINK, 8, 8⟩
/-- spec/14_serial.md, register XSPI_ICMD. -/
def XSPI_ICMD : Nat := 0x20120008
def XSPI_ICMD.OPC : Fld := ⟨XSPI_ICMD, 0, 8⟩
def XSPI_ICMD.CMD_W : Fld := ⟨XSPI_ICMD, 8, 2⟩
def XSPI_ICMD.ADDR_W : Fld := ⟨XSPI_ICMD, 10, 2⟩
def XSPI_ICMD.DATA_W : Fld := ⟨XSPI_ICMD, 12, 2⟩
def XSPI_ICMD.DTR : Fld := ⟨XSPI_ICMD, 14, 1⟩
def XSPI_ICMD.HAS_ADDR : Fld := ⟨XSPI_ICMD, 15, 1⟩
def XSPI_ICMD.DUMMY : Fld := ⟨XSPI_ICMD, 16, 5⟩
def XSPI_ICMD.WRITE : Fld := ⟨XSPI_ICMD, 21, 1⟩
def XSPI_ICMD.POLL : Fld := ⟨XSPI_ICMD, 22, 1⟩
def XSPI_ICMD.LEN : Fld := ⟨XSPI_ICMD, 23, 7⟩
/-- spec/14_serial.md, register XSPI_IADDR. -/
def XSPI_IADDR : Nat := 0x2012000c
def XSPI_IADDR.ADDR : Fld := ⟨XSPI_IADDR, 0, 32⟩
/-- spec/14_serial.md, register XSPI_IDATA. -/
def XSPI_IDATA : Nat := 0x20120010
def XSPI_IDATA.DATA : Fld := ⟨XSPI_IDATA, 0, 32⟩
/-- spec/14_serial.md, register XSPI_POLLCFG. -/
def XSPI_POLLCFG : Nat := 0x20120014
def XSPI_POLLCFG.POLL_OPC : Fld := ⟨XSPI_POLLCFG, 0, 8⟩
def XSPI_POLLCFG.POLL_BIT : Fld := ⟨XSPI_POLLCFG, 8, 3⟩
def XSPI_POLLCFG.POLL_RDY : Fld := ⟨XSPI_POLLCFG, 11, 1⟩
def XSPI_POLLCFG.POLL_TMO : Fld := ⟨XSPI_POLLCFG, 16, 8⟩
/-- spec/14_serial.md, register XSPI_INV_LEN. -/
def XSPI_INV_LEN : Nat := 0x20120018
def XSPI_INV_LEN.BYTES : Fld := ⟨XSPI_INV_LEN, 0, 28⟩
/-- spec/14_serial.md, register XSPI_STAT. -/
def XSPI_STAT : Nat := 0x2012001c
def XSPI_STAT.BUSY : Fld := ⟨XSPI_STAT, 0, 1⟩
def XSPI_STAT.DONE : Fld := ⟨XSPI_STAT, 1, 1⟩
def XSPI_STAT.POLL_TMO : Fld := ⟨XSPI_STAT, 2, 1⟩
def XSPI_STAT.ICMD_REJ : Fld := ⟨XSPI_STAT, 3, 1⟩

/-- Register rows of XSPI, part 0. -/
def rowsXSPI0 : List RegRow := [
  ⟨0x0, 1, 0x4, 1, 0x4, 0, 0, 0, 0, 0, 0, 0, 0, 0, 0, 0xffffff, 0⟩,
  ⟨0x4, 1, 0x4, 1, 0x4, 0, 0, 0, 0, 0, 0, 0, 0, 0xffff, 0, 0, 0⟩,
  ⟨0x8, 1, 0x4, 1, 0x4, 0, 0, 0, 0, 0, 0, 0, 0, 0, 0x3fffffff, 0, 0⟩,
  ⟨0xc, 1, 0x4, 1, 0x4, 0, 0, 0, 0xffffffff, 0, 0, 0, 0, 0, 0, 0, 0⟩,
  ⟨0x10, 1, 0x4, 1, 0x4, 0, 0, 0, 0xffffffff, 0, 0, 0, 0, 0, 0, 0, 0⟩,
  ⟨0x14, 1, 0x4, 1, 0x4, 0, 0, 0x640005, 0xff0fff, 0, 0, 0, 0, 0, 0, 0, 0⟩,
  ⟨0x18, 1, 0x4, 1, 0x4, 0, 0, 0, 0xfffffff, 0, 0, 0, 0, 0, 0, 0, 0⟩,
  ⟨0x1c, 1, 0x4, 1, 0x4, 0, 0, 0, 0, 0xe, 0, 0, 0, 0, 0, 0x1, 0⟩]

/-! ### ETH: window base 0x20130000 (spec/15_ethernet.md) -/

/-- spec/15_ethernet.md, register ETH_CFG. -/
def ETH_CFG (n : Nat) : Nat := 0x20130000 + n * 0x10000
def ETH_CFG_LIVE (n : Nat) : Nat := ETH_CFG n + 0x4000
def ETH_CFG.EN (n : Nat) : Fld := ⟨ETH_CFG n, 0, 1⟩
def ETH_CFG.IF (n : Nat) : Fld := ⟨ETH_CFG n, 1, 1⟩
def ETH_CFG.TXDLY (n : Nat) : Fld := ⟨ETH_CFG n, 2, 4⟩
def ETH_CFG.RXDLY (n : Nat) : Fld := ⟨ETH_CFG n, 6, 4⟩
def ETH_CFG.RMII_REF (n : Nat) : Fld := ⟨ETH_CFG n, 10, 1⟩
def ETH_CFG.PVID (n : Nat) : Fld := ⟨ETH_CFG n, 16, 12⟩
def ETH_CFG.PVID_L (n : Nat) : Fld := ⟨ETH_CFG_LIVE n, 16, 12⟩
/-- spec/15_ethernet.md, register ETH_MAXLEN. -/
def ETH_MAXLEN (n : Nat) : Nat := 0x20130004 + n * 0x10000
def ETH_MAXLEN.BYTES (n : Nat) : Fld := ⟨ETH_MAXLEN n, 0, 14⟩
/-- spec/15_ethernet.md, register ETH_NEG_RESULT. -/
def ETH_NEG_RESULT (n : Nat) : Nat := 0x20130010 + n * 0x10000
def ETH_NEG_RESULT.MODE (n : Nat) : Fld := ⟨ETH_NEG_RESULT n, 0, 8⟩
def ETH_NEG_RESULT.LINK (n : Nat) : Fld := ⟨ETH_NEG_RESULT n, 8, 1⟩
def ETH_NEG_RESULT.FLOOR (n : Nat) : Fld := ⟨ETH_NEG_RESULT n, 9, 1⟩
/-- spec/15_ethernet.md, register ETH_LINK. -/
def ETH_LINK (n : Nat) : Nat := 0x20130014 + n * 0x10000
def ETH_LINK.FLOOR (n : Nat) : Fld := ⟨ETH_LINK n, 0, 8⟩
def ETH_LINK.CEIL (n : Nat) : Fld := ⟨ETH_LINK n, 8, 8⟩
/-- spec/15_ethernet.md, register ETH_LF_CFG. -/
def ETH_LF_CFG (n : Nat) : Nat := 0x20130018 + n * 0x10000
def ETH_LF_CFG.EN (n : Nat) : Fld := ⟨ETH_LF_CFG n, 0, 1⟩
def ETH_LF_CFG.PHYAD (n : Nat) : Fld := ⟨ETH_LF_CFG n, 1, 5⟩
def ETH_LF_CFG.MANUAL (n : Nat) : Fld := ⟨ETH_LF_CFG n, 8, 8⟩
/-- spec/15_ethernet.md, register ETH_MDIO_DIV. -/
def ETH_MDIO_DIV (n : Nat) : Nat := 0x2013001c + n * 0x10000
def ETH_MDIO_DIV.DIV (n : Nat) : Fld := ⟨ETH_MDIO_DIV n, 0, 8⟩
/-- spec/15_ethernet.md, register ETH_MDIO_CMD. -/
def ETH_MDIO_CMD (n : Nat) : Nat := 0x20130020 + n * 0x10000
def ETH_MDIO_CMD.PHYAD (n : Nat) : Fld := ⟨ETH_MDIO_CMD n, 0, 5⟩
def ETH_MDIO_CMD.REG (n : Nat) : Fld := ⟨ETH_MDIO_CMD n, 5, 5⟩
def ETH_MDIO_CMD.C45 (n : Nat) : Fld := ⟨ETH_MDIO_CMD n, 10, 1⟩
def ETH_MDIO_CMD.OP (n : Nat) : Fld := ⟨ETH_MDIO_CMD n, 11, 2⟩
def ETH_MDIO_CMD.DATA (n : Nat) : Fld := ⟨ETH_MDIO_CMD n, 16, 16⟩
/-- spec/15_ethernet.md, register ETH_MDIO_STAT. -/
def ETH_MDIO_STAT (n : Nat) : Nat := 0x20130024 + n * 0x10000
def ETH_MDIO_STAT.DATA (n : Nat) : Fld := ⟨ETH_MDIO_STAT n, 0, 16⟩
def ETH_MDIO_STAT.BUSY (n : Nat) : Fld := ⟨ETH_MDIO_STAT n, 16, 1⟩
def ETH_MDIO_STAT.DONE (n : Nat) : Fld := ⟨ETH_MDIO_STAT n, 17, 1⟩
def ETH_MDIO_STAT.MDIO_REJ (n : Nat) : Fld := ⟨ETH_MDIO_STAT n, 18, 1⟩
/-- spec/15_ethernet.md, register ETH_STAT. -/
def ETH_STAT (n : Nat) : Nat := 0x20130030 + n * 0x10000
def ETH_STAT.RX (n : Nat) : Fld := ⟨ETH_STAT n, 0, 1⟩
def ETH_STAT.TX (n : Nat) : Fld := ⟨ETH_STAT n, 1, 1⟩
def ETH_STAT.TS_OVR (n : Nat) : Fld := ⟨ETH_STAT n, 2, 1⟩
def ETH_STAT.LINK_CHG (n : Nat) : Fld := ⟨ETH_STAT n, 3, 1⟩
def ETH_STAT.CLS_DROP (n : Nat) : Fld := ⟨ETH_STAT n, 4, 1⟩
def ETH_STAT.CFG_REJ (n : Nat) : Fld := ⟨ETH_STAT n, 5, 1⟩
def ETH_STAT.TXQ_FULL (n : Nat) : Fld := ⟨ETH_STAT n, 6, 1⟩
def ETH_STAT.BAD_DESC (n : Nat) : Fld := ⟨ETH_STAT n, 7, 1⟩
def ETH_STAT.CBS_INEFF (n : Nat) : Fld := ⟨ETH_STAT n, 8, 1⟩
/-- spec/15_ethernet.md, register ETH_IE. -/
def ETH_IE (n : Nat) : Nat := 0x20130034 + n * 0x10000
def ETH_IE.EN (n : Nat) : Fld := ⟨ETH_IE n, 0, 10⟩
/-- spec/15_ethernet.md, register ETH_RX_BAD. -/
def ETH_RX_BAD (n : Nat) : Nat := 0x20130040 + n * 0x10000
def ETH_RX_BAD.COUNT (n : Nat) : Fld := ⟨ETH_RX_BAD n, 0, 32⟩
/-- spec/15_ethernet.md, register ETH_RX_NOMATCH. -/
def ETH_RX_NOMATCH (n : Nat) : Nat := 0x20130044 + n * 0x10000
def ETH_RX_NOMATCH.COUNT (n : Nat) : Fld := ⟨ETH_RX_NOMATCH n, 0, 32⟩
/-- spec/15_ethernet.md, register ETH_RX_NOBUF. -/
def ETH_RX_NOBUF (n : Nat) : Nat := 0x20130048 + n * 0x10000
def ETH_RX_NOBUF.COUNT (n : Nat) : Fld := ⟨ETH_RX_NOBUF n, 0, 32⟩
/-- spec/15_ethernet.md, register ETH_RX_BIG. -/
def ETH_RX_BIG (n : Nat) : Nat := 0x2013004c + n * 0x10000
def ETH_RX_BIG.COUNT (n : Nat) : Fld := ⟨ETH_RX_BIG n, 0, 32⟩
/-- spec/15_ethernet.md, register ETH_RXQ_OVR. -/
def ETH_RXQ_OVR (n : Nat) : Nat := 0x20130050 + n * 0x10000
def ETH_RXQ_OVR.COUNT (n : Nat) : Fld := ⟨ETH_RXQ_OVR n, 0, 32⟩
/-- spec/15_ethernet.md, register ETH_TX_ERR. -/
def ETH_TX_ERR (n : Nat) : Nat := 0x20130054 + n * 0x10000
def ETH_TX_ERR.COUNT (n : Nat) : Fld := ⟨ETH_TX_ERR n, 0, 32⟩
/-- spec/15_ethernet.md, register ETH_FU_MISS. -/
def ETH_FU_MISS (n : Nat) : Nat := 0x20130058 + n * 0x10000
def ETH_FU_MISS.COUNT (n : Nat) : Fld := ⟨ETH_FU_MISS n, 0, 32⟩
/-- spec/15_ethernet.md, register ETH_PAUSE_DROP. -/
def ETH_PAUSE_DROP (n : Nat) : Nat := 0x2013005c + n * 0x10000
def ETH_PAUSE_DROP.COUNT (n : Nat) : Fld := ⟨ETH_PAUSE_DROP n, 0, 32⟩
/-- spec/15_ethernet.md, register ETH_TX_OK. -/
def ETH_TX_OK (n : Nat) : Nat := 0x20130060 + n * 0x10000
def ETH_TX_OK.COUNT (n : Nat) : Fld := ⟨ETH_TX_OK n, 0, 32⟩
/-- spec/15_ethernet.md, register ETH_COMMIT_ERR. -/
def ETH_COMMIT_ERR (n : Nat) : Nat := 0x20130070 + n * 0x10000
def ETH_COMMIT_ERR.REASON (n : Nat) : Fld := ⟨ETH_COMMIT_ERR n, 0, 4⟩
def ETH_COMMIT_ERR.INDEX (n : Nat) : Fld := ⟨ETH_COMMIT_ERR n, 4, 8⟩
/-- spec/15_ethernet.md, register ETH_TXQ_PUSH. -/
def ETH_TXQ_PUSH (n q : Nat) : Nat := 0x20130100 + n * 0x10000 + q * 0x20
def ETH_TXQ_PUSH.HANDLE (n q : Nat) : Fld := ⟨ETH_TXQ_PUSH n q, 0, 32⟩
/-- spec/15_ethernet.md, register ETH_TXQ_STAT. -/
def ETH_TXQ_STAT (n q : Nat) : Nat := 0x20130104 + n * 0x10000 + q * 0x20
def ETH_TXQ_STAT.DEPTH (n q : Nat) : Fld := ⟨ETH_TXQ_STAT n q, 0, 7⟩
/-- spec/15_ethernet.md, register ETH_TXQ_OWNER. -/
def ETH_TXQ_OWNER (n q : Nat) : Nat := 0x20130108 + n * 0x10000 + q * 0x20
def ETH_TXQ_OWNER_LIVE (n q : Nat) : Nat := ETH_TXQ_OWNER n q + 0x4000
def ETH_TXQ_OWNER.TID (n q : Nat) : Fld := ⟨ETH_TXQ_OWNER n q, 0, 7⟩
def ETH_TXQ_OWNER.TID_L (n q : Nat) : Fld := ⟨ETH_TXQ_OWNER_LIVE n q, 0, 7⟩
/-- spec/15_ethernet.md, register ETH_TXQ_IDLESLOPE. -/
def ETH_TXQ_IDLESLOPE (n q : Nat) : Nat := 0x2013010c + n * 0x10000 + q * 0x20
def ETH_TXQ_IDLESLOPE_LIVE (n q : Nat) : Nat := ETH_TXQ_IDLESLOPE n q + 0x4000
def ETH_TXQ_IDLESLOPE.KBPS (n q : Nat) : Fld := ⟨ETH_TXQ_IDLESLOPE n q, 0, 20⟩
def ETH_TXQ_IDLESLOPE.KBPS_L (n q : Nat) : Fld := ⟨ETH_TXQ_IDLESLOPE_LIVE n q, 0, 20⟩
def ETH_TXQ_IDLESLOPE.CBS_EN (n q : Nat) : Fld := ⟨ETH_TXQ_IDLESLOPE n q, 31, 1⟩
def ETH_TXQ_IDLESLOPE.CBS_EN_L (n q : Nat) : Fld := ⟨ETH_TXQ_IDLESLOPE_LIVE n q, 31, 1⟩
/-- spec/15_ethernet.md, register ETH_TXQ_CREDIT. -/
def ETH_TXQ_CREDIT (n q : Nat) : Nat := 0x20130110 + n * 0x10000 + q * 0x20
def ETH_TXQ_CREDIT.BITS (n q : Nat) : Fld := ⟨ETH_TXQ_CREDIT n q, 0, 32⟩
/-- spec/15_ethernet.md, register ETH_RXQ_POP. -/
def ETH_RXQ_POP (n r : Nat) : Nat := 0x20130200 + n * 0x10000 + r * 0x10
def ETH_RXQ_POP.HANDLE (n r : Nat) : Fld := ⟨ETH_RXQ_POP n r, 0, 32⟩
/-- spec/15_ethernet.md, register ETH_RXQ_STAT. -/
def ETH_RXQ_STAT (n r : Nat) : Nat := 0x20130204 + n * 0x10000 + r * 0x10
def ETH_RXQ_STAT.LEVEL (n r : Nat) : Fld := ⟨ETH_RXQ_STAT n r, 0, 6⟩
/-- spec/15_ethernet.md, register ETH_RXQ_OWNER. -/
def ETH_RXQ_OWNER (n r : Nat) : Nat := 0x20130208 + n * 0x10000 + r * 0x10
def ETH_RXQ_OWNER_LIVE (n r : Nat) : Nat := ETH_RXQ_OWNER n r + 0x4000
def ETH_RXQ_OWNER.TID (n r : Nat) : Fld := ⟨ETH_RXQ_OWNER n r, 0, 7⟩
def ETH_RXQ_OWNER.TID_L (n r : Nat) : Fld := ⟨ETH_RXQ_OWNER_LIVE n r, 0, 7⟩
/-- spec/15_ethernet.md, register ETH_TXTS_TBL. -/
def ETH_TXTS_TBL (n : Nat) : Nat := 0x20130300 + n * 0x10000
def ETH_TXTS_TBL.TB (n : Nat) : Fld := ⟨ETH_TXTS_TBL n, 0, 32⟩
/-- spec/15_ethernet.md, register ETH_TXTS_TBH. -/
def ETH_TXTS_TBH (n : Nat) : Nat := 0x20130304 + n * 0x10000
def ETH_TXTS_TBH.TB (n : Nat) : Fld := ⟨ETH_TXTS_TBH n, 0, 32⟩
/-- spec/15_ethernet.md, register ETH_TXTS_INFO. -/
def ETH_TXTS_INFO (n : Nat) : Nat := 0x20130308 + n * 0x10000
def ETH_TXTS_INFO.TAG (n : Nat) : Fld := ⟨ETH_TXTS_INFO n, 0, 16⟩
def ETH_TXTS_INFO.QUEUE (n : Nat) : Fld := ⟨ETH_TXTS_INFO n, 16, 3⟩
def ETH_TXTS_INFO.LEVEL (n : Nat) : Fld := ⟨ETH_TXTS_INFO n, 24, 5⟩
/-- spec/15_ethernet.md, register ETH_INGRESS_LAT. -/
def ETH_INGRESS_LAT (n : Nat) : Nat := 0x20130310 + n * 0x10000
def ETH_INGRESS_LAT.NS (n : Nat) : Fld := ⟨ETH_INGRESS_LAT n, 0, 16⟩
/-- spec/15_ethernet.md, register ETH_EGRESS_LAT. -/
def ETH_EGRESS_LAT (n : Nat) : Nat := 0x20130314 + n * 0x10000
def ETH_EGRESS_LAT.NS (n : Nat) : Fld := ⟨ETH_EGRESS_LAT n, 0, 16⟩
/-- spec/15_ethernet.md, register ETH_MEAN_DELAY. -/
def ETH_MEAN_DELAY (n : Nat) : Nat := 0x20130318 + n * 0x10000
def ETH_MEAN_DELAY.NS (n : Nat) : Fld := ⟨ETH_MEAN_DELAY n, 0, 24⟩
/-- spec/15_ethernet.md, register ETH_ASYM. -/
def ETH_ASYM (n : Nat) : Nat := 0x2013031c + n * 0x10000
def ETH_ASYM.NS (n : Nat) : Fld := ⟨ETH_ASYM n, 0, 16⟩
/-- spec/15_ethernet.md, register ETH_PTP_CFG. -/
def ETH_PTP_CFG (n : Nat) : Nat := 0x20130320 + n * 0x10000
def ETH_PTP_CFG_LIVE (n : Nat) : Nat := ETH_PTP_CFG n + 0x4000
def ETH_PTP_CFG.SLAVE (n : Nat) : Fld := ⟨ETH_PTP_CFG n, 0, 1⟩
def ETH_PTP_CFG.SLAVE_L (n : Nat) : Fld := ⟨ETH_PTP_CFG_LIVE n, 0, 1⟩
def ETH_PTP_CFG.PORTID_EN (n : Nat) : Fld := ⟨ETH_PTP_CFG n, 1, 1⟩
def ETH_PTP_CFG.PORTID_EN_L (n : Nat) : Fld := ⟨ETH_PTP_CFG_LIVE n, 1, 1⟩
def ETH_PTP_CFG.DOMAIN (n : Nat) : Fld := ⟨ETH_PTP_CFG n, 8, 8⟩
def ETH_PTP_CFG.DOMAIN_L (n : Nat) : Fld := ⟨ETH_PTP_CFG_LIVE n, 8, 8⟩
/-- spec/15_ethernet.md, register ETH_PTP_PORTID0. -/
def ETH_PTP_PORTID0 (n : Nat) : Nat := 0x20130324 + n * 0x10000
def ETH_PTP_PORTID0_LIVE (n : Nat) : Nat := ETH_PTP_PORTID0 n + 0x4000
def ETH_PTP_PORTID0.IDENTITY (n : Nat) : Fld := ⟨ETH_PTP_PORTID0 n, 0, 32⟩
def ETH_PTP_PORTID0.IDENTITY_L (n : Nat) : Fld := ⟨ETH_PTP_PORTID0_LIVE n, 0, 32⟩
/-- spec/15_ethernet.md, register ETH_PTP_PORTID1. -/
def ETH_PTP_PORTID1 (n : Nat) : Nat := 0x20130328 + n * 0x10000
def ETH_PTP_PORTID1_LIVE (n : Nat) : Nat := ETH_PTP_PORTID1 n + 0x4000
def ETH_PTP_PORTID1.IDENTITY (n : Nat) : Fld := ⟨ETH_PTP_PORTID1 n, 0, 32⟩
def ETH_PTP_PORTID1.IDENTITY_L (n : Nat) : Fld := ⟨ETH_PTP_PORTID1_LIVE n, 0, 32⟩
/-- spec/15_ethernet.md, register ETH_PTP_PORTID2. -/
def ETH_PTP_PORTID2 (n : Nat) : Nat := 0x2013032c + n * 0x10000
def ETH_PTP_PORTID2_LIVE (n : Nat) : Nat := ETH_PTP_PORTID2 n + 0x4000
def ETH_PTP_PORTID2.PORTNUM (n : Nat) : Fld := ⟨ETH_PTP_PORTID2 n, 0, 16⟩
def ETH_PTP_PORTID2.PORTNUM_L (n : Nat) : Fld := ⟨ETH_PTP_PORTID2_LIVE n, 0, 16⟩
/-- spec/15_ethernet.md, register ETH_PTP_SAMPLES. -/
def ETH_PTP_SAMPLES (n : Nat) : Nat := 0x20130330 + n * 0x10000
def ETH_PTP_SAMPLES.COUNT (n : Nat) : Fld := ⟨ETH_PTP_SAMPLES n, 0, 32⟩
/-- spec/15_ethernet.md, register ETH_DAF_LO. -/
def ETH_DAF_LO (n i : Nat) : Nat := 0x20130400 + n * 0x10000 + i * 0x8
def ETH_DAF_LO_LIVE (n i : Nat) : Nat := ETH_DAF_LO n i + 0x4000
def ETH_DAF_LO.ADDR (n i : Nat) : Fld := ⟨ETH_DAF_LO n i, 0, 32⟩
def ETH_DAF_LO.ADDR_L (n i : Nat) : Fld := ⟨ETH_DAF_LO_LIVE n i, 0, 32⟩
/-- spec/15_ethernet.md, register ETH_DAF_HI. -/
def ETH_DAF_HI (n i : Nat) : Nat := 0x20130404 + n * 0x10000 + i * 0x8
def ETH_DAF_HI_LIVE (n i : Nat) : Nat := ETH_DAF_HI n i + 0x4000
def ETH_DAF_HI.ADDR (n i : Nat) : Fld := ⟨ETH_DAF_HI n i, 0, 16⟩
def ETH_DAF_HI.ADDR_L (n i : Nat) : Fld := ⟨ETH_DAF_HI_LIVE n i, 0, 16⟩
def ETH_DAF_HI.EN (n i : Nat) : Fld := ⟨ETH_DAF_HI n i, 31, 1⟩
def ETH_DAF_HI.EN_L (n i : Nat) : Fld := ⟨ETH_DAF_HI_LIVE n i, 31, 1⟩
/-- spec/15_ethernet.md, register ETH_RULE_CTL. -/
def ETH_RULE_CTL (n k : Nat) : Nat := 0x20131000 + n * 0x10000 + k * 0x10
def ETH_RULE_CTL_LIVE (n k : Nat) : Nat := ETH_RULE_CTL n k + 0x4000
def ETH_RULE_CTL.EN (n k : Nat) : Fld := ⟨ETH_RULE_CTL n k, 0, 1⟩
def ETH_RULE_CTL.EN_L (n k : Nat) : Fld := ⟨ETH_RULE_CTL_LIVE n k, 0, 1⟩
def ETH_RULE_CTL.DROP (n k : Nat) : Fld := ⟨ETH_RULE_CTL n k, 1, 1⟩
def ETH_RULE_CTL.DROP_L (n k : Nat) : Fld := ⟨ETH_RULE_CTL_LIVE n k, 1, 1⟩
def ETH_RULE_CTL.M_DA (n k : Nat) : Fld := ⟨ETH_RULE_CTL n k, 2, 1⟩
def ETH_RULE_CTL.M_DA_L (n k : Nat) : Fld := ⟨ETH_RULE_CTL_LIVE n k, 2, 1⟩
def ETH_RULE_CTL.M_ETYPE (n k : Nat) : Fld := ⟨ETH_RULE_CTL n k, 3, 1⟩
def ETH_RULE_CTL.M_ETYPE_L (n k : Nat) : Fld := ⟨ETH_RULE_CTL_LIVE n k, 3, 1⟩
def ETH_RULE_CTL.M_VID (n k : Nat) : Fld := ⟨ETH_RULE_CTL n k, 4, 1⟩
def ETH_RULE_CTL.M_VID_L (n k : Nat) : Fld := ⟨ETH_RULE_CTL_LIVE n k, 4, 1⟩
def ETH_RULE_CTL.M_PCP (n k : Nat) : Fld := ⟨ETH_RULE_CTL n k, 5, 1⟩
def ETH_RULE_CTL.M_PCP_L (n k : Nat) : Fld := ⟨ETH_RULE_CTL_LIVE n k, 5, 1⟩
def ETH_RULE_CTL.M_UDP (n k : Nat) : Fld := ⟨ETH_RULE_CTL n k, 6, 1⟩
def ETH_RULE_CTL.M_UDP_L (n k : Nat) : Fld := ⟨ETH_RULE_CTL_LIVE n k, 6, 1⟩
def ETH_RULE_CTL.DA_SEL (n k : Nat) : Fld := ⟨ETH_RULE_CTL n k, 8, 4⟩
def ETH_RULE_CTL.DA_SEL_L (n k : Nat) : Fld := ⟨ETH_RULE_CTL_LIVE n k, 8, 4⟩
def ETH_RULE_CTL.PCP (n k : Nat) : Fld := ⟨ETH_RULE_CTL n k, 12, 3⟩
def ETH_RULE_CTL.PCP_L (n k : Nat) : Fld := ⟨ETH_RULE_CTL_LIVE n k, 12, 3⟩
def ETH_RULE_CTL.POOL (n k : Nat) : Fld := ⟨ETH_RULE_CTL n k, 16, 4⟩
def ETH_RULE_CTL.POOL_L (n k : Nat) : Fld := ⟨ETH_RULE_CTL_LIVE n k, 16, 4⟩
def ETH_RULE_CTL.RXQ (n k : Nat) : Fld := ⟨ETH_RULE_CTL n k, 20, 4⟩
def ETH_RULE_CTL.RXQ_L (n k : Nat) : Fld := ⟨ETH_RULE_CTL_LIVE n k, 20, 4⟩
def ETH_RULE_CTL.TENANT (n k : Nat) : Fld := ⟨ETH_RULE_CTL n k, 24, 7⟩
def ETH_RULE_CTL.TENANT_L (n k : Nat) : Fld := ⟨ETH_RULE_CTL_LIVE n k, 24, 7⟩
/-- spec/15_ethernet.md, register ETH_RULE_MATCH. -/
def ETH_RULE_MATCH (n k : Nat) : Nat := 0x20131004 + n * 0x10000 + k * 0x10
def ETH_RULE_MATCH_LIVE (n k : Nat) : Nat := ETH_RULE_MATCH n k + 0x4000
def ETH_RULE_MATCH.ETYPE (n k : Nat) : Fld := ⟨ETH_RULE_MATCH n k, 0, 16⟩
def ETH_RULE_MATCH.ETYPE_L (n k : Nat) : Fld := ⟨ETH_RULE_MATCH_LIVE n k, 0, 16⟩
def ETH_RULE_MATCH.VID (n k : Nat) : Fld := ⟨ETH_RULE_MATCH n k, 16, 12⟩
def ETH_RULE_MATCH.VID_L (n k : Nat) : Fld := ⟨ETH_RULE_MATCH_LIVE n k, 16, 12⟩
/-- spec/15_ethernet.md, register ETH_RULE_PORT. -/
def ETH_RULE_PORT (n k : Nat) : Nat := 0x20131008 + n * 0x10000 + k * 0x10
def ETH_RULE_PORT_LIVE (n k : Nat) : Nat := ETH_RULE_PORT n k + 0x4000
def ETH_RULE_PORT.UDP (n k : Nat) : Fld := ⟨ETH_RULE_PORT n k, 0, 16⟩
def ETH_RULE_PORT.UDP_L (n k : Nat) : Fld := ⟨ETH_RULE_PORT_LIVE n k, 0, 16⟩
/-- spec/15_ethernet.md, register ETH_RULE_HITS. -/
def ETH_RULE_HITS (n k : Nat) : Nat := 0x2013100c + n * 0x10000 + k * 0x10
def ETH_RULE_HITS.COUNT (n k : Nat) : Fld := ⟨ETH_RULE_HITS n k, 0, 32⟩

/-- Register rows of ETH, part 0. -/
def rowsETH0 : List RegRow := [
  ⟨0x0, 2, 0x10000, 1, 0x10000, 0x4000, 3, 0x10000, 0x7ff, 0, 0, 0, 0xfff0000, 0, 0, 0, 0⟩,
  ⟨0x4, 2, 0x10000, 1, 0x10000, 0, 0, 0x5ee, 0x3fff, 0, 0, 0, 0, 0, 0, 0, 0⟩,
  ⟨0x10, 2, 0x10000, 1, 0x10000, 0, 0, 0, 0, 0, 0, 0, 0, 0, 0, 0x3ff, 0⟩,
  ⟨0x14, 2, 0x10000, 1, 0x10000, 0, 0, 0, 0, 0, 0, 0, 0, 0xffff, 0, 0, 0⟩,
  ⟨0x18, 2, 0x10000, 1, 0x10000, 0, 0, 0, 0xff3f, 0, 0, 0, 0, 0, 0, 0, 0⟩,
  ⟨0x1c, 2, 0x10000, 1, 0x10000, 0, 0, 0x31, 0xff, 0, 0, 0, 0, 0, 0, 0, 0⟩,
  ⟨0x20, 2, 0x10000, 1, 0x10000, 0, 0, 0, 0, 0, 0, 0, 0, 0, 0xffff1fff, 0, 0⟩,
  ⟨0x24, 2, 0x10000, 1, 0x10000, 0, 0, 0, 0, 0x60000, 0, 0, 0, 0, 0, 0x1ffff, 0⟩,
  ⟨0x30, 2, 0x10000, 1, 0x10000, 0, 0, 0, 0, 0x1ff, 0, 0, 0, 0, 0, 0, 0⟩,
  ⟨0x34, 2, 0x10000, 1, 0x10000, 0, 0, 0, 0x3ff, 0, 0, 0, 0, 0, 0, 0, 0⟩,
  ⟨0x40, 2, 0x10000, 1, 0x10000, 0, 0, 0, 0, 0, 0, 0xffffffff, 0, 0, 0, 0, 0⟩,
  ⟨0x44, 2, 0x10000, 1, 0x10000, 0, 0, 0, 0, 0, 0, 0xffffffff, 0, 0, 0, 0, 0⟩,
  ⟨0x48, 2, 0x10000, 1, 0x10000, 0, 0, 0, 0, 0, 0, 0xffffffff, 0, 0, 0, 0, 0⟩,
  ⟨0x4c, 2, 0x10000, 1, 0x10000, 0, 0, 0, 0, 0, 0, 0xffffffff, 0, 0, 0, 0, 0⟩,
  ⟨0x50, 2, 0x10000, 1, 0x10000, 0, 0, 0, 0, 0, 0, 0xffffffff, 0, 0, 0, 0, 0⟩,
  ⟨0x54, 2, 0x10000, 1, 0x10000, 0, 0, 0, 0, 0, 0, 0xffffffff, 0, 0, 0, 0, 0⟩]

/-- Register rows of ETH, part 1. -/
def rowsETH1 : List RegRow := [
  ⟨0x58, 2, 0x10000, 1, 0x10000, 0, 0, 0, 0, 0, 0, 0xffffffff, 0, 0, 0, 0, 0⟩,
  ⟨0x5c, 2, 0x10000, 1, 0x10000, 0, 0, 0, 0, 0, 0, 0xffffffff, 0, 0, 0, 0, 0⟩,
  ⟨0x60, 2, 0x10000, 1, 0x10000, 0, 0, 0, 0, 0, 0, 0xffffffff, 0, 0, 0, 0, 0⟩,
  ⟨0x70, 2, 0x10000, 1, 0x10000, 0, 0, 0, 0, 0, 0, 0, 0, 0, 0, 0xfff, 0⟩,
  ⟨0x100, 2, 0x10000, 8, 0x20, 0, 0, 0, 0, 0, 0, 0, 0, 0, 0xffffffff, 0, 0⟩,
  ⟨0x104, 2, 0x10000, 8, 0x20, 0, 0, 0, 0, 0, 0, 0, 0, 0, 0, 0x7f, 0⟩,
  ⟨0x108, 2, 0x10000, 8, 0x20, 0x4000, 1, 0, 0, 0, 0, 0, 0x7f, 0, 0, 0, 0⟩,
  ⟨0x1cc, 2, 0x10000, 2, 0x20, 0x4000, 3, 0, 0, 0, 0, 0, 0x800fffff, 0, 0, 0, 0⟩,
  ⟨0x110, 2, 0x10000, 8, 0x20, 0, 0, 0, 0, 0, 0, 0, 0, 0, 0, 0xffffffff, 0⟩,
  ⟨0x200, 2, 0x10000, 16, 0x10, 0, 0, 0, 0, 0, 0, 0, 0, 0, 0, 0xffffffff, 0⟩,
  ⟨0x204, 2, 0x10000, 16, 0x10, 0, 0, 0, 0, 0, 0, 0, 0, 0, 0, 0x3f, 0⟩,
  ⟨0x208, 2, 0x10000, 16, 0x10, 0x4000, 1, 0, 0, 0, 0, 0, 0x7f, 0, 0, 0, 0⟩,
  ⟨0x300, 2, 0x10000, 1, 0x10000, 0, 0, 0, 0, 0, 0, 0, 0, 0, 0, 0xffffffff, 0⟩,
  ⟨0x304, 2, 0x10000, 1, 0x10000, 0, 0, 0, 0, 0, 0, 0, 0, 0, 0, 0xffffffff, 0⟩,
  ⟨0x308, 2, 0x10000, 1, 0x10000, 0, 0, 0, 0, 0, 0, 0, 0, 0, 0, 0x1f07ffff, 0⟩,
  ⟨0x310, 2, 0x10000, 1, 0x10000, 0, 0, 0, 0xffff, 0, 0, 0, 0, 0, 0, 0, 0⟩]

/-- Register rows of ETH, part 2. -/
def rowsETH2 : List RegRow := [
  ⟨0x314, 2, 0x10000, 1, 0x10000, 0, 0, 0, 0xffff, 0, 0, 0, 0, 0, 0, 0, 0⟩,
  ⟨0x318, 2, 0x10000, 1, 0x10000, 0, 0, 0, 0xffffff, 0, 0, 0, 0, 0, 0, 0, 0⟩,
  ⟨0x31c, 2, 0x10000, 1, 0x10000, 0, 0, 0, 0xffff, 0, 0, 0, 0, 0, 0, 0, 0⟩,
  ⟨0x320, 2, 0x10000, 1, 0x10000, 0x4000, 3, 0, 0, 0, 0, 0, 0xff03, 0, 0, 0, 0⟩,
  ⟨0x324, 2, 0x10000, 1, 0x10000, 0x4000, 3, 0, 0, 0, 0, 0, 0xffffffff, 0, 0, 0, 0⟩,
  ⟨0x328, 2, 0x10000, 1, 0x10000, 0x4000, 3, 0, 0, 0, 0, 0, 0xffffffff, 0, 0, 0, 0⟩,
  ⟨0x32c, 2, 0x10000, 1, 0x10000, 0x4000, 3, 0, 0, 0, 0, 0, 0xffff, 0, 0, 0, 0⟩,
  ⟨0x330, 2, 0x10000, 1, 0x10000, 0, 0, 0, 0, 0, 0, 0xffffffff, 0, 0, 0, 0, 0⟩,
  ⟨0x400, 2, 0x10000, 16, 0x8, 0x4000, 3, 0, 0, 0, 0, 0, 0xffffffff, 0, 0, 0, 0⟩,
  ⟨0x404, 2, 0x10000, 16, 0x8, 0x4000, 3, 0, 0, 0, 0, 0, 0x8000ffff, 0, 0, 0, 0⟩,
  ⟨0x1000, 2, 0x10000, 128, 0x10, 0x4000, 3, 0, 0, 0, 0, 0, 0x7fff7f7f, 0, 0, 0, 0⟩,
  ⟨0x1004, 2, 0x10000, 128, 0x10, 0x4000, 3, 0, 0, 0, 0, 0, 0xfffffff, 0, 0, 0, 0⟩,
  ⟨0x1008, 2, 0x10000, 128, 0x10, 0x4000, 3, 0, 0, 0, 0, 0, 0xffff, 0, 0, 0, 0⟩,
  ⟨0x100c, 2, 0x10000, 128, 0x10, 0, 0, 0, 0, 0, 0, 0xffffffff, 0, 0, 0, 0, 0⟩]

/-! ### TWIN: window base 0x20150000 (spec/17_twin.md) -/

/-- spec/17_twin.md, register TWIN_STAT. -/
def TWIN_STAT : Nat := 0x20150000
def TWIN_STAT.STATE : Fld := ⟨TWIN_STAT, 0, 3⟩
def TWIN_STAT.PAIRED : Fld := ⟨TWIN_STAT, 8, 1⟩
def TWIN_STAT.LINK_UP : Fld := ⟨TWIN_STAT, 9, 1⟩
def TWIN_STAT.ROLE_DRIVE : Fld := ⟨TWIN_STAT, 10, 1⟩
def TWIN_STAT.ROLE_SENSE : Fld := ⟨TWIN_STAT, 11, 1⟩
def TWIN_STAT.DRIVE_OWN : Fld := ⟨TWIN_STAT, 12, 1⟩
def TWIN_STAT.PEER_READY : Fld := ⟨TWIN_STAT, 13, 1⟩
def TWIN_STAT.IN_SYNC : Fld := ⟨TWIN_STAT, 14, 1⟩
def TWIN_STAT.HB_LOST : Fld := ⟨TWIN_STAT, 15, 1⟩
def TWIN_STAT.PEER_NEW : Fld := ⟨TWIN_STAT, 16, 1⟩
/-- spec/17_twin.md, register TWIN_EVT. -/
def TWIN_EVT : Nat := 0x20150004
def TWIN_EVT.HB_MISS : Fld := ⟨TWIN_EVT, 0, 1⟩
def TWIN_EVT.PEER_LOST : Fld := ⟨TWIN_EVT, 1, 1⟩
def TWIN_EVT.FAILOVER : Fld := ⟨TWIN_EVT, 2, 1⟩
def TWIN_EVT.FO_UNSYNC : Fld := ⟨TWIN_EVT, 3, 1⟩
def TWIN_EVT.ROLE_CHG : Fld := ⟨TWIN_EVT, 4, 1⟩
def TWIN_EVT.HO_REJ : Fld := ⟨TWIN_EVT, 5, 1⟩
def TWIN_EVT.TEST_REJ : Fld := ⟨TWIN_EVT, 6, 1⟩
def TWIN_EVT.MW_UPD : Fld := ⟨TWIN_EVT, 7, 1⟩
def TWIN_EVT.TRAIN_DONE : Fld := ⟨TWIN_EVT, 8, 1⟩
def TWIN_EVT.PEER_MISMATCH : Fld := ⟨TWIN_EVT, 9, 1⟩
def TWIN_EVT.REBIND_FAIL : Fld := ⟨TWIN_EVT, 10, 1⟩
def TWIN_EVT.ISO : Fld := ⟨TWIN_EVT, 11, 1⟩
def TWIN_EVT.LINK_ERR : Fld := ⟨TWIN_EVT, 12, 1⟩
def TWIN_EVT.ROLE_FAULT : Fld := ⟨TWIN_EVT, 13, 1⟩
/-- spec/17_twin.md, register TWIN_IE. -/
def TWIN_IE : Nat := 0x20150008
def TWIN_IE.EN : Fld := ⟨TWIN_IE, 0, 14⟩
/-- spec/17_twin.md, register TWIN_CTL. -/
def TWIN_CTL : Nat := 0x2015000c
def TWIN_CTL.KEY : Fld := ⟨TWIN_CTL, 0, 32⟩
/-- spec/17_twin.md, register TWIN_CFG. -/
def TWIN_CFG : Nat := 0x20150010
def TWIN_CFG.EN : Fld := ⟨TWIN_CFG, 0, 1⟩
def TWIN_CFG.PREF : Fld := ⟨TWIN_CFG, 1, 2⟩
def TWIN_CFG.ISO_CLAIM : Fld := ⟨TWIN_CFG, 3, 1⟩
def TWIN_CFG.LONE_TMO : Fld := ⟨TWIN_CFG, 8, 8⟩
/-- spec/17_twin.md, register TWIN_PEER_SERIAL_LO. -/
def TWIN_PEER_SERIAL_LO : Nat := 0x20150014
def TWIN_PEER_SERIAL_LO.SERIAL : Fld := ⟨TWIN_PEER_SERIAL_LO, 0, 32⟩
/-- spec/17_twin.md, register TWIN_PEER_SERIAL_HI. -/
def TWIN_PEER_SERIAL_HI : Nat := 0x20150018
def TWIN_PEER_SERIAL_HI.SERIAL : Fld := ⟨TWIN_PEER_SERIAL_HI, 0, 32⟩
/-- spec/17_twin.md, register TWIN_NEG_RESULT. -/
def TWIN_NEG_RESULT : Nat := 0x20150020
def TWIN_NEG_RESULT.MODE : Fld := ⟨TWIN_NEG_RESULT, 0, 8⟩
def TWIN_NEG_RESULT.VER : Fld := ⟨TWIN_NEG_RESULT, 8, 4⟩
def TWIN_NEG_RESULT.DONE : Fld := ⟨TWIN_NEG_RESULT, 12, 1⟩
def TWIN_NEG_RESULT.LINK_FLOOR : Fld := ⟨TWIN_NEG_RESULT, 13, 1⟩
def TWIN_NEG_RESULT.FAIL : Fld := ⟨TWIN_NEG_RESULT, 14, 2⟩
/-- spec/17_twin.md, register TWIN_LINK. -/
def TWIN_LINK : Nat := 0x20150024
def TWIN_LINK.FLOOR : Fld := ⟨TWIN_LINK, 0, 8⟩
def TWIN_LINK.CEIL : Fld := ⟨TWIN_LINK, 8, 8⟩
/-- spec/17_twin.md, register TWIN_PEER_ID_LO. -/
def TWIN_PEER_ID_LO : Nat := 0x20150028
def TWIN_PEER_ID_LO.SERIAL : Fld := ⟨TWIN_PEER_ID_LO, 0, 32⟩
/-- spec/17_twin.md, register TWIN_PEER_ID_HI. -/
def TWIN_PEER_ID_HI : Nat := 0x2015002c
def TWIN_PEER_ID_HI.SERIAL : Fld := ⟨TWIN_PEER_ID_HI, 0, 32⟩
/-- spec/17_twin.md, register TWIN_BOUND_LO. -/
def TWIN_BOUND_LO : Nat := 0x20150030
def TWIN_BOUND_LO.SERIAL : Fld := ⟨TWIN_BOUND_LO, 0, 32⟩
/-- spec/17_twin.md, register TWIN_BOUND_HI. -/
def TWIN_BOUND_HI : Nat := 0x20150034
def TWIN_BOUND_HI.SERIAL : Fld := ⟨TWIN_BOUND_HI, 0, 32⟩
/-- spec/17_twin.md, register TWIN_HB_CNT. -/
def TWIN_HB_CNT : Nat := 0x20150040
def TWIN_HB_CNT.MISSED : Fld := ⟨TWIN_HB_CNT, 0, 8⟩
def TWIN_HB_CNT.ERR_CNT : Fld := ⟨TWIN_HB_CNT, 16, 16⟩
/-- spec/17_twin.md, register TWIN_PEER_OFS. -/
def TWIN_PEER_OFS : Nat := 0x20150044
def TWIN_PEER_OFS.NS : Fld := ⟨TWIN_PEER_OFS, 0, 32⟩
/-- spec/17_twin.md, register TWIN_LAST_FO. -/
def TWIN_LAST_FO : Nat := 0x20150048
def TWIN_LAST_FO.US : Fld := ⟨TWIN_LAST_FO, 0, 16⟩
/-- spec/17_twin.md, register TWIN_COMMIT_ERR. -/
def TWIN_COMMIT_ERR : Nat := 0x2015004c
def TWIN_COMMIT_ERR.REASON : Fld := ⟨TWIN_COMMIT_ERR, 0, 4⟩
def TWIN_COMMIT_ERR.WINDOW : Fld := ⟨TWIN_COMMIT_ERR, 4, 4⟩
/-- spec/17_twin.md, register TWIN_MW_CFG. -/
def TWIN_MW_CFG (w : Nat) : Nat := 0x20150100 + w * 0x40
def TWIN_MW_CFG_LIVE (w : Nat) : Nat := TWIN_MW_CFG w + 0x1000
def TWIN_MW_CFG.EN (w : Nat) : Fld := ⟨TWIN_MW_CFG w, 0, 1⟩
def TWIN_MW_CFG.EN_L (w : Nat) : Fld := ⟨TWIN_MW_CFG_LIVE w, 0, 1⟩
def TWIN_MW_CFG.AUTO (w : Nat) : Fld := ⟨TWIN_MW_CFG w, 1, 1⟩
def TWIN_MW_CFG.AUTO_L (w : Nat) : Fld := ⟨TWIN_MW_CFG_LIVE w, 1, 1⟩
def TWIN_MW_CFG.LEN (w : Nat) : Fld := ⟨TWIN_MW_CFG w, 2, 11⟩
def TWIN_MW_CFG.LEN_L (w : Nat) : Fld := ⟨TWIN_MW_CFG_LIVE w, 2, 11⟩
/-- spec/17_twin.md, register TWIN_MW_SRC. -/
def TWIN_MW_SRC (w : Nat) : Nat := 0x20150104 + w * 0x40
def TWIN_MW_SRC_LIVE (w : Nat) : Nat := TWIN_MW_SRC w + 0x1000
def TWIN_MW_SRC.ADDR (w : Nat) : Fld := ⟨TWIN_MW_SRC w, 6, 26⟩
def TWIN_MW_SRC.ADDR_L (w : Nat) : Fld := ⟨TWIN_MW_SRC_LIVE w, 6, 26⟩
/-- spec/17_twin.md, register TWIN_MW_DST0. -/
def TWIN_MW_DST0 (w : Nat) : Nat := 0x20150108 + w * 0x40
def TWIN_MW_DST0_LIVE (w : Nat) : Nat := TWIN_MW_DST0 w + 0x1000
def TWIN_MW_DST0.ADDR (w : Nat) : Fld := ⟨TWIN_MW_DST0 w, 6, 26⟩
def TWIN_MW_DST0.ADDR_L (w : Nat) : Fld := ⟨TWIN_MW_DST0_LIVE w, 6, 26⟩
/-- spec/17_twin.md, register TWIN_MW_DST1. -/
def TWIN_MW_DST1 (w : Nat) : Nat := 0x2015010c + w * 0x40
def TWIN_MW_DST1_LIVE (w : Nat) : Nat := TWIN_MW_DST1 w + 0x1000
def TWIN_MW_DST1.ADDR (w : Nat) : Fld := ⟨TWIN_MW_DST1 w, 6, 26⟩
def TWIN_MW_DST1.ADDR_L (w : Nat) : Fld := ⟨TWIN_MW_DST1_LIVE w, 6, 26⟩
/-- spec/17_twin.md, register TWIN_MW_OWNER. -/
def TWIN_MW_OWNER (w : Nat) : Nat := 0x20150110 + w * 0x40
def TWIN_MW_OWNER_LIVE (w : Nat) : Nat := TWIN_MW_OWNER w + 0x1000
def TWIN_MW_OWNER.TID (w : Nat) : Fld := ⟨TWIN_MW_OWNER w, 0, 7⟩
def TWIN_MW_OWNER.TID_L (w : Nat) : Fld := ⟨TWIN_MW_OWNER_LIVE w, 0, 7⟩
/-- spec/17_twin.md, register TWIN_MW_PUB. -/
def TWIN_MW_PUB (w : Nat) : Nat := 0x20150114 + w * 0x40
def TWIN_MW_PUB.PUB (w : Nat) : Fld := ⟨TWIN_MW_PUB w, 0, 1⟩
/-- spec/17_twin.md, register TWIN_MW_GEN. -/
def TWIN_MW_GEN (w : Nat) : Nat := 0x20150118 + w * 0x40
def TWIN_MW_GEN.GEN (w : Nat) : Fld := ⟨TWIN_MW_GEN w, 0, 32⟩
/-- spec/17_twin.md, register TWIN_MW_CUR. -/
def TWIN_MW_CUR (w : Nat) : Nat := 0x2015011c + w * 0x40
def TWIN_MW_CUR.GEN (w : Nat) : Fld := ⟨TWIN_MW_CUR w, 0, 32⟩
/-- spec/17_twin.md, register TWIN_MW_STAT. -/
def TWIN_MW_STAT (w : Nat) : Nat := 0x20150120 + w * 0x40
def TWIN_MW_STAT.BUSY (w : Nat) : Fld := ⟨TWIN_MW_STAT w, 0, 1⟩
def TWIN_MW_STAT.CUR_BANK (w : Nat) : Fld := ⟨TWIN_MW_STAT w, 1, 1⟩
def TWIN_MW_STAT.PUB_BUSY (w : Nat) : Fld := ⟨TWIN_MW_STAT w, 2, 1⟩
def TWIN_MW_STAT.SKIP (w : Nat) : Fld := ⟨TWIN_MW_STAT w, 8, 8⟩
def TWIN_MW_STAT.REFUSED (w : Nat) : Fld := ⟨TWIN_MW_STAT w, 16, 8⟩
def TWIN_MW_STAT.TORN (w : Nat) : Fld := ⟨TWIN_MW_STAT w, 24, 8⟩
/-- spec/17_twin.md, register TWIN_MW_LOCK. -/
def TWIN_MW_LOCK (w : Nat) : Nat := 0x20150124 + w * 0x40
def TWIN_MW_LOCK.LOCK (w : Nat) : Fld := ⟨TWIN_MW_LOCK w, 0, 1⟩
/-- spec/17_twin.md, register TWIN_MW_LOCKSTAT. -/
def TWIN_MW_LOCKSTAT (w : Nat) : Nat := 0x20150128 + w * 0x40
def TWIN_MW_LOCKSTAT.LOCKED (w : Nat) : Fld := ⟨TWIN_MW_LOCKSTAT w, 0, 1⟩
def TWIN_MW_LOCKSTAT.LBANK (w : Nat) : Fld := ⟨TWIN_MW_LOCKSTAT w, 1, 1⟩
/-- spec/17_twin.md, register TWIN_MW_LGEN. -/
def TWIN_MW_LGEN (w : Nat) : Nat := 0x2015012c + w * 0x40
def TWIN_MW_LGEN.GEN (w : Nat) : Fld := ⟨TWIN_MW_LGEN w, 0, 32⟩
/-- spec/17_twin.md, register TWIN_MSG_CFG. -/
def TWIN_MSG_CFG : Nat := 0x20150800
def TWIN_MSG_CFG_LIVE : Nat := TWIN_MSG_CFG + 0x1000
def TWIN_MSG_CFG.MSG_POOL : Fld := ⟨TWIN_MSG_CFG, 0, 4⟩
def TWIN_MSG_CFG.MSG_POOL_L : Fld := ⟨TWIN_MSG_CFG_LIVE, 0, 4⟩
def TWIN_MSG_CFG.EN : Fld := ⟨TWIN_MSG_CFG, 4, 1⟩
def TWIN_MSG_CFG.EN_L : Fld := ⟨TWIN_MSG_CFG_LIVE, 4, 1⟩
/-- spec/17_twin.md, register TWIN_MSG_OWNER. -/
def TWIN_MSG_OWNER : Nat := 0x20150804
def TWIN_MSG_OWNER_LIVE : Nat := TWIN_MSG_OWNER + 0x1000
def TWIN_MSG_OWNER.TID : Fld := ⟨TWIN_MSG_OWNER, 0, 7⟩
def TWIN_MSG_OWNER.TID_L : Fld := ⟨TWIN_MSG_OWNER_LIVE, 0, 7⟩
/-- spec/17_twin.md, register TWIN_MSG_PUSH. -/
def TWIN_MSG_PUSH : Nat := 0x20150808
def TWIN_MSG_PUSH.HANDLE : Fld := ⟨TWIN_MSG_PUSH, 0, 32⟩
/-- spec/17_twin.md, register TWIN_MSG_POP. -/
def TWIN_MSG_POP : Nat := 0x2015080c
def TWIN_MSG_POP.HANDLE : Fld := ⟨TWIN_MSG_POP, 0, 32⟩
/-- spec/17_twin.md, register TWIN_MSG_STAT. -/
def TWIN_MSG_STAT : Nat := 0x20150810
def TWIN_MSG_STAT.TXLVL : Fld := ⟨TWIN_MSG_STAT, 0, 5⟩
def TWIN_MSG_STAT.RXLVL : Fld := ⟨TWIN_MSG_STAT, 8, 5⟩
def TWIN_MSG_STAT.MSG_DROP : Fld := ⟨TWIN_MSG_STAT, 16, 16⟩

/-- Register rows of TWIN, part 0. -/
def rowsTWIN0 : List RegRow := [
  ⟨0x0, 1, 0x4, 1, 0x4, 0, 0, 0, 0, 0, 0, 0, 0, 0, 0, 0x1ff07, 0⟩,
  ⟨0x4, 1, 0x4, 1, 0x4, 0, 0, 0, 0, 0x3fff, 0, 0, 0, 0, 0, 0, 0⟩,
  ⟨0x8, 1, 0x4, 1, 0x4, 0, 0, 0, 0x3fff, 0, 0, 0, 0, 0, 0, 0, 0⟩,
  ⟨0xc, 1, 0x4, 1, 0x4, 0, 0, 0, 0, 0, 0, 0, 0, 0, 0xffffffff, 0, 0⟩,
  ⟨0x10, 1, 0x4, 1, 0x4, 0, 0, 0x3200, 0xff08, 0, 0, 0, 0, 0x7, 0, 0, 0⟩,
  ⟨0x14, 1, 0x4, 1, 0x4, 0, 0, 0, 0, 0, 0, 0, 0, 0xffffffff, 0, 0, 0⟩,
  ⟨0x18, 1, 0x4, 1, 0x4, 0, 0, 0, 0, 0, 0, 0, 0, 0xffffffff, 0, 0, 0⟩,
  ⟨0x20, 1, 0x4, 1, 0x4, 0, 0, 0, 0, 0, 0, 0, 0, 0, 0, 0xffff, 0⟩,
  ⟨0x24, 1, 0x4, 1, 0x4, 0, 0, 0, 0, 0, 0, 0, 0, 0xffff, 0, 0, 0⟩,
  ⟨0x28, 1, 0x4, 1, 0x4, 0, 0, 0, 0, 0, 0, 0, 0, 0, 0, 0xffffffff, 0⟩,
  ⟨0x2c, 1, 0x4, 1, 0x4, 0, 0, 0, 0, 0, 0, 0, 0, 0, 0, 0xffffffff, 0⟩,
  ⟨0x30, 1, 0x4, 1, 0x4, 0, 0, 0, 0, 0, 0, 0, 0, 0, 0, 0xffffffff, 0xffffffff⟩,
  ⟨0x34, 1, 0x4, 1, 0x4, 0, 0, 0, 0, 0, 0, 0, 0, 0, 0, 0xffffffff, 0xffffffff⟩,
  ⟨0x40, 1, 0x4, 1, 0x4, 0, 0, 0, 0, 0, 0, 0xffff00ff, 0, 0, 0, 0, 0⟩,
  ⟨0x44, 1, 0x4, 1, 0x4, 0, 0, 0, 0, 0, 0, 0, 0, 0, 0, 0xffffffff, 0⟩,
  ⟨0x48, 1, 0x4, 1, 0x4, 0, 0, 0, 0, 0, 0, 0, 0, 0, 0, 0xffff, 0⟩]

/-- Register rows of TWIN, part 1. -/
def rowsTWIN1 : List RegRow := [
  ⟨0x4c, 1, 0x4, 1, 0x4, 0, 0, 0, 0, 0, 0, 0, 0, 0, 0, 0xff, 0⟩,
  ⟨0x100, 16, 0x40, 1, 0x40, 0x1000, 3, 0x4, 0, 0, 0, 0, 0x1fff, 0, 0, 0, 0⟩,
  ⟨0x104, 16, 0x40, 1, 0x40, 0x1000, 3, 0, 0, 0, 0, 0, 0xffffffc0, 0, 0, 0, 0⟩,
  ⟨0x108, 16, 0x40, 1, 0x40, 0x1000, 3, 0, 0, 0, 0, 0, 0xffffffc0, 0, 0, 0, 0⟩,
  ⟨0x10c, 16, 0x40, 1, 0x40, 0x1000, 3, 0, 0, 0, 0, 0, 0xffffffc0, 0, 0, 0, 0⟩,
  ⟨0x110, 16, 0x40, 1, 0x40, 0x1000, 1, 0, 0, 0, 0, 0, 0x7f, 0, 0, 0, 0⟩,
  ⟨0x114, 16, 0x40, 1, 0x40, 0, 0, 0, 0, 0, 0, 0, 0, 0, 0x1, 0, 0⟩,
  ⟨0x118, 16, 0x40, 1, 0x40, 0, 0, 0, 0, 0, 0, 0, 0, 0, 0, 0xffffffff, 0⟩,
  ⟨0x11c, 16, 0x40, 1, 0x40, 0, 0, 0, 0, 0, 0, 0, 0, 0, 0, 0xffffffff, 0⟩,
  ⟨0x120, 16, 0x40, 1, 0x40, 0, 0, 0, 0, 0x4, 0, 0xffffff00, 0, 0, 0, 0x3, 0⟩,
  ⟨0x124, 16, 0x40, 1, 0x40, 0, 0, 0, 0x1, 0, 0, 0, 0, 0, 0, 0, 0⟩,
  ⟨0x128, 16, 0x40, 1, 0x40, 0, 0, 0, 0, 0, 0, 0, 0, 0, 0, 0x3, 0⟩,
  ⟨0x12c, 16, 0x40, 1, 0x40, 0, 0, 0, 0, 0, 0, 0, 0, 0, 0, 0xffffffff, 0⟩,
  ⟨0x800, 1, 0x4, 1, 0x4, 0x1000, 3, 0, 0, 0, 0, 0, 0x1f, 0, 0, 0, 0⟩,
  ⟨0x804, 1, 0x4, 1, 0x4, 0x1000, 1, 0, 0, 0, 0, 0, 0x7f, 0, 0, 0, 0⟩,
  ⟨0x808, 1, 0x4, 1, 0x4, 0, 0, 0, 0, 0, 0, 0, 0, 0, 0xffffffff, 0, 0⟩]

/-- Register rows of TWIN, part 2. -/
def rowsTWIN2 : List RegRow := [
  ⟨0x80c, 1, 0x4, 1, 0x4, 0, 0, 0, 0, 0, 0, 0, 0, 0, 0, 0xffffffff, 0⟩,
  ⟨0x810, 1, 0x4, 1, 0x4, 0, 0, 0, 0, 0, 0, 0xffff0000, 0, 0, 0, 0x1f1f, 0⟩]

/-! ### CMT: window base 0x20160000 (spec/18_reconfiguration.md) -/

/-- spec/18_reconfiguration.md, register CMT_CTL. -/
def CMT_CTL : Nat := 0x20160000
def CMT_CTL.KEY : Fld := ⟨CMT_CTL, 0, 32⟩
/-- spec/18_reconfiguration.md, register CMT_STATUS. -/
def CMT_STATUS : Nat := 0x20160004
def CMT_STATUS.STATE : Fld := ⟨CMT_STATUS, 0, 3⟩
def CMT_STATUS.APPLIED : Fld := ⟨CMT_STATUS, 3, 1⟩
def CMT_STATUS.REJECTED : Fld := ⟨CMT_STATUS, 4, 1⟩
def CMT_STATUS.COMMIT_FORCED : Fld := ⟨CMT_STATUS, 5, 1⟩
def CMT_STATUS.EPOCH : Fld := ⟨CMT_STATUS, 6, 1⟩
def CMT_STATUS.REJ_DOMAIN : Fld := ⟨CMT_STATUS, 8, 3⟩
def CMT_STATUS.REJ_BLOCK : Fld := ⟨CMT_STATUS, 16, 5⟩
def CMT_STATUS.LAST_MODE : Fld := ⟨CMT_STATUS, 24, 1⟩
/-- spec/18_reconfiguration.md, register CMT_GEN. -/
def CMT_GEN : Nat := 0x20160008
def CMT_GEN.GEN : Fld := ⟨CMT_GEN, 0, 32⟩
/-- spec/18_reconfiguration.md, register CMT_DRAIN_CFG. -/
def CMT_DRAIN_CFG : Nat := 0x2016000c
def CMT_DRAIN_CFG.TIMEOUT : Fld := ⟨CMT_DRAIN_CFG, 0, 10⟩
def CMT_DRAIN_CFG.MASK : Fld := ⟨CMT_DRAIN_CFG, 16, 5⟩
/-- spec/18_reconfiguration.md, register CMT_DRAIN_TIME. -/
def CMT_DRAIN_TIME : Nat := 0x20160010
def CMT_DRAIN_TIME.US : Fld := ⟨CMT_DRAIN_TIME, 0, 10⟩
/-- spec/18_reconfiguration.md, register CMT_IE. -/
def CMT_IE : Nat := 0x20160014
def CMT_IE.EN : Fld := ⟨CMT_IE, 0, 4⟩
/-- spec/18_reconfiguration.md, register CMT_STAGED. -/
def CMT_STAGED : Nat := 0x20160018
def CMT_STAGED.DOMAIN : Fld := ⟨CMT_STAGED, 1, 7⟩
/-- spec/18_reconfiguration.md, register CMT_TEN_ERR. -/
def CMT_TEN_ERR : Nat := 0x2016001c
def CMT_TEN_ERR.REASON : Fld := ⟨CMT_TEN_ERR, 0, 4⟩
def CMT_TEN_ERR.INDEX : Fld := ⟨CMT_TEN_ERR, 4, 10⟩

/-- Register rows of CMT, part 0. -/
def rowsCMT0 : List RegRow := [
  ⟨0x0, 1, 0x4, 1, 0x4, 0, 0, 0, 0, 0, 0, 0, 0, 0, 0xffffffff, 0, 0⟩,
  ⟨0x4, 1, 0x4, 1, 0x4, 0, 0, 0, 0, 0x78, 0, 0, 0, 0, 0, 0x11f0707, 0⟩,
  ⟨0x8, 1, 0x4, 1, 0x4, 0, 0, 0, 0, 0, 0, 0, 0, 0, 0, 0xffffffff, 0⟩,
  ⟨0xc, 1, 0x4, 1, 0x4, 0, 0, 0x1f0064, 0x1f03ff, 0, 0, 0, 0, 0, 0, 0, 0⟩,
  ⟨0x10, 1, 0x4, 1, 0x4, 0, 0, 0, 0, 0, 0, 0, 0, 0, 0, 0x3ff, 0⟩,
  ⟨0x14, 1, 0x4, 1, 0x4, 0, 0, 0, 0xf, 0, 0, 0, 0, 0, 0, 0, 0⟩,
  ⟨0x18, 1, 0x4, 1, 0x4, 0, 0, 0, 0, 0, 0, 0, 0, 0, 0, 0xfe, 0⟩,
  ⟨0x1c, 1, 0x4, 1, 0x4, 0, 0, 0, 0, 0, 0, 0, 0, 0, 0, 0x3fff, 0⟩]

/-! ### DBG: window base 0x20170000 (spec/19_debug_and_test.md) -/

/-- spec/19_debug_and_test.md, register DBG_STAT. -/
def DBG_STAT : Nat := 0x20170000
def DBG_STAT.ATTACHED : Fld := ⟨DBG_STAT, 0, 1⟩
def DBG_STAT.PORT : Fld := ⟨DBG_STAT, 1, 1⟩
def DBG_STAT.PERM : Fld := ⟨DBG_STAT, 2, 4⟩
def DBG_STAT.EMUL : Fld := ⟨DBG_STAT, 6, 1⟩
def DBG_STAT.WP_REJ : Fld := ⟨DBG_STAT, 7, 1⟩
def DBG_STAT.PATCH_REJ : Fld := ⟨DBG_STAT, 8, 1⟩
def DBG_STAT.FSD_FAULT : Fld := ⟨DBG_STAT, 9, 3⟩
/-- spec/19_debug_and_test.md, register DBG_CTL. -/
def DBG_CTL : Nat := 0x20170004
def DBG_CTL.KEY : Fld := ⟨DBG_CTL, 0, 32⟩
/-- spec/19_debug_and_test.md, register DBG_CFG. -/
def DBG_CFG : Nat := 0x20170008
def DBG_CFG.HALT_AT_LAUNCH : Fld := ⟨DBG_CFG, 0, 2⟩
/-- spec/19_debug_and_test.md, register DBG_IE. -/
def DBG_IE : Nat := 0x2017000c
def DBG_IE.ATTACH : Fld := ⟨DBG_IE, 0, 1⟩
/-- spec/19_debug_and_test.md, register DBG_C_CTL. -/
def DBG_C_CTL (c : Nat) : Nat := 0x20170100 + c * 0x100
def DBG_C_CTL.HALT (c : Nat) : Fld := ⟨DBG_C_CTL c, 0, 1⟩
def DBG_C_CTL.RUN (c : Nat) : Fld := ⟨DBG_C_CTL c, 1, 1⟩
def DBG_C_CTL.STEP (c : Nat) : Fld := ⟨DBG_C_CTL c, 2, 1⟩
def DBG_C_CTL.STEP_IRQ (c : Nat) : Fld := ⟨DBG_C_CTL c, 3, 1⟩
/-- spec/19_debug_and_test.md, register DBG_C_CATCH. -/
def DBG_C_CATCH (c : Nat) : Nat := 0x20170104 + c * 0x100
def DBG_C_CATCH.VEC (c : Nat) : Fld := ⟨DBG_C_CATCH c, 1, 15⟩
/-- spec/19_debug_and_test.md, register DBG_C_STAT. -/
def DBG_C_STAT (c : Nat) : Nat := 0x20170108 + c * 0x100
def DBG_C_STAT.HALTED (c : Nat) : Fld := ⟨DBG_C_STAT c, 0, 1⟩
def DBG_C_STAT.CAUSE (c : Nat) : Fld := ⟨DBG_C_STAT c, 1, 3⟩
def DBG_C_STAT.WP (c : Nat) : Fld := ⟨DBG_C_STAT c, 4, 3⟩
def DBG_C_STAT.VEC (c : Nat) : Fld := ⟨DBG_C_STAT c, 8, 8⟩
/-- spec/19_debug_and_test.md, register DBG_C_PC. -/
def DBG_C_PC (c : Nat) : Nat := 0x2017010c + c * 0x100
def DBG_C_PC.PC (c : Nat) : Fld := ⟨DBG_C_PC c, 2, 30⟩
/-- spec/19_debug_and_test.md, register DBG_C_REGSEL. -/
def DBG_C_REGSEL (c : Nat) : Nat := 0x20170110 + c * 0x100
def DBG_C_REGSEL.NUM (c : Nat) : Fld := ⟨DBG_C_REGSEL c, 0, 8⟩
/-- spec/19_debug_and_test.md, register DBG_C_REGDATA. -/
def DBG_C_REGDATA (c : Nat) : Nat := 0x20170114 + c * 0x100
def DBG_C_REGDATA.DATA (c : Nat) : Fld := ⟨DBG_C_REGDATA c, 0, 32⟩
/-- spec/19_debug_and_test.md, register DBG_C_WPHIT. -/
def DBG_C_WPHIT (c : Nat) : Nat := 0x20170118 + c * 0x100
def DBG_C_WPHIT.HIT (c : Nat) : Fld := ⟨DBG_C_WPHIT c, 0, 8⟩
/-- spec/19_debug_and_test.md, register DBG_C_WP_ADDR. -/
def DBG_C_WP_ADDR (c i : Nat) : Nat := 0x20170140 + c * 0x100 + i * 0x10
def DBG_C_WP_ADDR.ADDR (c i : Nat) : Fld := ⟨DBG_C_WP_ADDR c i, 0, 32⟩
/-- spec/19_debug_and_test.md, register DBG_C_WP_MASK. -/
def DBG_C_WP_MASK (c i : Nat) : Nat := 0x20170144 + c * 0x100 + i * 0x10
def DBG_C_WP_MASK.MASK (c i : Nat) : Fld := ⟨DBG_C_WP_MASK c i, 0, 32⟩
/-- spec/19_debug_and_test.md, register DBG_C_WP_CTL. -/
def DBG_C_WP_CTL (c i : Nat) : Nat := 0x20170148 + c * 0x100 + i * 0x10
def DBG_C_WP_CTL.EN (c i : Nat) : Fld := ⟨DBG_C_WP_CTL c i, 0, 1⟩
def DBG_C_WP_CTL.KIND (c i : Nat) : Fld := ⟨DBG_C_WP_CTL c i, 1, 2⟩
def DBG_C_WP_CTL.TID_EN (c i : Nat) : Fld := ⟨DBG_C_WP_CTL c i, 3, 1⟩
def DBG_C_WP_CTL.TID (c i : Nat) : Fld := ⟨DBG_C_WP_CTL c i, 4, 7⟩
def DBG_C_WP_CTL.SRC (c i : Nat) : Fld := ⟨DBG_C_WP_CTL c i, 11, 1⟩
/-- spec/19_debug_and_test.md, register DBG_G_CTL. -/
def DBG_G_CTL (q : Nat) : Nat := 0x20170800 + q * 0x20
def DBG_G_CTL.HALT (q : Nat) : Fld := ⟨DBG_G_CTL q, 0, 1⟩
def DBG_G_CTL.RUN (q : Nat) : Fld := ⟨DBG_G_CTL q, 1, 1⟩
def DBG_G_CTL.STEP (q : Nat) : Fld := ⟨DBG_G_CTL q, 2, 1⟩
/-- spec/19_debug_and_test.md, register DBG_G_STAT. -/
def DBG_G_STAT (q : Nat) : Nat := 0x20170804 + q * 0x20
def DBG_G_STAT.HALTED (q : Nat) : Fld := ⟨DBG_G_STAT q, 0, 1⟩
def DBG_G_STAT.PC (q : Nat) : Fld := ⟨DBG_G_STAT q, 3, 12⟩
/-- spec/19_debug_and_test.md, register DBG_G_REGSEL. -/
def DBG_G_REGSEL (q : Nat) : Nat := 0x20170808 + q * 0x20
def DBG_G_REGSEL.LANE (q : Nat) : Fld := ⟨DBG_G_REGSEL q, 0, 5⟩
def DBG_G_REGSEL.NUM (q : Nat) : Fld := ⟨DBG_G_REGSEL q, 16, 7⟩
/-- spec/19_debug_and_test.md, register DBG_G_REGDATA. -/
def DBG_G_REGDATA (q : Nat) : Nat := 0x2017080c + q * 0x20
def DBG_G_REGDATA.DATA (q : Nat) : Fld := ⟨DBG_G_REGDATA q, 0, 32⟩
/-- spec/19_debug_and_test.md, register DBG_PU_CTL. -/
def DBG_PU_CTL (u : Nat) : Nat := 0x20171000 + u * 0x40
def DBG_PU_CTL.EN (u : Nat) : Fld := ⟨DBG_PU_CTL u, 0, 1⟩
def DBG_PU_CTL.HIT_IE (u : Nat) : Fld := ⟨DBG_PU_CTL u, 1, 1⟩
def DBG_PU_CTL.SRC (u : Nat) : Fld := ⟨DBG_PU_CTL u, 2, 2⟩
def DBG_PU_CTL.LOCKED (u : Nat) : Fld := ⟨DBG_PU_CTL u, 4, 1⟩
def DBG_PU_CTL.DUP (u : Nat) : Fld := ⟨DBG_PU_CTL u, 5, 1⟩
/-- spec/19_debug_and_test.md, register DBG_PU_LINE. -/
def DBG_PU_LINE (u : Nat) : Nat := 0x20171004 + u * 0x40
def DBG_PU_LINE.ADDR (u : Nat) : Fld := ⟨DBG_PU_LINE u, 5, 27⟩
/-- spec/19_debug_and_test.md, register DBG_PU_HITS. -/
def DBG_PU_HITS (u : Nat) : Nat := 0x20171008 + u * 0x40
def DBG_PU_HITS.COUNT (u : Nat) : Fld := ⟨DBG_PU_HITS u, 0, 16⟩
/-- spec/19_debug_and_test.md, register DBG_PU_DATA. -/
def DBG_PU_DATA (u w : Nat) : Nat := 0x20171020 + u * 0x40 + w * 0x4
def DBG_PU_DATA.DATA (u w : Nat) : Fld := ⟨DBG_PU_DATA u w, 0, 32⟩

/-- Register rows of DBG, part 0. -/
def rowsDBG0 : List RegRow := [
  ⟨0x0, 1, 0x4, 1, 0x4, 0, 0, 0, 0, 0x180, 0, 0, 0, 0, 0, 0xe7f, 0⟩,
  ⟨0x4, 1, 0x4, 1, 0x4, 0, 0, 0, 0, 0, 0, 0, 0, 0, 0xffffffff, 0, 0⟩,
  ⟨0x8, 1, 0x4, 1, 0x4, 0, 0, 0, 0x3, 0, 0, 0, 0, 0, 0, 0, 0⟩,
  ⟨0xc, 1, 0x4, 1, 0x4, 0, 0, 0, 0x1, 0, 0, 0, 0, 0, 0, 0, 0⟩,
  ⟨0x100, 3, 0x100, 1, 0x100, 0, 0, 0, 0x8, 0, 0, 0, 0, 0, 0x7, 0, 0⟩,
  ⟨0x104, 3, 0x100, 1, 0x100, 0, 0, 0, 0xfffe, 0, 0, 0, 0, 0, 0, 0, 0⟩,
  ⟨0x108, 3, 0x100, 1, 0x100, 0, 0, 0, 0, 0, 0, 0, 0, 0, 0, 0xff7f, 0⟩,
  ⟨0x10c, 3, 0x100, 1, 0x100, 0, 0, 0, 0xfffffffc, 0, 0, 0, 0, 0, 0, 0, 0⟩,
  ⟨0x110, 3, 0x100, 1, 0x100, 0, 0, 0, 0xff, 0, 0, 0, 0, 0, 0, 0, 0⟩,
  ⟨0x114, 3, 0x100, 1, 0x100, 0, 0, 0, 0xffffffff, 0, 0, 0, 0, 0, 0, 0, 0⟩,
  ⟨0x118, 3, 0x100, 1, 0x100, 0, 0, 0, 0, 0xff, 0, 0, 0, 0, 0, 0, 0⟩,
  ⟨0x140, 3, 0x100, 8, 0x10, 0, 0, 0, 0xffffffff, 0, 0, 0, 0, 0, 0, 0, 0⟩,
  ⟨0x144, 3, 0x100, 8, 0x10, 0, 0, 0, 0xffffffff, 0, 0, 0, 0, 0, 0, 0, 0⟩,
  ⟨0x148, 3, 0x100, 8, 0x10, 0, 0, 0, 0x7ff, 0, 0, 0, 0, 0, 0, 0x800, 0⟩,
  ⟨0x800, 16, 0x20, 1, 0x20, 0, 0, 0, 0, 0, 0, 0, 0, 0, 0x7, 0, 0⟩,
  ⟨0x804, 16, 0x20, 1, 0x20, 0, 0, 0, 0, 0, 0, 0, 0, 0, 0, 0x7ff9, 0⟩]

/-- Register rows of DBG, part 1. -/
def rowsDBG1 : List RegRow := [
  ⟨0x808, 16, 0x20, 1, 0x20, 0, 0, 0, 0x7f001f, 0, 0, 0, 0, 0, 0, 0, 0⟩,
  ⟨0x80c, 16, 0x20, 1, 0x20, 0, 0, 0, 0xffffffff, 0, 0, 0, 0, 0, 0, 0, 0⟩,
  ⟨0x1000, 32, 0x40, 1, 0x40, 0, 0, 0, 0x3, 0, 0, 0, 0, 0, 0, 0x3c, 0⟩,
  ⟨0x1004, 32, 0x40, 1, 0x40, 0, 0, 0, 0xffffffe0, 0, 0, 0, 0, 0, 0, 0, 0⟩,
  ⟨0x1008, 32, 0x40, 1, 0x40, 0, 0, 0, 0, 0, 0, 0xffff, 0, 0, 0, 0, 0⟩,
  ⟨0x1020, 32, 0x40, 8, 0x4, 0, 0, 0, 0xffffffff, 0, 0, 0, 0, 0, 0, 0, 0⟩]

/-! ### BIST: window base 0x20180000 (spec/19_debug_and_test.md) -/

/-- spec/19_debug_and_test.md, register BIST_CMD. -/
def BIST_CMD : Nat := 0x20180000
def BIST_CMD.TARGET : Fld := ⟨BIST_CMD, 0, 8⟩
def BIST_CMD.KEY : Fld := ⟨BIST_CMD, 16, 16⟩
/-- spec/19_debug_and_test.md, register BIST_STAT. -/
def BIST_STAT : Nat := 0x20180004
def BIST_STAT.BUSY : Fld := ⟨BIST_STAT, 0, 1⟩
def BIST_STAT.DONE : Fld := ⟨BIST_STAT, 1, 1⟩
def BIST_STAT.PASS : Fld := ⟨BIST_STAT, 2, 1⟩
def BIST_STAT.FAIL : Fld := ⟨BIST_STAT, 3, 1⟩
def BIST_STAT.REFUSED : Fld := ⟨BIST_STAT, 4, 1⟩
def BIST_STAT.REASON : Fld := ⟨BIST_STAT, 5, 3⟩
def BIST_STAT.TARGET : Fld := ⟨BIST_STAT, 8, 8⟩
/-- spec/19_debug_and_test.md, register BIST_MISR_LO. -/
def BIST_MISR_LO : Nat := 0x20180008
def BIST_MISR_LO.MISR : Fld := ⟨BIST_MISR_LO, 0, 32⟩
/-- spec/19_debug_and_test.md, register BIST_MISR_HI. -/
def BIST_MISR_HI : Nat := 0x2018000c
def BIST_MISR_HI.MISR : Fld := ⟨BIST_MISR_HI, 0, 32⟩
/-- spec/19_debug_and_test.md, register BIST_GOLDEN_LO. -/
def BIST_GOLDEN_LO : Nat := 0x20180010
def BIST_GOLDEN_LO.MISR : Fld := ⟨BIST_GOLDEN_LO, 0, 32⟩
/-- spec/19_debug_and_test.md, register BIST_GOLDEN_HI. -/
def BIST_GOLDEN_HI : Nat := 0x20180014
def BIST_GOLDEN_HI.MISR : Fld := ⟨BIST_GOLDEN_HI, 0, 32⟩
/-- spec/19_debug_and_test.md, register BIST_FAIL_ADDR. -/
def BIST_FAIL_ADDR : Nat := 0x20180018
def BIST_FAIL_ADDR.ADDR : Fld := ⟨BIST_FAIL_ADDR, 0, 32⟩
/-- spec/19_debug_and_test.md, register BIST_TIME. -/
def BIST_TIME : Nat := 0x2018001c
def BIST_TIME.US : Fld := ⟨BIST_TIME, 0, 24⟩
/-- spec/19_debug_and_test.md, register BIST_MRAM_RES. -/
def BIST_MRAM_RES : Nat := 0x20180020
def BIST_MRAM_RES.CE : Fld := ⟨BIST_MRAM_RES, 0, 16⟩
def BIST_MRAM_RES.UE : Fld := ⟨BIST_MRAM_RES, 16, 8⟩
def BIST_MRAM_RES.SPARE_FAIL : Fld := ⟨BIST_MRAM_RES, 24, 8⟩
/-- spec/19_debug_and_test.md, register BIST_REL. -/
def BIST_REL : Nat := 0x20180024
def BIST_REL.KEY : Fld := ⟨BIST_REL, 0, 32⟩
/-- spec/19_debug_and_test.md, register BIST_PC. -/
def BIST_PC : Nat := 0x20180028
def BIST_PC.ADDR : Fld := ⟨BIST_PC, 2, 30⟩
/-- spec/19_debug_and_test.md, register BIST_SSP. -/
def BIST_SSP : Nat := 0x2018002c
def BIST_SSP.ADDR : Fld := ⟨BIST_SSP, 2, 30⟩
/-- spec/19_debug_and_test.md, register BIST_IE. -/
def BIST_IE : Nat := 0x20180030
def BIST_IE.EN : Fld := ⟨BIST_IE, 0, 2⟩

/-- Register rows of BIST, part 0. -/
def rowsBIST0 : List RegRow := [
  ⟨0x0, 1, 0x4, 1, 0x4, 0, 0, 0, 0, 0, 0, 0, 0, 0, 0xffff00ff, 0, 0⟩,
  ⟨0x4, 1, 0x4, 1, 0x4, 0, 0, 0, 0, 0x1a, 0, 0, 0, 0, 0, 0xffe5, 0⟩,
  ⟨0x8, 1, 0x4, 1, 0x4, 0, 0, 0, 0, 0, 0, 0, 0, 0, 0, 0xffffffff, 0⟩,
  ⟨0xc, 1, 0x4, 1, 0x4, 0, 0, 0, 0, 0, 0, 0, 0, 0, 0, 0xffffffff, 0⟩,
  ⟨0x10, 1, 0x4, 1, 0x4, 0, 0, 0, 0, 0, 0, 0, 0, 0, 0, 0xffffffff, 0⟩,
  ⟨0x14, 1, 0x4, 1, 0x4, 0, 0, 0, 0, 0, 0, 0, 0, 0, 0, 0xffffffff, 0⟩,
  ⟨0x18, 1, 0x4, 1, 0x4, 0, 0, 0, 0, 0, 0, 0, 0, 0, 0, 0xffffffff, 0⟩,
  ⟨0x1c, 1, 0x4, 1, 0x4, 0, 0, 0, 0, 0, 0, 0, 0, 0, 0, 0xffffff, 0⟩,
  ⟨0x20, 1, 0x4, 1, 0x4, 0, 0, 0, 0, 0, 0, 0, 0, 0, 0, 0xffffffff, 0⟩,
  ⟨0x24, 1, 0x4, 1, 0x4, 0, 0, 0, 0, 0, 0, 0, 0, 0, 0xffffffff, 0, 0⟩,
  ⟨0x28, 1, 0x4, 1, 0x4, 0, 0, 0, 0xfffffffc, 0, 0, 0, 0, 0, 0, 0, 0⟩,
  ⟨0x2c, 1, 0x4, 1, 0x4, 0, 0, 0, 0xfffffffc, 0, 0, 0, 0, 0, 0, 0, 0⟩,
  ⟨0x30, 1, 0x4, 1, 0x4, 0, 0, 0, 0x3, 0, 0, 0, 0, 0, 0, 0, 0⟩]

/-! ### GPIO: window base 0x20190000 (spec/20_package_and_electrical.md) -/

/-- spec/20_package_and_electrical.md, register GPIO_MUX. -/
def GPIO_MUX (k : Nat) : Nat := 0x20190000 + k * 0x4
def GPIO_MUX.FN (k : Nat) : Fld := ⟨GPIO_MUX k, 0, 2⟩
def GPIO_MUX.PULL (k : Nat) : Fld := ⟨GPIO_MUX k, 2, 2⟩
def GPIO_MUX.DRIVE (k : Nat) : Fld := ⟨GPIO_MUX k, 4, 2⟩
def GPIO_MUX.SLOW (k : Nat) : Fld := ⟨GPIO_MUX k, 6, 1⟩
def GPIO_MUX.OD (k : Nat) : Fld := ⟨GPIO_MUX k, 7, 1⟩
/-- spec/20_package_and_electrical.md, register GPIO_OUT. -/
def GPIO_OUT (w : Nat) : Nat := 0x20190200 + w * 0x4
def GPIO_OUT.BITS (w : Nat) : Fld := ⟨GPIO_OUT w, 0, 32⟩
/-- spec/20_package_and_electrical.md, register GPIO_DIR. -/
def GPIO_DIR (w : Nat) : Nat := 0x20190210 + w * 0x4
def GPIO_DIR.BITS (w : Nat) : Fld := ⟨GPIO_DIR w, 0, 32⟩
/-- spec/20_package_and_electrical.md, register GPIO_IN. -/
def GPIO_IN (w : Nat) : Nat := 0x20190220 + w * 0x4
def GPIO_IN.BITS (w : Nat) : Fld := ⟨GPIO_IN w, 0, 32⟩
/-- spec/20_package_and_electrical.md, register GPIO_RISE. -/
def GPIO_RISE (w : Nat) : Nat := 0x20190230 + w * 0x4
def GPIO_RISE.BITS (w : Nat) : Fld := ⟨GPIO_RISE w, 0, 32⟩
/-- spec/20_package_and_electrical.md, register GPIO_FALL. -/
def GPIO_FALL (w : Nat) : Nat := 0x20190240 + w * 0x4
def GPIO_FALL.BITS (w : Nat) : Fld := ⟨GPIO_FALL w, 0, 32⟩
/-- spec/20_package_and_electrical.md, register GPIO_EVT. -/
def GPIO_EVT (w : Nat) : Nat := 0x20190250 + w * 0x4
def GPIO_EVT.BITS (w : Nat) : Fld := ⟨GPIO_EVT w, 0, 32⟩
/-- spec/20_package_and_electrical.md, register GPIO_IE. -/
def GPIO_IE (w : Nat) : Nat := 0x20190260 + w * 0x4
def GPIO_IE.BITS (w : Nat) : Fld := ⟨GPIO_IE w, 0, 32⟩
/-- spec/20_package_and_electrical.md, register GPIO_BANK_STAT. -/
def GPIO_BANK_STAT : Nat := 0x20190300
def GPIO_BANK_STAT.PRESENT : Fld := ⟨GPIO_BANK_STAT, 1, 4⟩
def GPIO_BANK_STAT.V18 : Fld := ⟨GPIO_BANK_STAT, 9, 4⟩

/-- Register rows of GPIO, part 0. DESIGN CHOICE (log entry 178): bits [31:11] of word 2, which stand for no ball, are stored and read. -/
def rowsGPIO0 : List RegRow := [
  ⟨0x0, 72, 0x4, 1, 0x4, 0, 0, 0x54, 0xff, 0, 0, 0, 0, 0, 0, 0, 0⟩,
  ⟨0x200, 3, 0x4, 1, 0x4, 0, 0, 0, 0xffffffff, 0, 0, 0, 0, 0, 0, 0, 0⟩,
  ⟨0x210, 3, 0x4, 1, 0x4, 0, 0, 0, 0xffffffff, 0, 0, 0, 0, 0, 0, 0, 0⟩,
  ⟨0x220, 3, 0x4, 1, 0x4, 0, 0, 0, 0, 0, 0, 0, 0, 0, 0, 0xffffffff, 0⟩,
  ⟨0x230, 3, 0x4, 1, 0x4, 0, 0, 0, 0xffffffff, 0, 0, 0, 0, 0, 0, 0, 0⟩,
  ⟨0x240, 3, 0x4, 1, 0x4, 0, 0, 0, 0xffffffff, 0, 0, 0, 0, 0, 0, 0, 0⟩,
  ⟨0x250, 3, 0x4, 1, 0x4, 0, 0, 0, 0, 0xffffffff, 0, 0, 0, 0, 0, 0, 0⟩,
  ⟨0x260, 3, 0x4, 1, 0x4, 0, 0, 0, 0xffffffff, 0, 0, 0, 0, 0, 0, 0, 0⟩,
  ⟨0x300, 1, 0x4, 1, 0x4, 0, 0, 0, 0, 0, 0, 0, 0, 0, 0, 0x1e1e, 0x1e1e⟩]

/-! ### POL: window base 0x30000000 (spec/16_polder_island.md) -/

/-- spec/16_polder_island.md, register POL_STAT. -/
def POL_STAT : Nat := 0x30000000
def POL_STAT.CORE_RUN : Fld := ⟨POL_STAT, 0, 1⟩
def POL_STAT.CORE_HELD : Fld := ⟨POL_STAT, 1, 1⟩
def POL_STAT.WDP_RESET : Fld := ⟨POL_STAT, 2, 1⟩
def POL_STAT.BRIDGE_ERR : Fld := ⟨POL_STAT, 3, 1⟩
def POL_STAT.SCAN_SKIP : Fld := ⟨POL_STAT, 4, 1⟩
def POL_STAT.MAIN_UP : Fld := ⟨POL_STAT, 6, 1⟩
/-- spec/16_polder_island.md, register POL_RST_CAUSE. -/
def POL_RST_CAUSE : Nat := 0x30000004
def POL_RST_CAUSE.CAUSE : Fld := ⟨POL_RST_CAUSE, 0, 3⟩
/-- spec/16_polder_island.md, register POL_CORE_CTL. -/
def POL_CORE_CTL : Nat := 0x30000008
def POL_CORE_CTL.KEY : Fld := ⟨POL_CORE_CTL, 0, 32⟩
/-- spec/16_polder_island.md, register POL_CORE_PC. -/
def POL_CORE_PC : Nat := 0x3000000c
def POL_CORE_PC.ADDR : Fld := ⟨POL_CORE_PC, 0, 32⟩
/-- spec/16_polder_island.md, register POL_CORE_SSP. -/
def POL_CORE_SSP : Nat := 0x30000010
def POL_CORE_SSP.ADDR : Fld := ⟨POL_CORE_SSP, 0, 32⟩
/-- spec/16_polder_island.md, register POL_CORE_VBASE. -/
def POL_CORE_VBASE : Nat := 0x30000014
def POL_CORE_VBASE.ADDR : Fld := ⟨POL_CORE_VBASE, 0, 32⟩
/-- spec/16_polder_island.md, register POL_CORE_IE. -/
def POL_CORE_IE : Nat := 0x30000018
def POL_CORE_IE.EN : Fld := ⟨POL_CORE_IE, 0, 10⟩
/-- spec/16_polder_island.md, register POL_CORE_PEND. -/
def POL_CORE_PEND : Nat := 0x3000001c
def POL_CORE_PEND.PEND : Fld := ⟨POL_CORE_PEND, 0, 10⟩
/-- spec/16_polder_island.md, register POL_MAIN_IE. -/
def POL_MAIN_IE : Nat := 0x30000020
def POL_MAIN_IE.EN : Fld := ⟨POL_MAIN_IE, 0, 4⟩
/-- spec/16_polder_island.md, register POL_COMMIT_ERR. -/
def POL_COMMIT_ERR : Nat := 0x30000030
def POL_COMMIT_ERR.REASON : Fld := ⟨POL_COMMIT_ERR, 0, 4⟩
def POL_COMMIT_ERR.INDEX : Fld := ⟨POL_COMMIT_ERR, 4, 5⟩
/-- spec/16_polder_island.md, register POL_RULE_EVT. -/
def POL_RULE_EVT : Nat := 0x30000060
def POL_RULE_EVT.RULES : Fld := ⟨POL_RULE_EVT, 0, 32⟩
/-- spec/16_polder_island.md, register POL_RULE_ACTIVE. -/
def POL_RULE_ACTIVE : Nat := 0x30000064
def POL_RULE_ACTIVE.RULES : Fld := ⟨POL_RULE_ACTIVE, 0, 32⟩
/-- spec/16_polder_island.md, register POL_ADC_CFG. -/
def POL_ADC_CFG : Nat := 0x30000100
def POL_ADC_CFG_LIVE : Nat := POL_ADC_CFG + 0x4000
def POL_ADC_CFG.EN : Fld := ⟨POL_ADC_CFG, 0, 1⟩
def POL_ADC_CFG.EN_L : Fld := ⟨POL_ADC_CFG_LIVE, 0, 1⟩
def POL_ADC_CFG.LEN : Fld := ⟨POL_ADC_CFG, 1, 5⟩
def POL_ADC_CFG.LEN_L : Fld := ⟨POL_ADC_CFG_LIVE, 1, 5⟩
def POL_ADC_CFG.SCAN_PER : Fld := ⟨POL_ADC_CFG, 8, 24⟩
def POL_ADC_CFG.SCAN_PER_L : Fld := ⟨POL_ADC_CFG_LIVE, 8, 24⟩
/-- spec/16_polder_island.md, register POL_ADC_SLOT. -/
def POL_ADC_SLOT (s : Nat) : Nat := 0x30000140 + s * 0x4
def POL_ADC_SLOT_LIVE (s : Nat) : Nat := POL_ADC_SLOT s + 0x4000
def POL_ADC_SLOT.SRC (s : Nat) : Fld := ⟨POL_ADC_SLOT s, 0, 4⟩
def POL_ADC_SLOT.SRC_L (s : Nat) : Fld := ⟨POL_ADC_SLOT_LIVE s, 0, 4⟩
/-- spec/16_polder_island.md, register POL_ADC_RES. -/
def POL_ADC_RES (s : Nat) : Nat := 0x30000180 + s * 0x4
def POL_ADC_RES.CODE (s : Nat) : Fld := ⟨POL_ADC_RES s, 0, 12⟩
/-- spec/16_polder_island.md, register POL_BQ_CFG. -/
def POL_BQ_CFG (b : Nat) : Nat := 0x30000200 + b * 0x20
def POL_BQ_CFG_LIVE (b : Nat) : Nat := POL_BQ_CFG b + 0x4000
def POL_BQ_CFG.INPUT (b : Nat) : Fld := ⟨POL_BQ_CFG b, 0, 4⟩
def POL_BQ_CFG.INPUT_L (b : Nat) : Fld := ⟨POL_BQ_CFG_LIVE b, 0, 4⟩
def POL_BQ_CFG.EN (b : Nat) : Fld := ⟨POL_BQ_CFG b, 4, 1⟩
def POL_BQ_CFG.EN_L (b : Nat) : Fld := ⟨POL_BQ_CFG_LIVE b, 4, 1⟩
/-- spec/16_polder_island.md, register POL_BQ_B0B1. -/
def POL_BQ_B0B1 (b : Nat) : Nat := 0x30000204 + b * 0x20
def POL_BQ_B0B1_LIVE (b : Nat) : Nat := POL_BQ_B0B1 b + 0x4000
def POL_BQ_B0B1.B0 (b : Nat) : Fld := ⟨POL_BQ_B0B1 b, 0, 16⟩
def POL_BQ_B0B1.B0_L (b : Nat) : Fld := ⟨POL_BQ_B0B1_LIVE b, 0, 16⟩
def POL_BQ_B0B1.B1 (b : Nat) : Fld := ⟨POL_BQ_B0B1 b, 16, 16⟩
def POL_BQ_B0B1.B1_L (b : Nat) : Fld := ⟨POL_BQ_B0B1_LIVE b, 16, 16⟩
/-- spec/16_polder_island.md, register POL_BQ_B2A1. -/
def POL_BQ_B2A1 (b : Nat) : Nat := 0x30000208 + b * 0x20
def POL_BQ_B2A1_LIVE (b : Nat) : Nat := POL_BQ_B2A1 b + 0x4000
def POL_BQ_B2A1.B2 (b : Nat) : Fld := ⟨POL_BQ_B2A1 b, 0, 16⟩
def POL_BQ_B2A1.B2_L (b : Nat) : Fld := ⟨POL_BQ_B2A1_LIVE b, 0, 16⟩
def POL_BQ_B2A1.A1 (b : Nat) : Fld := ⟨POL_BQ_B2A1 b, 16, 16⟩
def POL_BQ_B2A1.A1_L (b : Nat) : Fld := ⟨POL_BQ_B2A1_LIVE b, 16, 16⟩
/-- spec/16_polder_island.md, register POL_BQ_A2. -/
def POL_BQ_A2 (b : Nat) : Nat := 0x3000020c + b * 0x20
def POL_BQ_A2_LIVE (b : Nat) : Nat := POL_BQ_A2 b + 0x4000
def POL_BQ_A2.A2 (b : Nat) : Fld := ⟨POL_BQ_A2 b, 0, 16⟩
def POL_BQ_A2.A2_L (b : Nat) : Fld := ⟨POL_BQ_A2_LIVE b, 0, 16⟩
/-- spec/16_polder_island.md, register POL_BQ_OUT. -/
def POL_BQ_OUT (b : Nat) : Nat := 0x30000210 + b * 0x20
def POL_BQ_OUT.Y (b : Nat) : Fld := ⟨POL_BQ_OUT b, 0, 16⟩
/-- spec/16_polder_island.md, register POL_BQ_CLR. -/
def POL_BQ_CLR (b : Nat) : Nat := 0x30000214 + b * 0x20
def POL_BQ_CLR.CLR (b : Nat) : Fld := ⟨POL_BQ_CLR b, 0, 1⟩
/-- spec/16_polder_island.md, register POL_RULE_CFG. -/
def POL_RULE_CFG (r : Nat) : Nat := 0x30000400 + r * 0x10
def POL_RULE_CFG_LIVE (r : Nat) : Nat := POL_RULE_CFG r + 0x4000
def POL_RULE_CFG.EN (r : Nat) : Fld := ⟨POL_RULE_CFG r, 0, 1⟩
def POL_RULE_CFG.EN_L (r : Nat) : Fld := ⟨POL_RULE_CFG_LIVE r, 0, 1⟩
def POL_RULE_CFG.SRC (r : Nat) : Fld := ⟨POL_RULE_CFG r, 1, 5⟩
def POL_RULE_CFG.SRC_L (r : Nat) : Fld := ⟨POL_RULE_CFG_LIVE r, 1, 5⟩
def POL_RULE_CFG.OP (r : Nat) : Fld := ⟨POL_RULE_CFG r, 6, 1⟩
def POL_RULE_CFG.OP_L (r : Nat) : Fld := ⟨POL_RULE_CFG_LIVE r, 6, 1⟩
def POL_RULE_CFG.THR_SEL (r : Nat) : Fld := ⟨POL_RULE_CFG r, 7, 1⟩
def POL_RULE_CFG.THR_SEL_L (r : Nat) : Fld := ⟨POL_RULE_CFG_LIVE r, 7, 1⟩
def POL_RULE_CFG.PERSIST (r : Nat) : Fld := ⟨POL_RULE_CFG r, 8, 4⟩
def POL_RULE_CFG.PERSIST_L (r : Nat) : Fld := ⟨POL_RULE_CFG_LIVE r, 8, 4⟩
def POL_RULE_CFG.TRIP (r : Nat) : Fld := ⟨POL_RULE_CFG r, 12, 1⟩
def POL_RULE_CFG.TRIP_L (r : Nat) : Fld := ⟨POL_RULE_CFG_LIVE r, 12, 1⟩
def POL_RULE_CFG.LOG (r : Nat) : Fld := ⟨POL_RULE_CFG r, 13, 1⟩
def POL_RULE_CFG.LOG_L (r : Nat) : Fld := ⟨POL_RULE_CFG_LIVE r, 13, 1⟩
def POL_RULE_CFG.IRQ (r : Nat) : Fld := ⟨POL_RULE_CFG r, 14, 1⟩
def POL_RULE_CFG.IRQ_L (r : Nat) : Fld := ⟨POL_RULE_CFG_LIVE r, 14, 1⟩
def POL_RULE_CFG.WAKE (r : Nat) : Fld := ⟨POL_RULE_CFG r, 15, 1⟩
def POL_RULE_CFG.WAKE_L (r : Nat) : Fld := ⟨POL_RULE_CFG_LIVE r, 15, 1⟩
def POL_RULE_CFG.OUT_PIN (r : Nat) : Fld := ⟨POL_RULE_CFG r, 16, 3⟩
def POL_RULE_CFG.OUT_PIN_L (r : Nat) : Fld := ⟨POL_RULE_CFG_LIVE r, 16, 3⟩
def POL_RULE_CFG.OUT_MODE (r : Nat) : Fld := ⟨POL_RULE_CFG r, 19, 2⟩
def POL_RULE_CFG.OUT_MODE_L (r : Nat) : Fld := ⟨POL_RULE_CFG_LIVE r, 19, 2⟩
def POL_RULE_CFG.ANYMODE (r : Nat) : Fld := ⟨POL_RULE_CFG r, 21, 1⟩
def POL_RULE_CFG.ANYMODE_L (r : Nat) : Fld := ⟨POL_RULE_CFG_LIVE r, 21, 1⟩
/-- spec/16_polder_island.md, register POL_RULE_THR. -/
def POL_RULE_THR (r : Nat) : Nat := 0x30000404 + r * 0x10
def POL_RULE_THR_LIVE (r : Nat) : Nat := POL_RULE_THR r + 0x4000
def POL_RULE_THR.THR (r : Nat) : Fld := ⟨POL_RULE_THR r, 0, 16⟩
def POL_RULE_THR.THR_L (r : Nat) : Fld := ⟨POL_RULE_THR_LIVE r, 0, 16⟩
def POL_RULE_THR.HYST (r : Nat) : Fld := ⟨POL_RULE_THR r, 16, 16⟩
def POL_RULE_THR.HYST_L (r : Nat) : Fld := ⟨POL_RULE_THR_LIVE r, 16, 16⟩
/-- spec/16_polder_island.md, register POL_RULE_STAT. -/
def POL_RULE_STAT (r : Nat) : Nat := 0x30000408 + r * 0x10
def POL_RULE_STAT.ACTIVE (r : Nat) : Fld := ⟨POL_RULE_STAT r, 0, 1⟩
def POL_RULE_STAT.COUNT (r : Nat) : Fld := ⟨POL_RULE_STAT r, 1, 4⟩
/-- spec/16_polder_island.md, register POL_THR_AUTH. -/
def POL_THR_AUTH : Nat := 0x30000600
def POL_THR_AUTH_LIVE : Nat := POL_THR_AUTH + 0xc
def POL_THR_AUTH.MODE : Fld := ⟨POL_THR_AUTH, 0, 2⟩
def POL_THR_AUTH.MODE_L : Fld := ⟨POL_THR_AUTH_LIVE, 0, 2⟩
def POL_THR_AUTH.CONFLICT_IE : Fld := ⟨POL_THR_AUTH, 4, 1⟩
def POL_THR_AUTH.CONFLICT_IE_L : Fld := ⟨POL_THR_AUTH_LIVE, 4, 1⟩
/-- spec/16_polder_island.md, register POL_THR_AUTH_STAT. -/
def POL_THR_AUTH_STAT : Nat := 0x30000604
def POL_THR_AUTH_STAT.OVERRIDE : Fld := ⟨POL_THR_AUTH_STAT, 0, 1⟩
def POL_THR_AUTH_STAT.AT_BOUND : Fld := ⟨POL_THR_AUTH_STAT, 1, 2⟩
def POL_THR_AUTH_STAT.SAFE_ACT : Fld := ⟨POL_THR_AUTH_STAT, 3, 1⟩
def POL_THR_AUTH_STAT.CONFLICT_SEEN : Fld := ⟨POL_THR_AUTH_STAT, 4, 1⟩
/-- spec/16_polder_island.md, register POL_THR_AUTH_CNT. -/
def POL_THR_AUTH_CNT : Nat := 0x30000608
def POL_THR_AUTH_CNT.CONFLICT : Fld := ⟨POL_THR_AUTH_CNT, 0, 16⟩
/-- spec/16_polder_island.md, register POL_THR_LOW. -/
def POL_THR_LOW : Nat := 0x30000610
def POL_THR_LOW_LIVE : Nat := POL_THR_LOW + 0x10
def POL_THR_LOW.V : Fld := ⟨POL_THR_LOW, 0, 16⟩
def POL_THR_LOW.V_L : Fld := ⟨POL_THR_LOW_LIVE, 0, 16⟩
/-- spec/16_polder_island.md, register POL_THR_HIGH. -/
def POL_THR_HIGH : Nat := 0x30000614
def POL_THR_HIGH_LIVE : Nat := POL_THR_HIGH + 0x10
def POL_THR_HIGH.V : Fld := ⟨POL_THR_HIGH, 0, 16⟩
def POL_THR_HIGH.V_L : Fld := ⟨POL_THR_HIGH_LIVE, 0, 16⟩
/-- spec/16_polder_island.md, register POL_THR_PIN. -/
def POL_THR_PIN : Nat := 0x30000618
def POL_THR_PIN_LIVE : Nat := POL_THR_PIN + 0x10
def POL_THR_PIN.V : Fld := ⟨POL_THR_PIN, 0, 16⟩
def POL_THR_PIN.V_L : Fld := ⟨POL_THR_PIN_LIVE, 0, 16⟩
/-- spec/16_polder_island.md, register POL_THR_HINT. -/
def POL_THR_HINT : Nat := 0x3000061c
def POL_THR_HINT.V : Fld := ⟨POL_THR_HINT, 0, 16⟩
def POL_THR_HINT.EN : Fld := ⟨POL_THR_HINT, 16, 1⟩
/-- spec/16_polder_island.md, register POL_THR_CFG. -/
def POL_THR_CFG : Nat := 0x3000062c
def POL_THR_CFG_LIVE : Nat := POL_THR_CFG + 0x4000
def POL_THR_CFG.REF : Fld := ⟨POL_THR_CFG, 0, 2⟩
def POL_THR_CFG.REF_L : Fld := ⟨POL_THR_CFG_LIVE, 0, 2⟩
def POL_THR_CFG.DIR : Fld := ⟨POL_THR_CFG, 2, 1⟩
def POL_THR_CFG.DIR_L : Fld := ⟨POL_THR_CFG_LIVE, 2, 1⟩
def POL_THR_CFG.REF_EN : Fld := ⟨POL_THR_CFG, 3, 1⟩
def POL_THR_CFG.REF_EN_L : Fld := ⟨POL_THR_CFG_LIVE, 3, 1⟩
def POL_THR_CFG.SLEW : Fld := ⟨POL_THR_CFG, 4, 12⟩
def POL_THR_CFG.SLEW_L : Fld := ⟨POL_THR_CFG_LIVE, 4, 12⟩
/-- spec/16_polder_island.md, register POL_THR_MARGIN. -/
def POL_THR_MARGIN : Nat := 0x30000630
def POL_THR_MARGIN_LIVE : Nat := POL_THR_MARGIN + 0x4000
def POL_THR_MARGIN.V : Fld := ⟨POL_THR_MARGIN, 0, 16⟩
def POL_THR_MARGIN.V_L : Fld := ⟨POL_THR_MARGIN_LIVE, 0, 16⟩
/-- spec/16_polder_island.md, register POL_THR_MON. -/
def POL_THR_MON : Nat := 0x30000634
def POL_THR_MON.T_A : Fld := ⟨POL_THR_MON, 0, 16⟩
/-- spec/16_polder_island.md, register POL_TRIP_STAT. -/
def POL_TRIP_STAT : Nat := 0x30000700
def POL_TRIP_STAT.TRIPPED : Fld := ⟨POL_TRIP_STAT, 0, 1⟩
def POL_TRIP_STAT.CAUSE : Fld := ⟨POL_TRIP_STAT, 1, 3⟩
def POL_TRIP_STAT.RULE : Fld := ⟨POL_TRIP_STAT, 4, 5⟩
def POL_TRIP_STAT.REL_REJ : Fld := ⟨POL_TRIP_STAT, 16, 1⟩
def POL_TRIP_STAT.TRIP_EVT : Fld := ⟨POL_TRIP_STAT, 17, 1⟩
/-- spec/16_polder_island.md, register POL_TRIP_CFG. -/
def POL_TRIP_CFG : Nat := 0x30000704
def POL_TRIP_CFG_LIVE : Nat := POL_TRIP_CFG + 0x4000
def POL_TRIP_CFG.ON_WDP : Fld := ⟨POL_TRIP_CFG, 0, 1⟩
def POL_TRIP_CFG.ON_WDP_L : Fld := ⟨POL_TRIP_CFG_LIVE, 0, 1⟩
def POL_TRIP_CFG.ON_STALL : Fld := ⟨POL_TRIP_CFG, 1, 1⟩
def POL_TRIP_CFG.ON_STALL_L : Fld := ⟨POL_TRIP_CFG_LIVE, 1, 1⟩
def POL_TRIP_CFG.REL_SRC : Fld := ⟨POL_TRIP_CFG, 2, 2⟩
def POL_TRIP_CFG.REL_SRC_L : Fld := ⟨POL_TRIP_CFG_LIVE, 2, 2⟩
/-- spec/16_polder_island.md, register POL_TRIP_CTL. -/
def POL_TRIP_CTL : Nat := 0x30000708
def POL_TRIP_CTL.KEY : Fld := ⟨POL_TRIP_CTL, 0, 32⟩
/-- spec/16_polder_island.md, register POL_HAND. -/
def POL_HAND : Nat := 0x30000720
def POL_HAND.MODE : Fld := ⟨POL_HAND, 0, 1⟩
def POL_HAND.REQ : Fld := ⟨POL_HAND, 1, 1⟩
def POL_HAND.REQ_SRC : Fld := ⟨POL_HAND, 2, 3⟩
/-- spec/16_polder_island.md, register POL_HAND_CTL. -/
def POL_HAND_CTL : Nat := 0x30000724
def POL_HAND_CTL.KEY : Fld := ⟨POL_HAND_CTL, 0, 32⟩
/-- spec/16_polder_island.md, register POL_WAKE_CFG. -/
def POL_WAKE_CFG : Nat := 0x30000728
def POL_WAKE_CFG.EN : Fld := ⟨POL_WAKE_CFG, 0, 1⟩
def POL_WAKE_CFG.FALLING : Fld := ⟨POL_WAKE_CFG, 1, 1⟩
/-- spec/16_polder_island.md, register POL_PGPIO_DIR. -/
def POL_PGPIO_DIR : Nat := 0x30000740
def POL_PGPIO_DIR.PINS : Fld := ⟨POL_PGPIO_DIR, 0, 8⟩
/-- spec/16_polder_island.md, register POL_PGPIO_OUT. -/
def POL_PGPIO_OUT : Nat := 0x30000744
def POL_PGPIO_OUT.PINS : Fld := ⟨POL_PGPIO_OUT, 0, 8⟩
/-- spec/16_polder_island.md, register POL_PGPIO_IN. -/
def POL_PGPIO_IN : Nat := 0x30000748
def POL_PGPIO_IN.PINS : Fld := ⟨POL_PGPIO_IN, 0, 8⟩
/-- spec/16_polder_island.md, register POL_PGPIO_EDGE. -/
def POL_PGPIO_EDGE : Nat := 0x3000074c
def POL_PGPIO_EDGE.EN : Fld := ⟨POL_PGPIO_EDGE, 0, 8⟩
def POL_PGPIO_EDGE.EVT : Fld := ⟨POL_PGPIO_EDGE, 8, 8⟩
/-- spec/16_polder_island.md, register POL_MBX_TO_MAIN. -/
def POL_MBX_TO_MAIN (i : Nat) : Nat := 0x30000780 + i * 0x4
def POL_MBX_TO_MAIN.DATA (i : Nat) : Fld := ⟨POL_MBX_TO_MAIN i, 0, 32⟩
/-- spec/16_polder_island.md, register POL_MBX_TO_POL. -/
def POL_MBX_TO_POL (i : Nat) : Nat := 0x300007a0 + i * 0x4
def POL_MBX_TO_POL.DATA (i : Nat) : Fld := ⟨POL_MBX_TO_POL i, 0, 32⟩
/-- spec/16_polder_island.md, register POL_MBX_CTL. -/
def POL_MBX_CTL : Nat := 0x300007c0
def POL_MBX_CTL.MAIN_DB : Fld := ⟨POL_MBX_CTL, 0, 1⟩
def POL_MBX_CTL.POL_DB : Fld := ⟨POL_MBX_CTL, 1, 1⟩
/-- spec/16_polder_island.md, register POL_LOG_CFG. -/
def POL_LOG_CFG : Nat := 0x30000800
def POL_LOG_CFG.EN : Fld := ⟨POL_LOG_CFG, 0, 1⟩
def POL_LOG_CFG.WRAP : Fld := ⟨POL_LOG_CFG, 1, 1⟩
def POL_LOG_CFG.DRAIN_EN : Fld := ⟨POL_LOG_CFG, 2, 1⟩
def POL_LOG_CFG.DRAIN_WAKE : Fld := ⟨POL_LOG_CFG, 3, 1⟩
def POL_LOG_CFG.STREAM : Fld := ⟨POL_LOG_CFG, 4, 4⟩
/-- spec/16_polder_island.md, register POL_LOG_RING. -/
def POL_LOG_RING : Nat := 0x30000804
def POL_LOG_RING.BASE : Fld := ⟨POL_LOG_RING, 0, 9⟩
def POL_LOG_RING.SIZE : Fld := ⟨POL_LOG_RING, 16, 10⟩
/-- spec/16_polder_island.md, register POL_LOG_WAKE_LVL. -/
def POL_LOG_WAKE_LVL : Nat := 0x30000808
def POL_LOG_WAKE_LVL.COUNT : Fld := ⟨POL_LOG_WAKE_LVL, 0, 10⟩
/-- spec/16_polder_island.md, register POL_LOG_HEAD. -/
def POL_LOG_HEAD : Nat := 0x3000080c
def POL_LOG_HEAD.ISEQ : Fld := ⟨POL_LOG_HEAD, 0, 32⟩
/-- spec/16_polder_island.md, register POL_LOG_TAIL. -/
def POL_LOG_TAIL : Nat := 0x30000810
def POL_LOG_TAIL.ISEQ : Fld := ⟨POL_LOG_TAIL, 0, 32⟩
/-- spec/16_polder_island.md, register POL_LOG_DROPPED. -/
def POL_LOG_DROPPED : Nat := 0x30000814
def POL_LOG_DROPPED.COUNT : Fld := ⟨POL_LOG_DROPPED, 0, 16⟩
/-- spec/16_polder_island.md, register POL_LOG_DATA. -/
def POL_LOG_DATA (i : Nat) : Nat := 0x30000820 + i * 0x4
def POL_LOG_DATA.DATA (i : Nat) : Fld := ⟨POL_LOG_DATA i, 0, 32⟩
/-- spec/16_polder_island.md, register POL_LOG_PUSH. -/
def POL_LOG_PUSH : Nat := 0x30000840
def POL_LOG_PUSH.KEY : Fld := ⟨POL_LOG_PUSH, 0, 32⟩
/-- spec/16_polder_island.md, register POL_PU_CFG. -/
def POL_PU_CFG : Nat := 0x30000900
def POL_PU_CFG.EN : Fld := ⟨POL_PU_CFG, 0, 1⟩
def POL_PU_CFG.CLKSRC : Fld := ⟨POL_PU_CFG, 1, 2⟩
def POL_PU_CFG.OS : Fld := ⟨POL_PU_CFG, 3, 1⟩
def POL_PU_CFG.DATA : Fld := ⟨POL_PU_CFG, 4, 4⟩
def POL_PU_CFG.PARITY : Fld := ⟨POL_PU_CFG, 8, 3⟩
def POL_PU_CFG.STOP2 : Fld := ⟨POL_PU_CFG, 11, 1⟩
def POL_PU_CFG.FLOW : Fld := ⟨POL_PU_CFG, 12, 1⟩
/-- spec/16_polder_island.md, register POL_PU_BAUD. -/
def POL_PU_BAUD : Nat := 0x30000904
def POL_PU_BAUD.DIV : Fld := ⟨POL_PU_BAUD, 0, 16⟩
def POL_PU_BAUD.FRAC : Fld := ⟨POL_PU_BAUD, 16, 6⟩
/-- spec/16_polder_island.md, register POL_PU_DATA. -/
def POL_PU_DATA : Nat := 0x30000908
def POL_PU_DATA.DATA : Fld := ⟨POL_PU_DATA, 0, 9⟩
def POL_PU_DATA.PE : Fld := ⟨POL_PU_DATA, 9, 1⟩
def POL_PU_DATA.FE : Fld := ⟨POL_PU_DATA, 10, 1⟩
def POL_PU_DATA.BRK : Fld := ⟨POL_PU_DATA, 11, 1⟩
def POL_PU_DATA.EMPTY : Fld := ⟨POL_PU_DATA, 31, 1⟩
/-- spec/16_polder_island.md, register POL_PU_FIFO. -/
def POL_PU_FIFO : Nat := 0x3000090c
def POL_PU_FIFO.RXLVL : Fld := ⟨POL_PU_FIFO, 0, 6⟩
def POL_PU_FIFO.TXLVL : Fld := ⟨POL_PU_FIFO, 8, 6⟩
def POL_PU_FIFO.RXTHR : Fld := ⟨POL_PU_FIFO, 16, 5⟩
def POL_PU_FIFO.TXTHR : Fld := ⟨POL_PU_FIFO, 24, 5⟩
/-- spec/16_polder_island.md, register POL_PU_STAT. -/
def POL_PU_STAT : Nat := 0x30000910
def POL_PU_STAT.TXIDLE : Fld := ⟨POL_PU_STAT, 0, 1⟩
def POL_PU_STAT.RXIDLE : Fld := ⟨POL_PU_STAT, 1, 1⟩
def POL_PU_STAT.OVR : Fld := ⟨POL_PU_STAT, 2, 1⟩
def POL_PU_STAT.TXOVR : Fld := ⟨POL_PU_STAT, 3, 1⟩
def POL_PU_STAT.PE_SEEN : Fld := ⟨POL_PU_STAT, 4, 1⟩
def POL_PU_STAT.FE_SEEN : Fld := ⟨POL_PU_STAT, 5, 1⟩
def POL_PU_STAT.BRK_SEEN : Fld := ⟨POL_PU_STAT, 6, 1⟩
def POL_PU_STAT.RXTO : Fld := ⟨POL_PU_STAT, 7, 1⟩
def POL_PU_STAT.GLITCH : Fld := ⟨POL_PU_STAT, 8, 1⟩
def POL_PU_STAT.CFG_REJ : Fld := ⟨POL_PU_STAT, 9, 1⟩
/-- spec/16_polder_island.md, register POL_PU_IE. -/
def POL_PU_IE : Nat := 0x30000914
def POL_PU_IE.STAT : Fld := ⟨POL_PU_IE, 0, 10⟩
def POL_PU_IE.RXLVL : Fld := ⟨POL_PU_IE, 16, 1⟩
def POL_PU_IE.TXLVL : Fld := ⟨POL_PU_IE, 17, 1⟩
/-- spec/16_polder_island.md, register POL_PU_CTL. -/
def POL_PU_CTL : Nat := 0x30000918
def POL_PU_CTL.BREAK : Fld := ⟨POL_PU_CTL, 0, 1⟩
def POL_PU_CTL.RXFLUSH : Fld := ⟨POL_PU_CTL, 1, 1⟩
def POL_PU_CTL.TXFLUSH : Fld := ⟨POL_PU_CTL, 2, 1⟩
/-- spec/16_polder_island.md, register POL_PU_TOUT. -/
def POL_PU_TOUT : Nat := 0x3000091c
def POL_PU_TOUT.BITS : Fld := ⟨POL_PU_TOUT, 0, 8⟩
/-- spec/16_polder_island.md, register POL_PU_OWNER. -/
def POL_PU_OWNER : Nat := 0x30000920
def POL_PU_OWNER_LIVE : Nat := POL_PU_OWNER + 0x4
def POL_PU_OWNER.TID : Fld := ⟨POL_PU_OWNER, 0, 7⟩
def POL_PU_OWNER.TID_L : Fld := ⟨POL_PU_OWNER_LIVE, 0, 7⟩
/-- spec/16_polder_island.md, register POL_WDP_CTL. -/
def POL_WDP_CTL : Nat := 0x30000a00
def POL_WDP_CTL.EN : Fld := ⟨POL_WDP_CTL, 0, 1⟩
/-- spec/16_polder_island.md, register POL_WDP_LOAD. -/
def POL_WDP_LOAD : Nat := 0x30000a04
def POL_WDP_LOAD.VALUE : Fld := ⟨POL_WDP_LOAD, 0, 24⟩
/-- spec/16_polder_island.md, register POL_WDP_KICK. -/
def POL_WDP_KICK : Nat := 0x30000a08
def POL_WDP_KICK.KEY : Fld := ⟨POL_WDP_KICK, 0, 32⟩
/-- spec/16_polder_island.md, register POL_WDP_COUNT. -/
def POL_WDP_COUNT : Nat := 0x30000a0c
def POL_WDP_COUNT.VALUE : Fld := ⟨POL_WDP_COUNT, 0, 24⟩

/-- Register rows of POL, part 0. -/
def rowsPOL0 : List RegRow := [
  ⟨0x0, 1, 0x4, 1, 0x4, 0, 0, 0x2, 0, 0x1c, 0, 0, 0, 0, 0, 0x43, 0⟩,
  ⟨0x4, 1, 0x4, 1, 0x4, 0, 0, 0x1, 0, 0, 0, 0, 0, 0, 0, 0x7, 0⟩,
  ⟨0x8, 1, 0x4, 1, 0x4, 0, 0, 0, 0, 0, 0, 0, 0, 0, 0xffffffff, 0, 0⟩,
  ⟨0xc, 1, 0x4, 1, 0x4, 0, 0, 0x30100000, 0xffffffff, 0, 0, 0, 0, 0, 0, 0, 0⟩,
  ⟨0x10, 1, 0x4, 1, 0x4, 0, 0, 0x30108000, 0xffffffff, 0, 0, 0, 0, 0, 0, 0, 0⟩,
  ⟨0x14, 1, 0x4, 1, 0x4, 0, 0, 0x30100000, 0xffffffff, 0, 0, 0, 0, 0, 0, 0, 0⟩,
  ⟨0x18, 1, 0x4, 1, 0x4, 0, 0, 0, 0x3ff, 0, 0, 0, 0, 0, 0, 0, 0⟩,
  ⟨0x1c, 1, 0x4, 1, 0x4, 0, 0, 0, 0, 0, 0, 0, 0, 0, 0, 0x3ff, 0⟩,
  ⟨0x20, 1, 0x4, 1, 0x4, 0, 0, 0, 0xf, 0, 0, 0, 0, 0, 0, 0, 0⟩,
  ⟨0x30, 1, 0x4, 1, 0x4, 0, 0, 0, 0, 0, 0, 0, 0, 0, 0, 0x1ff, 0⟩,
  ⟨0x60, 1, 0x4, 1, 0x4, 0, 0, 0, 0, 0xffffffff, 0, 0, 0, 0, 0, 0, 0⟩,
  ⟨0x64, 1, 0x4, 1, 0x4, 0, 0, 0, 0, 0, 0, 0, 0, 0, 0, 0xffffffff, 0⟩,
  ⟨0x100, 1, 0x4, 1, 0x4, 0x4000, 7, 0x800002, 0, 0, 0, 0, 0xffffff3f, 0, 0, 0, 0⟩,
  ⟨0x140, 16, 0x4, 1, 0x4, 0x4000, 7, 0, 0, 0, 0, 0, 0xf, 0, 0, 0, 0⟩,
  ⟨0x180, 16, 0x4, 1, 0x4, 0, 0, 0, 0, 0, 0, 0, 0, 0, 0, 0xfff, 0⟩,
  ⟨0x200, 4, 0x20, 1, 0x20, 0x4000, 7, 0, 0, 0, 0, 0, 0x1f, 0, 0, 0, 0⟩]

/-- Register rows of POL, part 1. -/
def rowsPOL1 : List RegRow := [
  ⟨0x204, 4, 0x20, 1, 0x20, 0x4000, 7, 0x4000, 0, 0, 0, 0, 0xffffffff, 0, 0, 0, 0⟩,
  ⟨0x208, 4, 0x20, 1, 0x20, 0x4000, 7, 0, 0, 0, 0, 0, 0xffffffff, 0, 0, 0, 0⟩,
  ⟨0x20c, 4, 0x20, 1, 0x20, 0x4000, 7, 0, 0, 0, 0, 0, 0xffff, 0, 0, 0, 0⟩,
  ⟨0x210, 4, 0x20, 1, 0x20, 0, 0, 0, 0, 0, 0, 0, 0, 0, 0, 0xffff, 0⟩,
  ⟨0x214, 4, 0x20, 1, 0x20, 0, 0, 0, 0, 0, 0, 0, 0, 0, 0x1, 0, 0⟩,
  ⟨0x400, 32, 0x10, 1, 0x10, 0x4000, 7, 0, 0, 0, 0, 0, 0x3fffff, 0, 0, 0, 0⟩,
  ⟨0x404, 32, 0x10, 1, 0x10, 0x4000, 7, 0, 0, 0, 0, 0, 0xffffffff, 0, 0, 0, 0⟩,
  ⟨0x408, 32, 0x10, 1, 0x10, 0, 0, 0, 0, 0, 0, 0, 0, 0, 0, 0x1f, 0⟩,
  ⟨0x600, 1, 0x4, 1, 0x4, 0xc, 7, 0, 0, 0, 0, 0, 0x13, 0, 0, 0, 0⟩,
  ⟨0x604, 1, 0x4, 1, 0x4, 0, 0, 0, 0, 0x11, 0, 0, 0, 0, 0, 0xe, 0⟩,
  ⟨0x608, 1, 0x4, 1, 0x4, 0, 0, 0, 0xffff, 0, 0, 0, 0, 0, 0, 0, 0⟩,
  ⟨0x610, 1, 0x4, 1, 0x4, 0x10, 7, 0, 0, 0, 0, 0, 0xffff, 0, 0, 0, 0⟩,
  ⟨0x614, 1, 0x4, 1, 0x4, 0x10, 7, 0x7fff, 0, 0, 0, 0, 0xffff, 0, 0, 0, 0⟩,
  ⟨0x618, 1, 0x4, 1, 0x4, 0x10, 7, 0x7fff, 0, 0, 0, 0, 0xffff, 0, 0, 0, 0⟩,
  ⟨0x61c, 1, 0x4, 1, 0x4, 0, 0, 0, 0x1ffff, 0, 0, 0, 0, 0, 0, 0, 0⟩,
  ⟨0x62c, 1, 0x4, 1, 0x4, 0x4000, 7, 0x10, 0, 0, 0, 0, 0xffff, 0, 0, 0, 0⟩]

/-- Register rows of POL, part 2. -/
def rowsPOL2 : List RegRow := [
  ⟨0x630, 1, 0x4, 1, 0x4, 0x4000, 7, 0, 0, 0, 0, 0, 0xffff, 0, 0, 0, 0⟩,
  ⟨0x634, 1, 0x4, 1, 0x4, 0, 0, 0, 0, 0, 0, 0, 0, 0, 0, 0xffff, 0⟩,
  ⟨0x700, 1, 0x4, 1, 0x4, 0, 0, 0x2000f, 0, 0x30000, 0, 0, 0, 0, 0, 0x1ff, 0⟩,
  ⟨0x704, 1, 0x4, 1, 0x4, 0x4000, 7, 0x7, 0, 0, 0, 0, 0xf, 0, 0, 0, 0⟩,
  ⟨0x708, 1, 0x4, 1, 0x4, 0, 0, 0, 0, 0, 0, 0, 0, 0, 0xffffffff, 0, 0⟩,
  ⟨0x720, 1, 0x4, 1, 0x4, 0, 0, 0x1, 0, 0, 0, 0, 0, 0, 0, 0x1f, 0⟩,
  ⟨0x724, 1, 0x4, 1, 0x4, 0, 0, 0, 0, 0, 0, 0, 0, 0, 0xffffffff, 0, 0⟩,
  ⟨0x728, 1, 0x4, 1, 0x4, 0, 0, 0, 0x3, 0, 0, 0, 0, 0, 0, 0, 0⟩,
  ⟨0x740, 1, 0x4, 1, 0x4, 0, 0, 0, 0xff, 0, 0, 0, 0, 0, 0, 0, 0⟩,
  ⟨0x744, 1, 0x4, 1, 0x4, 0, 0, 0, 0xff, 0, 0, 0, 0, 0, 0, 0, 0⟩,
  ⟨0x748, 1, 0x4, 1, 0x4, 0, 0, 0, 0, 0, 0, 0, 0, 0, 0, 0xff, 0⟩,
  ⟨0x74c, 1, 0x4, 1, 0x4, 0, 0, 0, 0xff, 0xff00, 0, 0, 0, 0, 0, 0, 0⟩,
  ⟨0x780, 8, 0x4, 1, 0x4, 0, 0, 0, 0xffffffff, 0, 0, 0, 0, 0, 0, 0, 0⟩,
  ⟨0x7a0, 8, 0x4, 1, 0x4, 0, 0, 0, 0xffffffff, 0, 0, 0, 0, 0, 0, 0, 0⟩,
  ⟨0x7c0, 1, 0x4, 1, 0x4, 0, 0, 0, 0, 0, 0, 0, 0, 0, 0, 0x3, 0⟩,
  ⟨0x800, 1, 0x4, 1, 0x4, 0, 0, 0, 0xff, 0, 0, 0, 0, 0, 0, 0, 0⟩]

/-- Register rows of POL, part 3. -/
def rowsPOL3 : List RegRow := [
  ⟨0x804, 1, 0x4, 1, 0x4, 0, 0, 0x10000, 0x3ff01ff, 0, 0, 0, 0, 0, 0, 0, 0⟩,
  ⟨0x808, 1, 0x4, 1, 0x4, 0, 0, 0, 0x3ff, 0, 0, 0, 0, 0, 0, 0, 0⟩,
  ⟨0x80c, 1, 0x4, 1, 0x4, 0, 0, 0, 0, 0, 0, 0, 0, 0, 0, 0xffffffff, 0⟩,
  ⟨0x810, 1, 0x4, 1, 0x4, 0, 0, 0, 0, 0, 0, 0, 0, 0, 0, 0xffffffff, 0⟩,
  ⟨0x814, 1, 0x4, 1, 0x4, 0, 0, 0, 0, 0, 0, 0xffff, 0, 0, 0, 0, 0⟩,
  ⟨0x820, 8, 0x4, 1, 0x4, 0, 0, 0, 0xffffffff, 0, 0, 0, 0, 0, 0, 0, 0⟩,
  ⟨0x840, 1, 0x4, 1, 0x4, 0, 0, 0, 0, 0, 0, 0, 0, 0, 0xffffffff, 0, 0⟩,
  ⟨0x900, 1, 0x4, 1, 0x4, 0, 0, 0x80, 0x1fff, 0, 0, 0, 0, 0, 0, 0, 0⟩,
  ⟨0x904, 1, 0x4, 1, 0x4, 0, 0, 0x1, 0x3fffff, 0, 0, 0, 0, 0, 0, 0, 0⟩,
  ⟨0x908, 1, 0x4, 1, 0x4, 0, 0, 0, 0x1ff, 0, 0, 0, 0, 0, 0, 0x80000e00, 0⟩,
  ⟨0x90c, 1, 0x4, 1, 0x4, 0, 0, 0x10100000, 0x1f1f0000, 0, 0, 0, 0, 0, 0, 0x3f3f, 0⟩,
  ⟨0x910, 1, 0x4, 1, 0x4, 0, 0, 0x3, 0, 0x3fc, 0, 0, 0, 0, 0, 0x3, 0⟩,
  ⟨0x914, 1, 0x4, 1, 0x4, 0, 0, 0, 0x303ff, 0, 0, 0, 0, 0, 0, 0, 0⟩,
  ⟨0x918, 1, 0x4, 1, 0x4, 0, 0, 0, 0x1, 0, 0, 0, 0, 0, 0x6, 0, 0⟩,
  ⟨0x91c, 1, 0x4, 1, 0x4, 0, 0, 0, 0xff, 0, 0, 0, 0, 0, 0, 0, 0⟩,
  ⟨0x920, 1, 0x4, 1, 0x4, 0x4, 1, 0, 0, 0, 0, 0, 0x7f, 0, 0, 0, 0⟩]

/-- Register rows of POL, part 4. -/
def rowsPOL4 : List RegRow := [
  ⟨0xa00, 1, 0x4, 1, 0x4, 0, 0, 0, 0x1, 0, 0, 0, 0, 0, 0, 0, 0⟩,
  ⟨0xa04, 1, 0x4, 1, 0x4, 0, 0, 0xffffff, 0xffffff, 0, 0, 0, 0, 0, 0, 0, 0⟩,
  ⟨0xa08, 1, 0x4, 1, 0x4, 0, 0, 0, 0, 0, 0, 0, 0, 0, 0xffffffff, 0, 0⟩,
  ⟨0xa0c, 1, 0x4, 1, 0x4, 0, 0, 0xffffff, 0, 0, 0, 0, 0, 0, 0, 0xffffff, 0⟩]

/-- The window base and the register rows of the block that address `a` lies in (R23, R24). -/
def blockOf (a : Nat) : Nat × List RegRow :=
  match a / 0x10000 with
  | 0x2000 => (0x20000000, rowsSYS0)
  | 0x2001 => (0x20010000, rowsPWR0)
  | 0x2002 => (0x20020000, rowsCLK0 ++ rowsCLK1)
  | 0x2003 => (0x20030000, rowsLCS0)
  | 0x2004 => (0x20040000, rowsINTC0)
  | 0x2005 => (0x20050000, rowsTEN0)
  | 0x2006 => (0x20060000, rowsHUB0)
  | 0x2007 => (0x20070000, rowsMRC0 ++ rowsMRC1)
  | 0x2008 => (0x20080000, rowsDDR0)
  | 0x2009 => (0x20090000, rowsLAC0 ++ rowsLAC1)
  | 0x200a => (0x200a0000, rowsPE0 ++ rowsPE1)
  | 0x200b => (0x200b0000, rowsADC0 ++ rowsADC1 ++ rowsADC2)
  | 0x200c => (0x200c0000, rowsAOUT0 ++ rowsAOUT1)
  | 0x200d => (0x200d0000, rowsTMR0 ++ rowsTMR1 ++ rowsTMR2 ++ rowsTMR3)
  | 0x200e => (0x200e0000, rowsUART0)
  | 0x200f => (0x200f0000, rowsCAN0)
  | 0x2010 => (0x20100000, rowsSPI0)
  | 0x2011 => (0x20110000, rowsI2C0)
  | 0x2012 => (0x20120000, rowsXSPI0)
  | 0x2013 => (0x20130000, rowsETH0 ++ rowsETH1 ++ rowsETH2)
  | 0x2014 => (0x20130000, rowsETH0 ++ rowsETH1 ++ rowsETH2)
  | 0x2015 => (0x20150000, rowsTWIN0 ++ rowsTWIN1 ++ rowsTWIN2)
  | 0x2016 => (0x20160000, rowsCMT0)
  | 0x2017 => (0x20170000, rowsDBG0 ++ rowsDBG1)
  | 0x2018 => (0x20180000, rowsBIST0)
  | 0x2019 => (0x20190000, rowsGPIO0)
  | 0x3000 => (0x30000000, rowsPOL0 ++ rowsPOL1 ++ rowsPOL2 ++ rowsPOL3 ++ rowsPOL4)
  | _ => (0, [])

/-- The row that lists address `a`, and whether `a` is its _LIVE twin; none for a reserved offset (R16). -/
def rowOf (a : Nat) : Option (RegRow × Bool) :=
  let b := blockOf a
  match b.2.find? (fun r => r.hits (a - b.1) 0) with
  | some r => some (r, false)
  | none =>
    match b.2.find? (fun r => r.live != 0 && r.hits (a - b.1) r.live) with
    | some r => some (r, true)
    | none => none

/-- What a register nothing has written reads as: the reset column of its table (R17); a field marked launch, ret, fixed or
latched is 0 here (log entries 4, 5 and 6), and a reserved offset reads 0 (R16). The audit stream LS15 has fixed settings
(R194); a new part is BLANK with an empty audit log (log entry 6). -/
def resetWord (a : Nat) : BitVec 32 :=
  if a = MRC_LS_CFG 15 then 1 else if a = MRC_LS_BASE 15 then 0x00FC0000 else if a = MRC_LS_SIZE 15 then 3072
  else if a = LCS_STATE then 1 else if a = LCS_AUDIT_STAT then 3072
  else match rowOf a with
  | some (r, false) => BitVec.ofNat 32 r.reset
  | some (r, true) => BitVec.ofNat 32 (r.reset &&& r.sh)
  | none => 0

end Sys2Proof.Machine
end

