-- ==== Sys2Proof/Machine/State.lean ====
section
/-! DEFINITION. The state of the part as plain data, and its value before power is ever applied. Registers are words in one
sparse table by physical address; what the spec gives a block beside its registers stands in the structures below. -/

namespace Sys2Proof.Machine

/-! ### Cores (spec/06_cores.md, spec/07_instruction_sets.md) -/

/-- Whether a core issues instructions. -/
inductive RunState where
  /-- held in reset (R69, R139) -/
  | held
  /-- executing -/
  | running
  /-- stopped by WAIT (R139, R175) -/
  | waiting
  /-- halted by a debugger (R446) -/
  | halted
  /-- stopped by an exception inside the DOUBLE_FAULT handler (R145) -/
  | lockup
  /-- in the ROM wait loop after a failed launch (R117) -/
  | romWait
  deriving DecidableEq, Repr

/-- Values that SSTAT, TID and EPROG take at RUN, with what SSTAT.EXL makes of the DOUBLE_FAULT handler (R145, R448). -/
structure AtRun where
  sstat : Word
  inDF : Bool
  tid : BitVec 7
  eprog : Word
  deriving DecidableEq, Repr

structure Core where
  /-- G0 to G31; entry 0 is never read or written and entry 2 stands for no register (G2 is banked), spec/06_cores.md R137; reset 0 (DESIGN CHOICE, log entry 7; R116 sets them to 0 at launch end) -/
  g : Vector Word 32 := Vector.replicate 32 0
  /-- the user bank of G2 (R137, special register 8); reset 0 -/
  usp : Word := 0
  /-- the supervisor bank of G2 (R137, special register 9); reset launch, 0 before (DESIGN CHOICE, log entry 4) -/
  ssp : Word := 0
  /-- F0 to F31 (R137, R173); reset 0 (DESIGN CHOICE, log entry 7) -/
  f : Vector DWord 32 := Vector.replicate 32 0
  /-- the FPU status register (R174); reset 0 -/
  fsr : Word := 0
  /-- SSTAT, special register 0 (R137 to R145); reset MODE = 1, all else 0 -/
  sstat : Word := 1
  /-- EPC, special register 1; reset 0 -/
  epc : Word := 0
  /-- ECAUSE, special register 2; reset 0 -/
  ecause : Word := 0
  /-- EADDR, special register 3; reset 0 -/
  eaddr : Word := 0
  /-- EPROG, special register 4 (R147, R148); reset 0 -/
  eprog : Word := 0
  /-- TID, special register 5: 7 bits; reset 0 -/
  tid : BitVec 7 := 0
  /-- SLC_BASE, special register 6 (R151); reset 0 -/
  slcBase : Word := 0
  /-- VBASE, special register 7 (R140); reset launch, 0 before (DESIGN CHOICE, log entry 4) -/
  vbase : Word := 0
  /-- the address of the next instruction (R116, R165); reset launch, 0 before (DESIGN CHOICE, log entry 4) -/
  pc : Word := 0
  /-- the reservation: the 64-byte line it holds (R169); reset none -/
  resv : Option Nat := none
  /-- whether the core issues instructions (R69, R117, R139, R145, R446); reset held -/
  run : RunState := .held
  /-- inside the DOUBLE_FAULT handler with EXL still 1 (R145); reset false -/
  inDF : Bool := false
  /-- the next instruction is exempt from the watchpoint or breakpoint that halted here (R447); reset false -/
  wpExempt : Bool := false
  /-- a debugger's STEP is in progress: the core halts after the next instruction or element (R447); reset false -/
  stepping : Bool := false
  /-- a halt waits for the end of the instruction whose device-space access is outstanding (R446); reset false -/
  haltReq : Bool := false
  /-- what the debugger has written to SSTAT, TID and EPROG since the halt, to act at RUN (R448); reset none -/
  atRun : Option AtRun := none
  /-- the next instruction is the first after an ERET (R148) -/
  afterEret : Bool := false
  /-- the 64-byte lines valid in the I-cache (R170, R206, R452); reset none -/
  icache : List Nat := []
  deriving DecidableEq, Repr

/-! ### The Hub and the memories (spec/08_memory.md) -/

/-- The directory's states (R203). -/
inductive DirSt where
  | invalid | clean | shared | owned | transit
  deriving DecidableEq, Repr

structure DirEnt where
  /-- the state of the line (R203); reset INVALID -/
  st : DirSt := .invalid
  /-- the agents that hold a copy: the owner alone when OWNED, the mask when SHARED (R203) -/
  holders : List Agent := []
  /-- the agent that last owned the line (R204); reset none -/
  last : Option Agent := none
  /-- the agents whose ownership requests are queued, in order of arrival (R204); reset none -/
  queue : List Agent := []
  /-- the agent that a grant has given the line and that has still to perform the access it asked for (R204); reset none -/
  owed : Option Agent := none
  /-- the entry had a parity error: the line is poisoned in the L2 (R210); reset false -/
  poisoned : Bool := false
  deriving DecidableEq, Repr

/-- A request in the append queue of the MRC (R197). -/
inductive AppendReq where
  /-- one record from a source address -/
  | addr (stream src : Nat)
  /-- a pool buffer, `done` records of it already committed -/
  | handle (stream : Nat) (hdl : Word) (done : Nat)
  /-- a record the part itself submits: an audit record (R135), a power-fail record (R199) or an island record (R391) -/
  | bytes (stream : Nat) (payload : List Byte) (islandLog : Bool)
  deriving DecidableEq, Repr

/-! ### Power (spec/02_power.md) -/

/-- Where power-up and power-down stand (R50 to R53, R59, R72). -/
inductive PwrPhase where
  /-- the 3.3 V rail is down -/
  | unpowered
  /-- CORE_EN is asserted and VCORE is not yet good (R51) -/
  | vcoreRamp
  /-- the first AVSBus transactions run (R50) -/
  | avsStart
  /-- the main domain is held in reset and will be released (R487) -/
  | resetHold
  /-- the main domain is released -/
  | up
  /-- a flush began and the supply collapsed before step 7 (R62, R488) -/
  | flushCut
  /-- step 8 of a power-fail flush is done: CORE_EN released (R60) -/
  | flushed
  /-- OFF (R72) -/
  | off
  deriving DecidableEq, Repr

/-- The sleep mode in force (R68); `emulated` is SLEEP with a debugger attached (R455). -/
inductive SleepSt where
  | run | doze | sleep | sleepEmulated
  deriving DecidableEq, Repr

/-- An AVSBus transaction: a Status read, a Voltage write, the write of 0.65 V at SLEEP entry, and that at a wake (R50, R489). -/
inductive AvsTxn where
  | status
  | write (mv : Nat)
  | sleepWrite
  | wakeWrite (mv : Nat)
  deriving DecidableEq, Repr

structure Pwr where
  /-- where power-up or power-down stands (R50 to R72); before power is applied: unpowered -/
  phase : PwrPhase := .unpowered
  /-- the CORE_EN ball (R50, R59) -/
  coreEn : Bool := false
  /-- AVSBus transactions not yet answered, oldest first (R52) -/
  avsQ : List AvsTxn := []
  /-- AVSBus failures in a row (R52) -/
  avsFails : Nat := 0
  /-- the VCORE voltage last commanded, in mV (R489) -/
  vcmd : Nat := 0
  /-- the regulator is at its own default voltage (R48, R52); reset true -/
  vdef : Bool := true
  /-- the reset whose writeback runs (R490): its cause code (R67) and whether a second cause arose with it -/
  pending : Option (Nat × Bool) := none
  /-- three AVSBus transactions in a row failed, and no Status read has succeeded since AVS_ERR was cleared (R52) -/
  avsHold : Bool := false
  /-- the rail return follows a 3.3 V brown-out with VIN present (R53) -/
  brownout : Bool := false
  /-- the sleep mode in force (R68) -/
  sleep : SleepSt := .run
  /-- line 4 is asserted (R59) -/
  line4 : Bool := false
  /-- BERM_ACTIVE, in the backup domain (R59); kept by every reset but a backup-domain reset -/
  bermActive : Bool := false
  /-- RET_LOST, in the backup domain (R65) -/
  retLost : Bool := false
  /-- the backup domain lies below the Polder brown-out threshold (R54) -/
  polderLow : Bool := false
  /-- the VCORE voltage commanded before SLEEP, in mV (R489) -/
  vKept : Nat := 0
  /-- the voltage, in mV, from which the AVS loop rose for safety while AVS_ERR holds it off (R42, R239); none while it has not -/
  avsBack : Option Nat := none
  /-- a wake from SLEEP waits for its VCORE write or for lock (R489, R81); reset false -/
  waking : Bool := false
  deriving DecidableEq, Repr

/-! ### Clocks and the timebase (spec/03_clocks.md) -/

/-- The PLL (R78 to R81). -/
inductive PllSt where
  | off | starting | locked | unlocked
  deriving DecidableEq, Repr

structure Loop where
  /-- the last demand's place against the bounds: 0 none or inside, 1 below LOW, 2 above HIGH (R41) -/
  side : Nat := 0
  /-- the most recent demand lay above HIGH (R483) -/
  above : Bool := false
  deriving DecidableEq, Repr

structure Clk where
  /-- the PLL (R78 to R81); reset off -/
  pll : PllSt := .off
  /-- the oscillator is enabled (R73) -/
  osc : Bool := false
  /-- XTAL_WAIT has passed since the oscillator was enabled (R73) -/
  xtalDone : Bool := false
  /-- the main-domain clocks run from the dividers, not from IRC (R78) -/
  onRoot : Bool := false
  /-- the throttle step AVS_DIV: 2, 3 or 4 (R82) -/
  avsDiv : Nat := 2
  /-- TB, 64 bits (R88) -/
  tb : BitVec 64 := 0
  /-- the internal fraction of TB in units of 1/128 ns: its top bit is the half nanosecond of R88, the seven bits those of R90 -/
  tbFrac : BitVec 7 := 0
  /-- TB counts (R68, R90) -/
  tbRun : Bool := false
  /-- the highest epoch number already generated; none right after a reset release (R21) -/
  epochHi : Option Nat := none
  /-- TB at SLEEP entry (R90) -/
  tbEntry : BitVec 64 := 0
  /-- F, the servo's integral term (R93) -/
  srvF : Int := 0
  /-- the servo's demand; none while it has none (R93) -/
  srvDemand : Option Int := none
  /-- consecutive samples toward the next servo state (R94) -/
  srvIn : Nat := 0
  /-- consecutive outliers in TRACK (R94) -/
  srvOut : Nat := 0
  /-- epochs since the last sample (R94) -/
  srvIdle : Nat := 0
  /-- TB at the last accepted sample; none when the servo restarts with the next sample (R93) -/
  srvLast : Option (BitVec 64) := none
  /-- XO_FAIL has set and its reset is on its way (R87); reset false -/
  xoDue : Bool := false
  /-- conflict memory of the servo loop (R41) -/
  srvLoop : Loop := {}
  /-- UNLOCK_SEEN was set by a failed wake from SLEEP, which does not assert line 10 (R81); reset false -/
  wakeUnlock : Bool := false
  deriving DecidableEq, Repr

structure Backup where
  /-- TB_SAVE (R91, R486); first power-up 0 (DESIGN CHOICE, log entry 5) -/
  tbSave : BitVec 64 := 0
  /-- LSX edges counted by the retention counter (R90, R91) -/
  retLsx : Nat := 0
  /-- IRC periods of 125 ns counted by the retention counter after LSX failed (R92) -/
  retIrc : Nat := 0
  /-- time since the last LSX edge that the retention counter counted, in units of 1/128 ns (R90); reset 0 -/
  lsxFrac : Nat := 0
  /-- retention stopped counting with IRC unpowered and LSX failed (R92) -/
  retStop : Bool := false
  /-- the LSX oscillator runs (R484); a backup-domain reset starts it -/
  lsxRun : Bool := true
  /-- the seal was torn by a collapse during a rewrite (R63) -/
  sealTorn : Bool := false
  deriving DecidableEq, Repr

/-! ### Launch (spec/04_launch.md) -/

/-- Where Crocus stands (R114). -/
inductive LaunchPhase where
  | idle
  /-- the NVM's busy bit is set (R98) -/
  | nvmBusy
  /-- before the PLL starts: XTAL_WAIT runs (R73) -/
  | xtalWait
  /-- the PLL is started (R78) -/
  | pllWait
  /-- LPDDR4 training runs (R114 step 7) -/
  | ddrTrain
  /-- the workspace is being zeroed (R114 step 14) -/
  | ending
  | done
  | failed
  deriving DecidableEq, Repr

/-- What Crocus finds out about the NVM over xSPI (R98, R99): the modes its tables list with their highest frequency in MHz
and dummy cycles, whether a quad mode may be used at the IRC stage, and whether it is above 16 MiB. -/
structure Nvm where
  signature : Bool
  busy : Bool
  modes : List (Nat × Nat × Nat)
  quadOk : Bool
  addr4 : Bool
  /-- record copies whose reading stopped responding, 0 for A and 1 for B (R110 code 0xB) -/
  dead : List Nat
  deriving DecidableEq, Repr

structure Launch where
  /-- where Crocus stands (R114) -/
  phase : LaunchPhase := .idle
  /-- the record that Crocus applies, as read into its workspace (R110, R111) -/
  record : List Byte := []
  /-- the copy it came from: false A, true B (R111) -/
  copyB : Bool := false
  /-- what Crocus found out about the NVM (R98) -/
  nvm : Nvm := ⟨false, false, [], false, false, []⟩
  /-- the LNCH_DONE ball (R116) -/
  lnchDone : Bool := false
  /-- LNCH_ERR_N is driven low (R117) -/
  lnchErr : Bool := false
  /-- the last line that Crocus sent on U0_TX (R117) -/
  u0Line : List Byte := []
  deriving DecidableEq, Repr

/-! ### Life cycle (spec/05_lifecycle.md) -/

/-- A signature check in progress (R129, R130), with what its command was given. -/
structure SigJob where
  /-- true: a debug response; false: an RTEST token -/
  resp : Bool
  tid : Nat
  fsd : Bool
  /-- the challenge that the response answers -/
  chal : List Byte
  msg : List Byte
  deriving DecidableEq, Repr

structure Lcs where
  /-- the owner key hash (R127); a new part has none (DESIGN CHOICE, log entry 6) -/
  ownerHash : Option (List Byte) := none
  /-- the debug key hash (R127); a new part has none (DESIGN CHOICE, log entry 6) -/
  debugHash : Option (List Byte) := none
  /-- the tenant root key, 32 bytes (R126, R127); a new part's is zeros (DESIGN CHOICE, log entry 6) -/
  trk : List Byte := List.replicate 32 0
  /-- calibration banks 0 and 1 as the sets written (R120, R126); a new part has none (DESIGN CHOICE, log entry 6) -/
  cal0 : List Byte := []
  cal1 : List Byte := []
  /-- factory trims: true until SCRAP removes them (R120) -/
  trims : Bool := true
  /-- the pending marker: the target state's code (R123) -/
  marker : Option Nat := none
  /-- the tail of LS15, moved only by AUDIT_RELEASE (R194) -/
  auditTail : Nat := 0
  deriving DecidableEq, Repr

structure LcsMain where
  /-- TB at the issue of the valid challenge; none when no challenge is valid (R128) -/
  chalTb : Option (BitVec 64) := none
  /-- the signature check in progress (R129, R130); reset none -/
  sig : Option SigJob := none
  /-- the transition in progress: its target state (R123) -/
  transit : Option Nat := none
  /-- a transition holds M0, M1 and the Lane Array in reset, until the reset that ends it (R123); reset false -/
  holds : Bool := false
  deriving DecidableEq, Repr

/-! ### Interrupts and commits (spec/06_cores.md, spec/18_reconfiguration.md) -/

structure Cmt where
  /-- the register table as captured at the boundary edge (R427), of which SH fields alone are used; none while no commit runs -/
  captured : Option (SMap (BitVec 32)) := none
  /-- register writes held at the register bus until a domain has switched, oldest first: domain, access, address, word (R429) -/
  heldWr : List (Nat × Access × Nat × BitVec 32) := []
  /-- the domain that switches next, 1 to 7 (R430) -/
  nextDom : Nat := 0
  /-- the mode of the running commit: true DRAIN (R432) -/
  drain : Bool := false
  /-- the running DRAIN commit was forced to roll (R433) -/
  forced : Bool := false
  /-- an arm key written while a commit runs: 1 ARM_ROLL, 2 ARM_DRAIN (R426) -/
  nextArm : Nat := 0
  /-- domains whose SH fields were written since the capture of the running commit, a bit each from 0 for TEN on (R425, R427) -/
  rewritten : Nat := 0
  /-- the registers whose staging copies were written since that capture, or since a later DISCARD (R425) -/
  words : List Nat := []
  deriving DecidableEq, Repr

/-! ### Pool Engine (spec/10_pool_engine.md) -/

/-- How a request reached the PE: a bus access that a command stands for, a load that its initiator makes again until it is answered,
or an internal port with its code in PE_FAULT_INFO.INIT. -/
inductive PeSrc where
  | bus | load
  | port (init : Nat)
  deriving DecidableEq, Repr

/-- A request that the PE holds: who made it, the offset in the operation window, and the word written (R241, R249, R259). Offset 0
is an ALLOC. An internal port's carries its TID in `acc`. -/
structure PeReq where
  acc : Access
  ofs : Nat
  word : Word
  src : PeSrc := .bus
  deriving DecidableEq, Repr

/-- A bus access by `w` that waits in the PE. -/
def PeReq.of (r : PeReq) (w : Initiator) : Bool :=
  match r.src with
  | .port _ => false
  | _ => r.acc.who == w

structure Pool where
  /-- the handles in the cache, the top first (R249); reset empty -/
  cache : List Word := []
  /-- where the ring is read next and written next, as indices below NBUF (R249); reset 0 -/
  rpos : Nat := 0
  wpos : Nat := 0
  /-- an ALLOC found the cache empty in this epoch (R258) -/
  missed : Bool := false
  /-- epochs in a row without such an ALLOC (R258) -/
  quiet : Nat := 0
  /-- a real-time ALLOC found the cache empty in this epoch (R259) -/
  rtMissed : Bool := false
  /-- epochs in a row without a real-time one (R259) -/
  rtQuiet : Nat := 0
  /-- held requests, oldest first (R241, R249, R259) -/
  held : List PeReq := []
  /-- conflict memory of the watermark loop (R41) -/
  loop : Loop := {}
  deriving DecidableEq, Repr

/-- Where the drain of the island log stands (spec/16_polder_island.md R391). -/
inductive DrainSt where
  | idle | queued | retry
  deriving DecidableEq, Repr

/-! ### The Lane Array (spec/09_lane_array.md, spec/07_instruction_sets.md) -/

/-- An entry of a group's reconvergence stack (R184). -/
structure LaneEntry where
  /-- 0 IF, 1 ELSE, 2 LOOP -/
  kind : Nat := 0
  /-- M -/
  m : Nat := 0
  /-- T of an IF, C of a LOOP -/
  t : Nat := 0
  /-- the loop start address -/
  start : Nat := 0
  deriving DecidableEq, Repr

/-- A group of lanes: group 4c + s is sub-group s of cluster c (R218). -/
structure LaneGrp where
  /-- the queue whose kernel runs here; none when idle (R218, R223); reset none -/
  queue : Option Nat := none
  /-- the group has ended and waits for its completion (R229) -/
  ended : Bool := false
  /-- halted by a debugger (R451) -/
  halted : Bool := false
  /-- a debugger's step is in progress (R451) -/
  stepping : Bool := false
  /-- the PC, a byte offset within the store part (R177) -/
  pc : Nat := 0
  /-- the active mask A (R184) -/
  act : Nat := 0
  /-- the lanes that have not ended by EXIT (R184) -/
  live : Nat := 0
  /-- the reconvergence stack, the top first, at most 16 entries (R184) -/
  stack : List LaneEntry := []
  /-- the group's last snapshot of TB (SVAL 6, 7) -/
  snap : Option Nat := none
  /-- the lines in the group's L1 part as they were filled, by line number (R225, R226) -/
  fill : SMap (List Byte) := []
  /-- the dirty bytes in the group's L1 part (R227) -/
  dirty : List Host.Cell := []
  /-- the bytes in the group's L1 part that came with an error indication (R190) -/
  bad : List Nat := []
  deriving DecidableEq, Repr

/-- A dispatched descriptor (R224). -/
structure Kernel where
  /-- TID (R219) -/
  tid : Nat
  /-- the LMEM window (R234) -/
  lbase : Nat
  llimit : Nat
  /-- the groups it runs on -/
  groups : List Nat
  /-- its descriptor names a gang (R223) -/
  gang : Bool
  /-- its descriptor's ENTRY_PC, width, FLAGS.IRQ, LIMIT, RECORD, arguments and TAG (R223, R224) -/
  entry : Nat
  width : Nat
  irq : Bool
  limit : Nat
  record : Nat
  args : List Word
  tag : List Byte
  /-- memory as it stood at the push, with what the kernel has written back since (R182, R226) -/
  view : List Host.Cell
  deriving DecidableEq, Repr

/-- A descriptor address in a queue (R218), with memory as it stood when it was pushed (R226). -/
structure LanePush where
  adr : Nat
  view : List Host.Cell
  deriving DecidableEq, Repr

structure LaneQ where
  /-- queued descriptor addresses, oldest first, at most 8; that of a gang that waits stays first (R218, R223); reset empty -/
  waiting : List LanePush := []
  /-- the kernel that runs, or the gang that waits to start (R223); reset none -/
  kern : Option Kernel := none
  /-- the kernel is a gang that waits for its clusters to be idle (R223) -/
  gangWait : Bool := false
  /-- an ABORT of the kernel waits for the clock (R231, R235); reset false -/
  abort : Bool := false
  deriving DecidableEq, Repr

/-- A store load in progress (R220). -/
structure IslJob where
  src : Nat
  dst : Nat
  len : Nat
  tid : Nat
  deriving DecidableEq, Repr

/-! ### Analogue inputs (spec/11_analogue_inputs.md) -/

/-- A registered trigger (R274, R276). -/
inductive AdcTrig where
  | none
  /-- the delay D runs -/
  | delay
  /-- D has expired; the sequence waits for the core -/
  | ready
  deriving DecidableEq, Repr

/-- A pass of a sequence (R277, R290). -/
structure AdcPass where
  /-- the slot words as the pass started -/
  slots : List Nat
  /-- regular results of this pass go to a stream (R282) -/
  strm : Bool
  /-- the slot that converts -/
  idx : Nat := 0
  /-- conversions of this slot that have ended, and the sum of their codes -/
  cnt : Nat := 0
  acc : Int := 0
  /-- some conversion of this slot saturated, or was marked INV -/
  clip : Bool := false
  inv : Bool := false
  /-- TB at the first sample instant of slot 0 (R283) -/
  tb : Nat := 0
  /-- a slot of this pass was converted again (R278) -/
  retaken : Bool := false
  /-- the set has its place in the open buffer; false when it is dropped (R285) -/
  placed : Bool := false
  deriving DecidableEq, Repr

/-- An open stream buffer (R282, R283). -/
structure StrmBuf where
  hdl : Word
  seqno : Nat
  dropped : Nat
  sets : Nat := 0
  nslot : Nat := 0
  tset : Bool := false
  trans : Bool := false
  tgen : Nat := 0
  coarse : Bool := false
  retaken : Bool := false
  tbFirst : Nat := 0
  tbLast : Nat := 0
  deriving DecidableEq, Repr

structure AdcCore where
  /-- the regular pass that runs, or that an injected pass suspends (R277, R278); reset none -/
  reg : Option AdcPass := none
  /-- the injected pass that runs (R277); reset none -/
  inj : Option AdcPass := none
  /-- the regular trigger registered (R276); reset none -/
  regT : AdcTrig := .none
  /-- the injected trigger registered (R276); reset none -/
  injT : AdcTrig := .none
  /-- the start-up delay runs (R275); reset false -/
  startup : Bool := false
  /-- CONT's next regular pass waits for a drain to end (R277, R432); reset false -/
  again : Bool := false
  /-- the converter is powered down while no sequence runs (R275); reset false -/
  pd : Bool := false
  /-- the conversion in progress finishes and the rest of its pass is abandoned (R292); reset false -/
  cut : Bool := false
  /-- the result FIFO, oldest first, at most 16 (R280); reset empty -/
  fifo : List Word := []
  /-- handles of closed buffers, oldest first, at most 8 (R284); reset empty -/
  done : List Word := []
  /-- the open stream buffer (R282); reset none -/
  buf : Option StrmBuf := none
  /-- the spare buffer (R282); reset none -/
  spare : Option Word := none
  /-- sets dropped since the last buffer opened (R285); reset 0 -/
  dropped : Nat := 0
  deriving DecidableEq, Repr

/-- An IEPE input beside its registers (R267 to R271). -/
structure Iepe where
  /-- the band that consecutive readings lie in, 0 none, and how many (R267) -/
  band : Nat := 0
  cnt : Nat := 0
  /-- the 1-Wire presence wait of TEDS_AUTO runs (R270) -/
  wait : Bool := false
  /-- the input settles (R268) -/
  settling : Bool := false
  /-- the line is in TEDS access (R271) -/
  teds : Bool := false
  deriving DecidableEq, Repr

/-- What the ADC and AOUT share of calibration (R288, R309): a set of 2048 bytes, the empty list standing for the identity. -/
structure Cal where
  /-- staged and not yet applied -/
  staged : Option (List Byte) := none
  /-- captured by the running commit (R427) -/
  cap : Option (List Byte) := none
  /-- in force in the ADC; identity before the first staging -/
  adc : List Byte := []
  /-- applied by this commit's ANA switch, for its AOUT switch -/
  next : Option (List Byte) := none
  /-- in force in AOUT; identity before the first staging -/
  aout : List Byte := []
  deriving DecidableEq, Repr

/-! ### Drive outputs and current loops (spec/12_analogue_outputs.md) -/

/-- A sample that the fetcher has ready: its word, and the handle to free when it is the buffer's last (R297). -/
structure DrvSample where
  word : Word
  free : Option Word
  deriving DecidableEq, Repr

/-- The buffer that the fetcher reads: its handle, the number of its samples and the index of the next (R296, R297). -/
structure DrvBuf where
  hdl : Word
  n : Nat
  i : Nat
  deriving DecidableEq, Repr

structure DrvCh where
  /-- handles queued, oldest first, at most 8 (R296); reset empty -/
  q : List Word := []
  /-- the buffer being read (R297); reset none -/
  cur : Option DrvBuf := none
  /-- the fetched sample (R295); reset none -/
  next : Option DrvSample := none
  /-- a fetch has been issued and has not returned (R295); reset false -/
  due : Bool := false
  /-- with TAKE_LOCAL the channel has changed to its queue (R307); reset false -/
  own : Bool := false
  /-- the peer's code that awaits this channel's trigger (R306); reset none -/
  rx : Option Nat := none
  deriving DecidableEq, Repr

structure ClCh where
  /-- consecutive readings with H below H_MIN, and with H at or above it (R301); reset 0 -/
  low : Nat := 0
  ok : Nat := 0
  /-- consecutive readings that deviate (R303); reset 0 -/
  dev : Nat := 0
  /-- consecutive readings at 21.5 mA that do not meet its headroom (R302); reset 0 -/
  unmet : Nat := 0
  /-- readings left in the 40 µs window at I_CMD (R302); reset 0 -/
  retry : Nat := 0
  deriving DecidableEq, Repr

/-! ### Timers (spec/13_timers.md) -/

/-- The outputs of a PT as bits by output number (R319, R321). -/
structure PtOut where
  /-- the raw signals -/
  raw : Nat := 0
  /-- the levels before POL -/
  lvl : Nat := 0
  /-- by output of a pair whose delayed rise is on its way: the PER_CLK edges left until it (R321) -/
  wait : SMap Nat := []
  deriving DecidableEq, Repr

/-! ### Serial ports (spec/14_serial.md) -/

structure Uart where
  /-- the TX FIFO, oldest first, at most 32 (R339); reset empty -/
  tx : List Word := []
  /-- the RX FIFO as DATA words, oldest first, at most 32 (R339); reset empty -/
  rx : List Word := []
  /-- the character being sent (R333, R340); reset none -/
  cur : Option Word := none
  /-- the last character sent; reset none -/
  sent : Option Word := none
  /-- the frame on TX, in the order of its bits: of the character being sent, else of the last one (R333); reset none sent -/
  bits : List Bool := []
  /-- a frame is being received (R336); reset false -/
  recv : Bool := false
  /-- the RTS pin function is high (R340); reset low -/
  rts : Bool := false
  deriving DecidableEq, Repr

structure Can where
  /-- the RX FIFO as 80-byte entries, oldest first, at most 64 (R345); reset empty -/
  rxf : List (List Byte) := []
  /-- bus-off recovery runs (R346); reset false -/
  recov : Bool := false
  /-- the transmit buffer whose frame is on the bus (R344); reset none -/
  bus : Option Nat := none
  /-- TXCANCEL has named the buffer on the bus: it is not tried again (R344); reset false -/
  cancel : Bool := false
  /-- another node's frame is on the bus (R344); reset false -/
  busy : Bool := false
  /-- after a wake, 11 recessive bits have yet to be seen (R354); reset false -/
  wait : Bool := false
  deriving DecidableEq, Repr

structure Spi where
  /-- the TX FIFO, oldest first, at most 16 (R347); reset empty -/
  tx : List Word := []
  /-- the RX FIFO, oldest first, at most 16 (R347); reset empty -/
  rx : List Word := []
  /-- the word of the frame in progress; reset none -/
  cur : Option Word := none
  /-- the frame last started, in the order of its bits (R347); reset none started -/
  bits : List Bool := []
  /-- the chip select that CFG.CS names is asserted (R347); reset false -/
  sel : Bool := false
  deriving DecidableEq, Repr

structure I2c where
  /-- the command FIFO, oldest first, at most 8 (R348); reset empty -/
  cmds : List Word := []
  /-- received bytes, oldest first, at most 8 (R348); reset empty -/
  rx : List Byte := []
  /-- the controller holds the bus (R348); reset false -/
  held : Bool := false
  /-- the controller was cut while it held the bus (R354); reset false -/
  cut : Bool := false
  /-- bytes that the bus controller has still to write to the target port, which stretches SCL (R348); reset none -/
  tin : List Byte := []
  /-- bytes that the bus controller has still to read from the target port (R348); reset 0 -/
  tout : Nat := 0
  /-- the bytes that the port put on the bus: the last one as controller, those of the last transfer as target; reset none -/
  sent : List Byte := []
  deriving DecidableEq, Repr

structure Xspi where
  /-- the data FIFO, oldest byte first (R350); reset empty -/
  fifo : List Byte := []
  /-- the indirect command that runs: its ICMD word (R350); reset none -/
  cmd : Option Word := none
  /-- its polling runs (R351); reset false -/
  polling : Bool := false
  /-- bytes that a write command that runs has still to take from the FIFO (R350); reset 0 -/
  left : Nat := 0
  /-- bytes read from the NVM that await room in the FIFO; the command ends with the last (R350); reset none -/
  inq : List Byte := []
  /-- its polling exceeded POLL_TMO: window reads have resumed (R351); reset false -/
  tmo : Bool := false
  /-- window lines in the L2 as they were filled, by line number (R349, R352); reset none -/
  lines : SMap (List Byte) := []
  deriving DecidableEq, Repr

/-! ### Ethernet (spec/15_ethernet.md) -/

/-- A frame being sent (R361 to R363). -/
structure EthTx where
  q : Nat
  hdl : Word
  flags : Nat
  tag : Nat
  /-- TB as its first byte left, as the timestamp has it (R368) -/
  tb : Nat
  /-- TB as it started (R363) -/
  t0 : DWord
  /-- the bytes on the wire before the FCS -/
  wire : List Byte
  deriving DecidableEq, Repr

/-- An entry of the TXTS FIFO (R369). -/
structure EthTs where
  tag : Nat
  q : Nat
  tb : Nat
  deriving DecidableEq, Repr

/-- A Sync that awaits its Follow_Up (R370). -/
structure EthSync where
  seq : Nat
  ident : List Byte
  t2 : BitVec 64
  deriving DecidableEq, Repr

structure EthPort where
  /-- transmit queues 0 to 7, oldest first, at most 64 handles each (R362); reset empty -/
  txq : SMap (List Word) := []
  /-- receive queues 0 to 15, oldest first, at most 32 handles each (R366); reset empty -/
  rxq : SMap (List Word) := []
  /-- the frame being sent; its handle heads its queue until it is done (R360); reset none -/
  tx : Option EthTx := none
  /-- the last frame sent, before the FCS; reset none -/
  sent : Option (List Byte) := none
  /-- credits of queues 6 and 7 in millionths of a bit (R363); reset 0 -/
  cr6 : Int := 0
  cr7 : Int := 0
  /-- the TXTS FIFO, oldest first, at most 16 (R369); reset empty -/
  ts : List EthTs := []
  /-- the MDIO frame that runs (R357); reset none -/
  mdio : Option Word := none
  /-- what the follower wrote to PHY registers 4 and 9 at its last enable, and the bits it then set in register 0 (R358); reset none -/
  adv : Option (Nat × Nat × Nat) := none
  /-- the mode that the MAC runs, taken as the link came up; 0 while it is down (R360); reset 0 -/
  mac : Nat := 0
  /-- the follower's last poll found the link up (R358); reset false -/
  up : Bool := false
  /-- Syncs that await a Follow_Up, oldest first (R370); reset none -/
  syncs : List EthSync := []
  deriving DecidableEq, Repr

/-! ### The Polder island (spec/16_polder_island.md) -/

/-- The states of a biquad (R380). -/
structure Biquad where
  x1 : Int := 0
  x2 : Int := 0
  y1 : Int := 0
  y2 : Int := 0
  deriving DecidableEq, Repr

/-! ### Twin pairing (spec/17_twin.md) -/

/-- Where training of the Dike link stands (R398, R399). -/
inductive TwinTrain where
  | idle
  /-- step 1: lanes align -/
  | align
  /-- step 4: the PRBS test of a mode -/
  | prbs
  /-- training starts again after its wait -/
  | retry
  /-- training ended: the link is up, or FAIL says why not -/
  | ended
  deriving DecidableEq, Repr

/-- What the peer's capability frame said (R398). -/
structure TwinPeer where
  lanes : Nat
  serial : DWord
  pref : Nat
  roleHeld : Bool
  bound : Bool := false
  deriving DecidableEq, Repr

/-- A capability frame as this device sends it (R398). -/
structure TwinCap where
  verMin : Nat
  verMax : Nat
  ceil : Nat
  peer : TwinPeer
  deriving DecidableEq, Repr

/-- A claim (R404). -/
inductive TwinClaim where
  | none | guard
  /-- in the arbitration, with the slots still to come -/
  | arbitration (slots : Nat)
  /-- lost: the line stays released for the slots still to come -/
  | lost (slots : Nat)
  deriving DecidableEq, Repr

/-- A planned handover on the device that gives the rig up (R419). -/
inductive TwinHo where
  | none
  /-- HANDOVER_REQ is out with T_H; the ACK has come or not -/
  | asked (tH : Nat) (ack : Bool)
  /-- TW_ROLE has been released at T_H -/
  | released (tH : Nat)
  deriving DecidableEq, Repr

/-- A mirror window in reception (R412): `dead` frames are discarded until the next GEN. -/
structure TwinMir where
  gen : Nat
  bank : Nat
  next : Nat
  crc : BitVec 32
  len : Nat
  dst : Nat
  tid : Nat
  dead : Bool
  deriving DecidableEq, Repr

/-- A publish in progress with the settings it started with, and what SRC held then (R411). -/
structure TwinPub where
  src : Nat
  len : Nat
  tid : Nat
  gen : Nat
  old : List Byte
  deriving DecidableEq, Repr

/-- A message in reception (R416): none as handle when it is dropped. -/
structure TwinMsg where
  no : Nat
  hdl : Option Word
  next : Nat
  total : Nat
  deriving DecidableEq, Repr

structure Twin where
  /-- training (R398); reset idle -/
  train : TwinTrain := .idle
  /-- lanes received aligned, a bit each (R398); reset none -/
  lanes : Nat := 0
  /-- the peer's capability frame (R398); reset none -/
  peer : Option TwinPeer := none
  /-- the own capability frame as last sent (R398); reset none -/
  cap : Option TwinCap := none
  /-- TW_ROLE is low by another driver than this device's (R402): an input, whose level before the first sense is high (DESIGN CHOICE, log
  entry 109) -/
  peerLow : Bool := false
  /-- the mode under test (R398); reset 0 -/
  mode : Nat := 0
  /-- the claim in progress (R404); reset none -/
  claim : TwinClaim := .none
  /-- the last valid heartbeat: its TX_TB, and own TB at its receipt (R408); reset none -/
  hb : Option (BitVec 64 × BitVec 64) := none
  /-- miss windows in a row without a heartbeat (R409); reset 0 -/
  miss : Nat := 0
  /-- the last heartbeat carried LEAVE (R417); reset false -/
  leave : Bool := false
  /-- the handover given (R419); reset none -/
  ho : TwinHo := .none
  /-- armed to take the rig at this T_H in own TB (R419); reset none -/
  armed : Option Nat := none
  /-- windows in reception (R412); reset none -/
  mir : SMap (Option TwinMir) := []
  /-- publishes in progress (R411); reset none -/
  pub : SMap (Option TwinPub) := []
  /-- handles to send and handles received, oldest first, at most 16 each (R416); reset empty -/
  msgTx : List Word := []
  msgRx : List Word := []
  /-- handles pushed while the PE's clock was gated, not yet validated, oldest first (R86, R416); reset empty -/
  msgNew : List Word := []
  /-- the message in reception (R416); reset none -/
  msgIn : Option TwinMsg := none
  /-- MSGNO of the next message (R401); reset 0 (DESIGN CHOICE, log entry 60) -/
  msgNo : Nat := 0
  /-- SEQ of the next frame of each TYPE (R401); reset 0 (DESIGN CHOICE, log entry 60) -/
  seqs : SMap Nat := []
  /-- the last frame sent of each TYPE, whole (R401); reset none -/
  out : SMap (List Byte) := []
  deriving DecidableEq, Repr

/-! ### Debug ports and self-test (spec/19_debug_and_test.md) -/

structure Dbg where
  /-- the JTAG instruction in force (R444, R461); reset IDCODE -/
  ir : Nat := 1
  /-- the last instruction was refused: the next Capture-IR reads 0b00101 (R442); reset false -/
  refused : Bool := false
  /-- the port whose access is being performed: JTAG, or FSD (R441, R445); reset FSD -/
  jtag : Bool := false
  /-- status and data of the last DBGACC access (R444); reset 0 -/
  daStat : Nat := 0
  daData : Word := 0
  /-- status and data of the last FSD answer (R443); reset 0 -/
  fsdStat : Nat := 0
  fsdData : Word := 0
  /-- the boundary register's latched cells, cell 0 nearest TDI (R460); reset 0 (DESIGN CHOICE, log entry 55) -/
  cells : BitVec 356 := 0
  /-- what the last boundary scan captured and shifted out at TDO (R460); reset 0 (DESIGN CHOICE, log entry 55) -/
  captured : BitVec 356 := 0
  deriving DecidableEq, Repr

/-! ### The whole -/

structure Hw where
  /-- half nanoseconds since COUNT of each watchdog, 2 being WDP, last went down (R161, R395); reset 0 (log entry 24) -/
  wdFrac : SMap Nat := []
  /-- every register of the register windows, by physical address (spec/01_architecture.md R22 to R24); an unlisted address reads as its reset word -/
  regs : SMap (BitVec 32) := []
  /-- the bytes in MRAM, SRAM, LMEM, the Polder retention SRAM and LPDDR4 (R22); an unlisted address reads 0 (DESIGN CHOICE, log entry 3) -/
  mem : List Host.Cell := []
  /-- the bytes in the external xSPI NVM (R101), by offset; an unlisted offset reads 0xFF, erased (DESIGN CHOICE, log entry 3) -/
  nvm : List Host.Cell := []
  /-- the dirty bytes in M0's D-cache (R203, R208); reset none -/
  dc0 : List Host.Cell := []
  /-- the dirty bytes in M1's D-cache (R203, R208); reset none -/
  dc1 : List Host.Cell := []
  /-- the dirty bytes in the PE metadata cache (R203); reset none -/
  pec : List Host.Cell := []
  /-- the dirty bytes in the L2 (R203, R206); reset none -/
  l2 : List Host.Cell := []
  /-- the directory, by 64-byte line number (R203, R204); reset every line INVALID -/
  dir : SMap DirEnt := []
  /-- what the check bits say, by 64-bit word number (R190, R191); unlisted: no error -/
  upsets : SMap Upset := []
  /-- what the check bits of the L2's copies say, by 64-bit word number (R210); unlisted: no error -/
  l2ups : SMap Upset := []
  /-- LPDDR4 was trained with inline ECC (R213, R214); reset false -/
  inlineEcc : Bool := false
  /-- core M0 -/
  m0 : Core := {}
  /-- core M1 -/
  m1 : Core := {}
  /-- the Polder core (spec/16_polder_island.md R375) -/
  pol : Core := {}
  /-- lines ACTIVE on M0 and M1, most recently granted first, with their PRIO at grant (R155, R156) -/
  act0 : List (Nat × Nat) := []
  act1 : List (Nat × Nat) := []
  /-- lines with an event but no status bit of their own that await a grant (R34; DESIGN CHOICE, log entry 8) -/
  lineLatch : List Nat := []
  /-- power (spec/02_power.md) -/
  pwr : Pwr := {}
  /-- clocks and the timebase (spec/03_clocks.md) -/
  clk : Clk := {}
  /-- the backup domain (R59 to R66, R91) -/
  bak : Backup := {}
  /-- launch (spec/04_launch.md) -/
  lnch : Launch := {}
  /-- the LCS area's data part (spec/05_lifecycle.md R118, R120) -/
  lcs : Lcs := {}
  /-- the LCS's working state (R126 to R130) -/
  lcsm : LcsMain := {}
  /-- the commit engine (spec/18_reconfiguration.md) -/
  cmt : Cmt := {}
  /-- the append queue of the MRC, oldest first, at most 64 (R197); reset empty -/
  appendQ : List AppendReq := []
  /-- the next SRAM word that the SRAM scrubber reads (R202), as a byte address; reset 0x10000000 -/
  sramScrub : Nat := 0x10000000
  /-- the pools' state beside their registers, by pool (spec/10_pool_engine.md) -/
  pools : SMap Pool := []
  /-- handles allocated to loads that waited, until each load is made again (R30, R249); reset none -/
  peAns : List (Initiator × Word) := []
  /-- the next slot that each log stream writes, by stream (spec/08_memory.md R200) -/
  lsSlot : SMap Nat := []
  /-- the word that the last read command returned on the register bus; the model's own field -/
  busData : Word := 0
  /-- where the drain of the island log stands (spec/16_polder_island.md R391) -/
  drain : DrainSt := .idle
  /-- the LPDDR4 refresh multiplier lies above 1 (spec/08_memory.md R215) -/
  ddrHot : Bool := false
  /-- buffered stores to normal memory whose bus error is on its way, oldest first: core number, address, TID (spec/01_architecture.md R33); reset none -/
  stores : List (Nat × Nat × Nat) := []
  /-- the lane groups by 4c + s (spec/09_lane_array.md R216, R218); reset idle -/
  laneG : SMap LaneGrp := []
  /-- the kernel queues (spec/09_lane_array.md R218); reset empty -/
  laneQ : SMap LaneQ := []
  /-- L0 to L63 of every lane, by ((32c + lane) × 64 + register) (spec/07_instruction_sets.md); reset 0 (DESIGN CHOICE, log entry 7) -/
  laneL : SMap Word := []
  /-- K0 to K7, one bit per lane of the cluster, by (8c + register) (spec/07_instruction_sets.md); reset 0 (DESIGN CHOICE, log entry 7) -/
  laneK : SMap Nat := []
  /-- the instruction stores' bytes, by 0x8000 × c + offset (spec/09_lane_array.md R216, R222); zero at VCORE power-up -/
  istore : List Host.Cell := []
  /-- instruction store words with an uncorrectable error, by the address as above (spec/07_instruction_sets.md R186); reset none -/
  istoreBad : List Nat := []
  /-- store loads in progress, by cluster (spec/09_lane_array.md R220); reset none -/
  isl : SMap (Option IslJob) := []
  /-- conflict memory of the AVS loop (spec/01_architecture.md R41) -/
  avsLoop : Loop := {}
  /-- the ADC cores A0 to A3 (spec/11_analogue_inputs.md R275 to R285) -/
  adcs : SMap AdcCore := []
  /-- the IEPE inputs AIN0 to AIN7 (spec/11_analogue_inputs.md R267 to R271) -/
  iepe : SMap Iepe := []
  /-- the TEDS read in progress: its input and LEN (spec/11_analogue_inputs.md R271); reset none -/
  teds : Option (Nat × Nat) := none
  /-- calibration tables (spec/11_analogue_inputs.md R288, spec/12_analogue_outputs.md R309) -/
  cal : Cal := {}
  /-- conflict memory of the BST1 loop (spec/01_architecture.md R41) -/
  bst1Loop : Loop := {}
  /-- the drive channels (spec/12_analogue_outputs.md R293 to R298) -/
  drv : SMap DrvCh := []
  /-- the current loops (spec/12_analogue_outputs.md R300 to R303) -/
  cls : SMap ClCh := []
  /-- an update edge has come since the device gained TW_DRIVE_OWN (spec/12_analogue_outputs.md R307); reset false -/
  clGate : Bool := false
  /-- conflict memory of the BST2 loop (spec/01_architecture.md R41) -/
  bst2Loop : Loop := {}
  /-- the outputs of PT0 to PT3 (spec/13_timers.md R319, R321); reset low -/
  pts : SMap PtOut := []
  /-- prescaler phases, by timer: GT0 to GT15, then PT0 to PT3 (spec/13_timers.md R311); reset 0 -/
  phase : SMap Nat := []
  /-- the event lines that pulse in this PER_CLK period, bits as in TMR_START (spec/13_timers.md R316, R322); reset none -/
  evLines : Nat := 0
  /-- multi-word snapshots by initiator and group (spec/18_reconfiguration.md R438): the words after the low one; reset 0 -/
  snaps : SMap (Nat × Nat) := []
  /-- U0 to U5, and PU as 6 (spec/14_serial.md R333 to R341, spec/16_polder_island.md R394) -/
  uarts : SMap Uart := []
  /-- C0 and C1 (spec/14_serial.md R342 to R346) -/
  cans : SMap Can := []
  /-- SPI0 to SPI3 (spec/14_serial.md R347) -/
  spis : SMap Spi := []
  /-- I2C0 to I2C3 (spec/14_serial.md R348) -/
  i2cs : SMap I2c := []
  /-- the xSPI controller (spec/14_serial.md R349 to R353) -/
  xspi : Xspi := {}
  /-- E0 and E1 (spec/15_ethernet.md) -/
  eths : SMap EthPort := []
  /-- the states of BQ0 to BQ3 (spec/16_polder_island.md R380); reset 0 -/
  bqs : SMap Biquad := []
  /-- the PGPIO pins that rules drove at the last rule evaluation, and their levels (spec/16_polder_island.md R383); reset none -/
  pgRule : Nat × Nat := (0, 0)
  /-- ISEQ of the record that the drain has offered (spec/16_polder_island.md R391) -/
  drainSeq : Nat := 0
  /-- how often ISEQ of the island log has come round to 0 (spec/16_polder_island.md R389); reset 0 -/
  logEra : Nat := 0
  /-- conflict memory of the threshold loop (spec/01_architecture.md R41) -/
  thrLoop : Loop := {}
  /-- the twin block (spec/17_twin.md) -/
  twin : Twin := {}
  /-- the debug ports (spec/19_debug_and_test.md R441 to R444) -/
  dbg : Dbg := {}
  /-- cores held after LBIST until BIST_REL names them, a bit each (spec/19_debug_and_test.md R457); reset none -/
  bistHold : Nat := 0
  /-- a BIST run accepted while the block's clock was gated, not yet begun (R86, R456); reset false -/
  bistWait : Bool := false
  /-- how many free values have been drawn: the model's own field, not the spec's (log entry 9) -/
  freeCtr : Nat := 0
  deriving DecidableEq, Repr

structure State where
  /-- the part -/
  hw : Hw := {}
  /-- the commands that wait, first in, first out -/
  pending : List Instr := []
  deriving DecidableEq, Repr

/-- Why the model stops on a behaviour that the spec calls undefined (R18). -/
inductive Fault where
  /-- the clock ratios of R83 are broken: raised at PLL_LOCK as the clocks switch to them, and at TX_FRAME_START and RX_FRAME of a port
  that runs at 1000 Mb/s with PER_DIV other than 16; safe: the model stops where the device is undefined -/
  | undefinedClockRatios
  /-- the PLL was started on a reference that the spec calls undefined (R74, R75): raised at PLL_LOCK; safe -/
  | undefinedReference
  deriving DecidableEq, Repr

/-- Why a command has no outcome in this model. -/
inductive Refusal where
  /-- no meaning yet: raised by the dispatch; safe -/
  | notModelled (mnemonic : String)
  deriving DecidableEq, Repr

/-- The part before power is ever applied: every register at its reset word, no power, empty queues. -/
def State.reset : State := {}

end Sys2Proof.Machine
end

