-- ==== Sys2Proof/Machine/Ops.lean ====
section
/-! DEFINITION. The named operations on registers, fields, bytes and the command's answer, shared by every meaning. -/

namespace Sys2Proof.Machine

/-- The outcome of a command. -/
abbrev Out := Host.Outcome State Fault Refusal

/-! ### Numbers -/

/-- The `w`-bit value `v` read as a signed number. -/
def sgn (w v : Nat) : Int := if v % 2 ^ w < 2 ^ (w - 1) then (v % 2 ^ w : Nat) else (v % 2 ^ w : Nat) - (2 ^ w : Nat)

/-- The two's complement of `i` in `w` bits, wrapping. -/
def twos (w : Nat) (i : Int) : Nat := (i % (2 ^ w : Nat)).toNat

/-- `v` limited to `w` bits unsigned, saturating. -/
def satU (w : Nat) (v : Nat) : Nat := min v (2 ^ w - 1)

/-- `i` limited to the range `lo` to `hi`. -/
def clampI (lo hi i : Int) : Int := max lo (min hi i)

/-- Arithmetic shift right: division by a power of two toward minus infinity. -/
def asr (i : Int) (n : Nat) : Int := i / ((2 ^ n : Nat) : Int)

/-- Bit `i` of `n`. -/
def bitOf (n i : Nat) : Bool := n.testBit i

/-- `n` with bit `i` set to `b`. -/
def setBit (n i : Nat) (b : Bool) : Nat := if b then n ||| 2 ^ i else n - (n &&& 2 ^ i)

/-- 1 for true, 0 for false. -/
def b2n (b : Bool) : Nat := if b then 1 else 0

/-! ### Bytes (R5: little-endian) -/

/-- The number that a list of bytes spells, the byte at the lowest address first. -/
def leNat : List Byte → Nat
  | [] => 0
  | b :: t => b.toNat + 256 * leNat t

/-- The `n` bytes of `v`, the lowest first. -/
def leBytes : Nat → Nat → List Byte
  | 0, _ => []
  | n + 1, v => BitVec.ofNat 8 v :: leBytes n (v / 256)

/-- `n` bytes of `l` from offset `o` on; absent bytes read 0. -/
def sliceB (l : List Byte) (o n : Nat) : List Byte := ((l.drop o).take n) ++ List.replicate (n - ((l.drop o).take n).length) 0

/-- The little-endian number in `n` bytes of `l` at offset `o`. -/
def fieldB (l : List Byte) (o n : Nat) : Nat := leNat (sliceB l o n)

/-- `n` zero bytes. -/
def zeros (n : Nat) : List Byte := List.replicate n 0

/-- `l` with zeros appended, or cut, to exactly `n` bytes. -/
def padTo (n : Nat) (l : List Byte) : List Byte := sliceB l 0 n

/-! ### Registers and fields (R11 to R17) -/

/-- The field's bits of a word. -/
def Fld.of (f : Fld) (w : BitVec 32) : Nat := (w.toNat >>> f.lo) % 2 ^ f.wid

/-- The bits of the field's register that belong to it. -/
def Fld.mask (f : Fld) : BitVec 32 := BitVec.ofNat 32 (2 ^ f.wid - 1) <<< f.lo

/-- The word with the field's bits replaced by `v`. -/
def Fld.into (f : Fld) (w : BitVec 32) (v : Nat) : BitVec 32 :=
  (w &&& ~~~ f.mask) ||| ((BitVec.ofNat 32 v <<< f.lo) &&& f.mask)

/-- The word held at register address `a`. -/
def Hw.rd (h : Hw) (a : Nat) : BitVec 32 := mget resetWord h.regs a

/-- Register address `a` holds `v`. -/
def Hw.wr (h : Hw) (a : Nat) (v : BitVec 32) : Hw := { h with regs := mput resetWord h.regs a v }

/-- The value of a field. -/
def Hw.get (h : Hw) (f : Fld) : Nat := f.of (h.rd f.adr)

/-- A one-bit field reads 1, or a wider field is not 0. -/
def Hw.on (h : Hw) (f : Fld) : Bool := h.get f != 0

/-- The field holds `v`, cut to its width. -/
def Hw.set (h : Hw) (f : Fld) (v : Nat) : Hw := h.wr f.adr (f.into (h.rd f.adr) v)

/-- The one-bit field is set. -/
def Hw.up (h : Hw) (f : Fld) : Hw := h.set f 1

/-- The field is cleared. -/
def Hw.clr (h : Hw) (f : Fld) : Hw := h.set f 0

/-- The one-bit field holds `b`. -/
def Hw.put (h : Hw) (f : Fld) (b : Bool) : Hw := h.set f (b2n b)

/-- The field is set when `b` holds and otherwise unchanged. -/
def Hw.upIf (h : Hw) (b : Bool) (f : Fld) : Hw := if b then h.up f else h

/-- The counter rises by `n`, saturating at its maximum (R437). -/
def Hw.add (h : Hw) (f : Fld) (n : Nat) : Hw := h.set f (satU f.wid (h.get f + n))

/-- The counter rises by one, saturating (R437). -/
def Hw.inc (h : Hw) (f : Fld) : Hw := h.add f 1

/-- Several fields take values. -/
def Hw.sets (h : Hw) (l : List (Fld × Nat)) : Hw := l.foldl (fun h p => h.set p.1 p.2) h

/-- The field read as a signed number. -/
def Hw.getS (h : Hw) (f : Fld) : Int := sgn f.wid (h.get f)

/-- The field holds the two's complement of `i`. -/
def Hw.setS (h : Hw) (f : Fld) (i : Int) : Hw := h.set f (twos f.wid i)

/-! ### Free values -/

/-- The next free value. -/
def Hw.free (h : Hw) : BitVec 32 := Config.freeValue h.freeCtr

/-- The next free value has been drawn. -/
def Hw.drawn (h : Hw) : Hw := { h with freeCtr := h.freeCtr + 1 }

/-- `n` bytes that the spec leaves open, counting free values from `k` on. -/
def freeBytes : Nat → Nat → List Byte
  | 0, _ => []
  | n + 1, k => (Config.freeValue k).truncate 8 :: freeBytes n (k + 1)

/-- `n` bytes that the spec leaves open, drawn. -/
def Hw.drawBytes (h : Hw) (n : Nat) : Hw × List Byte := ({ h with freeCtr := h.freeCtr + n }, freeBytes n h.freeCtr)

/-! ### Interrupt lines with no status bit of their own -/

/-- An event on line `k` that no status bit holds: the line awaits a grant (log entry 8). -/
def Hw.pulseLine (h : Hw) (k : Nat) : Hw := if h.lineLatch.contains k then h else { h with lineLatch := h.lineLatch ++ [k] }

/-! ### The command's answer -/

/-- The sparse tables in canonical form; every write keeps that form, so this changes nothing in a state that has it. -/
def Hw.canon (h : Hw) : Hw :=
  { h with regs := mcanon resetWord h.regs, mem := mcanon (fun _ => 0) h.mem, nvm := mcanon (fun _ => 0xFF) h.nvm }

/-- The command completes with the effect `f`; the queue is not touched. -/
def State.run (s : State) (f : Hw → Hw) : Out := .next { s with hw := (f s.hw).canon }

/-- The command completes with the effect `f`, or stops with the fault that `f` names. -/
def State.runE (s : State) (f : Hw → Except Fault Hw) : Out :=
  match f s.hw with
  | .ok h => .next { s with hw := h.canon }
  | .error e => .fault e

/-- The effect takes place where the condition holds; otherwise nothing changes (log entry 2). -/
def Hw.when (h : Hw) (b : Bool) (f : Hw → Hw) : Hw := if b then f h else h

/-- The main domain is powered and released from reset (R50, R487). -/
def Hw.mainUp (h : Hw) : Bool := h.pwr.phase = .up

/-- The main domain's clocks run: it is up and not in SLEEP (R68). -/
def Hw.clocked (h : Hw) : Bool := h.mainUp && h.pwr.sleep != .sleep

/-- The block in peripheral window `n` has its functional clock (R86); an emulated SLEEP stops it too (R455). -/
def Hw.blockOn (h : Hw) (n : Nat) : Bool := h.clocked && h.pwr.sleep != .sleepEmulated && bitOf (h.get CLK_GATE.EN) n

/-- Ball `k` carries function `fn` of the table "GPIO functions" (R467). An input function that no ball carries sees its inactive level
(R468). -/
def Hw.ballFn (h : Hw) (k fn : Nat) : Bool := h.get (GPIO_MUX.FN k) = fn

/-- An earlier device-space access by `w` has not been acted on yet: a write held at the register bus (R429), or an ALLOC that the PE
holds (R241, R259). Until it is, no later one is issued (R30). -/
def Hw.busHeld (h : Hw) (w : Initiator) : Bool :=
  h.cmt.heldWr.any (fun e => e.2.1.who == w) || h.pools.any (fun e => e.2.held.any (·.of w))

/-- A device-space access by `w` is outstanding: it waits, or its answer has not been taken yet (R30, R146). -/
def Hw.owesAccess (h : Hw) (w : Initiator) : Bool := h.busHeld w || h.peAns.any (·.1 == w)

/-- The island has its supply (R54). -/
def Hw.islandUp (h : Hw) : Bool := !h.pwr.polderLow

/-- The Polder core runs. -/
def Hw.polRuns (h : Hw) : Bool := h.islandUp && h.pol.run = .running

/-- The access comes from the Polder core. -/
def fromPolder (a : Access) : Bool := a.who = .polder

/-- The access comes from the debug port. -/
def fromDebug (acc : Access) : Bool := acc.who = .debug

/-- Permission `i` of LCS_STAT.DBG_PERM: 0 HALT_MEM, 1 PATCH, 2 BIST, 3 BSCAN (R128). -/
def Hw.permits (h : Hw) (i : Nat) : Bool := bitOf (h.get LCS_STAT.DBG_PERM) i

/-- `acc` can make an access to the main domain: its clocks run, no earlier access of the initiator waits (R30), the Polder core's bridge
is open (R376), and DBG_PERM allows what the debug port does (R442), which `may` says. -/
def Hw.opensTo (h : Hw) (acc : Access) (may : Bool) : Bool :=
  h.clocked && !h.busHeld acc.who && (!fromPolder acc || (h.polRuns && h.on POL_STAT.MAIN_UP)) && (!fromDebug acc || may)

/-- `acc` can make an access that needs HALT_MEM of the debug port and nothing more. -/
def Hw.opens (h : Hw) (acc : Access) : Bool := h.opensTo acc (h.permits 0)

/-- What an access that is not made leaves: a bus error at the closed bridge sets BRIDGE_ERR (R376), and FSD_FAULT records PERM for one
that the debug port may not make (R442). One that waits leaves nothing. -/
def Hw.shutTo (h : Hw) (acc : Access) : Hw :=
  if h.busHeld acc.who then h
  else if fromPolder acc then h.when (h.polRuns && !h.on POL_STAT.MAIN_UP) (fun h => h.up POL_STAT.BRIDGE_ERR)
  else h.when (h.clocked && fromDebug acc) (fun h => h.set DBG_STAT.FSD_FAULT 1)

/-- An event on the register bus: it takes place while the main domain is clocked (log entry 2). -/
def State.onBus (s : State) (f : Hw → Hw) : Out := s.run (fun h => h.when h.clocked f)

/-- An access by `acc` on the register bus, which `may` lets the debug port make. -/
def State.onBusTo (s : State) (acc : Access) (may : Hw → Bool) (f : Hw → Hw) : Out :=
  s.run (fun h => if h.opensTo acc (may h) then f h else h.shutTo acc)

/-- An access by `acc` on the register bus. -/
def State.onBusBy (s : State) (acc : Access) (f : Hw → Hw) : Out := s.onBusTo acc (fun h => h.permits 0) f

/-- An access by `acc` to the Polder island: the Polder core makes it locally, every other initiator over the register bus (R376, R396). -/
def State.onIsland (s : State) (acc : Access) (f : Hw → Hw) : Out :=
  if fromPolder acc then s.run (fun h => h.when (h.polRuns && !h.busHeld acc.who) f) else s.onBusBy acc f

/-- An event of the block in window `n`: it takes place while the block is clocked (R86; log entry 2). -/
def State.onBlock (s : State) (n : Nat) (f : Hw → Hw) : Out := s.run (fun h => h.when (h.blockOn n) f)

/-! ### Tables by instance -/

/-- Entry `k` of a table whose unlisted entries are the default. -/
def tget {α : Type} (d : α) (m : SMap α) (k : Nat) : α := mget (fun _ => d) m k

/-- Entry `k` of the table is `v`. -/
def tput {α : Type} [DecidableEq α] (d : α) (m : SMap α) (k : Nat) (v : α) : SMap α := mput (fun _ => d) m k v

end Sys2Proof.Machine
end

