-- ==== Sys2Proof/Machine/Crypto.lean ====
section
/-! DEFINITION. CRC-32C (spec/04_launch.md R102), SHA-256 and ECDSA P-256 (R102, R109). The spec names the last two by name;
their equations are those of FIPS 180-4 and FIPS 186-5 (PRESUMED, log entry 10). -/

namespace Sys2Proof.Machine

/-- One bit of the reflected CRC-32C, polynomial 0x82F63B78 (R102). -/
def crcBit (c : BitVec 32) : BitVec 32 := if c.getLsbD 0 then (c >>> 1) ^^^ 0x82F63B78 else c >>> 1

/-- `f` applied `n` times. -/
def iter {α : Type} (f : α → α) : Nat → α → α
  | 0, a => a
  | n + 1, a => iter f n (f a)

/-- The CRC-32C update with one byte, with no initial value and no final XOR (R171). -/
def crcByte (c : BitVec 32) (b : Byte) : BitVec 32 := iter crcBit 8 (c ^^^ b.zeroExtend 32)

/-- The CRC-32C update over bytes (R171). -/
def crcUpdate (c : BitVec 32) (l : List Byte) : BitVec 32 := l.foldl crcByte c

/-- The CRC-32C of bytes: initial value and final XOR of all ones (R102). -/
def crc32c (l : List Byte) : BitVec 32 := crcUpdate 0xFFFFFFFF l ^^^ 0xFFFFFFFF

/-- One bit of the CRC-8 of a 1-Wire ROM code (polynomial x^8 + x^5 + x^4 + 1, least significant bit first; PRESUMED, log entry
14). -/
def crc8Bit (c : BitVec 8) : BitVec 8 := if c.getLsbD 0 then (c >>> 1) ^^^ 0x8C else c >>> 1

/-- The CRC-8 of a 1-Wire ROM code (R271). -/
def crc8 (l : List Byte) : BitVec 8 := l.foldl (fun c b => iter crc8Bit 8 (c ^^^ b)) 0

/-! ### SHA-256 -/

/-- The numbers from 2 to `m` that no number from 2 to 17 below them divides: the primes, for `m` under 324. -/
def primesTo (m : Nat) : List Nat :=
  (List.range (m + 1)).filter (fun n => 2 ≤ n && (List.range 18).all (fun d => d < 2 || n ≤ d || n % d != 0))

/-- The largest number whose `k`th power is at most `n`, its bits below `b` found one by one from `r` on. -/
def rootOf (k n : Nat) : Nat → Nat → Nat
  | 0, r => r
  | b + 1, r => rootOf k n b (if (r + 2 ^ b) ^ k ≤ n then r + 2 ^ b else r)

/-- The first 32 bits of the fractional part of the `k`th root of `p`. -/
def rootBits (k p : Nat) : BitVec 32 := BitVec.ofNat 32 (rootOf k (p * 2 ^ (32 * k)) 40 0)

/-- The round constants: from the cube roots of the first 64 primes. -/
def shaConsts : List (BitVec 32) := (primesTo 311).map (rootBits 3)

/-- The initial hash state: from the square roots of the first 8 primes. -/
def shaStart : List (BitVec 32) := (primesTo 19).map (rootBits 2)

/-- A word of four bytes, the most significant first. -/
def beWord (l : List Byte) : BitVec 32 := BitVec.ofNat 32 (leNat l.reverse)

/-- The sum without carry of `x` turned right by each of the places in `l`. -/
def turns (l : List Nat) (x : BitVec 32) : BitVec 32 := l.foldl (fun r n => r ^^^ x.rotateRight n) 0

/-- Schedule word `t`, from the words before it in order. -/
def shaWord (w : List (BitVec 32)) : BitVec 32 :=
  let back := fun n => w.getD (w.length - n) 0
  (turns [17, 19] (back 2) ^^^ (back 2 >>> 10)) + back 7 + (turns [7, 18] (back 15) ^^^ (back 15 >>> 3)) + back 16

/-- The 64 schedule words of a 64-byte block. -/
def shaSchedule (blk : List Byte) : List (BitVec 32) :=
  iter (fun w => w ++ [shaWord w]) 48 ((List.range 16).map (fun i => beWord (sliceB blk (4 * i) 4)))

/-- One round over the eight words of the hash state. -/
def shaRound (v : List (BitVec 32)) (k w : BitVec 32) : List (BitVec 32) :=
  let x := fun i => v.getD i 0
  let choose := (x 4 &&& x 5) ||| (~~~ x 4 &&& x 6)
  let most := (x 0 &&& x 1) ||| (x 2 &&& (x 0 ||| x 1))
  let step := x 7 + turns [6, 11, 25] (x 4) + choose + k + w
  (step + turns [2, 13, 22] (x 0) + most) :: (v.set 3 (x 3 + step)).take 7

/-- One 64-byte block. -/
def shaBlock (v : List (BitVec 32)) (blk : List Byte) : List (BitVec 32) :=
  List.zipWith (fun a b => a + b) v ((shaConsts.zip (shaSchedule blk)).foldl (fun s e => shaRound s e.1 e.2) v)

/-- `n` blocks of the padded message. -/
def shaBlocks : Nat → List Byte → List (BitVec 32) → List (BitVec 32)
  | 0, _, s => s
  | n + 1, l, s => shaBlocks n (l.drop 64) (shaBlock s (l.take 64))

/-- The `n` bytes of `v`, the most significant first. -/
def beBytes (n v : Nat) : List Byte := (leBytes n v).reverse

/-- The SHA-256 digest, 32 bytes in the order the hash emits them (R102). -/
def sha256 (l : List Byte) : List Byte :=
  let m := l ++ [0x80] ++ zeros ((119 - l.length % 64) % 64) ++ beBytes 8 (8 * l.length)
  (shaBlocks (m.length / 64) m shaStart).flatMap (fun x => beBytes 4 x.toNat)

/-! ### ECDSA P-256 -/

def p256p : Nat := 0xffffffff00000001000000000000000000000000ffffffffffffffffffffffff
def p256n : Nat := 0xffffffff00000000ffffffffffffffffbce6faada7179e84f3b9cac2fc632551
def p256b : Nat := 0x5ac635d8aa3a93e7b3ebbd55769886bc651d06b0cc53b0f63bce3c3e27d2604b
def p256gx : Nat := 0x6b17d1f2e12c4247f8bce6e563a440f277037d812deb33a0f4a13945d898c296
def p256gy : Nat := 0x4fe342e2fe1a7f9b8ee7eb4a7c0f9e162bce33576b315ececbb6406837bf51f5

/-- `b ^ e mod m`, over the `fuel` lowest bits of `e`. -/
def powMod (m : Nat) : Nat → Nat → Nat → Nat
  | 0, _, _ => 1 % m
  | fuel + 1, b, e => (powMod m fuel (b * b % m) (e / 2)) * (if e % 2 = 1 then b else 1) % m

/-- The inverse modulo a prime. -/
def invMod (m a : Nat) : Nat := powMod m 256 (a % m) (m - 2)

/-- Addition of curve points; none is the point at infinity. -/
def ecAdd (p q : Option (Nat × Nat)) : Option (Nat × Nat) :=
  match p, q with
  | none, q => q
  | p, none => p
  | some (x1, y1), some (x2, y2) =>
    if x1 = x2 && (y1 + y2) % p256p = 0 then none
    else
      let l := if x1 = x2 then (3 * x1 * x1 + p256p - 3) * invMod p256p (2 * y1) % p256p
        else (y2 + p256p - y1) * invMod p256p (x2 + p256p - x1) % p256p
      let x3 := (l * l + 2 * p256p - x1 - x2) % p256p
      some (x3, (l * (x1 + p256p - x3) + p256p - y1) % p256p)

/-- `k` times a point, over the `fuel` lowest bits of `k`. -/
def ecMul : Nat → Nat → Option (Nat × Nat) → Option (Nat × Nat)
  | 0, _, _ => none
  | fuel + 1, k, p => ecAdd (if k % 2 = 1 then p else none) (ecMul fuel (k / 2) (ecAdd p p))

/-- The ECDSA P-256 verification of a digest, with X, Y, r and s as 32 little-endian bytes each (R102). -/
def ecdsaOk (pub sig digest : List Byte) : Bool :=
  let x := fieldB pub 0 32
  let y := fieldB pub 32 32
  let r := fieldB sig 0 32
  let s := fieldB sig 32 32
  let z := digest.foldl (fun n b => n * 256 + b.toNat) 0
  let w := invMod p256n s
  if r = 0 || s = 0 || p256n ≤ r || p256n ≤ s || p256p ≤ x || p256p ≤ y || (y * y) % p256p != (x * x * x + (p256p - 3) * x + p256b) % p256p then false
  else match ecAdd (ecMul 256 (z * w % p256n) (some (p256gx, p256gy))) (ecMul 256 (r * w % p256n) (some (x, y))) with
    | none => false
    | some (px, _) => px % p256n = r

end Sys2Proof.Machine
end

