-- ==== Sys2Proof/Machine/Mem.lean ====
section
/-! DEFINITION. The address map (R22 to R26), the Hub's directory and caches (R203 to R210), error correction (R190, R191), the
MPU (R158) and DMA accesses (R27, R37). -/

namespace Sys2Proof.Machine

/-- The parts of the address map (R22). -/
inductive Region where
  | mram | rom | sram | lmem | regs | peop | polregs | polsram | xspi | ddr | unmapped
  deriving DecidableEq, Repr

/-- The first LPDDR4 address past the usable top (R213). -/
def Hw.ddrTop (h : Hw) : Nat := h.get DDR_TOP.TOP_MB * 0x100000

/-- The part of the address map that `a` lies in (R22, R25). -/
def Hw.region (h : Hw) (a : Nat) : Region :=
  if a < 0x01000000 then .mram
  else if a < 0x01010000 then .rom
  else if a < 0x10000000 then .unmapped
  else if a < 0x10200000 then .sram
  else if a < 0x18000000 then .unmapped
  else if a < 0x18100000 then .lmem
  else if a < 0x20000000 then .unmapped
  else if a < 0x201A0000 then .regs
  else if a < 0x21000000 then .unmapped
  else if a < 0x21010000 then .peop
  else if a < 0x30000000 then .unmapped
  else if a < 0x30010000 then .polregs
  else if a < 0x30100000 then .unmapped
  else if a < 0x30108000 then .polsram
  else if a < 0x40000000 then .unmapped
  else if a < 0x50000000 then .xspi
  else if a < 0x80000000 then .unmapped
  else if a < h.ddrTop then .ddr
  else .unmapped

/-- Device space (R30). -/
def Region.device : Region → Bool
  | .regs | .peop | .polregs => true
  | _ => false

/-- Cacheable read-write normal memory (R168). -/
def Region.cached : Region → Bool
  | .mram | .sram | .ddr => true
  | _ => false

/-- A memory whose check bits cover 32-bit words: the retention SRAM (R376) and LMEM, whose words are 4 bytes (R233). -/
def Region.narrow : Region → Bool
  | .polsram | .lmem => true
  | _ => false

/-- The LCS area (R118). -/
def inLcsArea (a : Nat) : Bool := 0x00FC0000 ≤ a && a < 0x01000000

/-- The audit part of the LCS area (R118). -/
def inAudit (a : Nat) : Bool := 0x00FC0000 ≤ a && a < 0x00FF0000

/-! ### Bytes and dirty copies -/

/-- The dirty byte of a cache at `a`, if it holds one. -/
def ofind (l : List Host.Cell) (a : Nat) : Option Byte := (l.find? (fun e => e.1 == a)).map (·.2)

/-- The 64-byte line of an address (R6). -/
def lineOf (a : Nat) : Nat := a / 64

/-- The dirty bytes of one line. -/
def oline (l : List Host.Cell) (n : Nat) : List Host.Cell := l.filter (fun e => lineOf e.1 == n)

/-- A cache without the bytes of one line. -/
def odrop (l : List Host.Cell) (n : Nat) : List Host.Cell := l.filter (fun e => lineOf e.1 != n)

/-- Bytes laid over a cache's dirty bytes. -/
def oput (l bs : List Host.Cell) : List Host.Cell := bs.foldr (fun (e : Host.Cell) l => mins e.1 e.2 l) l

/-- The bytes of `bs` as cells from address `a` on. -/
def cellsAt : Nat → List Byte → List Host.Cell
  | _, [] => []
  | a, b :: t => (a, b) :: cellsAt (a + 1) t

/-- A table of bytes with the bytes of `bs` written. -/
def cellsIn (d : Byte) (m bs : List Host.Cell) : List Host.Cell := bs.foldr (fun (e : Host.Cell) m => mput (fun _ => d) m e.1 e.2) m

/-- The byte stored in the memory behind the caches. -/
def Hw.backing (h : Hw) (a : Nat) : Byte := mget (fun _ => 0) h.mem a

/-- The byte that a coherent read of `a` returns (R27, R208): a dirty copy's, else the L2's, else the memory's. -/
def Hw.byte (h : Hw) (a : Nat) : Byte :=
  match h.region a with
  | .rom => Config.romByte (a - 0x01000000)
  | .xspi =>
    match h.xspi.lines.find? (fun e => e.1 == lineOf a) with
    | some e => e.2.getD (a % 64) 0xFF
    | none => mget (fun _ => 0xFF) h.nvm (a - 0x40000000)
  | _ =>
    match ofind h.dc0 a with
    | some b => b
    | none =>
      match ofind h.dc1 a with
      | some b => b
      | none =>
        match ofind h.pec a with
        | some b => b
        | none =>
          match ofind h.l2 a with
          | some b => b
          | none => h.backing a

/-- A read of the xSPI window at `a` waits: an indirect command or its polling runs, and no cached copy answers (R351). -/
def Hw.windowWaits (h : Hw) (a : Nat) : Bool :=
  h.region a == .xspi && h.xspi.cmd.isSome && !h.xspi.tmo && !(h.xspi.lines.any (fun e => e.1 == lineOf a))

/-- A read of `n` bytes from `a` on waits for the xSPI window (R351). -/
def Hw.windowHeld (h : Hw) (a n : Nat) : Bool := h.windowWaits a || h.windowWaits (a + n - 1)

/-- Every byte that a coherent read finds listed, in memory or in a cache. -/
def Hw.viewNow (h : Hw) : List Host.Cell := [h.l2, h.pec, h.dc1, h.dc0].foldl (fun m l => l.foldr (fun (e : Host.Cell) m => mins e.1 e.2 m) m) h.mem

/-- `n` bytes from `a` on. -/
def Hw.bytes (h : Hw) (a : Nat) : Nat → List Byte
  | 0 => []
  | n + 1 => h.byte a :: h.bytes (a + 1) n

/-- The little-endian number in `n` bytes at `a`. -/
def Hw.loadN (h : Hw) (a n : Nat) : Nat := leNat (h.bytes a n)

/-- One agent's dirty bytes. -/
def Hw.ov (h : Hw) : Agent → List Host.Cell
  | .m0 => h.dc0
  | .m1 => h.dc1
  | .pe => h.pec

/-- One agent's dirty bytes are `l`. -/
def Hw.setOv (h : Hw) (g : Agent) (l : List Host.Cell) : Hw :=
  match g with
  | .m0 => { h with dc0 := l }
  | .m1 => { h with dc1 := l }
  | .pe => { h with pec := l }

/-- The directory entry of a line (R203). -/
def Hw.dirAt (h : Hw) (n : Nat) : DirEnt := tget {} h.dir n

/-- The directory entry of a line is `e`. -/
def Hw.setDir (h : Hw) (n : Nat) (e : DirEnt) : Hw := { h with dir := tput {} h.dir n e }

/-- The key of the 32-bit word at `a` among the upsets, in a memory with check bits for each (R233, R376). -/
def narrowKey (a : Nat) : Nat := 2 ^ 40 + a / 4

/-- The address of the word that a key among the upsets stands for. -/
def keyAddr (k : Nat) : Nat := if k < 2 ^ 40 then k * 8 else (k - 2 ^ 40) * 4

/-- How many bytes that word has. -/
def keyLen (k : Nat) : Nat := if k < 2 ^ 40 then 8 else 4

/-- The cells of `bs` hold every byte of the word that the key stands for. -/
def keyWhole (bs : List Host.Cell) (k : Nat) : Bool := (List.range (keyLen k)).all (fun i => bs.any (fun e => e.1 == keyAddr k + i))

/-- Memory bytes behind the caches take the bytes of `bs`; a word written whole loses its poison (R191), and the Polder core
loses a reservation on a retention SRAM line written (R375). -/
def Hw.memPut (h : Hw) (bs : List Host.Cell) : Hw :=
  { h with
    mem := cellsIn 0 h.mem bs
    upsets := h.upsets.filter (fun u => !keyWhole bs u.1)
    pol := { h.pol with resv := match h.pol.resv with
      | some n => if bs.any (fun e => e.1 / 64 == n) then none else some n
      | none => none } }

/-- What the check bits of the L2's copies say, but for line `n`. -/
def Hw.l2Clear (h : Hw) (n : Nat) : SMap Upset := h.l2ups.filter (fun u => u.1 / 8 != n)

/-- What the check bits of the L2's copies say once the cells of `bs` are stored: a word written whole has new ones (R210). -/
def Hw.l2Whole (h : Hw) (bs : List Host.Cell) : SMap Upset := h.l2ups.filter (fun u => !keyWhole bs u.1)

/-- The agent's dirty bytes of line `n` move into the L2 (R204, R206). -/
def Hw.recall (h : Hw) (g : Agent) (n : Nat) : Hw :=
  let d := oline (h.ov g) n
  ({ h with l2 := oput h.l2 d, l2ups := h.l2Whole d }).setOv g (odrop (h.ov g) n)

/-- Every agent's dirty bytes of line `n` move into the L2; the order is the reverse of that in which a read looks for them, so that no
read changes whatever the caches hold. -/
def Hw.recallAll (h : Hw) (n : Nat) : Hw := ((h.recall .pe n).recall .m1 n).recall .m0 n

/-! ### Check bits (R190, R202, R210, R214) -/

/-- A single-bit error in 64-bit word `w` was corrected: counted and recorded where the word lies (R190, R202, R214). -/
def Hw.corrected (h : Hw) (w : Nat) : Hw :=
  let h := { h with upsets := mdel w h.upsets }
  let a := BitVec.ofNat 32 (w * 8)
  match h.region (w * 8) with
  | .mram => ((h.inc MRC_ECC_CNT.CE).wr MRC_CE_ADDR a).up MRC_STAT.ECC_CE
  | .sram => ((h.inc HUB_ECC_CNT.CE).up HUB_STAT.CE).up HUB_STAT.SRC
  | .ddr => (h.inc DDR_ECC_CNT.CE).up DDR_STAT.CE
  | _ => h

/-- An uncorrectable error in 64-bit word `w` was read (R190, R202, R214). -/
def Hw.uncorrected (h : Hw) (w : Nat) : Hw :=
  let a := BitVec.ofNat 32 (w * 8)
  match h.region (w * 8) with
  | .mram => ((if h.on MRC_STAT.ECC_UE then h else h.wr MRC_UE_ADDR a).inc MRC_ECC_CNT.UE).up MRC_STAT.ECC_UE
  | .sram => ((if h.on HUB_STAT.UE then h else h.wr HUB_ECC_ADDR a).up HUB_STAT.UE).up HUB_STAT.SRC
  | .ddr => (if h.on DDR_STAT.UE then h else h.wr DDR_ECC_ADDR a).up DDR_STAT.UE
  | _ => h

/-- A single-bit error in the L2's copy of word `w` was corrected: SRC = 0, line 40 (R210). -/
def Hw.l2Corrected (h : Hw) (w : Nat) : Hw := ((({ h with l2ups := mdel w h.l2ups }).inc HUB_ECC_CNT.CE).up HUB_STAT.CE).clr HUB_STAT.SRC

/-- An uncorrectable error in the L2's copy of word `w` was read: SRC = 0, line 41 (R210). -/
def Hw.l2Uncorrected (h : Hw) (w : Nat) : Hw :=
  ((if h.on HUB_STAT.UE then h else h.wr HUB_ECC_ADDR (BitVec.ofNat 32 (w * 8))).up HUB_STAT.UE).clr HUB_STAT.SRC

/-- What a read of some bytes finds out about their check bits. -/
inductive EccRes where
  | good | bad | dirErr
  deriving DecidableEq, Repr

/-- What the check bits of the stored word `w` say: LPDDR4 has them with inline ECC alone (R214). -/
def Hw.memUpset (h : Hw) (w : Nat) : Upset := if h.region (w * 8) = .ddr ∧ h.inlineEcc = false then .none else tget .none h.upsets w

/-- The stored word `w` is read (R190, R202, R214). -/
def Hw.memWord (h : Hw) (w : Nat) : Hw × EccRes :=
  match h.memUpset w with
  | .none => (h, .good)
  | .single => (h.corrected w, .good)
  | _ => (h.uncorrected w, .bad)

/-- The L2's copy of word `w` is read (R210). -/
def Hw.l2Word (h : Hw) (w : Nat) : Hw × EccRes :=
  match tget Upset.none h.l2ups w with
  | .l2Single => (h.l2Corrected w, .good)
  | .l2Bad => (h.l2Uncorrected w, .bad)
  | _ => (h, .good)

/-- An agent holds a dirty byte at `a`. -/
def Hw.agentAt (h : Hw) (a : Nat) : Bool := (ofind h.dc0 a).isSome || (ofind h.dc1 a).isSome || (ofind h.pec a).isSome

/-- Some cache holds a dirty byte at `a`. -/
def Hw.cachedAt (h : Hw) (a : Nat) : Bool := (ofind h.l2 a).isSome || h.agentAt a

/-- Every byte of word `w` is dirty with an agent, so that no read needs the L2's copy (log entry 129). -/
def Hw.agentCovered (h : Hw) (w : Nat) : Bool := (List.range 8).all (fun i => h.agentAt (w * 8 + i))

/-- Every byte of word `w` is dirty in a cache, so that no read needs the stored word (log entry 129). -/
def Hw.covered (h : Hw) (w : Nat) : Bool := (List.range 8).all (fun i => h.cachedAt (w * 8 + i))

/-- The check bits of one 64-bit word as a read through the Hub meets them: those of the line's directory entry, of the L2's copy
unless an agent has written the word whole, and of the stored word unless cached copies cover it (R190, R210). -/
def Hw.eccWord (h : Hw) (w : Nat) : Hw × EccRes :=
  if (h.dirAt (w / 8)).poisoned then (h, .dirErr)
  else if h.agentCovered w then (h, .good)
  else if tget Upset.none h.l2ups w ≠ .none then h.l2Word w
  else if h.covered w then (h, .good)
  else h.memWord w

/-- Check bits, word after word; the first error stands. -/
def eccFold (f : Hw → Nat → Hw × EccRes) (h : Hw) (l : List Nat) : Hw × EccRes :=
  l.foldl (fun p w => let q := f p.1 w; (q.1, if p.2 = .good then q.2 else p.2)) (h, .good)

/-- The 64-bit words of line `n`. -/
def lineWords (n : Nat) : List Nat := (List.range 8).map (· + n * 8)

/-- The 64-bit words that the cells of `bs` cover in part: a store to one is a read, a merge and a write (R188, R201, R214). -/
def partWords (bs : List Host.Cell) : List Nat :=
  ((bs.map (fun e => e.1 / 8)).dedup).filter (fun w => !(List.range 8).all (fun i => bs.any (fun e => e.1 == w * 8 + i)))

/-- The reads that go before a store through the Hub which covers words in part. -/
def Hw.merged (h : Hw) (bs : List Host.Cell) : Hw := (eccFold Hw.eccWord h (partWords bs)).1

/-- The reads that go before a store straight to a memory. -/
def Hw.mergedMem (h : Hw) (bs : List Host.Cell) : Hw := (eccFold Hw.memWord h (partWords bs)).1

/-- Eight bytes that the spec leaves open, in word `w` of a memory behind the caches. -/
def Hw.spoil (h : Hw) (w : Nat) : Hw :=
  let d := h.drawBytes 8
  { d.1 with mem := cellsIn 0 d.1.mem (cellsAt (w * 8) d.2) }

/-- What the writeback of a word whose L2 copy is uncorrectable leaves: in MRAM a poisoned word (R191); elsewhere its data are left
open (R202; log entry 130). -/
def Hw.writeBad (h : Hw) (w : Nat) : Hw :=
  if h.region (w * 8) = .mram then { h with upsets := mins w Upset.uncorrectable h.upsets } else h.spoil w

/-- The words of line `n` whose L2 copy is uncorrectable, and in MRAM all of a line whose directory entry is (R191, R210). -/
def Hw.badWords (h : Hw) (n : Nat) : List Nat :=
  (lineWords n).filter (fun w => tget Upset.none h.l2ups w = .l2Bad || ((h.dirAt n).poisoned && h.region (w * 8) == .mram))

/-- Line `n` is written back to its memory, all of it as one group, and is clean (R70, R170, R189, R191, R207). A line that no cache
holds dirty is not written. -/
def Hw.cleanLine (h : Hw) (n : Nat) : Hw :=
  let h := h.recallAll n
  let d := oline h.l2 n
  if d.isEmpty then h
  else
    let h := (eccFold Hw.l2Word h (lineWords n)).1
    let h := { (h.memPut d) with l2 := odrop h.l2 n }
    (h.badWords n).foldl (fun h w => h.writeBad w) h

/-- The lines with a dirty byte, each once. -/
def Hw.dirtyLines (h : Hw) : List Nat := ((h.dc0 ++ h.dc1 ++ h.pec ++ h.l2).map (fun e => lineOf e.1)).dedup

/-- The dirty lines in the MRAM range (R57). -/
def Hw.dirtyMram (h : Hw) : List Nat := h.dirtyLines.filter (fun n => n * 64 < 0x01000000)

/-- The dirty lines in the SRAM range. -/
def Hw.dirtySram (h : Hw) : List Nat := h.dirtyLines.filter (fun n => 0x10000000 ≤ n * 64 && n * 64 < 0x10200000)

/-- The named lines are written back. -/
def Hw.cleanLines (h : Hw) (l : List Nat) : Hw := l.foldl (fun h n => h.cleanLine n) h

/-- Every cache forgets its lines; dirty bytes are lost (R116, R490). -/
def Hw.dropCaches (h : Hw) : Hw :=
  { h with dc0 := [], dc1 := [], pec := [], l2 := [], l2ups := [], dir := [], xspi := { h.xspi with lines := [] },
           m0 := { h.m0 with icache := [], resv := none }, m1 := { h.m1 with icache := [], resv := none } }

/-- Reservations on line `n` are cleared (R169, R205). -/
def Hw.killResv (h : Hw) (n : Nat) : Hw :=
  { h with m0 := { h.m0 with resv := if h.m0.resv = some n then none else h.m0.resv },
           m1 := { h.m1 with resv := if h.m1.resv = some n then none else h.m1.resv } }

/-- The reservation of the core that is agent `g`, where it names line `n`, is cleared. -/
def Hw.loseResv (h : Hw) (g : Agent) (n : Nat) : Hw :=
  match g with
  | .m0 => { h with m0 := { h.m0 with resv := if h.m0.resv = some n then none else h.m0.resv } }
  | .m1 => { h with m1 := { h.m1 with resv := if h.m1.resv = some n then none else h.m1.resv } }
  | .pe => h

/-- The agents other than `g`. -/
def otherAgents (g : Agent) : List Agent := [Agent.m0, .m1, .pe].filter (· ≠ g)

/-- Agent `g` holds line `n` OWNED: every other copy is recalled and invalidated first, and the others lose their
reservations on it (R204, R205). -/
def Hw.own (h : Hw) (g : Agent) (n : Nat) : Hw :=
  let e := h.dirAt n
  let h := (otherAgents g).foldl (fun h a => h.loseResv a n) h
  if e.st = .owned ∧ e.holders = [g] ∧ (otherAgents g).all (fun a => (oline (h.ov a) n).isEmpty) then h
  else (h.recallAll n).setDir n { e with st := .owned, holders := [g], last := some g }

/-- Agent `g` has performed the access for which it was granted line `n`; where requests are queued, the recall for the next puts the
line in TRANSIT (R204). -/
def Hw.performed (h : Hw) (g : Agent) (n : Nat) : Hw :=
  let e := h.dirAt n
  if e.owed = some g then h.setDir n { e with owed := none, st := if e.queue = [] then e.st else .transit } else h

/-- An ownership request of agent `g` for line `n` must wait: others' requests are queued, or a granted agent's access is still to
come (R204). -/
def Hw.mustQueue (h : Hw) (g : Agent) (n : Nat) : Bool :=
  let e := h.dirAt n
  (e.queue != [] || e.owed.isSome) && e.owed != some g

/-- The request of agent `g` for line `n` is queued, and counted where the line is in TRANSIT (R204). -/
def Hw.joinQueue (h : Hw) (g : Agent) (n : Nat) : Hw :=
  let e := h.dirAt n
  if !h.mustQueue g n || e.queue.contains g then h
  else
    let h := h.setDir n { e with queue := e.queue ++ [g] }
    if e.st = .transit then h.inc HUB_QWAIT_CNT.COUNT else h

/-- A request that is no ownership request reaches line `n`: at a line in TRANSIT it is queued and counted, and waits for the
writeback alone (R204, R206). -/
def Hw.metTransit (h : Hw) (n : Nat) : Hw := if (h.dirAt n).st = .transit then h.inc HUB_QWAIT_CNT.COUNT else h

/-- The owner's copy of line `n` is recalled into the L2, and the agents that held it lose their ownership, and with it their
reservations on the line (R204, R205). -/
def Hw.recallOwner (h : Hw) (n : Nat) : Hw :=
  let e := h.dirAt n
  if e.st = .owned ∨ e.st = .transit then e.holders.foldl (fun h a => h.loseResv a n) (h.recallAll n) else h

/-- Agent `g` reads line `n`: another's OWNED copy is recalled, and both share the line (R203, R206). A writeback in flight completes
first (R204). A line that a granted agent has still to use is read and not recalled (R204; log entry 133). -/
def Hw.share (h : Hw) (g : Agent) (n : Nat) : Hw :=
  let e := h.dirAt n
  if e.holders.contains g || e.owed.isSome then h
  else ((h.metTransit n).recallOwner n).setDir n
    { e with st := if e.queue = [] then .shared else e.st, holders := if e.queue = [] then e.holders ++ [g] else e.holders }

/-- An operation at the Hub reads line `n`: an owner's copy is recalled first, and the owner holds it no longer (R205). A line that a
granted agent has still to use is not recalled (R204; log entry 133). -/
def Hw.hubRecall (h : Hw) (n : Nat) : Hw :=
  let e := h.dirAt n
  if e.owed.isSome then h
  else
    let h := (h.metTransit n).recallOwner n
    if e.st = .owned then h.setDir n { e with st := .clean, holders := [] } else h

/-- Another initiator reads line `n`: an OWNED copy is written back into the L2 and kept clean (R206). -/
def Hw.readThrough (h : Hw) (n : Nat) : Hw :=
  let e := h.dirAt n
  let h := (h.metTransit n).recallAll n
  if e.st = .invalid then h.setDir n { e with st := .clean } else h

/-- Another initiator writes line `n`: every agent's copy is invalidated, dirty data recalled first (R206), and reservations
on the line are cleared (R205). A line that a granted agent has still to use stays with it, and its access meets what was written
(R204; log entry 133); the requests queued at a line stay queued. -/
def Hw.claimWrite (h : Hw) (n : Nat) : Hw :=
  let e := h.dirAt n
  (((h.metTransit n).recallAll n).setDir n
    (if e.owed.isSome ∨ e.queue ≠ [] then e else { e with st := .clean, holders := [] })).killResv n

/-- The L2 evicts line `n`: agent copies go first, then the line is written back and leaves; reservations on it are cleared
(R205, R207). A line that a directory error poisoned stays so (R210). -/
def Hw.evict (h : Hw) (n : Nat) : Hw :=
  let e := h.dirAt n
  let h := { h with xspi := { h.xspi with lines := mdel n h.xspi.lines } }
  let h := h.cleanLine n
  (({ h with l2ups := h.l2Clear n }).setDir n { e with st := .invalid, holders := [] }).killResv n

/-- `a` lies in an enabled write-through range (R209). -/
def Hw.writeThrough (h : Hw) (a : Nat) : Bool :=
  a < 0x01000000 && (List.range 8).any (fun r =>
    h.on (HUB_WT_BASE.EN r) && h.get (HUB_WT_BASE.ADDR r) * 64 ≤ a && a < h.get (HUB_WT_LIMIT.ADDR r) * 64 + 64)

/-- A cache's dirty byte is replaced where the cache holds one. -/
def orepl (l : List Host.Cell) (e : Host.Cell) : List Host.Cell := l.map (fun x => if x.1 = e.1 then e else x)

/-- Bytes go straight to memory; copies that hold them follow (R209). -/
def Hw.pokeMem (h : Hw) (bs : List Host.Cell) : Hw :=
  { (h.memPut bs) with dc0 := bs.foldl orepl h.dc0, dc1 := bs.foldl orepl h.dc1, pec := bs.foldl orepl h.pec, l2 := bs.foldl orepl h.l2 }

/-- The lines that `n` bytes from `a` on touch. -/
def linesOf (a n : Nat) : List Nat := (List.range ((a + n - 1) / 64 - a / 64 + 1)).map (· + a / 64)

/-- An agent stores bytes to cacheable memory: it owns each line; inside a write-through range the bytes go to MRAM, elsewhere
they are dirty in its cache (R208, R209). Every reservation on the lines is cleared (R205). -/
def Hw.agentStore (h : Hw) (g : Agent) (a : Nat) (bs : List Byte) : Hw :=
  let ls := linesOf a bs.length
  let cs := cellsAt a bs
  let h := ls.foldl (fun h n => h.own g n) (h.merged cs)
  let h := h.pokeMem (cs.filter (fun e => h.writeThrough e.1))
  let h := h.setOv g (oput (h.ov g) (cs.filter (fun e => !h.writeThrough e.1)))
  ls.foldl (fun h n => (h.killResv n).performed g n) h

/-- Another initiator, or an atomic operation at the Hub, stores the bytes of `cs`, which lie in the lines `ls` of cacheable memory
(R205, R206). -/
def Hw.hubCells (h : Hw) (ls : List Nat) (cs : List Host.Cell) : Hw :=
  let h := ls.foldl (fun h n => h.claimWrite n) (h.merged cs)
  let h := h.pokeMem (cs.filter (fun e => h.writeThrough e.1))
  { h with l2 := oput h.l2 (cs.filter (fun e => !h.writeThrough e.1)), l2ups := h.l2Whole cs }

/-- It stores bytes from `a` on. -/
def Hw.hubStore (h : Hw) (a : Nat) (bs : List Byte) : Hw := h.hubCells (linesOf a bs.length) (cellsAt a bs)

/-- One aligned group of 64 bytes is written to its memory: a log record or a header (R189, R194, R197). Copies elsewhere in the
line's caches go, and every word of it has new check bits. -/
def Hw.groupWrite (h : Hw) (a : Nat) (bs : List Byte) : Hw :=
  let cs := cellsAt a bs
  let h := (linesOf a bs.length).foldl (fun h n => h.claimWrite n) h
  { (h.memPut cs) with l2 := cs.foldl (fun l e => l.filter (fun x => x.1 != e.1)) h.l2, l2ups := h.l2Whole cs }

/-! ### Error correction -/
/-- The check bits of one 32-bit word of a memory that has them for each (R233, R376). -/
def Hw.eccNarrow (h : Hw) (k : Nat) : Hw × EccRes :=
  match tget Upset.none h.upsets k with
  | .none => (h, .good)
  | .single => ({ h with upsets := mdel k h.upsets }, .good)
  | _ => (h, .bad)

/-- The 32-bit words of such a memory that the cells of `bs` cover in part. -/
def partNarrow (bs : List Host.Cell) : List Nat := ((bs.map (fun e => narrowKey e.1)).dedup).filter (fun k => !keyWhole bs k)

/-- The bytes of `cs` stored straight to a memory that no cache covers, with check bits for each 32-bit word or not: a word covered in
part is read and merged (R201, R233, R376). -/
def Hw.straightCells (h : Hw) (narrow : Bool) (cs : List Host.Cell) : Hw :=
  (if narrow then (eccFold Hw.eccNarrow h (partNarrow cs)).1 else h.mergedMem cs).pokeMem cs

/-- Bytes stored straight to memory from `a` on. -/
def Hw.straight (h : Hw) (a : Nat) (bs : List Byte) : Hw := h.straightCells (h.region a).narrow (cellsAt a bs)

/-- Bytes written by any initiator that is no Hub agent, to normal memory of any kind. -/
def Hw.writeMem (h : Hw) (a : Nat) (bs : List Byte) : Hw :=
  if bs = [] then h
  else if (h.region a).cached then h.hubStore a bs else h.straight a bs

/-- Some bytes of line `n` written by a lane's L1 (R227). -/
def Hw.lineStore (h : Hw) (n : Nat) (cs : List Host.Cell) : Hw :=
  if cs = [] then h
  else if (h.region (n * 64)).cached then h.hubCells [n] cs else h.straightCells (h.region (n * 64)).narrow cs

/-- The check bits of the words that `n` bytes from `a` on touch (R190, R233, R376). -/
def Hw.eccRead (h : Hw) (a n : Nat) : Hw × EccRes :=
  if (h.region a).narrow then
    eccFold Hw.eccNarrow h ((List.range ((a + n - 1) / 4 - a / 4 + 1)).map (fun i => narrowKey a + i))
  else
    eccFold Hw.eccWord h ((List.range ((a + n - 1) / 8 - a / 8 + 1)).map (· + a / 8))

/-- Line `n` of the bytes named was poisoned by a directory error: no access to it succeeds (R210). -/
def Hw.linePoisoned (h : Hw) (a n : Nat) : Bool := (h.region a).cached && (linesOf a n).any (fun l => (h.dirAt l).poisoned)

/-- An upset is met by this access: a single or uncorrectable error in the word of `a` or in its copy in the L2, or a parity error in
its line's directory entry (R190, R210, R233, R376). -/
def Hw.upset (h : Hw) (u : Upset) (a : Nat) : Hw :=
  match u with
  | .none => h
  | .directory =>
    let n := lineOf a
    if (h.region a).cached then (h.setDir n { h.dirAt n with poisoned := true }).up HUB_STAT.DIR_ERR else h
  | .l2Single | .l2Bad => if (h.region a).cached then { h with l2ups := mins (a / 8) u h.l2ups } else h
  | u =>
    if (h.region a).cached then { h with upsets := mins (a / 8) u h.upsets }
    else if (h.region a).narrow then { h with upsets := mins (narrowKey a) u h.upsets } else h

/-! ### The MPU and DMA -/

/-- A permission of an MPU region (R158). -/
inductive Perm where
  | r | w | x
  deriving DecidableEq, Repr

/-- Region `r` of tenant `t` is enabled, grants the permission and contains the `n` bytes from `a` on (R158). -/
def Hw.regionGrants (h : Hw) (t r : Nat) (p : Perm) (a n : Nat) : Bool :=
  h.on (TEN_RGN_BASE.EN_L t r) &&
  (match p with
    | .r => h.on (TEN_RGN_BASE.R_L t r)
    | .w => h.on (TEN_RGN_BASE.W_L t r)
    | .x => h.on (TEN_RGN_BASE.X_L t r)) &&
  h.get (TEN_RGN_BASE.ADDR_L t r) * 256 ≤ a && a + n ≤ h.get (TEN_RGN_LIMIT.ADDR_L t r) * 256 + 256

/-- One enabled region of the tenant contains all the bytes and grants the permission (R37, R158). -/
def Hw.mpuAllows (h : Hw) (t : Nat) (p : Perm) (a n : Nat) : Bool := (List.range 8).any (fun r => h.regionGrants t r p a n)

/-- A core access was refused by the MPU: TEN records it while no record is held (R158). `c` is 0 for M0 and 1 for M1. -/
def Hw.violation (h : Hw) (c : Nat) (a t : Nat) (p : Perm) : Hw :=
  if h.on (TEN_VIOL_INFO.VALID c) then h
  else h.sets [(TEN_VIOL_ADDR.ADDR c, a), (TEN_VIOL_INFO.TID c, t), (TEN_VIOL_INFO.KIND c, match p with | .r => 0 | .w => 1 | .x => 2),
    (TEN_VIOL_INFO.VALID c, 1)]

/-- A DMA access was refused: TEN records it while no record is held, line 34 (R37). -/
def Hw.dmaViolation (h : Hw) (a t init : Nat) : Hw :=
  if h.on TEN_DMAV_INFO.VALID then h
  else h.sets [(TEN_DMAV_ADDR.ADDR, a), (TEN_DMAV_INFO.TID, t), (TEN_DMAV_INFO.INIT, init), (TEN_DMAV_INFO.VALID, 1)]

/-- Why a DMA access to memory failed. -/
inductive DmaErr where
  | denied | bus | ecc
  deriving DecidableEq, Repr

/-- All `n` bytes from `a` on lie in normal memory that `t` may reach by address (R25, R33, R118); a window read
receives a bus error while the link is held down (R353). -/
def Hw.dmaMapped (h : Hw) (t a n : Nat) (write : Bool) : Bool :=
  let r := h.region a
  r == h.region (a + n - 1) && !r.device && r != .unmapped && !(r == .xspi && h.on XSPI_NEG_RESULT.LINK_FLOOR) &&
  (!write || (r != .rom && r != .xspi)) &&
  !((inLcsArea a || inLcsArea (a + n - 1)) && !(inAudit a && inAudit (a + n - 1) && t == 0 && !write))

/-- The MPU lets tenant `t` make a DMA access; TID 0 is never refused (R36, R37). -/
def Hw.dmaAllowed (h : Hw) (t : Nat) (p : Perm) (a n : Nat) : Bool := t == 0 || h.mpuAllows t p a n

/-- A DMA read of `n` bytes with TID `t` by initiator `init` (R27, R37, R206). -/
def Hw.dmaRead (h : Hw) (t init a n : Nat) : Hw × Except DmaErr (List Byte) :=
  if n = 0 then (h, .ok [])
  else if !h.dmaAllowed t .r a n then (h.dmaViolation a t init, .error .denied)
  else if !h.dmaMapped t a n false then (h, .error .bus)
  else
    let h := if (h.region a).cached then (linesOf a n).foldl (fun h l => h.readThrough l) h else h
    let q := h.eccRead a n
    if q.2 = .good then (q.1, .ok (q.1.bytes a n)) else (q.1, .error .ecc)

/-- A DMA write with TID `t` by initiator `init` (R27, R37, R206). -/
def Hw.dmaWrite (h : Hw) (t init a : Nat) (bs : List Byte) : Hw × Option DmaErr :=
  if bs = [] then (h, none)
  else if !h.dmaAllowed t .w a bs.length then (h.dmaViolation a t init, some .denied)
  else if !h.dmaMapped t a bs.length true then (h, some .bus)
  else if h.linePoisoned a bs.length then (h, some .ecc)
  else (h.writeMem a bs, none)

end Sys2Proof.Machine
end

