-- ==== Sys2Proof/Machine/Auth.lean ====
section
/-! DEFINITION. The adaptive loops under the authority doctrine (spec/01_architecture.md R38 to R45, R483): every group has one
layout, so every loop shares these operations. -/

namespace Sys2Proof.Machine

/-- A loop's register group: its base address, and the width and signedness of its bounds. -/
structure LoopG where
  base : Nat
  wid : Nat
  signed : Bool
  deriving DecidableEq, Repr

/-- A value field of the group. -/
def LoopG.fld (g : LoopG) (o : Nat) : Fld := ⟨g.base + o, 0, g.wid⟩

/-- A field of the group read as its loop reads it. -/
def Hw.loopVal (h : Hw) (g : LoopG) (o : Nat) : Int := if g.signed then h.getS (g.fld o) else (h.get (g.fld o) : Nat)

/-- MODE in force: 0 OFF, 1 AUTO, 2 PINNED (R44). -/
def Hw.loopMode (h : Hw) (g : LoopG) : Nat := h.get ⟨g.base + 0xC, 0, 2⟩

/-- CONFLICT_IE in force (R41). -/
def Hw.loopIe (h : Hw) (g : LoopG) : Bool := h.on ⟨g.base + 0xC, 4, 1⟩

/-- LOW in force. -/
def Hw.loopLow (h : Hw) (g : LoopG) : Int := h.loopVal g 0x20

/-- HIGH in force. -/
def Hw.loopHigh (h : Hw) (g : LoopG) : Int := h.loopVal g 0x24

/-- The pinned value in force. -/
def Hw.loopPin (h : Hw) (g : LoopG) : Int := h.loopVal g 0x28

/-- The hint, which is Live (R44). -/
def Hw.loopHint (h : Hw) (g : LoopG) : Int := h.loopVal g 0x1C

/-- The loop exceeds a bound or its pin for safety: OVERRIDE sets, line 1 (R42, R43). -/
def Hw.loopOverride (h : Hw) (g : LoopG) : Hw := h.up ⟨g.base + 4, 0, 1⟩

/-- The safe in-bound action is in force, or no longer (R42). -/
def Hw.loopSafe (h : Hw) (g : LoopG) (b : Bool) : Hw := h.put ⟨g.base + 4, 3, 1⟩ b

/-- One conflict: CONFLICT rises, saturating, and with CONFLICT_IE sets CONFLICT_SEEN (R41). -/
def Hw.loopConflict (h : Hw) (g : LoopG) : Hw := (h.inc ⟨g.base + 8, 0, 16⟩).upIf (h.loopIe g) ⟨g.base + 4, 4, 1⟩

/-- AT_BOUND for the quantity in force (R483). -/
def Hw.loopReport (h : Hw) (g : LoopG) (l : Loop) (v : Int) : Hw :=
  let lo := h.loopLow g
  let hi := h.loopHigh g
  h.set ⟨g.base + 4, 1, 2⟩
    (if v < lo || hi < v then 3
     else if lo = hi then (if l.above then 2 else 1)
     else if v = lo then 1 else if v = hi then 2 else 0)

/-- Adaptation demands `d` in AUTO: past a bound it stops there and counts one conflict where R41 says so. Answers the new
conflict memory and the value the loop moves toward. -/
def Hw.loopDemand (h : Hw) (g : LoopG) (l : Loop) (d : Int) : Hw × Loop × Int :=
  let lo := h.loopLow g
  let hi := h.loopHigh g
  if hi < d then ((if l.side = 2 then h else h.loopConflict g), ⟨2, true⟩, hi)
  else if d < lo then ((if l.side = 1 then h else h.loopConflict g), ⟨1, false⟩, lo)
  else (h, ⟨0, false⟩, d)

/-- A demand made from the quantity `v` in force, up or down from it: one that leads from beyond a bound back toward it is part of the
move that R45 does not count. -/
def Hw.loopFrom (h : Hw) (g : LoopG) (l : Loop) (v d : Int) : Hw × Loop × Int :=
  if (h.loopHigh g < d ∧ d < v) ∨ (d < h.loopLow g ∧ v < d) then (h, { l with above := h.loopHigh g < d }, clampI (h.loopLow g) (h.loopHigh g) d)
  else h.loopDemand g l d

/-- Outside AUTO every earlier crossing is forgotten (R41). -/
def Loop.leave (l : Loop) : Loop := { l with side := 0 }

/-- One step of at most `step` from `v` toward `t`. -/
def slew (v t step : Int) : Int := if v < t then min t (v + step) else max t (v - step)

/-- The value at the nearer bound where `v` lies outside the bounds (R45). -/
def Hw.loopInside (h : Hw) (g : LoopG) (v : Int) : Int := clampI (h.loopLow g) (h.loopHigh g) v

/-- The loops of the table "Adaptive loops" (R38). -/
def loopServo : LoopG := ⟨CLK_SRV_AUTH, 32, true⟩
def loopAvs : LoopG := ⟨LAC_AVS_AUTH, 10, false⟩
def loopBst1 : LoopG := ⟨ADC_BST1_AUTH, 9, false⟩
def loopBst2 : LoopG := ⟨AOUT_BST2_AUTH, 9, false⟩
def loopThr : LoopG := ⟨POL_THR_AUTH, 16, true⟩
def loopPool (p : Nat) : LoopG := ⟨PE_POOL_AUTH p, 5, false⟩

/-- Every loop (R38). -/
def allLoops : List LoopG := [loopServo, loopAvs, loopBst1, loopBst2, loopThr] ++ (List.range 16).map loopPool

end Sys2Proof.Machine
end

