-- ==== Sys2Proof/Machine/Commit0.lean ====
section
/-! DEFINITION. What a running commit means to the blocks (spec/18_reconfiguration.md R427 to R431): captured values, and the
interval in which produced items are tagged. -/

namespace Sys2Proof.Machine

/-- CMT_STATUS.STATE codes. -/
def cmtIdle : Nat := 0
def cmtArmedRoll : Nat := 1
def cmtArmedDrain : Nat := 2
def cmtValidating : Nat := 3
def cmtDraining : Nat := 4
def cmtSwitching : Nat := 5

/-- Domain `d` of the running commit has captured values that it has not yet switched (R427, R429). -/
def Hw.awaits (h : Hw) (d : Nat) : Bool := h.cmt.captured.isSome && h.cmt.nextDom ≤ d

/-- The word captured for register address `a`, where a commit has captured (R427). -/
def Hw.capturedAt (h : Hw) (a : Nat) : Option (BitVec 32) := h.cmt.captured.map (fun l => mget resetWord l a)

/-- A staging field as the running commit's checks see it: its captured value, else the staging copy (R428). -/
def Hw.cap (h : Hw) (f : Fld) : Nat := f.of ((h.capturedAt f.adr).getD (h.rd f.adr))

/-- The captured field read as a signed number. -/
def Hw.capS (h : Hw) (f : Fld) : Int := sgn f.wid (h.cap f)

/-- The block of bit `b` of CMT_DRAIN_CFG.MASK starts no new work: a DRAIN commit drains, or was forced and has not reached its POL
edge (R432, R433). -/
def Hw.drained (h : Hw) (b : Nat) : Bool :=
  (h.get CMT_STATUS.STATE == cmtDraining || (h.cmt.forced && h.get CMT_STATUS.STATE == cmtSwitching)) &&
    bitOf (h.get CMT_DRAIN_CFG.MASK) b

/-- The field's captured value while domain `d` awaits its switch, else its value in force: `f` is the staging field and `live`
its _LIVE twin (R429). -/
def Hw.getCap (h : Hw) (d : Nat) (f live : Fld) : Nat :=
  if h.awaits d then
    match h.capturedAt f.adr with
    | some w => f.of w
    | none => h.get live
  else h.get live

/-- The instant lies between the TEN edge and the POL edge of a ROLL commit, a forced one included (R431, R433). -/
def Hw.inTransition (h : Hw) : Bool := h.get CMT_STATUS.STATE == cmtSwitching

/-- TGEN: bits [5:0] of the commit's generation (R431). -/
def Hw.tgen (h : Hw) : Nat := if h.inTransition then h.get CMT_GEN.GEN % 64 else 0

end Sys2Proof.Machine
end

