-- ==== Sys2Proof/Machine/Pool.lean ====
section
/-! DEFINITION. The Pool Engine (spec/10_pool_engine.md): handles, allocation, the spillway, operations on handles, the cache and
its watermark loop. -/

namespace Sys2Proof.Machine

/-- Initiator codes of TEN_DMAV_INFO.INIT and PE_FAULT_INFO.INIT. -/
def iniPe : Nat := 0
def iniLane : Nat := 1
def iniAdc : Nat := 2
def iniAout : Nat := 3
def iniEth (n : Nat) : Nat := 4 + n
def iniTwin : Nat := 6
def iniMrc : Nat := 7
def iniPolder : Nat := 8
def iniDebug : Nat := 9
def iniM0 : Nat := 12
def iniM1 : Nat := 13

/-- A pool's state beside its registers. -/
def Hw.pool (h : Hw) (p : Nat) : Pool := tget {} h.pools p

/-- A pool's state beside its registers is `x`; CCOUNT follows the cache (R249). -/
def Hw.setPool (h : Hw) (p : Nat) (x : Pool) : Hw :=
  ({ h with pools := tput {} h.pools p x }).set (PE_POOL_STAT.CCOUNT p) x.cache.length

/-! ### Handles (R245) -/

def hdlPool (w : Word) : Nat := w.toNat / 2 ^ 28
def hdlGen (w : Word) : Nat := w.toNat / 2 ^ 20 % 256
def hdlIndex (w : Word) : Nat := w.toNat / 16 % 65536
def hdlV (w : Word) : Bool := w.getLsbD 0

/-- The handle with these fields, V = 1. -/
def mkHandle (p gen idx : Nat) (sp : Bool) : Word := BitVec.ofNat 32 (p * 2 ^ 28 + gen % 256 * 2 ^ 20 + idx * 16 + 2 * b2n sp + 1)

/-- The word a failed ALLOC returns (R246). -/
def failWord (p reason : Nat) : Word := BitVec.ofNat 32 (p * 2 ^ 28 + reason * 16)

/-- Reasons of a failed ALLOC (R246). -/
def rsnEmpty : Nat := 1
def rsnQuota : Nat := 2
def rsnDisabled : Nat := 3
def rsnFailed : Nat := 4

/-- The size in bytes of a pool's buffers. -/
def Hw.poolSize (h : Hw) (p : Nat) : Nat := 2 ^ h.get (PE_POOL_CFG.LOG2SIZE_L p)

/-- The first byte of a handle's buffer (R245). -/
def Hw.bufAddr (h : Hw) (w : Word) : Nat := h.get (PE_POOL_AREA.ADDR_L (hdlPool w)) * 64 + hdlIndex w * h.poolSize (hdlPool w)

/-- The metadata address of buffer `i` of pool `p` (R245). -/
def Hw.metaAddr (h : Hw) (p i : Nat) : Nat := h.get (PE_POOL_META.ADDR_L p) * 64 + 16 * i

/-- COUNT mode in force. -/
def Hw.countMode (h : Hw) (p : Nat) : Bool := h.on (PE_POOL_CFG.MODE_L p)

/-- The pool goes into ring error: FAILED, line 107 (R263). -/
def Hw.ringError (h : Hw) (p : Nat) : Hw :=
  ((h.up (PE_POOL_STAT.FAILED p)).up PE_EVT.RING_ERR).set PE_EVT.RING_POOL p

/-- The metadata words of a buffer are readable (R263); an index that no buffer of the pool has names none (R247). -/
def Hw.metaOk (h : Hw) (p i : Nat) : Hw × Bool :=
  let a := h.metaAddr p i
  if h.get (PE_POOL_NBUF.COUNT_L p) ≤ i || !h.dmaMapped 0 a 16 true then (h, false)
  else let q := (if (h.region a).cached then h.share .pe (lineOf a) else h).eccRead a 16
    (q.1, q.2 = .good)

/-- The PE writes metadata bytes through its metadata cache (R247, R261). -/
def Hw.metaWrite (h : Hw) (p i o : Nat) (bs : List Byte) : Hw := h.agentStore .pe (h.metaAddr p i + o) bs

def Hw.metaHandle (h : Hw) (p i : Nat) : Word := BitVec.ofNat 32 (h.loadN (h.metaAddr p i) 4)
def Hw.metaOwner (h : Hw) (p i : Nat) : Nat := h.loadN (h.metaAddr p i + 4) 1 % 128
def Hw.metaAlloc (h : Hw) (p i : Nat) : Bool := 128 ≤ h.loadN (h.metaAddr p i + 4) 1
def Hw.metaRef (h : Hw) (p i : Nat) : Nat := h.loadN (h.metaAddr p i + 5) 1

/-- The bytes used of a buffer: LEN in its metadata (R246). -/
def Hw.bufLen (h : Hw) (w : Word) : Nat := h.loadN (h.metaAddr (hdlPool w) (hdlIndex w) + 8) 4

/-- The producer writes LEN; where the line is poisoned the access fails, and the pool is in ring error (R210, R263). -/
def Hw.setBufLen (h : Hw) (w : Word) (n : Nat) : Hw :=
  let a := h.metaAddr (hdlPool w) (hdlIndex w) + 8
  if h.linePoisoned a 4 then h.ringError (hdlPool w) else h.writeMem a (leBytes 4 n)

/-- Bytes 0 to 7 of a buffer's metadata (R246, R247). -/
def metaBytes (hdl : Word) (alloc : Bool) (owner ref : Nat) : List Byte :=
  leBytes 4 hdl.toNat ++ leBytes 1 (owner % 128 + 128 * b2n alloc) ++ leBytes 1 ref ++ zeros 2

/-! ### The ring (R241, R249) -/

/-- The ring address of entry `i`. -/
def Hw.ringAddr (h : Hw) (p i : Nat) : Nat := h.get (PE_POOL_RING.ADDR_L p) * 64 + 4 * i

/-- Up to `n` handles move from the ring into the cache; a failed access puts the pool in ring error (R249, R263). -/
def Hw.fetchRing (h : Hw) (p : Nat) : Nat → Hw
  | 0 => h
  | n + 1 =>
    if h.get (PE_POOL_RCOUNT.COUNT p) = 0 || h.on (PE_POOL_STAT.FAILED p) || 32 ≤ (h.pool p).cache.length then h
    else
      let x := h.pool p
      let q := h.dmaRead 0 iniPe (h.ringAddr p x.rpos) 4
      match q.2 with
      | .error _ => q.1.ringError p
      | .ok bs =>
        let h := q.1.setPool p { x with cache := x.cache ++ [BitVec.ofNat 32 (leNat bs)], rpos := (x.rpos + 1) % h.get (PE_POOL_NBUF.COUNT_L p) }
        (h.set (PE_POOL_RCOUNT.COUNT p) (h.get (PE_POOL_RCOUNT.COUNT p) - 1)).fetchRing p n

/-- Up to `n` handles move from the bottom of the cache back to the ring; a full ring or a failed access is a ring error
(R249, R263). -/
def Hw.spillRing (h : Hw) (p : Nat) : Nat → Hw
  | 0 => h
  | n + 1 =>
    let x := h.pool p
    match x.cache.getLast? with
    | none => h
    | some w =>
      let nb := h.get (PE_POOL_NBUF.COUNT_L p)
      if h.on (PE_POOL_STAT.FAILED p) then h
      else if nb ≤ h.get (PE_POOL_RCOUNT.COUNT p) then h.ringError p
      else
        let q := h.dmaWrite 0 iniPe (h.ringAddr p x.wpos) (leBytes 4 w.toNat)
        if q.2.isSome then q.1.ringError p
        else
          let h := q.1.setPool p { x with cache := x.cache.dropLast, wpos := (x.wpos + 1) % nb }
          (h.set (PE_POOL_RCOUNT.COUNT p) (h.get (PE_POOL_RCOUNT.COUNT p) + 1)).spillRing p n

/-! ### Allocation (R249, R250) -/

/-- MAX as requests are held to it: the captured value while POOL awaits its switch (R252, R429). -/
def Hw.quotaMax (h : Hw) (t p : Nat) : Nat := min (h.get (PE_Q_MAX.COUNT_L t p)) (h.getCap 2 (PE_Q_MAX.COUNT t p) (PE_Q_MAX.COUNT_L t p))

/-- The pool is enabled, and not about to be disabled by a commit whose check rested on INUSE = 0, as that of a pool in ring error does not
(R242, R429). -/
def Hw.poolOn (h : Hw) (p : Nat) : Bool :=
  h.on (PE_POOL_CFG.EN_L p) && (h.getCap 2 (PE_POOL_CFG.EN p) (PE_POOL_CFG.EN_L p) != 0 || h.cap (PE_POOL_STAT.FAILED p) != 0)

/-- The outcome of an ALLOC: a word, or held by pool `q`, while it initialises or under back-pressure. -/
inductive AllocRes where
  | word (w : Word)
  | held (q : Nat)
  deriving DecidableEq, Repr

/-- QUOTA: line 105 with the pool and the TID (R249, R250). -/
def Hw.quotaEvent (h : Hw) (p t : Nat) : Hw := ((h.up PE_EVT.QUOTA).set PE_QEVT.POOL p).set PE_QEVT.TID t

/-- An ALLOC found the cache of `p` empty in this epoch (R258, R259). -/
def Hw.noteMiss (h : Hw) (p : Nat) (rt : Bool) : Hw :=
  let x := h.pool p
  let h := h.setPool p { x with missed := true, rtMissed := x.rtMissed || rt }
  if rt then h.loopSafe (loopPool p) true else h

/-- A handle taken from the top of the cache of `q`, the cache refilled first where it is empty and the ring is not
(R249 step 4). -/
def Hw.takeHandle (h : Hw) (q : Nat) (rt : Bool) : Hw × Option Word :=
  let h := if (h.pool q).cache = [] then (h.noteMiss q rt).fetchRing q 8 else h
  match (h.pool q).cache with
  | [] => (h, none)
  | w :: t => (h.setPool q { h.pool q with cache := t }, some w)

/-- The handle `w` of pool `q` becomes an allocation of tenant `t`: USED rises and the metadata is written (R247, R249). No handle where
the metadata cannot be reached: the pool is in ring error (R263). -/
def Hw.grantBuf (h : Hw) (q t : Nat) (w : Word) (sp : Bool) : Hw × Option Word :=
  let i := hdlIndex w
  let m := h.metaOk q i
  if !m.2 then (m.1.ringError q, none)
  else
    let hd := mkHandle q (hdlGen w) i sp
    let h := m.1.metaWrite q i 0 (metaBytes hd true t 1 ++ zeros 8)
    let h := h.set (PE_Q_USED.COUNT t q) (h.get (PE_Q_USED.COUNT t q) + 1)
    let h := h.set (PE_POOL_INUSE.COUNT q) (h.get (PE_POOL_INUSE.COUNT q) + 1)
    (h.inc (PE_POOL_ALLOCS.COUNT q), some hd)

/-- A handle from the cache of `q`, allocated to tenant `t` (R249 step 4). -/
def Hw.takeBuf (h : Hw) (q t : Nat) (rt sp : Bool) : Hw × Option Word :=
  let k := h.takeHandle q rt
  match k.2 with
  | some w => k.1.grantBuf q t w sp
  | none => (k.1, none)

/-- Pool `q` holds no free buffer. -/
def Hw.poolDry (h : Hw) (q : Nat) : Bool := (h.pool q).cache = [] && h.get (PE_POOL_RCOUNT.COUNT q) = 0

/-- The request for pool `p` goes along the spillway from `q` (R250); `fuel` bounds the chain, which validation keeps to 3
hops (R242). -/
def Hw.spillway (h : Hw) (p t : Nat) (rt : Bool) : Nat → Nat → Hw × AllocRes
  | 0, _ => ((((h.up PE_EVT.EMPTY).set PE_EEVT.POOL p).set PE_EEVT.TID t).inc (PE_POOL_FAILS.COUNT p), .word (failWord p rsnEmpty))
  | fuel + 1, q =>
    if !h.on (PE_POOL_CFG.SPILL_EN_L q) then h.spillway p t rt 0 q
    else
      let n := h.get (PE_POOL_CFG.SPILL_L q)
      if !h.poolOn n || h.on (PE_POOL_STAT.FAILED n) || h.quotaMax t n = 0 || (h.poolDry n && !h.on (PE_POOL_STAT.INIT n)) then
        (if h.poolOn n && h.poolDry n then h.noteMiss n rt else h).spillway p t rt fuel n
      else if h.quotaMax t n ≤ h.get (PE_Q_USED.COUNT t n) then
        ((h.quotaEvent n t).inc (PE_POOL_FAILS.COUNT p), .word (failWord p rsnQuota))
      else if h.on (PE_POOL_STAT.INIT n) then (h, .held n)
      else
        match h.takeBuf n t rt true with
        | (h, some w) => (h, .word w)
        | (h, none) => h.spillway p t rt fuel n

/-- A bulk ALLOC is held back: SAFE_ACT, and the cache count is below W (R259). -/
def Hw.pressed (h : Hw) (p : Nat) : Bool := h.on ⟨PE_POOL_AUTH_STAT p, 3, 1⟩ && (h.pool p).cache.length < h.get (PE_POOL_MON.W p)

/-- An ALLOC from pool `p` for tenant `t`; `rt` says that the initiator is of the real-time class (R28, R249 to R251, R259). -/
def Hw.alloc (h : Hw) (p t : Nat) (rt : Bool) : Hw × AllocRes :=
  let fail := fun (h : Hw) r => (h.inc (PE_POOL_FAILS.COUNT p), AllocRes.word (failWord p r))
  if !h.poolOn p then fail h rsnDisabled
  else if h.on (PE_POOL_STAT.FAILED p) then fail h rsnFailed
  else if h.quotaMax t p ≤ h.get (PE_Q_USED.COUNT t p) then fail (h.quotaEvent p t) rsnQuota
  else if h.on (PE_POOL_STAT.INIT p) then (h, .held p)
  else if !rt && h.pressed p then
    let h := if (h.pool p).cache = [] then h.noteMiss p false else h
    if h.get (PE_POOL_RCOUNT.COUNT p) != 0 then (h, .held p) else h.spillway p t rt 0 p
  else if h.poolDry p then (h.noteMiss p rt).spillway p t rt 3 p
  else
    match h.takeBuf p t rt false with
    | (h, some w) => (h, .word w)
    | (h, none) => if h.on (PE_POOL_STAT.FAILED p) then fail h rsnFailed else h.spillway p t rt 3 p

/-- Metadata and ring of a new pool: zeros, and the handles of generation 1 (R241). An access that fails, at an address that does not
exist or in a poisoned line, puts the pool in ring error (R210, R263). -/
def Hw.initPool (h : Hw) (p : Nat) : Hw :=
  let n := h.get (PE_POOL_NBUF.COUNT_L p)
  let a := h.get (PE_POOL_META.ADDR_L p) * 64
  if !h.dmaMapped 0 a (16 * n) true || !h.dmaMapped 0 (h.ringAddr p 0) (4 * n) true || h.linePoisoned a (16 * n) || h.linePoisoned (h.ringAddr p 0) (4 * n) then
    (h.ringError p).clr (PE_POOL_STAT.INIT p)
  else
    let h := h.hubStore a (zeros (16 * n))
    let h := h.hubStore (h.ringAddr p 0) ((List.range n).flatMap (fun i => leBytes 4 (mkHandle p 1 i false).toNat))
    let h := h.setPool p { held := (h.pool p).held, loop := (h.pool p).loop }
    (h.set (PE_POOL_RCOUNT.COUNT p) n).clr (PE_POOL_STAT.INIT p)

/-! ### Operations on a handle (R254 to R257) -/

/-- The checks of R256 before any operation, for tenant `t`: 0, or the code of the first failure. `win` is the operation window
written, where there is one. In a pool that initialises, the check meets the zeros that the initialisation leaves (R241; log entry
11). -/
def Hw.checkHandle (h : Hw) (t : Nat) (w : Word) (win : Option Nat) : Hw × Nat :=
  let p := hdlPool w
  let i := hdlIndex w
  if win.any (· != p) || !h.on (PE_POOL_CFG.EN_L p) || h.on (PE_POOL_STAT.FAILED p) then (h, 1)
  else if !hdlV w || w.getLsbD 2 || w.getLsbD 3 || h.get (PE_POOL_NBUF.COUNT_L p) ≤ i then (h, 2)
  else if h.on (PE_POOL_STAT.INIT p) then (h, if hdlGen w != 0 then 3 else if h.countMode p then 5 else 4)
  else
    let m := h.metaOk p i
    let h := m.1
    if !m.2 then (h.ringError p, 1)
    else if hdlGen (h.metaHandle p i) != hdlGen w then (h, 3)
    else if !h.metaAlloc p i then (h, if h.countMode p then 5 else 4)
    else if h.countMode p then (h, if t = 0 || h.get (PE_Q_MAX.COUNT_L t p) != 0 then 0 else 6)
    else (h, if t = 0 || h.metaOwner p i = t then 0 else 6)

/-- A refused handle operation is a POOL_FAULT (R257). -/
def Hw.poolFault (h : Hw) (code t init op : Nat) (w : Word) : Hw :=
  if h.on PE_FAULT_INFO.VALID then h.up PE_FAULT_INFO.LOST
  else (h.sets [(PE_FAULT_INFO.CODE, code), (PE_FAULT_INFO.TID, t), (PE_FAULT_INFO.INIT, init), (PE_FAULT_INFO.OP, op),
    (PE_FAULT_INFO.VALID, 1)]).wr PE_FAULT_HANDLE w

/-- The buffer is released: the handle goes to the top of the cache with GEN + 1, ALLOC clears and the charge ends (R254); the metadata
keeps the handle of the last allocation, with V = 0 (R246). -/
def Hw.releaseBuf (h : Hw) (w : Word) : Hw :=
  let p := hdlPool w
  let i := hdlIndex w
  let t := h.metaOwner p i
  let h := if 32 ≤ (h.pool p).cache.length then h.spillRing p 8 else h
  let nw := mkHandle p (hdlGen w + 1) i false
  let x := h.pool p
  let h := h.setPool p { x with cache := nw :: x.cache }
  let h := h.metaWrite p i 0 (metaBytes (h.metaHandle p i &&& 0xFFFFFFFE) false t 0)
  let h := h.set (PE_Q_USED.COUNT t p) (h.get (PE_Q_USED.COUNT t p) - 1)
  h.set (PE_POOL_INUSE.COUNT p) (h.get (PE_POOL_INUSE.COUNT p) - 1)

/-- FREE by tenant `t`: the code, 0 when it succeeds (R254). -/
def Hw.freeBuf (h : Hw) (t init : Nat) (w : Word) (win : Option Nat) : Hw × Nat :=
  let c := h.checkHandle t w win
  let h := c.1
  let p := hdlPool w
  let i := hdlIndex w
  if c.2 != 0 then (h.poolFault c.2 t init 1 w, c.2)
  else if h.countMode p && h.metaRef p i > 1 then
    (h.metaWrite p i 0 (metaBytes (h.metaHandle p i) true (h.metaOwner p i) (h.metaRef p i - 1)), 0)
  else (h.releaseBuf w, 0)

/-- REF by tenant `t` (R254). -/
def Hw.refBuf (h : Hw) (t init : Nat) (w : Word) (win : Option Nat) : Hw × Nat :=
  let c := h.checkHandle t w win
  let h := c.1
  let p := hdlPool w
  let i := hdlIndex w
  let code := if c.2 != 0 then c.2 else if !h.countMode p then 7 else if h.metaRef p i = 255 then 8 else 0
  if code != 0 then (h.poolFault code t init 2 w, code)
  else (h.metaWrite p i 0 (metaBytes (h.metaHandle p i) true (h.metaOwner p i) (h.metaRef p i + 1)), 0)

/-- GIVE to tenant `u` by tenant `t`: the charge moves with the buffer (R252, R254). -/
def Hw.giveBuf (h : Hw) (t init u : Nat) (w : Word) (win : Option Nat) : Hw × Nat :=
  let c := h.checkHandle t w win
  let h := c.1
  let p := hdlPool w
  let i := hdlIndex w
  let o := h.metaOwner p i
  let code := if c.2 != 0 then c.2 else if h.countMode p then 7
    else if h.quotaMax u p = 0 || h.quotaMax u p ≤ h.get (PE_Q_USED.COUNT u p) then 9 else 0
  if code != 0 then (h.poolFault code t init 3 w, code)
  else
    let h := h.metaWrite p i 0 (metaBytes (h.metaHandle p i) true u 1)
    let h := h.set (PE_Q_USED.COUNT o p) (h.get (PE_Q_USED.COUNT o p) - 1)
    (h.set (PE_Q_USED.COUNT u p) (h.get (PE_Q_USED.COUNT u p) + 1), 0)

/-- HADDR, or another internal consumer's check: the address of the buffer's first byte, or none after a POOL_FAULT
(R183, R256). -/
def Hw.handleAddr (h : Hw) (t init op : Nat) (w : Word) : Hw × Option Nat :=
  let c := h.checkHandle t w none
  if c.2 != 0 then (c.1.poolFault c.2 t init op w, none) else (c.1, some (c.1.bufAddr w))

/-! ### Requests (R241, R249, R254) -/

/-- The PE_FAULT_INFO.INIT code of a bus initiator. -/
def iniOf : Initiator → Nat
  | .m0 => iniM0
  | .m1 => iniM1
  | .polder => iniPolder
  | .debug => iniDebug
  | .crocus => iniM0

/-- The outcome of an operation-window write by a main core shows in PE_LASTc (R254). -/
def Hw.peLast (h : Hw) (a : Access) (code : Nat) : Hw :=
  match a.who with
  | .m0 => h.set (PE_LAST.CODE 0) code
  | .m1 => h.set (PE_LAST.CODE 1) code
  | _ => h

/-- The operation that a write of operation window `p` at offset `o` asks for (R254). -/
def Hw.peOp (h : Hw) (a : Access) (p o : Nat) (w : Word) : Hw :=
  let t := a.tid.toNat
  let i := iniOf a.who
  if o = 4 then let r := h.freeBuf t i w (some p); r.1.peLast a r.2
  else if o = 8 then let r := h.refBuf t i w (some p); r.1.peLast a r.2
  else if 0x400 ≤ o && o < 0x600 && o % 4 = 0 then let r := h.giveBuf t i ((o - 0x400) / 4) w (some p); r.1.peLast a r.2
  else h

/-- A held operation on a handle is done. -/
def Hw.peDo (h : Hw) (p : Nat) (r : PeReq) : Hw :=
  match r.src with
  | .port i => (h.freeBuf r.acc.tid.toNat i r.word none).1
  | _ => h.peOp r.acc p r.ofs r.word

/-- A held ALLOC is answered with `w`: to a load that will be made again, or as the last word read. -/
def Hw.peAnswer (h : Hw) (r : PeReq) (w : Word) : Hw :=
  match r.src with
  | .load => { h with peAns := h.peAns ++ [(r.acc.who, w)] }
  | _ => { h with busData := w }

/-- The PE serves requests: its clock runs (R86). -/
def Hw.peOn (h : Hw) : Bool := h.blockOn 0xA

/-- The PE serves ALLOCs: from Berm step 3 on it holds every one until the reset (R262). -/
def Hw.peAllocs (h : Hw) : Bool := h.peOn && !h.pwr.bermActive

/-- The requests that pool `p` holds are served in order of arrival, up to the first that must wait on (R249, R259). -/
def Hw.serveHeld (h : Hw) (p : Nat) : Nat → Hw
  | 0 => h
  | n + 1 =>
    let x := h.pool p
    match x.held with
    | [] => h
    | r :: rest =>
      if !h.peOn then h
      else if r.ofs = 0 then
        if !h.peAllocs then h
        else match h.alloc p r.acc.tid.toNat false with
        | (h', .word w) => ((h'.setPool p { h'.pool p with held := rest }).peAnswer r w).serveHeld p n
        | (h', .held _) => h'
      else if h.on (PE_POOL_STAT.INIT p) then h
      else ((h.setPool p { x with held := rest }).peDo p r).serveHeld p n

/-- Every pool's held requests are served where they can be. -/
def Hw.serveAll (h : Hw) : Hw := (List.range 16).foldl (fun h p => h.serveHeld p (h.pool p).held.length) h

/-- Operations on handles wait before pool `p`: it initialises, the PE's clock is gated, or an earlier request waits for something else
than the back-pressure, which holds ALLOCs alone (R86, R241, R249, R259). -/
def Hw.peBusy (h : Hw) (p : Nat) : Bool := h.on (PE_POOL_STAT.INIT p) || ((h.pool p).held != [] && !h.pressed p) || !h.peOn

/-- Request `r` of pool `p` is held. -/
def Hw.peHold (h : Hw) (p : Nat) (r : PeReq) : Hw := h.setPool p { h.pool p with held := (h.pool p).held ++ [r] }

/-- FREE by the internal port `init` for tenant `t`: held where a request to the pool waits, else done, after which held ALLOCs may go
on (R249, R259). -/
def Hw.portFree (h : Hw) (t init : Nat) (w : Word) : Hw :=
  if h.peBusy (hdlPool w) then h.peHold (hdlPool w) ⟨⟨.crocus, BitVec.ofNat 7 t⟩, 4, w, .port init⟩
  else (h.freeBuf t init w none).1.serveAll

/-- What a held ALLOC waits for at pool `q` takes place: the end of its initialisation, and the requests held for that; else refills up
to W. -/
def Hw.unhold (h : Hw) (q : Nat) : Hw :=
  if h.on (PE_POOL_STAT.INIT q) then (h.initPool q).serveHeld q (h.pool q).held.length
  else ((h.fetchRing q 8).fetchRing q 8).fetchRing q 8

/-- An ALLOC by an internal port, with what it waits for, `fuel` times at most. -/
def Hw.allocWait (h : Hw) (p t : Nat) (rt : Bool) : Nat → Hw × Word
  | 0 => (h, failWord p rsnEmpty)
  | fuel + 1 =>
    match h.alloc p t rt with
    | (h, .word w) => (h, w)
    | (h, .held q) => (h.unhold q).allocWait p t rt fuel

/-- An ALLOC by an internal port. A request that the PE would hold is served once what it waits for is done, in the same command, bulk
requests after those held before them; while the PE's clock is gated, or the Berm has stopped it, there is no buffer to be had (R86,
R262; log entry 11). Held ALLOCs that the outcome lets go on do so (R259). -/
def Hw.allocNow (h : Hw) (p t : Nat) (rt : Bool) : Hw × Word :=
  if !h.peAllocs then (h, failWord p rsnEmpty)
  else
    let h := if rt || (h.pool p).held = [] then h else (h.unhold p).serveHeld p (h.pool p).held.length
    let r := h.allocWait p t rt 8
    (r.1.serveAll, r.2)

/-! ### The watermark loop (R258, R259) -/

/-- What the loop of pool `p` does at an epoch boundary; W moves by at most 2 up and 1 down, toward new bounds too (R45; log entry
135). -/
def Hw.poolEpoch (h : Hw) (p : Nat) : Hw :=
  let g := loopPool p
  let x := h.pool p
  let w : Int := (h.get (PE_POOL_MON.W p) : Nat)
  let quiet := if x.missed then 0 else x.quiet + 1
  let rtq := if x.rtMissed then 0 else x.rtQuiet + 1
  let r : Hw × Loop × Int :=
    if h.loopMode g = 2 then (h, x.loop.leave, h.loopPin g)
    else if h.loopMode g = 0 then (h, x.loop.leave, 8)
    else
      let r := if x.missed then h.loopFrom g x.loop w (w + 2)
        else if 16 ≤ quiet then h.loopFrom g x.loop w (w - 1)
        else (h, x.loop, h.loopInside g (if h.loopHint g ≠ 0 then slew w (h.loopHint g) 1 else w))
      (r.1, r.2.1, if w < r.2.2 then min r.2.2 (w + 2) else max r.2.2 (w - 1))
  let h := r.1.setPool p { x with missed := false, quiet := quiet, rtMissed := false, rtQuiet := rtq, loop := r.2.1 }
  let h := if 16 ≤ rtq then h.loopSafe g false else h
  ((h.set (PE_POOL_MON.W p) r.2.2.toNat).loopReport g r.2.1 r.2.2).serveHeld p x.held.length

/-! ### The commands -/

/-- A read of offset 0 of operation window `p` (R249); a request that the PE holds has no answer yet. -/
def Hw.peAlloc (h : Hw) (a : Access) (p : Nat) : Hw × Option Word :=
  if (h.pool p).held != [] || !h.peAllocs then (h, none)
  else match h.alloc p a.tid.toNat false with
  | (h, .word w) => (h.serveAll, some w)
  | (h, .held _) => (h, none)

/-- The same read as a load makes it: one that had to wait is answered as it is made again, and one that must wait is held in its turn
(R30, R249). -/
def Hw.peLoad (h : Hw) (a : Access) (p : Nat) : Hw × Option Word :=
  match h.peAns.find? (fun e => e.1 == a.who) with
  | some e => ({ h with peAns := h.peAns.erase e }, some e.2)
  | none =>
    match h.peAlloc a p with
    | (h, some w) => (h, some w)
    | (h, none) => (h.peHold p ⟨a, 0, 0, .load⟩, none)

/-- A write of operation window `p` at offset `o` (R254): held while the pool initialises or earlier requests wait (R241, R249). -/
def Hw.peWrite (h : Hw) (a : Access) (p o : Nat) (w : Word) : Hw × Bool :=
  if h.peBusy p && (o = 4 || o = 8 || (0x400 ≤ o && o < 0x600 && o % 4 = 0)) then (h.peHold p ⟨a, o, w, .bus⟩, true)
  else ((h.peOp a p o w).serveAll, false)

/-- ALLOC: a request that the PE holds waits in the pool until it can be served (R241, R249, R259); an initiator whose last one waits
makes none (R30). -/
def execAlloc (acc : Access) (p : Fin 16) (s : State) : Out := s.onBusBy acc (fun h =>
  match h.peAlloc acc p with
  | (h, some w) => { h with busData := w }
  | (h, none) => h.peHold p ⟨acc, 0, 0, .bus⟩)

/-- FREE. -/
def execFree (acc : Access) (p : Fin 16) (v : Word) (s : State) : Out :=
  s.onBusBy acc (fun h => (h.peWrite acc p 4 v).1)

/-- REF. -/
def execRef (acc : Access) (p : Fin 16) (v : Word) (s : State) : Out :=
  s.onBusBy acc (fun h => (h.peWrite acc p 8 v).1)

/-- GIVE to tenant `t`. -/
def execGive (acc : Access) (p : Fin 16) (t : BitVec 7) (v : Word) (s : State) : Out :=
  s.onBusBy acc (fun h => (h.peWrite acc p (0x400 + 4 * t.toNat) v).1)

/-- CACHE_REFILL: below W, up to 8 handles come from the ring, and held requests are served (R249, R259). -/
def execCacheRefill (p : Fin 16) (s : State) : Out := s.onBlock 0xA (fun h =>
  if h.on (PE_POOL_CFG.EN_L p) && !h.on (PE_POOL_STAT.INIT p) && (h.pool p).cache.length < h.get (PE_POOL_MON.W p) then
    (h.fetchRing p 8).serveAll
  else h)

/-- CACHE_SPILL: above W + 8, 8 handles go back to the ring (R249). -/
def execCacheSpill (p : Fin 16) (s : State) : Out := s.onBlock 0xA (fun h =>
  if h.on (PE_POOL_CFG.EN_L p) && h.get (PE_POOL_MON.W p) + 8 < (h.pool p).cache.length then h.spillRing p 8 else h)

/-- POOL_INIT_DONE: metadata and ring are written, and requests held for the initialisation are served (R241). -/
def execPoolInitDone (p : Fin 16) (s : State) : Out := s.onBlock 0xA (fun h =>
  if h.on (PE_POOL_STAT.INIT p) then
    (h.initPool p).serveAll
  else h)

end Sys2Proof.Machine
end

