-- ==== Sys2Proof/Machine/Mrc.lean ====
section
/-! DEFINITION. The MRC: log streams, appends, recovery scans and scrubbing (spec/08_memory.md R190 to R202), the directory's
grants and evictions (R203 to R210), and what LPDDR4 does while it runs (R215). -/

namespace Sys2Proof.Machine

/-- Codes of MRC_LSn_STAT.ERRCODE. -/
def lsFull : Nat := 1
def lsQueueFull : Nat := 2
def lsSourceErr : Nat := 3
def lsBadRelease : Nat := 4
def lsNotEnabled : Nat := 5

/-- `a + b` and `a - b` in 24-bit wrapping sequence numbers (R194, R200). -/
def seqAdd (a b : Nat) : Nat := (a + b) % 2 ^ 24
def seqSub (a b : Nat) : Nat := (a + 2 ^ 24 - b % 2 ^ 24) % 2 ^ 24

/-- The later of two sequence numbers in 24-bit wrapping order (R200). -/
def seqLater (a b : Nat) : Nat := if seqSub a b < 2 ^ 23 then a else b

/-- The records live in stream `n`. -/
def Hw.lsLive (h : Hw) (n : Nat) : Nat := seqSub (h.get (MRC_LS_HEAD.LSEQ n)) (h.get (MRC_LS_TAIL.LSEQ n))

/-- The stream's slot count (R194). -/
def Hw.lsSize (h : Hw) (n : Nat) : Nat := h.get (MRC_LS_SIZE.SLOTS n)

/-- The start of the stream's region (R194). -/
def Hw.lsBase (h : Hw) (n : Nat) : Nat := h.get (MRC_LS_BASE.ADDR n) * 64

/-- The address of a stream's slot: a header comes before the slots, but for LS15 (R194). -/
def Hw.slotAddr (h : Hw) (n k : Nat) : Nat := h.lsBase n + (if n = 15 then 0 else 64) + 64 * k

/-- The stream accepts appends (R198). -/
def Hw.lsOn (h : Hw) (n : Nat) : Bool := h.on (MRC_LS_CFG.EN n) && h.lsSize n != 0

/-- The stream's OWNER in force, T0 for LS15. -/
def Hw.lsOwner (h : Hw) (n : Nat) : Nat := if n = 15 then 0 else h.get (MRC_LS_OWNER.TID_L n)

/-- A refusal: ERR and its code set, line 51, and `k` refused records count (R198). -/
def Hw.lsRefuse (h : Hw) (n code k : Nat) : Hw :=
  ((h.up (MRC_LS_STAT.ERR n)).set (MRC_LS_STAT.ERRCODE n) code).add (MRC_LS_STAT.DROPPED n) k

/-- The stream header with the present tail (R194). -/
def Hw.lsHeader (h : Hw) (n : Nat) : List Byte :=
  let b := leBytes 4 0x534C4A46 ++ leBytes 1 n ++ zeros 3 ++ leBytes 4 (h.rd (MRC_LS_INST n)).toNat ++ leBytes 4 (h.lsSize n)
    ++ leBytes 3 (h.get (MRC_LS_TAIL.LSEQ n)) ++ zeros 41
  b ++ leBytes 4 (crc32c b).toNat

/-- The MRC writes 64 bytes of stream `n` to MRAM as one group (R189, R194, R197). A tenant's stream whose region reaches past
0x00FBFFFF writes nothing there (R118; log entry 131). -/
def Hw.lsWrite (h : Hw) (n a : Nat) (bs : List Byte) : Hw := if n != 15 && 0x00FC0000 ≤ a then h else h.groupWrite a bs

/-- The header is written as one 64-byte group (R194). DESIGN CHOICE (log entry 162): a header in a poisoned line is not written, and
the stream shows SOURCE_ERR (R210). -/
def Hw.lsWriteHeader (h : Hw) (n : Nat) : Hw :=
  if n = 15 then h
  else if h.linePoisoned (h.lsBase n) 64 then h.lsRefuse n lsSourceErr 0
  else h.lsWrite n (h.lsBase n) (h.lsHeader n)

/-- A record: 56 bytes of payload, LSEQ, FLAGS and the CRC over it, the stream number and the instance (R194, R195). -/
def Hw.lsRecord (h : Hw) (n : Nat) (payload : List Byte) : List Byte :=
  let p := padTo 56 payload
  let p := if h.on (MRC_LS_CFG.STAMP n) then p.take 48 ++ leBytes 8 h.clk.tb.toNat else p
  let b := p ++ leBytes 3 (h.get (MRC_LS_HEAD.LSEQ n)) ++ leBytes 1 (128 + 64 * b2n h.inTransition + h.tgen)
  b ++ leBytes 4 (crc32c (b ++ leBytes 1 n ++ leBytes 4 (h.rd (MRC_LS_INST n)).toNat)).toNat

/-- The record goes to the next slot, and HEAD advances (R197). -/
def Hw.lsPlace (h : Hw) (n : Nat) (payload : List Byte) : Hw :=
  let k := tget 0 h.lsSlot n
  let h := h.lsWrite n (h.slotAddr n k) (h.lsRecord n payload)
  ({ h with lsSlot := tput 0 h.lsSlot n ((k + 1) % h.lsSize n) }).set (MRC_LS_HEAD.LSEQ n) (seqAdd (h.get (MRC_LS_HEAD.LSEQ n)) 1)

/-- One record is appended to the stream: refused where it is not enabled, or full in MODE HOLD; in MODE WRAP the tail gives
way, its header rewritten once for every 64 advances (R198). The answer says whether it was committed. DESIGN CHOICE (log entry 162):
the header is rewritten as TAIL reaches a multiple of 64, and a record whose slot lies in a poisoned line is refused with SOURCE_ERR
(R210). -/
def Hw.lsAppend (h : Hw) (n : Nat) (payload : List Byte) : Hw × Bool :=
  if !h.lsOn n then (h.lsRefuse n lsNotEnabled 1, false)
  else if h.linePoisoned (h.slotAddr n (tget 0 h.lsSlot n)) 64 then (h.lsRefuse n lsSourceErr 1, false)
  else if n != 15 && h.lsSize n ≤ h.lsLive n then
    if h.on (MRC_LS_CFG.MODE n) then
      let h := h.set (MRC_LS_TAIL.LSEQ n) (seqAdd (h.get (MRC_LS_TAIL.LSEQ n)) 1)
      let h := if h.get (MRC_LS_TAIL.LSEQ n) % 64 = 0 then h.lsWriteHeader n else h
      (h.lsPlace n payload, true)
    else (h.lsRefuse n lsFull 1, false)
  else (h.lsPlace n payload, true)

/-- LOG_QSTAT.DEPTH follows the queue (R197). -/
def Hw.setAppendQ (h : Hw) (q : List AppendReq) : Hw := ({ h with appendQ := q }).set MRC_LOG_QSTAT.DEPTH q.length

/-- A request enters the append queue, or is discarded with QUEUE_FULL (R197). -/
def Hw.lsEnqueue (h : Hw) (n : Nat) (r : AppendReq) : Hw :=
  if 64 ≤ h.appendQ.length then h.lsRefuse n lsQueueFull 1 else h.setAppendQ (h.appendQ ++ [r])

/-- The stream that a request is for. -/
def AppendReq.stream : AppendReq → Nat
  | .addr n _ => n
  | .handle n _ _ => n
  | .bytes n _ _ => n

/-- A request from a register write: NOT_ENABLED where the stream is, and a refused handle's buffer is released (R196, R198). DESIGN
CHOICE (log entry 21): NOT_ENABLED goes before QUEUE_FULL, and a refused request counts as one record, whatever its buffer holds. -/
def Hw.lsRequest (h : Hw) (n : Nat) (r : AppendReq) : Hw :=
  let free := fun (h : Hw) => match r with
    | .handle _ w _ => h.portFree (h.lsOwner n) iniMrc w
    | _ => h
  if !h.lsOn n then free (h.lsRefuse n lsNotEnabled 1)
  else if 64 ≤ h.appendQ.length then free (h.lsEnqueue n r)
  else h.lsEnqueue n r

/-- What a register access came to: done, refused by ownership (R37), a bus error (R26), or held at the register bus, not yet acted
on (R429). -/
inductive AccRes where
  | ok | owner | bus | held
  deriving DecidableEq, Repr

/-- A write of APPEND_ADDR or APPEND_HDL by `a` (R196). -/
def Hw.mrcAppend (h : Hw) (a : Access) (n : Nat) (r : AppendReq) : Hw × AccRes :=
  if n = 15 || !(a.tid = 0 || a.tid.toNat = h.lsOwner n) then (h, .owner) else (h.lsRequest n r, .ok)

/-- The island log's drain learns what became of its record (R391): committed, it leaves the ring; refused, it is offered
again. -/
def Hw.drainResult (h : Hw) (ok : Bool) : Hw :=
  if ok then
    let h := if h.get POL_LOG_TAIL.ISEQ = h.drainSeq then h.set POL_LOG_TAIL.ISEQ (h.drainSeq + 1) else h
    { h with drain := .idle }
  else { h with drain := .retry }

/-- A handle's append is refused at record `k` of `cnt`: the rest of it is refused too, and the buffer is released (R196, R198; log entry
21). -/
def Hw.lsHandleEnd (h : Hw) (n : Nat) (w : Word) (k cnt : Nat) : Hw :=
  (h.add (MRC_LS_STAT.DROPPED n) (cnt - k - 1)).portFree (h.lsOwner n) iniMrc w

/-- One record of the request at place `i` of the queue is committed or refused (R196, R197, R255). -/
def Hw.lsServe (h : Hw) (i : Nat) (r : AppendReq) : Hw :=
  let gone := h.appendQ.eraseIdx i
  match r with
  | .bytes n p isl =>
    let q := (h.setAppendQ gone).lsAppend n p
    if isl then q.1.drainResult q.2 else q.1
  | .addr n src =>
    let q := (h.setAppendQ gone).dmaRead (h.lsOwner n) iniMrc src 56
    (match q.2 with
      | .ok bs => if (h.region src).cached then (q.1.lsAppend n bs).1 else q.1.lsRefuse n lsSourceErr 1
      | .error _ => q.1.lsRefuse n lsSourceErr 1)
  | .handle n w k =>
    let t := h.lsOwner n
    (match h.checkHandle t w none with
      | (h, 0) =>
        let cnt := (h.bufLen w + 63) / 64
        let src := h.bufAddr w + 64 * k
        if cnt = 0 then (h.setAppendQ gone).portFree t iniMrc w
        else match h.dmaRead t iniMrc src 56 with
          | (h, .error _) => ((h.setAppendQ gone).lsRefuse n lsSourceErr 1).lsHandleEnd n w k cnt
          | (h, .ok bs) =>
            let r := h.lsAppend n bs
            if !r.2 then (r.1.setAppendQ gone).lsHandleEnd n w k cnt
            else if cnt ≤ k + 1 then (r.1.setAppendQ gone).portFree t iniMrc w
            else r.1.setAppendQ (h.appendQ.set i (.handle n w (k + 1)))
      | (h, c) => ((h.setAppendQ gone).poolFault c t iniMrc 4 w).lsRefuse n lsSourceErr 1)

/-- The MRC starts no append while a DRAIN commit holds it (R432). -/
def Hw.mrcDrained (h : Hw) : Bool := h.drained 3

/-- The request can be served: its stream is not scanning (R200), and the PE answers for a handle (R86). -/
def Hw.lsReady (h : Hw) (r : AppendReq) : Bool :=
  !h.on (MRC_LS_STAT.SCANNING r.stream) && (match r with
    | .handle _ _ _ => h.peOn
    | _ => true)

/-- The oldest request that can be served is (R197, R200). -/
def Hw.lsServeNext (h : Hw) : Hw :=
  match h.appendQ.findIdx? h.lsReady with
  | none => h
  | some i =>
    match h.appendQ[i]? with
    | some r => h.lsServe i r
    | none => h

/-- A write of N to RELEASE (R198). -/
def Hw.mrcRelease (h : Hw) (a : Access) (n N : Nat) : Hw × AccRes :=
  if n = 15 then (h, .ok)
  else if !(a.tid = 0 || a.tid.toNat = h.lsOwner n) then (h, .owner)
  else if !h.lsOn n then (h.lsRefuse n lsNotEnabled 0, .ok)
  else if h.lsLive n < N then (h.lsRefuse n lsBadRelease 0, .ok)
  else ((h.set (MRC_LS_TAIL.LSEQ n) (seqAdd (h.get (MRC_LS_TAIL.LSEQ n)) N)).lsWriteHeader n, .ok)

/-- A write of CFG: EN from 0 to 1 starts the recovery scan of a stream that has slots (R198, R200). -/
def Hw.mrcCfg (h : Hw) (a : Access) (n : Nat) (v : Word) : Hw × AccRes :=
  if n = 15 then (h, .ok)
  else if !(a.tid = 0 || a.tid.toNat = h.lsOwner n) then (h, .owner)
  else
    let was := h.on (MRC_LS_CFG.EN n)
    let h := h.sets [(MRC_LS_CFG.EN n, b2n (v.getLsbD 0)), (MRC_LS_CFG.MODE n, b2n (v.getLsbD 1)), (MRC_LS_CFG.STAMP n, b2n (v.getLsbD 2))]
    (h.upIf (!was && v.getLsbD 0 && h.lsSize n != 0) (MRC_LS_STAT.SCANNING n), .ok)

/-! ### The recovery scan (R200) -/

/-- A word of MRAM in the `n` bytes from `a` on has an error that cannot be corrected (R190). -/
def Hw.mramBad (h : Hw) (a n : Nat) : Bool := h.upsets.any (fun u => a < u.1 * 8 + 8 && u.1 * 8 < a + n && u.2 != .none && u.2 != .single)

/-- The MRC reads the `n` bytes of MRAM from `a` on: what the check bits of each word say counts and is recorded (R190). -/
def Hw.mramRead (h : Hw) (a n : Nat) : Hw :=
  (eccFold Hw.memWord h ((h.upsets.map (·.1)).filter (fun w => a < w * 8 + 8 && w * 8 < a + n))).1

/-- LSEQ of slot `k`. -/
def Hw.slotSeq (h : Hw) (n k : Nat) : Nat := h.loadN (h.slotAddr n k + 56) 3

/-- Slot `k` is whole: COMMIT is 1 and its CRC checks with this instance; one that cannot be read is not (R190). -/
def Hw.slotWhole (h : Hw) (n k : Nat) : Bool :=
  let b := h.bytes (h.slotAddr n k) 64
  !h.mramBad (h.slotAddr n k) 64 && bitOf (fieldB b 59 1) 7 &&
    (crc32c (b.take 60 ++ leBytes 1 n ++ leBytes 4 (h.rd (MRC_LS_INST n)).toNat)).toNat == fieldB b 60 4

/-- Slot `k` is the last record: it is whole, and the next slot is not whole or does not follow it. -/
def Hw.slotLast (h : Hw) (n k : Nat) : Bool :=
  let j := (k + 1) % h.lsSize n
  h.slotWhole n k && (!h.slotWhole n j || h.slotSeq n j != seqAdd (h.slotSeq n k) 1)

/-- The stream's header checks (R194, R200); one that cannot be read does not (R190). -/
def Hw.headerOk (h : Hw) (n : Nat) : Bool :=
  let b := h.bytes (h.lsBase n) 64
  !h.mramBad (h.lsBase n) 64 && fieldB b 0 4 == 0x534C4A46 && fieldB b 4 1 == n && fieldB b 12 4 == h.lsSize n && (crc32c (b.take 60)).toNat == fieldB b 60 4

/-- The scan's last lines: HEAD from the last whole slot, TAIL the later of `tail` and HEAD less SIZE. -/
def Hw.scanSlots (h : Hw) (n tail : Nat) : Hw :=
  let r := match (List.range (h.lsSize n)).find? (fun k => h.slotLast n k) with
    | some k => (seqAdd (h.slotSeq n k) 1, (k + 1) % h.lsSize n)
    | none => (0, 0)
  let h := { h with lsSlot := tput 0 h.lsSlot n r.2 }
  (h.set (MRC_LS_HEAD.LSEQ n) r.1).set (MRC_LS_TAIL.LSEQ n) (seqLater tail (seqSub r.1 (h.lsSize n)))

/-- The recovery scan of stream `n` (R200): for LS15 with no header and the tail that the LCS keeps. -/
def Hw.recoveryScan (h : Hw) (n : Nat) : Hw :=
  let h := (h.clr (MRC_LS_STAT.SCANNING n)).mramRead (if n = 15 then h.slotAddr n 0 else h.lsBase n)
    (64 * h.lsSize n + if n = 15 then 0 else 64)
  if n = 15 then h.scanSlots 15 h.lcs.auditTail
  else if h.headerOk n then
    let b := h.bytes (h.lsBase n) 64
    (((h.clr (MRC_LS_STAT.FRESH n)).wr (MRC_LS_INST n) (BitVec.ofNat 32 (fieldB b 8 4)))).scanSlots n (fieldB b 16 3)
  else
    let h := h.wr (MRC_LS_INST n) (BitVec.ofNat 32 h.clk.tb.toNat ^^^ h.rd SYS_SERIAL_LO)
    let h := (((h.set (MRC_LS_TAIL.LSEQ n) 0).set (MRC_LS_HEAD.LSEQ n) 0).up (MRC_LS_STAT.FRESH n)).lsWriteHeader n
    { h with lsSlot := tput 0 h.lsSlot n 0 }

/-! ### The commands -/

/-- A scrub runs: enabled, and not in SLEEP, which an attached debugger emulates (R192, R455). -/
def Hw.scrubs (h : Hw) (en : Fld) : Bool := h.on en && h.pwr.sleep != .sleepEmulated

/-- The stored word at `a` is read by its scrubber, which meets `found` there: caches stand between no scrubber and its memory. -/
def Hw.scrub (h : Hw) (found : Upset) (a : Nat) : Hw :=
  ((if found = .single ∨ found = .uncorrectable then h.upset found a else h).memWord (a / 8)).1

/-- SCRUB_READ: the word at SCRUB_POS is read; at the end of a pass SCRUB_DONE sets, line 50 (R192). -/
def execScrubRead (found : Upset) (s : State) : Out := s.onBus (fun h =>
  if h.scrubs MRC_SCRUB_CFG.EN then
    let a := h.get MRC_SCRUB_POS.ADDR * 8
    let h := h.scrub found a
    let next := a / 8 + 1
    (h.set MRC_SCRUB_POS.ADDR next).upIf (next = 2 ^ 21) MRC_STAT.SCRUB_DONE
  else h)

/-- SRAM_SCRUB_READ: one SRAM word is read, as R192 describes (R202). -/
def execSramScrubRead (found : Upset) (s : State) : Out := s.onBus (fun h =>
  if h.scrubs HUB_SCRUB_CFG.EN then
    let a := h.sramScrub
    let h := h.scrub found a
    { h with sramScrub := if a + 8 < 0x10200000 then a + 8 else 0x10000000 }
  else h)

/-- APPEND_ADDR (R196). -/
def execAppendAddr (acc : Access) (n : Fin 16) (v : Word) (s : State) : Out :=
  s.onBusBy acc (fun h => (h.mrcAppend acc n (.addr n (v.toNat / 64 * 64))).1)

/-- APPEND_HDL (R196). -/
def execAppendHdl (acc : Access) (n : Fin 16) (v : Word) (s : State) : Out :=
  s.onBusBy acc (fun h => (h.mrcAppend acc n (.handle n v 0)).1)

/-- APPEND_COMMIT: the next record that may commit does (R197). -/
def execAppendCommit (s : State) : Out := s.onBus (fun h => if h.mrcDrained then h else h.lsServeNext)

/-- MRC_RELEASE (R198). -/
def execMrcRelease (acc : Access) (n : Fin 16) (v : Word) (s : State) : Out :=
  s.onBusBy acc (fun h => (h.mrcRelease acc n (v.toNat % 2 ^ 18)).1)

/-- LOG_STREAM_ENABLE: a write of MRC_LSn_CFG (R200). -/
def execLogStreamEnable (acc : Access) (n : Fin 16) (v : Word) (s : State) : Out := s.onBusBy acc (fun h => (h.mrcCfg acc n v).1)

/-- RECOVERY_SCAN_DONE: the scan of a stream that scans ends (R200). -/
def execRecoveryScanDone (n : Fin 16) (s : State) : Out :=
  s.onBus (fun h => if h.on (MRC_LS_STAT.SCANNING n) then h.recoveryScan n else h)


/-- The grant order after agent `g`: M0, M1, PE in rotation (R204). -/
def rotationAfter : Option Agent → List Agent
  | some .m0 => [.m1, .pe, .m0]
  | some .m1 => [.pe, .m0, .m1]
  | _ => [.m0, .m1, .pe]

/-- OWNERSHIP_GRANT: requests that arrive while the line is in TRANSIT are queued and counted; the writeback completes, and the
next agent in rotation after the last owner holds the line, with the access it asked for still to come. Until an agent granted
before has performed its access there is no grant (R204, R205). DESIGN CHOICE (log entry 133): what the PE asks for inside a command is
served at once. -/
def execOwnershipGrant (line : Nat) (arrivals : List Agent) (s : State) : Out := s.onBus (fun h =>
  let e := h.dirAt line
  let q := ((e.queue ++ arrivals).dedup).filter (fun g => e.owed != some g)
  let h := h.add HUB_QWAIT_CNT.COUNT arrivals.length
  match if e.owed.isSome then none else (rotationAfter e.last).find? (fun g => q.contains g) with
  | none => h.setDir line { e with queue := q }
  | some g => ((h.recallAll line).own g line).setDir line { e with st := .owned, holders := [g], last := some g, queue := q.filter (· ≠ g), owed := some g })

/-- L2_EVICTION: the line leaves the L2; `found` is what the check bits of its words say as it leaves (R191, R207, R210). -/
def execL2Eviction (line : Nat) (found : List (Fin 8 × Upset)) (s : State) : Out := s.onBus (fun h =>
  (found.foldl (fun h e => if e.2 = .l2Single ∨ e.2 = .l2Bad then h.upset e.2 (line * 64 + 8 * e.1) else h) h).evict line)

/-- DDR_REFRESH: the channel refreshes; nothing that software can read changes (R215). -/
def execDdrRefresh (s : State) : Out := s.onBus (fun h => h)

/-- MR4_READ: the value is recorded; a multiplier that rises above 1 sets DERATE, line 60 (R215). -/
def execMr4Read (v : Byte) (above : Bool) (s : State) : Out := s.onBlock 8 (fun h =>
  if h.on DDR_STAT.SELF_REFRESH || h.ddrTop = 0x80000000 then h
  else { ((h.set DDR_MR4.VALUE v.toNat).upIf (above && !h.ddrHot) DDR_STAT.DERATE) with ddrHot := above })

end Sys2Proof.Machine
end

