-- ==== Sys2Proof/Machine/Lines.lean ====
section
/-! DEFINITION. The interrupt lines (spec/01_architecture.md R34): a line is asserted while its source's status bits say so. A line
whose event no status bit holds is in `lineLatch` until it is granted (log entry 8). -/

namespace Sys2Proof.Machine

/-- Some of the first `n` bits of the status field, each enabled by the same bit of the enable field, is set. -/
def Hw.anyOf (h : Hw) (st en : Fld) : Bool := h.get st &&& h.get en != 0

/-- `f` holds of some number below `n`. -/
def anyBelow (n : Nat) (f : Nat → Bool) : Bool := (List.range n).any f

/-- A stream has less room than its LOW asks for: line 52 (R198). -/
def Hw.lsLow (h : Hw) (n : Nat) : Bool :=
  h.lsSize n - h.lsLive n < h.get (MRC_LS_LOW.SLOTS n)

/-- The whole register masked to its `n` lowest bits from bit `lo` on. -/
def bitsOf (a lo n : Nat) : Fld := ⟨a, lo, n⟩

/-- Line of UART unit: `base` is the unit's first register (R339, R340). -/
def Hw.uartLine (h : Hw) (base : Nat) : Bool :=
  h.anyOf ⟨base + 0x10, 0, 10⟩ ⟨base + 0x14, 0, 10⟩
  || (h.on ⟨base + 0x14, 16, 1⟩ && h.get ⟨base + 0xC, 16, 5⟩ ≤ h.get ⟨base + 0xC, 0, 6⟩)
  || (h.on ⟨base + 0x14, 17, 1⟩ && h.get ⟨base + 0xC, 8, 6⟩ ≤ h.get ⟨base + 0xC, 24, 5⟩)

/-- An enabled event on a ball of GPIO group `g`: numbers div 18, and GPI0 to GPI2 in group 3 (table "GPIO data and events"). -/
def Hw.gpioLine (h : Hw) (g : Nat) : Bool :=
  anyBelow 75 (fun k => min 3 (k / 18) = g && bitOf (h.rd (GPIO_EVT (k / 32)) &&& h.rd (GPIO_IE (k / 32))).toNat (k % 32))

/-- A BIST run of target `t` is in progress (R456). -/
def Hw.bistRuns (h : Hw) (t : Nat) : Bool := h.on BIST_STAT.BUSY && h.get BIST_STAT.TARGET == t

/-- Line `k` belongs to BIST target `t`. DEDUCED (log entry 59): the lines and registers of a memory group are those of the block that it
lies in, and those of a cluster are its own and its queues'. -/
def bistLine (t k : Nat) : Bool :=
  match t with
  | 3 | 4 | 5 | 6 => (64 + 4 * (t - 3) ≤ k && k < 68 + 4 * (t - 3)) || k = 77 + t
  | 0x14 | 0x15 | 0x16 | 0x17 => (64 + 4 * (t - 0x14) ≤ k && k < 68 + 4 * (t - 0x14)) || k = 60 + t
  | 7 | 0x19 => 88 ≤ k && k < 108
  | 8 | 0x1A => 214 ≤ k && k < 230
  | 9 => 230 ≤ k && k < 238
  | 0xA | 0x1B => k = 198 || 252 ≤ k
  | 0x10 | 0x11 => 40 ≤ k && k < 43
  | 0x20 => 48 ≤ k && k < 53
  | _ => false

/-- `a` is a register of cluster `c` or of one of its queues. -/
def clusterReg (c a : Nat) : Bool :=
  (LAC_LC_CFG c ≤ a && a < LAC_LC_CFG c + 0x40) || (LAC_Q_PUSH (4 * c) ≤ a && a < LAC_Q_PUSH (4 * c) + 0x80) ||
    (LAC_G_FAULT_INFO (4 * c) ≤ a && a < LAC_G_FAULT_INFO (4 * c) + 0x40)

/-- `a` is a register of BIST target `t` (log entry 59). -/
def bistReg (t a : Nat) : Bool :=
  match t with
  | 3 | 4 | 5 | 6 => clusterReg (t - 3) a
  | 0x14 | 0x15 | 0x16 | 0x17 => clusterReg (t - 0x14) a
  | 7 | 0x19 => (0x200A0000 ≤ a && a < 0x200B0000) || (0x21000000 ≤ a && a < 0x21010000)
  | 8 | 0x1A => 0x20130000 ≤ a && a < 0x20150000
  | 9 => 0x20150000 ≤ a && a < 0x20160000
  | 0xA | 0x1B => 0x30000000 ≤ a && a < 0x30010000
  | 0x10 | 0x11 => 0x20060000 ≤ a && a < 0x20070000
  | 0x20 => 0x20070000 ≤ a && a < 0x20080000
  | _ => false

/-- The interrupt lines of a BIST target do not assert during its run (R456). -/
def Hw.bistQuiet (h : Hw) (k : Nat) : Bool := h.on BIST_STAT.BUSY && bistLine (h.get BIST_STAT.TARGET) k

/-- The registers of a BIST target read 0 during its run (R456). -/
def Hw.bistMutes (h : Hw) (a : Nat) : Bool := h.on BIST_STAT.BUSY && bistReg (h.get BIST_STAT.TARGET) a

/-- Line `k` is asserted by its source (R34); a reserved line never is. -/
def Hw.lineUp (h : Hw) (k : Nat) : Bool :=
  !h.bistQuiet k && (h.lineLatch.contains k ||
  (if k < 16 then
    match k with
    | 0 => h.on SYS_BERR_INFO.VALID
    | 1 => allLoops.any (fun g => h.on ⟨g.base + 4, 0, 1⟩)
    | 2 => allLoops.any (fun g => h.on ⟨g.base + 4, 4, 1⟩)
    | 4 => h.pwr.line4
    | 5 => h.on PWR_STAT.BO_WARN
    | 6 => h.on PWR_STAT.AVS_ERR
    | 7 => h.on PWR_STAT.BUCK_ILIM || h.on PWR_STAT.BUCK_OT
    | 8 => h.on CLK_STAT.XO_FAIL || h.on CLK_STAT.LSX_FAIL
    | 10 => h.on CLK_STAT.UNLOCK_SEEN && !h.clk.wakeUnlock
    | 12 => h.on LCS_STAT.TALLY_EVT
    | 14 => h.get LCS_AUDIT_STAT.FREE < 256
    | _ => false
  else if k < 32 then bitOf (h.get INTC_SWI_SET.SWI) (k - 16)
  else if k < 64 then
    match k with
    | 32 => h.on (TEN_VIOL_INFO.VALID 0)
    | 33 => h.on (TEN_VIOL_INFO.VALID 1)
    | 34 => h.on TEN_DMAV_INFO.VALID
    | 40 => h.on HUB_STAT.CE
    | 41 => h.on HUB_STAT.UE
    | 42 => h.on HUB_STAT.DIR_ERR
    | 48 => h.on MRC_STAT.ECC_CE
    | 49 => h.on MRC_STAT.ECC_UE
    | 50 => h.on MRC_STAT.SCRUB_DONE
    | 51 => anyBelow 16 (fun n => h.on (MRC_LS_STAT.ERR n))
    | 52 => anyBelow 16 h.lsLow
    | 56 => h.on DDR_STAT.TRAIN_EVT
    | 57 => h.on DDR_STAT.CE
    | 58 => h.on DDR_STAT.UE
    | 59 => h.on DDR_STAT.FLOOR_EVT
    | 60 => h.on DDR_STAT.DERATE
    | _ => false
  else if k < 80 then h.on (LAC_Q_STAT.IRQ_PEND (k - 64))
  else if k < 84 then
    anyBelow 4 (fun j => h.on (LAC_G_FAULT_INFO.VALID (4 * (k - 80) + j)) && !(k = 80 && j = 0)) ||
      (h.on (LAC_G_FAULT_INFO.VALID 0) && h.get (LAC_G_FAULT_INFO.CLUSTER 0) == k - 80)
  else if k < 88 then false
  else if k < 104 then
    h.on (PE_POOL_CFG.EN_L (k - 88)) && h.on (PE_POOL_RLOW.IE (k - 88)) && h.get (PE_POOL_RCOUNT.COUNT (k - 88)) ≤ h.get (PE_POOL_RLOW.LEVEL (k - 88))
  else if k < 120 then
    match k with
    | 104 => h.on PE_FAULT_INFO.VALID
    | 105 => h.on PE_EVT.QUOTA
    | 106 => h.on PE_EVT.EMPTY
    | 107 => h.on PE_EVT.RING_ERR
    | _ => false
  else if k < 152 then
    let a := (k - 120) / 8
    let j := (k - 120) % 8
    bitOf (h.get (ADC_A_IE.EN a)) j &&
      (match j with
        | 0 => h.on (ADC_A_STAT.REG_END a)
        | 1 => h.on (ADC_A_STAT.INJ_END a)
        | 2 => h.get (ADC_A_FIFOSTAT.THR a) < h.get (ADC_A_FIFOSTAT.LEVEL a)
        | 3 => h.on (ADC_A_FIFOSTAT.OVR a)
        | 4 => h.on (ADC_A_WC_STAT.HIT a 0) || h.on (ADC_A_WC_STAT.HIT a 1)
        | 5 => h.on (ADC_A_STRM_STAT.DONE_LEVEL a)
        | 6 => anyBelow 2 (fun i => bitOf (h.get ADC_IEPE_EVT.CHG) (2 * a + i) || bitOf (h.get ADC_IEPE_NEG_RESULT.BITS) (4 * (2 * a + i) + 3))
        | _ => false)
  else if k < 156 then h.on (AOUT_DRV_STAT.UNDERRUN (k - 152)) && h.on (AOUT_DRV_IE.UNDERRUN (k - 152))
  else if k < 160 then
    let n := k - 156
    let e := h.get (AOUT_CL_IE.EN n)
    (bitOf e 0 && h.on (AOUT_CL_STAT.HEADROOM n)) || (bitOf e 1 && h.on (AOUT_CL_STAT.FAULT_UNREACHABLE n)) || (bitOf e 2 && h.on (AOUT_CL_STAT.DEVIATION n))
  else if k < 176 then h.anyOf (bitsOf (TMR_GT_STAT (k - 160)) 0 5) (TMR_GT_IE.EN (k - 160))
  else if k < 180 then h.anyOf (bitsOf (TMR_PT_STAT (k - 176)) 0 3) (TMR_PT_IE.EN (k - 176))
  else if k < 192 then
    match k with
    | 180 => h.on TMR_TB_ALM_CTL.HIT && h.on TMR_TB_ALM_CTL.IE
    | 181 => h.on (TMR_WD_STAT.WARNED 0)
    | 182 => h.on (TMR_WD_STAT.WARNED 1)
    | 183 => h.on TMR_MISSED.TIMERS && h.on TMR_MISSED_IE.IE
    | _ => false
  else if k < 198 then h.uartLine (UART_CFG (k - 192))
  else if k = 198 then h.uartLine POL_PU_CFG
  else if k < 200 then false
  else if k < 204 then
    let n := (k - 200) / 2
    if k % 2 = 0 then h.get (bitsOf (CAN_STAT n) 0 2) &&& h.get (bitsOf (CAN_IE n) 0 2) != 0
    else h.get (bitsOf (CAN_STAT n) 2 5) &&& h.get (bitsOf (CAN_IE n) 2 5) != 0
  else if k < 208 then
    let n := k - 204
    (h.on (SPI_STAT.UDR n) && h.on (SPI_IE.UDR n)) || (h.on (SPI_STAT.OVR n) && h.on (SPI_IE.OVR n))
  else if k < 212 then h.anyOf (bitsOf (I2C_STAT (k - 208)) 0 6) (I2C_IE.EN (k - 208))
  else if k = 212 then h.on XSPI_STAT.DONE
  else if k = 213 then h.on XSPI_STAT.POLL_TMO || h.on XSPI_STAT.ICMD_REJ || h.on XSPI_NEG_RESULT.LINK_FLOOR
  else if k < 230 then
    let n := (k - 214) / 8
    let st := h.rd (ETH_STAT n)
    let e := h.get (ETH_IE.EN n)
    (match (k - 214) % 8 with
      | 0 => bitOf e 0 && st.getLsbD 0
      | 1 => bitOf e 1 && st.getLsbD 1
      | 2 => (tget {} h.eths n).ts != []
      | 3 => bitOf e 3 && st.getLsbD 3
      | 4 => bitOf e 4 && st.getLsbD 4
      | 5 => bitOf e 9 && h.on (ETH_MDIO_STAT.DONE n)
      | 6 => h.on (ETH_NEG_RESULT.FLOOR n)
      | _ => (bitOf e 2 && st.getLsbD 2) || (bitOf e 5 && st.getLsbD 5) || (bitOf e 6 && st.getLsbD 6) || (bitOf e 7 && st.getLsbD 7) || (bitOf e 8 && st.getLsbD 8))
  else if k < 238 then
    let e := h.get TWIN_IE.EN
    let v := (h.rd TWIN_EVT).toNat
    (match k with
      | 230 => bitOf (e &&& v) 0 || bitOf (e &&& v) 1
      | 231 => bitOf (e &&& v) 2 || bitOf (e &&& v) 3
      | 232 => bitOf (e &&& v) 4 || bitOf (e &&& v) 5 || bitOf (e &&& v) 6
      | 233 => bitOf (e &&& v) 7
      | 234 => bitOf (e &&& v) 8 || bitOf (e &&& v) 9 || bitOf (e &&& v) 10
      | 235 => bitOf (e &&& v) 11
      | 236 => bitOf (e &&& v) 12 || bitOf (e &&& v) 13
      | _ => false)
  else if k < 242 then bitOf (h.rd CMT_STATUS).toNat (k - 235) && bitOf (h.get CMT_IE.EN) (k - 238)
  else
    match k with
    | 246 => h.on BIST_STAT.DONE && bitOf (h.get BIST_IE.EN) 0
    | 247 => h.on BIST_STAT.FAIL && bitOf (h.get BIST_IE.EN) 1
    | 248 | 249 | 250 | 251 => h.gpioLine (k - 248)
    | 252 => h.on POL_RULE_EVT.RULES && bitOf (h.get POL_MAIN_IE.EN) 0
    | 253 => h.on POL_TRIP_STAT.TRIP_EVT && bitOf (h.get POL_MAIN_IE.EN) 1
    | 254 => h.on POL_HAND.REQ && bitOf (h.get POL_MAIN_IE.EN) 2
    | 255 => h.on POL_MBX_CTL.MAIN_DB && bitOf (h.get POL_MAIN_IE.EN) 3
    | _ => false))

/-- INTC_PENDw: bit `b` says that line 32w + b is asserted. -/
def Hw.pendWord (h : Hw) (w : Nat) : BitVec 32 :=
  BitVec.ofNat 32 ((List.range 32).foldl (fun n b => if h.lineUp (32 * w + b) then n + 2 ^ b else n) 0)

/-- Island line `k` is pending (table "Island lines"): lines 1, 5, 6 and 9 are events, which CORE_PEND holds until the entry
(log entry 8). -/
def Hw.islandLine (h : Hw) (k : Nat) : Bool :=
  match k with
  | 0 => h.rd POL_RULE_EVT != 0
  | 2 => h.on POL_MBX_CTL.POL_DB
  | 3 => h.uartLine POL_PU_CFG
  | 4 => h.on POL_PGPIO_EDGE.EVT
  | 7 => h.on CLK_STAT.LSX_FAIL
  | 8 => h.on POL_STAT.BRIDGE_ERR
  | _ => bitOf (h.get POL_CORE_PEND.PEND) k

/-- POL_CORE_PEND as read: the pending island lines (R378). -/
def Hw.islandPend (h : Hw) : Nat := (List.range 10).foldl (fun n k => if h.islandLine k then n + 2 ^ k else n) 0

/-- An island event awaits its entry. -/
def Hw.islandEvent (h : Hw) (k : Nat) : Hw := h.set POL_CORE_PEND.PEND (setBit (h.get POL_CORE_PEND.PEND) k true)

/-- The lowest island line that is pending and enabled (R378). -/
def Hw.islandBest (h : Hw) : Option Nat := (List.range 10).find? (fun k => bitOf (h.get POL_CORE_IE.EN) k && h.islandLine k)

end Sys2Proof.Machine
end

