-- ==== Sys2Proof/Machine/RegBus.lean ====
section
/-! DEFINITION. What a register access does to a register with no behaviour of its own (R12 to R16, R425, R485). -/

namespace Sys2Proof.Machine

/-- Launch has ended: LK fields are locked (R116). -/
def Hw.launched (h : Hw) : Bool := h.on SYS_LAUNCH_STAT.DONE

/-- A rule for a field with reserved encodings: which registers of a block it holds for, where the field lies, and which
values are listed (R15). -/
structure EncRule where
  reg : Nat
  n1 : Nat
  s1 : Nat
  lo : Nat
  wid : Nat
  ok : Nat → Bool

/-- The fields with reserved encodings (R15), from the register tables. -/
def encRules : List EncRule := [
  ⟨CLK_SRV_AUTH, 1, 4, 0, 2, fun v => v < 3⟩,
  ⟨LAC_AVS_AUTH, 1, 4, 0, 2, fun v => v < 3⟩,
  ⟨ADC_BST1_AUTH, 1, 4, 0, 2, fun v => v < 3⟩,
  ⟨AOUT_BST2_AUTH, 1, 4, 0, 2, fun v => v < 3⟩,
  ⟨POL_THR_AUTH, 1, 4, 0, 2, fun v => v < 3⟩,
  ⟨PE_POOL_AUTH 0, 16, 0x40, 0, 2, fun v => v < 3⟩,
  ⟨PE_POOL_LOW 0, 16, 0x40, 0, 5, fun v => 2 ≤ v && v ≤ 24⟩,
  ⟨PE_POOL_HIGH 0, 16, 0x40, 0, 5, fun v => 2 ≤ v && v ≤ 24⟩,
  ⟨PE_POOL_PIN 0, 16, 0x40, 0, 5, fun v => 2 ≤ v && v ≤ 24⟩,
  ⟨PE_POOL_HINT 0, 16, 0x40, 0, 5, fun v => v = 0 || (2 ≤ v && v ≤ 24)⟩,
  ⟨PE_POOL_CFG 0, 16, 0x80, 2, 5, fun v => 6 ≤ v && v ≤ 16⟩,
  ⟨PE_POOL_NBUF 0, 16, 0x80, 0, 17, fun v => 1 ≤ v && v ≤ 65536⟩,
  ⟨CLK_SRV_CFG, 1, 4, 10, 8, fun v => v != 0⟩,
  ⟨INTC_M_THRESH 0, 2, 0x20, 0, 5, fun v => v ≤ 16⟩,
  ⟨MRC_SCRUB_CFG, 1, 4, 1, 23, fun v => 4 ≤ v⟩,
  ⟨HUB_SCRUB_CFG, 1, 4, 1, 23, fun v => 4 ≤ v⟩,
  ⟨CMT_DRAIN_CFG, 1, 4, 0, 10, fun v => 1 ≤ v && v ≤ 900⟩,
  ⟨TMR_WD_LOAD 0, 2, 0x20, 0, 24, fun v => v != 0⟩] ++ [
  ⟨PWR_CFG, 1, 4, 0, 9, fun v => v = 0 || (50 ≤ v && v ≤ 360)⟩,
  ⟨PWR_CFG, 1, 4, 9, 4, fun v => v != 0⟩,
  ⟨PWR_CFG, 1, 4, 13, 4, fun v => v != 0⟩,
  ⟨CLK_CFG, 1, 4, 1, 8, fun v => v != 0⟩,
  ⟨CLK_DIV, 1, 4, 0, 4, fun v => 2 ≤ v && v ≤ 4⟩,
  ⟨CLK_DIV, 1, 4, 4, 5, fun v => 4 ≤ v && v ≤ 16⟩,
  ⟨CLK_DIV, 1, 4, 9, 7, fun v => 4 ≤ v && v ≤ 64⟩,
  ⟨CLK_DIV, 1, 4, 16, 8, fun v => 8 ≤ v && v ≤ 128⟩,
  ⟨CLK_DIV, 1, 4, 24, 8, fun v => 20 ≤ v⟩,
  ⟨MRC_LS_SIZE 0, 16, 0x40, 0, 18, fun v => v = 0 || 4 ≤ v⟩] ++ [
  ⟨UART_CFG 0, 6, 0x100, 1, 2, fun v => v < 2⟩,
  ⟨UART_CFG 0, 6, 0x100, 4, 4, fun v => 5 ≤ v && v ≤ 9⟩,
  ⟨UART_CFG 0, 6, 0x100, 8, 3, fun v => v < 5⟩,
  ⟨UART_BAUD 0, 6, 0x100, 0, 16, fun v => v != 0⟩,
  ⟨POL_PU_CFG, 1, 4, 1, 2, fun v => v < 2⟩,
  ⟨POL_PU_CFG, 1, 4, 4, 4, fun v => 5 ≤ v && v ≤ 9⟩,
  ⟨POL_PU_CFG, 1, 4, 8, 3, fun v => v < 5⟩,
  ⟨POL_PU_BAUD, 1, 4, 0, 16, fun v => v != 0⟩,
  ⟨CAN_NBT 0, 2, 0x4000, 8, 8, fun v => v != 0⟩,
  ⟨CAN_NBT 0, 2, 0x4000, 16, 7, fun v => v != 0⟩,
  ⟨CAN_DBT 0, 2, 0x4000, 5, 5, fun v => v != 0⟩,
  ⟨SPI_CFG 0, 4, 0x100, 4, 5, fun v => 3 ≤ v⟩,
  ⟨I2C_SCL 0, 4, 0x100, 0, 10, fun v => v != 0⟩,
  ⟨I2C_SCL 0, 4, 0x100, 16, 10, fun v => v != 0⟩,
  ⟨ETH_MAXLEN 0, 2, 0x10000, 0, 14, fun v => 64 ≤ v && v ≤ 9216⟩] ++ [
  ⟨POL_ADC_CFG, 1, 4, 1, 5, fun v => 1 ≤ v && v ≤ 16⟩,
  ⟨POL_ADC_CFG, 1, 4, 8, 24, fun v => v != 0⟩,
  ⟨POL_ADC_SLOT 0, 16, 4, 0, 4, fun v => v ≤ 8⟩,
  ⟨POL_RULE_CFG 0, 32, 0x10, 1, 5, fun v => v < 30⟩,
  ⟨POL_RULE_CFG 0, 32, 0x10, 19, 2, fun v => v < 3⟩,
  ⟨POL_THR_CFG, 1, 4, 4, 12, fun v => v != 0⟩,
  ⟨POL_LOG_CFG, 1, 4, 4, 4, fun v => v < 15⟩,
  ⟨POL_WDP_LOAD, 1, 4, 0, 24, fun v => v != 0⟩] ++ [
  ⟨ADC_TEDS_CTL, 1, 4, 8, 8, fun v => 1 ≤ v && v ≤ 128⟩,
  ⟨ADC_AIN_CFG 0, 24, 4, 10, 3, fun v => v = 0 || v = 3 || v = 4⟩,
  ⟨ADC_AIN_CFG 0, 24, 4, 15, 5, fun v => 1 ≤ v && v ≤ 20⟩,
  ⟨ADC_BST1_LOW, 3, 4, 0, 9, fun v => 120 ≤ v && v ≤ 260⟩,
  ⟨ADC_BST1_HINT, 1, 4, 0, 9, fun v => v = 0 || (120 ≤ v && v ≤ 260)⟩,
  ⟨ADC_A_REGCFG 0, 4, 0x1000, 0, 6, fun v => 1 ≤ v && v ≤ 32⟩,
  ⟨ADC_A_REGCFG 0, 4, 0x1000, 8, 5, fun v => v ≤ 20⟩,
  ⟨ADC_A_INJCFG 0, 4, 0x1000, 0, 4, fun v => 1 ≤ v && v ≤ 8⟩,
  ⟨ADC_A_INJCFG 0, 4, 0x1000, 8, 5, fun v => v ≤ 20⟩,
  ⟨ADC_A_STRM_SETS 0, 4, 0x1000, 0, 16, fun v => v != 0⟩] ++
  (List.range 4).flatMap (fun a => [(ADC_A_REG_SLOT a 0, 32), (ADC_A_INJ_SLOT a 0, 8)].flatMap (fun e => [
    ⟨e.1, e.2, 4, 0, 5, fun v => v ≤ 27⟩,
    ⟨e.1, e.2, 4, 5, 3, fun v => v ≤ 6⟩,
    ⟨e.1, e.2, 4, 8, 10, fun v => 20 ≤ v⟩,
    ⟨e.1, e.2, 4, 18, 4, fun v => v ≤ 8⟩,
    ⟨e.1, e.2, 4, 22, 4, fun v => v ≤ 8⟩])) ++ [
  ⟨AOUT_DRV_CFG 0, 4, 0x40, 1, 2, fun v => v < 3⟩,
  ⟨AOUT_DRV_CFG 0, 4, 0x40, 3, 5, fun v => v ≤ 20⟩,
  ⟨AOUT_DRV_CFG 0, 4, 0x40, 9, 2, fun v => v < 3⟩,
  ⟨AOUT_CL_CFG 0, 4, 0x40, 2, 2, fun v => v < 3⟩,
  ⟨AOUT_BST2_LOW, 3, 4, 0, 9, fun v => 80 ≤ v && v ≤ 260⟩,
  ⟨AOUT_BST2_HINT, 1, 4, 0, 9, fun v => v = 0 || (80 ≤ v && v ≤ 260)⟩,
  ⟨LAC_AVS_LOW, 3, 4, 0, 10, fun v => 650 ≤ v && v ≤ 950⟩,
  ⟨LAC_AVS_HINT, 1, 4, 0, 10, fun v => v = 0 || (650 ≤ v && v ≤ 950)⟩,
  ⟨LAC_LC_ISL_LEN 0, 4, 0x40, 3, 13, fun v => v != 0⟩,
  ⟨TMR_GT_CFG 0, 16, 0x40, 15, 4, fun v => v ≤ 6⟩,
  ⟨TMR_GT_CFG 0, 16, 0x40, 19, 2, fun v => v < 3⟩,
  ⟨TMR_PT_CFG 0, 4, 0x80, 24, 2, fun v => v < 3⟩,
  ⟨TMR_PT_PERIOD 0, 4, 0x80, 0, 32, fun v => 2 ≤ v⟩,
  ⟨TWIN_CFG, 1, 4, 8, 8, fun v => v != 0⟩,
  ⟨TWIN_MW_CFG 0, 16, TWIN_MW_CFG 1 - TWIN_MW_CFG 0, 2, 11, fun v => 1 ≤ v && v ≤ 1024⟩,
  ⟨GPIO_MUX 0, 48, 4, 0, 2, fun v => v < 3⟩,
  ⟨GPIO_MUX 48, 24, 4, 0, 2, fun v => v < 2⟩,
  ⟨GPIO_MUX 0, 72, 4, 2, 2, fun v => v < 3⟩] ++ [
  ⟨LAC_LC_CFG 0, 4, 0x40, 0, 2, fun v => v < 3⟩,
  ⟨PE_Q_MAX 0 0, 2048, 4, 0, 17, fun v => v ≤ 65536⟩,
  ⟨AOUT_CL_CODE 0, 4, 0x40, 0, 16, fun v => v ≤ 49000⟩,
  ⟨ETH_LF_CFG 0, 2, 0x10000, 8, 8, fun v => v ≤ 5⟩] ++
  [(XSPI_LINK, 1, 5), (DDR_LINK, 1, 5), (ETH_LINK 0, 2, 5), (TWIN_LINK, 1, 6)].flatMap (fun e => [
    ⟨e.1, e.2.1, 0x10000, 0, 8, fun v => v ≤ e.2.2⟩,
    ⟨e.1, e.2.1, 0x10000, 8, 8, fun v => v ≤ e.2.2 || v = 0xFF⟩])

/-- The rule holds for register address `a`. -/
def EncRule.hits (r : EncRule) (a : Nat) : Bool := r.reg ≤ a && (a - r.reg) % r.s1 = 0 && (a - r.reg) / r.s1 < r.n1

/-- Every field of the word `v` at `a` has an encoding that its table gives (R15). -/
def encOk (a : Nat) (v : BitVec 32) : Bool := encRules.all (fun r => !r.hits a || r.ok ((⟨a, r.lo, r.wid⟩ : Fld).of v))

/-- The word `v` written over `w` at `a`, in which every field given a reserved encoding keeps its value (R15). -/
def legalWord (a : Nat) (w v : BitVec 32) : BitVec 32 :=
  encRules.foldl (fun v r => let f : Fld := ⟨a, r.lo, r.wid⟩
    if r.hits a && !r.ok (f.of v) then f.into v (f.of w) else v) v

/-- What a write of `v` leaves in a register of this row that held `w`: RW and SH fields take the value, LK fields until launch
end, W1C and W1S bits are cleared and set, everything else stays (R12 to R14). -/
def RegRow.written (r : RegRow) (launched : Bool) (w v : BitVec 32) : BitVec 32 :=
  let m : BitVec 32 := BitVec.ofNat 32 (r.rw ||| r.sh ||| (if launched then 0 else r.lk))
  (((w &&& ~~~ m) ||| (v &&& m)) &&& ~~~ (v &&& BitVec.ofNat 32 r.w1c)) ||| (v &&& BitVec.ofNat 32 r.w1s)

/-- A staged value of domain `d` is written: while a commit runs, since its capture (R425, R427). -/
def Hw.stagedDom (h : Hw) (d : Nat) : Hw :=
  if h.cmt.captured.isSome then { h with cmt := { h.cmt with rewritten := setBit h.cmt.rewritten (d - 1) true } } else h

/-- The staging copy at `a`, of domain `d`, is written. -/
def Hw.staged (h : Hw) (a d : Nat) : Hw :=
  if h.cmt.captured.isSome then
    (Hw.stagedDom { h with cmt := { h.cmt with words := if h.cmt.words.contains a then h.cmt.words else a :: h.cmt.words } } d)
  else h

/-- A write to a register with no behaviour of its own; a register with SH fields stages and marks its domain in CMT_STAGED
(R12 to R16, R425). -/
def Hw.plainWrite (h : Hw) (a : Nat) (v : BitVec 32) : Hw :=
  match rowOf a with
  | some (r, false) =>
    let w := h.rd a
    let h := h.wr a (r.written h.launched w (legalWord a w v))
    if r.sh != 0 then (h.set CMT_STAGED.DOMAIN (setBit (h.get CMT_STAGED.DOMAIN) (r.dom - 1) true)).staged a r.dom
    else h
  | _ => h

/-- The bits of a word that a read returns: reserved bits and WO fields read 0 (R12, R14). -/
def RegRow.shown (r : RegRow) (live : Bool) (w : BitVec 32) : BitVec 32 :=
  w &&& BitVec.ofNat 32 (if live then r.sh else r.rw ||| r.w1c ||| r.w1s ||| r.rc ||| r.sh ||| r.lk ||| r.ro)

/-- A read of a register with no behaviour of its own: RC fields clear (R12, R16). -/
def Hw.plainRead (h : Hw) (a : Nat) : Hw × BitVec 32 :=
  match rowOf a with
  | some (r, live) =>
    let w := h.rd a
    (if r.rc != 0 && !live then h.wr a (w &&& ~~~ BitVec.ofNat 32 r.rc) else h, r.shown live w)
  | none => (h, 0)

/-- The register has RC fields: a read counts as a write for R485. -/
def readChanges (a : Nat) : Bool :=
  match rowOf a with
  | some (r, false) => r.rc != 0
  | _ => false

/-- The outcome of a register read: the word, a refusal, a bus error, or no answer yet (a held ALLOC). -/
inductive RdRes where
  | word (w : BitVec 32)
  | owner
  | bus
  | stall
  deriving DecidableEq, Repr

end Sys2Proof.Machine
end

