-- ==== Sys2Proof/Machine/Intc.lean ====
section
/-! DEFINITION. Requests for a main-domain reset (spec/02_power.md R67, R487), the interrupt controller's registers and the
watchdogs WD0 and WD1 (spec/06_cores.md R154 to R163). -/

namespace Sys2Proof.Machine

/-! ### Reset requests -/

/-- Reset cause codes (table "Reset causes"). -/
def rcRetained : Nat := 1
def rcBackupLost : Nat := 2
def rcWakeOff : Nat := 3
def rcPfail : Nat := 4
def rcVcore : Nat := 5
def rcClock : Nat := 6
def rcWd (n : Nat) : Nat := 7 + n
def rcPin : Nat := 9
def rcDebug : Nat := 0xA
def rcLcs : Nat := 0xB
def rcSoftware : Nat := 0xC

/-- A reset that leaves VCORE up is requested (R67, R487): its writeback begins; of two causes on the same IRC edge the lower code is
recorded with MULTI. DESIGN CHOICE (log entry 140): the spec is silent on a cause that arises later, while the writeback still runs; it
is dropped, and the first cause stands. -/
def Hw.requestReset (h : Hw) (cause : Nat) (same : Bool) : Hw :=
  if h.mainUp then
    match h.pwr.pending with
    | none => { h with pwr := { h.pwr with pending := some (cause, false) } }
    | some (c, _) => if same && c != cause then { h with pwr := { h.pwr with pending := some (min c cause, true) } } else h
  else h

/-! ### The interrupt controller -/

/-- The lines ACTIVE on core `c`, the most recent first, with their PRIO at grant. -/
def Hw.act (h : Hw) (c : Nat) : List (Nat × Nat) := if c = 0 then h.act0 else h.act1

/-- The lines ACTIVE on core `c` are `l`; RUNPRI and ACTIVE follow (R156). -/
def Hw.setAct (h : Hw) (c : Nat) (l : List (Nat × Nat)) : Hw :=
  let h := if c = 0 then { h with act0 := l } else { h with act1 := l }
  h.sets [(INTC_M_RUNPRI.PRI c, l.foldl (fun m e => min m e.2) 16), (INTC_M_ACTIVE.LINE c, (l.head?.map (·.1)).getD 0),
    (INTC_M_ACTIVE.VALID c, b2n (l != []))]

/-- Line `k` is ACTIVE on either core. -/
def Hw.lineActive (h : Hw) (k : Nat) : Bool := (h.act0 ++ h.act1).any (fun e => e.1 == k)

/-- Line `k` is deliverable to core `c`, disregarding SSTAT (R154). -/
def Hw.deliverable (h : Hw) (c k : Nat) : Bool :=
  h.on (INTC_CFG.EN k) && bitOf (h.get (INTC_CFG.ROUTE k)) c && !h.lineActive k &&
  h.get (INTC_CFG.PRIO k) < h.get (INTC_M_RUNPRI.PRI c) && h.get (INTC_CFG.PRIO k) < h.get (INTC_M_THRESH.PRI c) && h.lineUp k

/-- The lines with EN set, the most urgent first: by PRIO, then by number (R154). -/
def Hw.urgency (h : Hw) : List Nat :=
  (List.range 16).flatMap (fun p => (List.range 256).filter (fun k => h.on (INTC_CFG.EN k) && h.get (INTC_CFG.PRIO k) == p))

/-- The most urgent line deliverable to core `c`, disregarding SSTAT. -/
def Hw.bestLine (h : Hw) (c : Nat) : Option Nat := h.urgency.find? (fun k => h.deliverable c k)

/-- A write of a line number to INTC_Mc_EOI (R156). -/
def Hw.intcEoi (h : Hw) (a : Access) (c : Nat) (v : Word) : Hw × AccRes :=
  let k := v.toNat % 256
  if a.tid != 0 then (h, .owner)
  else if (h.act c).any (fun e => e.1 == k) then (h.setAct c ((h.act c).filter (fun e => e.1 != k)), .ok)
  else (h.up INTC_STAT.BAD_EOI, .ok)

/-- The bits of INTC_SWI whose lines the TID owns (R157). -/
def Hw.swiOwned (h : Hw) (t : Nat) : Nat :=
  (List.range 16).foldl (fun n i => if t = 0 || h.get (INTC_CFG.OWNER_L (16 + i)) = t then n + 2 ^ i else n) 0

/-- A write of INTC_SWI_SET (R157). -/
def Hw.swiSet (h : Hw) (a : Access) (v : Word) : Hw × AccRes :=
  (h.set INTC_SWI_SET.SWI (h.get INTC_SWI_SET.SWI ||| (v.toNat % 2 ^ 16 &&& h.swiOwned a.tid.toNat)), .ok)

/-- A write of INTC_SWI_CLR (R157). -/
def Hw.swiClr (h : Hw) (a : Access) (v : Word) : Hw × AccRes :=
  let m := v.toNat % 2 ^ 16 &&& h.swiOwned a.tid.toNat
  (h.set INTC_SWI_SET.SWI ((h.get INTC_SWI_SET.SWI ||| m) ^^^ m), .ok)

/-- A write of INTC_CFGk: every field from TID 0, EN alone from the line's OWNER, refused otherwise (R157). -/
def Hw.intcCfg (h : Hw) (a : Access) (k : Nat) (v : Word) : Hw × AccRes :=
  if a.tid = 0 then (h.plainWrite (INTC_CFG k) v, .ok)
  else if a.tid.toNat = h.get (INTC_CFG.OWNER_L k) then (h.put (INTC_CFG.EN k) (v.getLsbD 6), .ok)
  else (h, .owner)

/-! ### Watchdogs -/

/-- The core that watchdog `n` guards. -/
def wdCore (n : Nat) : Initiator := if n = 0 then .m0 else .m1

/-- WDn counts: it is enabled and nothing pauses it (R163). -/
def Hw.wdRuns (h : Hw) (n : Nat) : Bool :=
  h.on (TMR_WD_CTL.EN n) && h.clocked && h.pwr.sleep != .sleepEmulated &&
  !(h.pwr.sleep = .doze && h.on (TMR_WD_CTL.PAUSE_DOZE n)) &&
  !(h.on (TMR_WD_CTL.FREEZE n) && (if n = 0 then h.m0.run else h.m1.run) = .halted)

/-- WDn expires: a main-domain reset with its cause (R161). -/
def Hw.wdExpire (h : Hw) (n : Nat) (same : Bool) : Hw := (h.set (TMR_WD_COUNT.VALUE n) 0).requestReset (rcWd n) same

/-- A write of WDn_KICK (R162). Only TID 0 writes it. DESIGN CHOICE: one while EN = 0 is ignored (log entry 159), and one by neither main
core sets WRONG_CORE (log entry 160). -/
def Hw.wdKick (h : Hw) (a : Access) (n : Nat) (v : Word) : Hw × AccRes :=
  if a.tid != 0 then (h, .owner)
  else if a.who != wdCore n then (h.up (TMR_WD_STAT.WRONG_CORE n), .ok)
  else if !h.on (TMR_WD_CTL.EN n) then (h, .ok)
  else if v.toNat % 2 ^ 16 = 0x4B1D && v.toNat < 2 ^ 16 && h.get (TMR_WD_COUNT.VALUE n) ≤ h.get (TMR_WD_WIN.VALUE n) then
    (h.set (TMR_WD_COUNT.VALUE n) (h.get (TMR_WD_LOAD.VALUE n)), .ok)
  else (h.wdExpire n false, .ok)

/-- A write of CTL, LOAD, WARN or WIN: ignored while EN = 1; EN = 1 starts the count from LOAD (R161). DESIGN CHOICE (log entry 163): so
does a REGS entry of the launch record that writes EN = 1, and that watchdog runs at launch end. -/
def Hw.wdWrite (h : Hw) (a : Access) (n adr : Nat) (v : Word) : Hw × AccRes :=
  if a.tid != 0 then (h, .owner)
  else if h.on (TMR_WD_CTL.EN n) then (h, .ok)
  else
    let h := h.plainWrite adr v
    (if h.on (TMR_WD_CTL.EN n) then Hw.set { h with wdFrac := tput 0 h.wdFrac n 0 } (TMR_WD_COUNT.VALUE n) (h.get (TMR_WD_LOAD.VALUE n)) else h, .ok)

/-- `k` counts pass for WDn, to 0 at least: WARNED where COUNT reaches or passes WARN above 0 (R161). -/
def Hw.wdPass (h : Hw) (n k : Nat) : Hw :=
  let c := h.get (TMR_WD_COUNT.VALUE n)
  let w := h.get (TMR_WD_WARN.VALUE n)
  (h.set (TMR_WD_COUNT.VALUE n) (c - k)).upIf (w != 0 && w < c && c - k ≤ w) (TMR_WD_STAT.WARNED n)

/-- COUNT of WDn goes down by one; it expires at 0, and `same` says that another cause of a reset arises on this edge (R67, R161). -/
def Hw.wdDown (h : Hw) (n : Nat) (same : Bool) : Hw :=
  let h := h.wdPass n 1
  if h.get (TMR_WD_COUNT.VALUE n) = 0 then h.wdExpire n same else h

/-- PER_DIV half nanoseconds pass for WDn; 16 000 of them are 64 IRC cycles (R161; log entry 24). -/
def Hw.wdEdge (h : Hw) (n : Nat) (same : Bool) : Hw :=
  if !h.wdRuns n then h
  else
    let t := tget 0 h.wdFrac n + h.get CLK_DIV.PER_DIV
    if t < 16000 then { h with wdFrac := tput 0 h.wdFrac n t }
    else Hw.wdDown { h with wdFrac := tput 0 h.wdFrac n (t - 16000) } n same

/-- One edge for both watchdogs: where both reach 0 on it, the lower cause is recorded with MULTI (R67). -/
def Hw.wdEdges (h : Hw) : Hw :=
  let k := h.wdEdge 0 false
  k.wdEdge 1 (decide (k.pwr.pending ≠ h.pwr.pending))

/-! ### The commands -/

/-- INTC_EOI. -/
def execIntcEoi (acc : Access) (c : Fin 2) (v : Word) (s : State) : Out := s.onBusBy acc (fun h => (h.intcEoi acc c v).1)

/-- INTC_SWI_SET. -/
def execIntcSwiSet (acc : Access) (v : Word) (s : State) : Out := s.onBusBy acc (fun h => (h.swiSet acc v).1)

/-- INTC_SWI_CLR. -/
def execIntcSwiClr (acc : Access) (v : Word) (s : State) : Out := s.onBusBy acc (fun h => (h.swiClr acc v).1)

/-- INTC_CFG_WRITE. -/
def execIntcCfgWrite (acc : Access) (k : Fin 256) (v : Word) (s : State) : Out := s.onBusBy acc (fun h => (h.intcCfg acc k v).1)

/-- WD_KICK, `elapsed` counts after COUNT was last brought up to date: a kick in the cycle in which COUNT reaches 0 wins, and one that
comes later finds the watchdog expired (R162). -/
def execWdKick (acc : Access) (n : Fin 2) (v : Word) (elapsed : Nat) (s : State) : Out := s.onBusBy acc (fun h =>
  let late := h.wdRuns n && h.get (TMR_WD_COUNT.VALUE n) < elapsed
  let h := h.when (h.wdRuns n) (fun h => h.wdPass n elapsed)
  let h := h.when late (fun h => h.wdExpire n false)
  if late && acc.who = wdCore n then h else (h.wdKick acc n v).1)

/-- WD_WARNING: COUNT reaches a WARN that is not 0; WARNED sets, line 181 or 182 (R161). -/
def execWdWarning (n : Fin 2) (s : State) : Out := s.run (fun h =>
  let w := h.get (TMR_WD_WARN.VALUE n)
  h.when (h.wdRuns n && w != 0 && w ≤ h.get (TMR_WD_COUNT.VALUE n)) (fun h =>
    (h.set (TMR_WD_COUNT.VALUE n) w).up (TMR_WD_STAT.WARNED n)))

/-- WD_EXPIRY: COUNT reaches 0 (R161); `same` says that another cause arises on the same IRC edge (R67). -/
def execWdExpiry (n : Fin 2) (same : Bool) (s : State) : Out := s.run (fun h => h.when (h.wdRuns n) (fun h => h.wdExpire n same))

end Sys2Proof.Machine
end

