-- ==== Sys2Proof/Machine/Lac.lean ====
section
/-! DEFINITION. The Lane Array around its kernels (spec/09_lane_array.md): clusters and queues, store loads, dispatch, completion
and faults, and the AVS loop with its throttle. -/

namespace Sys2Proof.Machine

def Hw.grp (h : Hw) (g : Nat) : LaneGrp := tget {} h.laneG g
def Hw.setGrp (h : Hw) (g : Nat) (x : LaneGrp) : Hw := { h with laneG := tput {} h.laneG g x }
def Hw.lq (h : Hw) (q : Nat) : LaneQ := tget {} h.laneQ q

/-- A queue's state is `x`; DEPTH and RUNNING follow. -/
def Hw.setLq (h : Hw) (q : Nat) (x : LaneQ) : Hw :=
  ({ h with laneQ := tput {} h.laneQ q x }).sets
    [(LAC_Q_STAT.DEPTH q, x.waiting.length), (LAC_Q_STAT.RUNNING q, b2n (x.kern.isSome && !x.gangWait))]

/-- The mode of cluster `c` (R216). -/
def Hw.lcMode (h : Hw) (c : Nat) : Nat := h.get (LAC_LC_CFG.MODE c)

/-- The number of groups in a mode. -/
def modeGroups (m : Nat) : Nat := if m = 0 then 1 else if m = 1 then 4 else 2

/-- The width of a group in a mode. -/
def modeWidth (m : Nat) : Nat := if m = 0 then 32 else if m = 1 then 8 else 16

/-- The size of a group's store part. -/
def modePart (m : Nat) : Nat := if m = 0 then 0x8000 else if m = 1 then 0x2000 else 0x4000

/-- The number of lines in a group's L1 part (R216). -/
def modeL1 (m : Nat) : Nat := if m = 0 then 1024 else if m = 1 then 256 else 512

/-- Group `g` exists in its cluster's present mode (R218). -/
def Hw.groupExists (h : Hw) (g : Nat) : Bool := g % 4 < modeGroups (h.lcMode (g / 4))

/-- The first lane of group `g` in its cluster. -/
def Hw.lane0 (h : Hw) (g : Nat) : Nat := g % 4 * modeWidth (h.lcMode (g / 4))

/-- The instruction store address of offset `o` of group `g`'s part. -/
def Hw.istAddr (h : Hw) (g o : Nat) : Nat := g / 4 * 0x8000 + g % 4 * modePart (h.lcMode (g / 4)) + o

/-- OWNER in force of queue `q`. -/
def Hw.lqOwner (h : Hw) (q : Nat) : Nat := h.get (LAC_Q_OWNER.TID_L q)

/-- The Lane Array runs: it is clocked (R235), and no life-cycle transition holds it in reset (R123). -/
def Hw.laneOn (h : Hw) : Bool := h.blockOn 9 && h.pwr.sleep = .run && !h.lcsm.holds

/-- A BIST run tests cluster `c` or its memories, or LMEM (R237, R457, R458). -/
def Hw.clusterTested (h : Hw) (c : Nat) : Bool := h.bistRuns (3 + c) || h.bistRuns (0x14 + c) || h.bistRuns 0x18

/-- Cluster `c` is named by a gang that waits or runs. -/
def Hw.gangNames (h : Hw) (c : Nat) : Bool :=
  match (h.lq 0).kern with
  | some k => k.gang && k.groups.contains (4 * c)
  | none => false

/-- No kernel runs on cluster `c`. -/
def Hw.clusterFree (h : Hw) (c : Nat) : Bool := (List.range 4).all (fun s => (h.grp (4 * c + s)).queue.isNone)

/-- Cluster `c` is idle (R217): no kernel, no queued descriptor, no gang that waits for it. -/
def Hw.clusterIdle (h : Hw) (c : Nat) : Bool :=
  (List.range 4).all (fun s => let q := h.lq (4 * c + s); q.waiting = [] && q.kern.isNone) && h.clusterFree c && !h.gangNames c

/-- LC_STAT.RUN follows the groups of cluster `c`. -/
def Hw.syncRun (h : Hw) (c : Nat) : Hw :=
  h.set (LAC_LC_STAT.RUN c) ((List.range 4).foldl (fun n s => if (h.grp (4 * c + s)).queue.isSome then n + 2 ^ s else n) 0)

/-! ### Register writes -/

/-- A write of LAC_LCc_CFG: MODE changes only while the cluster is idle (R217). -/
def Hw.lacCfg (h : Hw) (a : Access) (c : Nat) (v : Word) : Hw × AccRes :=
  if a.tid != 0 then (h, .owner)
  else if v.toNat % 4 = 3 then (h, .ok)
  else if h.clusterIdle c then (h.set (LAC_LC_CFG.MODE c) (v.toNat % 4), .ok)
  else (h.up (LAC_LC_STAT.MODE_REJ c), .ok)

/-- The writer owns the queue, or is T0 (R219). -/
def Hw.lacOwns (h : Hw) (a : Access) (q : Nat) : Bool := a.tid = 0 || a.tid.toNat = h.lqOwner q

/-- A refusal on queue `q`. -/
def Hw.lqErr (h : Hw) (q code : Nat) : Hw := (h.up (LAC_Q_STAT.ERR q)).set (LAC_Q_STAT.ERRCODE q) code

/-- A push (R218, R219). -/
def Hw.lacPush (h : Hw) (a : Access) (q : Nat) (v : Word) : Hw × AccRes :=
  if !h.lacOwns a q then (h, .owner)
  else if h.lcsm.holds then (h, .ok)
  else if !h.groupExists q then (h.lqErr q 2, .ok)
  else if 8 ≤ (h.lq q).waiting.length then (h.lqErr q 1, .ok)
  else (h.setLq q { h.lq q with waiting := (h.lq q).waiting ++ [⟨v.toNat / 64 * 64, h.viewNow⟩] }, .ok)

/-- The groups of cluster `c` whose store part holds the bytes from `dst` to `dst + len`, if one does (R221 code 1). -/
def Hw.islGroup (h : Hw) (c dst len : Nat) : Option Nat :=
  let p := modePart (h.lcMode c)
  if dst / p = (dst + len - 1) / p && dst + len ≤ 0x8000 then some (4 * c + dst / p) else none

/-- A write of 1 to ISL_GO (R220, R221). -/
def Hw.islGo (h : Hw) (a : Access) (c : Nat) (v : Word) : Hw × AccRes :=
  let len := h.get (LAC_LC_ISL_LEN.BYTES c) * 8
  let dst := h.get (LAC_LC_ISL_DST.OFS c) * 8
  let refuse := fun code => ((h.up (LAC_LC_STAT.ISL_ERR c)).set (LAC_LC_STAT.ISL_CODE c) code, AccRes.ok)
  if !v.getLsbD 0 || h.lcsm.holds then (h, .ok)
  else if len = 0 then refuse 1
  else match h.islGroup c dst len with
    | none => refuse 1
    | some g =>
      if !h.lacOwns a g then refuse 2
      else if (h.grp g).queue.isSome || (tget none h.isl c).isSome then refuse 3
      else (({ h with isl := tput none h.isl c (some ⟨h.get (LAC_LC_ISL_SRC.ADDR c) * 8, dst, len, a.tid.toNat⟩) }).up (LAC_LC_STAT.ISL_BUSY c), .ok)

/-- The pieces of a store load, 16 bytes at a time; the first read that fails ends it with code 4 (R220, R221). -/
def Hw.islCopy (h : Hw) (c : Nat) (j : IslJob) : Nat → Nat → Hw
  | 0, _ => h
  | n + 1, o =>
    if j.len ≤ o then h
    else
      let k := min 16 (j.len - o)
      match h.dmaRead j.tid iniLane (j.src + o) k with
      | (h, .ok bs) =>
        let cs := cellsAt (c * 0x8000 + j.dst + o) bs
        let words := (List.range (k / 8)).map (fun i => c * 0x8000 + j.dst + o + 8 * i)
        let h := { h with istore := cellsIn 0 h.istore cs
                          istoreBad := h.istoreBad.filter (fun w => !words.contains w) }
        h.islCopy c j n (o + k)
      | (h, .error _) => (h.up (LAC_LC_STAT.ISL_ERR c)).set (LAC_LC_STAT.ISL_CODE c) 4

/-! ### Completion (R227 to R232) -/

/-- What the kernel of group `g` has written back belongs to memory as it sees it (R182). -/
def Hw.laneSees (h : Hw) (g : Nat) (cs : List Host.Cell) : Hw :=
  match (h.grp g).queue with
  | none => h
  | some q => { h with laneQ := tput {} h.laneQ q { h.lq q with kern := (h.lq q).kern.map (fun k => { k with view := oput k.view cs }) } }

/-- The dirty bytes of line `l` in the group's L1 part go to memory in one piece, and the line is clean (R227, R229). -/
def Hw.l1Clean (h : Hw) (g l : Nat) : Hw :=
  let x := h.grp g
  let cs := oline x.dirty l
  let seen := fun (e : Nat × List Byte) => if e.1 = l then (l, (e.2.zipIdx (l * 64)).map (fun (b : Byte × Nat) => (ofind cs b.2).getD b.1)) else e
  ((h.lineStore l cs).laneSees g cs).setGrp g { x with dirty := odrop x.dirty l, fill := x.fill.map seen }

/-- Every dirty byte of the group's L1 part goes to memory; the part is clean (R227). -/
def Hw.l1Flush (h : Hw) (g : Nat) : Hw := ((h.grp g).dirty.map (fun e => lineOf e.1)).dedup.foldl (fun h l => h.l1Clean g l) h

/-- The group is idle again. -/
def Hw.freeGrp (h : Hw) (g : Nat) : Hw := (h.setGrp g {}).syncRun (g / 4)

/-- Statuses of a completion. -/
def lsDone : Nat := 0
def lsFault : Nat := 1
def lsLimit : Nat := 2
def lsAbort : Nat := 3
def lsReject : Nat := 4

/-- The completion record of 16 bytes; CYCLES is a free value (log entry 13). -/
def recordBytes (tag : List Byte) (status cause : Nat) (cycles : Word) : List Byte :=
  padTo 8 tag ++ leBytes 1 status ++ leBytes 1 cause ++ zeros 2 ++ leBytes 4 cycles.toNat

/-- The completion's record and posting (R229, R230): `record` is none where there is no record to write. DEDUCED (log
entry 153): a descriptor rejected for its RECORD address has one, at that address. -/
def Hw.postDone (h : Hw) (q tid : Nat) (record : Option Nat) (tag : List Byte) (irq : Bool) (status cause : Nat) (cycles : Word) : Hw :=
  let h := match record with
    | none => h
    | some a =>
      match h.dmaWrite tid iniLane a (recordBytes tag status cause cycles) with
      | (h, none) => h
      | (h, some _) => h.lqErr q 3
  let h := h.sets [(LAC_Q_STAT.LAST_STATUS q, status), (LAC_Q_STAT.LAST_CAUSE q, cause)]
  let h := (h.inc (LAC_Q_COMPLETED.COUNT q)).upIf (status = lsFault || status = lsLimit) (LAC_Q_STAT.HALTED q)
  h.upIf irq (LAC_Q_STAT.IRQ_PEND q)

/-- The kernel of queue `q` completes: writebacks in ascending order of groups, then the record and the posting. -/
def Hw.complete (h : Hw) (q status cause : Nat) : Hw :=
  match (h.lq q).kern with
  | none => h
  | some k =>
    let h := k.groups.foldl (fun h g => (h.l1Flush g).freeGrp g) h
    let cyc := h.free
    let h := h.drawn.setLq q { h.lq q with kern := none, gangWait := false, abort := false }
    h.postDone q k.tid (if k.record = 0 then none else some k.record) k.tag k.irq status cause cyc

/-- A lane fault in group `g` (R232): the record where none is held, then completion with FAULT. -/
def Hw.laneFault (h : Hw) (g cause mask addr : Nat) : Hw :=
  match (h.grp g).queue with
  | none => h
  | some q =>
    let gang := (h.lq q).kern.any (·.gang)
    let h := if h.on (LAC_G_FAULT_INFO.VALID q) then h.up (LAC_G_FAULT_INFO.LOST q)
      else h.sets [(LAC_G_FAULT_INFO.CAUSE q, cause), (LAC_G_FAULT_INFO.CLUSTER q, if gang then g / 4 else 0), (LAC_G_FAULT_INFO.VALID q, 1),
        (LAC_G_FAULT_PC.OFS q, (h.grp g).pc / 8), (LAC_G_FAULT_MASK.LANES q, mask), (LAC_G_FAULT_ADDR.ADDR q, addr)]
    h.complete q lsFault cause

/-- ABORT stops the running kernel of queue `q` unless it has ended; a gang that still waits is not running, and stays (R231; log
entry 152). While the Lane Array has no clock the kernel is held, and the ABORT waits with it (R86, R235). -/
def Hw.lacAbort (h : Hw) (q : Nat) : Hw :=
  match (h.lq q).kern with
  | none => h
  | some k =>
    if (h.lq q).gangWait || k.groups.all (fun g => (h.grp g).ended) then h
    else if h.laneOn then h.complete q lsAbort 0
    else h.setLq q { h.lq q with abort := true }

/-- The Lane Array has its clock again: the ABORTs that wait take effect (R231, R235). -/
def Hw.laneWake (h : Hw) : Hw :=
  if h.laneOn then (List.range 16).foldl (fun h q => if (h.lq q).abort then h.complete q lsAbort 0 else h) h else h

/-- FLUSH discards and counts every descriptor not dispatched, that of a gang that waits among them (R231). -/
def Hw.lacFlush (h : Hw) (q : Nat) : Hw :=
  let x := h.lq q
  (h.add (LAC_Q_STAT.FLUSHED q) x.waiting.length).setLq q
    { x with waiting := [], kern := if x.gangWait then none else x.kern, gangWait := false }

/-- A write of CTL. -/
def Hw.lacCtl (h : Hw) (a : Access) (q : Nat) (v : Word) : Hw × AccRes :=
  if !h.lacOwns a q then (h, .owner)
  else
    let h := if v.getLsbD 2 then h.lacAbort q else h
    let h := if v.getLsbD 1 then h.lacFlush q else h
    (if v.getLsbD 0 then h.clr (LAC_Q_STAT.HALTED q) else h, .ok)

/-! ### Dispatch (R223, R224) -/

/-- The kernel that the bytes of descriptor `d` describe for queue `q`. -/
def Hw.kernelOf (h : Hw) (q : Nat) (d : LanePush) (b : List Byte) : Kernel :=
  let gang := fieldB b 6 1 % 16
  { tid := h.lqOwner q, lbase := h.get (LAC_Q_LMEM.BASE_L q), llimit := h.get (LAC_Q_LMEM.LIMIT_L q)
    groups := if gang = 0 then [q] else ((List.range 4).filter (fun c => bitOf gang c)).map (4 * ·)
    gang := gang != 0
    entry := fieldB b 0 4, width := fieldB b 4 1, irq := bitOf (fieldB b 5 1) 0, limit := fieldB b 8 4, record := fieldB b 12 4
    args := (List.range 8).map (fun i => BitVec.ofNat 32 (fieldB b (16 + 4 * i) 4)), tag := sliceB b 48 8, view := d.view }

/-- The first failing check of R224 on a descriptor that was read, or 0. -/
def Hw.descriptorCause (h : Hw) (q : Nat) (b : List Byte) : Nat :=
  let m := h.lcMode (q / 4)
  let gang := fieldB b 6 1 % 16
  let named := (List.range 4).filter (fun c => bitOf gang c)
  if fieldB b 5 1 / 2 != 0 || fieldB b 7 1 != 0 || fieldB b 56 8 != 0 then 2
  else if fieldB b 4 1 != modeWidth m then 3
  else if fieldB b 0 4 % 8 != 0 || modePart m ≤ fieldB b 0 4 then 4
  else if gang != 0 && (q != 0 || !bitOf gang 0 || named.any (fun c => c != 0 && h.lcMode c != 0)) then 5
  else if fieldB b 12 4 % 16 != 0 then 6
  else 0

/-- The kernel starts on its groups: their L1 parts are invalid, every lane is active and the stacks are empty; its descriptor leaves the
queue (R184, R225; table "Dispatch of a descriptor on an idle queue"). -/
def Hw.startKernel (h : Hw) (q : Nat) (k : Kernel) : Hw :=
  let h := k.groups.foldl (fun h g =>
    let all := 2 ^ modeWidth (h.lcMode (g / 4)) - 1
    (h.setGrp g { queue := some q, pc := k.entry, act := all, live := all }).syncRun (g / 4)) h
  h.setLq q { h.lq q with waiting := (h.lq q).waiting.drop 1, kern := some k, gangWait := false, abort := false }

/-- Queue `q` may dispatch its head now (R218, R219, R223, R432). -/
def Hw.canDispatch (h : Hw) (q : Nat) : Bool :=
  h.laneOn && !h.drained 1 && h.groupExists q && !h.on (LAC_Q_STAT.HALTED q) && (h.lq q).kern.isNone && (h.grp q).queue.isNone &&
  (q = 0 || !h.gangNames (q / 4)) && !h.clusterTested (q / 4)

/-- The head descriptor of queue `q` is rejected: its completion is posted, with the record that it names (R224, R229). The spec counts
CYCLES from a first instruction, which it never had: the word is a free value (log entry 13). DEDUCED (log entry 29): of a descriptor that
cannot be read neither RECORD nor FLAGS.IRQ is known, so there is no record and IRQ_PEND stays. -/
def Hw.reject (h : Hw) (q tid : Nat) (k : Option Kernel) (cause : Nat) : Hw :=
  let h := h.setLq q { h.lq q with waiting := (h.lq q).waiting.drop 1 }
  match k with
  | none => h.postDone q tid none [] false lsReject cause 0
  | some k => h.drawn.postDone q tid (if k.record = 0 then none else some k.record) k.tag k.irq lsReject cause h.free

/-- The head descriptor is read and checked; it starts, becomes a gang that waits, or is rejected (R223, R224). -/
def Hw.dispatch (h : Hw) (q : Nat) : Hw :=
  match (h.lq q).waiting with
  | [] => h
  | d :: _ =>
    let t := h.lqOwner q
    match h.dmaRead t iniLane d.adr 64 with
    | (h, .error _) => h.reject q t none 1
    | (h, .ok b) =>
      let k := h.kernelOf q d b
      let c := h.descriptorCause q b
      if c != 0 then h.reject q t (some k) c
      else if fieldB b 6 1 % 16 = 0 then h.startKernel q k
      else h.setLq q { h.lq q with kern := some k, gangWait := true }

/-! ### The registers of lanes (spec/07_instruction_sets.md) -/

/-- The number of a group's lane among all lanes. -/
def Hw.laneNo (h : Hw) (g i : Nat) : Nat := 32 * (g / 4) + h.lane0 g + i

/-- L register `r` of lane `i` of the group. -/
def Hw.lreg (h : Hw) (g i r : Nat) : Word := tget 0 h.laneL (h.laneNo g i * 64 + r)

/-- L register `r` of lane `i` written. -/
def Hw.setLreg (h : Hw) (g i r : Nat) (v : Word) : Hw := { h with laneL := tput 0 h.laneL (h.laneNo g i * 64 + r) v }

/-- The width of the group. -/
def Hw.gwidth (h : Hw) (g : Nat) : Nat := modeWidth (h.lcMode (g / 4))

/-- K register `k` of the group, one bit per lane. -/
def Hw.kreg (h : Hw) (g k : Nat) : Nat := tget 0 h.laneK (8 * (g / 4) + k) / 2 ^ h.lane0 g % 2 ^ h.gwidth g

/-- Bit `i` of K register `k` of the group written. -/
def Hw.setKreg (h : Hw) (g k i : Nat) (b : Bool) : Hw :=
  { h with laneK := tput 0 h.laneK (8 * (g / 4) + k) (setBit (tget 0 h.laneK (8 * (g / 4) + k)) (h.lane0 g + i) b) }

/-! ### The AVS loop (R238 to R240) -/

/-- The throttle step is `d`: 2, 3 or 4 (R82). -/
def Hw.setThrottle (h : Hw) (d : Nat) : Hw :=
  ({ h with clk := { h.clk with avsDiv := d } }).sets
    [(LAC_AVS_MON.STEP, d - 2), (CLK_LANE_LIVE.DIV, max (h.get CLK_DIV.LANE_DIV) d)]

/-- The VCORE voltage in force, in mV: the one last commanded, or the regulator's default (R48, R52). -/
def Hw.vcore (h : Hw) : Nat := if h.pwr.vdef then 780 + Config.vcoreDefault.val else h.pwr.vcmd

/-- A voltage is commanded over AVSBus. -/
def Hw.avsWrite (h : Hw) (mv : Nat) : Hw :=
  { h with pwr := { h.pwr with avsQ := h.pwr.avsQ ++ [AvsTxn.write mv], vcmd := mv, vdef := false } }

/-- The divider of LANE_CLK (R82). -/
def Hw.laneDiv (h : Hw) : Nat := max (h.get CLK_DIV.LANE_DIV) h.clk.avsDiv

/-- The margin is unsafe and no throttle step is left (R239). -/
def Hw.avsUnsafe (h : Hw) (margin : Nat) : Bool := margin < 4 && 4 ≤ h.laneDiv

/-- VCORE rises past `v` for safety, to 950 mV at most: OVERRIDE where that takes it past HIGH, or in PINNED away from where it is held
(R42, R43, R239). -/
def Hw.avsRise (h : Hw) (v : Int) : Hw × Int :=
  let n := min 950 (v + 5)
  (if (h.loopHigh loopAvs < n ∧ v < n) ∨ (h.loopMode loopAvs = 2 ∧ v < n) then h.loopOverride loopAvs else h, n)

/-- Where the loop goes from `v` with this margin: the demand, hint, pin or 800 mV, one step of 5 mV (R238, R239). While AVS_ERR holds
it off (R52), VCORE rises for safety alone, and returns (log entry 134). -/
def Hw.avsNext (h : Hw) (margin : Nat) (v : Int) : Hw × Int :=
  let g := loopAvs
  let unsafeNow := h.avsUnsafe margin
  if h.on PWR_STAT.AVS_ERR || h.pwr.avsHold then
    if unsafeNow then Hw.avsRise { h with pwr := { h.pwr with avsBack := some (h.pwr.avsBack.getD v.toNat) } } v
    else match h.pwr.avsBack with
      | none => (h, v)
      | some b =>
        let n := slew v (b : Nat) 5
        ({ h with pwr := { h.pwr with avsBack := if n = ((b : Nat) : Int) then none else some b } }, n)
  else
    let h := { h with pwr := { h.pwr with avsBack := none } }
    if h.loopMode g = 1 then
      let r := if margin < 8 then h.loopFrom g h.avsLoop v (v + 5)
        else if 24 < margin then h.loopFrom g h.avsLoop v (v - 5)
        else
          let hint := h.loopHint g
          (h, h.avsLoop, h.loopInside g (if hint ≠ 0 then hint else v))
      let h := { r.1 with avsLoop := r.2.1 }
      if unsafeNow && h.loopHigh g ≤ v then h.avsRise v else (h, slew v r.2.2 5)
    else
      let h := { h with avsLoop := h.avsLoop.leave }
      let goal := if h.loopMode g = 2 then h.loopPin g else 800
      if unsafeNow && goal ≤ v then h.avsRise v else (h, slew v goal 5)

/-! ### The commands -/

/-- CLUSTER_MODE_WRITE. -/
def execClusterModeWrite (acc : Access) (c : Fin 4) (v : Word) (s : State) : Out := s.onBusBy acc (fun h => (h.lacCfg acc c v).1)

/-- LAC_PUSH. -/
def execLacPush (acc : Access) (q : Fin 16) (v : Word) (s : State) : Out := s.onBusBy acc (fun h => (h.lacPush acc q v).1)

/-- DISPATCH: queue `q` reads its head descriptor, which waits for the xSPI window where it lies there (R351). -/
def execDispatch (q : Fin 16) (s : State) : Out := s.run (fun h =>
  h.when (h.canDispatch q && !(h.lq q).waiting.head?.any (fun d => h.windowHeld d.adr 64)) (fun h => h.dispatch q))

/-- GANG_START: every cluster of the waiting gang is idle; it starts on all of them (R223), which is a dispatch that a drain stops
(R432). -/
def execGangStart (s : State) : Out := s.run (fun h =>
  match (h.lq 0).kern with
  | some k => h.when (h.laneOn && !h.drained 1 && (h.lq 0).gangWait && k.groups.all (fun g => h.clusterFree (g / 4) && !h.clusterTested (g / 4)))
      (fun h => h.startKernel 0 k)
  | none => h)

/-- ISL_GO. -/
def execIslGo (acc : Access) (c : Fin 4) (v : Word) (s : State) : Out := s.onBusBy acc (fun h => (h.islGo acc c v).1)

/-- ISL_DONE: the load of cluster `c` ends (R220); a source in the xSPI window waits for an indirect command (R351). -/
def execIslDone (c : Fin 4) (s : State) : Out := s.run (fun h =>
  match tget none h.isl c with
  | some j => h.when (h.laneOn && !h.windowHeld j.src j.len) (fun h => (({ h with isl := tput none h.isl c none }).clr (LAC_LC_STAT.ISL_BUSY c)).islCopy c j 0x800 0)
  | none => h)

/-- KERNEL_COMPLETION: every group of the kernel of queue `q` has ended (R229). -/
def execKernelCompletion (q : Fin 16) (s : State) : Out := s.run (fun h =>
  match (h.lq q).kern with
  | some k => h.when (h.laneOn && !(h.lq q).gangWait && k.groups.all (fun g => (h.grp g).ended)) (fun h => h.complete q lsDone 0)
  | none => h)

/-- KERNEL_LIMIT: the cycle limit of the kernel of queue `q` expires (R232). -/
def execKernelLimit (q : Fin 16) (s : State) : Out := s.run (fun h =>
  match (h.lq q).kern with
  | some k => h.when (h.laneOn && !(h.lq q).gangWait && k.limit != 0 && !k.groups.all (fun g => (h.grp g).ended || (h.grp g).halted))
      (fun h => h.complete q lsLimit 0)
  | none => h)

/-- RESUME. -/
def execResume (acc : Access) (q : Fin 16) (s : State) : Out := s.onBusBy acc (fun h => (h.lacCtl acc q 1).1)

/-- FLUSH. -/
def execFlush (acc : Access) (q : Fin 16) (s : State) : Out := s.onBusBy acc (fun h => (h.lacCtl acc q 2).1)

/-- ABORT. -/
def execAbort (acc : Access) (q : Fin 16) (s : State) : Out := s.onBusBy acc (fun h => (h.lacCtl acc q 4).1)

/-- AVS_THROTTLE: with MARGIN below 4, LANE_CLK goes down one step, to 500 MHz at least (R82, R238). -/
def execAvsThrottle (margin : Fin 64) (s : State) : Out := s.run (fun h =>
  let h := h.when h.laneOn (fun h => h.set LAC_AVS_MON.MARGIN margin)
  h.when (h.laneOn && margin < 4 && h.laneDiv < 4) (fun h =>
    (((h.setThrottle (h.laneDiv + 1)).inc LAC_AVS_THR_CNT.STEPS).pulseLine 84).loopSafe loopAvs true))

/-- AVS_UNTHROTTLE: MARGIN has stayed at 16 or above for 100 µs while throttled (R238). DESIGN CHOICE (log entry 164): a step back counts in
no THR_CNT.STEPS, and with a LANE_DIV of 3 or 4 the throttle ends, with STEP 0 and SAFE_ACT clear, as soon as LANE_DIV covers it. -/
def execAvsUnthrottle (margin : Fin 64) (s : State) : Out := s.run (fun h =>
  let h := h.when h.laneOn (fun h => h.set LAC_AVS_MON.MARGIN margin)
  h.when (h.laneOn && 16 ≤ margin.val && 2 < h.clk.avsDiv) (fun h =>
    let h := (h.setThrottle (if h.clk.avsDiv - 1 ≤ h.get CLK_DIV.LANE_DIV then 2 else h.clk.avsDiv - 1)).pulseLine 84
    if h.clk.avsDiv = 2 then h.loopSafe loopAvs false else h))

/-- AVS_STEP: every 10 µs, with the margin measured (R238, R239). -/
def execAvsStep (margin : Fin 64) (s : State) : Out := s.run (fun h => h.when h.laneOn (fun h =>
  let h := h.set LAC_AVS_MON.MARGIN margin
  let v : Int := (h.vcore : Nat)
  let r := h.avsNext margin v
  let h := if r.2 = v then r.1 else r.1.avsWrite r.2.toNat
  h.loopReport loopAvs h.avsLoop r.2))

end Sys2Proof.Machine
end

