-- ==== Sys2Proof/Machine/Adc.lean ====
section
/-! DEFINITION. The analogue inputs (spec/11_analogue_inputs.md): triggers and passes, results, streams, IEPE and TEDS, BST1 and
calibration. -/

namespace Sys2Proof.Machine

/-- The access is made where its TID is 0 or one of `tids`, and is refused otherwise (R36, R37, R485). -/
def Hw.guarded (h : Hw) (a : Access) (tids : List Nat) (f : Hw → Hw) : Hw × AccRes :=
  if a.tid = 0 || tids.contains a.tid.toNat then (f h, .ok) else (h, .owner)

def Hw.adc (h : Hw) (a : Nat) : AdcCore := tget {} h.adcs a

/-- A core's state is `x`; LEVEL and DONE_LEVEL follow. -/
def Hw.setAdc (h : Hw) (a : Nat) (x : AdcCore) : Hw :=
  ({ h with adcs := tput {} h.adcs a x }).sets
    [(ADC_A_FIFOSTAT.LEVEL a, x.fifo.length), (ADC_A_STRM_STAT.DONE_LEVEL a, x.done.length)]

/-- The owner in force of a core's regular or injected sequence (R291). -/
def Hw.adcOwner (h : Hw) (a : Nat) (inj : Bool) : Nat :=
  if inj then h.get (ADC_A_OWN.INJ_OWNER_L a) else h.get (ADC_A_OWN.REG_OWNER_L a)

/-- The ADC is clocked and not stopped by the Berm (R292). -/
def Hw.adcOn (h : Hw) : Bool := h.blockOn 0xB && !h.pwr.bermActive

/-- STATE (R275): a pass that runs shows; otherwise OFF while EN is 0 or the ADC is stopped. -/
def Hw.adcState (h : Hw) (a : Nat) : Nat :=
  let x := h.adc a
  if x.inj.isSome then 4
  else if x.reg.isSome then 3
  else if !h.on (ADC_A_CTL.EN_L a) || !h.adcOn then 0
  else if x.startup then 5
  else if x.pd then 1 else 2

/-! ### Inputs (R264 to R270) -/

def Hw.iepeAt (h : Hw) (n : Nat) : Iepe := tget {} h.iepe n
def Hw.setIepe (h : Hw) (n : Nat) (x : Iepe) : Hw := { h with iepe := tput {} h.iepe n x }

/-- STATE of IEPE input `n`. -/
def Hw.iepeState (h : Hw) (n : Nat) : Nat := h.get (ADC_IEPE_BIAS.STATE n)

/-- The state ranks below the input's floor (R269). -/
def Hw.belowFloor (h : Hw) (n : Nat) : Bool := n < 8 && h.iepeState n < h.get (ADC_AIN_CFG.FLOOR_L n)

/-- STATE_n and LINK_FLOOR of the input in NEG_RESULT (R267, R269). -/
def Hw.iepeReport (h : Hw) (n : Nat) : Hw :=
  h.set ⟨ADC_IEPE_NEG_RESULT, 4 * n, 4⟩ (h.iepeState n + 8 * b2n (h.belowFloor n))

/-- The input enters state `st`: an event where it changes, settling on entry to NORMAL or NORMAL_TEDS (R267, R268). -/
def Hw.iepeEnter (h : Hw) (n st : Nat) : Hw :=
  if h.iepeState n = st then h.iepeReport n
  else
    let h := (h.set (ADC_IEPE_BIAS.STATE n) st).set ADC_IEPE_EVT.CHG (setBit (h.get ADC_IEPE_EVT.CHG) n true)
    let h := h.setIepe n { h.iepeAt n with cnt := 0, band := 0, wait := false, settling := decide (3 ≤ st) }
    h.iepeReport n

/-- The band of a bias: 1 OPEN, 2 SHORT, 3 between (R267); the BST1 output is in units of 0.1 V, the bias in 10 mV. -/
def Hw.iepeBand (h : Hw) (bias : Nat) : Nat :=
  if h.get ADC_BST1_MON.VOUT * 10 < bias + 150 then 1 else if bias < 100 then 2 else 3

/-- One reading of the monitor: 8 consecutive ones in a new band change the state; with TEDS_AUTO a change from OPEN or SHORT
into the normal band waits for presence first (R267, R270). -/
def Hw.iepeReading (h : Hw) (n bias : Nat) : Hw :=
  let h := h.set (ADC_IEPE_BIAS.BIAS n) bias
  let b := h.iepeBand bias
  let x := h.iepeAt n
  if b = min (h.iepeState n) 3 then h.setIepe n { x with band := 0, cnt := 0 }
  else
    let c := if x.band = b then x.cnt + 1 else 1
    let h := h.setIepe n { x with band := b, cnt := min c 8 }
    if c < 8 then h
    else if b = 3 && h.on (ADC_AIN_CFG.TEDS_AUTO_L n) && (h.iepeState n = 1 || h.iepeState n = 2) then
      h.setIepe n { h.iepeAt n with wait := true }
    else h.iepeEnter n b

/-- A result converted now from source `i` carries INV (R268, R269): from AIN0 to AIN7 in every state but NORMAL and NORMAL_TEDS, while
settling or in TEDS access, and while held down by the floor. -/
def Hw.inputInv (h : Hw) (i : Nat) : Bool :=
  i < 8 && (h.belowFloor i || h.iepeState i < 3 || (h.iepeAt i).settling || (h.iepeAt i).teds)

/-! ### Calibration (R288, R289) -/

/-- The set's MAGIC, VER and CRC check (R288). -/
def calOk (b : List Byte) : Bool :=
  b.length == 2048 && fieldB b 0 4 == 0x4C434A46 && fieldB b 4 2 == 1 && (crc32c (b.take 2044)).toNat == fieldB b 2044 4

/-- An offset and a gain of a set; the empty list stands for the identity. -/
def calPair (b : List Byte) (o : Nat) : Int × Int :=
  if b = [] then (0, 0x40000000) else (sgn 32 (fieldB b o 4), (fieldB b (o + 4) 4 : Nat))

/-- INPUT_OFS of a source. -/
def calInput (b : List Byte) (i : Nat) : Int := if b = [] || 24 ≤ i then 0 else sgn 32 (fieldB b (256 + 4 * i) 4)

/-- The active calibration bank (R120). -/
def Hw.calBank (h : Hw) : List Byte := if h.on LCS_STATE.CAL_BANK then h.lcs.cal1 else h.lcs.cal0

/-- Staging ends: the bank's set, or the identity with BAD (R288). -/
def Hw.calStage (h : Hw) : Hw :=
  let ok := calOk h.calBank
  let h := (h.set CMT_STAGED.DOMAIN (setBit (h.get CMT_STAGED.DOMAIN) 3 true)).stagedDom 4
  { ((h.clr ADC_CAL.LOADING).put ADC_CAL.BAD (!ok)) with cal := { h.cal with staged := some (if ok then h.calBank else []) } }

/-- A conversion's code after calibration, and whether that saturated (R289). -/
def Hw.calibrated (h : Hw) (a gain input : Nat) (x : Int) : Int × Bool :=
  if h.on ADC_CAL.EN_L then
    let p := calPair h.cal.adc (32 + 8 * (7 * a + gain))
    let y := asr ((x - p.1 - calInput h.cal.adc input) * p.2) 30
    (clampI (-131072) 131071 y, decide (y < -131072 ∨ 131071 < y))
  else (x, false)

/-! ### Streams (R282 to R285) -/

/-- The bytes of a set (R283). -/
def setSize (nslot : Nat) (tset : Bool) : Nat := if tset then (8 + 4 * nslot + 7) / 8 * 8 else 4 * nslot

/-- A buffer for the stream of core `a`, where the PE gives one (R282). -/
def Hw.strmAlloc (h : Hw) (a : Nat) : Hw × Option Word :=
  let r := h.allocNow (h.get (ADC_A_STRM_CFG.POOL_L a)) (h.adcOwner a false) true
  (r.1, if hdlV r.2 then some r.2 else none)

/-- Buffer `w` opens with the next number, the LEN and TSET in force, and reports the sets dropped before it (R282, R285). -/
def Hw.strmOpen (h : Hw) (a : Nat) (w : Word) : Hw :=
  let n := h.get (ADC_A_STRM_SEQNO.SEQNO a)
  let x := h.adc a
  (h.setAdc a { x with buf := some { hdl := w, seqno := n, dropped := x.dropped, nslot := h.get (ADC_A_REGCFG.LEN_L a), tset := h.on (ADC_A_STRM_CFG.TSET_L a) }, dropped := 0 }).set (ADC_A_STRM_SEQNO.SEQNO a) (n + 1)

/-- The header of a stream buffer (R282). -/
def strmHeader (a : Nat) (b : StrmBuf) (berm : Bool) : List Byte :=
  leBytes 4 0x53414A46 ++ leBytes 1 a ++ leBytes 1 b.nslot ++
  leBytes 1 (b2n b.tset + 2 * b2n berm + 4 * b2n (b.dropped != 0) + 8 * b2n b.trans + 16 * b2n b.coarse + 32 * b2n b.retaken) ++
  leBytes 1 (if b.trans then b.tgen else 0) ++ leBytes 4 b.sets ++ leBytes 4 b.seqno ++ leBytes 8 b.tbFirst ++
  leBytes 8 b.tbLast ++ leBytes 4 b.dropped ++ zeros 28

/-- The open buffer closes: header, LEN, and its handle in the DONE queue, or freed with DONE_OVR (R283, R284). -/
def Hw.strmClose (h : Hw) (a : Nat) (berm : Bool) : Hw :=
  match (h.adc a).buf with
  | none => h
  | some b =>
    let t := h.adcOwner a false
    let h := (h.dmaWrite t iniAdc (h.bufAddr b.hdl) (strmHeader a b berm)).1
    let h := h.setBufLen b.hdl (64 + b.sets * setSize b.nslot b.tset)
    let x : AdcCore := { h.adc a with buf := none }
    if 8 ≤ x.done.length then ((h.setAdc a x).portFree t iniAdc b.hdl).up (ADC_A_STRM_STAT.DONE_OVR a)
    else h.setAdc a { x with done := x.done ++ [b.hdl] }

/-- The spare becomes the open buffer, and a new spare is requested (R282, R283). -/
def Hw.strmPromote (h : Hw) (a : Nat) : Hw :=
  let h := match (h.adc a).spare with
    | some w => (h.setAdc a { h.adc a with spare := none }).strmOpen a w
    | none => h
  let r := h.strmAlloc a
  r.1.setAdc a { r.1.adc a with spare := r.2 }

/-- The open buffer holds the first words of a set and not its last (R283). -/
def Hw.strmMid (h : Hw) (a : Nat) : Bool := (h.adc a).reg.any (fun p => p.placed && p.idx != 0)

/-- The open buffer holds STRM_SETS sets (R283); a set that it has begun to hold is completed first. -/
def Hw.strmFull (h : Hw) (a : Nat) : Bool :=
  !h.strmMid a && (h.adc a).buf.any (fun b => h.get (ADC_A_STRM_SETS.SETS_L a) ≤ b.sets)

/-- The set that begins is lost and counts as dropped (R285). -/
def Hw.strmDrop (h : Hw) (a : Nat) : Hw :=
  (h.setAdc a { h.adc a with dropped := (h.adc a).dropped + 1 }).inc (ADC_A_STRM_STAT.DROPPED_SETS a)

/-- A set needs its place: a full buffer, or one of another layout, closes first; with no buffer to be had the set is dropped
(R283, R285). The set of a pass that a commit has left without its stream is lost (log entry 143). The answer says whether it has its
place. -/
def Hw.strmBegin (h : Hw) (a nslot : Nat) : Hw × Bool :=
  if !h.on (ADC_A_STRM_CFG.EN_L a) then (h.strmDrop a, false)
  else
  let ts := h.on (ADC_A_STRM_CFG.TSET_L a)
  let other := match (h.adc a).buf with
    | some b => b.sets != 0 && (b.nslot != nslot || b.tset != ts)
    | none => false
  let h := if h.strmFull a || other then (h.strmClose a false).strmPromote a else h
  let h := if (h.adc a).buf.isNone then
      let r := if (h.adc a).spare.isSome then (h, (h.adc a).spare) else h.strmAlloc a
      match r.2 with
      | some w => (r.1.setAdc a { r.1.adc a with spare := none }).strmOpen a w
      | none => r.1
    else h
  match (h.adc a).buf with
  | none =>
    ((h.strmDrop a).up (ADC_A_STRM_STAT.NOBUF a), false)
  | some b =>
    let h := h.setAdc a { h.adc a with buf := some (if b.sets = 0 then { b with nslot := nslot, tset := ts } else b) }
    let r := if (h.adc a).spare.isNone then h.strmAlloc a else (h, (h.adc a).spare)
    ((r.1.setAdc a { r.1.adc a with spare := r.2 }).clr (ADC_A_STRM_STAT.NOBUF a), true)

/-- A result word of a set is written; the last one makes the set count (R282, R283). -/
def Hw.strmWord (h : Hw) (a : Nat) (p : AdcPass) (w : Word) : Hw :=
  match (h.adc a).buf with
  | none => h
  | some b =>
    let t := h.adcOwner a false
    let base := h.bufAddr b.hdl + 64 + b.sets * setSize b.nslot b.tset
    let h := if b.tset && p.idx = 0 then (h.dmaWrite t iniAdc base (leBytes 8 p.tb)).1 else h
    let h := (h.dmaWrite t iniAdc (base + (if b.tset then 8 else 0) + 4 * p.idx) (leBytes 4 w.toNat)).1
    let b := if w.getLsbD 31 then { b with trans := true, tgen := h.tgen } else b
    let b := if p.idx + 1 < p.slots.length then b
      else
        { b with sets := b.sets + 1, tbLast := p.tb, retaken := b.retaken || p.retaken
                 tbFirst := if b.sets = 0 then p.tb else b.tbFirst
                 coarse := if b.sets = 0 then !h.on CLK_TB_STAT.VALID || h.on CLK_TB_STAT.COARSE else b.coarse }
    h.setAdc a { h.adc a with buf := some b }

/-- Every open stream buffer closes with FLAGS.BERM (R59 step 4, R292). -/
def Hw.strmBerm (h : Hw) : Hw := (List.range 4).foldl (fun h a => h.strmClose a true) h

/-- The set whose first words the open buffer holds is lost as that buffer closes under a commit (log entry 143): its later words go
nowhere, and it counts as dropped. -/
def Hw.strmCutSet (h : Hw) (a : Nat) : Hw :=
  let x := h.adc a
  match x.reg with
  | some p => if h.strmMid a then (h.setAdc a { x with reg := some { p with placed := false } }).strmDrop a else h
  | none => h

/-- What a commit's new STRM_CFG does to the stream: a stream that ends, or moves to another pool, closes its open buffer with
the sets it holds, or frees it, and frees its spare; one that begins takes its two buffers, SEQNO 0 (R282). -/
def Hw.strmSwitched (h : Hw) (a : Nat) (old : Nat) : Hw :=
  let new := h.get ⟨ADC_A_STRM_CFG_LIVE a, 0, 5⟩
  if old = new then h
  else
    let t := h.adcOwner a false
    let h := h.strmCutSet a
    let h := match (h.adc a).buf with
      | some b => if b.sets = 0 then ((h.setAdc a { h.adc a with buf := none }).portFree t iniAdc b.hdl) else h.strmClose a false
      | none => h
    let h := match (h.adc a).spare with
      | some w => (h.setAdc a { h.adc a with spare := none }).portFree t iniAdc w
      | none => h
    if new % 2 = 0 then h
    else
      let h := if old % 2 = 0 then (h.set (ADC_A_STRM_SEQNO.SEQNO a) 0).setAdc a { h.adc a with dropped := 0 } else h
      let r := h.strmAlloc a
      let h := match r.2 with
        | some w => r.1.strmOpen a w
        | none => r.1
      let r := h.strmAlloc a
      r.1.setAdc a { r.1.adc a with spare := r.2 }

/-! ### Passes (R273 to R281) -/

/-- A pass of core `a` as it starts now (R277, R290). -/
def Hw.newPass (h : Hw) (a : Nat) (inj : Bool) : AdcPass :=
  if inj then ⟨(List.range (h.get (ADC_A_INJCFG.LEN_L a))).map (fun k => (h.rd (ADC_A_INJ_SLOT_LIVE a k)).toNat), false, 0, 0, 0, false, false, 0, false, false⟩
  else ⟨(List.range (h.get (ADC_A_REGCFG.LEN_L a))).map (fun s => (h.rd (ADC_A_REG_SLOT_LIVE a s)).toNat), h.on (ADC_A_STRM_CFG.EN_L a), 0, 0, 0, false, false, 0, false, false⟩

/-- The converter is free: an injected trigger whose D has expired starts, then the regular pass goes on or starts; with
nothing to do a core with AUTO_PD powers down (R275 to R278). -/
def Hw.adcNext (h : Hw) (a : Nat) : Hw :=
  let x := h.adc a
  if x.startup || x.inj.isSome then h
  else if x.injT = .ready then
    (h.setAdc a { x with injT := .none, inj := some (h.newPass a true) }).upIf (x.regT = .ready) (ADC_A_STAT.REG_LATE a)
  else if x.reg.isSome then h
  else if x.regT = .ready then h.setAdc a { x with regT := .none, reg := some (h.newPass a false) }
  else if x.regT = .none && x.injT = .none && h.on (ADC_A_CTL.AUTO_PD_L a) then h.setAdc a { x with pd := true }
  else h

/-- The event that TRIG value `k` selects: 0 none, 1 to 16 the event line of GT0 to GT15, 17 to 20 that of PT0 to PT3 (R277, R294).
DESIGN CHOICE (log entry 147): a trigger's row acts while the line that it selects is up. -/
def Hw.trigUp (h : Hw) (k : Nat) : Bool := k != 0 && bitOf h.evLines (k - 1)

/-- A trigger of a sequence registers (R276, R432). -/
def Hw.adcTrigger (h : Hw) (a : Nat) (inj : Bool) : Hw :=
  let x := h.adc a
  if !h.on (ADC_A_CTL.EN_L a) || !h.mainUp then h
  else if !h.adcOn || h.drained 0 then h.inc (ADC_A_LOST.TRIG_LOST a)
  else if inj then
    if x.inj.isSome || x.injT != .none then h.up (ADC_A_STAT.INJ_OVR a) else h.setAdc a { x with injT := .delay }
  else if x.reg.isSome || x.regT != .none then h.up (ADC_A_STAT.TRIG_OVR a)
  else h.setAdc a { x with regT := .delay }

/-- D of a sequence's trigger has expired (R275, R276, R278). -/
def Hw.adcDelayEnd (h : Hw) (a : Nat) (inj : Bool) : Hw :=
  let x := h.adc a
  if (if inj then x.injT else x.regT) != .delay then h
  else
    let x := if inj then { x with injT := .ready } else { x with regT := .ready }
    let h := h.setAdc a x
    if x.pd then h.setAdc a { x with pd := false, startup := true }
    else if inj then
      match x.reg with
      | some p =>
        if x.inj.isNone && h.on (ADC_A_CTL.INJ_POLICY_L a) then
          ((h.setAdc a { x with reg := some { p with cnt := 0, acc := 0, clip := false, inv := false, retaken := true } }).up
            (ADC_A_STAT.RETAKEN a)).adcNext a
        else h
      | none => h.adcNext a
    else (h.upIf x.inj.isSome (ADC_A_STAT.REG_LATE a)).adcNext a

/-- The result word of a slot (table "Result word"). -/
def resultWord (data : Int) (slot : Nat) (inv clip trans : Bool) : Word :=
  BitVec.ofNat 32 (twos 24 data + slot % 32 * 2 ^ 24 + b2n inv * 2 ^ 29 + b2n clip * 2 ^ 30 + b2n trans * 2 ^ 31)

/-- Window comparator `w` sees a result (R281). -/
def Hw.windowSees (h : Hw) (a w : Nat) (inj : Bool) (slot : Nat) (data : Int) (inv : Bool) : Hw :=
  let m := decide (h.getS (ADC_A_WC_LOW.VALUE a w) ≤ data ∧ data ≤ h.getS (ADC_A_WC_HIGH.VALUE a w))
  h.upIf (h.on (ADC_A_WC_CFG.EN a w) && h.on (ADC_A_WC_CFG.INJ a w) == inj && h.get (ADC_A_WC_CFG.SLOT a w) == slot && !inv &&
    m != h.on (ADC_A_WC_CFG.OUTSIDE a w)) (ADC_A_WC_STAT.HIT a w)

/-- A result enters the FIFO, or is discarded with OVR (R280). -/
def Hw.fifoPush (h : Hw) (a : Nat) (w : Word) : Hw :=
  let x := h.adc a
  if 16 ≤ x.fifo.length then (h.up (ADC_A_FIFOSTAT.OVR a)).inc (ADC_A_LOST.OVR_CNT a)
  else h.setAdc a { x with fifo := x.fifo ++ [w] }

/-- The result of the slot that pass `p` has converted goes where it belongs; the pass with its set's place (R279 to R282). -/
def Hw.slotResult (h : Hw) (a : Nat) (inj : Bool) (p : AdcPass) : Hw × AdcPass :=
  let sw := p.slots.getD p.idx 0
  let data := clampI (-8388608) 8388607 (asr p.acc (sw / 2 ^ 22 % 16))
  let w := resultWord data p.idx p.inv p.clip h.inTransition
  let h := if h.inTransition then (h.up (ADC_A_STAT.TRANS_SEEN a)).set (ADC_A_STAT.LAST_TGEN a) h.tgen else h
  let r : Hw × AdcPass :=
    if inj then (h.wr (ADC_A_INJDATA a p.idx) w, p)
    else if p.strm then
      let b := if p.idx = 0 then h.strmBegin a p.slots.length else (h, p.placed)
      let p := { p with placed := b.2 }
      (if p.placed then b.1.strmWord a p w else b.1, p)
    else (h.fifoPush a w, p)
  ((List.range 2).foldl (fun h k => h.windowSees a k inj p.idx data p.inv) r.1, r.2)

/-- A pass ends: its flag; a regular pass with CONT restarts, once no drain stops new work (R277, R278, R432). -/
def Hw.passEnd (h : Hw) (a : Nat) (inj : Bool) : Hw :=
  let x := h.adc a
  if inj then ((h.setAdc a { x with inj := none, cut := false }).up (ADC_A_STAT.INJ_END a)).adcNext a
  else
    let again := h.on (ADC_A_CTL.CONT_L a) && h.on (ADC_A_CTL.EN_L a) && h.adcOn && !x.cut
    let h := h.setAdc a { x with reg := none, cut := false, again := again && h.drained 0
                                 regT := if again && !h.drained 0 && x.regT = .none then .ready else x.regT }
    (h.up (ADC_A_STAT.REG_END a)).adcNext a

/-- A drain has ended: the CONT passes that it kept from starting start (R277, R432). -/
def Hw.adcResume (h : Hw) : Hw := (List.range 4).foldl (fun h a =>
  let x := h.adc a
  if !x.again || h.drained 0 then h
  else
    let go := h.on (ADC_A_CTL.CONT_L a) && h.on (ADC_A_CTL.EN_L a) && h.adcOn
    (h.setAdc a { x with again := false, regT := if go && x.regT = .none then .ready else x.regT }).adcNext a) h

/-- The pass that converts takes `p`. -/
def Hw.setPass (h : Hw) (a : Nat) (inj : Bool) (p : Option AdcPass) : Hw :=
  h.setAdc a (if inj then { h.adc a with inj := p } else { h.adc a with reg := p })

/-- A conversion of pass `p` of core `a` ends with this code (R273, R279). -/
def Hw.convEnd (h : Hw) (a : Nat) (inj : Bool) (p : AdcPass) (code : Int) (sat : Bool) (tb : Nat) : Hw :=
  let sw := p.slots.getD p.idx 0
  let input := sw % 32
  let y := h.calibrated a (sw / 32 % 8) input code
  let p := { p with cnt := p.cnt + 1, acc := p.acc + y.1, clip := p.clip || sat || y.2, inv := p.inv || h.inputInv input
                    tb := if p.idx = 0 && p.cnt = 0 then tb else p.tb }
  if p.cnt < 2 ^ (sw / 2 ^ 18 % 16) then
    if (h.adc a).cut then
      ((h.setPass a inj none).setAdc a { (h.setPass a inj none).adc a with cut := false }).up (ADC_A_STAT.PASS_CUT a)
    else h.setPass a inj (some p)
  else
    let r := h.slotResult a inj p
    let h := r.1
    let q := { r.2 with idx := p.idx + 1, cnt := 0, acc := 0, clip := false, inv := false }
    if p.slots.length ≤ q.idx then h.passEnd a inj
    else if (h.adc a).cut then
      ((h.setPass a inj none).setAdc a { (h.setPass a inj none).adc a with cut := false }).up (ADC_A_STAT.PASS_CUT a)
    else (h.setPass a inj (some q)).adcNext a

/-- Every core stops (R292): registered triggers are lost, a suspended pass is abandoned, and a conversion in progress
finishes before the rest of its pass is abandoned. -/
def Hw.adcStop (h : Hw) : Hw := (List.range 4).foldl (fun h a =>
  let x := h.adc a
  let lost := b2n (x.regT != .none) + b2n (x.injT != .none)
  let both := x.inj.isSome && x.reg.isSome
  ((h.setAdc a { x with regT := .none, injT := .none, startup := false, again := false, pd := h.on (ADC_A_CTL.AUTO_PD_L a)
                        cut := x.inj.isSome || x.reg.isSome, reg := if both then none else x.reg }).add (ADC_A_LOST.TRIG_LOST a) lost).upIf
    both (ADC_A_STAT.PASS_CUT a)) h

/-- The conversion that core `a` makes ends with this result: the injected pass converts where one runs, else the regular one. -/
def Hw.adcResult (h : Hw) (a : Nat) (code : BitVec 18) (sat : Bool) (tb : BitVec 64) : Hw :=
  let x := h.adc a
  match x.inj, x.reg with
  | some p, _ => h.convEnd a true p code.toInt sat tb.toNat
  | none, some p => h.convEnd a false p code.toInt sat tb.toNat
  | none, none => h

/-- Every core has nothing in flight (R432). -/
def Hw.adcIdle (h : Hw) : Bool := (List.range 4).all (fun a =>
  let x := h.adc a
  x.reg.isNone && x.inj.isNone && x.regT = .none && x.injT = .none && !x.startup)

/-! ### BST1 (R286, R287) -/

/-- Some IEPE input is enabled. -/
def Hw.anyIepe (h : Hw) : Bool := anyBelow 8 (fun n => h.on (ADC_AIN_CFG.IEPE_EN_L n))

/-- In OFF and PINNED the output is a fixed value (R286). -/
def Hw.bst1Fixed (h : Hw) : Hw :=
  if h.loopMode loopBst1 = 1 then h
  else h.set ADC_BST1_MON.VOUT (if h.loopMode loopBst1 = 2 then (h.loopPin loopBst1).toNat else if h.anyIepe then 260 else 0)

/-- The highest bias among NORMAL inputs, if there is one. -/
def Hw.bst1Bias (h : Hw) : Option Nat :=
  (List.range 8).foldl (fun m n => if 3 ≤ h.iepeState n then some (max (m.getD 0) (h.get (ADC_IEPE_BIAS.BIAS n))) else m) none

/-- The BST1 loop at an epoch boundary (R286). -/
def Hw.bst1Epoch (h : Hw) : Hw :=
  let g := loopBst1
  if h.loopMode g = 1 then
    let v : Int := (h.get ADC_BST1_MON.VOUT : Nat)
    let r : Hw × Loop × Int := match h.bst1Bias with
      | some b => h.loopDemand g h.bst1Loop ((b + 1000 + 49) / 50 * 5 : Nat)
      | none => (h, h.bst1Loop, h.loopInside g (if h.loopHint g ≠ 0 then h.loopHint g else v))
    let v' := slew v r.2.2 5
    ({ r.1 with bst1Loop := r.2.1 }).set ADC_BST1_MON.VOUT v'.toNat
  else ({ h with bst1Loop := h.bst1Loop.leave }).bst1Fixed

/-! ### Commits (R290) -/

/-- The first offence of the captured ANA values: REASON, CORE, INDEX, INJ (R290). Only the slots that a pass converts select an
input. -/
def Hw.adcCheck (h : Hw) : Option (Nat × Nat × Nat × Bool) :=
  let owners := (List.range 4).flatMap (fun a =>
    ((List.range (h.cap (ADC_A_REGCFG.LEN a))).map (fun s => (a, s, false, h.cap (ADC_A_OWN.REG_OWNER a), h.cap (ADC_A_REG_SLOT.INPUT a s)))) ++
    ((List.range (h.cap (ADC_A_INJCFG.LEN a))).map (fun s => (a, s, true, h.cap (ADC_A_OWN.INJ_OWNER a), h.cap (ADC_A_INJ_SLOT.INPUT a s)))))
  match owners.find? (fun e => e.2.2.2.1 != 0 && e.2.2.2.2 < 24 && h.cap (ADC_AIN_CFG.OWNER e.2.2.2.2) != e.2.2.2.1) with
  | some e => some (1, e.1, e.2.1, e.2.2.1)
  | none =>
    match (List.range 4).find? (fun a => h.cap (ADC_A_STRM_CFG.EN a) != 0 &&
        (h.cap (PE_POOL_CFG.EN (h.cap (ADC_A_STRM_CFG.POOL a))) = 0 ||
          2 ^ h.cap (PE_POOL_CFG.LOG2SIZE (h.cap (ADC_A_STRM_CFG.POOL a))) <
            64 + h.cap (ADC_A_STRM_SETS.SETS a) * setSize (h.cap (ADC_A_REGCFG.LEN a)) (h.cap (ADC_A_STRM_CFG.TSET a) != 0))) with
    | some a => some (2, a, 0, false)
    | none =>
      match (List.range 24).find? (fun n =>
          let ex := h.cap (ADC_AIN_CFG.EXC_EN n) != 0
          let bo := h.cap (ADC_AIN_CFG.BURNOUT n) != 0
          (8 ≤ n && h.cap (ADC_AIN_CFG.IEPE_EN n) != 0) || (n < 16 && (ex || bo)) || (ex && bo)) with
      | some n => some (3, 0, n, false)
      | none => if h.cap ADC_BST1_HIGH.V < h.cap ADC_BST1_LOW.V then some (4, 0, 0, false) else none

/-- The ADC takes its captured values at the ANA switch; `o` is the part before it (R288, R290). -/
def Hw.adcSwitched (h o : Hw) : Hw :=
  let h := match h.cal.cap with
    | some b => { h with cal := { h.cal with staged := if h.cal.staged = some b then none else h.cal.staged, cap := none, adc := b, next := some b } }
    | none => h
  let h := (List.range 4).foldl (fun h a =>
    let x := h.adc a
    let apd := h.on (ADC_A_CTL.AUTO_PD_L a)
    let h := if !h.on (ADC_A_CTL.EN_L a) then h.setAdc a { x with regT := .none, injT := .none, startup := false, again := false }
      else if x.reg.isNone && x.inj.isNone && x.regT = .none && x.injT = .none && !x.startup then h.setAdc a { x with pd := apd } else h
    h.strmSwitched a (o.get ⟨ADC_A_STRM_CFG_LIVE a, 0, 5⟩)) h
  let h := (List.range 8).foldl (fun h n =>
    if h.on (ADC_AIN_CFG.IEPE_EN_L n) then h.iepeReport n else (h.setIepe n { h.iepeAt n with wait := false }).iepeEnter n 0) h
  h.bst1Fixed

/-! ### Register accesses -/

/-- The TIDs beside T0 that may write ADC register `adr`, or read one whose read changes state (R291, R485). -/
def Hw.adcTids (h : Hw) (adr : Nat) : List Nat :=
  let o := adr - 0x200B0000
  if o < 0x1000 || 0x5000 ≤ o then []
  else
    let a := o / 0x1000 - 1
    let r := h.adcOwner a false
    let i := h.adcOwner a true
    let k := o % 0x800
    if k = 0x14 then []
    else if k = 0xC || k = 0x10 || (0x40 ≤ k && k < 0x60) || 0x180 ≤ k then [i]
    else if k < 0xC || k = 0x20 || k = 0x24 || (0x60 ≤ k && k < 0x80) || 0x100 ≤ k then [r]
    else [r, i]

/-- The access comes from a sequence's owner or T0 (R291). -/
def Hw.adcOwns (h : Hw) (acc : Access) (a : Nat) (inj : Bool) : Bool := acc.tid = 0 || acc.tid.toNat = h.adcOwner a inj

/-- Triggers written together, as core and sequence: those of sequences that the writer owns register, injected ones first, and a
write with none of its bits owned is refused (R277, R278, R291). -/
def Hw.adcSwTrig (h : Hw) (acc : Access) (l : List (Nat × Bool)) : Hw × AccRes :=
  let mine := l.filter (fun e => h.adcOwns acc e.1 e.2)
  if acc.tid != 0 && mine = [] then (h, .owner)
  else
    let h := (mine.filter (·.2)).foldl (fun h e => h.adcTrigger e.1 true) h
    ((mine.filter (!·.2)).foldl (fun h e => h.adcTrigger e.1 false) h, .ok)

/-- A write of ADC_Aa_SWTRIG. -/
def Hw.adcSwtrig (h : Hw) (acc : Access) (a : Nat) (v : Word) : Hw × AccRes :=
  h.adcSwTrig acc ((if v.getLsbD 0 then [(a, false)] else []) ++ (if v.getLsbD 1 then [(a, true)] else []))

/-- A write of ADC_SWTRIG_ALL. -/
def Hw.adcSwtrigAll (h : Hw) (acc : Access) (v : Word) : Hw × AccRes :=
  h.adcSwTrig acc ((List.range 4).flatMap (fun a => (if v.getLsbD a then [(a, false)] else []) ++ (if v.getLsbD (8 + a) then [(a, true)] else [])))

/-- A write of ADC_TEDS_CTL: with GO = 1 a read starts, or is refused with nothing done (R271). -/
def Hw.tedsCtl (h : Hw) (acc : Access) (v : Word) : Hw × AccRes :=
  let n := v.toNat % 8
  if !v.getLsbD 31 then h.guarded acc [] (fun h => h.plainWrite ADC_TEDS_CTL v)
  else if h.on ADC_TEDS_STAT.BUSY || !h.on (ADC_AIN_CFG.IEPE_EN_L n) || !(acc.tid = 0 || acc.tid.toNat = h.get (ADC_AIN_CFG.OWNER_L n)) then
    (h.up ADC_TEDS_STAT.REFUSED, .ok)
  else
    let h := (h.plainWrite ADC_TEDS_CTL v).up ADC_TEDS_STAT.BUSY
    (({ h with teds := some (n, h.get ADC_TEDS_CTL.LEN) }).setIepe n { h.iepeAt n with teds := true }, .ok)

/-- A write of ADC_CAL: LOAD = 1 starts staging (R288). -/
def Hw.calWrite (h : Hw) (acc : Access) (v : Word) : Hw × AccRes :=
  h.guarded acc [] (fun h => (h.plainWrite ADC_CAL v).upIf (v.getLsbD 1) ADC_CAL.LOADING)

/-- A read of ADC_Aa_FIFO (R280, R291). -/
def Hw.fifoPop (h : Hw) (acc : Access) (a : Nat) : Hw × RdRes :=
  if !h.adcOwns acc a false then (h, .owner)
  else match (h.adc a).fifo with
    | [] => (h, .word 0)
    | w :: t => (h.setAdc a { h.adc a with fifo := t }, .word w)

/-- A read of ADC_Aa_STRM_DONE (R284). -/
def Hw.donePop (h : Hw) (acc : Access) (a : Nat) : Hw × RdRes :=
  if !h.adcOwns acc a false then (h, .owner)
  else match (h.adc a).done with
    | [] => (h, .word 0)
    | w :: t => (h.setAdc a { h.adc a with done := t }, .word w)

/-- A write in the ADC window. -/
def Hw.adcWrite (h : Hw) (acc : Access) (adr : Nat) (v : Word) : Hw × AccRes :=
  let o := adr - 0x200B0000
  if o = 0 then h.adcSwtrigAll acc v
  else if adr = ADC_CAL then h.calWrite acc v
  else if adr = ADC_TEDS_CTL then h.tedsCtl acc v
  else if 0x1000 ≤ o && o < 0x5000 && o % 0x1000 = 0x18 then h.adcSwtrig acc (o / 0x1000 - 1) v
  else h.guarded acc (h.adcTids adr) (fun h => h.plainWrite adr v)

/-- A read in the ADC window (R275, R291). -/
def Hw.adcRead (h : Hw) (acc : Access) (adr : Nat) : Hw × RdRes :=
  let o := adr - 0x200B0000
  let a := o / 0x1000 - 1
  let core := 0x1000 ≤ o && o < 0x5000
  let k := o % 0x1000
  if core && k = 0x20 then h.fifoPop acc a
  else if core && k = 0x68 then h.donePop acc a
  else if core && 0x40 ≤ k && k < 0x60 && !h.adcOwns acc a true then (h, .owner)
  else if readChanges adr && !(acc.tid = 0 || (h.adcTids adr).contains acc.tid.toNat) then (h, .owner)
  else
    let r := h.plainRead adr
    (r.1, .word (if core && k = 0x1C then (ADC_A_STAT.STATE a).into r.2 (h.adcState a) else r.2))

/-- The word that a read command's answer leaves on the bus: a refused read returns 0 (R37). -/
def RdRes.busWord : RdRes → Word
  | .word w => w
  | _ => 0

/-- A read command leaves its answer. -/
def Hw.answered (r : Hw × RdRes) : Hw := { r.1 with busData := r.2.busWord }

/-! ### The commands -/

/-- REGULAR_TRIGGER: the event that the regular sequence's TRIG selects registers (R274, R277). -/
def execRegularTrigger (a : Fin 4) (s : State) : Out :=
  s.run (fun h => h.when (h.trigUp (h.get (ADC_A_REGCFG.TRIG_L a))) (fun h => h.adcTrigger a false))

/-- INJECTED_TRIGGER: the event that the injected sequence's TRIG selects registers (R274, R277). -/
def execInjectedTrigger (a : Fin 4) (s : State) : Out :=
  s.run (fun h => h.when (h.trigUp (h.get (ADC_A_INJCFG.TRIG_L a))) (fun h => h.adcTrigger a true))

/-- SWTRIG. -/
def execSwtrig (acc : Access) (a : Fin 4) (v : Word) (s : State) : Out := s.onBusBy acc (fun h => (h.adcSwtrig acc a v).1)

/-- SWTRIG_ALL. -/
def execSwtrigAll (acc : Access) (v : Word) (s : State) : Out := s.onBusBy acc (fun h => (h.adcSwtrigAll acc v).1)

/-- TRIGGER_DELAY_EXPIRY. -/
def execTriggerDelayExpiry (a : Fin 4) (inj : Bool) (s : State) : Out := s.run (fun h => h.when h.adcOn (fun h => h.adcDelayEnd a inj))

/-- STARTUP_END. -/
def execStartupEnd (a : Fin 4) (s : State) : Out := s.run (fun h =>
  h.when (h.adcOn && (h.adc a).startup) (fun h => (h.setAdc a { h.adc a with startup := false }).adcNext a))

/-- CONVERSION_END: the converter's code, whether the PGA or the converter saturated, and TB at the PER_CLK edge at or before the
sample instant. -/
def execConversionEnd (a : Fin 4) (code : BitVec 18) (sat : Bool) (tb : BitVec 64) (s : State) : Out := s.run (fun h =>
  h.when (h.mainUp && (h.adcOn || (h.adc a).cut)) (fun h => h.adcResult a code sat tb))

/-- ADC_FIFO_POP. -/
def execAdcFifoPop (acc : Access) (a : Fin 4) (s : State) : Out := s.onBusBy acc (fun h => Hw.answered (h.fifoPop acc a))

/-- STREAM_BUFFER_CLOSE. -/
def execStreamBufferClose (a : Fin 4) (s : State) : Out := s.run (fun h =>
  h.when (h.mainUp && h.strmFull a) (fun h => (h.strmClose a false).strmPromote a))

/-- STRM_DONE_POP. -/
def execStrmDonePop (acc : Access) (a : Fin 4) (s : State) : Out := s.onBusBy acc (fun h => Hw.answered (h.donePop acc a))

/-- IEPE_MONITOR_READING: the bias in units of 10 mV, reported always; while the input waits for a presence pulse its state is not
judged (R267, R270). -/
def execIepeMonitorReading (n : Fin 8) (bias : BitVec 12) (s : State) : Out := s.onBlock 0xB (fun h =>
  h.when (h.on (ADC_AIN_CFG.IEPE_EN_L n)) (fun h =>
    if (h.iepeAt n).wait then h.set (ADC_IEPE_BIAS.BIAS n) bias.toNat else h.iepeReading n bias.toNat))

/-- IEPE_SETTLED. -/
def execIepeSettled (n : Fin 8) (s : State) : Out := s.onBlock 0xB (fun h => h.setIepe n { h.iepeAt n with settling := false })

/-- TEDS_PRESENCE: the wait ends, with or without a presence pulse. -/
def execTedsPresence (n : Fin 8) (seen : Bool) (s : State) : Out := s.onBlock 0xB (fun h =>
  h.when (h.iepeAt n).wait (fun h => h.iepeEnter n (if seen then 4 else 3)))

/-- TEDS_GO: a write of ADC_TEDS_CTL. -/
def execTedsGo (acc : Access) (v : Word) (s : State) : Out := s.onBusBy acc (fun h => (h.tedsCtl acc v).1)

/-- TEDS_DONE: whether a presence pulse came, and the ROM and memory bytes read (R271). -/
def execTedsDone (seen : Bool) (rom : BitVec 64) (data : List Byte) (s : State) : Out := s.onBlock 0xB (fun h =>
  match h.teds with
  | none => h
  | some (n, len) =>
    let h := { h with teds := none }.setIepe n { h.iepeAt n with teds := false, settling := true }
    let h := h.sets [(ADC_TEDS_STAT.BUSY, 0), (ADC_TEDS_STAT.DONE, 1), (ADC_TEDS_STAT.PRESENT, b2n seen), (ADC_TEDS_STAT.NO_DEVICE, b2n !seen),
      (ADC_TEDS_STAT.CRC_ERR, b2n (seen && crc8 (leBytes 7 rom.toNat) != BitVec.ofNat 8 (rom.toNat / 2 ^ 56)))]
    if seen then
      let h := (h.set ADC_TEDS_ROM_LO.ROM rom.toNat).set ADC_TEDS_ROM_HI.ROM (rom.toNat / 2 ^ 32)
      (padTo len data).zipIdx.foldl (fun (h : Hw) (e : Byte × Nat) => h.set ⟨ADC_TEDS_DATA (e.2 / 4), 8 * (e.2 % 4), 8⟩ e.1.toNat) h
    else h)

/-- CAL_LOAD: a write of ADC_CAL. -/
def execCalLoad (acc : Access) (v : Word) (s : State) : Out := s.onBusBy acc (fun h => (h.calWrite acc v).1)

/-- CAL_STAGED. -/
def execCalStaged (s : State) : Out := s.onBus (fun h => h.when (h.on ADC_CAL.LOADING) Hw.calStage)

/-- BST1_CURRENT_LIMIT: the output current in mA, and whether BST1 limits; SAFE_ACT is 1 while it does (R287). -/
def execBst1CurrentLimit (ma : BitVec 8) (limits : Bool) (s : State) : Out := s.onBlock 0xB (fun h =>
  ((h.set ADC_BST1_MON.IOUT ma.toNat).put ADC_BST1_MON.ILIM limits).loopSafe loopBst1 limits)

end Sys2Proof.Machine
end

