-- ==== Sys2Proof/Machine/Aout.lean ====
section
/-! DEFINITION. Drive outputs and current loops (spec/12_analogue_outputs.md). -/

namespace Sys2Proof.Machine

def Hw.drvAt (h : Hw) (n : Nat) : DrvCh := tget {} h.drv n

/-- A channel's state is `x`; QLEVEL follows. -/
def Hw.setDrv (h : Hw) (n : Nat) (x : DrvCh) : Hw := ({ h with drv := tput {} h.drv n x }).set (AOUT_DRV_STAT.QLEVEL n) x.q.length

def Hw.cl (h : Hw) (n : Nat) : ClCh := tget {} h.cls n
def Hw.setCl (h : Hw) (n : Nat) (x : ClCh) : Hw := { h with cls := tput {} h.cls n x }

/-- AOUT is clocked and not stopped by the Berm (R310). -/
def Hw.aoutOn (h : Hw) : Bool := h.blockOn 0xC && !h.pwr.bermActive

/-- The device owns the drive (R306, R403). -/
def Hw.driveOwn (h : Hw) : Bool := h.on TWIN_STAT.DRIVE_OWN

/-- OWNER in force of a drive channel. -/
def Hw.drvOwner (h : Hw) (n : Nat) : Nat := h.get (AOUT_DRV_OWNER.TID_L n)

/-! ### Frames of the Dike link (R401) -/

/-- The twin block is clocked (R423). -/
def Hw.twOn (h : Hw) : Bool := h.blockOn 0x15

/-- The twin block's own state is `x`. -/
def Hw.setTwin (h : Hw) (x : Twin) : Hw := { h with twin := x }

/-- A frame goes onto the lanes. -/
def Hw.twinSend (h : Hw) (ty : Nat) (payload : List Byte) : Hw :=
  let x := h.twin
  let q := tget 0 x.seqs ty
  let b := leBytes 1 ty ++ zeros 1 ++ leBytes 2 payload.length ++ leBytes 4 q ++ payload
  h.setTwin { x with seqs := tput 0 x.seqs ty ((q + 1) % 2 ^ 32), out := tput [] x.out ty (b ++ leBytes 4 (crc32c b).toNat) }

/-- Frames cross the link. -/
def Hw.linkUp (h : Hw) : Bool := h.twOn && h.on TWIN_STAT.LINK_UP

/-- TRACK: the code that channel `n` has latched, with TB at the update (R306, R401). -/
def Hw.sendTrack (h : Hw) (n : Nat) : Hw :=
  h.twinSend 2 (leBytes 1 n ++ zeros 3 ++ leBytes 4 (h.get (AOUT_DRV_CODE.CODE n)) ++ leBytes 8 h.clk.tb.toNat)

/-! ### Drive channels -/

/-- STATE codes of a drive channel. -/
def dsOff : Nat := 0
def dsIdle : Nat := 1
def dsRun : Nat := 2
def dsUnderrun : Nat := 3

/-- A code after calibration, saturated to 20 bits, and whether it saturated (R293, R309). -/
def Hw.drvCode (h : Hw) (n : Nat) (x : Int) : Int × Bool :=
  let y := if h.on AOUT_CAL.EN_L then let p := calPair h.cal.aout (1024 + 8 * n); asr ((x - p.1) * p.2) 30 else x
  (clampI (-524288) 524287 y, decide (y < -524288 ∨ 524287 < y))

/-- A code is latched into the DAC (R295, R306, R308): CODE, and TRACK to the peer where this device owns the drive. -/
def Hw.drvLatch (h : Hw) (n : Nat) (code : Int) (clip : Bool) : Hw :=
  let h := ((h.setS (AOUT_DRV_CODE.CODE n) code).upIf clip (AOUT_DRV_STAT.CLIP n)).upIf h.inTransition (AOUT_DRV_STAT.TRANS_SEEN n)
  if h.driveOwn && h.on (AOUT_DRV_CFG.TRACK_TX_L n) && h.linkUp then h.sendTrack n else h

/-- RAMP: the code moves toward 0 (R298). -/
def Hw.drvRamp (h : Hw) (n : Nat) : Hw :=
  let c := h.getS (AOUT_DRV_CODE.CODE n)
  let st := h.get (AOUT_DRV_CFG.RAMP_L n) * 64
  h.drvLatch n (if h.on (AOUT_DRV_CFG.UNDER_POL_L n) then (if st = 0 then 0 else slew c 0 st) else c) false

/-- An update of a channel that plays its queue (R295, R297, R298). -/
def Hw.drvPlay (h : Hw) (n : Nat) : Hw :=
  let x := h.drvAt n
  match x.next with
  | some d =>
    let y := h.drvCode n d.word.toInt
    let h := ((h.setDrv n { x with next := none }).drvLatch n y.1 y.2).set (AOUT_DRV_STAT.STATE n) dsRun
    match d.free with
    | some w => h.portFree (h.drvOwner n) iniAout w
    | none => h
  | none =>
    let st := h.get (AOUT_DRV_STAT.STATE n)
    if st = dsRun then
      ((((h.up (AOUT_DRV_STAT.UNDERRUN n)).inc (AOUT_DRV_COUNT.UNDERRUNS n)).set (AOUT_DRV_STAT.STATE n) dsUnderrun)).drvRamp n
    else if st = dsUnderrun then h.drvRamp n else h

/-- An update of a channel that tracks its peer: the code received is latched, or the previous one stays (R306, R307). -/
def Hw.drvTrack (h : Hw) (n : Nat) : Hw :=
  let x := h.drvAt n
  let h := h.set (AOUT_DRV_STAT.STATE n) dsRun
  match x.rx with
  | some c => let y := h.drvCode n (sgn 20 c); (h.setDrv n { x with rx := none }).drvLatch n y.1 y.2
  | none =>
    let h := if h.driveOwn then h else h.inc (AOUT_DRV_COUNT.TRACK_MISS n)
    h.drvLatch n (h.getS (AOUT_DRV_CODE.CODE n)) false

/-- DIRECT is latched. -/
def Hw.drvDirectLatch (h : Hw) (n : Nat) : Hw :=
  let y := h.drvCode n (h.getS (AOUT_DRV_DIRECT.CODE n))
  (h.drvLatch n y.1 y.2).set (AOUT_DRV_STAT.STATE n) dsRun

/-- An update: the latch, the output stage muted or not, and the next fetch issued (R294 to R298, R306, R307). -/
def Hw.drvUpdate (h : Hw) (n : Nat) : Hw :=
  let src := h.get (AOUT_DRV_CFG.SRC_L n)
  let x := h.drvAt n
  let take := src = 1 && h.driveOwn && h.on (AOUT_DRV_CFG.TAKE_LOCAL_L n) && x.next.isSome
  let h := if take then h.setDrv n { x with own := true } else h
  let h := if src = 2 then h.drvDirectLatch n
    else if src = 1 && !(h.drvAt n).own then h.drvTrack n else h.drvPlay n
  let h := { h.put (AOUT_DRV_STAT.MUTED n) (!h.driveOwn) with clGate := h.driveOwn }
  let x := h.drvAt n
  h.setDrv n { x with due := x.due || (src != 2 && x.next.isNone && (x.cur.isSome || x.q != [])) }

/-- The fetch returns: the next sample of the buffer that is read, or the first of the next handle that the PE accepts; a
refused handle is skipped with BAD_HANDLE and a buffer with no sample is freed (R296, R297). -/
def Hw.drvFetch (h : Hw) (n : Nat) : Nat → Hw
  | 0 => h
  | fuel + 1 =>
    let x := h.drvAt n
    let t := h.drvOwner n
    match x.cur with
    | some b =>
      let last := decide (b.n ≤ b.i + 1)
      let r := h.dmaRead t iniAout (h.bufAddr b.hdl + 4 * b.i) 4
      let h := r.1.setDrv n { x with cur := if last then none else some { b with i := b.i + 1 } }
      let x := h.drvAt n
      match r.2 with
      | .ok bs => h.setDrv n { x with next := some ⟨BitVec.ofNat 32 (leNat bs), if last then some b.hdl else none⟩ }
      | .error _ => if last then h.portFree t iniAout b.hdl else h
    | none =>
      match x.q with
      | [] => h
      | w :: q =>
        let r := (h.setDrv n { x with q := q }).handleAddr t iniAout 4 w
        match r.2 with
        | none => (r.1.up (AOUT_DRV_STAT.BAD_HANDLE n)).drvFetch n fuel
        | some _ =>
          let k := r.1.bufLen w / 4
          if k = 0 then (r.1.portFree t iniAout w).drvFetch n fuel
          else (r.1.setDrv n { r.1.drvAt n with cur := some ⟨w, k, 0⟩ }).drvFetch n fuel

/-- A write of DRVn_PUSH (R296): the fetch of the buffer's first sample waits for the update before its own (R297). -/
def Hw.drvPush (h : Hw) (acc : Access) (n : Nat) (v : Word) : Hw × AccRes := h.guarded acc [h.drvOwner n] (fun h =>
  let x := h.drvAt n
  if 8 ≤ x.q.length then h.up (AOUT_DRV_STAT.PUSH_FULL n) else h.setDrv n { x with q := x.q ++ [v] })

/-- A write of DRVn_DIRECT: with TRIG 0 it latches at once (R294). -/
def Hw.drvDirect (h : Hw) (acc : Access) (n : Nat) (v : Word) : Hw × AccRes := h.guarded acc [h.drvOwner n] (fun h =>
  let h := h.plainWrite (AOUT_DRV_DIRECT n) v
  if h.on (AOUT_DRV_CFG.EN_L n) && h.get (AOUT_DRV_CFG.SRC_L n) = 2 && h.get (AOUT_DRV_CFG.TRIG_L n) = 0 && h.aoutOn then h.drvUpdate n else h)

/-- Every output stage is muted at once (R306, R310). -/
def Hw.drvMuteAll (h : Hw) : Hw := (List.range 4).foldl (fun h n => h.up (AOUT_DRV_STAT.MUTED n)) h

/-- TW_DRIVE_OWN is lost: the output stages mute, gated CL elements open, and no channel plays its own queue any longer (R306). -/
def Hw.driveLost (h : Hw) : Hw :=
  (List.range 4).foldl (fun h n => h.setDrv n { h.drvAt n with own := false }) { h.drvMuteAll with clGate := false }

/-- The channels stop: muted, their queues kept, to resume in IDLE (R310). -/
def Hw.aoutStop (h : Hw) : Hw := (List.range 4).foldl (fun h n =>
  h.set (AOUT_DRV_STAT.STATE n) (if h.on (AOUT_DRV_CFG.EN_L n) then dsIdle else dsOff)) h.drvMuteAll

/-! ### Current loops -/

/-- 21.5 mA and 3.6 mA in units of 0.5 µA. -/
def clHigh : Nat := 43000
def clLow : Nat := 7200

/-- H (in units of 10 mV) is at or above 1.8 V + I × 50 Ω for current `i` in units of 0.5 µA (R301). -/
def clEnough (hr i : Nat) : Bool := 180 * 400 + i ≤ hr * 400

/-- The channel's regulating element is closed (R300, R306): with TWIN_GATE, from the update edge that unmutes the DRV stages on (R307);
where no DRV channel is enabled none comes, and the element closes as the drive is gained (log entry 145). -/
def Hw.clClosed (h : Hw) (n : Nat) : Bool :=
  h.on (AOUT_CL_CFG.EN_L n) && (!h.on (AOUT_CL_CFG.TWIN_GATE_L n) || (h.driveOwn && (h.clGate || !anyBelow 4 (fun k => h.on (AOUT_DRV_CFG.EN_L k)))))

/-- The current that the channel drives, in units of 0.5 µA (R300, R302, R309). -/
def Hw.clDriven (h : Hw) (n : Nat) : Nat :=
  if !h.clClosed n then 0
  else
    let i := if h.on (AOUT_CL_STAT.FAULT_ACTIVE n) && (h.cl n).retry = 0 then (if h.get (AOUT_CL_CFG.POLICY_L n) = 1 then clLow else clHigh)
      else h.get (AOUT_CL_CODE.CODE n)
    if h.on AOUT_CAL.EN_L then let p := calPair h.cal.aout (1056 + 8 * n); (clampI 0 49000 (asr (((i : Int) - p.1) * p.2) 30)).toNat else i

/-- Channel `n` is an enabled SOURCE channel. -/
def Hw.clSource (h : Hw) (n : Nat) : Bool := h.on (AOUT_CL_CFG.EN_L n) && h.on (AOUT_CL_CFG.MODE_L n)

/-- HEADROOM is evaluated in channel `n`: readings below H_MIN count toward it (R305; log entry 146). -/
def Hw.clEvaluated (h : Hw) (n : Nat) : Bool :=
  !h.on (AOUT_CL_CFG.MODE_L n) || h.loopMode loopBst2 != 1 || decide (h.loopHigh loopBst2 = (h.get AOUT_BST2_MON.VOUT : Nat)) ||
    h.on AOUT_BST2_MON.ILIM

/-- SAFE_ACT of BST2: some SOURCE channel has HEADROOM (R305). -/
def Hw.bst2Safe (h : Hw) : Hw := h.loopSafe loopBst2 (anyBelow 4 (fun n => h.clSource n && h.on (AOUT_CL_STAT.HEADROOM n)))

/-- HEADROOM is 0 again: the fault level ends. -/
def Hw.clClear (h : Hw) (n : Nat) : Hw :=
  (h.sets [(AOUT_CL_STAT.HEADROOM n, 0), (AOUT_CL_STAT.FAULT_ACTIVE n, 0), (AOUT_CL_STAT.FAULT_UNREACHABLE n, 0)]).setCl n {}

/-- With HEADROOM = 1 the channel acts by the POLICY in force (R302). -/
def Hw.clPolicy (h : Hw) (n : Nat) : Hw :=
  (h.sets [(AOUT_CL_STAT.FAULT_ACTIVE n, b2n (h.get (AOUT_CL_CFG.POLICY_L n) != 0)), (AOUT_CL_STAT.FAULT_UNREACHABLE n, 0)]).setCl n {}

/-- HEADROOM sets, and the channel applies its POLICY (R301, R302). -/
def Hw.clHeadroom (h : Hw) (n : Nat) : Hw := ((h.up (AOUT_CL_STAT.HEADROOM n)).up (AOUT_CL_STAT.HEADROOM_SEEN n)).clPolicy n

/-- A reading against I_CMD (R301, R303). -/
def Hw.clReading (h : Hw) (n hr irb : Nat) : Hw :=
  let x := h.cl n
  let cmd := h.get (AOUT_CL_CODE.CODE n)
  let x := { x with retry := x.retry - 1 }
  let good := clEnough hr cmd
  let x := if good then { x with low := 0, ok := min 16 (x.ok + 1) }
    else { x with ok := 0, low := if h.clEvaluated n then min 4 (x.low + 1) else 0 }
  let hd := h.on (AOUT_CL_STAT.HEADROOM n)
  let d := !hd && 1000 < (if irb < cmd then cmd - irb else irb - cmd)
  let x := { x with dev := if d then min 16 (x.dev + 1) else 0 }
  let h := (h.setCl n x).upIf (16 ≤ x.dev) (AOUT_CL_STAT.DEVIATION n)
  if !hd && 4 ≤ x.low then h.clHeadroom n
  else if hd && 16 ≤ x.ok then h.clClear n
  else h

/-- One reading of the monitor: H in units of 10 mV and the current in units of 0.5 µA before correction (R301 to R303, R309). -/
def Hw.clMonitor (h : Hw) (n hr raw : Nat) : Hw :=
  let irb := if h.on AOUT_CAL.EN_L then
      let p := calPair h.cal.aout (1088 + 8 * n); (clampI 0 65535 (asr (((raw : Int) - p.1) * p.2) 30)).toNat else raw
  let h := (h.set (AOUT_CL_READBACK.I_RB n) irb).set (AOUT_CL_READBACK.H n) hr
  let x := h.cl n
  let h :=
    if h.on (AOUT_CL_STAT.FAULT_ACTIVE n) && x.retry = 0 then
      if h.get (AOUT_CL_CFG.POLICY_L n) = 2 then
        let u := if clEnough hr clHigh then 0 else x.unmet + 1
        let h := h.setCl n { x with unmet := u }
        if 4 ≤ u then ((h.clr (AOUT_CL_STAT.FAULT_ACTIVE n)).up (AOUT_CL_STAT.FAULT_UNREACHABLE n)).setCl n {} else h
      else h
    else h.clReading n hr irb
  h.bst2Safe

/-- A write of CLn_CODE; values above 49 000 are reserved (R15, R300). -/
def Hw.clCode (h : Hw) (acc : Access) (n : Nat) (v : Word) : Hw × AccRes :=
  h.guarded acc [h.get (AOUT_CL_OWNER.TID_L n)] (fun h => if v.toNat % 65536 ≤ 49000 then h.set (AOUT_CL_CODE.CODE n) v.toNat else h)

/-! ### BST2 (R304, R305) -/

/-- The demand of one channel, in units of 0.1 V (R304). -/
def Hw.bst2Demand (h : Hw) (n : Nat) : Nat :=
  let i : Int := (h.get (AOUT_CL_READBACK.I_RB n) : Nat)
  let c : Int := (h.get (AOUT_CL_CODE.CODE n) : Nat)
  let drop : Int := ((h.get AOUT_BST2_MON.VOUT * 10 : Nat) : Int) - (h.get (AOUT_CL_READBACK.H n) : Nat)
  if i < 200 then 260 else ((drop * c * 400 + (280 * 400 + c) * i + 20000 * i - 1) / (20000 * i) * 5).toNat

/-- The loop's demand: the highest of the enabled SOURCE channels'. -/
def Hw.bst2Want (h : Hw) : Option Nat :=
  (List.range 4).foldl (fun m n => if h.clSource n then some (max (m.getD 0) (h.bst2Demand n)) else m) none

/-- In OFF and PINNED the output is a fixed value (R304). -/
def Hw.bst2Fixed (h : Hw) : Hw :=
  if h.loopMode loopBst2 = 1 then h
  else h.set AOUT_BST2_MON.VOUT (if h.loopMode loopBst2 = 2 then (h.loopPin loopBst2).toNat else if anyBelow 4 h.clSource then 260 else 0)

/-- Where adaptation would have the output, with the loop's memory. -/
def Hw.bst2Goal (h : Hw) : Hw × Loop × Int :=
  let g := loopBst2
  let v : Int := (h.get AOUT_BST2_MON.VOUT : Nat)
  match h.bst2Want with
  | some d => h.loopDemand g h.bst2Loop (d : Nat)
  | none => (h, h.bst2Loop, h.loopInside g (if h.loopHint g ≠ 0 then h.loopHint g else v))

/-- Every 10 µs the output rises toward a higher demand, or hint, as far as the bounds let it (R304). -/
def Hw.bst2Step (h : Hw) : Hw :=
  if h.loopMode loopBst2 = 1 then
    let v : Int := (h.get AOUT_BST2_MON.VOUT : Nat)
    let want : Int := match h.bst2Want with
      | some d => (d : Nat)
      | none => if h.loopHint loopBst2 ≠ 0 then h.loopHint loopBst2 else v
    let r := h.bst2Goal
    let up := min r.2.2 want
    ({ r.1 with bst2Loop := r.2.1 }).set AOUT_BST2_MON.VOUT (if v < up then min up (v + 5) else v).toNat
  else ({ h with bst2Loop := h.bst2Loop.leave }).bst2Fixed

/-- At an epoch boundary the output falls 0.1 V where the demand lies 1.0 V or more below it, or the goal is a bound or hint below
it, and rises 0.1 V toward a LOW above it (R304, R45). -/
def Hw.bst2Epoch (h : Hw) : Hw :=
  if h.loopMode loopBst2 = 1 then
    let v : Int := (h.get AOUT_BST2_MON.VOUT : Nat)
    let g := loopBst2
    let fall := match h.bst2Want with
      | some d => decide (((d : Nat) : Int) + 10 ≤ v ∧ h.loopLow g < v) || decide (h.loopHigh g < v)
      | none => decide (h.bst2Goal.2.2 < v)
    if fall then h.set AOUT_BST2_MON.VOUT (v - 1).toNat else if v < h.loopLow g then h.set AOUT_BST2_MON.VOUT (v + 1).toNat else h
  else h

/-! ### Commits (R308) -/

/-- The first offence of the captured AOUT values: REASON and channel. -/
def Hw.aoutCheck (h : Hw) : Option (Nat × Nat) :=
  if h.cap AOUT_BST2_HIGH.V < h.cap AOUT_BST2_LOW.V then some (1, 0)
  else ((List.range 4).find? (fun n => h.cap (AOUT_CL_CFG.MODE n) != h.get (AOUT_CL_CFG.MODE_L n) &&
    h.cap (AOUT_CL_CFG.EN n) != 0 && h.on (AOUT_CL_CFG.EN_L n))).map (fun n => (2, n))

/-- AOUT takes its captured values; `o` is the part before the switch (R308, R309). -/
def Hw.aoutSwitched (h o : Hw) : Hw :=
  let h := match h.cal.next with
    | some b => { h with cal := { h.cal with next := none, aout := b } }
    | none => h
  let h := (List.range 4).foldl (fun h n =>
    let was := o.on (AOUT_DRV_CFG.EN_L n)
    let now := h.on (AOUT_DRV_CFG.EN_L n)
    let h := if o.get (AOUT_DRV_CFG.SRC_L n) = h.get (AOUT_DRV_CFG.SRC_L n) then h else h.setDrv n { h.drvAt n with own := false }
    if now && !was then h.set (AOUT_DRV_STAT.STATE n) dsIdle
    else if was && !now then (h.set (AOUT_DRV_STAT.STATE n) dsOff).up (AOUT_DRV_STAT.MUTED n)
    else h) h
  let h := (List.range 4).foldl (fun h n =>
    if !h.on (AOUT_CL_CFG.EN_L n) then h.clClear n
    else if h.on (AOUT_CL_STAT.HEADROOM n) && o.get (AOUT_CL_CFG.POLICY_L n) != h.get (AOUT_CL_CFG.POLICY_L n) then h.clPolicy n
    else h) h
  h.bst2Fixed.bst2Safe

/-! ### Register accesses -/

/-- The TIDs beside T0 that may write AOUT register `adr` (R308). -/
def Hw.aoutTids (h : Hw) (adr : Nat) : List Nat :=
  let o := adr - 0x200C0000
  if o < 0x100 || o % 0x20 = 4 then []
  else if o < 0x200 then [h.drvOwner ((o - 0x100) / 0x40)]
  else if 0x300 ≤ o && o < 0x400 then [h.get (AOUT_CL_OWNER.TID_L ((o - 0x300) / 0x40))]
  else []

/-- A write in the AOUT window. -/
def Hw.aoutWrite (h : Hw) (acc : Access) (adr : Nat) (v : Word) : Hw × AccRes :=
  let o := adr - 0x200C0000
  if 0x100 ≤ o && o < 0x200 && o % 0x40 = 8 then h.drvPush acc ((o - 0x100) / 0x40) v
  else if 0x100 ≤ o && o < 0x200 && o % 0x40 = 0xC then h.drvDirect acc ((o - 0x100) / 0x40) v
  else if 0x300 ≤ o && o < 0x400 && o % 0x40 = 8 then h.clCode acc ((o - 0x300) / 0x40) v
  else h.guarded acc (h.aoutTids adr) (fun h => h.plainWrite adr v)

/-! ### The commands -/

/-- DRV_UPDATE: the event that TRIG selects registers, `gap` PER_CLK cycles after the channel's previous update (R294, R295, R310). -/
def execDrvUpdate (n : Fin 4) (gap : Nat) (s : State) : Out := s.run (fun h =>
  h.when (h.aoutOn && h.on (AOUT_DRV_CFG.EN_L n) && h.trigUp (h.get (AOUT_DRV_CFG.TRIG_L n))) (fun h => if gap < 312 then h.up (AOUT_DRV_STAT.TRIG_OVR n) else h.drvUpdate n))

/-- SAMPLE_FETCH. One that must check a handle waits while the PE's clock is gated (R86). -/
def execSampleFetch (n : Fin 4) (s : State) : Out := s.run (fun h =>
  h.when (h.aoutOn && h.on (AOUT_DRV_CFG.EN_L n) && (h.drvAt n).due && (h.drvAt n).next.isNone && ((h.drvAt n).cur.isSome || h.peOn)) (fun h =>
    (h.setDrv n { h.drvAt n with due := false }).drvFetch n (2 * (h.drvAt n).q.length + 2)))

/-- DRV_PUSH. -/
def execDrvPush (acc : Access) (n : Fin 4) (v : Word) (s : State) : Out := s.onBusBy acc (fun h => (h.drvPush acc n v).1)

/-- DRV_DIRECT. -/
def execDrvDirect (acc : Access) (n : Fin 4) (v : Word) (s : State) : Out := s.onBusBy acc (fun h => (h.drvDirect acc n v).1)

/-- CL_CODE. -/
def execClCode (acc : Access) (n : Fin 4) (v : Word) (s : State) : Out := s.onBusBy acc (fun h => (h.clCode acc n v).1)

/-- CL_MONITOR_READING. -/
def execClMonitorReading (n : Fin 4) (hr : BitVec 12) (irb : BitVec 16) (s : State) : Out := s.run (fun h =>
  h.when (h.aoutOn && h.on (AOUT_CL_CFG.EN_L n)) (fun h => h.clMonitor n hr.toNat irb.toNat))

/-- FAULT_RETRY_WINDOW: four readings at I_CMD (R302). -/
def execFaultRetryWindow (n : Fin 4) (s : State) : Out := s.run (fun h =>
  h.when (h.aoutOn && h.on (AOUT_CL_STAT.FAULT_ACTIVE n)) (fun h => h.setCl n { h.cl n with retry := 4 }))

/-- BST2_STEP: the output current in mA, and whether BST2 limits at 110 mA (R304). -/
def execBst2Step (ma : BitVec 8) (limits : Bool) (s : State) : Out := s.run (fun h =>
  h.when h.aoutOn (fun h => ((h.set AOUT_BST2_MON.IOUT ma.toNat).put AOUT_BST2_MON.ILIM limits).bst2Step))

end Sys2Proof.Machine
end

