-- ==== Sys2Proof/Machine/Timers.lean ====
section
/-! DEFINITION. Timers, PWM, capture and the timebase registers (spec/13_timers.md). Timer `t` is GTt below 16 and PT(t − 16)
from there on. -/

namespace Sys2Proof.Machine

/-! ### Shared -/

/-- A core is halted by a debugger. -/
def Core.halted (c : Core) : Bool := c.run = .halted

/-- A FREEZE value freezes a timer now (R330). -/
def Hw.frozenBy (h : Hw) (f : Nat) : Bool := (bitOf f 0 && h.m0.halted) || (bitOf f 1 && h.m1.halted)

/-- The RUN field of timer `t`. -/
def tmrRun (t : Nat) : Fld := if t < 16 then TMR_GT_CTL.RUN t else TMR_PT_CTL.RUN (t - 16)

/-- The owner in force of timer `t` (R332). -/
def Hw.tmrOwner (h : Hw) (t : Nat) : Nat := if t < 16 then h.get (TMR_GT_OWNER.TID_L t) else h.get (TMR_PT_OWNER.TID_L (t - 16))

/-- PRE in force of timer `t`. -/
def Hw.tmrPre (h : Hw) (t : Nat) : Nat := if t < 16 then h.get (TMR_GT_CFG.PRE_L t) else h.get (TMR_PT_CFG.PRE_L (t - 16))

/-- Timer `t` is frozen (R330). -/
def Hw.tmrFrozen (h : Hw) (t : Nat) : Bool :=
  h.frozenBy (if t < 16 then h.get (TMR_GT_CFG.FREEZE_L t) else h.get (TMR_PT_CFG.FREEZE_L (t - 16)))

/-- The timers are clocked and not stopped by the Berm (R329, R331). -/
def Hw.tmrOn (h : Hw) : Bool := h.blockOn 0xD && !h.pwr.bermActive

/-- Timer `t` counts: RUN = 1, clocked and not frozen (R311). -/
def Hw.tmrCounts (h : Hw) (t : Nat) : Bool := h.tmrOn && h.on (tmrRun t) && !h.tmrFrozen t

/-- The prescaler phase of timer `t`: the PER_CLK edges since its last tick. -/
def Hw.tmrPhase (h : Hw) (t : Nat) : Nat := tget 0 h.phase t
def Hw.setPhase (h : Hw) (t p : Nat) : Hw := { h with phase := tput 0 h.phase t p }

/-- The next PER_CLK edge is the (PRE + 1)-th: timer `t` ticks on it (R311). -/
def Hw.tmrTicks (h : Hw) (t : Nat) : Bool := h.tmrCounts t && decide (h.tmrPre t ≤ h.tmrPhase t)

/-! ### General timers (R313 to R318) -/

/-- What the next tick of GT `n` produces: the value, if any, and whether it wraps, reloads or stops (R313). -/
def Hw.gtNext (h : Hw) (n : Nat) : Option Nat × Bool :=
  let c := h.get (TMR_GT_COUNT.COUNT n)
  if h.on (TMR_GT_CFG.MODE_L n) then
    if c = 0 then (if h.on (TMR_GT_CFG.ONESHOT_L n) then (none, true) else (some (h.get (TMR_GT_RELOAD.VALUE n)), true))
    else (some (c - 1), false)
  else (some ((c + 1) % 2 ^ 32), c + 1 = 2 ^ 32)

/-- The next tick of GT `n` matches compare `k` (R314). -/
def Hw.gtMatches (h : Hw) (n k : Nat) : Bool :=
  match (h.gtNext n).1 with
  | some v => if k = 0 then h.on (TMR_GT_CTL.CMP0_EN n) && h.get (TMR_GT_CMP0.VALUE n) == v
    else h.on (TMR_GT_CTL.CMP1_EN n) && h.get (TMR_GT_CMP1.VALUE n) == v
  | none => false

/-- An output action on GTn_OUT: none, set, clear or toggle. -/
def Hw.gtAct (h : Hw) (n act : Nat) : Hw :=
  match act with
  | 1 => h.up (TMR_GT_STAT.OUT n)
  | 2 => h.clr (TMR_GT_STAT.OUT n)
  | 3 => h.put (TMR_GT_STAT.OUT n) (!h.on (TMR_GT_STAT.OUT n))
  | _ => h

/-- A capture edge of GT `n` registers: CAP takes COUNT, and the stamp is TB, less the pin's synchronisation and filter
(R317, R318). -/
def Hw.gtCapture (h : Hw) (n : Nat) : Hw :=
  let now := 128 * h.clk.tb.toNat + h.clk.tbFrac.toNat
  let late := if h.get (TMR_GT_CFG.CAPSEL_L n) = 0 then (2 + h.get (TMR_GT_CFG.FILT_L n)) * h.get CLK_DIV.PER_DIV else 0
  let tb := BitVec.ofInt 64 (((now : Int) - (64 * late : Nat)) / 128)
  let h := (h.upIf (h.on (TMR_GT_STAT.CAP n)) (TMR_GT_STAT.OVR n)).up (TMR_GT_STAT.CAP n)
  h.sets [(TMR_GT_CAP.COUNT n, h.get (TMR_GT_COUNT.COUNT n)), (TMR_GT_CAP_TBL.TB n, tb.toNat), (TMR_GT_CAP_TBH.TB n, tb.toNat / 2 ^ 32)]

/-- GT `n` watches input `src` for such an edge, and is not frozen (R317, R330). -/
def Hw.gtWatches (h : Hw) (n src : Nat) (falling : Bool) : Bool :=
  h.tmrOn && h.on (TMR_GT_CTL.CAPEN n) && !h.tmrFrozen n && h.get (TMR_GT_CFG.CAPSEL_L n) = src &&
    (h.get (TMR_GT_CFG.CAPEDGE_L n) = 2 || h.get (TMR_GT_CFG.CAPEDGE_L n) = b2n falling)

/-- Capture inputs (R317). -/
def capPin : Nat := 0
def capPt (n : Nat) : Nat := 1 + n
def capAlarm : Nat := 5
def capEpoch : Nat := 6

/-- An edge of capture input `src` registers in every GT that watches it (R317). -/
def Hw.capEdge (h : Hw) (src : Nat) (falling : Bool) : Hw :=
  (List.range 16).foldl (fun h n => if h.gtWatches n src falling then h.gtCapture n else h) h

/-- The event line of timer `t` is `b` (R316, R322); the edges of a PT's line are capture inputs. -/
def Hw.setEv (h : Hw) (t : Nat) (b : Bool) : Hw :=
  let was := bitOf h.evLines t
  let h := { h with evLines := setBit h.evLines t b }
  if 16 ≤ t && was != b then h.capEdge (capPt (t - 16)) (!b) else h

/-- One tick of GT `n`: its count, flags, output actions and event (R312 to R316). -/
def Hw.gtTick (h : Hw) (n : Nat) : Hw :=
  let nx := h.gtNext n
  let m0 := h.gtMatches n 0
  let m1 := h.gtMatches n 1
  let down := h.on (TMR_GT_CFG.MODE_L n)
  let a0 := h.get (TMR_GT_CFG.OUT0_ACT_L n)
  let a1 := h.get (TMR_GT_CFG.OUT1_ACT_L n)
  let ev := h.get (TMR_GT_CFG.EVSEL_L n)
  let h := h.setPhase n 0
  let h := match nx.1 with
    | some v => (h.set (TMR_GT_COUNT.COUNT n) v)
    | none => h.clr (TMR_GT_CTL.RUN n)
  let h := if nx.2 && down && nx.1.isSome then h.set (TMR_GT_RLD_ACT.VALUE n) (nx.1.getD 0) else h
  let h := h.upIf nx.2 (TMR_GT_STAT.WRAP n)
  let h := if m0 then (h.up (TMR_GT_STAT.CMP0 n)).gtAct n a0 else h
  let h := if m1 then (h.up (TMR_GT_STAT.CMP1 n)).gtAct n a1 else h
  h.setEv n ((ev = 0 && m0) || (ev = 1 && m1) || (ev = 2 && nx.2))

/-! ### PWM timers (R319 to R323) -/

def Hw.pt (h : Hw) (n : Nat) : PtOut := tget {} h.pts n
def Hw.setPt (h : Hw) (n : Nat) (x : PtOut) : Hw := { h with pts := tput {} h.pts n x }

/-- The next tick of PT `n`: the count it produces, and whether it then counts down (R319). -/
def Hw.ptNext (h : Hw) (n : Nat) : Nat × Bool :=
  let c := h.get (TMR_PT_COUNT.COUNT n)
  let p := h.get (TMR_PT_PERIOD_ACT.VALUE n)
  if h.on (TMR_PT_CFG.MODE_L n) then
    if c = 0 then (1, false)
    else if h.on (TMR_PT_STAT.DIR n) || p ≤ c then (c - 1, true) else (c + 1, false)
  else (if p ≤ c + 1 then 0 else c + 1, false)

/-- The next tick starts a period (R319). -/
def Hw.ptStarts (h : Hw) (n : Nat) : Bool := (h.ptNext n).1 = 0

/-- The next tick matches EVCMP while counting up (R322); a period start uses the buffers that load with it (R320). -/
def Hw.ptEvMatch (h : Hw) (n : Nat) : Bool :=
  let nx := h.ptNext n
  let load := nx.1 = 0 && !h.on (TMR_PT_CTL.HOLD n)
  !nx.2 && nx.1 == (if load then h.get (TMR_PT_EVCMP.VALUE n) else h.get (TMR_PT_EVCMP_ACT.VALUE n))

/-- DUTYk as the next tick uses it. -/
def Hw.ptDutyNext (h : Hw) (n k : Nat) : Nat :=
  if h.ptStarts n && !h.on (TMR_PT_CTL.HOLD n) then h.get (TMR_PT_DUTY.VALUE n k) else h.get (TMR_PT_DUTY_ACT.VALUE n k)

/-- The raw signals after a tick that produces `v` with these duties (R319). -/
def rawOf (duty : Nat → Nat) (v : Nat) : Nat := (List.range 4).foldl (fun m k => if v < duty k then m + 2 ^ k else m) 0

/-- The next tick lets a raw signal fall. -/
def Hw.ptFalls (h : Hw) (n : Nat) : Bool :=
  let r := rawOf (h.ptDutyNext n) (h.ptNext n).1
  anyBelow 4 (fun k => bitOf (h.pt n).raw k && !bitOf r k)

/-- The buffers of PT `n` load; LOADED sets where a value changed (R320). -/
def Hw.ptLoad (h : Hw) (n : Nat) : Hw :=
  let l := [(TMR_PT_PERIOD n, TMR_PT_PERIOD_ACT n), (TMR_PT_DUTY n 0, TMR_PT_DUTY_ACT n 0), (TMR_PT_DUTY n 1, TMR_PT_DUTY_ACT n 1),
    (TMR_PT_DUTY n 2, TMR_PT_DUTY_ACT n 2), (TMR_PT_DUTY n 3, TMR_PT_DUTY_ACT n 3), (TMR_PT_DT n, TMR_PT_DT_ACT n),
    (TMR_PT_EVCMP n, TMR_PT_EVCMP_ACT n)]
  let ch := l.any (fun e => h.rd e.1 != h.rd e.2)
  (l.foldl (fun h e => h.wr e.2 (h.rd e.1)) h).upIf ch (TMR_PT_STAT.LOADED n)

/-- The delayed rise of output `o` is on its way (R321). -/
def PtOut.rising (x : PtOut) (o : Nat) : Bool := tget 0 x.wait o != 0

/-- Output `o` stands at `b`, with no rise on its way. -/
def PtOut.level (x : PtOut) (o : Nat) (b : Bool) : PtOut := { x with lvl := setBit x.lvl o b, wait := tput 0 x.wait o 0 }

/-- One side of a complementary pair: `on` says that its own signal is high, `dt` its dead time; a rise waits, a fall does not
(R321). -/
def pairSide (x : PtOut) (o dt : Nat) (was on : Bool) : PtOut :=
  if !on then x.level o false
  else if was then x
  else if dt = 0 then x.level o true
  else { x with wait := tput 0 x.wait o dt }

/-- The sides of the pair at `o` come to their own signals from the levels they stand at (R321). -/
def PtOut.pairUp (x : PtOut) (o dt : Nat) : PtOut :=
  let on := bitOf x.raw o
  pairSide (pairSide x o dt (bitOf x.lvl o) on) (o + 1) dt (bitOf x.lvl (o + 1)) (!on)

/-- `e` PER_CLK edges have passed for the rises that were on their way in `x` and still are: those that are due take place (R321). -/
def PtOut.pass (y x : PtOut) (e : Nat) : PtOut := (List.range 4).foldl (fun y o =>
  let w := tget 0 x.wait o
  if w = 0 || !y.rising o then y else if w ≤ e then y.level o true else { y with wait := tput 0 y.wait o (w - e) }) y

/-- The outputs follow raw signals `r` after `e` PER_CLK edges: single outputs at once, pairs with dead time (R319, R321). -/
def Hw.ptDrive (h : Hw) (n r e : Nat) : Hw :=
  let x := h.pt n
  let pair := fun (x : PtOut) (o dt : Nat) =>
    let was := bitOf x.raw o
    let now := bitOf r o
    pairSide (pairSide x o dt was now) (o + 1) dt (!was) (!now)
  let single := fun (x : PtOut) (o : Nat) => x.level o (bitOf r o)
  let y := if h.on (TMR_PT_CFG.COMP01_L n) then pair x 0 (h.get (TMR_PT_DT_ACT.DT01 n)) else single (single x 0) 1
  let y := if h.on (TMR_PT_CFG.COMP23_L n) then pair y 2 (h.get (TMR_PT_DT_ACT.DT23 n)) else single (single y 2) 3
  h.setPt n ({ y with raw := r }.pass x e)

/-- A PER_CLK edge passes for the outputs of PT `n`: delayed rises come nearer (R321). -/
def Hw.ptPass (h : Hw) (n : Nat) : Hw := h.setPt n ((h.pt n).pass (h.pt n) 1)

/-- One tick of PT `n` (R312, R319 to R322). -/
def Hw.ptTick (h : Hw) (n : Nat) : Hw :=
  let nx := h.ptNext n
  let start := h.ptStarts n
  let ev := h.ptEvMatch n
  let r := rawOf (h.ptDutyNext n) nx.1
  let sel := h.get (TMR_PT_CFG.EVSEL_L n)
  let h := h.setPhase (16 + n) 0
  let h := if start && !h.on (TMR_PT_CTL.HOLD n) then h.ptLoad n else h
  let h := (h.set (TMR_PT_COUNT.COUNT n) nx.1).put (TMR_PT_STAT.DIR n) nx.2
  let h := ((h.upIf start (TMR_PT_STAT.PSTART n)).upIf ev (TMR_PT_STAT.EVT n)).ptDrive n r 1
  h.setEv (16 + n) ((sel = 0 && start) || (sel = 1 && ev))

/-- RUN of PT `n` goes from 0 to 1: the buffers load at once unless HOLD is set, and the outputs leave their IDLE levels (R320,
R323). -/
def Hw.ptBegin (h : Hw) (n : Nat) : Hw :=
  let h := if h.on (TMR_PT_CTL.HOLD n) then h else h.ptLoad n
  let r := rawOf (fun k => h.get (TMR_PT_DUTY_ACT.VALUE n k)) (h.get (TMR_PT_COUNT.COUNT n))
  let x : PtOut := { raw := r, lvl := r, wait := [] }
  let x := if h.on (TMR_PT_CFG.COMP01_L n) then ((x.level 0 false).level 1 false).pairUp 0 (h.get (TMR_PT_DT_ACT.DT01 n)) else x
  let x := if h.on (TMR_PT_CFG.COMP23_L n) then ((x.level 2 false).level 3 false).pairUp 2 (h.get (TMR_PT_DT_ACT.DT23 n)) else x
  h.setPt n x

/-- Outputs `o` and `o + 1` of PT `n` follow a change of the COMP bit `c` at a switch of CFG; `o` is the part before it: a new pair
brings the side that should be high up after its dead time, two single outputs follow their raw signals (R321, R332; log entry 166). -/
def Hw.ptComp (h : Hw) (was : Hw) (n o : Nat) (c : Fld) (dt : Nat) : Hw :=
  let x := h.pt n
  if !h.on (TMR_PT_CTL.RUN n) || h.get c = was.get c then h
  else h.setPt n (if h.on c then x.pairUp o dt else (x.level o (bitOf x.raw o)).level (o + 1) (bitOf x.raw (o + 1)))

/-- What the PTs do at the TMR switch. -/
def Hw.tmrSwitched (h : Hw) (was : Hw) : Hw := (List.range 4).foldl (fun h n =>
  (h.ptComp was n 0 (TMR_PT_CFG.COMP01_L n) (h.get (TMR_PT_DT_ACT.DT01 n))).ptComp was n 2 (TMR_PT_CFG.COMP23_L n) (h.get (TMR_PT_DT_ACT.DT23 n))) h

/-- The pin levels of PT `n` (R319, R323, R329, R330). -/
def Hw.ptPins (h : Hw) (n : Nat) : Nat :=
  let idle := h.get (TMR_PT_CFG.IDLE_L n)
  if !h.on (TMR_PT_CTL.RUN n) || h.pwr.sleep = .sleep || h.pwr.sleep = .sleepEmulated || (h.tmrFrozen (16 + n) && h.on (TMR_PT_CFG.HALT_IDLE_L n)) then idle
  else (h.pt n).lvl ^^^ h.get (TMR_PT_CFG.POL_L n)

/-! ### Starting and stopping (R320, R324, R325) -/

/-- RUN of timer `t` becomes `b`. -/
def Hw.tmrSetRun (h : Hw) (t : Nat) (b : Bool) : Hw :=
  let was := h.on (tmrRun t)
  let h := h.put (tmrRun t) b
  if b && !was && 16 ≤ t then h.ptBegin (t - 16) else h

/-- The timers of mask `m` start, or stop. -/
def Hw.tmrSetAll (h : Hw) (m : Nat) (b : Bool) : Hw :=
  (List.range 20).foldl (fun h t => if bitOf m t then h.tmrSetRun t b else h) h

/-- The bits of the timers that the TID owns. -/
def Hw.tmrOwned (h : Hw) (tid : Nat) : Nat :=
  (List.range 20).foldl (fun m t => if tid = 0 || h.tmrOwner t = tid then m + 2 ^ t else m) 0

/-- The captured CFG of timer `t` changes MODE, ONESHOT or PRE (R332). -/
def Hw.tmrChanges (h : Hw) (t : Nat) : Bool :=
  if t < 16 then h.cap (TMR_GT_CFG.MODE t) != h.get (TMR_GT_CFG.MODE_L t) || h.cap (TMR_GT_CFG.ONESHOT t) != h.get (TMR_GT_CFG.ONESHOT_L t) ||
    h.cap (TMR_GT_CFG.PRE t) != h.get (TMR_GT_CFG.PRE_L t)
  else h.cap (TMR_PT_CFG.MODE (t - 16)) != h.get (TMR_PT_CFG.MODE_L (t - 16)) || h.cap (TMR_PT_CFG.PRE (t - 16)) != h.get (TMR_PT_CFG.PRE_L (t - 16))

/-- A start of timer `t` would break a condition that the running commit has checked (R429). -/
def Hw.tmrHolds (h : Hw) (t : Nat) : Bool := h.awaits 5 && !h.on (tmrRun t) && h.tmrChanges t

/-- A register write waits at the register bus until domain `d` has switched (R429). -/
def Hw.holdWrite (h : Hw) (d : Nat) (acc : Access) (adr : Nat) (v : Word) : Hw :=
  { h with cmt := { h.cmt with heldWr := h.cmt.heldWr ++ [(d, acc, adr, v)] } }

/-- A write of TMR_START (R324, R429). -/
def Hw.tmrStart (h : Hw) (acc : Access) (v : Word) : Hw × AccRes :=
  let m := v.toNat % 2 ^ 20 &&& h.tmrOwned acc.tid.toNat
  if anyBelow 20 (fun t => bitOf m t && h.tmrHolds t) then (h.holdWrite 5 acc TMR_START v, .held) else (h.tmrSetAll m true, .ok)

/-- A write of TMR_STOP (R324). -/
def Hw.tmrStop (h : Hw) (acc : Access) (v : Word) : Hw × AccRes :=
  (h.tmrSetAll (v.toNat % 2 ^ 20 &&& h.tmrOwned acc.tid.toNat) false, .ok)

/-- A write of CTL of timer `t` (R320, R332, R429). -/
def Hw.tmrCtl (h : Hw) (acc : Access) (t : Nat) (v : Word) : Hw × AccRes :=
  let adr := (tmrRun t).adr
  if (acc.tid = 0 || acc.tid.toNat = h.tmrOwner t) && v.getLsbD 0 && h.tmrHolds t then (h.holdWrite 5 acc adr v, .held)
  else h.guarded acc [h.tmrOwner t] (fun h =>
    let was := h.on (tmrRun t)
    let h := (h.plainWrite adr v)
    if v.getLsbD 0 && !was && 16 ≤ t then h.ptBegin (t - 16) else h)

/-- A write of COUNT of timer `t`: the value stands and the prescaler phase clears (R311, R312). -/
def Hw.tmrCount (h : Hw) (acc : Access) (t : Nat) (v : Word) : Hw × AccRes := h.guarded acc [h.tmrOwner t] (fun h =>
  (h.plainWrite (if t < 16 then TMR_GT_COUNT t else TMR_PT_COUNT (t - 16)) v).setPhase t 0)

/-- At the armed time the TB start unit sets RUN of every timer of its mask (R325, R429). -/
def Hw.tbsFire (h : Hw) : Hw :=
  let m := h.get TMR_TBS_MASK.TIMERS
  let h := (h.clr TMR_TBS_CTL.ARM).up TMR_TBS_CTL.HIT
  if anyBelow 20 (fun t => bitOf m t && h.tmrHolds t) then h.holdWrite 5 ⟨.crocus, 0⟩ TMR_START (BitVec.ofNat 32 m) else h.tmrSetAll m true

/-! ### Snapshots (R438) -/

/-- The number of an initiator among those that have snapshots. -/
def snapIni : Initiator → Nat
  | .m0 => 0
  | .m1 => 1
  | .debug => 2
  | .polder => 3
  | .crocus => 4

/-- The groups: TB, GTn_CAP, ETHn_TXTS. -/
def grpTb : Nat := 0
def grpCap (n : Nat) : Nat := 1 + n
def grpTxts (n : Nat) : Nat := 17 + n

/-- The initiator's snapshot of a group. -/
def Hw.snap (h : Hw) (w : Initiator) (g : Nat) : Nat × Nat := tget (0, 0) h.snaps (32 * snapIni w + g)

/-- The initiator's snapshot of a group is taken. -/
def Hw.setSnap (h : Hw) (w : Initiator) (g : Nat) (v : Nat × Nat) : Hw := { h with snaps := tput (0, 0) h.snaps (32 * snapIni w + g) v }

/-- A read of TB_LO (R326). -/
def Hw.tbRead (h : Hw) (acc : Access) : Hw × RdRes :=
  (h.setSnap acc.who grpTb (h.clk.tb.toNat / 2 ^ 32, 0), .word (BitVec.ofNat 32 h.clk.tb.toNat))

/-- A read of CAP (R318). -/
def Hw.capRead (h : Hw) (acc : Access) (n : Nat) : Hw × RdRes :=
  (h.setSnap acc.who (grpCap n) (h.get (TMR_GT_CAP_TBL.TB n), h.get (TMR_GT_CAP_TBH.TB n)), .word (h.rd (TMR_GT_CAP n)))

/-! ### TB writes (R327, R328) -/

/-- TB advances by PER_DIV half nanoseconds; its fraction is kept (R88, R90). -/
def Hw.tbEdge (h : Hw) : Hw :=
  let n := 64 * h.get CLK_DIV.PER_DIV + h.clk.tbFrac.toNat
  { h with clk := { h.clk with tb := h.clk.tb + BitVec.ofNat 64 (n / 128), tbFrac := BitVec.ofNat 7 n } }

/-- TB is `v`; its fraction is 0. -/
def Hw.setTb (h : Hw) (v : BitVec 64) : Hw := { h with clk := { h.clk with tb := v, tbFrac := 0 } }

/-- The alarm time. -/
def Hw.almTime (h : Hw) : Nat := h.get TMR_TB_ALM_LO.TB + 2 ^ 32 * h.get TMR_TB_ALM_HI.TB

/-- The TB alarm fires (R328), a capture input (R317; log entry 144). -/
def Hw.almFire (h : Hw) : Hw := ((h.clr TMR_TB_ALM_CTL.ARM).up TMR_TB_ALM_CTL.HIT).capEdge capAlarm false

/-- The armed start time. -/
def Hw.tbsTime (h : Hw) : Nat := h.get TMR_TBS_LO.TB + 2 ^ 32 * h.get TMR_TBS_HI.TB

/-- At this PER_CLK edge TB stands at or past an armed alarm time or start time: each fires (R325, R328). -/
def Hw.tbDue (h : Hw) : Hw :=
  let h := if h.on TMR_TB_ALM_CTL.ARM && decide (h.almTime ≤ h.clk.tb.toNat) then h.almFire else h
  if h.blockOn 0xD && h.on TMR_TBS_CTL.ARM && decide (h.tbsTime ≤ h.clk.tb.toNat) then h.tbsFire else h

/-- TB has reached `v` at least, and what is due at that edge has fired. -/
def Hw.tbReach (h : Hw) (v : Nat) : Hw := (if h.clk.tb.toNat < v then h.setTb (BitVec.ofNat 64 v) else h).tbDue

/-- The retained time in units of 1/128 ns (R90 to R92): TB at SLEEP entry with its fraction, else TB_SAVE, plus the retention count;
LSX periods of 30 517.578125 ns and IRC periods of 125 ns. -/
def Hw.retained128 (h : Hw) : Nat :=
  (if h.pwr.sleep = .sleep then 128 * h.clk.tbEntry.toNat + h.clk.tbFrac.toNat else 128 * h.bak.tbSave.toNat) +
    h.bak.retLsx * 3906250 + h.bak.retIrc * 16000

/-- The whole nanoseconds of the retained time. -/
def Hw.retained (h : Hw) : BitVec 64 := BitVec.ofNat 64 (h.retained128 / 128)

/-- The retention counter has counted `lsx` LSX edges and `irc` IRC periods more (R90 to R92). -/
def Hw.retain (h : Hw) (lsx irc : Nat) : Hw :=
  if h.clk.tbRun then h else { h with bak := { h.bak with retLsx := h.bak.retLsx + lsx, retIrc := h.bak.retIrc + irc } }

/-- An armed alarm that the retained time has reached in SLEEP fires (R328). -/
def Hw.almRetained (h : Hw) : Hw :=
  if h.pwr.sleep = .sleep && h.on TMR_TB_ALM_CTL.ARM && decide (h.almTime ≤ h.retained.toNat) then h.almFire else h

/-- One IRC period of 125 ns passes for the retention counter, which counts LSX edges, or IRC periods once LSX has failed or stopped (R90 to
R92). -/
def Hw.retainIrc (h : Hw) : Hw :=
  if h.clk.tbRun then h
  else if h.bak.lsxRun && !h.on CLK_STAT.LSX_FAIL then
    let t := h.bak.lsxFrac + 16000
    if t < 3906250 then { h with bak := { h.bak with lsxFrac := t } } else Hw.retain { h with bak := { h.bak with lsxFrac := t - 3906250 } } 1 0
  else if h.bak.retStop then h else h.retain 0 1

/-- A write of TB_CTL: with SET, TB takes TB_SET (R327). -/
def Hw.tbSet (h : Hw) (acc : Access) (v : Word) : Hw × AccRes := h.guarded acc [] (fun h =>
  if v.getLsbD 0 && h.clk.tbRun then (h.setTb (BitVec.ofNat 64 (h.get TMR_TB_SET_LO.VALUE + 2 ^ 32 * h.get TMR_TB_SET_HI.VALUE))).tbDue else h)

/-- A write of TB_ADJ: TB advances by its normal step and the signed value (R327). -/
def Hw.tbAdj (h : Hw) (acc : Access) (v : Word) : Hw × AccRes := h.guarded acc [] (fun h =>
  if h.clk.tbRun then
    let h := h.tbEdge
    Hw.tbDue { h with clk := { h.clk with tb := h.clk.tb + BitVec.ofInt 64 v.toInt } }
  else h)

/-! ### SLEEP (R329) and the Berm (R331) -/

/-- Whole PER_CLK periods in `lsx` LSX edges and `irc` IRC periods (R329, R92). -/
def Hw.elapsed (h : Hw) (lsx irc : Nat) : Nat := 2 * (lsx * 1000000000 + irc * 125 * 32768) / (32768 * max 1 (h.get CLK_DIV.PER_DIV))

/-- COUNT of GT `n` after `t` ticks, the wraps or reloads crossed, whether it stopped, and whether anything was missed. -/
def Hw.gtJump (h : Hw) (n t : Nat) : Nat × Nat × Bool × Bool :=
  let c := h.get (TMR_GT_COUNT.COUNT n)
  let e0 := h.on (TMR_GT_CTL.CMP0_EN n)
  let e1 := h.on (TMR_GT_CTL.CMP1_EN n)
  let k0 := h.get (TMR_GT_CMP0.VALUE n)
  let k1 := h.get (TMR_GT_CMP1.VALUE n)
  if h.on (TMR_GT_CFG.MODE_L n) then
    if t ≤ c then (c - t, 0, false, (e0 && c - t ≤ k0 && k0 < c) || (e1 && c - t ≤ k1 && k1 < c))
    else if h.on (TMR_GT_CFG.ONESHOT_L n) then (0, 1, true, true)
    else
      let p := h.get (TMR_GT_RELOAD.VALUE n)
      let r := t - c - 1
      (p - r % (p + 1), r / (p + 1) + 1, false, true)
  else
    let w := (c + t) / 2 ^ 32
    ((c + t) % 2 ^ 32, w, false, w != 0 || (e0 && c < k0 && k0 ≤ c + t) || (e1 && c < k1 && k1 ≤ c + t))

/-- The DUTY registers of PT `n` that drive an output: a pair leaves its second one unused (R321). -/
def Hw.ptDuties (h : Hw) (n : Nat) : List Nat :=
  (List.range 4).filter (fun k => !(k = 1 && h.on (TMR_PT_CFG.COMP01_L n)) && !(k = 3 && h.on (TMR_PT_CFG.COMP23_L n)))

/-- The ticks that bring PT `n` from its COUNT to its next period start (R319): in CENTER mode down from where it is once it counts down or
stands at or past PERIOD (log entry 86). -/
def Hw.ptToStart (h : Hw) (n p : Nat) : Nat :=
  let c := h.get (TMR_PT_COUNT.COUNT n)
  if h.on (TMR_PT_CFG.MODE_L n) then (if c != 0 && (h.on (TMR_PT_STAT.DIR n) || decide (p ≤ c)) then c else 2 * p - c)
  else if p ≤ c + 1 then 1 else p - c

/-- COUNT and direction of PT `n` after `t` ticks, the period starts crossed, and whether anything was missed; pending buffers
load at the first period start. -/
def Hw.ptJump (h : Hw) (n t : Nat) : Hw × Nat × Bool × Nat × Bool :=
  let c := h.get (TMR_PT_COUNT.COUNT n)
  let center := h.on (TMR_PT_CFG.MODE_L n)
  let p := max 1 (h.get (TMR_PT_PERIOD_ACT.VALUE n))
  let first := h.ptToStart n p
  if t = 0 then (h, c, h.on (TMR_PT_STAT.DIR n), 0, false)
  else if t < first then
    let down := center && first = c
    let q := c + t
    let v := if down then c - t else if center && p < q then 2 * p - q else q
    let peak := if down then c else if center then min q p else q
    let ev := h.get (TMR_PT_EVCMP_ACT.VALUE n)
    let duties := (h.ptDuties n).map (fun k => h.get (TMR_PT_DUTY_ACT.VALUE n k))
    (h, v, down || (center && p < q), 0,
      (c < ev && ev ≤ peak) || duties.any (fun d => decide (c < d) != decide (v < d) || decide (c < d) != decide (peak < d)))
  else
    let h := if h.on (TMR_PT_CTL.HOLD n) then h else
      let was := h.on (TMR_PT_STAT.LOADED n)
      (h.ptLoad n).put (TMR_PT_STAT.LOADED n) was
    let p := max 1 (h.get (TMR_PT_PERIOD_ACT.VALUE n))
    let cyc := if center then 2 * p else p
    let q := (t - first) % cyc
    (h, if center && p < q then 2 * p - q else q, center && (q = 0 || p < q), (t - first) / cyc + 1, true)

/-- One timer is caught up by `e` elapsed PER_CLK periods (R329); a frozen one resumes where it stopped (R330). -/
def Hw.tmrCatchup (h : Hw) (e t : Nat) : Hw :=
  let catchup := if t < 16 then h.on (TMR_GT_CFG.CATCHUP_L t) else h.on (TMR_PT_CFG.CATCHUP_L (t - 16))
  let wraps : Fld := if t < 16 then TMR_GT_SLEEP.WRAPS t else TMR_PT_STAT.WRAPS (t - 16)
  if !h.on (tmrRun t) || h.tmrFrozen t then h
  else if !catchup then h.set wraps 0
  else
    let k := h.tmrPhase t + e
    let d := h.tmrPre t + 1
    let h := h.setPhase t (k % d)
    let miss := fun (h : Hw) (b : Bool) => if b then h.set TMR_MISSED.TIMERS (setBit (h.get TMR_MISSED.TIMERS) t true) else h
    if t < 16 then
      let j := h.gtJump t (k / d)
      let h := (h.set (TMR_GT_COUNT.COUNT t) j.1).set wraps (satU 8 j.2.1)
      let h := if j.2.1 != 0 && h.on (TMR_GT_CFG.MODE_L t) && !j.2.2.1 then h.set (TMR_GT_RLD_ACT.VALUE t) (h.get (TMR_GT_RELOAD.VALUE t)) else h
      miss (if j.2.2.1 then h.clr (tmrRun t) else h) j.2.2.2
    else
      let j := h.ptJump (t - 16) (k / d)
      let h := ((j.1.set (TMR_PT_COUNT.COUNT (t - 16)) j.2.1).put (TMR_PT_STAT.DIR (t - 16)) j.2.2.1).set wraps (satU 8 j.2.2.2.1)
      let r := rawOf (fun k => h.get (TMR_PT_DUTY_ACT.VALUE (t - 16) k)) j.2.1
      miss (h.ptDrive (t - 16) r e) j.2.2.2.2

/-- Every running timer is caught up, or resumes from its held count (R329). -/
def Hw.tmrWake (h : Hw) (lsx irc : Nat) : Hw := (List.range 20).foldl (fun h t => h.tmrCatchup (h.elapsed lsx irc) t) h

/-- Every timer stops as if RUN were cleared (R331). -/
def Hw.tmrBerm (h : Hw) : Hw := h.tmrSetAll (2 ^ 20 - 1) false

/-! ### Commits (R332) -/

/-- The first offence of the captured TMR values: REASON and timer; RUN counts as it stood at the boundary edge (R332, R428). -/
def Hw.tmrCheck (h : Hw) : Option (Nat × Nat) :=
  ((List.range 20).find? (fun t => h.cap (tmrRun t) != 0 && h.tmrChanges t)).map (fun t => (1, t))

/-! ### Register accesses -/

/-- The timer that TMR register `adr` belongs to, if one. -/
def tmrOf (adr : Nat) : Option Nat :=
  let o := adr - 0x200D0000
  if 0x400 ≤ o && o < 0x800 then some ((o - 0x400) / 0x40)
  else if 0x800 ≤ o && o < 0xA00 then some (16 + (o - 0x800) / 0x80) else none

/-- The TIDs beside T0 that may write TMR register `adr` (R332). -/
def Hw.tmrTids (h : Hw) (adr : Nat) : List Nat :=
  match tmrOf adr with
  | some t => if adr % (if t < 16 then 0x40 else 0x80) = 4 then [] else [h.tmrOwner t]
  | none => []

/-- A write in the TMR window. -/
def Hw.tmrWrite (h : Hw) (acc : Access) (adr : Nat) (v : Word) : Hw × AccRes :=
  let o := adr - 0x200D0000
  if o = 0 then h.tmrStart acc v
  else if o = 4 then h.tmrStop acc v
  else if o = 0x110 then h.tbSet acc v
  else if o = 0x114 then h.tbAdj acc v
  else if 0xE00 ≤ o && o < 0xE40 then
    let n := (o - 0xE00) / 0x20
    let k := o % 0x20
    if k < 0x10 then h.wdWrite acc n adr v else if k = 0x10 then h.wdKick acc n v else h.guarded acc [] (fun h => h.plainWrite adr v)
  else match tmrOf adr with
    | some t =>
      let k := if t < 16 then o % 0x40 else o % 0x80
      if k = 8 then h.tmrCtl acc t v
      else if k = 0xC then h.tmrCount acc t v
      else h.guarded acc (h.tmrTids adr) (fun h => h.plainWrite adr v)
    | none => h.guarded acc [] (fun h => h.plainWrite adr v)

/-- A read in the TMR window (R318, R326). -/
def Hw.tmrRead (h : Hw) (acc : Access) (adr : Nat) : Hw × RdRes :=
  let o := adr - 0x200D0000
  if o = 0x100 then h.tbRead acc
  else if o = 0x104 then (h, .word (BitVec.ofNat 32 (h.snap acc.who grpTb).1))
  else match tmrOf adr with
    | some t =>
      if t < 16 then
        if o % 0x40 = 0x24 then h.capRead acc t
        else if o % 0x40 = 0x28 then (h, .word (BitVec.ofNat 32 (h.snap acc.who (grpCap t)).1))
        else if o % 0x40 = 0x2C then (h, .word (BitVec.ofNat 32 (h.snap acc.who (grpCap t)).2))
        else let r := h.plainRead adr; (r.1, .word r.2)
      else
        let r := h.plainRead adr
        (r.1, .word (if o % 0x80 = 0x2C then (TMR_PT_STAT.OUT (t - 16)).into r.2 (h.ptPins (t - 16)) else r.2))
    | none => let r := h.plainRead adr; (r.1, .word r.2)

/-! ### The commands -/

/-- GT_COMPARE_MATCH: a tick of GT `n` that matches a compare. -/
def execGtCompareMatch (n : Fin 16) (s : State) : Out := s.run (fun h =>
  h.when (h.tmrTicks n && (h.gtMatches n 0 || h.gtMatches n 1)) (fun h => h.gtTick n))

/-- GT_WRAP: the tick of a FREE GT from 0xFFFF_FFFF. -/
def execGtWrap (n : Fin 16) (s : State) : Out := s.run (fun h =>
  h.when (h.tmrTicks n && !h.on (TMR_GT_CFG.MODE_L n) && (h.gtNext n).2) (fun h => h.gtTick n))

/-- GT_RELOAD: the zero cycle of a DOWN GT. -/
def execGtReload (n : Fin 16) (s : State) : Out := s.run (fun h =>
  h.when (h.tmrTicks n && h.on (TMR_GT_CFG.MODE_L n) && (h.gtNext n).2) (fun h => h.gtTick n))

/-- COUNT_WRITE. -/
def execCountWrite (acc : Access) (t : Fin 20) (v : Word) (s : State) : Out := s.onBusBy acc (fun h => (h.tmrCount acc t v).1)

/-- The ball that can carry GTn_IN (table "GPIO functions"). -/
def gtInBall (n : Nat) : Nat := if n < 14 then 2 * n else 2 * n + 16

/-- GT_CAPTURE: an edge of pin GTn_IN, where a ball carries it (R468), rising or falling, has passed synchronisation and filter; edges of the other inputs register as
they arise (R317). -/
def execGtCapture (n : Fin 16) (s : State) (falling : Bool := false) : Out := s.run (fun h =>
  h.when (h.gtWatches n capPin falling && h.ballFn (gtInBall n) 2) (fun h => h.gtCapture n))

/-- CAP_READ. -/
def execCapRead (acc : Access) (n : Fin 16) (s : State) : Out := s.onBusBy acc (fun h => Hw.answered (h.capRead acc n))

/-- PT_PERIOD_START: the tick of PT `n` that produces 0. -/
def execPtPeriodStart (n : Fin 4) (s : State) : Out := s.run (fun h =>
  h.when (h.tmrTicks (16 + n) && h.ptStarts n) (fun h => h.ptTick n))

/-- PT_DUTY_MATCH: a tick of PT `n` at which a raw signal falls. -/
def execPtDutyMatch (n : Fin 4) (s : State) : Out := s.run (fun h =>
  h.when (h.tmrTicks (16 + n) && h.ptFalls n) (fun h => h.ptTick n))

/-- DEAD_TIME_EXPIRY: the delayed rise of output `o` takes place, on the last of its DT PER_CLK edges (R321); a frozen PT holds its
levels (R330). -/
def execDeadTimeExpiry (n : Fin 4) (o : Fin 4) (s : State) : Out := s.run (fun h =>
  h.when (h.tmrCounts (16 + n) && tget 0 (h.pt n).wait o = 1) (fun h => h.setPt n ((h.pt n).level o true)))

/-- PT_EVCMP_MATCH: a tick of PT `n` that matches EVCMP counting up. -/
def execPtEvcmpMatch (n : Fin 4) (s : State) : Out := s.run (fun h =>
  h.when (h.tmrTicks (16 + n) && h.ptEvMatch n) (fun h => h.ptTick n))

/-- RUN_WRITE: a write of CTL of timer `t`. -/
def execRunWrite (acc : Access) (t : Fin 20) (v : Word) (s : State) : Out := s.onBusBy acc (fun h => (h.tmrCtl acc t v).1)

/-- TMR_START. -/
def execTmrStart (acc : Access) (v : Word) (s : State) : Out := s.onBusBy acc (fun h => (h.tmrStart acc v).1)

/-- TMR_STOP. -/
def execTmrStop (acc : Access) (v : Word) (s : State) : Out := s.onBusBy acc (fun h => (h.tmrStop acc v).1)

/-- TBS_FIRE: TB has reached the armed start time. -/
def execTbsFire (s : State) : Out := s.run (fun h => h.when (h.blockOn 0xD && h.clk.tbRun && h.on TMR_TBS_CTL.ARM) (fun h => h.tbReach h.tbsTime))

/-- TB_READ: a read of TB_LO. -/
def execTbRead (acc : Access) (s : State) : Out := s.onBusBy acc (fun h => Hw.answered (h.tbRead acc))

/-- TB_ALARM: TB has reached the armed alarm time; in SLEEP the retained time is compared, with the LSX edges and IRC periods that the
retention counter counted since it was last brought up to date (R328). -/
def execTbAlarm (s : State) (lsx irc : Nat := 0) : Out := s.run (fun h => h.when (h.mainUp && h.on TMR_TB_ALM_CTL.ARM) (fun h =>
  if h.clk.tbRun then h.tbReach h.almTime
  else (h.retain lsx irc).almRetained))

/-- One tick of timer `t` on the PER_CLK edge that comes. -/
def Hw.tmrTick (h : Hw) (t : Nat) : Hw := if t < 16 then h.gtTick t else h.ptTick (t - 16)

/-- A PER_CLK edge passes for timer `t`, which counts: its tick, or one edge more of its prescaler (R311) and its dead times (R321). -/
def Hw.tmrEdge (h : Hw) (t : Nat) : Hw :=
  if h.tmrPre t ≤ h.tmrPhase t then h.tmrTick t
  else
    let h := h.setPhase t (h.tmrPhase t + 1)
    if t < 16 then h else h.ptPass (t - 16)

/-- A PER_CLK edge passes for the timers that `counts` names: pulses end, and every such timer has its edge, PTs before the GTs that
capture their events with the count held before it (R312, R316, R317). -/
def Hw.tmrEdges (h : Hw) (counts : Nat → Bool) : Hw :=
  let h := (List.range 20).foldl (fun h t => h.setEv t false) h
  ((List.range 20).reverse).foldl (fun h t => if counts t then h.tmrEdge t else h) h

/-- TIMER_TICK: a tick of timer `t` without a match, wrap, reload, falling output or period start. -/
def execTimerTick (t : Fin 20) (s : State) : Out := s.run (fun h => h.when (h.tmrTicks t) (fun h =>
  if t.val < 16 then h.when (!h.gtMatches t 0 && !h.gtMatches t 1 && !(h.gtNext t).2) (fun h => h.gtTick t)
  else
    let n := t.val - 16
    h.when (!h.ptStarts n && !h.ptFalls n && !h.ptEvMatch n) (fun h => h.ptTick n)))

end Sys2Proof.Machine
end

