-- ==== Sys2Proof/Machine/Serial.lean ====
section
/-! DEFINITION. UART, CAN FD, SPI, I2C and xSPI (spec/14_serial.md); unit 6 of the UARTs is PU on the Polder island
(spec/16_polder_island.md R394). -/

namespace Sys2Proof.Machine

/-- A read that changes state is accepted from the listed TIDs and from T0 (R485). -/
def Hw.guardedR (h : Hw) (a : Access) (tids : List Nat) (f : Hw → Hw × Word) : Hw × RdRes :=
  if a.tid = 0 || tids.contains a.tid.toNat then ((f h).1, .word (f h).2) else (h, .owner)

/-- A read with no effect of its own. -/
def Hw.plainRes (h : Hw) (adr : Nat) : Hw × RdRes := ((h.plainRead adr).1, .word (h.plainRead adr).2)

/-- A pop of an empty FIFO where the spec states no value: a free value. -/
def Hw.freeWord (h : Hw) : Hw × Word := (h.drawn, h.free)

/-! ### UART (R333 to R341) -/

/-- Register `a` of U0 as unit `u` has it. -/
def ua (a : Nat → Nat) (u : Nat) : Nat := if u < 6 then a u else POL_PU_CFG + (a 0 - UART_CFG 0)

/-- Field `f` of U0's layout in unit `u`. -/
def uf (f : Nat → Fld) (u : Nat) : Fld := { f 0 with adr := if u < 6 then (f u).adr else POL_PU_CFG + ((f 0).adr - UART_CFG 0) }

def Hw.uart (h : Hw) (u : Nat) : Uart := tget {} h.uarts u

/-- Unit `u` is `x`: levels and idle flags follow, and RTS (R340). -/
def Hw.setUart (h : Hw) (u : Nat) (x : Uart) : Hw :=
  let n := x.rx.length
  let x := { x with rts := h.on (uf UART_CFG.FLOW u) && (28 ≤ n || (x.rts && 24 < n)) }
  ({ h with uarts := tput {} h.uarts u x }).sets
    [(uf UART_FIFO.RXLVL u, n), (uf UART_FIFO.TXLVL u, x.tx.length), (uf UART_STAT.TXIDLE u, b2n x.cur.isNone), (uf UART_STAT.RXIDLE u, b2n (!x.recv))]

/-- The unit runs: it has its clock and is enabled. -/
def Hw.uartOn (h : Hw) (u : Nat) : Bool := (if u < 6 then h.blockOn 0xE else h.islandUp) && h.on (uf UART_CFG.EN u)

/-- The TIDs beside T0 that reach unit `u`: its OWNER in force (R341, R394). -/
def Hw.uartTids (h : Hw) (u : Nat) : List Nat := [h.get (uf UART_OWNER.TID_L u)]

/-- A write of DATA (R339). -/
def Hw.uartPush (h : Hw) (acc : Access) (u : Nat) (v : Word) : Hw × AccRes := h.guarded acc (h.uartTids u) (fun h =>
  let x := h.uart u
  if 32 ≤ x.tx.length then h.up (uf UART_STAT.TXOVR u) else h.setUart u { x with tx := x.tx ++ [v &&& 0x1FF] })

/-- A read of DATA (R339). -/
def Hw.uartPop (h : Hw) (acc : Access) (u : Nat) : Hw × RdRes := h.guardedR acc (h.uartTids u) (fun h =>
  let x := h.uart u
  match x.rx with
  | [] => (h, 0x80000000)
  | w :: t => (h.setUart u { x with rx := t }, w))

/-- A character, with its flags, arrives at the RX FIFO (R337, R339). -/
def Hw.uartStore (h : Hw) (u : Nat) (w : Word) : Hw :=
  let x := { h.uart u with recv := false }
  if 32 ≤ x.rx.length then (h.setUart u x).up (uf UART_STAT.OVR u) else h.setUart u { x with rx := x.rx ++ [w] }

/-- The parity bit of `d` that the format asks for (R333). -/
def parityOf (kind d n : Nat) : Bool :=
  let odd := ((List.range n).filter (fun i => bitOf d i)).length % 2 = 1
  match kind with
  | 1 => odd
  | 2 => !odd
  | 3 => true
  | _ => false

/-- The frame that sends character `d`: start bit, DATA bits from the least significant, parity if any, STOP2 + 1 stop bits (R333). -/
def Hw.uartBits (h : Hw) (u d : Nat) : List Bool :=
  let n := h.get (uf UART_CFG.DATA u)
  let k := h.get (uf UART_CFG.PARITY u)
  false :: (List.range n).map (bitOf d) ++ (if k = 0 then [] else [parityOf k (d % 2 ^ n) n]) ++
    List.replicate (h.get (uf UART_CFG.STOP2 u) + 1) true

/-- The samples of a frame after its start bit: data, parity and the first stop bit (R333, R337). -/
def Hw.uartFrame (h : Hw) (u d : Nat) (par stop : Bool) : Hw :=
  let n := h.get (uf UART_CFG.DATA u)
  let k := h.get (uf UART_CFG.PARITY u)
  let d := d % 2 ^ n
  let pe := k != 0 && par != parityOf k d n
  let brk := d = 0 && !stop && (k = 0 || !par)
  let h := ((h.upIf pe (uf UART_STAT.PE_SEEN u)).upIf (!stop) (uf UART_STAT.FE_SEEN u)).upIf brk (uf UART_STAT.BRK_SEEN u)
  h.uartStore u (BitVec.ofNat 32 (d + b2n pe * 2 ^ 9 + b2n (!stop) * 2 ^ 10 + b2n brk * 2 ^ 11))

/-- A write of CFG or BAUD (R341). -/
def Hw.uartCfg (h : Hw) (acc : Access) (u : Nat) (baud : Bool) (v : Word) : Hw × AccRes := h.guarded acc (h.uartTids u) (fun h =>
  if h.on (uf UART_CFG.EN u) then
    let h := h.up (uf UART_STAT.CFG_REJ u)
    if baud || v.getLsbD 0 then h else (h.clr (uf UART_CFG.EN u)).setUart u { h.uart u with recv := false }
  else
    let h := h.plainWrite (ua (if baud then UART_BAUD else UART_CFG) u) v
    h.setUart u (h.uart u))

/-- A write of CTL: BREAK holds TX low; the flushes empty their FIFOs (R339). -/
def Hw.uartCtl (h : Hw) (acc : Access) (u : Nat) (v : Word) : Hw × AccRes := h.guarded acc (h.uartTids u) (fun h =>
  let h := h.put (uf UART_CTL.BREAK u) (v.getLsbD 0)
  let x := h.uart u
  let x := if v.getLsbD 1 then { x with rx := [] } else x
  h.setUart u (if v.getLsbD 2 then { x with tx := [] } else x))

/-- The level of TX, where this model knows it: low in a break, high on an idle line; within a character it goes as the bits do (R333). -/
def Hw.uartTx (h : Hw) (u : Nat) : Option Bool :=
  if h.on (uf UART_CTL.BREAK u) then some false else if (h.uart u).cur.isNone then some true else none

/-- A unit is cut: its character and frame in progress are lost (R354). -/
def Hw.uartCut (h : Hw) (u : Nat) : Hw := h.setUart u { h.uart u with cur := none, recv := false }

/-- The unit that UART register `adr` belongs to. -/
def uartOf (adr : Nat) : Nat := if adr < 0x30000000 then (adr - UART_CFG 0) / 0x100 else 6

/-- A write of a UART register. -/
def Hw.uartWrite (h : Hw) (acc : Access) (adr : Nat) (v : Word) : Hw × AccRes :=
  let u := uartOf adr
  let o := adr % 0x100
  if o = 0 then h.uartCfg acc u false v
  else if o = 4 then h.uartCfg acc u true v
  else if o = 8 then h.uartPush acc u v
  else if o = 0x18 then h.uartCtl acc u v
  else h.guarded acc (if o = 0x20 then [] else h.uartTids u) (fun h => h.plainWrite adr v)

/-- A read of a UART register. -/
def Hw.uartRead (h : Hw) (acc : Access) (adr : Nat) : Hw × RdRes :=
  if adr % 0x100 = 8 then h.uartPop acc (uartOf adr) else h.plainRes adr

/-! ### CAN FD (R342 to R346) -/

def Hw.can (h : Hw) (n : Nat) : Can := tget {} h.cans n

/-- The controller's state is `x`; LEVEL and RXNE follow. -/
def Hw.setCan (h : Hw) (n : Nat) (x : Can) : Hw :=
  ({ h with cans := tput {} h.cans n x }).sets [(CAN_RXF.LEVEL n, x.rxf.length), (CAN_STAT.RXNE n, b2n (x.rxf != []))]

/-- The controller takes part on the bus: it runs, is not in bus-off, and has seen its 11 recessive bits after a wake (R346, R354). -/
def Hw.canOn (h : Hw) (n : Nat) : Bool := h.blockOn 0xF && h.on (CAN_CTL.EN n) && h.get (CAN_ECR.STATE n) != 2 && !(h.can n).wait

/-- TEC and REC take these values and the error state follows the standard (R346): bus-off above 255, passive above 127. -/
def Hw.canCount (h : Hw) (n tec rec : Nat) : Hw :=
  let st := if 255 < tec then 2 else if 127 < tec || 127 < rec then 1 else 0
  (h.sets [(CAN_ECR.TEC n, min tec 255), (CAN_ECR.REC n, min rec 255), (CAN_ECR.STATE n, st)]).upIf (st != h.get (CAN_ECR.STATE n)) (CAN_STAT.STATE_CHG n)

/-- The word at offset `o` of transmit buffer `k`. -/
def canBuf (n k o : Nat) : Nat := CAN_TXBUF n (20 * k + o / 4)

/-- The identifier of an identifier word as it is compared: a standard one is bits [28:18] alone. -/
def canId (w : Word) : Nat := if w.getLsbD 29 then w.toNat % 2 ^ 29 else w.toNat % 2 ^ 29 / 2 ^ 18 * 2 ^ 18

/-- The buffer that is sent next: the lowest identifier, then the lowest number (R344). -/
def Hw.canNext (h : Hw) (n : Nat) : Option Nat :=
  let idOf := fun k => canId (h.rd (canBuf n k 0))
  (List.range 16).foldl (fun (m : Option Nat) k =>
    if bitOf (h.get (CAN_TXREQ.BUF n)) k then
      match m with
      | some j => if idOf k < idOf j then some k else m
      | none => some k
    else m) none

/-- Buffer `k` is no longer pending. -/
def Hw.canDone (h : Hw) (n k : Nat) : Hw := h.set (CAN_TXREQ.BUF n) (setBit (h.get (CAN_TXREQ.BUF n)) k false)

/-- No frame of this controller is on the bus. -/
def Hw.canOff (h : Hw) (n : Nat) : Hw := h.setCan n { h.can n with bus := none, cancel := false }

/-- The frame on the bus is cut (R354): it has neither gone through nor met an error, so its buffer stays pending, unless TXCANCEL named it
(DESIGN CHOICE, log entry 148). -/
def Hw.canCut (h : Hw) (n : Nat) : Hw :=
  match (h.can n).bus with
  | some k => (h.when (h.can n).cancel (fun h => h.canDone n k)).canOff n
  | none => h

/-- The controller leaves the bus: its frame is cut, and of another's it sees no more (R354). -/
def Hw.canLeave (h : Hw) (n : Nat) (wait : Bool) : Hw :=
  let h := h.canCut n
  h.setCan n { h.can n with busy := false, wait := wait }

/-- The level of TX, where this model knows it: recessive while no frame is on the bus, and where the mode drives none (R342). -/
def Hw.canTx (h : Hw) (n : Nat) : Option Bool :=
  if h.get (CAN_CTL.MODE n) = 1 || h.get (CAN_CTL.MODE n) = 3 || ((h.can n).bus.isNone && !(h.can n).busy) then some true else none

/-- A free bus takes the next pending buffer in NORMAL and LOOPBACK (R342, R344).
DESIGN CHOICE (log entry 149): with no frame known on the bus, a buffer reaches it as soon as it is pending. -/
def Hw.canKick (h : Hw) (n : Nat) : Hw :=
  if h.canOn n && (h.get (CAN_CTL.MODE n) = 0 || h.get (CAN_CTL.MODE n) = 3) && (h.can n).bus.isNone && !(h.can n).busy then
    h.setCan n { h.can n with bus := h.canNext n, cancel := false }
  else h

/-- A frame that did not go through is retried, unless ONESHOT = 1 (R344); TXCANCEL during it withdraws it now (DESIGN CHOICE, log entry 148). -/
def Hw.canRetry (h : Hw) (n k : Nat) : Hw :=
  let h := h.when (h.can n).cancel (fun h => h.canDone n k)
  if (h.rd (canBuf n k 4)).getLsbD 16 then (h.canDone n k).up (CAN_STAT.ONESHOT_FAIL n) else h

/-- A frame of buffer `k` has been sent, or has failed (R344, R346); one that lost arbitration leaves another's on the bus. -/
def Hw.canSent (h : Hw) (n k : Nat) (r : CanSent) (tb : DWord) : Hw :=
  let tec := h.get (CAN_ECR.TEC n)
  let rec' := h.get (CAN_ECR.REC n)
  match r with
  | .sent =>
    let h := (h.wr (canBuf n k 8) (tb.truncate 32)).wr (canBuf n k 12) ((tb >>> 32).truncate 32)
    ((((h.canDone n k).up (CAN_STAT.TXDONE n)).canCount n (tec - 1) rec').canOff n).canKick n
  | .lost =>
    let h := (h.canRetry n k).canOff n
    h.setCan n { h.can n with busy := true }
  | .error => ((((h.up (CAN_STAT.PROT_ERR n)).canCount n (tec + 8) rec').canRetry n k).canOff n).canKick n
  | .noAck =>
    ((((h.up (CAN_STAT.PROT_ERR n)).canCount n (if 127 < tec || 127 < rec' then tec else tec + 8) rec').canRetry n k).canOff n).canKick n

/-- The payload length that a DLC stands for (ISO 11898-1). -/
def dlcLen (dlc : Nat) (fd : Bool) : Nat :=
  if dlc ≤ 8 then dlc else if !fd then 8 else [12, 16, 20, 24, 32, 48, 64].getD (dlc - 9) 64

/-- The first enabled filter that matches an identifier word (R345); a standard identifier is bits [28:18] alone. -/
def Hw.canFilter (h : Hw) (n : Nat) (id : Word) : Option Nat :=
  (List.range 32).find? (fun f =>
    h.on (CAN_FILT.EN n f) && h.on (CAN_FILT.XTD n f) == id.getLsbD 29 &&
      (let bits := fun x => if id.getLsbD 29 then x else x / 2 ^ 18 * 2 ^ 18
       (bits (id.toNat % 2 ^ 29) ^^^ bits (h.get (CAN_FILT.ID n f))) &&& h.get (CAN_FILTMASK.MASK n f) == 0))

/-- An accepted frame enters the RX FIFO; what the spec does not state of its entry is free (R345). -/
def Hw.canStore (h : Hw) (n : Nat) (id ctrl : Word) (flt : Option Nat) (data : List Byte) (tb : DWord) : Hw :=
  let x := h.can n
  if 64 ≤ x.rxf.length then h.up (CAN_STAT.RXOVR n)
  else
    let d := data.take (dlcLen (ctrl.toNat % 16) (ctrl.getLsbD 4))
    let p := h.drawBytes (64 - d.length)
    let f := match flt with
      | some f => (p.1, f)
      | none => (p.1.drawn, p.1.free.toNat % 32)
    f.1.setCan n { x with rxf := x.rxf ++ [leBytes 4 id.toNat ++ leBytes 4 (ctrl.toNat % 64 + f.2 * 2 ^ 8) ++ leBytes 8 tb.toNat ++ d ++ p.2] }

/-- A frame ends on the bus (R345, R346): REC as the standard has it, where an error adds 8 if it follows the receiver's own error flag or
spoils a flag, else 1; LISTEN and RESTRICTED leave it. -/
def Hw.canReceived (h : Hw) (n : Nat) (id ctrl : Word) (data : List Byte) (tb : DWord) (err eight : Bool) : Hw :=
  let rec' := h.get (CAN_ECR.REC n)
  let counts := h.get (CAN_CTL.MODE n) = 0
  let tec := h.get (CAN_ECR.TEC n)
  if err || (ctrl.getLsbD 4 && !h.on (CAN_CTL.FDOE n)) then (h.up (CAN_STAT.PROT_ERR n)).when counts (fun h => h.canCount n tec (rec' + if err && eight then 8 else 1))
  else
    let h := if !counts then h else if 127 < rec' then h.drawn.canCount n tec (119 + h.free.toNat % 9) else h.canCount n tec (rec' - 1)
    match h.canFilter n id with
    | some f => if h.on (CAN_FILT.REJECT n f) then h else h.canStore n id ctrl (some f) data tb
    | none => if h.on (CAN_CTL.NOMATCH n) then h.canStore n id ctrl none data tb else h

/-- The offset of a CAN register within its controller. -/
def canOfs (adr : Nat) : Nat := (adr - CAN_CTL 0) % 0x4000

/-- A write of CTL: MODE alone is a configuration that EN = 1 keeps; RECOVER starts recovery (R346). -/
def Hw.canCtl (h : Hw) (n : Nat) (v : Word) : Hw :=
  let m := h.get (CAN_CTL.MODE n)
  let en := h.on (CAN_CTL.EN n)
  let h := h.plainWrite (CAN_CTL n) v
  let h := if en && h.get (CAN_CTL.MODE n) != m then (h.set (CAN_CTL.MODE n) m).up (CAN_STAT.CFG_REJ n) else h
  let h := if v.getLsbD 8 && h.get (CAN_ECR.STATE n) = 2 then h.setCan n { h.can n with recov := true } else h
  if h.on (CAN_CTL.EN n) then h.canKick n else h.canLeave n false

/-- TXCANCEL withdraws the buffers that have not reached the bus; the one on it completes or fails (R344). -/
def Hw.canCancel (h : Hw) (n : Nat) (v : Word) : Hw :=
  let x := h.can n
  let on := fun k => x.bus == some k
  let h := h.set (CAN_TXREQ.BUF n) ((List.range 16).foldl (fun m k => if bitOf v.toNat k && !on k then setBit m k false else m) (h.get (CAN_TXREQ.BUF n)))
  if (List.range 16).any (fun k => bitOf v.toNat k && on k) then h.setCan n { x with cancel := true } else h

/-- A write of a CAN register (R341, R344 to R346). -/
def Hw.canWrite (h : Hw) (acc : Access) (adr : Nat) (v : Word) : Hw × AccRes :=
  let n := (adr - CAN_CTL 0) / 0x4000
  let o := canOfs adr
  h.guarded acc (if o = 0x3000 then [] else [h.get (CAN_OWNER.TID_L n)]) (fun h =>
    if o = 0 then h.canCtl n v
    else if (o = 4 || o = 8 || o = 0xC || (0x100 ≤ o && o < 0x200)) && h.on (CAN_CTL.EN n) then h.up (CAN_STAT.CFG_REJ n)
    else if o = 0x1C then (h.plainWrite adr v).canKick n
    else if o = 0x20 then h.canCancel n v
    else if o = 0x24 then (if v.getLsbD 8 then h.setCan n { h.can n with rxf := (h.can n).rxf.drop 1 } else h)
    else h.plainWrite adr v)

/-- A read of a CAN register: RXHEAD shows the head of the RX FIFO. -/
def Hw.canRead (h : Hw) (adr : Nat) : Hw × RdRes :=
  let o := canOfs adr
  if 0x2000 ≤ o && o < 0x2050 then
    (h, .word (BitVec.ofNat 32 (fieldB (((h.can ((adr - CAN_CTL 0) / 0x4000)).rxf.head?).getD []) (o - 0x2000) 4)))
  else h.plainRes adr

/-! ### SPI (R347) -/

def Hw.spi (h : Hw) (n : Nat) : Spi := tget {} h.spis n
def Hw.setSpi (h : Hw) (n : Nat) (x : Spi) : Hw :=
  ({ h with spis := tput {} h.spis n x }).sets [(SPI_STAT.TXLVL n, x.tx.length), (SPI_STAT.RXLVL n, x.rx.length)]

def Hw.spiOn (h : Hw) (n : Nat) : Bool := h.blockOn 0x10 && h.on (SPI_CFG.EN n)

/-- No frame is in progress and no chip select asserted. -/
def Hw.spiStop (h : Hw) (n : Nat) : Hw := h.setSpi n { h.spi n with cur := none, sel := false }

/-- The bits of a frame that sends `w` in their order: the most significant first unless LSBF = 1 (R347). -/
def Hw.spiBits (h : Hw) (n : Nat) (w : Word) : List Bool :=
  let l := (List.range (h.get (SPI_CFG.LEN n) + 1)).map w.getLsbD
  if h.on (SPI_CFG.LSBF n) then l else l.reverse

/-- The level of pin `j` of the port, where this model knows it: of a master SCK at rest and the chip selects, asserted low (R347; log
entry 167). -/
def Hw.spiPin (h : Hw) (n j : Nat) : Option Bool :=
  let x := h.spi n
  if h.on (SPI_CFG.SLAVE n) || !h.on (SPI_CFG.EN n) then none
  else if j = 0 then (if x.cur.isNone then some (h.on (SPI_CFG.CPOL n)) else none)
  else if 3 ≤ j then some (!(x.sel && h.get (SPI_CFG.CS n) = j - 3)) else none

/-- A write of an SPI register: while EN = 1 a write of CFG changes only EN. -/
def Hw.spiWrite (h : Hw) (acc : Access) (adr : Nat) (v : Word) : Hw × AccRes :=
  let n := (adr - SPI_CFG 0) / 0x100
  let o := adr % 0x100
  h.guarded acc (if o = 0x14 then [] else [h.get (SPI_OWNER.TID_L n)]) (fun h =>
    if o = 0 && h.on (SPI_CFG.EN n) then (if v.getLsbD 0 then h else (h.clr (SPI_CFG.EN n)).spiStop n)
    else if o = 8 then (if (h.spi n).tx.length < 16 then h.setSpi n { h.spi n with tx := (h.spi n).tx ++ [v] } else h)
    else h.plainWrite adr v)

/-- A read of an SPI register: DATA pops. -/
def Hw.spiRead (h : Hw) (acc : Access) (adr : Nat) : Hw × RdRes :=
  let n := (adr - SPI_CFG 0) / 0x100
  if adr % 0x100 = 8 then h.guardedR acc [h.get (SPI_OWNER.TID_L n)] (fun h =>
    match (h.spi n).rx with
    | [] => h.freeWord
    | w :: t => (h.setSpi n { h.spi n with rx := t }, w))
  else h.plainRes adr

/-- A frame starts; a master asserts the chip select that CS names (R347). -/
def Hw.spiStart (h : Hw) (n : Nat) : Hw :=
  let x := h.spi n
  let slave := h.on (SPI_CFG.SLAVE n)
  let go := fun (w : Word) (t : List Word) => h.setSpi n { x with tx := t, cur := some w, bits := h.spiBits n w, sel := !slave }
  if x.cur.isSome then h
  else match x.tx with
    | w :: t => if slave || x.rx.length < 16 then go w t else h
    | [] => if slave then (go 0 []).up (SPI_STAT.UDR n) else h

/-- A frame ends with the word received; with CONT the chip select stays asserted while TX words follow (R347). -/
def Hw.spiEnd (h : Hw) (n : Nat) (w : Word) : Hw :=
  let x := h.spi n
  let x := { x with cur := none, sel := x.sel && h.on (SPI_CFG.CONT n) && x.tx != [] }
  let w := BitVec.ofNat 32 (w.toNat % 2 ^ (h.get (SPI_CFG.LEN n) + 1))
  if 16 ≤ x.rx.length then (h.setSpi n x).up (SPI_STAT.OVR n) else h.setSpi n { x with rx := x.rx ++ [w] }

/-! ### I2C (R348) -/

def Hw.i2c (h : Hw) (n : Nat) : I2c := tget {} h.i2cs n
def Hw.setI2c (h : Hw) (n : Nat) (x : I2c) : Hw := { h with i2cs := tput {} h.i2cs n x }

def Hw.i2cOn (h : Hw) (n : Nat) : Bool := h.blockOn 0x11 && h.on (I2C_CFG.EN n)

/-- As target, the port stretches SCL: its RX FIFO is full for a byte to come, or its TX FIFO empty for one to go (R348). -/
def I2c.stretches (x : I2c) : Bool := x.tin != [] || x.tout != 0

/-- The transfer with the target port goes on as far as its FIFOs let it (R348). -/
def I2c.serve (x : I2c) : I2c :=
  let room := 8 - x.rx.length
  let k := min x.tout x.cmds.length
  { x with rx := x.rx ++ x.tin.take room, tin := x.tin.drop room, cmds := x.cmds.drop k, tout := x.tout - k,
           sent := x.sent ++ (x.cmds.take k).map (·.truncate 8) }

/-- A byte received goes into the RX FIFO, or is lost with OVR. -/
def Hw.i2cStore (h : Hw) (n : Nat) (b : Byte) : Hw :=
  let x := h.i2c n
  if 8 ≤ x.rx.length then h.up (I2C_STAT.OVR n) else h.setI2c n { x with rx := x.rx ++ [b] }

/-- A write of an I2C register. -/
def Hw.i2cWrite (h : Hw) (acc : Access) (adr : Nat) (v : Word) : Hw × AccRes :=
  let n := (adr - I2C_CFG 0) / 0x100
  let o := adr % 0x100
  h.guarded acc (if o = 0x20 then [] else [h.get (I2C_OWNER.TID_L n)]) (fun h =>
    if o = 0xC then (if (h.i2c n).cmds.length < 8 then h.setI2c n { h.i2c n with cmds := (h.i2c n).cmds ++ [v &&& 0xFFF] }.serve else h)
    else if o = 0x18 then (if v.getLsbD 0 then h.setI2c n { h.i2c n with held := false } else h)
    else if o = 0 && !v.getLsbD 0 then
      let h := h.plainWrite adr v
      h.setI2c n { h.i2c n with tin := [], tout := 0 }
    else h.plainWrite adr v)

/-- A read of an I2C register: RXDATA pops. -/
def Hw.i2cRead (h : Hw) (acc : Access) (adr : Nat) : Hw × RdRes :=
  let n := (adr - I2C_CFG 0) / 0x100
  if adr % 0x100 = 0x10 then h.guardedR acc [h.get (I2C_OWNER.TID_L n)] (fun h =>
    match (h.i2c n).rx with
    | [] => (h.drawn, h.free &&& 0xFF)
    | b :: t => (h.setI2c n { h.i2c n with rx := t }.serve, b.setWidth 32))
  else h.plainRes adr

/-- The command at the head of the FIFO is over: a lost arbitration, a NACK on a written byte, or a byte done. With neither START nor the
bus held no byte can go, and the entry waits (DESIGN CHOICE, log entry 168). -/
def Hw.i2cDone (h : Hw) (n : Nat) (nack arb : Bool) (b : Byte) : Hw :=
  let x := h.i2c n
  match x.cmds with
  | [] => h
  | e :: t =>
    if !e.getLsbD 8 && !x.held then h
    else if arb then (h.setI2c n { x with cmds := [], held := false }).up (I2C_STAT.ARBLOST n)
    else
      let x := if e.getLsbD 10 then x else { x with sent := [e.truncate 8] }
      if nack && !e.getLsbD 10 then (h.setI2c n { x with cmds := [], held := false }).up (I2C_STAT.NACKED n)
      else
        let h := h.setI2c n { x with cmds := t, held := !e.getLsbD 9 }
        (if e.getLsbD 10 then h.i2cStore n b else h).up (I2C_STAT.DONE n)

/-- The address on the bus is the port's own (R348): `ten` says that it has 10 bits. -/
def Hw.i2cOwn (h : Hw) (n : Nat) (ten : Bool) (a : BitVec 10) : Bool :=
  h.on (I2C_CFG.ADDR10 n) == ten && (if ten then a.toNat = h.get (I2C_CFG.ADDR n) else a.toNat % 128 = h.get (I2C_CFG.ADDR n) % 128)

/-- The target port is addressed: bytes written fill the RX FIFO as far as it has room, bytes read come from the command FIFO;
SCL is stretched for the rest. -/
def Hw.i2cTarget (h : Hw) (n : Nat) (bs : List Byte) (reads : Nat) : Hw :=
  h.setI2c n { h.i2c n with tin := bs, tout := reads, sent := [] }.serve

/-- The controller is cut where it holds the bus or an entry of its command FIFO is in progress (R354). -/
def Hw.i2cCut (h : Hw) (n : Nat) : Hw :=
  let x := h.i2c n
  h.setI2c n { x with cut := x.cut || x.held || x.stretches || (h.on (I2C_CFG.EN n) && !h.on (I2C_CFG.TARGET n) && x.cmds != []),
                      held := false, tin := [], tout := 0 }

/-- The controller runs again: BUS_CUT sets where it was cut (R354). -/
def Hw.i2cWake (h : Hw) (n : Nat) : Hw := (h.setI2c n { h.i2c n with cut := false }).upIf (h.i2c n).cut (I2C_STAT.BUS_CUT n)

/-! ### xSPI (R349 to R353) -/

/-- Line width codes of the mode in force for command, address and data. -/
def xspiWidths (mode : Nat) : Nat × Nat × Nat :=
  match mode with
  | 0 => (0, 0, 0)
  | 1 => (0, 0, 2)
  | 2 => (0, 2, 2)
  | 3 => (2, 2, 2)
  | _ => (3, 3, 3)

/-- The indirect command `v` is accepted: the link is up, no other runs, and its widths and DTR lie within the mode in force
(R350, R353). -/
def Hw.icmdOk (h : Hw) (v : Word) : Bool :=
  let m := h.get XSPI_NEG_RESULT.MODE
  let w := xspiWidths m
  !h.on XSPI_NEG_RESULT.LINK_FLOOR && h.xspi.cmd.isNone && XSPI_ICMD.CMD_W.of v ≤ w.1 && XSPI_ICMD.ADDR_W.of v ≤ w.2.1 &&
    XSPI_ICMD.DATA_W.of v ≤ w.2.2 && (!v.getLsbD 14 || m = 5)

/-- The command that runs takes what it still has to write from the FIFO (R350). -/
def Xspi.take (x : Xspi) : Xspi := { x with fifo := x.fifo.drop x.left, left := x.left - x.fifo.length }

/-- What the NVM has answered fills the 64-byte FIFO as far as it has room (R350). -/
def Xspi.fill (x : Xspi) : Xspi :=
  let room := 64 - x.fifo.length
  { x with fifo := x.fifo ++ x.inq.take room, inq := x.inq.drop room }

/-- A write of XSPI_ICMD (R350). -/
def Hw.icmd (h : Hw) (acc : Access) (v : Word) : Hw × AccRes := h.guarded acc [] (fun h =>
  if h.icmdOk v then
    let x := { h.xspi with cmd := some v, polling := v.getLsbD 22, tmo := false, left := if v.getLsbD 21 then XSPI_ICMD.LEN.of v + 1 else 0 }
    { h with xspi := x.take }.up XSPI_STAT.BUSY
  else h.up XSPI_STAT.ICMD_REJ)

/-- The command that runs ends: copies of the named window lines are invalidated, and line 212 asserts (R350, R352). -/
def Hw.icmdEnd (h : Hw) : Hw :=
  let a := 0x40000000 + h.get XSPI_IADDR.ADDR
  let k := h.get XSPI_INV_LEN.BYTES
  let keep := fun (e : Nat × List Byte) => k = 0 || e.1 < a / 64 || (a + k - 1) / 64 < e.1
  ({ h with xspi := { h.xspi with cmd := none, polling := false, tmo := false, left := 0, lines := h.xspi.lines.filter keep } }.clr
    XSPI_STAT.BUSY).up XSPI_STAT.DONE

/-- A write in the XSPI window: IDATA takes four bytes where the FIFO has room. -/
def Hw.xspiWrite (h : Hw) (acc : Access) (adr : Nat) (v : Word) : Hw × AccRes :=
  if adr = XSPI_ICMD then h.icmd acc v
  else h.guarded acc [] (fun h =>
    if adr = XSPI_IDATA then
      (if h.xspi.fifo.length + 4 ≤ 64 then { h with xspi := { h.xspi with fifo := h.xspi.fifo ++ leBytes 4 v.toNat }.take } else h)
    else h.plainWrite adr v)

/-- A read of IDATA pops four bytes; a command that waited only for room ends with its last byte (R350). -/
def Hw.idataPop (h : Hw) : Hw × Word :=
  if h.xspi.fifo.length < 4 then h.freeWord
  else
    let x := { h.xspi with fifo := h.xspi.fifo.drop 4 }.fill
    let g := { h with xspi := x }
    (if h.xspi.inq != [] && x.inq = [] then g.icmdEnd else g, BitVec.ofNat 32 (leNat (h.xspi.fifo.take 4)))

/-- A read in the XSPI window. -/
def Hw.xspiRead (h : Hw) (acc : Access) (adr : Nat) : Hw × RdRes :=
  if acc.tid != 0 then (h, .owner)
  else if adr = XSPI_IDATA then (h.idataPop.1, .word h.idataPop.2)
  else h.plainRes adr

/-- VDDIO_B1 is present: the NVM answers (R465). -/
def Hw.nvmThere (h : Hw) : Bool := bitOf (h.get GPIO_BANK_STAT.PRESENT) 0

/-- The NVM has done with the indirect command `v`: it holds `cells` anew, what it answered passes through the FIFO, and the command ends
where that has room for all of it (R350). Without its bank the NVM sees nothing, and what is read is free (R465; log entry 169). -/
def Hw.icmdDone (h : Hw) (v : Word) (data : List Byte) (cells : List Host.Cell) : Hw :=
  let n := XSPI_ICMD.LEN.of v + 1
  let r := if h.nvmThere then (h, data.take n) else if v.getLsbD 21 then (h, []) else h.drawBytes n
  let h := if h.nvmThere then { h with nvm := cellsIn 0xFF h.nvm (cells.filter (fun e => e.1 < 2 ^ 28)) } else r.1
  let x := { h.xspi with inq := if v.getLsbD 21 then [] else r.2, left := 0 }.fill
  let h := { h with xspi := x }
  if x.inq = [] then h.icmdEnd else h

/-- A read of window line `l` fills it in the L2 (R349); without the NVM's bank what is read is free (R465; log entry 169). -/
def Hw.windowFill (h : Hw) (l : Nat) : Hw :=
  let r := if h.nvmThere then (h, (List.range 64).map (fun i => mget (fun _ => 0xFF) h.nvm (64 * l + i - 0x40000000))) else h.drawBytes 64
  { r.1 with xspi := { h.xspi with lines := mins l r.2 h.xspi.lines } }

/-! ### SLEEP and gating (R354) -/

/-- The ports of window `w` stop at a clean boundary. -/
def Hw.serialStop (h : Hw) (w : Nat) : Hw :=
  match w with
  | 0xE => (List.range 6).foldl (fun h u => h.uartCut u) h
  | 0xF => [0, 1].foldl (fun h n => h.canLeave n (h.on (CAN_CTL.EN n))) h
  | 0x10 => (List.range 4).foldl (fun h n => h.spiStop n) h
  | 0x11 => (List.range 4).foldl (fun h n => h.i2cCut n) h
  | _ => h

/-- The ports of window `w` run again. -/
def Hw.serialWake (h : Hw) (w : Nat) : Hw :=
  match w with
  | 0xF => (h.canKick 0).canKick 1
  | 0x11 => (List.range 4).foldl (fun h n => h.i2cWake n) h
  | _ => h

/-! ### The commands -/

/-- An access to unit `u`: on the register bus, or to PU on the island (R394). -/
def State.onUart (s : State) (acc : Access) (u : Nat) (f : Hw → Hw) : Out :=
  if u < 6 then s.onBusBy acc f else s.onIsland acc f

/-- UART_TX_PUSH. -/
def execUartTxPush (acc : Access) (u : Fin 7) (v : Word) (s : State) : Out := s.onUart acc u (fun h => (h.uartPush acc u v).1)

/-- UART_RX_POP. -/
def execUartRxPop (acc : Access) (u : Fin 7) (s : State) : Out := s.onUart acc u (fun h => Hw.answered (h.uartPop acc u))

/-- A ball carries RX of unit `u`: PGPIO7 is PU's (R467, R469). Without one RX reads 1 (R468). -/
def Hw.uartRxBall (h : Hw) (u : Nat) : Bool := u = 6 || h.ballFn (4 * u + 1) 1

/-- A ball carries CTS of unit `u`; PU has none. Without one CTS reads 1 (R468; log entry 121). -/
def Hw.uartCtsBall (h : Hw) (u : Nat) : Bool := u < 6 && h.ballFn (4 * u + 3) 1

/-- UART_CHARACTER_START: the transmitter starts a character when the FIFO holds one and, with FLOW, CTS reads low (R340). -/
def execUartCharacterStart (u : Fin 7) (ctsLow : Bool) (s : State) : Out := s.run (fun h =>
  h.when (h.uartOn u && (h.uart u).cur.isNone && ((ctsLow && h.uartCtsBall u) || !h.on (uf UART_CFG.FLOW u))) (fun h =>
    match (h.uart u).tx with
    | w :: t =>
      let d := w.toNat % 2 ^ h.get (uf UART_CFG.DATA u)
      h.setUart u { h.uart u with tx := t, cur := some (BitVec.ofNat 32 d), bits := h.uartBits u d }
    | [] => h))

/-- UART_CHARACTER_SENT: the last stop bit has been sent; also where EN was cleared meanwhile (R341). -/
def execUartCharacterSent (u : Fin 7) (s : State) : Out := s.run (fun h =>
  h.when ((if u.val < 6 then h.blockOn 0xE else h.islandUp) && (h.uart u).cur.isSome) (fun h =>
    h.setUart u { h.uart u with cur := none, sent := (h.uart u).cur }))

/-- UART_START_DETECT: RX reads 0 after 1; a start sample of 1 makes it a glitch (R336). -/
def execUartStartDetect (u : Fin 7) (startSample : Bool) (s : State) : Out := s.run (fun h =>
  h.when (h.uartOn u && h.uartRxBall u && !(h.uart u).recv) (fun h =>
    if startSample then h.up (uf UART_STAT.GLITCH u) else h.setUart u { h.uart u with recv := true }))

/-- UART_FRAME_RECEIVED; where a change of FN has left no ball for RX, the stop sample reads 1 (R468). -/
def execUartFrameReceived (u : Fin 7) (data : BitVec 9) (par stop : Bool) (s : State) : Out := s.run (fun h =>
  h.when (h.uartOn u && (h.uart u).recv) (fun h => h.uartFrame u data.toNat par (stop || !h.uartRxBall u)))

/-- RXTO: no start edge for TOUT bit times while the RX FIFO holds data. -/
def execRxto (u : Fin 7) (s : State) : Out := s.run (fun h =>
  h.when (h.uartOn u && h.on (uf UART_TOUT.BITS u) && (h.uart u).rx != []) (fun h => h.up (uf UART_STAT.RXTO u)))

/-- UART_CFG_WRITE: a write of CFG, or of BAUD. -/
def execUartCfgWrite (acc : Access) (u : Fin 7) (baud : Bool) (v : Word) (s : State) : Out := s.onUart acc u (fun h => (h.uartCfg acc u baud v).1)

/-- RXFLUSH: a write of CTL with RXFLUSH, BREAK as it is. -/
def execRxflush (acc : Access) (u : Fin 7) (s : State) : Out := s.onUart acc u (fun h =>
  (h.uartCtl acc u (BitVec.ofNat 32 (2 + h.get (uf UART_CTL.BREAK u)))).1)

/-- TXFLUSH: a write of CTL with TXFLUSH, BREAK as it is. -/
def execTxflush (acc : Access) (u : Fin 7) (s : State) : Out := s.onUart acc u (fun h =>
  (h.uartCtl acc u (BitVec.ofNat 32 (4 + h.get (uf UART_CTL.BREAK u)))).1)

/-- UART_BREAK: a write of CTL.BREAK. -/
def execUartBreak (acc : Access) (u : Fin 7) (on : Bool) (s : State) : Out := s.onUart acc u (fun h => (h.uartCtl acc u (BitVec.ofNat 32 (b2n on))).1)

/-- TXREQ. -/
def execTxreq (acc : Access) (n : Fin 2) (v : Word) (s : State) : Out := s.onBusBy acc (fun h => (h.canWrite acc (CAN_TXREQ n) v).1)

/-- TXCANCEL. -/
def execTxcancel (acc : Access) (n : Fin 2) (v : Word) (s : State) : Out := s.onBusBy acc (fun h => (h.canWrite acc (CAN_TXCANCEL n) v).1)

/-- CAN_FRAME_SENT: the frame on the bus has ended there; `tb` is TB at its start-of-frame sample point. In NORMAL without a ball for RX
the controller reads 1 where it sends 0, an error (R468). -/
def execCanFrameSent (n : Fin 2) (r : CanSent) (tb : DWord) (s : State) : Out := s.run (fun h =>
  h.when (h.canOn n && (h.get (CAN_CTL.MODE n) = 0 || h.get (CAN_CTL.MODE n) = 3)) (fun h =>
    match (h.can n).bus with
    | some k => h.canSent n k (if h.get (CAN_CTL.MODE n) = 0 && !h.ballFn (25 + 2 * n) 1 then .error else r) tb
    | none => h))

/-- CAN_FRAME_RECEIVED: another node's frame, or an error in it, seen where a ball carries RX (R468). With `sof` only its start has been seen,
on an idle bus: until it ends nothing of ours starts (R344). At its end a buffer taken to be on the bus never was (log entry 149). -/
def execCanFrameReceived (n : Fin 2) (id ctrl : Word) (data : List Byte) (tb : DWord) (err : Bool) (s : State) (sof eight : Bool := false) : Out :=
  s.run (fun h => h.when (h.canOn n && h.ballFn (25 + 2 * n) 1 && h.get (CAN_CTL.MODE n) != 3) (fun h =>
    if sof then h.when (h.can n).bus.isNone (fun h => h.setCan n { h.can n with busy := true })
    else ((h.canReceived n id ctrl data tb err eight).canLeave n false).canKick n))

/-- RXF_POP. -/
def execRxfPop (acc : Access) (n : Fin 2) (s : State) : Out := s.onBusBy acc (fun h => (h.canWrite acc (CAN_RXF n) 0x100).1)

/-- RECOVER: a write of CTL.RECOVER, its other fields as they are. -/
def execRecover (acc : Access) (n : Fin 2) (s : State) : Out := s.onBusBy acc (fun h => (h.canWrite acc (CAN_CTL n) (h.rd (CAN_CTL n) ||| 0x100)).1)

/-- BUS_OFF_RECOVERY: 128 occurrences of 11 recessive bits, where AUTO_REC or RECOVER lets the controller rejoin (R346); the first of them,
with `once` all that has been seen, ends the wait after a wake (R354). -/
def execBusOffRecovery (n : Fin 2) (s : State) (once : Bool := false) : Out := s.run (fun h =>
  h.when (h.blockOn 0xF && h.on (CAN_CTL.EN n)) (fun h =>
    let h := h.when (h.can n).wait (fun h => (h.setCan n { h.can n with wait := false }).canKick n)
    h.when (!once && h.get (CAN_ECR.STATE n) = 2 && (h.on (CAN_CTL.AUTO_REC n) || (h.can n).recov)) (fun h =>
      ((h.setCan n { h.can n with recov := false }).canCount n 0 0).canKick n)))

/-- SPI_TX_PUSH. -/
def execSpiTxPush (acc : Access) (n : Fin 4) (v : Word) (s : State) : Out := s.onBusBy acc (fun h => (h.spiWrite acc (SPI_DATA n) v).1)

/-- SPI_RX_POP. -/
def execSpiRxPop (acc : Access) (n : Fin 4) (s : State) : Out := s.onBusBy acc (fun h => Hw.answered (h.spiRead acc (SPI_DATA n)))

/-- SPI_FRAME_START; a slave sees no clock where no ball carries SCK (R468). -/
def execSpiFrameStart (n : Fin 4) (s : State) : Out := s.run (fun h =>
  h.when (h.spiOn n && (h.ballFn (28 + 7 * n) 1 || !h.on (SPI_CFG.SLAVE n))) (fun h => h.spiStart n))

/-- SPI_FRAME_END with the word received; a data input that no ball carries reads 0 (R468). -/
def execSpiFrameEnd (n : Fin 4) (v : Word) (s : State) : Out := s.run (fun h => h.when (h.spiOn n && (h.spi n).cur.isSome) (fun h =>
  h.spiEnd n (if h.ballFn (30 + 7 * n - b2n (h.on (SPI_CFG.SLAVE n))) 1 then v else 0)))

/-- I2C_CMD. -/
def execI2cCmd (acc : Access) (n : Fin 4) (v : Word) (s : State) : Out := s.onBusBy acc (fun h => (h.i2cWrite acc (I2C_CMD n) v).1)

/-- Balls carry SCL and SDA of port `n` (R467). -/
def Hw.sclBall (h : Hw) (n : Nat) : Bool := h.ballFn (56 + 2 * n) 1
def Hw.sdaBall (h : Hw) (n : Nat) : Bool := h.ballFn (57 + 2 * n) 1

/-- I2C_BYTE_DONE: how the byte ended, and the byte read. Without a ball for SDA the port reads 1: no acknowledge, and a byte of ones
(R468). -/
def execI2cByteDone (n : Fin 4) (nack arb : Bool) (b : Byte) (s : State) : Out := s.run (fun h =>
  h.when (h.i2cOn n && !h.on (I2C_CFG.TARGET n)) (fun h =>
    if h.sdaBall n then h.i2cDone n nack arb b else h.i2cDone n true false 0xFF))

/-- I2C_RX_POP. -/
def execI2cRxPop (acc : Access) (n : Fin 4) (s : State) : Out := s.onBusBy acc (fun h => Hw.answered (h.i2cRead acc (I2C_RXDATA n)))

/-- CLEAR: a write of CTL.CLEAR; nine SCL pulses and a STOP leave the bus free. -/
def execClear (acc : Access) (n : Fin 4) (s : State) : Out := s.onBusBy acc (fun h => (h.i2cWrite acc (I2C_CTL n) 1).1)

/-- SCL_STUCK; without a ball SCL reads 1 (R468). -/
def execSclStuck (n : Fin 4) (s : State) : Out := s.run (fun h => h.when (h.i2cOn n && h.sclBall n) (fun h => h.up (I2C_STAT.SCL_STUCK n)))

/-- I2C_TARGET_ADDRESSED: the bytes the bus controller writes, or how many it reads, after the address `adr`, the port's own where none is
given; the port answers that one alone (R348). Without a ball for SCL and SDA nothing is seen (R468), and while the port stretches SCL
nothing new starts. -/
def execI2cTargetAddressed (n : Fin 4) (written : List Byte) (reads : Nat) (s : State) (adr : Option (Bool × BitVec 10) := none) : Out :=
  s.run (fun h => h.when (h.i2cOn n && h.on (I2C_CFG.TARGET n) && h.sclBall n && h.sdaBall n && !(h.i2c n).stretches &&
      adr.all (fun a => h.i2cOwn n a.1 a.2)) (fun h => h.i2cTarget n written reads))

/-- ICMD. -/
def execIcmd (acc : Access) (v : Word) (s : State) : Out := s.onBusBy acc (fun h => (h.icmd acc v).1)

/-- POLL_READ: the status register as read; polling ends when POLL_BIT equals POLL_RDY (R351). -/
def execPollRead (status : Byte) (s : State) : Out := s.onBlock 0x12 (fun h =>
  h.when (h.xspi.polling && bitOf status.toNat (h.get XSPI_POLLCFG.POLL_BIT) == h.on XSPI_POLLCFG.POLL_RDY) (fun h =>
    { h with xspi := { h.xspi with polling := false } }))

/-- POLL_TMO: polling has lasted longer than POLL_TMO ms. -/
def execPollTmo (s : State) : Out := s.onBlock 0x12 (fun h => h.when h.xspi.polling (fun h =>
  ({ h with xspi := { h.xspi with polling := false, tmo := true } }).up XSPI_STAT.POLL_TMO))

/-- ICMD_DONE: the command and its polling have ended; what it read, and the NVM bytes that it changed. -/
def execIcmdDone (data : List Byte) (cells : List (BitVec 28 × Byte)) (s : State) : Out := s.onBlock 0x12 (fun h =>
  match h.xspi.cmd with
  | some v => if h.xspi.polling || h.xspi.inq != [] then h else h.icmdDone v data (cells.map (fun e => (e.1.toNat, e.2)))
  | none => h)

/-- WINDOW_READ: a read of window line `l` fills it; it waits while an indirect command runs, and receives a bus error while the
link is held down (R349, R351, R353). -/
def execWindowRead (l : BitVec 22) (s : State) : Out := s.onBlock 0x12 (fun h =>
  let n := 0x01000000 + l.toNat
  h.when (!h.on XSPI_NEG_RESULT.LINK_FLOOR && !h.windowWaits (64 * n) && !(h.xspi.lines.any (fun e => e.1 == n))) (fun h => h.windowFill n))

/-- CAN_CFG_WRITE: a write of CTL, a timing register or a filter register, at offset `o` (R346). -/
def execCanCfgWrite (acc : Access) (n : Fin 2) (o : BitVec 9) (v : Word) (s : State) : Out := s.onBusBy acc (fun h =>
  h.when (o.toNat % 4 = 0 && (o.toNat < 0x10 || 0x100 ≤ o.toNat)) (fun h => (h.canWrite acc (CAN_CTL n + o.toNat) v).1))

end Sys2Proof.Machine
end

