-- ==== Sys2Proof/Machine/Servo.lean ====
section
/-! DEFINITION. The ROOT servo and the clock monitors (spec/03_clocks.md R79 to R95). -/

namespace Sys2Proof.Machine

/-! ### The servo (R93 to R95) -/

/-- CLK_SRV_STATE.STATE codes. -/
def svFree : Nat := 0
def svAcquire : Nat := 1
def svTrack : Nat := 2
def svHoldover : Nat := 3

/-- 2 ppm in units of 1/16 ppb. -/
def svStep : Int := 32000

def Hw.svState (h : Hw) : Nat := h.get CLK_SRV_STATE.STATE

/-- A bound or hint of the loop applied to `v`. -/
def Hw.svInside (h : Hw) (v : Int) : Int := h.loopInside loopServo v

/-- The correction that FREE has in force: by MODE, 0, the hint within the bounds, or the pin (R94). -/
def Hw.svFreeCorr (h : Hw) : Int :=
  match h.loopMode loopServo with
  | 0 => 0
  | 2 => h.loopPin loopServo
  | _ => h.svInside (h.loopHint loopServo)

/-- CLK_SRV_CORR takes a correction. -/
def Hw.svSet (h : Hw) (v : Int) : Hw := h.setS CLK_SRV_CORR.CORR v

/-- The servo enters state `st`, line 9: FREE clears F, HOLDOVER freezes the correction at F and is the safe action, TRACK makes TB
valid and no longer coarse (R89, R94). -/
def Hw.svEnter (h : Hw) (st : Nat) : Hw :=
  if h.svState = st then h
  else
    let h := ((h.set CLK_SRV_STATE.STATE st).pulseLine 9).loopSafe loopServo (st = svHoldover)
    let h := { h with clk := { h.clk with srvIn := 0, srvOut := 0, srvDemand := none } }
    if st = svFree then
      let h := { h with clk := { h.clk with srvF := 0, srvLast := none } }
      h.svSet h.svFreeCorr
    else if st = svHoldover then (if h.loopMode loopServo = 2 then h else h.svSet (h.svInside h.clk.srvF))
    else if st = svTrack then (h.up CLK_TB_STAT.VALID).clr CLK_TB_STAT.COARSE
    else h

/-- r of R93, rounded toward minus infinity; for d = 0 the spec states no value. -/
def Hw.svR (h : Hw) (e d : Int) : Hw × Int :=
  if d = 0 then (h.drawn, sgn 32 h.free.toNat) else (h, e * 16000000000 / d)

/-- R93's computation for an accepted sample `e` with interval `d`: the demand, the integral, and one conflict where the demand lies
past a bound. -/
def Hw.svCompute (h : Hw) (e d : Int) : Hw :=
  let q := h.svR e d
  let h := q.1
  let i := asr q.2 (h.get CLK_SRV_CFG.KI_SHIFT_L)
  let dem := h.clk.srvF - asr q.2 (h.get CLK_SRV_CFG.KP_SHIFT_L) - i
  let inside := decide (h.loopLow loopServo ≤ dem ∧ dem ≤ h.loopHigh loopServo)
  let r := if h.loopMode loopServo = 1 then h.loopDemand loopServo h.clk.srvLoop dem else (h, h.clk.srvLoop, h.svInside dem)
  let h := r.1
  { h with clk := { h.clk with srvLoop := r.2.1, srvDemand := some r.2.2, srvF := if inside then h.clk.srvF - i else h.clk.srvF } }

/-- An accepted sample: it is counted, and with an earlier one to measure from it sets the demand (R93). -/
def Hw.svAccept (h : Hw) (e : Int) (hold : Bool) : Hw :=
  let h := h.set CLK_SRV_STATE.SAMPLES (h.get CLK_SRV_STATE.SAMPLES + 1)
  let t := h.clk.tb
  let h := match h.clk.srvLast with
    | some l => if hold then h else h.svCompute e (t - l).toInt
    | none => h
  { h with clk := { h.clk with srvLast := some t } }

/-- In ACQUIRE: a step of TB, or R93 and the count toward TRACK. DESIGN CHOICE (log entry 138): R93 does not say whether a sample that
only steps TB counts in SAMPLES as accepted; it does not count here. -/
def Hw.svAcq (h : Hw) (e : Int) : Hw :=
  if h.get CLK_SRV_THR.STEP_THR_L * 1000 < e.natAbs && h.on CLK_SRV_CFG.STEP_EN_L then
    let h := (h.up CLK_TB_STAT.STEPPED)
    Hw.tbDue { h with clk := { h.clk with tb := h.clk.tb - BitVec.ofInt 64 e, srvLast := none, srvIn := 0 } }
  else
    let h := h.svAccept e false
    let n := if e.natAbs ≤ h.get CLK_SRV_THR.LOCK_THR_L then h.clk.srvIn + 1 else 0
    let h := { h with clk := { h.clk with srvIn := n } }
    if 8 ≤ n then
      let d := h.clk.srvDemand
      let h := h.svEnter svTrack
      { h with clk := { h.clk with srvDemand := d } }
    else h

/-- In TRACK: outliers are discarded, and eight in a row lead to HOLDOVER. -/
def Hw.svTrk (h : Hw) (e : Int) : Hw :=
  if h.get CLK_SRV_THR.OUTLIER_THR_L < e.natAbs then
    let h := { h with clk := { h.clk with srvOut := h.clk.srvOut + 1 } }
    if 8 ≤ h.clk.srvOut then h.svEnter svHoldover else h
  else ({ h with clk := { h.clk with srvOut := 0 } }).svAccept e false

/-- In HOLDOVER: four samples in a row within OUTLIER_THR lead back to TRACK; the correction is frozen. -/
def Hw.svHold (h : Hw) (e : Int) : Hw :=
  if h.get CLK_SRV_THR.OUTLIER_THR_L < e.natAbs then { h with clk := { h.clk with srvIn := 0 } }
  else
    let h := h.svAccept e true
    let h := { h with clk := { h.clk with srvIn := h.clk.srvIn + 1 } }
    if 4 ≤ h.clk.srvIn then h.svEnter svTrack else h

/-- The servo receives the sample `e` (R93, R94). -/
def Hw.svSample (h : Hw) (e : Int) : Hw :=
  let h := h.setS CLK_SRV_OFS.OFS (clampI (-(2 ^ 31)) (2 ^ 31 - 1) e)
  if h.loopMode loopServo = 0 then h
  else
    let h := { h with clk := { h.clk with srvIdle := 0 } }
    let h := if h.svState = svFree then h.svEnter svAcquire else h
    if h.svState = svAcquire then h.svAcq e else if h.svState = svTrack then h.svTrk e else h.svHold e

/-- HOLD_TMO epochs have passed without a sample (R94). -/
def Hw.svTimeout (h : Hw) : Hw :=
  if h.svState = svAcquire then h.svEnter svFree else if h.svState = svTrack then h.svEnter svHoldover else h

/-- At an epoch boundary the correction moves toward the demand, or inside the bounds, by at most 2 ppm (R93, R45). -/
def Hw.svEpoch (h : Hw) : Hw :=
  let h := { h with clk := { h.clk with srvIdle := h.clk.srvIdle + 1 } }
  match h.loopMode loopServo with
  | 0 => h.svSet 0
  | 2 => h.svSet (h.loopPin loopServo)
  | _ =>
    let v := h.getS CLK_SRV_CORR.CORR
    if h.svState = svFree then h.svSet (if h.svInside v = v then h.svFreeCorr else slew v (h.svInside v) svStep)
    else
      let goal := if h.svState = svHoldover then h.svInside h.clk.srvF
        else match h.clk.srvDemand with
          | some d => h.svInside d
          | none => h.svInside v
      h.svSet (slew v goal svStep)

/-- NET has switched; `o` is the part before it: MODE OFF forces FREE, leaving AUTO forgets crossings, and the correction of the state and
the new MODE is in force at once (R41, R43, R94), but for new bounds that exclude one that AUTO had in force: that one slews (R45, R95). -/
def Hw.svSwitched (h o : Hw) : Hw :=
  let m := h.loopMode loopServo
  let v := h.getS CLK_SRV_CORR.CORR
  let auto := o.loopMode loopServo = 1
  let h := if m = 1 then h else { h with clk := { h.clk with srvLoop := h.clk.srvLoop.leave } }
  let h := if m = 0 then h.svEnter svFree else h
  if m = 2 then h.svSet (h.loopPin loopServo)
  else if h.svState = svFree then (if m = 1 && auto && h.svInside v != v then h else h.svSet h.svFreeCorr)
  else if h.svState = svHoldover && !auto then h.svSet (h.svInside h.clk.srvF)
  else h

/-- A write of CLK_SRV_CTL (R94). DESIGN CHOICE (log entry 139): R94 does not say whether the HOLD_TMO epochs without a sample count from
the last sample or from the entry to ACQUIRE; they count from the last sample, so REACQ does not restart the idle count. -/
def Hw.svCtl (h : Hw) (acc : Access) (v : Word) : Hw × AccRes := h.guarded acc [] (fun h =>
  if v.getLsbD 0 && h.svState != svFree then h.svEnter svAcquire else h)

/-- A write of CLK_SRV_HINT: in FREE with MODE AUTO it is in force at once, within the bounds (R94), unless the correction still slews to
them (R45). -/
def Hw.svHint (h : Hw) (acc : Access) (v : Word) : Hw × AccRes := h.guarded acc [] (fun h =>
  let h := h.plainWrite CLK_SRV_HINT v
  let v := h.getS CLK_SRV_CORR.CORR
  if h.svState = svFree && h.loopMode loopServo = 1 && h.svInside v = v then h.svSet h.svFreeCorr else h)

/-! ### The commands -/

/-- HOLD_TMO. -/
def execHoldTmo (s : State) : Out := s.run (fun h => h.when (h.clocked && h.get CLK_SRV_CFG.HOLD_TMO_L ≤ h.clk.srvIdle) (fun h => h.svTimeout))

/-- REACQ. -/
def execReacq (acc : Access) (s : State) : Out := s.onBusBy acc (fun h => (h.svCtl acc 1).1)

/-- PLL_UNLOCK: UNLOCK_SEEN sets, line 10 (R79). -/
def execPllUnlock (s : State) : Out := s.run (fun h => h.when (h.clocked && h.clk.onRoot && h.clk.pll = .locked) (fun h =>
  (({ h with clk := { h.clk with pll := .unlocked, wakeUnlock := false } }).clr CLK_STAT.PLL_LOCK).up CLK_STAT.UNLOCK_SEEN))

/-- PLL_RELOCK (R79). -/
def execPllRelock (s : State) : Out := s.run (fun h => h.when (h.clocked && h.clk.pll = .unlocked) (fun h =>
  ({ h with clk := { h.clk with pll := .locked } }).up CLK_STAT.PLL_LOCK))

/-- UNLOCK_TIMEOUT: 512 IRC cycles after the loss (R79). -/
def execUnlockTimeout (same : Bool) (s : State) : Out := s.run (fun h => h.when (h.clocked && h.clk.pll = .unlocked) (fun h =>
  h.requestReset rcClock same))

/-- XO_MONITOR_WINDOW: the reference edges of a window (R87). DESIGN CHOICE (log entry 165): a window closes in SLEEP too. -/
def execXoMonitorWindow (n : BitVec 12) (s : State) : Out := s.run (fun h => h.when (h.mainUp && h.launched) (fun h =>
  let h := h.set CLK_MON.XO_CNT n.toNat
  if n.toNat < 2800 || 3600 < n.toNat then ({ h with clk := { h.clk with xoDue := true } }).up CLK_STAT.XO_FAIL else h))

/-- XO_FAIL_RESET: 64 IRC cycles after XO_FAIL (R87). -/
def execXoFailReset (same : Bool) (s : State) : Out := s.run (fun h => h.when (h.mainUp && h.clk.xoDue) (fun h =>
  ({ h with clk := { h.clk with xoDue := false } }).requestReset rcClock same))

/-- LSX_MONITOR_CHECK: the LSX edges of eight windows (R87, R92, R484). -/
def execLsxMonitorCheck (n : BitVec 6) (s : State) : Out := s.run (fun h =>
  h.when (h.bak.lsxRun && h.islandUp && (h.launched || !h.mainUp)) (fun h =>
    let h := if h.mainUp then h.set CLK_MON.LSX_CNT n.toNat else h
    if n.toNat < 31 || 36 < n.toNat then (h.up CLK_STAT.LSX_FAIL).upIf (!h.clk.tbRun) CLK_TB_STAT.COARSE else h))

end Sys2Proof.Machine
end

