-- ==== Sys2Proof/Machine/Eth.lean ====
section
/-! DEFINITION. The Ethernet ports (spec/15_ethernet.md). -/

namespace Sys2Proof.Machine

def Hw.eth (h : Hw) (n : Nat) : EthPort := tget {} h.eths n

/-- Port `n` is `x`; depths and credits follow. -/
def Hw.setEth (h : Hw) (n : Nat) (x : EthPort) : Hw := { h with eths := tput {} h.eths n x }

/-- The port's registers are clocked (R371). -/
def Hw.ethClk (h : Hw) (n : Nat) : Bool := h.blockOn (0x13 + n) && !h.pwr.bermActive

/-- The MAC runs: enabled, link up, and not held down below its floor (R359, R360). -/
def Hw.ethOn (h : Hw) (n : Nat) : Bool :=
  h.ethClk n && h.on (ETH_CFG.EN n) && h.on (ETH_NEG_RESULT.LINK n) && (h.eth n).mac != 0 && !h.on (ETH_NEG_RESULT.FLOOR n)

/-- VDDIO_B2 is present: the port's balls carry frames (R465; log entry 169). -/
def Hw.ethBank (h : Hw) : Bool := bitOf (h.get GPIO_BANK_STAT.PRESENT) 1

/-- The port runs at 1000 Mb/s on a PER_CLK other than 125 MHz, which leaves the device undefined (R83). -/
def Hw.ethOffRate (h : Hw) (n : Nat) : Bool := h.ethOn n && (h.eth n).mac = 5 && h.get CLK_DIV.PER_DIV != 16

/-! ### Queues -/

def Hw.txq (h : Hw) (n q : Nat) : List Word := tget [] (h.eth n).txq q
def Hw.setTxq (h : Hw) (n q : Nat) (l : List Word) : Hw :=
  (h.setEth n { h.eth n with txq := tput [] (h.eth n).txq q l }).set (ETH_TXQ_STAT.DEPTH n q) l.length
def Hw.rxq (h : Hw) (n r : Nat) : List Word := tget [] (h.eth n).rxq r
def Hw.setRxq (h : Hw) (n r : Nat) (l : List Word) : Hw :=
  (h.setEth n { h.eth n with rxq := tput [] (h.eth n).rxq r l }).set (ETH_RXQ_STAT.LEVEL n r) l.length

/-- A write of TXQq_PUSH (R362). -/
def Hw.txqPush (h : Hw) (acc : Access) (n q : Nat) (v : Word) : Hw × AccRes := h.guarded acc [h.get (ETH_TXQ_OWNER.TID_L n q)] (fun h =>
  if 64 ≤ (h.txq n q).length then h.up (ETH_STAT.TXQ_FULL n) else h.setTxq n q (h.txq n q ++ [v]))

/-- A read of RXQr_POP (R366). -/
def Hw.rxqPop (h : Hw) (acc : Access) (n r : Nat) : Hw × RdRes := h.guardedR acc [h.get (ETH_RXQ_OWNER.TID_L n r)] (fun h =>
  match h.rxq n r with
  | [] => (h, 0)
  | w :: t => (h.setRxq n r t, w))

/-- A read of TXTS_TBL (R369); of an empty FIFO the spec states no stamp. -/
def Hw.txtsPop (h : Hw) (acc : Access) (n : Nat) : Hw × RdRes := h.guardedR acc [] (fun h =>
  let x := h.eth n
  match x.ts with
  | [] => (h.drawn.setSnap acc.who (grpTxts n) (0, 0), h.free)
  | e :: t => ((h.setEth n { x with ts := t }).setSnap acc.who (grpTxts n)
      (e.tb / 2 ^ 32 % 2 ^ 32, e.tag + e.q * 2 ^ 16 + x.ts.length * 2 ^ 24), BitVec.ofNat 32 e.tb))

/-! ### The credit shaper (R363) -/

/-- The port's rate in kbit/s, in the mode that the MAC runs (R360). -/
def Hw.ethRate (h : Hw) (n : Nat) : Nat :=
  match (h.eth n).mac with
  | 0 => 0
  | 1 | 2 => 10000
  | 3 | 4 => 100000
  | _ => 1000000

/-- Queue `q` is under the credit shaper. -/
def Hw.shaped (h : Hw) (n q : Nat) : Bool :=
  6 ≤ q && h.on (ETH_TXQ_IDLESLOPE.CBS_EN_L n q) && h.get (ETH_TXQ_IDLESLOPE.KBPS_L n q) < h.ethRate n

def Hw.credit (h : Hw) (n q : Nat) : Int := if q = 6 then (h.eth n).cr6 else (h.eth n).cr7

/-- The credit of queue `q`, saturating at ±2^31 bits; CREDIT shows whole bits. -/
def Hw.setCredit (h : Hw) (n q : Nat) (v : Int) : Hw :=
  let v := clampI (-(2 ^ 31 * 1000000)) (2 ^ 31 * 1000000) v
  (h.setEth n (if q = 6 then { h.eth n with cr6 := v } else { h.eth n with cr7 := v })).setS (ETH_TXQ_CREDIT.BITS n q)
    (clampI (-(2 ^ 31)) (2 ^ 31 - 1) (v / 1000000))

/-- Queue `q` did not send for `ns`: the credit rises, for an empty queue to 0 at most. -/
def Hw.creditRise (h : Hw) (n q ns : Nat) : Hw :=
  if h.shaped n q then
    let v := h.credit n q + ((h.get (ETH_TXQ_IDLESLOPE.KBPS_L n q) * ns : Nat) : Int)
    if h.txq n q != [] then h.setCredit n q v else if h.credit n q < 0 then h.setCredit n q (min 0 v) else h
  else h

/-- Queue `q` sent for `ns`. -/
def Hw.creditFall (h : Hw) (n q ns : Nat) : Hw :=
  if h.shaped n q then h.setCredit n q (h.credit n q - (((h.ethRate n - h.get (ETH_TXQ_IDLESLOPE.KBPS_L n q)) * ns : Nat) : Int)) else h

/-- A queue that has emptied with a positive credit has it set to 0. -/
def Hw.creditEmpty (h : Hw) (n q : Nat) : Hw := if 6 ≤ q && h.txq n q = [] && 0 < h.credit n q then h.setCredit n q 0 else h

/-- CBS_INEFF where a slope reaches the negotiated rate; with no link there is none. -/
def Hw.cbsCheck (h : Hw) (n : Nat) : Hw :=
  h.upIf (h.ethRate n != 0 && [6, 7].any (fun q => h.on (ETH_TXQ_IDLESLOPE.CBS_EN_L n q) && h.ethRate n ≤ h.get (ETH_TXQ_IDLESLOPE.KBPS_L n q))) (ETH_STAT.CBS_INEFF n)

/-! ### Sending (R361 to R363) -/

/-- The highest-numbered eligible queue. -/
def Hw.txPick (h : Hw) (n : Nat) : Option Nat :=
  [7, 6, 5, 4, 3, 2, 1, 0].find? (fun q => h.txq n q != [] && (!h.shaped n q || 0 ≤ h.credit n q))

/-- A transmit header is well formed: LEN in range, no reserved bit set (R361, R362). -/
def Hw.txHeaderOk (h : Hw) (n : Nat) (hd : List Byte) : Bool :=
  let len := fieldB hd 0 2
  let fl := fieldB hd 2 1
  14 ≤ len && len + 4 + (if bitOf fl 1 then 4 else 0) ≤ h.get (ETH_MAXLEN.BYTES n) && fl < 8 && fieldB hd 3 1 = 0 && fieldB hd 8 8 = 0

/-- The bytes on the wire before the FCS: the tag inserted after the source address, and padding to 64 bytes with the FCS. -/
def txWire (hd frame : List Byte) : List Byte :=
  let tci := fieldB hd 4 2
  let f := if bitOf (fieldB hd 2 1) 1 then
      frame.take 12 ++ [0x81, 0x00, BitVec.ofNat 8 (tci / 256), BitVec.ofNat 8 tci] ++ frame.drop 12 else frame
  if f.length < 60 then padTo 60 f else f

/-- The head of queue `q` leaves it. -/
def Hw.txqDrop (h : Hw) (n q : Nat) : Hw := (h.setTxq n q ((h.txq n q).drop 1)).creditEmpty n q

/-- The head of the queue is validated and its frame starts, or it is skipped with BAD_DESC and the next is tried (R362, R363). -/
def Hw.txStart (h : Hw) (n : Nat) : Nat → Hw
  | 0 => h
  | fuel + 1 =>
    match h.txPick n with
    | none => h
    | some q =>
      let w := (h.txq n q).headD 0
      let t := h.get (ETH_TXQ_OWNER.TID_L n q)
      let bad := fun (h : Hw) => (h.up (ETH_STAT.BAD_DESC n)).txqDrop n q
      let a := h.handleAddr t (iniEth n) 4 w
      match a.2 with
      | none => (bad a.1).txStart n fuel
      | some adr =>
        let free := fun (h : Hw) => bad (h.portFree t (iniEth n) w)
        let r := a.1.dmaRead t (iniEth n) adr 16
        match r.2 with
        | .error _ => (free r.1).txStart n fuel
        | .ok hd =>
          if !h.txHeaderOk n hd then (free r.1).txStart n fuel
          else
            let d := r.1.dmaRead t (iniEth n) (adr + 16) (fieldB hd 0 2)
            match d.2 with
            | .error _ => (free d.1).txStart n fuel
            | .ok fr =>
              let tb := (d.1.clk.tb + BitVec.ofInt 64 (d.1.getS (ETH_EGRESS_LAT.NS n))).toNat
              d.1.setEth n { d.1.eth n with tx := some ⟨q, w, fieldB hd 2 1, fieldB hd 6 2, tb, d.1.clk.tb, txWire hd fr⟩ }

/-- The frame has gone, or is dropped after 16 collisions (R355): its buffer is freed unless KEEP = 1, its timestamp queued. -/
def Hw.txDone (h : Hw) (n : Nat) (x : EthTx) (ok : Bool) : Hw :=
  let t := h.get (ETH_TXQ_OWNER.TID_L n x.q)
  let h := h.setEth n { h.eth n with tx := none, sent := if ok && h.ethBank then some x.wire else (h.eth n).sent }
  let h := if bitOf x.flags 2 then h else h.portFree t (iniEth n) x.hdl
  let h := h.txqDrop n x.q
  if ok then
    let h := (h.inc (ETH_TX_OK.COUNT n)).up (ETH_STAT.TX n)
    if !bitOf x.flags 0 then h
    else if 16 ≤ (h.eth n).ts.length then h.up (ETH_STAT.TS_OVR n)
    else h.setEth n { h.eth n with ts := (h.eth n).ts ++ [⟨x.tag, x.q, x.tb⟩] }
  else h.inc (ETH_TX_ERR.COUNT n)

/-- A frame being sent is cut; its buffer stays queued (R360). For as long as its queue was sending, by TB, the credit has fallen (R363; DESIGN
CHOICE, log entry 170). -/
def Hw.txCut (h : Hw) (n : Nat) (count : Bool) : Hw :=
  match (h.eth n).tx with
  | some x =>
    let h := if 6 ≤ x.q then h.creditFall n x.q (h.clk.tb - x.t0).toNat else h
    (h.setEth n { h.eth n with tx := none }).when count (fun h => h.inc (ETH_TX_ERR.COUNT n))
  | none => h

/-! ### The link follower (R358 to R360) -/

/-- Mode `m` lies within the ceiling and the interface. -/
def Hw.modeAllowed (h : Hw) (n m : Nat) : Bool := m ≤ h.get (ETH_LINK.CEIL n) && (m != 5 || !h.on (ETH_CFG.IF n))

/-- What the follower writes to PHY registers 4 and 9. -/
def Hw.lfAdvert (h : Hw) (n : Nat) : Nat × Nat :=
  let b := fun m i => if h.modeAllowed n m then 2 ^ i else 0
  (1 + b 1 5 + b 2 6 + b 3 7 + b 4 8, b 5 9)

/-- The bits of PHY register 0 that the follower sets at its enable: autonegotiation enabled, and restarted. -/
def lfRestart : Nat := 2 ^ 12 + 2 ^ 9

/-- A write of LF_CFG; the enable writes the advertisements and restarts autonegotiation. -/
def Hw.lfCfg (h : Hw) (acc : Access) (n : Nat) (v : Word) : Hw × AccRes := h.guarded acc [] (fun h =>
  let was := h.on (ETH_LF_CFG.EN n)
  let h := h.plainWrite (ETH_LF_CFG n) v
  if !was && v.getLsbD 0 then h.setEth n { h.eth n with adv := some ((h.lfAdvert n).1, (h.lfAdvert n).2, lfRestart), up := false } else h)

/-- The highest common mode of PHY registers 4, 5, 9 and 10. -/
def lfResolve (r4 r5 r9 r10 : BitVec 16) : Nat :=
  if r9.getLsbD 9 && r10.getLsbD 11 then 5
  else if (r4 &&& r5).getLsbD 8 then 4
  else if (r4 &&& r5).getLsbD 7 then 3
  else if (r4 &&& r5).getLsbD 6 then 2
  else if (r4 &&& r5).getLsbD 5 then 1
  else 0

/-- The port's mode is `m`, with the link `up`: a change sets LINK_CHG, and a link that is down cuts the frame being sent. At a transition to
up, which `rises` says, the MAC takes the mode, and one below the floor holds it down until the next transition (R359, R360). -/
def Hw.ethMode (h : Hw) (n m : Nat) (up rises : Bool) : Hw :=
  let h := if up then h else h.txCut n true
  let h := (h.upIf (m != h.get (ETH_NEG_RESULT.MODE n)) (ETH_STAT.LINK_CHG n)).sets [(ETH_NEG_RESULT.MODE n, m), (ETH_NEG_RESULT.LINK n, b2n up)]
  let h := h.setEth n { h.eth n with mac := if !up then 0 else if rises then m else (h.eth n).mac }
  let h := if rises && m != 0 then h.put (ETH_NEG_RESULT.FLOOR n) (m < h.get (ETH_LINK.FLOOR n)) else h
  h.cbsCheck n

/-- One poll, every 10 ms. -/
def Hw.lfPoll (h : Hw) (n : Nat) (r1 r4 r5 r9 r10 : BitVec 16) : Hw :=
  if h.on (ETH_LF_CFG.EN n) then
    let up := r1.getLsbD 2 && r1.getLsbD 5
    let was := (h.eth n).up
    let h := h.setEth n { h.eth n with up := up }
    if !up then h.ethMode n 0 false false
    else if was then h
    else
      let h := if h.on (ETH_NEG_RESULT.LINK n) then h.txCut n true else h
      h.ethMode n (lfResolve r4 r5 r9 r10) true true
  else
    let m := h.get (ETH_LF_CFG.MANUAL n)
    h.ethMode n m (m != 0) (m != 0 && !h.on (ETH_NEG_RESULT.LINK n))

/-! ### MDIO (R357) -/

/-- A write of MDIO_CMD. -/
def Hw.mdioCmd (h : Hw) (acc : Access) (n : Nat) (v : Word) : Hw × AccRes := h.guarded acc [] (fun h =>
  if h.on (ETH_MDIO_STAT.BUSY n) then h.up (ETH_MDIO_STAT.MDIO_REJ n)
  else (h.setEth n { h.eth n with mdio := some v }).up (ETH_MDIO_STAT.BUSY n))

/-- The frame ends, with the data that a read brought. -/
def Hw.mdioDone (h : Hw) (n : Nat) (v : Word) (data : BitVec 16) : Hw :=
  let op := (v.toNat / 2 ^ 11) % 4
  let h := if op = 2 || (op = 3 && v.getLsbD 10) then h.set (ETH_MDIO_STAT.DATA n) data.toNat else h
  ((h.setEth n { h.eth n with mdio := none }).clr (ETH_MDIO_STAT.BUSY n)).up (ETH_MDIO_STAT.DONE n)

/-! ### Receiving (R364 to R370) -/

/-- The big-endian number in `n` octets of `l` at offset `o`. -/
def beField (l : List Byte) (o n : Nat) : Nat := (sliceB l o n).foldl (fun a b => 256 * a + b.toNat) 0

/-- What the classifier and the PTP engine read of a frame. -/
structure EthFrame where
  bytes : List Byte
  tagged : Bool
  tci : Nat
  etype : Nat
  /-- offset of the byte after the EtherType -/
  off : Nat
  deriving DecidableEq, Repr

/-- The outer tag and the EtherType that follows it (R364). -/
def Hw.ethParse (h : Hw) (n : Nat) (bs : List Byte) : EthFrame :=
  if beField bs 12 2 = 0x8100 then ⟨bs, true, beField bs 14 2, beField bs 16 2, 18⟩
  else ⟨bs, false, h.get (ETH_CFG.PVID_L n), beField bs 12 2, 14⟩

/-- IPv4 with protocol 17, not a later fragment, and this UDP destination port (R365). -/
def EthFrame.udpTo (f : EthFrame) (port : Nat) : Bool :=
  let ihl := beField f.bytes f.off 1 % 16 * 4
  f.etype = 0x0800 && beField f.bytes f.off 1 / 16 = 4 && beField f.bytes (f.off + 9) 1 = 17 &&
    beField f.bytes (f.off + 6) 2 % 2 ^ 13 = 0 && f.off + ihl + 4 ≤ f.bytes.length && beField f.bytes (f.off + ihl + 2) 2 = port

/-- Rule `k` holds for the frame (R365). -/
def Hw.ruleHolds (h : Hw) (n k : Nat) (f : EthFrame) : Bool :=
  let i := h.get (ETH_RULE_CTL.DA_SEL_L n k)
  h.on (ETH_RULE_CTL.EN_L n k) &&
  (!h.on (ETH_RULE_CTL.M_DA_L n k) || (h.on (ETH_DAF_HI.EN_L n i) &&
    fieldB f.bytes 0 6 == h.get (ETH_DAF_LO.ADDR_L n i) + 2 ^ 32 * h.get (ETH_DAF_HI.ADDR_L n i))) &&
  (!h.on (ETH_RULE_CTL.M_ETYPE_L n k) || f.etype == h.get (ETH_RULE_MATCH.ETYPE_L n k)) &&
  (!h.on (ETH_RULE_CTL.M_VID_L n k) || f.tci % 4096 == h.get (ETH_RULE_MATCH.VID_L n k)) &&
  (!h.on (ETH_RULE_CTL.M_PCP_L n k) || f.tci / 8192 == h.get (ETH_RULE_CTL.PCP_L n k)) &&
  (!h.on (ETH_RULE_CTL.M_UDP_L n k) || f.udpTo (h.get (ETH_RULE_PORT.UDP_L n k)))

/-- A PTP frame of this port's domain: its messageType (R369). -/
def Hw.ptpType (h : Hw) (n : Nat) (f : EthFrame) : Option Nat :=
  let b := beField f.bytes f.off 1
  if f.etype = 0x88F7 && b / 16 = 1 && beField f.bytes (f.off + 4) 1 = h.get (ETH_PTP_CFG.DOMAIN_L n) then some (b % 16) else none

/-- The receive header (table "Receive header"). -/
def Hw.rxHeader (h : Hw) (n k : Nat) (f : EthFrame) (ptp : Bool) (t2 : BitVec 64) : List Byte :=
  leBytes 2 f.bytes.length ++ leBytes 1 k ++
  leBytes 1 (b2n f.tagged + 2 * b2n ptp + 4 * b2n h.inTransition + 8 * b2n (h.on CLK_TB_STAT.COARSE)) ++
  leBytes 2 f.tci ++ leBytes 1 n ++ leBytes 1 h.tgen ++ leBytes 8 t2.toNat ++ zeros 16

/-- Rule `k` delivers the frame (R366). -/
def Hw.rxDeliver (h : Hw) (n k : Nat) (f : EthFrame) (ptp : Bool) (t2 : BitVec 64) : Hw :=
  let t := h.get (ETH_RULE_CTL.TENANT_L n k)
  let r := h.get (ETH_RULE_CTL.RXQ_L n k)
  let hd := h.rxHeader n k f ptp t2
  let a := h.allocNow (h.get (ETH_RULE_CTL.POOL_L n k)) t false
  let h := a.1
  let w := a.2
  if !hdlV w then h.inc (ETH_RX_NOBUF.COUNT n)
  else
    let free := fun (h : Hw) => h.portFree t (iniEth n) w
    if h.poolSize (hdlPool w) < 32 + f.bytes.length then (free h).inc (ETH_RX_BIG.COUNT n)
    else
      let d := h.dmaWrite t (iniEth n) (h.bufAddr w) (hd ++ f.bytes)
      if d.2.isSome then free d.1
      else
        let h := (d.1.setBufLen w (32 + f.bytes.length)).up (ETH_STAT.RX n)
        if 32 ≤ (h.rxq n r).length then (free h).inc (ETH_RXQ_OVR.COUNT n) else h.setRxq n r (h.rxq n r ++ [w])

/-- The classifier decides the frame (R365). -/
def Hw.classify (h : Hw) (n : Nat) (f : EthFrame) (ptp : Bool) (t2 : BitVec 64) : Hw :=
  match (List.range 128).find? (fun k => h.ruleHolds n k f) with
  | none => (h.inc (ETH_RX_NOMATCH.COUNT n)).up (ETH_STAT.CLS_DROP n)
  | some k =>
    let h := h.inc (ETH_RULE_HITS.COUNT n k)
    if h.on (ETH_RULE_CTL.DROP_L n k) then h.up (ETH_STAT.CLS_DROP n) else h.rxDeliver n k f ptp t2

/-- The sourcePortIdentity that PORTID_EN asks for. -/
def Hw.portIdent (h : Hw) (n : Nat) : List Byte :=
  leBytes 4 (h.get (ETH_PTP_PORTID0.IDENTITY_L n)) ++ leBytes 4 (h.get (ETH_PTP_PORTID1.IDENTITY_L n)) ++
    (leBytes 2 (h.get (ETH_PTP_PORTID2.PORTNUM_L n))).reverse

/-- Grandmaster time from a Follow_Up (R370). -/
def Hw.ptpGm (h : Hw) (n : Nat) (f : EthFrame) : BitVec 64 :=
  let p := f.off
  let corr := asr (sgn 64 (beField f.bytes (p + 8) 8)) 16
  BitVec.ofInt 64 (((beField f.bytes (p + 34) 6 * 1000000000 + beField f.bytes (p + 40) 4 + h.get (ETH_MEAN_DELAY.NS n) : Nat) : Int) +
    corr + h.getS (ETH_ASYM.NS n))

/-- A Follow_Up meets the Syncs that await one: each with its sequenceId and identity gives a sample, every other is counted in
FU_MISS (R370). -/
def Hw.ptpFollow (h : Hw) (n : Nat) (f : EthFrame) : Hw :=
  let id := sliceB f.bytes (f.off + 20) 10
  let seq := beField f.bytes (f.off + 30) 2
  let ok := fun (s : EthSync) => s.seq == seq && s.ident == id && (!h.on (ETH_PTP_CFG.PORTID_EN_L n) || id == h.portIdent n)
  let l := (h.eth n).syncs
  l.foldl (fun h s => if ok s then (h.inc (ETH_PTP_SAMPLES.COUNT n)).svSample (s.t2 - h.ptpGm n f).toInt else h.inc (ETH_FU_MISS.COUNT n))
    (h.setEth n { h.eth n with syncs := [] })

/-- The PTP engine examines a well-formed frame (R369, R370). -/
def Hw.ptpExamine (h : Hw) (n : Nat) (f : EthFrame) (t2 : BitVec 64) : Hw :=
  if h.get CLK_SRV_CFG.PORT_L = n && h.on (ETH_PTP_CFG.SLAVE_L n) then
    match h.ptpType n f with
    | some 0 => h.setEth n { h.eth n with syncs := (h.eth n).syncs ++ [⟨beField f.bytes (f.off + 30) 2, sliceB f.bytes (f.off + 20) 10, t2⟩] }
    | some 8 => h.ptpFollow n f
    | _ => h
  else h

/-- A frame is received, its FCS checked (R355, R364). -/
def Hw.rxFrame (h : Hw) (n : Nat) (bs : List Byte) (fcsOk : Bool) : Hw :=
  let t2 := h.clk.tb - BitVec.ofInt 64 (h.getS (ETH_INGRESS_LAT.NS n))
  if !fcsOk || bs.length + 4 < 64 || h.get (ETH_MAXLEN.BYTES n) < bs.length + 4 then h.inc (ETH_RX_BAD.COUNT n)
  else
    let f := h.ethParse n bs
    if f.etype = 0x8808 then h.inc (ETH_PAUSE_DROP.COUNT n)
    else
      let ptp := match h.ptpType n f with
        | some 0 | some 2 | some 3 => true
        | _ => false
      (h.ptpExamine n f t2).classify n f ptp t2

/-! ### Commits and power -/

/-- The first offence of the captured values of port `n`: REASON and rule or queue (R367). -/
def Hw.ethCheck (h : Hw) (n : Nat) : Option (Nat × Nat) :=
  let delivers := fun k => h.cap (ETH_RULE_CTL.EN n k) != 0 && h.cap (ETH_RULE_CTL.DROP n k) = 0
  match (List.range 128).find? (fun k => delivers k && h.cap (PE_POOL_CFG.EN (h.cap (ETH_RULE_CTL.POOL n k))) = 0) with
  | some k => some (1, k)
  | none =>
    match (List.range 128).find? (fun k => delivers k && h.cap (ETH_RULE_CTL.TENANT n k) != h.cap (ETH_RXQ_OWNER.TID n (h.cap (ETH_RULE_CTL.RXQ n k)))) with
    | some k => some (2, k)
    | none => ([6, 7].find? (fun q => 1000000 < h.cap (ETH_TXQ_IDLESLOPE.KBPS n q))).map (fun q => (3, q))

/-- Port `n` stops: a frame in progress is cut, queues and counters are kept (R371). -/
def Hw.ethStop (h : Hw) (n : Nat) : Hw := h.txCut n false

/-! ### Register accesses -/

/-- A write of CFG, with PVID, or of MAXLEN: ignored while EN = 1 (R356). -/
def Hw.ethCfg (h : Hw) (acc : Access) (n adr : Nat) (v : Word) : Hw × AccRes := h.guarded acc [] (fun h =>
  if h.on (ETH_CFG.EN n) then h.up (ETH_STAT.CFG_REJ n) else h.plainWrite adr v)

/-- A write in an ETH window. -/
def Hw.ethWrite (h : Hw) (acc : Access) (adr : Nat) (v : Word) : Hw × AccRes :=
  let n := (adr - ETH_CFG 0) / 0x10000
  let o := adr % 0x10000
  if o = 0 || o = 4 then h.ethCfg acc n adr v
  else if o = 0x18 then h.lfCfg acc n v
  else if o = 0x20 then h.mdioCmd acc n v
  else if 0x100 ≤ o && o < 0x200 then
    let q := (o - 0x100) / 0x20
    if o % 0x20 = 0 then h.txqPush acc n q v
    else h.guarded acc (if o % 0x20 = 8 then [] else [h.get (ETH_TXQ_OWNER.TID_L n q)]) (fun h => h.plainWrite adr v)
  else h.guarded acc [] (fun h => h.plainWrite adr v)

/-- A read in an ETH window. -/
def Hw.ethRead (h : Hw) (acc : Access) (adr : Nat) : Hw × RdRes :=
  let n := (adr - ETH_CFG 0) / 0x10000
  let o := adr % 0x10000
  if h.bistMutes adr then (h, .word 0)
  else if 0x200 ≤ o && o < 0x300 && o % 0x10 = 0 then h.rxqPop acc n ((o - 0x200) / 0x10)
  else if o = 0x300 then h.txtsPop acc n
  else if o = 0x304 then (h, .word (BitVec.ofNat 32 (h.snap acc.who (grpTxts n)).1))
  else if o = 0x308 then (h, .word (BitVec.ofNat 32 (h.snap acc.who (grpTxts n)).2))
  else h.plainRes adr

/-! ### The commands -/

/-- LF_ENABLE: a write of LF_CFG. -/
def execLfEnable (acc : Access) (n : Fin 2) (v : Word) (s : State) : Out := s.onBusBy acc (fun h => (h.lfCfg acc n v).1)

/-- LF_POLL: PHY registers 1, 4, 5, 9 and 10 as read. -/
def execLfPoll (n : Fin 2) (r1 r4 r5 r9 r10 : BitVec 16) (s : State) : Out := s.run (fun h => h.when (h.ethClk n) (fun h => h.lfPoll n r1 r4 r5 r9 r10))

/-- MDIO_CMD. -/
def execMdioCmd (acc : Access) (n : Fin 2) (v : Word) (s : State) : Out := s.onBusBy acc (fun h => (h.mdioCmd acc n v).1)

/-- MDIO_DONE. -/
def execMdioDone (n : Fin 2) (data : BitVec 16) (s : State) : Out := s.run (fun h => h.when (h.ethClk n) (fun h =>
  match (h.eth n).mdio with
  | some v => h.mdioDone n v data
  | none => h))

/-- TXQ_PUSH. -/
def execTxqPush (acc : Access) (n : Fin 2) (q : Fin 8) (v : Word) (s : State) : Out := s.onBusBy acc (fun h => (h.txqPush acc n q v).1)

/-- TX_FRAME_START: a frame boundary; `w6` and `w7` are the ns for which queues 6 and 7 waited since their credits were last brought
up to date (R363). The PE checks the handle, so nothing starts while its clock is gated (R86). -/
def execTxFrameStart (n : Fin 2) (w6 w7 : Nat) (s : State) : Out := s.runE (fun h =>
  if h.ethOffRate n then .error .undefinedClockRatios
  else .ok (h.when (h.ethOn n && (h.eth n).tx.isNone && !h.drained 2 && h.peOn) (fun h =>
    let h := ((h.cbsCheck n).creditRise n 6 w6).creditRise n 7 w7
    h.txStart n ((List.range 8).foldl (fun m q => m + (h.txq n q).length) 1))))

/-- TX_FRAME_DONE: the frame took `ns`; `other` is the ns for which the other shaped queue waited; `ok` is false after 16 collisions
(R355, R362). -/
def execTxFrameDone (n : Fin 2) (ns other : Nat) (ok : Bool) (s : State) : Out := s.run (fun h => h.when (h.ethOn n) (fun h =>
  match (h.eth n).tx with
  | some x =>
    let h := if x.q = 6 then (h.creditFall n 6 ns).creditRise n 7 other
      else if x.q = 7 then (h.creditFall n 7 ns).creditRise n 6 other
      else (h.creditRise n 6 other).creditRise n 7 other
    h.txDone n x ok
  | none => h))

/-- RX_FRAME: a frame's bytes without its FCS, and whether the FCS is right. -/
def execRxFrame (n : Fin 2) (bs : List Byte) (fcsOk : Bool) (s : State) : Out := s.runE (fun h =>
  if h.ethOffRate n then .error .undefinedClockRatios else .ok (h.when (h.ethOn n && h.ethBank) (fun h => h.rxFrame n bs fcsOk)))

/-- FU_MISS: the oldest Sync has waited 100 ms. -/
def execFuMiss (n : Fin 2) (s : State) : Out := s.run (fun h => h.when (h.ethClk n && (h.eth n).syncs != []) (fun h =>
  (h.setEth n { h.eth n with syncs := (h.eth n).syncs.drop 1 }).inc (ETH_FU_MISS.COUNT n)))

/-- RXQ_POP. -/
def execRxqPop (acc : Access) (n : Fin 2) (r : Fin 16) (s : State) : Out := s.onBusBy acc (fun h => Hw.answered (h.ethRead acc (ETH_CFG n + 0x200 + 0x10 * r)))

/-- TXTS_POP. -/
def execTxtsPop (acc : Access) (n : Fin 2) (s : State) : Out := s.onBusBy acc (fun h => Hw.answered (h.ethRead acc (ETH_CFG n + 0x300)))

/-- ETH_CFG_WRITE: a write of CFG, or of MAXLEN. -/
def execEthCfgWrite (acc : Access) (n : Fin 2) (maxlen : Bool) (v : Word) (s : State) : Out := s.onBusBy acc (fun h =>
  (h.ethCfg acc n (if maxlen then ETH_MAXLEN n else ETH_CFG n) v).1)

end Sys2Proof.Machine
end

