-- ==== Sys2Proof/Machine/Polder.lean ====
section
/-! DEFINITION. The Polder island (spec/16_polder_island.md): scans, rules, the adaptive threshold, SAFE_TRIP, the island log, the
handover, WDP and the island's registers. -/

namespace Sys2Proof.Machine

/-! ### The seal (R63, R372) -/

/-- The registers marked "cfg", in ascending offset order, each with the bits that are configuration (log entry 136). -/
def polCfg : List (Nat × Nat) :=
  let w := 0xFFFFFFFF
  [(POL_CORE_PC, w), (POL_CORE_SSP, w), (POL_CORE_VBASE, w), (POL_CORE_IE, w), (POL_ADC_CFG, w)] ++
  (List.range 16).map (fun s => (POL_ADC_SLOT s, w)) ++
  (List.range 4).flatMap (fun b => [(POL_BQ_CFG b, w), (POL_BQ_B0B1 b, w), (POL_BQ_B2A1 b, w), (POL_BQ_A2 b, w)]) ++
  (List.range 32).flatMap (fun r => [(POL_RULE_CFG r, w), (POL_RULE_THR r, w)]) ++
  [(POL_THR_LOW, w), (POL_THR_HIGH, w), (POL_THR_PIN, w), (POL_THR_HINT, w), (POL_THR_CFG, w), (POL_THR_MARGIN, w), (POL_TRIP_CFG, w),
   (POL_WAKE_CFG, w), (POL_PGPIO_DIR, w), (POL_PGPIO_OUT, w), (POL_PGPIO_EDGE, 0xFF), (POL_LOG_CFG, w), (POL_LOG_RING, w),
   (POL_LOG_WAKE_LVL, w), (POL_WDP_CTL, w), (POL_WDP_LOAD, w)]

/-- The island configuration in the register at `a`: shadowed fields as they are in force, the others as they stand (log entry 136). -/
def Hw.inForce (h : Hw) (a : Nat) : Nat :=
  match rowOf a with
  | some (r, false) =>
    let m := if r.live = 0 then 0 else BitVec.ofNat 32 r.sh
    ((h.rd a &&& ~~~ m) ||| (h.rd (a + r.live) &&& m)).toNat
  | _ => (h.rd a).toNat

/-- The seal that the backup domain's contents call for: CRC-32C over TB_SAVE, the island configuration and SEAL_GEN. -/
def Hw.sealWord (h : Hw) : BitVec 32 :=
  crc32c (leBytes 8 h.bak.tbSave.toNat ++ polCfg.flatMap (fun e => leBytes 4 (h.inForce e.1 &&& e.2)) ++ leBytes 4 (h.rd PWR_SEAL_GEN).toNat)

/-- SEAL_GEN is incremented and the seal rewritten; SEAL_CRC shows it. -/
def Hw.reseal (h : Hw) : Hw :=
  let h := h.wr PWR_SEAL_GEN (h.rd PWR_SEAL_GEN + 1)
  Hw.wr { h with bak := { h.bak with sealTorn := false } } PWR_SEAL_CRC h.sealWord

/-- The seal checks. -/
def Hw.sealOk (h : Hw) : Bool := !h.bak.sealTorn && h.rd PWR_SEAL_CRC == h.sealWord

/-! ### Time and records (R389, R390) -/

/-- BERM_ACTIVE, as power-up finds it, becomes FLUSH_INCOMPLETE (R62). -/
def Hw.foundActive (h : Hw) : Hw :=
  ({ h with pwr := { h.pwr with bermActive := false } }).put PWR_RST_CAUSE.FLUSH_INCOMPLETE h.pwr.bermActive

/-- The main domain is powered on from OFF with cause WAKE_OFF (R72). -/
def Hw.wakeOff (h : Hw) : Hw :=
  if h.pwr.phase = .off then Hw.foundActive { h with pwr := { h.pwr with phase := .vcoreRamp, coreEn := true } } else h

/-- POL_HAND.REQ sets with its source (R393). -/
def Hw.setReq (h : Hw) (src : Nat) : Hw :=
  (if h.on POL_HAND.REQ then h else (h.up POL_HAND.REQ).set POL_HAND.REQ_SRC src).wakeOff

/-- The number of records in the ring. -/
def Hw.logCount (h : Hw) : Nat := (h.get POL_LOG_HEAD.ISEQ + 2 ^ 32 - h.get POL_LOG_TAIL.ISEQ) % 2 ^ 32

/-- A ring count at or above WAKE_LVL asks for the main domain while it is not up (R391). -/
def Hw.logWake (h : Hw) : Hw :=
  if !h.on POL_STAT.MAIN_UP && h.on POL_LOG_CFG.DRAIN_WAKE && h.get POL_LOG_WAKE_LVL.COUNT ≤ h.logCount then h.setReq 4 else h

/-- The address of the ring's slot for ISEQ `q`: records take the slots in turn, also where ISEQ comes round to 0 (R389). -/
def Hw.logSlot (h : Hw) (q : Nat) : Nat :=
  let n := 2 ^ 32 * (if h.get POL_LOG_HEAD.ISEQ < q then h.logEra - 1 else h.logEra) + q
  0x30100000 + 64 * (h.get POL_LOG_RING.BASE + n % max 1 (h.get POL_LOG_RING.SIZE))

/-- The bytes of an island record (table "Island record"). -/
def Hw.logBytes (h : Hw) (ty info : Nat) : List Byte :=
  let up := h.on POL_STAT.MAIN_UP
  leBytes 1 ty ++ leBytes 1 info ++ leBytes 1 (b2n (!up) + 2 * b2n up + 4 * b2n h.inTransition) ++ leBytes 1 h.tgen ++
  leBytes 4 (h.get POL_LOG_HEAD.ISEQ) ++ leBytes 8 (if up then h.clk.tb.toNat else h.retained.toNat) ++
  (List.range 4).flatMap (fun b => leBytes 2 (h.get (POL_BQ_OUT.Y b))) ++
  (if ty = 5 then (List.range 8).flatMap (fun i => leBytes 4 (h.rd (POL_LOG_DATA i)).toNat)
    else (List.range 16).flatMap (fun s => leBytes 2 (8 * h.get (POL_ADC_RES.CODE s)))) ++ zeros 8

/-- A record goes into the ring (R389, R390), before WAKE_LVL is looked at. -/
def Hw.polPut (h : Hw) (ty info : Nat) : Hw :=
  if !h.on POL_LOG_CFG.EN then h
  else
    let full := h.get POL_LOG_RING.SIZE ≤ h.logCount
    if full && !h.on POL_LOG_CFG.WRAP then h.inc POL_LOG_DROPPED.COUNT
    else
      let q := h.get POL_LOG_HEAD.ISEQ
      let h := if full then (h.set POL_LOG_TAIL.ISEQ (h.get POL_LOG_TAIL.ISEQ + 1)).inc POL_LOG_DROPPED.COUNT else h
      let h := (h.memPut (cellsAt (h.logSlot q) (h.logBytes ty info))).set POL_LOG_HEAD.ISEQ (q + 1)
      if q + 1 = 2 ^ 32 then { h with logEra := h.logEra + 1 } else h

/-- A record goes into the ring, and a count at WAKE_LVL asks for the main domain (R391). -/
def Hw.polRecord (h : Hw) (ty info : Nat) : Hw := (h.polPut ty info).logWake

def recEnter : Nat := 1
def recExit : Nat := 2
def recTrip : Nat := 3
def recRelease : Nat := 4
def recCore : Nat := 5
def recWdp : Nat := 6
def recHandover : Nat := 7

/-! ### SAFE_TRIP (R386 to R388) -/

/-- The pin is pulled low: the relay is energised (R386). While the island is tested it stays released (R457). -/
def Hw.safeLow (h : Hw) : Bool := !h.on POL_TRIP_STAT.TRIPPED && h.islandUp && !h.bistRuns 0xA

/-- SAFE_TRIP trips, its record before WAKE_LVL is looked at (R387). -/
def Hw.tripPut (h : Hw) (cause rule : Nat) : Hw :=
  if h.on POL_TRIP_STAT.TRIPPED then h
  else ((h.sets [(POL_TRIP_STAT.TRIPPED, 1), (POL_TRIP_STAT.CAUSE, cause), (POL_TRIP_STAT.RULE, rule), (POL_TRIP_STAT.TRIP_EVT, 1)]).islandEvent 9).polPut
    recTrip cause

/-- SAFE_TRIP trips (R387). -/
def Hw.trip (h : Hw) (cause rule : Nat) : Hw := if h.on POL_TRIP_STAT.TRIPPED then h else (h.tripPut cause rule).logWake

/-- A RELEASE key (R388); `below` says that the backup domain stands below 1.90 V, as it does until a brown-out is over. -/
def Hw.tripRelease (h : Hw) (pol below : Bool) : Hw :=
  let tripping := anyBelow 32 (fun r => bitOf (h.get POL_RULE_ACTIVE.RULES) r && h.on (POL_RULE_CFG.TRIP_L r))
  if !bitOf (h.get POL_TRIP_CFG.REL_SRC_L) (b2n pol) || tripping || below || !h.islandUp then h.up POL_TRIP_STAT.REL_REJ
  else if h.on POL_TRIP_STAT.TRIPPED then (h.clr POL_TRIP_STAT.TRIPPED).polRecord recRelease 0
  else h

/-- A write of TRIP_CTL. DEDUCED (log entry 172): during an LBIST run of the island, which keeps TRIPPED, the keys do nothing (R457). -/
def Hw.tripCtl (h : Hw) (pol below : Bool) (v : Word) : Hw :=
  if h.bistRuns 0xA then h
  else if v = 0x54520001 then h.trip (if pol then 3 else 2) 0
  else if v = 0x54520002 then h.tripRelease pol below else h

/-! ### Scans (R379 to R385) -/

/-- Slot `s` is converted. -/
def Hw.slotIn (h : Hw) (s : Nat) : Bool := s < h.get POL_ADC_CFG.LEN_L && s < 16

/-- The code of slot `s`; 0 at or beyond LEN (R381). -/
def Hw.slotCode (h : Hw) (s : Nat) : Nat := if h.slotIn s then h.get (POL_ADC_RES.CODE s) else 0

def Hw.bq (h : Hw) (b : Nat) : Biquad := tget {} h.bqs b
def Hw.setBq (h : Hw) (b : Nat) (x : Biquad) : Hw := { h with bqs := tput {} h.bqs b x }

/-- Biquad `b` computes its output (R380). -/
def Hw.biquad (h : Hw) (b : Nat) : Hw :=
  if !h.on (POL_BQ_CFG.EN_L b) then h
  else
    let s := h.bq b
    let x : Int := (8 * h.slotCode (h.get (POL_BQ_CFG.INPUT_L b)) : Nat)
    let acc := h.getS (POL_BQ_B0B1.B0_L b) * x + h.getS (POL_BQ_B0B1.B1_L b) * s.x1 + h.getS (POL_BQ_B2A1.B2_L b) * s.x2 -
      h.getS (POL_BQ_B2A1.A1_L b) * s.y1 - h.getS (POL_BQ_A2.A2_L b) * s.y2 + 8192
    let y := clampI (-32768) 32767 (asr acc 14)
    (h.setBq b ⟨x, s.x1, y, s.y1⟩).setS (POL_BQ_OUT.Y b) y

/-- The protective bound (R385). -/
def Hw.thrSafe (h : Hw) : Int := if h.on POL_THR_CFG.DIR_L then h.loopHigh loopThr else h.loopLow loopThr

/-- T_A takes a value. -/
def Hw.setThr (h : Hw) (v : Int) : Hw := h.setS POL_THR_MON.T_A v

/-- The adaptive threshold is updated (R385). -/
def Hw.thrUpdate (h : Hw) : Hw :=
  let g := loopThr
  let c := h.slotCode (h.get (POL_BQ_CFG.INPUT_L (h.get POL_THR_CFG.REF_L)))
  let bad := c = 0 || c = 4095
  let m := h.loopMode g
  let h := h.loopSafe g bad
  let h := if m = 1 then h else { h with thrLoop := h.thrLoop.leave }
  if m = 0 then h.setThr h.thrSafe
  else if bad then (if m = 2 && h.thrSafe != h.loopPin g then h.loopOverride g else h).setThr h.thrSafe
  else if m = 2 then h.setThr (h.loopPin g)
  else
    let t := h.getS POL_THR_MON.T_A
    let r := if h.on POL_THR_CFG.REF_EN_L then
        h.loopDemand g h.thrLoop (h.getS (POL_BQ_OUT.Y (h.get POL_THR_CFG.REF_L)) + h.getS POL_THR_MARGIN.V_L)
      else (h, h.thrLoop, h.loopInside g (if h.on POL_THR_HINT.EN then h.loopHint g else t))
    ({ r.1 with thrLoop := r.2.1 }).setThr (slew t r.2.2 (h.get POL_THR_CFG.SLEW_L : Nat))

/-- The value x of a rule (R381). -/
def Hw.ruleX (h : Hw) (r : Nat) (pins : Nat) (wake : Bool) : Int :=
  let s := h.get (POL_RULE_CFG.SRC_L r)
  let lvl := fun b => if b then (8 : Int) else 0
  if s < 4 then h.getS (POL_BQ_OUT.Y s)
  else if s < 20 then ((8 * h.slotCode (s - 4) : Nat) : Int)
  else if s < 28 then lvl (bitOf pins (s - 20))
  else if s = 28 then lvl wake
  else if s = 29 then lvl (h.on CLK_STAT.LSX_FAIL)
  else 0

/-- The threshold T of a rule (R381). -/
def Hw.ruleT (h : Hw) (r : Nat) : Int :=
  let t := h.getS (POL_RULE_THR.THR_L r)
  if h.on (POL_RULE_CFG.THR_SEL_L r) then clampI (-32768) 32767 (h.getS POL_THR_MON.T_A + t) else t

/-- Rule `r` enters ACTIVE with its actions (R382). Its records reach the ring after the evaluation (table "Scan that trips"), so WAKE_LVL
is looked at as the scan ends. -/
def Hw.ruleEnter (h : Hw) (r : Nat) : Hw :=
  let h := (h.up (POL_RULE_STAT.ACTIVE r)).set POL_RULE_ACTIVE.RULES (setBit (h.get POL_RULE_ACTIVE.RULES) r true)
  let h := if h.on (POL_RULE_CFG.LOG_L r) then h.polPut recEnter r else h
  let h := if h.on (POL_RULE_CFG.TRIP_L r) then h.tripPut 1 r else h
  let h := if h.on (POL_RULE_CFG.IRQ_L r) then h.set POL_RULE_EVT.RULES (setBit (h.get POL_RULE_EVT.RULES) r true) else h
  if h.on (POL_RULE_CFG.WAKE_L r) then h.setReq 1 else h

/-- Rule `r` becomes inactive (R382). -/
def Hw.ruleExit (h : Hw) (r : Nat) : Hw :=
  let h := (h.clr (POL_RULE_STAT.ACTIVE r)).set POL_RULE_ACTIVE.RULES (setBit (h.get POL_RULE_ACTIVE.RULES) r false)
  if h.on (POL_RULE_CFG.LOG_L r) then h.polPut recExit r else h

/-- One rule is evaluated (R381, R382). -/
def Hw.ruleEval (h : Hw) (pins : Nat) (wake : Bool) (r : Nat) : Hw :=
  if !h.on (POL_RULE_CFG.EN_L r) then h
  else
    let x := h.ruleX r pins wake
    let t := h.ruleT r
    let hy : Int := (h.get (POL_RULE_THR.HYST_L r) : Nat)
    let act := h.on (POL_RULE_STAT.ACTIVE r)
    let met := if h.on (POL_RULE_CFG.OP_L r) then (if act then decide (t + hy ≤ x) else decide (x < t))
      else (if act then decide (x ≤ t - hy) else decide (t < x))
    if !met then h.set (POL_RULE_STAT.COUNT r) 0
    else
      let n := h.get (POL_RULE_STAT.COUNT r) + 1
      if h.get (POL_RULE_CFG.PERSIST_L r) + 1 ≤ n then
        let h := h.set (POL_RULE_STAT.COUNT r) 0
        if act then h.ruleExit r else h.ruleEnter r
      else h.set (POL_RULE_STAT.COUNT r) n

/-- The pins that ACTIVE rules drive at the end of rule evaluation; the highest-numbered rule decides each (R383). -/
def Hw.rulePins (h : Hw) : Hw :=
  { h with pgRule := (List.range 32).foldl (fun (p : Nat × Nat) r =>
      let m := h.get (POL_RULE_CFG.OUT_MODE_L r)
      if h.on (POL_RULE_STAT.ACTIVE r) && (h.on POL_HAND.MODE || h.on (POL_RULE_CFG.ANYMODE_L r)) && (m = 1 || m = 2) then
        let k := h.get (POL_RULE_CFG.OUT_PIN_L r)
        (setBit p.1 k true, setBit p.2 k (m = 1))
      else p) (0, 0) }

/-- The level that the island drives on PGPIO `k`, and whether the pin is an output (R383). While PU is enabled pin 6 is its transmitter,
idle high unless it sends a break or is within a character, and pin 7 its receiver (R469; log entry 121). -/
def Hw.pgDrive (h : Hw) (k : Nat) : Bool × Bool :=
  if 6 ≤ k && h.on (uf UART_CFG.EN 6) then
    (if k = 6 then (!h.on (uf UART_CTL.BREAK 6) && ((h.uart 6).cur.isNone || h.free.getLsbD 0), true) else (false, false))
  else if bitOf h.pgRule.1 k then (bitOf h.pgRule.2 k, true) else (bitOf (h.get POL_PGPIO_OUT.PINS) k, bitOf (h.get POL_PGPIO_DIR.PINS) k)

/-- A whole scan, with the codes that sources 0 to 8 convert to in it and the pin levels met: each slot takes its source's (R379; log entry
171). -/
def Hw.scan (h : Hw) (codes : List (BitVec 12)) (pins : Nat) (wake : Bool) : Hw :=
  let h := (List.range 16).foldl (fun h s =>
    if h.slotIn s then h.set (POL_ADC_RES.CODE s) (codes.getD (h.get (POL_ADC_SLOT.SRC_L s)) 0).toNat else h) h
  let h := h.set POL_PGPIO_IN.PINS pins
  let h := ((List.range 4).foldl (fun h b => h.biquad b) h).thrUpdate
  (((List.range 32).foldl (fun h r => h.ruleEval pins wake r) h).rulePins).logWake.islandEvent 1

/-! ### The core, WDP (R377, R395) -/

/-- The Polder core starts at POL_CORE_PC with island cause `cause`; WDP is disabled by the island reset, the seal stays (R54, R377). -/
def Hw.polRestart (h : Hw) (cause : Nat) : Hw :=
  let x : Core := { run := .running, sstat := 0x11, pc := h.rd POL_CORE_PC, ssp := h.rd POL_CORE_SSP, vbase := h.rd POL_CORE_VBASE }
  (({ h with pol := x }).sets [(POL_STAT.CORE_RUN, 1), (POL_STAT.CORE_HELD, 0), (POL_RST_CAUSE.CAUSE, cause), (POL_WDP_CTL.EN, 0),
    (DBG_C_STAT.HALTED 2, 0)])

/-- A write of POL_CORE_CTL by a main core. -/
def Hw.polCoreCtl (h : Hw) (v : Word) : Hw :=
  if !h.islandUp then h
  else if v = 0x504F0001 then (if h.on POL_STAT.CORE_HELD then
    let c := h.get POL_RST_CAUSE.CAUSE
    h.polRestart c else h)
  else if v = 0x504F0002 then h.polRestart 4
  else h

/-- IRC runs: with the 3.3 V rail up, or for one of its users on VBAK (R373; a scan is one step). -/
def Hw.ircRuns (h : Hw) : Bool :=
  h.pwr.phase != .unpowered || h.polRuns || (h.on (uf UART_CFG.EN 6) && h.get (uf UART_CFG.CLKSRC 6) = 0) || !h.bak.lsxRun || h.on CLK_STAT.LSX_FAIL

/-- WDP counts: enabled, and the core runs; it pauses while the core is in WAIT with IRC stopped, held or halted (R395). -/
def Hw.wdpRuns (h : Hw) : Bool :=
  h.on POL_WDP_CTL.EN && h.islandUp && !h.on POL_STAT.CORE_HELD && h.pol.run != .halted && h.pol.run != .held && (h.pol.run != .waiting || h.ircRuns)

/-- WDP expires (R395). -/
def Hw.wdpExpire (h : Hw) : Hw :=
  let h := (h.set POL_WDP_COUNT.VALUE 0).up POL_STAT.WDP_RESET
  let h := (h.polRestart 3).polRecord recWdp 0
  if h.on POL_TRIP_CFG.ON_WDP_L then h.trip 4 0 else h

/-- An idle step passes for WDP, which counts IRC cycles as the watchdogs do: PER_DIV half nanoseconds, or one IRC cycle where the main
domain is not clocked (R395; log entries 1 and 24). -/
def Hw.wdpEdge (h : Hw) : Hw :=
  if !h.wdpRuns then h
  else
    let t := tget 0 h.wdFrac 2 + (if h.clocked then h.get CLK_DIV.PER_DIV else 250)
    if t < 16000 then { h with wdFrac := tput 0 h.wdFrac 2 t }
    else
      let c := h.get POL_WDP_COUNT.VALUE - 1
      let h := Hw.set { h with wdFrac := tput 0 h.wdFrac 2 (t - 16000) } POL_WDP_COUNT.VALUE c
      if c = 0 then h.wdpExpire else h

/-- A write of WDP_KICK by the Polder core: any other value is an expiry at once (R395). DESIGN CHOICE (log entry 159): a kick while EN = 0
loads nothing. -/
def Hw.wdpKick (h : Hw) (v : Word) : Hw :=
  if v != 0x4B1D then h.wdpExpire
  else if h.on POL_WDP_CTL.EN then h.set POL_WDP_COUNT.VALUE (h.get POL_WDP_LOAD.VALUE) else h

/-- A write of WDP_CTL or WDP_LOAD by the Polder core: only while EN = 0. -/
def Hw.wdpWrite (h : Hw) (adr : Nat) (v : Word) : Hw :=
  if h.on POL_WDP_CTL.EN then h
  else
    let h := h.plainWrite adr v
    (if h.on POL_WDP_CTL.EN then Hw.set { h with wdFrac := tput 0 h.wdFrac 2 0 } POL_WDP_COUNT.VALUE (h.get POL_WDP_LOAD.VALUE) else h).reseal

/-! ### The handover (R392, R393) -/

/-- POL_HAND.MODE becomes ISLAND (true) or MAIN: a change writes a record and is an island event. -/
def Hw.handMode (h : Hw) (island : Bool) : Hw :=
  if h.on POL_HAND.MODE = island then h else ((h.put POL_HAND.MODE island).polRecord recHandover (b2n island)).islandEvent 6

/-- A write of HAND_CTL. -/
def Hw.handCtl (h : Hw) (pol : Bool) (v : Word) : Hw :=
  if v = 0x48410001 && !pol then h.handMode false else if v = 0x48410002 then h.handMode true else h

/-- A write of POL_HAND: REQ is set by the Polder core and cleared by a main core. -/
def Hw.handReq (h : Hw) (pol : Bool) (v : Word) : Hw :=
  if v.getLsbD 1 then (if pol then h.setReq 2 else h.clr POL_HAND.REQ) else h

/-- The Polder core, or a main core, rings and answers doorbells (R34, R378). -/
def Hw.mbxCtl (h : Hw) (pol : Bool) (v : Word) : Hw :=
  let h := if v.getLsbD 0 then h.put POL_MBX_CTL.MAIN_DB pol else h
  if v.getLsbD 1 then h.put POL_MBX_CTL.POL_DB (!pol) else h

/-! ### The drain (R391) -/

/-- The oldest record is offered to the MRC. -/
def Hw.logDrain (h : Hw) : Hw :=
  if h.on POL_STAT.MAIN_UP && h.on POL_LOG_CFG.DRAIN_EN && h.drain = .idle && h.logCount != 0 then
    let q := h.get POL_LOG_TAIL.ISEQ
    let n := h.get POL_LOG_CFG.STREAM
    let h := { h with drain := .queued, drainSeq := q }
    if 64 ≤ h.appendQ.length then { (h.lsRefuse n lsQueueFull 1) with drain := .retry }
    else h.lsEnqueue n (.bytes n (h.bytes (h.logSlot q) 56) true)
  else h

/-! ### Commits (R384, R396) -/

/-- The first offence of the captured POL values. -/
def Hw.polCheck (h : Hw) : Option (Nat × Nat) :=
  if h.capS POL_THR_HIGH.V < h.capS POL_THR_LOW.V then some (1, 0)
  else ((List.range 4).find? (fun b => h.cap POL_ADC_CFG.LEN ≤ h.cap (POL_BQ_CFG.INPUT b))).map (fun b => (2, b))

/-- POL has switched: a rule whose CFG or THR changed restarts inactive; a pin and OFF hold at once (R384, R385). The configuration in force
has been written, and the seal follows (R63; log entry 136). -/
def Hw.polSwitched (h o : Hw) : Hw :=
  let h := (List.range 32).foldl (fun h r =>
    if o.rd (POL_RULE_CFG_LIVE r) != h.rd (POL_RULE_CFG_LIVE r) || o.rd (POL_RULE_THR_LIVE r) != h.rd (POL_RULE_THR_LIVE r) then
      (h.wr (POL_RULE_STAT r) 0).set POL_RULE_ACTIVE.RULES (setBit (h.get POL_RULE_ACTIVE.RULES) r false)
    else h) h
  let h := match h.loopMode loopThr with
    | 0 => h.setThr h.thrSafe
    | 2 => if h.on POL_THR_AUTH_STAT.SAFE_ACT then h else h.setThr (h.loopPin loopThr)
    | _ => h
  h.reseal

/-! ### Register accesses (R396) -/

/-- A write in the POL window that is accepted; `pol` says that the Polder core makes it. -/
def Hw.polStore (h : Hw) (pol : Bool) (adr : Nat) (v : Word) : Hw :=
  let o := adr - 0x30000000
  if o = 0x008 then (if pol then h else h.polCoreCtl v)
  else if 0x200 ≤ o && o < 0x280 && o % 0x20 = 0x14 then (if v.getLsbD 0 then h.setBq ((o - 0x200) / 0x20) {} else h)
  else if o = 0x700 then h.plainWrite adr (if pol then v &&& ~~~ (0x20000 : Word) else v)
  else if o = 0x708 then h.tripCtl pol false v
  else if o = 0x720 then h.handReq pol v
  else if o = 0x724 then h.handCtl pol v
  else if o = 0x7C0 then h.mbxCtl pol v
  else if o = 0x804 then
    let base := POL_LOG_RING.BASE.of v
    let size := POL_LOG_RING.SIZE.of v
    if h.on POL_LOG_CFG.EN || size = 0 || 512 < base + size then h
    else ((h.plainWrite adr v).set POL_LOG_TAIL.ISEQ (h.get POL_LOG_HEAD.ISEQ)).reseal
  else if o = 0x840 then (if pol then h.polRecord recCore 0 else h)
  else if o = 0xA00 || o = 0xA04 then (if pol then h.wdpWrite adr v else h)
  else if o = 0xA08 then (if pol then h.wdpKick v else h)
  else
    let h := h.plainWrite adr v
    let h := if polCfg.any (fun e => e.1 == adr) then h.reseal else h
    if adr = POL_LOG_CFG || adr = POL_LOG_WAKE_LVL then h.logWake else h

/-- A PU register, which PU's OWNER in force may reach too (R394; log entry 91). -/
def inPu (adr : Nat) : Bool := 0x30000900 ≤ adr && adr < 0x30000A00

/-- A main-domain access to the POL window with this TID is let through: TID 0, or to PU its OWNER (R394, R396). -/
def Hw.polLets (h : Hw) (acc : Access) (adr : Nat) : Bool :=
  fromPolder acc || acc.tid = 0 || (inPu adr && (h.uartTids 6).contains acc.tid.toNat)

/-- A write in the POL window; POL_PGPIO_OUT and _DIR belong to the side that MODE names (R392, R396). -/
def Hw.polWrite (h : Hw) (acc : Access) (adr : Nat) (v : Word) : Hw × AccRes :=
  let pol := fromPolder acc
  if !h.polLets acc adr then (h, .owner)
  else if inPu adr then h.uartWrite (if pol then ⟨acc.who, 0⟩ else acc) adr v
  else if (adr = POL_PGPIO_OUT || adr = POL_PGPIO_DIR) && h.on POL_HAND.MODE != pol then (h, .owner)
  else (h.polStore pol adr v, .ok)

/-- A read in the POL window. -/
def Hw.polRead (h : Hw) (acc : Access) (adr : Nat) : Hw × RdRes :=
  if !h.polLets acc adr then (h, .owner)
  else if h.bistMutes adr then (h, .word 0)
  else if inPu adr then h.uartRead (if fromPolder acc then ⟨acc.who, 0⟩ else acc) adr
  else if adr = POL_CORE_PEND then (h, .word (BitVec.ofNat 32 h.islandPend))
  else h.plainRes adr

/-! ### The commands -/

/-- SCAN_START: a scan-timer tick at which a scan is due: the codes of the sources, the pin levels, whether a scan still runs, and how far the
retention counter has counted since it was last brought up to date. -/
def execScanStart (codes : List (BitVec 12)) (pins : Byte) (wake late : Bool) (lsx irc : Nat) (s : State) : Out := s.run (fun h =>
  h.when (h.islandUp && h.on POL_ADC_CFG.EN_L && !h.bistRuns 0xA) (fun h =>
    let h := h.retain lsx irc
    if late then h.up POL_STAT.SCAN_SKIP else h.scan codes pins.toNat wake))

/-- SCAN_STALL. -/
def execScanStall (s : State) : Out := s.run (fun h =>
  h.when (h.islandUp && h.on POL_ADC_CFG.EN_L && h.on POL_TRIP_CFG.ON_STALL_L && !h.bistRuns 0xA) (fun h => h.trip 5 0))

/-- BQ_CLR. -/
def execBqClr (acc : Access) (b : Fin 4) (s : State) : Out := s.onIsland acc (fun h => (h.polWrite acc (POL_BQ_CLR b) 1).1)

/-- TRIP. -/
def execTrip (acc : Access) (s : State) : Out := s.onIsland acc (fun h => (h.polWrite acc POL_TRIP_CTL 0x54520001).1)

/-- RELEASE; `below` says that the backup domain has fallen below 1.90 V, with no brown-out yet (R388). -/
def execRelease (acc : Access) (s : State) (below : Bool := false) : Out := s.onIsland acc (fun h =>
  if h.polLets acc POL_TRIP_CTL then h.tripCtl (fromPolder acc) below 0x54520002 else h)

/-- WDP_KICK, `elapsed` counts after COUNT was last brought up to date; one that took it past 0 was an expiry, and no kick came. -/
def execWdpKick (acc : Access) (v : Word) (elapsed : Nat) (s : State) : Out := s.onIsland acc (fun h =>
  let c := h.get POL_WDP_COUNT.VALUE
  if h.wdpRuns && c < elapsed then h.wdpExpire
  else ((if h.wdpRuns then h.set POL_WDP_COUNT.VALUE (c - elapsed) else h).polWrite acc POL_WDP_KICK v).1)

/-- WDP_EXPIRY. -/
def execWdpExpiry (s : State) : Out := s.run (fun h => h.when h.wdpRuns (fun h => h.wdpExpire))

/-- POL_CORE_START. -/
def execPolCoreStart (acc : Access) (s : State) : Out := s.onIsland acc (fun h => (h.polWrite acc POL_CORE_CTL 0x504F0001).1)

/-- POL_CORE_RESET. -/
def execPolCoreReset (acc : Access) (s : State) : Out := s.onIsland acc (fun h => (h.polWrite acc POL_CORE_CTL 0x504F0002).1)

/-- HAND_TAKE. -/
def execHandTake (acc : Access) (s : State) : Out := s.onIsland acc (fun h => (h.polWrite acc POL_HAND_CTL 0x48410001).1)

/-- HAND_GIVE. -/
def execHandGive (acc : Access) (s : State) : Out := s.onIsland acc (fun h => (h.polWrite acc POL_HAND_CTL 0x48410002).1)

/-- HAND_REQ_SET: the Polder core's write. -/
def execHandReqSet (s : State) : Out := s.onIsland ⟨.polder, 0⟩ (fun h => (h.polWrite ⟨.polder, 0⟩ POL_HAND 2).1)

/-- HAND_REQ_CLEAR. -/
def execHandReqClear (acc : Access) (s : State) : Out := s.onIsland acc (fun h => (h.polWrite acc POL_HAND 2).1)

/-- WAKE_IN_EDGE, rising or falling. -/
def execWakeInEdge (falling : Bool) (s : State) : Out := s.run (fun h => h.when (h.islandUp && h.on POL_WAKE_CFG.FALLING == falling) (fun h =>
  (if h.on POL_WAKE_CFG.EN then h.setReq 3 else h).islandEvent 5))

/-- PGPIO_EDGE: pin `k` takes a level. -/
def execPgpioEdge (k : Fin 8) (level : Bool) (s : State) : Out := s.run (fun h => h.when h.islandUp (fun h =>
  let h := h.set POL_PGPIO_IN.PINS (setBit (h.get POL_PGPIO_IN.PINS) k level)
  if bitOf (h.get POL_PGPIO_EDGE.EN) k then h.set POL_PGPIO_EDGE.EVT (setBit (h.get POL_PGPIO_EDGE.EVT) k true) else h))

/-- LOG_PUSH: the Polder core's write. -/
def execLogPush (s : State) : Out := s.onIsland ⟨.polder, 0⟩ (fun h => (h.polWrite ⟨.polder, 0⟩ POL_LOG_PUSH 0).1)

/-- LOG_DRAIN. -/
def execLogDrain (s : State) : Out := s.run (fun h => h.when h.islandUp (fun h => h.logDrain))

/-- DRAIN_RETRY: 1 ms after a refused append. -/
def execDrainRetry (s : State) : Out := s.run (fun h => h.when (h.islandUp && h.drain = .retry) (fun h => Hw.logDrain { h with drain := .idle }))

/-- MAIN_DB: the Polder core's write. -/
def execMainDb (s : State) : Out := s.onIsland ⟨.polder, 0⟩ (fun h => (h.polWrite ⟨.polder, 0⟩ POL_MBX_CTL 1).1)

/-- POL_DB: a main core's write. -/
def execPolDb (acc : Access) (s : State) : Out := s.onIsland acc (fun h => (h.polWrite acc POL_MBX_CTL 2).1)

/-- POLDER_BROWN_OUT: the core is held in reset and SAFE_TRIP trips (R54, R387). -/
def execPolderBrownOut (s : State) : Out := s.run (fun h => h.when h.islandUp (fun h =>
  let h := h.trip 6 0
  ({ h with pol := { h.pol with run := .held, resv := none }, pwr := { h.pwr with polderLow := true } }).clr POL_STAT.CORE_RUN))

/-- POLDER_BROWN_OUT_RECOVERY: above 1.90 V the core is restarted unless held (R377, R387). -/
def execPolderBrownOutRecovery (s : State) : Out := s.run (fun h => h.when (!h.islandUp) (fun h =>
  let h := { h with pwr := { h.pwr with polderLow := false } }
  if h.on POL_STAT.CORE_HELD then h else h.polRestart 2))

end Sys2Proof.Machine
end

