-- ==== Sys2Proof/Machine/Lcs.lean ====
section
/-! DEFINITION. The life-cycle controller (spec/05_lifecycle.md): audit records, tallies, commands, transitions, wipes and debug
grants; with the end of a debug session (spec/19_debug_and_test.md R445). -/

namespace Sys2Proof.Machine

/-! ### The end of a debug session (R445) -/

/-- Core `c` as the debug registers number it. -/
def dbgCore (c : Nat) : CoreId := if c = 0 then .m0 else if c = 1 then .m1 else .pol

/-- The state of core `c`. -/
def Hw.coreAt (h : Hw) (c : Nat) : Core := if c = 0 then h.m0 else if c = 1 then h.m1 else h.pol
def Hw.setCoreAt (h : Hw) (c : Nat) (x : Core) : Hw :=
  if c = 0 then { h with m0 := x } else if c = 1 then { h with m1 := x } else { h with pol := x }

/-- After a failed launch M0 stays in the ROM wait loop until the next reset (R117). -/
def Hw.inRomLoop (h : Hw) (c : Nat) : Bool := c = 0 && h.lnch.phase = .failed

/-- What the debugger has written to act at RUN acts (R448). -/
def Core.applied (x : Core) : Core :=
  match x.atRun with
  | some r => { x with sstat := r.sstat, inDF := r.inDF, tid := r.tid, eprog := r.eprog, atRun := none }
  | none => x

/-- A halted core goes on at PC, or in the ROM wait loop; its first instruction is exempt from watchpoints (R117, R447, R449). -/
def Hw.dbgResume (h : Hw) (c : Nat) : Hw :=
  let x := h.coreAt c
  if x.run = .halted then
    (h.setCoreAt c { x.applied with run := if h.inRomLoop c then .romWait else .running, wpExempt := true }).clr (DBG_C_STAT.HALTED c)
  else h

/-- A halted lane group goes on (R451). -/
def Hw.dbgLaneResume (h : Hw) (q : Nat) : Hw :=
  let g : LaneGrp := tget {} h.laneG q
  if g.halted then ({ h with laneG := tput {} h.laneG q { g with halted := false } }).clr (DBG_G_STAT.HALTED q) else h

/-- The 64-byte line that holds byte `a` is no longer in either main core's I-cache (R452). -/
def Hw.dropFetch (h : Hw) (a : Nat) : Hw :=
  let f := fun (x : Core) => { x with icache := x.icache.filter (· != lineOf a) }
  { h with m0 := f h.m0, m1 := f h.m1 }

/-- Patch unit `u` names a line that a lower-numbered enabled unit also names: DUP (R452). -/
def Hw.patchDups (h : Hw) : Hw := (List.range 32).foldl (fun h u =>
  h.put (DBG_PU_CTL.DUP u) (h.on (DBG_PU_CTL.EN u) &&
    anyBelow u (fun v => h.on (DBG_PU_CTL.EN v) && h.get (DBG_PU_LINE.ADDR v) == h.get (DBG_PU_LINE.ADDR u)))) h

/-- The number of watchpoints of core `c` (R449). -/
def wpCount (c : Nat) : Nat := if c = 2 then 2 else 8

/-- The debugger's watchpoints and patch units are disabled (R445). -/
def Hw.dbgDisable (h : Hw) : Hw :=
  let h := (List.range 3).foldl (fun h c => (List.range (wpCount c)).foldl (fun h i =>
    if h.on (DBG_C_WP_CTL.SRC c i) then h.clr (DBG_C_WP_CTL.EN c i) else h) h) h
  ((List.range 32).foldl (fun h u =>
    if h.on (DBG_PU_CTL.EN u) && h.get (DBG_PU_CTL.SRC u) = 3 then
      ((h.clr (DBG_PU_CTL.EN u)).set (DBG_PU_CTL.SRC u) 0).dropFetch (h.get (DBG_PU_LINE.ADDR u) * 32)
    else h) h).patchDups

/-- ATTACHED clears: every halted core and lane group resumes, line 242 asserts (R445). -/
def Hw.detach (h : Hw) : Hw :=
  if !h.on DBG_STAT.ATTACHED then h
  else
    let h := h.clr DBG_STAT.ATTACHED
    let h := (List.range 3).foldl (fun h c => h.dbgResume c) h
    let h := (List.range 16).foldl (fun h q => h.dbgLaneResume q) h
    let h := h.dbgDisable
    if h.on DBG_IE.ATTACH then h.pulseLine 242 else h

/-! ### States and permissions -/

/-- Codes of LCS_STATE.STATE (R121). -/
def lcBlank : Nat := 1
def lcTest : Nat := 2
def lcProd : Nat := 3
def lcRtest : Nat := 4
def lcEol : Nat := 5

/-- The life-cycle state. -/
def Hw.lcState (h : Hw) : Nat := h.get LCS_STATE.STATE

/-- The debug ports' permissions are `p` (R128). -/
def Hw.setPerm (h : Hw) (p : Nat) : Hw := h.sets [(LCS_STAT.DBG_PERM, p), (DBG_STAT.PERM, p)]

/-- The permissions that the state gives without a grant (table "Life-cycle states"). -/
def statePerm (st : Nat) : Nat := if st = lcBlank || st = lcTest || st = lcRtest then 15 else 0

/-- A debug grant ends (R125, R129): the ports close and the session ends (R445). -/
def Hw.endGrant (h : Hw) : Hw := if h.lcState = lcProd then (h.setPerm 0).detach else h

/-- The challenge is no longer valid: LCS_CHAL reads zero (R128). -/
def Hw.dropChal (h : Hw) : Hw :=
  { ((List.range 16).foldl (fun h k => h.wr (LCS_CHAL k) 0) h) with lcsm := { h.lcsm with chalTb := none } }

/-! ### What a debug port may do (R442) -/

/-- Codes of LCS_CMD that FSD may always write outside EOL: ENTER_RTEST, DBG_REQUEST, DBG_RESPONSE. -/
def fsdCommand (v : Word) : Bool := [5, 7, 8].contains (LCS_CMD.CMD.of v)

/-- An access that FSD may always make (R442). -/
def Hw.fsdAlways (h : Hw) (a : Nat) (write : Bool) (v : Word) : Bool :=
  (!write && (a = SYS_ID || a = LCS_STATE)) ||
  (h.lcState != lcEol &&
    (a = LCS_STAT || (a = LCS_CMD && (!write || fsdCommand v)) || a = LCS_ARG0 || (LCS_MSG 0 ≤ a && a ≤ LCS_MSG 63) ||
      (LCS_CHAL 0 ≤ a && a ≤ LCS_CHAL 15)))

/-- The access is a write of a patch unit. -/
def patchAddr (a : Nat) : Bool := DBG_PU_CTL 0 ≤ a && a < DBG_PU_CTL 0 + 0x800

/-- The access is a write in the BIST window. -/
def bistAddr (a : Nat) : Bool := 0x20180000 ≤ a && a < 0x20190000

/-- An access through a debug port is permitted (R442). -/
def Hw.dbgMay (h : Hw) (jtag : Bool) (a : Nat) (write : Bool) (v : Word) : Bool :=
  (!jtag && h.fsdAlways a write v) ||
  (h.permits 0 && (!write || ((!patchAddr a || h.permits 1) && (!bistAddr a || h.permits 2))))

/-! ### Reasons -/

def lrWrongState : Nat := 1
def lrBadKey : Nat := 2
def lrTallyMax : Nat := 3
def lrAuditFull : Nat := 4
def lrNotT0 : Nat := 5
def lrNoOwnerKey : Nat := 6
def lrAlreadySet : Nat := 7
def lrSigFail : Nat := 8
def lrKeyMismatch : Nat := 9
def lrNoChallenge : Nat := 0xA
def lrBound : Nat := 0xB
def lrBadArg : Nat := 0xC

/-- A command ends: with reason 0 it has succeeded, otherwise it was refused (R126). -/
def Hw.lcsEnd (h : Hw) (reason : Nat) : Hw :=
  ((h.sets [(LCS_STAT.BUSY, 0), (LCS_STAT.DONE, 1), (LCS_STAT.REASON, reason)])).upIf (reason != 0) LCS_STAT.REFUSED

/-! ### The audit log (R135, R136) -/

/-- The free records of LS15. -/
def Hw.auditFree (h : Hw) : Nat := 3072 - h.lsLive 15

/-- FREE follows the log. -/
def Hw.auditShow (h : Hw) : Hw := h.set LCS_AUDIT_STAT.FREE h.auditFree

/-- Who asked for what an audit record tells: its TID, and whether FSD or Crocus did. -/
structure AuditBy where
  tid : Nat
  fsd : Bool
  crocus : Bool
  deriving DecidableEq, Repr

/-- The requester behind a register access: the debug initiator is FSD, or JTAG where the access came that way (R441). -/
def Hw.auditBy (h : Hw) (a : Access) : AuditBy := ⟨a.tid.toNat, a.who = .debug && !h.dbg.jtag, a.who = .crocus⟩

/-- Bytes 0 to 55 of an audit record. -/
def Hw.auditBytes (h : Hw) (ty : Nat) (by' : AuditBy) (body : List Byte) : List Byte :=
  leBytes 2 ty ++ leBytes 1 1 ++ leBytes 1 h.lcState ++ leBytes 4 (h.get LCS_AUDIT_SEQ.NEXT) ++ leBytes 8 h.clk.tb.toNat ++
  leBytes 1 (b2n (h.on CLK_TB_STAT.VALID) + 2 * b2n (h.on CLK_TB_STAT.COARSE) + 4 * b2n by'.fsd + 8 * b2n by'.crocus) ++
  leBytes 1 by'.tid ++ zeros 2 ++ padTo 36 body

/-- One audit record: written, or not written and counted where it would fall into the reserve. The answer says whether it was
written. -/
def Hw.audit (h : Hw) (ty : Nat) (by' : AuditBy) (body : List Byte) : Hw × Bool :=
  let f := h.auditFree
  if 3 ≤ ty && f ≤ 64 then (h.inc LCS_AUDIT_STAT.DROPPED, false)
  else if f = 0 then (h, false)
  else (((h.lsPlace 15 (h.auditBytes ty by' body)).set LCS_AUDIT_SEQ.NEXT (h.get LCS_AUDIT_SEQ.NEXT + 1)).auditShow, true)

def audTally : Nat := 1
def audTransition : Nat := 2
def audKeySet : Nat := 3
def audDebug : Nat := 4
def audPowerFail : Nat := 5
def audRelease : Nat := 6

/-! ### Tallies (R131 to R134) -/

/-- The maximum of tally `n`. -/
def tallyMax (n : Nat) : Nat := [64, 8, 4, 32, 16, 16, 32, 32].getD n 0

/-- An advance of tally `n` with its cause: the reason it is refused, or 0 (R131, R133, R136). -/
def Hw.tallyAdvance (h : Hw) (n cause : Nat) (by' : AuditBy) : Hw × Nat :=
  let v := h.get (LCS_TALLY.VALUE n)
  if tallyMax n ≤ v then (h, lrTallyMax)
  else if h.auditFree = 0 then (h, lrAuditFull)
  else
    let h := (h.audit audTally by' (leBytes 1 n ++ leBytes 1 v ++ leBytes 1 (v + 1) ++ leBytes 1 cause)).1
    ((h.set (LCS_TALLY.VALUE n) (v + 1)).up LCS_STAT.TALLY_EVT, 0)

/-- A write of LCS_TALLYn (R132). -/
def Hw.tallyWrite (h : Hw) (acc : Access) (n : Nat) (v : Word) : Hw :=
  if h.on LCS_STAT.BUSY then h.up LCS_STAT.COLLIDE
  else if acc.tid != 0 then h.lcsEnd lrNotT0
  else if v.toNat % 256 != h.get (LCS_TALLY.VALUE n) + 1 then h
  else if 1 ≤ n && n ≤ 5 then h.lcsEnd lrBound
  else
    let r := h.tallyAdvance n 0 (h.auditBy acc)
    r.1.lcsEnd r.2

/-- NEW of the last TALLY record of tally `n` among the live records of LS15. -/
def Hw.lastTally (h : Hw) (n : Nat) : Option Nat :=
  let live := h.lsLive 15
  let k0 := tget 0 h.lsSlot 15
  ((List.range (min live 3072)).map (fun i => h.slotAddr 15 ((k0 + 3072 - 1 - i) % 3072))).findSome? (fun a =>
    if h.loadN a 2 = audTally && h.loadN (a + 20) 1 = n then some (h.loadN (a + 22) 1) else none)

/-- An advance that a power loss interrupted is settled (R134). -/
def Hw.tallySettle (h : Hw) : Hw := (List.range 8).foldl (fun h n =>
  if h.lastTally n = some (h.get (LCS_TALLY.VALUE n) + 1) then h.set (LCS_TALLY.VALUE n) (h.get (LCS_TALLY.VALUE n) + 1) else h) h

/-! ### Transitions (R122 to R125) -/

/-- What a transition wipes, as bits of WIPE. -/
def wipeMask (src dst : Nat) : Nat :=
  if src = lcTest && dst = lcProd then 0b01110
  else if src = lcProd && dst = lcRtest then 0b11111
  else if src = lcRtest && dst = lcProd then 0b01111
  else if dst = lcEol then 0b11111
  else 0

/-- `n` bytes from `a` on are zero, in every copy, with valid check bits. -/
def Hw.wipeRange (h : Hw) (a n : Nat) : Hw :=
  let out := fun (e : Host.Cell) => !(a ≤ e.1 && e.1 < a + n)
  { h with mem := h.mem.filter out, dc0 := h.dc0.filter out, dc1 := h.dc1.filter out, pec := h.pec.filter out, l2 := h.l2.filter out,
           upsets := h.upsets.filter (fun e => !(a ≤ keyAddr e.1 && keyAddr e.1 < a + n)), l2ups := h.l2ups.filter (fun e => !(a ≤ e.1 * 8 && e.1 * 8 < a + n)) }

/-- The wipe that moves the part to state `dst` (R122). -/
def Hw.wipe (h : Hw) (dst : Nat) : Hw :=
  let m := wipeMask h.lcState dst
  let h := if bitOf m 0 then h.wipeRange 0 (if dst = lcEol then 0x01000000 else 0x00FC0000) else h
  let h := if bitOf m 1 then h.wipeRange 0x10000000 0x200000 else h
  let h := if bitOf m 2 then h.wipeRange 0x30100000 0x8000 else h
  let h := if bitOf m 3 then h.wipeRange 0x18000000 0x100000 else h
  let h := if bitOf m 4 then { h with lcs := { h.lcs with trk := zeros 32 } } else h
  if dst = lcEol then
    let l := h.lcs
    let h := { h with lcs := { l with ownerHash := none, debugHash := none, cal0 := [], cal1 := [], trims := false, auditTail := 0 },
                      lsSlot := tput 0 h.lsSlot 15 0 }
    (h.sets ([(LCS_STATE.OWNER_KEY, 0), (LCS_STATE.DEBUG_KEY, 0), (LCS_STATE.CAL_BANK, 0), (TWIN_BOUND_LO.SERIAL, 0), (TWIN_BOUND_HI.SERIAL, 0),
      (MRC_LS_HEAD.LSEQ 15, 0), (MRC_LS_TAIL.LSEQ 15, 0), (LCS_AUDIT_SEQ.NEXT, 0)] ++
      (List.range 8).map (fun n => (LCS_TALLY.VALUE n, tallyMax n)))).auditShow
  else h

/-- The state word takes the new state and the marker is cleared (R123 step 5). -/
def Hw.lcsSettle (h : Hw) (dst : Nat) : Hw :=
  ({ h with lcs := { h.lcs with marker := none }, lcsm := { h.lcsm with transit := none } }).set LCS_STATE.STATE dst

/-- The Lane Array is held in reset: its groups, queues and store loads are idle (R123). -/
def Hw.lanesReset (h : Hw) : Hw :=
  let h := (List.range 16).foldl (fun h q => h.setLq q {}) { h with laneG := [], isl := [] }
  (List.range 4).foldl (fun h c => (h.syncRun c).clr (LAC_LC_STAT.ISL_BUSY c)) { h with laneQ := [] }

/-- An accepted transition up to the start of its wipe (R123 steps 1 to 3, R125). -/
def Hw.lcsTransit (h : Hw) (dst : Nat) (by' : AuditBy) : Hw :=
  let h := if dst = lcEol then h else
    (h.audit audTransition by' (leBytes 1 h.lcState ++ leBytes 1 dst ++ leBytes 2 (wipeMask h.lcState dst))).1
  let h := (h.endGrant.dropChal).sets [(LCS_STAT.BUSY, 1), (PWR_STAT.BERM_ARMED, 0)]
  { h.lanesReset with lcs := { h.lcs with marker := some dst }, lcsm := { h.lcsm with transit := some dst, sig := none, holds := true },
                      m0 := { h.m0 with run := .held }, m1 := { h.m1 with run := .held } }

/-- A pending marker is found before Crocus starts: the wipe is repeated and the transition completed (R124). -/
def Hw.lcsResume (h : Hw) : Hw :=
  match h.lcs.marker with
  | some dst => ((h.wipe dst).lcsSettle dst).up LCS_STATE.RESUMED
  | none => h.clr LCS_STATE.RESUMED

/-! ### Messages -/

/-- Bytes of LCS_MSG. -/
def Hw.lcsMsg (h : Hw) : List Byte := (List.range 64).flatMap (fun k => leBytes 4 (h.rd (LCS_MSG k)).toNat)

/-- Bytes of LCS_CHAL. -/
def Hw.lcsChal (h : Hw) : List Byte := (List.range 16).flatMap (fun k => leBytes 4 (h.rd (LCS_CHAL k)).toNat)

/-- SYS_SERIAL. -/
def Hw.serial (h : Hw) : Nat := h.get SYS_SERIAL_LO.SERIAL + 2 ^ 32 * h.get SYS_SERIAL_HI.SERIAL

/-- The hash set as 32 bytes into the words from `a` on. -/
def Hw.wordsAt (h : Hw) (reg : Nat → Nat) (n : Nat) (bs : List Byte) : Hw :=
  (List.range n).foldl (fun h k => h.wr (reg k) (BitVec.ofNat 32 (fieldB bs (4 * k) 4))) h

/-- A challenge is valid: issued, and less than 60 s of TB old (R128). -/
def Hw.chalValid (h : Hw) : Bool := match h.lcsm.chalTb with
  | some t => (h.clk.tb - t).toNat < 60000000000
  | none => false

/-- A new challenge (R128). -/
def Hw.lcsChallenge (h : Hw) : Hw :=
  let n := h.drawBytes 32
  let h := n.1
  let bs := leBytes 4 0x43444A46 ++ leBytes 1 1 ++ leBytes 1 h.lcState ++ leBytes 1 (h.get LCS_ARG0.ARG % 16) ++
    leBytes 1 (h.get (LCS_TALLY.VALUE 1)) ++ leBytes 8 h.serial ++ leBytes 8 h.clk.tb.toNat ++ n.2 ++ zeros 8
  { ((h.wordsAt LCS_CHAL 16 bs).pulseLine 13) with lcsm := { h.lcsm with chalTb := some h.clk.tb } }

/-- The DEBUG record of a response's outcome. -/
def Hw.auditResponse (h : Hw) (by' : AuditBy) (outcome permReq : Nat) (msg : List Byte) : Hw :=
  (h.audit audDebug by' (leBytes 1 outcome ++ leBytes 1 permReq ++ leBytes 1 (fieldB msg 5 1) ++ zeros 1 ++ sha256 (sliceB msg 16 64))).1

/-- The fields of a response are right (R129, check 2). -/
def Hw.responseOk (h : Hw) (chal msg : List Byte) : Bool :=
  let req := fieldB chal 6 1
  let g := fieldB msg 5 1
  fieldB msg 0 4 == 0x52444A46 && fieldB msg 4 1 == 1 && (g &&& req) == g && fieldB msg 6 2 == 0 && fieldB msg 8 8 == h.serial

/-- DBG_RESPONSE up to the start of the signature check (R129). -/
def Hw.lcsResponse (h : Hw) (by' : AuditBy) : Hw :=
  let msg := h.lcsMsg
  let chal := h.lcsChal
  let valid := h.chalValid
  let req := if valid then fieldB chal 6 1 else 0
  let h := h.dropChal
  let reason := if !valid then lrNoChallenge
    else if !h.responseOk chal msg then lrBadArg
    else if h.lcs.debugHash != some (sha256 (sliceB msg 16 64)) then lrKeyMismatch
    else 0
  if reason != 0 then (h.auditResponse by' reason req msg).lcsEnd reason
  else ({ h with lcsm := { h.lcsm with sig := some ⟨true, by'.tid, by'.fsd, chal, msg⟩ } }).up LCS_STAT.BUSY

/-- The fields of an RTEST token are right (R130). -/
def Hw.tokenOk (h : Hw) (msg : List Byte) : Bool :=
  fieldB msg 0 4 == 0x54524A46 && fieldB msg 4 1 == 1 && fieldB msg 5 1 == h.get (LCS_TALLY.VALUE 4) && fieldB msg 6 2 == 0 &&
    fieldB msg 8 8 == h.serial

/-- ENTER_RTEST up to the start of the signature check (R130). -/
def Hw.lcsToken (h : Hw) (by' : AuditBy) : Hw :=
  let msg := h.lcsMsg
  if !h.tokenOk msg then h.lcsEnd lrBadArg
  else if tallyMax 4 ≤ h.get (LCS_TALLY.VALUE 4) then h.lcsEnd lrTallyMax
  else if h.auditFree < 2 then h.lcsEnd lrAuditFull
  else ({ h with lcsm := { h.lcsm with sig := some ⟨false, by'.tid, by'.fsd, [], msg⟩ } }).up LCS_STAT.BUSY

/-- The signature check ends (R129, R130): `ok` says that the signature verified. -/
def Hw.sigDone (h : Hw) (j : SigJob) (ok : Bool) : Hw :=
  let by' : AuditBy := ⟨j.tid, j.fsd, false⟩
  let h := { h with lcsm := { h.lcsm with sig := none } }
  if j.resp then
    let h := h.auditResponse by' (if ok then 0 else lrSigFail) (fieldB j.chal 6 1) j.msg
    if ok then (h.setPerm (fieldB j.msg 5 1)).lcsEnd 0 else h.lcsEnd lrSigFail
  else if !ok then h.lcsEnd lrSigFail
  else if h.auditFree < 2 then h.lcsEnd lrAuditFull
  else
    let r := h.tallyAdvance 4 5 by'
    if r.2 != 0 then r.1.lcsEnd r.2 else r.1.lcsTransit lcRtest by'

/-- The signature of the check in progress verifies. -/
def SigJob.verifies (j : SigJob) : Bool :=
  if j.resp then ecdsaOk (sliceB j.msg 16 64) (sliceB j.msg 80 64) (sha256 (j.chal ++ sliceB j.msg 0 16))
  else ecdsaOk Config.returnTestKey (sliceB j.msg 16 64) (sha256 (sliceB j.msg 0 16))

/-! ### Commands (R126) -/

/-- A calibration set may lie at `a`: aligned, wholly in SRAM. -/
def calPlace (a : Nat) : Bool := a % 64 = 0 && 0x10000000 ≤ a && a + 2048 ≤ 0x10200000

/-- The calibration set at `a` is read, and may be committed: its bytes have no uncorrectable error (R202; log entry 173), its MAGIC, VER
and CRC are right. -/
def Hw.calRead (h : Hw) (a : Nat) : Hw × Bool :=
  if calPlace a then
    let q := h.eccRead a 2048
    (q.1, q.2 = .good && calOk (h.bytes a 2048))
  else (h, false)

/-- CAL_COMMIT. -/
def Hw.calCommit (h : Hw) (by' : AuditBy) : Hw :=
  let a := h.get LCS_ARG0.ARG
  let c := h.calRead a
  let h := c.1
  if !c.2 then h.lcsEnd lrBadArg
  else
    let r := h.tallyAdvance 3 4 by'
    let h := r.1
    if r.2 != 0 then h.lcsEnd r.2
    else
      let b := h.on LCS_STATE.CAL_BANK
      let bs := h.bytes a 2048
      let l := h.lcs
      (({ h with lcs := if b then { l with cal0 := bs } else { l with cal1 := bs } }).put LCS_STATE.CAL_BANK (!b)).lcsEnd 0

/-- AUDIT_RELEASE. -/
def Hw.auditRelease (h : Hw) (by' : AuditBy) : Hw :=
  let n := h.get LCS_ARG0.ARG % 4096
  if h.lsLive 15 < n then h.lcsEnd lrBadArg
  else
    let t := seqAdd (h.get (MRC_LS_TAIL.LSEQ 15)) n
    let l := h.lcs
    let h := (({ h with lcs := { l with auditTail := t } }).set (MRC_LS_TAIL.LSEQ 15) t).auditShow
    ((h.audit audRelease by' (leBytes 2 n)).1).lcsEnd 0

/-- SET_OWNER_KEY and SET_DEBUG_KEY store a key hash with its record (R126, R127). -/
def Hw.setKey (h : Hw) (owner : Bool) (by' : AuditBy) : Hw :=
  let k := sliceB h.lcsMsg 0 32
  let h := (h.audit audKeySet by' (leBytes 1 (if owner then 1 else 2) ++ zeros 3 ++ k)).1
  let l := h.lcs
  ((if owner then ({ h with lcs := { l with ownerHash := some k } }).up LCS_STATE.OWNER_KEY
    else ({ h with lcs := { l with debugHash := some k } }).up LCS_STATE.DEBUG_KEY)).lcsEnd 0

/-- The commands that a state accepts (table "Life-cycle states"). -/
def lcsAccepts (st : Nat) : List Nat :=
  match st with
  | 1 => [0x1, 0x2, 0x3, 0x6, 0xD]
  | 2 => [0x1, 0x2, 0x4, 0xC, 0xA, 0xB, 0x6, 0xD]
  | 3 => [0x2, 0x5, 0xC, 0xA, 0xB, 0x7, 0x8, 0x9, 0x6, 0xD]
  | 4 => [0x4, 0xC, 0x6, 0xD]
  | _ => []

/-- The action of an accepted command (table "LCS commands"). -/
def Hw.lcsAct (h : Hw) (by' : AuditBy) (code : Nat) : Hw :=
  match code with
  | 0x1 => if h.lcs.ownerHash.isSome then h.lcsEnd lrAlreadySet else h.setKey true by'
  | 0x2 =>
    if h.lcState = lcProd then
      let r := h.tallyAdvance 1 2 by'
      if r.2 != 0 then r.1.lcsEnd r.2 else r.1.setKey false by'
    else h.setKey false by'
  | 0x3 => if h.auditFree = 0 then h.lcsEnd lrAuditFull else h.lcsTransit lcTest by'
  | 0x4 =>
    if h.lcState = lcTest && h.lcs.ownerHash.isNone then h.lcsEnd lrNoOwnerKey
    else if h.auditFree = 0 then h.lcsEnd lrAuditFull else h.lcsTransit lcProd by'
  | 0x5 => h.lcsToken by'
  | 0x6 => if h.get LCS_ARG0.ARG = h.get SYS_SERIAL_LO.SERIAL then h.lcsTransit lcEol by' else h.lcsEnd lrBadArg
  | 0x7 => h.lcsChallenge.lcsEnd 0
  | 0x8 => h.lcsResponse by'
  | 0x9 => h.endGrant.lcsEnd 0
  | 0xA =>
    let r := h.tallyAdvance 5 6 by'
    if r.2 != 0 then r.1.lcsEnd r.2
    else
      let k := r.1.drawBytes 32
      let h := k.1
      Hw.lcsEnd { h with lcs := { h.lcs with trk := k.2 } } 0
  | 0xB =>
    if 127 < h.get LCS_ARG0.ARG then h.lcsEnd lrBadArg
    else (h.wordsAt LCS_MSG 8 (sha256 (h.lcs.trk ++ leBytes 1 (h.get LCS_ARG0.ARG) ++ sliceB h.lcsMsg 0 32))).lcsEnd 0
  | 0xC => h.calCommit by'
  | 0xD => h.auditRelease by'
  | _ => h.lcsEnd lrBadArg

/-- A command code that the table names. -/
def lcsNamed (code : Nat) : Bool := 1 ≤ code && code ≤ 0xD

/-- A command with the right KEY (R126). -/
def Hw.lcsCmd (h : Hw) (acc : Access) (code : Nat) : Hw :=
  if h.on LCS_STAT.BUSY then h.up LCS_STAT.COLLIDE
  else if acc.tid != 0 then h.lcsEnd lrNotT0
  else if !lcsNamed code then h.lcsEnd lrBadArg
  else if !(lcsAccepts h.lcState).contains code then h.lcsEnd lrWrongState
  else h.lcsAct (h.auditBy acc) code

/-- A write of LCS_CMD. -/
def Hw.lcsCmdWrite (h : Hw) (acc : Access) (v : Word) : Hw :=
  if LCS_CMD.KEY.of v = 0x4C43 then h.lcsCmd acc (LCS_CMD.CMD.of v) else h.set LCS_STAT.REASON lrBadKey

/-- A write in the LCS window. -/
def Hw.lcsWrite (h : Hw) (acc : Access) (adr : Nat) (v : Word) : Hw × AccRes :=
  if adr = LCS_CMD then (h.lcsCmdWrite acc v, .ok)
  else if LCS_TALLY 0 ≤ adr && adr ≤ LCS_TALLY 7 then (h.tallyWrite acc ((adr - LCS_TALLY 0) / 4) v, .ok)
  else h.guarded acc [] (fun h => h.plainWrite adr v)

/-! ### The commands of the table -/

/-- The word that writes command `code` with the right KEY. -/
def lcsWord (code : Nat) : Word := BitVec.ofNat 32 (0x4C430000 + code)

/-- A row of the table "LCS commands": a write of LCS_CMD with the right KEY. -/
def State.lcsRow (s : State) (acc : Access) (code : Nat) : Out :=
  s.onBusTo acc (fun h => h.dbgMay h.dbg.jtag LCS_CMD true (lcsWord code)) (fun h => h.lcsCmd acc code)

/-- SET_OWNER_KEY. -/
def execSetOwnerKey (acc : Access) (s : State) : Out := s.lcsRow acc 0x1

/-- SET_DEBUG_KEY. -/
def execSetDebugKey (acc : Access) (s : State) : Out := s.lcsRow acc 0x2

/-- TO_TEST. -/
def execToTest (acc : Access) (s : State) : Out := s.lcsRow acc 0x3

/-- TO_PROD. -/
def execToProd (acc : Access) (s : State) : Out := s.lcsRow acc 0x4

/-- ENTER_RTEST. -/
def execEnterRtest (acc : Access) (s : State) : Out := s.lcsRow acc 0x5

/-- SCRAP. -/
def execScrap (acc : Access) (s : State) : Out := s.lcsRow acc 0x6

/-- TRANSITION_WIPE_DONE: the wipe, the state word and the request for the reset (R123 steps 4 to 6). -/
def execTransitionWipeDone (same : Bool) (s : State) : Out := s.run (fun h =>
  match h.lcsm.transit with
  | some dst => h.when h.mainUp (fun h => ((h.wipe dst).lcsSettle dst).requestReset rcLcs same)
  | none => h)

/-- DBG_REQUEST. -/
def execDbgRequest (acc : Access) (s : State) : Out := s.lcsRow acc 0x7

/-- DBG_RESPONSE. -/
def execDbgResponse (acc : Access) (s : State) : Out := s.lcsRow acc 0x8

/-- SIGNATURE_CHECK_DONE (R129, R130). -/
def execSignatureCheckDone (s : State) : Out := s.run (fun h =>
  match h.lcsm.sig with
  | some j => h.when h.clocked (fun h => h.sigDone j j.verifies)
  | none => h)

/-- DBG_REVOKE. -/
def execDbgRevoke (acc : Access) (s : State) : Out := s.lcsRow acc 0x9

/-- CHALLENGE_EXPIRY: 60 s of TB after its issue (R128). -/
def execChallengeExpiry (s : State) : Out := s.run (fun h =>
  match h.lcsm.chalTb with
  | some t => h.when h.mainUp (fun h => (h.tbReach (t.toNat + 60000000000)).dropChal)
  | none => h)

/-- TRK_ROTATE. -/
def execTrkRotate (acc : Access) (s : State) : Out := s.lcsRow acc 0xA

/-- TRK_DERIVE. -/
def execTrkDerive (acc : Access) (s : State) : Out := s.lcsRow acc 0xB

/-- CAL_COMMIT. -/
def execCalCommit (acc : Access) (s : State) : Out := s.lcsRow acc 0xC

/-- AUDIT_RELEASE. -/
def execAuditRelease (acc : Access) (s : State) : Out := s.lcsRow acc 0xD

/-- LCS_RESERVED_COMMAND: a code that the table does not name. -/
def execLcsReservedCommand (acc : Access) (code : Byte) (s : State) : Out :=
  s.onBusBy acc (fun h => if lcsNamed code.toNat then h else h.lcsCmd acc code.toNat)

/-- TALLY_ADVANCE: a write of LCS_TALLYn (R132). -/
def execTallyAdvance (acc : Access) (n : Fin 8) (v : Word) (s : State) : Out := s.onBusBy acc (fun h => h.tallyWrite acc n v)

end Sys2Proof.Machine
end

