-- ==== Sys2Proof/Machine/Twin.lean ====
section
/-! DEFINITION. Twin pairing over the Dike link (spec/17_twin.md): training, frames, the role line, heartbeats, mirror windows,
messages, failover, handover and TEST. -/

namespace Sys2Proof.Machine

/-- Codes of TWIN_STAT.STATE (R405). -/
def twOff : Nat := 0
def twTraining : Nat := 1
def twClaiming : Nat := 2
def twActive : Nat := 3
def twStandby : Nat := 4
def twIsolated : Nat := 5
def twTest : Nat := 6

/-- Codes of NEG_RESULT.FAIL (R398). -/
def twFailVersion : Nat := 1
def twFailErrors : Nat := 2

/-- The twin's state. -/
def Hw.twState (h : Hw) : Nat := h.get TWIN_STAT.STATE

/-! ### The boundary register (R460, R461, R464) -/

/-- The balls of banks B0 to B4 in the order of the ball table; true for a bidirectional ball, false for one that is input only (R464). -/
def boundaryBalls : List Bool :=
  List.replicate 7 true ++ List.replicate 2 false ++ (List.replicate 11 true ++ [false]) ++ (List.replicate 26 true ++ List.replicate 2 false) ++
    (List.replicate 36 true ++ List.replicate 3 false) ++ List.replicate 36 true

/-- The first cell of ball `b`: three cells, input, output and control, for each bidirectional ball before it, one for each other. -/
def cellOf (b : Nat) : Nat := (boundaryBalls.take b).foldl (fun n bi => n + if bi then 3 else 1) 0

/-- What ball `b` drives while the JTAG instruction takes it from functional control: nothing under HIGHZ or where its control cell is 1,
else its output cell; none while the functional logic has it (R460, R461). -/
def Hw.scanDrive (h : Hw) (b : Nat) : Option (Option Bool) :=
  if h.dbg.ir = 5 then some none
  else if h.dbg.ir = 0 || h.dbg.ir = 4 then
    some (if boundaryBalls.getD b false && !h.dbg.cells.getLsbD (cellOf b + 2) then some (h.dbg.cells.getLsbD (cellOf b + 1)) else none)
  else none

/-! ### The role line (R402, R403) -/

/-- TW_DRIVE_OWN is `b`: on a fall every DRV output stage is muted at once (R306). -/
def Hw.setDriveOwn (h : Hw) (b : Bool) : Hw :=
  if b then h.up TWIN_STAT.DRIVE_OWN
  else if h.on TWIN_STAT.DRIVE_OWN then (h.clr TWIN_STAT.DRIVE_OWN).driveLost else h

/-- The place of TW_ROLE among the boundary's balls (R460, R464). -/
def roleBallNo : Nat := 5

/-- The device itself pulls the TW_ROLE ball low: the boundary register where it has the ball, else the own driver (R402, R461). -/
def Hw.roleBall (h : Hw) : Bool :=
  match h.scanDrive roleBallNo with
  | some d => d = some false
  | none => h.on TWIN_STAT.ROLE_DRIVE

/-- TW_ROLE is sensed high while the device drives it (R403). -/
def Hw.roleFault (h : Hw) : Hw := ((h.clr TWIN_STAT.ROLE_SENSE).setDriveOwn false).up TWIN_EVT.ROLE_FAULT

/-- ROLE_SENSE after a change of what the device does to the ball: low while it or another driver pulls the line (R402; log entry 109). -/
def Hw.roleNow (h : Hw) : Hw :=
  let low := h.roleBall || h.twin.peerLow
  if h.on TWIN_STAT.ROLE_DRIVE && !low then h.roleFault else h.put TWIN_STAT.ROLE_SENSE low

/-- TW_ROLE is sensed low, or high; where the device does not pull it, another driver does, or none. -/
def Hw.roleSense (h : Hw) (low : Bool) : Hw :=
  (if h.roleBall then h else h.setTwin { h.twin with peerLow := low }).put TWIN_STAT.ROLE_SENSE low

/-- The peer says that it holds TW_ROLE: the line is low (R402). -/
def Hw.peerPulls (h : Hw) : Hw := (h.setTwin { h.twin with peerLow := true }).up TWIN_STAT.ROLE_SENSE

/-- The device pulls TW_ROLE low, and senses it low where the driver has the ball. -/
def Hw.rolePull (h : Hw) : Hw := (h.up TWIN_STAT.ROLE_DRIVE).roleNow

/-- The device releases TW_ROLE. -/
def Hw.roleRelease (h : Hw) : Hw :=
  let h := h.setDriveOwn false
  if h.on TWIN_STAT.ROLE_DRIVE then (h.clr TWIN_STAT.ROLE_DRIVE).roleNow else h

/-- TW_DRIVE_OWN as its three conditions have it (R403). -/
def Hw.driveOwnNow (h : Hw) : Hw :=
  h.setDriveOwn (h.twState = twActive && h.on TWIN_STAT.ROLE_DRIVE && h.on TWIN_STAT.ROLE_SENSE)

/-! ### Torn windows (R412) -/

def Hw.twinMir (h : Hw) (w : Nat) : Option TwinMir := tget none h.twin.mir w
def Hw.setMir (h : Hw) (w : Nat) (m : Option TwinMir) : Hw := h.setTwin { h.twin with mir := tput none h.twin.mir w m }

/-- The target bank of a torn window holds free values, as far as OWNER can write it. -/
def Hw.mirSpoil (h : Hw) (m : TwinMir) : Hw :=
  if m.len = 0 || !h.dmaAllowed m.tid .w m.dst m.len || !h.dmaMapped m.tid m.dst m.len true || h.linePoisoned m.dst m.len then h
  else
    let r := h.drawBytes m.len
    r.1.writeMem m.dst r.2

/-- The window in reception is torn: its bank is discarded with unpredictable contents (R412). -/
def Hw.mirTorn (h : Hw) (w : Nat) (m : TwinMir) (last : Bool) : Hw :=
  ((h.setMir w (if last then none else some { m with dead := true })).inc (TWIN_MW_STAT.TORN w)).mirSpoil m

/-- No further frame of the windows in reception arrives: those not complete are torn (table "When things coincide"; log entry 113). -/
def Hw.mirEnd (h : Hw) : Hw :=
  (List.range 16).foldl (fun h w =>
    match h.twinMir w with
    | some m => if m.dead then h.setMir w none else h.mirTorn w m true
    | none => h) h

/-! ### States (R405, R414) -/

/-- IN_SYNC: a STANDBY whose enabled windows all have a current bank (R414). -/
def Hw.twinSync (h : Hw) : Hw :=
  h.put TWIN_STAT.IN_SYNC (h.twState = twStandby &&
    !anyBelow 16 (fun w => h.on (TWIN_MW_CFG.EN_L w) && h.get (TWIN_MW_CUR.GEN w) == 0))

/-- STATE takes the code: a change sets ROLE_CHG; leaving STANDBY ends the windows in reception, entry to STANDBY clears every CUR.GEN, entry to ISOLATED_STANDBY sets ISO. -/
def Hw.setTwState (h : Hw) (st : Nat) : Hw :=
  if h.twState = st then h
  else
    let h := h.when (h.twState = twStandby) (fun h => h.mirEnd)
    let h := (h.set TWIN_STAT.STATE st).up TWIN_EVT.ROLE_CHG
    let h := if st = twStandby then (List.range 16).foldl (fun h w => h.set (TWIN_MW_CUR.GEN w) 0) h else h
    let h := h.upIf (st = twIsolated) TWIN_EVT.ISO
    let h := if st = twClaiming then h else h.setTwin { h.twin with claim := .none }
    h.twinSync

/-- The device becomes ACTIVE and holds TW_ROLE (R403). -/
def Hw.twinActivate (h : Hw) : Hw :=
  let h := (h.rolePull).setTwState twActive
  (h.setTwin { h.twin with armed := none, leave := false }).driveOwnNow

/-- The device leaves the rig alone in state `st`. -/
def Hw.twinYield (h : Hw) (st : Nat) : Hw := (h.roleRelease).setTwState st

/-- A claim starts with its guard (R404). -/
def Hw.twinClaim (h : Hw) : Hw :=
  let h := h.setTwState twClaiming
  h.setTwin { h.twin with claim := .guard }

/-- ISOLATED_STANDBY: the device holds nothing and has no peer (R417, R420). -/
def Hw.twinIsolate (h : Hw) : Hw := ((h.clr TWIN_STAT.PAIRED).clr TWIN_STAT.PEER_READY).twinYield twIsolated

/-! ### Frames (R401) -/

/-- A heartbeat with its LEAVE and PFAIL flags (R408). -/
def Hw.sendHeartbeat (h : Hw) (leave pfail : Bool) : Hw :=
  let e := h.twin.hb.getD (0, 0)
  let fl := b2n (h.twState = twActive) + 2 * b2n (h.on TWIN_STAT.IN_SYNC && h.twState != twTest) + 4 * b2n leave + 8 * b2n pfail
  h.twinSend 1 (leBytes 8 h.clk.tb.toNat ++ leBytes 8 e.1.toNat ++ leBytes 8 e.2.toNat ++ leBytes 1 h.twState ++ leBytes 1 fl ++ zeros 6)

/-- A CONTROL frame. -/
def Hw.sendControl (h : Hw) (op w tH : Nat) : Hw :=
  if h.on TWIN_STAT.LINK_UP then h.twinSend 3 (leBytes 1 op ++ leBytes 1 w ++ zeros 6 ++ leBytes 8 tH) else h

/-- A received frame is taken where the link is up; a bad one is discarded and counted. -/
def Hw.twinFrame (h : Hw) (ok : Bool) (f : Hw → Hw) : Hw :=
  h.when h.linkUp (fun h => if ok then f h else h.inc TWIN_HB_CNT.ERR_CNT)

/-! ### Messages (R416) -/

/-- MSG_STAT follows the queues. -/
def Hw.setMsgs (h : Hw) (tx rx : List Word) : Hw :=
  (h.setTwin { h.twin with msgTx := tx, msgRx := rx }).sets
    [(TWIN_MSG_STAT.TXLVL, tx.length + h.twin.msgNew.length), (TWIN_MSG_STAT.RXLVL, rx.length)]

/-- MSG_OWNER in force. -/
def Hw.msgOwner (h : Hw) : Nat := h.get TWIN_MSG_OWNER.TID_L

/-- The message of `bs` goes out as MESSAGE frames, from offset `o` on. -/
def Hw.sendMessage (h : Hw) (no total : Nat) (bs : List Byte) : Nat → Nat → Hw
  | 0, _ => h
  | fuel + 1, o =>
    let d := (bs.drop o).take 240
    let h := h.twinSend 5 (leBytes 4 no ++ leBytes 4 o ++ leBytes 4 total ++ zeros 4 ++ d)
    if total ≤ o + 240 then h else h.sendMessage no total bs fuel (o + 240)

/-- The message in buffer `w` is sent and its buffer freed; one above 16 KiB, or one that cannot be read, is freed unsent. -/
def Hw.sendBuffer (h : Hw) (w : Word) : Hw :=
  let t := h.msgOwner
  let n := h.bufLen w
  let h := if 16384 < n then h else
    match h.dmaRead t iniTwin (h.bufAddr w) n with
    | (h, .ok bs) =>
      let no := h.twin.msgNo
      (h.setTwin { h.twin with msgNo := (no + 1) % 2 ^ 32 }).sendMessage no n bs 69 0
    | (h, .error _) => h
  h.portFree t iniTwin w

/-- Queued messages go out while the link is up. -/
def Hw.sendQueued (h : Hw) : Nat → Hw
  | 0 => h
  | fuel + 1 =>
    match h.twin.msgTx with
    | [] => h
    | w :: t => if h.linkUp && h.on TWIN_STAT.PAIRED then ((h.setMsgs t h.twin.msgRx).sendBuffer w).sendQueued fuel else h

/-- The PE validates a handle to be sent; a good one joins the queue (R256). -/
def Hw.msgChecked (h : Hw) (w : Word) : Hw :=
  match h.handleAddr h.msgOwner iniTwin 4 w with
  | (h, some _) => h.setMsgs (h.twin.msgTx ++ [w]) h.twin.msgRx
  | (h, none) => h.setMsgs h.twin.msgTx h.twin.msgRx

/-- The handles that wait for the PE are validated once its clock runs (R86), and what is queued goes out. -/
def Hw.msgRun (h : Hw) : Hw :=
  (h.when h.peOn (fun h => h.twin.msgNew.foldl Hw.msgChecked (h.setTwin { h.twin with msgNew := [] }))).sendQueued 16

/-- A write of MSG_PUSH. -/
def Hw.msgPush (h : Hw) (acc : Access) (w : Word) : Hw × AccRes := h.guarded acc [h.msgOwner] (fun h =>
  if !h.on TWIN_MSG_CFG.EN_L || 16 ≤ h.twin.msgTx.length + h.twin.msgNew.length then h
  else ((h.setTwin { h.twin with msgNew := h.twin.msgNew ++ [w] }).setMsgs h.twin.msgTx h.twin.msgRx).msgRun)

/-- A read of MSG_POP. -/
def Hw.msgPop (h : Hw) (acc : Access) : Hw × RdRes := h.guardedR acc [h.msgOwner] (fun h =>
  match h.twin.msgRx with
  | [] => (h, 0)
  | w :: t => (h.setMsgs h.twin.msgTx t, w))

/-- The message in reception is dropped: its buffer is freed and MSG_DROP counts. -/
def Hw.msgDrop (h : Hw) : Hw :=
  match h.twin.msgIn with
  | some ⟨_, some w, _, _⟩ =>
    let h := h.setTwin { h.twin with msgIn := none }
    (h.portFree h.msgOwner iniTwin w).inc TWIN_MSG_STAT.MSG_DROP
  | _ => h.setTwin { h.twin with msgIn := none }

/-- The first frame of a message allocates its buffer. -/
def Hw.msgBegin (h : Hw) (no total : Nat) : Hw :=
  let h := h.msgDrop
  let p := h.get TWIN_MSG_CFG.MSG_POOL_L
  let dead := fun (h : Hw) => (h.inc TWIN_MSG_STAT.MSG_DROP).setTwin { h.twin with msgIn := some ⟨no, none, 0, total⟩ }
  let r := h.allocNow p h.msgOwner false
  if !hdlV r.2 then dead r.1
  else if r.1.poolSize (hdlPool r.2) < total then dead (r.1.portFree r.1.msgOwner iniTwin r.2)
  else r.1.setTwin { r.1.twin with msgIn := some ⟨no, some r.2, 0, total⟩ }

/-- One MESSAGE frame. -/
def Hw.msgFrame (h : Hw) (no ofs total : Nat) (bs : List Byte) : Hw :=
  if !h.on TWIN_MSG_CFG.EN_L then h
  else
    let h := if ofs = 0 then h.msgBegin no total else h
    match h.twin.msgIn with
    | some ⟨n, some w, next, tot⟩ =>
      if n != no || next != ofs || tot < ofs + bs.length then h.msgDrop
      else
        match h.dmaWrite h.msgOwner iniTwin (h.bufAddr w + ofs) bs with
        | (h, some _) => h.msgDrop
        | (h, none) =>
          if ofs + bs.length < tot then h.setTwin { h.twin with msgIn := some ⟨n, some w, ofs + bs.length, tot⟩ }
          else if 16 ≤ h.twin.msgRx.length then h.msgDrop
          else
            let h := (h.setTwin { h.twin with msgIn := none }).setBufLen w tot
            h.setMsgs h.twin.msgTx (h.twin.msgRx ++ [w])
    | _ => h

/-! ### Pairing and election (R406, R421) -/

/-- The rank of a PREF in the election: 1 beats 0, and 0 beats 2. -/
def prefRank (p : Nat) : Nat := if p = 1 then 0 else if p = 0 then 1 else 2

/-- This device wins the election against its peer. -/
def Hw.twinWins (h : Hw) (p : TwinPeer) : Bool :=
  if h.twState = twActive then true
  else if p.roleHeld then false
  else
    let a := prefRank (h.get TWIN_CFG.PREF)
    let b := prefRank p.pref
    a < b || (a = b && h.serial < p.serial.toNat)

/-- The paired devices elect their roles. -/
def Hw.twinElect (h : Hw) (p : TwinPeer) : Hw :=
  let h := h.when p.roleHeld Hw.peerPulls
  if h.twState = twTest then h
  else if h.twinWins p then (if h.twState = twActive || h.twState = twClaiming then h else h.twinClaim)
  else h.twinYield twStandby

/-- The devices are paired. -/
def Hw.twinPair (h : Hw) (p : TwinPeer) : Hw :=
  let h := h.sets [(TWIN_STAT.PAIRED, 1), (TWIN_STAT.PEER_NEW, 0), (TWIN_STAT.HB_LOST, 0)]
  let h := (h.setTwin { h.twin with miss := 0, leave := false }).twinElect p
  h.msgRun

/-- BOUND (R421). -/
def Hw.twinBound (h : Hw) : Nat := h.get TWIN_BOUND_LO.SERIAL + 2 ^ 32 * h.get TWIN_BOUND_HI.SERIAL

/-- BOUND takes the peer's serial. -/
def Hw.twinBind (h : Hw) (p : TwinPeer) : Hw :=
  h.sets [(TWIN_BOUND_LO.SERIAL, p.serial.toNat % 2 ^ 32), (TWIN_BOUND_HI.SERIAL, p.serial.toNat / 2 ^ 32)]

/-- The trained peer is checked. -/
def Hw.twinBinding (h : Hw) (p : TwinPeer) : Hw :=
  let want := h.get TWIN_PEER_SERIAL_LO.SERIAL + 2 ^ 32 * h.get TWIN_PEER_SERIAL_HI.SERIAL
  if want != 0 && want != p.serial.toNat then (h.clr TWIN_STAT.PAIRED).up TWIN_EVT.PEER_MISMATCH
  else if h.twinBound = 0 then (h.twinBind p).twinPair p
  else if h.twinBound = p.serial.toNat then h.twinPair p
  else (h.clr TWIN_STAT.PAIRED).up TWIN_STAT.PEER_NEW

/-! ### Training (R398, R399) -/

/-- Training runs in every state but OFF and TEST, while EN = 1 (R407). -/
def Hw.mayTrain (h : Hw) : Bool := h.on TWIN_CFG.EN && h.twState != twOff && h.twState != twTest

/-- The link is down; a message and the windows in reception are torn. -/
def Hw.linkDown (h : Hw) : Hw := ((h.clr TWIN_STAT.LINK_UP).msgDrop).mirEnd

/-- Training starts with step 1. -/
def Hw.trainStart (h : Hw) : Hw :=
  let h := (h.linkDown).sets [(TWIN_NEG_RESULT.DONE, 0), (TWIN_STAT.PEER_NEW, 0)]
  h.setTwin { h.twin with train := .align, lanes := 0, peer := none, cap := none, mode := 0 }

/-- A mode code uses only lanes that both sides report aligned. -/
def modeLanesOk (lanes m : Nat) : Bool :=
  if m = 3 || m = 5 || m = 6 then lanes = 3 else 1 ≤ m && m ≤ 6 && lanes != 0

/-- The highest mode code at or below `top` that the lanes allow; 0 where there is none. -/
def modeBelow (lanes top : Nat) : Nat := ([6, 5, 4, 3, 2, 1].find? (fun m => m ≤ top && modeLanesOk lanes m)).getD 0

/-- Training ends with FAIL. -/
def Hw.trainFail (h : Hw) (code : Nat) : Hw :=
  let h := (h.sets [(TWIN_NEG_RESULT.MODE, 0), (TWIN_NEG_RESULT.DONE, 1), (TWIN_NEG_RESULT.FAIL, code)]).up TWIN_EVT.TRAIN_DONE
  h.setTwin { h.twin with train := .ended, mode := 0 }

/-- The mode is tested, or there is none left. -/
def Hw.trainTry (h : Hw) (m : Nat) : Hw :=
  if m = 0 then h.trainFail twFailErrors else h.setTwin { h.twin with train := .prbs, mode := m }

/-- The capability frame that this device sends (step 2). -/
def Hw.ownCap (h : Hw) : TwinCap :=
  ⟨1, 1, h.get TWIN_LINK.CEIL, ⟨h.twin.lanes, BitVec.ofNat 64 h.serial, h.get TWIN_CFG.PREF, h.twState = twActive, h.twinBound != 0⟩⟩

/-- The lanes that both sides report aligned. -/
def Hw.commonLanes (h : Hw) : Nat := h.twin.lanes &&& (h.twin.peer.map (·.lanes)).getD 0

/-- The peer's capability frame (steps 2 and 3). -/
def Hw.capability (h : Hw) (verMin verMax ceil : Nat) (p : TwinPeer) : Hw :=
  let h := h.sets [(TWIN_PEER_ID_LO.SERIAL, p.serial.toNat % 2 ^ 32), (TWIN_PEER_ID_HI.SERIAL, p.serial.toNat / 2 ^ 32)]
  let h := h.setTwin { h.twin with peer := some p }
  if 1 < verMin || verMax < 1 then h.trainFail twFailVersion
  else h.trainTry (modeBelow h.commonLanes (min (h.get TWIN_LINK.CEIL) ceil))

/-- A mode passed its test: it is written to NEG_RESULT; below the floor the link is held down (steps 4 and 5, R399). -/
def Hw.trainDone (h : Hw) (p : TwinPeer) : Hw :=
  let m := h.twin.mode
  let low := m < h.get TWIN_LINK.FLOOR
  let h := (h.sets [(TWIN_NEG_RESULT.MODE, m), (TWIN_NEG_RESULT.VER, 1), (TWIN_NEG_RESULT.DONE, 1), (TWIN_NEG_RESULT.FAIL, 0),
    (TWIN_NEG_RESULT.LINK_FLOOR, b2n low)]).up TWIN_EVT.TRAIN_DONE
  if low then h.setTwin { h.twin with train := .retry }
  else
    let h := (h.setTwin { h.twin with train := .ended, hb := none, miss := 0 }).up TWIN_STAT.LINK_UP
    h.twinBinding p

/-! ### Heartbeats (R408, R409) -/

/-- Heartbeats cross the link: it is up, and the peer is not a new one (R408, R421). -/
def Hw.hbOn (h : Hw) : Bool := h.linkUp && !h.on TWIN_STAT.PEER_NEW && h.twState != twOff

/-- A valid heartbeat. -/
def Hw.heartbeat (h : Hw) (txTb echoTx echoRx : DWord) (flags : Byte) : Hw :=
  let t4 := h.clk.tb
  let d := ((echoRx - echoTx) + (txTb - t4)).toInt
  let h := (h.setS TWIN_PEER_OFS.NS (d / 2)).sets [(TWIN_STAT.HB_LOST, 0), (TWIN_STAT.PEER_READY, b2n (flags.getLsbD 1))]
  let h := h.when (flags.getLsbD 0) Hw.peerPulls
  let x := h.twin
  let ho := if flags.getLsbD 0 then (match x.ho with | .released _ => TwinHo.none | o => o) else x.ho
  h.setTwin { x with hb := some (txTb, t4), miss := 0, leave := flags.getLsbD 2, ho := ho }

/-- A miss window passes: the third in a row sets HB_LOST (R409, R417). -/
def Hw.hbMiss (h : Hw) (low : Bool) : Hw :=
  let h := (h.inc TWIN_HB_CNT.MISSED).up TWIN_EVT.HB_MISS
  let n := h.twin.miss + 1
  let h := (h.setTwin { h.twin with miss := min n 3 }).roleSense low
  if n != 3 then h
  else
    let h := (h.up TWIN_STAT.HB_LOST).clr TWIN_STAT.PEER_READY
    if h.twState = twActive then (h.clr TWIN_STAT.PAIRED).up TWIN_EVT.PEER_LOST
    else if h.twState = twStandby && low then h.twinIsolate
    else h

/-! ### Failover (R417) -/

/-- The STANDBY takes the rig. -/
def Hw.failover (h : Hw) : Hw :=
  let us := match h.twin.hb with
    | some (_, t) => (h.clk.tb - t).toNat / 1000
    | none => 0
  let h := (h.upIf (!h.on TWIN_STAT.IN_SYNC) TWIN_EVT.FO_UNSYNC).up TWIN_EVT.FAILOVER
  ((h.set TWIN_LAST_FO.US (satU 16 us)).clr TWIN_STAT.PAIRED).twinActivate

/-- An ACTIVE device leaves on purpose (R418). -/
def Hw.twinLeave (h : Hw) (pfail : Bool) : Hw :=
  if h.twState = twActive then
    let h := if h.hbOn then h.sendHeartbeat true pfail else h
    let h := (h.twinYield twTraining).clr TWIN_STAT.PAIRED
    h.setTwin { h.twin with ho := .none }
  else h

/-- SLEEP: the link stops (R423). -/
def Hw.twinSleep (h : Hw) : Hw :=
  let h := (h.twinLeave false).linkDown.clr TWIN_STAT.PAIRED
  h.setTwin { h.twin with train := .idle }

/-- After a wake, or at launch end, training starts where the link is enabled (R398, R423). -/
def Hw.twinWake (h : Hw) : Hw := if h.mayTrain then h.trainStart else h

/-! ### Mirror windows (R410 to R414) -/

def Hw.twinPub (h : Hw) (w : Nat) : Option TwinPub := tget none h.twin.pub w
def Hw.setPub (h : Hw) (w : Nat) (m : Option TwinPub) : Hw := h.setTwin { h.twin with pub := tput none h.twin.pub w m }

/-- The window's length in bytes. -/
def Hw.mwLen (h : Hw) (w : Nat) : Nat := h.get (TWIN_MW_CFG.LEN_L w) * 64

/-- The window's OWNER in force. -/
def Hw.mwOwner (h : Hw) (w : Nat) : Nat := h.get (TWIN_MW_OWNER.TID_L w)

/-- A publish of window `w` starts on the ACTIVE, or is refused or skipped while one runs (R411) or a commit drains the block
(R432). -/
def Hw.pubStart (h : Hw) (w : Nat) (auto : Bool) : Hw :=
  if h.twState != twActive || !h.on (TWIN_MW_CFG.EN_L w) then h
  else if h.on (TWIN_MW_STAT.BUSY w) || h.drained 4 then
    (if auto then h.inc (TWIN_MW_STAT.SKIP w) else h.up (TWIN_MW_STAT.PUB_BUSY w))
  else
    let g := (h.get (TWIN_MW_GEN.GEN w) + 1) % 2 ^ 32
    let src := h.get (TWIN_MW_SRC.ADDR_L w) * 64
    ((h.set (TWIN_MW_GEN.GEN w) g).up (TWIN_MW_STAT.BUSY w)).setPub w (some ⟨src, h.mwLen w, h.mwOwner w, g, h.bytes src (h.mwLen w)⟩)

/-- The frames of a publish, from offset `o` on. -/
def Hw.sendMirror (h : Hw) (w : Nat) (p : TwinPub) (bs : List Byte) : Nat → Nat → Hw
  | 0, _ => h
  | fuel + 1, o =>
    let last := p.len ≤ o + 240
    let h := h.twinSend 4 (leBytes 1 w ++ leBytes 1 (b2n last) ++ zeros 2 ++ leBytes 4 p.gen ++ leBytes 4 o ++
      leBytes 4 (if last then (crc32c bs).toNat else 0) ++ (bs.drop o).take 240)
    if last then h else h.sendMirror w p bs fuel (o + 240)

/-- The first `n` parts of 8 bytes, of `old` or of `new`; where they differ a free value says of which (R18, R411). -/
def Hw.mixParts (h : Hw) (old new : List Byte) : Nat → Hw × List Byte
  | 0 => (h, [])
  | n + 1 =>
    let a := old.take 8
    let b := new.take 8
    let r := (if a = b then h else h.drawn).mixParts (old.drop 8) (new.drop 8) n
    (r.1, (if a != b && h.free.getLsbD 0 then a else b) ++ r.2)

/-- The publish ends: SRC is read with OWNER's TID and sent, each 8-byte part as it was at the start or as it is now; BUSY clears
(R411). -/
def Hw.pubDone (h : Hw) (w : Nat) (p : TwinPub) : Hw :=
  let h := match h.dmaRead p.tid iniTwin p.src p.len with
    | (h, .ok bs) =>
      if h.on TWIN_STAT.LINK_UP then
        let r := h.mixParts p.old bs ((p.len + 7) / 8)
        r.1.sendMirror w p r.2 274 0
      else h
    | (h, .error _) => h
  (h.setPub w none).clr (TWIN_MW_STAT.BUSY w)

/-- The target bank of a window: neither current nor locked; where both are neither, which one the spec leaves open (R412): a free
value (log entry 113). -/
def Hw.mirBank (h : Hw) (w : Nat) : Hw × Option Nat :=
  let cur := if h.get (TWIN_MW_CUR.GEN w) = 0 then none else some (h.get (TWIN_MW_STAT.CUR_BANK w))
  let lck := if h.on (TWIN_MW_LOCKSTAT.LOCKED w) then some (h.get (TWIN_MW_LOCKSTAT.LBANK w)) else none
  let ok := fun b => cur != some b && lck != some b
  if ok 0 && ok 1 then (h.drawn, some (h.free.toNat % 2))
  else (h, if ok 0 then some 0 else if ok 1 then some 1 else none)

/-- The first frame of a GEN: a publish that was not complete is torn, and a target bank is chosen or the window refused. -/
def Hw.mirBegin (h : Hw) (w gen : Nat) : Hw :=
  let h := match h.twinMir w with
    | some m => if m.dead then h else h.mirTorn w m true
    | none => h
  match h.mirBank w with
  | (h, some b) =>
    h.setMir w (some ⟨gen, b, 0, 0xFFFFFFFF, h.mwLen w, (if b = 0 then h.get (TWIN_MW_DST0.ADDR_L w) else h.get (TWIN_MW_DST1.ADDR_L w)) * 64,
      h.mwOwner w, false⟩)
  | (h, none) => (h.setMir w (some ⟨gen, 0, 0, 0, 0, 0, 0, true⟩)).sendControl 4 w 0

/-- One MIRROR frame on the STANDBY (R412). -/
def Hw.mirFrame (h : Hw) (w : Nat) (last : Bool) (gen ofs : Nat) (wcrc : BitVec 32) (bs : List Byte) : Hw :=
  if h.twState != twStandby || !h.on (TWIN_MW_CFG.EN_L w) then h
  else
    let h := if (h.twinMir w).map (·.gen) = some gen then h else h.mirBegin w gen
    match h.twinMir w with
    | none => h
    | some m =>
      if m.dead then (if last then h.setMir w none else h)
      else if m.next != ofs || m.len < ofs + bs.length then h.mirTorn w m last
      else
        match h.dmaWrite m.tid iniTwin (m.dst + ofs) bs with
        | (h, some _) => h.mirTorn w m last
        | (h, none) =>
          let c := crcUpdate m.crc bs
          let n := ofs + bs.length
          if !last then h.setMir w (some { m with next := n, crc := c })
          else if n = m.len && (c ^^^ 0xFFFFFFFF) = wcrc then
            (((h.setMir w none).sets [(TWIN_MW_CUR.GEN w, gen), (TWIN_MW_STAT.CUR_BANK w, m.bank)]).up TWIN_EVT.MW_UPD).twinSync
          else h.mirTorn w m true

/-- A write of LOCK (R413); where no bank is current nothing is pinned. -/
def Hw.mwLock (h : Hw) (acc : Access) (w : Nat) (b : Bool) : Hw × AccRes := h.guarded acc [h.mwOwner w] (fun h =>
  let h := h.put (TWIN_MW_LOCK.LOCK w) b
  if !b then h.clr (TWIN_MW_LOCKSTAT.LOCKED w)
  else if h.get (TWIN_MW_CUR.GEN w) = 0 then h
  else h.sets [(TWIN_MW_LOCKSTAT.LOCKED w, 1), (TWIN_MW_LOCKSTAT.LBANK w, h.get (TWIN_MW_STAT.CUR_BANK w)),
    (TWIN_MW_LGEN.GEN w, h.get (TWIN_MW_CUR.GEN w))])

/-- Windows with AUTO = 1 start a publish at an epoch boundary (R411). -/
def Hw.twinEpoch (h : Hw) : Hw :=
  if !h.twOn then h
  else (List.range 16).foldl (fun h w => if h.on (TWIN_MW_CFG.AUTO_L w) then h.pubStart w true else h) h

/-! ### Commits (R410, R416) -/

/-- `n` bytes from `a` on may hold a mirror window's bytes. -/
def Hw.mwPlace (h : Hw) (a n : Nat) : Bool :=
  (0x10000000 ≤ a && a + n ≤ 0x10200000) || a + n ≤ 0x00FC0000 || (0x80000000 ≤ a && a + n ≤ h.ddrTop)

/-- The first offence of the captured NET values. -/
def Hw.twinCheck (h : Hw) : Option (Nat × Nat) :=
  let bad := fun w =>
    let n := h.cap (TWIN_MW_CFG.LEN w) * 64
    let s := h.cap (TWIN_MW_SRC.ADDR w) * 64
    let d := h.cap (TWIN_MW_DST0.ADDR w) * 64
    let e := h.cap (TWIN_MW_DST1.ADDR w) * 64
    let apart := fun a b => a + n ≤ b || b + n ≤ a
    h.cap (TWIN_MW_CFG.EN w) = 1 && !(h.mwPlace s n && h.mwPlace d n && h.mwPlace e n && apart s d && apart s e && apart d e)
  match (List.range 16).find? bad with
  | some w => some (1, w)
  | none => if h.cap TWIN_MSG_CFG.EN = 1 && h.cap (PE_POOL_CFG.EN (h.cap TWIN_MSG_CFG.MSG_POOL)) = 0 then some (2, 0) else none

/-! ### Keys (R419 to R422) -/

/-- The handover key (R419). -/
def Hw.handoverKey (h : Hw) : Hw :=
  if h.twState = twActive && h.twin.ho = .none then
    let t := h.clk.tb.toNat + 20000
    (h.setTwin { h.twin with ho := .asked t false }).sendControl 1 0 t
  else h

/-- The TEST key (R422); no training runs in TEST (R407). -/
def Hw.testKey (h : Hw) : Hw :=
  if h.twState = twActive then h.up TWIN_EVT.TEST_REJ
  else if h.twState = twStandby || h.twState = twIsolated then
    let h := h.twinYield twTest
    if h.on TWIN_STAT.LINK_UP then h else h.setTwin { h.twin with train := .idle }
  else h

/-- The REBIND key (R421). -/
def Hw.rebindKey (h : Hw) (acc : Access) : Hw :=
  match h.twin.peer with
  | some p =>
    if h.on TWIN_STAT.PEER_NEW then
      let r := h.tallyAdvance 2 3 (h.auditBy acc)
      if r.2 != 0 then ((r.1.set LCS_STAT.REASON r.2).up LCS_STAT.REFUSED).up TWIN_EVT.REBIND_FAIL else (r.1.twinBind p).twinPair p
    else h
  | none => h

/-- A write of TWIN_CTL. -/
def Hw.twinKey (h : Hw) (acc : Access) (v : Word) : Hw :=
  if !h.twOn then h
  else if v = 0x54570001 then (if h.twState = twIsolated then h.twinClaim else h)
  else if v = 0x54570002 then h.handoverKey
  else if v = 0x54570003 then h.testKey
  else if v = 0x54570004 then (if h.twState = twTest then ((h.clr TWIN_STAT.PAIRED).setTwState twTraining).twinWake else h)
  else if v = 0x54570005 then h.rebindKey acc
  else if v = 0x54570006 then h.twinWake
  else h

/-! ### Register accesses -/

/-- A write in the TWIN window. -/
def Hw.twinWrite (h : Hw) (acc : Access) (adr : Nat) (v : Word) : Hw × AccRes :=
  let o := adr - 0x20150000
  let w := (o - 0x100) / 0x40
  if adr = TWIN_CTL then h.guarded acc [] (fun h => h.twinKey acc v)
  else if 0x100 ≤ o && o < 0x500 && o % 0x40 = 0x14 then
    h.guarded acc [h.mwOwner w] (fun h => if v.getLsbD 0 && h.twOn then h.pubStart w false else h)
  else if 0x100 ≤ o && o < 0x500 && o % 0x40 = 0x24 then h.mwLock acc w (v.getLsbD 0)
  else if adr = TWIN_MSG_PUSH then h.msgPush acc v
  else if 0x100 ≤ o && o < 0x500 && o % 0x40 = 0x20 then h.guarded acc [h.mwOwner w] (fun h => h.plainWrite adr v)
  else h.guarded acc [] (fun h => h.plainWrite adr v)

/-- A read in the TWIN window. -/
def Hw.twinRead (h : Hw) (acc : Access) (adr : Nat) : Hw × RdRes :=
  let o := adr - 0x20150000
  let tids := if adr = TWIN_MSG_STAT then [h.msgOwner]
    else if 0x100 ≤ o && o < 0x500 then [h.mwOwner ((o - 0x100) / 0x40)] else []
  if h.bistMutes adr then (h, .word 0)
  else if adr = TWIN_MSG_POP then h.msgPop acc
  else if readChanges adr && !(acc.tid = 0 || tids.contains acc.tid.toNat) then (h, .owner)
  else h.plainRes adr

/-! ### The commands -/

/-- A key from T0. -/
def State.twinKeyRow (s : State) (acc : Access) (v : Word) : Out := s.onBusBy acc (fun h => (h.twinWrite acc TWIN_CTL v).1)

/-- An event of the twin block. -/
def State.onTwin (s : State) (f : Hw → Hw) : Out := s.run (fun h => h.when h.twOn f)

/-- RETRAIN. -/
def execRetrain (acc : Access) (s : State) : Out := s.twinKeyRow acc 0x54570006

/-- TRAINING_RESTART: the wait after a link fault, an alignment failure or a floor has passed. -/
def execTrainingRestart (s : State) : Out := s.onTwin (fun h => if h.mayTrain && h.twin.train = .retry then h.trainStart else h)

/-- LANE_ALIGNED: the capability frame goes out with the lanes aligned so far (R398 steps 1 and 2). -/
def execLaneAligned (lane : Fin 2) (s : State) : Out := s.onTwin (fun h =>
  if h.twin.train = .align then
    let h := h.setTwin { h.twin with lanes := setBit h.twin.lanes lane true }
    h.setTwin { h.twin with cap := some h.ownCap }
  else h)

/-- ALIGN_TIMEOUT. -/
def execAlignTimeout (s : State) : Out := s.onTwin (fun h =>
  if h.twin.train = .align && h.twin.lanes = 0 then h.setTwin { h.twin with train := .retry } else h)

/-- CAPABILITY_FRAME; `bound` says that the peer reports a bound peer. -/
def execCapabilityFrame (verMin verMax ceil : Byte) (lanes pref : BitVec 2) (serial : DWord) (roleHeld : Bool) (s : State)
    (bound : Bool := false) : Out :=
  s.onTwin (fun h => if h.twin.train = .align && h.twin.lanes != 0 then
    h.capability verMin.toNat verMax.toNat ceil.toNat ⟨lanes.toNat, serial, pref.toNat, roleHeld, bound⟩ else h)

/-- PRBS_CHECK_END: `err` says that either side saw an error. -/
def execPrbsCheckEnd (err : Bool) (s : State) : Out := s.onTwin (fun h =>
  match h.twin.train, h.twin.peer with
  | .prbs, some p => if err then h.trainTry (modeBelow h.commonLanes (h.twin.mode - 1)) else h.trainDone p
  | _, _ => h)

/-- LINK_FAULT (R400). -/
def execLinkFault (s : State) : Out := s.onTwin (fun h => if h.on TWIN_STAT.LINK_UP then
  let h := (h.linkDown).up TWIN_EVT.LINK_ERR
  h.setTwin { h.twin with train := .retry } else h)

/-- HEARTBEAT_SEND (R408). -/
def execHeartbeatSend (s : State) : Out := s.onTwin (fun h => if h.hbOn then h.sendHeartbeat false false else h)

/-- HEARTBEAT: `ok` says that its CRC and its reserved bytes are right. -/
def execHeartbeat (ok : Bool) (txTb echoTx echoRx : DWord) (flags : Byte) (s : State) : Out := s.onTwin (fun h =>
  if h.hbOn then h.twinFrame ok (fun h => h.heartbeat txTb echoTx echoRx flags) else h)

/-- HB_MISS: `low` says that TW_ROLE is sensed low. -/
def execHbMiss (low : Bool) (s : State) : Out := s.onTwin (fun h =>
  if h.twin.hb.isSome && h.twState != twOff && !h.on TWIN_STAT.PEER_NEW then h.hbMiss low else h)

/-- TRACK (R306). -/
def execTrack (ok : Bool) (n : Fin 4) (code : BitVec 20) (s : State) : Out := s.onTwin (fun h => h.twinFrame ok (fun h =>
  if h.twState = twStandby then h.setDrv n { h.drvAt n with rx := some code.toNat } else h))

/-- A time in the peer's TB as a time in own TB (R408, R419). -/
def Hw.ownTime (h : Hw) (t : DWord) : Nat := (t - BitVec.ofInt 64 (h.getS TWIN_PEER_OFS.NS)).toNat

/-- HANDOVER_REQ on the STANDBY: its answer with T_H in own TB, and its arming around it (R401, R419). -/
def execHandoverReq (ok : Bool) (tH : DWord) (s : State) : Out := s.onTwin (fun h => h.twinFrame ok (fun h =>
  if h.twState = twStandby && h.on TWIN_STAT.IN_SYNC then
    (h.setTwin { h.twin with armed := some (h.ownTime tH) }).sendControl 2 0 (h.ownTime tH)
  else h.sendControl 3 0 (h.ownTime tH)))

/-- The answer to the handover that was asked for (log entry 174). -/
def Hw.handoverAnswer (h : Hw) (ack : Bool) : Hw :=
  match h.twin.ho with
  | .asked t _ => h.setTwin { h.twin with ho := .asked t ack }
  | _ => h

/-- HANDOVER_ACK, with T_H in the peer's TB. -/
def execHandoverAck (ok : Bool) (_tH : DWord) (s : State) : Out := s.onTwin (fun h => h.twinFrame ok (fun h => h.handoverAnswer true))

/-- HANDOVER_NAK, with T_H in the peer's TB. -/
def execHandoverNak (ok : Bool) (_tH : DWord) (s : State) : Out := s.onTwin (fun h => h.twinFrame ok (fun h => h.handoverAnswer false))

/-- MIRROR_NAK (R411). -/
def execMirrorNak (ok : Bool) (w : Fin 16) (s : State) : Out := s.onTwin (fun h => h.twinFrame ok (fun h => h.inc (TWIN_MW_STAT.REFUSED w)))

/-- MIRROR (R412). -/
def execMirror (ok : Bool) (w : Fin 16) (last : Bool) (gen ofs wcrc : Word) (data : List Byte) (s : State) : Out := s.onTwin (fun h =>
  h.twinFrame ok (fun h => h.mirFrame w last gen.toNat ofs.toNat wcrc (data.take 240)))

/-- MESSAGE (R416). -/
def execMessage (ok : Bool) (no ofs total : Word) (data : List Byte) (s : State) : Out := s.onTwin (fun h =>
  h.twinFrame ok (fun h => h.msgFrame no.toNat ofs.toNat total.toNat (data.take 240)))

/-- CLAIM. -/
def execClaim (acc : Access) (s : State) : Out := s.twinKeyRow acc 0x54570001

/-- CLAIM_GUARD_EXPIRY: TW_ROLE has been high for 20 µs: a claim that waits in its guard, or a device in ISOLATED_STANDBY with
ISO_CLAIM = 1, pulls the line low and arbitrates (R404, R420). -/
def execClaimGuardExpiry (s : State) : Out := s.onTwin (fun h =>
  let h := h.when (h.twState = twIsolated && h.on TWIN_CFG.ISO_CLAIM) (fun h => h.twinClaim)
  if h.twState = twClaiming && h.twin.claim = .guard then
    let h := (h.roleSense false).rolePull
    h.setTwin { h.twin with claim := .arbitration 64 }
  else h)

/-- One slot of the arbitration: the device pulls TW_ROLE where its serial bit is 0 and releases it where the bit is 1, and has lost where
it samples the line low then; `low` says that another driver pulls it (R404). -/
def Hw.claimSlot (h : Hw) (low : Bool) : Hw :=
  match h.twin.claim with
  | .arbitration (n + 1) =>
    if bitOf h.serial n then
      let h := h.roleRelease.roleSense low
      h.setTwin { h.twin with claim := if low then .lost n else .arbitration n }
    else
      let h := h.rolePull
      h.setTwin { h.twin with claim := .arbitration n }
  | .lost (n + 1) =>
    let h := h.roleSense low
    h.setTwin { h.twin with claim := .lost n }
  | _ => h

/-- The slots of the arbitration still to come. -/
def TwinClaim.slots : TwinClaim → Nat
  | .arbitration n | .lost n => n
  | _ => 0

/-- The claim ends: the device still in it holds the line and becomes ACTIVE, the loser becomes ISOLATED_STANDBY (R404, R407). -/
def Hw.claimOver (h : Hw) : Hw :=
  match h.twin.claim with
  | .arbitration 0 => h.twinActivate
  | .lost 0 => h.twinYield twIsolated
  | _ => h

/-- CLAIM_END: `win` says that no other driver pulls TW_ROLE in the slots still to come. With `slots` only these slots pass, each with
whether another driver pulls the line in it; the claim ends after the last of the 64 (R404). -/
def execClaimEnd (win : Bool) (s : State) (slots : List Bool := []) : Out := s.onTwin (fun h =>
  if h.twState = twClaiming then
    ((if slots = [] then List.replicate h.twin.claim.slots (!win) else slots).foldl Hw.claimSlot h).claimOver
  else h)

/-- LONE_TMO: `low` says that TW_ROLE is sensed low (R407). -/
def execLoneTmo (low : Bool) (s : State) : Out := s.onTwin (fun h =>
  if (h.twState = twTraining || h.twState = twStandby) && !h.on TWIN_STAT.PAIRED then
    (if low then (h.roleSense true).twinIsolate else (h.roleSense false).twinClaim)
  else h)

/-- FAILOVER: `low` says that TW_ROLE is still sensed low (R417). -/
def execFailover (low : Bool) (s : State) : Out := s.onTwin (fun h =>
  if h.twState = twStandby && h.on TWIN_STAT.PAIRED && (h.on TWIN_STAT.HB_LOST || h.twin.leave) then
    (if !low then (h.roleSense false).failover else if h.on TWIN_STAT.HB_LOST then (h.roleSense true).twinIsolate else h.roleSense true)
  else h)

/-- ROLE_FAULT: TW_ROLE is sensed high (R403); ROLE_SENSE follows in a device that does not drive it too (R402; log entry 109). -/
def execRoleFault (s : State) : Out := s.onTwin (fun h => if h.on TWIN_STAT.ROLE_DRIVE then h.roleFault else h.roleSense false)

/-- DRIVE_OWN_RESTORE: TW_ROLE has been sensed low for 10 µs (R403); ROLE_SENSE follows in a device that does not drive it too (R402; log
entry 109). -/
def execDriveOwnRestore (s : State) : Out := s.onTwin (fun h => (h.roleSense true).driveOwnNow)

/-- HANDOVER. -/
def execHandover (acc : Access) (s : State) : Out := s.twinKeyRow acc 0x54570002

/-- HANDOVER_ABORT: T_H − 2 µs without an ACK (R419). -/
def execHandoverAbort (s : State) : Out := s.onTwin (fun h =>
  match h.twin.ho with
  | .asked t false => ((h.tbReach (t - 2000)).up TWIN_EVT.HO_REJ).setTwin { h.twin with ho := .none }
  | _ => h)

/-- HANDOVER_RELEASE: T_H with the ACK (R419). -/
def execHandoverRelease (s : State) : Out := s.onTwin (fun h =>
  match h.twin.ho with
  | .asked t true => if h.twState = twActive then
      let h := (h.tbReach t).twinYield twStandby
      h.setTwin { h.twin with ho := .released t }
    else h.setTwin { h.twin with ho := .none }
  | _ => h)

/-- HANDOVER_TAKE: the armed STANDBY senses TW_ROLE high from T_H − 2 µs to T_H + 2 µs (R419). -/
def execHandoverTake (s : State) : Out := s.onTwin (fun h =>
  match h.twin.armed with
  | some t =>
    if h.twState = twStandby && h.clk.tb.toNat ≤ t + 2000 then ((h.tbReach (t - 2000)).roleSense false).twinActivate
    else h.setTwin { h.twin with armed := none }
  | none => h)

/-- HANDOVER_RECLAIM: T_H + 5 µs with TW_ROLE still high (R419). -/
def execHandoverReclaim (s : State) : Out := s.onTwin (fun h =>
  match h.twin.ho with
  | .released t =>
    let h := (h.tbReach (t + 5000)).setTwin { h.twin with ho := .none }
    if h.twState = twStandby then ((h.roleSense false).twinActivate).up TWIN_EVT.HO_REJ else h
  | _ => h)

/-- TEST. -/
def execTest (acc : Access) (s : State) : Out := s.twinKeyRow acc 0x54570003

/-- READY. -/
def execReady (acc : Access) (s : State) : Out := s.twinKeyRow acc 0x54570004

/-- REBIND. -/
def execRebind (acc : Access) (s : State) : Out := s.twinKeyRow acc 0x54570005

/-- PUB. -/
def execPub (acc : Access) (w : Fin 16) (s : State) : Out := s.onBusBy acc (fun h => (h.twinWrite acc (TWIN_MW_PUB w) 1).1)

/-- PUBLISH_DONE. -/
def execPublishDone (w : Fin 16) (s : State) : Out := s.onTwin (fun h =>
  match h.twinPub w with
  | some p => h.pubDone w p
  | none => h)

/-- LOCK. -/
def execLock (acc : Access) (w : Fin 16) (s : State) : Out := s.onBusBy acc (fun h => (h.twinWrite acc (TWIN_MW_LOCK w) 1).1)

/-- UNLOCK. -/
def execUnlock (acc : Access) (w : Fin 16) (s : State) : Out := s.onBusBy acc (fun h => (h.twinWrite acc (TWIN_MW_LOCK w) 0).1)

/-- MSG_PUSH. -/
def execMsgPush (acc : Access) (v : Word) (s : State) : Out := s.onBusBy acc (fun h => (h.twinWrite acc TWIN_MSG_PUSH v).1)

/-- MSG_POP. -/
def execMsgPop (acc : Access) (s : State) : Out := s.onBusBy acc (fun h => Hw.answered (h.twinRead acc TWIN_MSG_POP))

end Sys2Proof.Machine
end

