-- ==== Sys2Proof/Machine/Commit.lean ====
section
/-! DEFINITION. The commit engine (spec/18_reconfiguration.md R424 to R434): arming, capture at an epoch boundary, validation, ROLL
and DRAIN switching; and the epoch boundary itself (spec/01_architecture.md R19, R21). -/

namespace Sys2Proof.Machine

/-! ### Staging copies and values in force (R424, R425) -/

/-- The register addresses with SH fields of domain `d` that a table lists, under their staging or _LIVE address. -/
def shKeys (d : Nat) (l : SMap (BitVec 32)) : List Nat := l.filterMap (fun e =>
  match rowOf e.1 with
  | some (r, live) => if r.sh != 0 && r.dom = d then some (if live then e.1 - r.live else e.1) else none
  | none => none)

/-- The word with its bits of `m` taken from `v`. -/
def mixed (m w v : BitVec 32) : BitVec 32 := (w &&& ~~~ m) ||| (v &&& m)

/-- The register at `a` takes its captured SH fields; its staging copy holds the same, unless it was written since the capture (R425,
R427). -/
def Hw.applyReg (h : Hw) (cap : SMap (BitVec 32)) (a : Nat) : Hw :=
  match rowOf a with
  | some (r, false) =>
    let m : BitVec 32 := BitVec.ofNat 32 r.sh
    let new := mget resetWord cap a
    let h := if h.cmt.words.contains a then h else h.wr a (mixed m (h.rd a) new)
    h.wr (a + r.live) (mixed m (h.rd (a + r.live)) new)
  | _ => h

/-- The register at `a` gets its staging copy back from the value in force (R425). -/
def Hw.unstageReg (h : Hw) (a : Nat) : Hw :=
  match rowOf a with
  | some (r, false) => h.wr a (mixed (BitVec.ofNat 32 r.sh) (h.rd a) (h.rd (a + r.live)))
  | _ => h

/-- Every staging copy of domain `d` returns to the value in force (R425). -/
def Hw.discardDom (h : Hw) (d : Nat) : Hw :=
  ((shKeys d h.regs).dedup.foldl Hw.unstageReg h).set CMT_STAGED.DOMAIN (setBit (h.get CMT_STAGED.DOMAIN) (d - 1) false)

/-- DISCARD: every domain, the staged calibration table among ANA's fields (R424, R427). -/
def Hw.discardAll (h : Hw) : Hw :=
  let h := [1, 2, 3, 4, 5, 6, 7].foldl Hw.discardDom h
  { h with cal := { h.cal with staged := none }, cmt := { h.cmt with rewritten := 0, words := [] } }

/-! ### Keys (R426, R427) -/

/-- A commit runs. -/
def Hw.cmtRunning (h : Hw) : Bool := h.cmt.captured.isSome

/-- ARM_ROLL (1) or ARM_DRAIN (2); while a commit runs it waits for that commit's end. -/
def Hw.cmtArm (h : Hw) (mode : Nat) : Hw :=
  if h.cmtRunning then { h with cmt := { h.cmt with nextArm := mode } } else h.set CMT_STATUS.STATE mode

/-- DISARM. -/
def Hw.cmtDisarm (h : Hw) : Hw :=
  if h.cmtRunning then { h with cmt := { h.cmt with nextArm := 0 } } else h.set CMT_STATUS.STATE cmtIdle

/-- A write of CMT_CTL: the four keys from TID 0; other values are ignored (R426). -/
def Hw.cmtKey (h : Hw) (acc : Access) (v : Word) : Hw × AccRes := h.guarded acc [] (fun h =>
  if v = 0x434D0001 then h.cmtArm 1
  else if v = 0x434D0002 then h.cmtArm 2
  else if v = 0x434D0003 then h.cmtDisarm
  else if v = 0x434D0004 then h.discardAll
  else h)

/-- A write in the CMT window. -/
def Hw.cmtWrite (h : Hw) (acc : Access) (adr : Nat) (v : Word) : Hw × AccRes :=
  if adr = CMT_CTL then h.cmtKey acc v else h.guarded acc [] (fun h => h.plainWrite adr v)

/-! ### Checks (R428) -/

/-- The first offence of TEN: REASON and INDEX, with the refusing block's window (R428, table CMT_TEN_ERR). -/
def Hw.tenCheck (h : Hw) : Option (Nat × Nat × Nat) :=
  match (List.range 1024).find? (fun k => h.cap (TEN_RGN_LIMIT.ADDR (k / 8) (k % 8)) < h.cap (TEN_RGN_BASE.ADDR (k / 8) (k % 8))) with
  | some k => some (5, 1, k)
  | none => ((List.range 16).find? (fun q => h.cap (LAC_Q_LMEM.LIMIT q) < h.cap (LAC_Q_LMEM.BASE q))).map (fun q => (9, 2, q))

/-- `n` bytes from `a` on lie in one of the listed memories: 0 SRAM, 1 LMEM, 2 LPDDR4 below DDR_TOP, 3 MRAM below the LCS area. -/
def Hw.liesIn (h : Hw) (l : List Nat) (a n : Nat) : Bool := l.any (fun k =>
  match k with
  | 0 => 0x10000000 ≤ a && a + n ≤ 0x10200000
  | 1 => 0x18000000 ≤ a && a + n ≤ 0x18100000
  | 2 => 0x80000000 ≤ a && a + n ≤ h.ddrTop
  | _ => a + n ≤ 0x00FC0000)

/-- The captured areas of pool `p` keep the table "Pool regions", with no reserved encoding (R242). -/
def Hw.poolPlaced (h : Hw) (p : Nat) : Bool :=
  let l := h.cap (PE_POOL_CFG.LOG2SIZE p)
  let n := h.cap (PE_POOL_NBUF.COUNT p)
  let area := h.cap (PE_POOL_AREA.ADDR p) * 64
  6 ≤ l && l ≤ 16 && 1 ≤ n && n ≤ 65536 && area % min (2 ^ l) 4096 = 0 && h.liesIn [0, 1, 2, 3] area (n * 2 ^ l) &&
    h.liesIn [0, 2] (h.cap (PE_POOL_META.ADDR p) * 64) (16 * n) && h.liesIn [0, 2] (h.cap (PE_POOL_RING.ADDR p) * 64) (4 * n)

/-- Hops of the spillway chain from pool `p`, counted up to 4 (R242). -/
def Hw.spillHops (h : Hw) (p : Nat) : Nat → Nat
  | 0 => 0
  | n + 1 => if h.cap (PE_POOL_CFG.SPILL_EN p) = 0 then 0 else 1 + h.spillHops (h.cap (PE_POOL_CFG.SPILL p)) n

/-- The first offence of POOL: pool, REASON and TID (R242), on the captured values and on INUSE, FAILED and USED as they stood at the
boundary edge (R428). -/
def Hw.poolCheck (h : Hw) : Option (Nat × Nat × Nat) :=
  let ps := List.range 16
  let was := fun p => h.on (PE_POOL_CFG.EN_L p)
  let now := fun p => h.cap (PE_POOL_CFG.EN p) = 1
  let differs := fun (f g : Fld) => h.cap f != h.get g
  match ps.find? (fun p => was p && now p && (differs (PE_POOL_CFG.MODE p) (PE_POOL_CFG.MODE_L p) || differs (PE_POOL_CFG.LOG2SIZE p) (PE_POOL_CFG.LOG2SIZE_L p) ||
      differs (PE_POOL_NBUF.COUNT p) (PE_POOL_NBUF.COUNT_L p) || differs (PE_POOL_AREA.ADDR p) (PE_POOL_AREA.ADDR_L p) ||
      differs (PE_POOL_META.ADDR p) (PE_POOL_META.ADDR_L p) || differs (PE_POOL_RING.ADDR p) (PE_POOL_RING.ADDR_L p))) with
  | some p => some (p, 1, 0)
  | none => match ps.find? (fun p => was p && !now p && 0 < h.cap (PE_POOL_INUSE.COUNT p) && h.cap (PE_POOL_STAT.FAILED p) = 0) with
    | some p => some (p, 2, 0)
    | none => match ps.find? (fun p => now p && !h.poolPlaced p) with
      | some p => some (p, 3, 0)
      | none => match ps.find? (fun p => 3 < h.spillHops p 4 || (h.cap (PE_POOL_CFG.SPILL_EN p) = 1 &&
            (let t := h.cap (PE_POOL_CFG.SPILL p)
             !now t || h.cap (PE_POOL_CFG.LOG2SIZE t) ≤ h.cap (PE_POOL_CFG.LOG2SIZE p)))) with
        | some p => some (p, 4, 0)
        | none => match (List.range 2048).find? (fun k => h.cap (PE_Q_MAX.COUNT (k % 128) (k / 128)) < h.cap (PE_Q_USED.COUNT (k % 128) (k / 128))) with
          | some k => some (k / 128, 5, k % 128)
          | none => (ps.find? (fun p => h.cap (PE_POOL_HIGH.W p) < h.cap (PE_POOL_LOW.W p))).map (fun p => (p, 6, 0))

/-- The commit is rejected: domain, block and offence are recorded (R428). -/
def Hw.cmtRefuse (h : Hw) (dom block : Nat) (l : List (Fld × Nat)) : Option Hw :=
  some ((h.sets l).sets [(CMT_STATUS.REJ_DOMAIN, dom), (CMT_STATUS.REJ_BLOCK, block)])

/-- The checks of one domain in ascending window order: the part with the refusal recorded, or none where they pass (R428). -/
def Hw.cmtCheck (h : Hw) (dom : Nat) : Option Hw :=
  match dom with
  | 1 => match h.tenCheck with
    | some (b, r, k) => h.cmtRefuse 1 b [(CMT_TEN_ERR.REASON, r), (CMT_TEN_ERR.INDEX, k)]
    | none => none
  | 2 => match h.poolCheck with
    | some (p, r, t) => h.cmtRefuse 2 0xA [(PE_COMMIT_ERR.POOL, p), (PE_COMMIT_ERR.REASON, r), (PE_COMMIT_ERR.TID, t)]
    | none => none
  | 3 =>
    if h.capS CLK_SRV_HIGH.VALUE < h.capS CLK_SRV_LOW.VALUE then h.cmtRefuse 3 2 []
    else match h.ethCheck 0 with
      | some (r, k) => h.cmtRefuse 3 0x13 [(ETH_COMMIT_ERR.REASON 0, r), (ETH_COMMIT_ERR.INDEX 0, k)]
      | none => match h.ethCheck 1 with
        | some (r, k) => h.cmtRefuse 3 0x14 [(ETH_COMMIT_ERR.REASON 1, r), (ETH_COMMIT_ERR.INDEX 1, k)]
        | none => match h.twinCheck with
          | some (r, k) => h.cmtRefuse 3 0x15 [(TWIN_COMMIT_ERR.REASON, r), (TWIN_COMMIT_ERR.WINDOW, k)]
          | none => none
  | 4 =>
    if h.cap LAC_AVS_HIGH.MV < h.cap LAC_AVS_LOW.MV then h.cmtRefuse 4 9 []
    else match h.adcCheck with
      | some (r, a, k, j) => h.cmtRefuse 4 0xB [(ADC_COMMIT_ERR.REASON, r), (ADC_COMMIT_ERR.CORE, a), (ADC_COMMIT_ERR.INDEX, k), (ADC_COMMIT_ERR.INJ, b2n j)]
      | none => none
  | 5 => match h.tmrCheck with
    | some (r, t) => h.cmtRefuse 5 0xD [(TMR_COMMIT_ERR.REASON, r), (TMR_COMMIT_ERR.TIMER, t)]
    | none => none
  | 6 => match h.aoutCheck with
    | some (r, n) => h.cmtRefuse 6 0xC [(AOUT_COMMIT_ERR.REASON, r), (AOUT_COMMIT_ERR.CHAN, n)]
    | none => none
  | 7 => match h.polCheck with
    | some (r, k) => h.cmtRefuse 7 0x1F [(POL_COMMIT_ERR.REASON, r), (POL_COMMIT_ERR.INDEX, k)]
    | none => none
  | _ => none

/-- The first refusal among all domains in their order (R428). -/
def Hw.cmtVerdict (h : Hw) : Option Hw := [1, 2, 3, 4, 5, 6, 7].findSome? h.cmtCheck

/-! ### Switching (R429, R430) -/

/-- Every tenant's charge in pool `p` is cleared. -/
def Hw.clearUsed (h : Hw) (p : Nat) : Hw := (List.range 128).foldl (fun h t => h.set (PE_Q_USED.COUNT t p) 0) h

/-- Pool `p` starts afresh, with its loop and held requests as they are (R241, R244, R263). -/
def Hw.poolFresh (h : Hw) (p : Nat) : Hw :=
  let x := h.pool p
  ((h.setPool p { held := x.held, loop := x.loop }).clearUsed p).sets
    [(PE_POOL_INUSE.COUNT p, 0), (PE_POOL_RCOUNT.COUNT p, 0), (PE_POOL_STAT.FAILED p, 0), (PE_POOL_STAT.INIT p, 0)]

/-- POOL has switched: a pool newly enabled initialises, one disabled loses its state; a pin and OFF hold W at once (R241, R258). -/
def Hw.poolSwitched (h o : Hw) : Hw := (List.range 16).foldl (fun h p =>
  let was := o.on (PE_POOL_CFG.EN_L p)
  let now := h.on (PE_POOL_CFG.EN_L p)
  let h := if now && !was then (h.poolFresh p).up (PE_POOL_STAT.INIT p)
    else if was && !now then (h.poolFresh p).serveHeld p (h.pool p).held.length else h
  let m := h.loopMode (loopPool p)
  let h := if m = 1 then h else h.setPool p { h.pool p with loop := (h.pool p).loop.leave }
  if m = 0 then h.set (PE_POOL_MON.W p) 8 else if m = 2 then h.set (PE_POOL_MON.W p) (h.get (PE_POOL_PIN.W_L p)) else h) h

/-- Every loop that a switch leaves outside AUTO forgets its earlier crossings (R41). -/
def Hw.loopsLeave (h : Hw) : Hw :=
  let f := fun (g : LoopG) (l : Loop) => if h.loopMode g = 1 then l else l.leave
  { h with avsLoop := f loopAvs h.avsLoop, bst1Loop := f loopBst1 h.bst1Loop, bst2Loop := f loopBst2 h.bst2Loop,
           thrLoop := f loopThr h.thrLoop, clk := { h.clk with srvLoop := f loopServo h.clk.srvLoop } }

/-- What the blocks of domain `d` do at its switch; `o` is the part before it. -/
def Hw.switched (h o : Hw) (d : Nat) : Hw :=
  match d with
  | 2 => h.poolSwitched o
  | 3 => (((h.svSwitched o).twinSync).cbsCheck 0).cbsCheck 1
  | 4 => h.adcSwitched o
  | 5 => h.tmrSwitched o
  | 6 => h.aoutSwitched o
  | 7 => h.polSwitched o
  | _ => h

/-- The writes held for domain `d` take place (R429). -/
def Hw.replayHeld (h : Hw) (d : Nat) : Hw :=
  let l := h.cmt.heldWr
  let h := { h with cmt := { h.cmt with heldWr := l.filter (fun e => e.1 != d) } }
  (l.filter (fun e => e.1 == d)).foldl (fun h e => (h.tmrWrite e.2.1 e.2.2.1 e.2.2.2).1) h

/-- Domain `d` takes its captured values (R425, R430). -/
def Hw.switchDom (h : Hw) (d : Nat) : Hw :=
  match h.cmt.captured with
  | none => h
  | some cap =>
    let r := ((shKeys d cap ++ shKeys d h.regs).dedup.foldl (fun h a => h.applyReg cap a) h)
    let r := r.set CMT_STAGED.DOMAIN (setBit (r.get CMT_STAGED.DOMAIN) (d - 1) (bitOf h.cmt.rewritten (d - 1)))
    let r := { r with cmt := { r.cmt with nextDom := d + 1 } }
    (r.switched h d).loopsLeave.replayHeld d

/-- The commit has ended: an arm written while it ran takes effect (R426), and the work that a drain kept from starting goes on (R432). -/
def Hw.cmtEnd (h : Hw) : Hw :=
  let next := h.cmt.nextArm
  let held := h.cmt.heldWr
  let h := ({ h with cmt := {}, cal := { h.cal with cap := none } }).set CMT_STATUS.STATE next
  (held.foldl (fun h e => (h.tmrWrite e.2.1 e.2.2.1 e.2.2.2).1) h).adcResume

/-- APPLIED, line 238; for a forced drain COMMIT_FORCED, line 240 (R430, R433). -/
def Hw.cmtApplied (h : Hw) : Hw :=
  (((h.up CMT_STATUS.APPLIED).upIf h.cmt.forced CMT_STATUS.COMMIT_FORCED).set CMT_STATUS.LAST_MODE (b2n h.cmt.drain)).cmtEnd

/-- The generation advances (R430). -/
def Hw.cmtGen (h : Hw) : Hw := h.set CMT_GEN.GEN ((h.get CMT_GEN.GEN + 1) % 2 ^ 32)

/-- TEN switches and the later domains will follow (R430, R433). -/
def Hw.cmtRoll (h : Hw) : Hw := (h.cmtGen.set CMT_STATUS.STATE cmtSwitching).switchDom 1

/-- Every domain switches on one edge (R432). -/
def Hw.switchAll (h : Hw) : Hw := [1, 2, 3, 4, 5, 6, 7].foldl Hw.switchDom h

/-- The boundary edge captures every staging copy (R427). -/
def Hw.cmtCapture (h : Hw) (drain : Bool) : Hw :=
  { h with cmt := { captured := some h.regs, nextDom := 1, drain := drain }, cal := { h.cal with cap := h.cal.staged } }

/-- Every domain is applied at once as generation 0, with no tags and no line (R114 step 12, R430). -/
def Hw.launchCommit (h : Hw) : Hw := ((h.cmtCapture false).switchAll).cmtEnd

/-- The blocks that MASK names have completed what they had in flight (R432); an MRC append is one step and never stands open. -/
def Hw.drainIdle (h : Hw) : Bool :=
  let m := h.get CMT_DRAIN_CFG.MASK
  (!bitOf m 0 || h.adcIdle) && (!bitOf m 1 || (List.range 16).all (fun q => (h.lq q).kern.isNone || (h.lq q).gangWait)) &&
    (!bitOf m 2 || ((h.eth 0).tx.isNone && (h.eth 1).tx.isNone)) && (!bitOf m 4 || (List.range 16).all (fun w => (h.twinPub w).isNone))

/-! ### The epoch boundary (R19, R21) -/

/-- The number of the epoch whose boundary comes next: past the highest already generated, and past TB where TB lies behind (R21). -/
def Hw.nextEpoch (h : Hw) : Nat :=
  let e := h.clk.tb.toNat / 1000000
  match h.clk.epochHi with
  | none => e + 1
  | some k => max e (k + 1)

/-- The boundary's edge (R21): TB, what is due at it, line 241 and the captures. -/
def Hw.epochEdge (h : Hw) : Hw :=
  let e := h.nextEpoch
  let h := h.tbReach (e * 1000000)
  (({ h with clk := { h.clk with epochHi := some e } }).up CMT_STATUS.EPOCH).capEdge capEpoch false

/-- The epoch-paced work: the seal and the loops. -/
def Hw.epochWork (h : Hw) : Hw :=
  let h := h.reseal.svEpoch
  let h := if h.blockOn 0xA then (List.range 16).foldl Hw.poolEpoch h else h
  let h := if h.blockOn 0xB then h.bst1Epoch else h
  let h := if h.blockOn 0xC then h.bst2Epoch else h
  h.twinEpoch

/-- One epoch boundary (R21): its edge, the capture of an armed commit (R427), and the epoch-paced work. -/
def Hw.epochBoundary (h : Hw) : Hw :=
  let h := h.epochEdge
  let st := h.get CMT_STATUS.STATE
  let h := if st = cmtArmedRoll || st = cmtArmedDrain then (h.cmtCapture (st = cmtArmedDrain)).set CMT_STATUS.STATE cmtValidating else h
  h.epochWork

/-- TB has passed a boundary that has not been generated: it is, at this edge (R21). -/
def Hw.epochCatch (h : Hw) : Hw :=
  match h.clk.epochHi with
  | some k => if h.clk.tbRun && h.pwr.sleep != .sleepEmulated && k < h.clk.tb.toNat / 1000000 then h.epochBoundary else h
  | none => h

/-! ### The commands -/

/-- TB_SET: a write of TB_CTL; a boundary that it passes is generated at that edge (R21, R327). -/
def execTbSet (acc : Access) (v : Word) (s : State) : Out := s.onBusBy acc (fun h => (h.tbSet acc v).1.epochCatch)

/-- TB_ADJ. -/
def execTbAdj (acc : Access) (v : Word) (s : State) : Out := s.onBusBy acc (fun h => (h.tbAdj acc v).1.epochCatch)

/-- ARM_ROLL. -/
def execArmRoll (acc : Access) (s : State) : Out := s.onBusBy acc (fun h => (h.cmtWrite acc CMT_CTL 0x434D0001).1)

/-- ARM_DRAIN. -/
def execArmDrain (acc : Access) (s : State) : Out := s.onBusBy acc (fun h => (h.cmtWrite acc CMT_CTL 0x434D0002).1)

/-- DISARM. -/
def execDisarm (acc : Access) (s : State) : Out := s.onBusBy acc (fun h => (h.cmtWrite acc CMT_CTL 0x434D0003).1)

/-- DISCARD. -/
def execDiscard (acc : Access) (s : State) : Out := s.onBusBy acc (fun h => (h.cmtWrite acc CMT_CTL 0x434D0004).1)

/-- EPOCH_BOUNDARY: TB reaches the next whole multiple of 1 000 000 ns past the highest epoch already generated (R21). -/
def execEpochBoundary (s : State) : Out := s.run (fun h => h.when (h.clocked && h.pwr.sleep != .sleepEmulated && h.clk.tbRun) Hw.epochBoundary)

/-- VALIDATION_END: the commit is rejected whole, starts draining, or TEN switches (R428, R430, R432). -/
def execValidationEnd (s : State) : Out := s.run (fun h => h.when (h.clocked && h.get CMT_STATUS.STATE = cmtValidating) (fun h =>
  match h.cmtVerdict with
  | some h => (h.up CMT_STATUS.REJECTED).cmtEnd
  | none => if h.cmt.drain then h.set CMT_STATUS.STATE cmtDraining else h.cmtRoll))

/-- DOMAIN_SWITCH: the next domain switches; after POL the commit is applied (R430). -/
def execDomainSwitch (s : State) : Out := s.run (fun h => h.when (h.clocked && h.get CMT_STATUS.STATE = cmtSwitching) (fun h =>
  let h := h.switchDom h.cmt.nextDom
  if 7 < h.cmt.nextDom then h.cmtApplied else h))

/-- DRAIN_SWITCH: `us` is the time from cycle 64 to the switch edge, in whole µs rounded up (R432). -/
def execDrainSwitch (us : BitVec 10) (s : State) : Out := s.run (fun h =>
  h.when (h.clocked && h.get CMT_STATUS.STATE = cmtDraining && h.drainIdle && us.toNat ≤ h.get CMT_DRAIN_CFG.TIMEOUT) (fun h =>
    ((h.set CMT_DRAIN_TIME.US us.toNat).cmtGen.switchAll).cmtApplied))

/-- DRAIN_TIMEOUT: the commit becomes a ROLL from this edge (R433). -/
def execDrainTimeout (s : State) : Out := s.run (fun h =>
  h.when (h.clocked && h.get CMT_STATUS.STATE = cmtDraining && !h.drainIdle) (fun h =>
    (({ h with cmt := { h.cmt with forced := true } }).set CMT_DRAIN_TIME.US (h.get CMT_DRAIN_CFG.TIMEOUT)).cmtRoll))

end Sys2Proof.Machine
end

