-- ==== Sys2Proof/Machine/CoreRegs.lean ====
section
/-! DEFINITION. The registers of a core as instructions and debuggers reach them (spec/06_cores.md R137, R138), and a debug halt
(spec/19_debug_and_test.md R446). -/

namespace Sys2Proof.Machine

/-! ### Registers -/

def Hw.core (h : Hw) : CoreId → Core
  | .m0 => h.m0
  | .m1 => h.m1
  | .pol => h.pol

def Hw.setCore (h : Hw) (c : CoreId) (x : Core) : Hw :=
  match c with
  | .m0 => { h with m0 := x }
  | .m1 => { h with m1 := x }
  | .pol => { h with pol := x }

/-- The number of a core in register names: 0 for M0, 1 for M1, 2 for the Polder core (R446). -/
def coreNum : CoreId → Nat
  | .m0 => 0
  | .m1 => 1
  | .pol => 2

def coreIni : CoreId → Initiator
  | .m0 => .m0
  | .m1 => .m1
  | .pol => .polder

/-- SSTAT bits (table "SSTAT"). -/
def Core.mode (x : Core) : Bool := x.sstat.getLsbD 0
def Core.ie (x : Core) : Bool := x.sstat.getLsbD 1
def Core.exl (x : Core) : Bool := x.sstat.getLsbD 2
def Core.fpe (x : Core) : Bool := x.sstat.getLsbD 3
def Core.pmode (x : Core) : Bool := x.sstat.getLsbD 4
def Core.pie (x : Core) : Bool := x.sstat.getLsbD 5
def Core.ptid (x : Core) : BitVec 7 := (x.sstat >>> 8).truncate 7

/-- An SSTAT word from its fields. -/
def mkSstat (mode ie exl fpe pmode pie : Bool) (ptid : BitVec 7) : Word :=
  BitVec.ofNat 32 (b2n mode + 2 * b2n ie + 4 * b2n exl + 8 * b2n fpe + 16 * b2n pmode + 32 * b2n pie + 256 * ptid.toNat)

/-- Register Gi as the core reads it: G0 is 0, G2 the stack pointer of the mode (R137). -/
def Core.gr (x : Core) (i : Fin 32) : Word :=
  if i = 0 then 0 else if i = 2 then (if x.mode then x.ssp else x.usp) else x.g[i]

/-- Register Gi written: G0 ignores writes, G2 is banked (R137). -/
def Core.setGr (x : Core) (i : Fin 32) (v : Word) : Core :=
  if i = 0 then x
  else if i = 2 then (if x.mode then { x with ssp := v } else { x with usp := v })
  else { x with g := x.g.set i v }

def Hw.gr (h : Hw) (c : CoreId) (i : Fin 32) : Word := (h.core c).gr i
def Hw.setGr (h : Hw) (c : CoreId) (i : Fin 32) (v : Word) : Hw := h.setCore c ((h.core c).setGr i v)
def Hw.fr (h : Hw) (c : CoreId) (i : Fin 32) : DWord := (h.core c).f[i]
def Hw.setFr (h : Hw) (c : CoreId) (i : Fin 32) (v : DWord) : Hw :=
  h.setCore c { h.core c with f := (h.core c).f.set i v }

/-- The TID that an access of the core carries: 0 for the Polder core (R35). -/
def Hw.tidOf (h : Hw) (c : CoreId) : BitVec 7 := if c = .pol then 0 else (h.core c).tid

def Hw.accOf (h : Hw) (c : CoreId) : Access := ⟨coreIni c, h.tidOf c⟩

/-! ### Special registers (R138, tables of spec/06_cores.md) -/

/-- SSTAT's fields; the Polder core has FPE 0, MODE 1 and PMODE 1 (R375). -/
def sstatOf (c : CoreId) (v : Word) : Word :=
  if c = .pol then (v &&& 0x7F26) ||| 0x11 else v &&& 0x7F3F

/-- The value of special register `n`; none where the number is reserved (R138) or the island lacks it (R375). -/
def Core.special (x : Core) (c : CoreId) (n : Fin 32) : Option Word :=
  if c = .pol && (n = 5 || n = 6 || n = 8) then none
  else match n.val with
  | 0 => some x.sstat
  | 1 => some x.epc
  | 2 => some x.ecause
  | 3 => some x.eaddr
  | 4 => some x.eprog
  | 5 => some (x.tid.zeroExtend 32)
  | 6 => some x.slcBase
  | 7 => some x.vbase
  | 8 => some x.usp
  | 9 => some x.ssp
  | 10 => some (match c with | .m0 => 0 | .m1 => 1 | .pol => 2)
  | _ => none

/-- Special register `n` written; none where it cannot be (R138, R175, R375). A SLC_BASE.COUNT above 256 is reserved and keeps its
value (R15); a write of TID clears the reservation (R169). -/
def Core.setSpecial (x : Core) (c : CoreId) (n : Fin 32) (v : Word) : Option Core :=
  if c = .pol && (n = 5 || n = 6 || n = 8) then none
  else match n.val with
  | 0 => some { x with sstat := sstatOf c v, inDF := x.inDF && v.getLsbD 2 }
  | 1 => some { x with epc := v }
  | 2 => some { x with ecause := v &&& 0x0FFFF1FF }
  | 3 => some { x with eaddr := v }
  | 4 => some { x with eprog := v &&& 0x8000001F }
  | 5 => some { x with tid := v.truncate 7, resv := none }
  | 6 =>
    let cnt := if v.toNat % 512 ≤ 256 then v &&& 0x1FF else x.slcBase &&& 0x1FF
    some { x with slcBase := (v &&& 0xFFFFF000) ||| cnt }
  | 7 => some { x with vbase := v &&& 0xFFFFFFFC }
  | 8 => some { x with usp := v }
  | 9 => some { x with ssp := v }
  | _ => none

/-- The bits of FSR (R174). -/
def fsrMask : Word := 0x1371F

/-! ### Halting (R446) -/

/-- A debug halt (R446): the core issues nothing and loses its reservation. Causes of DBG_Cc_STAT.CAUSE are the caller's. -/
def Hw.haltCore (h : Hw) (c : CoreId) (cause : Nat) : Hw :=
  let n := coreNum c
  ((h.setCore c { h.core c with run := .halted, resv := none }).up (DBG_C_STAT.HALTED n)).set (DBG_C_STAT.CAUSE n) cause

/-- DBG_Cc_STAT.CAUSE codes. -/
def haltWrite : Nat := 1
def haltBrk : Nat := 2
def haltWp : Nat := 3
def haltStep : Nat := 4
def haltLaunch : Nat := 5
def haltCatch : Nat := 6

/-- The core's next instruction is at `pc`. -/
def Hw.setPc (h : Hw) (c : CoreId) (pc : Word) : Hw := h.setCore c { h.core c with pc := pc }

end Sys2Proof.Machine
end

