-- ==== Sys2Proof/Machine/Power.lean ====
section
/-! DEFINITION. Power entry, resets, the Berm flush and the sleep modes (spec/02_power.md), with what each keeps. -/

namespace Sys2Proof.Machine

/-! ### What resets leave -/

/-- Register address `a` belongs to the island, which no main-domain reset changes (R372). -/
def islandReg (a : Nat) : Bool := 0x30000000 ≤ a && a < 0x30010000

/-- The word of register `a` after a main-domain reset (R17, R372). -/
def mainWord (a : Nat) (w : BitVec 32) : BitVec 32 :=
  if islandReg a then w
  else match rowOf a with
    | some (r, false) => mixed (BitVec.ofNat 32 r.keep) (resetWord a) w
    | _ => resetWord a

/-- Every register listed in the table under the words that `f` gives. -/
def remap (f : Nat → BitVec 32 → BitVec 32) (m : SMap (BitVec 32)) : SMap (BitVec 32) :=
  m.filterMap (fun e => if f e.1 e.2 = resetWord e.1 then none else some (e.1, f e.1 e.2))

/-- MAIN_UP falls (R376): the POL staging copies that were not applied are discarded (R396), and a ring that is full enough asks
for the main domain (R391). -/
def Hw.polMainDown (h : Hw) : Hw := (((h.clr POL_STAT.MAIN_UP).handMode true).discardDom 7).logWake

/-- Berm step 7, and a reset outside SLEEP: TB_SAVE takes TB, or the retained time while TB is stopped in SLEEP; the retention counter
restarts and the seal is rewritten (R63, R91, R486). TB_SAVE holds whole nanoseconds (DEDUCED, log entry 142). -/
def Hw.saveTb (h : Hw) : Hw :=
  let t := if h.pwr.sleep = .sleep then h.retained else h.clk.tb
  Hw.reseal { h with bak := { h.bak with tbSave := t, retLsx := 0, lsxFrac := 0, retIrc := 0, retStop := false }, clk := { h.clk with tbRun := false },
                     pwr := { h.pwr with sleep := .run } }

/-- A reset in SLEEP: TB_SAVE takes TB, which stands at its entry value, and the retention goes on untouched (R81, R486; log entry
137). -/
def Hw.saveAsleep (h : Hw) : Hw := Hw.reseal { h with bak := { h.bak with tbSave := h.clk.tbEntry } }

/-- A BIST run was cut short (R456). -/
def Hw.bistAborted (h : Hw) : Hw := h.sets [(BIST_STAT.BUSY, 0), (BIST_STAT.DONE, 1), (BIST_STAT.PASS, 0), (BIST_STAT.REASON, 5)]

/-- A BIST run is being cut short, or was cut short since the main domain last ran (R456: the record shows after the restart). -/
def Hw.bistCut (h : Hw) : Bool :=
  h.on BIST_STAT.BUSY || (h.pwr.phase != .up && h.pwr.phase != .flushCut && h.on BIST_STAT.DONE && h.get BIST_STAT.REASON = 5)

/-- The main domain is in reset: everything outside the backup domain, the memories and the fuses starts afresh (R67). A debug session
ends, so that a halted Polder core resumes (R445); the level of TW_ROLE is another device's. -/
def Hw.mainReset (h : Hw) : Hw :=
  let cut := h.bistCut
  let h := (Hw.polMainDown { h.detach with pwr := { h.pwr with phase := .resetHold } }).unstageReg POL_PU_OWNER
  let n : Hw := {
    regs := remap mainWord h.regs, mem := h.mem, nvm := h.nvm, upsets := h.upsets, pol := h.pol, bak := h.bak, lcs := h.lcs,
    istore := h.istore, istoreBad := h.istoreBad, bqs := h.bqs, pgRule := h.pgRule, drainSeq := h.drainSeq, thrLoop := h.thrLoop,
    logEra := h.logEra, wdFrac := tput 0 [] 2 (tget 0 h.wdFrac 2), twin := { peerLow := h.twin.peerLow },
    uarts := h.uarts.filter (fun e => e.1 = 6), dbg := h.dbg, freeCtr := h.freeCtr,
    pwr := { phase := .resetHold, coreEn := h.pwr.coreEn, vcmd := h.pwr.vcmd, vdef := h.pwr.vdef, bermActive := h.pwr.bermActive, retLost := h.pwr.retLost,
             polderLow := h.pwr.polderLow, brownout := h.pwr.brownout } }
  if cut then n.bistAborted else n

/-- Address `a` lies in SRAM or LMEM. -/
def vcoreByte (a : Nat) : Bool := (0x10000000 ≤ a && a < 0x10200000) || (0x18000000 ≤ a && a < 0x18100000)

/-- VCORE is lost: SRAM, LMEM and the instruction stores will hold zeros with valid check bits (R201, R222), and the debug port
starts afresh. -/
def Hw.vcoreLost (h : Hw) : Hw :=
  let h := h.mainReset
  (({ h with mem := h.mem.filter (fun e => !vcoreByte e.1), upsets := h.upsets.filter (fun e => !vcoreByte (keyAddr e.1)), istore := [], istoreBad := [],
             dbg := {}, pwr := { h.pwr with coreEn := false, vcmd := 0, vdef := true } })).clr HUB_SRAM_STAT.INIT_DONE

/-- The fields of PWR_RST_CAUSE that the next release shows (R67). -/
def Hw.setCause (h : Hw) (cause : Nat) (multi cold brown : Bool) : Hw :=
  h.sets [(PWR_RST_CAUSE.CAUSE, cause), (PWR_RST_CAUSE.COLD, b2n cold), (PWR_RST_CAUSE.MULTI, b2n multi), (PWR_RST_CAUSE.CORE_RETRY, 0),
    (PWR_RST_CAUSE.BROWNOUT, b2n brown)]

/-- CORE_EN is asserted and VCORE ramps (R50). -/
def Hw.ramp (h : Hw) : Hw := { h with pwr := { h.pwr with phase := .vcoreRamp, coreEn := true, brownout := false } }

/-- The backup domain is reset (R64, R372): the island and its SRAM, TB_SAVE, the retention registers; LSX starts (R484). -/
def Hw.backupReset (h : Hw) : Hw :=
  let sram := fun a => 0x30100000 ≤ a && a < 0x30108000
  let h := { h with regs := h.regs.filter (fun e => !islandReg e.1), mem := h.mem.filter (fun e => !sram e.1),
                    upsets := h.upsets.filter (fun e => !sram (keyAddr e.1)), logEra := 0, pol := {}, bqs := [], pgRule := (0, 0), drainSeq := 0, thrLoop := {},
                    uarts := h.uarts.filter (fun e => e.1 != 6), bak := {},
                    pwr := { h.pwr with bermActive := false, retLost := false, polderLow := false } }
  (h.wr PWR_BERM_STAT 0).sets [(PWR_RST_CAUSE.FLUSHED, 0), (PWR_RST_CAUSE.FLUSH_INCOMPLETE, 0), (PWR_SEAL_GEN.GEN, 0), (PWR_SEAL_CRC.CRC, 0),
    (CLK_STAT.LSX_FAIL, 0), (CLK_TB_STAT.VALID, 0), (CLK_TB_STAT.COARSE, 0)]

/-- The buck is off: everything but the backup domain is unpowered (R53). FLUSHED says whether a complete flush came before. -/
def Hw.collapse (h : Hw) (brown : Bool) : Hw :=
  let cut := h.pwr.phase = .up || (h.pwr.phase = .flushCut && h.pwr.bermActive)
  let h := h.vcoreLost
  let h := if cut then h.clr PWR_RST_CAUSE.FLUSHED else h
  { h with pwr := { h.pwr with phase := .unpowered, brownout := brown } }

/-- A VCORE_FAIL reset: nothing is written back (R490), TB starts from 0 (R486), power-up repeats from CORE_EN (R53); `multi` says that
another cause arose on the same edge (R67). DESIGN CHOICE (log entry 64): the spec does not say what FLUSHED reads after it; it keeps
what the last power-down left. -/
def Hw.vcoreFail (h : Hw) (multi : Bool) : Hw := (((h.vcoreLost.setCause rcVcore multi false false).foundActive).clr CLK_TB_STAT.VALID).ramp

/-- The writeback of R490: dirty lines in MRAM and SRAM; those in LPDDR4 are lost. -/
def Hw.resetWriteback (h : Hw) : Hw := h.cleanLines (h.dirtyMram ++ h.dirtySram)

/-- A reset that leaves VCORE up is applied: the main domain is held in reset (R487), SRAM keeps its contents (R201). -/
def Hw.resetApply (h : Hw) : Hw := h.resetWriteback.mainReset.up HUB_SRAM_STAT.INIT_DONE

/-- The registers that a reset with this cause keeps beside the others: XO_FAIL and UNLOCK_SEEN across CLOCK_FAIL (R87), DBG_CFG
across DEBUG (R454). -/
def Hw.keptAcross (h o : Hw) (cause : Nat) : Hw :=
  let h := if cause = rcClock then h.sets [(CLK_STAT.XO_FAIL, o.get CLK_STAT.XO_FAIL), (CLK_STAT.UNLOCK_SEEN, o.get CLK_STAT.UNLOCK_SEEN)] else h
  let h := if cause = rcClock then { h with clk := { h.clk with wakeUnlock := o.clk.wakeUnlock } } else h
  if cause = rcDebug then h.wr DBG_CFG (o.rd DBG_CFG) else h

/-! ### AVSBus (R52, R489) -/

/-- The PLL restarts for a wake (R80, R81). -/
def Hw.pllRestart (h : Hw) : Hw := { h with clk := { h.clk with pll := .starting } }

/-- Transaction `t` has failed three times in a row: AVS_ERR, line 6. VCORE is at the regulator's default voltage from then on, or after
the write of SLEEP entry where it was; power-up goes on; the write of a wake ends in a VCORE_FAIL reset, and a wake whose write is not
made goes on (R52, R489). -/
def Hw.avsGiveUp (h : Hw) (t : AvsTxn) : Hw :=
  let h := ({ h with pwr := { h.pwr with avsQ := [], avsFails := 0, avsHold := true, vdef := h.pwr.vdef || t != AvsTxn.sleepWrite } }).up PWR_STAT.AVS_ERR
  if h.pwr.phase = .avsStart then { h with pwr := { h.pwr with phase := .resetHold } }
  else match t with
  | .wakeWrite _ => h.vcoreFail false
  | _ => if h.pwr.waking && h.clk.pll = .off then h.pllRestart else h

/-- A failed transaction counts in RETRIES and is repeated (R52). -/
def Hw.avsFailed (h : Hw) : Hw :=
  match h.pwr.avsQ with
  | [] => h
  | t :: _ =>
    let h := (h.inc PWR_AVS_STAT.RETRIES)
    let h := if t = AvsTxn.status then h.clr PWR_AVS_STAT.LINK_OK else h
    if h.pwr.avsFails + 1 < 3 then { h with pwr := { h.pwr with avsFails := h.pwr.avsFails + 1 } } else h.avsGiveUp t

/-- The regulator has taken a Voltage write. -/
def Hw.avsAcked (h : Hw) (mv : Nat) : Hw := ({ h with pwr := { h.pwr with vcmd := mv, vdef := false } }).set PWR_AVS_STAT.VSET mv

/-- An acknowledged transaction: VSET or LINK_OK follows; what waited for it goes on (R50, R52, R489). -/
def Hw.avsDone (h : Hw) : Hw :=
  match h.pwr.avsQ with
  | [] => h
  | t :: rest =>
    let h := { h with pwr := { h.pwr with avsQ := rest, avsFails := 0 } }
    match t with
    | .status => ({ h with pwr := { h.pwr with avsHold := h.pwr.avsHold && h.on PWR_STAT.AVS_ERR } }).up PWR_AVS_STAT.LINK_OK
    | .write mv =>
      let h := h.avsAcked mv
      if rest = [] && h.pwr.phase = .avsStart then { h with pwr := { h.pwr with phase := .resetHold } } else h
    | .sleepWrite => h.avsAcked 650
    | .wakeWrite mv => (h.avsAcked mv).pllRestart

/-! ### The Berm flush (R59 to R62, R72) -/

/-- Step 2: a commit whose first domain has switched runs to its last; any other is abandoned. -/
def Hw.cmtSettle (h : Hw) : Hw :=
  if h.get CMT_STATUS.STATE = cmtSwitching then
    (((List.range 8).filter (h.cmt.nextDom ≤ ·)).foldl Hw.switchDom { h with cmt := { h.cmt with nextArm := 0 } }).cmtApplied
  else ({ h with cmt := {}, cal := { h.cal with cap := none } }).set CMT_STATUS.STATE cmtIdle

/-- Every running kernel stops, with no writeback and no record (R236). -/
def Hw.lacBerm (h : Hw) : Hw :=
  let h := (List.range 16).foldl (fun h q => match (h.lq q).kern with
    | some k => if (h.lq q).gangWait then h
      else ((k.groups.foldl (fun h g => h.freeGrp g) h).setLq q { h.lq q with kern := none, abort := false }).set (LAC_Q_STAT.LAST_STATUS q) 5
    | none => h) h
  h

/-- A conversion in progress as it finishes in step 3: core, code, saturation and the TB of its sample instant. -/
abbrev ConvEnd := Fin 4 × BitVec 18 × Bool × BitVec 64

/-- Step 3: nothing new starts; conversions in progress finish with the results `conv`, and the rest of their passes is abandoned. -/
def Hw.quiesce (h : Hw) (pfail : Bool) (conv : List ConvEnd) : Hw :=
  let h := conv.foldl (fun h e => if (h.adc e.1).cut then h.adcResult e.1 e.2.1 e.2.2.1 e.2.2.2 else h) h.adcStop
  ((h.ethStop 0).ethStop 1).lacBerm.tmrBerm.drvMuteAll.twinLeave pfail

/-- Step 5: queued appends are served until `cap` records have been committed; `fuel` bounds the refusals among them. -/
def Hw.appendSome (h : Hw) : Nat → Nat → Hw
  | 0, _ => h
  | _, 0 => h
  | fuel + 1, cap + 1 =>
    if h.appendQ = [] then h
    else
      let was := h.lsSlot
      let h := h.lsServeNext
      h.appendSome fuel (if h.lsSlot = was then cap + 1 else cap)

/-- The power-fail record of a log stream (R199). -/
def Hw.powerFailRecord (h : Hw) (vin : Nat) : List Byte :=
  padTo 56 (leBytes 4 0x46504A46 ++ zeros 4 ++ leBytes 8 h.clk.tb.toNat ++ leBytes 2 vin)

/-- The recovery scans that run end: an append waits for its stream's (R200; log entry 132). -/
def Hw.endScans (h : Hw) : Hw := (List.range 15).foldl (fun h n => if h.on (MRC_LS_STAT.SCANNING n) then h.recoveryScan n else h) h

/-- Steps 4 and 5: open stream buffers are closed, queued records appended up to APPEND_CAP, and the logs closed; the answer says
whether records were discarded (R61). -/
def Hw.closeLogs (h : Hw) (vin : Nat) : Hw × Bool :=
  let h := h.strmBerm.endScans.appendSome 65536 (h.get PWR_BERM_CFG.APPEND_CAP)
  let dropped := h.appendQ != []
  let h := (h.setAppendQ []).audit audPowerFail ⟨0, false, false⟩ (leBytes 2 vin) |>.1
  ((List.range 15).foldl (fun h n => if bitOf (h.get PWR_BERM_CFG.LS_MASK) n then (h.lsAppend n (h.powerFailRecord vin)).1 else h) h, dropped)

/-- Step 7: TB is saved, the seal rewritten, FLUSHED set. -/
def Hw.bermStep7 (h : Hw) (us dirty : Nat) (dropped : Bool) : Hw :=
  let h := { h with pwr := { h.pwr with bermActive := false } }
  h.saveTb.sets [(PWR_RST_CAUSE.FLUSHED, 1), (PWR_BERM_STAT.DUR, satU 16 us), (PWR_BERM_STAT.DIRTY, satU 14 dirty), (PWR_BERM_STAT.DROPPED, b2n dropped)]

/-- Step 8: CORE_EN is released and the main domain is held in reset; a handover request that stands leaves OFF at once (R72, R393). -/
def Hw.bermStep8 (h : Hw) (off : Bool) : Hw :=
  let h := h.vcoreLost
  let h := if off then h.setCause rcWakeOff false false false else h
  let h := { h with pwr := { h.pwr with phase := if off then .off else .flushed } }
  if h.on POL_HAND.REQ then h.wakeOff else h

/-- The flush is cut: before step 7 BERM_ACTIVE stays set, and a rewrite of the seal that was under way leaves it torn (R62, R63,
R488). -/
def Hw.bermCut (h : Hw) (torn : Bool) : Hw :=
  { h with pwr := { h.pwr with phase := .flushCut, pending := none }, bak := { h.bak with sealTorn := h.bak.sealTorn || torn } }

/-- How a flush went: the last step it completed, whether a cut left the seal torn, its microseconds to the end of step 7, VIN, and the
conversions that finished in step 3. -/
structure Flush where
  last : Nat
  torn : Bool
  us : Nat
  vin : Nat
  conv : List ConvEnd

/-- A flush; in SLEEP, an emulated one too, only steps 1, 7 and 8 (R70, R455). -/
def Hw.flush (h : Hw) (off : Bool) (x : Flush) : Hw :=
  let asleep := h.pwr.sleep = .sleep || h.pwr.sleep = .sleepEmulated
  let h := ({ h with pwr := { h.pwr with bermActive := true, line4 := !off } }).sets [(PWR_VMON.VIN, x.vin), (PWR_STAT.PFAIL, b2n !off)]
  let h := if 2 ≤ x.last && !asleep then h.cmtSettle else h
  let h := if 3 ≤ x.last && !asleep then h.quiesce (!off) x.conv else h
  let r := if 5 ≤ x.last && !asleep then h.closeLogs x.vin else if 4 ≤ x.last && !asleep then (h.strmBerm, false) else (h, false)
  let n := if asleep then 0 else r.1.dirtyMram.length
  let h := if 6 ≤ x.last && !asleep then r.1.cleanLines r.1.dirtyMram else r.1
  let h := if 7 ≤ x.last then h.bermStep7 x.us n r.2 else h
  if 8 ≤ x.last then h.bermStep8 off else h.bermCut (x.torn && x.last < 7)

/-! ### Sleep modes (R68 to R72, R455) -/

/-- The core counts as waiting for an interrupt (R69). -/
def Core.waits (x : Core) : Bool := x.run = .waiting || x.run = .held

/-- MODE `m` may be entered: launched, in RUN, both cores wait, and no commit is armed or running (R68). -/
def Hw.mayEnter (h : Hw) (m : Nat) : Bool :=
  h.mainUp && h.launched && h.pwr.pending.isNone && h.pwr.sleep = .run && h.get PWR_SLEEP_CTL.MODE = m && h.m0.waits && h.m1.waits &&
    h.get CMT_STATUS.STATE = cmtIdle

/-- The blocks that stop in SLEEP, real or emulated, stop (R68, R86, R292, R310, R354, R371, R423). -/
def Hw.blocksStop (h : Hw) : Hw :=
  let h := h.adcStop.aoutStop
  let h := [0xE, 0xF, 0x10, 0x11, 0x12].foldl Hw.serialStop h
  ((h.ethStop 0).ethStop 1).twinSleep

/-- SLEEP entry: dirty MRAM lines are written back; with a debugger attached SLEEP is emulated (R70, R90, R455, R489). -/
def Hw.sleepEnter (h : Hw) : Hw :=
  let h := (h.cleanLines h.dirtyMram).blocksStop
  if h.on DBG_STAT.ATTACHED then
    (Hw.handMode { h with pwr := { h.pwr with sleep := .sleepEmulated }, clk := { h.clk with tbEntry := h.clk.tb } } true).up DBG_STAT.EMUL
  else
    let lower := !h.on PWR_STAT.AVS_ERR
    let h := { h with clk := { h.clk with pll := .off, tbRun := false, tbEntry := h.clk.tb }, bak := { h.bak with retLsx := 0, lsxFrac := 0, retIrc := 0, retStop := false },
                      pwr := { h.pwr with sleep := .sleep, vKept := h.pwr.vcmd, avsQ := if lower then h.pwr.avsQ ++ [AvsTxn.sleepWrite] else h.pwr.avsQ } }
    (h.polMainDown.clr CLK_STAT.PLL_LOCK).up DDR_STAT.SELF_REFRESH

/-- Line `k` comes from a block that stays powered in SLEEP: PWR, TMR's TB alarm, GPIO, POL (R71). -/
def sleepLine (k : Nat) : Bool := (4 ≤ k && k < 8) || k = 180 || 248 ≤ k

/-- A wake-enabled line of a powered block is asserted (R71). -/
def Hw.wakeLine (h : Hw) : Bool := anyBelow 256 (fun k => sleepLine k && bitOf (h.get (PWR_WAKE_EN.EN (k / 32))) (k % 32) && h.lineUp k)

/-- The part is in RUN again: MODE reads 0b00, timers catch up by the retention count, blocks resume, requests that
the PE held are served (R68, R86, R329, R354, R423). -/
def Hw.wakeDone (h : Hw) (lsx irc : Nat) : Hw :=
  let h := ({ h with pwr := { h.pwr with sleep := .run, waking := false } }).sets [(PWR_SLEEP_CTL.MODE, 0), (DDR_STAT.SELF_REFRESH, 0), (DBG_STAT.EMUL, 0)]
  (((h.tmrWake lsx irc).serialWake 0xF).serialWake 0x11 |>.twinWake).serveAll.msgRun.laneWake

/-- An emulated SLEEP ends: TB has kept counting, and the timers catch up by the LSX edges of that time (R455). -/
def Hw.emulatedWake (h : Hw) : Hw :=
  if h.pwr.sleep = .sleepEmulated then h.wakeDone ((h.clk.tb - h.clk.tbEntry).toNat * 64 / 1953125) 0 else h

/-- A wake from real SLEEP starts: VCORE goes back to what it was, unless AVS_ERR is set; then the PLL restarts (R489). DESIGN CHOICE (log
entry 141): where the device never commanded a voltage, because power-up's writes failed and AVS_ERR has been cleared since, the spec
names none for the wake's write; it writes 0 mV, the VSET that stands. -/
def Hw.wakeStart (h : Hw) : Hw :=
  let back := !h.on PWR_STAT.AVS_ERR
  let h := { h with pwr := { h.pwr with waking := true, avsQ := if back then h.pwr.avsQ ++ [AvsTxn.wakeWrite h.pwr.vKept] else h.pwr.avsQ } }
  if back then h else h.pllRestart

/-- TB is restored at the first LSX edge after relock; at most one epoch boundary follows, COARSE is set (R21, R90). -/
def Hw.tbWake (h : Hw) (lsx irc : Nat) : Hw :=
  let h := h.retain lsx irc
  let t := BitVec.ofNat 64 (h.retained128 / 128)
  let l := h.bak.retLsx
  let i := h.bak.retIrc
  let h := ({ h with clk := { h.clk with tb := t, tbFrac := BitVec.ofNat 7 h.retained128, tbRun := true, onRoot := true } }).sets [(CLK_TB_STAT.COARSE, 1), (POL_STAT.MAIN_UP, 1)]
  let h := h.wakeDone l i
  h.epochCatch

/-! ### Power-up (R50, R64 to R66) -/

/-- The decision at 3.00 V: the backup domain is kept where RET_LOST is clear and the seal checks, else reset (R64). -/
def Hw.railReturn (h : Hw) (cold ircLost : Bool) (lsx irc : Nat) : Hw :=
  let brown := h.pwr.brownout
  let h := h.retain lsx irc
  let stop := h.bak.retStop || (ircLost && (h.on CLK_STAT.LSX_FAIL || !h.bak.lsxRun))
  let h := { h with bak := { h.bak with retStop := stop } }
  let h := if !cold && !h.pwr.retLost && h.sealOk then (h.setCause rcRetained false false brown).foundActive
    else h.backupReset.setCause rcBackupLost false cold brown
  let h := if h.islandUp then h
    else (let h := { h with pwr := { h.pwr with polderLow := false } }
          if h.on POL_STAT.CORE_HELD then h else h.polRestart 2)
  h.ramp

/-! ### The commands -/

/-- POWER_UP: VIN is back; `cold` says that the backup domain's own power-on detector fired, `ircLost` that IRC was unpowered for a
time, `lsx` and `irc` what the retention counter counted meanwhile (R50, R64, R66, R92). -/
def execPowerUp (cold ircLost : Bool) (lsx irc : Nat) (s : State) : Out :=
  s.run (fun h => h.when (h.pwr.phase = .unpowered) (fun h => h.railReturn cold ircLost lsx irc))

/-- VCORE_GOOD: the first Status read and the Voltage write of 0.80 V are issued (R50, R51). -/
def execVcoreGood (s : State) : Out := s.run (fun h => h.when (h.pwr.phase = .vcoreRamp) (fun h =>
  { h with pwr := { h.pwr with phase := .avsStart, avsQ := [AvsTxn.status, AvsTxn.write 800], avsFails := 0 } }))

/-- CORE_RETRY: CORE_EN is released for 1 ms and the sequence repeats (R51). -/
def execCoreRetry (s : State) : Out := s.run (fun h => h.when (h.pwr.phase = .vcoreRamp) (fun h => h.up PWR_RST_CAUSE.CORE_RETRY))

/-- AVS_TRANSACTION_DONE: the regulator answers the oldest transaction, acknowledging it or with an error (R52). -/
def execAvsTransactionDone (ok : Bool) (s : State) : Out := s.run (fun h => if ok then h.avsDone else h.avsFailed)

/-- AVS_TIMEOUT: the oldest transaction is not acknowledged within 8000 IRC cycles (R52). -/
def execAvsTimeout (s : State) : Out := s.run Hw.avsFailed

/-- The seal is torn where the collapse comes during a rewrite, which the main domain or the Polder core starts (R63). -/
def Hw.tornSeal (h : Hw) (torn : Bool) : Hw :=
  { h with bak := { h.bak with sealTorn := h.bak.sealTorn || (torn && (h.mainUp || h.polRuns)) } }

/-- VIN_UVLO (R53); `torn` says that the seal was being rewritten (R63). -/
def execVinUvlo (s : State) (torn : Bool := false) : Out := s.run (fun h =>
  if h.pwr.phase = .unpowered then { h with pwr := { h.pwr with brownout := false } }
  else (h.tornSeal torn).collapse false)

/-- BERM_ARM: the first rising output of the VIN power-fail monitor after launch end (R55); a transition keeps it disarmed (R125). -/
def execBermArm (vin : BitVec 12) (s : State) : Out := s.run (fun h =>
  h.when (h.mainUp && h.launched && h.get PWR_CFG.THR != 0 && !h.lcsm.holds) (fun h =>
    h.sets [(PWR_STAT.BERM_ARMED, 1), (PWR_STAT.PFAIL, 0), (PWR_VMON.VIN, vin.toNat)]))

/-- BERM_FLUSH: VIN has stayed below THR for FILTER µs, read as `vin`; unarmed, nothing starts (R55). The flush completes step
`last`, and `us` is its duration (R59, R62); `conv` are the conversions that finish in step 3, `lsx` and `irc` what the retention counter
counted in SLEEP (R70, R91). -/
def execBermFlush (last : Fin 9) (torn : Bool) (us : BitVec 16) (vin : BitVec 12) (s : State)
    (conv : List (Fin 4 × BitVec 18 × Bool × BitVec 64) := []) (lsx irc : Nat := 0) : Out := s.run (fun h =>
  h.when (h.mainUp && h.launched && h.get PWR_CFG.THR != 0) (fun h =>
    if h.on PWR_STAT.BERM_ARMED then (h.retain lsx irc).flush false ⟨last, torn, us.toNat, vin.toNat, conv⟩
    else h.sets [(PWR_STAT.PFAIL, 1), (PWR_VMON.VIN, vin.toNat)]))

/-- VIN_RECOVERED: after a completed flush, while the buck still runs, power-up repeats from CORE_EN (R60). -/
def execVinRecovered (s : State) : Out := s.run (fun h => h.when (h.pwr.phase = .flushed) (fun h =>
  ((h.setCause rcPfail false false false).foundActive).ramp))

/-- BO_WARN: line 5 (R53). -/
def execBoWarn (s : State) : Out := s.run (fun h => h.when h.mainUp (fun h => h.up PWR_STAT.BO_WARN))

/-- BROWN_OUT: the main domain resets and power-up runs from cycle 0 (R53); `torn` says that the seal was being rewritten (R63). -/
def execBrownOut (s : State) (torn : Bool := false) : Out := s.run (fun h =>
  h.when (h.pwr.phase != .unpowered) (fun h => (h.tornSeal torn).collapse true))

/-- VCORE_FAIL (R53, R488): while VCORE is up, or a flush was cut; `same` says that another cause arises on the same edge (R67). -/
def execVcoreFail (s : State) (same : Bool := false) : Out := s.run (fun h =>
  h.when (h.mainUp || h.pwr.phase = .avsStart || h.pwr.phase = .resetHold || h.pwr.phase = .flushCut) (fun h => h.vcoreFail same))

/-- RET_LOST: from the decision edge on the internal rail holds the backup domain, so a later sag latches nothing (R65). -/
def execRetLost (s : State) : Out := s.run (fun h => h.when (h.pwr.phase = .unpowered) (fun h => { h with pwr := { h.pwr with retLost := true } }))

/-- BUCK_FAULT: `ot` for over-temperature, else the current limit; line 7. -/
def execBuckFault (ot : Bool) (s : State) : Out :=
  s.run (fun h => h.when h.mainUp (fun h => h.up (if ot then PWR_STAT.BUCK_OT else PWR_STAT.BUCK_ILIM)))

/-- RESET_PIN: RESET_N was low past its filter; `same` says that another cause arises on the same IRC edge (R487). -/
def execResetPin (same : Bool) (s : State) : Out := s.run (fun h => h.requestReset rcPin same)

/-- A write of PWR_RST_REQ: the key from T0 asks for a SOFTWARE reset (R67). -/
def Hw.softReset (h : Hw) (acc : Access) (v : Word) (same : Bool) : Hw × AccRes := h.guarded acc [] (fun h =>
  if v = 0xA5C30001 then h.requestReset rcSoftware same else h)

/-- SOFTWARE_RESET. -/
def execSoftwareReset (acc : Access) (same : Bool) (s : State) : Out := s.onBusBy acc (fun h => (h.softReset acc 0xA5C30001 same).1)

/-- RESET_WRITEBACK_DONE: dirty MRAM and SRAM lines have been written back, TB is saved and the reset is applied (R486, R487,
R490). -/
def execResetWritebackDone (s : State) : Out := s.run (fun h =>
  match h.pwr.pending with
  | none => h
  | some (c, multi) =>
    let h := if h.pwr.sleep = .sleep then h.saveAsleep else if h.clk.tbRun then h.saveTb else h
    ((h.resetApply).keptAcross h c).setCause c multi false false)

/-- DOZE_ENTRY. -/
def execDozeEntry (s : State) : Out := s.run (fun h => h.when (h.mayEnter 1) (fun h => { h with pwr := { h.pwr with sleep := .doze } }))

/-- DOZE_WAKE: a line is deliverable to a core. -/
def execDozeWake (s : State) : Out := s.run (fun h =>
  h.when (h.mainUp && h.pwr.sleep = .doze && ((h.bestLine 0).isSome || (h.bestLine 1).isSome)) (fun h =>
    (Hw.set { h with pwr := { h.pwr with sleep := .run } } PWR_SLEEP_CTL.MODE 0).laneWake))

/-- SLEEP_ENTRY: a BIST run and an xSPI indirect command are waited for (R354, R456). -/
def execSleepEntry (s : State) : Out := s.run (fun h =>
  h.when (h.mayEnter 2 && !h.on BIST_STAT.BUSY && h.xspi.cmd.isNone) Hw.sleepEnter)

/-- SLEEP_WAKE: a wake-enabled line asserts; an emulated SLEEP ends at once (R71, R455). -/
def execSleepWake (s : State) : Out := s.run (fun h => h.when (h.mainUp && h.wakeLine) (fun h =>
  if h.pwr.sleep = .sleepEmulated then h.emulatedWake
  else if h.pwr.sleep = .sleep && !h.pwr.waking then h.wakeStart else h))

/-- OFF entry: the island has the pins and MAIN_UP falls (R376, R392). -/
def Hw.offEntry (h : Hw) : Hw := (h.handMode true).polMainDown

/-- OFF_ENTRY: the flush of steps 2 to 8 (R72). -/
def execOffEntry (last : Fin 9) (torn : Bool) (us : BitVec 16) (vin : BitVec 12) (s : State)
    (conv : List (Fin 4 × BitVec 18 × Bool × BitVec 64) := []) : Out := s.run (fun h => h.when (h.mayEnter 3) (fun h => h.offEntry.flush true ⟨last, torn, us.toNat, vin.toNat, conv⟩))

/-- WAKE_RELOCK_TIMEOUT (R81): UNLOCK_SEEN sets without line 10. -/
def execWakeRelockTimeout (same : Bool) (s : State) : Out := s.run (fun h =>
  h.when (h.mainUp && h.pwr.waking && h.clk.pll = .starting) (fun h =>
    (Hw.up { h with clk := { h.clk with pll := .off, wakeUnlock := true } } CLK_STAT.UNLOCK_SEEN).requestReset rcClock same))

/-- TB_SLEEP_RESTORE: the first LSX edge after relock, with the LSX edges and IRC periods counted in SLEEP (R90, R329). -/
def execTbSleepRestore (lsx irc : Nat) (s : State) : Out := s.run (fun h =>
  h.when (h.mainUp && h.pwr.waking && h.clk.pll = .locked) (fun h => h.tbWake lsx irc))

end Sys2Proof.Machine
end

