-- ==== Sys2Proof/Machine/Record.lean ====
section
/-! DEFINITION. The launch record (spec/04_launch.md R101 to R110): where its parts lie, and the checks of one copy in their order. -/

namespace Sys2Proof.Machine

/-! ### The NVM -/

/-- `n` bytes of the NVM from offset `o` on. -/
def Hw.nvmBytes (h : Hw) (o n : Nat) : List Byte := (List.range n).map (fun i => mget (fun _ => 0xFF) h.nvm (o + i))

/-- Copy A (0) starts at offset 0, copy B (1) at 0x10000 (R101). -/
def copyOfs (c : Nat) : Nat := if c = 0 then 0 else 0x10000

/-! ### Header and section table -/

def recSize (b : List Byte) : Nat := fieldB b 8 4
def recGen (b : List Byte) : Nat := fieldB b 12 4
def recSecVer (b : List Byte) : Nat := fieldB b 16 1
def recFloor (b : List Byte) : Bool := bitOf (fieldB b 17 1) 0
def recSigned (b : List Byte) : Bool := bitOf (fieldB b 17 1) 1
def recSects (b : List Byte) : Nat := fieldB b 18 2

/-- A section: its type, and its body. -/
structure Section where
  ty : Nat
  ofs : Nat
  body : List Byte
  deriving DecidableEq, Repr

/-- Entry `i` of the section table. -/
def sectionAt (b : List Byte) (i : Nat) : Section :=
  let o := fieldB b (64 + 12 * i + 4) 4
  ⟨fieldB b (64 + 12 * i) 2, o, sliceB b o (fieldB b (64 + 12 * i + 8) 4)⟩

/-- The sections in table order. -/
def sections (b : List Byte) : List Section := (List.range (recSects b)).map (sectionAt b)

/-- Section types. -/
def secPower : Nat := 1
def secClocks : Nat := 2
def secLinks : Nat := 3
def secDdr : Nat := 4
def secAuth : Nat := 5
def secRegs : Nat := 6
def secLoad : Nat := 7
def secVerify : Nat := 8
def secEntry : Nat := 9
def secPatch : Nat := 0xA
def secTwin : Nat := 0xB

/-- The body of the first section of a type. -/
def bodyOf (b : List Byte) (ty : Nat) : Option (List Byte) := ((sections b).find? (fun s => s.ty == ty)).map (·.body)

/-- `l` cut into entries of `n` bytes; `k` bounds their number. -/
def entriesB (n : Nat) : Nat → List Byte → List (List Byte)
  | 0, _ => []
  | k + 1, l => if l.length < n then [] else l.take n :: entriesB n k (l.drop n)

/-- The entries of an array section, or none. -/
def entriesOf (b : List Byte) (ty n : Nat) : List (List Byte) :=
  match bodyOf b ty with
  | some l => entriesB n (l.length / n) l
  | none => []

/-- All bytes of `l` from `o` to `o + n` are 0. -/
def zeroAt (l : List Byte) (o n : Nat) : Bool := (sliceB l o n).all (· == 0)

/-! ### Ranges (R103 to R107) -/

/-- The size of a section type: its entry size and the least and greatest number of entries. -/
def secShape (ty : Nat) : Option (Nat × Nat × Nat) :=
  match ty with
  | 1 => some (8, 1, 1)
  | 2 => some (32, 1, 1)
  | 3 => some (32, 1, 1)
  | 4 => some (16, 1, 1)
  | 5 => some (16, 1, 20)
  | 6 => some (8, 1, 4096)
  | 7 => some (48, 1, 1)
  | 8 => some (40, 1, 1)
  | 9 => some (24, 1, 1)
  | 10 => some (40, 1, 32)
  | 11 => some (16, 1, 1)
  | _ => none

/-- How often a section type may appear. -/
def secCountOk (ty n : Nat) : Bool :=
  if ty = secClocks || ty = secEntry then n = 1 else if ty = secLoad || ty = secVerify then n ≤ 16 else n ≤ 1

/-- POWER. -/
def powerOk (l : List Byte) : Bool :=
  let thr := fieldB l 0 2
  let y := fieldB l 2 1
  let f := fieldB l 3 1
  (thr = 0 || (50 ≤ thr && thr ≤ 360)) && 1 ≤ y && y ≤ 15 && 1 ≤ f && f ≤ 15 && fieldB l 4 1 < 2 && zeroAt l 5 3

/-- CLOCKS, with the legal encodings of CLK_DIV (R104: no ratio is checked). -/
def clocksOk (l : List Byte) : Bool :=
  let d := BitVec.ofNat 32 (fieldB l 4 4)
  fieldB l 0 1 < 2 && fieldB l 1 1 != 0 && fieldB l 2 1 < 2 && fieldB l 3 1 < 3 && encOk CLK_DIV d &&
  fieldB l 8 4 < 2 ^ 26 && fieldB l 12 1 < 2 && zeroAt l 13 3 && sgn 32 (fieldB l 16 4) ≤ sgn 32 (fieldB l 20 4) && zeroAt l 28 4

/-- The best code of link `i`: xSPI, DDR, ETH0, ETH1, TWIN (R105). -/
def linkBest (i : Nat) : Nat := if i = 4 then 6 else 5

/-- LINKS. -/
def linksOk (l : List Byte) : Bool := (List.range 8).all (fun i =>
  let f := fieldB l (4 * i) 1
  let c := fieldB l (4 * i + 1) 1
  zeroAt l (4 * i + 2) 2 && (if 5 ≤ i then f = 0 && c = 0xFF else f ≤ linkBest i && (c ≤ linkBest i || c = 0xFF) && f ≤ c))

/-- DDR. -/
def ddrOk (l : List Byte) : Bool :=
  fieldB l 0 1 < 2 && fieldB l 1 1 < 2 && fieldB l 2 1 < 2 && fieldB l 3 1 < 2 && fieldB l 4 4 < 2 ^ 11 && zeroAt l 8 8

/-- The bounds of an AUTH loop's values; the threshold's are signed words of 16 bits. -/
def authRange (loop : Nat) : Int × Int :=
  match loop with
  | 1 => (650, 950)
  | 2 => (120, 260)
  | 3 => (80, 260)
  | 4 => (-32768, 32767)
  | _ => (2, 24)

/-- One AUTH entry. -/
def authOk (l : List Byte) : Bool :=
  let p := fieldB l 0 1
  let r := authRange p
  let v := fun o => sgn 32 (fieldB l o 4)
  ((1 ≤ p && p ≤ 4) || (0x10 ≤ p && p < 0x20)) && fieldB l 1 1 < 3 && fieldB l 2 1 < 2 && zeroAt l 3 1 &&
  [4, 8, 12].all (fun o => r.1 ≤ v o && v o ≤ r.2) && v 4 ≤ v 8

/-- The windows that a REGS entry may name (R106), as peripheral window numbers. -/
def regsWindows : List Nat := [5, 6, 7, 9, 0xA, 0xB, 0xC, 0xD, 0xE, 0xF, 0x10, 0x11, 0x13, 0x14, 0x15, 4, 0x19]

/-- One REGS entry: a window of R106, and a value within the encodings that the register's table gives. -/
def regsOk (l : List Byte) : Bool :=
  let a := fieldB l 0 4
  let v := BitVec.ofNat 32 (fieldB l 4 4)
  a % 4 = 0 && ((0x20000000 ≤ a && a < 0x20200000 && regsWindows.contains ((a - 0x20000000) / 0x10000)) || islandReg a) &&
  (match rowOf a with
    | some (r, false) =>
      (v.toNat &&& (r.rw ||| r.w1c ||| r.w1s ||| r.rc ||| r.sh ||| r.lk ||| r.wo ||| r.ro)) == v.toNat && encOk a v
    | _ => true)

/-- `n` bytes from `a` on lie inside MRAM, SRAM below the workspace, the Polder retention SRAM or LPDDR4 (R107). -/
def loadRegion (a n : Nat) : Bool :=
  a + n ≤ 0x01000000 || (0x10000000 ≤ a && a + n ≤ 0x101F0000) || (0x30100000 ≤ a && a + n ≤ 0x30108000) ||
    (0x80000000 ≤ a && a + n ≤ 0x100000000)

/-- LOAD. -/
def loadOk (l : List Byte) : Bool :=
  let n := fieldB l 8 4
  n != 0 && n % 8 = 0 && loadRegion (fieldB l 4 4) n && fieldB l 12 1 < 2 && zeroAt l 13 3

/-- VERIFY. -/
def verifyOk (l : List Byte) : Bool :=
  let n := fieldB l 4 4
  n != 0 && n % 8 = 0 && loadRegion (fieldB l 0 4) n

/-- ENTRY: PCs and VBASEs are 4-aligned in MRAM, SRAM, the xSPI window or LPDDR4. -/
def entryOk (l : List Byte) : Bool := [0, 8, 12, 20].all (fun o =>
  let a := fieldB l o 4
  a % 4 = 0 && (a < 0x01000000 || (0x10000000 ≤ a && a < 0x10200000) || (0x40000000 ≤ a && a < 0x50000000) || 0x80000000 ≤ a))

/-- One PATCH entry. -/
def patchOk (l : List Byte) : Bool := fieldB l 0 4 % 32 = 0 && fieldB l 4 1 < 32 && zeroAt l 5 3

/-- TWIN. -/
def twinOk (l : List Byte) : Bool := fieldB l 0 1 < 2 && fieldB l 1 1 < 3 && zeroAt l 2 6

/-- The body of a section keeps its table. -/
def Section.ok (s : Section) : Bool :=
  let each := fun n (f : List Byte → Bool) => (entriesB n (s.body.length / n) s.body).all f
  match s.ty with
  | 1 => powerOk s.body
  | 2 => clocksOk s.body
  | 3 => linksOk s.body
  | 4 => ddrOk s.body
  | 5 => each 16 authOk && ((entriesB 16 20 s.body).map (fun l => fieldB l 0 1)).Nodup
  | 6 => each 8 regsOk
  | 7 => loadOk s.body
  | 8 => verifyOk s.body
  | 9 => entryOk s.body
  | 10 => each 40 patchOk && ((entriesB 40 32 s.body).map (fun l => fieldB l 4 1)).Nodup && ((entriesB 40 32 s.body).map (fun l => fieldB l 0 4)).Nodup
  | 11 => twinOk s.body
  | _ => false

/-- Two bodies do not overlap. -/
def Section.apart (s t : Section) : Bool := s.ofs + s.body.length ≤ t.ofs || t.ofs + t.body.length ≤ s.ofs

/-- Entry `i` of the section table is legal and its body is placed and sized as R103 asks. -/
def sectionPlaced (b : List Byte) (i : Nat) : Bool :=
  let e := 64 + 12 * i
  let n := fieldB b (e + 8) 4
  let o := fieldB b (e + 4) 4
  fieldB b (e + 2) 1 = 1 && fieldB b (e + 3) 1 = 0 && o % 8 = 0 && 64 + 12 * recSects b ≤ o && o + n ≤ recSize b - 132 &&
  (match secShape (fieldB b e 2) with
    | some (z, lo, hi) => n % z = 0 && lo ≤ n / z && n / z ≤ hi
    | none => false)

/-- Check 5: the sections (R103, R107). -/
def sectionsOk (b : List Byte) : Bool :=
  2 ≤ recSects b && recSects b ≤ 48 && 64 + 12 * recSects b ≤ recSize b - 132 && (List.range (recSects b)).all (sectionPlaced b) &&
  (let l := sections b
   (List.range 12).all (fun ty => ty = 0 || secCountOk ty (l.countP (fun s => s.ty == ty))) && l.Pairwise (fun s t => s.apart t = true) && l.all Section.ok)

/-! ### The checks of a copy in their order (R109, R110) -/

/-- Check 1; non-zero reserved bytes of the header and SEC_VER above 64 count here (DEDUCED). -/
def headerGood (b : List Byte) : Bool :=
  fieldB b 0 4 = 0x524C4A46 && fieldB b 4 2 = 1 && fieldB b 6 2 = 64 && fieldB b 60 4 = (crc32c (b.take 60)).toNat &&
  fieldB b 17 1 < 4 && recSecVer b ≤ 64 && zeroAt b 23 1 && zeroAt b 32 28

/-- Check 4. -/
def Hw.deviceOk (h : Hw) (b : List Byte) : Bool :=
  fieldB b 20 2 = 0x4864 && bitOf (fieldB b 22 1) (h.get SYS_ID.REV) && (fieldB b 24 8 = 0 || fieldB b 24 8 = h.serial)

/-- The hash that the record's key must have; none where no signature is checked (R109). -/
def Hw.launchKey (h : Hw) : Option (List Byte) :=
  if h.lcState = lcTest || h.lcState = lcProd then h.lcs.ownerHash
  else if h.lcState = lcRtest then some (sha256 Config.returnTestKey) else none

/-- Check 6: the code of the signature's failure, or 0. A PROD part without an owner key hash matches no key. -/
def Hw.signatureCode (h : Hw) (b : List Byte) : Nat :=
  let n := recSize b - 132
  let key := sliceB b n 64
  if h.launchKey.isNone && h.lcState != lcProd then 0
  else if !recSigned b then 6
  else if h.launchKey != some (sha256 key) then 7
  else if ecdsaOk key (sliceB b (n + 64) 64) (sha256 (b.take n)) then 0 else 8

/-- The rejection code of the copy that reads as `b`, 0 where it is valid; `dead` says that its reading stopped. -/
def Hw.copyCode (h : Hw) (b : List Byte) (dead : Bool) : Nat :=
  if dead then 0xB
  else if !headerGood b then 1
  else if !(256 ≤ recSize b && recSize b ≤ 61440 && recSize b % 8 = 0) then 2
  else
    let b := b.take (recSize b)
    if fieldB b (recSize b - 4) 4 != (crc32c (b.take (recSize b - 4))).toNat then 3
    else if !h.deviceOk b then 4
    else if !sectionsOk b then 5
    else if h.signatureCode b != 0 then h.signatureCode b
    else if (h.lcState = lcTest || h.lcState = lcProd) && recSecVer b < h.get (LCS_TALLY.VALUE 0) then 9
    else 0

/-- Copy `c` as Crocus reads it: the header, and as much as its TOTAL_SIZE says. -/
def Hw.readCopy (h : Hw) (c : Nat) : List Byte :=
  let hd := h.nvmBytes (copyOfs c) 64
  hd ++ h.nvmBytes (copyOfs c + 64) (min 61440 (recSize hd) - 64)

end Sys2Proof.Machine
end

