-- ==== Sys2Proof/Machine/DebugReg.lean ====
section
/-! DEFINITION. The debug registers: attaching, halting and stepping, watchpoints, lane groups and patch units
(spec/19_debug_and_test.md R445 to R455). -/

namespace Sys2Proof.Machine

/-! ### Who writes -/

/-- A supervisor access of T0 by a core (R450, R453). -/
def Hw.superT0 (h : Hw) (acc : Access) : Bool :=
  acc.tid = 0 && (match acc.who with
    | .m0 => h.m0.mode
    | .m1 => h.m1.mode
    | .polder | .crocus => true
    | .debug => false)

/-- A write that is accepted from the debug port alone. -/
def Hw.byDebug (h : Hw) (acc : Access) (f : Hw → Hw) : Hw × AccRes := if fromDebug acc then (f h, .ok) else (h, .owner)

/-! ### Attaching (R445, R454, R455) -/

/-- The ATTACH key: the session's port is recorded, line 242 asserts when it is enabled. -/
def Hw.attach (h : Hw) : Hw :=
  let h := h.sets [(DBG_STAT.ATTACHED, 1), (DBG_STAT.PORT, b2n h.dbg.jtag)]
  if h.on DBG_IE.ATTACH then h.pulseLine 242 else h

/-- A write of DBG_CTL; `same` says that another reset cause arises on the same IRC edge. -/
def Hw.dbgKey (h : Hw) (v : Word) (same : Bool) : Hw :=
  if v = 0x44470001 then h.attach
  else if v = 0x44470002 then h.detach
  else if v = 0x44470003 then h.requestReset rcDebug same
  else if v = 0x44470004 then h.emulatedWake else h

/-! ### Cores (R446 to R448) -/

/-- Core `c` halts before its first instruction (R454): HALT_AT_LAUNCH in BLANK, TEST and RTEST. -/
def Hw.haltsAtLaunch (h : Hw) (c : Nat) : Bool :=
  bitOf (h.get DBG_CFG.HALT_AT_LAUNCH) c && (h.lcState = lcBlank || h.lcState = lcTest || h.lcState = lcRtest)

/-- A write of HALT: the core halts at this instruction boundary, or after the instruction whose device-space access is outstanding. -/
def Hw.dbgHalt (h : Hw) (c : Nat) : Hw :=
  let x := h.coreAt c
  if x.run = .running || x.run = .waiting || x.run = .romWait then
    if h.owesAccess (coreIni (dbgCore c)) then h.setCoreAt c { x with stepping := false, haltReq := true }
    else (h.setCoreAt c { x with stepping := false }).haltCore (dbgCore c) haltWrite
  else h

/-- A write of STEP: the core goes on for one instruction or element; one in the ROM wait loop is halted in it again (R117). -/
def Hw.dbgStep (h : Hw) (c : Nat) : Hw :=
  if (h.coreAt c).run = .halted && h.inRomLoop c then h.set (DBG_C_STAT.CAUSE c) haltStep
  else if (h.coreAt c).run = .halted then
    let h := h.dbgResume c
    h.setCoreAt c { h.coreAt c with stepping := true }
  else h

/-- A write of DBG_Cc_CTL: HALT goes before STEP, and STEP before RUN. -/
def Hw.dbgCtl (h : Hw) (c : Nat) (v : Word) : Hw :=
  let h := h.plainWrite (DBG_C_CTL c) v
  if v.getLsbD 0 then h.dbgHalt c else if v.getLsbD 2 then h.dbgStep c else if v.getLsbD 1 then h.dbgResume c else h

/-- Core `c` is halted. -/
def Hw.coreHalted (h : Hw) (c : Nat) : Bool := (h.coreAt c).run = .halted

/-- NUM selects a register of core `c` (R448, table "DBG core registers"). -/
def regselOk (c num : Nat) : Bool :=
  num < 32 || (c != 2 && (num < 96 || num = 160)) || (128 ≤ num && num < 139 && !(c = 2 && (num = 133 || num = 134 || num = 136)))

/-- The register that NUM selects. -/
def Core.picked (x : Core) (c : CoreId) (num : Nat) : Word :=
  let i : Fin 32 := Fin.ofNat 32 num
  if num < 32 then x.gr i
  else if num < 64 then (x.f[i]).truncate 32
  else if num < 96 then (x.f[i] >>> 32).truncate 32
  else if num = 160 then x.fsr
  else (x.special c i).getD 0

/-- Special register `i` takes `v`: SSTAT, EPROG and TID at RUN, the others at once (R448; log entry 176). -/
def Core.specialWrite (x : Core) (c : CoreId) (i : Fin 32) (v : Word) : Core :=
  if i = 0 || i = 4 || i = 5 then
    match x.applied.setSpecial c i v with
    | some y => { x with atRun := some ⟨y.sstat, y.inDF, y.tid, y.eprog⟩ }
    | none => x
  else (x.setSpecial c i v).getD x

/-- The register that NUM selects takes `v`; CID, and FSR bits that do not exist, do not change. -/
def Core.pickedWrite (x : Core) (c : CoreId) (num : Nat) (v : Word) : Core :=
  let i : Fin 32 := Fin.ofNat 32 num
  if num < 32 then x.setGr i v
  else if num < 64 then { x with f := x.f.set i (x.f[i] >>> 32 <<< 32 ||| v.zeroExtend 64) }
  else if num < 96 then { x with f := x.f.set i (v.zeroExtend 64 <<< 32 ||| (x.f[i] <<< 32 >>> 32)) }
  else if num = 160 then { x with fsr := v &&& fsrMask }
  else x.specialWrite c i v

/-- A read of REGDATA of core `c`: a bus error where the core is not halted (NOT_HALTED at a debug port). -/
def Hw.regdataRead (h : Hw) (c : Nat) : RdRes :=
  if h.coreHalted c then .word ((h.coreAt c).picked (dbgCore c) (h.get (DBG_C_REGSEL.NUM c))) else .bus

/-- A write of REGDATA of core `c`. -/
def Hw.regdataWrite (h : Hw) (c : Nat) (v : Word) : Hw × AccRes :=
  if h.coreHalted c then (h.setCoreAt c ((h.coreAt c).pickedWrite (dbgCore c) (h.get (DBG_C_REGSEL.NUM c)) v), .ok) else (h, .bus)

/-- A write of REGSEL of core `c`: a reserved NUM leaves it (R15). -/
def Hw.regselWrite (h : Hw) (c : Nat) (v : Word) : Hw × AccRes :=
  if !h.coreHalted c then (h, .bus)
  else
    let num := (DBG_C_REGSEL.NUM c).of v
    (h.plainWrite (DBG_C_REGSEL c) ((DBG_C_REGSEL.NUM c).into v (if regselOk c num then num else h.get (DBG_C_REGSEL.NUM c))), .ok)

/-- A write of PC of core `c`. -/
def Hw.dbgPcWrite (h : Hw) (c : Nat) (v : Word) : Hw × AccRes :=
  if h.coreHalted c then (h.setCoreAt c { h.coreAt c with pc := v &&& 0xFFFFFFFC }, .ok) else (h, .bus)

/-! ### Watchpoints (R449, R450) -/

/-- A write of watchpoint `i` of core `c` at `adr`. -/
def Hw.wpWrite (h : Hw) (acc : Access) (c i adr : Nat) (v : Word) : Hw × AccRes :=
  let dbg := fromDebug acc
  if !dbg && !(acc.who = coreIni (dbgCore c) && h.superT0 acc) then (h, .owner)
  else if wpCount c ≤ i then (h, .ok)
  else if h.on (DBG_C_WP_CTL.EN c i) && h.on (DBG_C_WP_CTL.SRC c i) != dbg then (h.up DBG_STAT.WP_REJ, .ok)
  else
    let was := h.on (DBG_C_WP_CTL.EN c i)
    let h := h.plainWrite adr v
    (if !was && h.on (DBG_C_WP_CTL.EN c i) then h.put (DBG_C_WP_CTL.SRC c i) dbg else h, .ok)

/-! ### Lane groups (R451) -/

/-- A write of HALT: a group that runs halts at this lane instruction boundary. -/
def Hw.dbgLaneHalt (h : Hw) (q : Nat) : Hw :=
  let g := h.grp q
  if g.queue.isSome && !g.ended && !g.halted then (h.setGrp q { g with halted := true, stepping := false }).up (DBG_G_STAT.HALTED q) else h

/-- A write of STEP: a halted group goes on for one lane instruction. -/
def Hw.dbgLaneStep (h : Hw) (q : Nat) : Hw :=
  if (h.grp q).halted then
    let h := h.dbgLaneResume q
    h.setGrp q { h.grp q with stepping := true }
  else h

/-- A write of DBG_Gq_CTL. -/
def Hw.dbgLaneCtl (h : Hw) (q : Nat) (v : Word) : Hw :=
  if v.getLsbD 0 then h.dbgLaneHalt q else if v.getLsbD 2 then h.dbgLaneStep q else if v.getLsbD 1 then h.dbgLaneResume q else h

/-- What REGSEL names of group `q`. -/
def Hw.lanePicked (h : Hw) (q : Nat) : Word :=
  let n := h.get (DBG_G_REGSEL.NUM q)
  let l := h.get (DBG_G_REGSEL.LANE q)
  if n < 64 then (if l < h.gwidth q then h.lreg q l n else 0)
  else BitVec.ofNat 32 (if n < 72 then h.kreg q (n - 64) else if n = 72 then (h.grp q).act else (h.grp q).stack.length)

/-- What REGSEL names of group `q` takes `v`. -/
def Hw.lanePickedWrite (h : Hw) (q : Nat) (v : Word) : Hw :=
  let n := h.get (DBG_G_REGSEL.NUM q)
  let l := h.get (DBG_G_REGSEL.LANE q)
  if n < 64 then (if l < h.gwidth q then h.setLreg q l n v else h)
  else if n < 72 then (List.range (h.gwidth q)).foldl (fun h i => h.setKreg q (n - 64) i (v.getLsbD i)) h
  else if n = 72 then h.setGrp q { h.grp q with act := v.toNat % 2 ^ h.gwidth q } else h

/-- A write in the lane group registers of group `q` at offset `k`. -/
def Hw.dbgLaneWrite (h : Hw) (acc : Access) (q k adr : Nat) (v : Word) : Hw × AccRes :=
  if !fromDebug acc then (h, .owner)
  else if k = 0 then (h.dbgLaneCtl q v, .ok)
  else if k = 8 || k = 0xC then
    if !(h.grp q).halted then (h, .bus)
    else if k = 8 then
      let num := (DBG_G_REGSEL.NUM q).of v
      (h.plainWrite adr ((DBG_G_REGSEL.NUM q).into v (if num < 74 then num else h.get (DBG_G_REGSEL.NUM q))), .ok)
    else (h.lanePickedWrite q v, .ok)
  else (h, .ok)

/-! ### Patch units (R452, R453) -/

/-- A write of patch unit `u` at `adr`: it claims or changes the unit; where that changes EN, LINE or DATA, its old and new line leave both
I-caches. -/
def Hw.patchWrite (h : Hw) (acc : Access) (u adr : Nat) (v : Word) : Hw × AccRes :=
  let src := if fromDebug acc then 3 else 2
  if !fromDebug acc && !h.superT0 acc then (h, .owner)
  else if h.on (DBG_PU_CTL.LOCKED u) then (h, .ok)
  else if h.on (DBG_PU_CTL.EN u) && h.get (DBG_PU_CTL.SRC u) != src then (h.up DBG_STAT.PATCH_REJ, .ok)
  else
    let was := h.on (DBG_PU_CTL.EN u)
    let old := h.get (DBG_PU_LINE.ADDR u) * 32
    let word := h.rd adr
    let h := h.plainWrite adr v
    let h := if was != h.on (DBG_PU_CTL.EN u) then h.set (DBG_PU_CTL.SRC u) (if was then 0 else src) else h
    let changed := was != h.on (DBG_PU_CTL.EN u) || (adr != DBG_PU_CTL u && h.rd adr != word)
    let h := h.when changed (fun h => (h.dropFetch old).dropFetch (h.get (DBG_PU_LINE.ADDR u) * 32))
    (h.patchDups, .ok)

/-! ### The DBG window -/

/-- A write in the DBG window; the debug ports' permissions are checked before it (R442). -/
def Hw.dbgWrite (h : Hw) (acc : Access) (adr : Nat) (v : Word) : Hw × AccRes :=
  let o := adr - 0x20170000
  let c := o / 0x100 - 1
  let k := o % 0x100
  if o = 4 then h.byDebug acc (fun h => h.dbgKey v false)
  else if o = 0xC then (if fromDebug acc || acc.tid = 0 then (h.plainWrite adr v, .ok) else (h, .owner))
  else if 0x100 ≤ o && o < 0x400 then
    if 0x40 ≤ k && k < 0xC0 then h.wpWrite acc c ((k - 0x40) / 0x10) adr v
    else if k = 0x18 then (if fromDebug acc || acc.tid = 0 then (h.plainWrite adr v, .ok) else (h, .owner))
    else if !fromDebug acc then (h, .owner)
    else if k = 0 then (h.dbgCtl c v, .ok)
    else if k = 0xC then h.dbgPcWrite c v
    else if k = 0x10 then h.regselWrite c v
    else if k = 0x14 then h.regdataWrite c v
    else (h.plainWrite adr v, .ok)
  else if 0x800 ≤ o && o < 0xA00 then h.dbgLaneWrite acc ((o - 0x800) / 0x20) (o % 0x20) adr v
  else if 0x1000 ≤ o && o < 0x1800 then h.patchWrite acc ((o - 0x1000) / 0x40) adr v
  else h.byDebug acc (fun h => h.plainWrite adr v)

/-- A read in the DBG window: HITS, whose read clears it, is T0's or the debug port's (R485). -/
def Hw.dbgRead (h : Hw) (acc : Access) (adr : Nat) : Hw × RdRes :=
  let o := adr - 0x20170000
  let c := o / 0x100 - 1
  let k := o % 0x100
  let q := (o - 0x800) / 0x20
  if readChanges adr && acc.tid != 0 then (h, .owner)
  else if 0x100 ≤ o && o < 0x400 && k = 0xC then (h, .word ((h.coreAt c).pc &&& 0xFFFFFFFC))
  else if 0x100 ≤ o && o < 0x400 && k = 0x10 then (h, if h.coreHalted c then .word (h.plainRead adr).2 else .bus)
  else if 0x100 ≤ o && o < 0x400 && k = 0x14 then (h, h.regdataRead c)
  else if 0x800 ≤ o && o < 0xA00 && o % 0x20 = 4 then
    (h, .word ((DBG_G_STAT.PC q).into (BitVec.ofNat 32 (b2n (h.grp q).halted)) ((h.grp q).pc / 8)))
  else if 0x800 ≤ o && o < 0xA00 && (o % 0x20 = 8 || o % 0x20 = 0xC) then
    (h, if !(h.grp q).halted then .bus else if o % 0x20 = 8 then .word (h.plainRead adr).2 else .word (h.lanePicked q))
  else
    let r := h.plainRead adr
    (r.1, .word r.2)

/-! ### The commands -/

/-- The reason of a bus error: NOT_HALTED in the registers of R448, else BUS_ERR. -/
def busReason (a : Nat) : Nat := if DBG_STAT ≤ a && a < DBG_PU_CTL 0 && a % 4 = 0 then 5 else 2

/-- FSD_FAULT records why a debug port's write at `a` is answered FAULT (R443, R448); nobody else's is recorded. -/
def Hw.portAnswer (acc : Access) (a : Nat) (r : Hw × AccRes) : Hw :=
  if fromDebug acc then
    match r.2 with
    | .owner => r.1.set DBG_STAT.FSD_FAULT 1
    | .bus => r.1.set DBG_STAT.FSD_FAULT (busReason a)
    | _ => r.1
  else r.1

/-- As a read at `a` (R443, R448), whose word is the last one read. -/
def Hw.portRead (acc : Access) (a : Nat) (r : Hw × RdRes) : Hw :=
  match r.2 with
  | .word _ | .stall => Hw.answered r
  | .owner => Hw.portAnswer acc a (Hw.answered r, .owner)
  | .bus => Hw.portAnswer acc a (Hw.answered r, .bus)

/-- A write by `acc` at the debug register `a`, by the debug port as its permissions allow, or by T0 where it is named (R442). -/
def State.onDebug (s : State) (acc : Access) (a : Nat) (v : Word) (f : Hw → Hw × AccRes) : Out :=
  s.onBusTo acc (fun h => h.dbgMay h.dbg.jtag a true v) (fun h => Hw.portAnswer acc a (f h))

/-- ATTACH; `port` names the port that the write comes through, JTAG or FSD, where it is not that of the last access (R445). -/
def execAttach (acc : Access) (s : State) (port : Option Bool := none) : Out := s.onDebug acc DBG_CTL 0x44470001 (fun h =>
  Hw.dbgWrite { h with dbg := { h.dbg with jtag := if fromDebug acc then port.getD h.dbg.jtag else h.dbg.jtag } } acc DBG_CTL 0x44470001)

/-- DETACH. -/
def execDetach (acc : Access) (s : State) : Out := s.onDebug acc DBG_CTL 0x44470002 (fun h => h.dbgWrite acc DBG_CTL 0x44470002)

/-- DEBUG_RESET; `same` says that another cause arises on the same IRC edge (R67, R454). -/
def execDebugReset (acc : Access) (same : Bool) (s : State) : Out :=
  s.onDebug acc DBG_CTL 0x44470003 (fun h => h.byDebug acc (fun h => h.dbgKey 0x44470003 same))

/-- DEBUG_WAKE. -/
def execDebugWake (acc : Access) (s : State) : Out := s.onDebug acc DBG_CTL 0x44470004 (fun h => h.dbgWrite acc DBG_CTL 0x44470004)

/-- HALT; STEP_IRQ keeps its value. -/
def execHalt (acc : Access) (c : Fin 3) (s : State) : Out := s.onDebug acc (DBG_C_CTL c) 1 (fun h => h.byDebug acc (fun h => h.dbgHalt c))

/-- RUN. -/
def execRun (acc : Access) (c : Fin 3) (s : State) : Out := s.onDebug acc (DBG_C_CTL c) 2 (fun h => h.byDebug acc (fun h => h.dbgResume c))

/-- STEP. -/
def execStep (acc : Access) (c : Fin 3) (s : State) : Out := s.onDebug acc (DBG_C_CTL c) 4 (fun h => h.byDebug acc (fun h => h.dbgStep c))

/-- REGDATA: a read, or a write of `v`. -/
def execRegdata (acc : Access) (c : Fin 3) (write : Bool) (v : Word) (s : State) : Out := s.onBusBy acc (fun h =>
  if write then Hw.portAnswer acc (DBG_C_REGDATA c) (h.dbgWrite acc (DBG_C_REGDATA c) v)
  else Hw.portRead acc (DBG_C_REGDATA c) (h.dbgRead acc (DBG_C_REGDATA c)))

/-- A write of a lane group's CTL. -/
def State.laneCtlRow (s : State) (acc : Access) (q : Nat) (v : Word) : Out := s.onDebug acc (DBG_G_CTL q) v (fun h => h.dbgWrite acc (DBG_G_CTL q) v)

/-- LANE_HALT. -/
def execLaneHalt (acc : Access) (q : Fin 16) (s : State) : Out := s.laneCtlRow acc q 1

/-- LANE_RUN. -/
def execLaneRun (acc : Access) (q : Fin 16) (s : State) : Out := s.laneCtlRow acc q 2

/-- LANE_STEP. -/
def execLaneStep (acc : Access) (q : Fin 16) (s : State) : Out := s.laneCtlRow acc q 4

/-- PATCH_UNIT_WRITE: a write of word `w` of patch unit `u`. -/
def execPatchUnitWrite (acc : Access) (u : Fin 32) (w : Fin 16) (v : Word) (s : State) : Out :=
  s.onDebug acc (DBG_PU_CTL u + 4 * w) v (fun h => h.dbgWrite acc (DBG_PU_CTL u + 4 * w) v)

/-- WATCHPOINT_WRITE: `reg` 0 writes ADDR of watchpoint `i` of core `c`, 1 MASK, 2 CTL; 3 is reserved. -/
def execWatchpointWrite (acc : Access) (c : Fin 3) (i : Fin 8) (reg : Fin 4) (v : Word) (s : State) : Out :=
  s.onDebug acc (DBG_C_WP_ADDR c i + 4 * reg) v (fun h => h.dbgWrite acc (DBG_C_WP_ADDR c i + 4 * reg) v)

end Sys2Proof.Machine
end

