-- ==== Sys2Proof/Machine/Bist.lean ====
section
/-! DEFINITION. Built-in self-test (spec/19_debug_and_test.md R456 to R459). -/

namespace Sys2Proof.Machine

/-! ### The targets -/

/-- The golden MISR of an LBIST target (table "LBIST targets, rev B"). -/
def bistGolden (t : Nat) : Nat :=
  match t with
  | 1 => 0x6C1E93A40B7D52F8
  | 2 => 0x27D4A0C9E3168B5F
  | 3 => 0x91B35E0A7CD24F16
  | 4 => 0x4E08C7B12A9FD365
  | 5 => 0xB5F21D84E06A937C
  | 6 => 0x0A7CE4D358B16F29
  | 7 => 0xD3186B2F94E70C5A
  | 8 => 0x5F610A3EC8D4B792
  | 9 => 0x83ADF75C1E206B94
  | 0xA => 0x3E9527C0D1B84A6F
  | _ => 0

/-- The duration of a run in microseconds (tables of R457 and R458, R459); none for a reserved target. -/
def bistTime (t : Nat) : Option Nat :=
  match t with
  | 1 | 2 => some 6500
  | 3 | 4 | 5 | 6 => some 9800
  | 7 => some 2400
  | 8 => some 3300
  | 9 => some 1600
  | 0xA => some 41000
  | 0x10 => some 5200
  | 0x11 => some 1400
  | 0x12 | 0x13 => some 200
  | 0x14 | 0x15 | 0x16 | 0x17 => some 300
  | 0x18 => some 2600
  | 0x19 => some 100
  | 0x1A => some 200
  | 0x1B => some 12000
  | 0x20 => some 27200
  | _ => none

/-- Every pool is disabled. -/
def Hw.poolsOff (h : Hw) : Bool := (List.range 16).all (fun p => !h.on (PE_POOL_CFG.EN_L p))

/-- Both Ethernet ports are disabled. -/
def Hw.portsOff (h : Hw) : Bool := !h.on (ETH_CFG.EN 0) && !h.on (ETH_CFG.EN 1)

/-- Core `c` is halted by the debugger, or held in reset. -/
def Hw.stopped (h : Hw) (c : Nat) : Bool := (h.coreAt c).run = .halted || (h.coreAt c).run = .held

/-- The target's precondition holds. -/
def Hw.bistReady (h : Hw) (t : Nat) : Bool :=
  match t with
  | 1 | 0x12 => h.stopped 0
  | 2 | 0x13 => h.stopped 1
  | 3 | 4 | 5 | 6 => h.clusterIdle (t - 3)
  | 7 | 0x19 => h.poolsOff
  | 8 | 0x1A => h.portsOff
  | 9 => h.twState = twTest
  | 0xA => h.on POL_TRIP_STAT.TRIPPED && (h.on POL_STAT.CORE_HELD || h.coreHalted 2)
  | 0x10 | 0x11 => h.coreHalted 0 && h.coreHalted 1
  | 0x14 | 0x15 | 0x16 | 0x17 => h.clusterIdle (t - 0x14)
  | 0x18 => (List.range 4).all (fun c => h.clusterIdle c)
  | 0x1B => h.on POL_STAT.CORE_HELD && !h.on POL_LOG_CFG.EN
  | _ => true

/-! ### What runs do to the part -/

/-- The lines with dirty bytes in a core's D-cache. -/
def Hw.dirtyOf (h : Hw) (g : Agent) : List Nat := ((h.ov g).map (fun e => lineOf e.1)).dedup

/-- Agent `g` holds no line: its dirty bytes are lost, and the directory no longer names it. -/
def Hw.dropAgent (h : Hw) (g : Agent) : Hw :=
  let h := h.setOv g []
  { h with dir := h.dir.filterMap (fun e =>
      if e.2.holders.contains g then
        let l := e.2.holders.filter (· != g)
        some (e.1, { e.2 with holders := l, st := if l = [] then .clean else e.2.st })
      else some e) }

/-- The agent of core `c`. -/
def coreCacheOf (c : Nat) : Agent := if c = 0 then .m0 else .m1

/-- The dirty lines of core `c` are written back, and its caches are invalid. -/
def Hw.coreCaches (h : Hw) (c : Nat) : Hw :=
  let h := (h.cleanLines (h.dirtyOf (coreCacheOf c))).dropAgent (coreCacheOf c)
  h.setCoreAt c { h.coreAt c with icache := [] }

/-- VBASE of core `c` from the ENTRY section (R116, R139). -/
def Hw.entryVbase (h : Hw) (c : Nat) : Word := BitVec.ofNat 32 (fieldB ((bodyOf h.lnch.record secEntry).getD []) (12 * c + 8) 4)

/-- Core `c` is held after its LBIST, all its state at reset (R457). -/
def Hw.bistHeld (h : Hw) (c : Nat) : Hw :=
  let h := h.setCoreAt c { run := .held, vbase := h.entryVbase c }
  Hw.clr { h with bistHold := setBit h.bistHold c true } (DBG_C_STAT.HALTED c)

/-- Registers from `lo` to `hi` return to their reset words; LK fields keep theirs (R457). -/
def Hw.regsFresh (h : Hw) (lo hi : Nat) : Hw :=
  { h with regs := remap (fun a w => if lo ≤ a && a < hi then
      (match rowOf a with
        | some (r, false) => mixed (BitVec.ofNat 32 (r.lk ||| r.keep)) (resetWord a) w
        | _ => resetWord a) else w) h.regs }

/-- What the array of an MBIST target holds: zeros with valid check bits (R458). -/
def Hw.mbistWipe (h : Hw) (t : Nat) : Hw :=
  match t with
  | 0x10 => (h.wipeRange 0x10000000 0x200000).dropCaches
  | 0x11 => h.dropCaches
  | 0x12 | 0x13 => h.coreCaches (t - 0x12)
  | 0x14 | 0x15 | 0x16 | 0x17 =>
    let lo := 0x8000 * (t - 0x14)
    let out := fun a => !(lo ≤ a && a < lo + 0x8000)
    (List.range 4).foldl (fun h s => let g := 4 * (t - 0x14) + s; h.setGrp g { h.grp g with fill := [], dirty := [], bad := [] })
      { h with istore := h.istore.filter (fun e => out e.1), istoreBad := h.istoreBad.filter out }
  | 0x18 => h.wipeRange 0x18000000 0x100000
  | 0x19 => h.dropAgent .pe
  | 0x1B => h.wipeRange 0x30100000 0x8000
  | _ => h

/-- What must be done before the target's array or logic is tested: writebacks first; TWIN's link goes down (R422). -/
def Hw.bistPrepare (h : Hw) (t : Nat) : Hw :=
  match t with
  | 1 | 2 => (h.coreCaches (t - 1)).bistHeld (t - 1)
  | 9 => Hw.setTwin h.linkDown { h.linkDown.twin with train := .idle }
  | 0x11 => (h.cleanLines h.dirtyLines).mbistWipe t
  | _ => h.mbistWipe t

/-- What an LBIST run leaves behind (column "Afterwards"). -/
def Hw.lbistAfter (h : Hw) (t : Nat) : Hw :=
  match t with
  | 3 | 4 | 5 | 6 =>
    (List.range 4).foldl (fun h s => h.up (LAC_Q_STAT.HALTED (4 * (t - 3) + s))) (h.clr (LAC_LC_CFG.MODE (t - 3)))
  | 7 => Hw.regsFresh { h with pools := [] } 0x200A0000 0x200B0000
  | 8 => Hw.regsFresh { h with eths := [] } 0x20130000 0x20150000
  | 9 => ((Hw.regsFresh { h with twin := { peerLow := h.twin.peerLow } } 0x20150000 0x20160000).set TWIN_STAT.STATE twTest).roleNow
  | 0xA =>
    let h := (List.range 32).foldl (fun h r => h.set (POL_RULE_STAT.COUNT r) 0 |>.clr (POL_RULE_STAT.ACTIVE r)) h
    Hw.sets { h with bqs := [], pgRule := (0, 0), pol := { run := .held } }
      [(POL_RULE_ACTIVE.RULES, 0), (POL_STAT.CORE_RUN, 0), (POL_STAT.CORE_HELD, 1), (DBG_C_STAT.HALTED 2, 0)]
  | _ => h

/-- Every stored MRAM word is read under R190 (R459); answers the numbers of corrected and of uncorrectable words. -/
def Hw.mramPass (h : Hw) : Hw × Nat × Nat :=
  (h.upsets.filter (fun e => e.1 < 0x200000)).foldl (fun p e =>
    if e.2 = Upset.single then (p.1.corrected e.1, p.2.1 + 1, p.2.2) else (p.1.uncorrected e.1, p.2.1, p.2.2 + 1)) (h, 0, 0)

/-! ### Starting and ending a run -/

/-- BIST_STAT.REASON codes. -/
def brPerm : Nat := 1
def brPrecond : Nat := 2
def brBusy : Nat := 3
def brBadTarget : Nat := 4

/-- A run is refused. -/
def Hw.bistRefuse (h : Hw) (reason : Nat) : Hw := h.sets [(BIST_STAT.REFUSED, 1), (BIST_STAT.REASON, reason)]

/-- The access may use BIST: T0, or the debug port with BIST (R456). -/
def Hw.bistMay (h : Hw) (acc : Access) : Bool := if fromDebug acc then bitOf (h.get DBG_STAT.PERM) 2 else acc.tid = 0

/-- The target's precondition holds for who asks: main SRAM and the L2 are the debug port's alone (R458). -/
def Hw.bistMeets (h : Hw) (acc : Access) (t : Nat) : Bool := h.bistReady t && !((t = 0x10 || t = 0x11) && !fromDebug acc)

/-- A write of BIST_CMD with the key: checks in the order PERM, BUSY, BAD_TARGET, PRECOND. While the block's clock is gated the run waits
for it (R86). -/
def Hw.bistCmd (h : Hw) (acc : Access) (t : Nat) : Hw :=
  if !h.bistMay acc then h.bistRefuse brPerm
  else if h.on BIST_STAT.BUSY then h.bistRefuse brBusy
  else if (bistTime t).isNone then h.bistRefuse brBadTarget
  else if !h.bistMeets acc t then h.bistRefuse brPrecond
  else
    let h := if h.blockOn 0x18 then h.bistPrepare t else { h with bistWait := true }
    h.sets [(BIST_STAT.BUSY, 1), (BIST_STAT.TARGET, t), (BIST_STAT.REASON, 0)]

/-- The clock returns, and a run that waited for it begins (R86). -/
def Hw.bistGo (h : Hw) : Hw :=
  if h.bistWait && h.blockOn 0x18 then Hw.bistPrepare { h with bistWait := false } (h.get BIST_STAT.TARGET) else h

/-- The run has ended: DONE, and PASS or FAIL. -/
def Hw.bistEnd (h : Hw) (t : Nat) (fail : Bool) : Hw :=
  (h.sets [(BIST_STAT.BUSY, 0), (BIST_STAT.DONE, 1), (BIST_STAT.PASS, b2n (!fail)), (BIST_TIME.US, (bistTime t).getD 0)]).upIf fail BIST_STAT.FAIL

/-- The run of target `t` ends with what it measured: the MISR of an LBIST run, the first failing address of an MBIST run, the
failed spare rows of the MRAM test (R457 to R459). -/
def Hw.bistFinish (h : Hw) (t : Nat) (misr : Nat) (bad : Option Word) (spare : Nat) : Hw :=
  if t < 0x10 then
    let h := h.sets [(BIST_MISR_LO.MISR, misr % 2 ^ 32), (BIST_MISR_HI.MISR, misr / 2 ^ 32), (BIST_GOLDEN_LO.MISR, bistGolden t % 2 ^ 32),
      (BIST_GOLDEN_HI.MISR, bistGolden t / 2 ^ 32)]
    (h.lbistAfter t).bistEnd t (misr != bistGolden t)
  else if t = 0x20 then
    let r := h.mramPass
    let h := r.1.sets [(BIST_MRAM_RES.CE, satU 16 r.2.1), (BIST_MRAM_RES.UE, satU 8 r.2.2), (BIST_MRAM_RES.SPARE_FAIL, satU 8 spare)]
    h.bistEnd t (r.2.2 != 0 || spare != 0)
  else
    let h := match bad with
      | some a => h.wr BIST_FAIL_ADDR a
      | none => h
    (h.mbistWipe t).bistEnd t bad.isSome

/-- A write of BIST_REL: a core held after LBIST starts in the state of R139 at BIST_PC (R457), after a failed launch too (log entry 177). -/
def Hw.bistRel (h : Hw) (v : Word) : Hw :=
  let c := if v = 0x42530101 then 0 else 1
  if (v = 0x42530101 || v = 0x42530102) && bitOf h.bistHold c && !(h.bistRuns (c + 1)) && !h.lcsm.holds then
    Hw.setCoreAt { h with bistHold := setBit h.bistHold c false } c
      { run := .running, pc := h.rd BIST_PC, ssp := h.rd BIST_SSP, vbase := h.entryVbase c }
  else h

/-- A write in the BIST window. -/
def Hw.bistWrite (h : Hw) (acc : Access) (adr : Nat) (v : Word) : Hw × AccRes :=
  if adr = BIST_CMD then (if BIST_CMD.KEY.of v = 0x4253 then h.bistCmd acc (BIST_CMD.TARGET.of v) else h, .ok)
  else if !h.bistMay acc then (h, .owner)
  else (if adr = BIST_REL then h.bistRel v else h.plainWrite adr v, .ok)

/-! ### The commands -/

/-- A write of `v` at the BIST register `a`, by the debug port with BIST (R442). -/
def State.bistRow (s : State) (acc : Access) (a : Nat) (v : Word) : Out := s.onDebug acc a v (fun h => h.bistWrite acc a v)

/-- BIST_CMD. -/
def execBistCmd (acc : Access) (t : Byte) (s : State) : Out := s.bistRow acc BIST_CMD (BitVec.ofNat 32 (0x42530000 + t.toNat))

/-- BIST_DONE: the run ends; `found` are the errors that an MRAM test meets. -/
def execBistDone (misr : DWord) (bad : Option Word) (spare : Fin 17) (found : List (BitVec 21 × Upset)) (s : State) : Out := s.onBlock 0x18 (fun h =>
  h.when (h.on BIST_STAT.BUSY && !h.bistWait) (fun h =>
    let t := h.get BIST_STAT.TARGET
    let h := if t = 0x20 then found.foldl (fun h e => h.upset e.2 (e.1.toNat * 8)) h else h
    h.bistFinish t misr.toNat bad spare))

/-- BIST_REL: the key of M0 or of M1. -/
def execBistRel (acc : Access) (c : Fin 2) (s : State) : Out := s.bistRow acc BIST_REL (BitVec.ofNat 32 (0x42530101 + c.val))

end Sys2Proof.Machine
end

