-- ==== Sys2Proof/Machine/Gpio.lean ====
section
/-! DEFINITION. GPIO balls (spec/20_package_and_electrical.md R465 to R468, table "GPIO data and events"). -/

namespace Sys2Proof.Machine

/-- Bit `k % 32` of word `k / 32` of a register of the table "GPIO data and events". -/
def Hw.gpioBit (h : Hw) (reg : Nat → Nat) (k : Nat) : Bool := (h.rd (reg (k / 32))).getLsbD (k % 32)

/-- The bank of a ball is present: GPIO0 to GPIO35 and GPI0 to GPI2 lie in B3, GPIO36 to GPIO71 in B4 (R465). -/
def Hw.gpioBank (h : Hw) (k : Nat) : Bool := bitOf (h.get GPIO_BANK_STAT.PRESENT) (if k < 36 || 72 ≤ k then 2 else 3)

/-- The level that function 1 of ball `k` drives, where this model knows it: the serial units' outputs, then PT0 and PT1 (R333, R340, R347,
R348, R467). Inside a frame it is not known (log entry 121). -/
def Hw.fn1Drive (h : Hw) (k : Nat) : Option Bool :=
  if k < 24 then
    (if k % 4 = 0 then h.uartTx (k / 4) else if k % 4 = 2 && h.on (UART_CFG.FLOW (k / 4)) then some (h.uart (k / 4)).rts else none)
  else if k < 28 then (if k % 2 = 0 then h.canTx ((k - 24) / 2) else none)
  else if k < 56 then h.spiPin ((k - 28) / 7) ((k - 28) % 7)
  else if k < 64 then (if k % 2 = 0 && (h.i2c ((k - 56) / 2)).stretches then some false else none)
  else some (bitOf (h.ptPins ((k - 64) / 4)) (k % 4))

/-- The level that function 2 of ball `k` drives: general timer outputs and PT0 to PT3 (R467). -/
def Hw.fn2Drive (h : Hw) (k : Nat) : Option Bool :=
  if 28 ≤ k && k < 44 then some (bitOf (h.ptPins ((k - 28) / 4)) (k % 4))
  else if k % 2 = 1 && k < 28 then some (h.on (TMR_GT_STAT.OUT (if k < 24 then k / 2 else 12 + (k - 24) / 2)))
  else if k % 2 = 1 && 44 ≤ k && k < 48 then some (h.on (TMR_GT_STAT.OUT (14 + (k - 44) / 2)))
  else none

/-- The level that ball `k` drives, where this model knows it; an open-drain ball drives no 1 (R467). -/
def Hw.gpioDrive (h : Hw) (k : Nat) : Option Bool :=
  let fn := h.get (GPIO_MUX.FN k)
  let d := if fn = 0 then (if h.gpioBit GPIO_DIR k then some (h.gpioBit GPIO_OUT k) else none) else if fn = 1 then h.fn1Drive k else h.fn2Drive k
  if 72 ≤ k || !h.gpioBank k || (d = some true && h.on (GPIO_MUX.OD k)) then none else d

/-! ### Balls under the boundary register (R460, R461, R464) -/

/-- The place of ball `k` of the table "GPIO data and events" among the boundary's: GPIO0 to GPIO35, GPI0 to GPI2 as 72 to 74, then GPIO36 on. -/
def boundaryBall (k : Nat) : Nat := if k < 36 then 49 + k else if k < 72 then 52 + k else 13 + k

/-- The level that ball `k` drives: as the boundary register says where it has the ball, and its bank is there (R461, R465). -/
def Hw.ballDrive (h : Hw) (k : Nat) : Option Bool :=
  match h.scanDrive (boundaryBall k) with
  | some d => if h.gpioBank k then d else none
  | none => h.gpioDrive k

/-- Ball `k` is at `level` after synchronisation: IN shows it, and an enabled edge sets EVT. -/
def Hw.gpioLevel (h : Hw) (k : Nat) (level : Bool) : Hw :=
  let w := k / 32
  let was := h.gpioBit GPIO_IN k
  let h := h.put ⟨GPIO_IN w, k % 32, 1⟩ level
  if was != level && h.gpioBit (if level then GPIO_RISE else GPIO_FALL) k then h.up ⟨GPIO_EVT w, k % 32, 1⟩ else h

/-- GPIO_EDGE: ball `k` is sensed at `level`; a ball that the part drives is sensed as driven. The block stays clocked in SLEEP (R71). -/
def execGpioEdge (k : Fin 75) (level : Bool) (s : State) : Out := s.run (fun h =>
  h.when (h.mainUp && bitOf (h.get CLK_GATE.EN) 0x19) (fun h => h.gpioLevel k ((h.ballDrive k).getD level)))

end Sys2Proof.Machine
end

