-- ==== Sys2Proof/Machine/Bus.lean ====
section
/-! DEFINITION. The register bus: the one place where a read or a write by address becomes an access to a register
(spec/01_architecture.md R23 to R26, R35 to R37, R485). -/

namespace Sys2Proof.Machine

/-! ### Windows with little behaviour of their own -/

/-- A write of SYS_M1_START: a held M1 starts at SYS_M1_PC in the state of R139; one held after LBIST waits for BIST_REL.
With HALT_AT_LAUNCH it halts before its first instruction (R454). -/
def Hw.m1Start (h : Hw) (v : Word) : Hw :=
  if v = 0x5A170001 && h.m1.run = .held && h.launched && !bitOf h.bistHold 1 && !h.lcsm.holds then
    let h := { h with m1 := { run := .running, pc := h.rd SYS_M1_PC, ssp := h.rd SYS_M1_SP, vbase := h.entryVbase 1 } }
    if h.haltsAtLaunch 1 then h.haltCore .m1 haltLaunch else h
  else h

/-- A write in the SYS window. -/
def Hw.sysWrite (h : Hw) (acc : Access) (adr : Nat) (v : Word) : Hw × AccRes := h.guarded acc [] (fun h =>
  if adr = SYS_M1_START then h.m1Start v
  else if adr = SYS_M1_PC || adr = SYS_M1_SP then h.plainWrite adr (v &&& 0xFFFFFFFC)
  else h.plainWrite adr v)

/-- A write in the PWR window: clearing AVS_ERR after three failures in a row lets a Status read go out (R52). -/
def Hw.pwrWrite (h : Hw) (acc : Access) (adr : Nat) (v : Word) : Hw × AccRes :=
  if adr = PWR_RST_REQ then h.softReset acc v false
  else h.guarded acc [] (fun h =>
    let was := h.on PWR_STAT.AVS_ERR
    let h := h.plainWrite adr v
    if was && !h.on PWR_STAT.AVS_ERR && h.pwr.avsHold then { h with pwr := { h.pwr with avsQ := h.pwr.avsQ ++ [AvsTxn.status] } } else h)

/-- The bits of CLK_GATE that read 1 and cannot be cleared (R86). -/
def gateFixed : Word := 0x4000FF

/-- The block in window `n` stops at a clean boundary as its clock is gated (R86). -/
def Hw.gateOff (h : Hw) (n : Nat) : Hw :=
  match n with
  | 0xB => h.adcStop
  | 0xC => h.aoutStop
  | 0xE | 0xF | 0x10 | 0x11 | 0x12 => h.serialStop n
  | 0x13 => h.ethStop 0
  | 0x14 => h.ethStop 1
  | _ => h

/-- The block in window `n` goes on as its clock returns (R86): the LAC takes the ABORTs that waited, the PE serves what it held, TWIN sends
what is queued, a BIST run begins, the others resume. -/
def Hw.gateOn (h : Hw) (n : Nat) : Hw :=
  match n with
  | 9 => h.laneWake
  | 0xA => h.serveAll.msgRun
  | 0x15 => h.msgRun
  | 0x18 => h.bistGo
  | n => h.serialWake n

/-- CLK_GATE takes `v`. -/
def Hw.gateWrite (h : Hw) (v : Word) : Hw :=
  let was := h.get CLK_GATE.EN
  let h := h.plainWrite CLK_GATE (v ||| gateFixed)
  let now := h.get CLK_GATE.EN
  (List.range 26).foldl (fun h n =>
    if bitOf was n && !bitOf now n then h.gateOff n else if !bitOf was n && bitOf now n then h.gateOn n else h) h

/-- A write in the CLK window. -/
def Hw.clkWrite (h : Hw) (acc : Access) (adr : Nat) (v : Word) : Hw × AccRes :=
  if adr = CLK_SRV_CTL then h.svCtl acc v
  else if adr = CLK_SRV_HINT then h.svHint acc v
  else if adr = CLK_GATE then h.guarded acc [] (fun h => h.gateWrite v)
  else h.guarded acc [] (fun h => h.plainWrite adr v)

/-- T0's gate mask, staged or in force: it reads all ones, and no write changes it (R151). -/
def gateMask0 (adr : Nat) : Bool := (TEN_GATE 0 0 ≤ adr && adr < TEN_GATE 1 0) || (TEN_GATE_LIVE 0 0 ≤ adr && adr < TEN_GATE_LIVE 1 0)

/-- A write in the TEN window. -/
def Hw.tenWrite (h : Hw) (acc : Access) (adr : Nat) (v : Word) : Hw × AccRes :=
  h.guarded acc [] (fun h => if gateMask0 adr then h else h.plainWrite adr v)

/-- A write in the INTC window. -/
def Hw.intcWrite (h : Hw) (acc : Access) (adr : Nat) (v : Word) : Hw × AccRes :=
  if adr < INTC_CFG 0 + 0x400 then h.intcCfg acc ((adr - INTC_CFG 0) / 4) v
  else if adr = INTC_SWI_SET then h.swiSet acc v
  else if adr = INTC_SWI_CLR then h.swiClr acc v
  else if adr = INTC_M_EOI 0 then h.intcEoi acc 0 v
  else if adr = INTC_M_EOI 1 then h.intcEoi acc 1 v
  else h.guarded acc [] (fun h => h.plainWrite adr v)

/-- A read in the INTC window. -/
def Hw.intcRead (h : Hw) (adr : Nat) : Hw × RdRes :=
  if INTC_PEND 0 ≤ adr && adr < INTC_PEND 0 + 0x20 then (h, .word (h.pendWord ((adr - INTC_PEND 0) / 4)))
  else if adr = INTC_SWI_CLR then (h, .word (h.rd INTC_SWI_SET))
  else h.plainRes adr

/-- The stream that MRC register `adr` belongs to. -/
def mrcStream (adr : Nat) : Option Nat :=
  if MRC_LS_CFG 0 ≤ adr && adr < MRC_LS_CFG 0 + 0x400 then some ((adr - MRC_LS_CFG 0) / 0x40) else none

/-- A write in the MRC window; every field of LS15 is read-only. -/
def Hw.mrcWrite (h : Hw) (acc : Access) (adr : Nat) (v : Word) : Hw × AccRes :=
  match mrcStream adr with
  | none => h.guarded acc [] (fun h => h.plainWrite adr v)
  | some n =>
    let o := (adr - MRC_LS_CFG 0) % 0x40
    if o = 0x14 then h.mrcAppend acc n (.addr n (v.toNat / 64 * 64))
    else if o = 0x18 then h.mrcAppend acc n (.handle n v 0)
    else if o = 0x1C then h.mrcRelease acc n (v.toNat % 2 ^ 18)
    else if o = 0 then h.mrcCfg acc n v
    else h.guarded acc (if o = 0xC then [] else [h.lsOwner n]) (fun h => if n = 15 then h else h.plainWrite adr v)

/-- What LS15's configuration reads (table "MRC_LSn registers"). -/
def ls15Word (o : Nat) : Option Word :=
  match o with
  | 0 => some 1
  | 4 => some 0x00FC0000
  | 8 => some 3072
  | 0xC | 0x10 | 0x3C => some 0
  | _ => none

/-- A read in the MRC window: a read that clears DROPPED is the owner's or T0's. -/
def Hw.mrcRead (h : Hw) (acc : Access) (adr : Nat) : Hw × RdRes :=
  match mrcStream adr with
  | none => if readChanges adr && acc.tid != 0 then (h, .owner) else h.plainRes adr
  | some n =>
    if n = 15 then
      (match ls15Word (adr - MRC_LS_CFG 15) with
        | some w => (h, .word w)
        | none => (h, .word (h.plainRead adr).2))
    else if readChanges adr && !(acc.tid = 0 || acc.tid.toNat = h.lsOwner n) then (h, .owner)
    else h.plainRes adr

/-- The queue that LAC register `adr` belongs to: its own registers, or the fault record of its group. -/
def lacQueue (adr : Nat) : Option Nat :=
  if LAC_Q_PUSH 0 ≤ adr && adr < LAC_Q_PUSH 0 + 0x200 then some ((adr - LAC_Q_PUSH 0) / 0x20)
  else if LAC_G_FAULT_INFO 0 ≤ adr && adr < LAC_G_FAULT_INFO 0 + 0x100 then some ((adr - LAC_G_FAULT_INFO 0) / 0x10)
  else none

/-- A write in the LAC window. -/
def Hw.lacWrite (h : Hw) (acc : Access) (adr : Nat) (v : Word) : Hw × AccRes :=
  let o := adr - 0x20090000
  if 0x100 ≤ o && o < 0x200 then
    let c := (o - 0x100) / 0x40
    let k := o % 0x40
    if k = 0 then h.lacCfg acc c v
    else if k = 0x14 then h.islGo acc c v
    else if k = 4 then h.guarded acc [] (fun h => h.plainWrite adr v)
    else h.guarded acc ((List.range 4).map (fun s => h.lqOwner (4 * c + s))) (fun h => h.plainWrite adr v)
  else match lacQueue adr with
    | some q =>
      if adr = LAC_Q_PUSH q then h.lacPush acc q v
      else if adr = LAC_Q_CTL q then h.lacCtl acc q v
      else h.guarded acc (if adr = LAC_Q_OWNER q then [] else [h.lqOwner q]) (fun h => h.plainWrite adr v)
    | none => h.guarded acc [] (fun h => h.plainWrite adr v)

/-- A read in the LAC window: MON shows the VCORE voltage commanded. -/
def Hw.lacRead (h : Hw) (acc : Access) (adr : Nat) : Hw × RdRes :=
  let may := acc.tid = 0 || (match lacQueue adr with
    | some q => acc.tid.toNat = h.lqOwner q
    | none => false)
  if readChanges adr && !may then (h, .owner)
  else
    let r := h.plainRead adr
    (r.1, .word (if adr = LAC_AVS_MON then LAC_AVS_MON.VOUT.into r.2 h.pwr.vcmd else r.2))

/-- A write in the operation window of pool `p`. -/
def Hw.peopWrite (h : Hw) (acc : Access) (adr : Nat) (v : Word) : Hw × AccRes :=
  let r := h.peWrite acc ((adr - 0x21000000) / 0x1000) (adr % 0x1000) v
  (r.1, if r.2 then .held else .ok)

/-- A read in the operation window of pool `p`: ALLOC at offset 0. -/
def Hw.peopRead (h : Hw) (acc : Access) (adr : Nat) : Hw × RdRes :=
  if adr % 0x1000 = 0 then
    match h.peLoad acc ((adr - 0x21000000) / 0x1000) with
    | (h, some w) => (h, .word w)
    | (h, none) => (h, .stall)
  else (h, .word 0)

/-! ### Loops (R38 to R45, R483) -/

/-- The loop whose AUTH_STAT lies at `adr` reports AT_BOUND for the quantity in force. -/
def Hw.loopRefresh (h : Hw) (adr : Nat) : Hw :=
  match allLoops.findIdx? (fun g => g.base + 4 == adr) with
  | some 0 => h.loopReport loopServo h.clk.srvLoop (h.getS CLK_SRV_CORR.CORR)
  | some 1 => h.loopReport loopAvs h.avsLoop (h.vcore : Nat)
  | some 2 => h.loopReport loopBst1 h.bst1Loop (h.get ADC_BST1_MON.VOUT : Nat)
  | some 3 => h.loopReport loopBst2 h.bst2Loop (h.get AOUT_BST2_MON.VOUT : Nat)
  | some 4 => h.loopReport loopThr h.thrLoop (h.getS POL_THR_MON.T_A)
  | some (i + 5) => h.loopReport (loopPool i) (h.pool i).loop (h.get (PE_POOL_MON.W i) : Nat)
  | none => h

/-! ### The bus -/

/-- A write in a peripheral window; `n` is its number (R24). -/
def Hw.windowWrite (h : Hw) (acc : Access) (n adr : Nat) (v : Word) : Hw × AccRes :=
  match n with
  | 0x0 => h.sysWrite acc adr v
  | 0x1 => h.pwrWrite acc adr v
  | 0x2 => h.clkWrite acc adr v
  | 0x3 => h.lcsWrite acc adr v
  | 0x4 => h.intcWrite acc adr v
  | 0x5 => h.tenWrite acc adr v
  | 0x7 => h.mrcWrite acc adr v
  | 0x9 => h.lacWrite acc adr v
  | 0xB => h.adcWrite acc adr v
  | 0xC => h.aoutWrite acc adr v
  | 0xD => let r := h.tmrWrite acc adr v; (r.1.epochCatch, r.2)
  | 0xE => h.uartWrite acc adr v
  | 0xF => h.canWrite acc adr v
  | 0x10 => h.spiWrite acc adr v
  | 0x11 => h.i2cWrite acc adr v
  | 0x12 => h.xspiWrite acc adr v
  | 0x13 | 0x14 => h.ethWrite acc adr v
  | 0x15 => h.twinWrite acc adr v
  | 0x16 => h.cmtWrite acc adr v
  | 0x17 => h.dbgWrite acc adr v
  | 0x18 => h.bistWrite acc adr v
  | _ => h.guarded acc [] (fun h => h.plainWrite adr v)

/-- A read in a peripheral window. -/
def Hw.windowRead (h : Hw) (acc : Access) (n adr : Nat) : Hw × RdRes :=
  match n with
  | 0x4 => h.intcRead adr
  | 0x5 => if gateMask0 adr then (h, .word 0xFFFFFFFF) else h.plainRes adr
  | 0x7 => h.mrcRead acc adr
  | 0x9 => h.lacRead acc adr
  | 0xB => h.adcRead acc adr
  | 0xC => if readChanges adr && !(acc.tid = 0 || (h.aoutTids adr).contains acc.tid.toNat) then (h, .owner) else h.plainRes adr
  | 0xD => h.tmrRead acc adr
  | 0xE => h.uartRead acc adr
  | 0xF => h.canRead adr
  | 0x10 => h.spiRead acc adr
  | 0x11 => h.i2cRead acc adr
  | 0x12 => h.xspiRead acc adr
  | 0x13 | 0x14 => if readChanges adr && acc.tid != 0 then (h, .owner) else h.ethRead acc adr
  | 0x15 => h.twinRead acc adr
  | 0x17 => h.dbgRead acc adr
  | _ => if readChanges adr && acc.tid != 0 then (h, .owner) else h.plainRes adr

/-- A listed peripheral window (R24, R25). -/
def inWindows (a : Nat) : Bool := 0x20000000 ≤ a && a < 0x201A0000

/-- Offset `a` of a listed window is reserved: no register table lists it (R16, R25). -/
def reservedOfs (a : Nat) : Bool := inWindows a && (rowOf a).isNone

/-- A read of the word at device address `a`; a reserved offset reads 0, whoever reads it (R16). -/
def Hw.devRead (h : Hw) (acc : Access) (a : Nat) : Hw × RdRes :=
  if a % 4 != 0 then (h, .bus)
  else if h.bistMutes a || reservedOfs a then (h, .word 0)
  else if allLoops.any (fun g => g.base + 4 == a) then
    (if islandReg a && !fromPolder acc && acc.tid != 0 then (h, .owner) else (h, .word ((h.loopRefresh a).plainRead a).2))
  else if inWindows a then h.windowRead acc ((a - 0x20000000) / 0x10000) a
  else if 0x21000000 ≤ a && a < 0x21010000 then h.peopRead acc a
  else if islandReg a then h.polRead acc a
  else (h, .bus)

/-- A write of the word `v` at device address `a`; one to a reserved offset is ignored, whoever makes it (R16). -/
def Hw.devWrite (h : Hw) (acc : Access) (a : Nat) (v : BitVec 32) : Hw × AccRes :=
  if a % 4 != 0 then (h, .bus)
  else if reservedOfs a then (h, .ok)
  else if inWindows a then h.windowWrite acc ((a - 0x20000000) / 0x10000) a v
  else if 0x21000000 ≤ a && a < 0x21010000 then h.peopWrite acc a v
  else if islandReg a then h.polWrite acc a v
  else (h, .bus)

/-! ### The commands -/

/-- The initiator can make a write of `v` at `a`: the Polder core on the island, or through its open bridge; the others while the main
domain is clocked (R376); the debug port as its permissions allow (R442); while an earlier one of its waits, none (R30). -/
def Hw.reaches (h : Hw) (acc : Access) (a : Nat) (v : Word) : Bool :=
  !h.busHeld acc.who && (if fromPolder acc then h.polRuns && (islandReg a || h.on POL_STAT.MAIN_UP) else h.clocked) &&
    (!fromDebug acc || h.dbgMay h.dbg.jtag a true v)

/-- REGISTER_WRITE: a write of a word at a register address; one that the bridge or the permissions turn away is answered so (R376, R442). -/
def execRegisterWrite (acc : Access) (adr v : Word) (s : State) : Out :=
  s.run (fun h => if h.reaches acc adr.toNat v then Hw.portAnswer acc adr.toNat (h.devWrite acc adr.toNat v) else h.shutTo acc)

/-- M1_START. -/
def execM1Start (acc : Access) (s : State) : Out := s.onBusBy acc (fun h => (h.sysWrite acc SYS_M1_START 0x5A170001).1)

end Sys2Proof.Machine
end

