-- ==== Sys2Proof/Machine/Cpu.lean ====
section
/-! DEFINITION. What every core instruction shares (spec/06_cores.md, spec/07_instruction_sets.md): registers, the checks at the
fetch, loads and stores with their checks in the order of R142, watchpoints (R449), and taking an exception (R143, R145). -/

namespace Sys2Proof.Machine

/-! ### Exceptions -/

/-- A synchronous exception: its vector (R140), and what ECAUSE and EADDR take. -/
structure Exc where
  vec : Nat
  detail : Nat := 0
  aux : Nat := 0
  arg : Nat := 0
  addr : Nat := 0
  write : Bool := false
  deriving DecidableEq, Repr

def vMachineCheck : Nat := 1
def vDoubleFault : Nat := 2
def vBusFetch : Nat := 3
def vBusData : Nat := 4
def vMpuFetch : Nat := 5
def vMpuData : Nat := 6
def vOwner : Nat := 7
def vIllegal : Nat := 8
def vPrivileged : Nat := 9
def vMisaligned : Nat := 10
def vFpu : Nat := 11
def vTrap : Nat := 12
def vGate : Nat := 13
def vGateFault : Nat := 14
def vDebug : Nat := 15

/-- The ECAUSE word (table "ECAUSE"). -/
def causeWord (vec detail aux : Nat) (write dbl : Bool) (arg : Nat) : Word :=
  BitVec.ofNat 32 (vec % 512 + detail % 16 * 2 ^ 12 + aux % 256 * 2 ^ 16 + b2n write * 2 ^ 24 + b2n dbl * 2 ^ 25 + arg % 4 * 2 ^ 26)

/-- The slot of vector `v` (R140). -/
def Core.slot (x : Core) (v : Nat) : Word := x.vbase + BitVec.ofNat 32 (16 * v)

/-- Entry to a vector or a gate in one step (R143): the saved fields, supervisor mode with IE 0, EXL 1 and TID 0, ECAUSE, EADDR and
EPC, and the PC at `target`. The reservation is cleared (R169). -/
def Hw.enter (h : Hw) (c : CoreId) (cause : Word) (eaddr epc target : Word) : Hw :=
  let x := h.core c
  h.setCore c { x with
    sstat := mkSstat true false true x.fpe x.mode x.ie x.tid
    tid := 0, ecause := cause, eaddr := eaddr, epc := epc, pc := target, resv := none, inDF := false, afterEret := false, run := .running }

/-- The vector's bit in DBG_Cc_CATCH is set: the core halts at the vector slot after the entry step (R446). -/
def Hw.catchVec (h : Hw) (c : CoreId) (v : Nat) : Hw :=
  if 1 ≤ v && v ≤ 15 && bitOf (h.get (DBG_C_CATCH.VEC (coreNum c))) (v - 1) then
    (h.haltCore c haltCatch).set (DBG_C_STAT.VEC (coreNum c)) v
  else h

/-- A synchronous exception is taken (R143, R145): with EXL clear, entry at its vector slot with EPC at the faulting instruction;
with EXL set, DOUBLE_FAULT, changing only ECAUSE; inside that handler, lockup.
DESIGN CHOICE (log entry 157): AUX, WRITE and ARG of ECAUSE are 0 on a DOUBLE_FAULT. -/
def Hw.raise (h : Hw) (c : CoreId) (e : Exc) : Hw :=
  let x := h.core c
  if x.exl then
    if x.inDF then h.setCore c { x with run := .lockup }
    else (h.setCore c { x with ecause := causeWord e.vec e.detail 0 false true 0, pc := x.slot vDoubleFault, inDF := true, resv := none, afterEret := false }).catchVec c vDoubleFault
  else
    (h.enter c (causeWord e.vec e.detail e.aux e.write false e.arg) (BitVec.ofNat 32 e.addr) x.pc (x.slot e.vec)).catchVec c e.vec

/-! ### Watchpoints (R449) -/

/-- Watchpoint `i` of core `n` matches an access of `len` bytes at `a` of the kind: 0 execute, 1 load, 2 store. -/
def Hw.wpMatches (h : Hw) (n i a len kind : Nat) (tid : BitVec 7) : Bool :=
  let k := h.get (DBG_C_WP_CTL.KIND n i)
  let m := ~~~ h.rd (DBG_C_WP_MASK n i)
  h.on (DBG_C_WP_CTL.EN n i) && (k == kind || (k == 3 && kind != 0)) &&
  (!h.on (DBG_C_WP_CTL.TID_EN n i) || h.get (DBG_C_WP_CTL.TID n i) == tid.toNat) &&
  (List.range len).any (fun j => (BitVec.ofNat 32 (a + j) &&& m) == (h.rd (DBG_C_WP_ADDR n i) &&& m))

/-- The lowest watchpoint that matches, with the lowest matching address. -/
def Hw.wpHit (h : Hw) (c : CoreId) (a len kind : Nat) : Option (Nat × Nat) :=
  if (h.core c).wpExempt then none
  else
    let n := coreNum c
    match (List.range (if c = .pol then 2 else 8)).find? (fun i => h.wpMatches n i a len kind (h.tidOf c)) with
    | none => none
    | some i =>
      match (List.range len).find? (fun j => h.wpMatches n i (a + j) 1 kind (h.tidOf c)) with
      | some j => some (i, a + j)
      | none => some (i, a)

/-- A watchpoint stops the instruction before the access: a halt at the instruction while attached, else DEBUG and WPHIT
(R449). -/
def Hw.wpTake (h : Hw) (c : CoreId) (i addr : Nat) (write : Bool) : Hw :=
  let n := coreNum c
  if h.on DBG_STAT.ATTACHED then (h.haltCore c haltWp).set (DBG_C_STAT.WP n) i
  else
    let h := h.raise c { vec := vDebug, aux := i, addr := addr, write := write }
    h.set (DBG_C_WPHIT.HIT n) (setBit (h.get (DBG_C_WPHIT.HIT n)) i true)

/-! ### What an instruction's body comes to -/

/-- Why an instruction did not complete. -/
inductive Stop where
  | exc (e : Exc)
  | watch (i addr : Nat) (write : Bool)
  /-- an access has no answer yet: the element is issued again -/
  | wait
  deriving DecidableEq, Repr

/-- What an instruction's body comes to, with the state it leaves. -/
inductive Done where
  /-- completed: the next instruction follows -/
  | next
  /-- completed: control goes to this address -/
  | jump (pc : Word)
  /-- completed: an ERET continues here (R144) -/
  | back (pc : Word)
  /-- stopped before completion -/
  | stop (s : Stop)
  /-- the state is as it shall be, the PC included: a wait, a halt, an entry, an element boundary -/
  | stay
  /-- an access has no answer yet: the instruction is issued again -/
  | again
  deriving DecidableEq, Repr

/-! ### Loads and stores -/

/-- The MPU lets the core make the access: TID 0 in supervisor mode is not checked, and the island has no MPU (R158, R375). -/
def Hw.coreMpu (h : Hw) (c : CoreId) (p : Perm) (a n : Nat) : Bool :=
  c = .pol || ((h.core c).tid = 0 && (h.core c).mode) || h.mpuAllows (h.core c).tid.toNat p a n

/-- TEN records a refused access of a main core (R158). -/
def Hw.coreViolation (h : Hw) (c : CoreId) (a : Nat) (p : Perm) : Hw :=
  if c = .pol then h else h.violation (coreNum c) a (h.core c).tid.toNat p

/-- The Polder core reaches address `a` on the island itself (R376). -/
def onIsland (a : Nat) : Bool := (0x30000000 ≤ a && a < 0x30010000) || (0x30100000 ≤ a && a < 0x30108000)

/-- The Polder core's bridge is closed to `a`: the access receives a bus error and BRIDGE_ERR sets (R376). -/
def Hw.bridgeShut (h : Hw) (c : CoreId) (a : Nat) : Bool := c = .pol && !onIsland a && !h.on POL_STAT.MAIN_UP

/-- The agent of a main core. -/
def coreAgent : CoreId → Option Agent
  | .m0 => some .m0
  | .m1 => some .m1
  | .pol => none

/-- The core's read brings the line where it can be read (R206, R208); the Polder core reads through its bridge, uncached
(R376). -/
def Hw.readLines (h : Hw) (c : CoreId) (a n : Nat) : Hw :=
  if (h.region a).cached then
    match coreAgent c with
    | some g => (linesOf a n).foldl (fun h l => h.share g l) h
    | none => (linesOf a n).foldl (fun h l => h.readThrough l) h
  else h

/-- An address in normal memory that the core may read: mapped, and outside the LCS area but for the audit part and TID 0
(R25, R118). -/
def Hw.coreMapped (h : Hw) (c : CoreId) (a n : Nat) (write : Bool) : Bool := h.dmaMapped (h.tidOf c).toNat a n write

/-- A load of `n` bytes at `a`, with the checks of R142 in order: MISALIGNED, MPU_DATA, OWNER, BUS_ERR_DATA, MACHINE_CHECK, then a
watchpoint. `align` is the alignment that the instruction requires. Answers the bytes, or why there are none; `none` in place of
bytes where a device has no answer yet. -/
def Hw.coreLoad (h : Hw) (c : CoreId) (a n align : Nat) : Hw × Except Stop (Option (List Byte)) :=
  let bus : Stop := .exc { vec := vBusData, addr := a }
  if a % align != 0 && !((h.region a).device && n < 4) then (h, .error (.exc { vec := vMisaligned, addr := a }))
  else if !h.coreMpu c .r a n then (h.coreViolation c a .r, .error (.exc { vec := vMpuData, addr := a }))
  else if h.bridgeShut c a then (h.up POL_STAT.BRIDGE_ERR, .error bus)
  else if (h.region a).device then
    if n != 4 || a % 4 != 0 then (h, .error bus)
    else if h.busHeld (h.accOf c).who then (h, .ok none)
    else match h.devRead (h.accOf c) a with
      | (_, .owner) => (h, .error (.exc { vec := vOwner, addr := a }))
      | (_, .bus) => (h, .error bus)
      | (h', .stall) =>
        match h.wpHit c a n 1 with
        | some (i, b) => (h, .error (.watch i b false))
        | none => (h', .ok none)
      | (h', .word w) =>
        match h.wpHit c a n 1 with
        | some (i, b) => (h, .error (.watch i b false))
        | none => (h', .ok (some (leBytes 4 w.toNat)))
  else if !h.coreMapped c a n false then (h, .error bus)
  else if h.windowWaits a then (h, .ok none)
  else
    let h0 := h.readLines c a n
    match h0.eccRead a n with
    | (h', .bad) => (h', .error (if h.region a = .polsram && c ≠ .pol then bus else .exc { vec := vMachineCheck, detail := 1, addr := a }))
    | (h', .dirErr) => (h', .error (.exc { vec := vMachineCheck, detail := 2, addr := a }))
    | (h', .good) =>
      match h.wpHit c a n 1 with
      | some (i, b) => (h', .error (.watch i b false))
      | none => (h', .ok (some (h'.bytes a n)))

/-- Bytes stored by a core to normal memory: through its D-cache where the memory is cacheable (R208), else straight. -/
def Hw.coreMemStore (h : Hw) (c : CoreId) (a : Nat) (bs : List Byte) : Hw :=
  if (h.region a).cached then
    match coreAgent c with
    | some g => h.agentStore g a bs
    | none => h.hubStore a bs
  else h.straight a bs

/-- A store by core `c` waits for its turn at a line that others have asked for, or have been granted and not yet used (R204). -/
def Hw.storeWaits (h : Hw) (c : CoreId) (a n : Nat) : Bool :=
  match coreAgent c with
  | some g => (h.region a).cached && (linesOf a n).any (fun l => h.mustQueue g l)
  | none => false

/-- The core's requests for those lines are queued (R204). -/
def Hw.storeQueues (h : Hw) (c : CoreId) (a n : Nat) : Hw :=
  match coreAgent c with
  | some g => (linesOf a n).foldl (fun h l => h.joinQueue g l) h
  | none => h

/-- A store to an address inside a writable normal-memory range is buffered: its bus error is asynchronous (R33). -/
def Hw.bufferedStore (h : Hw) (c : CoreId) (a n : Nat) : Bool :=
  c != .pol && (h.region a == h.region (a + n - 1)) && inLcsArea a

/-- MISALIGNED where the address lacks the alignment, but for byte and half-word accesses to device space (R166). -/
def Hw.misaligned (h : Hw) (a n align : Nat) : Bool := a % align != 0 && !((h.region a).device && n < 4)

/-- A store of bytes at `a`, with the checks of R142 in order (R33: a store to an unmapped or read-only address is a bus error). -/
def Hw.coreStore (h : Hw) (c : CoreId) (a : Nat) (bs : List Byte) (align : Nat) : Hw × Option Stop :=
  let n := bs.length
  let bus : Stop := .exc { vec := vBusData, addr := a, write := true }
  if h.misaligned a n align then (h, some (.exc { vec := vMisaligned, addr := a, write := true }))
  else if !h.coreMpu c .w a n then (h.coreViolation c a .w, some (.exc { vec := vMpuData, addr := a, write := true }))
  else if h.bridgeShut c a then (h.up POL_STAT.BRIDGE_ERR, some bus)
  else if (h.region a).device then
    if n != 4 || a % 4 != 0 then (h, some bus)
    else if h.busHeld (h.accOf c).who then (h, some .wait)
    else match h.devWrite (h.accOf c) a (BitVec.ofNat 32 (leNat bs)) with
      | (_, .owner) => (h, some (.exc { vec := vOwner, addr := a, write := true }))
      | (_, .bus) => (h, some bus)
      | (_, .held) => (h, some .wait)
      | (h', .ok) =>
        match h.wpHit c a n 2 with
        | some (i, b) => (h, some (.watch i b true))
        | none => (h', none)
  else if !h.coreMapped c a n true && !h.bufferedStore c a n then (h, some bus)
  else if h.linePoisoned a n then (h, some (.exc { vec := vMachineCheck, detail := 2, addr := a, write := true }))
  else
    match h.wpHit c a n 2 with
    | some (i, b) => (h, some (.watch i b true))
    | none =>
      if h.storeWaits c a n then (h.storeQueues c a n, some .wait)
      else if h.coreMapped c a n true then (h.coreMemStore c a bs, none)
      else ({ h with stores := h.stores ++ [(coreNum c, a, (h.tidOf c).toNat)] }, none)

/-! ### Fetch -/

/-- Patch units serve a fill of 64-byte line `n`: each 32-byte half by the lowest enabled unit that names it, which counts a hit
(R452). -/
def Hw.patchFill (h : Hw) (n : Nat) : Hw :=
  [2 * n, 2 * n + 1].foldl (fun h half =>
    match (List.range 32).find? (fun u => h.on (DBG_PU_CTL.EN u) && h.get (DBG_PU_LINE.ADDR u) == half) with
    | none => h
    | some u => let h := h.inc (DBG_PU_HITS.COUNT u)
      if h.on (DBG_PU_CTL.HIT_IE u) then h.pulseLine 243 else h) h

/-- The fill of a main core's I-cache line with the word at `a`, which is good: the line is listed where all its words are (R190, R202,
R214; log entry 175). -/
def Hw.fetchFill (h : Hw) (c : CoreId) (a : Nat) : Hw :=
  let q := h.eccRead (lineOf a * 64) 64
  let h := if q.2 = .good then q.1.setCore c { q.1.core c with icache := (q.1.core c).icache ++ [lineOf a] } else q.1
  h.patchFill (lineOf a)

/-- The exception of a fetch that meets an uncorrectable word: a bus error for a main core's from the retention SRAM (R376). -/
def Hw.fetchBad (h : Hw) (c : CoreId) (a : Nat) : Exc :=
  if h.region a = .polsram && c ≠ .pol then { vec := vBusFetch, addr := a } else { vec := vMachineCheck, detail := 0, addr := a }

/-- The instruction fetch at PC (R142 steps 1 to 3, R206): MPU_FETCH, BUS_ERR_FETCH, MACHINE_CHECK, and the I-cache fill. -/
def Hw.fetch (h : Hw) (c : CoreId) : Hw × Option Exc :=
  let x := h.core c
  let a := x.pc.toNat
  if !h.coreMpu c .x a 4 then (h.coreViolation c a .x, some { vec := vMpuFetch, addr := a })
  else if h.bridgeShut c a then (h.up POL_STAT.BRIDGE_ERR, some { vec := vBusFetch, addr := a })
  else if !h.coreMapped c a 4 false then (h, some { vec := vBusFetch, addr := a })
  else if c = .pol then
    match h.eccRead a 4 with
    | (h, .good) => (h, none)
    | (h, _) => (h, some (h.fetchBad c a))
  else if x.icache.contains (lineOf a) then (h, none)
  else
    let h := if (h.region a).cached then h.readThrough (lineOf a) else h
    match h.eccRead a 4 with
    | (h, .bad) => (h, some (h.fetchBad c a))
    | (h, .dirErr) => (h, some { vec := vMachineCheck, detail := 2, addr := a })
    | (h, .good) => (h.fetchFill c a, none)

/-- The fetch at PC waits for the xSPI window: no I-cache line answers it (R351). -/
def Hw.fetchWaits (h : Hw) (c : CoreId) : Bool :=
  let x := h.core c
  let a := x.pc.toNat
  h.windowWaits a && h.coreMpu c .x a 4 && !h.bridgeShut c a && h.coreMapped c a 4 false && !(c ≠ .pol && x.icache.contains (lineOf a))

/-- The core executes an instruction now: it runs, and its clock does (R68, R376), and its fetch is answered (R351). -/
def Hw.canRun (h : Hw) (c : CoreId) : Bool :=
  (h.core c).run = .running && (c = .pol || (h.clocked && h.pwr.sleep = .run)) && !h.fetchWaits c

/-- After its first instruction a core is no longer fresh from a RUN or an ERET: a watchpoint may match again (R449), and
EPROG.VALID is cleared unless that instruction was LDM or STM (R148). -/
def Hw.settle (h : Hw) (c : CoreId) (wasEret wasExempt ldm : Bool) : Hw :=
  let x := h.core c
  let x := if wasExempt then { x with wpExempt := false } else x
  let x := if wasEret then { x with afterEret := false } else x
  h.setCore c (if wasEret && !ldm then { x with eprog := x.eprog &&& 0x7FFFFFFF } else x)

/-- The lower of two watchpoints that match (R449): the one that stops the body, and one on its execution. -/
def lowerWatch (d : Done) (x : Option (Nat × Nat)) : Option (Nat × Nat × Bool) :=
  match d, x with
  | .stop (.watch j b w), some (i, a) => if j < i then some (j, b, w) else some (i, a, false)
  | .stop (.watch j b w), none => some (j, b, w)
  | _, some (i, a) => some (i, a, false)
  | _, none => none

/-- The state that a watchpoint stops in: before the instruction where its execution matches; else after the elements done (R147, R449). -/
def watchedIn (before : Hw) (x : Option (Nat × Nat)) (after : Hw) : Hw := if x.isSome then before else after

/-- A debugger's step, or a halt that it asked for, ends with this instruction. -/
def Core.ends (x : Core) : Bool := x.stepping || x.haltReq

/-- A step ends after this instruction or element, its exception entry included, and so does the wait of a halt that was asked for during
its device-space access: the core halts with CAUSE STEP, or with that of the request (R446, R447). -/
def Hw.endStep (h : Hw) (c : CoreId) : Hw :=
  let x := h.core c
  if x.ends && (x.run = .running || x.run = .halted) then
    let h := h.setCore c { x with stepping := false, haltReq := false }
    if x.run = .running then h.haltCore c (if x.haltReq then haltWrite else haltStep) else h
  else h

/-- The instruction is issued again: an access of its has no answer yet. -/
def Done.waits : Done → Bool
  | .again | .stop .wait => true
  | _ => false

/-- One instruction of core `c` with this body: fetched, its exceptions taken in the order of R142, an execute watchpoint after
them, and the PC moved on. -/
def Hw.instr (h : Hw) (c : CoreId) (ldm : Bool) (body : Hw → Hw × Done) : Hw :=
  if h.canRun c then
    let x := h.core c
    match h.fetch c with
    | (h, some e) => (h.raise c e).endStep c
    | (h, none) =>
      let r := body (h.settle c x.afterEret false ldm)
      match r.2 with
      | .stop (.exc e) => ((r.1.settle c false x.wpExempt ldm).raise c e).endStep c
      | d =>
        let e := h.wpHit c x.pc.toNat 4 0
        match lowerWatch d e with
        | some (i, b, w) => ((watchedIn h e r.1).wpTake c i b w).endStep c
        | none =>
          let h := r.1.settle c false (x.wpExempt && !d.waits) ldm
          match d with
          | .next => (h.setPc c (x.pc + 4)).endStep c
          | .jump t => (h.setPc c t).endStep c
          | .back t =>
            let y := h.core c
            (h.setCore c { y with pc := t, afterEret := true, wpExempt := y.ecause.toNat % 512 = vDebug }).endStep c
          | .again => h
          | .stop .wait => h
          | _ => h.endStep c
  else h

/-- A core instruction. -/
def State.instr (s : State) (c : CoreId) (body : Hw → Hw × Done) : Out := s.run (fun h => h.instr c false body)

end Sys2Proof.Machine
end

