-- ==== Sys2Proof/Machine/Operands.lean ====
section
/-! DEFINITION. The operand forms of the core instructions (spec/07_instruction_sets.md R164 to R167): immediates, addresses,
branch targets, shift amounts, and the arithmetic of one word. -/

namespace Sys2Proof.Machine

/-- sext(): sign extension to 32 bits (R164). -/
def sextW {n : Nat} (v : BitVec n) : Word := v.signExtend 32

/-- zext(): zero extension to 32 bits (R164). -/
def zextW {n : Nat} (v : BitVec n) : Word := v.zeroExtend 32

/-- ra + sext(imm16), the address of a load or store (R165). -/
def Hw.ea (h : Hw) (c : CoreId) (ra : Fin 32) (imm : BitVec 16) : Nat := (h.gr c ra + sextW imm).toNat

/-- PC + 4 × sext(off), a branch or jump target (R165). -/
def target {n : Nat} (pc : Word) (off : BitVec n) : Word := pc + 4 * sextW off

/-- The shift amount rb[4:0]. -/
def shamt (b : Word) : Nat := b.toNat % 32

/-- DIV: rounded toward zero, with the results of R167. -/
def divS (a b : Word) : Word := if b = 0 then 0xFFFFFFFF else if a = 0x80000000 ∧ b = 0xFFFFFFFF then 0x80000000 else a.sdiv b

/-- DIVU (R167). -/
def divU (a b : Word) : Word := if b = 0 then 0xFFFFFFFF else a / b

/-- REM: the sign of ra, with the results of R167. -/
def remS (a b : Word) : Word := if b = 0 then a else if a = 0x80000000 ∧ b = 0xFFFFFFFF then 0 else a.srem b

/-- REMU (R167). -/
def remU (a b : Word) : Word := if b = 0 then a else a % b

/-- The high word of the signed product. -/
def mulHi (a b : Word) : Word := ((a.signExtend 64 * b.signExtend 64) >>> 32).truncate 32

/-- The high word of the unsigned product. -/
def mulHiU (a b : Word) : Word := ((a.zeroExtend 64 * b.zeroExtend 64) >>> 32).truncate 32

/-- The leading zeros of a word. -/
def clzW (a : Word) : Word := if a = 0 then 32 else BitVec.ofNat 32 (31 - Nat.log2 a.toNat)

/-- The ones in a word. -/
def popW (a : Word) : Word := BitVec.ofNat 32 ((List.range 32).filter (fun i => a.getLsbD i)).length

/-- The bytes of a word in reverse order. -/
def bswapW (a : Word) : Word :=
  (a <<< 24) ||| ((a &&& 0xFF00) <<< 8) ||| ((a >>> 8) &&& 0xFF00) ||| (a >>> 24)

/-- 1 where the condition holds, else 0. -/
def flagW (b : Bool) : Word := if b then 1 else 0

/-! ### Instructions of one shape -/

/-- An instruction that writes one general register and nothing else: rd = v. -/
def State.alu (s : State) (c : CoreId) (rd : Fin 32) (v : Hw → Word) : Out :=
  s.instr c (fun h => (h.setGr c rd (v h), .next))

/-- A register-register operation. -/
def State.alu2 (s : State) (c : CoreId) (rd ra rb : Fin 32) (f : Word → Word → Word) : Out :=
  s.alu c rd (fun h => f (h.gr c ra) (h.gr c rb))

/-- A conditional branch. -/
def State.branch (s : State) (c : CoreId) (ra rb : Fin 32) (off : BitVec 16) (f : Word → Word → Bool) : Out :=
  s.instr c (fun h => (h, if f (h.gr c ra) (h.gr c rb) then .jump (target (h.core c).pc off) else .next))

/-- The body's continuation where the core is in supervisor mode; PRIVILEGED otherwise (R142, R144). -/
def Hw.priv (h : Hw) (c : CoreId) (k : Hw × Done) : Hw × Done :=
  if (h.core c).mode then k else (h, .stop (.exc { vec := vPrivileged }))

/-- ILLEGAL (R164). -/
def illegal (h : Hw) : Hw × Done := (h, .stop (.exc { vec := vIllegal }))

/-- The body's continuation where the FPU is enabled; FPU with DETAIL 0 otherwise (R173); the island has none (R375). -/
def Hw.fpu (h : Hw) (c : CoreId) (k : Hw × Done) : Hw × Done :=
  if (h.core c).fpe && c != .pol then k else (h, .stop (.exc { vec := vFpu }))

/-- What follows a load: the continuation with the bytes, the stop, or no answer yet (the instruction is issued again). -/
def afterLoad (r : Hw × Except Stop (Option (List Byte))) (k : Hw → Nat → Hw × Done) : Hw × Done :=
  match r.2 with
  | .error e => (r.1, .stop e)
  | .ok none => (r.1, .again)
  | .ok (some bs) => k r.1 (leNat bs)

/-- What follows a store. -/
def afterStore (r : Hw × Option Stop) (k : Hw → Hw × Done) : Hw × Done :=
  match r.2 with
  | some e => (r.1, .stop e)
  | none => k r.1

end Sys2Proof.Machine
end

