-- ==== Sys2Proof/Machine/CoreAlu.lean ====
section
/-! DEFINITION. The core instructions on registers and the branches (spec/07_instruction_sets.md R165 to R167, tables "Core ALU
functions" and "Core major opcodes"). -/

namespace Sys2Proof.Machine

/-- rd = ra + rb. -/
def execAdd (c : CoreId) (rd ra rb : Fin 32) (s : State) : Out := s.alu2 c rd ra rb (fun a b => a + b)

/-- rd = ra − rb. -/
def execSub (c : CoreId) (rd ra rb : Fin 32) (s : State) : Out := s.alu2 c rd ra rb (fun a b => a - b)

/-- rd = ra AND rb. -/
def execAnd (c : CoreId) (rd ra rb : Fin 32) (s : State) : Out := s.alu2 c rd ra rb (fun a b => a &&& b)

/-- rd = ra OR rb. -/
def execOr (c : CoreId) (rd ra rb : Fin 32) (s : State) : Out := s.alu2 c rd ra rb (fun a b => a ||| b)

/-- rd = ra XOR rb. -/
def execXor (c : CoreId) (rd ra rb : Fin 32) (s : State) : Out := s.alu2 c rd ra rb (fun a b => a ^^^ b)

/-- rd = 1 if ra < rb signed. -/
def execSlt (c : CoreId) (rd ra rb : Fin 32) (s : State) : Out := s.alu2 c rd ra rb (fun a b => flagW (a.slt b))

/-- rd = 1 if ra < rb unsigned. -/
def execSltu (c : CoreId) (rd ra rb : Fin 32) (s : State) : Out := s.alu2 c rd ra rb (fun a b => flagW (a.ult b))

/-- rd = ra shifted left by rb[4:0]. -/
def execSll (c : CoreId) (rd ra rb : Fin 32) (s : State) : Out := s.alu2 c rd ra rb (fun a b => a <<< shamt b)

/-- rd = ra shifted right logically by rb[4:0]. -/
def execSrl (c : CoreId) (rd ra rb : Fin 32) (s : State) : Out := s.alu2 c rd ra rb (fun a b => a >>> shamt b)

/-- rd = ra shifted right arithmetically by rb[4:0]. -/
def execSra (c : CoreId) (rd ra rb : Fin 32) (s : State) : Out := s.alu2 c rd ra rb (fun a b => a.sshiftRight (shamt b))

/-- rd = low 32 bits of ra × rb. -/
def execMul (c : CoreId) (rd ra rb : Fin 32) (s : State) : Out := s.alu2 c rd ra rb (fun a b => a * b)

/-- rd = ra shifted left by the rb field. -/
def execSlli (c : CoreId) (rd ra n : Fin 32) (s : State) : Out := s.alu c rd (fun h => h.gr c ra <<< n.val)

/-- rd = ra shifted right logically by the rb field. -/
def execSrli (c : CoreId) (rd ra n : Fin 32) (s : State) : Out := s.alu c rd (fun h => h.gr c ra >>> n.val)

/-- rd = ra shifted right arithmetically by the rb field. -/
def execSrai (c : CoreId) (rd ra n : Fin 32) (s : State) : Out := s.alu c rd (fun h => (h.gr c ra).sshiftRight n.val)

/-- rd = the high word of the signed product. -/
def execMulh (c : CoreId) (rd ra rb : Fin 32) (s : State) : Out := s.alu2 c rd ra rb mulHi

/-- rd = the high word of the unsigned product. -/
def execMulhu (c : CoreId) (rd ra rb : Fin 32) (s : State) : Out := s.alu2 c rd ra rb mulHiU

/-- rd = the signed quotient (R167). -/
def execDiv (c : CoreId) (rd ra rb : Fin 32) (s : State) : Out := s.alu2 c rd ra rb divS

/-- rd = the unsigned quotient (R167). -/
def execDivu (c : CoreId) (rd ra rb : Fin 32) (s : State) : Out := s.alu2 c rd ra rb divU

/-- rd = the signed remainder (R167). -/
def execRem (c : CoreId) (rd ra rb : Fin 32) (s : State) : Out := s.alu2 c rd ra rb remS

/-- rd = the unsigned remainder (R167). -/
def execRemu (c : CoreId) (rd ra rb : Fin 32) (s : State) : Out := s.alu2 c rd ra rb remU

/-- rd = the signed minimum. -/
def execMin (c : CoreId) (rd ra rb : Fin 32) (s : State) : Out := s.alu2 c rd ra rb (fun a b => if a.slt b then a else b)

/-- rd = the signed maximum. -/
def execMax (c : CoreId) (rd ra rb : Fin 32) (s : State) : Out := s.alu2 c rd ra rb (fun a b => if a.slt b then b else a)

/-- rd = the unsigned minimum. -/
def execMinu (c : CoreId) (rd ra rb : Fin 32) (s : State) : Out := s.alu2 c rd ra rb (fun a b => if a.ult b then a else b)

/-- rd = the unsigned maximum. -/
def execMaxu (c : CoreId) (rd ra rb : Fin 32) (s : State) : Out := s.alu2 c rd ra rb (fun a b => if a.ult b then b else a)

/-- rd = leading zeros of ra. -/
def execClz (c : CoreId) (rd ra : Fin 32) (s : State) : Out := s.alu c rd (fun h => clzW (h.gr c ra))

/-- rd = ones in ra. -/
def execPopc (c : CoreId) (rd ra : Fin 32) (s : State) : Out := s.alu c rd (fun h => popW (h.gr c ra))

/-- rd = ra with its byte order reversed. -/
def execBswap (c : CoreId) (rd ra : Fin 32) (s : State) : Out := s.alu c rd (fun h => bswapW (h.gr c ra))

/-- rd = ra + sext(imm). -/
def execAddi (c : CoreId) (rd ra : Fin 32) (imm : BitVec 16) (s : State) : Out := s.alu c rd (fun h => h.gr c ra + sextW imm)

/-- rd = ra AND zext(imm). -/
def execAndi (c : CoreId) (rd ra : Fin 32) (imm : BitVec 16) (s : State) : Out := s.alu c rd (fun h => h.gr c ra &&& zextW imm)

/-- rd = ra OR zext(imm). -/
def execOri (c : CoreId) (rd ra : Fin 32) (imm : BitVec 16) (s : State) : Out := s.alu c rd (fun h => h.gr c ra ||| zextW imm)

/-- rd = ra XOR zext(imm). -/
def execXori (c : CoreId) (rd ra : Fin 32) (imm : BitVec 16) (s : State) : Out := s.alu c rd (fun h => h.gr c ra ^^^ zextW imm)

/-- rd = 1 if ra < sext(imm) signed. -/
def execSlti (c : CoreId) (rd ra : Fin 32) (imm : BitVec 16) (s : State) : Out := s.alu c rd (fun h => flagW ((h.gr c ra).slt (sextW imm)))

/-- rd = 1 if ra < sext(imm) unsigned. -/
def execSltiu (c : CoreId) (rd ra : Fin 32) (imm : BitVec 16) (s : State) : Out := s.alu c rd (fun h => flagW ((h.gr c ra).ult (sextW imm)))

/-- rd = imm << 16. -/
def execLui (c : CoreId) (rd : Fin 32) (imm : BitVec 16) (s : State) : Out := s.alu c rd (fun _ => zextW imm <<< 16)

/-- rd = PC + (imm << 16). -/
def execPcaddh (c : CoreId) (rd : Fin 32) (imm : BitVec 16) (s : State) : Out :=
  s.alu c rd (fun h => (h.core c).pc + zextW imm <<< 16)

/-- Branches if ra = rb. -/
def execBeq (c : CoreId) (ra rb : Fin 32) (off : BitVec 16) (s : State) : Out := s.branch c ra rb off (fun a b => a == b)

/-- Branches if ra ≠ rb. -/
def execBne (c : CoreId) (ra rb : Fin 32) (off : BitVec 16) (s : State) : Out := s.branch c ra rb off (fun a b => a != b)

/-- Branches if ra < rb signed. -/
def execBlt (c : CoreId) (ra rb : Fin 32) (off : BitVec 16) (s : State) : Out := s.branch c ra rb off (fun a b => a.slt b)

/-- Branches if ra ≥ rb signed. -/
def execBge (c : CoreId) (ra rb : Fin 32) (off : BitVec 16) (s : State) : Out := s.branch c ra rb off (fun a b => !a.slt b)

/-- Branches if ra < rb unsigned. -/
def execBltu (c : CoreId) (ra rb : Fin 32) (off : BitVec 16) (s : State) : Out := s.branch c ra rb off (fun a b => a.ult b)

/-- Branches if ra ≥ rb unsigned. -/
def execBgeu (c : CoreId) (ra rb : Fin 32) (off : BitVec 16) (s : State) : Out := s.branch c ra rb off (fun a b => !a.ult b)

/-- PC = target. -/
def execJmp (c : CoreId) (off : BitVec 26) (s : State) : Out := s.instr c (fun h => (h, .jump (target (h.core c).pc off)))

/-- G1 = PC + 4; PC = target. -/
def execCall (c : CoreId) (off : BitVec 26) (s : State) : Out :=
  s.instr c (fun h => (h.setGr c 1 ((h.core c).pc + 4), .jump (target (h.core c).pc off)))

/-- A jump to `t`, which must be 4-aligned; otherwise MISALIGNED on this instruction with EADDR the target (R166). -/
def jumpReg (h : Hw) (t : Word) (k : Hw) : Hw × Done :=
  if t.toNat % 4 = 0 then (k, .jump t) else (h, .stop (.exc { vec := vMisaligned, addr := t.toNat }))

/-- PC = ra. -/
def execJr (c : CoreId) (ra : Fin 32) (s : State) : Out := s.instr c (fun h => jumpReg h (h.gr c ra) h)

/-- PC = ra, read before G1 = PC + 4. -/
def execCallr (c : CoreId) (ra : Fin 32) (s : State) : Out :=
  s.instr c (fun h => jumpReg h (h.gr c ra) (h.setGr c 1 ((h.core c).pc + 4)))

end Sys2Proof.Machine
end

