-- ==== Sys2Proof/Machine/Flags.lean ====
section
/-! DEFINITION. Floating point (spec/07_instruction_sets.md R173, R174, R178): IEEE 754 values as exact integers, one rounding,
and the flags of the table "FSR". -/

namespace Sys2Proof.Machine

/-- A binary format: significand bits with the hidden one, and exponent bits. -/
structure FFmt where
  p : Nat
  w : Nat
  deriving DecidableEq, Repr

def fmt32 : FFmt := ⟨24, 8⟩
def fmt64 : FFmt := ⟨53, 11⟩

/-- The bias, which is also the largest exponent. -/
def FFmt.bias (f : FFmt) : Int := 2 ^ (f.w - 1) - 1

/-- The exponent of the least significant bit of a subnormal. -/
def FFmt.qmin (f : FFmt) : Int := 2 - f.bias - f.p

/-- A floating-point datum: a NaN (signaling or not), an infinity, or (−1)^neg × m × 2^e. -/
inductive FVal where
  | nan (signaling : Bool)
  | inf (neg : Bool)
  | fin (neg : Bool) (m : Nat) (e : Int)
  deriving DecidableEq, Repr

/-- Rounding directions, FSR.RM: 0 nearest even, 1 toward zero, 2 toward +∞, 3 toward −∞. -/
abbrev Rm := Nat

/-- The flags an operation raises. -/
structure FFlags where
  nv : Bool := false
  dz : Bool := false
  of : Bool := false
  uf : Bool := false
  nx : Bool := false
  /-- a result was subnormal and was replaced by zero: UF and NX are not stated (log entry 12) -/
  flushed : Bool := false
  deriving DecidableEq, Repr

/-- Both operations' flags. -/
def FFlags.or (a b : FFlags) : FFlags := ⟨a.nv || b.nv, a.dz || b.dz, a.of || b.of, a.uf || b.uf, a.nx || b.nx, a.flushed || b.flushed⟩

/-- The sign bit of a format's encoding. -/
def FFmt.signBit (f : FFmt) : Nat := 2 ^ (f.w + f.p - 1)

/-- The encoding of an infinity. -/
def FFmt.infBits (f : FFmt) (neg : Bool) : Nat := (2 ^ f.w - 1) * 2 ^ (f.p - 1) + b2n neg * f.signBit

/-- The canonical quiet NaN (R173). -/
def FFmt.nanBits (f : FFmt) : Nat := (2 ^ f.w - 1) * 2 ^ (f.p - 1) + 2 ^ (f.p - 2)

/-- The datum that a bit pattern encodes; with `fz` a subnormal is a zero of its sign. -/
def unpack (f : FFmt) (fz : Bool) (b : Nat) : FVal :=
  let neg := b / f.signBit % 2 = 1
  let ex := b / 2 ^ (f.p - 1) % 2 ^ f.w
  let m := b % 2 ^ (f.p - 1)
  if ex = 2 ^ f.w - 1 then (if m = 0 then .inf neg else .nan (m / 2 ^ (f.p - 2) = 0))
  else if ex = 0 then .fin neg (if fz then 0 else m) f.qmin
  else .fin neg (m + 2 ^ (f.p - 1)) (f.qmin + ex - 1)

/-- The bits of a number's magnitude. -/
def bitLen (m : Nat) : Nat := if m = 0 then 0 else Nat.log2 m + 1

/-- Whether a magnitude with remainder `r` out of `2 ^ d` rounds up. -/
def roundsUp (rm : Rm) (neg : Bool) (q r d : Nat) : Bool :=
  r != 0 && (match rm with
    | 0 => 2 * r > 2 ^ d || (2 * r == 2 ^ d && q % 2 == 1)
    | 1 => false
    | 2 => !neg
    | _ => neg)

/-- `m × 2^e` brought to a multiple of `2^q`: the multiple and whether it is inexact. -/
def quantize (rm : Rm) (neg : Bool) (m : Nat) (e q : Int) : Nat × Bool :=
  if q ≤ e then (m * 2 ^ (e - q).toNat, false)
  else
    let d := (q - e).toNat
    let t := m / 2 ^ d
    let r := m % 2 ^ d
    (t + b2n (roundsUp rm neg t r d), r != 0)

/-- An exact number is rounded once and packed, with the flags OF, UF and NX; tininess is detected before or after rounding as
the part fixes it (log entry 12). -/
def roundPack (f : FFmt) (rm : Rm) (fz : Bool) (neg : Bool) (m : Nat) (e : Int) : Nat × FFlags :=
  let s := b2n neg * f.signBit
  if m = 0 then (s, {})
  else
    let q := max (e + bitLen m - f.p) f.qmin
    let r := quantize rm neg m e q
    let carry := r.1 = 2 ^ f.p
    let mm := if carry then 2 ^ (f.p - 1) else r.1
    let qq := if carry then q + 1 else q
    if 2 ^ (f.p - 1) ≤ mm ∧ f.bias < qq + f.p - 1 then
      let toInf := rm = 0 ∨ (rm = 2 ∧ !neg) ∨ (rm = 3 ∧ neg)
      ((if toInf then f.infBits neg else f.infBits neg - 1), { of := true, nx := true })
    else
      let free := quantize rm neg m e (e + bitLen m - f.p)
      let top := e + bitLen m - (if free.1 = 2 ^ f.p && Config.tinyAfterRounding then 0 else 1)
      let tiny := top < f.qmin + f.p - 1
      if mm < 2 ^ (f.p - 1) then
        if fz && mm != 0 then (s, { flushed := true })
        else (s + mm, { uf := r.2, nx := r.2 })
      else (s + ((qq - f.qmin).toNat) * 2 ^ (f.p - 1) + mm, { uf := tiny && r.2, nx := r.2 })

/-- A datum packed, rounding a number. -/
def packV (f : FFmt) (rm : Rm) (fz : Bool) : FVal → Nat × FFlags
  | .nan _ => (f.nanBits, {})
  | .inf n => (f.infBits n, {})
  | .fin n m e => roundPack f rm fz n m e

/-! ### Exact operations: a datum not yet rounded, and the flags NV and DZ -/

/-- A signaling NaN. -/
def FVal.snan : FVal → Bool
  | .nan s => s
  | _ => false

def FVal.isNan : FVal → Bool
  | .nan _ => true
  | _ => false

def FVal.neg : FVal → FVal
  | .nan s => .nan s
  | .inf n => .inf !n
  | .fin n m e => .fin (!n) m e

def FVal.abs : FVal → FVal
  | .nan s => .nan s
  | .inf _ => .inf false
  | .fin _ m e => .fin false m e

/-- A quiet NaN after NaN operands, NV where one is signaling. -/
def nanOf (l : List FVal) : FVal × FFlags := (.nan false, { nv := l.any FVal.snan })

/-- An invalid operation. -/
def invalid : FVal × FFlags := (.nan false, { nv := true })

/-- The signed multiple of `2^q` that a number is, for `q` no larger than its exponent. -/
def scaled (neg : Bool) (m : Nat) (e q : Int) : Int := (if neg then -1 else 1) * (m * 2 ^ (e - q).toNat : Nat)

/-- x + y; an exact zero of unlike signs is +0, or −0 when rounding toward −∞. -/
def fAdd (rm : Rm) (x y : FVal) : FVal × FFlags :=
  match x, y with
  | .inf a, .inf b => if a = b then (.inf a, {}) else invalid
  | .nan _, _ | _, .nan _ => nanOf [x, y]
  | .inf a, _ => (.inf a, {})
  | _, .inf b => (.inf b, {})
  | .fin a m e, .fin b n k =>
    let q := min e k
    let t := scaled a m e q + scaled b n k q
    if t = 0 then (.fin (if a = b then a else rm == 3) 0 0, {}) else (.fin (t < 0) t.natAbs q, {})

/-- x × y. -/
def fMul (x y : FVal) : FVal × FFlags :=
  match x, y with
  | .nan _, _ | _, .nan _ => nanOf [x, y]
  | .inf a, .inf b => (.inf (a != b), {})
  | .inf a, .fin b n _ => if n = 0 then invalid else (.inf (a != b), {})
  | .fin a m _, .inf b => if m = 0 then invalid else (.inf (a != b), {})
  | .fin a m e, .fin b n k => (.fin (a != b) (m * n) (e + k), {})

/-- x × y + z with the product exact; 0 × ∞ + a quiet NaN raises NV as the part fixes it (log entry 12). -/
def fFma (rm : Rm) (x y z : FVal) : FVal × FFlags :=
  let pr := fMul x y
  if z.isNan then
    (.nan false, { nv := [x, y, z].any FVal.snan || (pr.2.nv && !x.isNan && !y.isNan && Config.fmaInvalid) })
  else if pr.1.isNan then pr
  else fAdd rm pr.1 z

/-- x / y: a quotient of enough bits, its lowest bit sticky. -/
def fDiv (p : Nat) (x y : FVal) : FVal × FFlags :=
  match x, y with
  | .nan _, _ | _, .nan _ => nanOf [x, y]
  | .inf _, .inf _ => invalid
  | .inf a, .fin b _ _ => (.inf (a != b), {})
  | .fin a _ _, .inf b => (.fin (a != b) 0 0, {})
  | .fin a m e, .fin b n k =>
    if n = 0 then (if m = 0 then invalid else (.inf (a != b), { dz := true }))
    else
      let sh := p + 3 + bitLen n
      let t := m * 2 ^ sh
      (.fin (a != b) (2 * (t / n) + b2n (t % n != 0)) (e - k - sh - 1), {})

/-- The integer square root of `n`, found bit by bit from bit `i - 1` down. -/
def isqrtGo (n : Nat) : Nat → Nat → Nat
  | 0, r => r
  | i + 1, r => isqrtGo n i (if (r + 2 ^ i) * (r + 2 ^ i) ≤ n then r + 2 ^ i else r)

/-- The integer square root. -/
def isqrt (n : Nat) : Nat := isqrtGo n (bitLen n / 2 + 1) 0

/-- √x: a root of enough bits, its lowest bit sticky. -/
def fSqrt (p : Nat) (x : FVal) : FVal × FFlags :=
  match x with
  | .nan _ => nanOf [x]
  | .inf a => if a then invalid else (x, {})
  | .fin a m e =>
    if m = 0 then (x, {})
    else if a then invalid
    else
      let sh := 2 * p + 4 + (if (e - (2 * p + 4 : Nat)) % 2 = 0 then 0 else 1)
      let t := m * 2 ^ sh
      let r := isqrt t
      (.fin false (2 * r + b2n (r * r != t)) ((e - sh) / 2 - 1), {})

/-- The comparison of two data; none where one is a NaN. −0 equals +0. -/
def fCmp (x y : FVal) : Option Ordering :=
  match x, y with
  | .nan _, _ | _, .nan _ => none
  | .inf a, .inf b => some (if a = b then .eq else if a then .lt else .gt)
  | .inf a, _ => some (if a then .lt else .gt)
  | _, .inf b => some (if b then .gt else .lt)
  | .fin a m e, .fin b n k =>
    let q := min e k
    some (compare (scaled a m e q) (scaled b n k q))

/-- −0 or a negative datum. -/
def FVal.isNeg : FVal → Bool
  | .nan _ => false
  | .inf n => n
  | .fin n _ _ => n

/-- minimumNumber (`mx` false) or maximumNumber: a NaN gives way to a number, and −0 is less than +0. -/
def fMinMax (mx : Bool) (x y : FVal) : FVal × FFlags :=
  let fl : FFlags := { nv := x.snan || y.snan }
  match fCmp x y with
  | none => ((if !x.isNan then x else if !y.isNan then y else .nan false), fl)
  | some o =>
    let xLess := o == .lt || (o == .eq && x.isNeg)
    ((if xLess != mx then x else y), fl)

/-- A number rounded to an integer; none for a NaN or an infinity. -/
def fRound (rm : Rm) (x : FVal) : Option (Int × Bool) :=
  match x with
  | .fin n m e =>
    let r := quantize rm n m e 0
    some ((if n then -(r.1 : Int) else r.1), r.2)
  | _ => none

/-- The signed 32-bit integer that FTOI answers, and its flags: saturated with NV out of range, 0 with NV for a NaN (table "Core FPU
functions"). -/
def fToI (rm : Rm) (x : FVal) : Word × FFlags :=
  match x with
  | .nan _ => (0, { nv := true })
  | .inf n => (if n then 0x80000000 else 0x7FFFFFFF, { nv := true })
  | _ =>
    match fRound rm x with
    | none => (0, { nv := true })
    | some (i, nx) =>
      if i < -(2 ^ 31) then (0x80000000, { nv := true })
      else if 2 ^ 31 ≤ i then (0x7FFFFFFF, { nv := true })
      else (BitVec.ofInt 32 i, { nx := nx })

/-- A signed word as a datum. -/
def fOfI (w : Word) : FVal := .fin (w.toInt < 0) w.toInt.natAbs 0

/-! ### FSR (R174) -/

/-- FSR fields. -/
def fsrRm (w : Word) : Rm := (w.toNat / 2 ^ 12) % 4
def fsrFz (w : Word) : Bool := w.getLsbD 16

/-- FSR with the flags set; UF and NX of a result replaced by zero are free values (log entry 12). -/
def fsrWith (w : Word) (fl : FFlags) (free : Word) : Word :=
  let uf := fl.uf || (fl.flushed && free.getLsbD 0)
  let nx := fl.nx || (fl.flushed && free.getLsbD 1)
  w ||| BitVec.ofNat 32 (b2n fl.nv + 2 * b2n fl.dz + 4 * b2n fl.of + 8 * b2n uf + 16 * b2n nx)

/-- The lowest DETAIL of the enabled conditions, 0 for none (R174). -/
def fsrTrap (w : Word) (fl : FFlags) : Nat :=
  if fl.nv && w.getLsbD 8 then 1 else if fl.dz && w.getLsbD 9 then 2 else if fl.of && w.getLsbD 10 then 3 else 0

/-- The FPU's flags are recorded; an enabled condition raises FPU in place of the continuation (R174). -/
def Hw.fpFlags (h : Hw) (c : CoreId) (fl : FFlags) (k : Hw → Hw) : Hw × Done :=
  let x := h.core c
  let h := if fl.flushed then h.drawn else h
  let t := fsrTrap x.fsr fl
  let h := h.setCore c { x with fsr := fsrWith x.fsr fl (Config.freeValue (h.freeCtr - 1)) }
  if t = 0 then (k h, .next) else (h, .stop (.exc { vec := vFpu, detail := t }))

end Sys2Proof.Machine
end

