-- ==== Sys2Proof/Machine/CoreFpu.lean ====
section
/-! DEFINITION. The core FPU (spec/07_instruction_sets.md R173, R174, table "Core FPU functions"). -/

namespace Sys2Proof.Machine

/-- The format of precision P. -/
def fmtOf (p : Bool) : FFmt := if p then fmt64 else fmt32

/-- The bits of an F register at precision P. -/
def Hw.fbits (h : Hw) (c : CoreId) (p : Bool) (i : Fin 32) : Nat := if p then (h.fr c i).toNat else (h.fr c i).toNat % 2 ^ 32

/-- The datum in an F register at precision P, as FSR.FZ has it read. -/
def Hw.fval (h : Hw) (c : CoreId) (p : Bool) (i : Fin 32) : FVal := unpack (fmtOf p) (fsrFz (h.core c).fsr) (h.fbits c p i)

/-- RM in force. -/
def Hw.frm (h : Hw) (c : CoreId) : Rm := fsrRm (h.core c).fsr

/-- A datum rounded into F register `rd` at precision P. -/
def Hw.fput (h : Hw) (c : CoreId) (p : Bool) (rd : Fin 32) (r : FVal × FFlags) : Hw × Done :=
  let k := packV (fmtOf p) (h.frm c) (fsrFz (h.core c).fsr) r.1
  h.fpFlags c (r.2.or k.2) (fun h => h.setFr c rd (BitVec.ofNat 64 k.1))

/-- An FPU instruction with a floating-point result. -/
def State.fop (s : State) (c : CoreId) (p : Bool) (rd : Fin 32) (v : Hw → FVal × FFlags) : Out :=
  s.instr c (fun h => h.fpu c (h.fput c p rd (v h)))

/-- An FPU instruction that changes one F register without arithmetic. -/
def State.fmove (s : State) (c : CoreId) (rd : Fin 32) (v : Hw → Nat) : Out :=
  s.instr c (fun h => h.fpu c (h.setFr c rd (BitVec.ofNat 64 (v h)), .next))

/-- rd = ra + rb. -/
def execFadd (c : CoreId) (p : Bool) (rd ra rb : Fin 32) (s : State) : Out :=
  s.fop c p rd (fun h => fAdd (h.frm c) (h.fval c p ra) (h.fval c p rb))

/-- rd = ra − rb. -/
def execFsub (c : CoreId) (p : Bool) (rd ra rb : Fin 32) (s : State) : Out :=
  s.fop c p rd (fun h => fAdd (h.frm c) (h.fval c p ra) (h.fval c p rb).neg)

/-- rd = ra × rb. -/
def execFmul (c : CoreId) (p : Bool) (rd ra rb : Fin 32) (s : State) : Out :=
  s.fop c p rd (fun h => fMul (h.fval c p ra) (h.fval c p rb))

/-- rd = ra / rb. -/
def execFdiv (c : CoreId) (p : Bool) (rd ra rb : Fin 32) (s : State) : Out :=
  s.fop c p rd (fun h => fDiv (fmtOf p).p (h.fval c p ra) (h.fval c p rb))

/-- rd = √ra. -/
def execFsqrt (c : CoreId) (p : Bool) (rd ra : Fin 32) (s : State) : Out :=
  s.fop c p rd (fun h => fSqrt (fmtOf p).p (h.fval c p ra))

/-- minimumNumber. -/
def execFmin (c : CoreId) (p : Bool) (rd ra rb : Fin 32) (s : State) : Out :=
  s.fop c p rd (fun h => fMinMax false (h.fval c p ra) (h.fval c p rb))

/-- maximumNumber. -/
def execFmax (c : CoreId) (p : Bool) (rd ra rb : Fin 32) (s : State) : Out :=
  s.fop c p rd (fun h => fMinMax true (h.fval c p ra) (h.fval c p rb))

/-- The sign bit cleared, no flags. -/
def execFabs (c : CoreId) (p : Bool) (rd ra : Fin 32) (s : State) : Out :=
  s.fmove c rd (fun h => h.fbits c p ra % (fmtOf p).signBit)

/-- The sign bit inverted, no flags. -/
def execFneg (c : CoreId) (p : Bool) (rd ra : Fin 32) (s : State) : Out :=
  s.fmove c rd (fun h => h.fbits c p ra ^^^ (fmtOf p).signBit)

/-- A copy, no flags. -/
def execFmov (c : CoreId) (p : Bool) (rd ra : Fin 32) (s : State) : Out := s.fmove c rd (fun h => h.fbits c p ra)

/-- A datum converted: a NaN becomes the canonical quiet NaN. -/
def fCvt (x : FVal) : FVal × FFlags := if x.isNan then nanOf [x] else (x, {})

/-- rd = ra converted from precision P to the other. -/
def execFcvt (c : CoreId) (p : Bool) (rd ra : Fin 32) (s : State) : Out := s.fop c (!p) rd (fun h => fCvt (h.fval c p ra))

/-- Grd = ra rounded by RM to a signed word. -/
def execFtoi (c : CoreId) (p : Bool) (rd ra : Fin 32) (s : State) : Out :=
  s.instr c (fun h => h.fpu c (
    let r := fToI (h.frm c) (h.fval c p ra)
    h.fpFlags c r.2 (fun h => h.setGr c rd r.1)))

/-- rd = signed Gra at precision P. -/
def execItof (c : CoreId) (p : Bool) (rd ra : Fin 32) (s : State) : Out := s.fop c p rd (fun h => (fOfI (h.gr c ra), {}))

/-- A comparison into a general register; `quiet` comparisons raise NV on a signaling NaN alone. -/
def State.fcomp (s : State) (c : CoreId) (p quiet : Bool) (rd ra rb : Fin 32) (t : Ordering → Bool) : Out :=
  s.instr c (fun h => h.fpu c (
    let x := h.fval c p ra
    let y := h.fval c p rb
    let nv := if quiet then x.snan || y.snan else x.isNan || y.isNan
    h.fpFlags c { nv := nv } (fun h => h.setGr c rd (flagW ((fCmp x y).any t)))))

/-- Grd = 1 if ra = rb. -/
def execFeq (c : CoreId) (p : Bool) (rd ra rb : Fin 32) (s : State) : Out := s.fcomp c p true rd ra rb (· == .eq)

/-- Grd = 1 if ra < rb; NV on a NaN. -/
def execFlt (c : CoreId) (p : Bool) (rd ra rb : Fin 32) (s : State) : Out := s.fcomp c p false rd ra rb (· == .lt)

/-- Grd = 1 if ra ≤ rb; NV on a NaN. -/
def execFle (c : CoreId) (p : Bool) (rd ra rb : Fin 32) (s : State) : Out := s.fcomp c p false rd ra rb (· != .gt)

/-- Grd = ra[31:0] (P 0) or ra[63:32] (P 1). -/
def execFmvg (c : CoreId) (p : Bool) (rd ra : Fin 32) (s : State) : Out :=
  s.instr c (fun h => h.fpu c (h.setGr c rd (((h.fr c ra) >>> (if p then 32 else 0)).truncate 32), .next))

/-- rd[31:0] (P 0) or rd[63:32] (P 1) = Gra; the other half is kept. -/
def execFmvf (c : CoreId) (p : Bool) (rd ra : Fin 32) (s : State) : Out :=
  s.instr c (fun h => h.fpu c (
    let o := (h.fr c rd).toNat
    let v := (h.gr c ra).toNat
    (h.setFr c rd (BitVec.ofNat 64 (if p then v * 2 ^ 32 + o % 2 ^ 32 else o / 2 ^ 32 * 2 ^ 32 + v)), .next)))

/-- Grd = FSR. -/
def execFrfsr (c : CoreId) (rd : Fin 32) (s : State) : Out :=
  s.instr c (fun h => h.fpu c (h.setGr c rd (h.core c).fsr, .next))

/-- FSR = Gra; never a trap. -/
def execFwfsr (c : CoreId) (ra : Fin 32) (s : State) : Out :=
  s.instr c (fun h => h.fpu c (h.setCore c { h.core c with fsr := h.gr c ra &&& fsrMask }, .next))

/-- ra × rb ± rc with one rounding; `neg` negates the exact result before it is rounded. -/
def State.fma (s : State) (c : CoreId) (p : Bool) (rd ra rb rc : Fin 32) (sub neg : Bool) : Out :=
  s.fop c p rd (fun h =>
    let z := h.fval c p rc
    let r := fFma (h.frm c) (h.fval c p ra) (h.fval c p rb) (if sub then z.neg else z)
    ((if neg then r.1.neg else r.1), r.2))

/-- rd = ra × rb + rc. -/
def execFmadd (c : CoreId) (p : Bool) (rd ra rb rc : Fin 32) (s : State) : Out := s.fma c p rd ra rb rc false false

/-- rd = ra × rb − rc. -/
def execFmsub (c : CoreId) (p : Bool) (rd ra rb rc : Fin 32) (s : State) : Out := s.fma c p rd ra rb rc true false

/-- rd = −(ra × rb + rc). -/
def execFnmadd (c : CoreId) (p : Bool) (rd ra rb rc : Fin 32) (s : State) : Out := s.fma c p rd ra rb rc false true

/-- rd = −(ra × rb − rc). -/
def execFnmsub (c : CoreId) (p : Bool) (rd ra rb rc : Fin 32) (s : State) : Out := s.fma c p rd ra rb rc true true

end Sys2Proof.Machine
end

