-- ==== Sys2Proof/Machine/CoreMem.lean ====
section
/-! DEFINITION. The core's loads and stores, its operations at the Hub, its fences and cache maintenance, and the long
instructions (spec/07_instruction_sets.md R165 to R172, spec/06_cores.md R147, R148, spec/08_memory.md R205). -/

namespace Sys2Proof.Machine

/-! ### Loads and stores -/

/-- A load of `n` bytes into a general register through `f`. -/
def State.load (s : State) (c : CoreId) (rd ra : Fin 32) (imm : BitVec 16) (n : Nat) (u : Upset) (f : Nat → Word) : Out :=
  s.instr c (fun h =>
    let a := h.ea c ra imm
    afterLoad ((h.upset u a).coreLoad c a n n) (fun h v => (h.setGr c rd (f v), .next)))

/-- A store of the low `n` bytes of a general register. -/
def State.store (s : State) (c : CoreId) (rs ra : Fin 32) (imm : BitVec 16) (n : Nat) : Out :=
  s.instr c (fun h => afterStore (h.coreStore c (h.ea c ra imm) (leBytes n (h.gr c rs).toNat) n) (fun h => (h, .next)))

/-- rd = sext(byte). -/
def execLb (c : CoreId) (rd ra : Fin 32) (imm : BitVec 16) (s : State) : Out :=
  s.load c rd ra imm 1 .none (fun v => sextW (BitVec.ofNat 8 v))

/-- rd = zext(byte). -/
def execLbu (c : CoreId) (rd ra : Fin 32) (imm : BitVec 16) (s : State) : Out := s.load c rd ra imm 1 .none (BitVec.ofNat 32)

/-- rd = sext(half-word). -/
def execLh (c : CoreId) (rd ra : Fin 32) (imm : BitVec 16) (s : State) : Out :=
  s.load c rd ra imm 2 .none (fun v => sextW (BitVec.ofNat 16 v))

/-- rd = zext(half-word). -/
def execLhu (c : CoreId) (rd ra : Fin 32) (imm : BitVec 16) (s : State) : Out := s.load c rd ra imm 2 .none (BitVec.ofNat 32)

/-- rd = word; `u` is an upset that the access meets in its word or its directory entry (R190, R210). -/
def execLw (c : CoreId) (rd ra : Fin 32) (imm : BitVec 16) (u : Upset) (s : State) : Out := s.load c rd ra imm 4 u (BitVec.ofNat 32)

/-- byte = rs[7:0]. -/
def execSb (c : CoreId) (rs ra : Fin 32) (imm : BitVec 16) (s : State) : Out := s.store c rs ra imm 1

/-- half-word = rs[15:0]. -/
def execSh (c : CoreId) (rs ra : Fin 32) (imm : BitVec 16) (s : State) : Out := s.store c rs ra imm 2

/-- word = rs. -/
def execSw (c : CoreId) (rs ra : Fin 32) (imm : BitVec 16) (s : State) : Out := s.store c rs ra imm 4

/-- Fd[31:0] = word; Fd[63:32] = 0. -/
def execFlw (c : CoreId) (fd ra : Fin 32) (imm : BitVec 16) (s : State) : Out :=
  s.instr c (fun h => h.fpu c (afterLoad (h.coreLoad c (h.ea c ra imm) 4 4) (fun h v => (h.setFr c fd (BitVec.ofNat 64 v), .next))))

/-- Fd = double-word. -/
def execFld (c : CoreId) (fd ra : Fin 32) (imm : BitVec 16) (s : State) : Out :=
  s.instr c (fun h => h.fpu c (afterLoad (h.coreLoad c (h.ea c ra imm) 8 8) (fun h v => (h.setFr c fd (BitVec.ofNat 64 v), .next))))

/-- word = Fs[31:0]. -/
def execFsw (c : CoreId) (fs ra : Fin 32) (imm : BitVec 16) (s : State) : Out :=
  s.instr c (fun h => h.fpu c (afterStore (h.coreStore c (h.ea c ra imm) (leBytes 4 (h.fr c fs).toNat) 4) (fun h => (h, .next))))

/-- double-word = Fs. -/
def execFsd (c : CoreId) (fs ra : Fin 32) (imm : BitVec 16) (s : State) : Out :=
  s.instr c (fun h => h.fpu c (afterStore (h.coreStore c (h.ea c ra imm) (leBytes 8 (h.fr c fs).toNat) 8) (fun h => (h, .next))))

/-- ASYNC_BUS_ERROR: the oldest buffered store whose bus error is on its way is recorded while no record is held, and line 0
asserts (R33). -/
def execAsyncBusError (s : State) : Out := s.run (fun h =>
  match h.stores with
  | [] => h
  | (n, a, t) :: rest =>
    let h := { h with stores := rest }
    if h.on SYS_BERR_INFO.VALID then h
    else h.sets [(SYS_BERR_ADDR.ADDR, a), (SYS_BERR_INFO.TID, t), (SYS_BERR_INFO.CORE, n), (SYS_BERR_INFO.VALID, 1)])

/-! ### Operations at the Hub (R168, R169, R205) -/

/-- The address takes LL, SC and the AMOs: cacheable read-write normal memory for a main core, the retention SRAM for the Polder
core (R168, R375). -/
def Hw.hubOp (h : Hw) (c : CoreId) (a : Nat) : Bool := if c = .pol then h.region a == .polsram else (h.region a).cached

/-- The lower of two watchpoints that match an access, of its load and of its store; one that matches both is the store's (R449). -/
def lowerHit (l s : Option (Nat × Nat)) : Option (Nat × Nat × Bool) :=
  match l, s with
  | some (i, a), some (j, b) => if i < j then some (i, a, false) else some (j, b, true)
  | some (i, a), none => some (i, a, false)
  | none, some (j, b) => some (j, b, true)
  | none, none => none

/-- The word at `a` for an operation at the Hub, after an owner's copy has been recalled, with the checks of R142. -/
def Hw.hubLoad (h : Hw) (c : CoreId) (a : Nat) (write : Bool) : Hw × Except Stop (Option (List Byte)) :=
  let bus : Stop := .exc { vec := vBusData, addr := a, write := write }
  if a % 4 != 0 then (h, .error (.exc { vec := vMisaligned, addr := a, write := write }))
  else if !h.coreMpu c .r a 4 then (h.coreViolation c a .r, .error (.exc { vec := vMpuData, addr := a }))
  else if write && !h.coreMpu c .w a 4 then (h.coreViolation c a .w, .error (.exc { vec := vMpuData, addr := a, write := write }))
  else if !h.hubOp c a || !h.coreMapped c a 4 write then (h, .error bus)
  else
    let h0 := if (h.region a).cached then h.hubRecall (lineOf a) else h
    match h0.eccRead a 4 with
    | (h', .bad) => (h', .error (.exc { vec := vMachineCheck, detail := 1, addr := a, write := write }))
    | (h', .dirErr) => (h', .error (.exc { vec := vMachineCheck, detail := 2, addr := a, write := write }))
    | (h', .good) =>
      match lowerHit (h.wpHit c a 4 1) (if write then h.wpHit c a 4 2 else none) with
      | some (i, b, w) => (h', .error (.watch i b w))
      | none => (h', .ok (some (h'.bytes a 4)))

/-- A word stored by an operation at the Hub: every reservation on its line is cleared (R205). -/
def Hw.hubPut (h : Hw) (a : Nat) (v : Word) : Hw := h.writeMem a (leBytes 4 v.toNat)

/-- An AMO that stores nothing still clears every reservation on its line (R205); the island's lie in the retention SRAM. -/
def Hw.amoTouch (h : Hw) (a : Nat) : Hw :=
  let h := h.killResv (lineOf a)
  { h with pol := { h.pol with resv := if h.pol.resv = some (lineOf a) then none else h.pol.resv } }

/-- The core's reservation is `r`. -/
def Hw.setResv (h : Hw) (c : CoreId) (r : Option Nat) : Hw := h.setCore c { h.core c with resv := r }

/-- rd = word at ra; a reservation is set on its line. -/
def execLl (c : CoreId) (rd ra : Fin 32) (s : State) : Out :=
  s.instr c (fun h =>
    let a := (h.gr c ra).toNat
    afterLoad (h.hubLoad c a false) (fun h v => ((h.setGr c rd (BitVec.ofNat 32 v)).setResv c (some (lineOf a)), .next)))

/-- With a reservation on the line of ra, word at ra = rb and rd = 1; else rd = 0. The reservation is cleared either way, and no
store is made without one. -/
def execSc (c : CoreId) (rd ra rb : Fin 32) (s : State) : Out :=
  s.instr c (fun h =>
    let a := (h.gr c ra).toNat
    let bus : Stop := .exc { vec := vBusData, addr := a, write := true }
    if a % 4 != 0 then (h, .stop (.exc { vec := vMisaligned, addr := a, write := true }))
    else if !h.coreMpu c .w a 4 then (h.coreViolation c a .w, .stop (.exc { vec := vMpuData, addr := a, write := true }))
    else if !h.hubOp c a || !h.coreMapped c a 4 true then (h, .stop bus)
    else if h.linePoisoned a 4 then (h, .stop (.exc { vec := vMachineCheck, detail := 2, addr := a, write := true }))
    else if (h.core c).resv = some (lineOf a) then
      match h.wpHit c a 4 2 with
      | some (i, b) => (h, .stop (.watch i b true))
      | none => (((h.hubPut a (h.gr c rb)).setResv c none).setGr c rd 1, .next)
    else ((h.setResv c none).setGr c rd 0, .next))

/-- An atomic operation at the Hub: rd = the old word, and the word takes `f old rd rb` where that is some word (R168). -/
def State.amo (s : State) (c : CoreId) (rd ra rb : Fin 32) (f : Word → Word → Word → Option Word) : Out :=
  s.instr c (fun h =>
    let a := (h.gr c ra).toNat
    afterLoad (h.hubLoad c a true) (fun h v =>
      let old := BitVec.ofNat 32 v
      let h' := match f old (h.gr c rd) (h.gr c rb) with
        | some w => h.hubPut a w
        | none => h.amoTouch a
      (h'.setGr c rd old, .next)))

/-- rd = old word at ra; word = rb. -/
def execAmoswap (c : CoreId) (rd ra rb : Fin 32) (s : State) : Out := s.amo c rd ra rb (fun o _ b => some b)

/-- rd = old word at ra; word = old + rb. -/
def execAmoadd (c : CoreId) (rd ra rb : Fin 32) (s : State) : Out := s.amo c rd ra rb (fun o _ b => some (o + b))

/-- rd = old word at ra; word = old AND rb. -/
def execAmoand (c : CoreId) (rd ra rb : Fin 32) (s : State) : Out := s.amo c rd ra rb (fun o _ b => some (o &&& b))

/-- rd = old word at ra; word = old OR rb. -/
def execAmoor (c : CoreId) (rd ra rb : Fin 32) (s : State) : Out := s.amo c rd ra rb (fun o _ b => some (o ||| b))

/-- rd = old word at ra; word = old XOR rb. -/
def execAmoxor (c : CoreId) (rd ra rb : Fin 32) (s : State) : Out := s.amo c rd ra rb (fun o _ b => some (o ^^^ b))

/-- rd = old word at ra; word = the signed maximum. -/
def execAmomax (c : CoreId) (rd ra rb : Fin 32) (s : State) : Out := s.amo c rd ra rb (fun o _ b => some (if o.slt b then b else o))

/-- rd = old word at ra; word = the signed minimum. -/
def execAmomin (c : CoreId) (rd ra rb : Fin 32) (s : State) : Out := s.amo c rd ra rb (fun o _ b => some (if o.slt b then o else b))

/-- old = word at ra; if old = rd then word = rb; rd = old. -/
def execAmocas (c : CoreId) (rd ra rb : Fin 32) (s : State) : Out := s.amo c rd ra rb (fun o d b => if o = d then some b else none)

/-! ### Fences and maintenance (R170, R208) -/

/-- An instruction with no effect but that the next one follows: every access of this model is complete and visible before the
next begins, so a fence has nothing to wait for (R31, R208). -/
def State.hold (s : State) (c : CoreId) : Out := s.instr c (fun h => (h, .next))

/-- FENCE: every earlier access is complete. -/
def execFence (c : CoreId) (s : State) : Out := s.hold c

/-- FENCE.WD: every earlier normal-memory store is visible. -/
def execFenceWd (c : CoreId) (s : State) : Out := s.hold c

/-- ISYNC: what follows is fetched again; this model fetches every instruction at its execution. -/
def execIsync (c : CoreId) (s : State) : Out := s.hold c

/-- A maintenance instruction on the line that holds ra: the MPU is asked for R (R170); on the island it is a NOP (R375). -/
def State.maintain (s : State) (c : CoreId) (ra : Fin 32) (bus : Bool) (f : Hw → Nat → Hw) : Out :=
  s.instr c (fun h =>
    let a := (h.gr c ra).toNat
    if c = .pol then (h, .next)
    else if !h.coreMpu c .r a 1 then (h.coreViolation c a .r, .stop (.exc { vec := vMpuData, addr := a }))
    else if bus && !((h.region a).device || h.coreMapped c a 1 false) then (h, .stop (.exc { vec := vBusData, addr := a }))
    else ((if (h.region a).cached then f h (lineOf a) else h), .next))

/-- The core's D-cache no longer holds line `n`: it loses ownership and its reservation there (R169, R205). -/
def Hw.leaveLine (h : Hw) (c : CoreId) (n : Nat) : Hw :=
  match coreAgent c with
  | none => h
  | some g =>
    let e := h.dirAt n
    let hs := e.holders.filter (· ≠ g)
    let h := (h.setOv g (odrop (h.ov g) n)).loseResv g n
    if e.holders.contains g then h.setDir n { e with holders := hs, st := if hs = [] then .clean else e.st } else h

/-- DCWB: where the line is dirty in this D-cache or in the Hub it is written to its memory, and stays valid and clean. -/
def Hw.dcwb (h : Hw) (c : CoreId) (n : Nat) : Hw :=
  let mine := match coreAgent c with
    | some g => oline (h.ov g) n
    | none => []
  if mine = [] ∧ oline h.l2 n = [] then h else h.cleanLine n

/-- DCWB. -/
def execDcwb (c : CoreId) (ra : Fin 32) (s : State) : Out := s.maintain c ra true (fun h n => h.dcwb c n)

/-- DCWBI: as DCWB, then the line is invalidated in this D-cache. -/
def execDcwbi (c : CoreId) (ra : Fin 32) (s : State) : Out := s.maintain c ra true (fun h n => (h.dcwb c n).leaveLine c n)

/-- DCINV: the line is invalidated in this D-cache and its dirty data there discarded; privileged. -/
def execDcinv (c : CoreId) (ra : Fin 32) (s : State) : Out :=
  s.instr c (fun h => h.priv c (
    let a := (h.gr c ra).toNat
    if c = .pol then (h, .next)
    else if !h.coreMpu c .r a 1 then (h.coreViolation c a .r, .stop (.exc { vec := vMpuData, addr := a }))
    else (h.leaveLine c (lineOf a), .next)))

/-- ICINV: the line holding ra leaves this core's I-cache; the island has none (R375). -/
def execIcinv (c : CoreId) (ra : Fin 32) (s : State) : Out :=
  s.instr c (fun h =>
    let a := (h.gr c ra).toNat
    if c = .pol then (h, .next)
    else if !h.coreMpu c .r a 1 then (h.coreViolation c a .r, .stop (.exc { vec := vMpuData, addr := a }))
    else (h.setCore c { h.core c with icache := (h.core c).icache.filter (· != lineOf a) }, .next))

/-- ICINV.ALL: this core's whole I-cache is invalidated. -/
def execIcinvAll (c : CoreId) (s : State) : Out := s.instr c (fun h => (h.setCore c { h.core c with icache := [] }, .next))

/-! ### Long instructions (R147, R148, R171, R172) -/

/-- rd, ra and rb are three distinct registers and none is G0 (R171). -/
def longOk (rd ra rb : Fin 32) : Bool := rd ≠ ra && rd ≠ rb && ra ≠ rb && rd ≠ 0 && ra ≠ 0 && rb ≠ 0

/-- The bytes of the next element: up to 64, ending at a 64-byte boundary of the pointer `p` (R147). -/
def elemLen (p cnt : Nat) : Nat := min cnt (64 - p % 64)

/-- A long instruction that goes on element after element: `one` answers the state after one element, or the stop; `left` says
that an element remains; after `fuel` elements it is interrupted, with the PC at the instruction. `fin` follows the last. -/
def longLoop (left : Hw → Bool) (one : Hw → Hw × Option Stop) (fin : Hw → Hw × Done) : Nat → Hw → Hw × Done
  | 0, h => if left h then (h, .stay) else fin h
  | fuel + 1, h =>
    if left h then
      match one h with
      | (h, none) => longLoop left one fin fuel h
      | (h, some e) => (h, .stop e)
    else fin h

/-- How many elements run: all, as many as `limit` allows before an interruption at an element boundary (R147), or one where a
debugger's step or halt waits for its end (R446, R447). -/
def elements (step : Bool) (limit : Option Nat) (n : Nat) : Nat :=
  if step then 1
  else match limit with
  | none => n + 1
  | some k => min k (n + 1)

/-- A load of one element's bytes: the pieces that a device or the alignment would ask for do not arise, any alignment is
allowed (R171); EADDR names the first byte of the element (R148). -/
def Hw.elemLoad (h : Hw) (c : CoreId) (a n : Nat) : Hw × Except Stop (List Byte) :=
  match h.coreLoad c a n 1 with
  | (h, .error e) => (h, .error e)
  | (h, .ok (some bs)) => (h, .ok bs)
  | (h, .ok none) => (h, .error .wait)

/-- Whether a register of a long instruction still counts bytes. -/
def Hw.countLeft (h : Hw) (c : CoreId) (rb : Fin 32) : Bool := h.gr c rb != 0

/-- The place of a stop in the order of R142; a wait comes last. -/
def Stop.rank : Stop → Nat
  | .exc e => if e.vec = vMisaligned then 1 else if e.vec = vMpuData then 2 else if e.vec = vOwner then 3 else if e.vec = vBusData then 4 else 5
  | .watch _ _ _ => 6
  | .wait => 7

/-- Stop `b` is taken before stop `a`: it stands earlier in the order of R142, or it is a lower watchpoint (R449). -/
def Stop.before (b a : Stop) : Bool :=
  match a, b with
  | .watch i _ _, .watch j _ _ => j < i
  | a, b => b.rank < a.rank

/-- One element of BMOV: a destination byte that overlaps the
source above it is a free value (R171). Of what its load and its store raise, the first in the order of R142 is taken. -/
def bmovOne (c : CoreId) (rd ra rb : Fin 32) (h : Hw) : Hw × Option Stop :=
  let d := (h.gr c rd).toNat
  let a := (h.gr c ra).toNat
  let n := elemLen d (h.gr c rb).toNat
  match h.elemLoad c a n with
  | (h', .error e) =>
    match h.coreStore c d (zeros n) 1 with
    | (h'', some f) => if f.before e then (h'', some f) else (h', some e)
    | (_, none) => (h', some e)
  | (h, .ok bs) =>
    let cnt := (h.gr c rb).toNat
    let fr := h.drawBytes n
    let ovl := fun i => a < d && d < a + cnt && d + i < a + cnt
    let bs' := (List.range n).map (fun i => if ovl i then fr.2.getD i 0 else bs.getD i 0)
    let h := if (List.range n).any ovl then fr.1 else h
    match h.coreStore c d bs' 1 with
    | (h, some e) => (h, some e)
    | (h, none) =>
      (((h.setGr c rd (BitVec.ofNat 32 (d + n))).setGr c ra (BitVec.ofNat 32 (a + n))).setGr c rb (BitVec.ofNat 32 (cnt - n)), none)

/-- One element of BFIL. -/
def bfilOne (c : CoreId) (rd ra rb : Fin 32) (h : Hw) : Hw × Option Stop :=
  let d := (h.gr c rd).toNat
  let cnt := (h.gr c rb).toNat
  let n := elemLen d cnt
  match h.coreStore c d (List.replicate n ((h.gr c ra).truncate 8)) 1 with
  | (h, some e) => (h, some e)
  | (h, none) => ((h.setGr c rd (BitVec.ofNat 32 (d + n))).setGr c rb (BitVec.ofNat 32 (cnt - n)), none)

/-- One element of CRCB: the update of R102, without initial value or final XOR. -/
def crcbOne (c : CoreId) (rd ra rb : Fin 32) (h : Hw) : Hw × Option Stop :=
  let a := (h.gr c ra).toNat
  let cnt := (h.gr c rb).toNat
  let n := elemLen a cnt
  match h.elemLoad c a n with
  | (h, .error e) => (h, some e)
  | (h, .ok bs) =>
    (((h.setGr c rd (crcUpdate (h.gr c rd) bs)).setGr c ra (BitVec.ofNat 32 (a + n))).setGr c rb (BitVec.ofNat 32 (cnt - n)), none)

/-- BMOV, BFIL and CRCB: element by element until the count is 0. -/
def State.long (s : State) (c : CoreId) (rd ra rb : Fin 32) (limit : Option Nat) (one : Hw → Hw × Option Stop) : Out :=
  s.instr c (fun h =>
    if !longOk rd ra rb then illegal h
    else longLoop (fun h => h.countLeft c rb) one (fun h => (h, .next)) (elements (h.core c).ends limit ((h.gr c rb).toNat / 64 + 2)) h)

/-- BMOV: `limit` elements are done before an interruption, or all. -/
def execBmov (c : CoreId) (rd ra rb : Fin 32) (limit : Option Nat) (s : State) : Out := s.long c rd ra rb limit (bmovOne c rd ra rb)

/-- BFIL. -/
def execBfil (c : CoreId) (rd ra rb : Fin 32) (limit : Option Nat) (s : State) : Out := s.long c rd ra rb limit (bfilOne c rd ra rb)

/-- CRCB. -/
def execCrcb (c : CoreId) (rd ra rb : Fin 32) (limit : Option Nat) (s : State) : Out := s.long c rd ra rb limit (crcbOne c rd ra rb)

/-- EPROG with VALID and NEXT (R148). -/
def progWord (valid : Bool) (next : Nat) : Word := BitVec.ofNat 32 (next % 32 + b2n valid * 2 ^ 31)

/-- EPROG takes a value. -/
def Hw.setEprog (h : Hw) (c : CoreId) (w : Word) : Hw := h.setCore c { h.core c with eprog := w }

/-- The registers `i` to `last` in order but for `base`, which an LDM loads last (R147). -/
def ldmOrder (first last base : Nat) (load : Bool) : List Nat :=
  let l := (List.range (last - first + 1)).map (· + first)
  if load && first ≤ base && base ≤ last then l.filter (· != base) ++ [base] else l

/-- The elements of an LDM or STM in order; each stop or interruption leaves EPROG naming the register not yet done (R147,
R148), but that DOUBLE_FAULT leaves EPROG as it is (R145). `fuel` is how many elements run. -/
def ldmLoop (c : CoreId) (one : Hw → Nat → Hw × Option Stop) (fin : Hw → Hw) : Nat → List Nat → Hw → Hw × Done
  | _, [], h => ((fin h).setEprog c ((h.core c).eprog &&& 0x7FFFFFFF), .next)
  | 0, j :: _, h => (h.setEprog c (progWord true j), .stay)
  | fuel + 1, j :: t, h =>
    match one h j with
    | (h, none) => ldmLoop c one fin fuel t h
    | (h, some (.exc e)) => (if (h.core c).exl then h else h.setEprog c (progWord true j), .stop (.exc e))
    | (h, some (.watch i a w)) => (if (h.core c).exl && !h.on DBG_STAT.ATTACHED then h else h.setEprog c (progWord true j), .stop (.watch i a w))
    | (h, some .wait) => (h.setEprog c (progWord true j), .stop .wait)

/-- Where an LDM or STM starts: at the register that EPROG names, or at the first (R148). -/
def Hw.resumeList (h : Hw) (c : CoreId) (l : List Nat) : List Nat :=
  let e := (h.core c).eprog
  if e.getLsbD 31 then
    match l.dropWhile (· != e.toNat % 32) with
    | [] => l
    | r => r
  else l

/-- LDM and STM: `base` is the base register's value (R172). -/
def State.multiple (s : State) (c : CoreId) (first base last : Fin 32) (wb load : Bool) (limit : Option Nat)
    (one : Word → Hw → Nat → Hw × Option Stop) : Out :=
  s.run (fun h => h.instr c true (fun h =>
    if first = 0 || last < first then illegal h
    else
      let b := h.gr c base
      let l := h.resumeList c (ldmOrder first last base load)
      let inList := load && first ≤ base && base ≤ last
      let fin := fun (h : Hw) => if wb && !inList then h.setGr c base (b + BitVec.ofNat 32 (4 * (last.val - first.val + 1))) else h
      ldmLoop c (one b) fin (elements (h.core c).ends limit 32) l h))

/-- A register number from an index. -/
def regNo (j : Nat) : Fin 32 := Fin.ofNat 32 j

/-- LDM: Gj takes the word at base + 4 × (j − first). -/
def execLdm (c : CoreId) (first base last : Fin 32) (wb : Bool) (limit : Option Nat) (s : State) : Out :=
  s.multiple c first base last wb true limit (fun b h j =>
    match h.coreLoad c (b + BitVec.ofNat 32 (4 * (j - first.val))).toNat 4 4 with
    | (h, .ok (some bs)) => (h.setGr c (regNo j) (BitVec.ofNat 32 (leNat bs)), none)
    | (h, .ok none) => (h, some .wait)
    | (h, .error e) => (h, some e))

/-- STM: the word at base + 4 × (j − first) = Gj. -/
def execStm (c : CoreId) (first base last : Fin 32) (wb : Bool) (limit : Option Nat) (s : State) : Out :=
  s.multiple c first base last wb false limit (fun b h j =>
    h.coreStore c (b + BitVec.ofNat 32 (4 * (j - first.val))).toNat (leBytes 4 (h.gr c (regNo j)).toNat) 4)

end Sys2Proof.Machine
end

