-- ==== Sys2Proof/Machine/CoreSys.lean ====
section
/-! DEFINITION. The core's system instructions (spec/07_instruction_sets.md table "Core system functions", R175), the Sluice gate
(spec/06_cores.md R151), interrupts (R154, R155, R378) and the illegal instruction (R164). -/

namespace Sys2Proof.Machine

/-! ### MFS, MTS -/

/-- MFS: privileged but for TID and CID. -/
def execMfs (c : CoreId) (rd n : Fin 32) (s : State) : Out :=
  s.instr c (fun h =>
    match (h.core c).special c n with
    | none => illegal h
    | some v => if n = 5 || n = 10 then (h.setGr c rd v, .next) else h.priv c (h.setGr c rd v, .next))

/-- MTS: the new value acts for the next instruction. -/
def execMts (c : CoreId) (n ra : Fin 32) (s : State) : Out :=
  s.instr c (fun h =>
    match (h.core c).setSpecial c n (h.gr c ra) with
    | none => illegal h
    | some x => h.priv c (h.setCore c x, .next))

/-! ### TRAP, BRK, ERET, ILLEGAL -/

/-- TRAP with AUX = n. -/
def execTrap (c : CoreId) (n : Byte) (s : State) : Out :=
  s.instr c (fun h => (h, .stop (.exc { vec := vTrap, aux := n.toNat })))

/-- BRK: a halt with the PC after it while a debugger is attached (R446), else DEBUG with AUX = n. -/
def execBrk (c : CoreId) (n : Byte) (s : State) : Out :=
  s.instr c (fun h =>
    if h.on DBG_STAT.ATTACHED then ((h.setPc c ((h.core c).pc + 4)).haltCore c haltBrk, .stay)
    else (h, .stop (.exc { vec := vDebug, aux := n.toNat })))

/-- ERET (R144): MODE, IE and TID from their saved copies, EXL clear, at EPC. -/
def Core.eret (x : Core) : Core :=
  { x with sstat := mkSstat x.pmode x.pie false x.fpe x.pmode x.pie x.ptid, tid := x.ptid, inDF := false, resv := none }

/-- ERET. -/
def execEret (c : CoreId) (s : State) : Out :=
  s.instr c (fun h => h.priv c (
    let x := h.core c
    let y := if c = .pol then { x.eret with sstat := sstatOf c x.eret.sstat, tid := x.tid } else x.eret
    (h.setCore c y, .back x.epc)))

/-- ILLEGAL: a word that no instruction has. -/
def execIllegal (c : CoreId) (s : State) : Out := s.instr c illegal

/-! ### Waiting and interrupts -/

/-- A line is deliverable to the core, disregarding SSTAT (R154, R175, R378). -/
def Hw.anyLine (h : Hw) (c : CoreId) : Option Nat :=
  match c with
  | .m0 => h.bestLine 0
  | .m1 => h.bestLine 1
  | .pol => h.islandBest

/-- WAIT: completes where a line is deliverable, disregarding IE; otherwise the core waits with its PC at the WAIT. -/
def execWait (c : CoreId) (s : State) : Out :=
  s.instr c (fun h => h.priv c (
    if (h.anyLine c).isSome then (h, .next)
    else (h.setCore c { h.core c with run := .waiting }, .stay)))

/-- The core may take an interrupt now (R145, R154, R446): it runs or waits with IE = 1 and EXL = 0, and no device-space access of its is
outstanding (R146); a step takes one only with STEP_IRQ (R447). -/
def Hw.takesIrq (h : Hw) (c : CoreId) : Bool :=
  let x := h.core c
  x.ie && !x.exl && !h.owesAccess (coreIni c) && (x.run = .running || x.run = .waiting) && (!x.stepping || h.on (DBG_C_CTL.STEP_IRQ (coreNum c))) &&
  (c = .pol || (h.clocked && h.pwr.sleep = .run))

/-- Entry for line `k`, whose handler slot is that of vector 16 + k (R34, R143); EPC is the next instruction, the one after a WAIT that
the line completes (R175). -/
def Hw.enterLine (h : Hw) (c : CoreId) (k : Nat) : Hw :=
  let x := h.core c
  (h.enter c (causeWord (16 + k) 0 k false false 0) 0 (if x.run = .waiting then x.pc + 4 else x.pc) (x.slot (16 + k))).endStep c

/-- The line becomes ACTIVE on the core, RUNPRI becomes its PRIO, and the core enters (R155, R156). -/
def Hw.grantLine (h : Hw) (c : CoreId) (k : Nat) : Hw :=
  let n := coreNum c
  let h := h.setAct n ((k, h.get (INTC_CFG.PRIO k)) :: h.act n)
  Hw.enterLine { h with lineLatch := h.lineLatch.filter (· != k) } c k

/-- The core that the most urgent deliverable line goes to: where both may take one line, the core whose RUNPRI is higher, M0 where
they are equal (R155). -/
def Hw.nextGrant (h : Hw) : Option (CoreId × Nat) :=
  let b0 := if h.takesIrq .m0 then h.bestLine 0 else none
  let b1 := if h.takesIrq .m1 then h.bestLine 1 else none
  let key := fun k => h.get (INTC_CFG.PRIO k) * 256 + k
  match b0, b1 with
  | none, none => none
  | some k, none => some (.m0, k)
  | none, some k => some (.m1, k)
  | some j, some k =>
    if j = k then (if h.get (INTC_M_RUNPRI.PRI 0) < h.get (INTC_M_RUNPRI.PRI 1) then some (.m1, k) else some (.m0, j))
    else if key j < key k then some (.m0, j) else some (.m1, k)

/-- INTERRUPT_GRANT. -/
def execInterruptGrant (s : State) : Out := s.run (fun h =>
  match h.nextGrant with
  | some (c, k) => h.grantLine c k
  | none => h)

/-- The island's line `k` is entered; an event is over with its entry (R378; log entry 8). -/
def Hw.enterIsland (h : Hw) (k : Nat) : Hw :=
  (h.set POL_CORE_PEND.PEND (setBit (h.get POL_CORE_PEND.PEND) k false)).enterLine .pol k

/-- ISLAND_LINE_ENTRY. -/
def execIslandLineEntry (s : State) : Out := s.run (fun h =>
  if h.takesIrq .pol then
    match h.islandBest with
    | some k => h.enterIsland k
    | none => h
  else h)

/-- WAIT_END: a line is deliverable to a waiting core; its WAIT completes, and with IE = 1 the interrupt is taken with EPC after the
WAIT (R175). -/
def execWaitEnd (c : CoreId) (s : State) : Out := s.run (fun h =>
  let x := h.core c
  if x.run = .waiting && (c = .pol || (h.clocked && h.pwr.sleep = .run)) then
    match h.anyLine c with
    | none => h
    | some _ =>
      let h := h.setCore c { x with run := .running, pc := x.pc + 4 }
      if h.takesIrq c then
        match c with
        | .pol => (match h.islandBest with
          | some k => h.enterIsland k
          | none => h)
        | c => (match h.nextGrant with
          | some (d, k) => (h.grantLine d k).endStep c
          | none => h.endStep c)
      else h.endStep c
  else h)

/-! ### The Sluice gate (R151) -/

/-- A field of the gate table's entry for gate `n`, read with TID 0. DESIGN CHOICE (log entry 179): the bytes as they are, at an address
that does not exist and in an uncorrectable word too. -/
def Hw.gateField (h : Hw) (x : Core) (n o w : Nat) : Nat := h.loadN (x.slcBase.toNat / 4096 * 4096 + 16 * n + o) w

/-- Bit `n` of a tenant's gate mask; T0 has every gate (R151). -/
def Hw.gateAllowed (h : Hw) (t n : Nat) : Bool := t = 0 || bitOf (h.get (TEN_GATE.MASK_L t (n / 32))) (n % 32)

/-- A descriptor byte is well formed: no reserved KIND, and LOG2MAX 0 for kinds 0 and 1. -/
def descOk (d : Nat) : Bool := d % 8 < 5 && (2 ≤ d % 8 || d / 8 = 0)

/-- The caller may be given the buffer: an enabled region of its TID contains it and grants what KIND needs; T0 passes. -/
def Hw.argAllowed (h : Hw) (t kind p len : Nat) : Bool :=
  t = 0 || (List.range 8).any (fun r =>
    (kind == 3 || h.regionGrants t r .r p len) && (kind == 2 || h.regionGrants t r .w p len))

/-- The first failure among buffer arguments `j` and after: the code and the argument. -/
def Hw.gateArgs (h : Hw) (c : CoreId) (desc : Nat) : List Nat → Option (Nat × Nat)
  | [] => none
  | j :: t =>
    let d := desc / 256 ^ j % 256
    let p := (h.gr c (regArg (4 + j))).toNat
    let len := (h.gr c (regArg (8 + j))).toNat
    if d % 8 < 2 || len = 0 then h.gateArgs c desc t
    else if 2 ^ (d / 8) < len then some (4, j)
    else if 2 ^ 32 < p + len then some (7, j)
    else if !h.argAllowed (h.core c).tid.toNat (d % 8) p len then some (5, j)
    else h.gateArgs c desc t
where
  /-- A register number. -/
  regArg (i : Nat) : Fin 32 := Fin.ofNat 32 i

/-- The check of R151: 0, or the code of the first failure with its argument. -/
def Hw.gateCheck (h : Hw) (c : CoreId) (n : Nat) : Nat × Nat :=
  let x := h.core c
  if x.slcBase.toNat % 512 ≤ n then (1, 0)
  else if !h.gateAllowed x.tid.toNat n then (2, 0)
  else
    let desc := h.gateField x n 4 4
    let flags := h.gateField x n 8 1
    if flags % 2 = 0 || !([0, 1, 2, 3].all (fun j => descOk (desc / 256 ^ j % 256))) then (3, 0)
    else match h.gateArgs c desc [0, 1, 2, 3] with
      | some r => r
      | none => (0, 0)

/-- SLC: the gate entry of R143 with VECTOR 13 and AUX = n, at HANDLER with EPC after the SLC; or GATE_FAULT (R151). With EXL = 1 it
enters DOUBLE_FAULT (R175). DESIGN CHOICE (log entry 158): bits [1:0] of HANDLER, which must be 0, do not count. -/
def execSlc (c : CoreId) (n : Byte) (s : State) : Out :=
  s.instr c (fun h =>
    let x := h.core c
    if c = .pol then illegal h
    else
      let r := h.gateCheck c n.toNat
      let named := r.1 = 4 || r.1 = 5 || r.1 = 7
      let j := r.2
      if r.1 != 0 then
        (h, .stop (.exc { vec := vGateFault, detail := r.1, aux := n.toNat, arg := if named then j else 0,
                          addr := if named then (h.gr c (Fin.ofNat 32 (4 + j))).toNat else 0 }))
      else if x.exl then (h, .stop (.exc { vec := vGate }))
      else
        let t := BitVec.ofNat 32 (h.gateField x n.toNat 0 4 / 4 * 4)
        ((h.enter c (causeWord vGate 0 n.toNat false false 0) 0 (x.pc + 4) t).catchVec c vGate, .stay))

end Sys2Proof.Machine
end

