-- ==== Sys2Proof/Machine/Debug.lean ====
section
/-! DEFINITION. The debug ports: the FSD two-wire port, JTAG, and the one access path they share (spec/19_debug_and_test.md R441 to
R444, R460, R461). -/

namespace Sys2Proof.Machine

/-! ### The access path (R441) -/

/-- Status codes of an access. -/
def stAccept : Nat := 6
def stRetry : Nat := 3
def stFault : Nat := 12

/-- The answer to an access: its status, and the word read. -/
structure DbgAns where
  stat : Nat
  data : Word
  deriving DecidableEq, Repr

/-- A fault: FSD_FAULT records the reason (1 PERM, 2 BUS_ERR, 3 CHECK, 4 BAD_OP, 5 NOT_HALTED). -/
def Hw.dbgFault (h : Hw) (reason : Nat) : Hw × DbgAns := (h.set DBG_STAT.FSD_FAULT reason, ⟨stFault, 0⟩)

/-- What a port answers to a register read. -/
def Hw.dbgReadAns (r : Hw × RdRes) (a : Nat) : Hw × DbgAns :=
  match r.2 with
  | .word w => (r.1, ⟨stAccept, w⟩)
  | .stall => (r.1, ⟨stRetry, 0⟩)
  | .owner => r.1.dbgFault 1
  | .bus => r.1.dbgFault (busReason a)

/-- A permitted read of the word at `a` by the debug initiator, with TID 0 (R35, R441). -/
def Hw.dbgLoad (h : Hw) (a : Nat) : Hw × DbgAns :=
  if (h.region a).device then Hw.dbgReadAns (h.devRead ⟨.debug, 0⟩ a) a
  else if h.windowWaits a then (h, ⟨stRetry, 0⟩)
  else match h.dmaRead 0 iniDebug a 4 with
    | (h, .ok bs) => (h, ⟨stAccept, BitVec.ofNat 32 (leNat bs)⟩)
    | (h, .error _) => h.dbgFault 2

/-- A permitted write of `v` at `a` by the debug initiator. -/
def Hw.dbgStore (h : Hw) (a : Nat) (v : Word) : Hw × DbgAns :=
  if (h.region a).device then
    match h.devWrite ⟨.debug, 0⟩ a v with
    | (h, .ok) | (h, .held) => (h, ⟨stAccept, 0⟩)
    | (h, .owner) => h.dbgFault 1
    | (h, .bus) => h.dbgFault (busReason a)
  else match h.dmaWrite 0 iniDebug a (leBytes 4 v.toNat) with
    | (h, none) => (h, ⟨stAccept, 0⟩)
    | (h, some _) => h.dbgFault 2

/-- An access that a port asks for: RETRY while another is in flight, then OP, permission, and the access itself. -/
def Hw.dbgAccess (h : Hw) (jtag inFlight : Bool) (op a : Nat) (v : Word) : Hw × DbgAns :=
  if inFlight || h.busHeld .debug then (h, ⟨stRetry, 0⟩)
  else if op != 1 && op != 2 then h.dbgFault 4
  else if !h.dbgMay jtag a (op = 2) v then h.dbgFault 1
  else
    let h := { h with dbg := { h.dbg with jtag := jtag } }
    if op = 1 then h.dbgLoad a else h.dbgStore a v

/-! ### FSD (R443) -/

/-- A CRC of width `w` over bits in transmission order, with initial value 0. -/
def crcMsb (w poly : Nat) (bits : List Bool) : Nat :=
  bits.foldl (fun c b => let c' := c * 2 % 2 ^ w; if bitOf c (w - 1) != b then c' ^^^ poly else c') 0

/-- The bits of a word, the most significant first. -/
def msbBits (v : Word) : List Bool := (List.range 32).map (fun i => v.getLsbD (31 - i))

/-- CHK: CRC-4, x^4 + x + 1. -/
def fsdChk (v : Word) : Nat := crcMsb 4 3 (msbBits v)

/-- The data CRC: CRC-8, x^8 + x^2 + x + 1. -/
def fsdCrc (v : Word) : Nat := crcMsb 8 7 (msbBits v)

/-- The FSD link keeps its answer. -/
def Hw.fsdAnswer (r : Hw × DbgAns) : Hw := { r.1 with dbg := { r.1.dbg with fsdStat := r.2.stat, fsdData := r.2.data } }

/-- A wrong SYNC, CHK or data CRC. -/
def Hw.fsdCheck (h : Hw) (stat : Nat) : Hw × DbgAns := (h.set DBG_STAT.FSD_FAULT 3, ⟨stat, 0⟩)

/-- An FSD transfer: the 40 request bits, and the 40 write data bits that follow an ACCEPT of a write. -/
def Hw.fsdTransfer (h : Hw) (inFlight : Bool) (req wdata : BitVec 40) : Hw × DbgAns :=
  let w : Word := req.extractLsb' 4 32
  let op := (req.extractLsb' 34 2).toNat
  let a := (req.extractLsb' 4 30).toNat * 4
  let v : Word := wdata.extractLsb' 8 32
  if (req.extractLsb' 36 4).toNat != 0xB || (req.extractLsb' 0 4).toNat != fsdChk w then h.fsdCheck 0
  else if op = 2 && !inFlight && !h.busHeld .debug && h.dbgMay false a true v && (wdata.extractLsb' 0 8).toNat != fsdCrc v then h.fsdCheck stAccept
  else h.dbgAccess false inFlight op a v

/-! ### JTAG (R442, R444, R461) -/

/-- The instruction is refused: it needs BSCAN, which EOL grants for EXTEST and SAMPLE/PRELOAD; EOL allows no DBGACC (R121); the three
that drive balls are refused while TWIN is ACTIVE. -/
def Hw.jtagRefuses (h : Hw) (code : Nat) : Bool :=
  let scan := code = 0 || code = 2 || code = 4 || code = 5
  let drives := code = 0 || code = 4 || code = 5
  (code = 0x10 && h.lcState = lcEol) || scan && ((!h.permits 3 && !(h.lcState = lcEol && (code = 0 || code = 2))) || (drives && h.get TWIN_STAT.STATE = twActive))

/-- The instruction that a code selects; every code not listed acts as BYPASS. -/
def jtagSelects (code : Nat) : Nat := if [0, 1, 2, 4, 5, 0x10].contains code then code else 0x1F

/-- Update-IR. -/
def Hw.jtagInstruction (h : Hw) (code : Nat) : Hw :=
  let no := h.jtagRefuses code
  { h with dbg := { h.dbg with ir := if no then 0x1F else jtagSelects code, refused := no } }

/-- A boundary scan while EXTEST or SAMPLE/PRELOAD is selected: Capture-DR takes `got`, Shift-DR brings `dr`, Update-DR latches it (R460). -/
def Hw.boundaryScan (h : Hw) (got dr : BitVec 356) : Hw :=
  if h.dbg.ir = 0 || h.dbg.ir = 2 then { h with dbg := { h.dbg with captured := got, cells := dr } } else h

/-- The TW_ROLE ball follows the boundary register from here on, or the driver again: `o` is the part before (R461). -/
def Hw.scanned (h o : Hw) : Hw := if h.mainUp && h.scanDrive roleBallNo != o.scanDrive roleBallNo then h.roleNow else h

/-- Update-DR of DBGACC. -/
def Hw.dbgacc (h : Hw) (inFlight : Bool) (dr : BitVec 68) : Hw :=
  let r := h.dbgAccess true inFlight (dr.extractLsb' 0 2).toNat ((dr.extractLsb' 2 30).toNat * 4) (dr.extractLsb' 32 32)
  { r.1 with dbg := { r.1.dbg with daStat := r.2.stat, daData := r.2.data } }

/-- What Capture-IR loads (R442, R444). -/
def Hw.captureIr (h : Hw) : BitVec 5 := if h.dbg.refused then 0b00101 else 0b00001

/-- What Capture-DR loads under the instruction in force, and how many bits it has: IDCODE, the last DBGACC access's status and data (its
low word, which the spec leaves open, is a free value), the boundary scan's capture, or BYPASS's one bit (R444, R460; log entry 55). -/
def Hw.captureDr (h : Hw) : Nat × Nat :=
  if h.dbg.ir = 1 then (32, 0x24864793)
  else if h.dbg.ir = 0x10 then (68, h.dbg.daStat * 2 ^ 64 + h.dbg.daData.toNat * 2 ^ 32 + h.free.toNat)
  else if h.dbg.ir = 0 || h.dbg.ir = 2 then (356, h.dbg.captured.toNat)
  else (1, 0)

/-! ### The commands -/

/-- FSD_TRANSFER: `req` holds the 40 request bits and `wdata` the write data and its CRC, the first bit sent the most significant;
`inFlight` says that an earlier access is still in flight. -/
def execFsdTransfer (inFlight : Bool) (req wdata : BitVec 40) (s : State) : Out := s.onBus (fun h => Hw.fsdAnswer (h.fsdTransfer inFlight req wdata))

/-- FSD_LINK_RESET: a transfer that was cut short has had no effect, since FSD_TRANSFER stands for a whole one; the link waits for
SYNC. -/
def execFsdLinkReset (s : State) : Out := s.run (fun h => { h with dbg := { h.dbg with fsdStat := 0, fsdData := 0 } })

/-- JTAG_INSTRUCTION: Update-IR with a 5-bit code, and the boundary scans made under it, each with what its balls and the functional
logic show and what is shifted in (log entry 55). -/
def execJtagInstruction (code : BitVec 5) (s : State) (scans : List (BitVec 356 × BitVec 356) := []) : Out :=
  s.run (fun h => h.when h.pwr.coreEn (fun h => Hw.scanned (scans.foldl (fun h d => h.boundaryScan d.1 d.2) (h.jtagInstruction code.toNat)) h))

/-- DBGACC: Update-DR while DBGACC is selected. -/
def execDbgacc (inFlight : Bool) (dr : BitVec 68) (s : State) : Out := s.onBus (fun h => h.when (h.dbg.ir = 0x10) (fun h => h.dbgacc inFlight dr))

/-- TEST_LOGIC_RESET: IDCODE is selected, so every ball is under functional control. -/
def execTestLogicReset (s : State) : Out := s.run (fun h => Hw.scanned { h with dbg := { h.dbg with ir := 1 } } h)

end Sys2Proof.Machine
end

