-- ==== Sys2Proof/Machine/LaneIsa.lean ====
section
/-! DEFINITION. The lane instructions (spec/07_instruction_sets.md R176 to R186): participation, divergence, arithmetic per lane,
lane memory and lane faults. -/

namespace Sys2Proof.Machine

/-! ### Registers and participation -/

/-- The lanes that take part in an instruction: active, and let through by the guard (R177). -/
def Hw.taking (h : Hw) (g : Nat) (hd : LaneHdr) : List Nat :=
  (List.range (h.gwidth g)).filter (fun i => bitOf (h.grp g).act i && (!hd.pe || bitOf (h.kreg g hd.kg) i != hd.pn))

/-- What a lane instruction comes to; `again` is one that waits: nothing of it has happened yet. -/
inductive LDone where
  | next
  | again
  | goto (pc : Nat)
  | fault (cause mask addr : Nat)
  deriving DecidableEq, Repr

/-- Lane fault codes (table "Lane fault causes"). -/
def lfIllegal : Nat := 1
def lfPcRange : Nat := 2
def lfEccFetch : Nat := 3
def lfStackOvf : Nat := 4
def lfMismatch : Nat := 5
def lfMisaligned : Nat := 6
def lfLmem : Nat := 7
def lfHandle : Nat := 8
def lfAccess : Nat := 9
def lfEccData : Nat := 10

/-- The group's PC is `pc`; a debugger's step ends here (R451). -/
def Hw.laneGo (h : Hw) (g pc : Nat) : Hw :=
  let x := h.grp g
  let h := h.setGrp g { x with pc := pc, stepping := false, halted := x.halted || x.stepping }
  if x.stepping then h.up (DBG_G_STAT.HALTED g) else h

/-- The group executes an instruction now. -/
def Hw.laneReady (h : Hw) (g : Nat) : Bool :=
  h.laneOn && (h.grp g).queue.isSome && !(h.grp g).ended && !(h.grp g).halted

/-- One instruction of group `g`: fetched from its store part (PC_RANGE, ECC_FETCH), then its body; a fault stops the group with
nothing written (R186). -/
def Hw.lane (h : Hw) (g : Nat) (body : Hw → Hw × LDone) : Hw :=
  if h.laneReady g then
    let x := h.grp g
    if modePart (h.lcMode (g / 4)) ≤ x.pc then h.laneFault g lfPcRange x.act 0
    else if h.istoreBad.contains (h.istAddr g x.pc) then h.laneFault g lfEccFetch x.act 0
    else match body h with
      | (h, .fault c m a) => h.laneFault g c m a
      | (_, .again) => h
      | (h, .next) => h.laneGo g (x.pc + 8)
      | (h, .goto pc) => h.laneGo g pc
  else h

/-- ILLEGAL_OP (R176). DESIGN CHOICE (log entry 154): a cause of the whole group names the active lanes. -/
def Hw.laneIllegal (h : Hw) (g : Nat) : Hw × LDone := (h, .fault lfIllegal (h.grp g).act 0)

/-- An instruction that is not a control instruction: reserved fields fault (R176), and with A = 0 it is skipped (R185).
DESIGN CHOICE (log entry 155): a reserved field faults before A is looked at. -/
def State.laneOp (s : State) (g : Nat) (ok : Bool) (body : Hw → Hw × LDone) : Out :=
  s.run (fun h => h.lane g (fun h => if !ok then h.laneIllegal g else if (h.grp g).act = 0 then (h, .next) else body h))

/-- Every participating lane writes Ld. -/
def State.laneWrite (s : State) (g : Nat) (hd : LaneHdr) (ok : Bool) (f : Hw → Nat → Word) : Out :=
  s.laneOp g ok (fun h => ((h.taking g hd).foldl (fun h' i => h'.setLreg g i hd.ld (f h i)) h, .next))

/-- Every participating lane writes Kd. -/
def State.lanePred (s : State) (g : Nat) (hd : LaneHdr) (kd : Nat) (ok : Bool) (f : Hw → Nat → Bool) : Out :=
  s.laneOp g ok (fun h => ((h.taking g hd).foldl (fun h' i => h'.setKreg g kd i (f h i)) h, .next))

/-! ### Arithmetic (R177, R178) -/

/-- A binary32 operand: subnormals read as zero. -/
def lf (w : Word) : FVal := unpack fmt32 true w.toNat

/-- A binary32 result: rounded to nearest even, subnormals replaced by zero. -/
def lp (v : FVal) : Word := BitVec.ofNat 32 (packV fmt32 0 true v).1

/-- The operand modifiers: T[2] takes |La|, T[0] negates La (R178). -/
def laneA (t : Nat) (v : FVal) : FVal :=
  let v := if bitOf t 2 then v.abs else v
  if bitOf t 0 then v.neg else v

/-- T[1] negates Lb. -/
def laneB (t : Nat) (v : FVal) : FVal := if bitOf t 1 then v.neg else v

/-- A result within 1 ulp of the exact `v` (R177): the two neighbours of an inexact one, the value or a neighbour of an exact one, as
`pick` chooses; subnormals replaced by zero. -/
def within1ulp (pick : Nat) (v : FVal) : Word :=
  match v with
  | .fin n m e =>
    if m = 0 then lp v
    else
      let r := packV fmt32 1 false v
      let b := if r.2.nx then r.1 + pick % 2 else r.1 + pick % 3 - 1
      if b % fmt32.signBit < 2 ^ 23 then BitVec.ofNat 32 (b2n n * fmt32.signBit) else BitVec.ofNat 32 b
  | v => lp v

/-- 1/x. -/
def laneRcp (w : Word) (x : FVal) : Word := within1ulp (Config.frcpPick w) (fDiv 24 (.fin false 1 0) x).1

/-- The exact 1/√x, its lowest bit sticky. -/
def rsqrtV (x : FVal) : FVal :=
  match x with
  | .nan _ => .nan false
  | .inf n => if n then .nan false else .fin false 0 0
  | .fin n m e =>
    if m = 0 then .inf n
    else if n then .nan false
    else
      let odd := e % 2 != 0
      let m' := if odd then 2 * m else m
      let e' := if odd then e - 1 else e
      let r := isqrt (2 ^ 128 / m')
      .fin false (2 * r + b2n (r * r * m' != 2 ^ 128)) (-64 - e' / 2 - 1)

/-- 1/√x. -/
def laneRsq (w : Word) (x : FVal) : Word := within1ulp (Config.frsqPick w) (rsqrtV x)

/-- An integer comparison code, 0 to 7 (ICMP). -/
def icmp (t : Nat) (a b : Word) : Bool :=
  match t with
  | 0 => a == b
  | 1 => a != b
  | 2 => a.slt b
  | 3 => !b.slt a
  | 4 => b.slt a
  | 5 => !a.slt b
  | 6 => a.ult b
  | _ => !a.ult b

/-- A binary32 comparison code, 0 to 5 (FCMP): false on a NaN except NE. -/
def fcmpT (t : Nat) (a b : Word) : Bool :=
  match fCmp (lf a) (lf b) with
  | none => t == 1
  | some o =>
    match t with
    | 0 => o == .eq
    | 1 => o != .eq
    | 2 => o == .lt
    | 3 => o != .gt
    | 4 => o == .gt
    | _ => o != .lt

/-- What an op of 0x10 to 0x2B makes of La, Lb, Lc and its Kd bit under T: a word for Ld, or a bit for Kd. -/
inductive LaneFn where
  | word (f : Word → Word → Word → Bool → Word)
  | pred (f : Word → Word → Bool)

/-- The function of op `op` with T; none where the op or its T is reserved (R176 to R178). -/
def laneFn (op t : Nat) : Option LaneFn :=
  let z := fun (f : Word → Word → Word → Bool → Word) => if t = 0 then some (.word f) else none
  let fp := fun (f : Word → Word → Word → Bool → Word) => if t < 8 then some (LaneFn.word f) else none
  match op with
  | 0x10 => z (fun a b _ _ => a + b)
  | 0x11 => z (fun a b _ _ => a - b)
  | 0x12 => z (fun a b _ _ => a * b)
  | 0x13 => if t < 2 then some (.word (fun a b _ _ => if t = 1 then mulHiU a b else mulHi a b)) else none
  | 0x14 => z (fun a b c _ => a * b + c)
  | 0x15 => z (fun a b _ _ => a &&& b)
  | 0x16 => z (fun a b _ _ => a ||| b)
  | 0x17 => z (fun a b _ _ => a ^^^ b)
  | 0x18 => z (fun a b _ _ => a <<< shamt b)
  | 0x19 => z (fun a b _ _ => a >>> shamt b)
  | 0x1A => z (fun a b _ _ => a.sshiftRight (shamt b))
  | 0x1B => z (fun a b _ _ => if a.slt b then a else b)
  | 0x1C => z (fun a b _ _ => if a.slt b then b else a)
  | 0x1D => if t < 8 then some (.pred (icmp t)) else none
  | 0x1E => z (fun a b _ k => if k then a else b)
  | 0x1F => z (fun a _ _ _ => popW a)
  | 0x20 => fp (fun a b _ _ => lp (fAdd 0 (laneA t (lf a)) (laneB t (lf b))).1)
  | 0x21 => fp (fun a b _ _ => lp (fAdd 0 (laneA t (lf a)) (laneB t (lf b)).neg).1)
  | 0x22 => fp (fun a b _ _ => lp (fMul (laneA t (lf a)) (laneB t (lf b))).1)
  | 0x23 => fp (fun a b c _ => lp (fFma 0 (laneA t (lf a)) (laneB t (lf b)) (lf c)).1)
  | 0x24 => fp (fun a b _ _ => lp (fMinMax false (laneA t (lf a)) (laneB t (lf b))).1)
  | 0x25 => fp (fun a b _ _ => lp (fMinMax true (laneA t (lf a)) (laneB t (lf b))).1)
  | 0x26 => if t < 6 then some (.pred (fcmpT t)) else none
  | 0x27 => fp (fun a _ _ _ => laneRcp a (laneA t (lf a)))
  | 0x28 => fp (fun a _ _ _ => laneRsq a (laneA t (lf a)))
  | 0x29 => z (fun a _ _ _ => (fToI 1 (lf a)).1)
  | 0x2A => z (fun a _ _ _ => lp (fOfI a))
  | 0x2B => z (fun a _ _ _ => a)
  | _ => none

/-- One of the ops 0x10 to 0x2B: `b` and `c` answer the second and third operand of a lane; fields that the op does not use are
0 (`clean`). -/
def State.laneArith (s : State) (g : Nat) (hd : LaneHdr) (op t kd la : Nat) (clean : Bool) (b c : Hw → Nat → Word) : Out :=
  match laneFn op t with
  | none => s.laneOp g false (fun h => (h, .next))
  | some (.word f) => s.laneWrite g hd clean (fun h i => f (h.lreg g i la) (b h i) (c h i) (bitOf (h.kreg g kd) i))
  | some (.pred f) => s.lanePred g hd kd (clean && hd.ld = 0) (fun h i => f (h.lreg g i la) (b h i))

/-- No third operand. -/
def noC : Hw → Nat → Word := fun _ _ => 0

/-- An op of La and Lb. -/
def State.lane2 (s : State) (g : Fin 16) (hd : LaneHdr) (op t : Nat) (la lb : Fin 64) : Out :=
  s.laneArith g hd op t 0 la true (fun h i => h.lreg g i lb) noC

/-- An op of La, Lb and Lc. -/
def State.lane3 (s : State) (g : Fin 16) (hd : LaneHdr) (op t : Nat) (la lb lc : Fin 64) : Out :=
  s.laneArith g hd op t 0 la true (fun h i => h.lreg g i lb) (fun h i => h.lreg g i lc)

/-- An op of La alone. -/
def State.lane1 (s : State) (g : Fin 16) (hd : LaneHdr) (op t : Nat) (la : Fin 64) : Out :=
  s.laneArith g hd op t 0 la true noC noC

/-- An op with Kd. -/
def State.laneK2 (s : State) (g : Fin 16) (hd : LaneHdr) (op t : Nat) (kd : Fin 8) (la lb : Fin 64) : Out :=
  s.laneArith g hd op t kd la true (fun h i => h.lreg g i lb) noC

/-- Ld = La + Lb. -/
def execLaneIadd (g : Fin 16) (hd : LaneHdr) (la lb : Fin 64) (s : State) : Out := s.lane2 g hd 0x10 0 la lb

/-- Ld = La − Lb. -/
def execLaneIsub (g : Fin 16) (hd : LaneHdr) (la lb : Fin 64) (s : State) : Out := s.lane2 g hd 0x11 0 la lb

/-- Ld = low 32 bits of La × Lb. -/
def execLaneImul (g : Fin 16) (hd : LaneHdr) (la lb : Fin 64) (s : State) : Out := s.lane2 g hd 0x12 0 la lb

/-- Ld = La AND Lb. -/
def execLaneAnd (g : Fin 16) (hd : LaneHdr) (la lb : Fin 64) (s : State) : Out := s.lane2 g hd 0x15 0 la lb

/-- Ld = La OR Lb. -/
def execLaneOr (g : Fin 16) (hd : LaneHdr) (la lb : Fin 64) (s : State) : Out := s.lane2 g hd 0x16 0 la lb

/-- Ld = La XOR Lb. -/
def execLaneXor (g : Fin 16) (hd : LaneHdr) (la lb : Fin 64) (s : State) : Out := s.lane2 g hd 0x17 0 la lb

/-- Ld = La shifted left by Lb[4:0]. -/
def execLaneShl (g : Fin 16) (hd : LaneHdr) (la lb : Fin 64) (s : State) : Out := s.lane2 g hd 0x18 0 la lb

/-- Ld = La shifted right by Lb[4:0]. -/
def execLaneShr (g : Fin 16) (hd : LaneHdr) (la lb : Fin 64) (s : State) : Out := s.lane2 g hd 0x19 0 la lb

/-- Ld = La shifted right arithmetically by Lb[4:0]. -/
def execLaneSar (g : Fin 16) (hd : LaneHdr) (la lb : Fin 64) (s : State) : Out := s.lane2 g hd 0x1A 0 la lb

/-- Ld = the signed minimum. -/
def execLaneImin (g : Fin 16) (hd : LaneHdr) (la lb : Fin 64) (s : State) : Out := s.lane2 g hd 0x1B 0 la lb

/-- Ld = the signed maximum. -/
def execLaneImax (g : Fin 16) (hd : LaneHdr) (la lb : Fin 64) (s : State) : Out := s.lane2 g hd 0x1C 0 la lb

/-- Ld = high 32 bits of La × Lb; T[0] 1 unsigned. -/
def execLaneImulh (g : Fin 16) (hd : LaneHdr) (t : Fin 16) (la lb : Fin 64) (s : State) : Out := s.lane2 g hd 0x13 t la lb

/-- Ld = low 32 bits of La × Lb + Lc. -/
def execLaneImad (g : Fin 16) (hd : LaneHdr) (la lb lc : Fin 64) (s : State) : Out := s.lane3 g hd 0x14 0 la lb lc

/-- Kd = La T Lb. -/
def execLaneIcmp (g : Fin 16) (hd : LaneHdr) (kd : Fin 8) (t : Fin 16) (la lb : Fin 64) (s : State) : Out := s.laneK2 g hd 0x1D t kd la lb

/-- Ld = Kd ? La : Lb. -/
def execLaneSel (g : Fin 16) (hd : LaneHdr) (kd : Fin 8) (la lb : Fin 64) (s : State) : Out := s.laneK2 g hd 0x1E 0 kd la lb

/-- Ld = ones in La. -/
def execLanePopc (g : Fin 16) (hd : LaneHdr) (la : Fin 64) (s : State) : Out := s.lane1 g hd 0x1F 0 la

/-- Ld = La toward zero, saturated; NaN gives 0. -/
def execLaneFtoi (g : Fin 16) (hd : LaneHdr) (la : Fin 64) (s : State) : Out := s.lane1 g hd 0x29 0 la

/-- Ld = signed La as binary32. -/
def execLaneItof (g : Fin 16) (hd : LaneHdr) (la : Fin 64) (s : State) : Out := s.lane1 g hd 0x2A 0 la

/-- Ld = La. -/
def execLaneMov (g : Fin 16) (hd : LaneHdr) (la : Fin 64) (s : State) : Out := s.lane1 g hd 0x2B 0 la

/-- Ld = 1/La within 1 ulp. -/
def execLaneFrcp (g : Fin 16) (hd : LaneHdr) (t : Fin 16) (la : Fin 64) (s : State) : Out := s.lane1 g hd 0x27 t la

/-- Ld = 1/√La within 1 ulp. -/
def execLaneFrsq (g : Fin 16) (hd : LaneHdr) (t : Fin 16) (la : Fin 64) (s : State) : Out := s.lane1 g hd 0x28 t la

/-- Ld = La + Lb in binary32. -/
def execLaneFadd (g : Fin 16) (hd : LaneHdr) (t : Fin 16) (la lb : Fin 64) (s : State) : Out := s.lane2 g hd 0x20 t la lb

/-- Ld = La − Lb in binary32. -/
def execLaneFsub (g : Fin 16) (hd : LaneHdr) (t : Fin 16) (la lb : Fin 64) (s : State) : Out := s.lane2 g hd 0x21 t la lb

/-- Ld = La × Lb in binary32. -/
def execLaneFmul (g : Fin 16) (hd : LaneHdr) (t : Fin 16) (la lb : Fin 64) (s : State) : Out := s.lane2 g hd 0x22 t la lb

/-- minimumNumber. -/
def execLaneFmin (g : Fin 16) (hd : LaneHdr) (t : Fin 16) (la lb : Fin 64) (s : State) : Out := s.lane2 g hd 0x24 t la lb

/-- maximumNumber. -/
def execLaneFmax (g : Fin 16) (hd : LaneHdr) (t : Fin 16) (la lb : Fin 64) (s : State) : Out := s.lane2 g hd 0x25 t la lb

/-- Ld = La × Lb + Lc with one rounding. -/
def execLaneFfma (g : Fin 16) (hd : LaneHdr) (t : Fin 16) (la lb lc : Fin 64) (s : State) : Out := s.lane3 g hd 0x23 t la lb lc

/-- Kd = La T Lb in binary32. -/
def execLaneFcmp (g : Fin 16) (hd : LaneHdr) (kd : Fin 8) (t : Fin 16) (la lb : Fin 64) (s : State) : Out := s.laneK2 g hd 0x26 t kd la lb

/-- The ops that use Lb. -/
def usesB (op : Nat) : Bool := !([0x1F, 0x27, 0x28, 0x29, 0x2A, 0x2B].contains op)

/-- An immediate form: op − 0x40 with imm32 in place of Lb; for IMAD and FFMA, Ld is the addend. Where the op has no Lb, imm32 is
unused and must be 0. -/
def execLaneImmediateForm (g : Fin 16) (hd : LaneHdr) (op : Byte) (kd : Fin 8) (t : Fin 16) (la : Fin 64) (imm : Word) (s : State) : Out :=
  let o := op.toNat - 0x40
  let kUsed := o = 0x1D || o = 0x1E || o = 0x26
  let clean := (usesB o || imm = 0) && (kUsed || kd = 0)
  if op.toNat < 0x50 || 0x6B < op.toNat then s.laneOp g false (fun h => (h, .next))
  else s.laneArith g hd o t kd la clean (fun _ _ => imm) (fun h i => if o = 0x14 || o = 0x23 then h.lreg g i hd.ld else 0)

/-! ### Across lanes (R179) -/

/-- Ld = La of the lane that `sel` names. -/
def State.shuffle (s : State) (g : Fin 16) (hd : LaneHdr) (la : Fin 64) (sel : Hw → Nat → Nat) : Out :=
  s.laneWrite g hd true (fun h i => h.lreg g (sel h i % h.gwidth g) la)

/-- SHFL: lane Lb mod width. -/
def execLaneShfl (g : Fin 16) (hd : LaneHdr) (la lb : Fin 64) (s : State) : Out := s.shuffle g hd la (fun h i => (h.lreg g i lb).toNat)

/-- SHFLX: lane (own index XOR Lb[4:0]) mod width. -/
def execLaneShflx (g : Fin 16) (hd : LaneHdr) (la lb : Fin 64) (s : State) : Out :=
  s.shuffle g hd la (fun h i => i ^^^ (h.lreg g i lb).toNat % 32)

/-- SHFLI: SHFL with imm32. -/
def execLaneShfli (g : Fin 16) (hd : LaneHdr) (la : Fin 64) (imm : Word) (s : State) : Out := s.shuffle g hd la (fun _ _ => imm.toNat)

/-- SHFLXI: SHFLX with imm32. -/
def execLaneShflxi (g : Fin 16) (hd : LaneHdr) (la : Fin 64) (imm : Word) (s : State) : Out :=
  s.shuffle g hd la (fun _ i => i ^^^ imm.toNat % 32)

/-- VOTE: bit i for each lane i of A whose Kd is 1. -/
def execLaneVote (g : Fin 16) (hd : LaneHdr) (kd : Fin 8) (s : State) : Out :=
  s.laneWrite g hd true (fun h _ => BitVec.ofNat 32 ((h.grp g).act &&& h.kreg g kd))

/-- KOP: a function of two predicates; T above 6 is reserved. -/
def execLaneKop (g : Fin 16) (hd : LaneHdr) (kd : Fin 8) (t : Fin 16) (ka kb : Fin 8) (s : State) : Out :=
  s.lanePred g hd kd (t < 7 && hd.ld = 0) (fun h i =>
    let a := bitOf (h.kreg g ka) i
    let b := bitOf (h.kreg g kb) i
    match t.val with
    | 0 => a && b
    | 1 => a || b
    | 2 => a != b
    | 3 => a && !b
    | 4 => true
    | 5 => false
    | _ => !a)

/-- The kernel that group `g` runs. -/
def Hw.kernOf (h : Hw) (g : Nat) : Option Kernel := (h.grp g).queue.bind (fun q => (h.lq q).kern)

/-- A special value (table "Lane special values"); cycles are a free value (log entry 13). -/
def Hw.laneSpecial (h : Hw) (g i sel : Nat) : Word :=
  match sel with
  | 0 => BitVec.ofNat 32 i
  | 1 => BitVec.ofNat 32 (h.gwidth g)
  | 2 => BitVec.ofNat 32 (g / 4)
  | 3 => BitVec.ofNat 32 (g % 4)
  | 4 => BitVec.ofNat 32 ((h.kernOf g).map (·.tid) |>.getD 0)
  | 5 => h.free
  | 6 => BitVec.ofNat 32 h.clk.tb.toNat
  | 7 => BitVec.ofNat 32 ((h.grp g).snap.getD 0 / 2 ^ 32)
  | n => (((h.kernOf g).map (·.args)).getD []).getD (n - 8) 0

/-- SVAL: selector 6 takes the group's snapshot of TB. -/
def execLaneSval (g : Fin 16) (hd : LaneHdr) (imm : Word) (s : State) : Out :=
  s.laneOp g (imm.toNat < 16) (fun h =>
    let p := h.taking g hd
    let h' := p.foldl (fun h' i => h'.setLreg g i hd.ld (h.laneSpecial g i imm.toNat)) h
    let h' := if imm = 5 && p != [] then h'.drawn else h'
    ((if imm = 6 && p != [] then h'.setGrp g { h'.grp g with snap := some h.clk.tb.toNat } else h'), .next))

/-- NOP; `bad` says that its word in the instruction store has an uncorrectable error (R186). -/
def execLaneNop (g : Fin 16) (hd : LaneHdr) (bad : Bool) (s : State) : Out :=
  s.run (fun h =>
    let h := if bad && h.laneReady g then { h with istoreBad := h.istoreBad ++ [h.istAddr g (h.grp g).pc] } else h
    h.lane g (fun h => if hd.ld = 0 then (h, .next) else h.laneIllegal g))

/-- ILLEGAL_OP: a reserved encoding, or PE = 1 on a control instruction (R176, R177). -/
def execIllegalOp (g : Fin 16) (s : State) : Out := s.run (fun h => h.lane g (fun h => h.laneIllegal g))

/-! ### Control (R184, R185) -/

/-- The lanes of `m` not in `x`. -/
def minus (m x : Nat) : Nat := m - (m &&& x)

/-- The target of a control instruction: its address + 8 × sext(off32). -/
def laneTarget (pc : Nat) (off : BitVec 32) : Nat := ((pc : Int) + 8 * off.toInt) % 2 ^ 32 |>.toNat

/-- The lanes on which the condition Kc XOR CN holds. -/
def Hw.cond (h : Hw) (g : Nat) (c : LaneCtl) : Nat :=
  let k := h.kreg g c.kc
  if c.cn then minus (2 ^ h.gwidth g - 1) k else k

/-- A control instruction; `ok` says that the fields it does not use are 0 (R176). -/
def State.laneCtl (s : State) (g : Nat) (ok : Bool) (body : Hw → LaneGrp → Hw × LDone) : Out :=
  s.run (fun h => h.lane g (fun h => if ok then body h (h.grp g) else h.laneIllegal g))

/-- No condition is named. -/
def noCond (c : LaneCtl) : Bool := c.kc = 0 && !c.cn

/-- No target is named. -/
def noTarget (c : LaneCtl) : Bool := c.off = 0

/-- The group goes on with this mask and stack. -/
def Hw.mask (h : Hw) (g : Nat) (x : LaneGrp) (act : Nat) (st : List LaneEntry) : Hw := h.setGrp g { x with act := act, stack := st }

/-- STACK_MISMATCH. -/
def mismatch (h : Hw) (x : LaneGrp) : Hw × LDone := (h, .fault lfMismatch x.act 0)

/-- "Remove X": from A, and from M and T of every entry above the innermost LOOP entry. -/
def removeAbove (x : Nat) : List LaneEntry → List LaneEntry
  | [] => []
  | e :: t => if e.kind = 2 then e :: t else { e with m := minus e.m x, t := minus e.t x } :: removeAbove x t

/-- Lanes join C of the innermost LOOP entry. -/
def addCont (x : Nat) : List LaneEntry → List LaneEntry
  | [] => []
  | e :: t => if e.kind = 2 then { e with t := e.t ||| x } :: t else e :: addCont x t

/-- A push onto a stack of 16 entries faults with STACK_OVF. -/
def pushed (h : Hw) (x : LaneGrp) (k : Hw × LDone) : Hw × LDone :=
  if 16 ≤ x.stack.length then (h, .fault lfStackOvf x.act 0) else k

/-- END: the kernel ends for every lane of the group. -/
def execLaneEnd (g : Fin 16) (s : State) : Out :=
  s.laneCtl g true (fun h x => (h.setGrp g { x with ended := true }, .next))

/-- EXIT. -/
def execLaneExit (g : Fin 16) (c : LaneCtl) (s : State) : Out :=
  s.laneCtl g (noTarget c) (fun h x =>
    let d := x.act &&& h.cond g c
    let live := minus x.live d
    (h.setGrp g { x with act := minus x.act d, live := live, ended := live == 0,
                         stack := x.stack.map (fun e => { e with m := minus e.m d, t := minus e.t d }) }, .next))

/-- IF. -/
def execLaneIf (g : Fin 16) (c : LaneCtl) (s : State) : Out :=
  s.laneCtl g true (fun h x =>
    let t := x.act &&& h.cond g c
    pushed h x (h.mask g x t (⟨0, x.act, t, 0⟩ :: x.stack), if t = 0 then .goto (laneTarget x.pc c.off) else .next))

/-- ELSE. -/
def execLaneElse (g : Fin 16) (c : LaneCtl) (s : State) : Out :=
  s.laneCtl g (noCond c) (fun h x =>
    match x.stack with
    | e :: t =>
      if e.kind = 0 then
        let a := minus e.m e.t
        (h.mask g x a ({ e with kind := 1 } :: t), if a = 0 then .goto (laneTarget x.pc c.off) else .next)
      else mismatch h x
    | [] => mismatch h x)

/-- ENDIF. -/
def execLaneEndif (g : Fin 16) (s : State) : Out :=
  s.laneCtl g true (fun h x =>
    match x.stack with
    | e :: t => if e.kind = 2 then mismatch h x else (h.mask g x e.m t, .next)
    | [] => mismatch h x)

/-- LOOP; its target names its ENDL and does not act. -/
def execLaneLoop (g : Fin 16) (s : State) : Out :=
  s.laneCtl g true (fun h x => pushed h x (h.mask g x x.act (⟨2, x.act, 0, x.pc + 8⟩ :: x.stack), .next))

/-- BRK. -/
def execLaneBrk (g : Fin 16) (c : LaneCtl) (s : State) : Out :=
  s.laneCtl g (noTarget c) (fun h x =>
    let d := x.act &&& h.cond g c
    if x.stack.any (fun e => e.kind == 2) then (h.mask g x (minus x.act d) (removeAbove d x.stack), .next) else mismatch h x)

/-- CONT. -/
def execLaneCont (g : Fin 16) (c : LaneCtl) (s : State) : Out :=
  s.laneCtl g (noTarget c) (fun h x =>
    let d := x.act &&& h.cond g c
    if x.stack.any (fun e => e.kind == 2) then (h.mask g x (minus x.act d) (removeAbove d (addCont d x.stack)), .next) else mismatch h x)

/-- ENDL. -/
def execLaneEndl (g : Fin 16) (s : State) : Out :=
  s.laneCtl g true (fun h x =>
    match x.stack with
    | e :: t =>
      if e.kind = 2 then
        let a := x.act ||| e.t
        if a != 0 then (h.mask g x a ({ e with t := 0 } :: t), .goto e.start) else (h.mask g x e.m t, .next)
      else mismatch h x
    | [] => mismatch h x)

/-- `n` stack entries of free values, from the `k`-th free value on. -/
def freeEntries (w : Nat) : Nat → Nat → List LaneEntry
  | 0, _ => []
  | n + 1, k =>
    let f := fun i => (Config.freeValue (k + i)).toNat
    ⟨f 0 % 3, f 1 % 2 ^ w, f 2 % 2 ^ w, f 3⟩ :: freeEntries w n (k + 4)

/-- A branch that is taken; one whose target lies outside its own IF or LOOP structure leaves A and the stack unpredictable (R185):
free values. -/
def Hw.laneBranch (h : Hw) (g : Nat) (x : LaneGrp) (taken outside : Bool) (c : LaneCtl) : Hw × LDone :=
  if !taken then (h, .next)
  else if !outside then (h, .goto (laneTarget x.pc c.off))
  else
    let w := h.gwidth g
    let a := h.free.toNat % 2 ^ w &&& x.live
    let n := (Config.freeValue (h.freeCtr + 1)).toNat % 17
    let st := freeEntries w n (h.freeCtr + 2)
    ({ h with freeCtr := h.freeCtr + 2 + 4 * n }.mask g x a st, .goto (laneTarget x.pc c.off))

/-- JMP; `outside` says that the target lies outside the branch's own structure. -/
def execLaneJmp (g : Fin 16) (c : LaneCtl) (outside : Bool) (s : State) : Out :=
  s.laneCtl g (noCond c) (fun h x => h.laneBranch g x true outside c)

/-- BANY: the condition holds for any lane of A. -/
def execLaneBany (g : Fin 16) (c : LaneCtl) (outside : Bool) (s : State) : Out :=
  s.laneCtl g true (fun h x => h.laneBranch g x (x.act &&& h.cond g c != 0) outside c)

/-- BALL: the condition holds for all lanes of A. -/
def execLaneBall (g : Fin 16) (c : LaneCtl) (outside : Bool) (s : State) : Out :=
  s.laneCtl g true (fun h x => h.laneBranch g x (x.act &&& h.cond g c == x.act) outside c)

/-- BNONE: the condition holds for no lane of A. -/
def execLaneBnone (g : Fin 16) (c : LaneCtl) (outside : Bool) (s : State) : Out :=
  s.laneCtl g true (fun h x => h.laneBranch g x (x.act &&& h.cond g c == 0) outside c)

/-! ### Lane memory (R180 to R183) -/

/-- Where a lane access goes: LMEM, the L1, or the Hub. -/
inductive LPath where
  | lmem | l1 | hub
  deriving DecidableEq, Repr

/-- La + sext(off24). -/
def Hw.laneEa (h : Hw) (g i la : Nat) (off : BitVec 24) : Nat := (h.lreg g i la + off.signExtend 32).toNat

/-- The path of an access of `n` bytes at `a` under SPC, the memory address, and the cause of a fault, 0 for none (R33, R180,
R181). -/
def Hw.laneWhere (h : Hw) (k : Kernel) (spc a n : Nat) (rd wr atom : Bool) : LPath × Nat × Nat :=
  let isL := spc = 2 || (0x18000000 ≤ a && a < 0x18100000)
  let o := if spc = 2 then a else a - 0x18000000
  if a % n != 0 then (.hub, a, lfMisaligned)
  else if isL then
    if 0x100000 ≤ o then (.lmem, a, lfLmem)
    else if o < k.lbase * 0x1000 || (k.llimit + 1) * 0x1000 < o + n then (.lmem, a, lfAccess)
    else (.lmem, 0x18000000 + o, 0)
  else if (rd && !h.dmaAllowed k.tid .r a n) || (wr && !h.dmaAllowed k.tid .w a n) || !h.dmaMapped k.tid a n wr || h.region a = .rom ||
      (atom && !(h.region a).cached) then (.hub, a, lfAccess)
  else (if spc = 0 && !atom then .l1 else .hub, a, 0)

/-- A refusal by the MPU among the lanes' global accesses, each with its path and cause, is recorded (R37); an LMEM window's is no
violation (R234). -/
def Hw.laneViol (h : Hw) (k : Kernel) (l : List (LPath × Nat × Nat)) (n : Nat) (rd wr : Bool) : Hw :=
  match l.find? (fun e => e.1 = .hub && e.2.1 = lfAccess && ((rd && !h.dmaAllowed k.tid .r e.2.2 n) || (wr && !h.dmaAllowed k.tid .w e.2.2 n))) with
  | some e => h.dmaViolation e.2.2 k.tid iniLane
  | none => h

/-- The lanes of `l`, paired with a cause each, that have the first cause in the table: the fault, if any (R186). -/
def firstFault (l : List (Nat × Nat × Nat)) : Option (Nat × Nat × Nat) :=
  let bad := l.filter (fun e => e.2.1 != 0)
  match bad with
  | [] => none
  | b :: t =>
    let c := t.foldl (fun m e => min m e.2.1) b.2.1
    let m := bad.filter (fun e => e.2.1 == c)
    some (c, m.foldl (fun n e => n + 2 ^ e.1) 0, (m.head?.map (fun e => e.2.2)).getD 0)

/-- Line `l` leaves the group's L1 part; bytes stored in it since the last writeback stay the group's own (R182; log entry 150). -/
def Hw.l1Drop (h : Hw) (g l : Nat) : Hw :=
  let x := h.grp g
  h.setGrp g { x with fill := mdel l x.fill, bad := x.bad.filter (fun a => lineOf a != l) }

/-- A full L1 part gives up a line; a free value chooses which (R216; log entry 150). -/
def Hw.l1Room (h : Hw) (g : Nat) : Hw :=
  let x := h.grp g
  if x.fill.length < modeL1 (h.lcMode (g / 4)) then h
  else match x.fill[h.free.toNat % x.fill.length]? with
    | some e => h.drawn.l1Drop g e.1
    | none => h

/-- The eight bytes of word `w` that a fill brings: where a store after the push changed them, the old or the new ones, as a free value
chooses (R226). -/
def Hw.fillWord (h : Hw) (view : List Host.Cell) (w : Nat) : Hw × List Byte :=
  let new := h.bytes (w * 8) 8
  let old := (List.range 8).map (fun i => mget (fun _ => 0) view (w * 8 + i))
  let stored := (h.region (w * 8)).cached || h.region (w * 8) == .polsram
  if !stored || old = new then (h, new) else (h.drawn, if h.free.getLsbD 0 then old else new)

/-- Line `l` is read through the Hub (R206): its bytes, and those that came with an error indication (R190, R210). -/
def Hw.fillLine (h : Hw) (view : List Host.Cell) (l : Nat) : Hw × List Byte × List Nat :=
  let h := if (h.region (l * 64)).cached then h.readThrough l else h
  (lineWords l).foldl (fun (p : Hw × List Byte × List Nat) w =>
    let q := p.1.eccRead (w * 8) 8
    let r := q.1.fillWord view w
    (r.1, p.2.1 ++ r.2, if q.2 = .good then p.2.2 else p.2.2 ++ (List.range 8).map (· + w * 8))) (h, [], [])

/-- The group's L1 holds the lines of the access: a miss is filled through the Hub (R206, R225). -/
def Hw.l1Fill (h : Hw) (g a n : Nat) : Hw :=
  (linesOf a n).foldl (fun h l =>
    if (h.grp g).fill.any (fun e => e.1 == l) then h
    else
      let h := h.l1Room g
      let r := h.fillLine (((h.kernOf g).map (·.view)).getD h.viewNow) l
      let x := r.1.grp g
      r.1.setGrp g { x with fill := mins l r.2.1 x.fill, bad := x.bad ++ r.2.2.filter (fun b => (ofind x.dirty b).isNone) }) h

/-- `n` bytes at `a` as the group's L1 holds them. -/
def Hw.l1Bytes (h : Hw) (g a n : Nat) : List Byte :=
  (List.range n).map (fun i =>
    let x := h.grp g
    (ofind x.dirty (a + i)).getD ((mget (fun _ => []) x.fill ((a + i) / 64)).getD ((a + i) % 64) 0))

/-- `n` bytes read along the path, and whether their check bits let them: in the L1, the bytes that a fill brought in error and no lane
has stored since do not (log entry 151), nor does a line that a directory error poisoned (R210). -/
def Hw.laneRead (h : Hw) (g : Nat) (p : LPath) (a n : Nat) : Hw × Bool × List Byte :=
  match p with
  | .l1 =>
    let h := h.l1Fill g a n
    (h, !h.linePoisoned a n && !((List.range n).any (fun i => (h.grp g).bad.contains (a + i))), h.l1Bytes g a n)
  | _ =>
    let h := if (h.region a).cached then (linesOf a n).foldl (fun h l => h.readThrough l) h else h
    let q := h.eccRead a n
    (q.1, q.2 = .good, q.1.bytes a n)

/-- Bytes written along the path. -/
def Hw.laneStore (h : Hw) (g : Nat) (p : LPath) (a : Nat) (bs : List Byte) : Hw :=
  match p with
  | .l1 =>
    let h := h.l1Fill g a bs.length
    let x := h.grp g
    h.setGrp g { x with dirty := oput x.dirty (cellsAt a bs), bad := x.bad.filter (fun b => b < a || a + bs.length ≤ b) }
  | _ => h.writeMem a bs

/-- The words of an access size; none for the reserved SZ. -/
def szWords (sz : Fin 4) : Option Nat := match sz.val with | 0 => some 1 | 1 => some 2 | 2 => some 4 | _ => none

/-- A lane access would read a window that an indirect command holds: past the L1, or of a line that the part does not hold (R351). -/
def Hw.laneHeld (h : Hw) (g : Nat) (p : LPath) (a n : Nat) : Bool :=
  match p with
  | .lmem => false
  | .hub => h.windowHeld a n
  | .l1 => (linesOf a n).any (fun l => h.windowHeld (l * 64) 64 && !(h.grp g).fill.any (fun e => e.1 == l))

/-- A lane memory instruction over the participating lanes with their addresses: faults that need no access first, then `body` with
the lanes, their paths and addresses; the whole instruction waits while one of them must (R351). -/
def State.laneMem (s : State) (g : Nat) (hd : LaneHdr) (ok : Bool) (la : Nat) (off : BitVec 24) (spc n : Nat) (rd wr atom : Bool)
    (u : Upset) (body : Hw → List (Nat × LPath × Nat) → Hw × LDone) : Out :=
  s.laneOp g ok (fun h =>
    match h.kernOf g with
    | none => (h, .next)
    | some k =>
      let l := (h.taking g hd).map (fun i => (i, h.laneWhere k spc (h.laneEa g i la off) n rd wr atom))
      match firstFault (l.map (fun e => (e.1, e.2.2.2, h.laneEa g e.1 la off))) with
      | some (c, m, a) =>
        ((if c = lfAccess then h.laneViol k (l.map (fun e => (e.2.1, e.2.2.2, h.laneEa g e.1 la off))) n rd wr else h), .fault c m a)
      | none =>
        if l.any (fun e => h.laneHeld g e.2.1 e.2.2.1 n) then (h, .again)
        else
        let h := match l with
          | e :: _ => h.upset u e.2.2.1
          | [] => h
        body h (l.map (fun e => (e.1, e.2.1, e.2.2.1))))

/-- The registers Ld and after take the words of `bs`. -/
def Hw.putWords (h : Hw) (g i ld : Nat) : List Word → Hw
  | [] => h
  | w :: t => (h.setLreg g i ld w).putWords g i (ld + 1) t

/-- The words that bytes spell. -/
def wordsOf (bs : List Byte) (n : Nat) : List Word := (List.range n).map (fun j => BitVec.ofNat 32 (fieldB bs (4 * j) 4))

/-- LD; `u` is an upset that the first lane's access meets. -/
def execLaneLd (g : Fin 16) (hd : LaneHdr) (sz spc : Fin 4) (la : Fin 64) (off : BitVec 24) (u : Upset) (s : State) : Out :=
  let n := (szWords sz).getD 1
  s.laneMem g hd ((szWords sz).isSome && spc < 3 && hd.ld.val % n = 0) la off spc (4 * n) true false false u (fun h l =>
    let r := l.foldl (fun (p : Hw × List (Nat × Nat × Nat) × List (Nat × List Word)) e =>
      let q := p.1.laneRead g e.2.1 e.2.2 (4 * n)
      if q.2.1 then (q.1, p.2.1, p.2.2 ++ [(e.1, wordsOf q.2.2 n)]) else (q.1, p.2.1 ++ [(e.1, lfEccData, h.laneEa g e.1 la off)], p.2.2)) (h, [], [])
    match firstFault r.2.1 with
    | some (c, m, a) => (r.1, .fault c m a)
    | none => (r.2.2.foldl (fun h e => h.putWords g e.1 hd.ld e.2) r.1, .next))

/-- ST: where several lanes store to one address, the highest lane's data remains (R182); a lane whose line is poisoned faults with
ECC_DATA (R210). -/
def execLaneSt (g : Fin 16) (hd : LaneHdr) (sz spc : Fin 4) (la ls : Fin 64) (off : BitVec 24) (s : State) : Out :=
  let n := (szWords sz).getD 1
  s.laneMem g hd ((szWords sz).isSome && spc < 3 && ls.val % n = 0 && hd.ld = 0) la off spc (4 * n) false true false .none (fun h l =>
    match firstFault (l.map (fun e => (e.1, if e.2.1 ≠ .lmem ∧ h.linePoisoned e.2.2 (4 * n) = true then lfEccData else 0, h.laneEa g e.1 la off))) with
    | some (c, m, a) => (h, .fault c m a)
    | none =>
      (l.foldl (fun h' e => h'.laneStore g e.2.1 e.2.2 ((List.range n).flatMap (fun j => leBytes 4 (h.lreg g e.1 (ls + j)).toNat))) h, .next))

/-- The atomic operations AOP. -/
def atomFn (aop : Nat) (old x : Word) : Word :=
  match aop with
  | 0 => old + x
  | 1 => lp (fAdd 0 (lf old) (lf x)).1
  | 2 => if old.slt x then x else old
  | 3 => if old.slt x then old else x
  | _ => x

/-- ATOM: one lane after another in ascending order, each receiving its own old value (R182); where a word read has an uncorrectable
error, the reads are all that happens. -/
def execLaneAtom (g : Fin 16) (hd : LaneHdr) (spc : Fin 4) (aop : Fin 16) (la ls : Fin 64) (off : BitVec 24) (s : State) : Out :=
  s.laneMem g hd (spc < 3 && aop < 5) la off spc 4 true true true .none (fun h l =>
    let r := l.foldl (fun (p : Hw × List (Nat × Nat × Nat)) e =>
      let q := p.1.laneRead g e.2.1 e.2.2 4
      if q.2.1 then
        let old := BitVec.ofNat 32 (leNat q.2.2)
        let h' := q.1.laneStore g e.2.1 e.2.2 (leBytes 4 (atomFn aop old (h.lreg g e.1 ls)).toNat)
        (h'.setLreg g e.1 hd.ld old, p.2)
      else (q.1, p.2 ++ [(e.1, lfEccData, h.laneEa g e.1 la off)])) (h, [])
    match firstFault r.2 with
    | some (c, m, a) => (l.foldl (fun h e => (h.laneRead g e.2.1 e.2.2 4).1) h, .fault c m a)
    | none => (r.1, .next))

/-- HADDR: the address of the buffer that the handle La names, plus sext(off24); a handle that fails its checks faults the lane
with HANDLE (R183). While the PE's clock is gated the instruction waits (R86). -/
def execLaneHaddr (g : Fin 16) (hd : LaneHdr) (la : Fin 64) (off : BitVec 24) (s : State) : Out :=
  s.laneOp g true (fun h =>
    match h.kernOf g with
    | none => (h, .next)
    | some k =>
      if !h.peOn then (h, .again)
      else
      let r := (h.taking g hd).foldl (fun (p : Hw × List (Nat × Nat × Nat) × List (Nat × Word)) i =>
        let w := h.lreg g i la
        match p.1.handleAddr k.tid iniLane 4 w with
        | (h', some a) => (h', p.2.1, p.2.2 ++ [(i, BitVec.ofNat 32 a + off.signExtend 32)])
        | (h', none) => (h', p.2.1 ++ [(i, lfHandle, w.toNat)], p.2.2)) (h, [], [])
      match firstFault r.2.1 with
      | some (c, m, a) => (r.1, .fault c m a)
      | none => (r.2.2.foldl (fun h e => h.setLreg g e.1 hd.ld e.2) r.1, .next))

/-- LFENCE: AOP 1 and 2 write the group's dirty L1 lines back; LMEM accesses are visible as they complete (R182). -/
def execLaneLfence (g : Fin 16) (hd : LaneHdr) (aop : Fin 16) (s : State) : Out :=
  s.laneOp g (aop < 3 && hd.ld = 0) (fun h => ((if aop = 0 || h.taking g hd = [] then h else h.l1Flush g), .next))

end Sys2Proof.Machine
end

