-- ==== Sys2Proof/Machine/Launch.lean ====
section
/-! DEFINITION. Launch: the Crocus loader and how it applies a launch record (spec/04_launch.md; the PLL of spec/03_clocks.md
R73 to R83, LPDDR4 training of spec/08_memory.md R211 to R213). -/

namespace Sys2Proof.Machine

/-- Launch failure codes. -/
def lfEol : Nat := 1
def lfNoNvm : Nat := 2
def lfNvmBusy : Nat := 3
def lfNoCopy : Nat := 4
def lfNoLock : Nat := 5
def lfXspiFloor : Nat := 6
def lfDdr : Nat := 7
def lfLoad : Nat := 8
def lfVerify : Nat := 9
def lfCommit : Nat := 10

/-- Crocus stands in launch phase `p` and runs: the main domain is up and no life-cycle transition holds the cores. -/
def Hw.crocus (h : Hw) (p : LaunchPhase) : Bool := h.mainUp && h.lnch.phase = p && !h.lcsm.holds

/-- Crocus goes on to launch phase `p`. -/
def Hw.launchTo (h : Hw) (p : LaunchPhase) : Hw := { h with lnch := { h.lnch with phase := p } }

/-- A field of the record being applied: `n` bytes at `o` of the first section of type `ty`, or `d` where it is absent. -/
def Hw.recField (h : Hw) (ty o n d : Nat) : Nat :=
  match bodyOf h.lnch.record ty with
  | some l => fieldB l o n
  | none => d

/-- The record holds a section of type `ty`. -/
def Hw.recHas (h : Hw) (ty : Nat) : Bool := (bodyOf h.lnch.record ty).isSome

/-! ### Failure (R112, R113, R117) -/

/-- Launch fails: M0 stays in the ROM wait loop, M1 in reset, and LNCH_ERR_N is driven low (R117). -/
def Hw.launchFail (h : Hw) (code : Nat) : Hw :=
  let h := h.set SYS_LAUNCH_STAT.FAIL code
  { h with lnch := { h.lnch with phase := .failed, lnchErr := true }, m0 := { h.m0 with run := .romWait } }

/-- An apply-phase failure: the first marks the copy and resets the main domain, a second ends the launch (R112, R113). -/
def Hw.applyFail (h : Hw) (code : Nat) : Hw :=
  if h.on SYS_LAUNCH_PREV.VALID then h.launchFail code
  else
    let b := b2n h.lnch.copyB
    h.resetApply.sets [(SYS_LAUNCH_PREV.FAIL, code), (SYS_LAUNCH_PREV.COPY, b), (SYS_LAUNCH_PREV.VALID, 1)]

/-- The last digit of `n` in hexadecimal, in ASCII. -/
def hexDigit (n : Nat) : Byte := BitVec.ofNat 8 (if n % 16 < 10 then 0x30 + n % 16 else 0x37 + n % 16)

/-- The line that reports a failure: "CROCUS F=ff A=a B=b" and CR LF (R117). -/
def Hw.failLine (h : Hw) : List Byte :=
  let f := h.get SYS_LAUNCH_STAT.FAIL
  [0x43, 0x52, 0x4F, 0x43, 0x55, 0x53, 0x20, 0x46, 0x3D, hexDigit (f / 16), hexDigit f, 0x20, 0x41, 0x3D, hexDigit (h.get SYS_LAUNCH_STAT.REJ_A),
    0x20, 0x42, 0x3D, hexDigit (h.get SYS_LAUNCH_STAT.REJ_B), 0x0D, 0x0A]

/-! ### Steps 1 to 5: choosing a copy, starting the clocks -/

/-- The IRC-stage xSPI mode: the best of 1-1-1, 1-1-4 and 1-4-4 that is listed, a quad mode only where QE allows it (R98). -/
def Nvm.bootMode (m : Nvm) : Nat :=
  let has := fun c => m.modes.any (fun e => e.1 == c)
  if m.quadOk && has 2 then 2 else if m.quadOk && has 1 then 1 else 0

/-- Step 3: copy `c` is read and checked; a copy marked APPLY_FAIL is not examined (R110, R113). -/
def Hw.examine (h : Hw) (c : Nat) : Nat :=
  if h.on SYS_LAUNCH_PREV.VALID && h.get SYS_LAUNCH_PREV.COPY = c then 0xA
  else h.copyCode (h.readCopy c) (h.lnch.nvm.dead.contains c)

/-- The copy that is launched: 0 for A, 1 for B, where one is valid (R111). -/
def Hw.chooseCopy (h : Hw) (ra rb : Nat) : Option Nat :=
  if ra = 0 && rb = 0 then some (if recGen (h.readCopy 0) < recGen (h.readCopy 1) then 1 else 0)
  else if ra = 0 then some 0 else if rb = 0 then some 1 else none

/-- Steps 4 and 5 up to the PLL: PWR_CFG from POWER and the clock registers from CLOCKS; the servo's values are staged. -/
def Hw.applyClocks (h : Hw) : Hw :=
  let w := fun o => BitVec.ofNat 32 (h.recField secClocks o 4 0)
  let h := h.sets [(PWR_CFG.THR, h.recField secPower 0 2 0), (PWR_CFG.HYST, h.recField secPower 2 1 1),
    (PWR_CFG.FILTER, h.recField secPower 3 1 2), (PWR_CFG.CHG, h.recField secPower 4 1 0),
    (CLK_CFG.SRC, h.recField secClocks 0 1 0), (CLK_CFG.XTAL_WAIT, h.recField secClocks 1 1 0), (CLK_CFG.LSX_EN, h.recField secClocks 2 1 0)]
  let h := h.wr CLK_DIV (w 4)
  let h := ((h.plainWrite CLK_SRV_AUTH (BitVec.ofNat 32 (h.recField secClocks 3 1 0))).plainWrite CLK_SRV_LOW (w 16)).plainWrite CLK_SRV_HIGH (w 20)
  (h.plainWrite CLK_SRV_PIN (w 24)).plainWrite CLK_SRV_CFG ((CLK_SRV_CFG.PORT).into (h.rd CLK_SRV_CFG) (h.recField secClocks 12 1 0))

/-- XTAL_WAIT has passed and CLOCKS is applied: the PLL starts (R73). -/
def Hw.pllGo (h : Hw) : Hw := { (h.launchTo .pllWait) with clk := { h.clk with pll := .starting } }

/-- Steps 3 to 5: both copies are checked, one is chosen, its clock settings are applied (R110 to R114). -/
def Hw.takeRecord (h : Hw) : Hw :=
  let h := (h.set SYS_LAUNCH_STAT.BOOT_MODE h.lnch.nvm.bootMode).put SYS_LAUNCH_STAT.FALLBACK (h.on SYS_LAUNCH_PREV.VALID)
  let ra := h.examine 0
  let rb := h.examine 1
  let h := h.sets [(SYS_LAUNCH_STAT.REJ_A, ra), (SYS_LAUNCH_STAT.REJ_B, rb)]
  match h.chooseCopy ra rb with
  | none => h.launchFail lfNoCopy
  | some c =>
    let b := h.readCopy c
    let h := h.sets [(SYS_LAUNCH_STAT.COPY, c), (SYS_LAUNCH_GEN.GEN, recGen b)]
    let h := Hw.applyClocks { h with lnch := { h.lnch with record := b, copyB := c = 1 } }
    if h.clk.xtalDone then h.pllGo else h.launchTo .xtalWait

/-- Crocus starts: steps 1 and 2 (R114, R97, R98). -/
def Hw.crocusStart (h : Hw) : Hw :=
  if h.lcState = lcEol then h.launchFail lfEol
  else if !h.lnch.nvm.signature then h.launchFail lfNoNvm
  else if h.lnch.nvm.busy then h.launchTo .nvmBusy
  else h.takeRecord

/-- The main domain is released: the straps are latched, the oscillator starts, the LCS settles, and LS15 is scanned (R50, R73, R124,
R134, R200, R465); without bank B1 no NVM answers (log entry 169). Crocus starts where the SRAM is ready (R201). -/
def Hw.release (h : Hw) (present v18 : BitVec 4) (nvm : Nvm) : Hw :=
  let h := { h with pwr := { h.pwr with phase := .up }, clk := { h.clk with osc := true },
                      lnch := { h.lnch with nvm := { nvm with signature := nvm.signature && present.getLsbD 0 } } }
  let h := h.sets [(GPIO_BANK_STAT.PRESENT, present.toNat), (GPIO_BANK_STAT.V18, v18.toNat)]
  let h := (h.recoveryScan 15).lcsResume.tallySettle
  let h := ((h.setPerm (statePerm h.lcState)).auditShow).up ADC_CAL.LOADING
  if h.on HUB_SRAM_STAT.INIT_DONE then h.crocusStart else h

/-! ### Step 6: links (R99, R100, R105) -/

/-- A link's floor and ceiling: no floor and no ceiling where LINKS is absent. -/
def Hw.linkWrite (h : Hw) (floor ceil : Fld) (i : Nat) : Hw :=
  h.sets [(floor, h.recField secLinks (4 * i) 1 0), (ceil, h.recField secLinks (4 * i + 1) 1 0xFF)]

/-- Of two listed modes, the better. -/
def betterMode (a b : Nat × Nat × Nat) : Nat × Nat × Nat := if a.1 < b.1 then b else a

/-- The xSPI run mode: the best listed mode that is not above the ceiling (R99). With none, 1-1-1 stands. -/
def Hw.runMode (h : Hw) : Nat × Nat × Nat :=
  let ceil := h.get XSPI_LINK.CEIL
  match h.lnch.nvm.modes.filter (fun m => m.1 ≤ ceil) with
  | [] => (0, 0, 0)
  | m :: t => t.foldl betterMode m

/-- Step 6: the floors and ceilings, and the xSPI negotiation; below its floor the link is held down (R99, R100). -/
def Hw.applyLinks (h : Hw) : Hw :=
  let h := h.linkWrite XSPI_LINK.FLOOR XSPI_LINK.CEIL 0
  let h := h.linkWrite DDR_LINK.FLOOR DDR_LINK.CEIL 1
  let h := h.linkWrite (ETH_LINK.FLOOR 0) (ETH_LINK.CEIL 0) 2
  let h := h.linkWrite (ETH_LINK.FLOOR 1) (ETH_LINK.CEIL 1) 3
  let h := h.linkWrite TWIN_LINK.FLOOR TWIN_LINK.CEIL 4
  let m := h.runMode
  h.sets [(XSPI_NEG_RESULT.MODE, m.1), (XSPI_NEG_RESULT.FREQ, min 200 m.2.1), (XSPI_NEG_RESULT.DUMMY, m.2.2),
    (XSPI_NEG_RESULT.ADDR4, b2n h.lnch.nvm.addr4), (XSPI_NEG_RESULT.DONE, 1), (XSPI_NEG_RESULT.LINK_FLOOR, b2n (m.1 < h.get XSPI_LINK.FLOOR))]

/-! ### Step 7: LPDDR4 (R211 to R213) -/

/-- The usable capacity in bytes: over all dies of two sub-channels, 7/8 of it with inline ECC, at most 2 GiB (R213). -/
def ddrBytes (ranks density : Nat) (ecc : Bool) : Nat :=
  let c := 2 * ranks * density * 2 ^ 27
  min (2 ^ 31) (if ecc then c * 7 / 8 else c)

/-- Training has ended with the best rate reached, the ranks and the density in Gb per die, and whether both sub-channels agree. -/
def Hw.ddrTrained (h : Hw) (rate ranks density : Nat) (same : Bool) : Hw :=
  let rate := if same && [4, 6, 8, 12, 16].contains density then min rate (h.get DDR_LINK.CEIL) else 0
  let low := rate != 0 && rate < h.get DDR_LINK.FLOOR
  let held := rate = 0 || low
  let ecc : Bool := h.recField secDdr 2 1 0 = 1
  let top := 0x800 + (if held then 0 else ddrBytes ranks density ecc / 2 ^ 20)
  Hw.sets { h with inlineEcc := ecc } ([(DDR_NEG_RESULT.RATE, rate), (DDR_NEG_RESULT.DONE, 1), (DDR_NEG_RESULT.FAIL, b2n (rate = 0)), (DDR_NEG_RESULT.LINK_FLOOR, b2n low),
    (DDR_NEG_RESULT.RANKS, ranks - 1), (DDR_NEG_RESULT.DENSITY, min density 15), (DDR_TOP.TOP_MB, top), (DDR_STAT.TRAIN_EVT, 1)] ++
    if low then [(DDR_STAT.FLOOR_EVT, 1)] else [])

/-! ### Step 8: TB (R21, R91, R486) -/

/-- TB is restored by the reset cause and runs; its epoch counts as generated. -/
def Hw.tbRestore (h : Hw) (lsx irc : Nat) : Hw :=
  let h := h.retain lsx irc
  let c := h.get PWR_RST_CAUSE.CAUSE
  let lost := c = rcBackupLost || c = rcVcore
  let t := if lost then 0 else h.retained128
  let h := if lost then h.sets [(CLK_TB_STAT.VALID, 0), (CLK_TB_STAT.COARSE, 0)]
    else if c = rcRetained || c = rcWakeOff || c = rcPfail then h.sets [(CLK_TB_STAT.VALID, b2n (!h.bak.retStop)), (CLK_TB_STAT.COARSE, 1)]
    else h.up CLK_TB_STAT.COARSE
  let tb := BitVec.ofNat 64 (t / 128)
  { h with clk := { h.clk with tb := tb, tbFrac := BitVec.ofNat 7 t, tbRun := true, epochHi := some (tb.toNat / 1000000) } }

/-! ### Step 9: LOAD and VERIFY (R107, R108, R119) -/

/-- The region may be used: it does not touch the LCS area, and LPDDR4 in it is available. -/
def Hw.regionUsable (h : Hw) (a n : Nat) : Bool :=
  !(a ≤ 0x00FFFFFF && 0x00FC0000 < a + n) && (a < 0x80000000 || a + n ≤ h.ddrTop)

/-- The region's contents have this SHA-256; a word that cannot be corrected matches nothing (DEDUCED). -/
def Hw.hashIs (h : Hw) (a n : Nat) (digest : List Byte) : Hw × Bool :=
  let q := h.eccRead a n
  (q.1, q.2 = .good && sha256 (q.1.bytes a n) == digest)

/-- A LOAD or VERIFY section: the part afterwards, and the failure's code or 0.
DESIGN CHOICE (log entry 156): a VERIFY of LPDDR4 that is not available, or held down, fails with VERIFY_FAIL and is not hashed. -/
def Hw.runSection (h : Hw) (s : Section) : Hw × Nat :=
  let l := s.body
  if s.ty = secLoad then
    let a := fieldB l 4 4
    let n := fieldB l 8 4
    if fieldB l 12 1 = 1 && h.get PWR_RST_CAUSE.CAUSE != rcBackupLost then (h, 0)
    else if !h.regionUsable a n then (h, lfLoad)
    else
      let r := h.hashIs a n (sliceB l 16 32)
      if r.2 then (r.1, 0)
      else
        let h := r.1.writeMem a (r.1.nvmBytes (fieldB l 0 4) n)
        let r := h.hashIs a n (sliceB l 16 32)
        (r.1, if r.2 then 0 else lfLoad)
  else if s.ty = secVerify then
    let a := fieldB l 0 4
    let n := fieldB l 4 4
    if !h.regionUsable a n then (h, lfVerify)
    else
      let r := h.hashIs a n (sliceB l 8 32)
      (r.1, if r.2 then 0 else lfVerify)
  else (h, 0)

/-- The sections in table order up to the first failure. -/
def Hw.runSections (h : Hw) : List Section → Hw × Nat
  | [] => (h, 0)
  | s :: rest =>
    let r := h.runSection s
    if r.2 = 0 then r.1.runSections rest else r

/-- An entry PC lies in LPDDR4 that is not available. -/
def Hw.entryLost (h : Hw) : Bool :=
  let lost := fun a => decide (0x80000000 ≤ a ∧ h.ddrTop ≤ a)
  lost (h.recField secEntry 0 4 0) || lost (h.recField secEntry 12 4 0)

/-! ### Steps 10 and 11: registers and patches -/

/-- The loop that an AUTH entry names. -/
def authLoop (n : Nat) : LoopG :=
  match n with
  | 1 => loopAvs
  | 2 => loopBst1
  | 3 => loopBst2
  | 4 => loopThr
  | _ => loopPool (n - 0x10)

/-- An AUTH entry is staged; the island's is a write to the island configuration (R63). -/
def Hw.authEntry (h : Hw) (l : List Byte) : Hw :=
  let g := authLoop (fieldB l 0 1)
  let w := fun o => BitVec.ofNat 32 (fieldB l o 4 % 2 ^ g.wid)
  Hw.when ((((h.plainWrite g.base (BitVec.ofNat 32 (fieldB l 1 1 + 16 * fieldB l 2 1))).plainWrite (g.base + 0x10) (w 4)).plainWrite (g.base + 0x14) (w 8)).plainWrite
    (g.base + 0x18) (w 12)) (fieldB l 0 1 = 4) Hw.reseal

/-- A REGS entry is one store by Crocus (R106). -/
def Hw.regsEntry (h : Hw) (l : List Byte) : Hw := (h.devWrite ⟨.crocus, 0⟩ (fieldB l 0 4) (BitVec.ofNat 32 (fieldB l 4 4))).1

/-- TWIN, AUTH and REGS. -/
def Hw.applyRegs (h : Hw) : Hw :=
  let b := h.lnch.record
  let h := h.sets [(TWIN_CFG.EN, h.recField secTwin 0 1 0), (TWIN_CFG.PREF, h.recField secTwin 1 1 0),
    (TWIN_PEER_SERIAL_LO.SERIAL, h.recField secTwin 8 4 0), (TWIN_PEER_SERIAL_HI.SERIAL, h.recField secTwin 12 4 0)]
  (entriesOf b secRegs 8).foldl Hw.regsEntry ((entriesOf b secAuth 16).foldl Hw.authEntry h)

/-- A PATCH entry loads and enables its unit (R453). -/
def Hw.patchEntry (h : Hw) (l : List Byte) : Hw :=
  let u := fieldB l 4 1
  let h := h.sets [(DBG_PU_CTL.EN u, 1), (DBG_PU_CTL.SRC u, 1), (DBG_PU_LINE.ADDR u, fieldB l 0 4 / 32)]
  (List.range 8).foldl (fun h w => h.set (DBG_PU_DATA.DATA u w) (fieldB l (8 + 4 * w) 4)) h

/-- The units that PATCH names. -/
def Hw.patchUnits (h : Hw) : List Nat := (entriesOf h.lnch.record secPatch 40).map (fun l => fieldB l 4 1)

/-! ### Steps 12 to 14 -/

/-- The floor advance: TALLY0 rises one step at a time up to `v`, with one audit record each (R115); a refused step ends it. -/
def Hw.floorAdvance (h : Hw) (v : Nat) : Nat → Hw
  | 0 => h
  | fuel + 1 =>
    if h.get (LCS_TALLY.VALUE 0) < v then
      let r := h.tallyAdvance 0 1 ⟨0, false, true⟩
      if r.2 = 0 then r.1.floorAdvance v fuel else h
    else h

/-- Steps 8 to 13; the launch ends with LAUNCH_END, or fails (R114). -/
def Hw.applyRest (h : Hw) (lsx irc : Nat) : Hw :=
  let h := h.tbRestore lsx irc
  if h.entryLost then h.applyFail lfLoad
  else
    let r := h.runSections (sections h.lnch.record)
    if r.2 != 0 then r.1.applyFail r.2
    else
      let h := ((entriesOf h.lnch.record secPatch 40).foldl Hw.patchEntry r.1.applyRegs).patchDups
      let h := if h.on ADC_CAL.LOADING then h.calStage else h
      if h.cmtVerdict.isSome then h.applyFail lfCommit
      else
        let h := h.launchCommit
        let h := if h.lcState = lcProd && recFloor h.lnch.record then h.floorAdvance (recSecVer h.lnch.record) 64 else h
        h.launchTo .ending

/-- The clock ratios of R83 that CLK_DIV alone decides hold. -/
def Hw.ratiosOk (h : Hw) : Bool :=
  let core := h.get CLK_DIV.CORE_DIV
  let bus := h.get CLK_DIV.BUS_DIV
  h.get CLK_DIV.LANE_DIV ≤ bus && (bus = core || bus = 2 * core || bus = 4 * core) && 2 * bus ≤ h.get CLK_DIV.PER_DIV &&
    2 * bus ≤ h.get CLK_DIV.ADC_DIV

/-- Lock at launch: every main-domain clock switches to its divider output (R78, R82), then steps 6 and 7 up to the end of a training. -/
def Hw.launchLock (h : Hw) (lsx irc : Nat) : Hw :=
  let h := (Hw.setThrottle { h with clk := { h.clk with pll := .locked, onRoot := true } } 2).up CLK_STAT.PLL_LOCK
  let h := h.applyLinks
  if h.on XSPI_NEG_RESULT.LINK_FLOOR && h.recHas secLoad then h.applyFail lfXspiFloor
  else
    let h := if h.recHas secDdr then h.wr DDR_PHY_CFG (BitVec.ofNat 32 (h.recField secDdr 4 4 0)) else h
    if h.recField secDdr 0 1 0 = 1 then h.launchTo .ddrTrain else h.applyRest lsx irc

/-- A core at its first instruction (R116, R139): the PC, SSP and VBASE at offset `o` of ENTRY. -/
def Hw.entryCore (h : Hw) (o : Nat) : Core :=
  let w := fun k => BitVec.ofNat 32 (h.recField secEntry k 4 0)
  { run := .running, pc := w o, ssp := w (o + 4), vbase := w (o + 8) }

/-- Launch end, `us` after the release of the main-domain reset (R107, R116, R86, R115, R453, R454, R484). -/
def Hw.launchEnd (h : Hw) (us : Nat) : Hw :=
  let h := (h.wipeRange 0x101F0000 0x10000).gateWrite (BitVec.ofNat 32 (h.recField secClocks 8 4 0))
  let units := h.patchUnits
  let h := h.sets ([(SYS_LAUNCH_STAT.DONE, 1), (SYS_LAUNCH_INFO.SEC_VER, recSecVer h.lnch.record),
    (SYS_LAUNCH_INFO.FLOOR, h.get (LCS_TALLY.VALUE 0)), (SYS_LAUNCH_INFO.PATCHES, units.length), (SYS_LAUNCH_TIME.US, satU 24 us),
    (POL_STAT.MAIN_UP, 1)] ++ units.map (fun u => (DBG_PU_CTL.LOCKED u, 1)))
  let h := { h with lnch := { h.lnch with phase := .done, lnchDone := true }, bak := { h.bak with lsxRun := h.on CLK_CFG.LSX_EN },
                    m0 := h.entryCore 0, m1 := if h.recField secEntry 12 4 0 = 0 then { vbase := (h.entryCore 12).vbase } else h.entryCore 12 }
  let h := if h.haltsAtLaunch 0 || h.haltsAtLaunch 1 then h.up DBG_STAT.ATTACHED else h
  let h := if h.haltsAtLaunch 0 then h.haltCore .m0 haltLaunch else h
  let h := if h.haltsAtLaunch 1 && h.m1.run = .running then h.haltCore .m1 haltLaunch else h
  ((h.roleNow).setTwState twTraining).twinWake

/-! ### The commands -/

/-- MAIN_RESET_RELEASE: the bank straps PRESENT and V18, and what Crocus will find out about the NVM: the SFDP signature, a busy bit
that stays set, the modes listed with their highest frequency in MHz and their dummy cycles, whether QE allows a quad mode, whether
the NVM is above 16 MiB, and the copies whose reading stops responding (R98, R99, R110, R465). -/
def execMainResetRelease (present v18 : BitVec 4) (signature busy quadOk addr4 : Bool) (modes : List (Fin 6 × Byte × BitVec 5)) (dead : List (Fin 2))
    (s : State) : Out := s.run (fun h => h.when (h.pwr.phase = .resetHold) (fun h =>
  h.release present v18 ⟨signature, busy, modes.map (fun m => (m.1.val, m.2.1.toNat, m.2.2.toNat)), quadOk, addr4, dead.map Fin.val⟩))

/-- SRAM_INIT_DONE. -/
def execSramInitDone (s : State) : Out := s.run (fun h =>
  h.when (h.mainUp && h.lnch.phase = .idle && !h.on HUB_SRAM_STAT.INIT_DONE) (fun h => (h.up HUB_SRAM_STAT.INIT_DONE).crocusStart))

/-- NVM_BUSY: the busy bit has stayed set for more than 500 ms. -/
def execNvmBusy (s : State) : Out := s.run (fun h => h.when (h.crocus .nvmBusy) (fun h => h.launchFail lfNvmBusy))

/-- XTAL_WAIT_EXPIRY: the wait is over; the PLL starts now or when CLOCKS has been applied (R73). -/
def execXtalWaitExpiry (s : State) : Out := s.run (fun h => h.when (h.mainUp && h.clk.osc) (fun h =>
  let h := { h with clk := { h.clk with xtalDone := true } }
  if h.crocus .xtalWait then h.pllGo else h))

/-- PLL_LOCK: `good` says that the reference is one whose ROOT clocks the spec defines (R74, R75); `lsx` and `irc` are what the retention
counter counted up to step 8. On a wake from SLEEP the clocks go on when TB is restored (R80, R81). -/
def execPllLock (good : Bool) (lsx irc : Nat) (s : State) : Out := s.runE (fun h =>
  if h.mainUp && h.pwr.waking && h.clk.pll = .starting then .ok (Hw.up { h with clk := { h.clk with pll := .locked } } CLK_STAT.PLL_LOCK)
  else if h.crocus .pllWait then
    if !good then .error .undefinedReference
    else if !h.ratiosOk then .error .undefinedClockRatios
    else .ok (h.launchLock lsx irc)
  else .ok h)

/-- PLL_NO_LOCK. -/
def execPllNoLock (s : State) : Out := s.run (fun h => h.when (h.crocus .pllWait) (fun h =>
  Hw.applyFail { h with clk := { h.clk with pll := .off } } lfNoLock))

/-- DDR_TRAINING_END: the best rate at which every step passed, two ranks or one, the density that MR8 reports in Gb per die, whether
both sub-channels report it, and the retention counts up to step 8. A channel held down with REQUIRED = 1 fails the launch (R212). -/
def execDdrTrainingEnd (rate : Fin 6) (two : Bool) (density : Fin 17) (same : Bool) (lsx irc : Nat) (s : State) : Out :=
  s.run (fun h => h.when (h.crocus .ddrTrain) (fun h =>
    let h := h.ddrTrained rate (1 + b2n two) density same
    if h.get DDR_TOP.TOP_MB = 0x800 && h.recField secDdr 1 1 0 = 1 then h.applyFail lfDdr else h.applyRest lsx irc))

/-- LAUNCH_END, `us` microseconds after the release. -/
def execLaunchEnd (us : Nat) (s : State) : Out := s.run (fun h => h.when (h.crocus .ending) (fun h => h.launchEnd us))

/-- FAIL_REPORT. -/
def execFailReport (s : State) : Out := s.run (fun h => h.when (h.mainUp && h.lnch.phase = .failed) (fun h =>
  { h with lnch := { h.lnch with u0Line := h.failLine } }))

end Sys2Proof.Machine
end

