-- ==== Sys2Proof/Machine/Dispatch.lean ====
section
/-! DEFINITION. The dispatch: one arm per constructor of Instr, each one direct call of its meaning. -/

namespace Sys2Proof.Machine

def exec (i : Instr) (s : State) : Host.Outcome State Fault Refusal :=
  match i with
  | .powerUp cold ircLost lsx irc => Sys2Proof.Machine.execPowerUp cold ircLost lsx irc s
  | .vcoreGood => Sys2Proof.Machine.execVcoreGood s
  | .coreRetry => Sys2Proof.Machine.execCoreRetry s
  | .avsTransactionDone ok => Sys2Proof.Machine.execAvsTransactionDone ok s
  | .avsTimeout => Sys2Proof.Machine.execAvsTimeout s
  | .mainResetRelease present v18 signature busy quadOk addr4 modes dead => Sys2Proof.Machine.execMainResetRelease present v18 signature busy quadOk addr4 modes dead s
  | .nvmBusy => Sys2Proof.Machine.execNvmBusy s
  | .failReport => Sys2Proof.Machine.execFailReport s
  | .xtalWaitExpiry => Sys2Proof.Machine.execXtalWaitExpiry s
  | .pllLock good lsx irc => Sys2Proof.Machine.execPllLock good lsx irc s
  | .pllNoLock => Sys2Proof.Machine.execPllNoLock s
  | .ddrTrainingEnd rate two density same lsx irc => Sys2Proof.Machine.execDdrTrainingEnd rate two density same lsx irc s
  | .launchEnd us => Sys2Proof.Machine.execLaunchEnd us s
  | .m1Start acc => Sys2Proof.Machine.execM1Start acc s
  | .vinUvlo torn => Sys2Proof.Machine.execVinUvlo s torn
  | .bermArm vin => Sys2Proof.Machine.execBermArm vin s
  | .bermFlush last torn us vin conv lsx irc => Sys2Proof.Machine.execBermFlush last torn us vin s conv lsx irc
  | .vinRecovered => Sys2Proof.Machine.execVinRecovered s
  | .boWarn => Sys2Proof.Machine.execBoWarn s
  | .brownOut torn => Sys2Proof.Machine.execBrownOut s torn
  | .vcoreFail same => Sys2Proof.Machine.execVcoreFail s same
  | .retLost => Sys2Proof.Machine.execRetLost s
  | .polderBrownOut => Sys2Proof.Machine.execPolderBrownOut s
  | .buckFault ot => Sys2Proof.Machine.execBuckFault ot s
  | .resetPin same => Sys2Proof.Machine.execResetPin same s
  | .softwareReset acc same => Sys2Proof.Machine.execSoftwareReset acc same s
  | .resetWritebackDone => Sys2Proof.Machine.execResetWritebackDone s
  | .dozeEntry => Sys2Proof.Machine.execDozeEntry s
  | .dozeWake => Sys2Proof.Machine.execDozeWake s
  | .sleepEntry => Sys2Proof.Machine.execSleepEntry s
  | .sleepWake => Sys2Proof.Machine.execSleepWake s
  | .offEntry last torn us vin conv => Sys2Proof.Machine.execOffEntry last torn us vin s conv
  | .pllUnlock => Sys2Proof.Machine.execPllUnlock s
  | .pllRelock => Sys2Proof.Machine.execPllRelock s
  | .unlockTimeout same => Sys2Proof.Machine.execUnlockTimeout same s
  | .wakeRelockTimeout same => Sys2Proof.Machine.execWakeRelockTimeout same s
  | .xoMonitorWindow n => Sys2Proof.Machine.execXoMonitorWindow n s
  | .xoFailReset same => Sys2Proof.Machine.execXoFailReset same s
  | .lsxMonitorCheck n => Sys2Proof.Machine.execLsxMonitorCheck n s
  | .tbSleepRestore lsx irc => Sys2Proof.Machine.execTbSleepRestore lsx irc s
  | .epochBoundary => Sys2Proof.Machine.execEpochBoundary s
  | .holdTmo => Sys2Proof.Machine.execHoldTmo s
  | .reacq acc => Sys2Proof.Machine.execReacq acc s
  | .asyncBusError => Sys2Proof.Machine.execAsyncBusError s
  | .registerWrite acc adr v => Sys2Proof.Machine.execRegisterWrite acc adr v s
  | .setOwnerKey acc => Sys2Proof.Machine.execSetOwnerKey acc s
  | .setDebugKey acc => Sys2Proof.Machine.execSetDebugKey acc s
  | .toTest acc => Sys2Proof.Machine.execToTest acc s
  | .toProd acc => Sys2Proof.Machine.execToProd acc s
  | .enterRtest acc => Sys2Proof.Machine.execEnterRtest acc s
  | .scrap acc => Sys2Proof.Machine.execScrap acc s
  | .transitionWipeDone same => Sys2Proof.Machine.execTransitionWipeDone same s
  | .dbgRequest acc => Sys2Proof.Machine.execDbgRequest acc s
  | .dbgResponse acc => Sys2Proof.Machine.execDbgResponse acc s
  | .signatureCheckDone => Sys2Proof.Machine.execSignatureCheckDone s
  | .dbgRevoke acc => Sys2Proof.Machine.execDbgRevoke acc s
  | .challengeExpiry => Sys2Proof.Machine.execChallengeExpiry s
  | .trkRotate acc => Sys2Proof.Machine.execTrkRotate acc s
  | .trkDerive acc => Sys2Proof.Machine.execTrkDerive acc s
  | .calCommit acc => Sys2Proof.Machine.execCalCommit acc s
  | .auditRelease acc => Sys2Proof.Machine.execAuditRelease acc s
  | .lcsReservedCommand acc code => Sys2Proof.Machine.execLcsReservedCommand acc code s
  | .tallyAdvance acc n v => Sys2Proof.Machine.execTallyAdvance acc n v s
  | .interruptGrant => Sys2Proof.Machine.execInterruptGrant s
  | .intcEoi acc c v => Sys2Proof.Machine.execIntcEoi acc c v s
  | .intcSwiSet acc v => Sys2Proof.Machine.execIntcSwiSet acc v s
  | .intcSwiClr acc v => Sys2Proof.Machine.execIntcSwiClr acc v s
  | .intcCfgWrite acc k v => Sys2Proof.Machine.execIntcCfgWrite acc k v s
  | .wdKick acc n v elapsed => Sys2Proof.Machine.execWdKick acc n v elapsed s
  | .wdWarning n => Sys2Proof.Machine.execWdWarning n s
  | .wdExpiry n same => Sys2Proof.Machine.execWdExpiry n same s
  | .add c rd ra rb => Sys2Proof.Machine.execAdd c rd ra rb s
  | .sub c rd ra rb => Sys2Proof.Machine.execSub c rd ra rb s
  | .and c rd ra rb => Sys2Proof.Machine.execAnd c rd ra rb s
  | .or c rd ra rb => Sys2Proof.Machine.execOr c rd ra rb s
  | .xor c rd ra rb => Sys2Proof.Machine.execXor c rd ra rb s
  | .slt c rd ra rb => Sys2Proof.Machine.execSlt c rd ra rb s
  | .sltu c rd ra rb => Sys2Proof.Machine.execSltu c rd ra rb s
  | .sll c rd ra rb => Sys2Proof.Machine.execSll c rd ra rb s
  | .srl c rd ra rb => Sys2Proof.Machine.execSrl c rd ra rb s
  | .sra c rd ra rb => Sys2Proof.Machine.execSra c rd ra rb s
  | .slli c rd ra n => Sys2Proof.Machine.execSlli c rd ra n s
  | .srli c rd ra n => Sys2Proof.Machine.execSrli c rd ra n s
  | .srai c rd ra n => Sys2Proof.Machine.execSrai c rd ra n s
  | .mul c rd ra rb => Sys2Proof.Machine.execMul c rd ra rb s
  | .mulh c rd ra rb => Sys2Proof.Machine.execMulh c rd ra rb s
  | .mulhu c rd ra rb => Sys2Proof.Machine.execMulhu c rd ra rb s
  | .div c rd ra rb => Sys2Proof.Machine.execDiv c rd ra rb s
  | .divu c rd ra rb => Sys2Proof.Machine.execDivu c rd ra rb s
  | .rem c rd ra rb => Sys2Proof.Machine.execRem c rd ra rb s
  | .remu c rd ra rb => Sys2Proof.Machine.execRemu c rd ra rb s
  | .min c rd ra rb => Sys2Proof.Machine.execMin c rd ra rb s
  | .max c rd ra rb => Sys2Proof.Machine.execMax c rd ra rb s
  | .minu c rd ra rb => Sys2Proof.Machine.execMinu c rd ra rb s
  | .maxu c rd ra rb => Sys2Proof.Machine.execMaxu c rd ra rb s
  | .clz c rd ra => Sys2Proof.Machine.execClz c rd ra s
  | .popc c rd ra => Sys2Proof.Machine.execPopc c rd ra s
  | .bswap c rd ra => Sys2Proof.Machine.execBswap c rd ra s
  | .addi c rd ra imm => Sys2Proof.Machine.execAddi c rd ra imm s
  | .andi c rd ra imm => Sys2Proof.Machine.execAndi c rd ra imm s
  | .ori c rd ra imm => Sys2Proof.Machine.execOri c rd ra imm s
  | .xori c rd ra imm => Sys2Proof.Machine.execXori c rd ra imm s
  | .slti c rd ra imm => Sys2Proof.Machine.execSlti c rd ra imm s
  | .sltiu c rd ra imm => Sys2Proof.Machine.execSltiu c rd ra imm s
  | .lui c rd imm => Sys2Proof.Machine.execLui c rd imm s
  | .pcaddh c rd imm => Sys2Proof.Machine.execPcaddh c rd imm s
  | .lb c rd ra imm => Sys2Proof.Machine.execLb c rd ra imm s
  | .lbu c rd ra imm => Sys2Proof.Machine.execLbu c rd ra imm s
  | .lh c rd ra imm => Sys2Proof.Machine.execLh c rd ra imm s
  | .lhu c rd ra imm => Sys2Proof.Machine.execLhu c rd ra imm s
  | .lw c rd ra imm u => Sys2Proof.Machine.execLw c rd ra imm u s
  | .sb c rs ra imm => Sys2Proof.Machine.execSb c rs ra imm s
  | .sh c rs ra imm => Sys2Proof.Machine.execSh c rs ra imm s
  | .sw c rs ra imm => Sys2Proof.Machine.execSw c rs ra imm s
  | .flw c fd ra imm => Sys2Proof.Machine.execFlw c fd ra imm s
  | .fld c fd ra imm => Sys2Proof.Machine.execFld c fd ra imm s
  | .fsw c fs ra imm => Sys2Proof.Machine.execFsw c fs ra imm s
  | .fsd c fs ra imm => Sys2Proof.Machine.execFsd c fs ra imm s
  | .beq c ra rb off => Sys2Proof.Machine.execBeq c ra rb off s
  | .bne c ra rb off => Sys2Proof.Machine.execBne c ra rb off s
  | .blt c ra rb off => Sys2Proof.Machine.execBlt c ra rb off s
  | .bge c ra rb off => Sys2Proof.Machine.execBge c ra rb off s
  | .bltu c ra rb off => Sys2Proof.Machine.execBltu c ra rb off s
  | .bgeu c ra rb off => Sys2Proof.Machine.execBgeu c ra rb off s
  | .jmp c off => Sys2Proof.Machine.execJmp c off s
  | .call c off => Sys2Proof.Machine.execCall c off s
  | .jr c ra => Sys2Proof.Machine.execJr c ra s
  | .callr c ra => Sys2Proof.Machine.execCallr c ra s
  | .ll c rd ra => Sys2Proof.Machine.execLl c rd ra s
  | .sc c rd ra rb => Sys2Proof.Machine.execSc c rd ra rb s
  | .amoswap c rd ra rb => Sys2Proof.Machine.execAmoswap c rd ra rb s
  | .amoadd c rd ra rb => Sys2Proof.Machine.execAmoadd c rd ra rb s
  | .amoand c rd ra rb => Sys2Proof.Machine.execAmoand c rd ra rb s
  | .amoor c rd ra rb => Sys2Proof.Machine.execAmoor c rd ra rb s
  | .amoxor c rd ra rb => Sys2Proof.Machine.execAmoxor c rd ra rb s
  | .amomax c rd ra rb => Sys2Proof.Machine.execAmomax c rd ra rb s
  | .amomin c rd ra rb => Sys2Proof.Machine.execAmomin c rd ra rb s
  | .amocas c rd ra rb => Sys2Proof.Machine.execAmocas c rd ra rb s
  | .fence c => Sys2Proof.Machine.execFence c s
  | .fenceWd c => Sys2Proof.Machine.execFenceWd c s
  | .isync c => Sys2Proof.Machine.execIsync c s
  | .dcwb c ra => Sys2Proof.Machine.execDcwb c ra s
  | .dcwbi c ra => Sys2Proof.Machine.execDcwbi c ra s
  | .dcinv c ra => Sys2Proof.Machine.execDcinv c ra s
  | .icinv c ra => Sys2Proof.Machine.execIcinv c ra s
  | .icinvAll c => Sys2Proof.Machine.execIcinvAll c s
  | .bmov c rd ra rb limit => Sys2Proof.Machine.execBmov c rd ra rb limit s
  | .bfil c rd ra rb limit => Sys2Proof.Machine.execBfil c rd ra rb limit s
  | .crcb c rd ra rb limit => Sys2Proof.Machine.execCrcb c rd ra rb limit s
  | .ldm c first base last wb limit => Sys2Proof.Machine.execLdm c first base last wb limit s
  | .stm c first base last wb limit => Sys2Proof.Machine.execStm c first base last wb limit s
  | .fadd c p rd ra rb => Sys2Proof.Machine.execFadd c p rd ra rb s
  | .fsub c p rd ra rb => Sys2Proof.Machine.execFsub c p rd ra rb s
  | .fmul c p rd ra rb => Sys2Proof.Machine.execFmul c p rd ra rb s
  | .fdiv c p rd ra rb => Sys2Proof.Machine.execFdiv c p rd ra rb s
  | .fsqrt c p rd ra => Sys2Proof.Machine.execFsqrt c p rd ra s
  | .fmin c p rd ra rb => Sys2Proof.Machine.execFmin c p rd ra rb s
  | .fmax c p rd ra rb => Sys2Proof.Machine.execFmax c p rd ra rb s
  | .fabs c p rd ra => Sys2Proof.Machine.execFabs c p rd ra s
  | .fneg c p rd ra => Sys2Proof.Machine.execFneg c p rd ra s
  | .fmov c p rd ra => Sys2Proof.Machine.execFmov c p rd ra s
  | .fcvt c p rd ra => Sys2Proof.Machine.execFcvt c p rd ra s
  | .ftoi c p rd ra => Sys2Proof.Machine.execFtoi c p rd ra s
  | .itof c p rd ra => Sys2Proof.Machine.execItof c p rd ra s
  | .feq c p rd ra rb => Sys2Proof.Machine.execFeq c p rd ra rb s
  | .flt c p rd ra rb => Sys2Proof.Machine.execFlt c p rd ra rb s
  | .fle c p rd ra rb => Sys2Proof.Machine.execFle c p rd ra rb s
  | .fmvg c p rd ra => Sys2Proof.Machine.execFmvg c p rd ra s
  | .fmvf c p rd ra => Sys2Proof.Machine.execFmvf c p rd ra s
  | .frfsr c rd => Sys2Proof.Machine.execFrfsr c rd s
  | .fwfsr c ra => Sys2Proof.Machine.execFwfsr c ra s
  | .fmadd c p rd ra rb rc => Sys2Proof.Machine.execFmadd c p rd ra rb rc s
  | .fmsub c p rd ra rb rc => Sys2Proof.Machine.execFmsub c p rd ra rb rc s
  | .fnmadd c p rd ra rb rc => Sys2Proof.Machine.execFnmadd c p rd ra rb rc s
  | .fnmsub c p rd ra rb rc => Sys2Proof.Machine.execFnmsub c p rd ra rb rc s
  | .slc c n => Sys2Proof.Machine.execSlc c n s
  | .trap c n => Sys2Proof.Machine.execTrap c n s
  | .eret c => Sys2Proof.Machine.execEret c s
  | .wait c => Sys2Proof.Machine.execWait c s
  | .waitEnd c => Sys2Proof.Machine.execWaitEnd c s
  | .mfs c rd n => Sys2Proof.Machine.execMfs c rd n s
  | .mts c n ra => Sys2Proof.Machine.execMts c n ra s
  | .brk c n => Sys2Proof.Machine.execBrk c n s
  | .laneNop g hd bad => Sys2Proof.Machine.execLaneNop g hd bad s
  | .laneEnd g => Sys2Proof.Machine.execLaneEnd g s
  | .laneExit g c => Sys2Proof.Machine.execLaneExit g c s
  | .laneIf g c => Sys2Proof.Machine.execLaneIf g c s
  | .laneElse g c => Sys2Proof.Machine.execLaneElse g c s
  | .laneEndif g => Sys2Proof.Machine.execLaneEndif g s
  | .laneLoop g => Sys2Proof.Machine.execLaneLoop g s
  | .laneBrk g c => Sys2Proof.Machine.execLaneBrk g c s
  | .laneCont g c => Sys2Proof.Machine.execLaneCont g c s
  | .laneEndl g => Sys2Proof.Machine.execLaneEndl g s
  | .laneJmp g c outside => Sys2Proof.Machine.execLaneJmp g c outside s
  | .laneBany g c outside => Sys2Proof.Machine.execLaneBany g c outside s
  | .laneBall g c outside => Sys2Proof.Machine.execLaneBall g c outside s
  | .laneBnone g c outside => Sys2Proof.Machine.execLaneBnone g c outside s
  | .laneIadd g hd la lb => Sys2Proof.Machine.execLaneIadd g hd la lb s
  | .laneIsub g hd la lb => Sys2Proof.Machine.execLaneIsub g hd la lb s
  | .laneImul g hd la lb => Sys2Proof.Machine.execLaneImul g hd la lb s
  | .laneImulh g hd t la lb => Sys2Proof.Machine.execLaneImulh g hd t la lb s
  | .laneImad g hd la lb lc => Sys2Proof.Machine.execLaneImad g hd la lb lc s
  | .laneAnd g hd la lb => Sys2Proof.Machine.execLaneAnd g hd la lb s
  | .laneOr g hd la lb => Sys2Proof.Machine.execLaneOr g hd la lb s
  | .laneXor g hd la lb => Sys2Proof.Machine.execLaneXor g hd la lb s
  | .laneShl g hd la lb => Sys2Proof.Machine.execLaneShl g hd la lb s
  | .laneShr g hd la lb => Sys2Proof.Machine.execLaneShr g hd la lb s
  | .laneSar g hd la lb => Sys2Proof.Machine.execLaneSar g hd la lb s
  | .laneImin g hd la lb => Sys2Proof.Machine.execLaneImin g hd la lb s
  | .laneImax g hd la lb => Sys2Proof.Machine.execLaneImax g hd la lb s
  | .laneIcmp g hd kd t la lb => Sys2Proof.Machine.execLaneIcmp g hd kd t la lb s
  | .laneSel g hd kd la lb => Sys2Proof.Machine.execLaneSel g hd kd la lb s
  | .lanePopc g hd la => Sys2Proof.Machine.execLanePopc g hd la s
  | .laneFadd g hd t la lb => Sys2Proof.Machine.execLaneFadd g hd t la lb s
  | .laneFsub g hd t la lb => Sys2Proof.Machine.execLaneFsub g hd t la lb s
  | .laneFmul g hd t la lb => Sys2Proof.Machine.execLaneFmul g hd t la lb s
  | .laneFfma g hd t la lb lc => Sys2Proof.Machine.execLaneFfma g hd t la lb lc s
  | .laneFmin g hd t la lb => Sys2Proof.Machine.execLaneFmin g hd t la lb s
  | .laneFmax g hd t la lb => Sys2Proof.Machine.execLaneFmax g hd t la lb s
  | .laneFcmp g hd kd t la lb => Sys2Proof.Machine.execLaneFcmp g hd kd t la lb s
  | .laneFrcp g hd t la => Sys2Proof.Machine.execLaneFrcp g hd t la s
  | .laneFrsq g hd t la => Sys2Proof.Machine.execLaneFrsq g hd t la s
  | .laneFtoi g hd la => Sys2Proof.Machine.execLaneFtoi g hd la s
  | .laneItof g hd la => Sys2Proof.Machine.execLaneItof g hd la s
  | .laneMov g hd la => Sys2Proof.Machine.execLaneMov g hd la s
  | .laneShfl g hd la lb => Sys2Proof.Machine.execLaneShfl g hd la lb s
  | .laneShflx g hd la lb => Sys2Proof.Machine.execLaneShflx g hd la lb s
  | .laneVote g hd kd => Sys2Proof.Machine.execLaneVote g hd kd s
  | .laneSval g hd imm => Sys2Proof.Machine.execLaneSval g hd imm s
  | .laneKop g hd kd t ka kb => Sys2Proof.Machine.execLaneKop g hd kd t ka kb s
  | .laneLd g hd sz spc la off u => Sys2Proof.Machine.execLaneLd g hd sz spc la off u s
  | .laneSt g hd sz spc la ls off => Sys2Proof.Machine.execLaneSt g hd sz spc la ls off s
  | .laneAtom g hd spc aop la ls off => Sys2Proof.Machine.execLaneAtom g hd spc aop la ls off s
  | .laneHaddr g hd la off => Sys2Proof.Machine.execLaneHaddr g hd la off s
  | .laneLfence g hd aop => Sys2Proof.Machine.execLaneLfence g hd aop s
  | .laneImmediateForm g hd op kd t la imm => Sys2Proof.Machine.execLaneImmediateForm g hd op kd t la imm s
  | .laneShfli g hd la imm => Sys2Proof.Machine.execLaneShfli g hd la imm s
  | .laneShflxi g hd la imm => Sys2Proof.Machine.execLaneShflxi g hd la imm s
  | .scrubRead found => Sys2Proof.Machine.execScrubRead found s
  | .sramScrubRead found => Sys2Proof.Machine.execSramScrubRead found s
  | .appendAddr acc n v => Sys2Proof.Machine.execAppendAddr acc n v s
  | .appendHdl acc n v => Sys2Proof.Machine.execAppendHdl acc n v s
  | .appendCommit => Sys2Proof.Machine.execAppendCommit s
  | .mrcRelease acc n v => Sys2Proof.Machine.execMrcRelease acc n v s
  | .logStreamEnable acc n v => Sys2Proof.Machine.execLogStreamEnable acc n v s
  | .recoveryScanDone n => Sys2Proof.Machine.execRecoveryScanDone n s
  | .sramInitDone => Sys2Proof.Machine.execSramInitDone s
  | .ownershipGrant line arrivals => Sys2Proof.Machine.execOwnershipGrant line arrivals s
  | .l2Eviction line bad => Sys2Proof.Machine.execL2Eviction line bad s
  | .ddrRefresh => Sys2Proof.Machine.execDdrRefresh s
  | .mr4Read v above => Sys2Proof.Machine.execMr4Read v above s
  | .clusterModeWrite acc c v => Sys2Proof.Machine.execClusterModeWrite acc c v s
  | .lacPush acc q v => Sys2Proof.Machine.execLacPush acc q v s
  | .dispatch q => Sys2Proof.Machine.execDispatch q s
  | .gangStart => Sys2Proof.Machine.execGangStart s
  | .islGo acc c v => Sys2Proof.Machine.execIslGo acc c v s
  | .islDone c => Sys2Proof.Machine.execIslDone c s
  | .kernelCompletion q => Sys2Proof.Machine.execKernelCompletion q s
  | .kernelLimit q => Sys2Proof.Machine.execKernelLimit q s
  | .resume acc q => Sys2Proof.Machine.execResume acc q s
  | .flush acc q => Sys2Proof.Machine.execFlush acc q s
  | .abort acc q => Sys2Proof.Machine.execAbort acc q s
  | .avsThrottle margin => Sys2Proof.Machine.execAvsThrottle margin s
  | .avsUnthrottle margin => Sys2Proof.Machine.execAvsUnthrottle margin s
  | .avsStep margin => Sys2Proof.Machine.execAvsStep margin s
  | .alloc acc p => Sys2Proof.Machine.execAlloc acc p s
  | .free acc p v => Sys2Proof.Machine.execFree acc p v s
  | .ref acc p v => Sys2Proof.Machine.execRef acc p v s
  | .give acc p t v => Sys2Proof.Machine.execGive acc p t v s
  | .cacheRefill p => Sys2Proof.Machine.execCacheRefill p s
  | .cacheSpill p => Sys2Proof.Machine.execCacheSpill p s
  | .poolInitDone p => Sys2Proof.Machine.execPoolInitDone p s
  | .regularTrigger a => Sys2Proof.Machine.execRegularTrigger a s
  | .injectedTrigger a => Sys2Proof.Machine.execInjectedTrigger a s
  | .swtrig acc a v => Sys2Proof.Machine.execSwtrig acc a v s
  | .swtrigAll acc v => Sys2Proof.Machine.execSwtrigAll acc v s
  | .triggerDelayExpiry a inj => Sys2Proof.Machine.execTriggerDelayExpiry a inj s
  | .startupEnd a => Sys2Proof.Machine.execStartupEnd a s
  | .conversionEnd a code sat tb => Sys2Proof.Machine.execConversionEnd a code sat tb s
  | .adcFifoPop acc a => Sys2Proof.Machine.execAdcFifoPop acc a s
  | .streamBufferClose a => Sys2Proof.Machine.execStreamBufferClose a s
  | .strmDonePop acc a => Sys2Proof.Machine.execStrmDonePop acc a s
  | .iepeMonitorReading n bias => Sys2Proof.Machine.execIepeMonitorReading n bias s
  | .iepeSettled n => Sys2Proof.Machine.execIepeSettled n s
  | .tedsPresence n seen => Sys2Proof.Machine.execTedsPresence n seen s
  | .tedsGo acc v => Sys2Proof.Machine.execTedsGo acc v s
  | .tedsDone seen rom data => Sys2Proof.Machine.execTedsDone seen rom data s
  | .calLoad acc v => Sys2Proof.Machine.execCalLoad acc v s
  | .calStaged => Sys2Proof.Machine.execCalStaged s
  | .bst1CurrentLimit ma limits => Sys2Proof.Machine.execBst1CurrentLimit ma limits s
  | .drvUpdate n gap => Sys2Proof.Machine.execDrvUpdate n gap s
  | .sampleFetch n => Sys2Proof.Machine.execSampleFetch n s
  | .drvPush acc n v => Sys2Proof.Machine.execDrvPush acc n v s
  | .drvDirect acc n v => Sys2Proof.Machine.execDrvDirect acc n v s
  | .clCode acc n v => Sys2Proof.Machine.execClCode acc n v s
  | .clMonitorReading n hr irb => Sys2Proof.Machine.execClMonitorReading n hr irb s
  | .faultRetryWindow n => Sys2Proof.Machine.execFaultRetryWindow n s
  | .bst2Step ma limits => Sys2Proof.Machine.execBst2Step ma limits s
  | .gtCompareMatch n => Sys2Proof.Machine.execGtCompareMatch n s
  | .gtWrap n => Sys2Proof.Machine.execGtWrap n s
  | .gtReload n => Sys2Proof.Machine.execGtReload n s
  | .countWrite acc t v => Sys2Proof.Machine.execCountWrite acc t v s
  | .gtCapture n falling => Sys2Proof.Machine.execGtCapture n s falling
  | .capRead acc n => Sys2Proof.Machine.execCapRead acc n s
  | .ptPeriodStart n => Sys2Proof.Machine.execPtPeriodStart n s
  | .ptDutyMatch n => Sys2Proof.Machine.execPtDutyMatch n s
  | .deadTimeExpiry n o => Sys2Proof.Machine.execDeadTimeExpiry n o s
  | .ptEvcmpMatch n => Sys2Proof.Machine.execPtEvcmpMatch n s
  | .runWrite acc t v => Sys2Proof.Machine.execRunWrite acc t v s
  | .tmrStart acc v => Sys2Proof.Machine.execTmrStart acc v s
  | .tmrStop acc v => Sys2Proof.Machine.execTmrStop acc v s
  | .tbsFire => Sys2Proof.Machine.execTbsFire s
  | .tbRead acc => Sys2Proof.Machine.execTbRead acc s
  | .tbSet acc v => Sys2Proof.Machine.execTbSet acc v s
  | .tbAdj acc v => Sys2Proof.Machine.execTbAdj acc v s
  | .tbAlarm lsx irc => Sys2Proof.Machine.execTbAlarm s lsx irc
  | .uartTxPush acc u v => Sys2Proof.Machine.execUartTxPush acc u v s
  | .uartRxPop acc u => Sys2Proof.Machine.execUartRxPop acc u s
  | .uartCharacterStart u ctsLow => Sys2Proof.Machine.execUartCharacterStart u ctsLow s
  | .uartCharacterSent u => Sys2Proof.Machine.execUartCharacterSent u s
  | .uartStartDetect u startSample => Sys2Proof.Machine.execUartStartDetect u startSample s
  | .uartFrameReceived u data par stop => Sys2Proof.Machine.execUartFrameReceived u data par stop s
  | .rxto u => Sys2Proof.Machine.execRxto u s
  | .uartCfgWrite acc u baud v => Sys2Proof.Machine.execUartCfgWrite acc u baud v s
  | .rxflush acc u => Sys2Proof.Machine.execRxflush acc u s
  | .txflush acc u => Sys2Proof.Machine.execTxflush acc u s
  | .uartBreak acc u on => Sys2Proof.Machine.execUartBreak acc u on s
  | .txreq acc n v => Sys2Proof.Machine.execTxreq acc n v s
  | .txcancel acc n v => Sys2Proof.Machine.execTxcancel acc n v s
  | .canFrameSent n r tb => Sys2Proof.Machine.execCanFrameSent n r tb s
  | .canFrameReceived n id ctrl data tb err sof eight => Sys2Proof.Machine.execCanFrameReceived n id ctrl data tb err s sof eight
  | .rxfPop acc n => Sys2Proof.Machine.execRxfPop acc n s
  | .recover acc n => Sys2Proof.Machine.execRecover acc n s
  | .busOffRecovery n once => Sys2Proof.Machine.execBusOffRecovery n s once
  | .spiTxPush acc n v => Sys2Proof.Machine.execSpiTxPush acc n v s
  | .spiRxPop acc n => Sys2Proof.Machine.execSpiRxPop acc n s
  | .spiFrameStart n => Sys2Proof.Machine.execSpiFrameStart n s
  | .spiFrameEnd n v => Sys2Proof.Machine.execSpiFrameEnd n v s
  | .i2cCmd acc n v => Sys2Proof.Machine.execI2cCmd acc n v s
  | .i2cByteDone n nack arb b => Sys2Proof.Machine.execI2cByteDone n nack arb b s
  | .i2cRxPop acc n => Sys2Proof.Machine.execI2cRxPop acc n s
  | .clear acc n => Sys2Proof.Machine.execClear acc n s
  | .sclStuck n => Sys2Proof.Machine.execSclStuck n s
  | .i2cTargetAddressed n written reads adr => Sys2Proof.Machine.execI2cTargetAddressed n written reads s adr
  | .icmd acc v => Sys2Proof.Machine.execIcmd acc v s
  | .pollRead status => Sys2Proof.Machine.execPollRead status s
  | .pollTmo => Sys2Proof.Machine.execPollTmo s
  | .icmdDone data cells => Sys2Proof.Machine.execIcmdDone data cells s
  | .windowRead l => Sys2Proof.Machine.execWindowRead l s
  | .lfEnable acc n v => Sys2Proof.Machine.execLfEnable acc n v s
  | .lfPoll n r1 r4 r5 r9 r10 => Sys2Proof.Machine.execLfPoll n r1 r4 r5 r9 r10 s
  | .mdioCmd acc n v => Sys2Proof.Machine.execMdioCmd acc n v s
  | .mdioDone n data => Sys2Proof.Machine.execMdioDone n data s
  | .txqPush acc n q v => Sys2Proof.Machine.execTxqPush acc n q v s
  | .txFrameStart n w6 w7 => Sys2Proof.Machine.execTxFrameStart n w6 w7 s
  | .txFrameDone n ns other ok => Sys2Proof.Machine.execTxFrameDone n ns other ok s
  | .rxFrame n bs fcsOk => Sys2Proof.Machine.execRxFrame n bs fcsOk s
  | .fuMiss n => Sys2Proof.Machine.execFuMiss n s
  | .rxqPop acc n r => Sys2Proof.Machine.execRxqPop acc n r s
  | .txtsPop acc n => Sys2Proof.Machine.execTxtsPop acc n s
  | .ethCfgWrite acc n maxlen v => Sys2Proof.Machine.execEthCfgWrite acc n maxlen v s
  | .scanStart codes pins wake late lsx irc => Sys2Proof.Machine.execScanStart codes pins wake late lsx irc s
  | .scanStall => Sys2Proof.Machine.execScanStall s
  | .bqClr acc b => Sys2Proof.Machine.execBqClr acc b s
  | .trip acc => Sys2Proof.Machine.execTrip acc s
  | .release acc below => Sys2Proof.Machine.execRelease acc s below
  | .wdpKick acc v elapsed => Sys2Proof.Machine.execWdpKick acc v elapsed s
  | .wdpExpiry => Sys2Proof.Machine.execWdpExpiry s
  | .polCoreStart acc => Sys2Proof.Machine.execPolCoreStart acc s
  | .polCoreReset acc => Sys2Proof.Machine.execPolCoreReset acc s
  | .islandLineEntry => Sys2Proof.Machine.execIslandLineEntry s
  | .handTake acc => Sys2Proof.Machine.execHandTake acc s
  | .handGive acc => Sys2Proof.Machine.execHandGive acc s
  | .handReqSet => Sys2Proof.Machine.execHandReqSet s
  | .handReqClear acc => Sys2Proof.Machine.execHandReqClear acc s
  | .wakeInEdge falling => Sys2Proof.Machine.execWakeInEdge falling s
  | .pgpioEdge k level => Sys2Proof.Machine.execPgpioEdge k level s
  | .logPush => Sys2Proof.Machine.execLogPush s
  | .logDrain => Sys2Proof.Machine.execLogDrain s
  | .drainRetry => Sys2Proof.Machine.execDrainRetry s
  | .mainDb => Sys2Proof.Machine.execMainDb s
  | .polDb acc => Sys2Proof.Machine.execPolDb acc s
  | .retrain acc => Sys2Proof.Machine.execRetrain acc s
  | .trainingRestart => Sys2Proof.Machine.execTrainingRestart s
  | .laneAligned lane => Sys2Proof.Machine.execLaneAligned lane s
  | .alignTimeout => Sys2Proof.Machine.execAlignTimeout s
  | .capabilityFrame verMin verMax ceil lanes pref serial roleHeld bound => Sys2Proof.Machine.execCapabilityFrame verMin verMax ceil lanes pref serial roleHeld s bound
  | .prbsCheckEnd err => Sys2Proof.Machine.execPrbsCheckEnd err s
  | .linkFault => Sys2Proof.Machine.execLinkFault s
  | .heartbeatSend => Sys2Proof.Machine.execHeartbeatSend s
  | .heartbeat ok txTb echoTx echoRx flags => Sys2Proof.Machine.execHeartbeat ok txTb echoTx echoRx flags s
  | .hbMiss low => Sys2Proof.Machine.execHbMiss low s
  | .track ok n code => Sys2Proof.Machine.execTrack ok n code s
  | .handoverReq ok tH => Sys2Proof.Machine.execHandoverReq ok tH s
  | .handoverAck ok tH => Sys2Proof.Machine.execHandoverAck ok tH s
  | .handoverNak ok tH => Sys2Proof.Machine.execHandoverNak ok tH s
  | .mirrorNak ok w => Sys2Proof.Machine.execMirrorNak ok w s
  | .mirror ok w last gen ofs wcrc data => Sys2Proof.Machine.execMirror ok w last gen ofs wcrc data s
  | .message ok no ofs total data => Sys2Proof.Machine.execMessage ok no ofs total data s
  | .claim acc => Sys2Proof.Machine.execClaim acc s
  | .claimGuardExpiry => Sys2Proof.Machine.execClaimGuardExpiry s
  | .claimEnd win slots => Sys2Proof.Machine.execClaimEnd win s slots
  | .loneTmo low => Sys2Proof.Machine.execLoneTmo low s
  | .failover low => Sys2Proof.Machine.execFailover low s
  | .roleFault => Sys2Proof.Machine.execRoleFault s
  | .driveOwnRestore => Sys2Proof.Machine.execDriveOwnRestore s
  | .handover acc => Sys2Proof.Machine.execHandover acc s
  | .handoverAbort => Sys2Proof.Machine.execHandoverAbort s
  | .handoverRelease => Sys2Proof.Machine.execHandoverRelease s
  | .handoverTake => Sys2Proof.Machine.execHandoverTake s
  | .handoverReclaim => Sys2Proof.Machine.execHandoverReclaim s
  | .test acc => Sys2Proof.Machine.execTest acc s
  | .ready acc => Sys2Proof.Machine.execReady acc s
  | .rebind acc => Sys2Proof.Machine.execRebind acc s
  | .pub acc w => Sys2Proof.Machine.execPub acc w s
  | .publishDone w => Sys2Proof.Machine.execPublishDone w s
  | .lock acc w => Sys2Proof.Machine.execLock acc w s
  | .unlock acc w => Sys2Proof.Machine.execUnlock acc w s
  | .msgPush acc v => Sys2Proof.Machine.execMsgPush acc v s
  | .msgPop acc => Sys2Proof.Machine.execMsgPop acc s
  | .armRoll acc => Sys2Proof.Machine.execArmRoll acc s
  | .armDrain acc => Sys2Proof.Machine.execArmDrain acc s
  | .disarm acc => Sys2Proof.Machine.execDisarm acc s
  | .discard acc => Sys2Proof.Machine.execDiscard acc s
  | .validationEnd => Sys2Proof.Machine.execValidationEnd s
  | .domainSwitch => Sys2Proof.Machine.execDomainSwitch s
  | .drainSwitch us => Sys2Proof.Machine.execDrainSwitch us s
  | .drainTimeout => Sys2Proof.Machine.execDrainTimeout s
  | .fsdTransfer inFlight req wdata => Sys2Proof.Machine.execFsdTransfer inFlight req wdata s
  | .fsdLinkReset => Sys2Proof.Machine.execFsdLinkReset s
  | .jtagInstruction code scans => Sys2Proof.Machine.execJtagInstruction code s scans
  | .dbgacc inFlight dr => Sys2Proof.Machine.execDbgacc inFlight dr s
  | .testLogicReset => Sys2Proof.Machine.execTestLogicReset s
  | .attach acc port => Sys2Proof.Machine.execAttach acc s port
  | .detach acc => Sys2Proof.Machine.execDetach acc s
  | .debugReset acc same => Sys2Proof.Machine.execDebugReset acc same s
  | .debugWake acc => Sys2Proof.Machine.execDebugWake acc s
  | .halt acc c => Sys2Proof.Machine.execHalt acc c s
  | .run acc c => Sys2Proof.Machine.execRun acc c s
  | .step acc c => Sys2Proof.Machine.execStep acc c s
  | .regdata acc c write v => Sys2Proof.Machine.execRegdata acc c write v s
  | .laneHalt acc q => Sys2Proof.Machine.execLaneHalt acc q s
  | .laneRun acc q => Sys2Proof.Machine.execLaneRun acc q s
  | .laneStep acc q => Sys2Proof.Machine.execLaneStep acc q s
  | .patchUnitWrite acc u w v => Sys2Proof.Machine.execPatchUnitWrite acc u w v s
  | .bistCmd acc t => Sys2Proof.Machine.execBistCmd acc t s
  | .bistDone misr bad spare found => Sys2Proof.Machine.execBistDone misr bad spare found s
  | .bistRel acc c => Sys2Proof.Machine.execBistRel acc c s
  | .gpioEdge k level => Sys2Proof.Machine.execGpioEdge k level s
  | .polderBrownOutRecovery => Sys2Proof.Machine.execPolderBrownOutRecovery s
  | .timerTick t => Sys2Proof.Machine.execTimerTick t s
  | .watchpointWrite acc c wp reg v => Sys2Proof.Machine.execWatchpointWrite acc c wp reg v s
  | .canCfgWrite acc n o v => Sys2Proof.Machine.execCanCfgWrite acc n o v s
  | .illegal c => Sys2Proof.Machine.execIllegal c s
  | .illegalOp g => Sys2Proof.Machine.execIllegalOp g s

end Sys2Proof.Machine
end

