-- ==== Sys2Proof/Machine/Tick.lean ====
section
/-! DEFINITION. One edge of PER_CLK with no command waiting (R88, R311). -/

namespace Sys2Proof.Machine

/-- An edge of PER_CLK for TB: it advances, and an alarm, an epoch boundary and a timer start that fall due at the edge take place
(R21, R88, R325, R328). -/
def Hw.tbTick (h : Hw) : Hw := (h.tbEdge.tbDue).epochCatch

/-- With nothing commanded, one PER_CLK edge passes (log entry 1): TB advances while it runs, so that every stamp of this edge is its TB
and every capture takes the counts held before it (R317); the timers that counted have their edge, and the watchdogs count. Where the main
domain is not clocked one IRC cycle passes instead, for the retention counter and WDP. Nothing else changes. -/
def tick (s : State) : Out := s.run (fun h =>
  let counts := h.tmrCounts
  let h := h.when (h.clocked && h.clk.tbRun) Hw.tbTick
  let h := if h.clocked then (h.tmrEdges counts).wdEdges else h.retainIrc.almRetained
  h.wdpEdge)

end Sys2Proof.Machine
end

