-- ==== Sys2Proof/Machine/Words.lean ====
section
/-! DEFINITION. What an instruction word does (spec/07_instruction_sets.md R164, R176): the meaning of the instruction that the
decoder reads from it, or the exception and the lane fault of a word that is none. -/

namespace Sys2Proof.Machine

/-- Core `c` executes the word `w`: a word that is no instruction raises ILLEGAL (R164). -/
def coreWord (c : CoreId) (w : BitVec 32) (s : State) : Out :=
  match decodeCore c w with
  | some i => exec i s
  | none => execIllegal c s

/-- Group `g` executes the word `w`: a word that is no instruction faults with ILLEGAL_OP (R176). `outside` says that a branch leaves
its own IF or LOOP (R185). -/
def laneWord (g : Fin 16) (outside : Bool) (w : BitVec 64) (s : State) : Out :=
  match decodeLane g outside w with
  | some i => exec i s
  | none => execIllegalOp g s

end Sys2Proof.Machine
end

