-- ==== Sys2Proof/Safety.lean ====
section
/-! DEFINITION. What counts as a safe run, and the conditions and frames in whose terms the statements are made. -/

namespace Sys2Proof.Machine

/-- Memory is in canonical form. -/
def Memory.wf (m : List Host.Cell) : Bool := mwf (fun _ => 0) m

/-- Every sparse table of the part is in canonical form: registers, memory and the NVM. -/
def Hw.tablesOk (h : Hw) : Bool := mwf resetWord h.regs && Memory.wf h.mem && mwf (fun _ => 0xFF) h.nvm

/-- A step goes on. -/
def Safe (s : State) : Prop := ∃ t, step s = .next t

/-- Command `i` completes at `s`: its answer is a next state, with the queue as it was and the part as `h`, its tables in canonical
form. What `h` does not change, the command leaves unchanged. -/
def Becomes (i : Instr) (s : State) (h : Hw) : Prop := exec i s = .next { s with hw := h.canon }

/-! ### Core instructions -/

/-- The part after the fetch of core `c`'s next instruction. -/
def Hw.fetched (h : Hw) (c : CoreId) : Hw := (h.fetch c).1

/-- Core `c` executes its next instruction: it runs, its fetch succeeds, no watchpoint is armed for it and no debugger's step or halt ends with
it. -/
def Hw.Ready (h : Hw) (c : CoreId) : Prop :=
  h.canRun c = true ∧ (h.fetch c).2 = none ∧ (∀ i, i < 8 → (h.fetched c).on (DBG_C_WP_CTL.EN (coreNum c) i) = false) ∧ (h.core c).ends = false

/-- The part as an instruction's effect meets it: after the fetch, with the first instruction after an ERET marked as such no longer
(R148). `ldm` marks LDM and STM, which keep EPROG.VALID. -/
def Hw.issued (h : Hw) (c : CoreId) (ldm : Bool) : Hw := (h.fetched c).settle c (h.core c).afterEret false ldm

/-- The core state as a completed instruction leaves it, but for the instruction's own effect: the next instruction is at `pc`, and a
watchpoint that the core resumed on may match again (R449). -/
def Core.movedTo (x : Core) (pc : Word) : Core := { x with pc := pc, wpExempt := false }

/-- Core `c` goes on at `pc`. -/
def Hw.goes (h : Hw) (c : CoreId) (pc : Word) : Hw := h.setCore c ((h.core c).movedTo pc)

/-- The debugger catches no exception of core `c` (R446). -/
def Hw.Uncaught (h : Hw) (c : CoreId) : Prop := h.get (DBG_C_CATCH.VEC (coreNum c)) = 0

/-- Core `c` as the entry to a vector or a gate leaves it (R143): PMODE, PIE and PTID take MODE, IE and TID; MODE is 1, IE 0, EXL 1 and
TID 0; ECAUSE, EADDR and EPC are written and the PC is at the slot or the handler. -/
def Core.entered (x : Core) (cause eaddr epc pc : Word) : Core :=
  { x with
    sstat := mkSstat true false true x.fpe x.mode x.ie x.tid, tid := 0, ecause := cause, eaddr := eaddr, epc := epc, pc := pc
    resv := none, inDF := false, afterEret := false, run := .running, wpExempt := false }

/-- Core `c` after a second exception while EXL is 1 (R145): ECAUSE alone changes and the core is at DOUBLE_FAULT's slot; inside that
handler it is locked up. -/
def Core.doubled (x : Core) (cause : Word) : Core :=
  if x.inDF then { x with run := .lockup, wpExempt := false }
  else { x with ecause := cause, pc := x.vbase + 32, inDF := true, resv := none, afterEret := false, wpExempt := false }

/-- Core `c` takes an exception with this vector, DETAIL, AUX and ARG at its instruction (R143, R145). -/
def Hw.takes (h : Hw) (c : CoreId) (vec detail aux arg : Nat) (write : Bool) (addr : Nat) : Hw :=
  let x := h.core c
  h.setCore c (if x.exl then x.doubled (causeWord vec detail 0 false true 0)
    else x.entered (causeWord vec detail aux write false arg) (BitVec.ofNat 32 addr) x.pc (x.vbase + BitVec.ofNat 32 (16 * vec)))

/-- Core `c` may load `n` bytes at `a` of normal memory: aligned, granted by the MPU, mapped, and free of errors (R142, R158, R166).
`align` is the alignment that the instruction asks for, its width where nothing else is said. -/
structure Hw.CanLoad (h : Hw) (c : CoreId) (a n : Nat) (align : Nat := n) : Prop where
  aligned : a % align = 0
  granted : h.coreMpu c .r a n = true
  bridge : h.bridgeShut c a = false
  normal : (h.region a).device = false
  mapped : h.coreMapped c a n false = true
  answers : h.windowWaits a = false
  clean : ((h.readLines c a n).eccRead a n).2 = .good

/-- The part after that load: lines moved between caches and correctable errors corrected. -/
def Hw.loaded (h : Hw) (c : CoreId) (a n : Nat) : Hw := ((h.readLines c a n).eccRead a n).1

/-- Core `c` may store `n` bytes at `a` of normal memory: as for a load, on a line that no directory error poisoned (R210) and that no
other agent waits for (R204). -/
structure Hw.CanStore (h : Hw) (c : CoreId) (a n : Nat) (align : Nat := n) : Prop where
  aligned : a % align = 0
  granted : h.coreMpu c .w a n = true
  bridge : h.bridgeShut c a = false
  normal : (h.region a).device = false
  mapped : h.coreMapped c a n true = true
  clean : h.linePoisoned a n = false
  turn : h.storeWaits c a n = false

/-- Core `c` may run an atomic operation at the Hub on the word at `a`; `write` for one that may store (R168, R169). -/
structure Hw.CanAtomic (h : Hw) (c : CoreId) (a : Nat) (write : Bool) : Prop where
  aligned : a % 4 = 0
  readable : h.coreMpu c .r a 4 = true
  writable : write = true → h.coreMpu c .w a 4 = true
  place : h.hubOp c a = true
  mapped : h.coreMapped c a 4 write = true
  clean : ((if (h.region a).cached then h.hubRecall (lineOf a) else h).eccRead a 4).2 = .good

/-- The part after the Hub has read the word: an owner's copy recalled, correctable errors corrected. -/
def Hw.atomicRead (h : Hw) (a : Nat) : Hw := ((if (h.region a).cached then h.hubRecall (lineOf a) else h).eccRead a 4).1

/-- Group `g` executes its next instruction (R177, R186): it runs a kernel, its PC is within its store part, the word there has no
error and no debugger steps it. -/
def Hw.LaneReady (h : Hw) (g : Nat) : Prop :=
  h.laneReady g = true ∧ (h.grp g).pc < modePart (h.lcMode (g / 4)) ∧ h.istoreBad.contains (h.istAddr g (h.grp g).pc) = false ∧
  (h.grp g).stepping = false

/-- Group `g` goes on at `pc`. -/
def Hw.laneAt (h : Hw) (g pc : Nat) : Hw := h.setGrp g { h.grp g with pc := pc }

/-- The participating lanes of group `g` take these values in Ld. -/
def Hw.lanesPut (h : Hw) (g : Nat) (hd : LaneHdr) (v : Nat → Word) : Hw := (h.taking g hd).foldl (fun k i => k.setLreg g i hd.ld (v i)) h

/-- The participating lanes of group `g` take these values in predicate `kd`. -/
def Hw.lanesFlag (h : Hw) (g : Nat) (hd : LaneHdr) (kd : Nat) (b : Nat → Bool) : Hw := (h.taking g hd).foldl (fun k i => k.setKreg g kd i (b i)) h

/-- Command `i` completes at `s` with the queue as it was and the part as `P` says. -/
def Completes (i : Instr) (s : State) (P : Hw → Prop) : Prop := ∃ h, exec i s = .next { s with hw := h } ∧ P h

/-- Memory of `t` is memory of `h` with the bytes `bs` at `a`. -/
def Stored (h t : Hw) (a : Nat) (bs : List Byte) : Prop :=
  ∀ b, t.byte b = if a ≤ b ∧ b < a + bs.length then bs.getD (b - a) 0 else h.byte b

/-- The fields of `l` read the values paired with them. -/
def Hw.reads (t : Hw) (l : List (Fld × Nat)) : Prop := ∀ p ∈ l, t.get p.1 = p.2

/-- No word of line `n` outside MRAM has an uncorrectable copy in the L2: what a writeback leaves of such a word is open (log
entry 130). -/
def Hw.lineSound (h : Hw) (n : Nat) : Prop := ∀ e ∈ h.l2ups, e.1 / 8 = n → e.2 = .l2Bad → h.region (e.1 * 8) = .mram

/-- Every byte of memory reads in `t` as it does in `h`. -/
def SameMemory (h t : Hw) : Prop := ∀ b, t.byte b = h.byte b

end Sys2Proof.Machine
end

