-- ==== Sys2Proof/Certificates/Slice0/Obligations.lean ====
section
/-! DEFINITION. The statements for the provers. -/

open Sys2Proof Sys2Proof.Machine

/-- R137: G0 reads 0 and ignores writes, G2 is the bank of the mode, and a write changes one register alone. -/
def Obligations.RegisterFileReadsWhatWasWritten : Prop :=
  ∀ (x : Core) (i : Fin 32) (v : Word),
    (x.setGr i v).gr i = (if i = 0 then 0 else v) ∧
    (∀ j, j ≠ i → (x.setGr i v).gr j = x.gr j) ∧
    x.gr 2 = (if x.mode then x.ssp else x.usp) ∧
    x.setGr i v = { x with
      g := if i = 0 ∨ i = 2 then x.g else x.g.set i v
      usp := if i = 2 ∧ x.mode = false then v else x.usp
      ssp := if i = 2 ∧ x.mode = true then v else x.ssp }

/-- R148, R206: what the fetch before an instruction's effect leaves. -/
def Obligations.FetchLeavesRegistersAndMemory : Prop :=
  ∀ (h : Hw) (c : CoreId) (ldm : Bool), (h.fetch c).2 = none →
    (∃ l, (h.issued c ldm).core c = { h.core c with
      icache := l, afterEret := false
      eprog := if (h.core c).afterEret && !ldm then (h.core c).eprog &&& 0x7FFFFFFF else (h.core c).eprog }) ∧
    (∀ d, d ≠ c → (h.issued c ldm).core d = h.core d) ∧ SameMemory h (h.issued c ldm)

/-- R165, R167 and table "Core ALU functions". -/
def Obligations.RegisterArithmeticWritesItsResult : Prop :=
  ∀ (c : CoreId) (rd ra rb : Fin 32) (s : State), s.hw.Ready c →
    let h := s.hw.issued c false
    let a := h.gr c ra
    let b := h.gr c rb
    ∀ p ∈ [
      (Instr.add c rd ra rb, a + b), (.sub c rd ra rb, a - b), (.and c rd ra rb, a &&& b), (.or c rd ra rb, a ||| b),
      (.xor c rd ra rb, a ^^^ b),
      (.slt c rd ra rb, if a.toInt < b.toInt then 1 else 0), (.sltu c rd ra rb, if a.toNat < b.toNat then 1 else 0),
      (.sll c rd ra rb, a <<< (b.toNat % 32)), (.srl c rd ra rb, a >>> (b.toNat % 32)),
      (.sra c rd ra rb, BitVec.ofInt 32 (a.toInt / 2 ^ (b.toNat % 32))),
      (.mul c rd ra rb, BitVec.ofNat 32 (a.toNat * b.toNat)),
      (.mulh c rd ra rb, BitVec.ofInt 32 (a.toInt * b.toInt / 2 ^ 32)),
      (.mulhu c rd ra rb, BitVec.ofNat 32 (a.toNat * b.toNat / 2 ^ 32)),
      (.div c rd ra rb, if b = 0 then 0xFFFFFFFF else if a = 0x80000000 ∧ b = 0xFFFFFFFF then 0x80000000
        else BitVec.ofInt 32 (a.toInt.tdiv b.toInt)),
      (.divu c rd ra rb, if b = 0 then 0xFFFFFFFF else BitVec.ofNat 32 (a.toNat / b.toNat)),
      (.rem c rd ra rb, if b = 0 then a else if a = 0x80000000 ∧ b = 0xFFFFFFFF then 0 else BitVec.ofInt 32 (a.toInt.tmod b.toInt)),
      (.remu c rd ra rb, if b = 0 then a else BitVec.ofNat 32 (a.toNat % b.toNat)),
      (.min c rd ra rb, BitVec.ofInt 32 (min a.toInt b.toInt)), (.max c rd ra rb, BitVec.ofInt 32 (max a.toInt b.toInt)),
      (.minu c rd ra rb, BitVec.ofNat 32 (min a.toNat b.toNat)), (.maxu c rd ra rb, BitVec.ofNat 32 (max a.toNat b.toNat))],
      Becomes p.1 s ((h.setGr c rd p.2).goes c ((s.hw.core c).pc + 4))

/-- R165 and the tables "Core major opcodes" and "Core ALU functions". -/
def Obligations.ImmediateAndBitInstructionsWriteTheirResult : Prop :=
  ∀ (c : CoreId) (rd ra n : Fin 32) (imm : BitVec 16) (s : State), s.hw.Ready c →
    let h := s.hw.issued c false
    let a := h.gr c ra
    ∀ p ∈ [
      (Instr.addi c rd ra imm, a + imm.signExtend 32), (.andi c rd ra imm, a &&& imm.zeroExtend 32),
      (.ori c rd ra imm, a ||| imm.zeroExtend 32), (.xori c rd ra imm, a ^^^ imm.zeroExtend 32),
      (.slti c rd ra imm, if a.toInt < imm.toInt then 1 else 0),
      (.sltiu c rd ra imm, if a.toNat < (imm.signExtend 32).toNat then 1 else 0),
      (.lui c rd imm, BitVec.ofNat 32 (imm.toNat * 2 ^ 16)),
      (.pcaddh c rd imm, (s.hw.core c).pc + BitVec.ofNat 32 (imm.toNat * 2 ^ 16)),
      (.slli c rd ra n, a <<< n.val), (.srli c rd ra n, a >>> n.val), (.srai c rd ra n, BitVec.ofInt 32 (a.toInt / 2 ^ n.val)),
      (.clz c rd ra, a.clz), (.popc c rd ra, BitVec.ofNat 32 ((List.range 32).countP (fun i => a.getLsbD i))),
      (.bswap c rd ra, a.extractLsb' 0 8 ++ a.extractLsb' 8 8 ++ a.extractLsb' 16 8 ++ a.extractLsb' 24 8)],
      Becomes p.1 s ((h.setGr c rd p.2).goes c ((s.hw.core c).pc + 4))

/-- R165, R166: where control goes. -/
def Obligations.BranchesAndJumpsGoToTheirTarget : Prop :=
  ∀ (c : CoreId) (ra rb : Fin 32) (off : BitVec 16) (far : BitVec 26) (s : State), s.hw.Ready c →
    let h := s.hw.issued c false
    let pc := (s.hw.core c).pc
    let a := h.gr c ra
    let b := h.gr c rb
    (∀ p ∈ [
      (Instr.beq c ra rb off, decide (a = b)), (.bne c ra rb off, decide (a ≠ b)), (.blt c ra rb off, decide (a.toInt < b.toInt)),
      (.bge c ra rb off, decide (b.toInt ≤ a.toInt)), (.bltu c ra rb off, decide (a.toNat < b.toNat)),
      (.bgeu c ra rb off, decide (b.toNat ≤ a.toNat))],
      Becomes p.1 s (h.goes c (if p.2 then BitVec.ofInt 32 (pc.toNat + 4 * off.toInt) else pc + 4))) ∧
    Becomes (.jmp c far) s (h.goes c (BitVec.ofInt 32 (pc.toNat + 4 * far.toInt))) ∧
    Becomes (.call c far) s ((h.setGr c 1 (pc + 4)).goes c (BitVec.ofInt 32 (pc.toNat + 4 * far.toInt))) ∧
    (a.toNat % 4 = 0 → Becomes (.jr c ra) s (h.goes c a) ∧ Becomes (.callr c ra) s ((h.setGr c 1 (pc + 4)).goes c a))

/-- R165, R166, R190: loads of normal memory. -/
def Obligations.LoadsBringTheBytesAtTheirAddress : Prop :=
  ∀ (c : CoreId) (rd ra : Fin 32) (imm : BitVec 16) (u : Upset) (s : State), s.hw.Ready c →
    let h := s.hw.issued c false
    let a := (h.gr c ra + imm.signExtend 32).toNat
    let pc := (s.hw.core c).pc
    (∀ p ∈ [
      (1, Instr.lb c rd ra imm, Upset.none, fun v => BitVec.ofInt 32 (sgn 8 v)), (1, .lbu c rd ra imm, .none, BitVec.ofNat 32),
      (2, .lh c rd ra imm, .none, fun v => BitVec.ofInt 32 (sgn 16 v)), (2, .lhu c rd ra imm, .none, BitVec.ofNat 32),
      (4, .lw c rd ra imm u, u, BitVec.ofNat 32)],
      (h.upset p.2.2.1 a).CanLoad c a p.1 →
        Becomes p.2.1 s ((((h.upset p.2.2.1 a).loaded c a p.1).setGr c rd (p.2.2.2 (leNat (s.hw.bytes a p.1)))).goes c (pc + 4))) ∧
    (∀ p ∈ [(4, Instr.flw c rd ra imm), (8, .fld c rd ra imm)], c ≠ .pol → (h.core c).fpe = true → h.CanLoad c a p.1 →
      Becomes p.2 s (((h.loaded c a p.1).setFr c rd (BitVec.ofNat 64 (leNat (s.hw.bytes a p.1)))).goes c (pc + 4))) ∧
    (∀ n w, SameMemory s.hw ((h.upset w a).loaded c a n) ∧ ((h.upset w a).loaded c a n).core c = h.core c ∧
      ∀ d, ∃ r, (r = none ∨ r = (h.core d).resv) ∧ ((h.upset w a).loaded c a n).core d = { h.core d with resv := r })

/-- R165, R203 to R209: stores to normal memory, through caches and write-through ranges. -/
def Obligations.StoresPutTheirBytesAtTheirAddress : Prop :=
  ∀ (c : CoreId) (rs ra : Fin 32) (imm : BitVec 16) (s : State), s.hw.Ready c →
    let h := s.hw.issued c false
    let a := (h.gr c ra + imm.signExtend 32).toNat
    ∀ p ∈ [
      (1, Instr.sb c rs ra imm, true, (h.gr c rs).toNat), (2, .sh c rs ra imm, true, (h.gr c rs).toNat),
      (4, .sw c rs ra imm, true, (h.gr c rs).toNat), (4, .fsw c rs ra imm, decide (c ≠ .pol) && (h.core c).fpe, (h.fr c rs).toNat),
      (8, .fsd c rs ra imm, decide (c ≠ .pol) && (h.core c).fpe, (h.fr c rs).toNat)],
      p.2.2.1 = true → h.CanStore c a p.1 →
        Becomes p.2.1 s ((h.coreMemStore c a (leBytes p.1 p.2.2.2)).goes c ((s.hw.core c).pc + 4)) ∧
        Stored s.hw (h.coreMemStore c a (leBytes p.1 p.2.2.2)) a (leBytes p.1 p.2.2.2)

/-- R30, R33, R165: device-space accesses, and the buffered store whose bus error comes later. Readings of the model: log entry 36. -/
def Obligations.RegisterAccessesByLoadAndStore : Prop :=
  ∀ (c : CoreId) (rd ra : Fin 32) (imm : BitVec 16) (s : State) (k : Hw) (w : Word), s.hw.Ready c →
    let h := s.hw.issued c false
    let a := (h.gr c ra + imm.signExtend 32).toNat
    let pc := (s.hw.core c).pc
    a % 4 = 0 → h.bridgeShut c a = false →
    ((h.region a).device = true → h.busHeld (h.accOf c).who = false → h.coreMpu c .r a 4 = true → h.devRead (h.accOf c) a = (k, .word w) →
      (k.core c).ends = false → (k.core c).wpExempt = (h.core c).wpExempt →
      Becomes (.lw c rd ra imm .none) s ((k.setGr c rd w).goes c (pc + 4))) ∧
    ((h.region a).device = true → h.busHeld (h.accOf c).who = false → h.coreMpu c .w a 4 = true → h.devWrite (h.accOf c) a (h.gr c rd) = (k, .ok) →
      (k.core c).ends = false → (k.core c).wpExempt = (h.core c).wpExempt →
      Becomes (.sw c rd ra imm) s (k.goes c (pc + 4))) ∧
    (c ≠ .pol → 0x00FC0000 ≤ a → a < 0x01000000 → h.coreMpu c .w a 4 = true → h.linePoisoned a 4 = false → h.storeWaits c a 4 = false →
      Becomes (.sw c rd ra imm) s ((Hw.goes { h with stores := h.stores ++ [(coreNum c, a, (h.core c).tid.toNat)] } c (pc + 4))))

/-- R168, R169, R205: LL, SC and the AMOs; the Polder core's own LL and SC are log entry 37, the model's reading. -/
def Obligations.AtomicsReadAndStoreAtTheHub : Prop :=
  ∀ (c : CoreId) (rd ra rb : Fin 32) (s : State), s.hw.Ready c →
    let h := s.hw.issued c false
    let a := (h.gr c ra).toNat
    let pc := (s.hw.core c).pc
    let k := h.atomicRead a
    let old := BitVec.ofNat 32 (leNat (s.hw.bytes a 4))
    let b := h.gr c rb
    (h.CanAtomic c a false → Becomes (.ll c rd ra) s (((k.setGr c rd old).setResv c (some (a / 64))).goes c (pc + 4)) ∧ SameMemory s.hw k) ∧
    (h.CanAtomic c a true → ∀ p ∈ [
      (Instr.amoswap c rd ra rb, b), (.amoadd c rd ra rb, old + b), (.amoand c rd ra rb, old &&& b), (.amoor c rd ra rb, old ||| b),
      (.amoxor c rd ra rb, old ^^^ b), (.amomax c rd ra rb, BitVec.ofInt 32 (max old.toInt b.toInt)),
      (.amomin c rd ra rb, BitVec.ofInt 32 (min old.toInt b.toInt))],
      Becomes p.1 s (((k.hubPut a p.2).setGr c rd old).goes c (pc + 4)) ∧ Stored s.hw (k.hubPut a p.2) a (leBytes 4 p.2.toNat)) ∧
    (h.CanAtomic c a true →
      (old = h.gr c rd → Becomes (.amocas c rd ra rb) s (((k.hubPut a b).setGr c rd old).goes c (pc + 4)) ∧
        Stored s.hw (k.hubPut a b) a (leBytes 4 b.toNat)) ∧
      (old ≠ h.gr c rd → Becomes (.amocas c rd ra rb) s (((k.amoTouch a).setGr c rd old).goes c (pc + 4)) ∧ SameMemory s.hw (k.amoTouch a) ∧
        ∀ d, (k.amoTouch a).core d = { k.core d with resv := if (k.core d).resv = some (a / 64) then none else (k.core d).resv })) ∧
    (a % 4 = 0 → h.coreMpu c .w a 4 = true → h.hubOp c a = true → h.coreMapped c a 4 true = true → h.linePoisoned a 4 = false →
      ((h.core c).resv = some (a / 64) →
        Becomes (.sc c rd ra rb) s ((((h.hubPut a b).setResv c none).setGr c rd 1).goes c (pc + 4)) ∧
        Stored s.hw (h.hubPut a b) a (leBytes 4 b.toNat)) ∧
      ((h.core c).resv ≠ some (a / 64) → Becomes (.sc c rd ra rb) s (((h.setResv c none).setGr c rd 0).goes c (pc + 4))))

/-- R31, R170, R208, R375. Readings of the model: log entries 18 and 25. -/
def Obligations.FencesAndMaintenanceKeepMemory : Prop :=
  ∀ (c : CoreId) (ra : Fin 32) (s : State), s.hw.Ready c →
    let h := s.hw.issued c false
    let a := (h.gr c ra).toNat
    let pc := (s.hw.core c).pc
    (∀ i ∈ [Instr.fence c, .fenceWd c, .isync c], Becomes i s (h.goes c (pc + 4))) ∧
    Becomes (.icinvAll c) s ((h.setCore c { h.core c with icache := [] }).goes c (pc + 4)) ∧
    (c = .pol → ∀ i ∈ [Instr.dcwb c ra, .dcwbi c ra, .icinv c ra], Becomes i s (h.goes c (pc + 4))) ∧
    (c = .pol → (h.core c).mode = true → Becomes (.dcinv c ra) s (h.goes c (pc + 4))) ∧
    (c ≠ .pol → h.coreMpu c .r a 1 = true →
      Becomes (.icinv c ra) s ((h.setCore c { h.core c with icache := (h.core c).icache.filter (· != a / 64) }).goes c (pc + 4)) ∧
      (h.coreMapped c a 1 false = true → (h.region a).cached = true →
        Becomes (.dcwb c ra) s ((h.dcwb c (a / 64)).goes c (pc + 4)) ∧
        Becomes (.dcwbi c ra) s (((h.dcwb c (a / 64)).leaveLine c (a / 64)).goes c (pc + 4)) ∧
        (h.lineSound (a / 64) → SameMemory s.hw (h.dcwb c (a / 64)) ∧ SameMemory s.hw ((h.dcwb c (a / 64)).leaveLine c (a / 64)))) ∧
      ((h.core c).mode = true → Becomes (.dcinv c ra) s ((h.leaveLine c (a / 64)).goes c (pc + 4)) ∧
        ∀ b, (b / 64 = a / 64 → ∀ g, coreAgent c = some g → ofind (h.ov g) b = none) →
          (h.leaveLine c (a / 64)).byte b = s.hw.byte b))

/-- R140, R143, R145, R151, R164, R175: synchronous exceptions by instruction, and what an SLC checks. The model's choices: the fields of
ECAUSE on a DOUBLE_FAULT (log entry 157), the low bits of HANDLER (log entry 158), EADDR 0 where no address is named (log entry 19), and
the raw read of the gate table's entry (log entry 179). Readings of the model: log entry 28. -/
def Obligations.ExceptionsEnterTheirVector : Prop :=
  ∀ (c : CoreId) (n : Byte) (s : State), s.hw.Ready c →
    let h := s.hw.issued c false
    let x := h.core c
    h.Uncaught c →
    Becomes (.trap c n) s (h.takes c 12 0 n.toNat 0 false 0) ∧
    Becomes (.illegal c) s (h.takes c 8 0 0 0 false 0) ∧
    (h.on DBG_STAT.ATTACHED = false → Becomes (.brk c n) s (h.takes c 15 0 n.toNat 0 false 0)) ∧
    (h.on DBG_STAT.ATTACHED = true → Becomes (.brk c n) s
      (((h.setCore c { x with pc := x.pc + 4, run := .halted, resv := none, wpExempt := false }).up (DBG_C_STAT.HALTED (coreNum c))).set (DBG_C_STAT.CAUSE (coreNum c)) 2)) ∧
    (c = .pol → Becomes (.slc c n) s (h.takes c 8 0 0 0 false 0)) ∧
    (c ≠ .pol →
      let r := h.gateCheck c n.toNat
      let tid := x.tid.toNat
      let entry := x.slcBase.toNat / 4096 * 4096 + 16 * n.toNat
      let desc := fun j => h.loadN (entry + 4) 4 / 256 ^ j % 256
      let kind := fun j => desc j % 8
      let p := fun j => (h.gr c (Fin.ofNat 32 (4 + j))).toNat
      let len := fun j => (h.gr c (Fin.ofNat 32 (8 + j))).toNat
      let fails := fun j => if kind j < 2 ∨ len j = 0 then 0 else if 2 ^ (desc j / 8) < len j then 4 else if 2 ^ 32 < p j + len j then 7
        else if tid ≠ 0 ∧ ¬ ((List.range 8).any (fun q => (kind j == 3 || h.regionGrants tid q .r (p j) (len j)) && (kind j == 2 || h.regionGrants tid q .w (p j) (len j))) = true) then 5 else 0
      (r = if x.slcBase.toNat % 512 ≤ n.toNat then (1, 0)
        else if tid ≠ 0 ∧ (h.get (TEN_GATE.MASK_L tid (n.toNat / 32))).testBit (n.toNat % 32) = false then (2, 0)
        else if h.loadN (entry + 8) 1 % 2 = 0 ∨ (∃ j < 4, 4 < kind j ∨ (kind j < 2 ∧ desc j / 8 ≠ 0)) then (3, 0)
        else if fails 0 ≠ 0 then (fails 0, 0) else if fails 1 ≠ 0 then (fails 1, 1) else if fails 2 ≠ 0 then (fails 2, 2)
        else if fails 3 ≠ 0 then (fails 3, 3) else (0, 0)) ∧
      ((r.1 = 4 ∨ r.1 = 5 ∨ r.1 = 7) → Becomes (.slc c n) s (h.takes c 14 r.1 n.toNat r.2 false (h.gr c (Fin.ofNat 32 (4 + r.2))).toNat)) ∧
      (r.1 ≠ 0 → r.1 ≠ 4 → r.1 ≠ 5 → r.1 ≠ 7 → Becomes (.slc c n) s (h.takes c 14 r.1 n.toNat 0 false 0)) ∧
      (r.1 = 0 → x.exl = false → Becomes (.slc c n) s (h.setCore c (x.entered (causeWord 13 0 n.toNat false false 0) 0 (x.pc + 4)
        (BitVec.ofNat 32 (h.gateField x n.toNat 0 4 / 4 * 4))))) ∧
      (r.1 = 0 → x.exl = true → Becomes (.slc c n) s (h.takes c 13 0 0 0 false 0)))

/-- R144: the return from an exception. -/
def Obligations.EretRestoresModeInterruptEnableAndTid : Prop :=
  ∀ (c : CoreId) (s : State), s.hw.Ready c →
    let h := s.hw.issued c false
    let x := h.core c
    let st := if c = .pol then sstatOf .pol (mkSstat x.pmode x.pie false x.fpe x.pmode x.pie x.ptid) else mkSstat x.pmode x.pie false x.fpe x.pmode x.pie x.ptid
    let y : Core := { x with
      sstat := st, tid := if c = .pol then x.tid else x.ptid, inDF := false, resv := none
      pc := x.epc, afterEret := true, wpExempt := decide (x.ecause.toNat % 512 = 15) }
    (x.mode = true → Becomes (.eret c) s (h.setCore c y)) ∧
    (c ≠ .pol → y.mode = x.pmode ∧ y.ie = x.pie ∧ y.exl = false ∧ y.tid = x.ptid ∧ y.gr 2 = if x.pmode then x.ssp else x.usp) ∧
    (x.mode = false → h.Uncaught c → Becomes (.eret c) s (h.takes c 9 0 0 0 false 0))

/-- R137, R138, R375: reads of the special registers. -/
def Obligations.SpecialRegistersReadByMfs : Prop :=
  ∀ (c : CoreId) (rd : Fin 32) (s : State), s.hw.Ready c →
    let h := s.hw.issued c false
    let x := h.core c
    let pc := (s.hw.core c).pc
    (∀ p ∈ [(0, x.sstat), (1, x.epc), (2, x.ecause), (3, x.eaddr), (4, x.eprog), (5, x.tid.zeroExtend 32), (6, x.slcBase), (7, x.vbase),
        (8, x.usp), (9, x.ssp), (10, BitVec.ofNat 32 (coreNum c))], (c = .pol → p.1 ≠ 5 ∧ p.1 ≠ 6 ∧ p.1 ≠ 8) →
      (p.1 = 5 ∨ p.1 = 10 ∨ x.mode = true → Becomes (.mfs c rd p.1) s ((h.setGr c rd p.2).goes c (pc + 4))) ∧
      (p.1 ≠ 5 → p.1 ≠ 10 → x.mode = false → h.Uncaught c → Becomes (.mfs c rd p.1) s (h.takes c 9 0 0 0 false 0))) ∧
    (∀ n : Fin 32, h.Uncaught c → 10 < n.val ∨ (c = .pol ∧ (n = 5 ∨ n = 6 ∨ n = 8)) → Becomes (.mfs c rd n) s (h.takes c 8 0 0 0 false 0))

/-- R137, R138, R175, R375: writes of the special registers. Readings of the model: log entry 99. -/
def Obligations.SpecialRegistersWrittenByMts : Prop :=
  ∀ (c : CoreId) (ra : Fin 32) (s : State), s.hw.Ready c →
    let h := s.hw.issued c false
    let x := h.core c
    let w := h.gr c ra
    let pc := (s.hw.core c).pc
    (∀ p ∈ [(0, { x with sstat := sstatOf c w, inDF := x.inDF && w.getLsbD 2 }), (1, { x with epc := w }),
        (2, { x with ecause := w &&& 0x0FFFF1FF }), (3, { x with eaddr := w }), (4, { x with eprog := w &&& 0x8000001F }),
        (5, { x with tid := w.truncate 7, resv := none }),
        (6, { x with slcBase := (w &&& 0xFFFFF000) ||| (if w.toNat % 512 ≤ 256 then w &&& 0x1FF else x.slcBase &&& 0x1FF) }),
        (7, { x with vbase := w &&& 0xFFFFFFFC }), (8, { x with usp := w }), (9, { x with ssp := w })],
        (c = .pol → p.1 ≠ 5 ∧ p.1 ≠ 6 ∧ p.1 ≠ 8) →
      (x.mode = true → Becomes (.mts c p.1 ra) s ((h.setCore c p.2).goes c (pc + 4))) ∧
      (x.mode = false → h.Uncaught c → Becomes (.mts c p.1 ra) s (h.takes c 9 0 0 0 false 0))) ∧
    (∀ n : Fin 32, h.Uncaught c → 10 ≤ n.val ∨ (c = .pol ∧ (n = 5 ∨ n = 6 ∨ n = 8)) → Becomes (.mts c n ra) s (h.takes c 8 0 0 0 false 0))

/-- R142, R158, R164, R166, R171 to R173, R175, R176: forms that trap, and which words are which instruction. That the guard's PN and Kg
are no unused fields where PE = 0 is the model's reading (log entry 161). Readings of the model: log entry 30. -/
def Obligations.FormsThatTrap : Prop :=
  (∀ (c : CoreId) (rd ra rb : Fin 32) (imm : BitVec 16) (p : Bool) (s : State), s.hw.Ready c →
    let h := s.hw.issued c false
    let a := (h.gr c ra + imm.signExtend 32).toNat
    let j := h.gr c ra
    h.Uncaught c →
    (j.toNat % 4 ≠ 0 → ∀ i ∈ [Instr.jr c ra, .callr c ra], Becomes i s (h.takes c 10 0 0 0 false j.toNat)) ∧
    (a % 4 ≠ 0 → Becomes (.lw c rd ra imm .none) s (h.takes c 10 0 0 0 false a) ∧ Becomes (.sw c rd ra imm) s (h.takes c 10 0 0 0 true a)) ∧
    (j.toNat % 4 ≠ 0 → Becomes (.ll c rd ra) s (h.takes c 10 0 0 0 false j.toNat) ∧ Becomes (.sc c rd ra rb) s (h.takes c 10 0 0 0 true j.toNat)) ∧
    (a % 4 = 0 → h.coreMpu c .r a 4 = false → (h.coreViolation c a .r).Uncaught c →
      Becomes (.lw c rd ra imm .none) s ((h.coreViolation c a .r).takes c 6 0 0 0 false a)) ∧
    (a % 4 = 0 → h.coreMpu c .w a 4 = false → (h.coreViolation c a .w).Uncaught c →
      Becomes (.sw c rd ra imm) s ((h.coreViolation c a .w).takes c 6 0 0 0 true a)) ∧
    ((h.core c).mode = false → ∀ i ∈ [Instr.mfs c rd 0, .wait c, .dcinv c ra], Becomes i s (h.takes c 9 0 0 0 false 0)) ∧
    ((h.core c).fpe = false ∨ c = .pol → ∀ i ∈ [Instr.fadd c p rd ra rb, .fmov c p rd ra, .frfsr c rd, .fmadd c p rd ra rb rd, .flw c rd ra imm, .fsd c rd ra imm],
      Becomes i s (h.takes c 11 0 0 0 false 0)) ∧
    (¬ (rd ≠ ra ∧ rd ≠ rb ∧ ra ≠ rb ∧ rd ≠ 0 ∧ ra ≠ 0 ∧ rb ≠ 0) →
      ∀ i ∈ [Instr.bmov c rd ra rb none, .bfil c rd ra rb none, .crcb c rd ra rb none], Becomes i s (h.takes c 8 0 0 0 false 0))) ∧
  (∀ (c : CoreId) (op : BitVec 6) (rd ra rb : BitVec 5) (f : BitVec 11) (imm : BitVec 16) (far : BitVec 26) (n : BitVec 8) (p : Bool) (z : BitVec 10) (rc fn : BitVec 5) (w : Word) (s : State),
    let d := rd.toFin
    let a := ra.toFin
    let b := rb.toFin
    let alu := [(0x001#11, Instr.add c d a b), (0x002#11, .sub c d a b), (0x003#11, .and c d a b), (0x004#11, .or c d a b), (0x005#11, .xor c d a b), (0x006#11, .slt c d a b),
      (0x007#11, .sltu c d a b), (0x008#11, .sll c d a b), (0x009#11, .srl c d a b), (0x00A#11, .sra c d a b), (0x00B#11, .slli c d a b), (0x00C#11, .srli c d a b),
      (0x00D#11, .srai c d a b), (0x010#11, .mul c d a b), (0x011#11, .mulh c d a b), (0x012#11, .mulhu c d a b), (0x013#11, .div c d a b), (0x014#11, .divu c d a b),
      (0x015#11, .rem c d a b), (0x016#11, .remu c d a b), (0x018#11, .min c d a b), (0x019#11, .max c d a b), (0x01A#11, .minu c d a b), (0x01B#11, .maxu c d a b)]
    let bits := [(0x020#11, Instr.clz c d a), (0x021#11, .popc c d a), (0x022#11, .bswap c d a)]
    let imms := [(0x01#6, Instr.addi c d a imm), (0x02#6, .andi c d a imm), (0x03#6, .ori c d a imm), (0x04#6, .xori c d a imm), (0x05#6, .slti c d a imm), (0x06#6, .sltiu c d a imm),
      (0x10#6, .lb c d a imm), (0x11#6, .lbu c d a imm), (0x12#6, .lh c d a imm), (0x13#6, .lhu c d a imm), (0x14#6, .lw c d a imm .none), (0x18#6, .sb c d a imm),
      (0x19#6, .sh c d a imm), (0x1A#6, .sw c d a imm), (0x1C#6, .flw c d a imm), (0x1D#6, .fld c d a imm), (0x1E#6, .fsw c d a imm), (0x1F#6, .fsd c d a imm),
      (0x20#6, .beq c d a imm), (0x21#6, .bne c d a imm), (0x22#6, .blt c d a imm), (0x23#6, .bge c d a imm), (0x24#6, .bltu c d a imm), (0x25#6, .bgeu c d a imm)]
    let listed := [0x00, 0x01, 0x02, 0x03, 0x04, 0x05, 0x06, 0x07, 0x08, 0x10, 0x11, 0x12, 0x13, 0x14, 0x18, 0x19, 0x1A, 0x1C, 0x1D, 0x1E, 0x1F, 0x20, 0x21, 0x22, 0x23, 0x24, 0x25,
      0x28, 0x29, 0x2A, 0x30, 0x34, 0x35, 0x36, 0x38, 0x39, 0x3F]
    (∀ x ∈ alu, decodeCore c (0x00#6 ++ rd ++ ra ++ rb ++ x.1) = some x.2) ∧
    (∀ x ∈ bits, decodeCore c (0x00#6 ++ rd ++ ra ++ rb ++ x.1) = if rb = 0 then some x.2 else none) ∧
    ((∀ x ∈ alu ++ bits, f ≠ x.1) → decodeCore c (0x00#6 ++ rd ++ ra ++ rb ++ f) = none) ∧
    (∀ x ∈ imms, decodeCore c (x.1 ++ rd ++ ra ++ imm) = some x.2) ∧
    decodeCore c (0x07#6 ++ rd ++ ra ++ imm) = (if ra = 0 then some (.lui c d imm) else none) ∧
    decodeCore c (0x28#6 ++ far) = some (.jmp c far) ∧ decodeCore c (0x29#6 ++ far) = some (.call c far) ∧
    decodeCore c (0x3F#6 ++ rd ++ ra ++ n ++ 0x05#8) = (if ra = 0 ∧ n.toNat < 32 then some (.mfs c d (Fin.ofNat 32 n.toNat)) else none) ∧
    decodeCore c (0x3F#6 ++ rd ++ ra ++ n ++ 0x06#8) = (if rd = 0 ∧ n.toNat < 32 then some (.mts c (Fin.ofNat 32 n.toNat) a) else none) ∧
    decodeCore c (0x08#6 ++ rd ++ ra ++ imm) = (if ra = 0 then some (.pcaddh c d imm) else none) ∧
    (let word := 0x2A#6 ++ rd ++ ra ++ rb ++ f;
      decodeCore c word = if rd = 0 ∧ rb = 0 ∧ f = 1 then some (.jr c a) else if rd = 0 ∧ rb = 0 ∧ f = 2 then some (.callr c a) else none) ∧
    (let three := [(0x002#11, Instr.sc c d a b), (0x010#11, .amoswap c d a b), (0x011#11, .amoadd c d a b), (0x012#11, .amoand c d a b), (0x013#11, .amoor c d a b),
        (0x014#11, .amoxor c d a b), (0x015#11, .amomax c d a b), (0x016#11, .amomin c d a b), (0x017#11, .amocas c d a b)];
      let lines := [(0x030#11, Instr.dcwb c a), (0x031#11, .dcwbi c a), (0x032#11, .dcinv c a), (0x033#11, .icinv c a)];
      let bare := [(0x020#11, Instr.fence c), (0x021#11, .fenceWd c), (0x023#11, .isync c), (0x034#11, .icinvAll c)];
      let word := fun (g : BitVec 11) => 0x30#6 ++ rd ++ ra ++ rb ++ g;
      decodeCore c (word 0x001#11) = (if rb = 0 then some (.ll c d a) else none) ∧
      (∀ x ∈ three, decodeCore c (word x.1) = some x.2) ∧ (∀ x ∈ lines, decodeCore c (word x.1) = if rd = 0 ∧ rb = 0 then some x.2 else none) ∧
      (∀ x ∈ bare, decodeCore c (word x.1) = if rd = 0 ∧ ra = 0 ∧ rb = 0 then some x.2 else none) ∧
      (f ≠ 0x001#11 → (∀ x ∈ three ++ lines ++ bare, f ≠ x.1) → decodeCore c (word f) = none)) ∧
    (let word := 0x34#6 ++ rd ++ ra ++ rb ++ f;
      decodeCore c word = if f = 1 then some (.bmov c d a b none) else if f = 2 then some (.bfil c d a b none) else if f = 3 then some (.crcb c d a b none) else none) ∧
    decodeCore c (0x35#6 ++ rd ++ ra ++ rb ++ BitVec.ofBool p ++ z) = (if z = 0 then some (.ldm c d a b p none) else none) ∧
    decodeCore c (0x36#6 ++ rd ++ ra ++ rb ++ BitVec.ofBool p ++ z) = (if z = 0 then some (.stm c d a b p none) else none) ∧
    (let two := [(0x01#5, Instr.fadd c p d a b), (0x02#5, .fsub c p d a b), (0x03#5, .fmul c p d a b), (0x04#5, .fdiv c p d a b), (0x06#5, .fmin c p d a b), (0x07#5, .fmax c p d a b),
        (0x0E#5, .feq c p d a b), (0x0F#5, .flt c p d a b), (0x10#5, .fle c p d a b)];
      let one := [(0x05#5, Instr.fsqrt c p d a), (0x08#5, .fabs c p d a), (0x09#5, .fneg c p d a), (0x0A#5, .fmov c p d a), (0x0B#5, .fcvt c p d a), (0x0C#5, .ftoi c p d a),
        (0x0D#5, .itof c p d a), (0x11#5, .fmvg c p d a), (0x12#5, .fmvf c p d a)];
      let word := fun (z q : BitVec 5) => 0x38#6 ++ rd ++ ra ++ rb ++ z ++ BitVec.ofBool p ++ q;
      (∀ x ∈ two, decodeCore c (word 0 x.1) = some x.2) ∧ (∀ x ∈ one, decodeCore c (word 0 x.1) = if rb = 0 then some x.2 else none) ∧
      decodeCore c (word 0 0x13#5) = (if p = false ∧ ra = 0 ∧ rb = 0 then some (.frfsr c d) else none) ∧
      decodeCore c (word 0 0x14#5) = (if p = false ∧ rd = 0 ∧ rb = 0 then some (.fwfsr c a) else none) ∧
      (rc ≠ 0 → decodeCore c (word rc fn) = none) ∧
      (fn ≠ 0x13#5 → fn ≠ 0x14#5 → (∀ x ∈ two ++ one, fn ≠ x.1) → decodeCore c (word rc fn) = none)) ∧
    (let word := fun (q : BitVec 5) => 0x39#6 ++ rd ++ ra ++ rb ++ rc ++ BitVec.ofBool p ++ q;
      let r := rc.toFin;
      (∀ x ∈ [(0x00#5, Instr.fmadd c p d a b r), (0x01#5, .fmsub c p d a b r), (0x02#5, .fnmadd c p d a b r), (0x03#5, .fnmsub c p d a b r)], decodeCore c (word x.1) = some x.2) ∧
      (3 < fn.toNat → decodeCore c (word fn) = none)) ∧
    (let word := fun (q : BitVec 8) => 0x3F#6 ++ rd ++ ra ++ n ++ q;
      (∀ x ∈ [(0x01#8, Instr.slc c n), (0x02#8, .trap c n), (0x07#8, .brk c n)], decodeCore c (word x.1) = if rd = 0 ∧ ra = 0 then some x.2 else none) ∧
      (∀ x ∈ [(0x03#8, Instr.eret c), (0x04#8, .wait c)], decodeCore c (word x.1) = if rd = 0 ∧ ra = 0 ∧ n = 0 then some x.2 else none) ∧
      (∀ q : BitVec 8, q = 0 ∨ 7 < q.toNat → decodeCore c (word q) = none)) ∧
    (op.toNat ∉ listed → decodeCore c (op ++ far) = none) ∧ decodeCore c 0 = none ∧ decodeCore c 0xFFFFFFFF = none ∧
    (decodeCore c w = none → coreWord c w s = exec (.illegal c) s) ∧ (∀ i, decodeCore c w = some i → coreWord c w s = exec i s)) ∧
  (∀ (g : Fin 16) (outside pe pn : Bool) (op : BitVec 8) (kg kd kc : BitVec 3) (ld la lb lc : BitVec 6) (t : BitVec 4) (z : BitVec 20) (imm : BitVec 32) (rest : BitVec 56)
      (sz spc : BitVec 2) (r28 : BitVec 1) (aop : BitVec 4) (off : BitVec 24) (z13 : BitVec 13) (z7 : BitVec 7) (w : DWord) (s : State),
    let hd : LaneHdr := { pe := pe, pn := pn, kg := kg.toFin, ld := ld.toFin }
    let a := la.toFin
    let b := lb.toFin
    let head := fun (op : BitVec 8) => op ++ BitVec.ofBool pe ++ BitVec.ofBool pn ++ kg ++ ld ++ la
    (∀ x ∈ [(0x10#8, Instr.laneIadd g hd a b), (0x11#8, .laneIsub g hd a b), (0x12#8, .laneImul g hd a b), (0x15#8, .laneAnd g hd a b), (0x16#8, .laneOr g hd a b), (0x17#8, .laneXor g hd a b),
      (0x18#8, .laneShl g hd a b), (0x19#8, .laneShr g hd a b), (0x1A#8, .laneSar g hd a b), (0x1B#8, .laneImin g hd a b), (0x1C#8, .laneImax g hd a b), (0x30#8, .laneShfl g hd a b), (0x31#8, .laneShflx g hd a b)],
      decodeLane g outside (head x.1 ++ lb ++ lc ++ kd ++ t ++ z) = if lc = 0 ∧ kd = 0 ∧ t = 0 ∧ z = 0 then some x.2 else none) ∧
    (∀ x ∈ [(0x20#8, Instr.laneFadd g hd t.toFin a b), (0x21#8, .laneFsub g hd t.toFin a b), (0x22#8, .laneFmul g hd t.toFin a b), (0x24#8, .laneFmin g hd t.toFin a b), (0x25#8, .laneFmax g hd t.toFin a b)],
      decodeLane g outside (head x.1 ++ lb ++ lc ++ kd ++ t ++ z) = if lc = 0 ∧ kd = 0 ∧ z = 0 then some x.2 else none) ∧
    (∀ x ∈ [(0x1D#8, Instr.laneIcmp g hd kd.toFin t.toFin a b), (0x26#8, .laneFcmp g hd kd.toFin t.toFin a b)],
      decodeLane g outside (head x.1 ++ lb ++ lc ++ kd ++ t ++ z) = if lc = 0 ∧ ld = 0 ∧ z = 0 then some x.2 else none) ∧
    (0x50 ≤ op.toNat → op.toNat ≤ 0x6B → decodeLane g outside (head op ++ kd ++ t ++ imm) = some (.laneImmediateForm g hd op kd.toFin t.toFin a imm)) ∧
    (let whole := [(0x0D#8, Instr.laneBany g { kc := kc.toFin, cn := pn, off := imm } outside), (0x0E#8, .laneBall g { kc := kc.toFin, cn := pn, off := imm } outside),
        (0x0F#8, .laneBnone g { kc := kc.toFin, cn := pn, off := imm } outside), (0x04#8, .laneIf g { kc := kc.toFin, cn := pn, off := imm })];
      let noTarget := [(0x02#8, Instr.laneExit g { kc := kc.toFin, cn := pn, off := 0 }), (0x09#8, .laneBrk g { kc := kc.toFin, cn := pn, off := 0 }),
        (0x0A#8, .laneCont g { kc := kc.toFin, cn := pn, off := 0 })];
      let noCond := [(0x0C#8, Instr.laneJmp g { kc := 0, cn := false, off := imm } outside), (0x05#8, .laneElse g { kc := 0, cn := false, off := imm }), (0x08#8, .laneLoop g)];
      let word := fun (q : BitVec 8) (y : BitVec 17) => q ++ y ++ kc ++ BitVec.ofBool pn ++ 0#3 ++ imm;
      (∀ x ∈ whole, decodeLane g outside (word x.1 0) = some x.2) ∧
      (∀ x ∈ noTarget, decodeLane g outside (word x.1 0) = if imm = 0 then some x.2 else none) ∧
      (∀ x ∈ noCond, decodeLane g outside (word x.1 0) = if kc = 0 ∧ pn = false then some x.2 else none) ∧
      (∀ x ∈ whole ++ noTarget ++ noCond, ∀ y, y ≠ 0 → decodeLane g outside (word x.1 y) = none)) ∧
    (∀ x ∈ [(0x01#8, Instr.laneEnd g), (0x06#8, .laneEndif g), (0x0B#8, .laneEndl g)], decodeLane g outside (x.1 ++ rest) = if rest = 0 then some x.2 else none) ∧
    (let word := fun (q : BitVec 8) => head q ++ lb ++ sz ++ spc ++ r28 ++ aop ++ off;
      let p4 := fun (v : BitVec 2) => (⟨v.toNat, by omega⟩ : Fin 4);
      decodeLane g outside (word 0x38#8) = (if lb = 0 ∧ r28 = 0 ∧ aop = 0 then some (.laneLd g hd (p4 sz) (p4 spc) a off .none) else none) ∧
      decodeLane g outside (word 0x39#8) = (if ld = 0 ∧ r28 = 0 ∧ aop = 0 then some (.laneSt g hd (p4 sz) (p4 spc) a b off) else none) ∧
      decodeLane g outside (word 0x3A#8) = (if sz = 0 ∧ r28 = 0 then some (.laneAtom g hd (p4 spc) aop.toFin a b off) else none) ∧
      decodeLane g outside (word 0x3B#8) = (if lb = 0 ∧ sz = 0 ∧ spc = 0 ∧ r28 = 0 ∧ aop = 0 then some (.laneHaddr g hd a off) else none) ∧
      decodeLane g outside (word 0x3C#8) = (if ld = 0 ∧ la = 0 ∧ lb = 0 ∧ sz = 0 ∧ spc = 0 ∧ r28 = 0 ∧ off = 0 then some (.laneLfence g hd aop.toFin) else none)) ∧
    (let word := fun (q : BitVec 8) => head q ++ lb ++ lc ++ kd ++ t ++ z;
      let t4 := t.toFin;
      decodeLane g outside (word 0x13#8) = (if lc = 0 ∧ kd = 0 ∧ z = 0 then some (.laneImulh g hd t4 a b) else none) ∧
      decodeLane g outside (word 0x14#8) = (if kd = 0 ∧ t = 0 ∧ z = 0 then some (.laneImad g hd a b lc.toFin) else none) ∧
      decodeLane g outside (word 0x1E#8) = (if lc = 0 ∧ t = 0 ∧ z = 0 then some (.laneSel g hd kd.toFin a b) else none) ∧
      decodeLane g outside (word 0x23#8) = (if kd = 0 ∧ z = 0 then some (.laneFfma g hd t4 a b lc.toFin) else none) ∧
      (∀ x ∈ [(0x1F#8, Instr.lanePopc g hd a), (0x29#8, .laneFtoi g hd a), (0x2A#8, .laneItof g hd a), (0x2B#8, .laneMov g hd a)],
        decodeLane g outside (word x.1) = if lb = 0 ∧ lc = 0 ∧ kd = 0 ∧ t = 0 ∧ z = 0 then some x.2 else none) ∧
      (∀ x ∈ [(0x27#8, Instr.laneFrcp g hd t4 a), (0x28#8, .laneFrsq g hd t4 a)], decodeLane g outside (word x.1) = if lb = 0 ∧ lc = 0 ∧ kd = 0 ∧ z = 0 then some x.2 else none) ∧
      decodeLane g outside (word 0x32#8) = (if la = 0 ∧ lb = 0 ∧ lc = 0 ∧ t = 0 ∧ z = 0 then some (.laneVote g hd kd.toFin) else none) ∧
      decodeLane g outside (word 0x35#8) = (if ld = 0 ∧ la.toNat < 8 ∧ lb.toNat < 8 ∧ lc = 0 ∧ z = 0 then
        some (.laneKop g hd kd.toFin t4 (Fin.ofNat 8 la.toNat) (Fin.ofNat 8 lb.toNat)) else none) ∧
      decodeLane g outside (word 0x00#8) = (if ld = 0 ∧ la = 0 ∧ lb = 0 ∧ lc = 0 ∧ kd = 0 ∧ t = 0 ∧ z = 0 then some (.laneNop g hd false) else none)) ∧
    decodeLane g outside (0x34#8 ++ BitVec.ofBool pe ++ BitVec.ofBool pn ++ kg ++ ld ++ z13 ++ imm) = (if z13 = 0 then some (.laneSval g hd imm) else none) ∧
    (∀ x ∈ [(0x70#8, Instr.laneShfli g hd a imm), (0x71#8, .laneShflxi g hd a imm)],
      decodeLane g outside (head x.1 ++ z7 ++ imm) = if z7 = 0 then some x.2 else none) ∧
    (op = 3 ∨ op = 7 ∨ (0x2C ≤ op.toNat ∧ op.toNat < 0x30) ∨ op = 0x33 ∨ op = 0x36 ∨ op = 0x37 ∨ (0x3D ≤ op.toNat ∧ op.toNat < 0x50) ∨ (0x6C ≤ op.toNat ∧ op.toNat < 0x70) ∨ 0x72 ≤ op.toNat →
      decodeLane g outside (op ++ rest) = none) ∧
    (decodeLane g outside w = none → laneWord g outside w s = exec (.illegalOp g) s) ∧ (∀ i, decodeLane g outside w = some i → laneWord g outside w s = exec i s))

/-- R175: waiting. -/
def Obligations.WaitCompletesOnADeliverableLine : Prop :=
  (∀ (c : CoreId) (s : State), s.hw.Ready c →
    let h := s.hw.issued c false
    (h.core c).mode = true →
    ((h.anyLine c).isSome = true → Becomes (.wait c) s (h.goes c ((s.hw.core c).pc + 4))) ∧
    (h.anyLine c = none → Becomes (.wait c) s (h.setCore c { h.core c with run := .waiting, wpExempt := false }))) ∧
  (∀ (c : CoreId) (s : State), (s.hw.core c).run = .waiting → (s.hw.anyLine c).isSome = true →
    (c = .pol ∨ (s.hw.clocked = true ∧ s.hw.pwr.sleep = .run)) → (s.hw.core c).ends = false →
    ((s.hw.core c).ie = false ∨ (s.hw.core c).exl = true) →
    Becomes (.waitEnd c) s (s.hw.setCore c { s.hw.core c with run := .running, pc := (s.hw.core c).pc + 4 }))

/-- R34, R140, R143, R154, R155, R156, R378: the choice of line and core, the grant and the entry. The model's choice: an entry ends a
latched event, and on the island its pending bit (log entry 8). -/
def Obligations.InterruptsAreGrantedAndEntered : Prop :=
  (∀ (s : State) (c : CoreId) (k : Nat), s.hw.nextGrant = some (c, k) → (s.hw.core c).ends = false →
    let x := s.hw.core c
    let n := coreNum c
    let prio := s.hw.get (INTC_CFG.PRIO k)
    let h := { s.hw with lineLatch := s.hw.lineLatch.filter (· != k) }.setAct n ((k, prio) :: s.hw.act n)
    let y : Core := { x.entered (causeWord (16 + k) 0 k false false 0) 0 (if x.run = .waiting then x.pc + 4 else x.pc)
      (x.vbase + BitVec.ofNat 32 (16 * (16 + k))) with wpExempt := x.wpExempt }
    Becomes .interruptGrant s (h.setCore c y) ∧
    h.get (INTC_M_RUNPRI.PRI n) = ((k, prio) :: s.hw.act n).foldl (fun m e => min m e.2) 16 ∧
    (k < 256 → h.get (INTC_M_ACTIVE.LINE n) = k ∧ h.on (INTC_M_ACTIVE.VALID n) = true) ∧
    s.hw.deliverable n k = true ∧ x.ie = true ∧ x.exl = false ∧ c ≠ .pol) ∧
  (∀ (s : State) (k : Nat), s.hw.takesIrq .pol = true → s.hw.islandBest = some k → s.hw.pol.ends = false →
    let x := s.hw.pol
    let h := s.hw.set POL_CORE_PEND.PEND (setBit (s.hw.get POL_CORE_PEND.PEND) k false)
    Becomes .islandLineEntry s (h.setCore .pol
      { x.entered (causeWord (16 + k) 0 k false false 0) 0 (if x.run = .waiting then x.pc + 4 else x.pc)
      (x.vbase + BitVec.ofNat 32 (16 * (16 + k))) with wpExempt := x.wpExempt })) ∧
  (∀ s : State,
    let h := s.hw
    let prio := fun k => h.get (INTC_CFG.PRIO k)
    let pri := fun c => h.get (INTC_M_RUNPRI.PRI (coreNum c))
    let may := fun (c : CoreId) (k : Nat) => c ≠ .pol ∧ k < 256 ∧ h.takesIrq c = true ∧ h.deliverable (coreNum c) k = true
    (∀ c k, h.nextGrant = some (c, k) ↔ may c k ∧ (∀ d j, may d j → prio k < prio j ∨ (prio k = prio j ∧ k ≤ j)) ∧
      (∀ d, d ≠ c → may d k → pri d < pri c ∨ (pri d = pri c ∧ c = .m0))) ∧
    (h.nextGrant = none → (∀ c k, ¬ may c k) ∧ Becomes .interruptGrant s h))

/-- R145: EXL, and lockup. -/
def Obligations.ExlBlocksInterruptsAndLockupStops : Prop :=
  (∀ (s : State) (c : CoreId) (k : Nat), (s.hw.core c).exl = true → s.hw.nextGrant ≠ some (c, k)) ∧
  (∀ s : State, s.hw.pol.exl = true → Becomes .islandLineEntry s s.hw) ∧
  (∀ (s : State) (c : CoreId) (rd ra rb rc : Fin 32) (imm : BitVec 16) (far : BitVec 26) (n : Byte) (p : Bool) (lim : Option Nat) (u : Upset),
    (s.hw.core c).run ≠ .running →
    ∀ i ∈ [Instr.add c rd ra rb, .sub c rd ra rb, .and c rd ra rb, .or c rd ra rb, .xor c rd ra rb, .slt c rd ra rb, .sltu c rd ra rb, .sll c rd ra rb,
        .srl c rd ra rb, .sra c rd ra rb, .slli c rd ra rc, .srli c rd ra rc, .srai c rd ra rc, .mul c rd ra rb, .mulh c rd ra rb, .mulhu c rd ra rb,
        .div c rd ra rb, .divu c rd ra rb, .rem c rd ra rb, .remu c rd ra rb, .min c rd ra rb, .max c rd ra rb, .minu c rd ra rb, .maxu c rd ra rb,
        .clz c rd ra, .popc c rd ra, .bswap c rd ra] ++
      [Instr.addi c rd ra imm, .andi c rd ra imm, .ori c rd ra imm, .xori c rd ra imm, .slti c rd ra imm, .sltiu c rd ra imm, .lui c rd imm, .pcaddh c rd imm] ++
      [Instr.lb c rd ra imm, .lbu c rd ra imm, .lh c rd ra imm, .lhu c rd ra imm, .lw c rd ra imm u, .sb c rd ra imm, .sh c rd ra imm, .sw c rd ra imm,
        .flw c rd ra imm, .fld c rd ra imm, .fsw c rd ra imm, .fsd c rd ra imm] ++
      [Instr.beq c ra rb imm, .bne c ra rb imm, .blt c ra rb imm, .bge c ra rb imm, .bltu c ra rb imm, .bgeu c ra rb imm, .jmp c far, .call c far, .jr c ra,
        .callr c ra] ++
      [Instr.ll c rd ra, .sc c rd ra rb, .amoswap c rd ra rb, .amoadd c rd ra rb, .amoand c rd ra rb, .amoor c rd ra rb, .amoxor c rd ra rb,
        .amomax c rd ra rb, .amomin c rd ra rb, .amocas c rd ra rb] ++
      [Instr.fence c, .fenceWd c, .isync c, .dcwb c ra, .dcwbi c ra, .dcinv c ra, .icinv c ra, .icinvAll c] ++
      [Instr.bmov c rd ra rb lim, .bfil c rd ra rb lim, .crcb c rd ra rb lim, .ldm c ra rb rc p lim, .stm c ra rb rc p lim] ++
      [Instr.fadd c p rd ra rb, .fsub c p rd ra rb, .fmul c p rd ra rb, .fdiv c p rd ra rb, .fsqrt c p rd ra, .fmin c p rd ra rb, .fmax c p rd ra rb,
        .fabs c p rd ra, .fneg c p rd ra, .fmov c p rd ra, .fcvt c p rd ra, .ftoi c p rd ra, .itof c p rd ra, .feq c p rd ra rb, .flt c p rd ra rb,
        .fle c p rd ra rb, .fmvg c p rd ra, .fmvf c p rd ra, .frfsr c rd, .fwfsr c ra] ++
      [Instr.fmadd c p rd ra rb rc, .fmsub c p rd ra rb rc, .fnmadd c p rd ra rb rc, .fnmsub c p rd ra rb rc, .slc c n, .trap c n, .eret c, .wait c,
        .mfs c rd rc, .mts c rc ra, .brk c n, .illegal c],
      Becomes i s s.hw)

/-- R147, R148, R171: one element of a long instruction over normal memory. Readings of the model: log entry 38. -/
def Obligations.LongInstructionsMoveOneElementAtATime : Prop :=
  ∀ (c : CoreId) (rd ra rb : Fin 32) (s : State), s.hw.Ready c → rd ≠ ra → rd ≠ rb → ra ≠ rb → rd ≠ 0 → ra ≠ 0 → rb ≠ 0 →
    let h := s.hw.issued c false
    let d := (h.gr c rd).toNat
    let a := (h.gr c ra).toNat
    let cnt := (h.gr c rb).toNat
    let pc := (s.hw.core c).pc
    let fits := fun (p n : Nat) => n = min cnt (64 - p % 64)
    let ends := fun (i : Option Nat → Instr) (n : Nat) (t : Hw) =>
      (n = cnt → Becomes (i none) s (t.goes c (pc + 4))) ∧ (n < cnt → Becomes (i (some 1)) s (t.goes c pc))
    (cnt = 0 → ∀ i ∈ [Instr.bmov c rd ra rb none, .bfil c rd ra rb none, .crcb c rd ra rb none], Becomes i s (h.goes c (pc + 4))) ∧
    (∀ n, 0 < cnt → fits d n → h.CanStore c d n 1 →
      let bs := List.replicate n ((h.gr c ra).truncate 8)
      let k := h.coreMemStore c d bs
      ends (.bfil c rd ra rb) n ((k.setGr c rd (BitVec.ofNat 32 (d + n))).setGr c rb (BitVec.ofNat 32 (cnt - n))) ∧ Stored s.hw k d bs) ∧
    (∀ n, 0 < cnt → fits a n → h.CanLoad c a n 1 →
      ends (.crcb c rd ra rb) n ((((h.loaded c a n).setGr c rd (crcUpdate (h.gr c rd) (s.hw.bytes a n))).setGr c ra (BitVec.ofNat 32 (a + n))).setGr c rb (BitVec.ofNat 32 (cnt - n)))) ∧
    (∀ n, 0 < cnt → fits d n → h.CanLoad c a n 1 →
      let lap := a < d ∧ d < a + cnt
      let k := if lap then ((h.loaded c a n).drawBytes n).1 else h.loaded c a n
      k.CanStore c d n 1 →
      ∃ bs : List Byte, bs.length = n ∧ (∀ i, i < n → ¬ (lap ∧ d + i < a + cnt) → bs.getD i 0 = s.hw.byte (a + i)) ∧
        let t := k.coreMemStore c d bs
        ends (.bmov c rd ra rb) n (((t.setGr c rd (BitVec.ofNat 32 (d + n))).setGr c ra (BitVec.ofNat 32 (a + n))).setGr c rb (BitVec.ofNat 32 (cnt - n))) ∧
        Stored s.hw t d bs)

/-- R147, R148, R172: LDM and STM over normal memory; the registers not yet done are `resumeList` of the ascending order. -/
def Obligations.LoadAndStoreMultipleGoRegisterByRegister : Prop :=
  ∀ (c : CoreId) (first base last : Fin 32) (wb : Bool) (s : State), s.hw.Ready c → 1 ≤ first.val → first.val ≤ last.val →
    let h := s.hw.issued c true
    let b := h.gr c base
    let pc := (s.hw.core c).pc
    let adr := fun (j : Nat) => (b + BitVec.ofNat 32 (4 * (j - first.val))).toNat
    let listed := first.val ≤ base.val ∧ base.val ≤ last.val
    let done := fun (t : Hw) => t.setEprog c ((t.core c).eprog &&& 0x7FFFFFFF)
    let close := fun (t : Hw) => t.setGr c base (b + BitVec.ofNat 32 (4 * (last.val - first.val + 1)))
    (let ld := fun (k : Hw) (j : Nat) => (k.loaded c (adr j) 4).setGr c (regNo j) (BitVec.ofNat 32 (leNat (s.hw.bytes (adr j) 4)));
      let l := h.resumeList c (ldmOrder first last base true);
      (∀ l1 j l2, l = l1 ++ j :: l2 → (l1.foldl ld h).CanLoad c (adr j) 4) →
      (let t := done (l.foldl ld h);
        Becomes (.ldm c first base last wb none) s ((if wb = true ∧ ¬ listed then close t else t).goes c (pc + 4))) ∧
      (∀ l1 j l2, l = l1 ++ j :: l2 → Becomes (.ldm c first base last wb (some l1.length)) s (((l1.foldl ld h).setEprog c (progWord true j)).goes c pc))) ∧
    (let sto := fun (k : Hw) (j : Nat) => k.coreMemStore c (adr j) (leBytes 4 (h.gr c (regNo j)).toNat);
      let l := h.resumeList c (ldmOrder first last base false);
      (∀ l1 j l2, l = l1 ++ j :: l2 → (l1.foldl sto h).CanStore c (adr j) 4) →
      (let t := done (l.foldl sto h);
        Becomes (.stm c first base last wb none) s ((if wb = true then close t else t).goes c (pc + 4))) ∧
      (∀ l1 j l2, l = l1 ++ j :: l2 →
        Becomes (.stm c first base last wb (some l1.length)) s (((l1.foldl sto h).setEprog c (progWord true j)).goes c pc) ∧
        Stored (l1.foldl sto h) (sto (l1.foldl sto h) j) (adr j) (leBytes 4 (h.gr c (regNo j)).toNat)))

/-- R173, R174: results, flags and traps of the FPU; the operations' exact data are `fAdd` and its like. -/
def Obligations.FloatingPointOperationsRoundOnceAndRecordFlags : Prop :=
  ∀ (c : CoreId) (p : Bool) (rd ra rb rc : Fin 32) (s : State), s.hw.Ready c → c ≠ .pol →
    let h := s.hw.issued c false
    let x := h.core c
    let fz := x.fsr.getLsbD 16
    let rm := x.fsr.toNat / 2 ^ 12 % 4
    let f := if p then fmt64 else fmt32
    let arg := fun (i : Fin 32) => unpack f fz (if p then (h.fr c i).toNat else (h.fr c i).toNat % 2 ^ 32)
    let u := arg ra
    let v := arg rb
    let w := arg rc
    let pc := (s.hw.core c).pc
    let neg := fun (r : FVal × FFlags) => (r.1.neg, r.2)
    let ends := fun (i : Instr) (fl : FFlags) (write : Hw → Hw) =>
      let g := if fl.flushed then h.drawn else h
      let k := g.setCore c { x with fsr := fsrWith x.fsr fl (Config.freeValue (g.freeCtr - 1)) }
      (fsrTrap x.fsr fl = 0 → Becomes i s ((write k).goes c (pc + 4))) ∧
      (fsrTrap x.fsr fl ≠ 0 → h.Uncaught c → Becomes i s (k.takes c 11 (fsrTrap x.fsr fl) 0 0 false 0));
    x.fpe = true →
    (∀ q ∈ [
      (Instr.fadd c p rd ra rb, f, fAdd rm u v), (.fsub c p rd ra rb, f, fAdd rm u v.neg), (.fmul c p rd ra rb, f, fMul u v),
      (.fdiv c p rd ra rb, f, fDiv f.p u v), (.fsqrt c p rd ra, f, fSqrt f.p u), (.fmin c p rd ra rb, f, fMinMax false u v),
      (.fmax c p rd ra rb, f, fMinMax true u v),
      (.fcvt c p rd ra, (if p then fmt32 else fmt64), (if u.isNan then (.nan false, { nv := u.snan }) else (u, {}))),
      (.itof c p rd ra, f, (.fin ((h.gr c ra).toInt < 0) (h.gr c ra).toInt.natAbs 0, {})),
      (.fmadd c p rd ra rb rc, f, fFma rm u v w), (.fmsub c p rd ra rb rc, f, fFma rm u v w.neg),
      (.fnmadd c p rd ra rb rc, f, neg (fFma rm u v w)), (.fnmsub c p rd ra rb rc, f, neg (fFma rm u v w.neg))],
      let r := packV q.2.1 rm fz q.2.2.1
      ends q.1 (q.2.2.2.or r.2) (fun k => k.setFr c rd (BitVec.ofNat 64 r.1))) ∧
    (∀ q ∈ [
      (Instr.feq c p rd ra rb, ({ nv := u.snan || v.snan } : FFlags), (if fCmp u v = some .eq then 1 else 0 : Word)),
      (.flt c p rd ra rb, { nv := u.isNan || v.isNan }, if fCmp u v = some .lt then 1 else 0),
      (.fle c p rd ra rb, { nv := u.isNan || v.isNan }, if fCmp u v = some .lt ∨ fCmp u v = some .eq then 1 else 0),
      (.ftoi c p rd ra, (fToI rm u).2, (fToI rm u).1)],
      ends q.1 q.2.1 (fun k => k.setGr c rd q.2.2))

/-- R173 and the table "Core FPU functions": the moves. -/
def Obligations.FloatingPointMovesChangeNoFlag : Prop :=
  ∀ (c : CoreId) (p : Bool) (rd ra : Fin 32) (s : State), s.hw.Ready c → c ≠ .pol →
    let h := s.hw.issued c false
    let x := h.core c
    let b := if p then (h.fr c ra).toNat else (h.fr c ra).toNat % 2 ^ 32
    let sign := if p then 2 ^ 63 else 2 ^ 31
    let old := (h.fr c rd).toNat
    let g := (h.gr c ra).toNat
    let pc := (s.hw.core c).pc
    x.fpe = true →
    (∀ q ∈ [(Instr.fabs c p rd ra, b % sign), (.fneg c p rd ra, if b < sign then b + sign else b - sign), (.fmov c p rd ra, b),
        (.fmvf c p rd ra, if p then g * 2 ^ 32 + old % 2 ^ 32 else old / 2 ^ 32 * 2 ^ 32 + g)],
      Becomes q.1 s ((h.setFr c rd (BitVec.ofNat 64 q.2)).goes c (pc + 4))) ∧
    Becomes (.fmvg c p rd ra) s ((h.setGr c rd (BitVec.ofNat 32 (if p then (h.fr c ra).toNat / 2 ^ 32 else (h.fr c ra).toNat))).goes c (pc + 4)) ∧
    Becomes (.frfsr c rd) s ((h.setGr c rd x.fsr).goes c (pc + 4)) ∧
    Becomes (.fwfsr c ra) s ((h.setCore c { x with fsr := h.gr c ra &&& 0x1371F }).goes c (pc + 4))

/-- R173: IEEE 754 arithmetic with one rounding. -/
def Obligations.FloatingPointDataAreExactBeforeRounding : Prop :=
  let val := fun (n : Bool) (m : Nat) (e : Int) => (if n then -1 else 1 : ℚ) * m * (2 : ℚ) ^ e
  (∀ (rm : Rm) (a b : Bool) (m n : Nat) (e k : Int),
    (∃ r t q, fAdd rm (.fin a m e) (.fin b n k) = (.fin r t q, {}) ∧ val r t q = val a m e + val b n k) ∧
    (∃ r t q, fMul (.fin a m e) (.fin b n k) = (.fin r t q, {}) ∧ val r t q = val a m e * val b n k) ∧
    (∀ (d : Bool) (o : Nat) (j : Int), ∃ r t q, fFma rm (.fin a m e) (.fin b n k) (.fin d o j) = (.fin r t q, {}) ∧
      val r t q = val a m e * val b n k + val d o j) ∧
    fCmp (.fin a m e) (.fin b n k) = some (if val a m e < val b n k then .lt else if val a m e = val b n k then .eq else .gt)) ∧
  (∀ f ∈ [fmt32, fmt64], ∀ (rm : Rm) (b : Nat), b < 2 ^ (f.w + f.p) →
    ∀ n m e, unpack f false b = .fin n m e → packV f rm false (.fin n m e) = (b, {}))

/-- R176 to R179: results per lane. Readings of the model: log entry 126. -/
def Obligations.LaneArithmeticWritesParticipatingLanes : Prop :=
  ∀ (g : Fin 16) (hd : LaneHdr) (kd : Fin 8) (t : Fin 16) (la lb lc : Fin 64) (imm : Word) (s : State), s.hw.LaneReady g →
    let h := s.hw
    let w := h.gwidth g
    let L := fun (i r : Nat) => h.lreg g i r
    let x := fun (v : Word) => laneA t (lf v)
    let y := fun (v : Word) => laneB t (lf v)
    let pc := (h.grp g).pc + 8
    (∀ p ∈ [
      (Instr.laneIadd g hd la lb, fun i => (L i la) + (L i lb)), (.laneImmediateForm g hd 0x50 0 0 la imm, fun i => (L i la) + imm),
      (Instr.laneIsub g hd la lb, fun i => (L i la) - (L i lb)), (.laneImmediateForm g hd 0x51 0 0 la imm, fun i => (L i la) - imm),
      (Instr.laneImul g hd la lb, fun i => (L i la) * (L i lb)), (.laneImmediateForm g hd 0x52 0 0 la imm, fun i => (L i la) * imm),
      (Instr.laneAnd g hd la lb, fun i => (L i la) &&& (L i lb)), (.laneImmediateForm g hd 0x55 0 0 la imm, fun i => (L i la) &&& imm),
      (Instr.laneOr g hd la lb, fun i => (L i la) ||| (L i lb)), (.laneImmediateForm g hd 0x56 0 0 la imm, fun i => (L i la) ||| imm),
      (Instr.laneXor g hd la lb, fun i => (L i la) ^^^ (L i lb)), (.laneImmediateForm g hd 0x57 0 0 la imm, fun i => (L i la) ^^^ imm),
      (Instr.laneShl g hd la lb, fun i => (L i la) <<< ((L i lb).toNat % 32)), (.laneImmediateForm g hd 0x58 0 0 la imm, fun i => (L i la) <<< (imm.toNat % 32)),
      (Instr.laneShr g hd la lb, fun i => (L i la) >>> ((L i lb).toNat % 32)), (.laneImmediateForm g hd 0x59 0 0 la imm, fun i => (L i la) >>> (imm.toNat % 32)),
      (Instr.laneSar g hd la lb, fun i => (L i la).sshiftRight ((L i lb).toNat % 32)), (.laneImmediateForm g hd 0x5a 0 0 la imm, fun i => (L i la).sshiftRight (imm.toNat % 32)),
      (Instr.laneImin g hd la lb, fun i => if (L i la).toInt < (L i lb).toInt then (L i la) else (L i lb)), (.laneImmediateForm g hd 0x5b 0 0 la imm, fun i => if (L i la).toInt < imm.toInt then (L i la) else imm),
      (Instr.laneImax g hd la lb, fun i => if (L i la).toInt < (L i lb).toInt then (L i lb) else (L i la)), (.laneImmediateForm g hd 0x5c 0 0 la imm, fun i => if (L i la).toInt < imm.toInt then imm else (L i la)),
      (.laneImad g hd la lb lc, fun i => L i la * L i lb + L i lc), (.laneImmediateForm g hd 0x54 0 0 la imm, fun i => L i la * imm + L i hd.ld),
      (.laneImulh g hd 0 la lb, fun i => mulHi (L i la) (L i lb)), (.laneImmediateForm g hd 0x53 0 0 la imm, fun i => mulHi (L i la) imm),
      (.laneImulh g hd 1 la lb, fun i => mulHiU (L i la) (L i lb)), (.laneImmediateForm g hd 0x53 0 1 la imm, fun i => mulHiU (L i la) imm),
      (.laneSel g hd kd la lb, fun i => if bitOf (h.kreg g kd) i then L i la else L i lb), (.laneImmediateForm g hd 0x5e kd 0 la imm, fun i => if bitOf (h.kreg g kd) i then L i la else imm),
      (.lanePopc g hd la, fun i => popW (L i la)), (.laneImmediateForm g hd 0x5f 0 0 la 0, fun i => popW (L i la)),
      (.laneFtoi g hd la, fun i => (fToI 1 (lf (L i la))).1), (.laneImmediateForm g hd 0x69 0 0 la 0, fun i => (fToI 1 (lf (L i la))).1),
      (.laneItof g hd la, fun i => lp (fOfI (L i la))), (.laneImmediateForm g hd 0x6a 0 0 la 0, fun i => lp (fOfI (L i la))),
      (.laneMov g hd la, fun i => (L i la)), (.laneImmediateForm g hd 0x6b 0 0 la 0, fun i => (L i la)),
      (.laneShfl g hd la lb, fun i => L ((L i lb).toNat % w) la),
      (.laneShfli g hd la imm, fun i => L (imm.toNat % w) la),
      (.laneShflx g hd la lb, fun i => L ((i ^^^ (L i lb).toNat % 32) % w) la),
      (.laneShflxi g hd la imm, fun i => L ((i ^^^ imm.toNat % 32) % w) la),
      (.laneVote g hd kd, fun _ => BitVec.ofNat 32 ((h.grp g).act &&& h.kreg g kd))],
      Becomes p.1 s ((h.lanesPut g hd p.2).laneAt g pc)) ∧
    (t.val < 8 → ∀ p ∈ [
      (Instr.laneFadd g hd t la lb, fun i => lp (fAdd 0 (x (L i la)) (y (L i lb))).1), (.laneImmediateForm g hd 0x60 0 t la imm, fun i => lp (fAdd 0 (x (L i la)) (y imm)).1),
      (Instr.laneFsub g hd t la lb, fun i => lp (fAdd 0 (x (L i la)) (y (L i lb)).neg).1), (.laneImmediateForm g hd 0x61 0 t la imm, fun i => lp (fAdd 0 (x (L i la)) (y imm).neg).1),
      (Instr.laneFmul g hd t la lb, fun i => lp (fMul (x (L i la)) (y (L i lb))).1), (.laneImmediateForm g hd 0x62 0 t la imm, fun i => lp (fMul (x (L i la)) (y imm)).1),
      (Instr.laneFmin g hd t la lb, fun i => lp (fMinMax false (x (L i la)) (y (L i lb))).1), (.laneImmediateForm g hd 0x64 0 t la imm, fun i => lp (fMinMax false (x (L i la)) (y imm)).1),
      (Instr.laneFmax g hd t la lb, fun i => lp (fMinMax true (x (L i la)) (y (L i lb))).1), (.laneImmediateForm g hd 0x65 0 t la imm, fun i => lp (fMinMax true (x (L i la)) (y imm)).1),
      (.laneFfma g hd t la lb lc, fun i => lp (fFma 0 (x (L i la)) (y (L i lb)) (lf (L i lc))).1), (.laneImmediateForm g hd 0x63 0 t la imm, fun i => lp (fFma 0 (x (L i la)) (y imm) (lf (L i hd.ld))).1),
      (.laneFrcp g hd t la, fun i => within1ulp (Config.frcpPick (L i la)) (fDiv 24 (.fin false 1 0) (x (L i la))).1), (.laneImmediateForm g hd 0x67 0 t la 0, fun i => within1ulp (Config.frcpPick (L i la)) (fDiv 24 (.fin false 1 0) (x (L i la))).1),
      (.laneFrsq g hd t la, fun i => within1ulp (Config.frsqPick (L i la)) (rsqrtV (x (L i la)))), (.laneImmediateForm g hd 0x68 0 t la 0, fun i => within1ulp (Config.frsqPick (L i la)) (rsqrtV (x (L i la))))],
      Becomes p.1 s ((h.lanesPut g hd p.2).laneAt g pc)) ∧
    (∀ i, i ∈ h.taking g hd ↔ i < w ∧ bitOf (h.grp g).act i = true ∧ (hd.pe = true → bitOf (h.kreg g hd.kg) i ≠ hd.pn)) ∧
    (∀ (v : Nat → Word) (j r : Nat), j < w → r < 64 →
      (h.lanesPut g hd v).lreg g j r = if r = hd.ld ∧ j ∈ h.taking g hd then v j else L j r)

/-- R177, R178, R182 and the tables of lane ops and special values. Readings of the model: log entry 13. -/
def Obligations.LanePredicatesAndSpecialValues : Prop :=
  ∀ (g : Fin 16) (hd : LaneHdr) (kd ka kb : Fin 8) (la lb : Fin 64) (imm : Word) (s : State), s.hw.LaneReady g →
    let h := s.hw
    let pc := (h.grp g).pc + 8
    let cmpI := fun (a b : Word) => [a == b, a != b, decide (a.toInt < b.toInt), decide (a.toInt ≤ b.toInt), decide (b.toInt < a.toInt),
      decide (b.toInt ≤ a.toInt), decide (a.toNat < b.toNat), decide (b.toNat ≤ a.toNat)]
    let cmpF := fun (a b : Word) =>
      let o := fCmp (lf a) (lf b)
      [o == some .eq, o != some .eq, o == some .lt, o == some .lt || o == some .eq, o == some .gt, o == some .gt || o == some .eq]
    let k := fun (r i : Nat) => bitOf (h.kreg g r) i
    (hd.ld = 0 →
      (∀ t : Fin 16, t.val < 8 →
        Becomes (.laneIcmp g hd kd t la lb) s ((h.lanesFlag g hd kd (fun i => (cmpI (h.lreg g i la) (h.lreg g i lb)).getD t false)).laneAt g pc) ∧
        Becomes (.laneImmediateForm g hd 0x5d kd t la imm) s ((h.lanesFlag g hd kd (fun i => (cmpI (h.lreg g i la) imm).getD t false)).laneAt g pc)) ∧
      (∀ t : Fin 16, t.val < 6 →
        Becomes (.laneFcmp g hd kd t la lb) s ((h.lanesFlag g hd kd (fun i => (cmpF (h.lreg g i la) (h.lreg g i lb)).getD t false)).laneAt g pc) ∧
        Becomes (.laneImmediateForm g hd 0x66 kd t la imm) s ((h.lanesFlag g hd kd (fun i => (cmpF (h.lreg g i la) imm).getD t false)).laneAt g pc)) ∧
      (∀ t : Fin 16, t.val < 7 → Becomes (.laneKop g hd kd t ka kb) s
        ((h.lanesFlag g hd kd (fun i => [k ka i && k kb i, k ka i || k kb i, k ka i != k kb i, k ka i && !k kb i, true, false, !k ka i].getD t false)).laneAt g pc)) ∧
      Becomes (.laneNop g hd false) s (h.laneAt g pc) ∧
      Becomes (.laneLfence g hd 0) s (h.laneAt g pc) ∧
      (h.taking g hd ≠ [] → ∀ a : Fin 16, a = 1 ∨ a = 2 → Becomes (.laneLfence g hd a) s ((h.l1Flush g).laneAt g pc))) ∧
    (∀ n : Nat, n < 16 → n ≠ 5 → n ≠ 6 → Becomes (.laneSval g hd (BitVec.ofNat 32 n)) s
      ((h.lanesPut g hd (fun i => [BitVec.ofNat 32 i, BitVec.ofNat 32 (h.gwidth g), BitVec.ofNat 32 (g / 4), BitVec.ofNat 32 (g % 4),
        BitVec.ofNat 32 ((h.kernOf g).map (·.tid) |>.getD 0), 0, 0, BitVec.ofNat 32 ((h.grp g).snap.getD 0 / 2 ^ 32)].getD n
          ((((h.kernOf g).map (·.args)).getD []).getD (n - 8) 0))).laneAt g pc)) ∧
    (h.taking g hd ≠ [] → Becomes (.laneSval g hd 6) s (let t := h.lanesPut g hd (fun _ => BitVec.ofNat 32 h.clk.tb.toNat)
      (t.setGrp g { t.grp g with snap := some h.clk.tb.toNat }).laneAt g pc)) ∧
    (h.taking g hd ≠ [] → ∃ v : Word, Becomes (.laneSval g hd 5) s ((h.lanesPut g hd (fun _ => v)).drawn.laneAt g pc)) ∧
    (∀ (b : Nat → Bool) (j r : Nat), j < h.gwidth g → r < 8 →
      bitOf ((h.lanesFlag g hd kd b).kreg g r) j = if r = kd ∧ j ∈ h.taking g hd then b j else k r j)
/-- R184, R185 and the table of lane control instructions. Readings of the model: log entries 33 and 154. -/
def Obligations.LaneControlKeepsTheStack : Prop :=
  ∀ (g : Fin 16) (c : LaneCtl) (s : State), s.hw.LaneReady g →
    let h := s.hw
    let x := h.grp g
    let next := x.pc + 8
    let far := laneTarget x.pc c.off
    let d := x.act &&& h.cond g c
    let goes := fun (i : Instr) (y : LaneGrp) (pc : Nat) => Becomes i s ((h.setGrp g y).laneAt g pc)
    let faults := fun (i : Instr) (cause : Nat) => Becomes i s (h.laneFault g cause x.act 0)
    let noCondition := c.kc = 0 ∧ c.cn = false
    goes (.laneEnd g) { x with ended := true } next ∧
    (c.off = 0 → goes (.laneExit g c) { x with
      act := minus x.act d, live := minus x.live d, ended := minus x.live d == 0
      stack := x.stack.map (fun e => { e with m := minus e.m d, t := minus e.t d }) } next) ∧
    (c.off ≠ 0 → ∀ i ∈ [Instr.laneExit g c, .laneBrk g c, .laneCont g c], faults i 1) ∧
    (¬ noCondition → ∀ i ∈ [Instr.laneElse g c, .laneJmp g c false, .laneJmp g c true], faults i 1) ∧
    (x.stack.length < 16 →
      goes (.laneIf g c) { x with act := d, stack := ⟨0, x.act, d, 0⟩ :: x.stack } (if d = 0 then far else next) ∧
      goes (.laneLoop g) { x with stack := ⟨2, x.act, 0, next⟩ :: x.stack } next) ∧
    (16 ≤ x.stack.length → faults (.laneIf g c) 4 ∧ faults (.laneLoop g) 4) ∧
    (∀ e t, x.stack = e :: t →
      (e.kind = 0 → noCondition → goes (.laneElse g c) { x with act := minus e.m e.t, stack := { e with kind := 1 } :: t } (if minus e.m e.t = 0 then far else next)) ∧
      (e.kind ≠ 2 → goes (.laneEndif g) { x with act := e.m, stack := t } next) ∧
      (e.kind = 2 → x.act ||| e.t ≠ 0 → goes (.laneEndl g) { x with act := x.act ||| e.t, stack := { e with t := 0 } :: t } e.start) ∧
      (e.kind = 2 → x.act ||| e.t = 0 → goes (.laneEndl g) { x with act := e.m, stack := t } next) ∧
      (e.kind ≠ 0 → noCondition → faults (.laneElse g c) 5) ∧ (e.kind = 2 → faults (.laneEndif g) 5) ∧ (e.kind ≠ 2 → faults (.laneEndl g) 5)) ∧
    (x.stack = [] → (∀ i ∈ [Instr.laneEndif g, .laneEndl g], faults i 5) ∧ (noCondition → faults (.laneElse g c) 5)) ∧
    ((∀ e ∈ x.stack, e.kind ≠ 2) → c.off = 0 → ∀ i ∈ [Instr.laneBrk g c, .laneCont g c], faults i 5) ∧
    ((∃ e ∈ x.stack, e.kind = 2) → c.off = 0 →
      goes (.laneBrk g c) { x with act := minus x.act d, stack := removeAbove d x.stack } next ∧
      goes (.laneCont g c) { x with act := minus x.act d, stack := removeAbove d (addCont d x.stack) } next) ∧
    (∀ p ∈ [(Instr.laneJmp g { c with kc := 0, cn := false }, true), (.laneBany g c, d != 0), (.laneBall g c, d == x.act), (.laneBnone g c, d == 0)],
      Becomes (p.1 false) s (h.laneAt g (if p.2 then far else next)) ∧
      (p.2 = false → Becomes (p.1 true) s (h.laneAt g next)) ∧
      (p.2 = true → ∃ a st n, Becomes (p.1 true) s ((({ h with freeCtr := n } : Hw).setGrp g { x with act := a, stack := st }).laneAt g far)))

/-- R86, R180 to R183, R186, R351: lane memory, what waits, and faults at the fetch. Readings of the model: log entries 31, 39 and 154. -/
def Obligations.LaneMemoryGoesThroughLmemL1OrTheHub : Prop :=
  ∀ (g : Fin 16) (hd : LaneHdr) (sz : Fin 3) (spc : Fin 3) (aop : Fin 5) (la ls : Fin 64) (off : BitVec 24) (s : State) (k : Kernel), s.hw.LaneReady g →
    s.hw.kernOf g = some k → (s.hw.grp g).act ≠ 0 →
    let h := s.hw
    let pc := (h.grp g).pc + 8
    let n := 2 ^ sz.val
    let sz4 : Fin 4 := ⟨sz.val, by omega⟩
    let spc4 : Fin 4 := ⟨spc.val, by omega⟩
    let at' := fun (i : Nat) => (h.lreg g i la + off.signExtend 32).toNat
    let lanes := fun (m : Nat) (rd wr atom : Bool) => (h.taking g hd).map (fun i => (i, h.laneWhere k spc (at' i) m rd wr atom))
    let waits := fun (l : List (Nat × LPath × Nat × Nat)) (m : Nat) => l.any (fun e => h.laneHeld g e.2.1 e.2.2.1 m)
    let bad := fun (l : List (Nat × LPath × Nat × Nat)) => firstFault (l.map (fun e => (e.1, e.2.2.2, at' e.1)))
    let refused := fun (l : List (Nat × LPath × Nat × Nat)) (m c : Nat) (rd wr : Bool) =>
      if c = 9 then h.laneViol k (l.map (fun e => (e.2.1, e.2.2.2, at' e.1))) m rd wr else h
    (hd.ld.val % n = 0 →
      let l := lanes (4 * n) true false false
      (∀ c m a, bad l = some (c, m, a) → Becomes (.laneLd g hd sz4 spc4 la off .none) s ((refused l (4 * n) c true false).laneFault g c m a)) ∧
      (bad l = none → waits l (4 * n) = true → Becomes (.laneLd g hd sz4 spc4 la off .none) s h) ∧
      (bad l = none → waits l (4 * n) = false →
        let r := l.foldl (fun (p : Hw × List (Nat × Nat × Nat) × List (Nat × List Word)) e =>
          let q := p.1.laneRead g e.2.1 e.2.2.1 (4 * n)
          if q.2.1 then (q.1, p.2.1, p.2.2 ++ [(e.1, wordsOf q.2.2 n)]) else (q.1, p.2.1 ++ [(e.1, 10, at' e.1)], p.2.2)) (h, [], [])
        (r.2.1 = [] → Becomes (.laneLd g hd sz4 spc4 la off .none) s ((r.2.2.foldl (fun h e => h.putWords g e.1 hd.ld e.2) r.1).laneAt g pc)) ∧
        (∀ c m a, firstFault r.2.1 = some (c, m, a) → Becomes (.laneLd g hd sz4 spc4 la off .none) s (r.1.laneFault g c m a)))) ∧
    (hd.ld = 0 → ls.val % n = 0 →
      let l := lanes (4 * n) false true false;
      (∀ c m a, bad l = some (c, m, a) → Becomes (.laneSt g hd sz4 spc4 la ls off) s ((refused l (4 * n) c false true).laneFault g c m a)) ∧
      let poison := firstFault (l.map (fun e => (e.1, if e.2.1 ≠ .lmem ∧ h.linePoisoned e.2.2.1 (4 * n) = true then 10 else 0, at' e.1)));
      (∀ c m a, bad l = none → waits l (4 * n) = false → poison = some (c, m, a) → Becomes (.laneSt g hd sz4 spc4 la ls off) s (h.laneFault g c m a)) ∧
      (bad l = none → waits l (4 * n) = false → poison = none → Becomes (.laneSt g hd sz4 spc4 la ls off) s
        ((l.foldl (fun h' e => h'.laneStore g e.2.1 e.2.2.1 ((List.range n).flatMap (fun j => leBytes 4 (h.lreg g e.1 (ls + j)).toNat))) h).laneAt g pc))) ∧
    (let aop16 : Fin 16 := ⟨aop.val, by omega⟩
      let l := lanes 4 true true true;
      (∀ c m a, bad l = some (c, m, a) → Becomes (.laneAtom g hd spc4 aop16 la ls off) s ((refused l 4 c true true).laneFault g c m a)) ∧
      (bad l = none → waits l 4 = false →
      let r := l.foldl (fun (p : Hw × List (Nat × Nat × Nat)) e =>
        let q := p.1.laneRead g e.2.1 e.2.2.1 4
        if q.2.1 then
          let old := BitVec.ofNat 32 (leNat q.2.2)
          let h' := q.1.laneStore g e.2.1 e.2.2.1 (leBytes 4 (atomFn aop old (h.lreg g e.1 ls)).toNat)
          (h'.setLreg g e.1 hd.ld old, p.2)
        else (q.1, p.2 ++ [(e.1, 10, at' e.1)])) (h, []);
      (r.2 = [] → Becomes (.laneAtom g hd spc4 aop16 la ls off) s (r.1.laneAt g pc)) ∧
      (∀ c m a, firstFault r.2 = some (c, m, a) → Becomes (.laneAtom g hd spc4 aop16 la ls off) s
        ((l.foldl (fun h e => (h.laneRead g e.2.1 e.2.2.1 4).1) h).laneFault g c m a)))) ∧
    (let r := (h.taking g hd).foldl (fun (p : Hw × List (Nat × Nat × Nat) × List (Nat × Word)) i =>
        match p.1.handleAddr k.tid iniLane 4 (h.lreg g i la) with
        | (h', some a) => (h', p.2.1, p.2.2 ++ [(i, BitVec.ofNat 32 a + off.signExtend 32)])
        | (h', none) => (h', p.2.1 ++ [(i, 8, (h.lreg g i la).toNat)], p.2.2)) (h, [], []);
      (h.peOn = false → Becomes (.laneHaddr g hd la off) s h) ∧
      (h.peOn = true → r.2.1 = [] → Becomes (.laneHaddr g hd la off) s ((r.2.2.foldl (fun h e => h.setLreg g e.1 hd.ld e.2) r.1).laneAt g pc)) ∧
      (∀ c m a, h.peOn = true → firstFault r.2.1 = some (c, m, a) → Becomes (.laneHaddr g hd la off) s (r.1.laneFault g c m a))) ∧
    (∀ (q : LPath) (a m : Nat) (bs : List Byte), q ≠ .l1 →
      SameMemory h (h.laneRead g q a m).1 ∧ (h.laneRead g q a m).2.2 = h.bytes a m ∧
      (bs ≠ [] → bs.length ≤ 16 → h.dmaMapped k.tid a bs.length true = true → Stored h (h.laneStore g q a bs) a bs)) ∧
    Becomes (.illegalOp g) s (h.laneFault g 1 (h.grp g).act 0) ∧
    Becomes (.laneNop g hd true) s (({ h with istoreBad := h.istoreBad ++ [h.istAddr g (h.grp g).pc] } : Hw).laneFault g 3 (h.grp g).act 0)

/-- R50 to R52, R62, R64, R66, R67: power-up. -/
def Obligations.PowerUpRunsItsSequence : Prop :=
  ∀ s : State,
    let h := s.hw
    (h.pwr.phase = .unpowered → ∀ (cold ircLost : Bool) (lsx irc : Nat),
      let keep := !cold && !h.pwr.retLost && h.sealOk
      Completes (.powerUp cold ircLost lsx irc) s (fun t =>
        t.pwr.phase = .vcoreRamp ∧ t.pwr.coreEn = true ∧ t.pwr.bermActive = false ∧
        t.reads [(PWR_RST_CAUSE.CAUSE, if keep then 1 else 2), (PWR_RST_CAUSE.COLD, b2n (!keep && cold)), (PWR_RST_CAUSE.MULTI, 0),
          (PWR_RST_CAUSE.CORE_RETRY, 0), (PWR_RST_CAUSE.BROWNOUT, b2n h.pwr.brownout), (PWR_RST_CAUSE.FLUSH_INCOMPLETE, b2n (keep && h.pwr.bermActive))] ∧
        (keep = true → t.bak.tbSave = h.bak.tbSave ∧ t.mem = mcanon (fun _ => 0) h.mem) ∧
        (keep = false → t.bak.tbSave = 0 ∧ t.reads [(CLK_TB_STAT.VALID, 0), (PWR_RST_CAUSE.FLUSHED, 0)]))) ∧
    (h.pwr.phase = .vcoreRamp →
      Becomes .vcoreGood s { h with pwr := { h.pwr with phase := .avsStart, avsQ := [.status, .write 800], avsFails := 0 } } ∧
      Becomes .coreRetry s (h.set PWR_RST_CAUSE.CORE_RETRY 1)) ∧
    (∀ x rest, h.pwr.avsQ = x :: rest →
      Completes (.avsTransactionDone true) s (fun t =>
        t.pwr.avsQ = rest ∧ t.pwr.avsFails = 0 ∧ t.get PWR_AVS_STAT.RETRIES = h.get PWR_AVS_STAT.RETRIES ∧
        (∀ mv, (x = .write mv ∨ x = .wakeWrite mv ∨ x = .sleepWrite ∧ mv = 650) → t.pwr.vcmd = mv ∧ t.pwr.vdef = false ∧ t.get PWR_AVS_STAT.VSET = mv % 1024) ∧
        (x = .status → t.pwr.vcmd = h.pwr.vcmd ∧ t.pwr.vdef = h.pwr.vdef ∧ t.get PWR_AVS_STAT.LINK_OK = 1) ∧
        (rest = [] → h.pwr.phase = .avsStart → (∃ mv, x = .write mv) → t.pwr.phase = .resetHold) ∧
        (rest ≠ [] ∨ h.pwr.phase ≠ .avsStart ∨ (∀ mv, x ≠ .write mv) → t.pwr.phase = h.pwr.phase) ∧
        ((∃ mv, x = .wakeWrite mv) → t.clk.pll = .starting) ∧ ((∀ mv, x ≠ .wakeWrite mv) → t.clk.pll = h.clk.pll)) ∧
      (∀ i ∈ [Instr.avsTransactionDone false, .avsTimeout],
        (h.pwr.avsFails + 1 < 3 → Completes i s (fun t => t.pwr = { h.pwr with avsFails := h.pwr.avsFails + 1 } ∧
          t.get PWR_AVS_STAT.RETRIES = min (h.get PWR_AVS_STAT.RETRIES + 1) 255 ∧ (x = .status → t.get PWR_AVS_STAT.LINK_OK = 0))) ∧
        (3 ≤ h.pwr.avsFails + 1 → ((∃ mv, x = .wakeWrite mv) → h.pwr.phase = .avsStart) → Completes i s (fun t =>
          t.pwr = { h.pwr with avsQ := [], avsFails := 0, avsHold := true, vdef := h.pwr.vdef || x != .sleepWrite,
                               phase := if h.pwr.phase = .avsStart then .resetHold else h.pwr.phase } ∧
          t.get PWR_STAT.AVS_ERR = 1 ∧
          t.clk.pll = if h.pwr.phase ≠ .avsStart ∧ h.pwr.waking = true ∧ h.clk.pll = .off then .starting else h.clk.pll)) ∧
        (3 ≤ h.pwr.avsFails + 1 → (∃ mv, x = .wakeWrite mv) → h.pwr.phase ≠ .avsStart → Completes i s (fun t =>
          t.pwr.phase = .vcoreRamp ∧ t.pwr.coreEn = true ∧ t.get PWR_RST_CAUSE.CAUSE = 5))))

/-- R53, R55, R60, R63, R65, R67, R201, R488: the monitors. -/
def Obligations.MonitorsActAsTheirTableSays : Prop :=
  ∀ s : State,
    let h := s.hw
    let dead := fun (t : Hw) => t.pwr.coreEn = false ∧ t.dc0 = [] ∧ t.dc1 = [] ∧ t.l2 = [] ∧ t.pec = [] ∧ t.m0.run = .held ∧
      (∀ a, a < 0x01000000 → t.backing a = h.backing a) ∧
      (∀ a, (0x10000000 ≤ a ∧ a < 0x10200000) ∨ (0x18000000 ≤ a ∧ a < 0x18100000) → t.backing a = 0)
    (∀ vin : BitVec 12, h.pwr.phase = .up → h.get SYS_LAUNCH_STAT.DONE = 1 → h.get PWR_CFG.THR ≠ 0 → h.lcsm.holds = false →
      Becomes (.bermArm vin) s (h.sets [(PWR_STAT.BERM_ARMED, 1), (PWR_STAT.PFAIL, 0), (PWR_VMON.VIN, vin.toNat)])) ∧
    (h.pwr.phase = .up →
      Becomes .boWarn s (h.set PWR_STAT.BO_WARN 1) ∧ Becomes (.buckFault true) s (h.set PWR_STAT.BUCK_OT 1) ∧
      Becomes (.buckFault false) s (h.set PWR_STAT.BUCK_ILIM 1)) ∧
    (h.pwr.phase = .unpowered → Becomes .retLost s { h with pwr := { h.pwr with retLost := true } }) ∧
    (h.pwr.phase = .flushed → Completes .vinRecovered s (fun t => t.pwr.phase = .vcoreRamp ∧ t.pwr.coreEn = true ∧ t.pwr.bermActive = false ∧
      t.reads [(PWR_RST_CAUSE.CAUSE, 4), (PWR_RST_CAUSE.MULTI, 0), (PWR_RST_CAUSE.BROWNOUT, 0), (PWR_RST_CAUSE.FLUSH_INCOMPLETE, b2n h.pwr.bermActive),
        (PWR_RST_CAUSE.FLUSHED, h.get PWR_RST_CAUSE.FLUSHED)])) ∧
    (∀ torn : Bool, ∀ p ∈ [(Instr.vinUvlo torn, false), (.brownOut torn, true)], h.pwr.phase ≠ .unpowered → Completes p.1 s (fun t =>
      dead t ∧ t.pwr.phase = .unpowered ∧ t.pwr.brownout = p.2 ∧ t.pwr.bermActive = h.pwr.bermActive ∧
      t.bak.sealTorn = (h.bak.sealTorn || (torn && (h.mainUp || h.polRuns))))) ∧
    (∀ torn : Bool, h.pwr.phase = .unpowered → Becomes (.vinUvlo torn) s { h with pwr := { h.pwr with brownout := false } }) ∧
    (h.pwr.phase ∈ [.up, .avsStart, .resetHold, .flushCut] → ∀ same : Bool, Completes (.vcoreFail same) s (fun t =>
      (∀ a, a < 0x01000000 → t.backing a = h.backing a) ∧ (∀ a, 0x10000000 ≤ a ∧ a < 0x10200000 → t.backing a = 0) ∧ t.dc0 = [] ∧ t.l2 = [] ∧
      t.pwr.phase = .vcoreRamp ∧ t.pwr.coreEn = true ∧
      t.reads [(PWR_RST_CAUSE.CAUSE, 5), (PWR_RST_CAUSE.MULTI, b2n same), (CLK_TB_STAT.VALID, 0), (PWR_RST_CAUSE.FLUSH_INCOMPLETE, b2n h.pwr.bermActive)]))

/-- R55, R59 to R63, R67, R72, R486, R487, R490: flushes and resets. Readings of the model: log entries 137 and 140. -/
def Obligations.FlushesAndResetsKeepWhatTheyMust : Prop :=
  ∀ s : State,
    let h := s.hw
    (h.pwr.phase = .up → h.pwr.pending = none →
      ∀ p ∈ [(Instr.resetPin false, 9), (.resetPin true, 9)], Becomes p.1 s { h with pwr := { h.pwr with pending := some (p.2, false) } }) ∧
    (h.pwr.phase = .up → ∀ c m, h.pwr.pending = some (c, m) →
      Becomes (.resetPin false) s h ∧ (c ≠ 9 → Becomes (.resetPin true) s { h with pwr := { h.pwr with pending := some (min c 9, true) } })) ∧
    (∀ (acc : Access) (same : Bool), h.opens acc = true →
      (acc.tid = 0 → h.pwr.pending = none → Becomes (.softwareReset acc same) s { h with pwr := { h.pwr with pending := some (0xC, false) } }) ∧
      (acc.tid ≠ 0 → Becomes (.softwareReset acc same) s h)) ∧
    (∀ c m, h.pwr.pending = some (c, m) → Completes .resetWritebackDone s (fun t =>
      ((∀ n, h.lineSound n) → ∀ a, a < 0x01000000 ∨ (0x10000000 ≤ a ∧ a < 0x10200000) → t.backing a = h.byte a) ∧
      t.dc0 = [] ∧ t.dc1 = [] ∧ t.pec = [] ∧ t.l2 = [] ∧ t.pwr.phase = .resetHold ∧ t.pwr.pending = none ∧ t.pwr.coreEn = h.pwr.coreEn ∧
      t.m0.run = .held ∧ t.m1.run = .held ∧ t.clk.tbRun = false ∧ (h.clk.tbRun = true → h.pwr.sleep ≠ .sleep → t.bak.tbSave = h.clk.tb) ∧
      (h.pwr.sleep = .sleep → t.bak.tbSave = h.clk.tbEntry ∧ t.bak.retLsx = h.bak.retLsx ∧ t.bak.retIrc = h.bak.retIrc) ∧
      t.reads [(PWR_RST_CAUSE.CAUSE, c % 16), (PWR_RST_CAUSE.MULTI, b2n m), (PWR_RST_CAUSE.COLD, 0)] ∧
      (c = 6 → t.reads [(CLK_STAT.XO_FAIL, h.get CLK_STAT.XO_FAIL), (CLK_STAT.UNLOCK_SEEN, h.get CLK_STAT.UNLOCK_SEEN)]))) ∧
    (∀ (last : Fin 9) (torn : Bool) (us : BitVec 16) (vin : BitVec 12) (conv : List (Fin 4 × BitVec 18 × Bool × BitVec 64)) (lsx irc : Nat),
      let cut := fun (t : Hw) => t.pwr.bermActive = true ∧ t.pwr.phase = .flushCut
      let saved := fun (t : Hw) => t.pwr.bermActive = false ∧ t.get PWR_RST_CAUSE.FLUSHED = 1 ∧ t.get PWR_BERM_STAT.DUR = us.toNat ∧ t.sealOk = true ∧
        (h.pwr.sleep ≠ .sleep → t.bak.tbSave = h.clk.tb) ∧ t.bak.retLsx = 0 ∧ t.bak.retIrc = 0
      let ended := fun (t : Hw) => saved t ∧ t.dc0 = [] ∧ t.l2 = [] ∧ t.m0.run = .held
      (h.pwr.phase = .up → h.get SYS_LAUNCH_STAT.DONE = 1 → h.get PWR_CFG.THR ≠ 0 →
        (h.get PWR_STAT.BERM_ARMED = 0 → Becomes (.bermFlush last torn us vin conv lsx irc) s (h.sets [(PWR_STAT.PFAIL, 1), (PWR_VMON.VIN, vin.toNat)])) ∧
        (h.get PWR_STAT.BERM_ARMED = 1 → Completes (.bermFlush last torn us vin conv lsx irc) s (fun t =>
          (7 ≤ last.val → h.pwr.sleep = .sleep → h.clk.tbRun = false → t.bak.tbSave = BitVec.ofNat 64 ((128 * h.clk.tbEntry.toNat +
            h.clk.tbFrac.toNat + (h.bak.retLsx + lsx) * 3906250 + (h.bak.retIrc + irc) * 16000) / 128)) ∧
          (last.val < 7 → cut t) ∧ (last.val = 7 → saved t ∧ t.pwr.phase = .flushCut) ∧
          (last.val = 8 → ended t ∧ t.pwr.phase = .flushed ∧ t.pwr.coreEn = false)))) ∧
      (h.mayEnter 3 = true → Completes (.offEntry last torn us vin conv) s (fun t =>
        (last.val < 7 → cut t) ∧ (last.val = 7 → saved t ∧ t.pwr.phase = .flushCut) ∧
        (last.val = 8 → ended t ∧ t.get PWR_RST_CAUSE.CAUSE = 3 ∧
          (t.get POL_HAND.REQ = 0 → t.pwr.phase = .off ∧ t.pwr.coreEn = false) ∧
          (t.get POL_HAND.REQ = 1 → t.pwr.phase = .vcoreRamp ∧ t.pwr.coreEn = true)))))

/-- R68 to R71, R81, R90, R455, R489: sleep. Readings of the model: log entry 70. -/
def Obligations.SleepModesAreEnteredAndLeft : Prop :=
  ∀ s : State,
    let h := s.hw
    let may := fun (m : Nat) => h.pwr.phase = .up ∧ h.get SYS_LAUNCH_STAT.DONE = 1 ∧ h.pwr.pending = none ∧ h.pwr.sleep = .run ∧
      h.get PWR_SLEEP_CTL.MODE = m ∧ (h.m0.run = .waiting ∨ h.m0.run = .held) ∧ (h.m1.run = .waiting ∨ h.m1.run = .held) ∧ h.get CMT_STATUS.STATE = 0
    (may 1 → Becomes .dozeEntry s { h with pwr := { h.pwr with sleep := .doze } }) ∧
    (h.pwr.phase = .up → h.pwr.sleep = .doze → ((h.bestLine 0).isSome = true ∨ (h.bestLine 1).isSome = true) → Completes .dozeWake s (fun t =>
      t.pwr = { h.pwr with sleep := .run } ∧ t.get PWR_SLEEP_CTL.MODE = 0)) ∧
    (may 2 → h.get BIST_STAT.BUSY = 0 → h.xspi.cmd = none →
      (h.get DBG_STAT.ATTACHED = 0 → Completes .sleepEntry s (fun t =>
        t.pwr.sleep = .sleep ∧ t.clk.pll = .off ∧ t.clk.tbRun = false ∧ t.clk.tbEntry = h.clk.tb ∧ t.get DDR_STAT.SELF_REFRESH = 1 ∧
        t.get CLK_STAT.PLL_LOCK = 0 ∧ t.pwr.vKept = h.pwr.vcmd ∧
        (h.get PWR_STAT.AVS_ERR = 0 → t.pwr.avsQ = h.pwr.avsQ ++ [.sleepWrite]) ∧ (h.get PWR_STAT.AVS_ERR = 1 → t.pwr.avsQ = h.pwr.avsQ))) ∧
      (h.get DBG_STAT.ATTACHED = 1 → Completes .sleepEntry s (fun t => t.pwr.sleep = .sleepEmulated ∧ t.clk.tbEntry = h.clk.tb ∧ t.get DBG_STAT.EMUL = 1))) ∧
    (h.pwr.phase = .up → h.wakeLine = true →
      (h.pwr.sleep = .sleepEmulated → Completes .sleepWake s (fun t => t.pwr.sleep = .run ∧ t.pwr.waking = false)) ∧
      (h.pwr.sleep = .sleep → h.pwr.waking = false →
        (h.get PWR_STAT.AVS_ERR = 0 → Becomes .sleepWake s { h with pwr := { h.pwr with waking := true, avsQ := h.pwr.avsQ ++ [.wakeWrite h.pwr.vKept] } }) ∧
        (h.get PWR_STAT.AVS_ERR = 1 → Becomes .sleepWake s { h with pwr := { h.pwr with waking := true }, clk := { h.clk with pll := .starting } }))) ∧
    (∀ same : Bool, h.pwr.phase = .up → h.pwr.waking = true → h.clk.pll = .starting → h.pwr.pending = none →
      Becomes (.wakeRelockTimeout same) s { h.set CLK_STAT.UNLOCK_SEEN 1 with clk := { h.clk with pll := .off, wakeUnlock := true }, pwr := { h.pwr with pending := some (6, false) } }) ∧
    (∀ lsx irc : Nat, h.pwr.phase = .up → h.pwr.waking = true → h.clk.pll = .locked → h.pwr.sleep = .sleep → h.clk.tbRun = false →
      let t128 := 128 * h.clk.tbEntry.toNat + h.clk.tbFrac.toNat + (h.bak.retLsx + lsx) * 3906250 + (h.bak.retIrc + irc) * 16000
      Completes (.tbSleepRestore lsx irc) s (fun t => t.pwr.sleep = SleepSt.run ∧ t.pwr.waking = false ∧ t.clk.tbRun = true ∧
        t.clk.tb = BitVec.ofNat 64 (t128 / 128) ∧ t.clk.tbFrac = BitVec.ofNat 7 t128))

/-- R73, R97, R98, R110 to R117, R201, R212: launch. The reference and the clock ratios that the spec leaves undefined stop as the log
entry on PLL_LOCK says. Readings of the model: log entries 40, 41, 48, 156 and 169. -/
def Obligations.LaunchGoesThroughItsSteps : Prop :=
  let failsWith := fun (k t : Hw) (c : Nat) =>
    (k.get SYS_LAUNCH_PREV.VALID = 1 → t.lnch.phase = .failed ∧ t.lnch.lnchErr = true ∧ t.get SYS_LAUNCH_STAT.FAIL = c) ∧
    (k.get SYS_LAUNCH_PREV.VALID = 0 → t.pwr.phase = .resetHold ∧ t.reads [(SYS_LAUNCH_PREV.FAIL, c), (SYS_LAUNCH_PREV.VALID, 1)])
  (∀ k : Hw,
    let t := k.takeRecord
    t.reads [(SYS_LAUNCH_STAT.BOOT_MODE, k.lnch.nvm.bootMode), (SYS_LAUNCH_STAT.REJ_A, k.examine 0 % 16), (SYS_LAUNCH_STAT.REJ_B, k.examine 1 % 16),
      (SYS_LAUNCH_STAT.FALLBACK, k.get SYS_LAUNCH_PREV.VALID)] ∧
    (k.chooseCopy (k.examine 0) (k.examine 1) = none → t.lnch.phase = .failed ∧ t.lnch.lnchErr = true ∧ t.get SYS_LAUNCH_STAT.FAIL = 4) ∧
    (∀ c, k.chooseCopy (k.examine 0) (k.examine 1) = some c →
      t.reads [(SYS_LAUNCH_STAT.COPY, c), (SYS_LAUNCH_GEN.GEN, recGen (k.readCopy c) % 2 ^ 32)] ∧ t.lnch.record = k.readCopy c ∧
      (t.lnch.copyB = true ↔ c = 1) ∧ (k.clk.xtalDone = true → t.lnch.phase = .pllWait ∧ t.clk.pll = .starting) ∧
      (k.clk.xtalDone = false → t.lnch.phase = .xtalWait))) ∧
  (∀ k : Hw, (∀ m ∈ k.lnch.nvm.modes, m.1 < 6 ∧ m.2.1 < 256 ∧ m.2.2 < 32) →
    let t := k.applyLinks
    let ceil := k.recField secLinks 1 1 0xFF
    t.reads [(XSPI_LINK.FLOOR, k.recField secLinks 0 1 0), (XSPI_LINK.CEIL, ceil), (DDR_LINK.FLOOR, k.recField secLinks 4 1 0),
      (DDR_LINK.CEIL, k.recField secLinks 5 1 0xFF), (TWIN_LINK.FLOOR, k.recField secLinks 16 1 0), (TWIN_LINK.CEIL, k.recField secLinks 17 1 0xFF),
      (XSPI_NEG_RESULT.DONE, 1), (XSPI_NEG_RESULT.LINK_FLOOR, b2n (t.get XSPI_NEG_RESULT.MODE < k.recField secLinks 0 1 0))] ∧
    ((∀ m ∈ k.lnch.nvm.modes, ceil < m.1) → t.get XSPI_NEG_RESULT.MODE = 0) ∧
    (∀ m ∈ k.lnch.nvm.modes, m.1 ≤ ceil → m.1 ≤ t.get XSPI_NEG_RESULT.MODE ∧ ∃ e ∈ k.lnch.nvm.modes,
      t.reads [(XSPI_NEG_RESULT.MODE, e.1), (XSPI_NEG_RESULT.FREQ, min 200 e.2.1), (XSPI_NEG_RESULT.DUMMY, e.2.2)])) ∧
  (∀ (k : Hw) (lsx irc : Nat),
    let t := k.launchLock lsx irc
    let low := k.applyLinks.get XSPI_NEG_RESULT.LINK_FLOOR = 1 ∧ k.recHas secLoad = true
    let u := k.applyRest lsx irc
    let b := k.tbRestore lsx irc
    let c := (b.runSections (sections k.lnch.record)).2
    (low → failsWith k t 6) ∧
    (¬ low → k.recField secDdr 0 1 0 = 1 → t.lnch.phase = .ddrTrain ∧ t.clk.pll = .locked ∧ t.clk.onRoot = true ∧
      t.reads [(CLK_STAT.PLL_LOCK, 1), (XSPI_NEG_RESULT.DONE, 1)]) ∧
    (u.lnch.phase = .ending ∨ failsWith k u 8 ∨ failsWith k u 9 ∨ failsWith k u 10) ∧
    b.clk.tbRun = true ∧
    (k.get PWR_RST_CAUSE.CAUSE = rcBackupLost ∨ k.get PWR_RST_CAUSE.CAUSE = rcVcore →
      b.clk.tb = 0 ∧ b.reads [(CLK_TB_STAT.VALID, 0), (CLK_TB_STAT.COARSE, 0)]) ∧
    (k.entryLost = true → failsWith k u 8) ∧
    (k.entryLost = false → c ≠ 0 → (c = 8 ∨ c = 9) ∧ failsWith k u c)) ∧
  (∀ (k : Hw) (c : Nat), c < 16 →
    (k.launchFail c).get SYS_LAUNCH_STAT.FAIL = c ∧ (k.launchFail c).lnch = { k.lnch with phase := .failed, lnchErr := true } ∧
    (k.launchFail c).m0 = { k.m0 with run := .romWait } ∧ (k.launchFail c).m1 = k.m1 ∧
    (k.get SYS_LAUNCH_PREV.VALID = 1 → k.applyFail c = k.launchFail c) ∧
    (k.get SYS_LAUNCH_PREV.VALID = 0 → (k.applyFail c).pwr.phase = .resetHold ∧
      (k.applyFail c).reads [(SYS_LAUNCH_PREV.FAIL, c), (SYS_LAUNCH_PREV.COPY, b2n k.lnch.copyB), (SYS_LAUNCH_PREV.VALID, 1)])) ∧
  (∀ k : Hw,
    (k.lcState = 5 → k.crocusStart = k.launchFail 1) ∧
    (k.lcState ≠ 5 → k.lnch.nvm.signature = false → k.crocusStart = k.launchFail 2) ∧
    (k.lcState ≠ 5 → k.lnch.nvm.signature = true → k.lnch.nvm.busy = true → k.crocusStart = { k with lnch := { k.lnch with phase := .nvmBusy } }) ∧
    (k.lcState ≠ 5 → k.lnch.nvm.signature = true → k.lnch.nvm.busy = false → k.crocusStart = k.takeRecord) ∧
    (∀ ra rb : Nat, k.chooseCopy ra rb =
      if ra = 0 ∧ (rb = 0 → recGen (k.readCopy 1) ≤ recGen (k.readCopy 0)) then some 0 else if rb = 0 then some 1 else none)) ∧
  (∀ s : State,
    let h := s.hw
    let stands := fun (p : LaunchPhase) => h.pwr.phase = .up ∧ h.lnch.phase = p ∧ h.lcsm.holds = false
    (∀ (present v18 : BitVec 4) (sig busy quad a4 : Bool) (modes : List (Fin 6 × Byte × BitVec 5)) (dead : List (Fin 2)), h.pwr.phase = .resetHold →
      Completes (.mainResetRelease present v18 sig busy quad a4 modes dead) s (fun t => t.pwr.phase = .up ∧ t.clk.osc = true ∧
        t.lnch.nvm = ⟨sig && present.getLsbD 0, busy, modes.map (fun m => (m.1.val, m.2.1.toNat, m.2.2.toNat)), quad, a4, dead.map Fin.val⟩ ∧
        t.reads [(GPIO_BANK_STAT.PRESENT, present.toNat), (GPIO_BANK_STAT.V18, v18.toNat)] ∧
        (h.get HUB_SRAM_STAT.INIT_DONE = 0 → t.lnch.phase = h.lnch.phase) ∧
        (h.get HUB_SRAM_STAT.INIT_DONE = 1 → t.lnch.phase ∈ [.failed, .nvmBusy, .xtalWait, .pllWait]) ∧
        (h.get HUB_SRAM_STAT.INIT_DONE = 1 → h.lcs.marker = none → h.lcState ≠ 5 → sig = true → present.getLsbD 0 = true → busy = true → t.lnch.phase = .nvmBusy))) ∧
    (h.pwr.phase = .up → h.lnch.phase = .idle → h.get HUB_SRAM_STAT.INIT_DONE = 0 →
      Becomes .sramInitDone s (h.set HUB_SRAM_STAT.INIT_DONE 1).crocusStart) ∧
    (stands .nvmBusy → Becomes .nvmBusy s (h.launchFail 3)) ∧
    (h.pwr.phase = .up → h.clk.osc = true →
      (stands .xtalWait → Becomes .xtalWaitExpiry s { h with clk := { h.clk with xtalDone := true, pll := .starting }, lnch := { h.lnch with phase := .pllWait } }) ∧
      (h.lnch.phase ≠ .xtalWait → Becomes .xtalWaitExpiry s { h with clk := { h.clk with xtalDone := true } })) ∧
    (stands .pllWait → h.pwr.waking = false →
      Becomes .pllNoLock s (Hw.applyFail { h with clk := { h.clk with pll := .off } } 5) ∧
      (let r := fun (f : Fld) => h.get f
        let ok := r CLK_DIV.LANE_DIV ≤ r CLK_DIV.BUS_DIV ∧ (r CLK_DIV.BUS_DIV = r CLK_DIV.CORE_DIV ∨ r CLK_DIV.BUS_DIV = 2 * r CLK_DIV.CORE_DIV ∨
          r CLK_DIV.BUS_DIV = 4 * r CLK_DIV.CORE_DIV) ∧ 2 * r CLK_DIV.BUS_DIV ≤ r CLK_DIV.PER_DIV ∧ 2 * r CLK_DIV.BUS_DIV ≤ r CLK_DIV.ADC_DIV
        ∀ lsx irc : Nat, (ok → Becomes (.pllLock true lsx irc) s (h.launchLock lsx irc)) ∧
          (¬ ok → exec (.pllLock true lsx irc) s = .fault .undefinedClockRatios) ∧
          exec (.pllLock false lsx irc) s = .fault .undefinedReference)) ∧
    (∀ (good : Bool) (lsx irc : Nat), h.pwr.phase = .up → h.pwr.waking = true → h.clk.pll = .starting →
      Becomes (.pllLock good lsx irc) s ({ h with clk := { h.clk with pll := .locked } }.set CLK_STAT.PLL_LOCK 1)) ∧
    (∀ (rate : Fin 6) (two : Bool) (density : Fin 17) (same : Bool) (lsx irc : Nat), stands .ddrTrain →
      let k := h.ddrTrained rate (1 + b2n two) density same
      let held := rate.val = 0 ∨ same = false ∨ density.val ∉ [4, 6, 8, 12, 16] ∨ h.get DDR_LINK.CEIL = 0 ∨ min rate.val (h.get DDR_LINK.CEIL) < h.get DDR_LINK.FLOOR
      (held ↔ k.get DDR_TOP.TOP_MB = 0x800) ∧
      (held → h.recField secDdr 1 1 0 = 1 → Becomes (.ddrTrainingEnd rate two density same lsx irc) s (k.applyFail 7)) ∧
      (¬ (held ∧ h.recField secDdr 1 1 0 = 1) → Becomes (.ddrTrainingEnd rate two density same lsx irc) s (k.applyRest lsx irc))) ∧
    (∀ us : Nat, stands .ending → Completes (.launchEnd us) s (fun t =>
      t.lnch = { h.lnch with phase := .done, lnchDone := true } ∧ t.pwr = h.pwr ∧
      t.reads [(SYS_LAUNCH_STAT.DONE, 1), (SYS_LAUNCH_TIME.US, min us (2 ^ 24 - 1)), (SYS_LAUNCH_INFO.SEC_VER, recSecVer h.lnch.record % 256)] ∧
      (h.haltsAtLaunch 0 = false → t.m0 = h.entryCore 0) ∧
      (h.haltsAtLaunch 1 = false → h.recField secEntry 12 4 0 ≠ 0 → t.m1 = h.entryCore 12) ∧
      (h.recField secEntry 12 4 0 = 0 → t.m1.run = .held))) ∧
    (h.pwr.phase = .up → h.lnch.phase = .failed → Becomes .failReport s { h with lnch := { h.lnch with u0Line := h.failLine } }) ∧
    (∀ acc : Access, h.opens acc = true →
      (acc.tid = 0 → h.m1.run = .held → h.get SYS_LAUNCH_STAT.DONE = 1 → bitOf h.bistHold 1 = false → h.lcsm.holds = false →
        let m1 : Core := { run := .running, pc := h.rd SYS_M1_PC, ssp := h.rd SYS_M1_SP, vbase := h.entryVbase 1 }
        (h.haltsAtLaunch 1 = false → Becomes (.m1Start acc) s { h with m1 := m1 }) ∧
        (h.haltsAtLaunch 1 = true → Completes (.m1Start acc) s (fun t => t.m1 = { m1 with run := .halted } ∧
          t.reads [(DBG_C_STAT.HALTED 1, 1), (DBG_C_STAT.CAUSE 1, 5)]))) ∧
      (acc.tid ≠ 0 ∨ h.m1.run ≠ .held → Becomes (.m1Start acc) s h)))

/-- R21, R45, R79, R87, R89, R93, R94, R427: clocks, the servo and its samples, and the capture of an armed commit at a boundary. That an
XO window closes in SLEEP too (log entry 165), and that a sample which steps TB does not count in SAMPLES (log entry 138), are the model's
choices. Readings of the model: log entry 100. -/
def Obligations.ClocksAndServoFollowTheirRules : Prop :=
  (∀ s : State,
    let h := s.hw
    let on := h.pwr.phase = .up ∧ h.pwr.sleep ≠ .sleep
    let ask := fun (k : Hw) => ({ k with pwr := { k.pwr with pending := some (6, false) } } : Hw)
    (on → h.clk.onRoot = true → h.clk.pll = .locked →
      Becomes .pllUnlock s ({ h with clk := { h.clk with pll := .unlocked, wakeUnlock := false } }.sets [(CLK_STAT.PLL_LOCK, 0), (CLK_STAT.UNLOCK_SEEN, 1)])) ∧
    (on → h.clk.pll = .unlocked →
      Becomes .pllRelock s ({ h with clk := { h.clk with pll := .locked } }.set CLK_STAT.PLL_LOCK 1) ∧
      (h.pwr.pending = none → ∀ b, Becomes (.unlockTimeout b) s (ask h))) ∧
    (∀ n : BitVec 12, h.pwr.phase = .up → h.get SYS_LAUNCH_STAT.DONE = 1 →
      (2800 ≤ n.toNat ∧ n.toNat ≤ 3600 → Becomes (.xoMonitorWindow n) s (h.set CLK_MON.XO_CNT n.toNat)) ∧
      (n.toNat < 2800 ∨ 3600 < n.toNat → Becomes (.xoMonitorWindow n) s
        ({ h with clk := { h.clk with xoDue := true } }.sets [(CLK_MON.XO_CNT, n.toNat), (CLK_STAT.XO_FAIL, 1)]))) ∧
    (h.pwr.phase = .up → h.clk.xoDue = true → h.pwr.pending = none → ∀ b, Becomes (.xoFailReset b) s (ask { h with clk := { h.clk with xoDue := false } })) ∧
    (∀ n : BitVec 6, h.pwr.phase = .up → h.get SYS_LAUNCH_STAT.DONE = 1 → h.bak.lsxRun = true → h.pwr.polderLow = false → h.clk.tbRun = true →
      (31 ≤ n.toNat ∧ n.toNat ≤ 36 → Becomes (.lsxMonitorCheck n) s (h.set CLK_MON.LSX_CNT n.toNat)) ∧
      (n.toNat < 31 ∨ 36 < n.toNat → Becomes (.lsxMonitorCheck n) s (h.sets [(CLK_MON.LSX_CNT, n.toNat), (CLK_STAT.LSX_FAIL, 1)]))) ∧
    (on → h.get CLK_SRV_CFG.HOLD_TMO_L ≤ h.clk.srvIdle →
      (h.svState = 1 → Becomes .holdTmo s (h.svEnter 0)) ∧ (h.svState = 2 → Becomes .holdTmo s (h.svEnter 3)) ∧
      (h.svState = 0 ∨ h.svState = 3 → Becomes .holdTmo s h)) ∧
    (∀ acc : Access, h.opens acc = true → (acc.tid = 0 → h.svState ≠ 0 → Becomes (.reacq acc) s (h.svEnter 1)) ∧
      (acc.tid ≠ 0 ∨ h.svState = 0 → Becomes (.reacq acc) s h)) ∧
    (on → h.pwr.sleep ≠ .sleepEmulated → h.clk.tbRun = true → Becomes .epochBoundary s h.epochBoundary)) ∧
  (∀ k : Hw,
    ((k.svEnter 0).clk.srvF = if k.svState = 0 then k.clk.srvF else 0) ∧
    (∀ st, st < 4 → (k.svEnter st).get CLK_SRV_STATE.STATE = st) ∧
    (k.svState ≠ 2 → (k.svEnter 2).reads [(CLK_TB_STAT.VALID, 1), (CLK_TB_STAT.COARSE, 0)]) ∧
    (∀ (e d : Int), d ≠ 0 → k.loopMode loopServo ≠ 1 →
      let r := e * 16000000000 / d
      let i := r / 2 ^ k.get CLK_SRV_CFG.KI_SHIFT_L
      let dem := k.clk.srvF - r / 2 ^ k.get CLK_SRV_CFG.KP_SHIFT_L - i
      let low := k.loopLow loopServo
      let high := k.loopHigh loopServo
      (k.svCompute e d).clk.srvDemand = some (k.svInside dem) ∧
      (k.svCompute e d).clk.srvF = if low ≤ dem ∧ dem ≤ high then k.clk.srvF - i else k.clk.srvF) ∧
    (k.svState ≠ 3 → k.loopMode loopServo ≠ 2 → (k.svEnter 3).getS CLK_SRV_CORR.CORR = k.svInside k.clk.srvF) ∧
    (k.loopMode loopServo = 1 → k.svState = 0 → k.loopLow loopServo ≤ k.getS CLK_SRV_CORR.CORR → k.getS CLK_SRV_CORR.CORR ≤ k.loopHigh loopServo →
      k.svEpoch.getS CLK_SRV_CORR.CORR = k.svInside (k.loopHint loopServo)) ∧
    (k.loopMode loopServo = 1 →
      (k.svState = 0 → ¬ (k.loopLow loopServo ≤ k.getS CLK_SRV_CORR.CORR ∧ k.getS CLK_SRV_CORR.CORR ≤ k.loopHigh loopServo)) →
      (k.svEpoch.getS CLK_SRV_CORR.CORR - k.getS CLK_SRV_CORR.CORR).natAbs ≤ 32000 ∧
      (k.loopLow loopServo ≤ k.getS CLK_SRV_CORR.CORR → k.getS CLK_SRV_CORR.CORR ≤ k.loopHigh loopServo →
        k.loopLow loopServo ≤ k.svEpoch.getS CLK_SRV_CORR.CORR ∧ k.svEpoch.getS CLK_SRV_CORR.CORR ≤ k.loopHigh loopServo)) ∧
    (∀ e : Int,
      let t := k.svSample e
      let size := e.natAbs
      let stepped := k.svState ≤ 1 ∧ k.get CLK_SRV_THR.STEP_THR_L * 1000 < size ∧ k.get CLK_SRV_CFG.STEP_EN_L = 1
      let from' := if k.svState = 0 then 0 else k.clk.srvIn
      let run := if size ≤ k.get CLK_SRV_THR.LOCK_THR_L then from' + 1 else 0
      let far := k.get CLK_SRV_THR.OUTLIER_THR_L < size
      t.getS CLK_SRV_OFS.OFS = clampI (-(2 ^ 31)) (2 ^ 31 - 1) e ∧
      (k.loopMode loopServo = 0 → t.svState = k.svState ∧ t.clk = k.clk) ∧
      (k.loopMode loopServo ≠ 0 →
        t.clk.srvIdle = 0 ∧
        (stepped → t.svState = 1 ∧ t.clk.tb = k.clk.tb - BitVec.ofInt 64 e ∧ t.get CLK_TB_STAT.STEPPED = 1 ∧ t.clk.srvLast = none ∧
          t.get CLK_SRV_STATE.SAMPLES = k.get CLK_SRV_STATE.SAMPLES) ∧
        (k.svState ≤ 1 → ¬ stepped → t.clk.tb = k.clk.tb ∧ t.clk.srvLast = some k.clk.tb ∧
          t.get CLK_SRV_STATE.SAMPLES = (k.get CLK_SRV_STATE.SAMPLES + 1) % 65536 ∧
          (8 ≤ run → t.svState = 2 ∧ t.reads [(CLK_TB_STAT.VALID, 1), (CLK_TB_STAT.COARSE, 0)]) ∧ (run < 8 → t.svState = 1 ∧ t.clk.srvIn = run)) ∧
        (k.svState = 2 → far → t.get CLK_SRV_STATE.SAMPLES = k.get CLK_SRV_STATE.SAMPLES ∧ t.clk.srvF = k.clk.srvF ∧ t.clk.srvLast = k.clk.srvLast ∧
          (8 ≤ k.clk.srvOut + 1 → t.svState = 3 ∧ t.get ⟨CLK_SRV_AUTH + 4, 3, 1⟩ = 1) ∧
          (k.clk.srvOut + 1 < 8 → t.svState = 2 ∧ t.clk.srvOut = k.clk.srvOut + 1 ∧ t.clk.srvDemand = k.clk.srvDemand)) ∧
        (k.svState = 2 → ¬ far → t.svState = 2 ∧ t.clk.srvOut = 0 ∧ t.clk.srvLast = some k.clk.tb ∧
          t.get CLK_SRV_STATE.SAMPLES = (k.get CLK_SRV_STATE.SAMPLES + 1) % 65536) ∧
        (k.svState = 3 → far → t.svState = 3 ∧ t.clk.srvIn = 0 ∧ t.get CLK_SRV_STATE.SAMPLES = k.get CLK_SRV_STATE.SAMPLES) ∧
        (k.svState = 3 → ¬ far → t.clk.srvF = k.clk.srvF ∧ t.get CLK_SRV_STATE.SAMPLES = (k.get CLK_SRV_STATE.SAMPLES + 1) % 65536 ∧
          (4 ≤ k.clk.srvIn + 1 → t.svState = 2 ∧ t.reads [(CLK_TB_STAT.VALID, 1), (CLK_TB_STAT.COARSE, 0), (⟨CLK_SRV_AUTH + 4, 3, 1⟩, 0)]) ∧
          (k.clk.srvIn + 1 < 4 → t.svState = 3 ∧ t.clk.srvIn = k.clk.srvIn + 1)))) ∧
    (k.clk.epochHi = none → k.nextEpoch = k.clk.tb.toNat / 1000000 + 1) ∧
    (∀ n, k.clk.epochHi = some n → k.nextEpoch = max (k.clk.tb.toNat / 1000000) (n + 1)) ∧
    (let m := k.epochEdge
      let st := m.get CMT_STATUS.STATE
      m.clk.epochHi = some k.nextEpoch ∧ m.get CMT_STATUS.EPOCH = 1 ∧ st = k.get CMT_STATUS.STATE ∧
      (st = 1 ∨ st = 2 → k.epochBoundary = (Hw.set { m with
        cmt := { captured := some m.regs, nextDom := 1, drain := decide (st = 2) }, cal := { m.cal with cap := m.cal.staged } } CMT_STATUS.STATE 3).epochWork) ∧
      (st ≠ 1 → st ≠ 2 → k.epochBoundary = m.epochWork)))

/-- R121, R126, R127, R131, R132, R442: who may command what. Readings of the model: log entry 107. -/
def Obligations.LifeCycleCommandsAreRefusedByTheirTable : Prop :=
  ∀ (s : State) (acc : Access),
    let h := s.hw
    let may := fun (code : Nat) => h.dbgMay h.dbg.jtag LCS_CMD true (lcsWord code)
    let refused := fun (r : Nat) => h.sets [(LCS_STAT.BUSY, 0), (LCS_STAT.DONE, 1), (LCS_STAT.REASON, r), (LCS_STAT.REFUSED, 1)]
    let all : List (Instr × Nat × List Nat) := [(.setOwnerKey acc, 1, [1, 2]), (.setDebugKey acc, 2, [1, 2, 3]), (.toTest acc, 3, [1]), (.toProd acc, 4, [2, 4]),
      (.enterRtest acc, 5, [3]), (.scrap acc, 6, [1, 2, 3, 4]), (.dbgRequest acc, 7, [3]), (.dbgResponse acc, 8, [3]), (.dbgRevoke acc, 9, [3]),
      (.trkRotate acc, 0xA, [2, 3]), (.trkDerive acc, 0xB, [2, 3]), (.calCommit acc, 0xC, [2, 3, 4]), (.auditRelease acc, 0xD, [1, 2, 3, 4])]
    (∀ code, may code = true ↔ (h.dbg.jtag = false ∧ h.lcState ≠ 5 ∧ LCS_CMD.CMD.of (lcsWord code) ∈ [5, 7, 8]) ∨ bitOf (h.get LCS_STAT.DBG_PERM) 0 = true) ∧
    (∀ p ∈ all, h.opensTo acc (may p.2.1) = true →
      (h.get LCS_STAT.BUSY = 1 → Becomes p.1 s (h.set LCS_STAT.COLLIDE 1)) ∧
      (h.get LCS_STAT.BUSY = 0 → acc.tid ≠ 0 → Becomes p.1 s (refused 5)) ∧
      (h.get LCS_STAT.BUSY = 0 → acc.tid = 0 → h.lcState ∉ p.2.2 → Becomes p.1 s (refused 1))) ∧
    (∀ p ∈ all, h.clocked = true → acc.who = .debug → h.busHeld .debug = false → may p.2.1 = false → Becomes p.1 s (h.set DBG_STAT.FSD_FAULT 1)) ∧
    (h.opens acc = true → ∀ code : Byte, code.toNat = 0 ∨ 0xD < code.toNat → h.get LCS_STAT.BUSY = 0 → acc.tid = 0 → Becomes (.lcsReservedCommand acc code) s (refused 0xC)) ∧
    (h.opens acc = true → ∀ (n : Fin 8) (v : Word),
      let old := h.get (LCS_TALLY.VALUE n)
      let top := [64, 8, 4, 32, 16, 16, 32, 32].getD n 0
      (h.get LCS_STAT.BUSY = 1 → Becomes (.tallyAdvance acc n v) s (h.set LCS_STAT.COLLIDE 1)) ∧
      (h.get LCS_STAT.BUSY = 0 → acc.tid ≠ 0 → Becomes (.tallyAdvance acc n v) s (refused 5)) ∧
      (h.get LCS_STAT.BUSY = 0 → acc.tid = 0 →
        (v.toNat % 256 ≠ old + 1 → Becomes (.tallyAdvance acc n v) s h) ∧
        (v.toNat % 256 = old + 1 → 1 ≤ n.val ∧ n.val ≤ 5 → Becomes (.tallyAdvance acc n v) s (refused 0xB)) ∧
        (v.toNat % 256 = old + 1 → n.val = 0 ∨ 5 < n.val →
          (top ≤ old → Becomes (.tallyAdvance acc n v) s (refused 3)) ∧
          (old < top → h.auditFree = 0 → Becomes (.tallyAdvance acc n v) s (refused 4)) ∧
          (old < top → h.auditFree ≠ 0 → Completes (.tallyAdvance acc n v) s (fun t =>
            t.reads [(LCS_TALLY.VALUE n, old + 1), (LCS_STAT.TALLY_EVT, 1), (LCS_STAT.DONE, 1), (LCS_STAT.BUSY, 0), (LCS_STAT.REASON, 0),
              (LCS_STAT.REFUSED, h.get LCS_STAT.REFUSED)])))))

/-- R122, R123, R125 to R130, R133, R136: what an accepted command does, and the ends of a wipe and of a signature check, which come while
BUSY is 1. That CAL_COMMIT answers BAD_ARG where the set has an uncorrectable word is log entry 173. Readings of the model: log entries
107 and 108. -/
def Obligations.LifeCycleCommandsActAsTheirTableSays : Prop :=
  ∀ (s : State) (acc : Access),
    let h := s.hw
    let may := fun (code : Nat) => h.opensTo acc (h.dbgMay h.dbg.jtag LCS_CMD true (lcsWord code)) = true
    let st := h.lcState
    let msg := h.lcsMsg
    let fsd := decide (acc.who = Initiator.debug) && !h.dbg.jtag
    let ended := fun (t : Hw) => t.reads [(LCS_STAT.BUSY, 0), (LCS_STAT.DONE, 1), (LCS_STAT.REASON, 0), (LCS_STAT.REFUSED, h.get LCS_STAT.REFUSED)]
    let refused := fun (r : Nat) => h.sets [(LCS_STAT.BUSY, 0), (LCS_STAT.DONE, 1), (LCS_STAT.REASON, r), (LCS_STAT.REFUSED, 1)]
    let held := fun (t : Hw) (dst : Nat) => t.m0.run = .held ∧ t.m1.run = .held ∧ t.laneG = [] ∧ t.laneQ = [] ∧ t.isl = [] ∧ t.lcs.marker = some dst ∧
      t.lcsm.transit = some dst ∧ t.lcsm.holds = true ∧ t.lcsm.sig = none ∧ t.reads [(PWR_STAT.BERM_ARMED, 0), (LCS_STATE.STATE, st), (LCS_STAT.BUSY, 1)]
    (h.get LCS_STAT.BUSY = 0 → acc.tid = 0 →
      (st = 1 ∨ st = 2 →
        (may 1 → h.lcs.ownerHash = none → Completes (.setOwnerKey acc) s (fun t => ended t ∧ t.lcs.ownerHash = some (sliceB msg 0 32) ∧ t.get LCS_STATE.OWNER_KEY = 1)) ∧
        (may 1 → h.lcs.ownerHash ≠ none → Becomes (.setOwnerKey acc) s (refused 7)) ∧
        (may 2 → Completes (.setDebugKey acc) s (fun t => ended t ∧ t.lcs.debugHash = some (sliceB msg 0 32) ∧ t.get LCS_STATE.DEBUG_KEY = 1))) ∧
      (st = 3 →
        (may 2 → h.get (LCS_TALLY.VALUE 1) < 8 → h.auditFree ≠ 0 → Completes (.setDebugKey acc) s (fun t => ended t ∧ t.lcs.debugHash = some (sliceB msg 0 32))) ∧
        (may 2 → 8 ≤ h.get (LCS_TALLY.VALUE 1) → Becomes (.setDebugKey acc) s (refused 3)) ∧
        (may 7 → Completes (.dbgRequest acc) s (fun t => ended t ∧ t.lcsm.chalTb = some h.clk.tb ∧ t.lineUp 13 = true)) ∧
        (may 9 → Completes (.dbgRevoke acc) s (fun t => ended t ∧ t.reads [(LCS_STAT.DBG_PERM, 0), (DBG_STAT.PERM, 0), (DBG_STAT.ATTACHED, 0)])) ∧
        (may 8 → h.chalValid = false → Completes (.dbgResponse acc) s (fun t => t.reads [(LCS_STAT.DONE, 1), (LCS_STAT.REFUSED, 1), (LCS_STAT.REASON, 0xA)] ∧ t.lcsm.chalTb = none)) ∧
        (may 8 → h.chalValid = true → h.responseOk h.lcsChal msg = true → h.lcs.debugHash = some (sha256 (sliceB msg 16 64)) → Completes (.dbgResponse acc) s (fun t =>
          t.get LCS_STAT.BUSY = 1 ∧ t.lcsm.chalTb = none ∧ t.lcsm.sig = some ⟨true, 0, fsd, h.lcsChal, msg⟩)) ∧
        (may 5 → h.tokenOk msg = false → Becomes (.enterRtest acc) s (refused 0xC)) ∧
        (may 5 → h.tokenOk msg = true → 16 ≤ h.get (LCS_TALLY.VALUE 4) → Becomes (.enterRtest acc) s (refused 3)) ∧
        (may 5 → h.tokenOk msg = true → h.get (LCS_TALLY.VALUE 4) < 16 → 2 ≤ h.auditFree →
          Becomes (.enterRtest acc) s ({ h with lcsm := { h.lcsm with sig := some ⟨false, 0, fsd, [], msg⟩ } }.set LCS_STAT.BUSY 1))) ∧
      (st = 2 ∨ st = 3 →
        (may 0xA → h.get (LCS_TALLY.VALUE 5) < 16 → h.auditFree ≠ 0 → Completes (.trkRotate acc) s (fun t => ended t ∧ t.lcs.trk.length = 32 ∧ t.lcs.ownerHash = h.lcs.ownerHash ∧
          t.get (LCS_TALLY.VALUE 5) = h.get (LCS_TALLY.VALUE 5) + 1)) ∧
        (may 0xB → h.get LCS_ARG0.ARG ≤ 127 → Completes (.trkDerive acc) s (fun t => ended t ∧ t.lcs = h.lcs ∧ t.mem = mcanon (fun _ => 0) h.mem ∧
          sliceB t.lcsMsg 0 32 = sha256 (h.lcs.trk ++ leBytes 1 (h.get LCS_ARG0.ARG) ++ sliceB msg 0 32))) ∧
        (may 0xB → 127 < h.get LCS_ARG0.ARG → Becomes (.trkDerive acc) s (refused 0xC))) ∧
      (st = 2 ∨ st = 3 ∨ st = 4 →
        let a := h.get LCS_ARG0.ARG
        let read := if a % 64 = 0 ∧ 0x10000000 ≤ a ∧ a + 2048 ≤ 0x10200000 then h.eccRead a 2048 else (h, .bad)
        let right := read.2 = .good ∧ calOk (h.bytes a 2048) = true
        (may 0xC → ¬ right → Becomes (.calCommit acc) s
          (read.1.sets [(LCS_STAT.BUSY, 0), (LCS_STAT.DONE, 1), (LCS_STAT.REASON, 0xC), (LCS_STAT.REFUSED, 1)])) ∧
        (may 0xC → right → h.get (LCS_TALLY.VALUE 3) < 32 → h.auditFree ≠ 0 → Completes (.calCommit acc) s (fun t => ended t ∧
          t.get LCS_STATE.CAL_BANK = 1 - h.get LCS_STATE.CAL_BANK))) ∧
      (st ∈ [1, 2, 3, 4] →
        (may 0xD → h.lsLive 15 < h.get LCS_ARG0.ARG % 4096 → Becomes (.auditRelease acc) s (refused 0xC)) ∧
        (may 0xD → h.get LCS_ARG0.ARG % 4096 ≤ h.lsLive 15 → Completes (.auditRelease acc) s (fun t => ended t ∧
          t.lcs.auditTail = seqAdd (h.get (MRC_LS_TAIL.LSEQ 15)) (h.get LCS_ARG0.ARG % 4096))) ∧
        (may 6 → h.get LCS_ARG0.ARG ≠ h.get SYS_SERIAL_LO.SERIAL → Becomes (.scrap acc) s (refused 0xC)) ∧
        (may 6 → h.get LCS_ARG0.ARG = h.get SYS_SERIAL_LO.SERIAL → Completes (.scrap acc) s (fun t => held t 5))) ∧
      (st = 1 → may 3 → h.auditFree ≠ 0 → Completes (.toTest acc) s (fun t => held t 2)) ∧
      (st = 2 → may 4 → h.lcs.ownerHash = none → Becomes (.toProd acc) s (refused 6)) ∧
      (st = 4 ∨ (st = 2 ∧ h.lcs.ownerHash ≠ none) → may 4 →
        (h.auditFree ≠ 0 → Completes (.toProd acc) s (fun t => held t 3)) ∧ (h.auditFree = 0 → Becomes (.toProd acc) s (refused 4)))) ∧
    (∀ (same : Bool) (dst : Nat), h.pwr.phase = .up → h.lcsm.transit = some dst → dst < 8 → h.pwr.pending = none → Completes (.transitionWipeDone same) s (fun t =>
      t.get LCS_STATE.STATE = dst ∧ t.lcs.marker = none ∧ t.lcsm.transit = none ∧ t.lcsm.holds = h.lcsm.holds ∧ t.pwr.pending = some (0xB, false) ∧
      (∀ a, (0x10000000 ≤ a ∧ a < 0x10200000) ∨ (0x30100000 ≤ a ∧ a < 0x30108000) ∨ (0x18000000 ≤ a ∧ a < 0x18100000) →
        (st = 2 ∧ dst = 3) ∨ (st = 3 ∧ dst = 4) ∨ (st = 4 ∧ dst = 3) ∨ dst = 5 → t.byte a = 0) ∧
      (∀ a, a < 0x00FC0000 → (st = 3 ∧ dst = 4) ∨ (st = 4 ∧ dst = 3) ∨ dst = 5 → t.byte a = 0) ∧
      (∀ a, 0x00FC0000 ≤ a → a < 0x01000000 → t.byte a = if dst = 5 then 0 else h.byte a) ∧
      (t.lcs.trk = if (st = 3 ∧ dst = 4) ∨ dst = 5 then zeros 32 else h.lcs.trk) ∧
      (dst = 5 → t.lcs.ownerHash = none ∧ t.lcs.debugHash = none ∧ t.lcs.trims = false ∧
        ∀ n : Fin 8, t.get (LCS_TALLY.VALUE n) = [64, 8, 4, 32, 16, 16, 32, 32].getD n 0) ∧
      (dst ≠ 5 → t.lcs.ownerHash = h.lcs.ownerHash ∧ t.lcs.debugHash = h.lcs.debugHash ∧ ∀ n : Fin 8, t.get (LCS_TALLY.VALUE n) = h.get (LCS_TALLY.VALUE n)))) ∧
    (∀ t0, h.pwr.phase = .up → h.lcsm.chalTb = some t0 → Completes .challengeExpiry s (fun t => t.lcsm.chalTb = none ∧ ∀ k, k < 16 → t.rd (LCS_CHAL k) = 0)) ∧
    (∀ j, h.clocked = true → h.lcsm.sig = some j →
      (j.resp = true → Completes .signatureCheckDone s (fun t => t.lcsm.sig = none ∧
        if ecdsaOk (sliceB j.msg 16 64) (sliceB j.msg 80 64) (sha256 (j.chal ++ sliceB j.msg 0 16)) then
          ended t ∧ t.reads [(LCS_STAT.DBG_PERM, fieldB j.msg 5 1 % 16), (DBG_STAT.PERM, fieldB j.msg 5 1 % 16)]
        else t.reads [(LCS_STAT.DONE, 1), (LCS_STAT.REFUSED, 1), (LCS_STAT.REASON, 8), (LCS_STAT.DBG_PERM, h.get LCS_STAT.DBG_PERM)])) ∧
      (j.resp = false → ecdsaOk Config.returnTestKey (sliceB j.msg 16 64) (sha256 (sliceB j.msg 0 16)) = true → h.get (LCS_TALLY.VALUE 4) < 16 → 2 ≤ h.auditFree →
        Completes .signatureCheckDone s (fun t => held t 4)) ∧
      (j.resp = false → ecdsaOk Config.returnTestKey (sliceB j.msg 16 64) (sha256 (sliceB j.msg 0 16)) = true → h.auditFree < 2 →
        Becomes .signatureCheckDone s ({ h with lcsm := { h.lcsm with sig := none } }.sets
          [(LCS_STAT.BUSY, 0), (LCS_STAT.DONE, 1), (LCS_STAT.REASON, 4), (LCS_STAT.REFUSED, 1)])) ∧
      (j.resp = false → ecdsaOk Config.returnTestKey (sliceB j.msg 16 64) (sha256 (sliceB j.msg 0 16)) = false →
        Becomes .signatureCheckDone s ({ h with lcsm := { h.lcsm with sig := none } }.sets
          [(LCS_STAT.BUSY, 0), (LCS_STAT.DONE, 1), (LCS_STAT.REASON, 8), (LCS_STAT.REFUSED, 1)])))

/-- R67, R156, R157, R161, R162: the interrupt controller and the watchdogs. Readings of the model: log entries 24, 159 and 160. -/
def Obligations.InterruptLinesAndWatchdogsFollowTheirRules : Prop :=
  ∀ (s : State) (acc : Access) (v : Word),
    let h := s.hw
    let k := v.toNat % 256
    let own := fun (i : Nat) => acc.tid = 0 ∨ h.get (INTC_CFG.OWNER_L (16 + i)) = acc.tid.toNat
    (h.opens acc = true → ∀ c : Fin 2,
      (acc.tid ≠ 0 → Becomes (.intcEoi acc c v) s h) ∧
      (acc.tid = 0 → ¬ (∃ e ∈ h.act c, e.1 = k) → Becomes (.intcEoi acc c v) s (h.set INTC_STAT.BAD_EOI 1)) ∧
      (acc.tid = 0 → (∃ e ∈ h.act c, e.1 = k) → Completes (.intcEoi acc c v) s (fun t =>
        t.act c = (h.act c).filter (fun e => e.1 != k) ∧ t.act (1 - c.val) = h.act (1 - c.val) ∧
        (t.act c = [] → t.get (INTC_M_RUNPRI.PRI c) = 16) ∧
        (∀ e ∈ t.act c, e.2 < 16 → t.get (INTC_M_RUNPRI.PRI c) ≤ e.2) ∧
        ((∀ e ∈ h.act c, e.2 < 16) → t.act c ≠ [] → ∃ e ∈ t.act c, t.get (INTC_M_RUNPRI.PRI c) = e.2) ∧ t.mem = mcanon (fun _ => 0) h.mem ∧ t.m0 = h.m0 ∧ t.m1 = h.m1))) ∧
    (h.opens acc = true → Completes (.intcSwiSet acc v) s (fun t => ∀ i, i < 16 →
      (bitOf (t.get INTC_SWI_SET.SWI) i = true ↔ bitOf (h.get INTC_SWI_SET.SWI) i = true ∨ (v.getLsbD i = true ∧ own i)))) ∧
    (h.opens acc = true → Completes (.intcSwiClr acc v) s (fun t => ∀ i, i < 16 →
      (bitOf (t.get INTC_SWI_SET.SWI) i = true ↔ bitOf (h.get INTC_SWI_SET.SWI) i = true ∧ ¬ (v.getLsbD i = true ∧ own i)))) ∧
    (h.opens acc = true → ∀ j : Fin 256,
      (acc.tid = 0 → Completes (.intcCfgWrite acc j v) s (fun t =>
        t.reads [(INTC_CFG.PRIO j, v.toNat % 16), (INTC_CFG.ROUTE j, v.toNat / 16 % 4), (INTC_CFG.EN j, b2n (v.getLsbD 6)),
          (INTC_CFG.OWNER_L j, h.get (INTC_CFG.OWNER_L j))])) ∧
      (acc.tid ≠ 0 → acc.tid.toNat = h.get (INTC_CFG.OWNER_L j) → Becomes (.intcCfgWrite acc j v) s (h.set (INTC_CFG.EN j) (b2n (v.getLsbD 6)))) ∧
      (acc.tid ≠ 0 → acc.tid.toNat ≠ h.get (INTC_CFG.OWNER_L j) → Becomes (.intcCfgWrite acc j v) s h)) ∧
    (h.opens acc = true → ∀ (n : Fin 2) (elapsed : Nat),
      let was := h.get (TMR_WD_COUNT.VALUE n)
      let warn := h.get (TMR_WD_WARN.VALUE n)
      let count := if h.wdRuns n then was - elapsed else was
      let late := h.wdRuns n = true ∧ was < elapsed
      let down := if h.wdRuns n then h.set (TMR_WD_COUNT.VALUE n) count else h
      let now := if h.wdRuns n = true ∧ warn ≠ 0 ∧ warn < was ∧ count ≤ warn then down.set (TMR_WD_STAT.WARNED n) 1 else down
      let gone := fun (t : Hw) => t.get (TMR_WD_COUNT.VALUE n) = 0 ∧ t.pwr = { h.pwr with pending := some (7 + n.val, false) }
      let mine := acc.who = if n = 0 then Initiator.m0 else .m1
      (late → h.pwr.pending = none → Completes (.wdKick acc n v elapsed) s (fun t => gone t ∧ (acc.tid = 0 → ¬ mine → t.get (TMR_WD_STAT.WRONG_CORE n) = 1))) ∧
      (¬ late →
        (acc.tid ≠ 0 → Becomes (.wdKick acc n v elapsed) s now) ∧
        (acc.tid = 0 → ¬ mine → Becomes (.wdKick acc n v elapsed) s (now.set (TMR_WD_STAT.WRONG_CORE n) 1)) ∧
        (acc.tid = 0 → mine → h.get (TMR_WD_CTL.EN n) = 0 → Becomes (.wdKick acc n v elapsed) s h) ∧
        (acc.tid = 0 → mine → h.get (TMR_WD_CTL.EN n) = 1 →
          (v = 0x4B1D → count ≤ h.get (TMR_WD_WIN.VALUE n) →
            Becomes (.wdKick acc n v elapsed) s (now.set (TMR_WD_COUNT.VALUE n) (h.get (TMR_WD_LOAD.VALUE n)))) ∧
          (v ≠ 0x4B1D ∨ h.get (TMR_WD_WIN.VALUE n) < count → h.pwr.pending = none → Completes (.wdKick acc n v elapsed) s gone)))) ∧
    (∀ n : Fin 2,
      (h.wdRuns n = true → h.get (TMR_WD_WARN.VALUE n) ≠ 0 → h.get (TMR_WD_WARN.VALUE n) ≤ h.get (TMR_WD_COUNT.VALUE n) →
        Becomes (.wdWarning n) s (h.sets [(TMR_WD_COUNT.VALUE n, h.get (TMR_WD_WARN.VALUE n)), (TMR_WD_STAT.WARNED n, 1)])) ∧
      (∀ same : Bool, h.wdRuns n = true → h.pwr.pending = none → Completes (.wdExpiry n same) s (fun t =>
        t.get (TMR_WD_COUNT.VALUE n) = 0 ∧ t.pwr = { h.pwr with pending := some (7 + n.val, false) })) ∧
      (h.wdRuns n = false → Becomes (.wdWarning n) s h ∧ Becomes (.wdExpiry n false) s h)) ∧
    (h.wdRuns 0 = true → h.wdRuns 1 = true → h.pwr.pending = none → (∀ n : Fin 2, h.get (TMR_WD_COUNT.VALUE n) ≤ 1 ∧
        16000 ≤ tget 0 h.wdFrac n + h.get CLK_DIV.PER_DIV) → h.wdEdges.pwr = { h.pwr with pending := some (7, true) })

/-- R11 to R17, R25, R30, R33, R376, R425, R442, R443, R485: what a register write does. -/
def Obligations.RegistersTakeTheirWritesAsTheirColumnsSay : Prop :=
  (∀ (k : Hw) (a : Nat) (v : Word) (r : RegRow), rowOf a = some (r, false) → (∀ e ∈ encRules, e.hits a = false) →
    (∀ i, i < 32 → ((k.plainWrite a v).rd a).getLsbD i =
      if bitOf r.w1s i && v.getLsbD i then true else if bitOf r.w1c i && v.getLsbD i then false
      else if bitOf r.rw i || bitOf r.sh i || (bitOf r.lk i && !k.launched) then v.getLsbD i else (k.rd a).getLsbD i) ∧
    (∀ b, b ≠ a → b ≠ CMT_STAGED → (k.plainWrite a v).rd b = k.rd b) ∧
    (k.plainWrite a v).mem = k.mem ∧ (k.plainWrite a v).pwr = k.pwr ∧ (k.plainWrite a v).m0 = k.m0 ∧
    (r.sh ≠ 0 → 1 ≤ r.dom → r.dom ≤ 8 → bitOf ((k.plainWrite a v).get CMT_STAGED.DOMAIN) (r.dom - 1) = true)) ∧
  (∀ (s : State) (acc : Access) (adr v : Word),
    let h := s.hw
    let a := adr.toNat
    let win := (a - 0x20000000) / 0x10000
    let answered := fun (r : Nat) => if acc.who = .debug then h.set DBG_STAT.FSD_FAULT r else h
    (h.reaches acc a v = true →
      (a % 4 = 0 → 0x20000000 ≤ a → win ∈ [5, 6, 8, 0xA, 0x19] →
        (acc.tid = 0 → gateMask0 a = false → Becomes (.registerWrite acc adr v) s (h.plainWrite a v)) ∧
        (acc.tid = 0 → gateMask0 a = true → Becomes (.registerWrite acc adr v) s h) ∧
        (acc.tid ≠ 0 → rowOf a ≠ none → Becomes (.registerWrite acc adr v) s (answered 1))) ∧
      (inWindows a = true → rowOf a = none → a % 4 = 0 → Becomes (.registerWrite acc adr v) s h ∧
        h.devRead acc a = (h, .word 0) ∧ h.devWrite acc a v = (h, .ok)) ∧
      (a % 4 ≠ 0 ∨ a < 0x20000000 ∨ (0x201A0000 ≤ a ∧ a < 0x21000000) ∨ (0x21010000 ≤ a ∧ a < 0x30000000) ∨ 0x30010000 ≤ a →
        Becomes (.registerWrite acc adr v) s (answered 2))) ∧
    (h.busHeld acc.who = true → Becomes (.registerWrite acc adr v) s h) ∧
    (acc.who = .polder → h.busHeld .polder = false → h.polRuns = true → islandReg a = false → h.get POL_STAT.MAIN_UP = 0 →
      Becomes (.registerWrite acc adr v) s (h.set POL_STAT.BRIDGE_ERR 1)) ∧
    (acc.who = .debug → h.busHeld .debug = false → h.clocked = true → h.dbgMay h.dbg.jtag a true v = false →
      Becomes (.registerWrite acc adr v) s (h.set DBG_STAT.FSD_FAULT 1))) ∧
  (∀ (s : State) (n a t : Nat) (rest : List (Nat × Nat × Nat)), s.hw.stores = (n, a, t) :: rest →
    (s.hw.get SYS_BERR_INFO.VALID = 1 → Becomes .asyncBusError s { s.hw with stores := rest }) ∧
    (s.hw.get SYS_BERR_INFO.VALID = 0 → Becomes .asyncBusError s ({ s.hw with stores := rest }.sets
      [(SYS_BERR_ADDR.ADDR, a), (SYS_BERR_INFO.TID, t), (SYS_BERR_INFO.CORE, n), (SYS_BERR_INFO.VALID, 1)])))

/-- R194 to R200: log streams. That NOT_ENABLED goes before QUEUE_FULL is log entry 21, that a slot in a poisoned line is refused with
SOURCE_ERR log entry 162: both are the model's choices. Readings of the model: log entry 131. -/
def Obligations.LogStreamsAppendReleaseAndRecover : Prop :=
  (∀ (k : Hw) (n : Nat) (p : List Byte), n < 15 → k.lsOn n = true →
    let r := k.lsRecord n p
    let q := if k.lsLive n < k.lsSize n then k else k.set (MRC_LS_TAIL.LSEQ n) (seqAdd (k.get (MRC_LS_TAIL.LSEQ n)) 1)
    let poisoned := k.linePoisoned (k.slotAddr n (tget 0 k.lsSlot n)) 64
    (poisoned = true → k.lsAppend n p = (k.lsRefuse n 3 1, false)) ∧
    (poisoned = false → k.lsSize n ≤ k.lsLive n → k.get (MRC_LS_CFG.MODE n) = 0 → k.lsAppend n p = (k.lsRefuse n 1 1, false)) ∧
    (poisoned = false → k.lsLive n < k.lsSize n ∨ k.get (MRC_LS_CFG.MODE n) = 1 → k.slotAddr n (k.lsSize n) ≤ 0x00FC0000 → tget 0 k.lsSlot n < k.lsSize n →
      (k.lsAppend n p).2 = true ∧
      (k.lsAppend n p).1.reads [(MRC_LS_HEAD.LSEQ n, seqAdd (k.get (MRC_LS_HEAD.LSEQ n)) 1), (MRC_LS_TAIL.LSEQ n, q.get (MRC_LS_TAIL.LSEQ n))] ∧
      (∀ i, i < 64 → (k.lsAppend n p).1.byte (k.slotAddr n (tget 0 k.lsSlot n) + i) = (q.lsRecord n p).getD i 0) ∧
      tget 0 (k.lsAppend n p).1.lsSlot n = (tget 0 k.lsSlot n + 1) % k.lsSize n) ∧
    (∀ a, 0x00FC0000 ≤ a → a < 0x01000000 → (k.lsAppend n p).1.byte a = k.byte a) ∧
    r.length = 64 ∧ r.take 48 = padTo 48 p ∧
    (r.drop 48).take 8 = (if k.get (MRC_LS_CFG.STAMP n) = 1 then leBytes 8 k.clk.tb.toNat else (padTo 56 p).drop 48) ∧
    fieldB r 56 3 = k.get (MRC_LS_HEAD.LSEQ n) ∧ bitOf (fieldB r 59 1) 7 = true ∧
    fieldB r 60 4 = (crc32c (r.take 60 ++ leBytes 1 n ++ leBytes 4 (k.rd (MRC_LS_INST n)).toNat)).toNat) ∧
  (∀ (k : Hw) (n code d : Nat), code < 8 → n < 16 → (k.lsRefuse n code d).reads [(MRC_LS_STAT.ERR n, 1), (MRC_LS_STAT.ERRCODE n, code),
    (MRC_LS_STAT.DROPPED n, min (k.get (MRC_LS_STAT.DROPPED n) + d) (2 ^ (MRC_LS_STAT.DROPPED n).wid - 1))]) ∧
  (∀ (s : State) (acc : Access) (n : Fin 16) (v : Word), s.hw.clocked = true →
    let h := s.hw
    let owner := n.val ≠ 15 ∧ (acc.tid = 0 ∨ acc.tid.toNat = h.lsOwner n)
    let may := h.opens acc = true ∧ owner
    let mayNot := h.opens acc = true ∧ ¬ owner
    let queued := fun (r : AppendReq) => ({ h with appendQ := h.appendQ ++ [r] } : Hw).set MRC_LOG_QSTAT.DEPTH (h.appendQ.length + 1)
    (mayNot → Becomes (.appendAddr acc n v) s h ∧ Becomes (.appendHdl acc n v) s h) ∧
    (may → h.lsOn n = false → Becomes (.appendAddr acc n v) s (h.lsRefuse n 5 1)) ∧
    (may → h.lsOn n = true → 64 ≤ h.appendQ.length → Becomes (.appendAddr acc n v) s (h.lsRefuse n 2 1)) ∧
    (may → ∀ code, (h.lsOn n = false ∧ code = 5) ∨ (h.lsOn n = true ∧ 64 ≤ h.appendQ.length ∧ code = 2) → Completes (.appendHdl acc n v) s (fun t =>
      t.reads [(MRC_LS_STAT.ERR n, 1), (MRC_LS_STAT.ERRCODE n, code)] ∧ t.appendQ = h.appendQ)) ∧
    (may → h.lsOn n = true → h.appendQ.length < 64 →
      Becomes (.appendAddr acc n v) s (queued (.addr n (v.toNat / 64 * 64))) ∧ Becomes (.appendHdl acc n v) s (queued (.handle n v 0))) ∧
    (h.mrcDrained = false → ∀ r rest, h.appendQ = r :: rest → h.get (MRC_LS_STAT.SCANNING r.stream) = 0 →
      let k := ({ h with appendQ := rest } : Hw).set MRC_LOG_QSTAT.DEPTH rest.length
      (∀ m p, r = .bytes m p false → Becomes .appendCommit s (k.lsAppend m p).1) ∧
      (∀ m src bs, r = .addr m src → (k.dmaRead (h.lsOwner m) iniMrc src 56).2 = .ok bs → (h.region src).cached = true →
        Becomes .appendCommit s ((k.dmaRead (h.lsOwner m) iniMrc src 56).1.lsAppend m bs).1)) ∧
    (let N := v.toNat % 2 ^ 18
     (mayNot → Becomes (.mrcRelease acc n v) s h) ∧
     (may → h.lsOn n = false → Becomes (.mrcRelease acc n v) s (h.lsRefuse n 5 0)) ∧
     (may → h.lsOn n = true → h.lsLive n < N → Becomes (.mrcRelease acc n v) s (h.lsRefuse n 4 0)) ∧
     (may → h.lsOn n = true → N ≤ h.lsLive n → Completes (.mrcRelease acc n v) s (fun t =>
       t.get (MRC_LS_TAIL.LSEQ n) = seqAdd (h.get (MRC_LS_TAIL.LSEQ n)) N ∧ t.get (MRC_LS_HEAD.LSEQ n) = h.get (MRC_LS_HEAD.LSEQ n) ∧ t.appendQ = h.appendQ))) ∧
    (mayNot → Becomes (.logStreamEnable acc n v) s h) ∧
    (may → Completes (.logStreamEnable acc n v) s (fun t =>
      t.reads [(MRC_LS_CFG.EN n, b2n (v.getLsbD 0)), (MRC_LS_CFG.MODE n, b2n (v.getLsbD 1)), (MRC_LS_CFG.STAMP n, b2n (v.getLsbD 2)),
        (MRC_LS_STAT.SCANNING n, if h.get (MRC_LS_CFG.EN n) = 0 ∧ v.getLsbD 0 = true ∧ h.lsSize n ≠ 0 then 1 else h.get (MRC_LS_STAT.SCANNING n))])) ∧
    (h.get (MRC_LS_STAT.SCANNING n) = 1 → n.val ≠ 15 →
      (h.headerOk n = true → ∀ j, j < h.lsSize n → ((h.clr (MRC_LS_STAT.SCANNING n)).wr (MRC_LS_INST n) (BitVec.ofNat 32 (h.loadN (h.lsBase n + 8) 4))).slotLast n j = true →
        (∀ i, i < j → ((h.clr (MRC_LS_STAT.SCANNING n)).wr (MRC_LS_INST n) (BitVec.ofNat 32 (h.loadN (h.lsBase n + 8) 4))).slotLast n i = false) →
        Completes (.recoveryScanDone n) s (fun t => t.reads [(MRC_LS_STAT.SCANNING n, 0), (MRC_LS_STAT.FRESH n, 0), (MRC_LS_HEAD.LSEQ n, seqAdd (h.slotSeq n j) 1),
          (MRC_LS_TAIL.LSEQ n, seqLater (h.loadN (h.lsBase n + 16) 3) (seqSub (seqAdd (h.slotSeq n j) 1) (h.lsSize n)))])) ∧
      (h.headerOk n = false → Completes (.recoveryScanDone n) s (fun t => t.reads [(MRC_LS_STAT.SCANNING n, 0), (MRC_LS_STAT.FRESH n, 1), (MRC_LS_HEAD.LSEQ n, 0),
        (MRC_LS_TAIL.LSEQ n, 0)] ∧ t.rd (MRC_LS_INST n) = BitVec.ofNat 32 h.clk.tb.toNat ^^^ h.rd SYS_SERIAL_LO))))

/-- R190 to R192, R202 to R207, R215: scrubbing, the directory and refresh. Readings of the model: log entries 130 and 133. -/
def Obligations.ScrubbingAndTheDirectoryKeepTheBytes : Prop :=
  ∀ s : State, s.hw.pwr.phase = .up → s.hw.pwr.sleep ≠ .sleep →
    let h := s.hw
    let pos := h.get MRC_SCRUB_POS.ADDR
    let clear := fun (a : Nat) => tget Upset.none h.upsets (a / 8) = .none
    (∀ u : Upset, h.get MRC_SCRUB_CFG.EN = 0 ∨ h.pwr.sleep = .sleepEmulated → Becomes (.scrubRead u) s h) ∧
    (∀ u : Upset, h.get MRC_SCRUB_CFG.EN = 1 → h.pwr.sleep ≠ .sleepEmulated → Completes (.scrubRead u) s (fun t =>
      SameMemory h t ∧ t.get MRC_SCRUB_POS.ADDR = (pos + 1) % 2 ^ 21 ∧ (pos + 1 = 2 ^ 21 → t.get MRC_STAT.SCRUB_DONE = 1) ∧
      (clear (pos * 8) → t.reads [(MRC_STAT.ECC_CE, if u = .single then 1 else h.get MRC_STAT.ECC_CE), (MRC_STAT.ECC_UE, if u = .uncorrectable then 1 else h.get MRC_STAT.ECC_UE)]))) ∧
    (∀ u : Upset, h.get HUB_SCRUB_CFG.EN = 0 ∨ h.pwr.sleep = .sleepEmulated → Becomes (.sramScrubRead u) s h) ∧
    (∀ u : Upset, h.get HUB_SCRUB_CFG.EN = 1 → h.pwr.sleep ≠ .sleepEmulated → 0x10000000 ≤ h.sramScrub → h.sramScrub < 0x10200000 → h.sramScrub % 8 = 0 →
      Completes (.sramScrubRead u) s (fun t =>
        SameMemory h t ∧ t.sramScrub = (if h.sramScrub + 8 = 0x10200000 then 0x10000000 else h.sramScrub + 8) ∧
        (clear h.sramScrub → t.reads [(HUB_STAT.CE, if u = .single then 1 else h.get HUB_STAT.CE), (HUB_STAT.UE, if u = .uncorrectable then 1 else h.get HUB_STAT.UE)]))) ∧
    (∀ (line : Nat) (arrivals : List Agent),
      let e := h.dirAt line
      let q := e.queue ++ arrivals
      let order : List Agent := match e.last with
        | some .m0 => [.m1, .pe, .m0]
        | some .m1 => [.pe, .m0, .m1]
        | _ => [.m0, .m1, .pe]
      let waits := fun (t : Hw) => t.get HUB_QWAIT_CNT.COUNT = min (h.get HUB_QWAIT_CNT.COUNT + arrivals.length) (2 ^ HUB_QWAIT_CNT.COUNT.wid - 1)
      (e.owed = none → ∀ g rest, order.filter (· ∈ q) = g :: rest → Completes (.ownershipGrant line arrivals) s (fun t =>
        SameMemory h t ∧ (t.dirAt line).st = .owned ∧ (t.dirAt line).holders = [g] ∧ (t.dirAt line).owed = some g ∧ g ∉ (t.dirAt line).queue ∧
        (∀ x, x ≠ g → (x ∈ (t.dirAt line).queue ↔ x ∈ q)) ∧ waits t)) ∧
      (∀ o, e.owed = some o → Completes (.ownershipGrant line arrivals) s (fun t =>
        SameMemory h t ∧ (t.dirAt line).st = e.st ∧ (t.dirAt line).holders = e.holders ∧ (t.dirAt line).owed = some o ∧
        (∀ x, x ∈ (t.dirAt line).queue ↔ x ≠ o ∧ x ∈ q) ∧ waits t)) ∧
      (q = [] → e.owed = none → Completes (.ownershipGrant line arrivals) s (fun t => SameMemory h t ∧ t.regs = mcanon resetWord h.regs ∧ t.dirAt line = h.dirAt line))) ∧
    (∀ (line : Nat) (found : List (Fin 8 × Upset)), Completes (.l2Eviction line found) s (fun t =>
      ((h.lineSound line ∧ ∀ e ∈ found, e.2 = Upset.l2Bad → h.region (line * 64 + 8 * e.1.val) = .mram) → ∀ a, h.region a ≠ .xspi → t.byte a = h.byte a) ∧
      (t.dirAt line).st = .invalid ∧ (t.dirAt line).holders = [] ∧
      (∀ l ∈ [t.l2, t.dc0, t.dc1, t.pec], oline l line = []) ∧ t.m0.resv ≠ some line ∧ t.m1.resv ≠ some line)) ∧
    (∀ (line : Nat) (i : Fin 8), line * 64 + 64 ≤ 0x01000000 → oline h.l2 line ≠ [] → (∀ l ∈ [h.dc0, h.dc1, h.pec], oline l line = []) →
      Completes (.l2Eviction line [(i, .l2Bad)]) s (fun t => tget Upset.none t.upsets (line * 8 + i.val) = .uncorrectable)) ∧
    Becomes .ddrRefresh s h ∧
    (∀ (v : Byte) (above : Bool),
      (h.blockOn 8 = true → h.get DDR_STAT.SELF_REFRESH = 0 → h.ddrTop ≠ 0x80000000 → Completes (.mr4Read v above) s (fun t =>
        SameMemory h t ∧ t.ddrHot = above ∧ t.get DDR_MR4.VALUE = v.toNat % 2 ^ DDR_MR4.VALUE.wid ∧
        t.get DDR_STAT.DERATE = if above && !h.ddrHot then 1 else h.get DDR_STAT.DERATE)) ∧
      (h.blockOn 8 = false ∨ h.get DDR_STAT.SELF_REFRESH = 1 ∨ h.ddrTop = 0x80000000 → Becomes (.mr4Read v above) s h))

/-- R217 to R224: queues, dispatch and store loads. Readings of the model: log entry 29. -/
def Obligations.KernelsAreQueuedDispatchedAndLoaded : Prop :=
  (∀ (s : State) (acc : Access) (v : Word), s.hw.opens acc = true →
    let h := s.hw
    (∀ c : Fin 4,
      (acc.tid ≠ 0 → Becomes (.clusterModeWrite acc c v) s h) ∧
      (acc.tid = 0 → v.toNat % 4 ≠ 3 → h.clusterIdle c = true → Becomes (.clusterModeWrite acc c v) s (h.set (LAC_LC_CFG.MODE c) (v.toNat % 4))) ∧
      (acc.tid = 0 → v.toNat % 4 ≠ 3 → h.clusterIdle c = false → Becomes (.clusterModeWrite acc c v) s (h.set (LAC_LC_STAT.MODE_REJ c) 1)) ∧
      (acc.tid = 0 → v.toNat % 4 = 3 → Becomes (.clusterModeWrite acc c v) s h)) ∧
    (∀ q : Fin 16,
      let may := acc.tid = 0 ∨ acc.tid.toNat = h.lqOwner q
      let refused := fun (code : Nat) => h.sets [(LAC_Q_STAT.ERR q, 1), (LAC_Q_STAT.ERRCODE q, code)]
      (¬ may → Becomes (.lacPush acc q v) s h) ∧
      (h.lcsm.holds = true → Becomes (.lacPush acc q v) s h) ∧
      (may → h.lcsm.holds = false → h.groupExists q = false → Becomes (.lacPush acc q v) s (refused 2)) ∧
      (may → h.lcsm.holds = false → h.groupExists q = true → 8 ≤ (h.lq q).waiting.length → Becomes (.lacPush acc q v) s (refused 1)) ∧
      (may → h.lcsm.holds = false → h.groupExists q = true → (h.lq q).waiting.length < 8 → Completes (.lacPush acc q v) s (fun t =>
        t.lq q = { h.lq q with waiting := (h.lq q).waiting ++ [⟨v.toNat / 64 * 64, h.viewNow⟩] } ∧ t.get (LAC_Q_STAT.DEPTH q) = (h.lq q).waiting.length + 1 ∧
        (∀ p, p ≠ q.val → t.lq p = h.lq p) ∧ t.mem = mcanon (fun _ => 0) h.mem))) ∧
    (∀ c : Fin 4,
      let len := h.get (LAC_LC_ISL_LEN.BYTES c) * 8
      let dst := h.get (LAC_LC_ISL_DST.OFS c) * 8
      let part := modePart (h.lcMode c)
      let g := 4 * c.val + dst / part
      let fits := len ≠ 0 ∧ dst / part = (dst + len - 1) / part ∧ dst + len ≤ 0x8000
      let may := acc.tid = 0 ∨ acc.tid.toNat = h.lqOwner g
      let refused := fun (code : Nat) => h.sets [(LAC_LC_STAT.ISL_ERR c, 1), (LAC_LC_STAT.ISL_CODE c, code)]
      let free := (h.grp g).queue = none ∧ tget none h.isl c = none
      (v.getLsbD 0 = false ∨ h.lcsm.holds = true → Becomes (.islGo acc c v) s h) ∧
      (v.getLsbD 0 = true → h.lcsm.holds = false →
        (¬ fits → Becomes (.islGo acc c v) s (refused 1)) ∧ (fits → ¬ may → Becomes (.islGo acc c v) s (refused 2)) ∧
        (fits → may → ¬ free → Becomes (.islGo acc c v) s (refused 3)) ∧
        (fits → may → free → Completes (.islGo acc c v) s (fun t =>
          tget none t.isl c = some ⟨h.get (LAC_LC_ISL_SRC.ADDR c) * 8, dst, len, acc.tid.toNat⟩ ∧ t.get (LAC_LC_STAT.ISL_BUSY c) = 1 ∧ t.istore = h.istore))))) ∧
  (∀ s : State, s.hw.laneOn = true →
    let h := s.hw
    (∀ (q : Fin 16) (d : LanePush) (rest : List LanePush), h.canDispatch q = true → (h.lq q).waiting = d :: rest →
      (h.windowHeld d.adr 64 = true → Becomes (.dispatch q) s h) ∧
      (h.windowHeld d.adr 64 = false →
      let r := h.dmaRead (h.lqOwner q) iniLane d.adr 64
      let rejected := fun (t : Hw) (cause : Nat) => (t.lq q).waiting = rest ∧ (t.lq q).kern = none ∧
        t.reads [(LAC_Q_STAT.LAST_STATUS q, 4), (LAC_Q_STAT.LAST_CAUSE q, cause), (LAC_Q_STAT.DEPTH q, rest.length % 16)]
      (∀ e, r.2 = .error e → Completes (.dispatch q) s (fun t => rejected t 1)) ∧
      (∀ b, r.2 = .ok b →
        let m := h.lcMode (q.val / 4)
        let f := fieldB b
        let reserved := 2 ≤ f 5 1 ∨ f 7 1 ≠ 0 ∨ f 56 8 ≠ 0
        let gang := f 6 1 % 16
        let named := (List.range 4).filter (fun c => bitOf gang c)
        let kernel : Kernel := { tid := h.lqOwner q, lbase := h.get (LAC_Q_LMEM.BASE_L q), llimit := h.get (LAC_Q_LMEM.LIMIT_L q)
                                 groups := if gang = 0 then [q.val] else named.map (4 * ·), gang := gang != 0, entry := f 0 4, width := f 4 1, irq := bitOf (f 5 1) 0
                                 limit := f 8 4, record := f 12 4, args := (List.range 8).map (fun i => BitVec.ofNat 32 (f (16 + 4 * i) 4)), tag := sliceB b 48 8, view := d.view }
        (reserved → Completes (.dispatch q) s (fun t => rejected t 2)) ∧
        (¬ reserved → f 4 1 ≠ modeWidth m → Completes (.dispatch q) s (fun t => rejected t 3)) ∧
        (¬ reserved → f 4 1 = modeWidth m → f 0 4 % 8 ≠ 0 ∨ modePart m ≤ f 0 4 → Completes (.dispatch q) s (fun t => rejected t 4)) ∧
        (¬ reserved → f 4 1 = modeWidth m → f 0 4 % 8 = 0 → f 0 4 < modePart m →
          (gang = 0 → f 12 4 % 16 ≠ 0 → Completes (.dispatch q) s (fun t => rejected t 6)) ∧
          (gang = 0 → f 12 4 % 16 = 0 → Completes (.dispatch q) s (fun t =>
            t.lq q = { waiting := rest, kern := some kernel, gangWait := false } ∧
            t.grp q = { queue := some q.val, pc := f 0 4, act := 2 ^ f 4 1 - 1, live := 2 ^ f 4 1 - 1 })) ∧
          (gang ≠ 0 → q.val ≠ 0 ∨ bitOf gang 0 = false ∨ (∃ c ∈ named, c ≠ 0 ∧ h.lcMode c ≠ 0) → Completes (.dispatch q) s (fun t => rejected t 5)) ∧
          (gang ≠ 0 → q.val = 0 → bitOf gang 0 = true → (∀ c ∈ named, c ≠ 0 → h.lcMode c = 0) → f 12 4 % 16 = 0 → Completes (.dispatch q) s (fun t =>
            t.lq 0 = { h.lq 0 with kern := some kernel, gangWait := true } ∧ t.grp 0 = h.grp 0 ∧ t.get (LAC_Q_STAT.DEPTH 0) = (rest.length + 1) % 16)))))) ∧
    (∀ k : Kernel, (h.lq 0).kern = some k → (h.lq 0).gangWait = true →
      let free := ∀ g ∈ k.groups, (∀ i, i < 4 → (h.grp (4 * (g / 4) + i)).queue = none) ∧ h.clusterTested (g / 4) = false
      (¬ free ∨ h.drained 1 = true → Becomes .gangStart s h) ∧
      (free → h.drained 1 = false →
      let all := fun (g : Nat) => 2 ^ modeWidth (h.lcMode (g / 4)) - 1
      Completes .gangStart s (fun t =>
        t.lq 0 = { h.lq 0 with waiting := (h.lq 0).waiting.drop 1, gangWait := false, abort := false } ∧
        (∀ g ∈ k.groups, t.grp g = { queue := some 0, pc := k.entry, act := all g, live := all g }) ∧
        (∀ g, g ∉ k.groups → t.grp g = h.grp g)))) ∧
    (∀ (c : Fin 4) (j : IslJob), tget none h.isl c = some j → h.windowHeld j.src j.len = false →
      Completes (.islDone c) s (fun t => tget none t.isl c = none ∧ t.get (LAC_LC_STAT.ISL_BUSY c) = 0) ∧
      (0 < j.len → j.len ≤ 16 →
        let k := { h with isl := tput none h.isl c none }.clr (LAC_LC_STAT.ISL_BUSY c)
        let r := k.dmaRead j.tid iniLane j.src j.len
        (∀ b, r.2 = .ok b → b.length = j.len → Completes (.islDone c) s (fun t => ∀ i, mget (fun _ => 0) t.istore i =
          if c.val * 0x8000 + j.dst ≤ i ∧ i < c.val * 0x8000 + j.dst + j.len then b.getD (i - (c.val * 0x8000 + j.dst)) 0 else mget (fun _ => 0) h.istore i)) ∧
        (∀ e, r.2 = .error e → Completes (.islDone c) s (fun t => t.istore = h.istore ∧ t.reads [(LAC_LC_STAT.ISL_ERR c, 1), (LAC_LC_STAT.ISL_CODE c, 4)])))))

/-- R52, R82, R86, R227 to R232, R235, R238, R239: completion and the AVS loop. That a step back counts in no THR_CNT.STEPS, and that a
LANE_DIV of 3 or 4 ends the throttle as soon as it covers it, is log entry 164. Readings of the model: log entries 69, 134 and 152. -/
def Obligations.KernelsCompleteAndTheAvsLoopSteps : Prop :=
  (∀ (k : Hw) (q : Nat) (kern : Kernel) (status : Nat), q < 16 → status < 8 → (k.lq q).kern = some kern →
    (∀ g ∈ kern.groups, (k.complete q status 0).grp g = {}) ∧ ((k.complete q status 0).lq q) = { k.lq q with kern := none, gangWait := false, abort := false } ∧
    (k.complete q status 0).reads [(LAC_Q_STAT.LAST_STATUS q, status), (LAC_Q_STAT.LAST_CAUSE q, 0), (LAC_Q_STAT.RUNNING q, 0),
      (LAC_Q_COMPLETED.COUNT q, min (k.get (LAC_Q_COMPLETED.COUNT q) + 1) (2 ^ (LAC_Q_COMPLETED.COUNT q).wid - 1)),
      (LAC_Q_STAT.HALTED q, if status = 1 ∨ status = 2 then 1 else k.get (LAC_Q_STAT.HALTED q)),
      (LAC_Q_STAT.IRQ_PEND q, if kern.irq then 1 else k.get (LAC_Q_STAT.IRQ_PEND q))] ∧
    (∀ g a b, kern.groups = [g] → kern.record = 0 → (k.grp g).dirty = [(a, b)] → a < 0x01000000 ∨ (0x10000000 ≤ a ∧ a < 0x10200000) →
      (k.complete q status 0).byte a = b ∧ ∀ x, x ≠ a → k.region x ≠ .xspi → (k.complete q status 0).byte x = k.byte x)) ∧
  (∀ (s : State) (acc : Access) (q : Fin 16), s.hw.opens acc = true →
    let h := s.hw
    let may := acc.tid = 0 ∨ acc.tid.toNat = h.lqOwner q
    (¬ may → ∀ i ∈ [Instr.resume acc q, .flush acc q, .abort acc q], Becomes i s h) ∧
    (may →
      Becomes (.resume acc q) s (h.set (LAC_Q_STAT.HALTED q) 0) ∧
      Completes (.flush acc q) s (fun t =>
        t.lq q = { h.lq q with waiting := [], kern := if (h.lq q).gangWait then none else (h.lq q).kern, gangWait := false } ∧
        t.reads [(LAC_Q_STAT.DEPTH q, 0), (LAC_Q_STAT.FLUSHED q, min (h.get (LAC_Q_STAT.FLUSHED q) + (h.lq q).waiting.length) (2 ^ (LAC_Q_STAT.FLUSHED q).wid - 1))]) ∧
      ((h.lq q).kern = none → Becomes (.abort acc q) s h) ∧
      (∀ k, (h.lq q).kern = some k →
        ((h.lq q).gangWait = true → Becomes (.abort acc q) s h) ∧
        ((h.lq q).gangWait = false → (∀ g ∈ k.groups, (h.grp g).ended = true) → Becomes (.abort acc q) s h) ∧
        ((h.lq q).gangWait = false → (∃ g ∈ k.groups, (h.grp g).ended = false) →
          (h.laneOn = true → Becomes (.abort acc q) s (h.complete q 3 0)) ∧
          (h.laneOn = false → Completes (.abort acc q) s (fun t => t.lq q = { h.lq q with abort := true } ∧
            (∀ p, p ≠ q.val → t.lq p = h.lq p) ∧ t.laneG = h.laneG ∧ t.mem = mcanon (fun _ => 0) h.mem)))))) ∧
  (∀ (k : Hw) (q : Nat), k.laneOn = true → (k.lq q).abort = true → q < 16 → (∀ p, p ≠ q → (k.lq p).abort = false) → k.laneWake = k.complete q 3 0) ∧
  (∀ (s : State) (q : Fin 16) (k : Kernel), s.hw.laneOn = true → (s.hw.lq q).kern = some k → (s.hw.lq q).gangWait = false →
    ((∀ g ∈ k.groups, (s.hw.grp g).ended = true) → Becomes (.kernelCompletion q) s (s.hw.complete q 0 0)) ∧
    (k.limit ≠ 0 → (∃ g ∈ k.groups, (s.hw.grp g).ended = false ∧ (s.hw.grp g).halted = false) → Becomes (.kernelLimit q) s (s.hw.complete q 2 0))) ∧
  (∀ (s : State) (m : Fin 64), s.hw.laneOn = true →
    let h := s.hw
    let n := h.laneDiv
    let down := if h.clk.avsDiv - 1 ≤ h.get CLK_DIV.LANE_DIV then 2 else h.clk.avsDiv - 1
    let div := fun (t : Hw) (d : Nat) => t.clk = { h.clk with avsDiv := d } ∧
      t.reads [(LAC_AVS_MON.MARGIN, m.val), (LAC_AVS_MON.STEP, (d - 2) % 4), (CLK_LANE_LIVE.DIV, max (h.get CLK_DIV.LANE_DIV) d % 2 ^ CLK_LANE_LIVE.DIV.wid)]
    (m.val < 4 → n < 4 → Completes (.avsThrottle m) s (fun t => div t (n + 1) ∧
      t.get LAC_AVS_THR_CNT.STEPS = min (h.get LAC_AVS_THR_CNT.STEPS + 1) (2 ^ LAC_AVS_THR_CNT.STEPS.wid - 1) ∧ t.lineUp 84 = true)) ∧
    (4 ≤ m.val ∨ 4 ≤ n → Becomes (.avsThrottle m) s (h.set LAC_AVS_MON.MARGIN m)) ∧
    (16 ≤ m.val → 2 < h.clk.avsDiv → Completes (.avsUnthrottle m) s (fun t => div t down ∧ t.lineUp 84 = true)) ∧
    (m.val < 16 ∨ h.clk.avsDiv ≤ 2 → Becomes (.avsUnthrottle m) s (h.set LAC_AVS_MON.MARGIN m)) ∧
    (let v := h.vcore
     let toward := fun (b : Nat) => if v < b then min b (v + 5) else max b (v - 5)
     let pwr := fun (back : Option Nat) (w : Nat) => if w = v then { h.pwr with avsBack := back } else { h.pwr with avsBack := back, vcmd := w, vdef := false, avsQ := h.pwr.avsQ ++ [.write w] }
     let goes := fun (back : Option Nat) (w : Nat) => Completes (.avsStep m) s (fun t => t.get LAC_AVS_MON.MARGIN = m.val ∧ t.pwr = pwr back w)
     let mode := h.loopMode loopAvs
     4 ≤ m.val ∨ n < 4 →
      (h.get PWR_STAT.AVS_ERR = 1 ∨ h.pwr.avsHold = true →
        (h.pwr.avsBack = none → goes none v) ∧
        (∀ b, h.pwr.avsBack = some b → goes (if toward b = b then none else some b) (toward b))) ∧
      (h.get PWR_STAT.AVS_ERR = 0 → h.pwr.avsHold = false →
        (mode = 0 → goes none (toward 800)) ∧
        (mode = 2 → goes none (toward (h.loopPin loopAvs).toNat)) ∧
        (mode = 1 →
          (m.val < 8 → ((v + 5 : Nat) : Int) ≤ h.loopHigh loopAvs → h.loopLow loopAvs ≤ ((v + 5 : Nat) : Int) → goes none (v + 5)) ∧
          (24 < m.val → 5 ≤ v → h.loopLow loopAvs ≤ ((v - 5 : Nat) : Int) → ((v - 5 : Nat) : Int) ≤ h.loopHigh loopAvs → goes none (v - 5)) ∧
          (8 ≤ m.val → m.val ≤ 24 → h.loopHint loopAvs = 0 → h.loopLow loopAvs ≤ (v : Int) → (v : Int) ≤ h.loopHigh loopAvs → goes none v)))) ∧
    (let v := h.vcore
     v < 950 → m.val < 4 → 4 ≤ n → h.loopMode loopAvs = 2 → (h.loopPin loopAvs).toNat ≤ v →
      Completes (.avsStep m) s (fun t => t.pwr.vcmd = min 950 (v + 5) ∧ t.get ⟨LAC_AVS_AUTH + 4, 0, 1⟩ = 1)))

/-- R30, R86, R210, R241, R245 to R250, R259, R262, R263: allocation, initialisation and the cache. Readings of the model: log entry 11.
-/
def Obligations.PoolsAllocateAndChargeBuffers : Prop :=
  (∀ (s : State) (acc : Access) (p : Fin 16),
    let h := s.hw
    let tid := acc.tid.toNat
    let used := h.get (PE_Q_USED.COUNT tid p)
    let failed := fun (t : Hw) (reason : Nat) => t.busData = BitVec.ofNat 32 (p.val * 2 ^ 28 + reason * 16) ∧
      t.get (PE_POOL_FAILS.COUNT p) = min (h.get (PE_POOL_FAILS.COUNT p) + 1) (2 ^ (PE_POOL_FAILS.COUNT p).wid - 1) ∧ t.get (PE_Q_USED.COUNT tid p) = used ∧ SameMemory h t
    let free := h.poolOn p = true ∧ h.get (PE_POOL_STAT.FAILED p) = 0 ∧ used < h.quotaMax tid p
    let open' := free ∧ h.get (PE_POOL_STAT.INIT p) = 0
    let held := fun (t : Hw) => (t.pool p).held = (h.pool p).held ++ [⟨acc, 0, 0, .bus⟩] ∧ (t.pool p).cache = (h.pool p).cache ∧ t.busData = h.busData ∧ SameMemory h t
    let safe := h.get ⟨PE_POOL_AUTH_STAT p, 3, 1⟩ = 1 ∧ (h.pool p).cache.length < h.get (PE_POOL_MON.W p)
    (h.busHeld acc.who = true → Becomes (.alloc acc p) s h) ∧
    (h.opens acc = true → h.blockOn 0xA = false ∨ h.pwr.bermActive = true ∨ (h.pool p).held ≠ [] → Completes (.alloc acc p) s held) ∧
    (h.opens acc = true → h.blockOn 0xA = true → h.pwr.bermActive = false → (∀ q : Fin 16, (h.pool q).held = []) →
    (h.poolOn p = false → Completes (.alloc acc p) s (fun t => failed t 3)) ∧
    (h.poolOn p = true → h.get (PE_POOL_STAT.FAILED p) = 1 → Completes (.alloc acc p) s (fun t => failed t 4)) ∧
    (h.poolOn p = true → h.get (PE_POOL_STAT.FAILED p) = 0 → h.quotaMax tid p ≤ used → Completes (.alloc acc p) s (fun t => failed t 2 ∧
      t.reads [(PE_EVT.QUOTA, 1), (PE_QEVT.POOL, p.val), (PE_QEVT.TID, tid)])) ∧
    (free → h.get (PE_POOL_STAT.INIT p) = 1 ∨ (safe ∧ h.get (PE_POOL_RCOUNT.COUNT p) ≠ 0) → Completes (.alloc acc p) s held) ∧
    (open' → safe → h.get (PE_POOL_RCOUNT.COUNT p) = 0 → Completes (.alloc acc p) s (fun t => failed t 1 ∧
      t.reads [(PE_EVT.EMPTY, 1), (PE_EEVT.POOL, p.val), (PE_EEVT.TID, tid)])) ∧
    (open' → ¬ safe → h.poolDry p = true → h.get (PE_POOL_CFG.SPILL_EN_L p) = 0 → Completes (.alloc acc p) s (fun t => failed t 1 ∧
      t.reads [(PE_EVT.EMPTY, 1), (PE_EEVT.POOL, p.val), (PE_EEVT.TID, tid)])) ∧
    (open' → ¬ safe → ∀ w rest, (h.pool p).cache = w :: rest → ((h.setPool p { h.pool p with cache := rest }).metaOk p (hdlIndex w)).2 = true →
      Completes (.alloc acc p) s (fun t =>
        t.busData = mkHandle p (hdlGen w) (hdlIndex w) false ∧ t.metaHandle p (hdlIndex w) = t.busData ∧ t.metaOwner p (hdlIndex w) = tid ∧
        t.metaAlloc p (hdlIndex w) = true ∧ t.metaRef p (hdlIndex w) = 1 ∧ t.loadN (t.metaAddr p (hdlIndex w) + 8) 4 = 0 ∧ (t.pool p).cache = rest ∧
        t.reads [(PE_Q_USED.COUNT tid p, (used + 1) % 2 ^ (PE_Q_USED.COUNT tid p).wid), (PE_POOL_STAT.CCOUNT p, rest.length % 64),
          (PE_POOL_INUSE.COUNT p, (h.get (PE_POOL_INUSE.COUNT p) + 1) % 2 ^ (PE_POOL_INUSE.COUNT p).wid),
          (PE_POOL_ALLOCS.COUNT p, min (h.get (PE_POOL_ALLOCS.COUNT p) + 1) (2 ^ (PE_POOL_ALLOCS.COUNT p).wid - 1))])))) ∧
  (∀ (s : State) (p : Fin 16), s.hw.blockOn 0xA = true → (∀ q : Fin 16, (s.hw.pool q).held = []) →
    let h := s.hw
    let n := h.get (PE_POOL_NBUF.COUNT_L p)
    let a := h.metaAddr p 0
    let r := h.ringAddr p 0
    (h.get (PE_POOL_STAT.INIT p) = 0 → Becomes (.poolInitDone p) s h) ∧
    let reached := h.dmaMapped 0 a (16 * n) true = true ∧ h.dmaMapped 0 r (4 * n) true = true ∧ h.linePoisoned a (16 * n) = false ∧ h.linePoisoned r (4 * n) = false
    (h.get (PE_POOL_STAT.INIT p) = 1 → ¬ reached → Completes (.poolInitDone p) s (fun t =>
      t.reads [(PE_POOL_STAT.INIT p, 0), (PE_POOL_STAT.FAILED p, 1), (PE_EVT.RING_ERR, 1), (PE_EVT.RING_POOL, p.val)] ∧ SameMemory h t)) ∧
    (h.get (PE_POOL_STAT.INIT p) = 1 → reached → a + 16 * n ≤ r ∨ r + 4 * n ≤ a →
      Completes (.poolInitDone p) s (fun t => t.reads [(PE_POOL_STAT.INIT p, 0), (PE_POOL_RCOUNT.COUNT p, n % 2 ^ (PE_POOL_RCOUNT.COUNT p).wid)] ∧ (t.pool p).cache = [] ∧
        (∀ i, i < n → t.loadN (r + 4 * i) 4 = (mkHandle p 1 i false).toNat) ∧ (∀ b, a ≤ b → b < a + 16 * n → t.byte b = 0))) ∧
    (let c := h.pool p
     h.get (PE_POOL_CFG.EN_L p) = 1 →
      (h.get (PE_POOL_STAT.INIT p) = 0 → c.cache.length < h.get (PE_POOL_MON.W p) → Becomes (.cacheRefill p) s (h.fetchRing p 8)) ∧
      (h.get (PE_POOL_MON.W p) ≤ c.cache.length → Becomes (.cacheRefill p) s h) ∧
      (h.get (PE_POOL_MON.W p) + 8 < c.cache.length → Becomes (.cacheSpill p) s (h.spillRing p 8)) ∧
      (c.cache.length ≤ h.get (PE_POOL_MON.W p) + 8 → Becomes (.cacheSpill p) s h))) ∧
  (∀ (k : Hw) (p : Fin 16) (m : Nat),
    let x := k.pool p
    let nb := k.get (PE_POOL_NBUF.COUNT_L p)
    let cnt := k.get (PE_POOL_RCOUNT.COUNT p)
    k.get (PE_POOL_STAT.FAILED p) = 0 →
      (cnt = 0 ∨ 32 ≤ x.cache.length → k.fetchRing p m = k) ∧
      (cnt ≠ 0 → x.cache.length < 32 → ∀ bs, (k.dmaRead 0 iniPe (k.ringAddr p x.rpos) 4).2 = .ok bs →
        let t := k.fetchRing p 1
        t.pool p = { x with cache := x.cache ++ [BitVec.ofNat 32 (leNat bs)], rpos := (x.rpos + 1) % nb } ∧ t.get (PE_POOL_RCOUNT.COUNT p) = cnt - 1 ∧
        k.fetchRing p (m + 1) = t.fetchRing p m) ∧
      (∀ w, x.cache.getLast? = some w →
        (nb ≤ cnt → (k.spillRing p (m + 1)).reads [(PE_POOL_STAT.FAILED p, 1), (PE_EVT.RING_ERR, 1), (PE_EVT.RING_POOL, p.val)]) ∧
        (cnt < nb → (k.dmaWrite 0 iniPe (k.ringAddr p x.wpos) (leBytes 4 w.toNat)).2 = none →
          let t := k.spillRing p 1
          t.pool p = { x with cache := x.cache.dropLast, wpos := (x.wpos + 1) % nb } ∧ t.get (PE_POOL_RCOUNT.COUNT p) = (cnt + 1) % 2 ^ (PE_POOL_RCOUNT.COUNT p).wid ∧
          t.loadN (k.ringAddr p x.wpos) 4 = w.toNat ∧ k.spillRing p (m + 1) = t.spillRing p m)))

/-- R30, R241, R246, R252, R254 to R257: operations on handles. That a handle of a pool which initialises is checked against zeros is log
entry 11. -/
def Obligations.HandleOperationsCheckThenAct : Prop :=
  (∀ (k : Hw) (t : Nat) (w : Word) (win : Option Nat),
    let p := hdlPool w
    let i := hdlIndex w
    let m := (k.metaOk p i).1
    (k.get (PE_POOL_STAT.INIT p) = 1 → (k.checkHandle t w win).1 = k) ∧
    ((k.checkHandle t w win).2 =
      if (∃ q, win = some q ∧ q ≠ p) ∨ k.get (PE_POOL_CFG.EN_L p) = 0 ∨ k.get (PE_POOL_STAT.FAILED p) = 1 then 1
      else if w.getLsbD 0 = false ∨ w.getLsbD 2 = true ∨ w.getLsbD 3 = true ∨ k.get (PE_POOL_NBUF.COUNT_L p) ≤ i then 2
      else if k.get (PE_POOL_STAT.INIT p) = 1 then (if hdlGen w ≠ 0 then 3 else if k.get (PE_POOL_CFG.MODE_L p) = 1 then 5 else 4)
      else if (k.metaOk p i).2 = false then 1
      else if hdlGen (m.metaHandle p i) ≠ hdlGen w then 3
      else if m.metaAlloc p i = false then (if m.get (PE_POOL_CFG.MODE_L p) = 1 then 5 else 4)
      else if t = 0 ∨ (if m.get (PE_POOL_CFG.MODE_L p) = 1 then m.get (PE_Q_MAX.COUNT_L t p) ≠ 0 else m.metaOwner p i = t) then 0 else 6)) ∧
  (∀ (s : State) (acc : Access) (p : Fin 16) (u : BitVec 7) (w : Word), s.hw.opens acc = true → acc.who = .m0 →
    let h := s.hw
    let held := fun (t : Hw) (o : Nat) => (t.pool p).held = (h.pool p).held ++ [⟨acc, o, w, .bus⟩] ∧ (t.pool p).cache = (h.pool p).cache ∧ SameMemory h t
    let tid := acc.tid.toNat
    let c := (h.checkHandle tid w (some p)).2
    let k := (h.checkHandle tid w (some p)).1
    let i := hdlIndex w
    let count := k.get (PE_POOL_CFG.MODE_L p)
    let o := k.metaOwner p i
    let ref := k.metaRef p i
    let refused := fun (t : Hw) (code op : Nat) => t.get (PE_LAST.CODE 0) = code ∧ SameMemory h t ∧ t.pools = k.pools ∧
      (k.get PE_FAULT_INFO.VALID = 0 → t.reads [(PE_FAULT_INFO.CODE, code), (PE_FAULT_INFO.TID, tid), (PE_FAULT_INFO.INIT, 12), (PE_FAULT_INFO.OP, op),
        (PE_FAULT_INFO.VALID, 1), (PE_FAULT_INFO.LOST, k.get PE_FAULT_INFO.LOST)] ∧ t.rd PE_FAULT_HANDLE = w) ∧
      (k.get PE_FAULT_INFO.VALID = 1 → t.get PE_FAULT_INFO.LOST = 1 ∧ t.rd PE_FAULT_HANDLE = k.rd PE_FAULT_HANDLE)
    let same := fun (t : Hw) => t.metaHandle p i = k.metaHandle p i ∧ t.metaAlloc p i = true ∧ t.get (PE_LAST.CODE 0) = 0
    (h.peBusy p = true → Completes (.free acc p w) s (fun t => held t 4) ∧ Completes (.ref acc p w) s (fun t => held t 8) ∧
      Completes (.give acc p u w) s (fun t => held t (0x400 + 4 * u.toNat))) ∧
    (h.peBusy p = false → (∀ q : Fin 16, (h.pool q).held = []) →
    (c ≠ 0 → Completes (.free acc p w) s (fun t => refused t c 1) ∧ Completes (.ref acc p w) s (fun t => refused t c 2) ∧ Completes (.give acc p u w) s (fun t => refused t c 3)) ∧
    (c = 0 →
      (count = 1 → 1 < ref → Completes (.free acc p w) s (fun t => same t ∧ t.metaRef p i = ref - 1 ∧ t.metaOwner p i = o ∧ t.pools = k.pools)) ∧
      (count = 0 ∨ ref ≤ 1 → (k.pool p).cache.length < 32 → Completes (.free acc p w) s (fun t =>
        t.get (PE_LAST.CODE 0) = 0 ∧ t.metaAlloc p i = false ∧ t.metaHandle p i = k.metaHandle p i &&& 0xFFFFFFFE ∧ (t.pool p).cache = mkHandle p (hdlGen w + 1) i false :: (k.pool p).cache ∧
        t.reads [(PE_Q_USED.COUNT o p, k.get (PE_Q_USED.COUNT o p) - 1), (PE_POOL_INUSE.COUNT p, k.get (PE_POOL_INUSE.COUNT p) - 1)])) ∧
      (count = 0 → Completes (.ref acc p w) s (fun t => refused t 7 2)) ∧
      (count = 1 → ref = 255 → Completes (.ref acc p w) s (fun t => refused t 8 2)) ∧
      (count = 1 → ref < 255 → Completes (.ref acc p w) s (fun t => same t ∧ t.metaRef p i = ref + 1 ∧ t.metaOwner p i = o ∧ t.pools = k.pools)) ∧
      (count = 1 → Completes (.give acc p u w) s (fun t => refused t 7 3)) ∧
      (count = 0 → k.quotaMax u.toNat p ≤ k.get (PE_Q_USED.COUNT u.toNat p) → Completes (.give acc p u w) s (fun t => refused t 9 3)) ∧
      (count = 0 → k.get (PE_Q_USED.COUNT u.toNat p) < k.quotaMax u.toNat p → Completes (.give acc p u w) s (fun t =>
        same t ∧ t.metaOwner p i = u.toNat ∧ t.metaRef p i = 1 ∧ t.pools = k.pools ∧
        (u.toNat ≠ o → t.reads [(PE_Q_USED.COUNT o p, k.get (PE_Q_USED.COUNT o p) - 1),
          (PE_Q_USED.COUNT u.toNat p, (k.get (PE_Q_USED.COUNT u.toNat p) + 1) % 2 ^ (PE_Q_USED.COUNT u.toNat p).wid)]) ∧
        (u.toNat = o → 1 ≤ k.get (PE_Q_USED.COUNT o p) → t.get (PE_Q_USED.COUNT o p) = k.get (PE_Q_USED.COUNT o p)))))))

/-- R273 to R281, R289, R291, R292: triggers, passes and results. Readings of the model: log entries 73 and 147. -/
def Obligations.TriggersStartPassesAndConversionsYieldResults : Prop :=
  (∀ (s : State) (a : Fin 4),
    let h := s.hw
    let x := h.adc a
    let can := h.pwr.phase = .up ∧ h.get (ADC_A_CTL.EN_L a) = 1
    let runs := can ∧ h.adcOn = true ∧ h.drained 0 = false
    let upR := h.trigUp (h.get (ADC_A_REGCFG.TRIG_L a)) = true
    let upI := h.trigUp (h.get (ADC_A_INJCFG.TRIG_L a)) = true
    (¬ can ∨ ¬ upR → Becomes (.regularTrigger a) s h) ∧ (¬ can ∨ ¬ upI → Becomes (.injectedTrigger a) s h) ∧
    (can → ¬ runs →
      (upR → Completes (.regularTrigger a) s (fun t => t.adc a = x ∧ t.get (ADC_A_LOST.TRIG_LOST a) = min (h.get (ADC_A_LOST.TRIG_LOST a) + 1) 65535)) ∧
      (upI → Completes (.injectedTrigger a) s (fun t => t.adc a = x ∧ t.get (ADC_A_LOST.TRIG_LOST a) = min (h.get (ADC_A_LOST.TRIG_LOST a) + 1) 65535))) ∧
    (runs →
      (upR → x.reg ≠ none ∨ x.regT ≠ .none → Becomes (.regularTrigger a) s (h.set (ADC_A_STAT.TRIG_OVR a) 1)) ∧
      (upR → x.reg = none → x.regT = .none → Completes (.regularTrigger a) s (fun t => t.adc a = { x with regT := .delay })) ∧
      (upI → x.inj ≠ none ∨ x.injT ≠ .none → Becomes (.injectedTrigger a) s (h.set (ADC_A_STAT.INJ_OVR a) 1)) ∧
      (upI → x.inj = none → x.injT = .none → Completes (.injectedTrigger a) s (fun t => t.adc a = { x with injT := .delay })))) ∧
  (∀ (s : State) (a : Fin 4), s.hw.adcOn = true →
    let h := s.hw
    let x := h.adc a
    let late := fun (t : Hw) => t.get (ADC_A_STAT.REG_LATE a)
    let was := h.get (ADC_A_STAT.REG_LATE a)
    (x.regT ≠ .delay → Becomes (.triggerDelayExpiry a false) s h) ∧
    (x.injT ≠ .delay → Becomes (.triggerDelayExpiry a true) s h) ∧
    (x.regT = .delay → x.pd = true → Completes (.triggerDelayExpiry a false) s (fun t => t.adc a = { x with regT := .ready, pd := false, startup := true })) ∧
    (x.injT = .delay → x.pd = true → Completes (.triggerDelayExpiry a true) s (fun t => t.adc a = { x with injT := .ready, pd := false, startup := true })) ∧
    (x.pd = false → x.startup = false → x.regT = .delay → x.reg = none →
      (x.inj ≠ none → Completes (.triggerDelayExpiry a false) s (fun t => t.adc a = { x with regT := .ready } ∧ late t = 1)) ∧
      (x.inj = none → x.injT ≠ .ready → Completes (.triggerDelayExpiry a false) s (fun t => t.adc a = { x with regT := .none, reg := some (h.newPass a false) } ∧ late t = was))) ∧
    (x.pd = false → x.startup = false → x.injT = .delay → x.inj = none →
      (x.reg = none → x.regT ≠ .ready → Completes (.triggerDelayExpiry a true) s (fun t => t.adc a = { x with injT := .none, inj := some (h.newPass a true) } ∧ late t = was)) ∧
      (∀ p, x.reg = some p →
        (h.get (ADC_A_CTL.INJ_POLICY_L a) = 0 → Completes (.triggerDelayExpiry a true) s (fun t => t.adc a = { x with injT := .ready })) ∧
        (h.get (ADC_A_CTL.INJ_POLICY_L a) = 1 → x.regT ≠ .ready → Completes (.triggerDelayExpiry a true) s (fun t => t.get (ADC_A_STAT.RETAKEN a) = 1 ∧
          t.adc a = { x with injT := .none, inj := some (h.newPass a true), reg := some { p with cnt := 0, acc := 0, clip := false, inv := false, retaken := true } })))) ∧
    (x.startup = false → Becomes (.startupEnd a) s h) ∧
    (x.startup = true → x.inj = none →
      (x.injT = .ready → Completes (.startupEnd a) s (fun t => t.adc a = { x with startup := false, injT := .none, inj := some (h.newPass a true) } ∧
        late t = (if x.regT = .ready then 1 else was))) ∧
      (x.injT ≠ .ready → x.reg = none → x.regT = .ready → Completes (.startupEnd a) s (fun t =>
        t.adc a = { x with startup := false, regT := .none, reg := some (h.newPass a false) } ∧ late t = was)))) ∧
  (∀ (s : State) (a : Fin 4) (code : BitVec 18) (sat : Bool) (tb : BitVec 64), s.hw.adcOn = true → (s.hw.adc a).cut = false → (s.hw.adc a).startup = false →
    let h := s.hw
    let x := h.adc a
    let y := fun (p : AdcPass) =>
      let sw := p.slots.getD p.idx 0
      if h.get ADC_CAL.EN_L = 0 then code.toInt else
        asr ((code.toInt - (calPair h.cal.adc (32 + 8 * (7 * a + sw / 32 % 8))).1 - calInput h.cal.adc (sw % 32)) * (calPair h.cal.adc (32 + 8 * (7 * a + sw / 32 % 8))).2) 30
    let beyond := fun (p : AdcPass) => decide (h.get ADC_CAL.EN_L = 1 ∧ (y p < -131072 ∨ 131071 < y p))
    let next := fun (p : AdcPass) => { p with
      cnt := p.cnt + 1, acc := p.acc + clampI (-131072) 131071 (y p), clip := p.clip || sat || beyond p, inv := p.inv || h.inputInv (p.slots.getD p.idx 0 % 32),
      tb := if p.idx = 0 ∧ p.cnt = 0 then tb.toNat else p.tb }
    let rounds := fun (p : AdcPass) => 2 ^ (p.slots.getD p.idx 0 / 2 ^ 18 % 16)
    let data := fun (p : AdcPass) => clampI (-8388608) 8388607 (asr (next p).acc (p.slots.getD p.idx 0 / 2 ^ 22 % 16))
    let word := fun (p : AdcPass) => BitVec.ofNat 32 (twos 24 (data p) + p.idx % 32 * 2 ^ 24 + b2n (next p).inv * 2 ^ 29 + b2n (next p).clip * 2 ^ 30 + b2n h.inTransition * 2 ^ 31)
    let sees := fun (t : Hw) (p : AdcPass) (inj : Bool) => ∀ w : Fin 2,
      let inside := decide (h.getS (ADC_A_WC_LOW.VALUE a w) ≤ data p ∧ data p ≤ h.getS (ADC_A_WC_HIGH.VALUE a w))
      let hit := h.on (ADC_A_WC_CFG.EN a w) && h.on (ADC_A_WC_CFG.INJ a w) == inj && h.get (ADC_A_WC_CFG.SLOT a w) == p.idx && !(next p).inv && inside != h.on (ADC_A_WC_CFG.OUTSIDE a w)
      t.get (ADC_A_WC_STAT.HIT a w) = if hit then 1 else h.get (ADC_A_WC_STAT.HIT a w)
    let fresh := fun (p : AdcPass) => { next p with idx := p.idx + 1, cnt := 0, acc := 0, clip := false, inv := false }
    (x.inj = none → x.reg = none → Becomes (.conversionEnd a code sat tb) s h) ∧
    (∀ p, x.inj = some p →
      (p.cnt + 1 < rounds p → Completes (.conversionEnd a code sat tb) s (fun t => t.adc a = { x with inj := some (next p) } ∧ SameMemory h t)) ∧
      (rounds p ≤ p.cnt + 1 → p.idx + 1 < p.slots.length → p.idx < 8 → Completes (.conversionEnd a code sat tb) s (fun t =>
        t.rd (ADC_A_INJDATA a p.idx) = word p ∧ t.adc a = { x with inj := some (fresh p) } ∧ sees t p true ∧ SameMemory h t)) ∧
      (rounds p ≤ p.cnt + 1 → p.slots.length ≤ p.idx + 1 → p.idx < 8 → Completes (.conversionEnd a code sat tb) s (fun t =>
        t.rd (ADC_A_INJDATA a p.idx) = word p ∧ t.get (ADC_A_STAT.INJ_END a) = 1 ∧ sees t p true ∧ (x.injT ≠ .ready → (t.adc a).inj = none) ∧ SameMemory h t))) ∧
    (∀ p, x.reg = some p → x.inj = none →
      (p.cnt + 1 < rounds p → Completes (.conversionEnd a code sat tb) s (fun t => t.adc a = { x with reg := some (next p) } ∧ SameMemory h t)) ∧
      (rounds p ≤ p.cnt + 1 → p.strm = false →
        let kept := fun (t : Hw) => (x.fifo.length < 16 → (t.adc a).fifo = x.fifo ++ [word p] ∧ t.get (ADC_A_FIFOSTAT.LEVEL a) = x.fifo.length + 1) ∧
          (16 ≤ x.fifo.length → (t.adc a).fifo = x.fifo ∧ t.get (ADC_A_FIFOSTAT.OVR a) = 1 ∧ t.get (ADC_A_LOST.OVR_CNT a) = min (h.get (ADC_A_LOST.OVR_CNT a) + 1) 65535)
        (p.idx + 1 < p.slots.length → Completes (.conversionEnd a code sat tb) s (fun t =>
          kept t ∧ sees t p false ∧ (t.adc a).reg = some (fresh p) ∧ ((t.adc a).inj = none ↔ x.injT ≠ .ready) ∧ SameMemory h t)) ∧
        (p.slots.length ≤ p.idx + 1 → Completes (.conversionEnd a code sat tb) s (fun t =>
          kept t ∧ sees t p false ∧ t.get (ADC_A_STAT.REG_END a) = 1 ∧ SameMemory h t ∧
          (h.get (ADC_A_CTL.CONT_L a) = 0 → x.regT = .none → (t.adc a).reg = none ∧
            (x.injT = .none → (t.adc a).pd = (x.pd || decide (h.get (ADC_A_CTL.AUTO_PD_L a) = 1)))) ∧
          (h.get (ADC_A_CTL.CONT_L a) = 1 → h.get (ADC_A_CTL.EN_L a) = 1 → x.injT ≠ .ready → x.regT = .none →
            (h.drained 0 = false → (t.adc a).reg = some (h.newPass a false) ∧ (t.adc a).again = false) ∧
            (h.drained 0 = true → (t.adc a).reg = none ∧ (t.adc a).again = true)))))) ∧
  (∀ (s : State) (acc : Access) (a : Fin 4) (v : Word), s.hw.opens acc = true →
    let h := s.hw
    let x := h.adc a
    let owns := fun (b : Nat) (inj : Bool) => acc.tid = 0 || acc.tid.toNat == h.adcOwner b inj
    let fire := fun (i r : List Nat) => r.foldl (fun k b => k.adcTrigger b false) (i.foldl (fun k b => k.adcTrigger b true) h)
    (owns a false = false → Becomes (.adcFifoPop acc a) s { h with busData := 0 }) ∧
    (owns a false = true → x.fifo = [] → Becomes (.adcFifoPop acc a) s { h with busData := 0 }) ∧
    (owns a false = true → ∀ w l, x.fifo = w :: l → Completes (.adcFifoPop acc a) s (fun t =>
      t.busData = w ∧ t.adc a = { x with fifo := l } ∧ t.get (ADC_A_FIFOSTAT.LEVEL a) = l.length % 32 ∧ SameMemory h t)) ∧
    Becomes (.swtrig acc a v) s (fire ([a.val].filter (fun b => v.getLsbD 1 && owns b true)) ([a.val].filter (fun b => v.getLsbD 0 && owns b false))) ∧
    Becomes (.swtrigAll acc v) s (fire ((List.range 4).filter (fun b => v.getLsbD (8 + b) && owns b true)) ((List.range 4).filter (fun b => v.getLsbD b && owns b false)))))

/-- R267 to R271, R282 to R284, R287, R288: streams, sensors and calibration. Readings of the model: log entries 77, 79, 80, 81 and 143.
-/
def Obligations.StreamsSensorsAndCalibrationFollowTheirRules : Prop :=
  (∀ (s : State) (acc : Access) (a : Fin 4), s.hw.pwr.phase = .up →
    let h := s.hw
    let x := h.adc a
    let owner := h.get (ADC_A_OWN.REG_OWNER_L a)
    (x.buf = none → Becomes (.streamBufferClose a) s h) ∧
    (∀ b, x.buf = some b →
      let size := if b.tset then (8 + 4 * b.nslot + 7) / 8 * 8 else 4 * b.nslot
      let flags := b2n b.tset + 4 * b2n (b.dropped != 0) + 8 * b2n b.trans + 16 * b2n b.coarse + 32 * b2n b.retaken
      let k := (h.strmClose a false)
      let mid := ∃ p, x.reg = some p ∧ p.placed = true ∧ p.idx ≠ 0
      let wrote := h.dmaWrite owner iniAdc (h.bufAddr b.hdl) (strmHeader a b false)
      (mid ∨ b.sets < h.get (ADC_A_STRM_SETS.SETS_L a) → Becomes (.streamBufferClose a) s h) ∧
      (¬ mid → h.get (ADC_A_STRM_SETS.SETS_L a) ≤ b.sets → Becomes (.streamBufferClose a) s (k.strmPromote a)) ∧
      (h.get (ADC_A_STRM_SETS.SETS_L a) ≤ b.sets →
        wrote.2 = none → wrote.1.linePoisoned (h.metaAddr (hdlPool b.hdl) (hdlIndex b.hdl) + 8) 4 = false →
        h.bufAddr b.hdl + 64 ≤ h.metaAddr (hdlPool b.hdl) (hdlIndex b.hdl) + 8 ∨ h.metaAddr (hdlPool b.hdl) (hdlIndex b.hdl) + 12 ≤ h.bufAddr b.hdl → x.done.length < 8 →
          k.adc a = { x with buf := none, done := x.done ++ [b.hdl] } ∧ k.get (ADC_A_STRM_STAT.DONE_LEVEL a) = x.done.length + 1 ∧
          k.bufLen b.hdl = (64 + b.sets * size) % 2 ^ 32 ∧
          (∀ f ∈ [(0, 4, 0x53414A46), (4, 1, a.val), (5, 1, b.nslot % 256), (6, 1, flags), (7, 1, if b.trans then b.tgen % 256 else 0), (8, 4, b.sets % 2 ^ 32), (12, 4, b.seqno % 2 ^ 32),
              (16, 8, b.tbFirst % 2 ^ 64), (24, 8, b.tbLast % 2 ^ 64), (32, 4, b.dropped % 2 ^ 32)], k.loadN (h.bufAddr b.hdl + f.1) f.2.1 = f.2.2)) ∧
      (h.get (ADC_A_STRM_SETS.SETS_L a) ≤ b.sets → 8 ≤ x.done.length → k.get (ADC_A_STRM_STAT.DONE_OVR a) = 1 ∧ (k.adc a).done = x.done ∧ (k.adc a).buf = none)) ∧
    (s.hw.opens acc = true →
      (acc.tid ≠ 0 → acc.tid.toNat ≠ owner → Becomes (.strmDonePop acc a) s { h with busData := 0 }) ∧
      (acc.tid = 0 ∨ acc.tid.toNat = owner → x.done = [] → Becomes (.strmDonePop acc a) s { h with busData := 0 }) ∧
      (acc.tid = 0 ∨ acc.tid.toNat = owner → ∀ w l, x.done = w :: l → Completes (.strmDonePop acc a) s (fun t =>
        t.busData = w ∧ t.adc a = { x with done := l } ∧ t.get (ADC_A_STRM_STAT.DONE_LEVEL a) = l.length % 16 ∧ SameMemory h t)))) ∧
  (∀ (k : Hw) (a : Fin 4) (w : Word) (b : Word), (k.adc a).spare = some w →
    let opened := (k.setAdc a { k.adc a with spare := none }).strmOpen a w
    (opened.allocNow (k.get (ADC_A_STRM_CFG.POOL_L a)) (k.get (ADC_A_OWN.REG_OWNER_L a)) true).2 = b →
    let o := (k.strmPromote a).adc a
    o.buf = some { hdl := w, seqno := k.get (ADC_A_STRM_SEQNO.SEQNO a), dropped := (k.adc a).dropped, nslot := k.get (ADC_A_REGCFG.LEN_L a), tset := k.on (ADC_A_STRM_CFG.TSET_L a) } ∧ o.dropped = 0 ∧ o.spare = (if hdlV b then some b else none)) ∧
  (∀ (s : State) (n : Fin 8) (bias : BitVec 12) (seen : Bool), s.hw.blockOn 0xB = true →
    let h := s.hw
    let x := h.iepeAt n
    let st := h.get (ADC_IEPE_BIAS.STATE n)
    let band := if h.get ADC_BST1_MON.VOUT * 10 < bias.toNat + 150 then 1 else if bias.toNat < 100 then 2 else 3
    let count := if x.band = band then x.cnt + 1 else 1
    let shows := fun (t : Hw) => t.get (ADC_IEPE_BIAS.BIAS n) = bias.toNat
    let entered := fun (t : Hw) (e : Nat) => t.get (ADC_IEPE_BIAS.STATE n) = e ∧ t.get ⟨ADC_IEPE_EVT.CHG.adr, n, 1⟩ = 1 ∧
      t.iepeAt n = { x with cnt := 0, band := 0, wait := false, settling := decide (3 ≤ e) } ∧
      t.get ⟨ADC_IEPE_NEG_RESULT, 4 * n, 3⟩ = e ∧ t.get ⟨ADC_IEPE_NEG_RESULT, 4 * n + 3, 1⟩ = if e < h.get (ADC_AIN_CFG.FLOOR_L n) then 1 else 0
    (h.get (ADC_AIN_CFG.IEPE_EN_L n) = 0 → Becomes (.iepeMonitorReading n bias) s h) ∧
    (h.get (ADC_AIN_CFG.IEPE_EN_L n) = 1 → x.wait = true → Becomes (.iepeMonitorReading n bias) s (h.set (ADC_IEPE_BIAS.BIAS n) bias.toNat)) ∧
    (h.get (ADC_AIN_CFG.IEPE_EN_L n) = 1 → x.wait = false →
      (band = min st 3 → Completes (.iepeMonitorReading n bias) s (fun t => shows t ∧ t.get (ADC_IEPE_BIAS.STATE n) = st ∧ t.iepeAt n = { x with band := 0, cnt := 0 })) ∧
      (band ≠ min st 3 →
        (count < 8 → Completes (.iepeMonitorReading n bias) s (fun t => shows t ∧ t.get (ADC_IEPE_BIAS.STATE n) = st ∧ t.iepeAt n = { x with band := band, cnt := count })) ∧
        (8 ≤ count → (band = 3 ∧ h.get (ADC_AIN_CFG.TEDS_AUTO_L n) = 1 ∧ (st = 1 ∨ st = 2)) → Completes (.iepeMonitorReading n bias) s (fun t =>
          shows t ∧ t.get (ADC_IEPE_BIAS.STATE n) = st ∧ t.iepeAt n = { x with band := band, cnt := 8, wait := true })) ∧
        (8 ≤ count → ¬ (band = 3 ∧ h.get (ADC_AIN_CFG.TEDS_AUTO_L n) = 1 ∧ (st = 1 ∨ st = 2)) → st ≠ band →
          Completes (.iepeMonitorReading n bias) s (fun t => shows t ∧ entered t band)))) ∧
    Becomes (.iepeSettled n) s (h.setIepe n { x with settling := false }) ∧
    (x.wait = false → Becomes (.tedsPresence n seen) s h) ∧
    (x.wait = true → st < 3 → Completes (.tedsPresence n seen) s (fun t => entered t (if seen then 4 else 3)))) ∧
  (∀ (s : State) (acc : Access) (v : Word), s.hw.opens acc = true → v.getLsbD 31 = true →
    let h := s.hw
    let n := v.toNat % 8
    let refused := h.get ADC_TEDS_STAT.BUSY = 1 ∨ h.get (ADC_AIN_CFG.IEPE_EN_L n) = 0 ∨ (acc.tid ≠ 0 ∧ acc.tid.toNat ≠ h.get (ADC_AIN_CFG.OWNER_L n))
    let len := if 1 ≤ v.toNat / 256 % 256 ∧ v.toNat / 256 % 256 ≤ 128 then v.toNat / 256 % 256 else h.get ADC_TEDS_CTL.LEN
    (refused → Becomes (.tedsGo acc v) s (h.set ADC_TEDS_STAT.REFUSED 1)) ∧
    (¬ refused → Completes (.tedsGo acc v) s (fun t => t.get ADC_TEDS_STAT.BUSY = 1 ∧ t.teds = some (n, len) ∧ t.iepeAt n = { h.iepeAt n with teds := true } ∧ SameMemory h t))) ∧
  (∀ (s : State) (seen : Bool) (rom : BitVec 64) (data : List Byte), s.hw.blockOn 0xB = true →
    let h := s.hw
    (h.teds = none → Becomes (.tedsDone seen rom data) s h) ∧
    (∀ e, h.teds = some e → Completes (.tedsDone seen rom data) s (fun t => t.teds = none ∧ t.iepeAt e.1 = { h.iepeAt e.1 with teds := false, settling := true } ∧
      t.reads [(ADC_TEDS_STAT.BUSY, 0), (ADC_TEDS_STAT.DONE, 1), (ADC_TEDS_STAT.PRESENT, b2n seen), (ADC_TEDS_STAT.NO_DEVICE, b2n (!seen))] ∧
      (seen = true → t.get ADC_TEDS_ROM_LO.ROM = rom.toNat % 2 ^ 32 ∧ t.get ADC_TEDS_ROM_HI.ROM = rom.toNat / 2 ^ 32 ∧
        (e.2 ≤ 128 → ∀ i, i < e.2 → t.get ⟨ADC_TEDS_DATA (i / 4), 8 * (i % 4), 8⟩ = (data.getD i 0).toNat))))) ∧
  (∀ (s : State) (acc : Access) (v : Word) (ma : BitVec 8) (limits : Bool),
    let h := s.hw
    let bank := if h.get LCS_STATE.CAL_BANK = 0 then h.lcs.cal0 else h.lcs.cal1
    let good := bank.length = 2048 ∧ fieldB bank 0 4 = 0x4C434A46 ∧ fieldB bank 4 2 = 1 ∧ (crc32c (bank.take 2044)).toNat = fieldB bank 2044 4
    (h.opens acc = true →
      (acc.tid ≠ 0 → Becomes (.calLoad acc v) s h) ∧
      (acc.tid = 0 → Completes (.calLoad acc v) s (fun t => t.get ADC_CAL.LOADING = (if v.getLsbD 1 then 1 else h.get ADC_CAL.LOADING) ∧ t.get ADC_CAL.EN = b2n (v.getLsbD 0) ∧ t.cal = h.cal))) ∧
    (h.clocked = true →
      (h.get ADC_CAL.LOADING = 0 → Becomes .calStaged s h) ∧
      (h.get ADC_CAL.LOADING = 1 →
        (good → Completes .calStaged s (fun t => t.reads [(ADC_CAL.LOADING, 0), (ADC_CAL.BAD, 0)] ∧ t.cal = { h.cal with staged := some bank })) ∧
        (¬ good → Completes .calStaged s (fun t => t.reads [(ADC_CAL.LOADING, 0), (ADC_CAL.BAD, 1)] ∧ t.cal = { h.cal with staged := some [] })))) ∧
    (h.blockOn 0xB = true → Completes (.bst1CurrentLimit ma limits) s (fun t =>
      t.reads [(ADC_BST1_MON.IOUT, ma.toNat), (ADC_BST1_MON.ILIM, b2n limits), (⟨ADC_BST1_AUTH + 4, 3, 1⟩, b2n limits), (ADC_BST1_MON.VOUT, h.get ADC_BST1_MON.VOUT)] ∧ SameMemory h t)))

/-- R293 to R298, R300 to R307, R309, R310: drive outputs and current loops. UNDERRUNS counts an underrun once for the gap: log entry 82,
the model's reading. Readings of the model: log entries 83, 84, 146 and 147. -/
def Obligations.DrivesPlayTheirQueuesAndLoopsGuardTheirHeadroom : Prop :=
  (∀ (s : State) (n : Fin 4) (gap : Nat),
    let h := s.hw
    let x := h.drvAt n
    let on := h.aoutOn = true ∧ h.get (AOUT_DRV_CFG.EN_L n) = 1
    let src := h.get (AOUT_DRV_CFG.SRC_L n)
    let owns := h.get TWIN_STAT.DRIVE_OWN = 1
    let cal := fun (c : Int) => if h.get AOUT_CAL.EN_L = 1 then asr ((c - (calPair h.cal.aout (1024 + 8 * n)).1) * (calPair h.cal.aout (1024 + 8 * n)).2) 30 else c
    let shows := fun (t : Hw) (c : Int) => t.getS (AOUT_DRV_CODE.CODE n) = clampI (-524288) 524287 c ∧
      t.get (AOUT_DRV_STAT.CLIP n) = (if c < -524288 ∨ 524287 < c then 1 else h.get (AOUT_DRV_STAT.CLIP n))
    let muted := fun (t : Hw) => t.get (AOUT_DRV_STAT.MUTED n) = (if h.get TWIN_STAT.DRIVE_OWN = 1 then 0 else 1)
    let state := fun (t : Hw) => t.get (AOUT_DRV_STAT.STATE n)
    let upd := h.trigUp (h.get (AOUT_DRV_CFG.TRIG_L n)) = true
    (¬ on ∨ ¬ upd → Becomes (.drvUpdate n gap) s h) ∧
    (on → upd → gap < 312 → Becomes (.drvUpdate n gap) s (h.set (AOUT_DRV_STAT.TRIG_OVR n) 1)) ∧
    (on → upd → 312 ≤ gap →
      (src = 2 → Completes (.drvUpdate n gap) s (fun t => shows t (cal (h.getS (AOUT_DRV_DIRECT.CODE n))) ∧ muted t ∧ state t = 2 ∧ SameMemory h t ∧
        t.twin = if owns ∧ h.get (AOUT_DRV_CFG.TRACK_TX_L n) = 1 ∧ h.linkUp = true then
          (h.twinSend 2 ([BitVec.ofNat 8 n, 0, 0, 0] ++ leBytes 4 (t.get (AOUT_DRV_CODE.CODE n)) ++ leBytes 8 h.clk.tb.toNat)).twin else h.twin)) ∧
      (src = 0 →
        (∀ d, x.next = some d →
          (d.free = none → Completes (.drvUpdate n gap) s (fun t => shows t (cal d.word.toInt) ∧ muted t ∧ state t = 2 ∧ (t.drvAt n).next = none ∧
            (t.drvAt n).due = (x.due || (x.cur.isSome || x.q != [])) ∧ SameMemory h t)) ∧
          (∀ w, d.free = some w → (h.checkHandle (h.get (AOUT_DRV_OWNER.TID_L n)) w none).2 = 0 → h.get (PE_POOL_CFG.MODE_L (hdlPool w)) = 0 → (h.pool (hdlPool w)).cache.length < 32 →
            h.peBusy (hdlPool w) = false → (∀ p : Fin 16, (h.pool p).held = []) → Completes (.drvUpdate n gap) s (fun t => shows t (cal d.word.toInt) ∧ state t = 2 ∧ t.metaAlloc (hdlPool w) (hdlIndex w) = false))) ∧
        (x.next = none →
          (state h = 1 → Completes (.drvUpdate n gap) s (fun t => t.get (AOUT_DRV_CODE.CODE n) = h.get (AOUT_DRV_CODE.CODE n) ∧ state t = 1 ∧ muted t ∧
            t.get (AOUT_DRV_COUNT.UNDERRUNS n) = h.get (AOUT_DRV_COUNT.UNDERRUNS n) ∧ SameMemory h t)) ∧
          (state h = 2 ∨ state h = 3 → Completes (.drvUpdate n gap) s (fun t =>
            let c := h.getS (AOUT_DRV_CODE.CODE n)
            let r : Int := (h.get (AOUT_DRV_CFG.RAMP_L n) * 64 : Nat)
            state t = 3 ∧ muted t ∧ SameMemory h t ∧ (state h = 2 → t.get (AOUT_DRV_STAT.UNDERRUN n) = 1 ∧
              t.get (AOUT_DRV_COUNT.UNDERRUNS n) = min (h.get (AOUT_DRV_COUNT.UNDERRUNS n) + 1) (2 ^ (AOUT_DRV_COUNT.UNDERRUNS n).wid - 1)) ∧
            t.getS (AOUT_DRV_CODE.CODE n) = if h.get (AOUT_DRV_CFG.UNDER_POL_L n) = 0 then c else if r = 0 then 0 else if 0 ≤ c then max 0 (c - r) else min 0 (c + r))))) ∧
      (src = 1 → x.own = false → (owns → h.get (AOUT_DRV_CFG.TAKE_LOCAL_L n) = 0 ∨ x.next = none) →
        (∀ c, x.rx = some c → Completes (.drvUpdate n gap) s (fun t => shows t (cal (sgn 20 c)) ∧ muted t ∧ state t = 2 ∧ (t.drvAt n).rx = none ∧
          t.get (AOUT_DRV_COUNT.TRACK_MISS n) = h.get (AOUT_DRV_COUNT.TRACK_MISS n))) ∧
        (x.rx = none → Completes (.drvUpdate n gap) s (fun t => t.get (AOUT_DRV_CODE.CODE n) = h.get (AOUT_DRV_CODE.CODE n) ∧ muted t ∧ state t = 2 ∧
          t.get (AOUT_DRV_COUNT.TRACK_MISS n) = if h.get TWIN_STAT.DRIVE_OWN = 1 then h.get (AOUT_DRV_COUNT.TRACK_MISS n) else
            min (h.get (AOUT_DRV_COUNT.TRACK_MISS n) + 1) (2 ^ (AOUT_DRV_COUNT.TRACK_MISS n).wid - 1)))) ∧
      (src = 1 → x.own = false → owns → h.get (AOUT_DRV_CFG.TAKE_LOCAL_L n) = 1 → ∀ d, x.next = some d → d.free = none →
        Completes (.drvUpdate n gap) s (fun t => shows t (cal d.word.toInt) ∧ state t = 2 ∧ (t.drvAt n).own = true ∧ (t.drvAt n).next = none))) ∧
    (¬ on ∨ x.due = false ∨ x.next ≠ none ∨ (x.cur = none ∧ h.blockOn 0xA = false) → Becomes (.sampleFetch n) s h) ∧
    (on → x.due = true → x.next = none → x.cur ≠ none ∨ h.blockOn 0xA = true →
      let k := h.setDrv n { x with due := false }
      let t0 := h.get (AOUT_DRV_OWNER.TID_L n)
      (x.cur = none → x.q = [] → Becomes (.sampleFetch n) s k) ∧
      (∀ b, x.cur = some b →
        (∀ bs, (k.dmaRead t0 iniAout (k.bufAddr b.hdl + 4 * b.i) 4).2 = .ok bs → Completes (.sampleFetch n) s (fun t => (t.drvAt n).due = false ∧
          (t.drvAt n).next = some ⟨BitVec.ofNat 32 (leNat bs), if b.n ≤ b.i + 1 then some b.hdl else none⟩ ∧
          (t.drvAt n).cur = if b.n ≤ b.i + 1 then none else some { b with i := b.i + 1 }))) ∧
      (∀ w q, x.q = w :: q → x.cur = none → q = [] → (k.setDrv n { x with due := false, q := [] } |>.checkHandle t0 w none).2 ≠ 0 → Completes (.sampleFetch n) s (fun t =>
        t.get (AOUT_DRV_STAT.BAD_HANDLE n) = 1 ∧ t.get (AOUT_DRV_STAT.QLEVEL n) = 0 ∧ (t.drvAt n).q = [] ∧ (t.drvAt n).next = none ∧ t.get PE_FAULT_INFO.VALID = 1)))) ∧
  (∀ (s : State) (acc : Access) (n : Fin 4) (v : Word), s.hw.opens acc = true →
    let h := s.hw
    let x := h.drvAt n
    let may := acc.tid = 0 ∨ acc.tid.toNat = h.get (AOUT_DRV_OWNER.TID_L n)
    let mayCl := acc.tid = 0 ∨ acc.tid.toNat = h.get (AOUT_CL_OWNER.TID_L n)
    (¬ may → Becomes (.drvPush acc n v) s h ∧ Becomes (.drvDirect acc n v) s h) ∧
    (may →
      (8 ≤ x.q.length → Becomes (.drvPush acc n v) s (h.set (AOUT_DRV_STAT.PUSH_FULL n) 1)) ∧
      (x.q.length < 8 → Completes (.drvPush acc n v) s (fun t => (t.drvAt n).q = x.q ++ [v] ∧ t.get (AOUT_DRV_STAT.QLEVEL n) = x.q.length + 1 ∧
        (t.drvAt n).next = x.next ∧ SameMemory h t)) ∧
      (h.get (AOUT_DRV_CFG.SRC_L n) ≠ 2 → Completes (.drvDirect acc n v) s (fun t => t.get (AOUT_DRV_DIRECT.CODE n) = v.toNat % 2 ^ 20 ∧
        t.get (AOUT_DRV_CODE.CODE n) = h.get (AOUT_DRV_CODE.CODE n))) ∧
      (h.get (AOUT_DRV_CFG.SRC_L n) = 2 → h.get (AOUT_DRV_CFG.TRIG_L n) = 0 → h.get (AOUT_DRV_CFG.EN_L n) = 1 → h.aoutOn = true → h.get AOUT_CAL.EN_L = 0 →
        Completes (.drvDirect acc n v) s (fun t => t.get (AOUT_DRV_CODE.CODE n) = v.toNat % 2 ^ 20 ∧ t.get (AOUT_DRV_STAT.STATE n) = 2))) ∧
    (¬ mayCl ∨ 49000 < v.toNat % 65536 → Becomes (.clCode acc n v) s h) ∧
    (mayCl → v.toNat % 65536 ≤ 49000 → Becomes (.clCode acc n v) s (h.set (AOUT_CL_CODE.CODE n) (v.toNat % 65536)))) ∧
  (∀ (s : State) (n : Fin 4) (hr : BitVec 12) (irb : BitVec 16),
    let h := s.hw
    let x := h.cl n
    let on := h.aoutOn = true ∧ h.get (AOUT_CL_CFG.EN_L n) = 1
    let cmd := h.get (AOUT_CL_CODE.CODE n)
    let low := hr.toNat * 400 < 180 * 400 + cmd
    let hd := h.get (AOUT_CL_STAT.HEADROOM n)
    let policy := h.get (AOUT_CL_CFG.POLICY_L n)
    let looked := h.get (AOUT_CL_CFG.MODE_L n) = 0 ∨ h.loopMode loopBst2 ≠ 1 ∨ h.loopHigh loopBst2 = (h.get AOUT_BST2_MON.VOUT : Nat) ∨ h.get AOUT_BST2_MON.ILIM = 1
    let reads := fun (t : Hw) => (h.get AOUT_CAL.EN_L = 0 → t.get (AOUT_CL_READBACK.I_RB n) = irb.toNat) ∧ t.get (AOUT_CL_READBACK.H n) = hr.toNat
    (¬ on → Becomes (.clMonitorReading n hr irb) s h) ∧
    (on → h.get (AOUT_CL_STAT.FAULT_ACTIVE n) = 0 ∨ x.retry ≠ 0 →
      (hd = 0 → low → 3 ≤ x.low → looked → Completes (.clMonitorReading n hr irb) s (fun t => reads t ∧ t.get (AOUT_CL_STAT.HEADROOM n) = 1 ∧ t.get (AOUT_CL_STAT.HEADROOM_SEEN n) = 1 ∧
        (policy ≠ 0 → t.get (AOUT_CL_STAT.FAULT_ACTIVE n) = 1) ∧ t.cl n = {} ∧ SameMemory h t)) ∧
      (hd = 0 → low → x.low < 3 → looked → Completes (.clMonitorReading n hr irb) s (fun t => reads t ∧ t.get (AOUT_CL_STAT.HEADROOM n) = 0 ∧ (t.cl n).low = x.low + 1 ∧ (t.cl n).ok = 0)) ∧
      (hd = 0 → low → ¬ looked → Completes (.clMonitorReading n hr irb) s (fun t => reads t ∧ t.get (AOUT_CL_STAT.HEADROOM n) = 0 ∧ (t.cl n).low = 0 ∧ (t.cl n).ok = 0)) ∧
      (hd = 0 → ¬ low → Completes (.clMonitorReading n hr irb) s (fun t => reads t ∧ t.get (AOUT_CL_STAT.HEADROOM n) = 0 ∧ (t.cl n).low = 0 ∧
        (15 ≤ x.dev → h.get AOUT_CAL.EN_L = 0 → cmd + 1000 < irb.toNat ∨ irb.toNat + 1000 < cmd → t.get (AOUT_CL_STAT.DEVIATION n) = 1))) ∧
      (hd = 1 → ¬ low → 15 ≤ x.ok → Completes (.clMonitorReading n hr irb) s (fun t => reads t ∧
        t.reads [(AOUT_CL_STAT.HEADROOM n, 0), (AOUT_CL_STAT.FAULT_ACTIVE n, 0), (AOUT_CL_STAT.FAULT_UNREACHABLE n, 0)])) ∧
      (hd = 1 → ¬ low → x.ok < 15 → Completes (.clMonitorReading n hr irb) s (fun t => reads t ∧ t.get (AOUT_CL_STAT.HEADROOM n) = 1 ∧ (t.cl n).ok = x.ok + 1))) ∧
    (on → h.get (AOUT_CL_STAT.FAULT_ACTIVE n) = 1 → x.retry = 0 →
      (policy ≠ 2 → Completes (.clMonitorReading n hr irb) s (fun t => reads t ∧ t.get (AOUT_CL_STAT.FAULT_ACTIVE n) = 1)) ∧
      (policy = 2 → x.unmet = 3 → hr.toNat * 400 < 180 * 400 + 43000 → Completes (.clMonitorReading n hr irb) s (fun t => reads t ∧
        t.reads [(AOUT_CL_STAT.FAULT_ACTIVE n, 0), (AOUT_CL_STAT.FAULT_UNREACHABLE n, 1)]))) ∧
    (h.aoutOn = false ∨ h.get (AOUT_CL_STAT.FAULT_ACTIVE n) = 0 → Becomes (.faultRetryWindow n) s h) ∧
    (h.aoutOn = true → h.get (AOUT_CL_STAT.FAULT_ACTIVE n) = 1 → Becomes (.faultRetryWindow n) s (h.setCl n { x with retry := 4 }))) ∧
  (∀ (s : State) (ma : BitVec 8) (limits : Bool),
    let h := s.hw
    let v : Int := (h.get AOUT_BST2_MON.VOUT : Nat)
    let hi := h.loopHigh loopBst2
    let shows := fun (t : Hw) => t.reads [(AOUT_BST2_MON.IOUT, ma.toNat), (AOUT_BST2_MON.ILIM, b2n limits)]
    (h.aoutOn = false → Becomes (.bst2Step ma limits) s h) ∧
    (h.aoutOn = true →
      (h.loopMode loopBst2 = 2 → 0 ≤ h.loopPin loopBst2 → Completes (.bst2Step ma limits) s (fun t => shows t ∧ (t.get AOUT_BST2_MON.VOUT : Int) = h.loopPin loopBst2 % 512)) ∧
      (h.loopMode loopBst2 = 0 → Completes (.bst2Step ma limits) s (fun t => shows t ∧
        t.get AOUT_BST2_MON.VOUT = if h.clSource 0 || h.clSource 1 || h.clSource 2 || h.clSource 3 then 260 else 0)) ∧
      (h.loopMode loopBst2 = 1 → ∀ d, h.bst2Want = some d →
        (h.loopLow loopBst2 ≤ d → (d : Int) ≤ hi → v + 5 < 512 → Completes (.bst2Step ma limits) s (fun t => shows t ∧ (t.get AOUT_BST2_MON.VOUT : Int) = if v < d then min (d : Int) (v + 5) else v)) ∧
        (hi < d → h.bst2Loop.side ≠ 2 → v + 5 < 512 → 0 ≤ hi → Completes (.bst2Step ma limits) s (fun t => shows t ∧ (t.get AOUT_BST2_MON.VOUT : Int) = (if v < hi then min hi (v + 5) else v) ∧
          t.get ⟨AOUT_BST2_AUTH + 8, 0, 16⟩ = min (h.get ⟨AOUT_BST2_AUTH + 8, 0, 16⟩ + 1) 65535))))) ∧
  (∀ (h : Hw) (n : Fin 4),
    let i : Int := (h.get (AOUT_CL_READBACK.I_RB n) : Nat)
    let c : Int := (h.get (AOUT_CL_CODE.CODE n) : Nat)
    let drop : Int := ((h.get AOUT_BST2_MON.VOUT * 10 : Nat) : Int) - (h.get (AOUT_CL_READBACK.H n) : Nat)
    (i < 200 → h.bst2Demand n = 260) ∧
    (200 ≤ i → 0 ≤ drop → h.bst2Demand n % 5 = 0 ∧
      drop * c * 400 + (280 * 400 + c) * i ≤ 4000 * h.bst2Demand n * i ∧ 4000 * h.bst2Demand n * i < drop * c * 400 + (280 * 400 + c) * i + 20000 * i))

/-- R311 to R323, R330: ticks, captures and pulse widths. Readings of the model: log entries 86 and 144. -/
def Obligations.TimersCountMatchCaptureAndPulse : Prop :=
  (∀ (s : State) (n : Fin 16),
    let h := s.hw
    let ticks := h.blockOn 0xD = true ∧ h.pwr.bermActive = false ∧ h.get (TMR_GT_CTL.RUN n) = 1 ∧ h.tmrFrozen n = false ∧ h.get (TMR_GT_CFG.PRE_L n) ≤ h.tmrPhase n
    let c := h.get (TMR_GT_COUNT.COUNT n)
    let down := h.get (TMR_GT_CFG.MODE_L n) = 1
    let stops := down ∧ c = 0 ∧ h.get (TMR_GT_CFG.ONESHOT_L n) = 1
    let v := if h.get (TMR_GT_CFG.MODE_L n) = 1 then (if c = 0 then h.get (TMR_GT_RELOAD.VALUE n) else c - 1) else (c + 1) % 2 ^ 32
    let wraps := if h.get (TMR_GT_CFG.MODE_L n) = 1 then decide (c = 0) else decide (c = 0xFFFFFFFF)
    let m0 := decide (¬ stops ∧ h.get (TMR_GT_CTL.CMP0_EN n) = 1 ∧ v = h.get (TMR_GT_CMP0.VALUE n))
    let m1 := decide (¬ stops ∧ h.get (TMR_GT_CTL.CMP1_EN n) = 1 ∧ v = h.get (TMR_GT_CMP1.VALUE n))
    let act := fun (b : Bool) (a : Nat) (o : Nat) => if b then (if a = 1 then 1 else if a = 2 then 0 else if a = 3 then 1 - o else o) else o
    let ev := h.get (TMR_GT_CFG.EVSEL_L n)
    let ticked := fun (t : Hw) =>
      t.get (TMR_GT_COUNT.COUNT n) = (if down ∧ c = 0 ∧ h.get (TMR_GT_CFG.ONESHOT_L n) = 1 then 0 else v) ∧
      (stops → t.get (TMR_GT_CTL.RUN n) = 0) ∧ (¬ stops → t.get (TMR_GT_CTL.RUN n) = 1) ∧ t.tmrPhase n = 0 ∧
      (wraps = true → t.get (TMR_GT_STAT.WRAP n) = 1) ∧ (m0 = true → t.get (TMR_GT_STAT.CMP0 n) = 1) ∧ (m1 = true → t.get (TMR_GT_STAT.CMP1 n) = 1) ∧
      (wraps = false → t.get (TMR_GT_STAT.WRAP n) = h.get (TMR_GT_STAT.WRAP n)) ∧ (m0 = false → t.get (TMR_GT_STAT.CMP0 n) = h.get (TMR_GT_STAT.CMP0 n)) ∧
      (m1 = false → t.get (TMR_GT_STAT.CMP1 n) = h.get (TMR_GT_STAT.CMP1 n)) ∧
      (down → c = 0 → ¬ stops → t.get (TMR_GT_RLD_ACT.VALUE n) = v) ∧
      t.get (TMR_GT_STAT.OUT n) = act m1 (h.get (TMR_GT_CFG.OUT1_ACT_L n)) (act m0 (h.get (TMR_GT_CFG.OUT0_ACT_L n)) (h.get (TMR_GT_STAT.OUT n))) ∧
      t.evLines = setBit h.evLines n (decide ((ev = 0 ∧ m0 = true) ∨ (ev = 1 ∧ m1 = true) ∨ (ev = 2 ∧ wraps = true))) ∧ SameMemory h t
    (ticks → m0 = true ∨ m1 = true → Completes (.gtCompareMatch n) s ticked) ∧
    (ticks → ¬ down → wraps = true → Completes (.gtWrap n) s ticked) ∧
    (ticks → down → wraps = true → Completes (.gtReload n) s ticked) ∧
    (ticks → m0 = false → m1 = false → wraps = false → Completes (.timerTick ⟨n, by omega⟩) s ticked) ∧
    (¬ ticks → Becomes (.gtCompareMatch n) s h ∧ Becomes (.gtWrap n) s h ∧ Becomes (.gtReload n) s h ∧ Becomes (.timerTick ⟨n, by omega⟩) s h) ∧
    (m0 = false → m1 = false → Becomes (.gtCompareMatch n) s h) ∧ (wraps = false → Becomes (.gtWrap n) s h ∧ Becomes (.gtReload n) s h) ∧
    (∀ falling : Bool,
      let edge := h.get (TMR_GT_CFG.CAPEDGE_L n)
      let watches := h.blockOn 0xD = true ∧ h.pwr.bermActive = false ∧ h.get (TMR_GT_CTL.CAPEN n) = 1 ∧ h.tmrFrozen n = false ∧ h.get (TMR_GT_CFG.CAPSEL_L n) = 0 ∧
        (edge = 2 ∨ edge = b2n falling) ∧ h.get (GPIO_MUX.FN (if n.val < 14 then 2 * n else 2 * n + 16)) = 2
      let stamp : Int := ((128 * h.clk.tb.toNat + h.clk.tbFrac.toNat : Nat) : Int) - ((64 * ((2 + h.get (TMR_GT_CFG.FILT_L n)) * h.get CLK_DIV.PER_DIV) : Nat) : Int)
      (¬ watches → Becomes (.gtCapture n falling) s h) ∧
      (watches → Completes (.gtCapture n falling) s (fun t => t.get (TMR_GT_CAP.COUNT n) = c ∧ t.get (TMR_GT_STAT.CAP n) = 1 ∧
        t.get (TMR_GT_STAT.OVR n) = (if h.get (TMR_GT_STAT.CAP n) = 1 then 1 else h.get (TMR_GT_STAT.OVR n)) ∧ t.get (TMR_GT_COUNT.COUNT n) = c ∧ SameMemory h t ∧
        (0 ≤ stamp → ((t.get (TMR_GT_CAP_TBL.TB n) + 2 ^ 32 * t.get (TMR_GT_CAP_TBH.TB n) : Nat) : Int) = stamp / 128))))) ∧
  (∀ (s : State) (n : Fin 4) (o : Fin 4),
    let h := s.hw
    let x := h.pt n
    let ticks := h.blockOn 0xD = true ∧ h.pwr.bermActive = false ∧ h.get (TMR_PT_CTL.RUN n) = 1 ∧ h.tmrFrozen (16 + n) = false ∧ h.get (TMR_PT_CFG.PRE_L n) ≤ h.tmrPhase (16 + n)
    let c := h.get (TMR_PT_COUNT.COUNT n)
    let per := h.get (TMR_PT_PERIOD_ACT.VALUE n)
    let center := h.get (TMR_PT_CFG.MODE_L n) = 1
    let dn := decide (center ∧ c ≠ 0 ∧ (h.get (TMR_PT_STAT.DIR n) = 1 ∨ per ≤ c))
    let v := if h.get (TMR_PT_CFG.MODE_L n) = 1 then (if c = 0 then 1 else if h.get (TMR_PT_STAT.DIR n) = 1 ∨ per ≤ c then c - 1 else c + 1) else if per ≤ c + 1 then 0 else c + 1
    let loads := decide (v = 0 ∧ h.get (TMR_PT_CTL.HOLD n) = 0)
    let duty := fun (k : Nat) => if loads then h.get (TMR_PT_DUTY.VALUE n k) else h.get (TMR_PT_DUTY_ACT.VALUE n k)
    let evc := if loads then h.get (TMR_PT_EVCMP.VALUE n) else h.get (TMR_PT_EVCMP_ACT.VALUE n)
    let ev := decide (v = evc) && !dn
    let raw := fun (k : Nat) => decide (v < duty k)
    let waits := fun (y : PtOut) (k : Nat) => tget 0 y.wait k
    let falls := (List.range 4).any (fun k => bitOf x.raw k && !raw k)
    let sel := h.get (TMR_PT_CFG.EVSEL_L n)
    let line := decide ((sel = 0 ∧ v = 0) ∨ (sel = 1 ∧ ev = true))
    let ticked := fun (t : Hw) => v < 2 ^ 32 →
      t.get (TMR_PT_COUNT.COUNT n) = v ∧ t.get (TMR_PT_STAT.DIR n) = (if dn then 1 else 0) ∧ t.tmrPhase (16 + n) = 0 ∧
      t.get (TMR_PT_STAT.PSTART n) = (if v = 0 then 1 else h.get (TMR_PT_STAT.PSTART n)) ∧ t.get (TMR_PT_STAT.EVT n) = (if ev then 1 else h.get (TMR_PT_STAT.EVT n)) ∧
      (∀ k : Fin 4, t.get (TMR_PT_DUTY_ACT.VALUE n k) = duty k ∧ bitOf (t.pt n).raw k = raw k) ∧ t.get (TMR_PT_EVCMP_ACT.VALUE n) = evc ∧
      t.get (TMR_PT_PERIOD_ACT.VALUE n) = (if loads then h.get (TMR_PT_PERIOD.VALUE n) else per) ∧
      (loads = true → h.get (TMR_PT_PERIOD.VALUE n) ≠ per → t.get (TMR_PT_STAT.LOADED n) = 1) ∧
      (h.get (TMR_PT_CFG.COMP01_L n) = 0 → bitOf (t.pt n).lvl 0 = raw 0 ∧ bitOf (t.pt n).lvl 1 = raw 1) ∧
      (h.get (TMR_PT_CFG.COMP23_L n) = 0 → bitOf (t.pt n).lvl 2 = raw 2 ∧ bitOf (t.pt n).lvl 3 = raw 3) ∧
      (h.get (TMR_PT_CFG.COMP01_L n) = 1 →
        (raw 0 = false → bitOf (t.pt n).lvl 0 = false ∧ waits (t.pt n) 0 = 0) ∧ (raw 0 = true → bitOf (t.pt n).lvl 1 = false ∧ waits (t.pt n) 1 = 0) ∧
        (raw 0 = true → bitOf x.raw 0 = false → t.get (TMR_PT_DT_ACT.DT01 n) ≠ 0 → waits x 0 = 0 →
          bitOf (t.pt n).lvl 0 = bitOf x.lvl 0 ∧ waits (t.pt n) 0 = t.get (TMR_PT_DT_ACT.DT01 n)) ∧
        (raw 0 = true → bitOf x.raw 0 = false → t.get (TMR_PT_DT_ACT.DT01 n) = 0 → bitOf (t.pt n).lvl 0 = true) ∧
        (raw 0 = true → bitOf x.raw 0 = true →
          (∀ w, waits x 0 = w + 2 → bitOf (t.pt n).lvl 0 = bitOf x.lvl 0 ∧ waits (t.pt n) 0 = w + 1) ∧ (waits x 0 = 1 → bitOf (t.pt n).lvl 0 = true))) ∧
      t.evLines = setBit h.evLines (16 + n) line ∧ SameMemory h t ∧
      (∀ g : Fin 16, bitOf h.evLines (16 + n) ≠ line → h.gtWatches g (1 + n) (!line) = true →
        t.get (TMR_GT_CAP.COUNT g) = h.get (TMR_GT_COUNT.COUNT g) ∧ t.get (TMR_GT_STAT.CAP g) = 1) ∧
      (∀ g : Fin 16, bitOf h.evLines (16 + n) = line ∨ h.gtWatches g (1 + n) (!line) = false →
        t.get (TMR_GT_CAP.COUNT g) = h.get (TMR_GT_CAP.COUNT g) ∧ t.get (TMR_GT_STAT.CAP g) = h.get (TMR_GT_STAT.CAP g))
    (ticks → v = 0 → Completes (.ptPeriodStart n) s ticked) ∧
    (ticks → falls = true → Completes (.ptDutyMatch n) s ticked) ∧
    (ticks → ev = true → Completes (.ptEvcmpMatch n) s ticked) ∧
    (ticks → v ≠ 0 → falls = false → ev = false → Completes (.timerTick ⟨16 + n, by omega⟩) s ticked) ∧
    (¬ ticks → Becomes (.ptPeriodStart n) s h ∧ Becomes (.ptDutyMatch n) s h ∧ Becomes (.ptEvcmpMatch n) s h ∧ Becomes (.timerTick ⟨16 + n, by omega⟩) s h) ∧
    (v ≠ 0 → Becomes (.ptPeriodStart n) s h) ∧ (falls = false → Becomes (.ptDutyMatch n) s h) ∧ (ev = false → Becomes (.ptEvcmpMatch n) s h) ∧
    (let due := h.blockOn 0xD = true ∧ h.pwr.bermActive = false ∧ h.get (TMR_PT_CTL.RUN n) = 1 ∧ h.tmrFrozen (16 + n) = false ∧ waits x o = 1
     (¬ due → Becomes (.deadTimeExpiry n o) s h) ∧
     (due → Completes (.deadTimeExpiry n o) s (fun t => bitOf (t.pt n).lvl o = true ∧ waits (t.pt n) o = 0 ∧ (t.pt n).raw = x.raw ∧
       (∀ k : Fin 4, k ≠ o → bitOf (t.pt n).lvl k = bitOf x.lvl k ∧ waits (t.pt n) k = waits x k)))))

/-- R311, R312, R318, R320, R324 to R328, R332, R429: writes of timers and the timebase. Readings of the model: log entries 87 and 88. -/
def Obligations.TimerWritesAndTheTimebaseTakeEffect : Prop :=
  (∀ (s : State) (acc : Access) (t : Fin 20) (v : Word), s.hw.opens acc = true →
    let h := s.hw
    let may := acc.tid = 0 ∨ acc.tid.toNat = (if t.val < 16 then h.get (TMR_GT_OWNER.TID_L t) else h.get (TMR_PT_OWNER.TID_L (t - 16)))
    let count : Fld := if t.val < 16 then TMR_GT_COUNT.COUNT t else TMR_PT_COUNT.COUNT (t - 16)
    let run : Fld := if t.val < 16 then TMR_GT_CTL.RUN t else TMR_PT_CTL.RUN (t - 16)
    (¬ may → Becomes (.countWrite acc t v) s h ∧ Becomes (.runWrite acc t v) s h) ∧
    (may → Completes (.countWrite acc t v) s (fun k => k.get count = v.toNat ∧ k.tmrPhase t = 0 ∧ k.get run = h.get run ∧ k.evLines = h.evLines ∧ SameMemory h k)) ∧
    (may → v.getLsbD 0 = true → h.tmrHolds t = true → Completes (.runWrite acc t v) s (fun k => k.get run = h.get run ∧ k.cmt.heldWr = h.cmt.heldWr ++ [(5, acc, run.adr, v)])) ∧
    (may → v.getLsbD 0 = false ∨ h.tmrHolds t = false → Completes (.runWrite acc t v) s (fun k => k.get run = b2n (v.getLsbD 0) ∧ k.get count = h.get count ∧ SameMemory h k ∧
      (t.val < 16 → k.get (TMR_GT_CTL.CAPEN t) = b2n (v.getLsbD 1) ∧ k.get (TMR_GT_CTL.CMP0_EN t) = b2n (v.getLsbD 2) ∧ k.get (TMR_GT_CTL.CMP1_EN t) = b2n (v.getLsbD 3)) ∧
      (16 ≤ t.val → k.get (TMR_PT_CTL.HOLD (t - 16)) = b2n (v.getLsbD 1) ∧
        (v.getLsbD 0 = true → h.get run = 0 →
          let loads := v.getLsbD 1 = false
          k.get (TMR_PT_PERIOD_ACT.VALUE (t - 16)) = (if loads then h.get (TMR_PT_PERIOD.VALUE (t - 16)) else h.get (TMR_PT_PERIOD_ACT.VALUE (t - 16))) ∧
          (∀ j : Fin 4, let d := if loads then h.get (TMR_PT_DUTY.VALUE (t - 16) j) else h.get (TMR_PT_DUTY_ACT.VALUE (t - 16) j)
            k.get (TMR_PT_DUTY_ACT.VALUE (t - 16) j) = d ∧ bitOf (k.pt (t - 16)).raw j = decide (h.get count < d))))))) ∧
  (∀ (s : State) (acc : Access) (v : Word), s.hw.opens acc = true →
    let h := s.hw
    let run := fun (t : Nat) => if t < 16 then TMR_GT_CTL.RUN t else TMR_PT_CTL.RUN (t - 16)
    let owns := fun (t : Nat) => acc.tid = 0 || acc.tid.toNat == (if t < 16 then h.get (TMR_GT_OWNER.TID_L t) else h.get (TMR_PT_OWNER.TID_L (t - 16)))
    let named := fun (t : Nat) => v.getLsbD t && owns t
    let waits := (List.range 20).any (fun t => named t && h.tmrHolds t)
    let set := fun (k : Hw) (b : Nat) => (∀ t : Fin 20, k.get (run t) = if named t then b else h.get (run t)) ∧ SameMemory h k
    (waits = false → Completes (.tmrStart acc v) s (fun k => set k 1)) ∧
    (waits = true → Completes (.tmrStart acc v) s (fun k => (∀ t : Fin 20, k.get (run t) = h.get (run t)) ∧ k.cmt.heldWr = h.cmt.heldWr ++ [(5, acc, TMR_START, v)])) ∧
    Completes (.tmrStop acc v) s (fun k => set k 0) ∧
    (∀ n : Fin 16, Completes (.capRead acc n) s (fun k => k.busData = h.rd (TMR_GT_CAP n) ∧ k.snap acc.who (1 + n.val) = (h.get (TMR_GT_CAP_TBL.TB n), h.get (TMR_GT_CAP_TBH.TB n)) ∧
      k.regs = mcanon resetWord h.regs)) ∧
    Completes (.tbRead acc) s (fun k => k.busData = BitVec.ofNat 32 h.clk.tb.toNat ∧ (k.snap acc.who 0).1 = h.clk.tb.toNat / 2 ^ 32 ∧ k.clk = h.clk ∧ k.regs = mcanon resetWord h.regs) ∧
    (let kept := fun (x : BitVec 64) => ∀ k, h.clk.epochHi = some k → x.toNat / 1000000 ≤ k
     let quiet := fun (x : BitVec 64) => kept x ∧
       (h.get TMR_TB_ALM_CTL.ARM = 1 → x.toNat < h.get TMR_TB_ALM_LO.TB + 2 ^ 32 * h.get TMR_TB_ALM_HI.TB) ∧
       (h.get TMR_TBS_CTL.ARM = 1 → x.toNat < h.get TMR_TBS_LO.TB + 2 ^ 32 * h.get TMR_TBS_HI.TB)
     let x := BitVec.ofNat 64 (h.get TMR_TB_SET_LO.VALUE + 2 ^ 32 * h.get TMR_TB_SET_HI.VALUE)
     let n := 64 * h.get CLK_DIV.PER_DIV + h.clk.tbFrac.toNat
     let y := h.clk.tb + BitVec.ofNat 64 (n / 128) + BitVec.ofInt 64 v.toInt
     let stepped : Hw := { h with clk := { h.clk with tb := y, tbFrac := BitVec.ofNat 7 n } }
     (acc.tid ≠ 0 ∨ h.clk.tbRun = false → kept h.clk.tb → Becomes (.tbSet acc v) s h ∧ Becomes (.tbAdj acc v) s h) ∧
     (acc.tid = 0 → h.clk.tbRun = true →
       (v.getLsbD 0 = false → kept h.clk.tb → Becomes (.tbSet acc v) s h) ∧
       (v.getLsbD 0 = true → Becomes (.tbSet acc v) s (h.setTb x).tbDue.epochCatch ∧
         (quiet x → Becomes (.tbSet acc v) s { h with clk := { h.clk with tb := x, tbFrac := 0 } }) ∧
         (kept x → h.get TMR_TB_ALM_CTL.ARM = 1 → h.get TMR_TB_ALM_LO.TB + 2 ^ 32 * h.get TMR_TB_ALM_HI.TB ≤ x.toNat →
           Completes (.tbSet acc v) s (fun k => k.reads [(TMR_TB_ALM_CTL.ARM, 0), (TMR_TB_ALM_CTL.HIT, 1)] ∧ k.clk.tb = x))) ∧
       Becomes (.tbAdj acc v) s stepped.tbDue.epochCatch ∧ (quiet y → Becomes (.tbAdj acc v) s stepped)))) ∧
  (∀ s : State,
    let h := s.hw
    let run := fun (t : Nat) => if t < 16 then TMR_GT_CTL.RUN t else TMR_PT_CTL.RUN (t - 16)
    let start := h.get TMR_TBS_LO.TB + 2 ^ 32 * h.get TMR_TBS_HI.TB
    let m := h.get TMR_TBS_MASK.TIMERS
    let armed := h.blockOn 0xD = true ∧ h.clk.tbRun = true ∧ h.get TMR_TBS_CTL.ARM = 1
    let alarm := h.get TMR_TB_ALM_LO.TB + 2 ^ 32 * h.get TMR_TB_ALM_HI.TB
    (¬ armed → Becomes .tbsFire s h) ∧
    (armed → (∀ t, t < 20 → h.tmrHolds t = false) → Completes .tbsFire s (fun k => k.reads [(TMR_TBS_CTL.ARM, 0), (TMR_TBS_CTL.HIT, 1)] ∧ k.clk.tb.toNat = max h.clk.tb.toNat start ∧
      (∀ t : Fin 20, k.get (run t) = if bitOf m t then 1 else h.get (run t)))) ∧
    (∀ lsx irc : Nat,
      let armed := h.pwr.phase = .up ∧ h.get TMR_TB_ALM_CTL.ARM = 1
      let fired := fun (k : Hw) => k.reads [(TMR_TB_ALM_CTL.ARM, 0), (TMR_TB_ALM_CTL.HIT, 1)]
      let kept : Hw := { h with bak := { h.bak with retLsx := h.bak.retLsx + lsx, retIrc := h.bak.retIrc + irc } }
      let time := (128 * h.clk.tbEntry.toNat + h.clk.tbFrac.toNat + (h.bak.retLsx + lsx) * 3906250 + (h.bak.retIrc + irc) * 16000) / 128
      (¬ armed → Becomes (.tbAlarm lsx irc) s h) ∧
      (armed → h.clk.tbRun = true → Completes (.tbAlarm lsx irc) s (fun k => fired k ∧ k.clk.tb.toNat = max h.clk.tb.toNat alarm)) ∧
      (armed → h.clk.tbRun = false → h.pwr.sleep = .sleep → alarm ≤ time → time < 2 ^ 64 →
        Completes (.tbAlarm lsx irc) s (fun k => fired k ∧ k.clk = h.clk ∧ k.bak = kept.bak)) ∧
      (armed → h.clk.tbRun = false → h.pwr.sleep ≠ .sleep ∨ time < alarm → Becomes (.tbAlarm lsx irc) s kept)))

/-- R333, R336, R337, R339 to R341, R347, R348: UART, SPI and I2C. Depths and empty pops that the spec leaves open: log entries 90, 95 and
96. Readings of the model: log entries 121, 167 and 168. -/
def Obligations.UartSpiAndI2cMoveTheirCharacters : Prop :=
  (∀ (s : State) (acc : Access) (u : Fin 7) (v : Word) (baud on : Bool),
    let h := s.hw
    let x := h.uart u
    let local' := 6 ≤ u.val ∧ acc.who = .polder
    let reach := if 6 ≤ u.val ∧ acc.who = .polder then h.polRuns = true ∧ h.busHeld acc.who = false else h.opens acc = true
    let may := acc.tid = 0 ∨ acc.tid.toNat = h.get (uf UART_OWNER.TID_L u)
    let lvl := fun (t : Hw) => t.get (uf UART_FIFO.RXLVL u) = (t.uart u).rx.length % 64 ∧ t.get (uf UART_FIFO.TXLVL u) = (t.uart u).tx.length % 64 ∧ SameMemory h t
    let en := h.get (uf UART_CFG.EN u) = 1
    (¬ reach → ∀ i ∈ [Instr.uartTxPush acc u v, .uartRxPop acc u, .uartCfgWrite acc u baud v, .rxflush acc u, .txflush acc u, .uartBreak acc u on],
      (local' → Becomes i s h) ∧ (¬ local' → Becomes i s (h.shutTo acc))) ∧
    (reach → ¬ may → Becomes (.uartTxPush acc u v) s h ∧ Becomes (.uartRxPop acc u) s { h with busData := 0 } ∧ Becomes (.uartCfgWrite acc u baud v) s h ∧
      Becomes (.rxflush acc u) s h ∧ Becomes (.txflush acc u) s h ∧ Becomes (.uartBreak acc u on) s h) ∧
    (reach → may →
      (x.tx.length < 32 → Completes (.uartTxPush acc u v) s (fun t => (t.uart u).tx = x.tx ++ [v &&& 0x1FF] ∧ (t.uart u).rx = x.rx ∧ lvl t)) ∧
      (32 ≤ x.tx.length → Becomes (.uartTxPush acc u v) s (h.set (uf UART_STAT.TXOVR u) 1)) ∧
      (x.rx = [] → Completes (.uartRxPop acc u) s (fun t => t.busData = 0x80000000 ∧ t.uart u = x)) ∧
      (∀ w l, x.rx = w :: l → Completes (.uartRxPop acc u) s (fun t => t.busData = w ∧ (t.uart u).rx = l ∧ (t.uart u).tx = x.tx ∧ lvl t ∧
        (h.get (uf UART_CFG.FLOW u) = 1 → l.length ≤ 24 → (t.uart u).rts = false))) ∧
      (en → Completes (.uartCfgWrite acc u baud v) s (fun t => t.get (uf UART_STAT.CFG_REJ u) = 1 ∧ t.rd (ua UART_BAUD u) = h.rd (ua UART_BAUD u) ∧
        t.rd (ua UART_CFG u) = (if baud = true ∨ v.getLsbD 0 = true then h.rd (ua UART_CFG u) else h.rd (ua UART_CFG u) &&& ~~~1) ∧
        (t.uart u).tx = x.tx ∧ (t.uart u).rx = x.rx ∧ (t.uart u).cur = x.cur ∧ (baud = false → v.getLsbD 0 = false → (t.uart u).recv = false))) ∧
      (¬ en → baud = true → v.toNat % 65536 ≠ 0 → Completes (.uartCfgWrite acc u baud v) s (fun t => t.get (uf UART_BAUD.DIV u) = v.toNat % 65536 ∧
        t.get (uf UART_BAUD.FRAC u) = v.toNat / 65536 % 64 ∧ t.rd (ua UART_CFG u) = h.rd (ua UART_CFG u))) ∧
      (¬ en → baud = false → Completes (.uartCfgWrite acc u baud v) s (fun t => t.get (uf UART_CFG.EN u) = b2n (v.getLsbD 0) ∧ t.rd (ua UART_BAUD u) = h.rd (ua UART_BAUD u) ∧
        (t.uart u).tx = x.tx ∧ (t.uart u).rx = x.rx)) ∧
      Completes (.rxflush acc u) s (fun t => (t.uart u).rx = [] ∧ (t.uart u).tx = x.tx ∧ lvl t) ∧
      Completes (.txflush acc u) s (fun t => (t.uart u).tx = [] ∧ (t.uart u).rx = x.rx ∧ lvl t) ∧
      Completes (.uartBreak acc u on) s (fun t => t.get (uf UART_CTL.BREAK u) = b2n on ∧ (t.uart u).tx = x.tx ∧ (t.uart u).rx = x.rx))) ∧
  (∀ (s : State) (u : Fin 7) (cts bad : Bool) (d : BitVec 9) (par stop : Bool),
    let h := s.hw
    let x := h.uart u
    let clocked := if u.val < 6 then h.blockOn 0xE = true else h.pwr.polderLow = false
    let runs := clocked ∧ h.get (uf UART_CFG.EN u) = 1
    let n := h.get (uf UART_CFG.DATA u)
    let k := h.get (uf UART_CFG.PARITY u)
    let c := d.toNat % 2 ^ n
    let parity := fun (c : Nat) =>
      let ones := ((List.range n).filter (fun i => bitOf c i)).length % 2
      if k = 1 then decide (ones = 1) else if k = 2 then decide (ones = 0) else decide (k = 3)
    let frame := fun (c : Nat) => [false] ++ (List.range n).map (bitOf c) ++ (if k = 0 then [] else [parity c]) ++ List.replicate (h.get (uf UART_CFG.STOP2 u) + 1) true
    let pe := decide (k ≠ 0) && par != parity c
    let rx := decide (u.val = 6 ∨ h.get (GPIO_MUX.FN (4 * u + 1)) = 1)
    let stop' := stop || !rx
    let brk := decide (c = 0) && !stop' && (decide (k = 0) || !par)
    let starts := runs ∧ x.cur = none ∧ ((cts = true ∧ u.val < 6 ∧ h.get (GPIO_MUX.FN (4 * u + 3)) = 1) ∨ h.get (uf UART_CFG.FLOW u) = 0)
    let w := BitVec.ofNat 32 (c + (if pe then 2 ^ 9 else 0) + (if stop' then 0 else 2 ^ 10) + (if brk then 2 ^ 11 else 0))
    let seen := fun (t : Hw) (f : Fld) (b : Bool) => t.get f = if b then 1 else h.get f
    (¬ starts ∨ x.tx = [] → Becomes (.uartCharacterStart u cts) s h) ∧
    (starts → ∀ e l, x.tx = e :: l → Completes (.uartCharacterStart u cts) s (fun t => (t.uart u).cur = some (BitVec.ofNat 32 (e.toNat % 2 ^ n)) ∧ (t.uart u).bits = frame (e.toNat % 2 ^ n) ∧
      (t.uart u).tx = l ∧ (t.uart u).rx = x.rx ∧ t.get (uf UART_STAT.TXIDLE u) = 0)) ∧
    (¬ clocked ∨ x.cur = none → Becomes (.uartCharacterSent u) s h) ∧
    (clocked → x.cur ≠ none → Completes (.uartCharacterSent u) s (fun t => (t.uart u).cur = none ∧ (t.uart u).sent = x.cur ∧ t.get (uf UART_STAT.TXIDLE u) = 1)) ∧
    let hears := runs ∧ rx = true
    (¬ hears ∨ x.recv = true → Becomes (.uartStartDetect u bad) s h) ∧
    (hears → x.recv = false →
      (bad = true → Becomes (.uartStartDetect u bad) s (h.set (uf UART_STAT.GLITCH u) 1)) ∧
      (bad = false → Completes (.uartStartDetect u bad) s (fun t => (t.uart u).recv = true ∧ (t.uart u).rx = x.rx ∧ t.get (uf UART_STAT.RXIDLE u) = 0))) ∧
    (¬ runs ∨ x.recv = false → Becomes (.uartFrameReceived u d par stop) s h) ∧
    (runs → x.recv = true → Completes (.uartFrameReceived u d par stop) s (fun t => (t.uart u).recv = false ∧ (t.uart u).tx = x.tx ∧
      seen t (uf UART_STAT.PE_SEEN u) pe ∧ seen t (uf UART_STAT.FE_SEEN u) (!stop') ∧ seen t (uf UART_STAT.BRK_SEEN u) brk ∧
      (x.rx.length < 32 → (t.uart u).rx = x.rx ++ [w] ∧ seen t (uf UART_STAT.OVR u) false ∧ (h.get (uf UART_CFG.FLOW u) = 1 → 27 ≤ x.rx.length → (t.uart u).rts = true)) ∧
      (32 ≤ x.rx.length → (t.uart u).rx = x.rx ∧ seen t (uf UART_STAT.OVR u) true))) ∧
    (let due := runs ∧ h.get (uf UART_TOUT.BITS u) ≠ 0 ∧ x.rx ≠ []
     (¬ due → Becomes (.rxto u) s h) ∧ (due → Becomes (.rxto u) s (h.set (uf UART_STAT.RXTO u) 1)))) ∧
  (∀ (s : State) (acc : Access) (n : Fin 4) (v : Word), s.hw.opens acc = true →
    let h := s.hw
    let x := h.spi n
    let y := h.i2c n
    let may := acc.tid = 0 ∨ acc.tid.toNat = h.get (SPI_OWNER.TID_L n)
    let mayI := acc.tid = 0 ∨ acc.tid.toNat = h.get (I2C_OWNER.TID_L n)
    (¬ may → Becomes (.spiTxPush acc n v) s h ∧ Becomes (.spiRxPop acc n) s { h with busData := 0 }) ∧
    (may →
      (x.tx.length < 16 → Completes (.spiTxPush acc n v) s (fun t => t.spi n = { x with tx := x.tx ++ [v] } ∧ t.get (SPI_STAT.TXLVL n) = x.tx.length + 1)) ∧
      (16 ≤ x.tx.length → Becomes (.spiTxPush acc n v) s h) ∧
      (x.rx = [] → Becomes (.spiRxPop acc n) s { h with busData := Config.freeValue h.freeCtr, freeCtr := h.freeCtr + 1 }) ∧
      (∀ w l, x.rx = w :: l → Completes (.spiRxPop acc n) s (fun t => t.busData = w ∧ t.spi n = { x with rx := l } ∧ t.get (SPI_STAT.RXLVL n) = l.length % 32))) ∧
    (¬ mayI → Becomes (.i2cCmd acc n v) s h ∧ Becomes (.i2cRxPop acc n) s { h with busData := 0 } ∧ Becomes (.clear acc n) s h) ∧
    (mayI →
      (y.cmds.length < 8 → y.tin = [] → y.tout = 0 → Becomes (.i2cCmd acc n v) s (h.setI2c n { y with cmds := y.cmds ++ [v &&& 0xFFF] })) ∧
      (y.cmds = [] → y.tin = [] → ∀ k, y.tout = k + 1 → Becomes (.i2cCmd acc n v) s (h.setI2c n { y with tout := k, sent := y.sent ++ [v.truncate 8] })) ∧
      (8 ≤ y.cmds.length → Becomes (.i2cCmd acc n v) s h) ∧
      (y.rx = [] → Becomes (.i2cRxPop acc n) s { h with busData := Config.freeValue h.freeCtr &&& 0xFF, freeCtr := h.freeCtr + 1 }) ∧
      (∀ b l, y.rx = b :: l → y.tout = 0 ∨ y.cmds = [] → Completes (.i2cRxPop acc n) s (fun t => t.busData.toNat = b.toNat ∧
        t.i2c n = { y with rx := l ++ y.tin.take (8 - l.length), tin := y.tin.drop (8 - l.length) } ∧ t.regs = mcanon resetWord h.regs)) ∧
      Becomes (.clear acc n) s (h.setI2c n { y with held := false }))) ∧
  (∀ (s : State) (n : Fin 4) (v : Word) (nack arb : Bool) (b : Byte) (bs : List Byte) (k : Nat) (adr : Option (Bool × BitVec 10)),
    let h := s.hw
    let x := h.spi n
    let y := h.i2c n
    let spi := h.blockOn 0x10 = true ∧ h.get (SPI_CFG.EN n) = 1
    let slave := h.get (SPI_CFG.SLAVE n) = 1
    let i2c := h.blockOn 0x11 = true ∧ h.get (I2C_CFG.EN n) = 1
    let target := h.get (I2C_CFG.TARGET n) = 1
    let clocked := h.get (GPIO_MUX.FN (28 + 7 * n)) = 1
    let scl := h.get (GPIO_MUX.FN (56 + 2 * n)) = 1
    let sda := h.get (GPIO_MUX.FN (57 + 2 * n)) = 1
    let own := ∀ a, adr = some a → h.get (I2C_CFG.ADDR10 n) = b2n a.1 ∧
      (if a.1 then a.2.toNat = h.get (I2C_CFG.ADDR n) else a.2.toNat % 128 = h.get (I2C_CFG.ADDR n) % 128)
    let addressed := i2c ∧ target ∧ scl ∧ sda ∧ y.tin = [] ∧ y.tout = 0 ∧ own
    let nack' := nack || !decide sda
    let arb' := arb && decide sda
    let b' := if sda then b else 0xFF
    let order := fun (w : Word) =>
      let l := (List.range (h.get (SPI_CFG.LEN n) + 1)).map w.getLsbD
      if h.get (SPI_CFG.LSBF n) = 1 then l else l.reverse
    let sel := x.sel && h.on (SPI_CFG.CONT n) && x.tx != []
    let w := if h.get (GPIO_MUX.FN (if h.get (SPI_CFG.SLAVE n) = 1 then 29 + 7 * n else 30 + 7 * n)) = 1 then BitVec.ofNat 32 (v.toNat % 2 ^ (h.get (SPI_CFG.LEN n) + 1)) else 0
    (¬ spi ∨ (slave ∧ ¬ clocked) ∨ x.cur ≠ none ∨ (x.tx = [] ∧ ¬ slave) ∨ (¬ slave ∧ 16 ≤ x.rx.length) → Becomes (.spiFrameStart n) s h) ∧
    (spi → x.cur = none → (slave ∧ clocked) ∨ (¬ slave ∧ x.rx.length < 16) → ∀ e l, x.tx = e :: l → Completes (.spiFrameStart n) s (fun t =>
      t.spi n = { x with tx := l, cur := some e, bits := order e, sel := decide (¬ slave) } ∧ t.get (SPI_STAT.TXLVL n) = l.length % 32 ∧ t.get (SPI_STAT.UDR n) = h.get (SPI_STAT.UDR n))) ∧
    (spi → x.cur = none → slave → clocked → x.tx = [] → Completes (.spiFrameStart n) s (fun t => t.spi n = { x with cur := some 0, bits := order 0, sel := false } ∧ t.get (SPI_STAT.UDR n) = 1)) ∧
    (¬ spi ∨ x.cur = none → Becomes (.spiFrameEnd n v) s h) ∧
    (spi → x.cur ≠ none →
      (x.rx.length < 16 → Completes (.spiFrameEnd n v) s (fun t => t.spi n = { x with cur := none, sel := sel, rx := x.rx ++ [w] } ∧ t.get (SPI_STAT.OVR n) = h.get (SPI_STAT.OVR n))) ∧
      (16 ≤ x.rx.length → Completes (.spiFrameEnd n v) s (fun t => t.spi n = { x with cur := none, sel := sel } ∧ t.get (SPI_STAT.OVR n) = 1))) ∧
    (¬ i2c ∨ target ∨ y.cmds = [] → Becomes (.i2cByteDone n nack arb b) s h) ∧
    (i2c → ¬ target → ∀ e l, y.cmds = e :: l →
      (e.getLsbD 8 = false → y.held = false → Becomes (.i2cByteDone n nack arb b) s h) ∧
      (e.getLsbD 8 = true ∨ y.held = true →
        (arb' = true → Becomes (.i2cByteDone n nack arb b) s ((h.setI2c n { y with cmds := [], held := false }).set (I2C_STAT.ARBLOST n) 1)) ∧
        (arb' = false → nack' = true → e.getLsbD 10 = false → Becomes (.i2cByteDone n nack arb b) s
          ((h.setI2c n { y with cmds := [], held := false, sent := [e.truncate 8] }).set (I2C_STAT.NACKED n) 1)) ∧
        (arb' = false → nack' = false → e.getLsbD 10 = false → Completes (.i2cByteDone n nack arb b) s (fun t =>
          t.i2c n = { y with cmds := l, held := !e.getLsbD 9, sent := [e.truncate 8] } ∧ t.get (I2C_STAT.DONE n) = 1)) ∧
        (arb' = false → e.getLsbD 10 = true → y.rx.length < 8 → Completes (.i2cByteDone n nack arb b) s (fun t =>
          t.i2c n = { y with cmds := l, held := !e.getLsbD 9, rx := y.rx ++ [b'] } ∧ t.get (I2C_STAT.DONE n) = 1)) ∧
        (arb' = false → e.getLsbD 10 = true → 8 ≤ y.rx.length → Completes (.i2cByteDone n nack arb b) s (fun t =>
          t.i2c n = { y with cmds := l, held := !e.getLsbD 9 } ∧ t.reads [(I2C_STAT.DONE n, 1), (I2C_STAT.OVR n, 1)])))) ∧
    (¬ (i2c ∧ scl) → Becomes (.sclStuck n) s h) ∧ (i2c → scl → Becomes (.sclStuck n) s (h.set (I2C_STAT.SCL_STUCK n) 1)) ∧
    (¬ addressed → Becomes (.i2cTargetAddressed n bs k adr) s h) ∧
    (addressed →
      let m := min k y.cmds.length
      Becomes (.i2cTargetAddressed n bs k adr) s (h.setI2c n { y with
        rx := y.rx ++ bs.take (8 - y.rx.length), tin := bs.drop (8 - y.rx.length), cmds := y.cmds.drop m, tout := k - m, sent := (y.cmds.take m).map (·.truncate 8) })))

/-- R342 to R346, R349 to R353: CAN and xSPI. What of the CAN counters the spec leaves to the standard: log entries 92 and 93. Readings of
the model: log entries 97, 98, 148, 149 and 169. -/
def Obligations.CanAndXspiFollowTheirRules : Prop :=
  (∀ (s : State) (acc : Access) (n : Fin 2) (v : Word), s.hw.opens acc = true →
    let h := s.hw
    let x := h.can n
    let may := acc.tid = 0 ∨ acc.tid.toNat = h.get (CAN_OWNER.TID_L n)
    let en := h.get (CAN_CTL.EN n) = 1
    let sends := h.blockOn 0xF = true ∧ en ∧ h.get (CAN_ECR.STATE n) ≠ 2 ∧ x.wait = false ∧ x.busy = false ∧ (h.get (CAN_CTL.MODE n) = 0 ∨ h.get (CAN_CTL.MODE n) = 3)
    (¬ may → Becomes (.txreq acc n v) s h ∧ Becomes (.txcancel acc n v) s h ∧ Becomes (.rxfPop acc n) s h ∧ Becomes (.recover acc n) s h ∧ Becomes (.canCfgWrite acc n 4 v) s h) ∧
    (may →
      Completes (.txreq acc n v) s (fun t => t.get (CAN_TXREQ.BUF n) = h.get (CAN_TXREQ.BUF n) ||| v.toNat % 2 ^ 16 ∧ (t.can n).rxf = x.rxf ∧ SameMemory h t ∧
        (x.bus ≠ none ∨ ¬ sends → t.can n = x) ∧ (x.bus = none → sends → t.can n = { x with bus := t.canNext n, cancel := false })) ∧
      Completes (.txcancel acc n v) s (fun t => SameMemory h t ∧
        (∀ k : Fin 16, bitOf (t.get (CAN_TXREQ.BUF n)) k = (bitOf (h.get (CAN_TXREQ.BUF n)) k && !(v.getLsbD k && x.bus != some k.val))) ∧
        t.can n = if ∃ k : Fin 16, x.bus = some k.val ∧ v.getLsbD k = true then { x with cancel := true } else x) ∧
      Completes (.rxfPop acc n) s (fun t => t.can n = { x with rxf := x.rxf.drop 1 } ∧ t.reads [(CAN_RXF.LEVEL n, (x.rxf.length - 1) % 128), (CAN_STAT.RXNE n, if 1 < x.rxf.length then 1 else 0)]) ∧
      (h.get (CAN_ECR.STATE n) = 2 → Completes (.recover acc n) s (fun t => (t.can n).recov = true ∧ (t.can n).rxf = x.rxf ∧ t.get (CAN_CTL.EN n) = h.get (CAN_CTL.EN n) ∧
        t.get (CAN_CTL.MODE n) = h.get (CAN_CTL.MODE n))) ∧
      (h.get (CAN_ECR.STATE n) ≠ 2 → Completes (.recover acc n) s (fun t => (t.can n).rxf = x.rxf ∧ (t.can n).recov = x.recov ∧ t.get (CAN_CTL.EN n) = h.get (CAN_CTL.EN n) ∧
        (¬ en → (t.can n).bus = none) ∧ (en → x.bus ≠ none → t.can n = x))) ∧
      (en → Becomes (.canCfgWrite acc n 4 v) s (h.set (CAN_STAT.CFG_REJ n) 1) ∧ Becomes (.canCfgWrite acc n 0x100 v) s (h.set (CAN_STAT.CFG_REJ n) 1) ∧
        Completes (.canCfgWrite acc n 0 v) s (fun t => t.get (CAN_CTL.MODE n) = h.get (CAN_CTL.MODE n) ∧ t.get (CAN_CTL.EN n) = b2n (v.getLsbD 0) ∧
          (v.getLsbD 0 = false → (t.can n).bus = none) ∧ (v.toNat / 2 % 4 ≠ h.get (CAN_CTL.MODE n) → t.get (CAN_STAT.CFG_REJ n) = 1))) ∧
      (¬ en → Completes (.canCfgWrite acc n 0 v) s (fun t => t.get (CAN_CTL.MODE n) = v.toNat / 2 % 4 ∧ t.get (CAN_CTL.EN n) = b2n (v.getLsbD 0) ∧
          t.get (CAN_STAT.CFG_REJ n) = h.get (CAN_STAT.CFG_REJ n)) ∧
        Completes (.canCfgWrite acc n 0x100 v) s (fun t => t.get (CAN_FILT.ID n 0) = v.toNat % 2 ^ 29 ∧ t.get (CAN_FILT.EN n 0) = b2n (v.getLsbD 31) ∧
          t.get (CAN_FILT.XTD n 0) = b2n (v.getLsbD 29) ∧ t.get (CAN_FILT.REJECT n 0) = b2n (v.getLsbD 30))))) ∧
  (∀ (s : State) (n : Fin 2) (r : CanSent) (tb : DWord) (id ctrl : Word) (data : List Byte) (err eight once : Bool),
    let h := s.hw
    let x := h.can n
    let on := h.blockOn 0xF = true ∧ h.get (CAN_CTL.EN n) = 1 ∧ h.get (CAN_ECR.STATE n) ≠ 2 ∧ x.wait = false
    let mode := h.get (CAN_CTL.MODE n)
    let sends := on ∧ (mode = 0 ∨ mode = 3)
    let tec := h.get (CAN_ECR.TEC n)
    let rec' := h.get (CAN_ECR.REC n)
    let pend := fun (t : Hw) (k : Nat) => bitOf (t.get (CAN_TXREQ.BUF n)) k
    let ofs := h.canFilter n id
    let lengths := [0, 1, 2, 3, 4, 5, 6, 7, 8, 12, 16, 20, 24, 32, 48, 64]
    let len := if ctrl.getLsbD 4 then lengths.getD (ctrl.toNat % 16) 64 else min 8 (ctrl.toNat % 16)
    let bad := ctrl.getLsbD 4 = true ∧ h.get (CAN_CTL.FDOE n) = 0
    let stored := fun (t : Hw) =>
      let e := (t.can n).rxf.getLastD []
      (t.can n).rxf = x.rxf ++ [e] ∧ e.length = 80 ∧ e.take 4 = leBytes 4 id.toNat ∧ fieldB e 4 1 = ctrl.toNat % 64 ∧
      sliceB e 8 8 = leBytes 8 tb.toNat ∧ sliceB e 16 (min len data.length) = data.take len
    let seen := h.get (GPIO_MUX.FN (25 + 2 * n)) = 1
    let idle := fun (t : Hw) => (t.can n).rxf = x.rxf ∧ (t.can n).busy = false ∧ (mode ≠ 0 → (t.can n).bus = none) ∧
      (mode = 0 → (t.can n).bus = t.canNext n ∧ (t.can n).cancel = false)
    let r' := if mode = 0 ∧ ¬ seen then CanSent.error else r
    let free := fun (t : Hw) => (r' = .lost → (t.can n).bus = none ∧ (t.can n).busy = true) ∧ (t.get (CAN_ECR.STATE n) = 2 → (t.can n).bus = none) ∧
      (r' ≠ .lost → t.get (CAN_ECR.STATE n) ≠ 2 → x.busy = false → (t.can n).bus = t.canNext n) ∧ (t.can n).cancel = false ∧ (t.can n).rxf = x.rxf
    (¬ sends ∨ x.bus = none → Becomes (.canFrameSent n r tb) s h) ∧
    (sends → ∀ k, x.bus = some k → k < 16 →
      (r' = .sent → Completes (.canFrameSent n r tb) s (fun t => free t ∧ pend t k = false ∧ t.get (CAN_STAT.TXDONE n) = 1 ∧ t.get (CAN_ECR.TEC n) = tec - 1 ∧
        t.rd (canBuf n k 8) = tb.truncate 32 ∧ t.rd (canBuf n k 12) = (tb >>> 32).truncate 32)) ∧
      (r' ≠ .sent → (h.rd (canBuf n k 4)).getLsbD 16 = true → Completes (.canFrameSent n r tb) s (fun t => free t ∧ pend t k = false ∧ t.get (CAN_STAT.ONESHOT_FAIL n) = 1)) ∧
      (r' ≠ .sent → (h.rd (canBuf n k 4)).getLsbD 16 = false → Completes (.canFrameSent n r tb) s (fun t => free t ∧
        (∀ j : Fin 16, pend t j = (pend h j && !(x.cancel && decide (j.val = k)))) ∧
        t.get (CAN_STAT.ONESHOT_FAIL n) = h.get (CAN_STAT.ONESHOT_FAIL n) ∧ (r' ≠ .lost → t.get (CAN_STAT.PROT_ERR n) = 1) ∧
        (r' = .error → 247 < tec → t.get (CAN_ECR.STATE n) = 2 ∧ t.get (CAN_STAT.STATE_CHG n) = 1) ∧ (r' = .error → tec ≤ 247 → t.get (CAN_ECR.TEC n) = tec + 8)))) ∧
    let hears := on ∧ seen
    (¬ hears ∨ mode = 3 → Becomes (.canFrameReceived n id ctrl data tb err once eight) s h) ∧
    (hears → mode ≠ 3 →
      (x.bus = none → Becomes (.canFrameReceived n id ctrl data tb err true eight) s (h.setCan n { x with busy := true })) ∧
      (x.bus ≠ none → Becomes (.canFrameReceived n id ctrl data tb err true eight) s h) ∧
      Completes (.canFrameReceived n id ctrl data tb true false eight) s (fun t => t.get (CAN_STAT.PROT_ERR n) = 1 ∧ idle t ∧
        t.get (CAN_ECR.REC n) = if mode = 0 then min (rec' + if eight then 8 else 1) 255 else rec') ∧
      (bad → Completes (.canFrameReceived n id ctrl data tb false) s (fun t => t.get (CAN_STAT.PROT_ERR n) = 1 ∧ idle t ∧
        t.get (CAN_ECR.REC n) = if mode = 0 then min (rec' + 1) 255 else rec')) ∧
      (¬ bad → data.length ≤ 64 → rec' ≤ 127 →
        let takes := match ofs with
          | some f => !h.on (CAN_FILT.REJECT n f)
          | none => h.on (CAN_CTL.NOMATCH n)
        Completes (.canFrameReceived n id ctrl data tb false) s (fun t => t.get (CAN_ECR.REC n) = (if mode = 0 then rec' - 1 else rec') ∧
          (takes = true → x.rxf.length < 64 → stored t ∧ t.get (CAN_RXF.LEVEL n) = x.rxf.length + 1 ∧ t.get (CAN_STAT.RXNE n) = 1) ∧
          (takes = true → 64 ≤ x.rxf.length → idle t ∧ t.get (CAN_STAT.RXOVR n) = 1) ∧
          (takes = false → idle t ∧ t.get (CAN_STAT.RXOVR n) = h.get (CAN_STAT.RXOVR n)))) ∧
      (¬ bad → mode = 0 → 127 < rec' → Completes (.canFrameReceived n id ctrl data tb false) s (fun t => 119 ≤ t.get (CAN_ECR.REC n) ∧ t.get (CAN_ECR.REC n) ≤ 127))) ∧
    (let runs := h.blockOn 0xF = true ∧ h.get (CAN_CTL.EN n) = 1
     let due := runs ∧ once = false ∧ h.get (CAN_ECR.STATE n) = 2 ∧ (h.get (CAN_CTL.AUTO_REC n) = 1 ∨ x.recov = true)
     (¬ runs ∨ (¬ due ∧ x.wait = false) → Becomes (.busOffRecovery n once) s h) ∧
     (runs → x.wait = true → Completes (.busOffRecovery n once) s (fun t => (t.can n).wait = false ∧ (t.can n).rxf = x.rxf)) ∧
     (due → Completes (.busOffRecovery n once) s (fun t => t.reads [(CAN_ECR.TEC n, 0), (CAN_ECR.REC n, 0), (CAN_ECR.STATE n, 0), (CAN_STAT.STATE_CHG n, 1)] ∧ (t.can n).recov = false ∧
       (t.can n).rxf = x.rxf)))) ∧
  (∀ (k : Hw) (n : Fin 2) (b : Nat), k.canNext n = some b →
    let id := fun (j : Nat) =>
      let w := k.rd (CAN_TXBUF n (20 * j))
      if w.getLsbD 29 then w.toNat % 2 ^ 29 else w.toNat / 2 ^ 18 % 2 ^ 11 * 2 ^ 18
    bitOf (k.get (CAN_TXREQ.BUF n)) b = true ∧ (∀ j, j < 16 → bitOf (k.get (CAN_TXREQ.BUF n)) j = true → id b < id j ∨ (id b = id j ∧ b ≤ j))) ∧
  (∀ (s : State) (acc : Access) (v : Word) (status : Byte) (data : List Byte) (cells : List (BitVec 28 × Byte)) (l : BitVec 22),
    let h := s.hw
    let x := h.xspi
    let on := h.blockOn 0x12 = true
    let m := h.get XSPI_NEG_RESULT.MODE
    let w := if m = 0 then (0, 0, 0) else if m = 1 then (0, 0, 2) else if m = 2 then (0, 2, 2) else if m = 3 then (2, 2, 2) else (3, 3, 3)
    let legal := h.get XSPI_NEG_RESULT.LINK_FLOOR = 0 ∧ x.cmd = none ∧ XSPI_ICMD.CMD_W.of v ≤ w.1 ∧ XSPI_ICMD.ADDR_W.of v ≤ w.2.1 ∧ XSPI_ICMD.DATA_W.of v ≤ w.2.2 ∧
      (XSPI_ICMD.DTR.of v = 0 ∨ m = 5)
    let ready := bitOf status.toNat (h.get XSPI_POLLCFG.POLL_BIT) = decide (h.get XSPI_POLLCFG.POLL_RDY = 1)
    let toWrite := if XSPI_ICMD.WRITE.of v = 1 then XSPI_ICMD.LEN.of v + 1 else 0
    let there := bitOf (h.get GPIO_BANK_STAT.PRESENT) 0
    (h.opens acc = true →
      (acc.tid ≠ 0 → Becomes (.icmd acc v) s h) ∧
      (acc.tid = 0 → ¬ legal → Becomes (.icmd acc v) s (h.set XSPI_STAT.ICMD_REJ 1)) ∧
      (acc.tid = 0 → legal → Becomes (.icmd acc v) s ({ h with xspi := { x with
        cmd := some v, polling := decide (XSPI_ICMD.POLL.of v = 1), tmo := false, fifo := x.fifo.drop toWrite, left := toWrite - x.fifo.length } }.set XSPI_STAT.BUSY 1))) ∧
    (¬ on ∨ x.polling = false ∨ ¬ ready → Becomes (.pollRead status) s h) ∧
    (on → x.polling = true → ready → Becomes (.pollRead status) s { h with xspi := { x with polling := false } }) ∧
    (¬ on ∨ x.polling = false → Becomes .pollTmo s h) ∧
    (on → x.polling = true → Becomes .pollTmo s ({ h with xspi := { x with polling := false, tmo := true } }.set XSPI_STAT.POLL_TMO 1)) ∧
    (¬ on ∨ x.cmd = none ∨ x.polling = true ∨ x.inq ≠ [] → Becomes (.icmdDone data cells) s h) ∧
    (on → x.polling = false → x.inq = [] → there = true → ∀ c, x.cmd = some c →
      let len := XSPI_ICMD.LEN.of c + 1
      let write := XSPI_ICMD.WRITE.of c = 1
      let room := 64 - x.fifo.length
      let a := 0x40000000 + h.get XSPI_IADDR.ADDR
      let k := h.get XSPI_INV_LEN.BYTES
      let took := fun (t : Hw) => (cells = [] → t.nvm = mcanon (fun _ => 0xFF) h.nvm) ∧ (∀ e q, cells = e :: q → q = [] → mget (fun _ => 0xFF) t.nvm e.1.toNat = e.2)
      (write ∨ (data.take len).length ≤ room → Completes (.icmdDone data cells) s (fun t => t.reads [(XSPI_STAT.BUSY, 0), (XSPI_STAT.DONE, 1)] ∧ t.xspi.cmd = none ∧
        t.xspi.fifo = (if XSPI_ICMD.WRITE.of c = 1 then x.fifo else x.fifo ++ data.take len) ∧ took t ∧
        (∀ e ∈ t.xspi.lines, e ∈ x.lines ∧ (k = 0 ∨ e.1 < a / 64 ∨ (a + k - 1) / 64 < e.1)))) ∧
      (¬ write → room < (data.take len).length → Completes (.icmdDone data cells) s (fun t => t.xspi.cmd = some c ∧ t.get XSPI_STAT.BUSY = h.get XSPI_STAT.BUSY ∧
        t.xspi.fifo = x.fifo ++ (data.take len).take room ∧ t.xspi.inq = (data.take len).drop room ∧ took t))) ∧
    (let line := 0x01000000 + l.toNat
     let waits := h.windowWaits (64 * line) = true
     let held := x.lines.any (fun e => e.1 == line)
     (¬ on ∨ h.get XSPI_NEG_RESULT.LINK_FLOOR = 1 ∨ waits ∨ held = true → Becomes (.windowRead l) s h) ∧
     (on → h.get XSPI_NEG_RESULT.LINK_FLOOR = 0 → ¬ waits → held = false → Completes (.windowRead l) s (fun t =>
       t.xspi.lines = mins line (if there then (List.range 64).map (fun i => mget (fun _ => 0xFF) h.nvm (64 * line + i - 0x40000000)) else freeBytes 64 h.freeCtr) x.lines ∧ t.regs = mcanon resetWord h.regs))))

/-- R355 to R363, R369: the sending half of the Ethernet ports. The stamp that an empty TXTS FIFO reads is a free value (log entry 101);
the time for which the credit of a cut frame has fallen is taken from TB, the model's choice (log entry 170). Readings of the model: log
entries 103 and 169. -/
def Obligations.EthernetPortsNegotiateAndSend : Prop :=
  (∀ (s : State) (acc : Access) (n : Fin 2) (q : Fin 8) (r : Fin 16) (v : Word) (maxlen : Bool), s.hw.opens acc = true →
    let h := s.hw
    let x := h.eth n
    let t0 := acc.tid = 0
    let tx := t0 ∨ acc.tid.toNat = h.get (ETH_TXQ_OWNER.TID_L n q)
    let rx := t0 ∨ acc.tid.toNat = h.get (ETH_RXQ_OWNER.TID_L n r)
    let on := h.get (ETH_CFG.EN n) = 1
    let muted := h.bistMutes (ETH_CFG n) = true
    let b := fun (m i : Nat) => if m ≤ h.get (ETH_LINK.CEIL n) ∧ (m ≠ 5 ∨ h.get (ETH_CFG.IF n) = 0) then 2 ^ i else 0
    (¬ t0 → Becomes (.mdioCmd acc n v) s h ∧ Becomes (.ethCfgWrite acc n maxlen v) s h ∧ Becomes (.lfEnable acc n v) s h) ∧
    (¬ tx → Becomes (.txqPush acc n q v) s h) ∧
    (tx → 64 ≤ (h.txq n q).length → Becomes (.txqPush acc n q v) s (h.set (ETH_STAT.TXQ_FULL n) 1)) ∧
    (tx → (h.txq n q).length < 64 → Completes (.txqPush acc n q v) s (fun t => t.txq n q = h.txq n q ++ [v] ∧ t.get (ETH_TXQ_STAT.DEPTH n q) = (h.txq n q).length + 1 ∧
      (∀ k, k < 8 → k = q.val ∨ t.txq n k = h.txq n k) ∧ SameMemory h t)) ∧
    (t0 → h.get (ETH_MDIO_STAT.BUSY n) = 1 → Becomes (.mdioCmd acc n v) s (h.set (ETH_MDIO_STAT.MDIO_REJ n) 1)) ∧
    (t0 → h.get (ETH_MDIO_STAT.BUSY n) = 0 → Becomes (.mdioCmd acc n v) s ((h.setEth n { x with mdio := some v }).set (ETH_MDIO_STAT.BUSY n) 1)) ∧
    (t0 → on → Becomes (.ethCfgWrite acc n maxlen v) s (h.set (ETH_STAT.CFG_REJ n) 1)) ∧
    (t0 → ¬ on → maxlen = false → Completes (.ethCfgWrite acc n maxlen v) s (fun t => t.reads [(ETH_CFG.EN n, b2n (v.getLsbD 0)), (ETH_CFG.IF n, b2n (v.getLsbD 1)),
      (ETH_CFG.TXDLY n, v.toNat / 4 % 16), (ETH_CFG.RXDLY n, v.toNat / 64 % 16), (ETH_CFG.RMII_REF n, b2n (v.getLsbD 10)), (ETH_CFG.PVID n, v.toNat / 65536 % 4096)])) ∧
    (t0 → ¬ on → maxlen = true → 64 ≤ v.toNat % 2 ^ 14 → v.toNat % 2 ^ 14 ≤ 9216 → Completes (.ethCfgWrite acc n maxlen v) s (fun t => t.get (ETH_MAXLEN.BYTES n) = v.toNat % 2 ^ 14)) ∧
    (t0 → v.toNat / 256 % 256 ≤ 5 → Completes (.lfEnable acc n v) s (fun t =>
      t.reads [(ETH_LF_CFG.EN n, b2n (v.getLsbD 0)), (ETH_LF_CFG.PHYAD n, v.toNat / 2 % 32), (ETH_LF_CFG.MANUAL n, v.toNat / 256 % 256)] ∧
      (h.get (ETH_LF_CFG.EN n) = 1 ∨ v.getLsbD 0 = false → t.eth n = x) ∧
      (h.get (ETH_LF_CFG.EN n) = 0 → v.getLsbD 0 = true → t.eth n = { x with adv := some (1 + b 1 5 + b 2 6 + b 3 7 + b 4 8, b 5 9, 2 ^ 12 + 2 ^ 9), up := false }))) ∧
    (muted → Becomes (.rxqPop acc n r) s { h with busData := 0 } ∧ Becomes (.txtsPop acc n) s { h with busData := 0 }) ∧
    (¬ rx ∨ (¬ muted ∧ h.rxq n r = []) → Becomes (.rxqPop acc n r) s { h with busData := 0 }) ∧
    (rx → ¬ muted → ∀ w l, h.rxq n r = w :: l → Completes (.rxqPop acc n r) s (fun t => t.busData = w ∧ t.rxq n r = l ∧ t.get (ETH_RXQ_STAT.LEVEL n r) = l.length % 64 ∧ SameMemory h t)) ∧
    (t0 → ¬ muted → x.ts = [] → Completes (.txtsPop acc n) s (fun t => t.busData = Config.freeValue h.freeCtr ∧ t.freeCtr = h.freeCtr + 1 ∧ t.eths = h.eths)) ∧
    (t0 → ¬ muted → ∀ e l, x.ts = e :: l → Completes (.txtsPop acc n) s (fun t => t.busData = BitVec.ofNat 32 e.tb ∧ t.eth n = { x with ts := l } ∧
      t.snap acc.who (grpTxts n) = (e.tb / 2 ^ 32 % 2 ^ 32, e.tag + 65536 * e.q + 2 ^ 24 * (l.length + 1))))) ∧
  (∀ (s : State) (n : Fin 2) (r1 r4 r5 r9 r10 data : BitVec 16),
    let h := s.hw
    let x := h.eth n
    let clocked := h.blockOn (0x13 + n) = true ∧ h.pwr.bermActive = false
    let up := r1.getLsbD 2 = true ∧ r1.getLsbD 5 = true
    let both := fun (i : Nat) => r4.getLsbD i && r5.getLsbD i
    let m := if r9.getLsbD 9 && r10.getLsbD 11 then 5 else if both 8 then 4 else if both 7 then 3 else if both 6 then 2 else if both 5 then 1 else 0
    let old := h.get (ETH_NEG_RESULT.MODE n)
    let follows := h.get (ETH_LF_CFG.EN n) = 1
    let man := h.get (ETH_LF_CFG.MANUAL n)
    let shows := fun (t : Hw) (mode : Nat) (link cut rises : Bool) =>
      t.reads [(ETH_NEG_RESULT.MODE n, mode), (ETH_NEG_RESULT.LINK n, b2n link), (ETH_STAT.LINK_CHG n, if mode = old then h.get (ETH_STAT.LINK_CHG n) else 1),
        (ETH_NEG_RESULT.FLOOR n, if rises = true ∧ mode ≠ 0 then b2n (decide (mode < h.get (ETH_LINK.FLOOR n))) else h.get (ETH_NEG_RESULT.FLOOR n)),
        (ETH_TX_ERR.COUNT n, if x.tx ≠ none ∧ cut = true then min (h.get (ETH_TX_ERR.COUNT n) + 1) (2 ^ 32 - 1) else h.get (ETH_TX_ERR.COUNT n))] ∧
      (t.eth n).mac = (if link = false then 0 else if rises then mode else x.mac) ∧
      (t.eth n).tx = (if cut then none else x.tx) ∧ (t.eth n).txq = x.txq ∧ (t.eth n).rxq = x.rxq ∧ SameMemory h t
    let linked := decide (h.get (ETH_NEG_RESULT.LINK n) = 1)
    (¬ clocked → Becomes (.lfPoll n r1 r4 r5 r9 r10) s h ∧ Becomes (.mdioDone n data) s h ∧ Becomes (.fuMiss n) s h) ∧
    (clocked →
      (follows → ¬ up → Completes (.lfPoll n r1 r4 r5 r9 r10) s (fun t => shows t 0 false true false ∧ (t.eth n).up = false)) ∧
      (follows → up → x.up = false → Completes (.lfPoll n r1 r4 r5 r9 r10) s (fun t => shows t m true linked true ∧ (t.eth n).up = true)) ∧
      (follows → up → x.up = true → Completes (.lfPoll n r1 r4 r5 r9 r10) s (fun t => t.eth n = x ∧ t.regs = mcanon resetWord h.regs)) ∧
      (¬ follows → Completes (.lfPoll n r1 r4 r5 r9 r10) s (fun t => shows t man (decide (man ≠ 0)) (decide (man = 0)) (decide (man ≠ 0) && !linked) ∧ (t.eth n).up = x.up)) ∧
      (x.mdio = none → Becomes (.mdioDone n data) s h) ∧
      (∀ c, x.mdio = some c → Completes (.mdioDone n data) s (fun t => t.reads [(ETH_MDIO_STAT.BUSY n, 0), (ETH_MDIO_STAT.DONE n, 1),
        (ETH_MDIO_STAT.DATA n, if c.toNat / 2048 % 4 = 2 ∨ (c.toNat / 2048 % 4 = 3 ∧ c.getLsbD 10 = true) then data.toNat else h.get (ETH_MDIO_STAT.DATA n))] ∧
        t.eth n = { x with mdio := none })) ∧
      (x.syncs = [] → Becomes (.fuMiss n) s h) ∧
      (x.syncs ≠ [] → Completes (.fuMiss n) s (fun t => t.eth n = { x with syncs := x.syncs.drop 1 } ∧
        t.get (ETH_FU_MISS.COUNT n) = min (h.get (ETH_FU_MISS.COUNT n) + 1) (2 ^ 32 - 1))))) ∧
  (∀ (k : Hw) (n : Fin 2) (q ns : Nat), q = 6 ∨ q = 7 →
    let slope := k.get (ETH_TXQ_IDLESLOPE.KBPS_L n q)
    let mode := (k.eth n).mac
    let rate := if mode = 0 then 0 else if mode ≤ 2 then 10000 else if mode ≤ 4 then 100000 else 1000000
    let shaped := k.get (ETH_TXQ_IDLESLOPE.CBS_EN_L n q) = 1 ∧ slope < rate
    let c := k.credit n q
    let lim := fun (i : Int) => max (-(2 ^ 31 * 1000000)) (min (2 ^ 31 * 1000000) i)
    let rises := (k.creditRise n q ns).credit n q
    (shaped → k.txq n q ≠ [] → rises = lim (c + slope * ns)) ∧
    (shaped → k.txq n q = [] → c < 0 → rises = lim (min 0 (c + slope * ns))) ∧
    (shaped → k.txq n q = [] → 0 ≤ c → k.creditRise n q ns = k) ∧
    (shaped → (k.creditFall n q ns).credit n q = lim (c - (rate - slope : Nat) * ns)) ∧
    (¬ shaped → k.creditRise n q ns = k ∧ k.creditFall n q ns = k) ∧
    (k.txq n q = [] → 0 < c → (k.creditEmpty n q).credit n q = 0) ∧
    (k.txq n q ≠ [] ∨ c ≤ 0 → k.creditEmpty n q = k)) ∧
  (∀ (k : Hw) (n : Fin 2) (q : Nat), k.txPick n = some q →
    k.txq n q ≠ [] ∧ (k.shaped n q = true → 0 ≤ k.credit n q) ∧ (∀ j, j < 8 → j ≤ q ∨ k.txq n j = [] ∨ (k.shaped n j = true ∧ k.credit n j < 0))) ∧
  (∀ (s : State) (n : Fin 2) (w6 w7 ns other : Nat) (ok : Bool),
    let h := s.hw
    let e := h.eth n
    let on := h.blockOn (0x13 + n) = true ∧ h.pwr.bermActive = false ∧ h.get (ETH_CFG.EN n) = 1 ∧ h.get (ETH_NEG_RESULT.LINK n) = 1 ∧ e.mac ≠ 0 ∧
      h.get (ETH_NEG_RESULT.FLOOR n) = 0
    let off := h.ethOffRate n = true
    let idle := e.tx = none ∧ h.drained 2 = false ∧ h.blockOn 0xA = true
    let k := ((h.cbsCheck n).creditRise n 6 w6).creditRise n 7 w7
    (off → exec (.txFrameStart n w6 w7) s = .fault .undefinedClockRatios) ∧
    (¬ off → ¬ on ∨ ¬ idle → Becomes (.txFrameStart n w6 w7) s h) ∧
    (¬ off → on → idle →
      (k.txPick n = none → Becomes (.txFrameStart n w6 w7) s k) ∧
      (∀ q, k.txPick n = some q →
        let w := (k.txq n q).headD 0
        let tid := k.get (ETH_TXQ_OWNER.TID_L n q)
        let a := k.handleAddr tid (iniEth n) 4 w
        let only := (k.txq n q).length = 1 ∧ (∀ j, j < 8 → j = q ∨ k.txq n j = [])
        (only → a.2 = none → Completes (.txFrameStart n w6 w7) s (fun t => t.get (ETH_STAT.BAD_DESC n) = 1 ∧ t.txq n q = [] ∧ (t.eth n).tx = none ∧ SameMemory a.1 t)) ∧
        (∀ adr, a.2 = some adr → ∀ hd, (a.1.dmaRead tid (iniEth n) adr 16).2 = .ok hd →
          let b := (a.1.dmaRead tid (iniEth n) adr 16).1
          let len := fieldB hd 0 2
          let fl := fieldB hd 2 1
          let vlan := bitOf fl 1
          let legal := 14 ≤ len ∧ len + 4 + (if vlan then 4 else 0) ≤ b.get (ETH_MAXLEN.BYTES n) ∧ fl < 8 ∧ fieldB hd 3 1 = 0 ∧ fieldB hd 8 8 = 0
          let freed := b.portFree tid (iniEth n) w
          (only → ¬ legal → Becomes (.txFrameStart n w6 w7) s ((freed.set (ETH_STAT.BAD_DESC n) 1).txqDrop n q)) ∧
          (legal → ∀ fr, (b.dmaRead tid (iniEth n) (adr + 16) len).2 = .ok fr →
            let c := (b.dmaRead tid (iniEth n) (adr + 16) len).1
            let tci := fieldB hd 4 2
            let tagged := if vlan then fr.take 12 ++ [0x81, 0x00, BitVec.ofNat 8 (tci / 256), BitVec.ofNat 8 tci] ++ fr.drop 12 else fr
            let lat := c.get (ETH_EGRESS_LAT.NS n)
            Completes (.txFrameStart n w6 w7) s (fun t => t.eth n = { c.eth n with tx := some ⟨q, w, fl, fieldB hd 6 2,
                ((c.clk.tb.toNat + lat + (if lat < 2 ^ 15 then 0 else 2 ^ 64 - 2 ^ 16)) % 2 ^ 64), c.clk.tb, tagged ++ List.replicate (60 - tagged.length) 0⟩ } ∧ SameMemory c t))))) ∧
    (¬ on ∨ e.tx = none → Becomes (.txFrameDone n ns other ok) s h) ∧
    (on → ∀ x, e.tx = some x → x.q < 8 → h.shaped n 6 = false → h.shaped n 7 = false →
      let tid := h.get (ETH_TXQ_OWNER.TID_L n x.q)
      let k := h.setEth n { e with tx := none, sent := if ok && bitOf (h.get GPIO_BANK_STAT.PRESENT) 1 then some x.wire else e.sent }
      let f := if bitOf x.flags 2 then k else k.portFree tid (iniEth n) x.hdl
      let y := f.eth n
      Completes (.txFrameDone n ns other ok) s (fun t => SameMemory f t ∧ t.pools = f.pools ∧ t.txq n x.q = (f.txq n x.q).drop 1 ∧
        (t.eth n).tx = y.tx ∧ (t.eth n).sent = y.sent ∧
        (ok = true → t.get (ETH_TX_OK.COUNT n) = min (f.get (ETH_TX_OK.COUNT n) + 1) (2 ^ 32 - 1) ∧ t.get (ETH_STAT.TX n) = 1 ∧
          (bitOf x.flags 0 = false → (t.eth n).ts = y.ts) ∧
          (bitOf x.flags 0 = true → y.ts.length < 16 → (t.eth n).ts = y.ts ++ [⟨x.tag, x.q, x.tb⟩]) ∧
          (bitOf x.flags 0 = true → 16 ≤ y.ts.length → (t.eth n).ts = y.ts ∧ t.get (ETH_STAT.TS_OVR n) = 1)) ∧
        (ok = false → t.get (ETH_TX_ERR.COUNT n) = min (f.get (ETH_TX_ERR.COUNT n) + 1) (2 ^ 32 - 1) ∧ (t.eth n).ts = y.ts))))

/-- R355, R364 to R366, R368 to R370: the receiving half of the Ethernet ports. Readings of the model: log entries 101, 102 and 169. -/
def Obligations.EthernetPortsClassifyAndDeliver : Prop :=
  (∀ (s : State) (n : Fin 2) (bs : List Byte) (fcsOk : Bool),
    let h := s.hw
    let on := h.ethOn n = true ∧ bitOf (h.get GPIO_BANK_STAT.PRESENT) 1 = true
    let off := h.ethOffRate n = true
    let lat := h.get (ETH_INGRESS_LAT.NS n)
    let t2 := h.clk.tb - BitVec.ofNat 64 (lat + (if lat < 2 ^ 15 then 0 else 2 ^ 64 - 2 ^ 16))
    let bad := fcsOk = false ∨ bs.length + 4 < 64 ∨ h.get (ETH_MAXLEN.BYTES n) < bs.length + 4
    let tagged := decide (beField bs 12 2 = 0x8100)
    let f : EthFrame := if tagged then ⟨bs, true, beField bs 14 2, beField bs 16 2, 18⟩ else ⟨bs, false, h.get (ETH_CFG.PVID_L n), beField bs 12 2, 14⟩
    let ptp := decide (h.ptpType n f = some 0) || decide (h.ptpType n f = some 2) || decide (h.ptpType n f = some 3)
    let k := h.ptpExamine n f t2
    let first := (List.range 128).find? (fun j => k.ruleHolds n j f)
    (off → exec (.rxFrame n bs fcsOk) s = .fault .undefinedClockRatios) ∧
    (¬ off → ¬ on → Becomes (.rxFrame n bs fcsOk) s h) ∧
    (¬ off → on →
      (bad → Becomes (.rxFrame n bs fcsOk) s (h.inc (ETH_RX_BAD.COUNT n))) ∧
      (¬ bad → f.etype = 0x8808 → Becomes (.rxFrame n bs fcsOk) s (h.inc (ETH_PAUSE_DROP.COUNT n))) ∧
      (¬ bad → f.etype ≠ 0x8808 →
        (first = none → Becomes (.rxFrame n bs fcsOk) s ((k.inc (ETH_RX_NOMATCH.COUNT n)).set (ETH_STAT.CLS_DROP n) 1)) ∧
        (∀ j, first = some j →
          let k := k.inc (ETH_RULE_HITS.COUNT n j)
          let tid := k.get (ETH_RULE_CTL.TENANT_L n j)
          let r := k.get (ETH_RULE_CTL.RXQ_L n j)
          let hd := leBytes 2 bs.length ++ leBytes 1 j ++ leBytes 1 (b2n tagged + 2 * b2n ptp + 4 * b2n k.inTransition + 8 * b2n (k.on CLK_TB_STAT.COARSE)) ++ leBytes 2 f.tci ++
            leBytes 1 n ++ leBytes 1 k.tgen ++ leBytes 8 t2.toNat ++ List.replicate 16 0
          let a := k.allocNow (k.get (ETH_RULE_CTL.POOL_L n j)) tid false
          let freed := fun (g : Hw) => g.portFree tid (iniEth n) a.2
          let size := a.1.poolSize (hdlPool a.2)
          let d := a.1.dmaWrite tid (iniEth n) (a.1.bufAddr a.2) (hd ++ bs)
          (k.get (ETH_RULE_CTL.DROP_L n j) = 1 → Becomes (.rxFrame n bs fcsOk) s (k.set (ETH_STAT.CLS_DROP n) 1)) ∧
          (k.get (ETH_RULE_CTL.DROP_L n j) = 0 →
            (hdlV a.2 = false → Becomes (.rxFrame n bs fcsOk) s (a.1.inc (ETH_RX_NOBUF.COUNT n))) ∧
            (hdlV a.2 = true → size < 32 + bs.length → Becomes (.rxFrame n bs fcsOk) s ((freed a.1).inc (ETH_RX_BIG.COUNT n))) ∧
            (hdlV a.2 = true → 32 + bs.length ≤ size → d.2 ≠ none → Becomes (.rxFrame n bs fcsOk) s (freed d.1)) ∧
            (hdlV a.2 = true → 32 + bs.length ≤ size → d.2 = none →
              let g := (d.1.setBufLen a.2 (32 + bs.length)).set (ETH_STAT.RX n) 1
              (32 ≤ (g.rxq n r).length → Becomes (.rxFrame n bs fcsOk) s ((freed g).inc (ETH_RXQ_OVR.COUNT n))) ∧
              ((g.rxq n r).length < 32 → Completes (.rxFrame n bs fcsOk) s (fun t => SameMemory g t ∧ t.pools = g.pools ∧ t.rxq n r = g.rxq n r ++ [a.2] ∧
                t.reads [(ETH_RXQ_STAT.LEVEL n r, (g.rxq n r).length + 1), (ETH_STAT.RX n, 1)])))))))) ∧
  (∀ (k : Hw) (n : Fin 2) (j : Nat) (f : EthFrame),
    let i := k.get (ETH_RULE_CTL.DA_SEL_L n j)
    let ihl := beField f.bytes f.off 1 % 16 * 4
    let udp := f.etype = 0x0800 ∧ beField f.bytes f.off 1 / 16 = 4 ∧ beField f.bytes (f.off + 9) 1 = 17 ∧ beField f.bytes (f.off + 6) 2 % 2 ^ 13 = 0 ∧
      f.off + ihl + 4 ≤ f.bytes.length ∧ beField f.bytes (f.off + ihl + 2) 2 = k.get (ETH_RULE_PORT.UDP_L n j)
    let holds := k.get (ETH_RULE_CTL.EN_L n j) = 1 ∧
      (k.get (ETH_RULE_CTL.M_DA_L n j) = 0 ∨ (k.get (ETH_DAF_HI.EN_L n i) = 1 ∧ fieldB f.bytes 0 6 = k.get (ETH_DAF_LO.ADDR_L n i) + 2 ^ 32 * k.get (ETH_DAF_HI.ADDR_L n i))) ∧
      (k.get (ETH_RULE_CTL.M_ETYPE_L n j) = 0 ∨ f.etype = k.get (ETH_RULE_MATCH.ETYPE_L n j)) ∧
      (k.get (ETH_RULE_CTL.M_VID_L n j) = 0 ∨ f.tci % 4096 = k.get (ETH_RULE_MATCH.VID_L n j)) ∧
      (k.get (ETH_RULE_CTL.M_PCP_L n j) = 0 ∨ f.tci / 8192 = k.get (ETH_RULE_CTL.PCP_L n j)) ∧ (k.get (ETH_RULE_CTL.M_UDP_L n j) = 0 ∨ udp)
    (holds → k.ruleHolds n j f = true) ∧ (¬ holds → k.ruleHolds n j f = false)) ∧
  (∀ (k : Hw) (n : Fin 2) (f : EthFrame) (t2 : BitVec 64),
    let p := f.off
    let kind := beField f.bytes p 1 % 16
    let seq := beField f.bytes (p + 30) 2
    let ident := sliceB f.bytes (p + 20) 10
    let mine := f.etype = 0x88F7 ∧ beField f.bytes p 1 / 16 = 1 ∧ beField f.bytes (p + 4) 1 = k.get (ETH_PTP_CFG.DOMAIN_L n)
    let slave := k.get CLK_SRV_CFG.PORT_L = n.val ∧ k.get (ETH_PTP_CFG.SLAVE_L n) = 1
    let corr := beField f.bytes (p + 8) 8
    let asym := k.get (ETH_ASYM.NS n)
    let gm := beField f.bytes (p + 34) 6 * 1000000000 + beField f.bytes (p + 40) 4 + k.get (ETH_MEAN_DELAY.NS n) + corr / 65536 +
      (if corr < 2 ^ 63 then 0 else 2 ^ 64 - 2 ^ 48) + asym + (if asym < 2 ^ 15 then 0 else 2 ^ 64 - 2 ^ 16)
    let x := k.eth n
    let none' := k.setEth n { x with syncs := [] }
    (mine → k.ptpType n f = some kind) ∧ (¬ mine → k.ptpType n f = none) ∧
    (¬ slave ∨ ¬ mine ∨ (kind ≠ 0 ∧ kind ≠ 8) → k.ptpExamine n f t2 = k) ∧
    (slave → mine →
      (kind = 0 → k.ptpExamine n f t2 = k.setEth n { x with syncs := x.syncs ++ [⟨seq, ident, t2⟩] }) ∧
      (kind = 8 → x.syncs = [] → k.ptpExamine n f t2 = none') ∧
      (kind = 8 → k.get (ETH_PTP_CFG.PORTID_EN_L n) = 0 → x.syncs.length = 1 → ∀ y l, x.syncs = y :: l →
        let e := (y.t2 - BitVec.ofNat 64 gm).toInt
        (y.seq = seq → y.ident = ident → k.ptpExamine n f t2 = (none'.inc (ETH_PTP_SAMPLES.COUNT n)).svSample e) ∧
        (y.seq ≠ seq ∨ y.ident ≠ ident → k.ptpExamine n f t2 = none'.inc (ETH_FU_MISS.COUNT n)))))

/-- R376 to R383, R386 to R396: the Polder island. Readings of the model: log entries 35, 91, 104, 106, 159, 171 and 172. -/
def Obligations.PolderIslandScansTripsLogsAndHandsOver : Prop :=
  (∀ (s : State) (acc : Access) (b : Fin 4) (v : Word) (elapsed : Nat) (below : Bool),
    let h := s.hw
    let pol := acc.who = .polder
    let alive := h.pwr.polderLow = false
    let reach := if acc.who = .polder then h.pwr.polderLow = false ∧ h.pol.run = .running ∧ h.busHeld .polder = false else h.opens acc = true
    let stay := if acc.who = .polder then h else h.shutTo acc
    let tested := h.bistRuns 0xA = true
    let may := pol ∨ acc.tid = 0
    let count := (h.get POL_LOG_HEAD.ISEQ + 2 ^ 32 - h.get POL_LOG_TAIL.ISEQ) % 2 ^ 32
    let full := h.get POL_LOG_RING.SIZE ≤ count
    let q := h.get POL_LOG_HEAD.ISEQ
    let slot := 0x30100000 + 64 * (h.get POL_LOG_RING.BASE + (2 ^ 32 * h.logEra + q) % max 1 (h.get POL_LOG_RING.SIZE))
    let lost := min (h.get POL_LOG_DROPPED.COUNT + 1) 65535
    let logged := fun (t : Hw) (ty info : Nat) =>
      (h.get POL_LOG_CFG.EN = 0 → t.reads [(POL_LOG_HEAD.ISEQ, q), (POL_LOG_TAIL.ISEQ, h.get POL_LOG_TAIL.ISEQ), (POL_LOG_DROPPED.COUNT, h.get POL_LOG_DROPPED.COUNT)] ∧ SameMemory h t) ∧
      (h.get POL_LOG_CFG.EN = 1 → full → h.get POL_LOG_CFG.WRAP = 0 → t.reads [(POL_LOG_HEAD.ISEQ, q), (POL_LOG_TAIL.ISEQ, h.get POL_LOG_TAIL.ISEQ), (POL_LOG_DROPPED.COUNT, lost)] ∧ SameMemory h t) ∧
      (h.get POL_LOG_CFG.EN = 1 → ¬ full ∨ h.get POL_LOG_CFG.WRAP = 1 →
        t.reads [(POL_LOG_HEAD.ISEQ, (q + 1) % 2 ^ 32), (POL_LOG_TAIL.ISEQ, if full then (h.get POL_LOG_TAIL.ISEQ + 1) % 2 ^ 32 else h.get POL_LOG_TAIL.ISEQ),
          (POL_LOG_DROPPED.COUNT, if full then lost else h.get POL_LOG_DROPPED.COUNT)] ∧
        Stored h t slot (t.bytes slot 64) ∧ t.byte slot = BitVec.ofNat 8 ty ∧ t.byte (slot + 1) = BitVec.ofNat 8 info ∧ t.loadN (slot + 4) 4 = q)
    let tripped := fun (t : Hw) (cause : Nat) => t.reads [(POL_TRIP_STAT.TRIPPED, 1), (POL_TRIP_STAT.CAUSE, cause), (POL_TRIP_STAT.TRIP_EVT, 1)] ∧ bitOf (t.get POL_CORE_PEND.PEND) 9 = true
    let started := fun (t : Hw) (cause : Nat) => t.reads [(POL_STAT.CORE_RUN, 1), (POL_STAT.CORE_HELD, 0), (POL_RST_CAUSE.CAUSE, cause), (POL_WDP_CTL.EN, 0), (DBG_C_STAT.HALTED 2, 0)] ∧
      t.rd PWR_SEAL_GEN = h.rd PWR_SEAL_GEN ∧ t.rd PWR_SEAL_CRC = h.rd PWR_SEAL_CRC ∧
      t.pol = { run := .running, sstat := 0x11, pc := h.rd POL_CORE_PC, ssp := h.rd POL_CORE_SSP, vbase := h.rd POL_CORE_VBASE }
    let asks := fun (t : Hw) (src : Nat) => t.reads [(POL_HAND.REQ, 1), (POL_HAND.REQ_SRC, if h.get POL_HAND.REQ = 1 then h.get POL_HAND.REQ_SRC else src)] ∧
      t.pwr.phase = (if h.pwr.phase = .off then .vcoreRamp else h.pwr.phase) ∧ SameMemory h t
    let held := h.get POL_STAT.CORE_HELD = 1
    let down := h.get POL_TRIP_STAT.TRIPPED = 1
    let mode := h.get POL_HAND.MODE
    let tripping := (List.range 32).any (fun r => bitOf (h.get POL_RULE_ACTIVE.RULES) r && decide (h.get (POL_RULE_CFG.TRIP_L r) = 1))
    let source := if acc.who = .polder then 2 ≤ h.get POL_TRIP_CFG.REL_SRC_L else h.get POL_TRIP_CFG.REL_SRC_L % 2 = 1
    let irc := h.pwr.phase ≠ .unpowered ∨ (h.get (uf UART_CFG.EN 6) = 1 ∧ h.get (uf UART_CFG.CLKSRC 6) = 0) ∨ h.bak.lsxRun = false ∨ h.get CLK_STAT.LSX_FAIL = 1
    let counts := h.get POL_WDP_CTL.EN = 1 ∧ alive ∧ ¬ held ∧ h.pol.run ≠ .halted ∧ h.pol.run ≠ .held ∧ (h.pol.run = .waiting → irc)
    let count' := h.get POL_WDP_COUNT.VALUE
    let stands := fun (t : Hw) => (counts → t.get POL_WDP_COUNT.VALUE = count' - elapsed) ∧ (¬ counts → t.get POL_WDP_COUNT.VALUE = count') ∧ t.pol = h.pol ∧ SameMemory h t
    let expired := fun (t : Hw) => t.reads [(POL_WDP_COUNT.VALUE, 0), (POL_STAT.WDP_RESET, 1)] ∧ started t 3 ∧
      (h.get POL_TRIP_CFG.ON_WDP_L = 1 → ¬ down → tripped t 4) ∧ (h.get POL_TRIP_CFG.ON_WDP_L = 0 ∨ down → logged t 6 0 ∧ t.get POL_TRIP_STAT.CAUSE = h.get POL_TRIP_STAT.CAUSE)
    let core := alive ∧ h.pol.run = .running ∧ h.busHeld .polder = false
    (∀ i ∈ [Instr.bqClr acc b, .trip acc, .release acc below, .polCoreStart acc, .polCoreReset acc, .handTake acc, .handGive acc, .handReqClear acc, .polDb acc],
      (¬ reach → Becomes i s stay) ∧ (reach → ¬ may → Becomes i s h)) ∧
    (reach → may →
      Becomes (.bqClr acc b) s (h.setBq b { x1 := 0, x2 := 0, y1 := 0, y2 := 0 }) ∧
      (tested → Becomes (.release acc below) s h) ∧
      (tested ∨ down → Becomes (.trip acc) s h) ∧
      (¬ tested → ¬ down → Completes (.trip acc) s (fun t => tripped t (if acc.who = .polder then 3 else 2) ∧ logged t 3 (if acc.who = .polder then 3 else 2))) ∧
      (¬ tested → ¬ source ∨ tripping = true ∨ below = true ∨ ¬ alive → Becomes (.release acc below) s (h.set POL_TRIP_STAT.REL_REJ 1)) ∧
      (¬ tested → source → tripping = false → below = false → alive → ¬ down → Becomes (.release acc below) s h) ∧
      (¬ tested → source → tripping = false → below = false → alive → down → Completes (.release acc below) s (fun t => logged t 4 0 ∧
        t.reads [(POL_TRIP_STAT.TRIPPED, 0), (POL_TRIP_STAT.TRIP_EVT, h.get POL_TRIP_STAT.TRIP_EVT), (POL_TRIP_STAT.REL_REJ, h.get POL_TRIP_STAT.REL_REJ)])) ∧
      (mode = 1 → Becomes (.handGive acc) s h) ∧
      (mode = 0 → Completes (.handGive acc) s (fun t => t.get POL_HAND.MODE = 1 ∧ logged t 7 1 ∧ bitOf (t.get POL_CORE_PEND.PEND) 6 = true)) ∧
      (pol ∨ mode = 0 → Becomes (.handTake acc) s h) ∧
      (¬ pol → mode = 1 → Completes (.handTake acc) s (fun t => t.get POL_HAND.MODE = 0 ∧ logged t 7 0 ∧ bitOf (t.get POL_CORE_PEND.PEND) 6 = true)) ∧
      (pol ∨ ¬ alive → Becomes (.polCoreStart acc) s h ∧ Becomes (.polCoreReset acc) s h) ∧
      (¬ held → Becomes (.polCoreStart acc) s h) ∧
      (¬ pol → alive → held → Completes (.polCoreStart acc) s (fun t => started t (h.get POL_RST_CAUSE.CAUSE) ∧ SameMemory h t)) ∧
      (¬ pol → alive → Completes (.polCoreReset acc) s (fun t => started t 4 ∧ SameMemory h t)) ∧
      (¬ pol → Becomes (.handReqClear acc) s (h.set POL_HAND.REQ 0) ∧ Becomes (.polDb acc) s (h.set POL_MBX_CTL.POL_DB 1))) ∧
    (¬ reach → Becomes (.wdpKick acc v elapsed) s stay) ∧
    (reach → counts → count' < elapsed → Completes (.wdpKick acc v elapsed) s (fun t => expired t)) ∧
    (reach → ¬ counts ∨ elapsed ≤ count' →
      (¬ pol → Completes (.wdpKick acc v elapsed) s (fun t => stands t)) ∧
      (pol → v ≠ 0x4B1D → Completes (.wdpKick acc v elapsed) s (fun t => expired t)) ∧
      (pol → v = 0x4B1D → h.get POL_WDP_CTL.EN = 0 → Completes (.wdpKick acc v elapsed) s (fun t => stands t)) ∧
      (pol → v = 0x4B1D → h.get POL_WDP_CTL.EN = 1 → Completes (.wdpKick acc v elapsed) s (fun t => t.get POL_WDP_COUNT.VALUE = h.get POL_WDP_LOAD.VALUE ∧ t.pol = h.pol ∧ SameMemory h t))) ∧
    (¬ counts → Becomes .wdpExpiry s h) ∧ (counts → Completes .wdpExpiry s (fun t => expired t)) ∧
    (¬ core → Becomes .handReqSet s h ∧ Becomes .logPush s h ∧ Becomes .mainDb s h) ∧
    (core → Completes .handReqSet s (fun t => asks t 2) ∧ Completes .logPush s (fun t => logged t 5 0) ∧ Becomes .mainDb s (h.set POL_MBX_CTL.MAIN_DB 1)) ∧
    (let stalls := alive ∧ h.get POL_ADC_CFG.EN_L = 1 ∧ h.get POL_TRIP_CFG.ON_STALL_L = 1 ∧ h.bistRuns 0xA = false
     (¬ stalls ∨ down → Becomes .scanStall s h) ∧ (stalls → ¬ down → Completes .scanStall s (fun t => tripped t 5 ∧ logged t 3 5))) ∧
    (∀ f, f = v.getLsbD 0 →
      let met := alive ∧ h.get POL_WAKE_CFG.FALLING = b2n f
      (¬ met → Becomes (.wakeInEdge f) s h) ∧
      (met → Completes (.wakeInEdge f) s (fun t => bitOf (t.get POL_CORE_PEND.PEND) 5 = true ∧ (h.get POL_WAKE_CFG.EN = 1 → asks t 3) ∧
        (h.get POL_WAKE_CFG.EN = 0 → t.get POL_HAND.REQ = h.get POL_HAND.REQ ∧ t.pwr = h.pwr)))) ∧
    (¬ alive → Becomes .polderBrownOut s h) ∧
    (alive → Completes .polderBrownOut s (fun t => t.pwr.polderLow = true ∧ t.pol.run = .held ∧ t.pol.resv = none ∧ t.pol.pc = h.pol.pc ∧ t.get POL_STAT.CORE_RUN = 0 ∧
      (¬ down → tripped t 6 ∧ logged t 3 6) ∧ (down → t.get POL_TRIP_STAT.CAUSE = h.get POL_TRIP_STAT.CAUSE ∧ SameMemory h t))) ∧
    (alive → Becomes .polderBrownOutRecovery s h) ∧
    (¬ alive → held → Becomes .polderBrownOutRecovery s { h with pwr := { h.pwr with polderLow := false } }) ∧
    (¬ alive → ¬ held → Completes .polderBrownOutRecovery s (fun t => t.pwr.polderLow = false ∧ started t 2 ∧ SameMemory h t))) ∧
  (∀ (s : State) (k : Fin 8) (level late wake : Bool) (codes : List (BitVec 12)) (pins : Byte) (lsx irc : Nat),
    let h := s.hw
    let alive := h.pwr.polderLow = false
    let edges := h.get POL_PGPIO_EDGE.EN
    let scans := alive ∧ h.get POL_ADC_CFG.EN_L = 1 ∧ h.bistRuns 0xA = false
    let n := h.get POL_ADC_CFG.LEN_L
    let offers := h.get POL_STAT.MAIN_UP = 1 ∧ h.get POL_LOG_CFG.DRAIN_EN = 1 ∧ h.get POL_LOG_HEAD.ISEQ ≠ h.get POL_LOG_TAIL.ISEQ
    let q := h.get POL_LOG_TAIL.ISEQ
    let m := h.get POL_LOG_CFG.STREAM
    let era := if h.get POL_LOG_HEAD.ISEQ < q then h.logEra - 1 else h.logEra
    let slot := 0x30100000 + 64 * (h.get POL_LOG_RING.BASE + (2 ^ 32 * era + q) % max 1 (h.get POL_LOG_RING.SIZE))
    let offered := fun (t : Hw) => t.drainSeq = q ∧ t.get POL_LOG_TAIL.ISEQ = q ∧ SameMemory h t ∧
      (h.appendQ.length < 64 → t.drain = .queued ∧ t.appendQ = h.appendQ ++ [.bytes m (h.bytes slot 56) true]) ∧
      (64 ≤ h.appendQ.length → t.drain = .retry ∧ t.appendQ = h.appendQ ∧ t.reads [(MRC_LS_STAT.ERR m, 1), (MRC_LS_STAT.ERRCODE m, lsQueueFull)])
    (¬ alive → Becomes (.pgpioEdge k level) s h) ∧
    (alive → Completes (.pgpioEdge k level) s (fun t => bitOf (t.get POL_PGPIO_IN.PINS) k = level ∧ (∀ j, j < 8 → j = k.val ∨ bitOf (t.get POL_PGPIO_IN.PINS) j = bitOf (h.get POL_PGPIO_IN.PINS) j) ∧
      bitOf (t.get POL_PGPIO_EDGE.EVT) k = (bitOf (h.get POL_PGPIO_EDGE.EVT) k || bitOf edges k) ∧ t.get POL_PGPIO_EDGE.EN = edges)) ∧
    (¬ alive ∨ ¬ offers ∨ h.drain ≠ .idle → Becomes .logDrain s h) ∧
    (alive → offers → h.drain = .idle → Completes .logDrain s (fun t => offered t)) ∧
    (¬ alive ∨ h.drain ≠ .retry → Becomes .drainRetry s h) ∧
    (alive → h.drain = .retry → ¬ offers → Becomes .drainRetry s { h with drain := .idle }) ∧
    (alive → h.drain = .retry → offers → Completes .drainRetry s (fun t => offered t)) ∧
    (¬ scans → Becomes (.scanStart codes pins wake late lsx irc) s h) ∧
    (scans → late = true → Completes (.scanStart codes pins wake late lsx irc) s (fun t => t.get POL_STAT.SCAN_SKIP = 1 ∧ t.bqs = h.bqs ∧ SameMemory h t ∧
      t.bak.retLsx = (if h.clk.tbRun = true then h.bak.retLsx else h.bak.retLsx + lsx))) ∧
    (scans → late = false → Completes (.scanStart codes pins wake late lsx irc) s (fun t => t.get POL_PGPIO_IN.PINS = pins.toNat ∧ bitOf (t.get POL_CORE_PEND.PEND) 1 = true ∧
      (∀ i, i < 16 → t.get (POL_ADC_RES.CODE i) = if i < n then (codes.getD (h.get (POL_ADC_SLOT.SRC_L i)) 0).toNat else h.get (POL_ADC_RES.CODE i)) ∧
      ((∀ b ∈ List.range 4, h.get (POL_BQ_CFG.EN_L b) = 0) → t.bqs = h.bqs) ∧
      ((∀ r ∈ List.range 32, h.get (POL_RULE_CFG.EN_L r) = 0) → SameMemory h t ∧ t.get POL_TRIP_STAT.TRIPPED = h.get POL_TRIP_STAT.TRIPPED)))) ∧
  (∀ (k : Hw) (b : Fin 4),
    let x := k.bq b
    let i := k.get (POL_BQ_CFG.INPUT_L b)
    let sg := fun (f : Fld) => sgn 16 (k.get f)
    let v : Int := if i < k.get POL_ADC_CFG.LEN_L then 8 * (k.get (POL_ADC_RES.CODE i) : Int) else 0
    let sum := sg (POL_BQ_B0B1.B0_L b) * v + sg (POL_BQ_B0B1.B1_L b) * x.x1 + sg (POL_BQ_B2A1.B2_L b) * x.x2 - sg (POL_BQ_B2A1.A1_L b) * x.y1 - sg (POL_BQ_A2.A2_L b) * x.y2
    let y := max (-32768) (min 32767 ((sum + 8192) / 16384))
    (k.get (POL_BQ_CFG.EN_L b) = 0 → k.biquad b = k) ∧
    (k.get (POL_BQ_CFG.EN_L b) = 1 → (k.biquad b).bq b = { x1 := v, x2 := x.x1, y1 := y, y2 := x.y1 } ∧ sgn 16 ((k.biquad b).get (POL_BQ_OUT.Y b)) = y)) ∧
  (∀ (k : Hw) (r : Fin 32) (pins : Nat) (wake : Bool),
    let src := k.get (POL_RULE_CFG.SRC_L r)
    let j := src - 4
    let x : Int := if src < 4 then sgn 16 (k.get (POL_BQ_OUT.Y src)) else
      if src < 20 then (if j < k.get POL_ADC_CFG.LEN_L then 8 * (k.get (POL_ADC_RES.CODE j) : Int) else 0) else
      if src < 28 then (if bitOf pins (src - 20) then 8 else 0) else
      if src = 28 then (if wake then 8 else 0) else if src = 29 then 8 * (k.get CLK_STAT.LSX_FAIL : Int) else 0
    let thr := sgn 16 (k.get (POL_RULE_THR.THR_L r))
    let t := if k.get (POL_RULE_CFG.THR_SEL_L r) = 1 then max (-32768) (min 32767 (sgn 16 (k.get POL_THR_MON.T_A) + thr)) else thr
    let hyst : Int := (k.get (POL_RULE_THR.HYST_L r) : Int)
    let act := k.get (POL_RULE_STAT.ACTIVE r) = 1
    let met := if k.get (POL_RULE_STAT.ACTIVE r) = 1 then (if k.get (POL_RULE_CFG.OP_L r) = 1 then t + hyst ≤ x else x ≤ t - hyst) else
      (if k.get (POL_RULE_CFG.OP_L r) = 1 then x < t else t < x)
    let on := k.get (POL_RULE_CFG.EN_L r) = 1
    let n := k.get (POL_RULE_STAT.COUNT r)
    let per := k.get (POL_RULE_CFG.PERSIST_L r)
    let e := k.ruleEval pins wake r
    let bits := fun (f : Fld) (b : Bool) => bitOf (e.get f) r = b
    (¬ on → e = k) ∧
    (on → ¬ met → e = k.set (POL_RULE_STAT.COUNT r) 0) ∧
    (on → met → n < per → e = k.set (POL_RULE_STAT.COUNT r) (n + 1)) ∧
    (on → met → per ≤ n → e.get (POL_RULE_STAT.COUNT r) = 0 ∧ (∀ i, i < 32 → i = r.val ∨ e.rd (POL_RULE_STAT i) = k.rd (POL_RULE_STAT i)) ∧
      (act → e.get (POL_RULE_STAT.ACTIVE r) = 0 ∧ bits POL_RULE_ACTIVE.RULES false ∧ e.get POL_TRIP_STAT.TRIPPED = k.get POL_TRIP_STAT.TRIPPED) ∧
      (¬ act → e.get (POL_RULE_STAT.ACTIVE r) = 1 ∧ bits POL_RULE_ACTIVE.RULES true ∧
        (k.get (POL_RULE_CFG.IRQ_L r) = 1 → bits POL_RULE_EVT.RULES true) ∧
        (k.get (POL_RULE_CFG.WAKE_L r) = 1 → e.get POL_HAND.REQ = 1) ∧
        (k.get (POL_RULE_CFG.TRIP_L r) = 1 → e.get POL_TRIP_STAT.TRIPPED = 1 ∧ (k.get POL_TRIP_STAT.TRIPPED = 0 → e.reads [(POL_TRIP_STAT.CAUSE, 1), (POL_TRIP_STAT.RULE, r.val)])) ∧
        (k.get (POL_RULE_CFG.TRIP_L r) = 0 → e.get POL_TRIP_STAT.TRIPPED = k.get POL_TRIP_STAT.TRIPPED)))) ∧
  (∀ (k : Hw) (p : Fin 8),
    let drives := fun (r : Nat) => k.get (POL_RULE_STAT.ACTIVE r) = 1 ∧ (k.get POL_HAND.MODE = 1 ∨ k.get (POL_RULE_CFG.ANYMODE_L r) = 1) ∧
      (k.get (POL_RULE_CFG.OUT_MODE_L r) = 1 ∨ k.get (POL_RULE_CFG.OUT_MODE_L r) = 2) ∧ k.get (POL_RULE_CFG.OUT_PIN_L r) = p.val
    let d := k.rulePins.pgDrive p
    let pu := k.get (uf UART_CFG.EN 6) = 1
    (pu → p.val = 6 → d.2 = true ∧ ((k.uart 6).cur = none → d.1 = decide (k.get (uf UART_CTL.BREAK 6) = 0))) ∧ (pu → p.val = 7 → d = (false, false)) ∧
    (p.val < 6 ∨ ¬ pu → (∀ r, r < 32 → ¬ drives r) → d = (bitOf (k.get POL_PGPIO_OUT.PINS) p, bitOf (k.get POL_PGPIO_DIR.PINS) p)) ∧
    (p.val < 6 ∨ ¬ pu → ∀ r, r < 32 → drives r → (∀ i, i < 32 → i ≤ r ∨ ¬ drives i) → d = (decide (k.get (POL_RULE_CFG.OUT_MODE_L r) = 1), true)))

/-- R398 to R409, R417 to R422: roles of the twin. Any HANDOVER_ACK counts while one is asked for: log entry 174, the model's reading.
Readings of the model: log entries 109, 111, 112 and 115. -/
def Obligations.TwinTrainsPairsAndElectsItsRole : Prop :=
  (∀ (s : State) (acc : Access), s.hw.opens acc = true →
    let h := s.hw
    let x := h.twin
    let takes := acc.tid = 0 ∧ h.blockOn 0x15 = true
    let st := h.get TWIN_STAT.STATE
    let en := h.get TWIN_CFG.EN = 1
    let trains := fun (t : Hw) => t.twin.train = .align ∧ t.twin.lanes = 0 ∧ t.twin.peer = none ∧ t.reads [(TWIN_STAT.LINK_UP, 0), (TWIN_NEG_RESULT.DONE, 0), (TWIN_STAT.PEER_NEW, 0)]
    let r := h.tallyAdvance 2 3 ⟨acc.tid.toNat, acc.who = .debug && !h.dbg.jtag, acc.who = .crocus⟩
    (¬ takes → Becomes (.claim acc) s h ∧ Becomes (.handover acc) s h ∧ Becomes (.test acc) s h ∧ Becomes (.ready acc) s h ∧ Becomes (.rebind acc) s h ∧ Becomes (.retrain acc) s h) ∧
    (takes →
      (st ≠ 5 → Becomes (.claim acc) s h) ∧
      (st = 5 → Completes (.claim acc) s (fun t => t.reads [(TWIN_STAT.STATE, 2), (TWIN_EVT.ROLE_CHG, 1), (TWIN_STAT.ROLE_DRIVE, h.get TWIN_STAT.ROLE_DRIVE)] ∧ t.twin.claim = .guard)) ∧
      (st ≠ 3 ∨ x.ho ≠ .none → Becomes (.handover acc) s h) ∧
      (st = 3 → x.ho = .none → Completes (.handover acc) s (fun t => t.twin.ho = .asked (h.clk.tb.toNat + 20000) false ∧ t.get TWIN_STAT.STATE = 3 ∧
        (h.get TWIN_STAT.LINK_UP = 1 → sliceB (tget [] t.twin.out 3) 8 16 = leBytes 1 1 ++ zeros 7 ++ leBytes 8 (h.clk.tb.toNat + 20000)) ∧
        (h.get TWIN_STAT.LINK_UP = 0 → t.twin.out = x.out))) ∧
      (st = 3 → Becomes (.test acc) s (h.set TWIN_EVT.TEST_REJ 1)) ∧
      (st = 4 ∨ st = 5 → Completes (.test acc) s (fun t => t.reads [(TWIN_STAT.STATE, 6), (TWIN_EVT.ROLE_CHG, 1), (TWIN_STAT.ROLE_DRIVE, 0), (TWIN_STAT.DRIVE_OWN, 0), (TWIN_STAT.IN_SYNC, 0)])) ∧
      (st ≠ 3 → st ≠ 4 → st ≠ 5 → Becomes (.test acc) s h) ∧
      (st ≠ 6 → Becomes (.ready acc) s h) ∧
      (st = 6 → Completes (.ready acc) s (fun t => t.reads [(TWIN_STAT.STATE, 1), (TWIN_STAT.PAIRED, 0), (TWIN_EVT.ROLE_CHG, 1)] ∧ (en → trains t) ∧ (¬ en → t.twin.train = x.train))) ∧
      (¬ en ∨ st = 0 ∨ st = 6 → Becomes (.retrain acc) s h) ∧
      (en → st ≠ 0 → st ≠ 6 → Completes (.retrain acc) s (fun t => trains t ∧ t.get TWIN_STAT.STATE = st)) ∧
      (x.peer = none ∨ h.get TWIN_STAT.PEER_NEW = 0 → Becomes (.rebind acc) s h) ∧
      (∀ p, x.peer = some p → h.get TWIN_STAT.PEER_NEW = 1 →
        (r.2 ≠ 0 → Becomes (.rebind acc) s (((r.1.set LCS_STAT.REASON r.2).set LCS_STAT.REFUSED 1).set TWIN_EVT.REBIND_FAIL 1)) ∧
        (r.2 = 0 → Completes (.rebind acc) s (fun t => t.reads [(TWIN_BOUND_LO.SERIAL, p.serial.toNat % 2 ^ 32), (TWIN_BOUND_HI.SERIAL, p.serial.toNat / 2 ^ 32), (TWIN_STAT.PAIRED, 1),
          (TWIN_STAT.PEER_NEW, 0), (LCS_TALLY.VALUE 2, h.get (LCS_TALLY.VALUE 2) + 1)]))))) ∧
  (∀ (s : State) (lane : Fin 2) (verMin verMax ceil : Byte) (lanes pref : BitVec 2) (serial : DWord) (roleHeld err bound : Bool) (m : Nat),
    let h := s.hw
    let x := h.twin
    let on := h.blockOn 0x15 = true
    let st := h.get TWIN_STAT.STATE
    let may := h.get TWIN_CFG.EN = 1 ∧ st ≠ 0 ∧ st ≠ 6
    let first := on ∧ x.train = .align
    let usable := fun (common j : Nat) => 1 ≤ j ∧ j ≤ 6 ∧ (if j = 3 ∨ j = 5 ∨ j = 6 then common = 3 else common ≠ 0)
    let best := fun (common top j : Nat) => usable common j ∧ j ≤ top ∧ ∀ i, i < 7 → i ≤ j ∨ top < i ∨ ¬ usable common i
    let caps := x.lanes &&& lanes.toNat
    let top := min (h.get TWIN_LINK.CEIL) ceil.toNat
    let failed := fun (t : Hw) (code : Nat) => t.reads [(TWIN_NEG_RESULT.MODE, 0), (TWIN_NEG_RESULT.DONE, 1), (TWIN_NEG_RESULT.FAIL, code), (TWIN_EVT.TRAIN_DONE, 1)] ∧ t.twin.train = .ended
    (¬ on ∨ ¬ may ∨ x.train ≠ .retry → Becomes .trainingRestart s h) ∧
    (on → may → x.train = .retry → Completes .trainingRestart s (fun t => t.twin.train = .align ∧ t.twin.lanes = 0 ∧ t.twin.peer = none ∧ t.twin.msgIn = none ∧
      t.reads [(TWIN_STAT.LINK_UP, 0), (TWIN_NEG_RESULT.DONE, 0), (TWIN_STAT.STATE, st)])) ∧
    (¬ first → Becomes (.laneAligned lane) s h) ∧
    (first → Completes (.laneAligned lane) s (fun t => bitOf t.twin.lanes lane = true ∧ bitOf t.twin.lanes (1 - lane) = bitOf x.lanes (1 - lane) ∧ t.twin = { x with lanes := t.twin.lanes, cap := t.twin.cap } ∧
      t.twin.cap = some ⟨1, 1, h.get TWIN_LINK.CEIL, ⟨t.twin.lanes, BitVec.ofNat 64 (h.get SYS_SERIAL_LO.SERIAL + 2 ^ 32 * h.get SYS_SERIAL_HI.SERIAL), h.get TWIN_CFG.PREF, decide (st = 3),
        decide (h.get TWIN_BOUND_LO.SERIAL + 2 ^ 32 * h.get TWIN_BOUND_HI.SERIAL ≠ 0)⟩⟩)) ∧
    (¬ first ∨ x.lanes ≠ 0 → Becomes .alignTimeout s h) ∧
    (first → x.lanes = 0 → Becomes .alignTimeout s { h with twin := { x with train := .retry } }) ∧
    (¬ first ∨ x.lanes = 0 → Becomes (.capabilityFrame verMin verMax ceil lanes pref serial roleHeld bound) s h) ∧
    (first → x.lanes ≠ 0 →
      (1 < verMin.toNat ∨ verMax = 0 → Completes (.capabilityFrame verMin verMax ceil lanes pref serial roleHeld bound) s (fun t => failed t 1)) ∧
      (verMin.toNat ≤ 1 → verMax ≠ 0 →
        (best caps top m → Completes (.capabilityFrame verMin verMax ceil lanes pref serial roleHeld bound) s (fun t => t.twin.train = .prbs ∧ t.twin.mode = m ∧
          t.twin.peer = some ⟨lanes.toNat, serial, pref.toNat, roleHeld, bound⟩ ∧ t.reads [(TWIN_PEER_ID_LO.SERIAL, serial.toNat % 2 ^ 32), (TWIN_PEER_ID_HI.SERIAL, serial.toNat / 2 ^ 32)])) ∧
        (caps = 0 ∨ top = 0 → Completes (.capabilityFrame verMin verMax ceil lanes pref serial roleHeld bound) s (fun t => failed t 2)))) ∧
    (¬ on ∨ x.train ≠ .prbs ∨ x.peer = none → Becomes (.prbsCheckEnd err) s h) ∧
    (on → x.train = .prbs → ∀ p, x.peer = some p → x.mode < 256 →
      let common := x.lanes &&& p.lanes
      let below := x.mode < h.get TWIN_LINK.FLOOR
      let want := h.get TWIN_PEER_SERIAL_LO.SERIAL + 2 ^ 32 * h.get TWIN_PEER_SERIAL_HI.SERIAL
      let bound := h.get TWIN_BOUND_LO.SERIAL + 2 ^ 32 * h.get TWIN_BOUND_HI.SERIAL
      let sn := p.serial.toNat
      let done := fun (t : Hw) => t.reads [(TWIN_NEG_RESULT.MODE, x.mode), (TWIN_NEG_RESULT.VER, 1), (TWIN_NEG_RESULT.DONE, 1), (TWIN_NEG_RESULT.FAIL, 0), (TWIN_EVT.TRAIN_DONE, 1)]
      let bounds := fun (t : Hw) (n : Nat) => t.reads [(TWIN_BOUND_LO.SERIAL, n % 2 ^ 32), (TWIN_BOUND_HI.SERIAL, n / 2 ^ 32)]
      (err = true → best common (x.mode - 1) m → Completes (.prbsCheckEnd err) s (fun t => t.twin = { x with mode := m })) ∧
      (err = true → common = 0 ∨ x.mode ≤ 1 → Completes (.prbsCheckEnd err) s (fun t => failed t 2)) ∧
      (err = false → below → Completes (.prbsCheckEnd err) s (fun t => done t ∧ t.get TWIN_NEG_RESULT.LINK_FLOOR = 1 ∧ t.twin.train = .retry ∧ t.get TWIN_STAT.LINK_UP = h.get TWIN_STAT.LINK_UP)) ∧
      (err = false → ¬ below → Completes (.prbsCheckEnd err) s (fun t => done t ∧ t.reads [(TWIN_NEG_RESULT.LINK_FLOOR, 0), (TWIN_STAT.LINK_UP, 1)] ∧ t.twin.train = .ended ∧
        (want ≠ 0 → want ≠ sn → t.reads [(TWIN_STAT.PAIRED, 0), (TWIN_EVT.PEER_MISMATCH, 1), (TWIN_STAT.STATE, st)] ∧ bounds t bound) ∧
        (want = 0 ∨ want = sn →
          (bound = 0 ∨ bound = sn → t.reads [(TWIN_STAT.PAIRED, 1), (TWIN_STAT.PEER_NEW, 0), (TWIN_STAT.HB_LOST, 0)] ∧ bounds t sn) ∧
          (bound ≠ 0 → bound ≠ sn → t.reads [(TWIN_STAT.PAIRED, 0), (TWIN_STAT.PEER_NEW, 1), (TWIN_STAT.STATE, st)] ∧ bounds t bound))))) ∧
    (¬ on ∨ h.get TWIN_STAT.LINK_UP = 0 → Becomes .linkFault s h) ∧
    (on → h.get TWIN_STAT.LINK_UP = 1 → Completes .linkFault s (fun t => t.reads [(TWIN_STAT.LINK_UP, 0), (TWIN_EVT.LINK_ERR, 1), (TWIN_STAT.STATE, st)] ∧ t.twin.train = .retry ∧ t.twin.msgIn = none))) ∧
  (∀ (k : Hw) (p : TwinPeer),
    let st := k.get TWIN_STAT.STATE
    let rank := fun (n : Nat) => if n = 1 then 0 else if n = 0 then 1 else 2
    let a := rank (k.get TWIN_CFG.PREF)
    let b := rank p.pref
    let sn := k.get SYS_SERIAL_LO.SERIAL + 2 ^ 32 * k.get SYS_SERIAL_HI.SERIAL
    let wins := st = 3 ∨ (p.roleHeld = false ∧ (a < b ∨ (a = b ∧ sn < p.serial.toNat)))
    let e := k.twinElect p
    let told := if p.roleHeld then ({ k with twin := { k.twin with peerLow := true } } : Hw).set TWIN_STAT.ROLE_SENSE 1 else k
    (st = 6 ∨ (wins ∧ (st = 2 ∨ st = 3)) → e = told) ∧
    (p.roleHeld = true → st ≠ 3 → e.get TWIN_STAT.ROLE_SENSE = 1) ∧
    (st ≠ 6 → st ≠ 2 → st ≠ 3 → wins → e.get TWIN_STAT.STATE = 2 ∧ e.twin.claim = .guard) ∧
    (st ≠ 6 → ¬ wins → e.reads [(TWIN_STAT.STATE, 4), (TWIN_STAT.ROLE_DRIVE, 0), (TWIN_STAT.DRIVE_OWN, 0)] ∧ (st ≠ 4 → ∀ w, w < 16 → e.get (TWIN_MW_CUR.GEN w) = 0))) ∧
  (∀ (s : State) (ok low win : Bool) (txTb echoTx echoRx tH : DWord) (flags : Byte) (slots : List Bool),
    let h := s.hw
    let x := h.twin
    let on := h.blockOn 0x15 = true
    let st := h.get TWIN_STAT.STATE
    let link := on ∧ h.get TWIN_STAT.LINK_UP = 1
    let beats := link ∧ h.get TWIN_STAT.PEER_NEW = 0 ∧ st ≠ 0
    let e := x.hb.getD (0, 0)
    let q := tget 0 x.seqs 1
    let fl := b2n (decide (st = 3)) + 2 * b2n (decide (h.get TWIN_STAT.IN_SYNC = 1 ∧ st ≠ 6))
    let body := leBytes 1 1 ++ zeros 1 ++ leBytes 2 32 ++ leBytes 4 q ++ leBytes 8 h.clk.tb.toNat ++ leBytes 8 e.1.toNat ++ leBytes 8 e.2.toNat ++ leBytes 1 st ++ leBytes 1 fl ++ zeros 6
    let ofs := ((echoRx - echoTx) + (txTb - h.clk.tb)).toInt / 2
    let windows := on ∧ x.hb ≠ none ∧ st ≠ 0 ∧ h.get TWIN_STAT.PEER_NEW = 0
    let paired := h.get TWIN_STAT.PAIRED = 1
    let lost := h.get TWIN_STAT.HB_LOST = 1
    let drives := h.get TWIN_STAT.ROLE_DRIVE = 1
    let free := h.scanDrive 5 = none
    let active := fun (t : Hw) => t.reads [(TWIN_STAT.STATE, 3), (TWIN_STAT.ROLE_DRIVE, 1)] ∧ (free → t.reads [(TWIN_STAT.ROLE_SENSE, 1), (TWIN_STAT.DRIVE_OWN, 1)])
    let isolated := fun (t : Hw) => t.reads [(TWIN_STAT.STATE, 5), (TWIN_STAT.ROLE_DRIVE, 0), (TWIN_STAT.DRIVE_OWN, 0), (TWIN_STAT.PAIRED, 0), (TWIN_EVT.ISO, 1)] ∧
      (h.get TWIN_STAT.ROLE_DRIVE = 0 → t.get TWIN_STAT.ROLE_SENSE = 1)
    let muted := fun (t : Hw) => h.get TWIN_STAT.DRIVE_OWN = 1 → t.clGate = false ∧ ∀ n, n < 4 → t.get (AOUT_DRV_STAT.MUTED n) = 1 ∧ (t.drvAt n).own = false
    let counted := { h with regs := (h.inc TWIN_HB_CNT.ERR_CNT).regs }
    let guarding := on ∧ ((st = 2 ∧ x.claim = .guard) ∨ (st = 5 ∧ h.get TWIN_CFG.ISO_CLAIM = 1))
    let sn := h.get SYS_SERIAL_LO.SERIAL + 2 ^ 32 * h.get SYS_SERIAL_HI.SERIAL
    let lone := on ∧ (st = 1 ∨ st = 4) ∧ ¬ paired
    let takes := on ∧ st = 4 ∧ paired ∧ (lost ∨ x.leave = true)
    let own := (tH - BitVec.ofInt 64 (h.getS TWIN_PEER_OFS.NS)).toNat
    let answer := fun (t : Hw) (op : Nat) => sliceB (tget [] t.twin.out 3) 8 16 = leBytes 1 op ++ zeros 7 ++ leBytes 8 own
    (¬ beats → Becomes .heartbeatSend s h ∧ Becomes (.heartbeat ok txTb echoTx echoRx flags) s h) ∧
    (beats → Completes .heartbeatSend s (fun t => tget [] t.twin.out 1 = body ++ leBytes 4 (crc32c body).toNat ∧ tget 0 t.twin.seqs 1 = (q + 1) % 2 ^ 32 ∧ t.twin.hb = x.hb)) ∧
    (beats → ok = false → Becomes (.heartbeat ok txTb echoTx echoRx flags) s counted) ∧
    (beats → ok = true → Completes (.heartbeat ok txTb echoTx echoRx flags) s (fun t => (-(2 ^ 31) ≤ ofs → ofs < 2 ^ 31 → t.getS TWIN_PEER_OFS.NS = ofs) ∧
      t.reads [(TWIN_STAT.HB_LOST, 0), (TWIN_STAT.PEER_READY, b2n (flags.getLsbD 1)), (TWIN_STAT.STATE, st), (TWIN_STAT.ROLE_SENSE, if flags.getLsbD 0 then 1 else h.get TWIN_STAT.ROLE_SENSE)] ∧ t.twin.hb = some (txTb, h.clk.tb) ∧ t.twin.miss = 0 ∧ t.twin.leave = flags.getLsbD 2)) ∧
    (¬ windows → Becomes (.hbMiss low) s h) ∧
    (windows → Completes (.hbMiss low) s (fun t => t.reads [(TWIN_HB_CNT.MISSED, min (h.get TWIN_HB_CNT.MISSED + 1) 255), (TWIN_EVT.HB_MISS, 1)] ∧ t.twin.miss = min (x.miss + 1) 3 ∧
      (x.miss ≠ 2 → t.reads [(TWIN_STAT.HB_LOST, h.get TWIN_STAT.HB_LOST), (TWIN_STAT.STATE, st), (TWIN_STAT.ROLE_SENSE, b2n low)]) ∧
      (x.miss = 2 → t.reads [(TWIN_STAT.HB_LOST, 1), (TWIN_STAT.PEER_READY, 0)] ∧
        (st = 3 → t.reads [(TWIN_STAT.STATE, 3), (TWIN_EVT.PEER_LOST, 1), (TWIN_STAT.PAIRED, 0)]) ∧
        (st = 4 → low = true → isolated t) ∧ (st ≠ 3 → st ≠ 4 ∨ low = false → t.get TWIN_STAT.STATE = st)))) ∧
    (¬ guarding → Becomes .claimGuardExpiry s h) ∧
    (guarding → Completes .claimGuardExpiry s (fun t => t.reads [(TWIN_STAT.STATE, 2), (TWIN_STAT.ROLE_DRIVE, 1)] ∧ (free → t.get TWIN_STAT.ROLE_SENSE = 1) ∧ t.twin.claim = .arbitration 64)) ∧
    (¬ on ∨ st ≠ 2 → Becomes (.claimEnd win slots) s h) ∧
    (on → st = 2 → slots ≠ [] → Becomes (.claimEnd win slots) s ((slots.foldl Hw.claimSlot h).claimOver)) ∧
    (on → st = 2 → ∀ n, x.claim = .arbitration n →
      let loses := win = false ∧ ∃ i, i < n ∧ bitOf sn i = true
      (¬ loses → Completes (.claimEnd win) s (fun t => active t)) ∧
      (loses → Completes (.claimEnd win) s (fun t => t.reads [(TWIN_STAT.STATE, 5), (TWIN_STAT.ROLE_DRIVE, 0), (TWIN_STAT.ROLE_SENSE, 1), (TWIN_STAT.DRIVE_OWN, 0), (TWIN_EVT.ISO, 1)] ∧ muted t))) ∧
    (∀ n, x.claim = .arbitration (n + 1) →
      let e := h.claimSlot low
      (bitOf sn n = false → e.get TWIN_STAT.ROLE_DRIVE = 1 ∧ e.twin.claim = .arbitration n) ∧
      (bitOf sn n = true → e.reads [(TWIN_STAT.ROLE_DRIVE, 0), (TWIN_STAT.ROLE_SENSE, b2n low)] ∧ e.twin.claim = if low then .lost n else .arbitration n)) ∧
    (¬ lone → Becomes (.loneTmo low) s h) ∧
    (lone → Completes (.loneTmo low) s (fun t => (low = true → isolated t) ∧ (low = false → t.get TWIN_STAT.STATE = 2 ∧ t.twin.claim = .guard))) ∧
    (¬ takes → Becomes (.failover low) s h) ∧
    (takes → low = true → ¬ lost → Completes (.failover low) s (fun t => t.reads [(TWIN_STAT.STATE, 4), (TWIN_STAT.ROLE_SENSE, 1), (TWIN_STAT.PAIRED, 1)])) ∧
    (takes → low = true → lost → Completes (.failover low) s (fun t => isolated t ∧ muted t)) ∧
    (takes → low = false → Completes (.failover low) s (fun t => active t ∧ t.reads [(TWIN_STAT.PAIRED, 0), (TWIN_EVT.FAILOVER, 1), (TWIN_EVT.FO_UNSYNC, if h.get TWIN_STAT.IN_SYNC = 0 then 1 else h.get TWIN_EVT.FO_UNSYNC)] ∧
      (∀ b, x.hb = some b → t.get TWIN_LAST_FO.US = min ((h.clk.tb - b.2).toNat / 1000) 65535))) ∧
    (¬ on → Becomes .roleFault s h ∧ Becomes .driveOwnRestore s h) ∧
    (on → drives → Completes .roleFault s (fun t => t.reads [(TWIN_STAT.ROLE_SENSE, 0), (TWIN_STAT.DRIVE_OWN, 0), (TWIN_EVT.ROLE_FAULT, 1), (TWIN_STAT.ROLE_DRIVE, 1), (TWIN_STAT.STATE, st)] ∧ muted t)) ∧
    (on → ¬ drives → Completes .roleFault s (fun t => t.reads [(TWIN_STAT.ROLE_SENSE, 0), (TWIN_STAT.STATE, st), (TWIN_EVT.ROLE_FAULT, h.get TWIN_EVT.ROLE_FAULT)])) ∧
    (on → Completes .driveOwnRestore s (fun t => t.reads [(TWIN_STAT.ROLE_SENSE, 1), (TWIN_STAT.DRIVE_OWN, if st = 3 ∧ h.get TWIN_STAT.ROLE_DRIVE = 1 then 1 else 0), (TWIN_STAT.STATE, st)])) ∧
    (¬ link → Becomes (.handoverReq ok tH) s h ∧ Becomes (.handoverAck ok tH) s h ∧ Becomes (.handoverNak ok tH) s h) ∧
    (link → ok = false → Becomes (.handoverReq ok tH) s counted ∧ Becomes (.handoverAck ok tH) s counted ∧ Becomes (.handoverNak ok tH) s counted) ∧
    (link → ok = true →
      (st = 4 → h.get TWIN_STAT.IN_SYNC = 1 → Completes (.handoverReq ok tH) s (fun t => answer t 2 ∧ t.twin.armed = some own ∧ t.get TWIN_STAT.STATE = 4)) ∧
      (st ≠ 4 ∨ h.get TWIN_STAT.IN_SYNC = 0 → Completes (.handoverReq ok tH) s (fun t => answer t 3 ∧ t.twin.armed = x.armed ∧ t.get TWIN_STAT.STATE = st)) ∧
      (∀ v a, x.ho = .asked v a → Becomes (.handoverAck ok tH) s { h with twin := { x with ho := .asked v true } } ∧ Becomes (.handoverNak ok tH) s { h with twin := { x with ho := .asked v false } }) ∧
      ((∀ v a, x.ho ≠ .asked v a) → Becomes (.handoverAck ok tH) s h ∧ Becomes (.handoverNak ok tH) s h))) ∧
  (∀ (s : State) (w : Nat), 5000 ≤ w → w < 2 ^ 64 - 5000 →
    let h := s.hw
    let x := h.twin
    let on := h.blockOn 0x15 = true
    let st := h.get TWIN_STAT.STATE
    let reached := fun (t : Hw) (v : Nat) => t.clk.tb.toNat = max h.clk.tb.toNat v
    let active := fun (t : Hw) => t.reads [(TWIN_STAT.STATE, 3), (TWIN_STAT.ROLE_DRIVE, 1)] ∧
      (h.scanDrive 5 = none → t.reads [(TWIN_STAT.ROLE_SENSE, 1), (TWIN_STAT.DRIVE_OWN, 1)])
    let asked := x.ho = .asked w false
    let agreed := x.ho = .asked w true
    let released := x.ho = .released w
    (¬ on ∨ x.ho = .none ∨ agreed ∨ released → Becomes .handoverAbort s h) ∧
    (¬ on ∨ x.ho = .none ∨ asked ∨ released → Becomes .handoverRelease s h) ∧
    (¬ on ∨ x.ho = .none ∨ asked ∨ agreed → Becomes .handoverReclaim s h) ∧
    (¬ on ∨ x.armed = none → Becomes .handoverTake s h) ∧
    (on → asked → Completes .handoverAbort s (fun t => t.twin.ho = .none ∧ t.reads [(TWIN_EVT.HO_REJ, 1), (TWIN_STAT.STATE, st), (TWIN_STAT.DRIVE_OWN, h.get TWIN_STAT.DRIVE_OWN)] ∧ reached t (w - 2000))) ∧
    (on → agreed → st = 3 → Completes .handoverRelease s (fun t => t.twin.ho = .released w ∧ t.reads [(TWIN_STAT.STATE, 4), (TWIN_STAT.ROLE_DRIVE, 0), (TWIN_STAT.DRIVE_OWN, 0)] ∧ reached t w)) ∧
    (on → agreed → st ≠ 3 → Becomes .handoverRelease s { h with twin := { x with ho := .none } }) ∧
    (on → released → st = 4 → Completes .handoverReclaim s (fun t => active t ∧ t.get TWIN_EVT.HO_REJ = 1 ∧ t.twin.ho = .none ∧ reached t (w + 5000))) ∧
    (on → released → st ≠ 4 → Completes .handoverReclaim s (fun t => t.twin.ho = .none ∧ t.get TWIN_STAT.STATE = st ∧ t.get TWIN_EVT.HO_REJ = h.get TWIN_EVT.HO_REJ)) ∧
    (on → x.armed = some w →
      (st = 4 → h.clk.tb.toNat ≤ w + 2000 → Completes .handoverTake s (fun t => active t ∧ t.twin.armed = none ∧ reached t (w - 2000))) ∧
      (st ≠ 4 ∨ w + 2000 < h.clk.tb.toNat → Becomes .handoverTake s { h with twin := { x with armed := none } })))

/-- R306, R401, R410 to R416: data between the twins. Which of two free banks a window takes is a free value (log entry 113). Readings of
the model: log entries 110 and 114. -/
def Obligations.TwinMirrorsLocksAndMessages : Prop :=
  (∀ (s : State) (acc : Access) (w : Fin 16) (v : Word), s.hw.opens acc = true →
    let h := s.hw
    let x := h.twin
    let may := acc.tid = 0 ∨ acc.tid.toNat = h.get (TWIN_MW_OWNER.TID_L w)
    let mayM := acc.tid = 0 ∨ acc.tid.toNat = h.get TWIN_MSG_OWNER.TID_L
    let acts := h.blockOn 0x15 = true ∧ h.get TWIN_STAT.STATE = 3 ∧ h.get (TWIN_MW_CFG.EN_L w) = 1
    let waits := h.get (TWIN_MW_STAT.BUSY w) = 1 ∨ h.drained 4 = true
    let g := (h.get (TWIN_MW_GEN.GEN w) + 1) % 2 ^ 32
    let full := h.get TWIN_MSG_CFG.EN_L = 0 ∨ 16 ≤ x.msgTx.length + x.msgNew.length
    let pe := h.blockOn 0xA = true
    let k := h.sets [(TWIN_MSG_STAT.TXLVL, x.msgTx.length + 1), (TWIN_MSG_STAT.RXLVL, x.msgRx.length)]
    let a := k.handleAddr (k.get TWIN_MSG_OWNER.TID_L) iniTwin 4 v
    let sends := fun (b : Hw) => b.linkUp = true ∧ b.get TWIN_STAT.PAIRED = 1
    (¬ may → Becomes (.pub acc w) s h ∧ Becomes (.lock acc w) s h ∧ Becomes (.unlock acc w) s h) ∧
    (may →
      (¬ acts → Becomes (.pub acc w) s h) ∧
      (acts → waits → Becomes (.pub acc w) s (h.set (TWIN_MW_STAT.PUB_BUSY w) 1)) ∧
      (acts → ¬ waits → Completes (.pub acc w) s (fun t => t.reads [(TWIN_MW_GEN.GEN w, g), (TWIN_MW_STAT.BUSY w, 1)] ∧
        t.twinPub w = some ⟨h.get (TWIN_MW_SRC.ADDR_L w) * 64, h.get (TWIN_MW_CFG.LEN_L w) * 64, h.get (TWIN_MW_OWNER.TID_L w), g,
          h.bytes (h.get (TWIN_MW_SRC.ADDR_L w) * 64) (h.get (TWIN_MW_CFG.LEN_L w) * 64)⟩)) ∧
      Becomes (.unlock acc w) s ((h.set (TWIN_MW_LOCK.LOCK w) 0).set (TWIN_MW_LOCKSTAT.LOCKED w) 0) ∧
      (h.get (TWIN_MW_CUR.GEN w) = 0 → Becomes (.lock acc w) s (h.set (TWIN_MW_LOCK.LOCK w) 1)) ∧
      (h.get (TWIN_MW_CUR.GEN w) ≠ 0 → Completes (.lock acc w) s (fun t => t.reads [(TWIN_MW_LOCK.LOCK w, 1), (TWIN_MW_LOCKSTAT.LOCKED w, 1), (TWIN_MW_LOCKSTAT.LBANK w, h.get (TWIN_MW_STAT.CUR_BANK w)),
        (TWIN_MW_LGEN.GEN w, h.get (TWIN_MW_CUR.GEN w))]))) ∧
    (¬ mayM ∨ full → Becomes (.msgPush acc v) s h) ∧
    (mayM → ¬ full → ¬ pe → ¬ sends h ∨ x.msgTx = [] → Completes (.msgPush acc v) s (fun t => t.twin = { x with msgNew := x.msgNew ++ [v] } ∧
      t.get TWIN_MSG_STAT.TXLVL = (x.msgTx.length + x.msgNew.length + 1) % 32 ∧ SameMemory h t)) ∧
    (mayM → ¬ full → pe → x.msgNew = [] →
      (a.2 = none → ¬ sends a.1 ∨ a.1.twin.msgTx = [] → Becomes (.msgPush acc v) s (a.1.setMsgs a.1.twin.msgTx a.1.twin.msgRx)) ∧
      (a.2 ≠ none → ¬ sends a.1 → Completes (.msgPush acc v) s (fun t => t.twin.msgTx = a.1.twin.msgTx ++ [v] ∧ t.twin.msgRx = a.1.twin.msgRx ∧
        t.get TWIN_MSG_STAT.TXLVL = (a.1.twin.msgTx.length + 1 + a.1.twin.msgNew.length) % 32 ∧ SameMemory a.1 t)) ∧
      (a.2 ≠ none → sends a.1 → a.1.twin.msgTx = [] →
        Becomes (.msgPush acc v) s (((a.1.setMsgs [v] a.1.twin.msgRx).setMsgs [] a.1.twin.msgRx).sendBuffer v))) ∧
    (¬ mayM ∨ x.msgRx = [] ∨ h.bistMutes TWIN_MSG_POP = true → Becomes (.msgPop acc) s { h with busData := 0 }) ∧
    (mayM → h.bistMutes TWIN_MSG_POP = false → ∀ y l, x.msgRx = y :: l → Completes (.msgPop acc) s (fun t => t.busData = y ∧ t.twin = { x with msgRx := l } ∧ t.get TWIN_MSG_STAT.RXLVL = l.length % 32))) ∧
  (∀ (k : Hw) (w : Word),
    let t := k.get TWIN_MSG_OWNER.TID_L
    let n := k.bufLen w
    let e := k.sendBuffer w
    let d := k.dmaRead t iniTwin (k.bufAddr w) n
    (16384 < n → e = k.portFree t iniTwin w) ∧
    (n ≤ 16384 → ∀ bs, d.2 = .ok bs → e.twin.msgNo = (k.twin.msgNo + 1) % 2 ^ 32 ∧
      tget 0 e.twin.seqs 5 = (tget 0 k.twin.seqs 5 + max 1 ((n + 239) / 240)) % 2 ^ 32 ∧
      (let o := 240 * ((n - 1) / 240)
       let p := tget [] e.twin.out 5
       sliceB p 8 16 = leBytes 4 k.twin.msgNo ++ leBytes 4 o ++ leBytes 4 n ++ zeros 4 ∧ sliceB p 24 (bs.length - o) = bs.drop o))) ∧
  (∀ (s : State) (ok : Bool) (n : Fin 4) (code : BitVec 20) (w : Fin 16) (last : Bool) (gen ofs wcrc : Word) (data : List Byte),
    let h := s.hw
    let link := h.blockOn 0x15 = true ∧ h.get TWIN_STAT.LINK_UP = 1
    let counted := { h with regs := (h.inc TWIN_HB_CNT.ERR_CNT).regs }
    let standby := h.get TWIN_STAT.STATE = 4
    let k := if (h.twinMir w).map (fun m => m.gen) = some gen.toNat then h else h.mirBegin w gen.toNat
    let torn := fun (m : TwinMir) (b t : Hw) => t.get (TWIN_MW_STAT.TORN w) = min (b.get (TWIN_MW_STAT.TORN w) + 1) 255 ∧ t.get (TWIN_MW_CUR.GEN w) = b.get (TWIN_MW_CUR.GEN w) ∧
      t.get (TWIN_MW_STAT.CUR_BANK w) = b.get (TWIN_MW_STAT.CUR_BANK w) ∧ ∀ a, a < m.dst ∨ m.dst + m.len ≤ a → t.byte a = b.byte a
    (¬ link → Becomes (.track ok n code) s h ∧ Becomes (.mirrorNak ok w) s h ∧ Becomes (.mirror ok w last gen ofs wcrc data) s h ∧ Becomes (.message ok gen ofs wcrc data) s h) ∧
    (link → ok = false → Becomes (.track ok n code) s counted ∧ Becomes (.mirrorNak ok w) s counted ∧ Becomes (.mirror ok w last gen ofs wcrc data) s counted ∧
      Becomes (.message ok gen ofs wcrc data) s counted) ∧
    (link → ok = true →
      (¬ standby → Becomes (.track ok n code) s h) ∧
      (standby → Completes (.track ok n code) s (fun t => t.drvAt n = { h.drvAt n with rx := some code.toNat })) ∧
      Completes (.mirrorNak ok w) s (fun t => t.get (TWIN_MW_STAT.REFUSED w) = min (h.get (TWIN_MW_STAT.REFUSED w) + 1) 255 ∧ t.twin = h.twin) ∧
      (¬ standby ∨ h.get (TWIN_MW_CFG.EN_L w) = 0 → Becomes (.mirror ok w last gen ofs wcrc data) s h) ∧
      (standby → h.get (TWIN_MW_CFG.EN_L w) = 1 → data.length ≤ 240 → ∀ m, k.twinMir w = some m →
        let d := k.dmaWrite m.tid iniTwin (m.dst + ofs.toNat) data
        let c := crcUpdate m.crc data
        let e := ofs.toNat + data.length
        (m.dead = true → last = false → Becomes (.mirror ok w last gen ofs wcrc data) s k) ∧
        (m.dead = true → last = true → Completes (.mirror ok w last gen ofs wcrc data) s (fun t => t.twinMir w = none ∧ t.get (TWIN_MW_CUR.GEN w) = k.get (TWIN_MW_CUR.GEN w) ∧ SameMemory k t)) ∧
        (m.dead = false → m.next ≠ ofs.toNat ∨ m.len < e → Completes (.mirror ok w last gen ofs wcrc data) s (fun t => torn m k t ∧ t.twinMir w = if last then none else some { m with dead := true })) ∧
        (m.dead = false → m.next = ofs.toNat → e ≤ m.len →
          (d.2 ≠ none → Completes (.mirror ok w last gen ofs wcrc data) s (fun t => torn m d.1 t ∧ t.twinMir w = if last then none else some { m with dead := true })) ∧
          (d.2 = none → last = false → Completes (.mirror ok w last gen ofs wcrc data) s (fun t => t.twinMir w = some { m with next := e, crc := c } ∧ SameMemory d.1 t ∧
            t.get (TWIN_MW_CUR.GEN w) = d.1.get (TWIN_MW_CUR.GEN w))) ∧
          (d.2 = none → last = true → e = m.len → c ^^^ 0xFFFFFFFF = wcrc → Completes (.mirror ok w last gen ofs wcrc data) s (fun t => t.twinMir w = none ∧ SameMemory d.1 t ∧
            t.reads [(TWIN_MW_CUR.GEN w, gen.toNat), (TWIN_MW_STAT.CUR_BANK w, m.bank % 2), (TWIN_EVT.MW_UPD, 1)])) ∧
          (d.2 = none → last = true → e ≠ m.len ∨ c ^^^ 0xFFFFFFFF ≠ wcrc → Completes (.mirror ok w last gen ofs wcrc data) s (fun t => torn m d.1 t ∧ t.twinMir w = none)))))) ∧
  (∀ (k : Hw) (w : Fin 16) (gen : Nat),
    let f := if (k.twinMir w).isSome && !((k.twinMir w).getD ⟨0, 0, 0, 0, 0, 0, 0, true⟩).dead then 1 else 0
    let cur := fun (b : Nat) => k.get (TWIN_MW_CUR.GEN w) ≠ 0 ∧ k.get (TWIN_MW_STAT.CUR_BANK w) = b
    let locked := fun (b : Nat) => k.get (TWIN_MW_LOCKSTAT.LOCKED w) = 1 ∧ k.get (TWIN_MW_LOCKSTAT.LBANK w) = b
    let open' := fun (b : Nat) => ¬ cur b ∧ ¬ locked b
    let e := k.mirBegin w gen
    let fresh := fun (b : Nat) => e.twinMir w = some ⟨gen, b, 0, 0xFFFFFFFF, k.get (TWIN_MW_CFG.LEN_L w) * 64,
      (if b = 0 then k.get (TWIN_MW_DST0.ADDR_L w) else k.get (TWIN_MW_DST1.ADDR_L w)) * 64, k.get (TWIN_MW_OWNER.TID_L w), false⟩
    e.get (TWIN_MW_STAT.TORN w) = min (k.get (TWIN_MW_STAT.TORN w) + f) 255 ∧
    (∀ a, e.byte a = k.byte a ∨ ∃ m, k.twinMir w = some m ∧ m.dead = false ∧ m.dst ≤ a ∧ a < m.dst + m.len) ∧
    (open' 0 → ¬ open' 1 → fresh 0) ∧ (open' 1 → ¬ open' 0 → fresh 1) ∧
    (open' 0 → open' 1 → fresh 0 ∨ fresh 1) ∧ (open' 0 → open' 1 → f = 0 → fresh ((Config.freeValue k.freeCtr).toNat % 2) ∧ e.freeCtr = k.freeCtr + 1) ∧
    (¬ open' 0 → ¬ open' 1 → (e.twinMir w).map (fun m => (m.gen, m.dead)) = some (gen, true) ∧
      (k.get TWIN_STAT.LINK_UP = 1 → sliceB (tget [] e.twin.out 3) 8 16 = leBytes 1 4 ++ leBytes 1 w ++ zeros 14))) ∧
  (∀ (s : State) (w : Fin 16),
    let h := s.hw
    let on := h.blockOn 0x15 = true
    (¬ on ∨ h.twinPub w = none → Becomes (.publishDone w) s h) ∧
    (on → ∀ p, h.twinPub w = some p → 0 < p.len → p.len ≤ 65536 →
      let r := h.dmaRead p.tid iniTwin p.src p.len
      let o := 240 * ((p.len - 1) / 240)
      Completes (.publishDone w) s (fun t => t.get (TWIN_MW_STAT.BUSY w) = 0 ∧ t.twinPub w = none ∧ SameMemory r.1 t ∧
        (h.get TWIN_STAT.LINK_UP = 0 → t.twin.out = h.twin.out) ∧
        (h.get TWIN_STAT.LINK_UP = 1 → ∀ bs, r.2 = .ok bs → let bs := (r.1.mixParts p.old bs ((p.len + 7) / 8)).2
          tget 0 t.twin.seqs 4 = (tget 0 h.twin.seqs 4 + (p.len + 239) / 240) % 2 ^ 32 ∧
          sliceB (tget [] t.twin.out 4) 8 16 = leBytes 1 w ++ leBytes 1 1 ++ zeros 2 ++ leBytes 4 p.gen ++ leBytes 4 o ++ leBytes 4 (crc32c bs).toNat ∧
          sliceB (tget [] t.twin.out 4) 24 (p.len - o) = bs.drop o)))) ∧
  (∀ (k : Hw) (old new : List Byte) (n : Nat), old.length = 8 * n → new.length = 8 * n →
    let m := k.mixParts old new n
    m.2.length = 8 * n ∧ (old = new → m = (k, new)) ∧
    (∀ i, i < n → sliceB m.2 (8 * i) 8 = sliceB old (8 * i) 8 ∨ sliceB m.2 (8 * i) 8 = sliceB new (8 * i) 8)) ∧
  (∀ (s : State) (no ofs total : Word) (data : List Byte), s.hw.blockOn 0x15 = true → s.hw.get TWIN_STAT.LINK_UP = 1 → data.length ≤ 240 →
    let h := s.hw
    let k := if ofs = 0 then h.msgBegin no.toNat total.toNat else h
    let n := ofs.toNat + data.length
    (h.get TWIN_MSG_CFG.EN_L = 0 → Becomes (.message true no ofs total data) s h) ∧
    (h.get TWIN_MSG_CFG.EN_L = 1 →
      (k.twin.msgIn = none → Becomes (.message true no ofs total data) s k) ∧
      (∀ y, k.twin.msgIn = some y →
        (y.hdl = none → Becomes (.message true no ofs total data) s k) ∧
        (∀ b, y.hdl = some b →
          let d := k.dmaWrite (k.get TWIN_MSG_OWNER.TID_L) iniTwin (k.bufAddr b + ofs.toNat) data
          let e := d.1.twin
          (y.no ≠ no.toNat ∨ y.next ≠ ofs.toNat ∨ y.total < n → Becomes (.message true no ofs total data) s k.msgDrop) ∧
          (y.no = no.toNat → y.next = ofs.toNat → n ≤ y.total →
            (d.2 ≠ none ∨ (n = y.total ∧ 16 ≤ e.msgRx.length) → Becomes (.message true no ofs total data) s d.1.msgDrop) ∧
            (d.2 = none → n < y.total → Becomes (.message true no ofs total data) s { d.1 with twin := { e with msgIn := some { y with next := n } } }) ∧
            (d.2 = none → n = y.total → e.msgRx.length < 16 → Completes (.message true no ofs total data) s (fun t => t.twin = { e with msgIn := none, msgRx := e.msgRx ++ [b] } ∧
              t.get TWIN_MSG_STAT.RXLVL = e.msgRx.length + 1 ∧ SameMemory (({ d.1 with twin := { e with msgIn := none } } : Hw).setBufLen b n) t))))))) ∧
  (∀ (k : Hw) (no total : Nat),
    let d := k.msgDrop
    let e := k.msgBegin no total
    let a := d.allocNow (d.get TWIN_MSG_CFG.MSG_POOL_L) (d.get TWIN_MSG_OWNER.TID_L) false
    let small := a.1.poolSize (hdlPool a.2) < total
    let drops := fun (h t : Hw) => t.get TWIN_MSG_STAT.MSG_DROP = min (h.get TWIN_MSG_STAT.MSG_DROP + 1) 65535
    (k.twin.msgIn = none → d = { k with twin := { k.twin with msgIn := none } }) ∧
    (∀ y, k.twin.msgIn = some y →
      (y.hdl = none → d = { k with twin := { k.twin with msgIn := none } }) ∧
      (∀ w, y.hdl = some w → d = (({ k with twin := { k.twin with msgIn := none } } : Hw).portFree (k.get TWIN_MSG_OWNER.TID_L) iniTwin w).inc TWIN_MSG_STAT.MSG_DROP)) ∧
    (hdlV a.2 = true → ¬ small → e = { a.1 with twin := { a.1.twin with msgIn := some ⟨no, some a.2, 0, total⟩ } }) ∧
    (hdlV a.2 = false → e.twin.msgIn = some ⟨no, none, 0, total⟩ ∧ drops a.1 e ∧ SameMemory a.1 e) ∧
    (hdlV a.2 = true → small → e.twin.msgIn = some ⟨no, none, 0, total⟩ ∧ drops a.1 e))

/-- R424 to R433, with R44 and R396 among the checks of R428: commits. Readings of the model: log entries 116, 118 and 120. -/
def Obligations.CommitsArmValidateAndSwitch : Prop :=
  (∀ (s : State) (acc : Access), s.hw.opens acc = true →
    let h := s.hw
    let t0 := acc.tid = 0
    let running := h.cmt.captured ≠ none
    let waits := fun (n : Nat) => { h with cmt := { h.cmt with nextArm := n } }
    (¬ t0 → Becomes (.armRoll acc) s h ∧ Becomes (.armDrain acc) s h ∧ Becomes (.disarm acc) s h ∧ Becomes (.discard acc) s h) ∧
    (t0 → running → Becomes (.armRoll acc) s (waits 1) ∧ Becomes (.armDrain acc) s (waits 2) ∧ Becomes (.disarm acc) s (waits 0)) ∧
    (t0 → ¬ running → Becomes (.armRoll acc) s (h.set CMT_STATUS.STATE 1) ∧ Becomes (.armDrain acc) s (h.set CMT_STATUS.STATE 2) ∧ Becomes (.disarm acc) s (h.set CMT_STATUS.STATE 0)) ∧
    (t0 → Completes (.discard acc) s (fun t => t.get CMT_STAGED.DOMAIN = 0 ∧ t.cmt.captured = h.cmt.captured ∧ t.cal.staged = none ∧ t.cal.cap = h.cal.cap ∧ SameMemory h t))) ∧
  (∀ (s : State) (acc : Access) (a : Nat), s.hw.opens acc = true → acc.tid = 0 → ∀ e, rowOf a = some e → e.2 = false → e.1.sh ≠ 0 →
    let h := s.hw
    let m := BitVec.ofNat 32 e.1.sh
    1 ≤ e.1.dom → e.1.dom ≤ 7 → Completes (.discard acc) s (fun t => t.rd a = (h.rd a &&& ~~~m) ||| (h.rd (a + e.1.live) &&& m) ∧ t.rd (a + e.1.live) = h.rd (a + e.1.live))) ∧
  (∀ (s : State) (us : BitVec 10),
    let h := s.hw
    let runs := h.pwr.phase = .up ∧ h.pwr.sleep ≠ .sleep
    let st := h.get CMT_STATUS.STATE
    let gen := (h.get CMT_GEN.GEN + 1) % 2 ^ 32
    let k := h.switchDom h.cmt.nextDom
    let ended := fun (c t : Hw) => t.get CMT_STATUS.STATE = c.cmt.nextArm % 8 ∧ t.cmt = {} ∧ t.cal.cap = none
    let applied := fun (c t : Hw) => ended c t ∧ t.reads [(CMT_STATUS.APPLIED, 1), (CMT_STATUS.LAST_MODE, b2n c.cmt.drain), (CMT_STATUS.COMMIT_FORCED, if c.cmt.forced then 1 else c.get CMT_STATUS.COMMIT_FORCED)]
    let drains := runs ∧ st = 4
    let inTime := us.toNat ≤ h.get CMT_DRAIN_CFG.TIMEOUT
    (¬ runs ∨ st ≠ 3 → Becomes .validationEnd s h) ∧
    (runs → st = 3 →
      (h.cmtVerdict = none → h.cmt.drain = true → Becomes .validationEnd s (h.set CMT_STATUS.STATE 4)) ∧
      (h.cmtVerdict = none → h.cmt.drain = false → h.cmt.captured ≠ none → Completes .validationEnd s (fun t => t.reads [(CMT_STATUS.STATE, 5), (CMT_GEN.GEN, gen)] ∧ t.cmt.nextDom = 2 ∧
        t.cmt.captured = h.cmt.captured ∧ t.inTransition = true ∧ t.tgen = gen % 64)) ∧
      (∀ r, h.cmtVerdict = some r → r.cmt.heldWr = [] → Completes .validationEnd s (fun t => t.reads [(CMT_STATUS.REJECTED, 1), (CMT_GEN.GEN, h.get CMT_GEN.GEN),
        (CMT_STATUS.REJ_DOMAIN, r.get CMT_STATUS.REJ_DOMAIN), (CMT_STATUS.REJ_BLOCK, r.get CMT_STATUS.REJ_BLOCK)] ∧ ended h t ∧
        t.rd (PE_POOL_CFG_LIVE 3) = h.rd (PE_POOL_CFG_LIVE 3) ∧ t.rd (PE_POOL_CFG 3) = h.rd (PE_POOL_CFG 3) ∧ SameMemory h t))) ∧
    (¬ runs ∨ st ≠ 5 → Becomes .domainSwitch s h) ∧
    (runs → st = 5 →
      (k.cmt.nextDom ≤ 7 → Becomes .domainSwitch s k) ∧
      (7 < k.cmt.nextDom → k.cmt.heldWr = [] → Completes .domainSwitch s (fun t => applied k t ∧ t.get CMT_GEN.GEN = k.get CMT_GEN.GEN ∧ SameMemory k t))) ∧
    (¬ drains ∨ h.drainIdle = false ∨ ¬ inTime → Becomes (.drainSwitch us) s h) ∧
    (drains → h.drainIdle = true → inTime → h.cmt.captured ≠ none → h.cmt.heldWr = [] → Completes (.drainSwitch us) s (fun t => applied h t ∧ t.reads [(CMT_GEN.GEN, gen), (CMT_DRAIN_TIME.US, us.toNat)])) ∧
    (¬ drains ∨ h.drainIdle = true → Becomes .drainTimeout s h) ∧
    (drains → h.drainIdle = false → h.cmt.captured ≠ none → Completes .drainTimeout s (fun t => t.cmt.forced = true ∧ t.cmt.nextDom = 2 ∧
      t.reads [(CMT_STATUS.STATE, 5), (CMT_GEN.GEN, gen), (CMT_DRAIN_TIME.US, h.get CMT_DRAIN_CFG.TIMEOUT)]))) ∧
  (∀ (k : Hw) (d a : Nat) (cap : SMap Word), k.cmt.captured = some cap → k.cmt.heldWr = [] → d = 1 ∨ d = 5 → ∀ e, rowOf a = some e → e.2 = false → e.1.sh ≠ 0 → 1 ≤ e.1.dom → e.1.dom ≤ 7 →
    let m := BitVec.ofNat 32 e.1.sh
    let t := k.switchDom d
    let live := a + e.1.live
    t.cmt.nextDom = d + 1 ∧ t.cmt.captured = some cap ∧ SameMemory k t ∧
    (e.1.dom = d → t.rd live = (k.rd live &&& ~~~m) ||| (mget resetWord cap a &&& m)) ∧
    (e.1.dom ≠ d → t.rd live = k.rd live ∧ t.rd a = k.rd a) ∧
    (e.1.dom = d → t.rd a = if k.cmt.words.contains a then k.rd a else (k.rd a &&& ~~~m) ||| (mget resetWord cap a &&& m)) ∧
    (∀ i, i < 7 → bitOf (t.get CMT_STAGED.DOMAIN) i = if i + 1 = d then bitOf k.cmt.rewritten i else bitOf (k.get CMT_STAGED.DOMAIN) i)) ∧
  (∀ (k : Hw), k.cmt.captured ≠ none → (∀ e ∈ k.cmt.heldWr, e.1 = 5) →
    k.switchDom 5 = k.cmt.heldWr.foldl (fun h e => (h.tmrWrite e.2.1 e.2.2.1 e.2.2.2).1) (({ k with cmt := { k.cmt with heldWr := [] } } : Hw).switchDom 5)) ∧
  (∀ (k : Hw),
    let refused := fun (dom block : Nat) (l : List (Fld × Nat)) => some ((k.sets l).sets [(CMT_STATUS.REJ_DOMAIN, dom), (CMT_STATUS.REJ_BLOCK, block)])
    let low := fun (j : Nat) => k.cap (TEN_RGN_LIMIT.ADDR (j / 8) (j % 8)) < k.cap (TEN_RGN_BASE.ADDR (j / 8) (j % 8))
    let mem := fun (q : Nat) => k.cap (LAC_Q_LMEM.LIMIT q) < k.cap (LAC_Q_LMEM.BASE q)
    (k.cmtVerdict = none → ∀ d ∈ [1, 2, 3, 4, 5, 6, 7], k.cmtCheck d = none) ∧
    ((∀ d ∈ [1, 2, 3, 4, 5, 6, 7], k.cmtCheck d = none) → k.cmtVerdict = none) ∧
    (∀ r, k.cmtCheck 1 = some r → k.cmtVerdict = some r) ∧
    (∀ d ∈ [2, 3, 4, 5, 6, 7], ∀ r, k.cmtCheck d = some r → (∀ c ∈ [1, 2, 3, 4, 5, 6], c < d → k.cmtCheck c = none) → k.cmtVerdict = some r) ∧
    (∀ j, j < 1024 → low j → (∀ i, i < j → ¬ low i) → k.cmtCheck 1 = refused 1 5 [(CMT_TEN_ERR.REASON, 1), (CMT_TEN_ERR.INDEX, j)]) ∧
    (∀ j, j < 16 → mem j → (∀ i, i < j → ¬ mem i) → (∀ i, i < 1024 → ¬ low i) → k.cmtCheck 1 = refused 1 9 [(CMT_TEN_ERR.REASON, 2), (CMT_TEN_ERR.INDEX, j)]) ∧
    ((∀ i, i < 1024 → ¬ low i) → (∀ i, i < 16 → ¬ mem i) → k.cmtCheck 1 = none) ∧
    (k.cap LAC_AVS_HIGH.MV < k.cap LAC_AVS_LOW.MV → k.cmtCheck 4 = refused 4 9 []) ∧
    (sgn 16 (k.cap POL_THR_HIGH.V) < sgn 16 (k.cap POL_THR_LOW.V) → k.cmtCheck 7 = refused 7 0x1F [(POL_COMMIT_ERR.REASON, 1), (POL_COMMIT_ERR.INDEX, 0)]) ∧
    (sgn 16 (k.cap POL_THR_LOW.V) ≤ sgn 16 (k.cap POL_THR_HIGH.V) → ∀ b, b < 4 → k.cap POL_ADC_CFG.LEN ≤ k.cap (POL_BQ_CFG.INPUT b) →
      (∀ c, c < b → k.cap (POL_BQ_CFG.INPUT c) < k.cap POL_ADC_CFG.LEN) → k.cmtCheck 7 = refused 7 0x1F [(POL_COMMIT_ERR.REASON, 2), (POL_COMMIT_ERR.INDEX, b)]))

/-- R441 to R459 and R465 to R467: debug ports, self-test and GPIO balls. Readings of the model: log entries 53, 54, 55, 56, 57, 58, 59,
61, 121, 176 and 177. -/
def Obligations.DebugPortsSelfTestAndBallsAct : Prop :=
  (∀ (s : State) (inFlight : Bool) (req wdata : BitVec 40) (dr : BitVec 68) (code : BitVec 5) (scans : List (BitVec 356 × BitVec 356)),
    let h := s.hw
    let bus := h.pwr.phase = .up ∧ h.pwr.sleep ≠ .sleep
    let perm := h.get LCS_STAT.DBG_PERM
    let st := h.get LCS_STATE.STATE
    let granted := fun (write : Bool) (a : Nat) => bitOf perm 0 = true ∧ (write = false ∨
      ((a < 0x20171000 ∨ 0x20171800 ≤ a ∨ bitOf perm 1 = true) ∧ (a < 0x20180000 ∨ 0x20190000 ≤ a ∨ bitOf perm 2 = true)))
    let always := fun (write : Bool) (a : Nat) (v : Word) => (write = false ∧ (a = SYS_ID ∨ a = LCS_STATE)) ∨
      (st ≠ 5 ∧ (a = LCS_STAT ∨ (a = LCS_CMD ∧ (write = false ∨ LCS_CMD.CMD.of v = 5 ∨ LCS_CMD.CMD.of v = 7 ∨ LCS_CMD.CMD.of v = 8)) ∨ a = LCS_ARG0 ∨
        (LCS_MSG 0 ≤ a ∧ a ≤ LCS_MSG 63) ∨ (LCS_CHAL 0 ≤ a ∧ a ≤ LCS_CHAL 15)))
    let fsd := fun (b : Hw) (stat : Nat) (data : Word) => { b with dbg := { b.dbg with fsdStat := stat, fsdData := data } }
    let jtag := fun (b : Hw) (stat : Nat) (data : Word) => { b with dbg := { b.dbg with daStat := stat, daData := data } }
    let fault := fun (b : Hw) (reason : Nat) => b.set DBG_STAT.FSD_FAULT reason
    let op := (req.extractLsb' 34 2).toNat
    let a := (req.extractLsb' 4 30).toNat * 4
    let v := wdata.extractLsb' 8 32
    let wrong := req.extractLsb' 36 4 ≠ 0xB ∨ (req.extractLsb' 0 4).toNat ≠ fsdChk (req.extractLsb' 4 32)
    let torn := (wdata.extractLsb' 0 8).toNat ≠ fsdCrc v
    let may := granted (decide (op = 2)) a ∨ always (decide (op = 2)) a v
    let k := { h with dbg := { h.dbg with jtag := false } }
    let r := k.dmaRead 0 iniDebug a 4
    let d := k.dmaWrite 0 iniDebug a (leBytes 4 v.toNat)
    let op' := (dr.extractLsb' 0 2).toNat
    let a' := (dr.extractLsb' 2 30).toNat * 4
    let k' := { h with dbg := { h.dbg with jtag := true } }
    let r' := k'.dmaRead 0 iniDebug a' 4
    let d' := k'.dmaWrite 0 iniDebug a' (leBytes 4 (dr.extractLsb' 32 32).toNat)
    let listens := bus ∧ h.dbg.ir = 0x10
    let c := code.toNat
    let refused := (bitOf perm 3 = false ∧ ((c = 0 ∨ c = 2) ∧ st ≠ 5 ∨ c = 4 ∨ c = 5)) ∨ ((c = 0 ∨ c = 4 ∨ c = 5) ∧ h.get TWIN_STAT.STATE = 3) ∨ (c = 0x10 ∧ st = 5)
    let busy := inFlight = true ∨ h.busHeld .debug = true
    let scanned := fun (b : Hw) => match scans.getLast? with
      | some d => { b with dbg := { b.dbg with captured := d.1, cells := d.2 } }
      | none => b
    let lands := fun (i : Instr) (b : Hw) =>
      (b.pwr.phase ≠ .up ∨ b.scanDrive 5 = h.scanDrive 5 → Becomes i s b) ∧ (b.pwr.phase = .up → b.scanDrive 5 ≠ h.scanDrive 5 → Becomes i s b.roleNow)
    (¬ bus → Becomes (.fsdTransfer inFlight req wdata) s h) ∧
    (bus → wrong → Becomes (.fsdTransfer inFlight req wdata) s (fsd (fault h 3) 0 0)) ∧
    (bus → ¬ wrong → busy → Becomes (.fsdTransfer inFlight req wdata) s (fsd h 3 0)) ∧
    (bus → ¬ wrong → ¬ busy →
      (op ≠ 1 → op ≠ 2 → Becomes (.fsdTransfer inFlight req wdata) s (fsd (fault h 4) 12 0)) ∧
      (op = 1 ∨ op = 2 → ¬ may → Becomes (.fsdTransfer inFlight req wdata) s (fsd (fault h 1) 12 0)) ∧
      (op = 2 → may → torn → Becomes (.fsdTransfer inFlight req wdata) s (fsd (fault h 3) 6 0)) ∧
      (op = 1 → may → (h.region a).device = false →
        (k.windowWaits a = true → Becomes (.fsdTransfer inFlight req wdata) s (fsd k 3 0)) ∧
        (k.windowWaits a = false → (∀ bs, r.2 = .ok bs → Becomes (.fsdTransfer inFlight req wdata) s (fsd r.1 6 (BitVec.ofNat 32 (leNat bs)))) ∧
          (∀ e, r.2 = .error e → Becomes (.fsdTransfer inFlight req wdata) s (fsd (fault r.1 2) 12 0)))) ∧
      (op = 2 → may → ¬ torn → (h.region a).device = false →
        (d.2 = none → Becomes (.fsdTransfer inFlight req wdata) s (fsd d.1 6 0)) ∧ (d.2 ≠ none → Becomes (.fsdTransfer inFlight req wdata) s (fsd (fault d.1 2) 12 0))) ∧
      (op = 1 → a = SYS_ID → Completes (.fsdTransfer inFlight req wdata) s (fun t => t.dbg.fsdStat = 6 ∧ SameMemory h t ∧ t.regs = mcanon resetWord h.regs))) ∧
    Becomes .fsdLinkReset s (fsd h 0 0) ∧
    lands .testLogicReset { h with dbg := { h.dbg with ir := 1 } } ∧
    (h.pwr.coreEn = false → Becomes (.jtagInstruction code scans) s h) ∧
    (h.pwr.coreEn = true → refused → lands (.jtagInstruction code scans) { h with dbg := { h.dbg with ir := 0x1F, refused := true } }) ∧
    (h.pwr.coreEn = true → ¬ refused → c = 0 ∨ c = 2 → lands (.jtagInstruction code scans) (scanned { h with dbg := { h.dbg with ir := c, refused := false } })) ∧
    (h.pwr.coreEn = true → ¬ refused → c ≠ 0 → c ≠ 2 →
      lands (.jtagInstruction code scans) { h with dbg := { h.dbg with ir := if c = 1 ∨ c = 4 ∨ c = 5 ∨ c = 0x10 then c else 0x1F, refused := false } }) ∧
    (¬ listens → Becomes (.dbgacc inFlight dr) s h) ∧
    (listens →
      (busy → Becomes (.dbgacc inFlight dr) s (jtag h 3 0)) ∧
      (¬ busy → op' ≠ 1 → op' ≠ 2 → Becomes (.dbgacc inFlight dr) s (jtag (fault h 4) 12 0)) ∧
      (¬ busy → op' = 1 ∨ op' = 2 → ¬ granted (decide (op' = 2)) a' → Becomes (.dbgacc inFlight dr) s (jtag (fault h 1) 12 0)) ∧
      (¬ busy → op' = 1 → granted false a' → (h.region a').device = false → k'.windowWaits a' = false → ∀ bs, r'.2 = .ok bs →
        Becomes (.dbgacc inFlight dr) s (jtag r'.1 6 (BitVec.ofNat 32 (leNat bs)))) ∧
      (¬ busy → op' = 2 → granted true a' → (h.region a').device = false → d'.2 = none → Becomes (.dbgacc inFlight dr) s (jtag d'.1 6 0))) ∧
    h.captureIr = (if h.dbg.refused = true then 5 else 1) ∧ (h.dbg.ir = 1 → h.captureDr = (32, 0x24864793)) ∧
    (listens → h.captureDr.1 = 68 ∧ h.captureDr.2 / 2 ^ 64 = h.dbg.daStat ∧ h.captureDr.2 / 2 ^ 32 % 2 ^ 32 = h.dbg.daData.toNat)) ∧
  (∀ (s : State) (acc : Access) (c : Fin 3) (q : Fin 16) (u : Fin 32) (w : Fin 16) (i : Fin 8) (reg : Fin 4) (t : Byte) (r : Fin 2) (v : Word) (same wr : Bool) (port : Option Bool),
    acc.who = .debug → s.hw.clocked = true → s.hw.busHeld .debug = false →
    let h := s.hw
    let perm := fun (k : Nat) => bitOf (h.get LCS_STAT.DBG_PERM) k = true
    (¬ perm 0 → ∀ x ∈ [Instr.attach acc port, .detach acc, .debugReset acc same, .debugWake acc, .halt acc c, .run acc c, .step acc c, .regdata acc c wr v, .laneHalt acc q, .laneRun acc q, .laneStep acc q,
      .watchpointWrite acc c i reg v, .patchUnitWrite acc u w v, .bistCmd acc t, .bistRel acc r], Becomes x s (h.set DBG_STAT.FSD_FAULT 1)) ∧
    (¬ perm 1 → Becomes (.patchUnitWrite acc u w v) s (h.set DBG_STAT.FSD_FAULT 1)) ∧
    (¬ perm 2 → ∀ x ∈ [Instr.bistCmd acc t, .bistRel acc r], Becomes x s (h.set DBG_STAT.FSD_FAULT 1))) ∧
  (∀ (s : State) (acc : Access) (c : Fin 3) (v : Word) (same : Bool) (port : Option Bool), s.hw.opens acc = true →
    let h := s.hw
    let dbg := acc.who = .debug
    let x := h.coreAt c
    let y := match x.atRun with
      | some r => { x with sstat := r.sstat, inDF := r.inDF, tid := r.tid, eprog := r.eprog, atRun := none }
      | none => x
    let owes := h.busHeld (coreIni (dbgCore c)) = true ∨ h.peAns.any (fun e => e.1 == coreIni (dbgCore c)) = true
    let miss := fun (b : Hw) => if acc.who = .debug then b.set DBG_STAT.FSD_FAULT 5 else b
    let halted := x.run = .halted
    let goes := x.run = .running ∨ x.run = .waiting ∨ x.run = .romWait
    let rom := fun (j : Nat) => j = 0 ∧ h.lnch.phase = .failed
    let num := h.get (DBG_C_REGSEL.NUM c)
    let i : Fin 32 := Fin.ofNat 32 num
    let others := fun (t : Hw) => ∀ j, j < 3 → j = c.val ∨ t.coreAt j = h.coreAt j
    (¬ dbg → Becomes (.attach acc port) s h ∧ Becomes (.detach acc) s h ∧ Becomes (.debugReset acc same) s h ∧ Becomes (.debugWake acc) s h ∧ Becomes (.halt acc c) s h ∧
      Becomes (.run acc c) s h ∧ Becomes (.step acc c) s h ∧ Becomes (.regdata acc c true v) s h) ∧
    (dbg →
      Completes (.attach acc port) s (fun t => t.reads [(DBG_STAT.ATTACHED, 1), (DBG_STAT.PORT, b2n (port.getD h.dbg.jtag))] ∧ (h.get DBG_IE.ATTACH = 1 → t.lineLatch.contains 242 = true)) ∧
      (h.get DBG_STAT.ATTACHED = 0 → Becomes (.detach acc) s h) ∧
      (h.get DBG_STAT.ATTACHED = 1 → Completes (.detach acc) s (fun t => t.get DBG_STAT.ATTACHED = 0 ∧ (h.get DBG_IE.ATTACH = 1 → t.lineLatch.contains 242 = true) ∧
        (∀ j, j < 3 → (t.coreAt j).run = (if (h.coreAt j).run = .halted then (if rom j then .romWait else .running) else (h.coreAt j).run) ∧ (t.coreAt j).pc = (h.coreAt j).pc) ∧
        (∀ q, q < 16 → (t.grp q).halted = false ∧ (t.grp q).pc = (h.grp q).pc) ∧
        (∀ j, j < 3 → ∀ w, w < (if j = 2 then 2 else 8) → t.get (DBG_C_WP_CTL.EN j w) = if h.get (DBG_C_WP_CTL.SRC j w) = 1 then 0 else h.get (DBG_C_WP_CTL.EN j w)) ∧
        (∀ u, u < 32 → t.get (DBG_PU_CTL.EN u) = if h.get (DBG_PU_CTL.SRC u) = 3 then 0 else h.get (DBG_PU_CTL.EN u)))) ∧
      (h.pwr.pending = none → Becomes (.debugReset acc same) s { h with pwr := { h.pwr with pending := some (0xA, false) } }) ∧
      (∀ p, h.pwr.pending = some p →
        (same = false ∨ p.1 = 0xA → Becomes (.debugReset acc same) s h) ∧
        (same = true → p.1 ≠ 0xA → Becomes (.debugReset acc same) s { h with pwr := { h.pwr with pending := some (min p.1 0xA, true) } })) ∧
      (h.pwr.sleep ≠ .sleepEmulated → Becomes (.debugWake acc) s h) ∧
      (h.pwr.sleep = .sleepEmulated → Completes (.debugWake acc) s (fun t => t.pwr.sleep = .run ∧ t.reads [(DBG_STAT.EMUL, 0), (PWR_SLEEP_CTL.MODE, 0)])) ∧
      (¬ goes → Becomes (.halt acc c) s h) ∧
      (goes → owes → Completes (.halt acc c) s (fun t => t.coreAt c = { x with stepping := false, haltReq := true } ∧ others t ∧ t.get (DBG_C_STAT.HALTED c) = h.get (DBG_C_STAT.HALTED c))) ∧
      (goes → ¬ owes → Completes (.halt acc c) s (fun t => t.coreAt c = { x with run := .halted, resv := none, stepping := false } ∧ others t ∧ t.reads [(DBG_C_STAT.HALTED c, 1), (DBG_C_STAT.CAUSE c, 1)])) ∧
      (¬ halted → Becomes (.run acc c) s h ∧ Becomes (.step acc c) s h ∧ Becomes (.regdata acc c true v) s (h.set DBG_STAT.FSD_FAULT 5)) ∧
      (halted → Completes (.run acc c) s (fun t => t.coreAt c = { y with run := if rom c then .romWait else .running, wpExempt := true } ∧ others t ∧ t.get (DBG_C_STAT.HALTED c) = 0) ∧
        (rom c → Becomes (.step acc c) s (h.set (DBG_C_STAT.CAUSE c) 4)) ∧
        (¬ rom c → Completes (.step acc c) s (fun t => t.coreAt c = { y with run := .running, wpExempt := true, stepping := true } ∧ others t ∧ t.get (DBG_C_STAT.HALTED c) = 0)) ∧
        (num < 32 → Completes (.regdata acc c true v) s (fun t => (i ≠ 0 → (t.coreAt c).gr i = v) ∧ (∀ j ∈ List.finRange 32, j = i ∨ (t.coreAt c).gr j = x.gr j) ∧ (t.coreAt c).f = x.f ∧ others t)) ∧
        (32 ≤ num → num < 64 → Completes (.regdata acc c true v) s (fun t => (t.coreAt c).f[i] = ((x.f[i] >>> 32) <<< 32 ||| v.zeroExtend 64) ∧ (t.coreAt c).g = x.g ∧ others t)) ∧
        (num = 129 → Completes (.regdata acc c true v) s (fun t => t.coreAt c = { x with epc := v } ∧ others t)) ∧
        (num = 128 ∨ num = 132 ∨ num = 133 → Completes (.regdata acc c true v) s (fun t => t.coreAt c = { x with atRun := (t.coreAt c).atRun } ∧ others t)) ∧
        (num = 132 → Completes (.regdata acc c true v) s (fun t => ∃ r, (t.coreAt c).atRun = some r ∧ r.sstat = y.sstat ∧ r.tid = y.tid ∧ some r.eprog = (y.setSpecial (dbgCore c) 4 v).map Core.eprog)))) ∧
    (¬ halted → Becomes (.regdata acc c false v) s (miss { h with busData := 0 })) ∧
    (halted →
      (num < 32 → Becomes (.regdata acc c false v) s { h with busData := x.gr i }) ∧
      (32 ≤ num → num < 64 → Becomes (.regdata acc c false v) s { h with busData := x.f[i].truncate 32 }) ∧
      (64 ≤ num → num < 96 → Becomes (.regdata acc c false v) s { h with busData := (x.f[i] >>> 32).truncate 32 }) ∧
      (num = 129 → Becomes (.regdata acc c false v) s { h with busData := x.epc }) ∧ (num = 160 → Becomes (.regdata acc c false v) s { h with busData := x.fsr }))) ∧
  (∀ (s : State) (acc : Access) (q : Fin 16) (u : Fin 32) (w : Fin 16) (c : Fin 3) (i : Fin 8) (reg : Fin 4) (v : Word), s.hw.opens acc = true → (acc.who = .debug → bitOf (s.hw.get LCS_STAT.DBG_PERM) 1 = true) →
    let h := s.hw
    let g := h.grp q
    let dbg := acc.who = .debug
    let super := acc.tid = 0 ∧ ((acc.who = .m0 ∧ h.m0.mode = true) ∨ (acc.who = .m1 ∧ h.m1.mode = true) ∨ acc.who = .polder ∨ acc.who = .crocus)
    let src := if acc.who = .debug then 3 else 2
    let en := h.get (DBG_PU_CTL.EN u)
    let line := h.get (DBG_PU_LINE.ADDR u)
    let foreign := h.get (DBG_PU_CTL.EN u) = 1 ∧ h.get (DBG_PU_CTL.SRC u) ≠ src
    let dropped := fun (t : Hw) (l : Nat) => t.m0.icache.contains (lineOf (32 * l)) = false ∧ t.m1.icache.contains (lineOf (32 * l)) = false
    let listed := fun (t : Hw) (l : Nat) (changed : Prop) => (changed → dropped t l) ∧ (¬ changed → t.m0.icache = h.m0.icache ∧ t.m1.icache = h.m1.icache)
    let own := (c = 0 ∧ acc.who = .m0) ∨ (c = 1 ∧ acc.who = .m1) ∨ (c = 2 ∧ acc.who = .polder)
    let mine := if acc.who = .debug then 1 else 0
    let wen := h.get (DBG_C_WP_CTL.EN c i)
    let busy := h.get (DBG_C_WP_CTL.EN c i) = 1 ∧ h.get (DBG_C_WP_CTL.SRC c i) ≠ mine
    let there := c ≠ 2 ∨ i.val < 2
    (¬ dbg → Becomes (.laneHalt acc q) s h ∧ Becomes (.laneRun acc q) s h ∧ Becomes (.laneStep acc q) s h) ∧
    (dbg →
      (g.queue = none ∨ g.ended = true ∨ g.halted = true → Becomes (.laneHalt acc q) s h) ∧
      (g.queue ≠ none → g.ended = false → g.halted = false → Completes (.laneHalt acc q) s (fun t => t.grp q = { g with halted := true, stepping := false } ∧ t.get (DBG_G_STAT.HALTED q) = 1 ∧
        (∀ j, j < 16 → j = q.val ∨ t.grp j = h.grp j))) ∧
      (g.halted = false → Becomes (.laneRun acc q) s h ∧ Becomes (.laneStep acc q) s h) ∧
      (g.halted = true → Completes (.laneRun acc q) s (fun t => t.grp q = { g with halted := false } ∧ t.get (DBG_G_STAT.HALTED q) = 0) ∧
        Completes (.laneStep acc q) s (fun t => t.grp q = { g with halted := false, stepping := true } ∧ t.get (DBG_G_STAT.HALTED q) = 0))) ∧
    ((¬ dbg ∧ ¬ super) ∨ h.get (DBG_PU_CTL.LOCKED u) = 1 → Becomes (.patchUnitWrite acc u w v) s h) ∧
    (dbg ∨ super → h.get (DBG_PU_CTL.LOCKED u) = 0 → foreign → Becomes (.patchUnitWrite acc u w v) s (h.set DBG_STAT.PATCH_REJ 1)) ∧
    (dbg ∨ super → h.get (DBG_PU_CTL.LOCKED u) = 0 → ¬ foreign →
      (w = 0 → Completes (.patchUnitWrite acc u w v) s (fun t => t.reads [(DBG_PU_CTL.EN u, b2n (v.getLsbD 0)), (DBG_PU_CTL.HIT_IE u, b2n (v.getLsbD 1)),
        (DBG_PU_CTL.SRC u, if en = b2n (v.getLsbD 0) then h.get (DBG_PU_CTL.SRC u) else if en = 1 then 0 else src)] ∧ listed t line (en ≠ b2n (v.getLsbD 0)) ∧ SameMemory h t)) ∧
      (w = 1 → Completes (.patchUnitWrite acc u w v) s (fun t => t.reads [(DBG_PU_LINE.ADDR u, v.toNat / 32), (DBG_PU_CTL.EN u, en)] ∧ listed t line (t.rd (DBG_PU_LINE u) ≠ h.rd (DBG_PU_LINE u)) ∧
        listed t (v.toNat / 32) (t.rd (DBG_PU_LINE u) ≠ h.rd (DBG_PU_LINE u)) ∧ SameMemory h t)) ∧
      (8 ≤ w.val → Completes (.patchUnitWrite acc u w v) s (fun t => t.rd (DBG_PU_DATA u (w.val - 8)) = v ∧ t.get (DBG_PU_CTL.EN u) = en ∧ listed t line (v ≠ h.rd (DBG_PU_DATA u (w.val - 8))) ∧ SameMemory h t))) ∧
    (¬ dbg ∧ ¬ (own ∧ super) ∨ ¬ there → Becomes (.watchpointWrite acc c i reg v) s h) ∧
    (dbg ∨ (own ∧ super) → there → busy → Becomes (.watchpointWrite acc c i reg v) s (h.set DBG_STAT.WP_REJ 1)) ∧
    (dbg ∨ (own ∧ super) → there → ¬ busy →
      (reg = 0 → Completes (.watchpointWrite acc c i reg v) s (fun t => t.rd (DBG_C_WP_ADDR c i) = v ∧ t.reads [(DBG_C_WP_CTL.EN c i, wen)])) ∧
      (reg = 1 → Completes (.watchpointWrite acc c i reg v) s (fun t => t.rd (DBG_C_WP_ADDR c i + 4) = v ∧ t.reads [(DBG_C_WP_CTL.EN c i, wen)])) ∧
      (reg = 2 → Completes (.watchpointWrite acc c i reg v) s (fun t => t.rd (DBG_C_WP_ADDR c i) = h.rd (DBG_C_WP_ADDR c i) ∧ t.reads [(DBG_C_WP_CTL.EN c i, b2n (v.getLsbD 0)),
        (DBG_C_WP_CTL.KIND c i, v.toNat / 2 % 4), (DBG_C_WP_CTL.TID_EN c i, b2n (v.getLsbD 3)), (DBG_C_WP_CTL.TID c i, v.toNat / 16 % 128),
        (DBG_C_WP_CTL.SRC c i, if wen = 0 ∧ v.getLsbD 0 = true then mine else h.get (DBG_C_WP_CTL.SRC c i))])))) ∧
  (∀ (s : State) (acc : Access) (t : Byte) (r : Fin 2), s.hw.opens acc = true → (acc.who = .debug → bitOf (s.hw.get LCS_STAT.DBG_PERM) 2 = true) →
    let h := s.hw
    let n := t.toNat
    let may := if acc.who = .debug then bitOf (h.get DBG_STAT.PERM) 2 = true else acc.tid = 0
    let meets := h.bistReady n = true ∧ (acc.who = .debug ∨ (n ≠ 0x10 ∧ n ≠ 0x11))
    let clock := h.blockOn 0x18 = true
    let known := (1 ≤ n ∧ n ≤ 0xA) ∨ (0x10 ≤ n ∧ n ≤ 0x1B) ∨ n = 0x20
    let busy := h.get BIST_STAT.BUSY = 1
    let refused := fun (k : Nat) => h.sets [(BIST_STAT.REFUSED, 1), (BIST_STAT.REASON, k)]
    let waits := bitOf h.bistHold r = true ∧ h.lcsm.holds = false ∧ ¬ (busy ∧ h.get BIST_STAT.TARGET = r.val + 1)
    (¬ may → Becomes (.bistCmd acc t) s (refused 1)) ∧
    (may → busy → Becomes (.bistCmd acc t) s (refused 3)) ∧
    (may → ¬ busy → ¬ known → Becomes (.bistCmd acc t) s (refused 4)) ∧
    (may → ¬ busy → known → ¬ meets → Becomes (.bistCmd acc t) s (refused 2)) ∧
    (may → ¬ busy → known → meets → ¬ clock → Completes (.bistCmd acc t) s (fun k => k.reads [(BIST_STAT.BUSY, 1), (BIST_STAT.TARGET, n), (BIST_STAT.REASON, 0)] ∧ k.bistWait = true ∧ SameMemory h k ∧
      ∀ c, k.core c = h.core c)) ∧
    (may → ¬ busy → known → meets → clock → Completes (.bistCmd acc t) s (fun k => k.reads [(BIST_STAT.BUSY, 1), (BIST_STAT.TARGET, n), (BIST_STAT.REASON, 0)] ∧
      (n = 1 ∨ n = 2 → (k.coreAt (n - 1)).run = .held ∧ (k.coreAt (n - 1)).icache = [] ∧ bitOf k.bistHold (n - 1) = true))) ∧
    (¬ may → Becomes (.bistRel acc r) s (if acc.who = .debug then h.set DBG_STAT.FSD_FAULT 1 else h)) ∧
    (may → ¬ waits → Becomes (.bistRel acc r) s h) ∧
    (may → waits → Completes (.bistRel acc r) s (fun k => (k.coreAt r).run = .running ∧ (k.coreAt r).pc = h.rd BIST_PC ∧ (k.coreAt r).ssp = h.rd BIST_SSP ∧ bitOf k.bistHold r = false))) ∧
  (∀ (k : Hw),
    (k.bistReady 8 = true → k.get (ETH_CFG.EN 0) = 0 ∧ k.get (ETH_CFG.EN 1) = 0) ∧ (k.bistReady 9 = true → k.get TWIN_STAT.STATE = 6) ∧
    (k.bistReady 7 = true → ∀ p, p < 16 → k.get (PE_POOL_CFG.EN_L p) = 0) ∧ (k.bistReady 0xA = true → k.get POL_TRIP_STAT.TRIPPED = 1) ∧
    (k.bistReady 0x10 = true → k.m0.run = .halted ∧ k.m1.run = .halted) ∧ (k.bistReady 1 = true → k.m0.run = .halted ∨ k.m0.run = .held) ∧
    (k.bistReady 0x1B = true → k.get POL_STAT.CORE_HELD = 1 ∧ k.get POL_LOG_CFG.EN = 0) ∧ k.bistReady 0x20 = true) ∧
  (∀ (s : State) (misr : DWord) (bad : Option Word) (spare : Fin 17),
    let h := s.hw
    let runs := h.blockOn 0x18 = true ∧ h.get BIST_STAT.BUSY = 1 ∧ h.bistWait = false
    let n := h.get BIST_STAT.TARGET
    let goldens := [0, 0x6C1E93A40B7D52F8, 0x27D4A0C9E3168B5F, 0x91B35E0A7CD24F16, 0x4E08C7B12A9FD365, 0xB5F21D84E06A937C, 0x0A7CE4D358B16F29, 0xD3186B2F94E70C5A, 0x5F610A3EC8D4B792,
      0x83ADF75C1E206B94, 0x3E9527C0D1B84A6F]
    let golden := goldens.getD n 0
    let ended := fun (t : Hw) (pass : Bool) => t.reads [(BIST_STAT.BUSY, 0), (BIST_STAT.DONE, 1), (BIST_STAT.PASS, b2n pass), (BIST_STAT.FAIL, if pass then h.get BIST_STAT.FAIL else 1)]
    (¬ runs → Becomes (.bistDone misr bad spare []) s h) ∧
    (runs → 1 ≤ n → n ≤ 0xA → Completes (.bistDone misr bad spare []) s (fun t => ended t (decide (misr.toNat = golden)) ∧ SameMemory h t ∧
      t.reads [(BIST_MISR_LO.MISR, misr.toNat % 2 ^ 32), (BIST_MISR_HI.MISR, misr.toNat / 2 ^ 32), (BIST_GOLDEN_LO.MISR, golden % 2 ^ 32), (BIST_GOLDEN_HI.MISR, golden / 2 ^ 32)] ∧
      (n = 8 → t.eths = []) ∧ (n = 7 → t.pools = []) ∧ (n = 9 → t.get TWIN_STAT.STATE = 6) ∧ (n = 0xA → ∀ r, r < 32 → t.reads [(POL_RULE_STAT.ACTIVE r, 0), (POL_RULE_STAT.COUNT r, 0)]))) ∧
    (runs → 0x10 ≤ n → n ≤ 0x1B → Completes (.bistDone misr bad spare []) s (fun t => ended t bad.isNone ∧ (∀ a, bad = some a → t.rd BIST_FAIL_ADDR = a) ∧
      (n = 0x10 → t.byte 0x10000000 = 0 ∧ t.byte 0x101FFFFF = 0) ∧ (n = 0x18 → t.byte 0x18000000 = 0 ∧ t.byte 0x180FFFFF = 0) ∧ (n = 0x1B → t.byte 0x30100000 = 0 ∧ t.byte 0x30107FFF = 0))) ∧
    (runs → n = 0x20 → h.upsets = [] → Completes (.bistDone misr bad spare []) s (fun t => ended t (decide (spare.val = 0)) ∧ SameMemory h t ∧
      t.reads [(BIST_MRAM_RES.CE, 0), (BIST_MRAM_RES.UE, 0), (BIST_MRAM_RES.SPARE_FAIL, spare.val)]))) ∧
  (∀ (s : State) (k : Fin 75) (level : Bool),
    let h := s.hw
    let on := h.pwr.phase = .up ∧ bitOf (h.get CLK_GATE.EN) 25 = true
    let w := k.val / 32
    let i := k.val % 32
    let fn := h.get (GPIO_MUX.FN k)
    let lvl := (h.ballDrive k).getD level
    let tested := h.dbg.ir = 0 ∨ h.dbg.ir = 4
    let cell := if k.val < 36 then 137 + 3 * k.val else 248 + 3 * (k.val - 36)
    let present := bitOf (h.get GPIO_BANK_STAT.PRESENT) (if k.val < 36 then 2 else 3) = true
    let edge := (h.rd (GPIO_IN w)).getLsbD i ≠ lvl ∧ (h.rd ((if lvl then GPIO_RISE else GPIO_FALL) w)).getLsbD i = true
    (h.dbg.ir = 5 ∨ (tested ∧ (72 ≤ k.val ∨ ¬ present)) → h.ballDrive k = none) ∧
    (tested → k.val < 72 → present → h.ballDrive k = if h.dbg.cells.getLsbD (cell + 2) then none else some (h.dbg.cells.getLsbD (cell + 1))) ∧
    (¬ tested → h.dbg.ir ≠ 5 → h.ballDrive k = h.gpioDrive k) ∧
    (72 ≤ k.val ∨ ¬ present → h.gpioDrive k = none) ∧
    (k.val < 72 → fn = 0 → (h.rd (GPIO_DIR w)).getLsbD i = false → h.gpioDrive k = none) ∧
    (k.val < 72 → present → fn = 0 → (h.rd (GPIO_DIR w)).getLsbD i = true → h.get (GPIO_MUX.OD k) = 0 → h.gpioDrive k = some ((h.rd (GPIO_OUT w)).getLsbD i)) ∧
    (present → fn = 1 → h.get (GPIO_MUX.OD k) = 0 →
      (∀ u, u < 6 → k.val = 4 * u → (h.get (UART_CTL.BREAK u) = 1 → h.gpioDrive k = some false) ∧ (h.get (UART_CTL.BREAK u) = 0 → (h.uart u).cur = none → h.gpioDrive k = some true)) ∧
      (∀ n, n < 2 → k.val = 24 + 2 * n → h.get (CAN_CTL.MODE n) = 1 ∨ h.get (CAN_CTL.MODE n) = 3 ∨ ((h.can n).bus = none ∧ (h.can n).busy = false) → h.gpioDrive k = some true) ∧
      (∀ n j, n < 4 → 3 ≤ j → j < 7 → k.val = 28 + 7 * n + j → h.get (SPI_CFG.SLAVE n) = 0 → h.get (SPI_CFG.EN n) = 1 →
        h.gpioDrive k = some (!((h.spi n).sel && decide (h.get (SPI_CFG.CS n) = j - 3))))) ∧
    (¬ on → Becomes (.gpioEdge k level) s h) ∧
    (on → Completes (.gpioEdge k level) s (fun t => (t.rd (GPIO_IN w)).getLsbD i = lvl ∧ (edge → (t.rd (GPIO_EVT w)).getLsbD i = true) ∧ (¬ edge → t.rd (GPIO_EVT w) = h.rd (GPIO_EVT w)) ∧
      (∀ j, j < 32 → j = i ∨ ((t.rd (GPIO_IN w)).getLsbD j = (h.rd (GPIO_IN w)).getLsbD j ∧ (t.rd (GPIO_EVT w)).getLsbD j = (h.rd (GPIO_EVT w)).getLsbD j)))))

/-- The queue of commands; and with none waiting, what one PER_CLK edge is to the timers (R311), the watchdogs (R161) and TB (R88): log
entries 1 and 24, the model's choice; so is one IRC cycle for the retention counter (R90 to R92) and WDP where the main domain has no clock. -/
def Obligations.StepTakesTheFrontCommand : Prop :=
  (∀ (c : Instr) (s : State), step { s with pending := c :: s.pending } = exec c s) ∧
  (∀ (s : State), s.pending = [] →
    let h := s.hw
    let runs := h.clocked = true ∧ h.clk.tbRun = true
    let n := 64 * h.get CLK_DIV.PER_DIV + h.clk.tbFrac.toNat
    let tb := h.clk.tb + BitVec.ofNat 64 (n / 128)
    let quiet := (h.get TMR_TB_ALM_CTL.ARM = 1 → tb.toNat < h.get TMR_TB_ALM_LO.TB + 2 ^ 32 * h.get TMR_TB_ALM_HI.TB) ∧
      (h.get TMR_TBS_CTL.ARM = 1 → tb.toNat < h.get TMR_TBS_LO.TB + 2 ^ 32 * h.get TMR_TBS_HI.TB) ∧ (∀ k, h.clk.epochHi = some k → tb.toNat / 1000000 ≤ k)
    let still := (∀ t, t < 20 → h.tmrCounts t = false) ∧ h.evLines = 0 ∧ h.wdRuns 0 = false ∧ h.wdRuns 1 = false ∧ h.wdpRuns = false
    let e := if h.clocked && h.clk.tbRun then h.tbEdge.tbDue.epochCatch else h
    step s = .next { s with hw := (if e.clocked then (e.tmrEdges h.tmrCounts).wdEdges else e.retainIrc.almRetained).wdpEdge.canon } ∧
    (h.clocked = false → h.pwr.sleep ≠ .sleep → h.clk.tbRun = true → h.wdpRuns = false → step s = .next { s with hw := h.canon }) ∧
    (still → h.clocked = true → h.clk.tbRun = false → step s = .next { s with hw := h.canon }) ∧
    (still → runs → quiet → step s = .next { s with hw := ({ h with clk := { h.clk with tb := tb, tbFrac := BitVec.ofNat 7 n } } : Hw).canon })) ∧
  (∀ (h : Hw),
    let k := h.retainIrc
    let lsx := h.bak.lsxRun = true ∧ h.get CLK_STAT.LSX_FAIL = 0
    let f := h.bak.lsxFrac + 16000
    (h.clk.tbRun = true → k = h) ∧
    (h.clk.tbRun = false → lsx → f < 3906250 → k = { h with bak := { h.bak with lsxFrac := f } }) ∧
    (h.clk.tbRun = false → lsx → 3906250 ≤ f → k.bak.lsxFrac = f - 3906250 ∧ k.retained128 = h.retained128 + 3906250) ∧
    (h.clk.tbRun = false → ¬ lsx → k.retained128 = h.retained128 + (if h.bak.retStop then 0 else 16000))) ∧
  (∀ (h : Hw) (counts : Nat → Bool),
    let k := h.tmrEdges counts
    let count := fun (t : Nat) => if t < 16 then TMR_GT_COUNT.COUNT t else TMR_PT_COUNT.COUNT (t - 16)
    let next := fun (t : Nat) => if t < 16 then ((h.gtNext t).1).getD 0 else (h.ptNext (t - 16)).1 % 2 ^ 32
    (∀ t, t < 20 →
      (counts t = false → k.get (count t) = h.get (count t) ∧ k.tmrPhase t = h.tmrPhase t ∧ bitOf k.evLines t = false) ∧
      (counts t = true → h.tmrPhase t < h.tmrPre t → k.get (count t) = h.get (count t) ∧ k.tmrPhase t = h.tmrPhase t + 1 ∧ bitOf k.evLines t = false) ∧
      (counts t = true → h.tmrPre t ≤ h.tmrPhase t → k.get (count t) = next t ∧ k.tmrPhase t = 0)) ∧
    (∀ c, k.core c = h.core c) ∧ SameMemory h k ∧ k.clk = h.clk) ∧
  (∀ (h : Hw) (n : Fin 2) (same : Bool),
    let t := tget 0 h.wdFrac n + h.get CLK_DIV.PER_DIV
    let c := h.get (TMR_WD_COUNT.VALUE n)
    let k := h.wdEdge n same
    (h.wdRuns n = false → k = h) ∧
    (h.wdRuns n = true → t < 16000 → k = { h with wdFrac := tput 0 h.wdFrac n t }) ∧
    (h.wdRuns n = true → 16000 ≤ t → tget 0 k.wdFrac n = t - 16000 ∧ k.get (TMR_WD_COUNT.VALUE n) = c - 1 ∧
      (1 < c → k.pwr = h.pwr ∧ k.get (TMR_WD_STAT.WARNED n) = if c - 1 = h.get (TMR_WD_WARN.VALUE n) then 1 else h.get (TMR_WD_STAT.WARNED n)) ∧
      (c ≤ 1 → h.pwr.pending = none → k.pwr.pending = some (7 + n.val, false)) ∧
      (c ≤ 1 → ∀ p, h.pwr.pending = some p → k.pwr.pending = if same = true ∧ p.1 ≠ 7 + n.val then some (min p.1 (7 + n.val), true) else some p))) ∧
  (∀ (h : Hw), h.pwr.pending = none →
    (∀ n, n < 2 → h.wdRuns n = true ∧ 16000 ≤ tget 0 h.wdFrac n + h.get CLK_DIV.PER_DIV ∧ h.get (TMR_WD_COUNT.VALUE n) ≤ 1) → h.wdEdges.pwr.pending = some (7, true)) ∧
  (∀ (h : Hw),
    let t := tget 0 h.wdFrac 2 + (if h.clocked then h.get CLK_DIV.PER_DIV else 250)
    let c := h.get POL_WDP_COUNT.VALUE
    let irc := h.pwr.phase ≠ .unpowered ∨ (h.get (uf UART_CFG.EN 6) = 1 ∧ h.get (uf UART_CFG.CLKSRC 6) = 0) ∨ h.bak.lsxRun = false ∨ h.get CLK_STAT.LSX_FAIL = 1
    let runs := h.get POL_WDP_CTL.EN = 1 ∧ h.pwr.polderLow = false ∧ h.get POL_STAT.CORE_HELD = 0 ∧ h.pol.run ≠ .halted ∧ h.pol.run ≠ .held ∧ (h.pol.run = .waiting → irc)
    let k := h.wdpEdge
    (¬ runs → k = h) ∧
    (runs → t < 16000 → k = { h with wdFrac := tput 0 h.wdFrac 2 t }) ∧
    (runs → 16000 ≤ t → tget 0 k.wdFrac 2 = t - 16000 ∧
      (1 < c → k.get POL_WDP_COUNT.VALUE = c - 1 ∧ k.pol = h.pol) ∧
      (c ≤ 1 → k.reads [(POL_WDP_COUNT.VALUE, 0), (POL_STAT.WDP_RESET, 1), (POL_RST_CAUSE.CAUSE, 3), (POL_WDP_CTL.EN, 0)] ∧ k.pol.run = .running)))

/-- R17 and the Reset columns; values marked fixed, launch or ret are the model's (log entries 4 to 7). -/
def Obligations.ResetLeavesEveryRegisterAtItsResetWord : Prop :=
  let h := State.reset.hw
  (State.reset.pending = [] ∧ h.tablesOk = true ∧ h.pwr.phase = .unpowered ∧ h.clocked = false ∧ h.upsets = []) ∧
  (∀ a, h.rd a = resetWord a ∧ h.byte a = 0 ∧ mget (fun _ => (0xFF : Byte)) h.nvm a = 0xFF) ∧
  (∀ c i, (h.core c).run = .held ∧ (h.core c).gr i = 0 ∧ (h.core c).resv = none) ∧
  h.reads [(SYS_ID.PART, 0x4864), (SYS_ID.REV, 2), (SYS_ID.FAMILY, 1), (PWR_BERM_CFG.LS15, 1), (PWR_BERM_CFG.APPEND_CAP, 0x400), (CMT_DRAIN_CFG.TIMEOUT, 0x64), (CMT_DRAIN_CFG.MASK, 0x1F),
    (MRC_LS_BASE.ADDR 15, 0x00FC0000 / 64), (MRC_LS_SIZE.SLOTS 15, 3072), (LCS_STATE.STATE, 1), (CMT_STATUS.STATE, 0), (SYS_LAUNCH_STAT.DONE, 0)] ∧
  (∀ k, k < 256 → h.get (INTC_CFG.PRIO k) = 0xF) ∧
  (∀ k, k < 72 → h.reads [(GPIO_MUX.FN k, 0), (GPIO_MUX.PULL k, 1), (GPIO_MUX.DRIVE k, 1), (GPIO_MUX.SLOW k, 1)])

/-- The invariant of all commands: canonical tables and a first-in first-out queue. -/
def Obligations.EveryStepKeepsTablesAndQueue : Prop :=
  ∀ (s t : State), s.hw.tablesOk = true → Sys2Proof.Machine.step s = .next t → t.hw.tablesOk = true ∧ t.pending = s.pending.tail
end

