-- ==== Sys2Proof/Laws/Map.lean ====
section
/-! SUPPORT. The laws of sparse tables: what a write changes, and that every operation keeps the canonical form. -/

namespace Sys2Proof.Machine

variable {α : Type} [DecidableEq α] {d : Nat → α}

/-- Keys rise strictly. -/
abbrev Rising {α : Type} (m : SMap α) : Prop := m.Pairwise (fun x y => x.1 < y.1)

theorem mwf_iff {m : SMap α} : mwf d m = true ↔ Rising m ∧ ∀ e ∈ m, e.2 ≠ d e.1 := by
  simp [mwf, Rising]

omit [DecidableEq α] in
theorem mget_mins (k : Nat) (v : α) (m : SMap α) (j : Nat) : mget d (mins k v m) j = if j = k then v else mget d m j := by
  induction m with
  | nil => by_cases h : k = j <;> simp [mins, mget, h, Ne.symm]
  | cons e t ih =>
    obtain ⟨a, w⟩ := e
    by_cases h : j = k
    · subst h
      simp only [mins, if_true]
      split
      · simp [mget]
      · split
        · simp [mget]
        · simp_all [mget]; intro h; simp_all
    · simp only [mins, h, if_false]
      split
      · simp [mget, Ne.symm h]
      · split
        · rename_i h1; subst h1; simp [mget, Ne.symm h]
        · simp [mget, ih, h]

omit [DecidableEq α] in
theorem mget_of_lt {m : SMap α} {j : Nat} (h : ∀ e ∈ m, j < e.1) : mget d m j = d j := by
  induction m with
  | nil => rfl
  | cons e t ih =>
    obtain ⟨a, w⟩ := e
    have := h (a, w) (by simp)
    simp only [mget]
    rw [if_neg (by simp at this; omega)]
    exact ih (fun e he => h e (by simp [he]))

omit [DecidableEq α] in
theorem mem_mins {k : Nat} {v : α} {m : SMap α} {e : Nat × α} (h : e ∈ mins k v m) : e = (k, v) ∨ e ∈ m := by
  induction m with
  | nil => simpa [mins] using h
  | cons f t ih =>
    obtain ⟨a, w⟩ := f
    simp only [mins] at h
    split at h
    · simpa using h
    · split at h
      · simp at h ⊢; tauto
      · simp at h ⊢
        rcases h with h | h
        · tauto
        · rcases ih h with h | h <;> tauto

omit [DecidableEq α] in
theorem rising_mins {k : Nat} {v : α} {m : SMap α} (h : Rising m) : Rising (mins k v m) := by
  induction m with
  | nil => simp [mins, Rising]
  | cons f t ih =>
    obtain ⟨a, w⟩ := f
    have hp := List.pairwise_cons.1 h
    simp only [mins]
    split
    · rename_i hlt
      refine List.pairwise_cons.2 ⟨fun e he => ?_, h⟩
      rcases List.mem_cons.1 he with rfl | he
      · exact hlt
      · exact Nat.lt_trans hlt (hp.1 e he)
    · split
      · rename_i heq
        subst heq
        exact List.pairwise_cons.2 ⟨hp.1, hp.2⟩
      · refine List.pairwise_cons.2 ⟨fun e he => ?_, ih hp.2⟩
        rcases mem_mins he with rfl | he
        · simp; omega
        · exact hp.1 e he

omit [DecidableEq α] in
theorem rising_mdel {k : Nat} {m : SMap α} (h : Rising m) : Rising (mdel k m) := h.filter _

omit [DecidableEq α] in
theorem mget_mdel (k : Nat) (m : SMap α) (j : Nat) : mget d (mdel k m) j = if j = k then d j else mget d m j := by
  induction m with
  | nil => by_cases h : j = k <;> simp [mdel, mget]
  | cons e t ih =>
    obtain ⟨a, w⟩ := e
    simp only [mdel] at ih
    by_cases h : a = k
    · subst h
      simp only [mdel, mget, List.filter]
      simp only [bne_self_eq_false, ih]
      by_cases h : j = a
      · simp [h]
      · rw [if_neg h, if_neg h, if_neg (Ne.symm h)]
    · have : (a != k) = true := by simp [h]
      simp only [mdel, mget, List.filter, this, ih]
      by_cases hj : j = k
      · subst hj; simp [h]
      · simp [hj]

/-- A read after a write: the written key gives the value, every other key what it gave. -/
theorem mget_mput (m : SMap α) (k : Nat) (v : α) (j : Nat) : mget d (mput d m k v) j = if j = k then v else mget d m j := by
  unfold mput
  split
  · rename_i h
    rw [mget_mdel]
    by_cases hj : j = k <;> simp [hj, h]
  · exact mget_mins k v m j

theorem mwf_nil : mwf d ([] : SMap α) = true := by simp [mwf]

/-- A write keeps the canonical form. -/
theorem mwf_mput {m : SMap α} (h : mwf d m = true) (k : Nat) (v : α) : mwf d (mput d m k v) = true := by
  rw [mwf_iff] at h ⊢
  unfold mput
  split
  · exact ⟨rising_mdel h.1, fun e he => h.2 e (List.mem_of_mem_filter he)⟩
  · rename_i hv
    refine ⟨rising_mins h.1, fun e he => ?_⟩
    rcases mem_mins he with rfl | he
    · exact hv
    · exact h.2 e he

/-- Whatever a list is, `mcanon` of it is canonical. -/
theorem mwf_mcanon (m : SMap α) : mwf d (mcanon d m) = true := by
  induction m with
  | nil => exact mwf_nil
  | cons e t ih => obtain ⟨k, v⟩ := e; exact mwf_mput ih k v

/-- `mcanon` changes no read. -/
theorem mget_mcanon (m : SMap α) (j : Nat) : mget d (mcanon d m) j = mget d m j := by
  induction m with
  | nil => rfl
  | cons e t ih =>
    obtain ⟨k, v⟩ := e
    simp only [mcanon, mget_mput, ih, mget]
    by_cases h : j = k
    · simp [h]
    · rw [if_neg h, if_neg (Ne.symm h)]

omit [DecidableEq α] in
theorem mins_of_lt {k : Nat} {v : α} {m : SMap α} (h : ∀ e ∈ m, k < e.1) : mins k v m = (k, v) :: m := by
  cases m with
  | nil => rfl
  | cons e t =>
    obtain ⟨a, w⟩ := e
    have := h (a, w) (by simp)
    simp only [mins]
    rw [if_pos (by simpa using this)]

/-- A canonical list is what `mcanon` makes of it. -/
theorem mcanon_of_mwf {m : SMap α} (h : mwf d m = true) : mcanon d m = m := by
  induction m with
  | nil => rfl
  | cons e t ih =>
    obtain ⟨k, v⟩ := e
    have hw := mwf_iff.1 h
    have hp := List.pairwise_cons.1 hw.1
    have ht : mwf d t = true := mwf_iff.2 ⟨hp.2, fun e he => hw.2 e (by simp [he])⟩
    rw [mcanon, ih ht, mput, if_neg (hw.2 (k, v) (by simp)), mins_of_lt hp.1]

/-- Equal reads and canonical forms make equal tables. -/
theorem mwf_ext {m n : SMap α} (hm : mwf d m = true) (hn : mwf d n = true) (h : ∀ j, mget d m j = mget d n j) : m = n := by
  induction m generalizing n with
  | nil =>
    cases n with
    | nil => rfl
    | cons e t =>
      obtain ⟨k, v⟩ := e
      have h1 := h k
      simp only [mget, if_true] at h1
      exact absurd h1.symm ((mwf_iff.1 hn).2 (k, v) (by simp))
  | cons e t ih =>
    obtain ⟨k, v⟩ := e
    have hw := mwf_iff.1 hm
    have hp := List.pairwise_cons.1 hw.1
    have ht : mwf d t = true := mwf_iff.2 ⟨hp.2, fun e he => hw.2 e (by simp [he])⟩
    cases n with
    | nil =>
      have h1 := h k
      simp only [mget, if_true] at h1
      exact absurd h1 (hw.2 (k, v) (by simp))
    | cons f u =>
      obtain ⟨l, w⟩ := f
      have hw' := mwf_iff.1 hn
      have hp' := List.pairwise_cons.1 hw'.1
      have hu : mwf d u = true := mwf_iff.2 ⟨hp'.2, fun e he => hw'.2 e (by simp [he])⟩
      have hkl : k = l := by
        rcases Nat.lt_trichotomy k l with hlt | heq | hlt
        · have h1 := h k
          simp only [mget, if_true] at h1
          rw [if_neg (by omega), mget_of_lt (fun e he => Nat.lt_trans hlt (hp'.1 e he))] at h1
          exact absurd h1 (hw.2 (k, v) (by simp))
        · exact heq
        · have h1 := h l
          simp only [mget, if_true] at h1
          rw [if_neg (by omega), mget_of_lt (fun e he => Nat.lt_trans hlt (hp.1 e he))] at h1
          exact absurd h1.symm (hw'.2 (l, w) (by simp))
      subst hkl
      have hv := h k
      simp only [mget, if_true] at hv
      subst hv
      congr 1
      refine ih ht hu (fun j => ?_)
      by_cases hj : k = j
      · subst hj
        rw [mget_of_lt hp.1, mget_of_lt hp'.1]
      · have := h j
        simpa only [mget, if_neg hj] using this

omit [DecidableEq α] in
/-- Listed entries that go leave the rest rising. -/
theorem rising_filter {m : SMap α} (p : Nat × α → Bool) (h : Rising m) : Rising (m.filter p) := h.filter _

/-- Removing entries keeps the canonical form. -/
theorem mwf_filter {m : SMap α} (p : Nat × α → Bool) (h : mwf d m = true) : mwf d (m.filter p) = true := by
  rw [mwf_iff] at h ⊢
  exact ⟨rising_filter p h.1, fun e he => h.2 e (List.mem_of_mem_filter he)⟩

end Sys2Proof.Machine
end

