-- ==== Sys2Proof/Laws/State.lean ====
section
/-! SUPPORT. What each update of the state leaves alone, one lemma per field; reads of registers and fields after writes. -/

namespace Sys2Proof.Machine

/-! ### A register is written -/

@[simp] theorem Hw.wr_mem (h : Hw) (a : Nat) (v : BitVec 32) : (h.wr a v).mem = h.mem := rfl
@[simp] theorem Hw.wr_nvm (h : Hw) (a : Nat) (v : BitVec 32) : (h.wr a v).nvm = h.nvm := rfl
@[simp] theorem Hw.wr_dc0 (h : Hw) (a : Nat) (v : BitVec 32) : (h.wr a v).dc0 = h.dc0 := rfl
@[simp] theorem Hw.wr_dc1 (h : Hw) (a : Nat) (v : BitVec 32) : (h.wr a v).dc1 = h.dc1 := rfl
@[simp] theorem Hw.wr_pec (h : Hw) (a : Nat) (v : BitVec 32) : (h.wr a v).pec = h.pec := rfl
@[simp] theorem Hw.wr_l2 (h : Hw) (a : Nat) (v : BitVec 32) : (h.wr a v).l2 = h.l2 := rfl
@[simp] theorem Hw.wr_dir (h : Hw) (a : Nat) (v : BitVec 32) : (h.wr a v).dir = h.dir := rfl
@[simp] theorem Hw.wr_upsets (h : Hw) (a : Nat) (v : BitVec 32) : (h.wr a v).upsets = h.upsets := rfl
@[simp] theorem Hw.wr_m0 (h : Hw) (a : Nat) (v : BitVec 32) : (h.wr a v).m0 = h.m0 := rfl
@[simp] theorem Hw.wr_m1 (h : Hw) (a : Nat) (v : BitVec 32) : (h.wr a v).m1 = h.m1 := rfl
@[simp] theorem Hw.wr_pol (h : Hw) (a : Nat) (v : BitVec 32) : (h.wr a v).pol = h.pol := rfl
@[simp] theorem Hw.wr_act0 (h : Hw) (a : Nat) (v : BitVec 32) : (h.wr a v).act0 = h.act0 := rfl
@[simp] theorem Hw.wr_act1 (h : Hw) (a : Nat) (v : BitVec 32) : (h.wr a v).act1 = h.act1 := rfl
@[simp] theorem Hw.wr_lineLatch (h : Hw) (a : Nat) (v : BitVec 32) : (h.wr a v).lineLatch = h.lineLatch := rfl
@[simp] theorem Hw.wr_pwr (h : Hw) (a : Nat) (v : BitVec 32) : (h.wr a v).pwr = h.pwr := rfl
@[simp] theorem Hw.wr_clk (h : Hw) (a : Nat) (v : BitVec 32) : (h.wr a v).clk = h.clk := rfl
@[simp] theorem Hw.wr_bak (h : Hw) (a : Nat) (v : BitVec 32) : (h.wr a v).bak = h.bak := rfl
@[simp] theorem Hw.wr_lnch (h : Hw) (a : Nat) (v : BitVec 32) : (h.wr a v).lnch = h.lnch := rfl
@[simp] theorem Hw.wr_lcs (h : Hw) (a : Nat) (v : BitVec 32) : (h.wr a v).lcs = h.lcs := rfl
@[simp] theorem Hw.wr_lcsm (h : Hw) (a : Nat) (v : BitVec 32) : (h.wr a v).lcsm = h.lcsm := rfl
@[simp] theorem Hw.wr_cmt (h : Hw) (a : Nat) (v : BitVec 32) : (h.wr a v).cmt = h.cmt := rfl
@[simp] theorem Hw.wr_appendQ (h : Hw) (a : Nat) (v : BitVec 32) : (h.wr a v).appendQ = h.appendQ := rfl
@[simp] theorem Hw.wr_sramScrub (h : Hw) (a : Nat) (v : BitVec 32) : (h.wr a v).sramScrub = h.sramScrub := rfl
@[simp] theorem Hw.wr_pools (h : Hw) (a : Nat) (v : BitVec 32) : (h.wr a v).pools = h.pools := rfl
@[simp] theorem Hw.wr_lsSlot (h : Hw) (a : Nat) (v : BitVec 32) : (h.wr a v).lsSlot = h.lsSlot := rfl
@[simp] theorem Hw.wr_busData (h : Hw) (a : Nat) (v : BitVec 32) : (h.wr a v).busData = h.busData := rfl
@[simp] theorem Hw.wr_drain (h : Hw) (a : Nat) (v : BitVec 32) : (h.wr a v).drain = h.drain := rfl
@[simp] theorem Hw.wr_ddrHot (h : Hw) (a : Nat) (v : BitVec 32) : (h.wr a v).ddrHot = h.ddrHot := rfl
@[simp] theorem Hw.wr_stores (h : Hw) (a : Nat) (v : BitVec 32) : (h.wr a v).stores = h.stores := rfl
@[simp] theorem Hw.wr_laneG (h : Hw) (a : Nat) (v : BitVec 32) : (h.wr a v).laneG = h.laneG := rfl
@[simp] theorem Hw.wr_laneQ (h : Hw) (a : Nat) (v : BitVec 32) : (h.wr a v).laneQ = h.laneQ := rfl
@[simp] theorem Hw.wr_laneL (h : Hw) (a : Nat) (v : BitVec 32) : (h.wr a v).laneL = h.laneL := rfl
@[simp] theorem Hw.wr_laneK (h : Hw) (a : Nat) (v : BitVec 32) : (h.wr a v).laneK = h.laneK := rfl
@[simp] theorem Hw.wr_istore (h : Hw) (a : Nat) (v : BitVec 32) : (h.wr a v).istore = h.istore := rfl
@[simp] theorem Hw.wr_istoreBad (h : Hw) (a : Nat) (v : BitVec 32) : (h.wr a v).istoreBad = h.istoreBad := rfl
@[simp] theorem Hw.wr_isl (h : Hw) (a : Nat) (v : BitVec 32) : (h.wr a v).isl = h.isl := rfl
@[simp] theorem Hw.wr_avsLoop (h : Hw) (a : Nat) (v : BitVec 32) : (h.wr a v).avsLoop = h.avsLoop := rfl
@[simp] theorem Hw.wr_adcs (h : Hw) (a : Nat) (v : BitVec 32) : (h.wr a v).adcs = h.adcs := rfl
@[simp] theorem Hw.wr_iepe (h : Hw) (a : Nat) (v : BitVec 32) : (h.wr a v).iepe = h.iepe := rfl
@[simp] theorem Hw.wr_teds (h : Hw) (a : Nat) (v : BitVec 32) : (h.wr a v).teds = h.teds := rfl
@[simp] theorem Hw.wr_cal (h : Hw) (a : Nat) (v : BitVec 32) : (h.wr a v).cal = h.cal := rfl
@[simp] theorem Hw.wr_bst1Loop (h : Hw) (a : Nat) (v : BitVec 32) : (h.wr a v).bst1Loop = h.bst1Loop := rfl
@[simp] theorem Hw.wr_drv (h : Hw) (a : Nat) (v : BitVec 32) : (h.wr a v).drv = h.drv := rfl
@[simp] theorem Hw.wr_wdFrac (h : Hw) (a : Nat) (v : BitVec 32) : (h.wr a v).wdFrac = h.wdFrac := rfl
@[simp] theorem Hw.wr_l2ups (h : Hw) (a : Nat) (v : BitVec 32) : (h.wr a v).l2ups = h.l2ups := rfl
@[simp] theorem Hw.wr_inlineEcc (h : Hw) (a : Nat) (v : BitVec 32) : (h.wr a v).inlineEcc = h.inlineEcc := rfl
@[simp] theorem Hw.wr_clGate (h : Hw) (a : Nat) (v : BitVec 32) : (h.wr a v).clGate = h.clGate := rfl
@[simp] theorem Hw.wr_cls (h : Hw) (a : Nat) (v : BitVec 32) : (h.wr a v).cls = h.cls := rfl
@[simp] theorem Hw.wr_bst2Loop (h : Hw) (a : Nat) (v : BitVec 32) : (h.wr a v).bst2Loop = h.bst2Loop := rfl
@[simp] theorem Hw.wr_pts (h : Hw) (a : Nat) (v : BitVec 32) : (h.wr a v).pts = h.pts := rfl
@[simp] theorem Hw.wr_phase (h : Hw) (a : Nat) (v : BitVec 32) : (h.wr a v).phase = h.phase := rfl
@[simp] theorem Hw.wr_evLines (h : Hw) (a : Nat) (v : BitVec 32) : (h.wr a v).evLines = h.evLines := rfl
@[simp] theorem Hw.wr_snaps (h : Hw) (a : Nat) (v : BitVec 32) : (h.wr a v).snaps = h.snaps := rfl
@[simp] theorem Hw.wr_uarts (h : Hw) (a : Nat) (v : BitVec 32) : (h.wr a v).uarts = h.uarts := rfl
@[simp] theorem Hw.wr_cans (h : Hw) (a : Nat) (v : BitVec 32) : (h.wr a v).cans = h.cans := rfl
@[simp] theorem Hw.wr_spis (h : Hw) (a : Nat) (v : BitVec 32) : (h.wr a v).spis = h.spis := rfl
@[simp] theorem Hw.wr_i2cs (h : Hw) (a : Nat) (v : BitVec 32) : (h.wr a v).i2cs = h.i2cs := rfl
@[simp] theorem Hw.wr_xspi (h : Hw) (a : Nat) (v : BitVec 32) : (h.wr a v).xspi = h.xspi := rfl
@[simp] theorem Hw.wr_eths (h : Hw) (a : Nat) (v : BitVec 32) : (h.wr a v).eths = h.eths := rfl
@[simp] theorem Hw.wr_bqs (h : Hw) (a : Nat) (v : BitVec 32) : (h.wr a v).bqs = h.bqs := rfl
@[simp] theorem Hw.wr_pgRule (h : Hw) (a : Nat) (v : BitVec 32) : (h.wr a v).pgRule = h.pgRule := rfl
@[simp] theorem Hw.wr_drainSeq (h : Hw) (a : Nat) (v : BitVec 32) : (h.wr a v).drainSeq = h.drainSeq := rfl
@[simp] theorem Hw.wr_thrLoop (h : Hw) (a : Nat) (v : BitVec 32) : (h.wr a v).thrLoop = h.thrLoop := rfl
@[simp] theorem Hw.wr_twin (h : Hw) (a : Nat) (v : BitVec 32) : (h.wr a v).twin = h.twin := rfl
@[simp] theorem Hw.wr_dbg (h : Hw) (a : Nat) (v : BitVec 32) : (h.wr a v).dbg = h.dbg := rfl
@[simp] theorem Hw.wr_bistHold (h : Hw) (a : Nat) (v : BitVec 32) : (h.wr a v).bistHold = h.bistHold := rfl
@[simp] theorem Hw.wr_freeCtr (h : Hw) (a : Nat) (v : BitVec 32) : (h.wr a v).freeCtr = h.freeCtr := rfl

/-! ### A field is written -/

@[simp] theorem Hw.set_mem (h : Hw) (f : Fld) (v : Nat) : (h.set f v).mem = h.mem := rfl
@[simp] theorem Hw.set_nvm (h : Hw) (f : Fld) (v : Nat) : (h.set f v).nvm = h.nvm := rfl
@[simp] theorem Hw.set_dc0 (h : Hw) (f : Fld) (v : Nat) : (h.set f v).dc0 = h.dc0 := rfl
@[simp] theorem Hw.set_dc1 (h : Hw) (f : Fld) (v : Nat) : (h.set f v).dc1 = h.dc1 := rfl
@[simp] theorem Hw.set_pec (h : Hw) (f : Fld) (v : Nat) : (h.set f v).pec = h.pec := rfl
@[simp] theorem Hw.set_l2 (h : Hw) (f : Fld) (v : Nat) : (h.set f v).l2 = h.l2 := rfl
@[simp] theorem Hw.set_dir (h : Hw) (f : Fld) (v : Nat) : (h.set f v).dir = h.dir := rfl
@[simp] theorem Hw.set_upsets (h : Hw) (f : Fld) (v : Nat) : (h.set f v).upsets = h.upsets := rfl
@[simp] theorem Hw.set_m0 (h : Hw) (f : Fld) (v : Nat) : (h.set f v).m0 = h.m0 := rfl
@[simp] theorem Hw.set_m1 (h : Hw) (f : Fld) (v : Nat) : (h.set f v).m1 = h.m1 := rfl
@[simp] theorem Hw.set_pol (h : Hw) (f : Fld) (v : Nat) : (h.set f v).pol = h.pol := rfl
@[simp] theorem Hw.set_act0 (h : Hw) (f : Fld) (v : Nat) : (h.set f v).act0 = h.act0 := rfl
@[simp] theorem Hw.set_act1 (h : Hw) (f : Fld) (v : Nat) : (h.set f v).act1 = h.act1 := rfl
@[simp] theorem Hw.set_lineLatch (h : Hw) (f : Fld) (v : Nat) : (h.set f v).lineLatch = h.lineLatch := rfl
@[simp] theorem Hw.set_pwr (h : Hw) (f : Fld) (v : Nat) : (h.set f v).pwr = h.pwr := rfl
@[simp] theorem Hw.set_clk (h : Hw) (f : Fld) (v : Nat) : (h.set f v).clk = h.clk := rfl
@[simp] theorem Hw.set_bak (h : Hw) (f : Fld) (v : Nat) : (h.set f v).bak = h.bak := rfl
@[simp] theorem Hw.set_lnch (h : Hw) (f : Fld) (v : Nat) : (h.set f v).lnch = h.lnch := rfl
@[simp] theorem Hw.set_lcs (h : Hw) (f : Fld) (v : Nat) : (h.set f v).lcs = h.lcs := rfl
@[simp] theorem Hw.set_lcsm (h : Hw) (f : Fld) (v : Nat) : (h.set f v).lcsm = h.lcsm := rfl
@[simp] theorem Hw.set_cmt (h : Hw) (f : Fld) (v : Nat) : (h.set f v).cmt = h.cmt := rfl
@[simp] theorem Hw.set_appendQ (h : Hw) (f : Fld) (v : Nat) : (h.set f v).appendQ = h.appendQ := rfl
@[simp] theorem Hw.set_sramScrub (h : Hw) (f : Fld) (v : Nat) : (h.set f v).sramScrub = h.sramScrub := rfl
@[simp] theorem Hw.set_pools (h : Hw) (f : Fld) (v : Nat) : (h.set f v).pools = h.pools := rfl
@[simp] theorem Hw.set_lsSlot (h : Hw) (f : Fld) (v : Nat) : (h.set f v).lsSlot = h.lsSlot := rfl
@[simp] theorem Hw.set_busData (h : Hw) (f : Fld) (v : Nat) : (h.set f v).busData = h.busData := rfl
@[simp] theorem Hw.set_drain (h : Hw) (f : Fld) (v : Nat) : (h.set f v).drain = h.drain := rfl
@[simp] theorem Hw.set_ddrHot (h : Hw) (f : Fld) (v : Nat) : (h.set f v).ddrHot = h.ddrHot := rfl
@[simp] theorem Hw.set_stores (h : Hw) (f : Fld) (v : Nat) : (h.set f v).stores = h.stores := rfl
@[simp] theorem Hw.set_laneG (h : Hw) (f : Fld) (v : Nat) : (h.set f v).laneG = h.laneG := rfl
@[simp] theorem Hw.set_laneQ (h : Hw) (f : Fld) (v : Nat) : (h.set f v).laneQ = h.laneQ := rfl
@[simp] theorem Hw.set_laneL (h : Hw) (f : Fld) (v : Nat) : (h.set f v).laneL = h.laneL := rfl
@[simp] theorem Hw.set_laneK (h : Hw) (f : Fld) (v : Nat) : (h.set f v).laneK = h.laneK := rfl
@[simp] theorem Hw.set_istore (h : Hw) (f : Fld) (v : Nat) : (h.set f v).istore = h.istore := rfl
@[simp] theorem Hw.set_istoreBad (h : Hw) (f : Fld) (v : Nat) : (h.set f v).istoreBad = h.istoreBad := rfl
@[simp] theorem Hw.set_isl (h : Hw) (f : Fld) (v : Nat) : (h.set f v).isl = h.isl := rfl
@[simp] theorem Hw.set_avsLoop (h : Hw) (f : Fld) (v : Nat) : (h.set f v).avsLoop = h.avsLoop := rfl
@[simp] theorem Hw.set_adcs (h : Hw) (f : Fld) (v : Nat) : (h.set f v).adcs = h.adcs := rfl
@[simp] theorem Hw.set_iepe (h : Hw) (f : Fld) (v : Nat) : (h.set f v).iepe = h.iepe := rfl
@[simp] theorem Hw.set_teds (h : Hw) (f : Fld) (v : Nat) : (h.set f v).teds = h.teds := rfl
@[simp] theorem Hw.set_cal (h : Hw) (f : Fld) (v : Nat) : (h.set f v).cal = h.cal := rfl
@[simp] theorem Hw.set_bst1Loop (h : Hw) (f : Fld) (v : Nat) : (h.set f v).bst1Loop = h.bst1Loop := rfl
@[simp] theorem Hw.set_drv (h : Hw) (f : Fld) (v : Nat) : (h.set f v).drv = h.drv := rfl
@[simp] theorem Hw.set_wdFrac (h : Hw) (f : Fld) (v : Nat) : (h.set f v).wdFrac = h.wdFrac := rfl
@[simp] theorem Hw.set_l2ups (h : Hw) (f : Fld) (v : Nat) : (h.set f v).l2ups = h.l2ups := rfl
@[simp] theorem Hw.set_inlineEcc (h : Hw) (f : Fld) (v : Nat) : (h.set f v).inlineEcc = h.inlineEcc := rfl
@[simp] theorem Hw.set_clGate (h : Hw) (f : Fld) (v : Nat) : (h.set f v).clGate = h.clGate := rfl
@[simp] theorem Hw.set_cls (h : Hw) (f : Fld) (v : Nat) : (h.set f v).cls = h.cls := rfl
@[simp] theorem Hw.set_bst2Loop (h : Hw) (f : Fld) (v : Nat) : (h.set f v).bst2Loop = h.bst2Loop := rfl
@[simp] theorem Hw.set_pts (h : Hw) (f : Fld) (v : Nat) : (h.set f v).pts = h.pts := rfl
@[simp] theorem Hw.set_phase (h : Hw) (f : Fld) (v : Nat) : (h.set f v).phase = h.phase := rfl
@[simp] theorem Hw.set_evLines (h : Hw) (f : Fld) (v : Nat) : (h.set f v).evLines = h.evLines := rfl
@[simp] theorem Hw.set_snaps (h : Hw) (f : Fld) (v : Nat) : (h.set f v).snaps = h.snaps := rfl
@[simp] theorem Hw.set_uarts (h : Hw) (f : Fld) (v : Nat) : (h.set f v).uarts = h.uarts := rfl
@[simp] theorem Hw.set_cans (h : Hw) (f : Fld) (v : Nat) : (h.set f v).cans = h.cans := rfl
@[simp] theorem Hw.set_spis (h : Hw) (f : Fld) (v : Nat) : (h.set f v).spis = h.spis := rfl
@[simp] theorem Hw.set_i2cs (h : Hw) (f : Fld) (v : Nat) : (h.set f v).i2cs = h.i2cs := rfl
@[simp] theorem Hw.set_xspi (h : Hw) (f : Fld) (v : Nat) : (h.set f v).xspi = h.xspi := rfl
@[simp] theorem Hw.set_eths (h : Hw) (f : Fld) (v : Nat) : (h.set f v).eths = h.eths := rfl
@[simp] theorem Hw.set_bqs (h : Hw) (f : Fld) (v : Nat) : (h.set f v).bqs = h.bqs := rfl
@[simp] theorem Hw.set_pgRule (h : Hw) (f : Fld) (v : Nat) : (h.set f v).pgRule = h.pgRule := rfl
@[simp] theorem Hw.set_drainSeq (h : Hw) (f : Fld) (v : Nat) : (h.set f v).drainSeq = h.drainSeq := rfl
@[simp] theorem Hw.set_thrLoop (h : Hw) (f : Fld) (v : Nat) : (h.set f v).thrLoop = h.thrLoop := rfl
@[simp] theorem Hw.set_twin (h : Hw) (f : Fld) (v : Nat) : (h.set f v).twin = h.twin := rfl
@[simp] theorem Hw.set_dbg (h : Hw) (f : Fld) (v : Nat) : (h.set f v).dbg = h.dbg := rfl
@[simp] theorem Hw.set_bistHold (h : Hw) (f : Fld) (v : Nat) : (h.set f v).bistHold = h.bistHold := rfl
@[simp] theorem Hw.set_freeCtr (h : Hw) (f : Fld) (v : Nat) : (h.set f v).freeCtr = h.freeCtr := rfl

/-! ### The tables are brought to canonical form -/

@[simp] theorem Hw.canon_dc0 (h : Hw) : (h.canon).dc0 = h.dc0 := rfl
@[simp] theorem Hw.canon_dc1 (h : Hw) : (h.canon).dc1 = h.dc1 := rfl
@[simp] theorem Hw.canon_pec (h : Hw) : (h.canon).pec = h.pec := rfl
@[simp] theorem Hw.canon_l2 (h : Hw) : (h.canon).l2 = h.l2 := rfl
@[simp] theorem Hw.canon_dir (h : Hw) : (h.canon).dir = h.dir := rfl
@[simp] theorem Hw.canon_upsets (h : Hw) : (h.canon).upsets = h.upsets := rfl
@[simp] theorem Hw.canon_m0 (h : Hw) : (h.canon).m0 = h.m0 := rfl
@[simp] theorem Hw.canon_m1 (h : Hw) : (h.canon).m1 = h.m1 := rfl
@[simp] theorem Hw.canon_pol (h : Hw) : (h.canon).pol = h.pol := rfl
@[simp] theorem Hw.canon_act0 (h : Hw) : (h.canon).act0 = h.act0 := rfl
@[simp] theorem Hw.canon_act1 (h : Hw) : (h.canon).act1 = h.act1 := rfl
@[simp] theorem Hw.canon_lineLatch (h : Hw) : (h.canon).lineLatch = h.lineLatch := rfl
@[simp] theorem Hw.canon_pwr (h : Hw) : (h.canon).pwr = h.pwr := rfl
@[simp] theorem Hw.canon_clk (h : Hw) : (h.canon).clk = h.clk := rfl
@[simp] theorem Hw.canon_bak (h : Hw) : (h.canon).bak = h.bak := rfl
@[simp] theorem Hw.canon_lnch (h : Hw) : (h.canon).lnch = h.lnch := rfl
@[simp] theorem Hw.canon_lcs (h : Hw) : (h.canon).lcs = h.lcs := rfl
@[simp] theorem Hw.canon_lcsm (h : Hw) : (h.canon).lcsm = h.lcsm := rfl
@[simp] theorem Hw.canon_cmt (h : Hw) : (h.canon).cmt = h.cmt := rfl
@[simp] theorem Hw.canon_appendQ (h : Hw) : (h.canon).appendQ = h.appendQ := rfl
@[simp] theorem Hw.canon_sramScrub (h : Hw) : (h.canon).sramScrub = h.sramScrub := rfl
@[simp] theorem Hw.canon_pools (h : Hw) : (h.canon).pools = h.pools := rfl
@[simp] theorem Hw.canon_lsSlot (h : Hw) : (h.canon).lsSlot = h.lsSlot := rfl
@[simp] theorem Hw.canon_busData (h : Hw) : (h.canon).busData = h.busData := rfl
@[simp] theorem Hw.canon_drain (h : Hw) : (h.canon).drain = h.drain := rfl
@[simp] theorem Hw.canon_ddrHot (h : Hw) : (h.canon).ddrHot = h.ddrHot := rfl
@[simp] theorem Hw.canon_stores (h : Hw) : (h.canon).stores = h.stores := rfl
@[simp] theorem Hw.canon_laneG (h : Hw) : (h.canon).laneG = h.laneG := rfl
@[simp] theorem Hw.canon_laneQ (h : Hw) : (h.canon).laneQ = h.laneQ := rfl
@[simp] theorem Hw.canon_laneL (h : Hw) : (h.canon).laneL = h.laneL := rfl
@[simp] theorem Hw.canon_laneK (h : Hw) : (h.canon).laneK = h.laneK := rfl
@[simp] theorem Hw.canon_istore (h : Hw) : (h.canon).istore = h.istore := rfl
@[simp] theorem Hw.canon_istoreBad (h : Hw) : (h.canon).istoreBad = h.istoreBad := rfl
@[simp] theorem Hw.canon_isl (h : Hw) : (h.canon).isl = h.isl := rfl
@[simp] theorem Hw.canon_avsLoop (h : Hw) : (h.canon).avsLoop = h.avsLoop := rfl
@[simp] theorem Hw.canon_adcs (h : Hw) : (h.canon).adcs = h.adcs := rfl
@[simp] theorem Hw.canon_iepe (h : Hw) : (h.canon).iepe = h.iepe := rfl
@[simp] theorem Hw.canon_teds (h : Hw) : (h.canon).teds = h.teds := rfl
@[simp] theorem Hw.canon_cal (h : Hw) : (h.canon).cal = h.cal := rfl
@[simp] theorem Hw.canon_bst1Loop (h : Hw) : (h.canon).bst1Loop = h.bst1Loop := rfl
@[simp] theorem Hw.canon_drv (h : Hw) : (h.canon).drv = h.drv := rfl
@[simp] theorem Hw.canon_wdFrac (h : Hw) : (h.canon).wdFrac = h.wdFrac := rfl
@[simp] theorem Hw.canon_l2ups (h : Hw) : (h.canon).l2ups = h.l2ups := rfl
@[simp] theorem Hw.canon_inlineEcc (h : Hw) : (h.canon).inlineEcc = h.inlineEcc := rfl
@[simp] theorem Hw.canon_clGate (h : Hw) : (h.canon).clGate = h.clGate := rfl
@[simp] theorem Hw.canon_cls (h : Hw) : (h.canon).cls = h.cls := rfl
@[simp] theorem Hw.canon_bst2Loop (h : Hw) : (h.canon).bst2Loop = h.bst2Loop := rfl
@[simp] theorem Hw.canon_pts (h : Hw) : (h.canon).pts = h.pts := rfl
@[simp] theorem Hw.canon_phase (h : Hw) : (h.canon).phase = h.phase := rfl
@[simp] theorem Hw.canon_evLines (h : Hw) : (h.canon).evLines = h.evLines := rfl
@[simp] theorem Hw.canon_snaps (h : Hw) : (h.canon).snaps = h.snaps := rfl
@[simp] theorem Hw.canon_uarts (h : Hw) : (h.canon).uarts = h.uarts := rfl
@[simp] theorem Hw.canon_cans (h : Hw) : (h.canon).cans = h.cans := rfl
@[simp] theorem Hw.canon_spis (h : Hw) : (h.canon).spis = h.spis := rfl
@[simp] theorem Hw.canon_i2cs (h : Hw) : (h.canon).i2cs = h.i2cs := rfl
@[simp] theorem Hw.canon_xspi (h : Hw) : (h.canon).xspi = h.xspi := rfl
@[simp] theorem Hw.canon_eths (h : Hw) : (h.canon).eths = h.eths := rfl
@[simp] theorem Hw.canon_bqs (h : Hw) : (h.canon).bqs = h.bqs := rfl
@[simp] theorem Hw.canon_pgRule (h : Hw) : (h.canon).pgRule = h.pgRule := rfl
@[simp] theorem Hw.canon_drainSeq (h : Hw) : (h.canon).drainSeq = h.drainSeq := rfl
@[simp] theorem Hw.canon_thrLoop (h : Hw) : (h.canon).thrLoop = h.thrLoop := rfl
@[simp] theorem Hw.canon_twin (h : Hw) : (h.canon).twin = h.twin := rfl
@[simp] theorem Hw.canon_dbg (h : Hw) : (h.canon).dbg = h.dbg := rfl
@[simp] theorem Hw.canon_bistHold (h : Hw) : (h.canon).bistHold = h.bistHold := rfl
@[simp] theorem Hw.canon_freeCtr (h : Hw) : (h.canon).freeCtr = h.freeCtr := rfl

/-! ### A free value is drawn -/

@[simp] theorem Hw.drawn_regs (h : Hw) : (h.drawn).regs = h.regs := rfl
@[simp] theorem Hw.drawn_mem (h : Hw) : (h.drawn).mem = h.mem := rfl
@[simp] theorem Hw.drawn_nvm (h : Hw) : (h.drawn).nvm = h.nvm := rfl
@[simp] theorem Hw.drawn_dc0 (h : Hw) : (h.drawn).dc0 = h.dc0 := rfl
@[simp] theorem Hw.drawn_dc1 (h : Hw) : (h.drawn).dc1 = h.dc1 := rfl
@[simp] theorem Hw.drawn_pec (h : Hw) : (h.drawn).pec = h.pec := rfl
@[simp] theorem Hw.drawn_l2 (h : Hw) : (h.drawn).l2 = h.l2 := rfl
@[simp] theorem Hw.drawn_dir (h : Hw) : (h.drawn).dir = h.dir := rfl
@[simp] theorem Hw.drawn_upsets (h : Hw) : (h.drawn).upsets = h.upsets := rfl
@[simp] theorem Hw.drawn_m0 (h : Hw) : (h.drawn).m0 = h.m0 := rfl
@[simp] theorem Hw.drawn_m1 (h : Hw) : (h.drawn).m1 = h.m1 := rfl
@[simp] theorem Hw.drawn_pol (h : Hw) : (h.drawn).pol = h.pol := rfl
@[simp] theorem Hw.drawn_act0 (h : Hw) : (h.drawn).act0 = h.act0 := rfl
@[simp] theorem Hw.drawn_act1 (h : Hw) : (h.drawn).act1 = h.act1 := rfl
@[simp] theorem Hw.drawn_lineLatch (h : Hw) : (h.drawn).lineLatch = h.lineLatch := rfl
@[simp] theorem Hw.drawn_pwr (h : Hw) : (h.drawn).pwr = h.pwr := rfl
@[simp] theorem Hw.drawn_clk (h : Hw) : (h.drawn).clk = h.clk := rfl
@[simp] theorem Hw.drawn_bak (h : Hw) : (h.drawn).bak = h.bak := rfl
@[simp] theorem Hw.drawn_lnch (h : Hw) : (h.drawn).lnch = h.lnch := rfl
@[simp] theorem Hw.drawn_lcs (h : Hw) : (h.drawn).lcs = h.lcs := rfl
@[simp] theorem Hw.drawn_lcsm (h : Hw) : (h.drawn).lcsm = h.lcsm := rfl
@[simp] theorem Hw.drawn_cmt (h : Hw) : (h.drawn).cmt = h.cmt := rfl
@[simp] theorem Hw.drawn_appendQ (h : Hw) : (h.drawn).appendQ = h.appendQ := rfl
@[simp] theorem Hw.drawn_sramScrub (h : Hw) : (h.drawn).sramScrub = h.sramScrub := rfl
@[simp] theorem Hw.drawn_pools (h : Hw) : (h.drawn).pools = h.pools := rfl
@[simp] theorem Hw.drawn_lsSlot (h : Hw) : (h.drawn).lsSlot = h.lsSlot := rfl
@[simp] theorem Hw.drawn_busData (h : Hw) : (h.drawn).busData = h.busData := rfl
@[simp] theorem Hw.drawn_drain (h : Hw) : (h.drawn).drain = h.drain := rfl
@[simp] theorem Hw.drawn_ddrHot (h : Hw) : (h.drawn).ddrHot = h.ddrHot := rfl
@[simp] theorem Hw.drawn_stores (h : Hw) : (h.drawn).stores = h.stores := rfl
@[simp] theorem Hw.drawn_laneG (h : Hw) : (h.drawn).laneG = h.laneG := rfl
@[simp] theorem Hw.drawn_laneQ (h : Hw) : (h.drawn).laneQ = h.laneQ := rfl
@[simp] theorem Hw.drawn_laneL (h : Hw) : (h.drawn).laneL = h.laneL := rfl
@[simp] theorem Hw.drawn_laneK (h : Hw) : (h.drawn).laneK = h.laneK := rfl
@[simp] theorem Hw.drawn_istore (h : Hw) : (h.drawn).istore = h.istore := rfl
@[simp] theorem Hw.drawn_istoreBad (h : Hw) : (h.drawn).istoreBad = h.istoreBad := rfl
@[simp] theorem Hw.drawn_isl (h : Hw) : (h.drawn).isl = h.isl := rfl
@[simp] theorem Hw.drawn_avsLoop (h : Hw) : (h.drawn).avsLoop = h.avsLoop := rfl
@[simp] theorem Hw.drawn_adcs (h : Hw) : (h.drawn).adcs = h.adcs := rfl
@[simp] theorem Hw.drawn_iepe (h : Hw) : (h.drawn).iepe = h.iepe := rfl
@[simp] theorem Hw.drawn_teds (h : Hw) : (h.drawn).teds = h.teds := rfl
@[simp] theorem Hw.drawn_cal (h : Hw) : (h.drawn).cal = h.cal := rfl
@[simp] theorem Hw.drawn_bst1Loop (h : Hw) : (h.drawn).bst1Loop = h.bst1Loop := rfl
@[simp] theorem Hw.drawn_drv (h : Hw) : (h.drawn).drv = h.drv := rfl
@[simp] theorem Hw.drawn_wdFrac (h : Hw) : (h.drawn).wdFrac = h.wdFrac := rfl
@[simp] theorem Hw.drawn_l2ups (h : Hw) : (h.drawn).l2ups = h.l2ups := rfl
@[simp] theorem Hw.drawn_inlineEcc (h : Hw) : (h.drawn).inlineEcc = h.inlineEcc := rfl
@[simp] theorem Hw.drawn_clGate (h : Hw) : (h.drawn).clGate = h.clGate := rfl
@[simp] theorem Hw.drawn_cls (h : Hw) : (h.drawn).cls = h.cls := rfl
@[simp] theorem Hw.drawn_bst2Loop (h : Hw) : (h.drawn).bst2Loop = h.bst2Loop := rfl
@[simp] theorem Hw.drawn_pts (h : Hw) : (h.drawn).pts = h.pts := rfl
@[simp] theorem Hw.drawn_phase (h : Hw) : (h.drawn).phase = h.phase := rfl
@[simp] theorem Hw.drawn_evLines (h : Hw) : (h.drawn).evLines = h.evLines := rfl
@[simp] theorem Hw.drawn_snaps (h : Hw) : (h.drawn).snaps = h.snaps := rfl
@[simp] theorem Hw.drawn_uarts (h : Hw) : (h.drawn).uarts = h.uarts := rfl
@[simp] theorem Hw.drawn_cans (h : Hw) : (h.drawn).cans = h.cans := rfl
@[simp] theorem Hw.drawn_spis (h : Hw) : (h.drawn).spis = h.spis := rfl
@[simp] theorem Hw.drawn_i2cs (h : Hw) : (h.drawn).i2cs = h.i2cs := rfl
@[simp] theorem Hw.drawn_xspi (h : Hw) : (h.drawn).xspi = h.xspi := rfl
@[simp] theorem Hw.drawn_eths (h : Hw) : (h.drawn).eths = h.eths := rfl
@[simp] theorem Hw.drawn_bqs (h : Hw) : (h.drawn).bqs = h.bqs := rfl
@[simp] theorem Hw.drawn_pgRule (h : Hw) : (h.drawn).pgRule = h.pgRule := rfl
@[simp] theorem Hw.drawn_drainSeq (h : Hw) : (h.drawn).drainSeq = h.drainSeq := rfl
@[simp] theorem Hw.drawn_thrLoop (h : Hw) : (h.drawn).thrLoop = h.thrLoop := rfl
@[simp] theorem Hw.drawn_twin (h : Hw) : (h.drawn).twin = h.twin := rfl
@[simp] theorem Hw.drawn_dbg (h : Hw) : (h.drawn).dbg = h.dbg := rfl
@[simp] theorem Hw.drawn_bistHold (h : Hw) : (h.drawn).bistHold = h.bistHold := rfl
@[simp] theorem Hw.drawn_peAns (h : Hw) : h.drawn.peAns = h.peAns := rfl
@[simp] theorem Hw.drawn_logEra (h : Hw) : h.drawn.logEra = h.logEra := rfl
@[simp] theorem Hw.drawn_bistWait (h : Hw) : h.drawn.bistWait = h.bistWait := rfl
/-! ### Cores -/

@[simp] theorem Hw.setCore_core (h : Hw) (c : CoreId) (x : Core) : (h.setCore c x).core c = x := by cases c <;> rfl

theorem Hw.setCore_other (h : Hw) {c d : CoreId} (x : Core) (hd : d ≠ c) : (h.setCore c x).core d = h.core d := by
  cases c <;> cases d <;> simp_all [Hw.setCore, Hw.core]

@[simp] theorem Hw.setCore_setCore (h : Hw) (c : CoreId) (x y : Core) : (h.setCore c x).setCore c y = h.setCore c y := by
  cases c <;> rfl

@[simp] theorem Hw.setCore_self (h : Hw) (c : CoreId) : h.setCore c (h.core c) = h := by cases c <;> rfl

@[simp] theorem Hw.setCore_regs (h : Hw) (c : CoreId) (x : Core) : (h.setCore c x).regs = h.regs := by cases c <;> rfl
@[simp] theorem Hw.setCore_mem (h : Hw) (c : CoreId) (x : Core) : (h.setCore c x).mem = h.mem := by cases c <;> rfl
@[simp] theorem Hw.setCore_dc0 (h : Hw) (c : CoreId) (x : Core) : (h.setCore c x).dc0 = h.dc0 := by cases c <;> rfl
@[simp] theorem Hw.setCore_dc1 (h : Hw) (c : CoreId) (x : Core) : (h.setCore c x).dc1 = h.dc1 := by cases c <;> rfl
@[simp] theorem Hw.setCore_pec (h : Hw) (c : CoreId) (x : Core) : (h.setCore c x).pec = h.pec := by cases c <;> rfl
@[simp] theorem Hw.setCore_l2 (h : Hw) (c : CoreId) (x : Core) : (h.setCore c x).l2 = h.l2 := by cases c <;> rfl
@[simp] theorem Hw.setCore_nvm (h : Hw) (c : CoreId) (x : Core) : (h.setCore c x).nvm = h.nvm := by cases c <;> rfl
@[simp] theorem Hw.setCore_pwr (h : Hw) (c : CoreId) (x : Core) : (h.setCore c x).pwr = h.pwr := by cases c <;> rfl
@[simp] theorem Hw.setCore_clk (h : Hw) (c : CoreId) (x : Core) : (h.setCore c x).clk = h.clk := by cases c <;> rfl
@[simp] theorem Hw.setCore_wdFrac (h : Hw) (c : CoreId) (x : Core) : (h.setCore c x).wdFrac = h.wdFrac := by cases c <;> rfl
@[simp] theorem Hw.setCore_dir (h : Hw) (c : CoreId) (x : Core) : (h.setCore c x).dir = h.dir := by cases c <;> rfl
@[simp] theorem Hw.setCore_upsets (h : Hw) (c : CoreId) (x : Core) : (h.setCore c x).upsets = h.upsets := by cases c <;> rfl
@[simp] theorem Hw.setCore_l2ups (h : Hw) (c : CoreId) (x : Core) : (h.setCore c x).l2ups = h.l2ups := by cases c <;> rfl
@[simp] theorem Hw.setCore_inlineEcc (h : Hw) (c : CoreId) (x : Core) : (h.setCore c x).inlineEcc = h.inlineEcc := by cases c <;> rfl
@[simp] theorem Hw.setCore_act0 (h : Hw) (c : CoreId) (x : Core) : (h.setCore c x).act0 = h.act0 := by cases c <;> rfl
@[simp] theorem Hw.setCore_act1 (h : Hw) (c : CoreId) (x : Core) : (h.setCore c x).act1 = h.act1 := by cases c <;> rfl
@[simp] theorem Hw.setCore_lineLatch (h : Hw) (c : CoreId) (x : Core) : (h.setCore c x).lineLatch = h.lineLatch := by cases c <;> rfl
@[simp] theorem Hw.setCore_bak (h : Hw) (c : CoreId) (x : Core) : (h.setCore c x).bak = h.bak := by cases c <;> rfl
@[simp] theorem Hw.setCore_lnch (h : Hw) (c : CoreId) (x : Core) : (h.setCore c x).lnch = h.lnch := by cases c <;> rfl
@[simp] theorem Hw.setCore_lcs (h : Hw) (c : CoreId) (x : Core) : (h.setCore c x).lcs = h.lcs := by cases c <;> rfl
@[simp] theorem Hw.setCore_lcsm (h : Hw) (c : CoreId) (x : Core) : (h.setCore c x).lcsm = h.lcsm := by cases c <;> rfl
@[simp] theorem Hw.setCore_cmt (h : Hw) (c : CoreId) (x : Core) : (h.setCore c x).cmt = h.cmt := by cases c <;> rfl
@[simp] theorem Hw.setCore_appendQ (h : Hw) (c : CoreId) (x : Core) : (h.setCore c x).appendQ = h.appendQ := by cases c <;> rfl
@[simp] theorem Hw.setCore_sramScrub (h : Hw) (c : CoreId) (x : Core) : (h.setCore c x).sramScrub = h.sramScrub := by cases c <;> rfl
@[simp] theorem Hw.setCore_pools (h : Hw) (c : CoreId) (x : Core) : (h.setCore c x).pools = h.pools := by cases c <;> rfl
@[simp] theorem Hw.setCore_peAns (h : Hw) (c : CoreId) (x : Core) : (h.setCore c x).peAns = h.peAns := by cases c <;> rfl
@[simp] theorem Hw.setCore_lsSlot (h : Hw) (c : CoreId) (x : Core) : (h.setCore c x).lsSlot = h.lsSlot := by cases c <;> rfl
@[simp] theorem Hw.setCore_busData (h : Hw) (c : CoreId) (x : Core) : (h.setCore c x).busData = h.busData := by cases c <;> rfl
@[simp] theorem Hw.setCore_drain (h : Hw) (c : CoreId) (x : Core) : (h.setCore c x).drain = h.drain := by cases c <;> rfl
@[simp] theorem Hw.setCore_ddrHot (h : Hw) (c : CoreId) (x : Core) : (h.setCore c x).ddrHot = h.ddrHot := by cases c <;> rfl
@[simp] theorem Hw.setCore_stores (h : Hw) (c : CoreId) (x : Core) : (h.setCore c x).stores = h.stores := by cases c <;> rfl
@[simp] theorem Hw.setCore_laneG (h : Hw) (c : CoreId) (x : Core) : (h.setCore c x).laneG = h.laneG := by cases c <;> rfl
@[simp] theorem Hw.setCore_laneQ (h : Hw) (c : CoreId) (x : Core) : (h.setCore c x).laneQ = h.laneQ := by cases c <;> rfl
@[simp] theorem Hw.setCore_laneL (h : Hw) (c : CoreId) (x : Core) : (h.setCore c x).laneL = h.laneL := by cases c <;> rfl
@[simp] theorem Hw.setCore_laneK (h : Hw) (c : CoreId) (x : Core) : (h.setCore c x).laneK = h.laneK := by cases c <;> rfl
@[simp] theorem Hw.setCore_istore (h : Hw) (c : CoreId) (x : Core) : (h.setCore c x).istore = h.istore := by cases c <;> rfl
@[simp] theorem Hw.setCore_istoreBad (h : Hw) (c : CoreId) (x : Core) : (h.setCore c x).istoreBad = h.istoreBad := by cases c <;> rfl
@[simp] theorem Hw.setCore_isl (h : Hw) (c : CoreId) (x : Core) : (h.setCore c x).isl = h.isl := by cases c <;> rfl
@[simp] theorem Hw.setCore_avsLoop (h : Hw) (c : CoreId) (x : Core) : (h.setCore c x).avsLoop = h.avsLoop := by cases c <;> rfl
@[simp] theorem Hw.setCore_adcs (h : Hw) (c : CoreId) (x : Core) : (h.setCore c x).adcs = h.adcs := by cases c <;> rfl
@[simp] theorem Hw.setCore_iepe (h : Hw) (c : CoreId) (x : Core) : (h.setCore c x).iepe = h.iepe := by cases c <;> rfl
@[simp] theorem Hw.setCore_teds (h : Hw) (c : CoreId) (x : Core) : (h.setCore c x).teds = h.teds := by cases c <;> rfl
@[simp] theorem Hw.setCore_cal (h : Hw) (c : CoreId) (x : Core) : (h.setCore c x).cal = h.cal := by cases c <;> rfl
@[simp] theorem Hw.setCore_bst1Loop (h : Hw) (c : CoreId) (x : Core) : (h.setCore c x).bst1Loop = h.bst1Loop := by cases c <;> rfl
@[simp] theorem Hw.setCore_drv (h : Hw) (c : CoreId) (x : Core) : (h.setCore c x).drv = h.drv := by cases c <;> rfl
@[simp] theorem Hw.setCore_cls (h : Hw) (c : CoreId) (x : Core) : (h.setCore c x).cls = h.cls := by cases c <;> rfl
@[simp] theorem Hw.setCore_clGate (h : Hw) (c : CoreId) (x : Core) : (h.setCore c x).clGate = h.clGate := by cases c <;> rfl
@[simp] theorem Hw.setCore_bst2Loop (h : Hw) (c : CoreId) (x : Core) : (h.setCore c x).bst2Loop = h.bst2Loop := by cases c <;> rfl
@[simp] theorem Hw.setCore_pts (h : Hw) (c : CoreId) (x : Core) : (h.setCore c x).pts = h.pts := by cases c <;> rfl
@[simp] theorem Hw.setCore_phase (h : Hw) (c : CoreId) (x : Core) : (h.setCore c x).phase = h.phase := by cases c <;> rfl
@[simp] theorem Hw.setCore_evLines (h : Hw) (c : CoreId) (x : Core) : (h.setCore c x).evLines = h.evLines := by cases c <;> rfl
@[simp] theorem Hw.setCore_snaps (h : Hw) (c : CoreId) (x : Core) : (h.setCore c x).snaps = h.snaps := by cases c <;> rfl
@[simp] theorem Hw.setCore_uarts (h : Hw) (c : CoreId) (x : Core) : (h.setCore c x).uarts = h.uarts := by cases c <;> rfl
@[simp] theorem Hw.setCore_cans (h : Hw) (c : CoreId) (x : Core) : (h.setCore c x).cans = h.cans := by cases c <;> rfl
@[simp] theorem Hw.setCore_spis (h : Hw) (c : CoreId) (x : Core) : (h.setCore c x).spis = h.spis := by cases c <;> rfl
@[simp] theorem Hw.setCore_i2cs (h : Hw) (c : CoreId) (x : Core) : (h.setCore c x).i2cs = h.i2cs := by cases c <;> rfl
@[simp] theorem Hw.setCore_xspi (h : Hw) (c : CoreId) (x : Core) : (h.setCore c x).xspi = h.xspi := by cases c <;> rfl
@[simp] theorem Hw.setCore_eths (h : Hw) (c : CoreId) (x : Core) : (h.setCore c x).eths = h.eths := by cases c <;> rfl
@[simp] theorem Hw.setCore_bqs (h : Hw) (c : CoreId) (x : Core) : (h.setCore c x).bqs = h.bqs := by cases c <;> rfl
@[simp] theorem Hw.setCore_pgRule (h : Hw) (c : CoreId) (x : Core) : (h.setCore c x).pgRule = h.pgRule := by cases c <;> rfl
@[simp] theorem Hw.setCore_drainSeq (h : Hw) (c : CoreId) (x : Core) : (h.setCore c x).drainSeq = h.drainSeq := by cases c <;> rfl
@[simp] theorem Hw.setCore_logEra (h : Hw) (c : CoreId) (x : Core) : (h.setCore c x).logEra = h.logEra := by cases c <;> rfl
@[simp] theorem Hw.setCore_thrLoop (h : Hw) (c : CoreId) (x : Core) : (h.setCore c x).thrLoop = h.thrLoop := by cases c <;> rfl
@[simp] theorem Hw.setCore_twin (h : Hw) (c : CoreId) (x : Core) : (h.setCore c x).twin = h.twin := by cases c <;> rfl
@[simp] theorem Hw.setCore_dbg (h : Hw) (c : CoreId) (x : Core) : (h.setCore c x).dbg = h.dbg := by cases c <;> rfl
@[simp] theorem Hw.setCore_bistHold (h : Hw) (c : CoreId) (x : Core) : (h.setCore c x).bistHold = h.bistHold := by cases c <;> rfl
@[simp] theorem Hw.setCore_bistWait (h : Hw) (c : CoreId) (x : Core) : (h.setCore c x).bistWait = h.bistWait := by cases c <;> rfl
@[simp] theorem Hw.setCore_freeCtr (h : Hw) (c : CoreId) (x : Core) : (h.setCore c x).freeCtr = h.freeCtr := by cases c <;> rfl

@[simp] theorem Hw.canon_core (h : Hw) (c : CoreId) : h.canon.core c = h.core c := by cases c <;> rfl
@[simp] theorem Hw.set_core (h : Hw) (f : Fld) (v : Nat) (c : CoreId) : (h.set f v).core c = h.core c := by cases c <;> rfl
@[simp] theorem Hw.set_peAns (h : Hw) (f : Fld) (v : Nat) : (h.set f v).peAns = h.peAns := rfl
@[simp] theorem Hw.set_logEra (h : Hw) (f : Fld) (v : Nat) : (h.set f v).logEra = h.logEra := rfl
@[simp] theorem Hw.set_bistWait (h : Hw) (f : Fld) (v : Nat) : (h.set f v).bistWait = h.bistWait := rfl
@[simp] theorem Hw.wr_core (h : Hw) (a : Nat) (v : BitVec 32) (c : CoreId) : (h.wr a v).core c = h.core c := by cases c <;> rfl
@[simp] theorem Hw.wr_peAns (h : Hw) (a : Nat) (v : BitVec 32) : (h.wr a v).peAns = h.peAns := rfl
@[simp] theorem Hw.wr_logEra (h : Hw) (a : Nat) (v : BitVec 32) : (h.wr a v).logEra = h.logEra := rfl
@[simp] theorem Hw.wr_bistWait (h : Hw) (a : Nat) (v : BitVec 32) : (h.wr a v).bistWait = h.bistWait := rfl

/-! ### Registers and fields -/

/-- A register reads what was written to it, and every other register what it read. -/
theorem Hw.rd_wr (h : Hw) (a b : Nat) (v : BitVec 32) : (h.wr a v).rd b = if b = a then v else h.rd b := mget_mput _ _ _ _

@[simp] theorem Hw.rd_wr_self (h : Hw) (a : Nat) (v : BitVec 32) : (h.wr a v).rd a = v := by simp [Hw.rd_wr]

theorem Hw.rd_wr_other (h : Hw) {a b : Nat} (v : BitVec 32) (hb : b ≠ a) : (h.wr a v).rd b = h.rd b := by simp [Hw.rd_wr, hb]

/-- Canonical form changes no register. -/
@[simp] theorem Hw.rd_canon (h : Hw) (a : Nat) : h.canon.rd a = h.rd a := mget_mcanon _ _

@[simp] theorem Hw.get_canon (h : Hw) (f : Fld) : h.canon.get f = h.get f := by simp [Hw.get]

@[simp] theorem Hw.on_canon (h : Hw) (f : Fld) : h.canon.on f = h.on f := by simp [Hw.on]

@[simp] theorem Hw.rd_setCore (h : Hw) (c : CoreId) (x : Core) (a : Nat) : (h.setCore c x).rd a = h.rd a := by simp [Hw.rd]

@[simp] theorem Hw.get_setCore (h : Hw) (c : CoreId) (x : Core) (f : Fld) : (h.setCore c x).get f = h.get f := by simp [Hw.get]

@[simp] theorem Hw.on_setCore (h : Hw) (c : CoreId) (x : Core) (f : Fld) : (h.setCore c x).on f = h.on f := by simp [Hw.on]

theorem Fld.mask_getLsbD (f : Fld) (i : Nat) : f.mask.getLsbD i = (decide (i < 32) && decide (f.lo ≤ i) && decide (i - f.lo < f.wid) && decide (i - f.lo < 32)) := by
  simp only [Fld.mask, BitVec.getLsbD_shiftLeft, BitVec.getLsbD_ofNat, Nat.testBit_two_pow_sub_one]
  by_cases h1 : i < 32 <;> by_cases h2 : i < f.lo
  · simp [h1, h2]
  · have h3 : f.lo ≤ i := by omega
    have h4 : i - f.lo < 32 := by omega
    simp [h1, h2, h3, h4]
  · simp [h1]
  · simp [h1]

/-- A field reads what was written to it, cut to its width. -/
theorem Fld.of_into (f : Fld) (w : BitVec 32) (v : Nat) (hf : f.lo + f.wid ≤ 32) : f.of (f.into w v) = v % 2 ^ f.wid := by
  apply Nat.eq_of_testBit_eq
  intro i
  simp only [Fld.of, Fld.into, Nat.testBit_mod_two_pow, Nat.testBit_shiftRight, ← BitVec.getLsbD.eq_1, BitVec.getLsbD_or, BitVec.getLsbD_and,
    BitVec.getLsbD_not, BitVec.getLsbD_shiftLeft, BitVec.getLsbD_ofNat, Fld.mask_getLsbD]
  by_cases h : i < f.wid
  · have h1 : f.lo + i < 32 := by omega
    have h2 : i < 32 := by omega
    simp [h, h1, h2]
  · simp [h]

/-- A field of the same register that does not overlap the one written reads as before. -/
theorem Fld.of_into_apart (f g : Fld) (w : BitVec 32) (v : Nat) (hfg : g.lo + g.wid ≤ f.lo ∨ f.lo + f.wid ≤ g.lo) :
    g.of (f.into w v) = g.of w := by
  apply Nat.eq_of_testBit_eq
  intro i
  simp only [Fld.of, Fld.into, Nat.testBit_mod_two_pow, Nat.testBit_shiftRight, ← BitVec.getLsbD.eq_1, BitVec.getLsbD_or, BitVec.getLsbD_and,
    BitVec.getLsbD_not, BitVec.getLsbD_shiftLeft, BitVec.getLsbD_ofNat, Fld.mask_getLsbD]
  by_cases h : i < g.wid
  · have h1 : ¬ (f.lo ≤ g.lo + i ∧ g.lo + i - f.lo < f.wid) := by omega
    by_cases h2 : g.lo + i < 32
    · by_cases h3 : f.lo ≤ g.lo + i
      · have h4 : ¬ (g.lo + i - f.lo < f.wid) := by omega
        simp [h, h2, h3, h4]
      · simp [h, h2, h3]
    · have : w.getLsbD (g.lo + i) = false := BitVec.getLsbD_of_ge w _ (by omega)
      simp [h, h2, this]
  · simp [h]

theorem Hw.get_set_self (h : Hw) (f : Fld) (v : Nat) (hf : f.lo + f.wid ≤ 32) : (h.set f v).get f = v % 2 ^ f.wid := by
  simp [Hw.get, Hw.set, Fld.of_into _ _ _ hf]

theorem Hw.get_set_apart (h : Hw) (f g : Fld) (v : Nat) (hfg : f.adr ≠ g.adr ∨ g.lo + g.wid ≤ f.lo ∨ f.lo + f.wid ≤ g.lo) :
    (h.set f v).get g = h.get g := by
  by_cases ha : g.adr = f.adr
  · have : g.lo + g.wid ≤ f.lo ∨ f.lo + f.wid ≤ g.lo := by
      rcases hfg with h1 | h1
      · exact absurd ha.symm h1
      · exact h1
    simp [Hw.get, Hw.set, ha, Fld.of_into_apart _ _ _ _ this]
  · simp [Hw.get, Hw.set, Hw.rd_wr_other h _ ha]

theorem Hw.rd_set_other (h : Hw) (f : Fld) (v a : Nat) (ha : a ≠ f.adr) : (h.set f v).rd a = h.rd a := by
  simp [Hw.set, Hw.rd_wr_other h _ ha]

@[simp] theorem Hw.sets_nil (h : Hw) : h.sets [] = h := rfl
@[simp] theorem Hw.sets_cons (h : Hw) (p : Fld × Nat) (l : List (Fld × Nat)) : h.sets (p :: l) = (h.set p.1 p.2).sets l := rfl

/-! ### Canonical form -/

/-- The tables of a part that a command has left are canonical. -/
theorem Hw.canon_tables (h : Hw) : mwf resetWord h.canon.regs = true ∧ mwf (fun _ => 0) h.canon.mem = true ∧ mwf (fun _ => 0xFF) h.canon.nvm = true :=
  ⟨mwf_mcanon _, mwf_mcanon _, mwf_mcanon _⟩

/-- In a part whose tables are canonical there is nothing to do. -/
theorem Hw.canon_eq (h : Hw) (hr : mwf resetWord h.regs = true) (hm : mwf (fun _ => (0 : BitVec 8)) h.mem = true)
    (hn : mwf (fun _ => (0xFF : BitVec 8)) h.nvm = true) : h.canon = h := by
  unfold Hw.canon
  rw [mcanon_of_mwf hr, mcanon_of_mwf hm, mcanon_of_mwf hn]

theorem Hw.wr_regs_wf (h : Hw) (a : Nat) (v : BitVec 32) (hr : mwf resetWord h.regs = true) : mwf resetWord (h.wr a v).regs = true :=
  mwf_mput hr a v

end Sys2Proof.Machine
end

