-- ==== Sys2Proof/Laws/Cpu.lean ====
section
/-! SUPPORT. What one core instruction comes to, by what its body answers. -/

namespace Sys2Proof.Machine

theorem Hw.wpHit_none (h : Hw) (c : CoreId) (a len kind : Nat) (hw : ∀ i, i < 8 → h.on (DBG_C_WP_CTL.EN (coreNum c) i) = false) :
    h.wpHit c a len kind = none := by
  unfold Hw.wpHit
  split
  · rfl
  · have : (List.range (if c = .pol then 2 else 8)).find? (fun i => h.wpMatches (coreNum c) i a len kind (h.tidOf c)) = none := by
      rw [List.find?_eq_none]
      intro i hi
      have h8 : i < 8 := by
        have := List.mem_range.1 hi
        split at this <;> omega
      simp [Hw.wpMatches, hw i h8]
    simp [this]

/-- The core state as an instruction's body meets it: an ERET's exemption is over, and EPROG.VALID is clear unless the instruction is
LDM or STM. -/
def Core.begun (x : Core) (wasEret ldm : Bool) : Core :=
  let y := if wasEret then { x with afterEret := false } else x
  if wasEret && !ldm then { y with eprog := y.eprog &&& 0x7FFFFFFF } else y

theorem Hw.settle_begun (h : Hw) (c : CoreId) (e ldm : Bool) : h.settle c e false ldm = h.setCore c ((h.core c).begun e ldm) := by
  unfold Hw.settle Core.begun
  cases e <;> cases ldm <;> rfl

/-- The core state as an instruction leaves it: a watchpoint exemption is over. -/
def Core.done (x : Core) (wasExempt : Bool) : Core := if wasExempt then { x with wpExempt := false } else x

theorem Hw.settle_done (h : Hw) (c : CoreId) (w ldm : Bool) : h.settle c false w ldm = h.setCore c ((h.core c).done w) := by
  unfold Hw.settle Core.done
  cases w <;> rfl

@[simp] theorem Core.begun_ends (x : Core) (e l : Bool) : (x.begun e l).ends = x.ends := by
  unfold Core.begun; cases e <;> cases l <;> rfl
@[simp] theorem Core.begun_pc (x : Core) (e l : Bool) : (x.begun e l).pc = x.pc := by unfold Core.begun; cases e <;> cases l <;> rfl
@[simp] theorem Core.begun_gr (x : Core) (e l : Bool) (i : Fin 32) : (x.begun e l).gr i = x.gr i := by
  unfold Core.begun; cases e <;> cases l <;> rfl
@[simp] theorem Core.done_ends (x : Core) (w : Bool) : (x.done w).ends = x.ends := by unfold Core.done; cases w <;> rfl
@[simp] theorem Core.done_gr (x : Core) (w : Bool) (i : Fin 32) : (x.done w).gr i = x.gr i := by unfold Core.done; cases w <;> rfl

theorem Hw.endStep_idle (h : Hw) (c : CoreId) (hs : (h.core c).ends = false) : h.endStep c = h := by
  simp [Hw.endStep, hs]

theorem Hw.issued_core (h : Hw) (c : CoreId) (ldm : Bool) :
    (h.issued c ldm).core c = ((h.fetched c).core c).begun (h.core c).afterEret ldm := by
  unfold Hw.issued
  rw [Hw.settle_begun, Hw.setCore_core]

theorem Core.done_movedTo (x : Core) (w : Bool) (pc : Word) (hw : w = x.wpExempt) : ({ x.done w with pc := pc } : Core) = x.movedTo pc := by
  subst hw
  unfold Core.done Core.movedTo
  split
  · rfl
  · rename_i h
    have e : x.wpExempt = false := by simpa using h
    exact congrArg (fun b => ({ x with pc := pc, wpExempt := b } : Core)) e

/-- A body that answers `next`: the core goes on 4 bytes further. `hx` and `hs` hold where the body leaves these two marks alone. -/
theorem Hw.instr_next {h g : Hw} {c : CoreId} {ldm : Bool} {body : Hw → Hw × Done} (hr : h.Ready c)
    (hb : body (h.issued c ldm) = (g, .next)) (hs : (g.core c).ends = false) (hx : (g.core c).wpExempt = (h.core c).wpExempt) :
    h.instr c ldm body = g.goes c ((h.core c).pc + 4) := by
  obtain ⟨h1, h2, h3, h4⟩ := hr
  have hf : h.fetch c = (h.fetched c, none) := by rw [← h2]; rfl
  unfold Hw.issued at hb
  simp only [Hw.instr, h1, if_true, hf, hb, Hw.settle_done, Hw.wpHit_none _ _ _ _ _ h3, lowerWatch, Done.waits, Bool.not_false, Bool.and_true, Hw.setPc,
    Hw.setCore_core, Hw.setCore_setCore]
  rw [Core.done_movedTo _ _ _ hx.symm, Hw.endStep_idle]
  · rfl
  · simpa [Core.movedTo, Core.ends] using hs

/-- A body that answers `jump t`. -/
theorem Hw.instr_jump {h g : Hw} {c : CoreId} {ldm : Bool} {body : Hw → Hw × Done} {t : Word} (hr : h.Ready c)
    (hb : body (h.issued c ldm) = (g, .jump t)) (hs : (g.core c).ends = false) (hx : (g.core c).wpExempt = (h.core c).wpExempt) :
    h.instr c ldm body = g.goes c t := by
  obtain ⟨h1, h2, h3, h4⟩ := hr
  have hf : h.fetch c = (h.fetched c, none) := by rw [← h2]; rfl
  unfold Hw.issued at hb
  simp only [Hw.instr, h1, if_true, hf, hb, Hw.settle_done, Hw.wpHit_none _ _ _ _ _ h3, lowerWatch, Done.waits, Bool.not_false, Bool.and_true, Hw.setPc,
    Hw.setCore_core, Hw.setCore_setCore]
  rw [Core.done_movedTo _ _ _ hx.symm, Hw.endStep_idle]
  · rfl
  · simpa [Core.movedTo, Core.ends] using hs

/-- A body that stops with an exception: the exception is taken. -/
theorem Hw.instr_exc {h g : Hw} {c : CoreId} {ldm : Bool} {body : Hw → Hw × Done} {e : Exc} (hr : h.Ready c)
    (hb : body (h.issued c ldm) = (g, .stop (.exc e))) :
    h.instr c ldm body = ((g.setCore c ((g.core c).done (h.core c).wpExempt)).raise c e).endStep c := by
  obtain ⟨h1, h2, h3, h4⟩ := hr
  have hf : h.fetch c = (h.fetched c, none) := by rw [← h2]; rfl
  unfold Hw.issued at hb
  simp only [Hw.instr, h1, if_true, hf, hb, Hw.settle_done]

/-- A body that answers `stay`: its state stands. -/
theorem Hw.instr_stay {h g : Hw} {c : CoreId} {ldm : Bool} {body : Hw → Hw × Done} (hr : h.Ready c)
    (hb : body (h.issued c ldm) = (g, .stay)) (hs : (g.core c).ends = false) :
    h.instr c ldm body = g.setCore c ((g.core c).done (h.core c).wpExempt) := by
  obtain ⟨h1, h2, h3, h4⟩ := hr
  have hf : h.fetch c = (h.fetched c, none) := by rw [← h2]; rfl
  unfold Hw.issued at hb
  simp only [Hw.instr, h1, if_true, hf, hb, Hw.settle_done, Hw.wpHit_none _ _ _ _ _ h3, lowerWatch, Done.waits, Bool.not_false, Bool.and_true]
  rw [Hw.endStep_idle]
  simpa using hs

end Sys2Proof.Machine
end

