-- ==== Sys2Proof/Laws/Mem.lean ====
section
/-! SUPPORT. The laws of memory: what moves between caches changes no read, every operation keeps the canonical form, and the fetch
of an instruction changes no byte and no register of a core. -/

namespace Sys2Proof.Machine

/-! ### Dirty bytes -/

theorem ofind_cons (e : Host.Cell) (l : List Host.Cell) (a : Nat) : ofind (e :: l) a = if e.1 = a then some e.2 else ofind l a := by
  unfold ofind
  by_cases h : e.1 = a <;> simp [List.find?_cons, h]

theorem ofind_mins (k : Nat) (v : Byte) (l : List Host.Cell) (a : Nat) : ofind (mins k v l) a = if a = k then some v else ofind l a := by
  induction l with
  | nil => by_cases h : k = a <;> simp [mins, ofind, h, Ne.symm]
  | cons e t ih =>
    obtain ⟨b, w⟩ := e
    simp only [mins]
    by_cases h : a = k
    · subst h
      split
      · simp [ofind_cons]
      · split
        · simp [ofind_cons]
        · rename_i h1 h2
          simp [ofind_cons, ih, Ne.symm h2]
    · split
      · simp [ofind_cons, Ne.symm h, h]
      · split
        · rename_i h1 h2
          subst h2
          simp [ofind_cons, Ne.symm h, h]
        · simp [ofind_cons, ih, h]

theorem ofind_oput (l bs : List Host.Cell) (a : Nat) : ofind (oput l bs) a = (ofind bs a).or (ofind l a) := by
  induction bs with
  | nil => simp [oput, ofind]
  | cons e t ih =>
    have : oput l (e :: t) = mins e.1 e.2 (oput l t) := rfl
    rw [this, ofind_mins, ofind_cons, ih]
    by_cases h : a = e.1
    · simp [h]
    · simp [h, Ne.symm h]

theorem ofind_odrop (l : List Host.Cell) (n a : Nat) : ofind (odrop l n) a = if lineOf a = n then none else ofind l a := by
  induction l with
  | nil => simp [odrop, ofind]
  | cons e t ih =>
    unfold odrop at ih ⊢
    by_cases h : lineOf e.1 = n
    · have h1 : (lineOf e.1 != n) = false := by simp [h]
      rw [List.filter_cons_of_neg (by simp [h1]), ih, ofind_cons]
      by_cases h2 : e.1 = a
      · subst h2; simp [h]
      · simp [h2]
    · have h1 : (lineOf e.1 != n) = true := by simp [h]
      rw [List.filter_cons_of_pos (by simp [h1]), ofind_cons, ih, ofind_cons]
      by_cases h2 : e.1 = a
      · subst h2; simp [h]
      · simp [h2]

theorem ofind_oline (l : List Host.Cell) (n a : Nat) : ofind (oline l n) a = if lineOf a = n then ofind l a else none := by
  induction l with
  | nil => simp [oline, ofind]
  | cons e t ih =>
    unfold oline at ih ⊢
    by_cases h : lineOf e.1 = n
    · have h1 : (lineOf e.1 == n) = true := by simp [h]
      rw [List.filter_cons_of_pos (by simp [h1]), ofind_cons, ih, ofind_cons]
      by_cases h2 : e.1 = a
      · subst h2; simp [h]
      · simp [h2]
    · have h1 : (lineOf e.1 == n) = false := by simp [h]
      rw [List.filter_cons_of_neg (by simp [h1]), ih, ofind_cons]
      by_cases h2 : e.1 = a
      · subst h2; simp [h]
      · simp [h2]

theorem mget_cellsIn (d : Byte) (m bs : List Host.Cell) (a : Nat) :
    mget (fun _ => d) (cellsIn d m bs) a = (ofind bs a).getD (mget (fun _ => d) m a) := by
  induction bs with
  | nil => simp [cellsIn, ofind]
  | cons e t ih =>
    have : cellsIn d m (e :: t) = mput (fun _ => d) (cellsIn d m t) e.1 e.2 := rfl
    rw [this, mget_mput, ofind_cons, ih]
    by_cases h : a = e.1
    · simp [h]
    · simp [h, Ne.symm h]

/-- A write of bytes keeps memory canonical. -/
theorem mwf_cellsIn (d : Byte) (m bs : List Host.Cell) (hm : mwf (fun _ => d) m = true) : mwf (fun _ => d) (cellsIn d m bs) = true := by
  induction bs with
  | nil => exact hm
  | cons e t ih => exact mwf_mput ih _ _

/-- The visible dirty byte of the caches at `a`: M0's, else M1's, else the PE's, else the L2's. -/
def Hw.dirtyAt (h : Hw) (a : Nat) : Option Byte := (ofind h.dc0 a).or ((ofind h.dc1 a).or ((ofind h.pec a).or (ofind h.l2 a)))

theorem Hw.byte_eq (h : Hw) (a : Nat) : h.byte a =
    match h.region a with
    | .rom => Config.romByte (a - 0x01000000)
    | .xspi =>
      match h.xspi.lines.find? (fun e => e.1 == lineOf a) with
      | some e => e.2.getD (a % 64) 0xFF
      | none => mget (fun _ => 0xFF) h.nvm (a - 0x40000000)
    | _ => (h.dirtyAt a).getD (h.backing a) := by
  unfold Hw.byte Hw.dirtyAt
  generalize h.region a = r
  cases r <;> simp only [] <;> (try rfl) <;>
    (cases ofind h.dc0 a <;> cases ofind h.dc1 a <;> cases ofind h.pec a <;> cases ofind h.l2 a <;> rfl)

/-- Two parts in which every read of memory gives the same. -/
structure SameBytes (h t : Hw) : Prop where
  top : t.ddrTop = h.ddrTop
  xspi : t.xspi = h.xspi
  nvm : t.nvm = h.nvm
  dirty : ∀ a, (t.dirtyAt a).getD (t.backing a) = (h.dirtyAt a).getD (h.backing a)

theorem SameBytes.byte {h t : Hw} (s : SameBytes h t) (a : Nat) : t.byte a = h.byte a := by
  have hr : t.region a = h.region a := by simp only [Hw.region, s.top]
  rw [Hw.byte_eq, Hw.byte_eq, hr, s.xspi, s.nvm, s.dirty a]

theorem SameBytes.region {h t : Hw} (s : SameBytes h t) (a : Nat) : t.region a = h.region a := by simp only [Hw.region, s.top]

theorem SameBytes.refl (h : Hw) : SameBytes h h := ⟨rfl, rfl, rfl, fun _ => rfl⟩

theorem SameBytes.trans {h t u : Hw} (a : SameBytes h t) (b : SameBytes t u) : SameBytes h u :=
  ⟨b.top.trans a.top, b.xspi.trans a.xspi, b.nvm.trans a.nvm, fun x => (b.dirty x).trans (a.dirty x)⟩

theorem Hw.recallAll_same (h : Hw) (n : Nat) : SameBytes h (h.recallAll n) := by
  refine ⟨rfl, rfl, rfl, fun a => ?_⟩
  have hb : (h.recallAll n).backing a = h.backing a := rfl
  have : (h.recallAll n).dirtyAt a = h.dirtyAt a := by
    simp only [Hw.recallAll, Hw.recall, Hw.dirtyAt, Hw.setOv, Hw.ov, ofind_odrop, ofind_oput, ofind_oline]
    by_cases hl : lineOf a = n
    · simp [hl]
    · simp [hl]
  rw [hb, this]

theorem Hw.setDir_same (h : Hw) (n : Nat) (e : DirEnt) : SameBytes h (h.setDir n e) := ⟨rfl, rfl, rfl, fun _ => rfl⟩

theorem Hw.wr_same (h : Hw) {a : Nat} (v : BitVec 32) (ha : a ≠ DDR_TOP) : SameBytes h (h.wr a v) := by
  refine ⟨?_, rfl, rfl, fun _ => rfl⟩
  have e : DDR_TOP.TOP_MB.adr = DDR_TOP := rfl
  unfold Hw.ddrTop Hw.get
  rw [e, Hw.rd_wr_other _ _ (Ne.symm ha)]

theorem Hw.set_same (h : Hw) (f : Fld) (v : Nat) (ha : f.adr ≠ DDR_TOP) : SameBytes h (h.set f v) := h.wr_same _ ha

theorem Hw.wr_ov (h : Hw) (a : Nat) (v : BitVec 32) (x : Agent) : (h.wr a v).ov x = h.ov x := by cases x <;> rfl
theorem Hw.setDir_ov (h : Hw) (n : Nat) (e : DirEnt) (x : Agent) : (h.setDir n e).ov x = h.ov x := by cases x <;> rfl

/-- A request at a line in TRANSIT is counted: no byte and no cache changes. -/
theorem Hw.metTransit_spec (h : Hw) (n : Nat) : SameBytes h (h.metTransit n) ∧ ∀ x, (h.metTransit n).ov x = h.ov x := by
  unfold Hw.metTransit
  split
  · exact ⟨Hw.set_same _ _ _ (by decide), fun x => Hw.wr_ov _ _ _ x⟩
  · exact ⟨SameBytes.refl h, fun _ => rfl⟩

theorem Hw.readThrough_same (h : Hw) (n : Nat) : SameBytes h (h.readThrough n) := by
  have e := (h.metTransit_spec n).1.trans (Hw.recallAll_same _ n)
  unfold Hw.readThrough
  dsimp only
  split
  · exact e.trans (Hw.setDir_same _ _ _)
  · exact e

theorem Hw.loseResv_same (h : Hw) (g : Agent) (n : Nat) : SameBytes h (h.loseResv g n) := by cases g <;> exact ⟨rfl, rfl, rfl, fun _ => rfl⟩
theorem Hw.loseResv_ov (h : Hw) (g : Agent) (n : Nat) (x : Agent) : (h.loseResv g n).ov x = h.ov x := by cases g <;> cases x <;> rfl

/-- Reservations lost change no read and no dirty byte. -/
theorem loseAll_spec (n : Nat) (l : List Agent) (k : Hw) : SameBytes k (l.foldl (fun h a => h.loseResv a n) k) ∧
    ∀ x, (l.foldl (fun h a => h.loseResv a n) k).ov x = k.ov x := by
  induction l generalizing k with
  | nil => exact ⟨SameBytes.refl k, fun _ => rfl⟩
  | cons a t ih =>
    obtain ⟨h1, h2⟩ := ih (k.loseResv a n)
    exact ⟨(k.loseResv_same a n).trans h1, fun x => (h2 x).trans (k.loseResv_ov a n x)⟩

theorem Hw.recallOwner_same (h : Hw) (n : Nat) : SameBytes h (h.recallOwner n) := by
  unfold Hw.recallOwner
  dsimp only
  split
  · exact (h.recallAll_same n).trans (loseAll_spec n _ _).1
  · exact SameBytes.refl h

theorem Hw.share_same (h : Hw) (g : Agent) (n : Nat) : SameBytes h (h.share g n) := by
  unfold Hw.share
  dsimp only
  split
  · exact SameBytes.refl h
  · exact ((h.metTransit_spec n).1.trans (Hw.recallOwner_same _ n)).trans (Hw.setDir_same _ _ _)

theorem Hw.hubRecall_same (h : Hw) (n : Nat) : SameBytes h (h.hubRecall n) := by
  have e := (h.metTransit_spec n).1.trans (Hw.recallOwner_same _ n)
  unfold Hw.hubRecall
  dsimp only
  split
  · exact SameBytes.refl h
  · split
    · exact e.trans (Hw.setDir_same _ _ _)
    · exact e

/-! ### What error correction leaves alone -/

theorem eccFold_rel {P : Hw → Hw → Prop} (hr : ∀ h, P h h) (ht : ∀ {a b c}, P a b → P b c → P a c) {f : Hw → Nat → Hw × EccRes}
    (hf : ∀ h w, P h (f h w).1) (h : Hw) (l : List Nat) : P h (eccFold f h l).1 := by
  unfold eccFold
  suffices ∀ p : Hw × EccRes, P h p.1 → P h (l.foldl (fun p w => let q := f p.1 w; (q.1, if p.2 = .good then q.2 else p.2)) p).1 from
    this (h, .good) (hr h)
  induction l with
  | nil => intro p hp; exact hp
  | cons w t ih => intro p hp; exact ih _ (ht hp (hf p.1 w))

/-- What a read of check bits leaves: every byte, every cache's dirty bytes, every entry of the directory; check bits of the L2's
copies only go. -/
structure Checked (h t : Hw) : Prop where
  same : SameBytes h t
  ov : ∀ x, t.ov x = h.ov x
  l2 : t.l2 = h.l2
  dir : t.dir = h.dir
  ups : ∀ e ∈ t.l2ups, e ∈ h.l2ups

theorem Checked.refl (h : Hw) : Checked h h := ⟨SameBytes.refl h, fun _ => rfl, rfl, rfl, fun _ h => h⟩

theorem Checked.trans {h t u : Hw} (a : Checked h t) (b : Checked t u) : Checked h u :=
  ⟨a.same.trans b.same, fun x => (b.ov x).trans (a.ov x), b.l2.trans a.l2, b.dir.trans a.dir, fun e he => a.ups e (b.ups e he)⟩

theorem Hw.wr_checked (h : Hw) {a : Nat} (v : BitVec 32) (ha : a ≠ DDR_TOP) : Checked h (h.wr a v) :=
  ⟨h.wr_same v ha, fun x => by cases x <;> rfl, rfl, rfl, fun _ h => h⟩

theorem Hw.set_checked (h : Hw) (f : Fld) (v : Nat) (ha : f.adr ≠ DDR_TOP) : Checked h (h.set f v) := h.wr_checked _ ha

theorem Hw.upsets_checked (h : Hw) (u : SMap Upset) : Checked h { h with upsets := u } :=
  ⟨⟨rfl, rfl, rfl, fun _ => rfl⟩, fun x => by cases x <;> rfl, rfl, rfl, fun _ h => h⟩

theorem Hw.corrected_checked (h : Hw) (w : Nat) : Checked h (h.corrected w) := by
  unfold Hw.corrected
  dsimp only
  refine (h.upsets_checked (mdel w h.upsets)).trans ?_
  split
  · exact ((Hw.set_checked _ _ _ (by decide)).trans (Hw.wr_checked _ _ (by decide))).trans (Hw.set_checked _ _ _ (by decide))
  · exact ((Hw.set_checked _ _ _ (by decide)).trans (Hw.set_checked _ _ _ (by decide))).trans (Hw.set_checked _ _ _ (by decide))
  · exact (Hw.set_checked _ _ _ (by decide)).trans (Hw.set_checked _ _ _ (by decide))
  · exact Checked.refl _

/-- A register written unless a flag stands. -/
theorem Hw.unless_checked (h : Hw) (b : Bool) {a : Nat} (v : BitVec 32) (ha : a ≠ DDR_TOP) : Checked h (if b then h else h.wr a v) := by
  split
  · exact Checked.refl _
  · exact Hw.wr_checked _ _ ha

theorem Hw.uncorrected_checked (h : Hw) (w : Nat) : Checked h (h.uncorrected w) := by
  unfold Hw.uncorrected
  dsimp only
  split
  · exact ((h.unless_checked _ _ (by decide)).trans (Hw.set_checked _ _ _ (by decide))).trans (Hw.set_checked _ _ _ (by decide))
  · exact ((h.unless_checked _ _ (by decide)).trans (Hw.set_checked _ _ _ (by decide))).trans (Hw.set_checked _ _ _ (by decide))
  · exact (h.unless_checked _ _ (by decide)).trans (Hw.set_checked _ _ _ (by decide))
  · exact Checked.refl _

theorem Hw.memWord_checked (h : Hw) (w : Nat) : Checked h (h.memWord w).1 := by
  unfold Hw.memWord
  split
  · exact Checked.refl h
  · exact h.corrected_checked w
  · exact h.uncorrected_checked w

theorem Hw.l2Word_checked (h : Hw) (w : Nat) : Checked h (h.l2Word w).1 := by
  unfold Hw.l2Word
  split
  · refine Checked.trans (t := { h with l2ups := mdel w h.l2ups }) ?_ ?_
    · exact ⟨⟨rfl, rfl, rfl, fun _ => rfl⟩, fun x => by cases x <;> rfl, rfl, rfl, fun e he => (List.mem_filter.1 he).1⟩
    · exact ((Hw.set_checked _ _ _ (by decide)).trans (Hw.set_checked _ _ _ (by decide))).trans (Hw.set_checked _ _ _ (by decide))
  · exact ((h.unless_checked _ _ (by decide)).trans (Hw.set_checked _ _ _ (by decide))).trans (Hw.set_checked _ _ _ (by decide))
  · exact Checked.refl h

theorem Hw.eccWord_checked (h : Hw) (w : Nat) : Checked h (h.eccWord w).1 := by
  unfold Hw.eccWord
  split
  · exact Checked.refl h
  · split
    · exact Checked.refl h
    · split
      · exact h.l2Word_checked w
      · split
        · exact Checked.refl h
        · exact h.memWord_checked w

theorem Hw.eccNarrow_checked (h : Hw) (k : Nat) : Checked h (h.eccNarrow k).1 := by
  unfold Hw.eccNarrow
  split
  · exact Checked.refl h
  · exact h.upsets_checked _
  · exact Checked.refl h

/-- Check bits are read: no byte changes. -/
theorem Hw.eccRead_checked (h : Hw) (a n : Nat) : Checked h (h.eccRead a n).1 := by
  unfold Hw.eccRead
  split
  · exact eccFold_rel Checked.refl Checked.trans Hw.eccNarrow_checked _ _
  · exact eccFold_rel Checked.refl Checked.trans Hw.eccWord_checked _ _

theorem Hw.eccRead_same (h : Hw) (a n : Nat) : SameBytes h (h.eccRead a n).1 := (h.eccRead_checked a n).same

theorem Hw.merged_checked (h : Hw) (bs : List Host.Cell) : Checked h (h.merged bs) :=
  eccFold_rel Checked.refl Checked.trans Hw.eccWord_checked _ _

theorem Hw.mergedMem_checked (h : Hw) (bs : List Host.Cell) : Checked h (h.mergedMem bs) :=
  eccFold_rel Checked.refl Checked.trans Hw.memWord_checked _ _

/-! ### Writing a line back -/

/-- A table shows a value that is not what an unlisted key reads as only where it lists it. -/
theorem mem_of_tget {α : Type} {d v : α} {m : SMap α} {k : Nat} (h : tget d m k = v) (hv : v ≠ d) : (k, v) ∈ m := by
  unfold tget at h
  induction m with
  | nil => exact absurd h.symm hv
  | cons e t ih =>
    obtain ⟨a, w⟩ := e
    unfold mget at h
    split at h
    · rename_i he
      simp [← he, ← h]
    · exact List.mem_cons_of_mem _ (ih h)

/-- A write of error marks in MRAM changes no byte. -/
theorem writeBads_same (l : List Nat) (h : Hw) (hl : ∀ w ∈ l, h.region (w * 8) = .mram) : SameBytes h (l.foldl (fun h w => h.writeBad w) h) := by
  induction l generalizing h with
  | nil => exact SameBytes.refl h
  | cons w t ih =>
    have h1 : h.writeBad w = { h with upsets := mins w Upset.uncorrectable h.upsets } := by
      unfold Hw.writeBad
      rw [if_pos (hl w (by simp))]
    have hs : SameBytes h (h.writeBad w) := by rw [h1]; exact ⟨rfl, rfl, rfl, fun _ => rfl⟩
    exact hs.trans (ih _ (fun x hx => by rw [h1]; exact hl x (by simp [hx])))

/-- Writing a line back changes no read, where no word of it outside MRAM is uncorrectable in the L2 (log entry 130). -/
theorem Hw.cleanLine_byte (h : Hw) (n a : Nat) (hu : h.lineSound n) :
    (h.cleanLine n).byte a = h.byte a := by
  have hs := h.recallAll_same n
  have hups : ∀ e ∈ (h.recallAll n).l2ups, e ∈ h.l2ups := by
    intro e he
    have f : ∀ (k : Hw) (g : Agent), ∀ e ∈ (k.recall g n).l2ups, e ∈ k.l2ups := by
      intro k g e he
      cases g <;> exact (List.mem_filter.1 he).1
    exact f _ _ e (f _ _ e (f _ _ e he))
  refine Eq.trans (b := (h.recallAll n).byte a) ?_ (hs.byte a)
  unfold Hw.cleanLine
  dsimp only
  split
  · rfl
  · generalize hg : h.recallAll n = g at hups
    have hr : ∀ b, g.region b = h.region b := by intro b; subst hg; rfl
    have h0 : ∀ b, lineOf b = n → ofind g.dc0 b = none ∧ ofind g.dc1 b = none ∧ ofind g.pec b = none := by
      intro b hb
      subst hg
      simp [Hw.recallAll, Hw.recall, Hw.setOv, Hw.ov, ofind_odrop, hb]
    have hk := eccFold_rel Checked.refl Checked.trans Hw.l2Word_checked g (lineWords n)
    generalize (eccFold Hw.l2Word g (lineWords n)).1 = k at hk
    have key : SameBytes k { (k.memPut (oline g.l2 n)) with l2 := odrop k.l2 n } := by
      refine ⟨rfl, rfl, rfl, fun b => ?_⟩
      have e0 := hk.ov .m0
      have e1 := hk.ov .m1
      have e2 := hk.ov .pe
      simp only [Hw.ov] at e0 e1 e2
      simp only [Hw.dirtyAt, Hw.backing, Hw.memPut, ofind_odrop, mget_cellsIn, ofind_oline, e0, e1, e2, hk.l2]
      by_cases hl : lineOf b = n
      · obtain ⟨h1, h2, h3⟩ := h0 b hl
        simp [hl, h1, h2, h3]
      · simp [hl]
    refine Eq.trans (SameBytes.byte ?_ a) ((hk.same.trans key).byte a)
    refine writeBads_same _ _ fun w hw => ?_
    obtain ⟨hw1, hw2⟩ := List.mem_filter.1 hw
    have hreg : ∀ b, ({ (k.memPut (oline g.l2 n)) with l2 := odrop k.l2 n } : Hw).region b = h.region b := fun b => by
      rw [← hr b, ← hk.same.region b]; rfl
    rw [hreg]
    simp only [Bool.or_eq_true, decide_eq_true_eq, Bool.and_eq_true, beq_iff_eq, hreg] at hw2
    rcases hw2 with hb | ⟨-, hb⟩
    · have hm : (w, Upset.l2Bad) ∈ k.l2ups := mem_of_tget hb nofun
      refine hu _ (hups _ (hk.ups _ hm)) ?_ rfl
      simp only [lineWords, List.mem_map, List.mem_range] at hw1
      obtain ⟨i, hi, rfl⟩ := hw1
      dsimp only
      omega
    · exact hb

/-! ### Stores -/

theorem ofind_filter (p : Nat → Bool) (l : List Host.Cell) (a : Nat) :
    ofind (l.filter (fun e => p e.1)) a = if p a then ofind l a else none := by
  induction l with
  | nil => simp [ofind]
  | cons e t ih =>
    by_cases h : p e.1 = true
    · rw [List.filter_cons_of_pos (by simpa using h), ofind_cons, ih, ofind_cons]
      by_cases h2 : e.1 = a
      · subst h2; simp [h]
      · simp [h2]
    · rw [List.filter_cons_of_neg (by simpa using h), ih, ofind_cons]
      by_cases h2 : e.1 = a
      · subst h2; simp [h]
      · simp [h2]

theorem ofind_none {l : List Host.Cell} {a : Nat} : ofind l a = none ↔ a ∉ l.map Prod.fst := by
  induction l with
  | nil => simp [ofind]
  | cons e t ih =>
    rw [ofind_cons]
    by_cases h : e.1 = a
    · simp [h]
    · simp [h, Ne.symm h, ih]

theorem ofind_orepl (l : List Host.Cell) (e : Host.Cell) (a : Nat) :
    ofind (orepl l e) a = if a = e.1 then (ofind l a).map (fun _ => e.2) else ofind l a := by
  induction l with
  | nil => simp [orepl, ofind]
  | cons x t ih =>
    have : orepl (x :: t) e = (if x.1 = e.1 then e else x) :: orepl t e := rfl
    rw [this, ofind_cons, ih, ofind_cons]
    by_cases h : x.1 = e.1
    · by_cases h2 : a = e.1
      · simp [h, h2]
      · simp [h, h2, Ne.symm h2]
    · by_cases h2 : a = e.1
      · subst h2; simp [h]
      · by_cases h3 : x.1 = a
        · simp [h, h3, h2]
        · simp [h, h3, h2]

theorem ofind_orepls (bs : List Host.Cell) (hn : (bs.map Prod.fst).Nodup) (l : List Host.Cell) (a : Nat) :
    ofind (bs.foldl orepl l) a = (ofind l a).map (fun x => (ofind bs a).getD x) := by
  induction bs generalizing l with
  | nil => simp only [List.foldl_nil]; cases ofind l a <;> rfl
  | cons e t ih =>
    rw [List.foldl_cons, ih (List.nodup_cons.1 hn).2, ofind_orepl, ofind_cons]
    by_cases h : a = e.1
    · have : ofind t a = none := ofind_none.2 (h ▸ (List.nodup_cons.1 hn).1)
      rw [this, if_pos h, if_pos h.symm]
      cases ofind l a <;> rfl
    · simp [h, Ne.symm h]

theorem keys_cellsAt (a : Nat) (bs : List Byte) : (cellsAt a bs).map Prod.fst = List.range' a bs.length := by
  induction bs generalizing a with
  | nil => rfl
  | cons b t ih => simp [cellsAt, ih, List.range'_succ]

theorem nodup_cellsAt (a : Nat) (bs : List Byte) : ((cellsAt a bs).map Prod.fst).Nodup := by
  rw [keys_cellsAt]; exact List.nodup_range'

/-- The byte that a store of `bs` at `a` puts at `b`, if any. -/
theorem ofind_cellsAt (a : Nat) (bs : List Byte) (b : Nat) : ofind (cellsAt a bs) b = if a ≤ b then bs[b - a]? else none := by
  induction bs generalizing a with
  | nil => simp [cellsAt, ofind]
  | cons x t ih =>
    rw [cellsAt, ofind_cons, ih]
    by_cases h : a = b
    · simp [h]
    · by_cases h2 : a ≤ b
      · have h3 : a + 1 ≤ b := by omega
        have h4 : b - a = (b - (a + 1)) + 1 := by omega
        simp [h, h2, h3, h4]
      · have h3 : ¬ (a + 1 ≤ b) := by omega
        simp [h, h2, h3]

/-- What memory shows at `a`, where it is neither ROM nor the xSPI window. -/
def Hw.vis (h : Hw) (a : Nat) : Byte := (h.dirtyAt a).getD (h.backing a)

/-- `t` is `h` with the bytes of `cs` in memory. -/
structure PutBytes (h t : Hw) (cs : List Host.Cell) : Prop where
  top : t.ddrTop = h.ddrTop
  xspi : t.xspi = h.xspi
  nvm : t.nvm = h.nvm
  vis : ∀ a, t.vis a = (ofind cs a).getD (h.vis a)

theorem PutBytes.byte {h t : Hw} {cs : List Host.Cell} (s : PutBytes h t cs)
    (hk : ∀ a ∈ cs.map Prod.fst, h.region a ≠ .rom ∧ h.region a ≠ .xspi) (a : Nat) : t.byte a = (ofind cs a).getD (h.byte a) := by
  have hr : t.region a = h.region a := by simp only [Hw.region, s.top]
  have hv := s.vis a
  unfold Hw.vis at hv
  rw [Hw.byte_eq, Hw.byte_eq, hr, s.xspi, s.nvm, hv]
  by_cases hc : ofind cs a = none
  · rw [hc]; simp only [Option.getD_none]
  · have hm : a ∈ cs.map Prod.fst := by
      by_contra hx
      exact hc (ofind_none.2 hx)
    obtain ⟨h1, h2⟩ := hk a hm
    generalize h.region a = r at h1 h2
    cases r <;> simp_all

theorem SameBytes.vis {h t : Hw} (s : SameBytes h t) (a : Nat) : t.vis a = h.vis a := s.dirty a

theorem SameBytes.put {h t u : Hw} {cs : List Host.Cell} (s : SameBytes h t) (p : PutBytes t u cs) : PutBytes h u cs :=
  ⟨p.top.trans s.top, p.xspi.trans s.xspi, p.nvm.trans s.nvm, fun a => by rw [p.vis a, s.vis a]⟩

theorem PutBytes.same {h t u : Hw} {cs : List Host.Cell} (p : PutBytes h t cs) (s : SameBytes t u) : PutBytes h u cs :=
  ⟨s.top.trans p.top, s.xspi.trans p.xspi, s.nvm.trans p.nvm, fun a => by rw [s.vis a, p.vis a]⟩

/-- Bytes written straight to memory, with the copies that hold them. -/
theorem Hw.pokeMem_put (h : Hw) (cs : List Host.Cell) (hn : (cs.map Prod.fst).Nodup) : PutBytes h (h.pokeMem cs) cs := by
  refine ⟨rfl, rfl, rfl, fun a => ?_⟩
  have hb : (h.pokeMem cs).backing a = (ofind cs a).getD (h.backing a) := mget_cellsIn 0 h.mem cs a
  have hd : (h.pokeMem cs).dirtyAt a = (h.dirtyAt a).map (fun x => (ofind cs a).getD x) := by
    simp only [Hw.dirtyAt, Hw.pokeMem, ofind_orepls cs hn]
    cases ofind h.dc0 a <;> cases ofind h.dc1 a <;> cases ofind h.pec a <;> rfl
  unfold Hw.vis
  rw [hb, hd]
  cases h.dirtyAt a <;> cases ofind cs a <;> rfl

/-- No agent but `g` has a dirty byte of line `n`. -/
def Hw.soleDirty (h : Hw) (g : Option Agent) (n : Nat) : Prop := ∀ x, some x ≠ g → ∀ a, lineOf a = n → ofind (h.ov x) a = none

theorem Hw.recallAll_ov (h : Hw) (n : Nat) (x : Agent) (a : Nat) :
    ofind ((h.recallAll n).ov x) a = if lineOf a = n then none else ofind (h.ov x) a := by
  cases x <;> simp only [Hw.recallAll, Hw.recall, Hw.setOv, Hw.ov, ofind_odrop]

theorem Hw.killResv_same (h : Hw) (n : Nat) : SameBytes h (h.killResv n) := ⟨rfl, rfl, rfl, fun _ => rfl⟩
theorem Hw.killResv_ov (h : Hw) (n : Nat) (x : Agent) : (h.killResv n).ov x = h.ov x := by cases x <;> rfl

/-- Owning a line changes no read, leaves no other agent a dirty byte of it, and gives no agent a dirty byte. -/
theorem Hw.own_spec (h : Hw) (g : Agent) (n : Nat) :
    SameBytes h (h.own g n) ∧ (h.own g n).soleDirty (some g) n ∧ ∀ x a, ofind (h.ov x) a = none → ofind ((h.own g n).ov x) a = none := by
  unfold Hw.own
  dsimp only
  obtain ⟨h1, h2⟩ := loseAll_spec n (otherAgents g) h
  generalize (otherAgents g).foldl (fun h a => h.loseResv a n) h = k at h1 h2 ⊢
  split
  · rename_i hc
    obtain ⟨-, -, hall⟩ := hc
    refine ⟨h1, fun x hx a ha => ?_, fun x a ha => by rw [h2]; exact ha⟩
    have hx' : x ≠ g := fun e => hx (by rw [e])
    have hm : x ∈ otherAgents g := by
      rw [otherAgents, List.mem_filter]
      exact ⟨by cases x <;> simp, by simpa using hx'⟩
    have h0 : oline (k.ov x) n = [] := by
      have := List.all_eq_true.1 hall x hm
      simpa using this
    have := ofind_oline (k.ov x) n a
    rw [h0, if_pos ha] at this
    rw [← this]; rfl
  · refine ⟨(h1.trans (k.recallAll_same n)).trans (Hw.setDir_same _ _ _), fun x _ a ha => ?_, fun x a hx => ?_⟩
    · rw [Hw.setDir_ov, Hw.recallAll_ov, if_pos ha]
    · rw [Hw.setDir_ov, Hw.recallAll_ov, h2, hx, ite_self]

theorem Hw.claimWrite_spec (h : Hw) (n : Nat) :
    SameBytes h (h.claimWrite n) ∧ (h.claimWrite n).soleDirty none n ∧
      ∀ x a, ofind (h.ov x) a = none → ofind ((h.claimWrite n).ov x) a = none := by
  obtain ⟨h1, h2⟩ := h.metTransit_spec n
  have e : ∀ x, (h.claimWrite n).ov x = ((h.metTransit n).recallAll n).ov x := by intro x; cases x <;> rfl
  refine ⟨((h1.trans (Hw.recallAll_same _ n)).trans (Hw.setDir_same _ _ _)).trans (Hw.killResv_same _ _), fun x _ a ha => ?_, fun x a hx => ?_⟩
  · rw [e, Hw.recallAll_ov, if_pos ha]
  · rw [e, Hw.recallAll_ov, h2, hx, ite_self]

/-- A property of one line that each step gives and none takes away holds of every line of the list. -/
theorem lines_spec {g : Option Agent} {f : Hw → Nat → Hw}
    (hf : ∀ h n, SameBytes h (f h n) ∧ (f h n).soleDirty g n ∧ ∀ x a, ofind (h.ov x) a = none → ofind ((f h n).ov x) a = none)
    (h : Hw) (l : List Nat) : SameBytes h (l.foldl f h) ∧ (∀ n ∈ l, (l.foldl f h).soleDirty g n) ∧
      ∀ x a, ofind (h.ov x) a = none → ofind ((l.foldl f h).ov x) a = none := by
  induction l generalizing h with
  | nil => exact ⟨SameBytes.refl h, by simp, fun _ _ h => h⟩
  | cons n t ih =>
    obtain ⟨h1, h2, h3⟩ := hf h n
    obtain ⟨i1, i2, i3⟩ := ih (f h n)
    refine ⟨h1.trans i1, fun m hm => ?_, fun x a hx => i3 x a (h3 x a hx)⟩
    rcases List.mem_cons.1 hm with rfl | hm
    · exact fun x hx a ha => i3 x a (h2 x hx a ha)
    · exact i2 m hm

theorem mem_linesOf {a n b : Nat} (h : a ≤ b) (hb : b < a + n) : lineOf b ∈ linesOf a n := by
  unfold linesOf lineOf
  rw [List.mem_map]
  have h1 : a / 64 ≤ b / 64 := Nat.div_le_div_right h
  have h2 : b / 64 ≤ (a + n - 1) / 64 := Nat.div_le_div_right (by omega)
  exact ⟨b / 64 - a / 64, List.mem_range.2 (by omega), by omega⟩

theorem mem_keys_cellsAt {a b : Nat} {bs : List Byte} : b ∈ (cellsAt a bs).map Prod.fst ↔ a ≤ b ∧ b < a + bs.length := by
  rw [keys_cellsAt, List.mem_range'_1]

theorem pokeMem_ov_none (h : Hw) (cs : List Host.Cell) (hn : (cs.map Prod.fst).Nodup) (x : Agent) (a : Nat)
    (hx : ofind (h.ov x) a = none) : ofind ((h.pokeMem cs).ov x) a = none := by
  cases x <;> simp only [Hw.ov, Hw.pokeMem] at hx ⊢ <;> rw [ofind_orepls cs hn, hx] <;> rfl

theorem nodup_filter {cs : List Host.Cell} (p : Host.Cell → Bool) (hn : (cs.map Prod.fst).Nodup) :
    ((cs.filter p).map Prod.fst).Nodup := hn.sublist ((List.filter_sublist).map _)

theorem Hw.performed_same (h : Hw) (g : Agent) (n : Nat) : SameBytes h (h.performed g n) := by
  unfold Hw.performed
  dsimp only
  split
  · exact h.setDir_same _ _
  · exact SameBytes.refl h

theorem ended_same (g : Agent) (l : List Nat) (h : Hw) : SameBytes h (l.foldl (fun h n => (h.killResv n).performed g n) h) := by
  induction l generalizing h with
  | nil => exact SameBytes.refl h
  | cons n t ih => exact ((h.killResv_same n).trans (Hw.performed_same _ _ _)).trans (ih _)

theorem Hw.wt_of_regs {h t : Hw} (e : t.regs = h.regs) (a : Nat) : t.writeThrough a = h.writeThrough a := by
  have hg : t.get = h.get := by funext f; unfold Hw.get Hw.rd; rw [e]
  have ho : t.on = h.on := by funext f; unfold Hw.on; rw [hg]
  unfold Hw.writeThrough
  rw [hg, ho]

/-- A store by an agent of the Hub: the stored bytes read as stored, and every other byte reads as before (R205 to R209). -/
theorem Hw.agentStore_put (h : Hw) (g : Agent) (a : Nat) (bs : List Byte) : PutBytes h (h.agentStore g a bs) (cellsAt a bs) := by
  obtain ⟨h1, h2, -⟩ := lines_spec (g := some g) (fun h n => Hw.own_spec h g n) (h.merged (cellsAt a bs)) (linesOf a bs.length)
  unfold Hw.agentStore
  dsimp only
  generalize hk : (linesOf a bs.length).foldl (fun h n => h.own g n) (h.merged (cellsAt a bs)) = k at h1 h2
  refine PutBytes.same ?_ (ended_same _ _ _)
  refine ((h.merged_checked _).same.trans h1).put ?_
  have hw : ∀ b, (k.pokeMem ((cellsAt a bs).filter (fun e => k.writeThrough e.1))).writeThrough b = k.writeThrough b :=
    fun b => Hw.wt_of_regs rfl b
  simp only [hw]
  have hn := nodup_cellsAt a bs
  have hp := Hw.pokeMem_put k ((cellsAt a bs).filter (fun e => k.writeThrough e.1)) (nodup_filter _ hn)
  have hov := fun x b => pokeMem_ov_none k ((cellsAt a bs).filter (fun e => k.writeThrough e.1)) (nodup_filter _ hn) x b
  generalize hq : k.pokeMem ((cellsAt a bs).filter (fun e => k.writeThrough e.1)) = q at hp hov
  have none_other : ∀ b, ofind ((cellsAt a bs).filter (fun e => !k.writeThrough e.1)) b ≠ none → ∀ x, x ≠ g → ofind (q.ov x) b = none := by
    intro b hb x hx
    have hb' : ofind (cellsAt a bs) b ≠ none := by
      rw [ofind_filter (fun i => !k.writeThrough i)] at hb
      intro e; rw [e, ite_self] at hb; exact hb rfl
    have hm : b ∈ (cellsAt a bs).map Prod.fst := by
      by_contra hc
      exact hb' (ofind_none.2 hc)
    obtain ⟨i1, i2⟩ := mem_keys_cellsAt.1 hm
    exact hov x b (h2 (lineOf b) (mem_linesOf i1 i2) x (by simpa using hx) b rfl)
  have hfin : ∀ b, (q.setOv g (oput (q.ov g) ((cellsAt a bs).filter (fun e => !k.writeThrough e.1)))).vis b =
      (ofind ((cellsAt a bs).filter (fun e => !k.writeThrough e.1)) b).getD (q.vis b) := by
    intro b
    have hno := none_other b
    unfold Hw.vis Hw.dirtyAt
    cases hc : ofind ((cellsAt a bs).filter (fun e => !k.writeThrough e.1)) b with
    | none => cases g <;> simp [Hw.setOv, Hw.ov, Hw.backing, ofind_oput, hc]
    | some v =>
      rw [hc] at hno
      cases g
      · simp [Hw.setOv, Hw.ov, Hw.backing, ofind_oput, hc]
      · have := hno (by simp) .m0 (by simp)
        simp only [Hw.ov] at this
        simp [Hw.setOv, Hw.ov, Hw.backing, ofind_oput, hc, this]
      · have i0 := hno (by simp) .m0 (by simp)
        have i1 := hno (by simp) .m1 (by simp)
        simp only [Hw.ov] at i0 i1
        simp [Hw.setOv, Hw.ov, Hw.backing, ofind_oput, hc, i0, i1]
  refine ⟨?_, ?_, ?_, fun b => ?_⟩
  · exact Eq.trans (by cases g <;> rfl) hp.top
  · exact Eq.trans (by cases g <;> rfl) hp.xspi
  · exact Eq.trans (by cases g <;> rfl) hp.nvm
  · rw [hfin, hp.vis b, ofind_filter (fun i => !k.writeThrough i), ofind_filter (fun i => k.writeThrough i)]
    by_cases hwt : k.writeThrough b = true <;> simp [hwt]

/-- Cells that another initiator or an operation at the Hub stores, each in one of the lines `ls` (R205, R206, R209). -/
theorem Hw.hubCells_put (h : Hw) (ls : List Nat) (cs : List Host.Cell) (hn : (cs.map Prod.fst).Nodup)
    (hl : ∀ b ∈ cs.map Prod.fst, lineOf b ∈ ls) : PutBytes h (h.hubCells ls cs) cs := by
  obtain ⟨h1, h2, -⟩ := lines_spec (g := none) (fun h n => Hw.claimWrite_spec h n) (h.merged cs) ls
  unfold Hw.hubCells
  dsimp only
  generalize hk : ls.foldl (fun h n => h.claimWrite n) (h.merged cs) = k at h1 h2
  refine ((h.merged_checked _).same.trans h1).put ?_
  have hw : ∀ b, (k.pokeMem (cs.filter (fun e => k.writeThrough e.1))).writeThrough b = k.writeThrough b := fun b => Hw.wt_of_regs rfl b
  simp only [hw]
  have hp := Hw.pokeMem_put k (cs.filter (fun e => k.writeThrough e.1)) (nodup_filter _ hn)
  have hov := fun x b => pokeMem_ov_none k (cs.filter (fun e => k.writeThrough e.1)) (nodup_filter _ hn) x b
  generalize k.pokeMem (cs.filter (fun e => k.writeThrough e.1)) = q at hp hov
  refine ⟨Eq.trans rfl hp.top, Eq.trans rfl hp.xspi, Eq.trans rfl hp.nvm, fun b => ?_⟩
  have hfin : ∀ u, ({ q with l2 := oput q.l2 (cs.filter (fun e => !k.writeThrough e.1)), l2ups := u } : Hw).vis b =
      (ofind (cs.filter (fun e => !k.writeThrough e.1)) b).getD (q.vis b) := by
    intro u
    unfold Hw.vis Hw.dirtyAt
    cases hc : ofind (cs.filter (fun e => !k.writeThrough e.1)) b with
    | none => simp [Hw.backing, ofind_oput, hc]
    | some v =>
      have hm : b ∈ cs.map Prod.fst := by
        by_contra hx
        rw [ofind_filter (fun i => !k.writeThrough i), ofind_none.2 hx, ite_self] at hc
        cases hc
      have no := fun x => hov x b (h2 (lineOf b) (hl b hm) x (by simp) b rfl)
      have n0 := no .m0
      have n1 := no .m1
      have n2 := no .pe
      simp only [Hw.ov] at n0 n1 n2
      simp [Hw.backing, ofind_oput, hc, n0, n1, n2]
  rw [hfin, hp.vis b, ofind_filter (fun i => !k.writeThrough i), ofind_filter (fun i => k.writeThrough i)]
  by_cases hwt : k.writeThrough b = true <;> simp [hwt]

/-- A store by another initiator or by an operation at the Hub (R205, R206, R209). -/
theorem Hw.hubStore_put (h : Hw) (a : Nat) (bs : List Byte) : PutBytes h (h.hubStore a bs) (cellsAt a bs) :=
  h.hubCells_put _ _ (nodup_cellsAt a bs) fun _ hb => mem_linesOf (mem_keys_cellsAt.1 hb).1 (mem_keys_cellsAt.1 hb).2

/-- Bytes stored to a memory that no cache covers. -/
theorem Hw.straight_put (h : Hw) (a : Nat) (bs : List Byte) : PutBytes h (h.straight a bs) (cellsAt a bs) := by
  unfold Hw.straight Hw.straightCells
  refine SameBytes.put ?_ (Hw.pokeMem_put _ _ (nodup_cellsAt a bs))
  split
  · exact (eccFold_rel Checked.refl Checked.trans Hw.eccNarrow_checked _ _).same
  · exact (h.mergedMem_checked _).same

/-- Bytes written by any initiator that is no agent of the Hub. -/
theorem Hw.writeMem_put (h : Hw) (a : Nat) (bs : List Byte) : PutBytes h (h.writeMem a bs) (cellsAt a bs) := by
  unfold Hw.writeMem
  split
  · rename_i hb
    subst hb
    exact ⟨rfl, rfl, rfl, fun _ => rfl⟩
  · split
    · exact h.hubStore_put a bs
    · exact h.straight_put a bs

/-- A core's store to normal memory. -/
theorem Hw.coreMemStore_put (h : Hw) (c : CoreId) (a : Nat) (bs : List Byte) : PutBytes h (h.coreMemStore c a bs) (cellsAt a bs) := by
  unfold Hw.coreMemStore
  split
  · split
    · exact h.agentStore_put _ a bs
    · exact h.hubStore_put a bs
  · exact h.straight_put a bs

/-! ### The address map -/

theorem ite_ne_of {α : Type} {p : Prop} [Decidable p] {x y r : α} (hx : x ≠ r) (hy : y ≠ r) : (if p then x else y) ≠ r := by
  split
  · exact hx
  · exact hy
theorem region_rom (h : Hw) (a : Nat) : h.region a = .rom ↔ 0x01000000 ≤ a ∧ a < 0x01010000 := by
  constructor
  · intro e
    by_contra hc
    revert e
    unfold Hw.region
    by_cases h1 : a < 0x01000000
    · rw [if_pos h1]; exact nofun
    · rw [if_neg h1, if_neg (by omega)]
      repeat' (first | refine ite_ne_of ?_ ?_ | decide)
  · intro ⟨h1, h2⟩
    unfold Hw.region
    rw [if_neg (by omega), if_pos h2]
theorem region_mram (h : Hw) (a : Nat) : h.region a = .mram ↔ a < 0x01000000 := by
  constructor
  · intro e
    by_contra hc
    revert e
    unfold Hw.region
    rw [if_neg hc]
    repeat' (first | refine ite_ne_of ?_ ?_ | decide)
  · intro h1
    unfold Hw.region
    rw [if_pos h1]
theorem region_xspi (h : Hw) (a : Nat) : h.region a = .xspi ↔ 0x40000000 ≤ a ∧ a < 0x50000000 := by
  constructor
  · intro e
    by_contra hc
    revert e
    unfold Hw.region
    by_cases h1 : a < 0x40000000
    · iterate 14 refine ite_ne_of nofun ?_
      rw [if_pos h1]; exact nofun
    · iterate 16 rw [if_neg (by omega)]
      repeat' (first | refine ite_ne_of ?_ ?_ | decide)
  · intro ⟨h1, h2⟩
    unfold Hw.region
    iterate 15 rw [if_neg (by omega)]
    rw [if_pos h2]

theorem mapped_regions {h : Hw} {t a n : Nat} (hm : h.dmaMapped t a n true = true) :
    h.region a = h.region (a + n - 1) ∧ h.region a ≠ .rom ∧ h.region a ≠ .xspi ∧ h.region a ≠ .unmapped := by
  unfold Hw.dmaMapped at hm
  simp only [Bool.and_eq_true, Bool.not_true, Bool.false_or] at hm
  obtain ⟨⟨⟨⟨⟨h1, h2⟩, h3⟩, h4⟩, h5⟩, h6⟩ := hm
  refine ⟨by simpa using h1, ?_, ?_, by simpa using h3⟩
  · intro e; simp [e] at h5
  · intro e; simp [e] at h5

theorem no_hole {h : Hw} {a n b : Nat} (hn : n ≤ 64) (h1 : h.region a = h.region (a + n - 1)) (h2 : h.region a ≠ .rom) (h3 : h.region a ≠ .xspi)
    (h4 : h.region a ≠ .unmapped) (hb : a ≤ b) (hb2 : b < a + n) : h.region b ≠ .rom ∧ h.region b ≠ .xspi := by
  refine ⟨fun e => ?_, fun e => ?_⟩
  · rw [region_rom] at e
    have h5 : ¬ (0x01000000 ≤ a ∧ a < 0x01010000) := fun x => h2 ((region_rom h a).2 x)
    have : a < 0x01000000 := by omega
    have e1 := (region_mram h a).2 this
    have e2 := (region_mram h (a + n - 1)).1 (h1 ▸ e1)
    omega
  · rw [region_xspi] at e
    have h5 : ¬ (0x40000000 ≤ a ∧ a < 0x50000000) := fun x => h3 ((region_xspi h a).2 x)
    have h6 : a < 0x40000000 := by omega
    have h7 : h.region a = .unmapped := by
      unfold Hw.region
      iterate 14 rw [if_neg (by omega)]
      exact if_pos (by omega)
    exact h4 h7

theorem length_leBytes (n v : Nat) : (leBytes n v).length = n := by
  induction n generalizing v with
  | zero => rfl
  | succ n ih => simp [leBytes, ih]

/-! ### What leaves the registers of the cores alone -/

/-- Two parts with the same cores. -/
structure SameCores (h t : Hw) : Prop where
  m0 : t.m0 = h.m0
  m1 : t.m1 = h.m1
  pol : t.pol = h.pol

theorem SameCores.core {h t : Hw} (s : SameCores h t) (c : CoreId) : t.core c = h.core c := by
  cases c
  · exact s.m0
  · exact s.m1
  · exact s.pol

theorem SameCores.refl (h : Hw) : SameCores h h := ⟨rfl, rfl, rfl⟩

theorem SameCores.trans {h t u : Hw} (a : SameCores h t) (b : SameCores t u) : SameCores h u :=
  ⟨b.m0.trans a.m0, b.m1.trans a.m1, b.pol.trans a.pol⟩

theorem Hw.recallAll_cores (h : Hw) (n : Nat) : SameCores h (h.recallAll n) := ⟨rfl, rfl, rfl⟩

theorem Hw.metTransit_cores (h : Hw) (n : Nat) : SameCores h (h.metTransit n) := by
  unfold Hw.metTransit
  split <;> exact ⟨rfl, rfl, rfl⟩

theorem Hw.readThrough_cores (h : Hw) (n : Nat) : SameCores h (h.readThrough n) := by
  have e := (h.metTransit_cores n).trans (Hw.recallAll_cores _ n)
  unfold Hw.readThrough
  dsimp only
  split
  · exact e.trans ⟨rfl, rfl, rfl⟩
  · exact e

theorem Hw.corrected_cores (h : Hw) (w : Nat) : SameCores h (h.corrected w) := by
  unfold Hw.corrected
  dsimp only
  split <;> exact ⟨rfl, rfl, rfl⟩

theorem Hw.uncorrected_cores (h : Hw) (w : Nat) : SameCores h (h.uncorrected w) := by
  unfold Hw.uncorrected
  dsimp only
  split <;> first | exact ⟨rfl, rfl, rfl⟩ | (split <;> exact ⟨rfl, rfl, rfl⟩)

theorem Hw.memWord_cores (h : Hw) (w : Nat) : SameCores h (h.memWord w).1 := by
  unfold Hw.memWord
  split
  · exact SameCores.refl h
  · exact h.corrected_cores w
  · exact h.uncorrected_cores w

theorem Hw.l2Word_cores (h : Hw) (w : Nat) : SameCores h (h.l2Word w).1 := by
  unfold Hw.l2Word
  split
  · exact ⟨rfl, rfl, rfl⟩
  · unfold Hw.l2Uncorrected
    split <;> exact ⟨rfl, rfl, rfl⟩
  · exact SameCores.refl h

theorem Hw.eccWord_cores (h : Hw) (w : Nat) : SameCores h (h.eccWord w).1 := by
  unfold Hw.eccWord
  split
  · exact SameCores.refl h
  · split
    · exact SameCores.refl h
    · split
      · exact h.l2Word_cores w
      · split
        · exact SameCores.refl h
        · exact h.memWord_cores w

theorem Hw.merged_cores (h : Hw) (bs : List Host.Cell) : SameCores h (h.merged bs) :=
  eccFold_rel SameCores.refl SameCores.trans Hw.eccWord_cores _ _

theorem Hw.mergedMem_cores (h : Hw) (bs : List Host.Cell) : SameCores h (h.mergedMem bs) :=
  eccFold_rel SameCores.refl SameCores.trans Hw.memWord_cores _ _

theorem Hw.eccNarrow_cores (h : Hw) (k : Nat) : SameCores h (h.eccNarrow k).1 := by
  unfold Hw.eccNarrow
  split <;> exact ⟨rfl, rfl, rfl⟩

theorem Hw.eccRead_cores (h : Hw) (a n : Nat) : SameCores h (h.eccRead a n).1 := by
  unfold Hw.eccRead
  split
  · exact eccFold_rel SameCores.refl SameCores.trans Hw.eccNarrow_cores _ _
  · exact eccFold_rel SameCores.refl SameCores.trans Hw.eccWord_cores _ _

theorem Hw.patchFill_cores (h : Hw) (n : Nat) : SameCores h (h.patchFill n) := by
  unfold Hw.patchFill
  simp only [List.foldl]
  have one : ∀ (g : Hw) (half : Nat), SameCores g (match (List.range 32).find? (fun u => g.on (DBG_PU_CTL.EN u) && g.get (DBG_PU_LINE.ADDR u) == half) with
      | none => g
      | some u => let g := g.inc (DBG_PU_HITS.COUNT u)
        if g.on (DBG_PU_CTL.HIT_IE u) then g.pulseLine 243 else g) := by
    intro g half
    split
    · exact SameCores.refl g
    · dsimp only
      split
      · unfold Hw.pulseLine
        split <;> exact ⟨rfl, rfl, rfl⟩
      · exact ⟨rfl, rfl, rfl⟩
  exact (one h _).trans (one _ _)

/-! ### What patches and fetches leave alone -/

theorem Hw.pulseLine_same (h : Hw) (k : Nat) : SameBytes h (h.pulseLine k) := by
  unfold Hw.pulseLine
  split <;> exact ⟨rfl, rfl, rfl, fun _ => rfl⟩

theorem Hw.patchFill_same (h : Hw) (n : Nat) : SameBytes h (h.patchFill n) := by
  unfold Hw.patchFill
  simp only [List.foldl]
  have one : ∀ (g : Hw) (half : Nat), SameBytes g (match (List.range 32).find? (fun u => g.on (DBG_PU_CTL.EN u) && g.get (DBG_PU_LINE.ADDR u) == half) with
      | none => g
      | some u => let g := g.inc (DBG_PU_HITS.COUNT u)
        if g.on (DBG_PU_CTL.HIT_IE u) then g.pulseLine 243 else g) := by
    intro g half
    split
    · exact SameBytes.refl g
    · rename_i u _
      have hu : SameBytes g (g.inc (DBG_PU_HITS.COUNT u)) :=
        Hw.set_same _ _ _ (by simp only [DBG_PU_HITS.COUNT, DBG_PU_HITS, DDR_TOP]; omega)
      dsimp only
      split
      · exact hu.trans (Hw.pulseLine_same _ _)
      · exact hu
  exact (one h _).trans (one _ _)

theorem Hw.setCore_same (h : Hw) (c : CoreId) (x : Core) : SameBytes h (h.setCore c x) := by
  cases c <;> exact ⟨rfl, rfl, rfl, fun _ => rfl⟩

/-- What a fetch into the I-cache leaves alone: every byte, the other cores, and the core itself but for its list of lines. -/
theorem Hw.fetchFill_spec (h : Hw) (c : CoreId) (a : Nat) :
    SameBytes h (h.fetchFill c a) ∧ (∀ d, d ≠ c → (h.fetchFill c a).core d = h.core d) ∧ ∃ l, (h.fetchFill c a).core c = { h.core c with icache := l } := by
  unfold Hw.fetchFill
  dsimp only
  have hs := h.eccRead_same (lineOf a * 64) 64
  have hc := h.eccRead_cores (lineOf a * 64) 64
  generalize h.eccRead (lineOf a * 64) 64 = q at hs hc
  have hp := fun k : Hw => k.patchFill_cores (lineOf a)
  split
  · refine ⟨(hs.trans (Hw.setCore_same _ _ _)).trans (Hw.patchFill_same _ _), fun d hd => ?_, (h.core c).icache ++ [lineOf a], ?_⟩
    · rw [(hp _).core d, Hw.setCore_other _ _ hd, hc.core d]
    · rw [(hp _).core c, Hw.setCore_core, hc.core c]
  · refine ⟨hs.trans (Hw.patchFill_same _ _), fun d _ => ?_, (h.core c).icache, ?_⟩
    · rw [(hp _).core d, hc.core d]
    · rw [(hp _).core c, hc.core c]

/-- Lines that a core's load brings change no byte. -/
theorem Hw.readLines_same (h : Hw) (c : CoreId) (a n : Nat) : SameBytes h (h.readLines c a n) := by
  have fold : ∀ (f : Hw → Nat → Hw), (∀ h n, SameBytes h (f h n)) → ∀ (l : List Nat) (h : Hw), SameBytes h (l.foldl f h) := by
    intro f hf l
    induction l with
    | nil => exact fun h => SameBytes.refl h
    | cons x t ih => exact fun h => (hf h x).trans (ih _)
  unfold Hw.readLines
  split
  · split
    · exact fold _ (fun h n => h.share_same _ n) _ h
    · exact fold _ (fun h n => h.readThrough_same n) _ h
  · exact SameBytes.refl h

/-- The fetch of an instruction changes no byte of memory. -/
theorem Hw.fetch_same (h : Hw) (c : CoreId) (hf : (h.fetch c).2 = none) : SameBytes h (h.fetch c).1 := by
  revert hf
  unfold Hw.fetch
  dsimp only
  split
  · intro hf; simp at hf
  · split
    · intro hf; simp at hf
    · split
      · intro hf; simp at hf
      · split
        · have hc := h.eccRead_same (h.core c).pc.toNat 4
          cases he : h.eccRead (h.core c).pc.toNat 4 with
          | mk g r =>
            rw [he] at hc
            cases r <;> intro hf <;> first | exact hc | simp at hf
        · split
          · intro _; exact SameBytes.refl h
          · have h1 : SameBytes h (if (h.region (h.core c).pc.toNat).cached = true then h.readThrough (lineOf (h.core c).pc.toNat) else h) := by
              split
              · exact h.readThrough_same _
              · exact SameBytes.refl h
            generalize (if (h.region (h.core c).pc.toNat).cached = true then h.readThrough (lineOf (h.core c).pc.toNat) else h) = k at h1
            have h2 := k.eccRead_same (h.core c).pc.toNat 4
            cases he : k.eccRead (h.core c).pc.toNat 4 with
            | mk g r =>
              rw [he] at h2
              cases r <;> intro hf <;> first
                | exact (h1.trans h2).trans (g.fetchFill_spec c _).1
                | simp at hf

/-- The fetch leaves the other cores as they are. -/
theorem Hw.fetch_other (h : Hw) (c d : CoreId) (hd : d ≠ c) (hf : (h.fetch c).2 = none) : (h.fetch c).1.core d = h.core d := by
  revert hf
  unfold Hw.fetch
  dsimp only
  split
  · intro hf; simp at hf
  · split
    · intro hf; simp at hf
    · split
      · intro hf; simp at hf
      · split
        · have hc := h.eccRead_cores (h.core c).pc.toNat 4
          cases he : h.eccRead (h.core c).pc.toNat 4 with
          | mk g r =>
            rw [he] at hc
            cases r <;> intro hf <;> first | exact hc.core d | simp at hf
        · split
          · intro _; rfl
          · have h1 : SameCores h (if (h.region (h.core c).pc.toNat).cached = true then h.readThrough (lineOf (h.core c).pc.toNat) else h) := by
              split
              · exact h.readThrough_cores _
              · exact SameCores.refl h
            generalize (if (h.region (h.core c).pc.toNat).cached = true then h.readThrough (lineOf (h.core c).pc.toNat) else h) = k at h1
            have h2 := k.eccRead_cores (h.core c).pc.toNat 4
            cases he : k.eccRead (h.core c).pc.toNat 4 with
            | mk g r =>
              rw [he] at h2
              cases r <;> intro hf <;> first
                | exact ((g.fetchFill_spec c _).2.1 d hd).trans ((h1.trans h2).core d)
                | simp at hf

/-- The fetch of an instruction leaves the core as it is, but for its I-cache. -/
theorem Hw.fetched_core (h : Hw) (c : CoreId) (hf : (h.fetch c).2 = none) :
    ∃ l, (h.fetched c).core c = { h.core c with icache := l } := by
  unfold Hw.fetched
  revert hf
  unfold Hw.fetch
  dsimp only
  split
  · intro hf; simp at hf
  · split
    · intro hf; simp at hf
    · split
      · intro hf; simp at hf
      · split
        · have hc := h.eccRead_cores (h.core c).pc.toNat 4
          cases he : h.eccRead (h.core c).pc.toNat 4 with
          | mk g r =>
            rw [he] at hc
            cases r <;> intro hf <;> simp at hf
            exact ⟨(h.core c).icache, by rw [hc.core c]⟩
        · split
          · intro _; exact ⟨(h.core c).icache, rfl⟩
          · have h1 : SameCores h (if (h.region (h.core c).pc.toNat).cached = true then h.readThrough (lineOf (h.core c).pc.toNat) else h) := by
              split
              · exact h.readThrough_cores _
              · exact SameCores.refl h
            generalize hk : (if (h.region (h.core c).pc.toNat).cached = true then h.readThrough (lineOf (h.core c).pc.toNat) else h) = k at h1
            have h2 := k.eccRead_cores (h.core c).pc.toNat 4
            cases he : k.eccRead (h.core c).pc.toNat 4 with
            | mk g r =>
              rw [he] at h2
              have h3 := h1.trans h2
              cases r <;> intro hf <;> simp at hf
              obtain ⟨l, hl⟩ := (g.fetchFill_spec c (h.core c).pc.toNat).2.2
              exact ⟨l, hl.trans (by rw [h3.core c])⟩

/-! ### The marks of a debugger -/

/-- The marks of a debugger on the cores are the same. -/
structure Quiet (h t : Hw) : Prop where
  st : ∀ c, (t.core c).ends = (h.core c).ends
  wp : ∀ c, (t.core c).wpExempt = (h.core c).wpExempt

theorem Quiet.refl (h : Hw) : Quiet h h := ⟨fun _ => rfl, fun _ => rfl⟩
theorem Quiet.trans {h t u : Hw} (a : Quiet h t) (b : Quiet t u) : Quiet h u := ⟨fun c => (b.st c).trans (a.st c), fun c => (b.wp c).trans (a.wp c)⟩
theorem SameCores.quiet {h t : Hw} (s : SameCores h t) : Quiet h t := ⟨fun c => by rw [s.core c], fun c => by rw [s.core c]⟩
theorem quiet_of {h t : Hw} (h0 : (t.m0.ends = h.m0.ends ∧ t.m0.wpExempt = h.m0.wpExempt) ∧ (t.m1.ends = h.m1.ends ∧ t.m1.wpExempt = h.m1.wpExempt) ∧
    (t.pol.ends = h.pol.ends ∧ t.pol.wpExempt = h.pol.wpExempt)) : Quiet h t := by
  obtain ⟨⟨a, b⟩, ⟨c, d⟩, e, f⟩ := h0
  exact ⟨fun x => by cases x <;> assumption, fun x => by cases x <;> assumption⟩
theorem quiet_fold {f : Hw → Nat → Hw} (hf : ∀ h n, Quiet h (f h n)) (l : List Nat) (h : Hw) : Quiet h (l.foldl f h) := by
  induction l generalizing h with
  | nil => exact Quiet.refl h
  | cons x t ih => exact (hf h x).trans (ih _)

theorem killResv_quiet (h : Hw) (n : Nat) : Quiet h (h.killResv n) := quiet_of ⟨⟨rfl, rfl⟩, ⟨rfl, rfl⟩, rfl, rfl⟩
theorem loseResv_quiet (h : Hw) (g : Agent) (n : Nat) : Quiet h (h.loseResv g n) := by
  cases g <;> exact quiet_of ⟨⟨rfl, rfl⟩, ⟨rfl, rfl⟩, rfl, rfl⟩
theorem own_quiet (h : Hw) (g : Agent) (n : Nat) : Quiet h (h.own g n) := by
  have key : ∀ (l : List Agent) (k : Hw), Quiet k (l.foldl (fun h a => h.loseResv a n) k) := by
    intro l
    induction l with
    | nil => exact fun k => Quiet.refl k
    | cons a t ih => exact fun k => (loseResv_quiet k a n).trans (ih _)
  unfold Hw.own
  dsimp only
  split
  · exact key _ _
  · exact (key _ _).trans ((SameCores.quiet (Hw.recallAll_cores _ n)).trans (SameCores.quiet ⟨rfl, rfl, rfl⟩))
theorem pokeMem_quiet (h : Hw) (cs : List Host.Cell) : Quiet h (h.pokeMem cs) := quiet_of ⟨⟨rfl, rfl⟩, ⟨rfl, rfl⟩, rfl, rfl⟩
theorem setOv_cores (h : Hw) (g : Agent) (l : List Host.Cell) : SameCores h (h.setOv g l) := by cases g <;> exact ⟨rfl, rfl, rfl⟩
theorem performed_quiet (h : Hw) (g : Agent) (n : Nat) : Quiet h (h.performed g n) := by
  unfold Hw.performed
  dsimp only
  split <;> exact quiet_of ⟨⟨rfl, rfl⟩, ⟨rfl, rfl⟩, rfl, rfl⟩
theorem agentStore_quiet (h : Hw) (g : Agent) (a : Nat) (bs : List Byte) : Quiet h (h.agentStore g a bs) := by
  unfold Hw.agentStore
  dsimp only
  refine Quiet.trans ?_ (quiet_fold (fun h n => (killResv_quiet h n).trans (performed_quiet _ g n)) _ _)
  refine (SameCores.quiet (h.merged_cores (cellsAt a bs))).trans ((quiet_fold (fun h n => own_quiet h g n) (linesOf a bs.length) _).trans ?_)
  exact (pokeMem_quiet _ _).trans (SameCores.quiet (setOv_cores _ _ _))
theorem setDir_cores (h : Hw) (n : Nat) (e : DirEnt) : SameCores h (h.setDir n e) := ⟨rfl, rfl, rfl⟩
theorem claimWrite_quiet (h : Hw) (n : Nat) : Quiet h (h.claimWrite n) := by
  unfold Hw.claimWrite
  dsimp only
  exact (SameCores.quiet (((h.metTransit_cores n).trans (Hw.recallAll_cores _ n)).trans (setDir_cores _ n _))).trans (killResv_quiet _ n)
theorem hubStore_quiet (h : Hw) (a : Nat) (bs : List Byte) : Quiet h (h.hubStore a bs) := by
  unfold Hw.hubStore Hw.hubCells
  dsimp only
  refine (SameCores.quiet (h.merged_cores (cellsAt a bs))).trans ((quiet_fold (fun h n => claimWrite_quiet h n) (linesOf a bs.length) _).trans ?_)
  exact (pokeMem_quiet _ _).trans (SameCores.quiet ⟨rfl, rfl, rfl⟩)
theorem straight_quiet (h : Hw) (a : Nat) (bs : List Byte) : Quiet h (h.straight a bs) := by
  unfold Hw.straight Hw.straightCells
  refine Quiet.trans (SameCores.quiet ?_) (pokeMem_quiet _ _)
  split
  · exact eccFold_rel SameCores.refl SameCores.trans Hw.eccNarrow_cores _ _
  · exact h.mergedMem_cores _
theorem writeMem_quiet (h : Hw) (a : Nat) (bs : List Byte) : Quiet h (h.writeMem a bs) := by
  unfold Hw.writeMem
  split
  · exact Quiet.refl h
  · split
    · exact hubStore_quiet h a bs
    · exact straight_quiet h a bs
theorem coreMemStore_quiet (h : Hw) (c : CoreId) (a : Nat) (bs : List Byte) : Quiet h (h.coreMemStore c a bs) := by
  unfold Hw.coreMemStore
  split
  · split
    · exact agentStore_quiet h _ a bs
    · exact hubStore_quiet h a bs
  · exact straight_quiet h a bs

end Sys2Proof.Machine
end

