-- ==== Sys2Proof/Laws/Instr.lean ====
section
/-! SUPPORT. The laws of one core instruction: what its effect meets, and what each shape of instruction comes to. -/

namespace Sys2Proof.Machine

theorem Core.setGr_ends (x : Core) (i : Fin 32) (v : Word) : (x.setGr i v).ends = x.ends := by
  unfold Core.setGr
  split
  · rfl
  · split
    · split <;> rfl
    · rfl

theorem Core.setGr_wpExempt (x : Core) (i : Fin 32) (v : Word) : (x.setGr i v).wpExempt = x.wpExempt := by
  unfold Core.setGr
  split
  · rfl
  · split
    · split <;> rfl
    · rfl

/-- The core as an instruction's effect meets it. -/
theorem Hw.issued_core_eq (h : Hw) (c : CoreId) (ldm : Bool) (hf : (h.fetch c).2 = none) :
    ∃ l, (h.issued c ldm).core c = { h.core c with
      icache := l, afterEret := false
      eprog := if (h.core c).afterEret && !ldm then (h.core c).eprog &&& 0x7FFFFFFF else (h.core c).eprog } := by
  obtain ⟨l, hl⟩ := h.fetched_core c hf
  refine ⟨l, ?_⟩
  rw [Hw.issued_core, hl]
  unfold Core.begun
  cases he : (h.core c).afterEret
  · simp only [Bool.false_eq_true, if_false, Bool.false_and]
    rw [← he]
  · cases ldm <;> rfl

theorem Hw.issued_ends {h : Hw} {c : CoreId} (hr : h.Ready c) (ldm : Bool) : ((h.issued c ldm).core c).ends = false := by
  obtain ⟨l, hl⟩ := h.issued_core_eq c ldm hr.2.1
  rw [hl]; exact hr.2.2.2

theorem Hw.issued_wpExempt {h : Hw} {c : CoreId} (hr : h.Ready c) (ldm : Bool) :
    ((h.issued c ldm).core c).wpExempt = (h.core c).wpExempt := by
  obtain ⟨l, hl⟩ := h.issued_core_eq c ldm hr.2.1
  rw [hl]

theorem Hw.issued_pc {h : Hw} {c : CoreId} (hr : h.Ready c) (ldm : Bool) : ((h.issued c ldm).core c).pc = (h.core c).pc := by
  obtain ⟨l, hl⟩ := h.issued_core_eq c ldm hr.2.1
  rw [hl]

/-- No watchpoint stops an instruction of a core that is ready. -/
theorem Hw.issued_wpHit {h : Hw} {c : CoreId} (hr : h.Ready c) (ldm : Bool) (a len kind : Nat) :
    (h.issued c ldm).wpHit c a len kind = none := by
  refine Hw.wpHit_none _ _ _ _ _ (fun i hi => ?_)
  unfold Hw.issued
  rw [Hw.settle_begun, Hw.on_setCore]
  exact hr.2.2.1 i hi

/-- A body whose effect leaves the marks of the debugger alone and answers `next`. -/
theorem State.instr_next {s : State} {c : CoreId} {body : Hw → Hw × Done} {g : Hw} (hr : s.hw.Ready c)
    (hb : body (s.hw.issued c false) = (g, .next))
    (hs : (g.core c).ends = ((s.hw.issued c false).core c).ends)
    (hx : (g.core c).wpExempt = ((s.hw.issued c false).core c).wpExempt) :
    s.instr c body = .next { s with hw := (g.goes c ((s.hw.core c).pc + 4)).canon } := by
  unfold State.instr State.run
  dsimp only
  rw [Hw.instr_next hr hb (hs.trans (Hw.issued_ends hr false)) (hx.trans (Hw.issued_wpExempt hr false))]

theorem State.instr_jump {s : State} {c : CoreId} {body : Hw → Hw × Done} {g : Hw} {t : Word} (hr : s.hw.Ready c)
    (hb : body (s.hw.issued c false) = (g, .jump t))
    (hs : (g.core c).ends = ((s.hw.issued c false).core c).ends)
    (hx : (g.core c).wpExempt = ((s.hw.issued c false).core c).wpExempt) :
    s.instr c body = .next { s with hw := (g.goes c t).canon } := by
  unfold State.instr State.run
  dsimp only
  rw [Hw.instr_jump hr hb (hs.trans (Hw.issued_ends hr false)) (hx.trans (Hw.issued_wpExempt hr false))]

theorem Core.done_eq (x : Core) (w : Bool) (hw : w = x.wpExempt) : x.done w = { x with wpExempt := false } := by
  subst hw
  unfold Core.done
  split
  · rfl
  · rename_i h
    have e : x.wpExempt = false := by simpa using h
    exact congrArg (fun b => ({ x with wpExempt := b } : Core)) e

theorem Hw.catchVec_none {h : Hw} {c : CoreId} (v : Nat) (hu : h.Uncaught c) : h.catchVec c v = h := by
  unfold Hw.catchVec
  rw [show h.get (DBG_C_CATCH.VEC (coreNum c)) = 0 from hu]
  simp [bitOf]

theorem Hw.uncaught_setCore {h : Hw} {c d : CoreId} (x : Core) (hu : h.Uncaught c) : (h.setCore d x).Uncaught c := by
  unfold Hw.Uncaught
  rw [Hw.get_setCore]; exact hu

/-- An exception is taken as R143 and R145 say, where no debugger catches it. -/
theorem Hw.raise_takes {h : Hw} {c : CoreId} (w : Bool) (e : Exc) (hu : h.Uncaught c) (hs : (h.core c).ends = false)
    (hx : w = (h.core c).wpExempt) :
    ((h.setCore c ((h.core c).done w)).raise c e).endStep c = h.takes c e.vec e.detail e.aux e.arg e.write e.addr := by
  rw [Core.done_eq _ _ hx]
  have fin : ∀ g : Hw, (g.core c).ends = false → g.endStep c = g := fun g hg => g.endStep_idle c hg
  unfold Hw.raise Hw.takes
  simp only [Hw.setCore_core, Hw.setCore_setCore]
  have hexl : Core.exl ({ h.core c with wpExempt := false } : Core) = (h.core c).exl := rfl
  have hin : ({ h.core c with wpExempt := false } : Core).inDF = (h.core c).inDF := rfl
  rw [hexl]
  by_cases h1 : (h.core c).exl = true
  · rw [if_pos h1, if_pos h1]
    unfold Core.doubled
    by_cases h2 : (h.core c).inDF = true
    · rw [if_pos h2, if_pos (hin.trans h2)]
      rw [fin _ (by rw [Hw.setCore_core]; simpa [Core.ends] using hs)]
    · rw [if_neg h2, if_neg (by rw [hin]; exact h2)]
      rw [Hw.catchVec_none _ (Hw.uncaught_setCore _ hu), fin _ (by rw [Hw.setCore_core]; simpa [Core.ends] using hs)]
      rfl
  · rw [if_neg h1, if_neg h1]
    unfold Hw.enter
    simp only [Hw.setCore_core, Hw.setCore_setCore]
    rw [Hw.catchVec_none _ (Hw.uncaught_setCore _ hu), fin _ (by rw [Hw.setCore_core]; simpa [Core.ends] using hs)]
    rfl

/-- A body that stops with an exception, which no debugger catches. -/
theorem State.instr_takes {s : State} {c : CoreId} {body : Hw → Hw × Done} {g : Hw} {e : Exc} (hr : s.hw.Ready c)
    (hb : body (s.hw.issued c false) = (g, .stop (.exc e))) (hu : g.Uncaught c)
    (hs : (g.core c).ends = ((s.hw.issued c false).core c).ends)
    (hx : (g.core c).wpExempt = ((s.hw.issued c false).core c).wpExempt) :
    s.instr c body = .next { s with hw := (g.takes c e.vec e.detail e.aux e.arg e.write e.addr).canon } := by
  unfold State.instr State.run
  dsimp only
  rw [Hw.instr_exc hr hb, Hw.raise_takes _ e hu (hs.trans (Hw.issued_ends hr false)) (hx.trans (Hw.issued_wpExempt hr false)).symm]

/-- A body that answers `stay`. -/
theorem State.instr_stay {s : State} {c : CoreId} {body : Hw → Hw × Done} {g : Hw} (hr : s.hw.Ready c)
    (hb : body (s.hw.issued c false) = (g, .stay))
    (hs : (g.core c).ends = ((s.hw.issued c false).core c).ends)
    (hx : (g.core c).wpExempt = ((s.hw.issued c false).core c).wpExempt) :
    s.instr c body = .next { s with hw := (g.setCore c { g.core c with wpExempt := false }).canon } := by
  unfold State.instr State.run
  dsimp only
  rw [Hw.instr_stay hr hb (hs.trans (Hw.issued_ends hr false)), Core.done_eq _ _ (hx.trans (Hw.issued_wpExempt hr false)).symm]

/-- A body that answers `back t`: an ERET. -/
theorem State.instr_back {s : State} {c : CoreId} {body : Hw → Hw × Done} {g : Hw} {t : Word} (hr : s.hw.Ready c)
    (hb : body (s.hw.issued c false) = (g, .back t))
    (hs : (g.core c).ends = ((s.hw.issued c false).core c).ends) :
    s.instr c body = .next { s with hw := (g.setCore c { g.core c with
      pc := t, afterEret := true, wpExempt := decide ((g.core c).ecause.toNat % 512 = 15) }).canon } := by
  unfold State.instr State.run
  dsimp only
  obtain ⟨h1, h2, h3, h4⟩ := hr
  have hr : s.hw.Ready c := ⟨h1, h2, h3, h4⟩
  have hs' := hs.trans (Hw.issued_ends hr false)
  have hf : s.hw.fetch c = (s.hw.fetched c, none) := by rw [← h2]; rfl
  unfold Hw.issued at hb
  simp only [Hw.instr, h1, if_true, hf, hb, Hw.settle_done, Hw.wpHit_none _ _ _ _ _ h3, lowerWatch, Done.waits, Bool.not_false, Bool.and_true, Hw.setCore_core, Hw.setCore_setCore]
  rw [Hw.endStep_idle _ _ (by rw [Hw.setCore_core]; exact (Core.done_ends _ _).trans hs')]
  have : ∀ w : Bool, (Core.done (g.core c) w).ecause = (g.core c).ecause := by intro w; unfold Core.done; cases w <;> rfl
  rw [this]
  unfold Core.done
  split <;> rfl

/-- A body of an LDM or STM that answers `next`. -/
theorem State.instr_ldm_next {s : State} {c : CoreId} {body : Hw → Hw × Done} {g : Hw} (hr : s.hw.Ready c)
    (hb : body (s.hw.issued c true) = (g, .next))
    (hs : (g.core c).ends = ((s.hw.issued c true).core c).ends)
    (hx : (g.core c).wpExempt = ((s.hw.issued c true).core c).wpExempt) :
    s.run (fun h => h.instr c true body) = .next { s with hw := (g.goes c ((s.hw.core c).pc + 4)).canon } := by
  unfold State.run
  dsimp only
  rw [Hw.instr_next hr hb (hs.trans (Hw.issued_ends hr true)) (hx.trans (Hw.issued_wpExempt hr true))]

/-- A body of an LDM or STM that answers `stay`: it is interrupted. -/
theorem State.instr_ldm_stay {s : State} {c : CoreId} {body : Hw → Hw × Done} {g : Hw} (hr : s.hw.Ready c)
    (hb : body (s.hw.issued c true) = (g, .stay))
    (hs : (g.core c).ends = ((s.hw.issued c true).core c).ends)
    (hx : (g.core c).wpExempt = ((s.hw.issued c true).core c).wpExempt) :
    s.run (fun h => h.instr c true body) = .next { s with hw := (g.setCore c { g.core c with wpExempt := false }).canon } := by
  unfold State.run
  dsimp only
  rw [Hw.instr_stay hr hb (hs.trans (Hw.issued_ends hr true)), Core.done_eq _ _ (hx.trans (Hw.issued_wpExempt hr true)).symm]

/-- What the fetch leaves of the registers. -/
theorem Hw.issued_get (h : Hw) (c : CoreId) (ldm : Bool) (F : Fld) : (h.issued c ldm).get F = (h.fetched c).get F := by
  unfold Hw.issued
  rw [Hw.settle_begun, Hw.get_setCore]

/-- An instruction that writes one general register. -/
theorem State.alu_next {s : State} {c : CoreId} (hr : s.hw.Ready c) (rd : Fin 32) (v : Hw → Word) :
    s.alu c rd v = .next { s with hw := (((s.hw.issued c false).setGr c rd (v (s.hw.issued c false))).goes c ((s.hw.core c).pc + 4)).canon } := by
  unfold State.alu
  refine State.instr_next hr rfl ?_ ?_
  · simp only [Hw.setGr, Hw.setCore_core, Core.setGr_ends]
  · simp only [Hw.setGr, Hw.setCore_core, Core.setGr_wpExempt]

end Sys2Proof.Machine
end

