-- ==== Sys2Proof/Laws/Access.lean ====
section
/-! SUPPORT. What each shared memory operation of the cores does: loads, stores, atomic operations and maintenance. -/

namespace Sys2Proof.Machine

theorem bytes_same {h t : Hw} (s : SameBytes h t) (a n : Nat) : t.bytes a n = h.bytes a n := by
  induction n generalizing a with
  | zero => rfl
  | succ n ih => simp only [Hw.bytes, s.byte, ih]

theorem coreLoad_ok {h : Hw} {c : CoreId} {a n al : Nat} (hc : h.CanLoad c a n al) (hw : ∀ a l k, h.wpHit c a l k = none) :
    h.coreLoad c a n al = (h.loaded c a n, .ok (some ((h.loaded c a n).bytes a n))) := by
  obtain ⟨h1, h2, h3, h4, h5, h6, h7⟩ := hc
  have e : (h.readLines c a n).eccRead a n = (((h.readLines c a n).eccRead a n).1, .good) := by rw [← h7]
  unfold Hw.coreLoad
  simp only [h1, h2, h3, h4, h5, h6, hw, bne_self_eq_false, Bool.false_and, Bool.not_true, Bool.false_eq_true, if_false]
  rw [e]
  rfl

theorem loaded_same (h : Hw) (c : CoreId) (a n : Nat) : SameBytes h (h.loaded c a n) := (h.readLines_same c a n).trans (Hw.eccRead_same _ a n)

/-! ### The cores but for their reservations -/

/-- The cores are the same but for their reservations. -/
def SameButResv (h t : Hw) : Prop := ∀ d, ∃ r, t.core d = { h.core d with resv := r }

theorem SameButResv.refl (h : Hw) : SameButResv h h := fun d => ⟨(h.core d).resv, rfl⟩
theorem SameButResv.trans {h t u : Hw} (x : SameButResv h t) (y : SameButResv t u) : SameButResv h u := by
  intro d
  obtain ⟨r, e⟩ := x d
  obtain ⟨q, f⟩ := y d
  exact ⟨q, by rw [f, e]⟩
theorem SameCores.resv {h t : Hw} (s : SameCores h t) : SameButResv h t := fun d => ⟨(h.core d).resv, s.core d⟩
theorem resv_fold {f : Hw → Nat → Hw} (hf : ∀ h n, SameButResv h (f h n)) (l : List Nat) (h : Hw) : SameButResv h (l.foldl f h) := by
  induction l generalizing h with
  | nil => exact SameButResv.refl h
  | cons x t ih => exact (hf h x).trans (ih _)
theorem SameButResv.gr {h t : Hw} (x : SameButResv h t) (c : CoreId) (i : Fin 32) : t.gr c i = h.gr c i := by
  obtain ⟨r, e⟩ := x c
  unfold Hw.gr; rw [e]; rfl
theorem SameButResv.quiet {h t : Hw} (x : SameButResv h t) : Quiet h t :=
  ⟨fun c => by obtain ⟨r, e⟩ := x c; rw [e]; rfl, fun c => by obtain ⟨r, e⟩ := x c; rw [e]⟩
theorem SameButResv.pc {h t : Hw} (x : SameButResv h t) (c : CoreId) : (t.core c).pc = (h.core c).pc := by
  obtain ⟨r, e⟩ := x c; rw [e]

theorem killResv_resv (h : Hw) (n : Nat) : SameButResv h (h.killResv n) := fun d => by cases d <;> exact ⟨_, rfl⟩
theorem loseResv_resv (h : Hw) (g : Agent) (n : Nat) : SameButResv h (h.loseResv g n) := fun d => by cases g <;> cases d <;> exact ⟨_, rfl⟩
theorem loseAll_resv (n : Nat) (l : List Agent) (k : Hw) : SameButResv k (l.foldl (fun h a => h.loseResv a n) k) := by
  induction l generalizing k with
  | nil => exact SameButResv.refl k
  | cons a t ih => exact (loseResv_resv k a n).trans (ih _)

theorem recallOwner_resv (h : Hw) (n : Nat) : SameButResv h (h.recallOwner n) := by
  unfold Hw.recallOwner
  dsimp only
  split
  · exact (h.recallAll_cores n).resv.trans (loseAll_resv n _ _)
  · exact SameButResv.refl h

/-- A read takes the line from another agent: that core alone may lose its reservation (R205). -/
theorem share_resv (h : Hw) (g : Agent) (n : Nat) : SameButResv h (h.share g n) := by
  unfold Hw.share
  dsimp only
  split
  · exact SameButResv.refl h
  · exact ((h.metTransit_cores n).resv.trans (recallOwner_resv _ n)).trans (setDir_cores _ n _).resv

/-- An operation at the Hub takes the line from its owner, which may lose its reservation (R205). -/
theorem hubRecall_resv (h : Hw) (n : Nat) : SameButResv h (h.hubRecall n) := by
  have e := (h.metTransit_cores n).resv.trans (recallOwner_resv _ n)
  unfold Hw.hubRecall
  dsimp only
  split
  · exact SameButResv.refl h
  · split
    · exact e.trans (setDir_cores _ n _).resv
    · exact e

theorem loseResv_core {g : Agent} {c : CoreId} (hg : coreAgent c ≠ some g) (h : Hw) (n : Nat) : (h.loseResv g n).core c = h.core c := by
  cases g <;> cases c <;> first | rfl | exact absurd rfl hg

/-- The core that reads keeps all of its own state. -/
theorem share_core {g : Agent} {c : CoreId} (hg : coreAgent c = some g) (h : Hw) (n : Nat) : (h.share g n).core c = h.core c := by
  have key : ∀ (l : List Agent) (k : Hw), l.contains g = false → (l.foldl (fun h a => h.loseResv a n) k).core c = k.core c := by
    intro l
    induction l with
    | nil => exact fun _ _ => rfl
    | cons a t ih =>
      intro k hk
      simp only [List.contains_cons, Bool.or_eq_false_iff, beq_eq_false_iff_ne] at hk
      exact (ih _ hk.2).trans (loseResv_core (fun e => hk.1 (Option.some.inj (hg.symm.trans e))) k n)
  have sd : ∀ (k : Hw) (e : DirEnt), (k.setDir n e).core c = k.core c := fun k e => by cases c <;> rfl
  unfold Hw.share
  dsimp only
  split
  · rfl
  · rename_i hc
    have hd : (h.metTransit n).dirAt n = h.dirAt n := by unfold Hw.metTransit; split <;> rfl
    rw [sd]
    refine Eq.trans ?_ ((h.metTransit_cores n).core c)
    unfold Hw.recallOwner
    dsimp only
    split
    · rw [hd]
      simp only [Bool.or_eq_true, not_or, Bool.not_eq_true] at hc
      exact (key _ _ hc.1).trans ((Hw.recallAll_cores _ n).core c)
    · rfl

theorem fold_resv {f : Hw → Nat → Hw} (hf : ∀ h n, SameButResv h (f h n)) (l : List Nat) (h : Hw) : SameButResv h (l.foldl f h) := by
  induction l generalizing h with
  | nil => exact SameButResv.refl h
  | cons x t ih => exact (hf h x).trans (ih _)

theorem fold_core {f : Hw → Nat → Hw} {c : CoreId} (hf : ∀ h n, (f h n).core c = h.core c) (l : List Nat) (h : Hw) : (l.foldl f h).core c = h.core c := by
  induction l generalizing h with
  | nil => rfl
  | cons x t ih => exact (ih _).trans (hf h x)

theorem readLines_resv (h : Hw) (c : CoreId) (a n : Nat) : SameButResv h (h.readLines c a n) := by
  unfold Hw.readLines
  split
  · split
    · exact fold_resv (fun h n => share_resv h _ n) _ h
    · exact fold_resv (fun h n => (h.readThrough_cores n).resv) _ h
  · exact SameButResv.refl h

theorem readLines_core (h : Hw) (c : CoreId) (a n : Nat) : (h.readLines c a n).core c = h.core c := by
  unfold Hw.readLines
  split
  · split
    · rename_i g hg
      exact fold_core (fun h n => share_core hg h n) _ h
    · exact fold_core (fun h n => (h.readThrough_cores n).core c) _ h
  · rfl

theorem loaded_resv (h : Hw) (c : CoreId) (a n : Nat) : SameButResv h (h.loaded c a n) :=
  (readLines_resv h c a n).trans (Hw.eccRead_cores _ a n).resv

theorem loaded_core (h : Hw) (c : CoreId) (a n : Nat) : (h.loaded c a n).core c = h.core c :=
  ((Hw.eccRead_cores _ a n).core c).trans (readLines_core h c a n)

theorem upset_same (h : Hw) (u : Upset) (a : Nat) : SameBytes h (h.upset u a) := by
  unfold Hw.upset
  split
  · exact SameBytes.refl h
  · dsimp only
    split
    · exact (Hw.setDir_same _ _ _).trans (Hw.set_same _ _ _ (by decide))
    · exact SameBytes.refl h
  · split
    · exact ⟨rfl, rfl, rfl, fun _ => rfl⟩
    · exact SameBytes.refl h
  · split
    · exact ⟨rfl, rfl, rfl, fun _ => rfl⟩
    · exact SameBytes.refl h
  · split
    · exact (h.upsets_checked _).same
    · split
      · exact (h.upsets_checked _).same
      · exact SameBytes.refl h

theorem upset_cores (h : Hw) (u : Upset) (a : Nat) : SameCores h (h.upset u a) := by
  unfold Hw.upset
  split
  · exact SameCores.refl h
  · dsimp only
    split <;> exact ⟨rfl, rfl, rfl⟩
  · split <;> exact ⟨rfl, rfl, rfl⟩
  · split <;> exact ⟨rfl, rfl, rfl⟩
  · split
    · exact ⟨rfl, rfl, rfl⟩
    · split <;> exact ⟨rfl, rfl, rfl⟩

theorem upset_on (h : Hw) (u : Upset) (a n i : Nat) : (h.upset u a).on (DBG_C_WP_CTL.EN n i) = h.on (DBG_C_WP_CTL.EN n i) := by
  unfold Hw.upset
  split
  · rfl
  · dsimp only
    split
    · have : ∀ k : Hw, k.regs = h.regs → (k.up HUB_STAT.DIR_ERR).on (DBG_C_WP_CTL.EN n i) = h.on (DBG_C_WP_CTL.EN n i) := by
        intro k hk
        unfold Hw.on Hw.up
        rw [Hw.get_set_apart]
        · unfold Hw.get Hw.rd; rw [hk]
        · left; simp only [HUB_STAT.DIR_ERR, HUB_STAT, DBG_C_WP_CTL.EN, DBG_C_WP_CTL]; omega
      exact this _ rfl
    · rfl
  · split <;> rfl
  · split <;> rfl
  · split
    · rfl
    · split <;> rfl

theorem upset_wp {s : State} {c : CoreId} (hr : s.hw.Ready c) (u : Upset) (x : Nat) (a l k : Nat) :
    ((s.hw.issued c false).upset u x).wpHit c a l k = none := by
  refine Hw.wpHit_none _ _ _ _ _ (fun i hi => ?_)
  rw [upset_on]
  unfold Hw.issued
  rw [Hw.settle_begun, Hw.on_setCore]
  exact hr.2.2.1 i hi

theorem issued_same {s : State} {c : CoreId} (hr : s.hw.Ready c) : SameBytes s.hw (s.hw.issued c false) := by
  unfold Hw.issued
  rw [Hw.settle_begun]
  exact (s.hw.fetch_same c hr.2.1).trans (Hw.setCore_same _ _ _)

theorem sext_sgn8 (v : Nat) : sextW (BitVec.ofNat 8 v) = BitVec.ofInt 32 (sgn 8 v) := by
  unfold sextW sgn
  apply BitVec.eq_of_toInt_eq
  rw [BitVec.toInt_signExtend_of_le (by omega), BitVec.toInt_ofInt, BitVec.toInt_eq_toNat_cond, BitVec.toNat_ofNat]
  have : v % 2 ^ 8 < 2 ^ 8 := Nat.mod_lt _ (by decide)
  split <;> split <;> (rw [Int.bmod_eq_of_le] <;> omega)

theorem sext_sgn16 (v : Nat) : sextW (BitVec.ofNat 16 v) = BitVec.ofInt 32 (sgn 16 v) := by
  unfold sextW sgn
  apply BitVec.eq_of_toInt_eq
  rw [BitVec.toInt_signExtend_of_le (by omega), BitVec.toInt_ofInt, BitVec.toInt_eq_toNat_cond, BitVec.toNat_ofNat]
  have : v % 2 ^ 16 < 2 ^ 16 := Nat.mod_lt _ (by decide)
  split <;> split <;> (rw [Int.bmod_eq_of_le] <;> omega)

theorem coreStore_ok {h : Hw} {c : CoreId} {a n al : Nat} {bs : List Byte} (hc : h.CanStore c a n al) (hn : bs.length = n)
    (hw : ∀ a l k, h.wpHit c a l k = none) : h.coreStore c a bs al = (h.coreMemStore c a bs, none) := by
  obtain ⟨h1, h2, h3, h4, h5, h6, h7⟩ := hc
  unfold Hw.coreStore Hw.misaligned
  simp only [hn, h1, h2, h3, h4, h5, h6, h7, hw, bne_self_eq_false, Bool.false_and, Bool.not_true, Bool.false_eq_true, if_false, if_true]

theorem stored_of {g h t : Hw} {a : Nat} {bs : List Byte} (s : SameBytes g h) (p : PutBytes h t (cellsAt a bs)) (hl : bs.length ≤ 64) (tid : Nat)
    (hm : h.dmaMapped tid a bs.length true = true) : Stored g t a bs := by
  intro b
  obtain ⟨h1, h2, h3, h4⟩ := mapped_regions hm
  have hk : ∀ x ∈ (cellsAt a bs).map Prod.fst, h.region x ≠ .rom ∧ h.region x ≠ .xspi := by
    intro x hx
    obtain ⟨i, j⟩ := mem_keys_cellsAt.1 hx
    exact no_hole hl h1 h2 h3 h4 i j
  rw [p.byte hk b, ofind_cellsAt, s.byte b]
  by_cases hb : a ≤ b
  · by_cases hb2 : b < a + bs.length
    · have : b - a < bs.length := by omega
      simp [hb, hb2, List.getD, this]
    · have : ¬ (b - a < bs.length) := by omega
      simp [hb, hb2, this]
  · simp [hb]

theorem hubLoad_ok {h : Hw} {c : CoreId} {a : Nat} {w : Bool} (hc : h.CanAtomic c a w) (hw : ∀ a l k, h.wpHit c a l k = none) :
    h.hubLoad c a w = (h.atomicRead a, .ok (some ((h.atomicRead a).bytes a 4))) := by
  obtain ⟨h1, h2, h3, h4, h5, h6⟩ := hc
  have e : (if (h.region a).cached then h.hubRecall (lineOf a) else h).eccRead a 4 = (((if (h.region a).cached then h.hubRecall (lineOf a) else h).eccRead a 4).1, .good) := by rw [← h6]
  unfold Hw.hubLoad
  have h3' : (w && !h.coreMpu c .w a 4) = false := by
    cases w
    · rfl
    · rw [h3 rfl]; rfl
  simp only [h1, h2, h3', h4, h5, bne_self_eq_false, Bool.or_self, Bool.not_true, Bool.false_eq_true, if_false]
  rw [e]
  cases w
  · simp only [hw, Bool.false_eq_true, if_false]; rfl
  · simp only [hw, if_true]; rfl

theorem atomic_same (h : Hw) (a : Nat) : SameBytes h (h.atomicRead a) := by
  unfold Hw.atomicRead
  refine SameBytes.trans ?_ (Hw.eccRead_same _ a 4)
  split
  · exact h.hubRecall_same _
  · exact SameBytes.refl h

/-- The Hub's read of the word of an atomic operation leaves every core as it is, but for reservations. -/
theorem atomic_resv (h : Hw) (a : Nat) : SameButResv h (h.atomicRead a) := by
  unfold Hw.atomicRead
  refine SameButResv.trans ?_ (Hw.eccRead_cores _ a 4).resv
  split
  · exact hubRecall_resv h _
  · exact SameButResv.refl h

theorem setGr_marks (h : Hw) (c : CoreId) (i : Fin 32) (v : Word) : ((h.setGr c i v).core c).ends = (h.core c).ends ∧ ((h.setGr c i v).core c).wpExempt = (h.core c).wpExempt := by
  simp only [Hw.setGr, Hw.setCore_core, Core.setGr_ends, Core.setGr_wpExempt, and_self]

theorem setResv_marks (h : Hw) (c : CoreId) (r : Option Nat) : ((h.setResv c r).core c).ends = (h.core c).ends ∧ ((h.setResv c r).core c).wpExempt = (h.core c).wpExempt := by
  simp only [Hw.setResv, Hw.setCore_core, Core.ends, and_self]

theorem region_top {h t : Hw} (e : t.ddrTop = h.ddrTop) (a : Nat) : t.region a = h.region a := by unfold Hw.region; rw [e]

theorem stored_at {g h t : Hw} {a : Nat} {bs : List Byte} (s : SameBytes g h) (p : PutBytes h t (cellsAt a bs)) (hl : bs.length ≤ 64)
    (h1 : h.region a = h.region (a + bs.length - 1)) (h2 : h.region a ≠ .rom) (h3 : h.region a ≠ .xspi) (h4 : h.region a ≠ .unmapped) : Stored g t a bs := by
  intro b
  have hk : ∀ x ∈ (cellsAt a bs).map Prod.fst, h.region x ≠ .rom ∧ h.region x ≠ .xspi := by
    intro x hx
    obtain ⟨i, j⟩ := mem_keys_cellsAt.1 hx
    exact no_hole hl h1 h2 h3 h4 i j
  rw [p.byte hk b, ofind_cellsAt, s.byte b]
  by_cases hb : a ≤ b
  · by_cases hb2 : b < a + bs.length
    · have : b - a < bs.length := by omega
      simp [hb, hb2, List.getD, this]
    · have : ¬ (b - a < bs.length) := by omega
      simp [hb, hb2, this]
  · simp [hb]

theorem recall_ov (h : Hw) (g : Agent) (n : Nat) (x : Agent) (b : Nat) :
    ofind ((h.recall g n).ov x) b = if x = g ∧ lineOf b = n then none else ofind (h.ov x) b := by
  cases g <;> cases x <;> simp [Hw.recall, Hw.setOv, Hw.ov, ofind_odrop]

theorem oline_nil {l : List Host.Cell} {n : Nat} (h : oline l n = []) (b : Nat) (hb : lineOf b = n) : ofind l b = none := by
  have := ofind_oline l n b
  rw [h, if_pos hb] at this
  exact this.symm

/-- After its writeback no agent holds a dirty byte of the line. -/
theorem cleanLine_ov (h : Hw) (n : Nat) (g : Agent) (b : Nat) (hb : lineOf b = n) : ofind ((h.cleanLine n).ov g) b = none := by
  have h0 : ofind ((h.recallAll n).ov g) b = none := by rw [Hw.recallAll_ov, if_pos hb]
  have bad : ∀ (l : List Nat) (k : Hw), (l.foldl (fun h w => h.writeBad w) k).ov g = k.ov g := by
    intro l
    induction l with
    | nil => exact fun _ => rfl
    | cons w t ih =>
      intro k
      refine (ih _).trans ?_
      dsimp only
      unfold Hw.writeBad
      by_cases hm : k.region (w * 8) = .mram
      · rw [if_pos hm]; cases g <;> rfl
      · rw [if_neg hm]; cases g <;> rfl
  unfold Hw.cleanLine
  dsimp only
  split
  · exact h0
  · rw [bad]
    have := (eccFold_rel Checked.refl Checked.trans Hw.l2Word_checked (h.recallAll n) (lineWords n)).ov g
    generalize (eccFold Hw.l2Word (h.recallAll n) (lineWords n)).1 = k at this
    have e : ∀ l m, ({ (k.memPut l) with l2 := m } : Hw).ov g = k.ov g := fun l m => by cases g <;> rfl
    rw [e, this, h0]

theorem dcwb_none {h : Hw} {c : CoreId} {g : Agent} (hg : coreAgent c = some g) (n b : Nat) (hb : lineOf b = n) : ofind ((h.dcwb c n).ov g) b = none := by
  unfold Hw.dcwb
  rw [hg]
  dsimp only
  split
  · rename_i e
    exact oline_nil e.1 b hb
  · exact cleanLine_ov h n g b hb

theorem leaveLine_same {h : Hw} {c : CoreId} (n : Nat) (a : Nat) (hn : lineOf a = n → ∀ g, coreAgent c = some g → ofind (h.ov g) a = none) :
    (h.leaveLine c n).byte a = h.byte a := by
  unfold Hw.leaveLine
  cases hg : coreAgent c with
  | none => rfl
  | some g =>
    dsimp only
    have key : ((h.setOv g (odrop (h.ov g) n)).loseResv g n).byte a = h.byte a := by
      rw [(Hw.loseResv_same _ g n).byte a]
      have hf : ofind (odrop (h.ov g) n) a = ofind (h.ov g) a := by
        rw [ofind_odrop]
        by_cases hl : lineOf a = n
        · rw [if_pos hl, hn hl g hg]
        · rw [if_neg hl]
      rw [Hw.byte_eq, Hw.byte_eq]
      have hr : (h.setOv g (odrop (h.ov g) n)).region a = h.region a := by cases g <;> rfl
      have hd : (h.setOv g (odrop (h.ov g) n)).dirtyAt a = h.dirtyAt a := by
        cases g <;> simp only [Hw.ov] at hf <;> simp only [Hw.dirtyAt, Hw.setOv, Hw.ov, hf]
      rw [hr, hd]
      cases g <;> rfl
    split
    · exact ((Hw.setDir_same _ _ _).byte a).trans key
    · exact key

theorem dcwb_byte (h : Hw) (c : CoreId) (n a : Nat) (hs : h.lineSound n) : (h.dcwb c n).byte a = h.byte a := by
  unfold Hw.dcwb
  dsimp only
  split <;> split
  · rfl
  · exact h.cleanLine_byte n a hs
  · rfl
  · exact h.cleanLine_byte n a hs

theorem writeBad_quiet (h : Hw) (w : Nat) : Quiet h (h.writeBad w) := by
  unfold Hw.writeBad
  split <;> exact quiet_of ⟨⟨rfl, rfl⟩, ⟨rfl, rfl⟩, rfl, rfl⟩

theorem cleanLine_quiet (h : Hw) (n : Nat) : Quiet h (h.cleanLine n) := by
  unfold Hw.cleanLine
  dsimp only
  split
  · exact (h.recallAll_cores n).quiet
  · have hk := ((h.recallAll_cores n).trans (eccFold_rel SameCores.refl SameCores.trans Hw.l2Word_cores _ (lineWords n))).quiet
    generalize (eccFold Hw.l2Word (h.recallAll n) (lineWords n)).1 = k at hk
    have hm : ∀ l m, Quiet k { (k.memPut l) with l2 := m } := fun l m => quiet_of ⟨⟨rfl, rfl⟩, ⟨rfl, rfl⟩, rfl, rfl⟩
    exact hk.trans ((hm _ _).trans (quiet_fold writeBad_quiet _ _))

theorem dcwb_marks (h : Hw) (c : CoreId) (n : Nat) : ((h.dcwb c n).core c).ends = (h.core c).ends ∧ ((h.dcwb c n).core c).wpExempt = (h.core c).wpExempt := by
  have this : ((h.cleanLine n).core c).ends = (h.core c).ends ∧ ((h.cleanLine n).core c).wpExempt = (h.core c).wpExempt := by
    have q := cleanLine_quiet h n
    exact ⟨q.st c, q.wp c⟩
  unfold Hw.dcwb
  dsimp only
  split <;> split
  · exact ⟨rfl, rfl⟩
  · exact this
  · exact ⟨rfl, rfl⟩
  · exact this

theorem leaveLine_marks (h : Hw) (c : CoreId) (n : Nat) : ((h.leaveLine c n).core c).ends = (h.core c).ends ∧ ((h.leaveLine c n).core c).wpExempt = (h.core c).wpExempt := by
  have key : ∀ g : Agent, (((h.setOv g (odrop (h.ov g) n)).loseResv g n).core c).ends = (h.core c).ends ∧
      (((h.setOv g (odrop (h.ov g) n)).loseResv g n).core c).wpExempt = (h.core c).wpExempt := by
    intro g
    cases g <;> cases c <;> simp only [Hw.loseResv, Hw.setOv, Hw.core, Core.ends] <;> (try split) <;> (first | exact ⟨rfl, rfl⟩ | simp)
  unfold Hw.leaveLine
  split
  · exact ⟨rfl, rfl⟩
  · dsimp only
    split
    · rename_i g _ _
      have := key g
      cases c <;> exact this
    · exact key _

/-! ### Registers that memory accesses leave alone -/

/-- Every register from 0x20170000 on, the debug unit's among them, is the same. -/
def SameHigh (h t : Hw) : Prop := ∀ a, 0x20170000 ≤ a → t.rd a = h.rd a

theorem SameHigh.refl (h : Hw) : SameHigh h h := fun _ _ => rfl
theorem SameHigh.trans {h t u : Hw} (x : SameHigh h t) (y : SameHigh t u) : SameHigh h u := fun a ha => (y a ha).trans (x a ha)
theorem high_of {h t : Hw} (e : t.regs = h.regs) : SameHigh h t := fun a _ => by unfold Hw.rd; rw [e]
theorem wr_high (h : Hw) {b : Nat} (v : BitVec 32) (hb : b < 0x20170000) : SameHigh h (h.wr b v) := fun a ha => Hw.rd_wr_other h v (by omega)
theorem set_high (h : Hw) {f : Fld} (v : Nat) (hf : f.adr < 0x20170000) : SameHigh h (h.set f v) := wr_high h _ hf
theorem high_fold {f : Hw → Nat → Hw} (hf : ∀ h n, SameHigh h (f h n)) (l : List Nat) (h : Hw) : SameHigh h (l.foldl f h) := by
  induction l generalizing h with
  | nil => exact SameHigh.refl h
  | cons x t ih => exact (hf h x).trans (ih _)

theorem SameHigh.wp {h t : Hw} (x : SameHigh h t) (n i : Nat) : t.on (DBG_C_WP_CTL.EN n i) = h.on (DBG_C_WP_CTL.EN n i) := by
  unfold Hw.on Hw.get
  rw [x _ (by simp only [DBG_C_WP_CTL.EN, DBG_C_WP_CTL]; omega)]

theorem SameHigh.idle {h t : Hw} (x : SameHigh h t) {c : CoreId} (e : ∀ i, i < 8 → h.on (DBG_C_WP_CTL.EN (coreNum c) i) = false)
    (a l k : Nat) : t.wpHit c a l k = none :=
  Hw.wpHit_none _ _ _ _ _ (fun i hi => (x.wp _ i).trans (e i hi))

theorem recallAll_high (h : Hw) (n : Nat) : SameHigh h (h.recallAll n) := high_of rfl

theorem loseAll_high (n : Nat) (l : List Agent) (k : Hw) : SameHigh k (l.foldl (fun h a => h.loseResv a n) k) := by
  induction l generalizing k with
  | nil => exact SameHigh.refl k
  | cons a t ih => exact SameHigh.trans (by cases a <;> exact high_of rfl) (ih _)

theorem metTransit_high (h : Hw) (n : Nat) : SameHigh h (h.metTransit n) := by
  unfold Hw.metTransit
  split
  · exact set_high _ _ (by decide)
  · exact SameHigh.refl h

theorem setDir_high (h : Hw) (n : Nat) (e : DirEnt) : SameHigh h (h.setDir n e) := high_of rfl

theorem killResv_high (h : Hw) (n : Nat) : SameHigh h (h.killResv n) := high_of rfl

theorem recallOwner_high (h : Hw) (n : Nat) : SameHigh h (h.recallOwner n) := by
  unfold Hw.recallOwner
  dsimp only
  split
  · exact (recallAll_high h n).trans (loseAll_high n _ _)
  · exact SameHigh.refl h

theorem claimWrite_high (h : Hw) (n : Nat) : SameHigh h (h.claimWrite n) := by
  unfold Hw.claimWrite
  dsimp only
  exact (((metTransit_high h n).trans (recallAll_high _ n)).trans (setDir_high _ n _)).trans (killResv_high _ n)

theorem readLines_high (h : Hw) (c : CoreId) (a n : Nat) : SameHigh h (h.readLines c a n) := by
  unfold Hw.readLines
  split
  · split
    · refine high_fold (fun h n => ?_) _ h
      unfold Hw.share
      dsimp only
      split
      · exact SameHigh.refl h
      · exact ((metTransit_high h n).trans (recallOwner_high _ n)).trans (setDir_high _ n _)
    · refine high_fold (fun h n => ?_) _ h
      have e := (metTransit_high h n).trans (recallAll_high _ n)
      unfold Hw.readThrough
      dsimp only
      split
      · exact e.trans (setDir_high _ n _)
      · exact e
  · exact SameHigh.refl h

theorem corrected_high (h : Hw) (w : Nat) : SameHigh h (h.corrected w) := by
  have h1 : SameHigh h { h with upsets := mdel w h.upsets } := high_of rfl
  unfold Hw.corrected
  dsimp only
  split
  · exact h1.trans ((set_high _ _ (by decide)).trans ((wr_high _ _ (by decide)).trans (set_high _ _ (by decide))))
  · exact h1.trans ((set_high _ _ (by decide)).trans ((set_high _ _ (by decide)).trans (set_high _ _ (by decide))))
  · exact h1.trans ((set_high _ _ (by decide)).trans (set_high _ _ (by decide)))
  · exact h1

theorem uncorrected_high (h : Hw) (w : Nat) : SameHigh h (h.uncorrected w) := by
  unfold Hw.uncorrected
  dsimp only
  split
  · refine SameHigh.trans ?_ ((set_high _ _ (by decide)).trans (set_high _ _ (by decide)))
    split
    · exact SameHigh.refl h
    · exact wr_high _ _ (by decide)
  · refine SameHigh.trans ?_ ((set_high _ _ (by decide)).trans (set_high _ _ (by decide)))
    split
    · exact SameHigh.refl h
    · exact wr_high _ _ (by decide)
  · refine SameHigh.trans ?_ (set_high _ _ (by decide))
    split
    · exact SameHigh.refl h
    · exact wr_high _ _ (by decide)
  · exact SameHigh.refl h

theorem eccFold_high {f : Hw → Nat → Hw × EccRes} (hf : ∀ h n, SameHigh h (f h n).1) (l : List Nat) (h : Hw) : SameHigh h (eccFold f h l).1 := by
  unfold eccFold
  have key : ∀ (l : List Nat) (p : Hw × EccRes), SameHigh p.1 (l.foldl (fun p w => let q := f p.1 w; (q.1, if p.2 = .good then q.2 else p.2)) p).1 := by
    intro l
    induction l with
    | nil => exact fun p => SameHigh.refl _
    | cons x t ih => exact fun p => (hf p.1 x).trans (ih _)
  exact key l (h, .good)

theorem memWord_high (h : Hw) (w : Nat) : SameHigh h (h.memWord w).1 := by
  unfold Hw.memWord
  split
  · exact SameHigh.refl h
  · exact corrected_high h w
  · exact uncorrected_high h w

theorem l2Word_high (h : Hw) (w : Nat) : SameHigh h (h.l2Word w).1 := by
  unfold Hw.l2Word
  split
  · have h1 : SameHigh h { h with l2ups := mdel w h.l2ups } := high_of rfl
    exact h1.trans ((set_high _ _ (by decide)).trans ((set_high _ _ (by decide)).trans (set_high _ _ (by decide))))
  · refine SameHigh.trans ?_ ((set_high _ _ (by decide)).trans (set_high _ _ (by decide)))
    split
    · exact SameHigh.refl h
    · exact wr_high _ _ (by decide)
  · exact SameHigh.refl h

theorem eccWord_high (h : Hw) (w : Nat) : SameHigh h (h.eccWord w).1 := by
  unfold Hw.eccWord
  split
  · exact SameHigh.refl h
  · split
    · exact SameHigh.refl h
    · split
      · exact l2Word_high h w
      · split
        · exact SameHigh.refl h
        · exact memWord_high h w

theorem eccNarrow_high (h : Hw) (k : Nat) : SameHigh h (h.eccNarrow k).1 := by
  unfold Hw.eccNarrow
  split <;> exact high_of rfl

theorem merged_high (h : Hw) (bs : List Host.Cell) : SameHigh h (h.merged bs) := eccFold_high eccWord_high _ h

theorem eccRead_high (h : Hw) (a n : Nat) : SameHigh h (h.eccRead a n).1 := by
  unfold Hw.eccRead
  split
  · exact eccFold_high eccNarrow_high _ h
  · exact eccFold_high eccWord_high _ h

theorem loaded_high (h : Hw) (c : CoreId) (a n : Nat) : SameHigh h (h.loaded c a n) := (readLines_high h c a n).trans (eccRead_high _ a n)

theorem own_high (h : Hw) (g : Agent) (n : Nat) : SameHigh h (h.own g n) := by
  unfold Hw.own
  dsimp only
  split
  · exact loseAll_high n _ _
  · exact (loseAll_high n _ _).trans ((recallAll_high _ n).trans (setDir_high _ n _))

theorem pokeMem_high (h : Hw) (cs : List Host.Cell) : SameHigh h (h.pokeMem cs) := high_of rfl

theorem setOv_high (h : Hw) (g : Agent) (l : List Host.Cell) : SameHigh h (h.setOv g l) := by cases g <;> exact high_of rfl

theorem performed_high (h : Hw) (g : Agent) (n : Nat) : SameHigh h (h.performed g n) := by
  unfold Hw.performed
  dsimp only
  split <;> exact high_of rfl

theorem straight_high (h : Hw) (a : Nat) (bs : List Byte) : SameHigh h (h.straight a bs) := by
  unfold Hw.straight Hw.straightCells
  refine SameHigh.trans ?_ (pokeMem_high _ _)
  split
  · exact eccFold_high eccNarrow_high _ h
  · exact eccFold_high memWord_high _ h

theorem hubCells_high (h : Hw) (ls : List Nat) (cs : List Host.Cell) : SameHigh h (h.hubCells ls cs) := by
  unfold Hw.hubCells
  dsimp only
  refine (merged_high h cs).trans ((high_fold (f := fun h n => h.claimWrite n) (fun h n => claimWrite_high h n) ls _).trans ?_)
  have hp := pokeMem_high (ls.foldl (fun h n => h.claimWrite n) (h.merged cs)) (cs.filter (fun e => (ls.foldl (fun h n => h.claimWrite n) (h.merged cs)).writeThrough e.1))
  exact hp.trans (high_of rfl)

theorem coreMemStore_high (h : Hw) (c : CoreId) (a : Nat) (bs : List Byte) : SameHigh h (h.coreMemStore c a bs) := by
  unfold Hw.coreMemStore
  split
  · split
    · rename_i g _
      unfold Hw.agentStore
      dsimp only
      refine SameHigh.trans ?_ (high_fold (f := fun h n => (h.killResv n).performed g n)
        (fun h n => SameHigh.trans (t := h.killResv n) (high_of rfl) (performed_high _ g n)) _ _)
      refine (merged_high h (cellsAt a bs)).trans ((high_fold (f := fun h n => h.own g n) (fun h n => own_high h g n) (linesOf a bs.length) _).trans ?_)
      exact (pokeMem_high _ _).trans (setOv_high _ _ _)
    · exact hubCells_high h _ _
  · exact straight_high h a bs

/-! ### Stores change no core but its reservation -/

theorem pokeMem_resv (h : Hw) (cs : List Host.Cell) : SameButResv h (h.pokeMem cs) := fun d => by cases d <;> exact ⟨_, rfl⟩
theorem claimWrite_resv (h : Hw) (n : Nat) : SameButResv h (h.claimWrite n) := by
  unfold Hw.claimWrite
  dsimp only
  exact (((h.metTransit_cores n).trans (Hw.recallAll_cores _ n)).trans (setDir_cores _ n _)).resv.trans (killResv_resv _ n)

theorem own_resv (h : Hw) (g : Agent) (n : Nat) : SameButResv h (h.own g n) := by
  unfold Hw.own
  dsimp only
  split
  · exact loseAll_resv n _ _
  · exact (loseAll_resv n _ _).trans ((Hw.recallAll_cores _ n).trans (setDir_cores _ n _)).resv

theorem performed_cores (h : Hw) (g : Agent) (n : Nat) : SameCores h (h.performed g n) := by
  unfold Hw.performed
  dsimp only
  split <;> exact ⟨rfl, rfl, rfl⟩

theorem agentStore_resv (h : Hw) (g : Agent) (a : Nat) (bs : List Byte) : SameButResv h (h.agentStore g a bs) := by
  unfold Hw.agentStore
  dsimp only
  refine SameButResv.trans ?_ (fold_resv (f := fun h n => (h.killResv n).performed g n)
    (fun h n => (killResv_resv h n).trans (performed_cores _ g n).resv) _ _)
  refine (h.merged_cores (cellsAt a bs)).resv.trans ((fold_resv (f := fun h n => h.own g n) (fun h n => own_resv h g n) (linesOf a bs.length) _).trans ?_)
  exact (pokeMem_resv _ _).trans (setOv_cores _ _ _).resv

theorem hubStore_resv (h : Hw) (a : Nat) (bs : List Byte) : SameButResv h (h.hubStore a bs) := by
  unfold Hw.hubStore Hw.hubCells
  dsimp only
  refine (h.merged_cores (cellsAt a bs)).resv.trans ((fold_resv (f := fun h n => h.claimWrite n) (fun h n => claimWrite_resv h n) (linesOf a bs.length) _).trans ?_)
  exact (pokeMem_resv _ _).trans (SameCores.resv ⟨rfl, rfl, rfl⟩)

theorem straight_resv (h : Hw) (a : Nat) (bs : List Byte) : SameButResv h (h.straight a bs) := by
  unfold Hw.straight Hw.straightCells
  refine SameButResv.trans (SameCores.resv ?_) (pokeMem_resv _ _)
  split
  · exact eccFold_rel SameCores.refl SameCores.trans Hw.eccNarrow_cores _ _
  · exact h.mergedMem_cores _

/-- A store changes no core but its reservation. -/
theorem coreMemStore_resv (h : Hw) (c : CoreId) (a : Nat) (bs : List Byte) : SameButResv h (h.coreMemStore c a bs) := by
  unfold Hw.coreMemStore
  split
  · split
    · exact agentStore_resv h _ a bs
    · exact hubStore_resv h a bs
  · exact straight_resv h a bs

end Sys2Proof.Machine
end

