-- ==== Sys2Proof/Laws/Commit.lean ====
section
/-! SUPPORT. What registers nothing has written read as, window by window, and from it the commit checks that range over a whole
register array (R428): they pass by one argument, with no register read one by one. -/

namespace Sys2Proof.Machine

/-- A key in a window in which a table lists nothing reads as the default. -/
theorem mget_of_window {α : Type} {d : Nat → α} {b k : Nat} {m : SMap α} (hk : k / 0x10000 = b)
    (h : m.all (fun e => e.1 / 0x10000 != b) = true) : mget d m k = d k := by
  induction m with
  | nil => rfl
  | cons e t ih =>
    simp only [List.all_cons, Bool.and_eq_true, bne_iff_ne] at h
    simp only [mget, ih h.2, ite_eq_right_iff]
    rintro rfl
    exact absurd hk h.1

/-- The row found for an address is one of its window's rows that hits it. -/
theorem rowOf_hits {a : Nat} {r : RegRow} {l : Bool} (h : rowOf a = some (r, l)) :
    r ∈ (blockOf a).2 ∧ r.hits (a - (blockOf a).1) (if l then r.live else 0) = true := by
  unfold rowOf at h
  dsimp only at h
  split at h
  · next hf =>
    cases h
    exact ⟨List.mem_of_find?_eq_some hf, by simpa using List.find?_some hf⟩
  · split at h
    · next hf =>
      cases h
      have := List.find?_some hf
      simp only [Bool.and_eq_true] at this
      exact ⟨List.mem_of_find?_eq_some hf, by simpa using this.2⟩
    · cases h

/-- An address that a row hits lies in the row's span. -/
theorem RegRow.hits_span {r : RegRow} {d delta : Nat} (h : r.hits d delta = true) :
    r.ofs + delta ≤ d ∧ (0 < r.s1 → d < r.ofs + delta + r.n1 * r.s1) := by
  simp only [RegRow.hits, Bool.and_eq_true, decide_eq_true_eq] at h
  refine ⟨h.1.1.1, fun hs => ?_⟩
  have := (Nat.div_lt_iff_lt_mul hs).1 h.1.1.2
  omega

/-- A register resets to 0 where each of its window's rows that reaches it does, LS15's and the LCS's fixed words aside. -/
theorem resetWord_zero {a : Nat} (h1 : a / 0x10000 ≠ 0x2003) (h2 : a / 0x10000 ≠ 0x2007)
    (h : ∀ r ∈ (blockOf a).2, r.reset = 0 ∨ ∀ l : Bool, r.hits (a - (blockOf a).1) (if l then r.live else 0) = false) :
    resetWord a = 0 := by
  have e : ∀ b, b / 0x10000 = 0x2003 ∨ b / 0x10000 = 0x2007 → a ≠ b := by rintro b hb rfl; omega
  unfold resetWord
  rw [if_neg (e _ (by decide)), if_neg (e _ (by decide)), if_neg (e _ (by decide)), if_neg (e _ (by decide)), if_neg (e _ (by decide))]
  split
  · next r hr =>
    have := rowOf_hits hr
    obtain h0 | h0 := h r this.1
    · simp [h0]
    · have h0 := h0 false
      simp_all
  · next r hr =>
    have := rowOf_hits hr
    obtain h0 | h0 := h r this.1
    · simp [h0]
    · have h0 := h0 true
      simp_all
  · rfl

/-- Every register of TEN resets to 0. -/
theorem resetWord_ten {a : Nat} (h : a / 0x10000 = 0x2005) : resetWord a = 0 := by
  have hb : blockOf a = (0x20050000, rowsTEN0) := by simp [blockOf, h]
  refine resetWord_zero (by omega) (by omega) fun r hr => .inl ?_
  rw [hb] at hr
  exact (by decide : ∀ r ∈ rowsTEN0, r.reset = 0) r hr

/-- Every quota counter resets to 0. -/
theorem resetWord_used {t p : Nat} (ht : t < 128) (hp : p < 16) : resetWord (PE_Q_USED t p) = 0 := by
  have hd : PE_Q_USED t p / 0x10000 = 0x200a := by simp only [PE_Q_USED]; omega
  have hb : blockOf (PE_Q_USED t p) = (0x200a0000, rowsPE0 ++ rowsPE1) := by simp [blockOf, hd]
  refine resetWord_zero (by omega) (by omega) fun r hr => ?_
  rw [hb] at hr
  refine ((by decide : ∀ r ∈ rowsPE0 ++ rowsPE1, r.reset = 0 ∨ (0 < r.s1 ∧ r.ofs + r.live + r.n1 * r.s1 ≤ 0x6000)) r hr).imp_right fun hs l => ?_
  rw [hb, Bool.eq_false_iff]
  intro hh
  have := (RegRow.hits_span hh).2 hs.1
  cases l <;> simp only [PE_Q_USED] at this <;> simp at this <;> omega

/-- Every field of a word that is 0 is 0. -/
theorem Fld.of_zero (f : Fld) : f.of 0 = 0 := by simp [Fld.of]

/-- A commit whose captured words hold nothing of TEN has every region's LIMIT at or above its BASE. -/
theorem ten_in_order {h : Hw} {m : SMap (BitVec 32)} (hc : h.cmt.captured = some m)
    (hm : m.all (fun e => e.1 / 0x10000 != 0x2005) = true) (i : Nat) (hi : i < 1024) :
    ¬ h.cap (TEN_RGN_LIMIT.ADDR (i / 8) (i % 8)) < h.cap (TEN_RGN_BASE.ADDR (i / 8) (i % 8)) := by
  have ha : (TEN_RGN_BASE.ADDR (i / 8) (i % 8)).adr / 0x10000 = 0x2005 := by simp only [TEN_RGN_BASE.ADDR, TEN_RGN_BASE]; omega
  have : h.cap (TEN_RGN_BASE.ADDR (i / 8) (i % 8)) = 0 := by
    unfold Hw.cap Hw.capturedAt
    rw [hc]
    exact (congrArg _ ((mget_of_window ha hm).trans (resetWord_ten ha))).trans (Fld.of_zero _)
  omega

/-- Such a commit passes the checks of TEN where every queue's lane memory is in order (R428). -/
theorem ten_passes {h : Hw} {m : SMap (BitVec 32)} (hc : h.cmt.captured = some m) (hm : m.all (fun e => e.1 / 0x10000 != 0x2005) = true)
    (hq : ∀ q, q < 16 → ¬ h.cap (LAC_Q_LMEM.LIMIT q) < h.cap (LAC_Q_LMEM.BASE q)) : h.cmtCheck 1 = none := by
  have h1 : h.tenCheck = none := by
    unfold Hw.tenCheck
    rw [List.find?_eq_none.2 fun k hk => ?_]
    · simpa using hq
    · simp only [ten_in_order hc hm k (List.mem_range.1 hk), decide_false, Bool.false_eq_true, not_false_iff]
  unfold Hw.cmtCheck
  simp only [h1]

/-- With every pool off before and after, no spillway, no quota counter captured and HIGH at or above LOW, the checks of POOL pass
(R242, R428). -/
theorem pools_pass {h : Hw} {m : SMap (BitVec 32)} (hc : h.cmt.captured = some m) (hm : m.all (fun e => e.1 / 0x10000 != 0x200a) = true)
    (he : ∀ p, p < 16 → h.on (PE_POOL_CFG.EN_L p) = false ∧ h.cap (PE_POOL_CFG.EN p) = 0 ∧ h.cap (PE_POOL_CFG.SPILL_EN p) = 0 ∧
      h.cap (PE_POOL_LOW.W p) ≤ h.cap (PE_POOL_HIGH.W p)) :
    h.cmtCheck 2 = none := by
  have hu : ∀ k, k < 2048 → h.cap (PE_Q_USED.COUNT (k % 128) (k / 128)) = 0 := by
    intro k hk
    have ha : PE_Q_USED (k % 128) (k / 128) / 0x10000 = 0x200a := by simp only [PE_Q_USED]; omega
    have hr : resetWord (PE_Q_USED (k % 128) (k / 128)) = 0 := resetWord_used (by omega) (by omega)
    unfold Hw.cap Hw.capturedAt
    rw [hc]
    exact (congrArg _ ((mget_of_window ha hm).trans hr)).trans (Fld.of_zero _)
  have h1 : h.poolCheck = none := by
    unfold Hw.poolCheck
    dsimp only
    rw [List.find?_eq_none.2, List.find?_eq_none.2, List.find?_eq_none.2, List.find?_eq_none.2, List.find?_eq_none.2]
    · simpa using fun p hp => (he p hp).2.2.2
    · intro k hk
      simp only [hu k (List.mem_range.1 hk), Nat.not_lt_zero, decide_false, Bool.false_eq_true, not_false_iff]
    all_goals
      intro p hp
      simp [Hw.spillHops, he p (List.mem_range.1 hp)]
  unfold Hw.cmtCheck
  simp only [h1]

end Sys2Proof.Machine
end

