-- ==== Sys2Proof/Laws/Fields.lean ====
section
/-! SUPPORT. Reading fields after several fields have been written. -/

namespace Sys2Proof.Machine

@[simp] theorem Hw.reads_nil (t : Hw) : t.reads [] := by intro p hp; cases hp

@[simp] theorem Hw.reads_cons (t : Hw) (p : Fld × Nat) (l : List (Fld × Nat)) : t.reads (p :: l) ↔ t.get p.1 = p.2 ∧ t.reads l := by
  simp [Hw.reads]

/-- A part with the same registers reads the same. -/
theorem Hw.get_of_regs {h t : Hw} (e : t.regs = h.regs) (f : Fld) : t.get f = h.get f := by
  unfold Hw.get Hw.rd; rw [e]

theorem Hw.rd_of_regs {h t : Hw} (e : t.regs = h.regs) (a : Nat) : t.rd a = h.rd a := by
  unfold Hw.rd; rw [e]

/-- A write of a register leaves the fields of the others alone. -/
theorem Hw.get_wr_other (h : Hw) {a : Nat} (v : BitVec 32) (f : Fld) (ha : f.adr ≠ a) : (h.wr a v).get f = h.get f := by
  unfold Hw.get; rw [Hw.rd_wr_other h v ha]

theorem Hw.get_wr_self (h : Hw) (v : BitVec 32) (f : Fld) : (h.wr f.adr v).get f = f.of v := by
  unfold Hw.get; rw [Hw.rd_wr_self]

theorem b2n_lt (b : Bool) : b2n b < 2 := by cases b <;> decide

@[simp] theorem b2n_mod (b : Bool) : b2n b % 2 = b2n b := by cases b <;> rfl

@[simp] theorem b2n_mod1 (b : Bool) : b2n b % 2 ^ 1 = b2n b := by cases b <;> rfl

/-- Two fields that share no bit. -/
def Fld.apart (f g : Fld) : Bool := f.adr != g.adr || decide (g.lo + g.wid ≤ f.lo) || decide (f.lo + f.wid ≤ g.lo)

theorem Hw.get_set_of_apart (h : Hw) (f g : Fld) (v : Nat) (hfg : f.apart g = true) : (h.set f v).get g = h.get g := by
  refine Hw.get_set_apart h f g v ?_
  unfold Fld.apart at hfg
  simp at hfg
  omega

/-- A field that none of the writes touches. -/
theorem Hw.get_sets_apart (g : Fld) : ∀ (l : List (Fld × Nat)) (h : Hw), (∀ p ∈ l, p.1.apart g = true) → (h.sets l).get g = h.get g := by
  intro l
  induction l with
  | nil => exact fun h _ => rfl
  | cons p l ih =>
    intro h hp
    rw [Hw.sets_cons, ih _ (fun q hq => hp q (List.mem_cons_of_mem _ hq)), Hw.get_set_of_apart _ _ _ _ (hp p (List.mem_cons_self ..))]

/-- Writes of fields change only their registers. -/
theorem Hw.rd_sets_other (a : Nat) : ∀ (l : List (Fld × Nat)) (h : Hw), (∀ p ∈ l, p.1.adr ≠ a) → (h.sets l).rd a = h.rd a := by
  intro l
  induction l with
  | nil => exact fun h _ => rfl
  | cons p l ih =>
    intro h hp
    rw [Hw.sets_cons, ih _ (fun q hq => hp q (List.mem_cons_of_mem _ hq)), Hw.rd_set_other _ _ _ _ (Ne.symm (hp p (List.mem_cons_self ..)))]

/-- Everything but the registers is left alone by writes of fields. -/
theorem Hw.sets_only (l : List (Fld × Nat)) (h : Hw) : h.sets l = { h with regs := (h.sets l).regs } := by
  induction l generalizing h with
  | nil => rfl
  | cons p l ih =>
    rw [Hw.sets_cons, ih]
    rfl

end Sys2Proof.Machine
end

