-- ==== Sys2Proof/Laws/Lane.lean ====
section
/-! SUPPORT. What one lane instruction does: how a body's answer becomes the group's next state, and the lane registers and predicates
after a write. -/

namespace Sys2Proof.Machine

theorem lane_ready {s : State} {g : Nat} {body : Hw → Hw × LDone} {k : Hw} (hr : s.hw.LaneReady g) (hb : body s.hw = (k, .next)) (hs : (k.grp g).stepping = false) :
    s.run (fun h => h.lane g body) = .next { s with hw := (k.laneAt g ((s.hw.grp g).pc + 8)).canon } := by
  obtain ⟨h1, h2, h3, h4⟩ := hr
  have e : s.hw.lane g body = k.laneAt g ((s.hw.grp g).pc + 8) := by
    unfold Hw.lane
    rw [if_pos h1]
    dsimp only
    rw [if_neg (by omega), if_neg (by rw [h3]; decide), hb]
    show k.laneGo g _ = _
    unfold Hw.laneGo Hw.laneAt
    dsimp only
    rw [if_neg (by rw [hs]; decide)]
    congr 1
    generalize k.grp g = x at hs
    cases x
    dsimp only at hs
    subst hs
    simp
  show Host.Outcome.next { s with hw := (s.hw.lane g body).canon } = _
  rw [e]

theorem setL_laneG (h : Hw) (g i r : Nat) (v : Word) : (h.setLreg g i r v).laneG = h.laneG := rfl

theorem foldL_laneG (g r : Nat) (v : Nat → Word) : ∀ (l : List Nat) (h : Hw), (l.foldl (fun k i => k.setLreg g i r (v i)) h).laneG = h.laneG ∧
    (l.foldl (fun k i => k.setLreg g i r (v i)) h).regs = h.regs := by
  intro l
  induction l with
  | nil => exact fun h => ⟨rfl, rfl⟩
  | cons x t ih => exact fun h => ih _

theorem foldK_laneG (g r : Nat) (v : Nat → Bool) : ∀ (l : List Nat) (h : Hw), (l.foldl (fun k i => k.setKreg g r i (v i)) h).laneG = h.laneG ∧
    (l.foldl (fun k i => k.setKreg g r i (v i)) h).regs = h.regs := by
  intro l
  induction l with
  | nil => exact fun h => ⟨rfl, rfl⟩
  | cons x t ih => exact fun h => ih _

theorem grp_of {h k : Hw} (e : k.laneG = h.laneG) (g : Nat) : k.grp g = h.grp g := by unfold Hw.grp; rw [e]

theorem take_none {h : Hw} {g : Nat} (hd : LaneHdr) (e : (h.grp g).act = 0) : h.taking g hd = [] := by
  unfold Hw.taking
  rw [e]
  simp [bitOf]

theorem op_next {s : State} {g : Nat} {body : Hw → Hw × LDone} {k : Hw} (hr : s.hw.LaneReady g) (hb : body s.hw = (k, .next))
    (h0 : (s.hw.grp g).act = 0 → k = s.hw) (hs : (k.grp g).stepping = false) :
    s.laneOp g true body = .next { s with hw := (k.laneAt g ((s.hw.grp g).pc + 8)).canon } := by
  refine lane_ready hr ?_ hs
  show (if (!true) = true then _ else if (s.hw.grp g).act = 0 then _ else _) = _
  rw [if_neg (by decide)]
  split
  · rename_i e
    rw [h0 e]
  · exact hb

theorem write_next {s : State} {g : Nat} (hd : LaneHdr) (f : Hw → Nat → Word) (hr : s.hw.LaneReady g) :
    s.laneWrite g hd true f = .next { s with hw := ((s.hw.lanesPut g hd (f s.hw)).laneAt g ((s.hw.grp g).pc + 8)).canon } := by
  refine op_next hr rfl (fun e => ?_) ?_
  · unfold Hw.lanesPut; rw [take_none hd e]; rfl
  · unfold Hw.lanesPut; rw [grp_of (foldL_laneG g hd.ld (f s.hw) _ s.hw).1]; exact hr.2.2.2

theorem flag_next {s : State} {g : Nat} (hd : LaneHdr) (kd : Nat) (f : Hw → Nat → Bool) (hr : s.hw.LaneReady g) :
    s.lanePred g hd kd true f = .next { s with hw := ((s.hw.lanesFlag g hd kd (f s.hw)).laneAt g ((s.hw.grp g).pc + 8)).canon } := by
  refine op_next hr rfl (fun e => ?_) ?_
  · unfold Hw.lanesFlag; rw [take_none hd e]; rfl
  · unfold Hw.lanesFlag; rw [grp_of (foldK_laneG g kd (f s.hw) _ s.hw).1]; exact hr.2.2.2

theorem arith_next {s : State} {g : Nat} (hd : LaneHdr) {op t kd la : Nat} {f : Word → Word → Word → Bool → Word} {b c : Hw → Nat → Word} {v : Nat → Word}
    (hf : laneFn op t = some (.word f)) (hr : s.hw.LaneReady g)
    (hv : ∀ i, f (s.hw.lreg g i la) (b s.hw i) (c s.hw i) (bitOf (s.hw.kreg g kd) i) = v i) :
    s.laneArith g hd op t kd la true b c = .next { s with hw := ((s.hw.lanesPut g hd v).laneAt g ((s.hw.grp g).pc + 8)).canon } := by
  unfold State.laneArith
  rw [hf]
  dsimp only
  rw [write_next hd _ hr]
  rw [show (fun i => f (s.hw.lreg g i la) (b s.hw i) (c s.hw i) (bitOf (s.hw.kreg g kd) i)) = v from funext hv]

theorem tget_tput {α : Type} [DecidableEq α] (d : α) (m : SMap α) (k j : Nat) (v : α) : tget d (tput d m k v) j = if j = k then v else tget d m j := by
  unfold tget tput
  exact mget_mput _ _ _ _

theorem lreg_set (h : Hw) {g i j r q w : Nat} (v : Word) (hi : i < w) (hj : j < w) (hr : r < 64) (hq : q < 64) :
    (h.setLreg g i r v).lreg g j q = if q = r ∧ j = i then v else h.lreg g j q := by
  unfold Hw.lreg Hw.setLreg
  show tget 0 (tput 0 h.laneL (h.laneNo g i * 64 + r) v) (h.laneNo g j * 64 + q) = _
  rw [tget_tput]
  unfold Hw.laneNo
  by_cases e : q = r ∧ j = i
  · obtain ⟨rfl, rfl⟩ := e
    rw [if_pos rfl, if_pos ⟨rfl, rfl⟩]
  · rw [if_neg e, if_neg (fun k => e (by omega))]

theorem lanes_put (g r w : Nat) (v : Nat → Word) (hr : r < 64) : ∀ (l : List Nat) (h : Hw), (∀ i ∈ l, i < w) → ∀ j q, j < w → q < 64 →
    (l.foldl (fun k i => k.setLreg g i r (v i)) h).lreg g j q = if q = r ∧ j ∈ l then v j else h.lreg g j q := by
  intro l
  induction l with
  | nil => intro h _ j q _ _; simp
  | cons x t ih =>
    intro h hl j q hj hq
    show (t.foldl (fun k i => k.setLreg g i r (v i)) (h.setLreg g x r (v x))).lreg g j q = _
    rw [ih _ (fun i hi => hl i (List.mem_cons_of_mem _ hi)) j q hj hq, lreg_set h _ (hl x List.mem_cons_self) hj hr hq]
    by_cases h1 : q = r <;> by_cases h2 : j ∈ t <;> by_cases h3 : j = x <;> simp [h1, h2, h3]

theorem taking_lt (h : Hw) (g : Nat) (hd : LaneHdr) : ∀ i ∈ h.taking g hd, i < h.gwidth g := by
  intro i hi
  unfold Hw.taking at hi
  exact List.mem_range.1 (List.mem_filter.1 hi).1

theorem slt_toInt (a b : Word) : (a.slt b = true) = (a.toInt < b.toInt) := by
  unfold BitVec.slt; simp

theorem bit_setBit (n i j : Nat) (b : Bool) : bitOf (setBit n i b) j = if j = i then b else bitOf n j := by
  unfold bitOf setBit
  cases b
  · rw [if_neg (by decide), Nat.and_two_pow]
    cases hb : n.testBit i
    · by_cases e : j = i
      · subst e; simp [hb]
      · simp [e]
    · have hodd : n / 2 ^ i % 2 = 1 := by
        rw [Nat.testBit_eq_decide_div_mod_eq] at hb
        simpa using hb
      obtain ⟨q, hq⟩ : ∃ q, n / 2 ^ i = 2 * q + 1 := ⟨n / 2 ^ i / 2, by omega⟩
      have hn : n = 2 ^ i * (2 * q + 1) + n % 2 ^ i := by rw [← hq]; exact (Nat.div_add_mod n (2 ^ i)).symm
      have hr : n % 2 ^ i < 2 ^ i := Nat.mod_lt _ (Nat.two_pow_pos i)
      have hs : n - true.toNat * 2 ^ i = 2 ^ i * (2 * q) + n % 2 ^ i := by
        have : 2 ^ i * (2 * q + 1) = 2 ^ i * (2 * q) + 2 ^ i := Nat.mul_succ _ _
        simp only [Bool.toNat_true, Nat.one_mul]
        omega
      rw [hs, Nat.testBit_two_pow_mul_add _ hr]
      by_cases e : j = i
      · subst e; simp
      · rw [if_neg e]
        conv_rhs => rw [hn, Nat.testBit_two_pow_mul_add _ hr]
        by_cases h : j < i
        · simp [h]
        · obtain ⟨k, hk⟩ : ∃ k, j - i = k + 1 := ⟨j - i - 1, by omega⟩
          simp only [h, if_false, hk, Nat.testBit_succ]
          congr 1; omega
  · rw [if_pos rfl, Nat.testBit_or, Nat.testBit_two_pow]
    by_cases e : j = i
    · subst e; simp
    · simp [e, Ne.symm e]

theorem kreg_bit {h : Hw} {g r j : Nat} (hj : j < h.gwidth g) : bitOf (h.kreg g r) j = bitOf (tget 0 h.laneK (8 * (g / 4) + r)) (h.lane0 g + j) := by
  unfold Hw.kreg bitOf
  rw [Nat.testBit_mod_two_pow, decide_eq_true hj, Bool.true_and, Nat.testBit_div_two_pow]
  exact congrArg _ (Nat.add_comm _ _)

theorem setK_bit (h : Hw) {g i j r q : Nat} (b : Bool) (hj : j < h.gwidth g) (hr : r < 8) (hq : q < 8) :
    bitOf ((h.setKreg g r i b).kreg g q) j = if q = r ∧ j = i then b else bitOf (h.kreg g q) j := by
  rw [kreg_bit (h := h.setKreg g r i b) hj, kreg_bit hj]
  show bitOf (tget 0 (tput 0 h.laneK (8 * (g / 4) + r) (setBit (tget 0 h.laneK (8 * (g / 4) + r)) (h.lane0 g + i) b)) (8 * (g / 4) + q)) (h.lane0 g + j) = _
  rw [tget_tput]
  by_cases e : q = r
  · subst e
    rw [if_pos rfl, bit_setBit]
    by_cases e2 : j = i
    · subst e2; simp
    · rw [if_neg (by omega), if_neg (fun k => e2 k.2)]
  · rw [if_neg (by omega), if_neg (fun k => e k.1)]

theorem lanes_flag (g r : Nat) (v : Nat → Bool) (hr : r < 8) : ∀ (l : List Nat) (h : Hw), ∀ j q, j < h.gwidth g → q < 8 →
    bitOf ((l.foldl (fun k i => k.setKreg g r i (v i)) h).kreg g q) j = if q = r ∧ j ∈ l then v j else bitOf (h.kreg g q) j := by
  intro l
  induction l with
  | nil => intro h j q _ _; simp
  | cons x t ih =>
    intro h j q hj hq
    show bitOf ((t.foldl (fun k i => k.setKreg g r i (v i)) (h.setKreg g r x (v x))).kreg g q) j = _
    rw [ih (h.setKreg g r x (v x)) j q hj hq, setK_bit h _ hj hr hq]
    by_cases h1 : q = r <;> by_cases h2 : j ∈ t <;> by_cases h3 : j = x <;> simp [h1, h2, h3]

theorem pred_next {s : State} {g : Nat} (hd : LaneHdr) {op t kd la : Nat} {f : Word → Word → Bool} {b c : Hw → Nat → Word} {v : Nat → Bool}
    (hf : laneFn op t = some (.pred f)) (h0 : hd.ld = 0) (hr : s.hw.LaneReady g) (hv : ∀ i, f (s.hw.lreg g i la) (b s.hw i) = v i) :
    s.laneArith g hd op t kd la true b c = .next { s with hw := ((s.hw.lanesFlag g hd kd v).laneAt g ((s.hw.grp g).pc + 8)).canon } := by
  unfold State.laneArith
  rw [hf, h0]
  show s.lanePred g hd kd true _ = _
  rw [flag_next hd _ _ hr]
  rw [show (fun i => f (s.hw.lreg g i la) (b s.hw i)) = v from funext hv]

theorem icmp_list (t : Nat) (ht : t < 8) (a b : Word) : icmp t a b = [a == b, a != b, decide (a.toInt < b.toInt), decide (a.toInt ≤ b.toInt), decide (b.toInt < a.toInt),
      decide (b.toInt ≤ a.toInt), decide (a.toNat < b.toNat), decide (b.toNat ≤ a.toNat)].getD t false := by
  have e1 : a.slt b = decide (a.toInt < b.toInt) := rfl
  have e2 : b.slt a = decide (b.toInt < a.toInt) := rfl
  have e3 : (!b.slt a) = decide (a.toInt ≤ b.toInt) := by rw [e2, ← decide_not]; simp only [not_lt]
  have e4 : (!a.slt b) = decide (b.toInt ≤ a.toInt) := by rw [e1, ← decide_not]; simp only [not_lt]
  have e5 : a.ult b = decide (a.toNat < b.toNat) := rfl
  have e6 : (!a.ult b) = decide (b.toNat ≤ a.toNat) := by rw [e5, ← decide_not]; simp only [not_lt]
  rcases t with _ | _ | _ | _ | _ | _ | _ | _ | t
  · rfl
  · rfl
  · rfl
  · exact e3
  · rfl
  · exact e4
  · rfl
  · exact e6
  · omega

theorem fcmp_list (t : Nat) (ht : t < 6) (a b : Word) : fcmpT t a b = (let o := fCmp (lf a) (lf b)
      [o == some .eq, o != some .eq, o == some .lt, o == some .lt || o == some .eq, o == some .gt, o == some .gt || o == some .eq].getD t false) := by
  unfold fcmpT
  dsimp only
  generalize fCmp (lf a) (lf b) = o
  rcases t with _ | _ | _ | _ | _ | _ | t
  all_goals first | omega | (cases o with
    | none => rfl
    | some o => cases o <;> rfl)

theorem grp_setGrp (h : Hw) (g : Nat) (x : LaneGrp) : (h.setGrp g x).grp g = x := by
  unfold Hw.grp Hw.setGrp
  rw [tget_tput, if_pos rfl]

theorem corrected_laneG (h : Hw) (w : Nat) : (h.corrected w).laneG = h.laneG := by
  unfold Hw.corrected
  dsimp only
  split <;> rfl

theorem uncorrected_laneG (h : Hw) (w : Nat) : (h.uncorrected w).laneG = h.laneG := by
  unfold Hw.uncorrected
  dsimp only
  split
  · show (if _ then h else _).laneG = _
    split <;> rfl
  · show (if _ then h else _).laneG = _
    split <;> rfl
  · show (if _ then h else _).laneG = _
    split <;> rfl
  · rfl

theorem memWord_laneG (h : Hw) (w : Nat) : (h.memWord w).1.laneG = h.laneG := by
  unfold Hw.memWord
  split
  · rfl
  · exact corrected_laneG h w
  · exact uncorrected_laneG h w

theorem eccWord_laneG (h : Hw) (w : Nat) : (h.eccWord w).1.laneG = h.laneG := by
  unfold Hw.eccWord
  split
  · rfl
  · split
    · rfl
    · split
      · unfold Hw.l2Word
        split
        · rfl
        · show (if _ then h else _).laneG = _
          split <;> rfl
        · rfl
      · split
        · rfl
        · exact memWord_laneG h w

theorem eccNarrow_laneG (h : Hw) (k : Nat) : (h.eccNarrow k).1.laneG = h.laneG := by
  unfold Hw.eccNarrow
  split <;> rfl

theorem eccFold_laneG {f : Hw → Nat → Hw × EccRes} (hf : ∀ h w, (f h w).1.laneG = h.laneG) (l : List Nat) (h : Hw) : (eccFold f h l).1.laneG = h.laneG :=
  eccFold_rel (P := fun h t => t.laneG = h.laneG) (fun _ => rfl) (fun x y => y.trans x) hf h l

theorem ecc_laneG (h : Hw) (a n : Nat) : (h.eccRead a n).1.laneG = h.laneG := by
  unfold Hw.eccRead
  split
  · exact eccFold_laneG eccNarrow_laneG _ h
  · exact eccFold_laneG eccWord_laneG _ h

theorem metTransit_laneG (h : Hw) (n : Nat) : (h.metTransit n).laneG = h.laneG := by
  unfold Hw.metTransit
  split <;> rfl

theorem recall_laneG (h : Hw) (n : Nat) : (h.recallAll n).laneG = h.laneG := rfl

theorem setDir_laneG (h : Hw) (n : Nat) (e : DirEnt) : (h.setDir n e).laneG = h.laneG := rfl

theorem killResv_laneG (h : Hw) (n : Nat) : (h.killResv n).laneG = h.laneG := rfl

theorem claim_laneG (h : Hw) (n : Nat) : (h.claimWrite n).laneG = h.laneG := by
  unfold Hw.claimWrite
  rw [killResv_laneG, setDir_laneG, recall_laneG, metTransit_laneG]

theorem recallOwner_laneG (h : Hw) (n : Nat) : (h.recallOwner n).laneG = h.laneG := by
  have ls : ∀ (l : List Agent) (k : Hw), (l.foldl (fun h a => h.loseResv a n) k).laneG = k.laneG := by
    intro l
    induction l with
    | nil => exact fun _ => rfl
    | cons a t ih => exact fun k => (ih _).trans (by cases a <;> rfl)
  unfold Hw.recallOwner
  dsimp only
  split
  · exact (ls _ _).trans (recall_laneG h n)
  · rfl

theorem claims_laneG (l : List Nat) (k : Hw) : (l.foldl (fun h n => h.claimWrite n) k).laneG = k.laneG := by
  induction l generalizing k with
  | nil => rfl
  | cons x t ih => exact (ih _).trans (claim_laneG k x)

theorem hubCells_laneG (h : Hw) (ls : List Nat) (cs : List Host.Cell) : (h.hubCells ls cs).laneG = h.laneG := by
  unfold Hw.hubCells
  dsimp only
  exact (claims_laneG ls _).trans (eccFold_laneG eccWord_laneG _ h)

theorem straightCells_laneG (h : Hw) (p : Bool) (cs : List Host.Cell) : (h.straightCells p cs).laneG = h.laneG := by
  unfold Hw.straightCells
  show (if p then _ else _ : Hw).laneG = _
  split
  · exact eccFold_laneG eccNarrow_laneG _ h
  · exact eccFold_laneG memWord_laneG _ h

theorem writeMem_laneG (h : Hw) (a : Nat) (bs : List Byte) : (h.writeMem a bs).laneG = h.laneG := by
  unfold Hw.writeMem
  split
  · rfl
  · split
    · exact hubCells_laneG h _ _
    · exact straightCells_laneG h _ _

/-- A writeback of the L1 leaves the group's debugger marks. -/
theorem clean_step (h : Hw) (g l : Nat) : ((h.l1Clean g l).grp g).stepping = (h.grp g).stepping := by
  unfold Hw.l1Clean
  dsimp only
  rw [grp_setGrp]

theorem flush_keeps (h : Hw) (g : Nat) : ((h.l1Flush g).grp g).stepping = (h.grp g).stepping := by
  unfold Hw.l1Flush
  generalize ((h.grp g).dirty.map (fun e => lineOf e.1)).dedup = l
  induction l generalizing h with
  | nil => rfl
  | cons x t ih => exact (ih _).trans (clean_step h g x)

theorem flush_step {h : Hw} {g : Nat} (hs : (h.grp g).stepping = false) : ((h.l1Flush g).grp g).stepping = false := (flush_keeps h g).trans hs

/-- SVAL over one state. -/
theorem sval_next {s : State} {g : Fin 16} (hr : s.hw.LaneReady g) (hd : LaneHdr) (imm : Word) (h1 : imm.toNat < 16) {k : Hw}
    (hk : (let p := s.hw.taking g hd
      let h' := p.foldl (fun h' i => h'.setLreg g i hd.ld (s.hw.laneSpecial g i imm.toNat)) s.hw
      let h' := if imm = 5 && p != [] then h'.drawn else h'
      (if imm = 6 && p != [] then h'.setGrp g { h'.grp g with snap := some s.hw.clk.tb.toNat } else h')) = k) (hs : (k.grp g).stepping = false) :
    exec (.laneSval g hd imm) s = .next { s with hw := (k.laneAt g ((s.hw.grp g).pc + 8)).canon } := by
  have := op_next (s := s) (g := g) (body := fun h =>
    let p := h.taking g hd
    let h' := p.foldl (fun h' i => h'.setLreg g i hd.ld (h.laneSpecial g i imm.toNat)) h
    let h' := if imm = 5 && p != [] then h'.drawn else h'
    ((if imm = 6 && p != [] then h'.setGrp g { h'.grp g with snap := some h.clk.tb.toNat } else h'), .next)) (k := k) hr (by rw [← hk])
    (fun e => by
      rw [← hk]
      dsimp only
      rw [take_none hd e]
      simp) hs
  refine Eq.trans ?_ this
  show s.laneOp g (decide (imm.toNat < 16)) _ = _
  rw [decide_eq_true h1]

theorem lane_goto {s : State} {g : Nat} {body : Hw → Hw × LDone} {k : Hw} {pc : Nat} (hr : s.hw.LaneReady g) (hb : body s.hw = (k, .goto pc)) (hs : (k.grp g).stepping = false) :
    s.run (fun h => h.lane g body) = .next { s with hw := (k.laneAt g pc).canon } := by
  obtain ⟨h1, h2, h3, h4⟩ := hr
  have e : s.hw.lane g body = k.laneAt g pc := by
    unfold Hw.lane
    rw [if_pos h1]
    dsimp only
    rw [if_neg (by omega), if_neg (by rw [h3]; decide), hb]
    show k.laneGo g _ = _
    unfold Hw.laneGo Hw.laneAt
    dsimp only
    rw [if_neg (by rw [hs]; decide)]
    congr 1
    generalize k.grp g = x at hs
    cases x
    dsimp only at hs
    subst hs
    simp
  show Host.Outcome.next { s with hw := (s.hw.lane g body).canon } = _
  rw [e]

theorem lane_fault {s : State} {g : Nat} {body : Hw → Hw × LDone} {k : Hw} {c m a : Nat} (hr : s.hw.LaneReady g) (hb : body s.hw = (k, .fault c m a)) :
    s.run (fun h => h.lane g body) = .next { s with hw := (k.laneFault g c m a).canon } := by
  obtain ⟨h1, h2, h3, h4⟩ := hr
  have e : s.hw.lane g body = k.laneFault g c m a := by
    unfold Hw.lane
    rw [if_pos h1]
    dsimp only
    rw [if_neg (by omega), if_neg (by rw [h3]; decide), hb]
  show Host.Outcome.next { s with hw := (s.hw.lane g body).canon } = _
  rw [e]

theorem readThrough_laneG (h : Hw) (n : Nat) : (h.readThrough n).laneG = h.laneG := by
  have e := (recall_laneG (h.metTransit n) n).trans (metTransit_laneG h n)
  unfold Hw.readThrough
  dsimp only
  split
  · exact (setDir_laneG _ n _).trans e
  · exact e

theorem readThroughs_laneG (l : List Nat) (h : Hw) : (l.foldl (fun h l => h.readThrough l) h).laneG = h.laneG := by
  induction l generalizing h with
  | nil => rfl
  | cons x t ih => exact (ih _).trans (readThrough_laneG h x)

theorem room_step (h : Hw) (g : Nat) : ((h.l1Room g).grp g).stepping = (h.grp g).stepping := by
  unfold Hw.l1Room
  dsimp only
  split
  · rfl
  · split
    · unfold Hw.l1Drop
      dsimp only
      rw [grp_setGrp]
      rfl
    · rfl

theorem fillWord_laneG (h : Hw) (view : List Host.Cell) (w : Nat) : (h.fillWord view w).1.laneG = h.laneG := by
  unfold Hw.fillWord
  dsimp only
  split <;> rfl

theorem fillLine_laneG (h : Hw) (view : List Host.Cell) (l : Nat) : (h.fillLine view l).1.laneG = h.laneG := by
  have key : ∀ (ws : List Nat) (p : Hw × List Byte × List Nat), (ws.foldl (fun (p : Hw × List Byte × List Nat) w =>
      let q := p.1.eccRead (w * 8) 8
      let r := q.1.fillWord view w
      (r.1, p.2.1 ++ r.2, if q.2 = .good then p.2.2 else p.2.2 ++ (List.range 8).map (· + w * 8))) p).1.laneG = p.1.laneG := by
    intro ws
    induction ws with
    | nil => exact fun _ => rfl
    | cons w t ih => exact fun p => (ih _).trans ((fillWord_laneG _ view w).trans (ecc_laneG _ _ _))
  unfold Hw.fillLine
  dsimp only
  refine (key _ _).trans ?_
  dsimp only
  split
  · exact readThrough_laneG h l
  · rfl

theorem l1Fill_step (h : Hw) (g a n : Nat) : ((h.l1Fill g a n).grp g).stepping = (h.grp g).stepping := by
  unfold Hw.l1Fill
  generalize linesOf a n = l
  induction l generalizing h with
  | nil => rfl
  | cons x t ih =>
    refine (ih _).trans ?_
    dsimp only
    split
    · rfl
    · rw [grp_setGrp]
      exact (congrArg LaneGrp.stepping (grp_of (fillLine_laneG _ _ x) g)).trans (room_step h g)

theorem laneRead_g (h : Hw) (g : Nat) (q : LPath) (a n : Nat) : ((h.laneRead g q a n).1.grp g).stepping = (h.grp g).stepping := by
  have other : ((((if (h.region a).cached then (linesOf a n).foldl (fun h l => h.readThrough l) h else h)).eccRead a n).1.grp g).stepping = (h.grp g).stepping := by
    rw [grp_of (ecc_laneG _ a n)]
    split
    · rw [grp_of (readThroughs_laneG _ h)]
    · rfl
  cases q with
  | l1 => exact l1Fill_step h g a n
  | lmem => exact other
  | hub => exact other

theorem laneStore_g (h : Hw) (g : Nat) (q : LPath) (a : Nat) (bs : List Byte) : ((h.laneStore g q a bs).grp g).stepping = (h.grp g).stepping := by
  cases q with
  | l1 =>
    show ((Hw.setGrp _ g _).grp g).stepping = _
    rw [grp_setGrp]
    exact l1Fill_step h g a bs.length
  | lmem => show ((h.writeMem a bs).grp g).stepping = _; rw [grp_of (writeMem_laneG h a bs)]
  | hub => show ((h.writeMem a bs).grp g).stepping = _; rw [grp_of (writeMem_laneG h a bs)]

theorem handleAddr_g (h : Hw) (t i o : Nat) (w : Word) : (h.handleAddr t i o w).1.laneG = h.laneG := by
  have sh : ∀ (h : Hw) g n, (h.share g n).laneG = h.laneG := by
    intro h g n
    unfold Hw.share
    dsimp only
    split
    · rfl
    · exact ((setDir_laneG _ n _).trans (recallOwner_laneG _ n)).trans (metTransit_laneG h n)
  have re : ∀ (h : Hw) p, (h.ringError p).laneG = h.laneG := fun h p => rfl
  have ck : (h.checkHandle t w none).1.laneG = h.laneG := by
    unfold Hw.checkHandle
    dsimp only
    have m : ∀ (h : Hw) p i, (h.metaOk p i).1.laneG = h.laneG := by
      intro h p i
      unfold Hw.metaOk
      dsimp only
      split
      · rfl
      · rw [ecc_laneG]
        split
        · exact sh _ _ _
        · rfl
    split
    · rfl
    · split
      · rfl
      · split
        · rfl
        · split
          · exact (re _ _).trans (m _ _ _)
          · split
            · exact m _ _ _
            · split
              · exact m _ _ _
              · split <;> exact m _ _ _
  have st : ∀ (l : List (Fld × Nat)) (h : Hw), (h.sets l).laneG = h.laneG := by
    intro l
    induction l with
    | nil => exact fun h => rfl
    | cons x t ih => exact fun h => (ih _).trans rfl
  have pf : ∀ (h : Hw) c, (h.poolFault c t i o w).laneG = h.laneG := by
    intro h c
    unfold Hw.poolFault
    split
    · exact Hw.set_laneG _ _ _
    · rw [Hw.wr_laneG]; exact st _ h
  unfold Hw.handleAddr
  dsimp only
  split
  · exact (pf _ _).trans ck
  · exact ck

theorem fold_keep {α β : Type} {f : α → β} {F : α → γ → α} (hF : ∀ a x, f (F a x) = f a) : ∀ (l : List γ) (a : α), f (l.foldl F a) = f a := by
  intro l
  induction l with
  | nil => exact fun a => rfl
  | cons x t ih => exact fun a => (ih _).trans (hF a x)

theorem putWords_g (g i : Nat) : ∀ (l : List Word) (ld : Nat) (h : Hw), (h.putWords g i ld l).laneG = h.laneG := by
  intro l
  induction l with
  | nil => exact fun _ _ => rfl
  | cons w t ih => exact fun ld h => ih _ _

theorem mem_fault {s : State} {g : Nat} {hd : LaneHdr} {la : Nat} {off : BitVec 24} {spc n : Nat} {rd wr atom : Bool} {body : Hw → List (Nat × LPath × Nat) → Hw × LDone} {k : Kernel}
    {c m a : Nat} {u : Upset} (hr : s.hw.LaneReady g) (ha : (s.hw.grp g).act ≠ 0) (hk : s.hw.kernOf g = some k)
    (hb : firstFault ((((s.hw.taking g hd).map (fun i => (i, s.hw.laneWhere k spc (s.hw.laneEa g i la off) n rd wr atom)))).map (fun e => (e.1, e.2.2.2, s.hw.laneEa g e.1 la off))) = some (c, m, a)) :
    s.laneMem g hd true la off spc n rd wr atom u body = .next { s with hw := ((if c = 9 then s.hw.laneViol k (((s.hw.taking g hd).map (fun i => (i, s.hw.laneWhere k spc (s.hw.laneEa g i la off) n rd wr atom))).map (fun e => (e.2.1, e.2.2.2, s.hw.laneEa g e.1 la off))) n rd wr else s.hw).laneFault g c m a).canon } := by
  refine lane_fault hr ?_
  show (if (!true) = true then _ else if (s.hw.grp g).act = 0 then _ else _) = _
  rw [if_neg (by decide), if_neg ha]
  beta_reduce
  rw [hk]
  dsimp only
  rw [hb]
  rfl

theorem mem_go {s : State} {g : Nat} {hd : LaneHdr} {la : Nat} {off : BitVec 24} {spc n : Nat} {rd wr atom : Bool} {body : Hw → List (Nat × LPath × Nat) → Hw × LDone} {k : Kernel}
    {t : Hw} (hr : s.hw.LaneReady g) (ha : (s.hw.grp g).act ≠ 0) (hk : s.hw.kernOf g = some k)
    (hb : firstFault ((((s.hw.taking g hd).map (fun i => (i, s.hw.laneWhere k spc (s.hw.laneEa g i la off) n rd wr atom)))).map (fun e => (e.1, e.2.2.2, s.hw.laneEa g e.1 la off))) = none)
    (hw : ((s.hw.taking g hd).map (fun i => (i, s.hw.laneWhere k spc (s.hw.laneEa g i la off) n rd wr atom))).any (fun e => s.hw.laneHeld g e.2.1 e.2.2.1 n) = false)
    (hbody : body s.hw ((((s.hw.taking g hd).map (fun i => (i, s.hw.laneWhere k spc (s.hw.laneEa g i la off) n rd wr atom)))).map (fun e => (e.1, e.2.1, e.2.2.1))) = (t, .next))
    (hs : (t.grp g).stepping = false) :
    s.laneMem g hd true la off spc n rd wr atom .none body = .next { s with hw := (t.laneAt g ((s.hw.grp g).pc + 8)).canon } := by
  refine lane_ready hr ?_ hs
  show (if (!true) = true then _ else if (s.hw.grp g).act = 0 then _ else _) = _
  rw [if_neg (by decide), if_neg ha]
  beta_reduce
  rw [hk]
  dsimp only
  rw [hb]
  dsimp only
  rw [if_neg (by rw [hw]; decide), ← hbody]
  generalize List.map _ _ = l
  cases l <;> rfl

theorem mem_bad {s : State} {g : Nat} {hd : LaneHdr} {la : Nat} {off : BitVec 24} {spc n : Nat} {rd wr atom : Bool} {body : Hw → List (Nat × LPath × Nat) → Hw × LDone} {k : Kernel}
    {t : Hw} {c m a : Nat} (hr : s.hw.LaneReady g) (ha : (s.hw.grp g).act ≠ 0) (hk : s.hw.kernOf g = some k)
    (hb : firstFault ((((s.hw.taking g hd).map (fun i => (i, s.hw.laneWhere k spc (s.hw.laneEa g i la off) n rd wr atom)))).map (fun e => (e.1, e.2.2.2, s.hw.laneEa g e.1 la off))) = none)
    (hw : ((s.hw.taking g hd).map (fun i => (i, s.hw.laneWhere k spc (s.hw.laneEa g i la off) n rd wr atom))).any (fun e => s.hw.laneHeld g e.2.1 e.2.2.1 n) = false)
    (hbody : body s.hw ((((s.hw.taking g hd).map (fun i => (i, s.hw.laneWhere k spc (s.hw.laneEa g i la off) n rd wr atom)))).map (fun e => (e.1, e.2.1, e.2.2.1))) = (t, .fault c m a)) :
    s.laneMem g hd true la off spc n rd wr atom .none body = .next { s with hw := (t.laneFault g c m a).canon } := by
  refine lane_fault hr ?_
  show (if (!true) = true then _ else if (s.hw.grp g).act = 0 then _ else _) = _
  rw [if_neg (by decide), if_neg ha]
  beta_reduce
  rw [hk]
  dsimp only
  rw [hb]
  dsimp only
  rw [if_neg (by rw [hw]; decide), ← hbody]
  generalize List.map _ _ = l
  cases l <;> rfl

theorem ha_fold {g : Nat} {h : Hw} {t la : Nat} {off : BitVec 24} (l : List Nat) (p : Hw × List (Nat × Nat × Nat) × List (Nat × Word)) :
    (l.foldl (fun (p : Hw × List (Nat × Nat × Nat) × List (Nat × Word)) i =>
        match p.1.handleAddr t iniLane 4 (h.lreg g i la) with
        | (h', some a) => (h', p.2.1, p.2.2 ++ [(i, BitVec.ofNat 32 a + off.signExtend 32)])
        | (h', none) => (h', p.2.1 ++ [(i, 8, (h.lreg g i la).toNat)], p.2.2)) p).1.laneG = p.1.laneG := by
  induction l generalizing p with
  | nil => rfl
  | cons i l ih =>
    refine (ih _).trans ?_
    have e := handleAddr_g p.1 t iniLane 4 (h.lreg g i la)
    show (match p.1.handleAddr t iniLane 4 (h.lreg g i la) with
        | (h', some a) => (h', p.2.1, p.2.2 ++ [(i, BitVec.ofNat 32 a + off.signExtend 32)])
        | (h', none) => (h', p.2.1 ++ [(i, 8, (h.lreg g i la).toNat)], p.2.2)).1.laneG = _
    generalize p.1.handleAddr t iniLane 4 (h.lreg g i la) = v at e
    obtain ⟨h', v⟩ := v
    cases v <;> exact e

theorem hw_fold (g ld : Nat) (l : List (Nat × Word)) (t : Hw) : (l.foldl (fun h e => h.setLreg g e.1 ld e.2) t).laneG = t.laneG := by
  induction l generalizing t with
  | nil => rfl
  | cons x l ih => exact (ih _).trans (setL_laneG _ _ _ _ _)

theorem reads_same (l : List Nat) (h : Hw) : SameBytes h (l.foldl (fun h l => h.readThrough l) h) := by
  induction l generalizing h with
  | nil => exact SameBytes.refl h
  | cons x t ih => exact (h.readThrough_same x).trans (ih _)

theorem lread_same (h : Hw) (a m : Nat) : SameBytes h ((if (h.region a).cached then (linesOf a m).foldl (fun h l => h.readThrough l) h else h).eccRead a m).1 := by
  refine SameBytes.trans ?_ (Hw.eccRead_same _ a m)
  split
  · exact reads_same _ h
  · exact SameBytes.refl h

end Sys2Proof.Machine
end

