-- ==== Sys2Proof/Tests/Slice0.lean ====
section
/-! SUPPORT. Our own tests: small checks with results worked out by hand from the spec, and for every statement with hypotheses a
concrete case that meets them. They are checked one after another: checked at once, each would hold a stack of its own. -/

set_option Elab.async false

open Sys2Proof Sys2Proof.Machine

namespace Sys2Proof.Tests

/-- A part that runs, with nothing in its memory and registers, and M0 at 0x100 with its line in the I-cache. -/
def up : Hw := { pwr := { phase := .up }, m0 := { run := .running, pc := 0x100, icache := [4] } }

/-- The state of that part. -/
def st (h : Hw) : State := { hw := h }

/-- A register access by M0 with TID 0. -/
def t0 : Access := ⟨.m0, 0⟩

/-- That part with these fields written. -/
def upW (l : List (Fld × Nat)) : Hw := up.sets l

theorem up_ready : up.Ready .m0 := by
  refine ⟨by decide, by decide, by decide, by decide⟩

/-! ### Words of the formats of spec/07_instruction_sets.md, put together field by field from its tables -/

/-- Word `w` reads as instruction `i` of M0. -/
def coreReads (w : BitVec 32) (i : Instr) : Bool := decodeCore .m0 w == some i

/-- Word `w` reads as instruction `i` of lane group 0. -/
def laneReads (w : BitVec 64) (i : Instr) : Bool := decodeLane 0 false w == some i

theorem test_decode_core_alu : coreReads 0x00611001 (.add .m0 3 1 2) = true ∧ coreReads 0x0061100D (.srai .m0 3 1 2) = true ∧ coreReads 0x00610022 (.bswap .m0 3 1) = true ∧
    coreReads 0x04A1FFFF (.addi .m0 5 1 0xFFFF) = true ∧ coreReads 0x68A10008 (.sw .m0 5 1 8) = true := by decide +kernel

theorem test_decode_core_flow : coreReads 0x80220004 (.beq .m0 1 2 4) = true ∧ coreReads 0xA0000002 (.jmp .m0 2) = true ∧ coreReads 0xA8010001 (.jr .m0 1) = true ∧
    coreReads 0xC0610001 (.ll .m0 3 1) = true ∧ coreReads 0xC0611017 (.amocas .m0 3 1 2) = true ∧ coreReads 0xD0A63801 (.bmov .m0 5 6 7 none) = true ∧
    coreReads 0xD4824C00 (.ldm .m0 4 2 9 true none) = true := by decide +kernel

theorem test_decode_core_system : coreReads 0xE0221821 (.fadd .m0 true 1 2 3) = true ∧ coreReads 0xE4221900 (.fmadd .m0 false 1 2 3 4) = true ∧
    coreReads 0xFC004202 (.trap .m0 0x42) = true ∧ coreReads 0xFC000003 (.eret .m0) = true ∧ coreReads 0xFC600205 (.mfs .m0 3 2) = true ∧
    coreReads 0xFC030106 (.mts .m0 1 3) = true := by decide +kernel

/-- Word `w` is no instruction of M0. -/
def coreNone (w : BitVec 32) : Bool := (decodeCore .m0 w).isNone

/-- Word `w` is no instruction of lane group 0. -/
def laneNone (w : BitVec 64) : Bool := (decodeLane 0 false w).isNone

theorem test_decode_core_refuses : coreNone 0 = true ∧ coreNone 0xFFFFFFFF = true ∧ coreNone 0x1C010000 = true ∧ coreNone 0x00610820 = true ∧ coreNone 0xFC602005 = true ∧
    coreNone 0x0061100E = true ∧ coreNone 0xD4824C01 = true ∧ coreNone 0xFC004208 = true ∧ coreNone 0x24000000 = true := by decide +kernel

theorem test_decode_lane : laneReads 0x1090608400000000 (.laneIadd 0 ⟨true, false, 2, 3⟩ 1 2) = true ∧
    laneReads 0x5000608000000005 (.laneImmediateForm 0 ⟨false, false, 0, 3⟩ 0x50 0 0 1 5) = true ∧ laneReads 0x0400002800000018 (.laneIf 0 ⟨2, true, 0x18⟩) = true ∧
    laneReads 0x0C00000000000010 (.laneJmp 0 ⟨0, false, 0x10⟩ false) = true ∧ laneReads 0x0100000000000000 (.laneEnd 0) = true := by decide +kernel

theorem test_decode_lane_memory : laneReads 0x38008080C0000010 (.laneLd 0 ⟨false, false, 0, 4⟩ 1 2 1 0x10 .none) = true ∧
    laneReads 0x3A00808A04000020 (.laneAtom 0 ⟨false, false, 0, 4⟩ 0 4 1 5 0x20) = true ∧ laneReads 0x3500008403200000 (.laneKop 0 ⟨false, false, 0, 0⟩ 3 2 1 2) = true := by
  decide +kernel

theorem test_decode_lane_refuses : laneNone 0x7200000000000000 = true ∧ laneNone 0x0300000000000000 = true ∧ laneNone 0x0C00001000000010 = true ∧
    laneNone 0x1000000000000001 = true ∧ laneNone 0x0180000000000000 = true ∧ laneNone 0x3080000000100000 = true := by decide +kernel

/-! ### Cases for the statements about the cores -/

/-- A core that runs at 0x100 in supervisor or user mode with IE = 1 and the FPU enabled, G1 as given, G3 = 5 and G4 = 0x10000100. -/
def core (sup : Bool) (g1 : Word) : Core :=
  { run := .running, pc := 0x100, icache := [4], sstat := mkSstat sup true false true sup true 0
    g := (((Vector.replicate 32 0).set 1 g1).set 3 5).set 4 0x10000100 }

/-- A part whose M0 is that core, with these fields written. -/
def by0 (x : Core) (l : List (Fld × Nat) := []) : Hw := { upW l with m0 := x }

/-- A part whose M0 is that core in user mode, with the first 256 bytes from 0x100 on executable for T0. -/
def byUser (g1 : Word) : Hw :=
  by0 (core false g1) [(TEN_RGN_BASE.EN_L 0 0, 1), (TEN_RGN_BASE.X_L 0 0, 1), (TEN_RGN_BASE.ADDR_L 0 0, 1), (TEN_RGN_LIMIT.ADDR_L 0 0, 1)]

/-- A part whose Polder core is that core, on the island's SRAM. -/
def byPol (x : Core) : Hw := { up with pol := { x with pc := 0x30100000 } }

/-- `Hw.Ready` of a part, checked. -/
def isReady (h : Hw) (c : CoreId) : Bool :=
  h.canRun c && (h.fetch c).2.isNone && (List.range 8).all (fun i => !(h.fetched c).on (DBG_C_WP_CTL.EN (coreNum c) i)) && !(h.core c).ends

theorem ready_of {h : Hw} {c : CoreId} (hr : isReady h c = true) : h.Ready c := by
  simp only [isReady, Bool.and_eq_true, List.all_eq_true, List.mem_range, Bool.not_eq_true', Option.isNone_iff_eq_none] at hr
  exact ⟨hr.1.1.1, hr.1.1.2, hr.1.2, hr.2⟩

/-- `Hw.CanLoad`, checked. -/
def loads (h : Hw) (c : CoreId) (a n align : Nat) : Bool :=
  a % align == 0 && h.coreMpu c .r a n && !h.bridgeShut c a && !(h.region a).device && h.coreMapped c a n false && !h.windowWaits a &&
  decide (((h.readLines c a n).eccRead a n).2 = .good)

theorem canLoad_of {h : Hw} {c : CoreId} {a n align : Nat} (hl : loads h c a n align = true) : h.CanLoad c a n align := by
  simp only [loads, Bool.and_eq_true, beq_iff_eq, Bool.not_eq_true', decide_eq_true_eq] at hl
  exact ⟨hl.1.1.1.1.1.1, hl.1.1.1.1.1.2, hl.1.1.1.1.2, hl.1.1.1.2, hl.1.1.2, hl.1.2, hl.2⟩

/-- `Hw.CanStore`, checked. -/
def stores (h : Hw) (c : CoreId) (a n align : Nat) : Bool :=
  a % align == 0 && h.coreMpu c .w a n && !h.bridgeShut c a && !(h.region a).device && h.coreMapped c a n true && !h.linePoisoned a n && !h.storeWaits c a n

theorem canStore_of {h : Hw} {c : CoreId} {a n align : Nat} (hs : stores h c a n align = true) : h.CanStore c a n align := by
  simp only [stores, Bool.and_eq_true, beq_iff_eq, Bool.not_eq_true'] at hs
  exact ⟨hs.1.1.1.1.1.1, hs.1.1.1.1.1.2, hs.1.1.1.1.2, hs.1.1.1.2, hs.1.1.2, hs.1.2, hs.2⟩

theorem wit_RegisterFileAndFetch : (up.fetch .m0).2 = none := up_ready.2.1

theorem wit_RegisterAndImmediateInstructions : ∀ c ∈ [CoreId.m0, .pol], (byPol (core true 0)).Ready c :=
  List.forall_mem_cons.2 ⟨ready_of (by decide +kernel), List.forall_mem_cons.2 ⟨ready_of (by decide +kernel), by simp⟩⟩

theorem wit_BranchesAndJumpsGoToTheirTarget :
    let h := by0 (core true 0x200)
    h.Ready .m0 ∧ ((h.issued .m0 false).gr .m0 1).toNat % 4 = 0 := ⟨ready_of (by decide +kernel), by decide +kernel⟩

theorem wit_LoadsBringTheBytesAtTheirAddress :
    let h := (by0 (core true 0x10000040)).issued .m0 false
    (∀ n ∈ [1, 2, 4, 8], h.CanLoad .m0 0x10000040 n) ∧ (∀ u ∈ [Upset.none, .single], (h.upset u 0x10000040).CanLoad .m0 0x10000040 4) ∧ (h.core .m0).fpe = true := by
  refine ⟨?_, ?_, by decide +kernel⟩
  · intro n hn; fin_cases hn <;> exact canLoad_of (by decide +kernel)
  · intro u hu; fin_cases hu <;> exact canLoad_of (by decide +kernel)

theorem wit_StoresPutTheirBytesAtTheirAddress :
    let h := (by0 (core true 0x10000040)).issued .m0 false
    ∀ n ∈ [1, 2, 4, 8], h.CanStore .m0 0x10000040 n := by
  intro h n hn
  fin_cases hn <;> exact canStore_of (by decide +kernel)

theorem wit_RegisterAccessesByLoadAndStore :
    (let h := (by0 (core true 0x20060010)).issued .m0 false
     h.bridgeShut .m0 0x20060010 = false ∧ (h.region 0x20060010).device = true ∧ h.busHeld (h.accOf .m0).who = false ∧ h.coreMpu .m0 .r 0x20060010 4 = true ∧
     h.coreMpu .m0 .w 0x20060010 4 = true ∧ (match (h.devRead (h.accOf .m0) 0x20060010).2 with | .word _ => true | _ => false) = true ∧
     (h.devWrite (h.accOf .m0) 0x20060010 5).2 = .ok ∧ ((h.devRead (h.accOf .m0) 0x20060010).1.core .m0).stepping = false) ∧
    (let h := (by0 (core true 0x00FC0000)).issued .m0 false
     h.coreMpu .m0 .w 0x00FC0000 4 = true ∧ h.linePoisoned 0x00FC0000 4 = false ∧ h.storeWaits .m0 0x00FC0000 4 = false) := by decide +kernel

theorem wit_AtomicsReadAndStoreAtTheHub :
    let h := (by0 { core true 0x10000040 with resv := some (0x10000040 / 64) }).issued .m0 false
    (∀ w, h.CanAtomic .m0 0x10000040 w) ∧ (h.core .m0).resv = some (0x10000040 / 64) ∧ h.hubOp .m0 0x10000040 = true ∧ h.linePoisoned 0x10000040 4 = false ∧
    BitVec.ofNat 32 (leNat (h.bytes 0x10000040 4)) = h.gr .m0 5 ∧ BitVec.ofNat 32 (leNat (h.bytes 0x10000040 4)) ≠ h.gr .m0 3 := by
  refine ⟨fun w => ?_, by decide +kernel⟩
  cases w <;> exact ⟨by decide +kernel, by decide +kernel, by decide +kernel, by decide +kernel, by decide +kernel, by decide +kernel⟩

theorem wit_FencesAndMaintenanceKeepMemory :
    let h := (by0 (core true 0x10000040)).issued .m0 false
    h.coreMpu .m0 .r 0x10000040 1 = true ∧ h.coreMapped .m0 0x10000040 1 false = true ∧ (h.region 0x10000040).cached = true ∧ h.l2ups = [] ∧ (h.core .m0).mode = true ∧
    (byPol (core true 0)).pol.mode = true := by decide +kernel

/-- A part whose M0 has a gate table of two gates at 0x10002000: gate 0 enabled with a buffer of up to 16 bytes as its first argument. -/
def gated (exl : Bool) (tid : BitVec 7) (len p : Word) : Hw :=
  { up with
    m0 := { core true 0 with slcBase := 0x10002002, tid := tid, sstat := mkSstat true true exl true true true 0, g := (((core true 0).g.set 4 p).set 8 len) }
    mem := cellsIn 0 [] (cellsAt 0x10002000 (leBytes 4 0x500 ++ leBytes 4 (4 * 8 + 2) ++ [1])) }

theorem wit_ExceptionsEnterTheirVector :
    (let h := (gated false 0 0 0).issued .m0 false
     h.get (DBG_C_CATCH.VEC 0) = 0 ∧ h.gateCheck .m0 0 = (0, 0) ∧ h.gateCheck .m0 1 = (3, 0) ∧ h.gateCheck .m0 2 = (1, 0) ∧ (h.core .m0).exl = false ∧ h.on DBG_STAT.ATTACHED = false) ∧
    ((gated true 0 0 0).gateCheck .m0 0 = (0, 0) ∧ (gated true 0 0 0).m0.exl = true ∧ (gated false 5 0 0).gateCheck .m0 0 = (2, 0)) ∧
    ((gated false 0 17 0).gateCheck .m0 0 = (4, 0) ∧ (gated false 0 16 0xFFFFFFF8).gateCheck .m0 0 = (7, 0)) ∧
    (let h := (gated false 5 16 0x100).set (TEN_GATE.MASK_L 5 0) 1; h.gateCheck .m0 0 = (5, 0)) ∧ (upW [(DBG_STAT.ATTACHED, 1)]).on DBG_STAT.ATTACHED = true := by
  decide +kernel

theorem wit_EretAndSpecialRegisters :
    ((by0 (core true 0)).Ready .m0 ∧ (byUser 0).Ready .m0 ∧ (byPol (core true 0)).Ready .pol) ∧ ((core true 0).mode = true ∧ (core false 0).mode = false) ∧
    ((byUser 0).issued .m0 false).get (DBG_C_CATCH.VEC 0) = 0 := by
  refine ⟨⟨ready_of ?_, ready_of ?_, ready_of ?_⟩, ?_⟩ <;> decide +kernel

theorem wit_FormsThatTrap :
    (let h := (by0 (core true 0x10000041)).issued .m0 false
     (h.gr .m0 1).toNat % 4 ≠ 0 ∧ h.get (DBG_C_CATCH.VEC 0) = 0) ∧
    (let h := (byUser 0x10000040).issued .m0 false
     h.coreMpu .m0 .r 0x10000040 4 = false ∧ h.coreMpu .m0 .w 0x10000040 4 = false ∧ (h.coreViolation .m0 0x10000040 .r).get (DBG_C_CATCH.VEC 0) = 0 ∧ (h.core .m0).mode = false) ∧
    up.m0.fpe = false ∧ (decodeCore .m0 0 = none ∧ (decodeCore .m0 0x04000000#32).isSome = true) ∧
    (decodeLane 0 false 0x7200000000000000#64 = none ∧ (decodeLane 0 false 0x1000000000000000#64).isSome = true) := by decide +kernel

/-- Line 5 deliverable to M0, which is in this state. -/
def lined (x : Core) : Hw :=
  by0 x [(SYS_LAUNCH_STAT.DONE, 1), (PWR_STAT.BO_WARN, 1), (INTC_CFG.EN 5, 1), (INTC_CFG.ROUTE 5, 1), (INTC_M_THRESH.PRI 0, 16)]

theorem wit_WaitCompletesOnADeliverableLine :
    (((lined (core true 0)).issued .m0 false).anyLine .m0).isSome = true ∧ ((by0 (core true 0)).issued .m0 false).anyLine .m0 = none ∧
    (let h := lined { core true 0 with run := .waiting, sstat := mkSstat true false false true true true 0 }
     (h.core .m0).run = .waiting ∧ (h.anyLine .m0).isSome = true ∧ h.clocked = true ∧ h.pwr.sleep = .run ∧ (h.core .m0).ie = false) := by decide +kernel

theorem wit_InterruptsAreGrantedAndEntered :
    (∀ r ∈ [RunState.running, .waiting], (lined { core true 0 with run := r }).nextGrant = some (.m0, 5)) ∧
    (let h := { upW [(POL_CORE_IE.EN, 1), (POL_RULE_EVT.RULES, 1)] with pol := core true 0 }
     h.takesIrq .pol = true ∧ h.islandBest = some 0) := by decide +kernel

/-- Both cores ready for an interrupt, with lines 5 and 7 asserted and routed to both. -/
def both (l : List (Fld × Nat)) : Hw :=
  { upW ([(SYS_LAUNCH_STAT.DONE, 1), (PWR_STAT.BO_WARN, 1), (PWR_STAT.BUCK_OT, 1), (INTC_CFG.EN 5, 1), (INTC_CFG.ROUTE 5, 3), (INTC_CFG.EN 7, 1), (INTC_CFG.ROUTE 7, 3),
      (INTC_M_THRESH.PRI 0, 16), (INTC_M_THRESH.PRI 1, 16)] ++ l) with m0 := core true 0, m1 := core true 0 }

theorem wit_InterruptsAreGrantedAndEntered_choice :
    ((both []).nextGrant = some (.m0, 5) ∧ (both [(INTC_M_RUNPRI.PRI 0, 10)]).nextGrant = some (.m1, 5) ∧ (both [(INTC_CFG.PRIO 5, 3), (INTC_CFG.PRIO 7, 2)]).nextGrant = some (.m0, 7)) ∧
    ((∀ c ∈ [CoreId.m0, .m1], (both []).takesIrq c = true ∧ (both []).deliverable (coreNum c) 5 = true ∧ ((both []).core c).ends = false) ∧ up.nextGrant = none) ∧
    (byPol (core true 0)).pol.ends = false := by decide +kernel

theorem wit_ExlBlocksInterruptsAndLockupStops :
    (gated true 0 0 0).m0.exl = true ∧ { up with pol := { core true 0 with sstat := 4 } }.pol.exl = true ∧ { core true 0 with run := .lockup }.run ≠ .running := by decide

/-- M0 with G5, G6 and G7 as a long instruction takes them. -/
def long (d a n : Word) : Hw := (by0 { core true 0 with g := (((core true 0).g.set 5 d).set 6 a).set 7 n }).issued .m0 false

theorem wit_LongInstructionsMoveOneElementAtATime :
    ((long 0 0 0).gr .m0 7).toNat = 0 ∧
    (∀ n ∈ [40, 100], min n (64 - 0x10000040 % 64) = min n 64 ∧
      (long 0x10000040 0x10000140 (BitVec.ofNat 32 n)).CanStore .m0 0x10000040 (min n 64) 1 ∧ (long 0x10000040 0x10000140 (BitVec.ofNat 32 n)).CanLoad .m0 0x10000140 (min n 64) 1 ∧
      ((long 0x10000040 0x10000140 (BitVec.ofNat 32 n)).loaded .m0 0x10000140 (min n 64)).CanStore .m0 0x10000040 (min n 64) 1) ∧
    ((0x10000140 : Nat) < 0x10000150 ∧ (0x10000150 : Nat) < 0x10000140 + 40) := by
  refine ⟨by decide +kernel, ?_, by decide⟩
  intro n hn
  fin_cases hn <;> exact ⟨by decide, canStore_of (by decide +kernel), canLoad_of (by decide +kernel), canStore_of (by decide +kernel)⟩

theorem wit_LoadAndStoreMultipleGoRegisterByRegister :
    let h := (by0 (core true 0x10000040)).issued .m0 true
    h.resumeList .m0 (ldmOrder 5 5 1 true) = [5] ∧ h.resumeList .m0 (ldmOrder 5 5 1 false) = [5] ∧ h.CanLoad .m0 0x10000040 4 ∧ h.CanStore .m0 0x10000040 4 ∧ (h.gr .m0 1).toNat = 0x10000040 :=
  ⟨by decide +kernel, by decide +kernel, canLoad_of (by decide +kernel), canStore_of (by decide +kernel), by decide +kernel⟩

theorem wit_FloatingPointOperations :
    ((by0 (core true 0)).issued .m0 false |>.core .m0).fpe = true ∧ fsrTrap 0 { dz := true } = 0 ∧ fsrTrap 0x200 { dz := true } = 2 ∧
    unpack fmt32 false 0x3F800000 = .fin false 0x800000 (-23) ∧ (0x3F800000 : Nat) < 2 ^ (fmt32.w + fmt32.p) := by decide +kernel

/-! ### Cases for the statements about the lanes -/

/-- A part whose group 0 runs a kernel with its LMEM window open and two active lanes, with this stack. -/
def stacked (stk : List LaneEntry) (act : Nat := 3) : Hw :=
  { upW [(CLK_GATE.EN, 0x3FFFFFF)] with
    laneQ := [(0, { kern := some ⟨0, 0, 0, [0], false, 0, 32, true, 9, 0, [], [], []⟩ })]
    laneG := [(0, { queue := some 0, act := act, live := 3, stack := stk })] }

theorem wit_LanesAreReady : (stacked []).LaneReady 0 ∧ (stacked []).taking 0 ⟨false, false, 0, 0⟩ ≠ [] ∧ ((stacked []).kernOf 0).isSome = true ∧ ((stacked []).grp 0).act ≠ 0 :=
  ⟨⟨by decide +kernel, by decide +kernel, by decide +kernel, by decide +kernel⟩, by decide +kernel, by decide +kernel, by decide +kernel⟩

theorem wit_LaneControlKeepsTheStack :
    ((stacked []).grp 0).stack.length < 16 ∧ 16 ≤ ((stacked (List.replicate 16 ⟨0, 3, 0, 0⟩)).grp 0).stack.length ∧
    (∀ k ∈ [0, 1, 2], ((stacked [⟨k, 3, 1, 0⟩]).grp 0).stack = ⟨k, 3, 1, 0⟩ :: []) ∧
    (let x := (stacked [⟨2, 3, 1, 8⟩]).grp 0; x.act ||| 1 ≠ 0) ∧ (let x := (stacked [⟨2, 3, 0, 8⟩] 0).grp 0; x.act ||| 0 = 0) ∧
    (∃ e ∈ ((stacked [⟨0, 3, 1, 0⟩, ⟨2, 3, 1, 0⟩]).grp 0).stack, e.kind = 2) := by
  refine ⟨by decide +kernel, by decide +kernel, by decide +kernel, by decide +kernel, by decide +kernel, ⟨2, 3, 1, 0⟩, by decide +kernel, rfl⟩

theorem wit_LaneControlKeepsTheStack_branches :
    (∀ l ∈ [[], [⟨0, 3, 1, 0⟩], [(⟨1, 3, 1, 0⟩ : LaneEntry)]], ∀ e ∈ ((stacked l).grp 0).stack, e.kind ≠ 2) ∧
    ((⟨1, false, 8⟩ : LaneCtl).off ≠ 0 ∧ ¬ ((⟨1, false, 8⟩ : LaneCtl).kc = 0 ∧ (⟨1, false, 8⟩ : LaneCtl).cn = false) ∧ ¬ ((⟨0, true, 8⟩ : LaneCtl).kc = 0 ∧ (⟨0, true, 8⟩ : LaneCtl).cn = false)) ∧
    ((stacked []).grp 0).act &&& (stacked []).cond 0 ⟨1, false, 0⟩ = 0 := by decide +kernel

theorem wit_LaneMemoryGoesThroughLmemL1OrTheHub_waits :
    let k : Kernel := ⟨0, 0, 0, [0], false, 0, 32, true, 9, 0, [], [], []⟩
    let h := { stacked [] with xspi := { cmd := some 0 } }
    (h.laneWhere k 0 0x40000000 4 true false false = (.l1, 0x40000000, 0) ∧ h.laneHeld 0 .l1 0x40000000 4 = true ∧ h.laneHeld 0 .hub 0x40000000 4 = true ∧
      (stacked []).laneHeld 0 .l1 0x40000000 4 = false) ∧
    (let h := { stacked [] with l2ups := [(0x10000040 / 8, .l2Bad)] }; (h.laneRead 0 .hub 0x10000040 4).2.1 = false) ∧
    ((stacked []).peOn = true ∧ { stacked [] with regs := (upW [(CLK_GATE.EN, 0x3FFFBFF)]).regs }.peOn = false) ∧
    (∀ c ∈ [1, 2], (stacked []).taking 0 ⟨false, false, 0, 0⟩ = [0, 1] ∧ c ≠ 0) := by decide +kernel

theorem wit_LaneMemoryGoesThroughLmemL1OrTheHub :
    let h := stacked []
    let k : Kernel := ⟨0, 0, 0, [0], false, 0, 32, true, 9, 0, [], [], []⟩
    h.kernOf 0 = some k ∧ (h.laneWhere k 2 0 4 true false false).2.2 = 0 ∧ (h.laneWhere k 2 0x1000 4 true false false).2.2 ≠ 0 ∧ (h.handleAddr 0 iniLane 4 5).2 = none := by
  decide +kernel

/-- A part at a point of power-up or power-down, with a byte of MRAM and of SRAM stored. -/
def at_ (p : PwrPhase) : Hw := { pwr := { phase := p }, mem := [(0x40, 7), (0x10000040, 9)] }

/-- A launched part in RUN with both cores waiting and MODE as `m`. -/
def calm (m : Nat) : Hw :=
  { upW [(SYS_LAUNCH_STAT.DONE, 1), (PWR_SLEEP_CTL.MODE, m)] with
    m0 := { run := .waiting }, m1 := { run := .waiting }, mem := [(0x40, 7), (0x10000040, 9)], dc0 := [(0x41, 5)] }

/-- That part asleep with line 5 asserted and wake-enabled. -/
def asleep (s : SleepSt) : Hw :=
  let h := (calm 2).sets [(PWR_WAKE_EN.EN 0, 0x20), (INTC_CFG.EN 5, 1), (INTC_CFG.ROUTE 5, 1), (PWR_STAT.BO_WARN, 1)]
  { h with pwr := { h.pwr with sleep := s } }

theorem wit_PowerUpRunsItsSequence : (at_ .unpowered).pwr.phase = .unpowered ∧ (at_ .vcoreRamp).pwr.phase = .vcoreRamp ∧
    { avsQ := [.write 700], waking := true, phase := .up : Pwr }.avsQ = .write 700 :: [] ∧
    { avsQ := [.status, .write 800], phase := .avsStart : Pwr }.avsQ = .status :: [.write 800] ∧
    (3 ≤ { avsFails := 2 : Pwr }.avsFails + 1 ∧ { avsFails := 1 : Pwr }.avsFails + 1 < 3) := by decide

theorem wit_PowerUpRunsItsSequence_seal : { at_ .unpowered with bak := { (at_ .unpowered).bak with sealTorn := true } }.sealOk = false := rfl

theorem wit_PowerUpRunsItsSequence_more :
    ({ avsQ := [.sleepWrite, .wakeWrite 800] : Pwr }.avsQ = .sleepWrite :: [.wakeWrite 800] ∧ { avsQ := [.wakeWrite 800], phase := .up, avsFails := 2, waking := true : Pwr }.phase ≠ .avsStart ∧ (AvsTxn.status != .sleepWrite) = true) ∧
    (let p : Pwr := { avsQ := [.status], phase := .up, avsFails := 2, waking := true }
     3 ≤ p.avsFails + 1 ∧ p.avsQ = [.status] ∧ p.phase ≠ .avsStart ∧ p.waking = true ∧ ({} : Clk).pll = .off) := by decide +kernel

theorem wit_PowerUpRunsItsSequence_keeps : ∃ h : Hw, h.pwr.phase = .unpowered ∧ h.sealOk = true := by
  generalize hk : ({ pwr := { phase := .unpowered } } : Hw) = k
  have hseal : PWR_SEAL_CRC < 0x30000000 := by decide
  have hlow : ∀ a ≥ 0x30000000, (k.wr PWR_SEAL_CRC k.sealWord).rd a = k.rd a := fun a ha => Hw.rd_wr_other k _ (by omega)
  have hin : ∀ e ∈ polCfg, (k.wr PWR_SEAL_CRC k.sealWord).inForce e.1 = k.inForce e.1 := by
    intro e he
    have hb : 0x30000000 ≤ e.1 := (by decide +kernel : ∀ e ∈ polCfg, 0x30000000 ≤ e.1) e he
    simp only [Hw.inForce]
    split <;> simp only [hlow _ hb, hlow _ (Nat.le_trans hb (Nat.le_add_right _ _))]
  have hl : polCfg.flatMap (fun e => leBytes 4 ((k.wr PWR_SEAL_CRC k.sealWord).inForce e.1 &&& e.2)) = polCfg.flatMap (fun e => leBytes 4 (k.inForce e.1 &&& e.2)) :=
    List.flatMap_congr (fun e he => by rw [hin e he])
  have hs : (k.wr PWR_SEAL_CRC k.sealWord).sealWord = k.sealWord := by
    rw [Hw.sealWord, hl, Hw.rd_wr_other k _ (by decide), Hw.sealWord]
    rfl
  refine ⟨k.wr PWR_SEAL_CRC k.sealWord, by rw [← hk]; rfl, ?_⟩
  rw [Hw.sealOk, hs, Hw.rd_wr_self, ← hk]
  simp [Hw.wr]

theorem wit_MonitorsActAsTheirTableSays :
    (let h := upW [(SYS_LAUNCH_STAT.DONE, 1), (PWR_CFG.THR, 1)]
     h.pwr.phase = .up ∧ h.get SYS_LAUNCH_STAT.DONE = 1 ∧ h.get PWR_CFG.THR ≠ 0 ∧ h.lcsm.holds = false) ∧
    (at_ .flushed).pwr.phase = .flushed ∧ (at_ .unpowered).pwr.phase = .unpowered ∧ (at_ .up).pwr.phase ≠ .unpowered ∧
    (at_ .flushCut).pwr.phase ∈ [PwrPhase.up, .avsStart, .resetHold, .flushCut] := by decide

theorem wit_FlushesAndResetsKeepWhatTheyMust_more :
    (up.opens t0 = true ∧ up.opens ⟨.m0, 5⟩ = true ∧ up.opens ⟨.debug, 0⟩ = false ∧ (upW [(LCS_STAT.DBG_PERM, 1)]).opens ⟨.debug, 0⟩ = true ∧ (at_ .up).opens t0 = true) ∧
    (let h := { upW [(SYS_LAUNCH_STAT.DONE, 1), (PWR_CFG.THR, 1), (PWR_STAT.BERM_ARMED, 1)] with pwr := { phase := .up, sleep := .sleep, pending := some (3, false) }, clk := { tbEntry := 7 } }
     h.pwr.sleep = .sleep ∧ h.clk.tbRun = false ∧ h.get PWR_STAT.BERM_ARMED = 1 ∧ h.pwr.pending = some (3, false)) ∧
    ((upW [(POL_HAND.REQ, 1)]).get POL_HAND.REQ = 1 ∧ (calm 3).get POL_HAND.REQ = 0 ∧ { tbRun := true : Clk }.tbRun = true ∧ (7 ≤ (8 : Fin 9).val ∧ (6 : Fin 9).val < 7)) := by decide

theorem wit_FlushesAndResetsKeepWhatTheyMust :
    ({ phase := .up : Pwr }.pending = none ∧ { phase := .up, pending := some (6, false) : Pwr }.pending = some (6, false)) ∧ (6 ≠ 9) ∧
    (t0.tid = 0 ∧ (⟨.m0, 5⟩ : Access).tid ≠ 0 ∧ up.pwr.phase = .up ∧ up.pwr.sleep ≠ .sleep ∧ up.pwr.pending = none) ∧
    (let h := upW [(SYS_LAUNCH_STAT.DONE, 1), (PWR_CFG.THR, 1), (PWR_STAT.BERM_ARMED, 1)]
     h.pwr.phase = .up ∧ h.get SYS_LAUNCH_STAT.DONE = 1 ∧ h.get PWR_CFG.THR ≠ 0 ∧ h.get PWR_STAT.BERM_ARMED = 1) ∧
    (upW [(SYS_LAUNCH_STAT.DONE, 1), (PWR_CFG.THR, 1)]).get PWR_STAT.BERM_ARMED = 0 ∧ (calm 3).mayEnter 3 = true := by decide

theorem wit_SleepModesAreEnteredAndLeft :
    (∀ m ∈ [1, 2], let h := calm m
      h.pwr.phase = .up ∧ h.get SYS_LAUNCH_STAT.DONE = 1 ∧ h.pwr.pending = none ∧ h.pwr.sleep = .run ∧ h.get PWR_SLEEP_CTL.MODE = m ∧
      h.m0.run = .waiting ∧ h.m1.run = .waiting ∧ h.get CMT_STATUS.STATE = 0 ∧ h.get BIST_STAT.BUSY = 0 ∧ h.xspi.cmd = none) ∧
    ((asleep .doze).pwr.sleep = .doze ∧ ((asleep .doze).bestLine 0).isSome = true) ∧
    ((asleep .sleep).pwr.phase = .up ∧ (asleep .sleep).wakeLine = true ∧ (asleep .sleep).pwr.sleep = .sleep ∧ (asleep .sleep).pwr.waking = false) ∧
    ((asleep .sleepEmulated).wakeLine = true ∧ (asleep .sleepEmulated).pwr.sleep = .sleepEmulated) := by decide +kernel

theorem wit_SleepModesAreEnteredAndLeft_more :
    (∀ v ∈ [0, 1], ((asleep .sleep).set PWR_STAT.AVS_ERR v).get PWR_STAT.AVS_ERR = v ∧ ((asleep .sleep).set PWR_STAT.AVS_ERR v).wakeLine = true ∧ ((calm 2).set DBG_STAT.ATTACHED v).get DBG_STAT.ATTACHED = v) ∧
    (∀ p ∈ [PllSt.starting, .locked], let h := { asleep .sleep with pwr := { (asleep .sleep).pwr with waking := true }, clk := { pll := p } }
      h.pwr.phase = .up ∧ h.pwr.waking = true ∧ h.clk.pll = p ∧ h.pwr.sleep = .sleep ∧ h.clk.tbRun = false ∧ h.pwr.pending = none) := by decide +kernel

/-- The part at a point of launch. -/
def launching (p : LaunchPhase) : Hw := { up with lnch := { phase := p } }

/-- A record with one section, ENTRY: M0 at 0x1000, M1 at 0x2000. -/
def entryRecord : List Byte :=
  zeros 16 ++ [5, 0, 1, 0] ++ zeros 44 ++ ([9, 0, 1, 0, 76, 0, 0, 0, 24, 0, 0, 0] ++ leBytes 4 0x1000 ++ leBytes 4 0x1F00 ++ leBytes 4 0x400) ++
  (leBytes 4 0x2000 ++ leBytes 4 0x2F00 ++ leBytes 4 0x800)

theorem wit_LaunchGoesThroughItsSteps :
    (upW [(SYS_LAUNCH_PREV.VALID, 1)]).get SYS_LAUNCH_PREV.VALID = 1 ∧ up.get SYS_LAUNCH_PREV.VALID = 0 ∧
    (upW [(LCS_STATE.STATE, 5)]).lcState = 5 ∧ up.lcState ≠ 5 ∧ up.lnch.nvm.signature = false ∧
    (∀ b ∈ [false, true], let h := { up with lnch := { nvm := ⟨true, b, [], false, false, []⟩ } }
      h.lcState ≠ 5 ∧ h.lnch.nvm.signature = true ∧ h.lnch.nvm.busy = b) ∧
    (at_ .resetHold).pwr.phase = .resetHold ∧ ((launching .idle).lnch.phase = .idle ∧ (launching .idle).get HUB_SRAM_STAT.INIT_DONE = 0) ∧
    (∀ p ∈ [LaunchPhase.nvmBusy, .xtalWait, .pllWait, .ddrTrain, .ending],
      (launching p).pwr.phase = .up ∧ (launching p).lnch.phase = p ∧ (launching p).lcsm.holds = false ∧ (launching p).pwr.waking = false) ∧
    ({ osc := true : Clk }.osc = true ∧ { waking := true : Pwr }.waking = true ∧ { pll := .starting : Clk }.pll = .starting) ∧
    (let h := { launching .ending with lnch := { (launching .ending).lnch with record := entryRecord } }
     h.haltsAtLaunch 0 = false ∧ h.haltsAtLaunch 1 = false ∧ h.recField secEntry 12 4 0 = 0x2000) ∧
    (launching .ending).recField secEntry 12 4 0 = 0 ∧
    (let h := upW [(SYS_LAUNCH_STAT.DONE, 1)]
     t0.tid = 0 ∧ h.m1.run = .held ∧ h.get SYS_LAUNCH_STAT.DONE = 1 ∧ bitOf h.bistHold 1 = false ∧ h.lcsm.holds = false ∧ h.haltsAtLaunch 1 = false) ∧
    (let h := launching .ddrTrain
     h.get DDR_LINK.CEIL = 0) := by decide +kernel

theorem wit_LaunchGoesThroughItsSteps_halts :
    (let h := upW [(SYS_LAUNCH_STAT.DONE, 1), (DBG_CFG.HALT_AT_LAUNCH, 3)]
     h.opens t0 = true ∧ h.m1.run = .held ∧ h.get SYS_LAUNCH_STAT.DONE = 1 ∧ bitOf h.bistHold 1 = false ∧ h.lcsm.holds = false ∧ h.haltsAtLaunch 1 = true) ∧
    (∀ x ∈ [(0, true), (1, false), (0, false)], let h := { upW [(LCS_STATE.STATE, 1), (HUB_SRAM_STAT.INIT_DONE, x.1)] with pwr := { phase := .resetHold } }
      h.pwr.phase = .resetHold ∧ h.get HUB_SRAM_STAT.INIT_DONE = x.1 ∧ h.lcs.marker = none ∧ h.lcState ≠ 5) ∧
    (∀ d : Fin 17, d.val ∈ [4, 6, 8, 12, 16] ∨ d.val ∉ [4, 6, 8, 12, 16]) ∧
    (let h := { launching .ddrTrain with regs := (upW [(DDR_LINK.CEIL, 3), (DDR_LINK.FLOOR, 4)]).regs }; min 2 (h.get DDR_LINK.CEIL) < h.get DDR_LINK.FLOOR) ∧
    (launching .failed).lnch.phase = .failed ∧ (⟨.m0, 5⟩ : Access).tid ≠ 0 ∧ { up with m1 := core true 0 }.m1.run ≠ .held := by decide +kernel

/-- A record with a LINKS section whose xSPI floor is 3 and one LOAD into LPDDR4. -/
def loadRecord : List Byte :=
  zeros 18 ++ [2, 0] ++ zeros 44 ++ [3, 0, 1, 0, 88, 0, 0, 0, 32, 0, 0, 0] ++ [7, 0, 1, 0, 120, 0, 0, 0, 48, 0, 0, 0] ++ ([3, 5] ++ zeros 30) ++
    (zeros 4 ++ leBytes 4 0x80000000 ++ leBytes 4 64 ++ zeros 36)

/-- The part with the PLL about to lock, that record taken, and these listed xSPI modes. -/
def applying (modes : List (Nat × Nat × Nat)) : Hw :=
  let h := launching .pllWait
  { h with lnch := { h.lnch with record := loadRecord, nvm := ⟨true, false, modes, false, false, []⟩ } }

theorem wit_LaunchGoesThroughItsSteps_apply :
    (up.chooseCopy 1 1 = none ∧ up.chooseCopy 0 1 = some 0 ∧ up.chooseCopy 1 0 = some 1) ∧
    (let h := applying [(2, 100, 5)]
     (∀ m ∈ h.lnch.nvm.modes, m.1 < 6 ∧ m.2.1 < 256 ∧ m.2.2 < 32) ∧ h.recField secLinks 1 1 0xFF = 5 ∧ h.applyLinks.get XSPI_NEG_RESULT.LINK_FLOOR = 1 ∧ h.recHas secLoad = true ∧
     h.entryLost = false ∧ ((h.tbRestore 0 0).runSections (sections h.lnch.record)).2 = 8 ∧ h.pwr.waking = false ∧ h.get CLK_DIV.LANE_DIV ≤ h.get CLK_DIV.BUS_DIV) ∧
    (applying [(4, 100, 5)]).applyLinks.get XSPI_NEG_RESULT.LINK_FLOOR = 0 ∧ (∀ m ∈ (applying [(5, 100, 5)]).lnch.nvm.modes, m.1 ≤ 5) ∧
    (upW [(PWR_RST_CAUSE.CAUSE, rcVcore)]).get PWR_RST_CAUSE.CAUSE = rcVcore ∧
    (let r := leBytes 4 0x90000000
     let h := { launching .pllWait with lnch := { (launching .pllWait).lnch with record := (entryRecord.take 76) ++ r ++ zeros 20 } }
     h.entryLost = true) := by decide +kernel

theorem wit_ClocksAndServoFollowTheirRules :
    (let h := { upW [(SYS_LAUNCH_STAT.DONE, 1)] with clk := { onRoot := true, pll := .locked, tbRun := true, xoDue := true } }
     h.pwr.phase = .up ∧ h.pwr.sleep ≠ .sleep ∧ h.clk.onRoot = true ∧ h.clk.pll = .locked ∧ h.get SYS_LAUNCH_STAT.DONE = 1 ∧ h.clk.xoDue = true ∧
     h.pwr.pending = none ∧ h.bak.lsxRun = true ∧ h.pwr.polderLow = false ∧ h.clk.tbRun = true ∧ h.pwr.sleep ≠ .sleepEmulated ∧
     h.get CLK_SRV_CFG.HOLD_TMO_L ≤ 4095) ∧
    (∀ v ∈ [0, 1, 2, 3], (upW [(CLK_SRV_STATE.STATE, v)]).svState = v) ∧ { pll := .unlocked : Clk }.pll = .unlocked ∧
    (2800 ≤ (2800 : BitVec 12).toNat ∧ (3600 : BitVec 12).toNat ≤ 3600 ∧ (2799 : BitVec 12).toNat < 2800 ∧ 3600 < (3601 : BitVec 12).toNat) ∧
    (31 ≤ (31 : BitVec 6).toNat ∧ (36 : BitVec 6).toNat ≤ 36 ∧ (30 : BitVec 6).toNat < 31 ∧ 36 < (37 : BitVec 6).toNat) ∧
    (up.loopMode loopServo ≠ 1 ∧ (1 : Int) ≠ 0) ∧
    (let h := upW [(⟨loopServo.base + 0xC, 0, 2⟩, 1), (⟨loopServo.base + 0x24, 0, 32⟩, 100000)]
     h.loopMode loopServo = 1 ∧ h.loopLow loopServo ≤ h.getS CLK_SRV_CORR.CORR ∧ h.getS CLK_SRV_CORR.CORR ≤ h.loopHigh loopServo) := by decide +kernel

/-- A part whose servo stands in state `n` with a running TB and these counts, its thresholds 100, 1000 and 5000 ns. -/
def served (n inn out : Nat) (l : List (Fld × Nat)) : Hw :=
  { upW ([(CLK_SRV_STATE.STATE, n), (CLK_SRV_THR.STEP_THR_L, 5), (CLK_SRV_THR.LOCK_THR_L, 100), (CLK_SRV_THR.OUTLIER_THR_L, 1000), (CLK_SRV_CFG.STEP_EN_L, 1)] ++ l) with
    clk := { tbRun := true, tb := 1000000, srvIn := inn, srvOut := out } }

theorem wit_ClocksAndServoFollowTheirRules_samples :
    (∀ n ∈ [0, 1, 2, 3], (served n 0 0 []).svState = n ∧ (served n 0 0 []).loopMode loopServo = 0 ∧
      ∀ m ∈ [1, 2], (served n 0 0 [(⟨loopServo.base + 0xC, 0, 2⟩, m)]).loopMode loopServo = m) ∧
    (let h := served 1 7 0 []; h.get CLK_SRV_THR.LOCK_THR_L = (100 : Int).natAbs ∧ h.get CLK_SRV_THR.STEP_THR_L * 1000 < (-5001 : Int).natAbs ∧ ¬ h.get CLK_SRV_THR.STEP_THR_L * 1000 < (5000 : Int).natAbs ∧
      h.get CLK_SRV_CFG.STEP_EN_L = 1 ∧ 8 ≤ h.clk.srvIn + 1 ∧ ¬ 8 ≤ (served 1 6 0 []).clk.srvIn + 1) ∧
    (let h := served 2 3 7 []; h.get CLK_SRV_THR.OUTLIER_THR_L < (1001 : Int).natAbs ∧ ¬ h.get CLK_SRV_THR.OUTLIER_THR_L < (1000 : Int).natAbs ∧ 8 ≤ h.clk.srvOut + 1 ∧ (served 2 3 6 []).clk.srvOut + 1 < 8) ∧
    (4 ≤ (served 3 3 0 []).clk.srvIn + 1 ∧ (served 3 2 0 []).clk.srvIn + 1 < 4) ∧
    (∀ n ∈ [0, 1, 2, 3], ((served 2 0 0 [(CMT_STATUS.STATE, n)]).epochEdge).get CMT_STATUS.STATE = n) ∧
    ((served 2 0 0 []).clk.epochHi = none ∧ { epochHi := some 4 : Clk }.epochHi = some 4) ∧
    (up.opens t0 = true ∧ (served 0 0 0 []).svState = 0) := by decide +kernel

/-- The part in life-cycle state `st` with the main domain clocked. -/
def inState (st : Nat) (l : List (Fld × Nat)) : Hw := upW ((LCS_STATE.STATE, st) :: l)

theorem wit_LifeCycleCommandsAreRefusedByTheirTable :
    (up.pwr.phase = .up ∧ up.pwr.sleep ≠ .sleep ∧ up.get LCS_STAT.BUSY = 0 ∧ (upW [(LCS_STAT.BUSY, 1)]).get LCS_STAT.BUSY = 1) ∧
    (t0.tid = 0 ∧ (⟨.m0, 5⟩ : Access).tid ≠ 0 ∧ (inState 5 []).lcState ∉ [1, 2, 3, 4]) ∧ ((0 : Byte).toNat = 0 ∧ 0xD < (0xE : Byte).toNat) ∧
    ((5 : Word).toNat ≠ up.get (LCS_TALLY.VALUE 6) + 1 ∧ (1 : Word).toNat = up.get (LCS_TALLY.VALUE 6) + 1 ∧ up.get (LCS_TALLY.VALUE 6) < 32) ∧
    32 ≤ (upW [(LCS_TALLY.VALUE 6, 32)]).get (LCS_TALLY.VALUE 6) ∧ up.auditFree ≠ 0 ∧
    (upW [(MRC_LS_HEAD.LSEQ 15, 3072)]).auditFree = 0 := by decide

theorem wit_LifeCycleCommandsActAsTheirTableSays :
    (up.pwr.phase = .up ∧ up.pwr.sleep ≠ .sleep ∧ up.get LCS_STAT.BUSY = 0 ∧ t0.tid = 0) ∧
    (∀ st ∈ [1, 2, 3, 4], (inState st []).lcState = st ∧ (inState st []).lcs.ownerHash = none ∧ (inState st []).auditFree ≠ 0) ∧
    { ownerHash := some (zeros 32) : Lcs }.ownerHash ≠ none ∧
    ((inState 3 []).get (LCS_TALLY.VALUE 1) < 8 ∧ 8 ≤ (inState 3 [(LCS_TALLY.VALUE 1, 8)]).get (LCS_TALLY.VALUE 1)) ∧
    ((inState 3 []).chalValid = false ∧ { inState 3 [] with lcsm := { chalTb := some 0 } }.chalValid = true) ∧
    ((inState 3 []).tokenOk (inState 3 []).lcsMsg = false ∧ (inState 3 []).get (LCS_TALLY.VALUE 4) < 16 ∧ 2 ≤ (inState 3 []).auditFree ∧
     16 ≤ (inState 3 [(LCS_TALLY.VALUE 4, 16)]).get (LCS_TALLY.VALUE 4)) ∧
    ((inState 2 [(LCS_ARG0.ARG, 127)]).get LCS_ARG0.ARG ≤ 127 ∧ 127 < (inState 2 [(LCS_ARG0.ARG, 128)]).get LCS_ARG0.ARG) ∧
    ((up.calRead 0).2 = false) ∧ ((inState 1 []).lsLive 15 < (inState 1 [(LCS_ARG0.ARG, 1)]).get LCS_ARG0.ARG % 4096) ∧
    ((inState 1 [(LCS_ARG0.ARG, 7)]).get LCS_ARG0.ARG ≠ up.get SYS_SERIAL_LO.SERIAL ∧
     (inState 1 [(LCS_ARG0.ARG, 7), (SYS_SERIAL_LO.SERIAL, 7)]).get LCS_ARG0.ARG = (upW [(SYS_SERIAL_LO.SERIAL, 7)]).get SYS_SERIAL_LO.SERIAL) ∧
    (upW [(MRC_LS_HEAD.LSEQ 15, 3072)]).auditFree = 0 ∧ { transit := some 4 : LcsMain }.transit = some 4 ∧
    { sig := some ⟨false, 0, false, [], []⟩ : LcsMain }.sig = some ⟨false, 0, false, [], []⟩ := by decide +kernel

/-- A debug access. -/
def dbgAcc : Access := ⟨.debug, 0⟩

theorem wit_LifeCycleCommandsAreRefusedByTheirTable_debug :
    (let h := inState 3 []
     h.dbgMay h.dbg.jtag LCS_CMD true (lcsWord 7) = true ∧ h.dbgMay h.dbg.jtag LCS_CMD true (lcsWord 1) = false ∧ h.opensTo dbgAcc true = true ∧ h.opensTo dbgAcc false = false ∧
     h.opensTo t0 false = true ∧ h.clocked = true ∧ h.busHeld .debug = false) ∧
    ((inState 5 []).dbgMay false LCS_CMD true (lcsWord 7) = false ∧ (inState 3 []).dbgMay true LCS_CMD true (lcsWord 7) = false ∧
     (inState 3 [(LCS_STAT.DBG_PERM, 1)]).dbgMay true LCS_CMD true (lcsWord 1) = true) := by decide +kernel

/-- A part in state `n` in the wipe that leads to `dst`. -/
def wiping (n dst : Nat) : Hw := { inState n [(LCS_STAT.BUSY, 1)] with lcsm := { transit := some dst, holds := true } }

/-- A part whose LCS verifies this job. -/
def verifying (j : SigJob) (l : List (Fld × Nat)) : Hw := { inState 3 ((LCS_STAT.BUSY, 1) :: l) with lcsm := { sig := some j } }

theorem wit_LifeCycleCommandsActAsTheirTableSays_busy :
    (∀ p ∈ [(1, 2), (2, 3), (4, 3), (3, 4), (3, 5)], let h := wiping p.1 p.2
      h.get LCS_STAT.BUSY = 1 ∧ h.lcState = p.1 ∧ h.pwr.phase = .up ∧ h.lcsm.transit = some p.2 ∧ p.2 < 8 ∧ h.pwr.pending = none) ∧
    (∀ r ∈ [true, false], let h := verifying ⟨r, 0, false, [], []⟩ []
      h.get LCS_STAT.BUSY = 1 ∧ h.clocked = true ∧ h.lcsm.sig = some ⟨r, 0, false, [], []⟩ ∧ 2 ≤ h.auditFree ∧ h.get (LCS_TALLY.VALUE 4) < 16) ∧
    (verifying ⟨false, 0, false, [], []⟩ [(MRC_LS_HEAD.LSEQ 15, 3071)]).auditFree < 2 ∧ ecdsaOk (zeros 64) (zeros 64) (zeros 32) = false := by decide +kernel

theorem wit_LifeCycleCommandsActAsTheirTableSays_set :
    (∀ a ∈ [0x10000000, 0x101FF800], a % 64 = 0 ∧ 0x10000000 ≤ a ∧ a + 2048 ≤ 0x10200000) ∧ ¬ (0x101FF840 + 2048 ≤ 0x10200000) ∧
    (∃ bs : List Byte, bs.length = 2044 ∧ calOk (bs ++ leBytes 4 (crc32c bs).toNat) = true) := by
  refine ⟨by decide, by decide, [0x46, 0x4A, 0x43, 0x4C, 1, 0] ++ zeros 2038, by simp only [zeros, List.length_append, List.length_replicate, List.length_cons, List.length_nil], ?_⟩
  generalize hz : zeros 2038 = z
  have hl : z.length = 2038 := by rw [← hz]; simp only [zeros, List.length_replicate]
  generalize hb : [0x46, 0x4A, 0x43, 0x4C, 1, 0] ++ z = bs
  have hn : bs.length = 2044 := by simp only [← hb, List.length_append, hl, List.length_cons, List.length_nil]
  have hf : ∀ v < 2 ^ 32, fieldB (bs ++ leBytes 4 v) 2044 4 = v := by
    intro v hv
    simp only [fieldB, sliceB, List.drop_left' hn, leBytes, List.take, List.length, Nat.reduceAdd, Nat.reduceSub, List.replicate_zero, List.append_nil, leNat, BitVec.toNat_ofNat]
    omega
  simp only [calOk, Bool.and_eq_true, beq_iff_eq, List.take_left' hn, hf _ (crc32c bs).isLt, and_true]
  subst hb
  refine ⟨⟨by simp [hl, leBytes], ?_⟩, ?_⟩ <;> simp [fieldB, sliceB, leNat]

theorem wit_InterruptLinesAndWatchdogsFollowTheirRules_more :
    (let h := upW [(CLK_DIV.PER_DIV, 16), (TMR_WD_CTL.EN 0, 1), (TMR_WD_CTL.EN 1, 1), (TMR_WD_CTL.FREEZE 0, 0), (TMR_WD_CTL.FREEZE 1, 0), (TMR_WD_COUNT.VALUE 0, 1), (TMR_WD_COUNT.VALUE 1, 0)]
     let h := { h with wdFrac := [(0, 15990), (1, 15984)] }
     h.wdRuns 0 = true ∧ h.wdRuns 1 = true ∧ h.pwr.pending = none ∧ ∀ n : Fin 2, h.get (TMR_WD_COUNT.VALUE n) ≤ 1 ∧ 16000 ≤ tget 0 h.wdFrac n + h.get CLK_DIV.PER_DIV) ∧
    (let h := upW [(TMR_WD_CTL.EN 0, 1), (TMR_WD_CTL.FREEZE 0, 0), (TMR_WD_COUNT.VALUE 0, 9), (TMR_WD_WARN.VALUE 0, 5)]
     h.wdRuns 0 = true ∧ h.get (TMR_WD_COUNT.VALUE 0) < 10 ∧ ¬ h.get (TMR_WD_COUNT.VALUE 0) < 9 ∧ h.get (TMR_WD_WARN.VALUE 0) < h.get (TMR_WD_COUNT.VALUE 0) ∧ 9 - 4 ≤ h.get (TMR_WD_WARN.VALUE 0)) ∧
    (up.opens t0 = true ∧ { up with act0 := [(5, 3), (7, 9)] }.act 0 ≠ [] ∧ (0x4B1D : Word) ≠ 5) := by decide +kernel

theorem wit_InterruptLinesAndWatchdogsFollowTheirRules :
    (up.pwr.phase = .up ∧ up.pwr.sleep ≠ .sleep ∧ t0.tid = 0 ∧ (⟨.m0, 5⟩ : Access).tid ≠ 0 ∧ t0.who = .m0 ∧ (⟨.m1, 0⟩ : Access).who ≠ .m0) ∧
    (¬ (∃ e ∈ up.act 0, e.1 = 5) ∧ ∃ e ∈ { up with act0 := [(5, 3)] }.act 0, e.1 = 5) ∧
    (up.get (INTC_CFG.OWNER_L 255) ≠ 5 ∧ (upW [(INTC_CFG.OWNER_L 255, 5)]).get (INTC_CFG.OWNER_L 255) = 5) ∧
    (let h := upW [(TMR_WD_CTL.EN 0, 1), (TMR_WD_CTL.FREEZE 0, 0), (TMR_WD_WARN.VALUE 0, 9), (TMR_WD_COUNT.VALUE 0, 9), (TMR_WD_WIN.VALUE 0, 9)]
     h.wdRuns 0 = true ∧ h.get (TMR_WD_WARN.VALUE 0) ≠ 0 ∧ h.get (TMR_WD_WARN.VALUE 0) ≤ h.get (TMR_WD_COUNT.VALUE 0) ∧
     h.get (TMR_WD_CTL.EN 0) = 1 ∧ h.get (TMR_WD_COUNT.VALUE 0) ≤ h.get (TMR_WD_WIN.VALUE 0) ∧ h.pwr.pending = none) ∧
    (let h := upW [(TMR_WD_COUNT.VALUE 0, 9), (TMR_WD_WIN.VALUE 0, 8)]
     h.get (TMR_WD_WIN.VALUE 0) < h.get (TMR_WD_COUNT.VALUE 0)) ∧ up.get (TMR_WD_CTL.EN 0) = 0 ∧ up.wdRuns 0 = false := by decide +kernel

theorem wit_RegistersTakeTheirWritesAsTheirColumnsSay_stops :
    (∀ r ∈ [Initiator.m0, .m1], up.busHeld r = false) ∧ gateMask0 0x20050000 = false ∧ gateMask0 (TEN_GATE 0 0) = true ∧ (inWindows 0x20040000 = true ∧ (rowOf 0x2004FFF0).isNone = true) ∧
    (let h := { upW [(CMT_STATUS.STATE, cmtSwitching), (TMR_GT_CFG.PRE 3, 1)] with cmt := { up.cmt with captured := some [], heldWr := [(3, ⟨.m0, 0⟩, TMR_GT_CTL 3, 1)] } }
     h.busHeld .m0 = true) := by decide +kernel

theorem wit_RegistersTakeTheirWritesAsTheirColumnsSay :
    (∃ r, rowOf (INTC_CFG 3) = some (r, false) ∧ r.sh ≠ 0 ∧ 1 ≤ r.dom ∧ r.dom ≤ 8) ∧ (∀ e ∈ encRules, e.hits (INTC_CFG 3) = false) ∧
    (up.pwr.phase = .up ∧ up.pwr.sleep ≠ .sleep ∧ t0.who ≠ .polder ∧ t0.tid = 0 ∧ (⟨.m0, 5⟩ : Access).tid ≠ 0) ∧
    ((0x2005FFFC - 0x20000000) / 0x10000 ∈ [5, 6, 8, 0xA, 0x19] ∧ (0x20190000 - 0x20000000) / 0x10000 ∈ [5, 6, 8, 0xA, 0x19]) ∧
    { up with stores := [(0, 4, 5)] }.stores = [(0, 4, 5)] ∧ (upW [(SYS_BERR_INFO.VALID, 1)]).get SYS_BERR_INFO.VALID = 1 ∧
    up.get SYS_BERR_INFO.VALID = 0 := ⟨⟨_, rfl, by decide +kernel, by decide +kernel, by decide +kernel⟩, by decide +kernel⟩

theorem wit_RegistersTakeTheirWritesAsTheirColumnsSay_refused :
    (let h := { upW [(POL_STAT.MAIN_UP, 0), (POL_STAT.CORE_HELD, 0)] with pol := { run := .running } }
     h.busHeld .polder = false ∧ h.polRuns = true ∧ islandReg 0x20060010 = false ∧ islandReg 0x30000010 = true ∧ h.get POL_STAT.MAIN_UP = 0) ∧
    (dbgAcc.who = .debug ∧ up.busHeld .debug = false ∧ up.clocked = true ∧ up.dbgMay up.dbg.jtag 0x20060010 true 0 = false) ∧
    (up.reaches t0 0x20060010 0 = true ∧ (upW [(LCS_STAT.DBG_PERM, 1)]).reaches dbgAcc 0x20060010 0 = true ∧ up.reaches t0 0x20060011 0 = true) := by decide +kernel

/-- A part whose stream LS0 has four slots from 0x1000 on and is enabled, MODE HOLD or WRAP. -/
def logging (mode : Nat) (l : List (Fld × Nat)) : Hw :=
  upW ([(MRC_LS_CFG.EN 0, 1), (MRC_LS_CFG.MODE 0, mode), (MRC_LS_BASE.ADDR 0, 0x40), (MRC_LS_SIZE.SLOTS 0, 4)] ++ l)

theorem wit_LogStreamsAppendReleaseAndRecover :
    ((logging 0 []).lsOn 0 = true ∧ (logging 0 []).lsLive 0 < (logging 0 []).lsSize 0 ∧ (logging 0 []).slotAddr 0 4 ≤ 0x00FC0000 ∧ tget 0 (logging 0 []).lsSlot 0 < 4) ∧
    ((logging 0 [(MRC_LS_HEAD.LSEQ 0, 4)]).lsSize 0 ≤ (logging 0 [(MRC_LS_HEAD.LSEQ 0, 4)]).lsLive 0) ∧
    ((logging 0 []).get (MRC_LS_CFG.MODE 0) = 0 ∧ (logging 1 []).get (MRC_LS_CFG.MODE 0) = 1) ∧
    (up.pwr.phase = .up ∧ up.pwr.sleep ≠ .sleep ∧ t0.tid = 0 ∧ (⟨.m0, 5⟩ : Access).tid ≠ 0 ∧ up.lsOwner 0 ≠ 5 ∧ up.lsOn 0 = false ∧ up.mrcDrained = false) ∧
    ({ appendQ := [.addr 0 64] : Hw }.appendQ = [.addr 0 64] ∧ 64 ≤ { appendQ := List.replicate 64 (.addr 0 0) : Hw }.appendQ.length) ∧
    (up.get (MRC_LS_STAT.SCANNING 0) = 0 ∧ (upW [(MRC_LS_STAT.SCANNING 0, 1)]).get (MRC_LS_STAT.SCANNING 0) = 1 ∧ up.headerOk 0 = false) ∧
    (0 ≤ (logging 0 []).lsLive 0 ∧ (logging 0 []).lsLive 0 < 1) := by decide +kernel

/-- Stream LS0 with a fresh header and one record, about to be scanned. -/
def scanned : Hw := (((logging 0 [(MRC_LS_STAT.SCANNING 0, 1)]).recoveryScan 0).lsAppend 0 [1, 2, 3]).1.set (MRC_LS_STAT.SCANNING 0) 1

theorem wit_LogStreamsAppendReleaseAndRecover_scan :
    (scanned.headerOk 0 = true ∧ scanned.slotLast 0 0 = true ∧ scanned.get (MRC_LS_STAT.SCANNING 0) = 1) ∧
    ((logging 0 []).linePoisoned ((logging 0 []).slotAddr 0 0) 64 = false ∧
     (let h := { logging 0 [] with dir := [(0x41, { poisoned := true })] }; h.linePoisoned (h.slotAddr 0 0) 64 = true)) ∧
    (up.clocked = true ∧ up.opens t0 = true ∧ (up.dmaRead 0 iniMrc 0x1000 56).2.isOk = true ∧ (up.region 0x1000).cached = true ∧
     ({ appendQ := [.bytes 0 [1] false] } : Hw).appendQ = [.bytes 0 [1] false]) := by decide +kernel

theorem wit_ScrubbingAndTheDirectoryKeepTheBytes :
    (up.pwr.phase = .up ∧ up.pwr.sleep ≠ .sleep ∧ up.get MRC_SCRUB_CFG.EN = 0 ∧ (upW [(MRC_SCRUB_CFG.EN, 1)]).get MRC_SCRUB_CFG.EN = 1) ∧
    ((upW [(MRC_SCRUB_POS.ADDR, 2 ^ 21 - 1)]).get MRC_SCRUB_POS.ADDR + 1 = 2 ^ 21) ∧
    ((up.dirAt 0).poisoned = false ∧ (∀ l ∈ [up.l2, up.dc0, up.dc1, up.pec], ofind l 0 = none) ∧ tget Upset.none up.upsets 0 = .none) ∧
    (up.get HUB_SCRUB_CFG.EN = 0 ∧ (upW [(HUB_SCRUB_CFG.EN, 1)]).get HUB_SCRUB_CFG.EN = 1 ∧ up.sramScrub = 0x10000000) ∧
    ([Agent.m0, .m1, .pe].filter (· ∈ (up.dirAt 5).queue ++ [Agent.m1]) = [.m1] ∧ (up.dirAt 5).queue ++ [] = []) ∧
    (up.get DDR_STAT.SELF_REFRESH = 0 ∧ up.ddrTop = 0x80000000 ∧ (upW [(DDR_TOP.TOP_MB, 0x900)]).ddrTop ≠ 0x80000000) := by decide +kernel

theorem wit_ScrubbingAndTheDirectoryKeepTheBytes_lines :
    (let h := { up with dir := [(5, { queue := [.m1], owed := some .m0 })] }
     (h.dirAt 5).owed = some .m0 ∧ (up.dirAt 5).owed = none ∧ [Agent.m0, .m1, .pe].filter (· ∈ ([Agent.m1] : List Agent)) = [.m1]) ∧
    (let h := { up with l2 := [(0x40, 7)] }
     oline h.l2 1 ≠ [] ∧ (∀ l ∈ [h.dc0, h.dc1, h.pec], oline l 1 = []) ∧ 1 * 64 + 64 ≤ 0x01000000) ∧
    (let h := upW [(CLK_GATE.EN, 0x3FFFFFF), (DDR_TOP.TOP_MB, 0x900)]
     h.blockOn 8 = true ∧ h.get DDR_STAT.SELF_REFRESH = 0 ∧ h.ddrTop ≠ 0x80000000) ∧ ({} : Hw).blockOn 8 = false := by decide +kernel

/-- A part whose Lane Array is on; queue 0 holds descriptor 0x1000, which reads zeros, in the mode of one group of 32 lanes. -/
def lanes (l : List (Fld × Nat)) : Hw :=
  { upW ([(CLK_GATE.EN, 0x3FFFFFF)] ++ l) with laneQ := [(0, { waiting := [⟨0x1000, []⟩] })] }

/-- A kernel of one group that runs in group 0, ended or not. -/
def running (ended : Bool) : Hw :=
  { lanes [] with laneQ := [(0, { kern := some ⟨0, 0, 0, [0], false, 0, 32, true, 9, 0, [], [], []⟩ })], laneG := [(0, { queue := some 0, ended := ended, dirty := [(0x40, 7)] })] }

theorem wit_KernelsAreQueuedDispatchedAndLoaded :
    (up.pwr.phase = .up ∧ up.pwr.sleep ≠ .sleep ∧ t0.tid = 0 ∧ (⟨.m0, 5⟩ : Access).tid ≠ 0 ∧ (5 : BitVec 7).toNat ≠ up.lqOwner 0) ∧
    (up.clusterIdle 0 = true ∧ (running true).clusterIdle 0 = false ∧ (2 : Word).toNat % 4 ≠ 3 ∧ (7 : Word).toNat % 4 = 3) ∧
    (up.groupExists 0 = true ∧ up.groupExists 1 = false ∧ (up.lq 0).waiting.length < 8 ∧
     8 ≤ ({ laneQ := [(0, { waiting := List.replicate 8 ⟨1, []⟩ })] : Hw }.lq 0).waiting.length) ∧
    ((lanes []).laneOn = true ∧ (lanes []).canDispatch 0 = true ∧ ((lanes []).lq 0).waiting = [⟨0x1000, []⟩]) ∧
    ((up.grp 0).queue = none ∧ tget none up.isl 0 = none ∧ (running true).laneOn = true) ∧
    (let h := upW [(LAC_LC_ISL_LEN.BYTES 0, 0x1000)]
     h.get (LAC_LC_ISL_LEN.BYTES 0) * 8 ≠ 0 ∧ h.get (LAC_LC_ISL_DST.OFS 0) * 8 + h.get (LAC_LC_ISL_LEN.BYTES 0) * 8 ≤ 0x8000) ∧
    { isl := [(0, some ⟨0x1000, 0, 16, 0⟩)] : Hw }.isl = [(0, some ⟨0x1000, 0, 16, 0⟩)] := by decide +kernel

/-- That part with a descriptor at 0x1000: ENTRY_PC, width, flags, gang mask and record address. -/
def described (pc : Word) (w fl gang : Byte) (rec : Word) : Hw :=
  { lanes [] with mem := cellsIn 0 [] (cellsAt 0x1000 (leBytes 4 pc.toNat ++ [w, fl, gang, 0] ++ zeros 4 ++ leBytes 4 rec.toNat ++ zeros 48)) }

/-- The descriptor bytes that queue 0 of a part reads. -/
def fetchedDesc (h : Hw) : List Byte := match (h.dmaRead (h.lqOwner 0) iniLane 0x1000 64).2 with
  | .ok b => b
  | .error _ => []

theorem wit_KernelsAreQueuedDispatchedAndLoaded_descriptors :
    ((described 0 32 4 0 0).canDispatch 0 = true ∧ 2 ≤ fieldB (fetchedDesc (described 0 32 4 0 0)) 5 1) ∧
    (∀ e ∈ [(8, 0, 0), (4, 0, 0), (8, 0, 4), (8, 3, 0), (8, 2, 0)],
      let b := fetchedDesc (described (BitVec.ofNat 32 e.1) 32 0 (BitVec.ofNat 8 e.2.1) (BitVec.ofNat 32 e.2.2))
      fieldB b 4 1 = modeWidth (up.lcMode 0) ∧ fieldB b 5 1 = 0 ∧ fieldB b 7 1 = 0 ∧ fieldB b 56 8 = 0 ∧ fieldB b 0 4 = e.1 ∧ fieldB b 6 1 = e.2.1 ∧ fieldB b 12 4 = e.2.2) ∧
    ((lanes []).dmaRead 0 iniLane 0xFFFFFFC0 64).2.isOk = false ∧ (lanes []).lcMode 1 = 0 ∧ (lanes [(LAC_LC_CFG.MODE 1, 1)]).lcMode 1 ≠ 0 ∧
    (let h := { lanes [] with laneQ := [(0, { kern := some ⟨0, 0, 0, [0, 4], true, 0, 32, true, 9, 0, [], [], []⟩, gangWait := true })] }
     (h.lq 0).gangWait = true ∧ ∀ g ∈ [0, 4], (h.grp g).queue = none ∧ h.clusterTested (g / 4) = false) ∧ { transit := some 4 : LcsMain }.transit ≠ none := by decide +kernel

theorem wit_KernelsAreQueuedDispatchedAndLoaded_waits :
    ({ transit := some 4, holds := true : LcsMain }.holds = true ∧ ({} : LcsMain).holds = false) ∧
    (let h := { lanes [] with xspi := { cmd := some 0 } }; h.windowHeld 0x40000000 64 = true ∧ h.windowHeld 0x1000 64 = false) ∧
    (let h := { lanes [(CMT_STATUS.STATE, cmtDraining), (CMT_DRAIN_CFG.MASK, 2)] with laneQ := [(0, { kern := some ⟨0, 0, 0, [0], true, 0, 32, true, 9, 0, [], [], []⟩, gangWait := true })] }
     h.drained 1 = true ∧ (h.lq 0).gangWait = true ∧ ∀ i, i < 4 → (h.grp (4 * (0 / 4) + i)).queue = none) ∧
    (lanes []).drained 1 = false ∧ ((lanes []).dmaRead 0 iniLane 0x1000 16).2.isOk = true ∧ ((lanes []).dmaRead 5 iniLane 0x1000 16).2.isOk = false := by decide +kernel

/-- A part with the Lane Array on whose AVS loop stands in mode `m` at `v` mV. -/
def volted (m v : Nat) (p : Pwr) (l : List (Fld × Nat)) : Hw :=
  { upW ([(CLK_GATE.EN, 0x3FFFFFF), (⟨loopAvs.base + 0xC, 0, 2⟩, m), (⟨loopAvs.base + 0x24, 0, 10⟩, 950), (⟨loopAvs.base + 0x20, 0, 10⟩, 650)] ++ l) with
    pwr := { p with phase := .up, vcmd := v, vdef := false } }

theorem wit_KernelsCompleteAndTheAvsLoopSteps_more :
    (let h := { running false with regs := (upW [(CLK_GATE.EN, 0x3FFFDFF)]).regs }
     h.laneOn = false ∧ (h.lq 0).kern.isSome = true ∧ (h.lq 0).gangWait = false ∧ (h.grp 0).ended = false) ∧
    (let h := { running false with laneQ := [(0, { kern := ((running false).lq 0).kern, abort := true })] }
     h.laneOn = true ∧ (h.lq 0).abort = true ∧ (h.lq 1).abort = false) ∧
    (({ gangWait := true } : LaneQ).gangWait = true ∧ up.opens t0 = true ∧ (5 : BitVec 7).toNat ≠ up.lqOwner 0) ∧
    ((volted 1 700 {} []).laneOn = true ∧ (volted 1 700 {} []).vcore = 700 ∧ ((700 + 5 : Nat) : Int) ≤ (volted 1 700 {} []).loopHigh loopAvs ∧
      (volted 1 700 {} []).loopLow loopAvs ≤ ((700 - 5 : Nat) : Int)) ∧
    ((volted 1 700 { avsHold := true, avsBack := some 800 } []).pwr.avsHold = true ∧ { avsBack := some 800 : Pwr }.avsBack = some 800) ∧
    (let h := { volted 2 800 {} [] with clk := { avsDiv := 4 } }; h.vcore < 950 ∧ 4 ≤ h.laneDiv ∧ h.loopMode loopAvs = 2 ∧ (h.loopPin loopAvs).toNat ≤ h.vcore) := by decide +kernel

theorem wit_KernelsCompleteAndTheAvsLoopSteps :
    (up.pwr.phase = .up ∧ up.pwr.sleep ≠ .sleep ∧ t0.tid = 0 ∧ (running true).laneOn = true) ∧
    (((running true).lq 0).kern = some ⟨0, 0, 0, [0], false, 0, 32, true, 9, 0, [], [], []⟩ ∧ ((running true).lq 0).gangWait = false) ∧
    (((running true).grp 0).ended = true ∧ ((running false).grp 0).ended = false ∧ ((running false).grp 0).halted = false ∧
     ((running false).grp 0).dirty = [(0x40, 7)]) ∧
    ((up.lq 0).kern = none ∧ up.clk.avsDiv = 2 ∧ { avsDiv := 4 : Clk }.avsDiv = 4) ∧
    (∀ m ∈ [0, 1, 2], (upW [(⟨loopAvs.base + 0xC, 0, 2⟩, m)]).loopMode loopAvs = m) ∧
    (let h := upW [(⟨loopAvs.base + 0x24, 0, 10⟩, 950), (⟨loopAvs.base + 0x20, 0, 10⟩, 650)]
     h.loopHigh loopAvs = 950 ∧ h.loopLow loopAvs = 650 ∧ h.loopHint loopAvs = 0 ∧ h.get PWR_STAT.AVS_ERR = 0 ∧ h.pwr.avsHold = false) ∧
    (upW [(PWR_STAT.AVS_ERR, 1)]).get PWR_STAT.AVS_ERR = 1 := by decide +kernel

/-- A part whose pool 2 is enabled with four buffers, metadata from 0x1000 and ring from 0x2000; tenant 0 may hold four. -/
def pooled (l : List (Fld × Nat)) : Hw :=
  { upW ([(CLK_GATE.EN, 0x3FFFFFF), (PE_POOL_CFG.EN 2, 1), (PE_POOL_CFG.EN_L 2, 1), (PE_POOL_CFG.LOG2SIZE_L 2, 6), (PE_POOL_NBUF.COUNT_L 2, 4), (PE_POOL_META.ADDR_L 2, 0x40),
      (PE_POOL_RING.ADDR_L 2, 0x80), (PE_Q_MAX.COUNT 0 2, 4), (PE_Q_MAX.COUNT_L 0 2, 4), (PE_POOL_MON.W 2, 8)] ++ l) with
    pools := [(2, { cache := [mkHandle 2 1 3 false] })] }

theorem wit_PoolsAllocateAndChargeBuffers :
    (up.pwr.phase = .up ∧ up.pwr.sleep ≠ .sleep ∧ up.poolOn 2 = false) ∧
    (let h := pooled []
     h.poolOn 2 = true ∧ h.get (PE_POOL_STAT.FAILED 2) = 0 ∧ h.get (PE_Q_USED.COUNT 0 2) < h.quotaMax 0 2 ∧ h.get (PE_POOL_STAT.INIT 2) = 0 ∧
     h.get ⟨PE_POOL_AUTH_STAT 2, 3, 1⟩ = 0 ∧ (h.pool 2).cache = [mkHandle 2 1 3 false] ∧ (h.pool 2).held = [] ∧ h.blockOn 0xA = true ∧
     ((h.setPool 2 { h.pool 2 with cache := [] }).metaOk 2 (hdlIndex (mkHandle 2 1 3 false))).2 = true ∧ h.get (PE_POOL_CFG.EN_L 2) = 1 ∧
     (h.pool 2).cache.length < h.get (PE_POOL_MON.W 2) ∧ h.get (PE_POOL_CFG.SPILL_EN_L 2) = 0) ∧
    (pooled [(PE_POOL_STAT.FAILED 2, 1)]).get (PE_POOL_STAT.FAILED 2) = 1 ∧
    (pooled [(PE_Q_USED.COUNT 0 2, 4)]).quotaMax 0 2 ≤ (pooled [(PE_Q_USED.COUNT 0 2, 4)]).get (PE_Q_USED.COUNT 0 2) ∧
    { pooled [] with pools := [] }.poolDry 2 = true ∧
    (let h := pooled [(PE_POOL_STAT.INIT 2, 1)]
     h.get (PE_POOL_STAT.INIT 2) = 1 ∧ h.dmaMapped 0 (h.metaAddr 2 0) 64 true = true ∧ h.dmaMapped 0 (h.ringAddr 2 0) 16 true = true ∧
     h.metaAddr 2 0 + 16 * 4 ≤ h.ringAddr 2 0) ∧
    (let h := pooled [(⟨PE_POOL_AUTH_STAT 2, 3, 1⟩, 1), (PE_POOL_RCOUNT.COUNT 2, 1)]
     h.get ⟨PE_POOL_AUTH_STAT 2, 3, 1⟩ = 1 ∧ h.get (PE_POOL_RCOUNT.COUNT 2) ≠ 0) := by decide +kernel

theorem wit_PoolsAllocateAndChargeBuffers_waits :
    (∀ h ∈ [{ pooled [] with pwr := { (pooled []).pwr with bermActive := true } }, pooled [(CLK_GATE.EN, 0x3FFFBFF)], (pooled []).setPool 2 { held := [⟨⟨.m1, 0⟩, 0, 0, .bus⟩] }],
      h.opens t0 = true ∧ h.busHeld .m0 = false ∧ (h.blockOn 0xA = false ∨ h.pwr.bermActive = true ∨ (h.pool 2).held ≠ [])) ∧
    ((pooled []).setPool 2 { held := [⟨t0, 0, 0, .bus⟩] }).busHeld .m0 = true ∧
    (let h := pooled [(⟨PE_POOL_AUTH_STAT 2, 3, 1⟩, 1)]
     h.opens t0 = true ∧ h.get ⟨PE_POOL_AUTH_STAT 2, 3, 1⟩ = 1 ∧ (h.pool 2).cache.length < h.get (PE_POOL_MON.W 2) ∧ h.get (PE_POOL_RCOUNT.COUNT 2) = 0 ∧ ∀ q : Fin 16, (h.pool q).held = []) ∧
    (let h := { pooled [(PE_POOL_STAT.INIT 2, 1)] with dir := [(0x40, { poisoned := true })] }
     h.get (PE_POOL_STAT.INIT 2) = 1 ∧ h.linePoisoned (h.metaAddr 2 0) 64 = true ∧ (pooled []).linePoisoned ((pooled []).metaAddr 2 0) 64 = false ∧ (pooled []).linePoisoned ((pooled []).ringAddr 2 0) 16 = false) ∧
    (let h := pooled [(PE_POOL_RCOUNT.COUNT 2, 3)]
     h.get (PE_POOL_RCOUNT.COUNT 2) ≠ 0 ∧ (h.dmaRead 0 iniPe (h.ringAddr 2 0) 4).2.isOk = true ∧ h.get (PE_POOL_RCOUNT.COUNT 2) < h.get (PE_POOL_NBUF.COUNT_L 2) ∧
     (h.dmaWrite 0 iniPe (h.ringAddr 2 0) (leBytes 4 5)).2 = none ∧ (h.pool 2).cache.getLast? = some (mkHandle 2 1 3 false)) ∧
    (let h := (pooled []).setPool 2 { cache := List.replicate 32 0 }; 32 ≤ (h.pool 2).cache.length ∧ h.get (PE_POOL_MON.W 2) + 8 < (h.pool 2).cache.length) ∧
    (pooled [(PE_POOL_RCOUNT.COUNT 2, 4)]).get (PE_POOL_NBUF.COUNT_L 2) ≤ (pooled [(PE_POOL_RCOUNT.COUNT 2, 4)]).get (PE_POOL_RCOUNT.COUNT 2) := by decide +kernel

/-- That part with buffer 3 allocated to tenant `owner` with `ref` references, in COUNT mode or not. -/
def held (count owner ref : Nat) (l : List (Fld × Nat)) : Hw :=
  { pooled ((PE_POOL_CFG.MODE_L 2, count) :: (PE_Q_USED.COUNT 0 2, 1) :: l) with
    mem := cellsIn 0 [] (cellsAt 0x1030 (metaBytes (mkHandle 2 1 3 false) true owner ref)), pools := [] }

theorem wit_HandleOperationsCheckThenAct :
    (up.pwr.phase = .up ∧ up.pwr.sleep ≠ .sleep ∧ t0.who = .m0 ∧ (up.checkHandle 0 0 (some 2)).2 ≠ 0) ∧
    (∀ e ∈ [(0, 1), (1, 1), (1, 2), (1, 255)], let h := held e.1 0 e.2 []
      (h.checkHandle 0 (mkHandle 2 1 3 false) (some 2)).2 = 0 ∧ (h.checkHandle 0 (mkHandle 2 1 3 false) (some 2)).1.get (PE_POOL_CFG.MODE_L 2) = e.1 ∧
      (h.checkHandle 0 (mkHandle 2 1 3 false) (some 2)).1.metaRef 2 3 = e.2 ∧ hdlPool (h.metaHandle 2 3) = 2 ∧ hdlIndex (h.metaHandle 2 3) = 3 ∧ (h.pool 2).cache.length < 32) ∧
    ((held 0 0 1 [(PE_Q_MAX.COUNT 5 2, 1), (PE_Q_MAX.COUNT_L 5 2, 1)]).get (PE_Q_USED.COUNT 5 2) < (held 0 0 1 [(PE_Q_MAX.COUNT 5 2, 1), (PE_Q_MAX.COUNT_L 5 2, 1)]).quotaMax 5 2 ∧
     (held 0 0 1 []).quotaMax 5 2 ≤ (held 0 0 1 []).get (PE_Q_USED.COUNT 5 2) ∧ (5 : BitVec 7).toNat ≠ (held 0 0 1 []).metaOwner 2 3) ∧
    ((held 0 0 1 []).get PE_FAULT_INFO.VALID = 0 ∧ (held 0 0 1 [(PE_FAULT_INFO.VALID, 1)]).get PE_FAULT_INFO.VALID = 1) := by decide +kernel

theorem wit_HandleOperationsCheckThenAct_waits :
    (∀ h ∈ [held 0 0 1 [(PE_POOL_STAT.INIT 2, 1)], held 0 0 1 [(CLK_GATE.EN, 0x3FFFBFF)], (held 0 0 1 []).setPool 2 { held := [⟨⟨.m1, 0⟩, 0, 0, .bus⟩] }], h.opens t0 = true ∧ h.peBusy 2 = true) ∧
    ((held 0 0 1 []).opens t0 = true ∧ (held 0 0 1 []).peBusy 2 = false ∧ ∀ q : Fin 16, ((held 0 0 1 []).pool q).held = []) ∧
    (let h := held 0 0 1 []
     (h.checkHandle 0 (mkHandle 2 1 3 false) (some 3)).2 = 1 ∧ (h.checkHandle 0 0 (some 0)).2 = 1 ∧ (h.checkHandle 0 (mkHandle 2 1 3 false + 4) (some 2)).2 = 2 ∧ (h.checkHandle 0 (mkHandle 2 1 4 false) (some 2)).2 = 2 ∧
     (h.checkHandle 0 (mkHandle 2 2 3 false) (some 2)).2 = 3 ∧ (h.checkHandle 5 (mkHandle 2 1 3 false) (some 2)).2 = 6) := by decide +kernel

/-- A part whose ADC core 0 is enabled, with these fields and this core state. -/
def sampled (l : List (Fld × Nat)) (x : AdcCore) : Hw := (upW ([(CLK_GATE.EN, 0x3FFFFFF), (ADC_A_CTL.EN_L 0, 1)] ++ l)).setAdc 0 x
/-- A pass of two slots, the second averaging two conversions. -/
def onePass (idx cnt : Nat) : AdcPass := { slots := [0x40, 0x40000], strm := false, idx := idx, cnt := cnt }

theorem wit_TriggersStartPassesAndConversionsYieldResults :
    (let h := sampled [] {}
     h.pwr.phase = .up ∧ h.get (ADC_A_CTL.EN_L 0) = 1 ∧ h.adcOn = true ∧ h.drained 0 = false ∧ (h.adc 0).regT = .none ∧ (h.adc 0).reg = none ∧ (h.adc 0).cut = false) ∧
    (sampled [(CLK_GATE.EN, 0)] {}).adcOn = false ∧ up.get (ADC_A_CTL.EN_L 0) ≠ 1 ∧
    (let x := (sampled [] { regT := .delay, injT := .delay }).adc 0; x.regT = .delay ∧ x.injT = .delay ∧ x.pd = false ∧ x.startup = false ∧ x.inj = none) ∧
    ((sampled [] { regT := .delay, pd := true }).adc 0).pd = true ∧
    (let h := sampled [(ADC_A_CTL.INJ_POLICY_L 0, 1)] { injT := .delay, reg := some (onePass 0 0) }
     h.get (ADC_A_CTL.INJ_POLICY_L 0) = 1 ∧ (h.adc 0).reg = some (onePass 0 0)) ∧
    (let x := (sampled [] { startup := true, regT := .ready, injT := .ready }).adc 0; x.startup = true ∧ x.injT = .ready ∧ x.inj = none) ∧
    (∀ e ∈ [(0, 0, true), (1, 0, false), (1, 1, true)], let p := onePass e.1 e.2.1; decide (2 ^ (p.slots.getD p.idx 0 / 2 ^ 18 % 16) ≤ p.cnt + 1) = e.2.2) ∧
    (let h := sampled [] { inj := some (onePass 1 1) }; (h.adc 0).inj = some (onePass 1 1) ∧ (h.adc 0).cut = false) ∧
    (let h := sampled [] { reg := some (onePass 1 1), fifo := List.replicate 16 5 }; 16 ≤ (h.adc 0).fifo.length ∧ (h.adc 0).inj = none) ∧
    (let h := sampled [(ADC_A_OWN.REG_OWNER_L 0, 5)] { fifo := [7] }; h.adcOwner 0 false = 5 ∧ (h.adc 0).fifo = [7] ∧ t0.tid = 0) := by decide +kernel

theorem wit_TriggersSelectTheirEventLine :
    (let h := { sampled [(ADC_A_REGCFG.TRIG_L 0, 3), (ADC_A_INJCFG.TRIG_L 0, 17), (AOUT_DRV_CFG.TRIG_L 0, 3)] {} with evLines := 4 + 2 ^ 16 }
     h.trigUp (h.get (ADC_A_REGCFG.TRIG_L 0)) = true ∧ h.trigUp (h.get (ADC_A_INJCFG.TRIG_L 0)) = true ∧ h.trigUp (h.get (AOUT_DRV_CFG.TRIG_L 0)) = true ∧ h.drained 0 = false) ∧
    (sampled [] {}).trigUp 0 = false := by decide +kernel

theorem wit_TriggersStartPasses_continue :
    (∀ x ∈ [(0, false), (1, true)], let h := sampled [(ADC_A_CTL.CONT_L 0, 1), (CMT_STATUS.STATE, if x.1 = 1 then cmtDraining else 0), (CMT_DRAIN_CFG.MASK, 1)] { reg := some (onePass 1 1) }
      h.drained 0 = x.2 ∧ h.get (ADC_A_CTL.CONT_L 0) = 1 ∧ h.adcOn = true ∧ (h.adc 0).cut = false ∧ (h.adc 0).startup = false ∧ (h.adc 0).injT ≠ .ready ∧ (h.adc 0).regT = .none) ∧
    ((sampled [] {}).opens t0 = true ∧ (sampled [(ADC_A_OWN.REG_OWNER_L 0, 5)] {}).adcOwner 0 false ≠ (6 : BitVec 7).toNat) ∧
    ((sampled [] { startup := true }).adc 0).startup = true := by decide +kernel

/-- A closed-over stream buffer with `k` sets of three slots. -/
def streamed (k : Nat) (done : List Word) : Hw :=
  sampled [(ADC_A_STRM_SETS.SETS_L 0, 4), (PE_POOL_META.ADDR_L 2, 0x40), (PE_POOL_AREA.ADDR_L 2, 0x800)]
    { buf := some { hdl := mkHandle 2 1 3 false, seqno := 9, dropped := 1, nslot := 3, tset := true, sets := k }, spare := some (mkHandle 2 1 2 false), done := done }

theorem wit_StreamsSensorsAndCalibrationFollowTheirRules :
    (∀ e ∈ [(3, 0), (4, 0), (4, 8)], let h := streamed e.1 (List.replicate e.2 5)
      h.pwr.phase = .up ∧ (h.adc 0).buf.isSome = true ∧ h.get (ADC_A_STRM_SETS.SETS_L 0) = 4 ∧ (h.adc 0).done.length = e.2 ∧ (h.adc 0).spare = some (mkHandle 2 1 2 false)) ∧
    (let h := streamed 4 []
     (h.dmaWrite 0 iniAdc (h.bufAddr (mkHandle 2 1 3 false)) (zeros 64)).2 = none ∧
     h.metaAddr (hdlPool (mkHandle 2 1 3 false)) (hdlIndex (mkHandle 2 1 3 false)) + 12 ≤ h.bufAddr (mkHandle 2 1 3 false)) ∧
    (let h := (upW [(CLK_GATE.EN, 0x3FFFFFF), (ADC_AIN_CFG.IEPE_EN_L 1, 1), (ADC_AIN_CFG.TEDS_AUTO_L 1, 1), (ADC_IEPE_BIAS.STATE 1, 1), (ADC_BST1_MON.VOUT, 240)]).setIepe 1 { band := 3, cnt := 7 }
     h.blockOn 0xB = true ∧ h.get (ADC_AIN_CFG.IEPE_EN_L 1) = 1 ∧ (h.iepeAt 1).wait = false ∧ h.get (ADC_IEPE_BIAS.STATE 1) = 1 ∧ (h.iepeAt 1).cnt = 7 ∧
     h.get (ADC_AIN_CFG.TEDS_AUTO_L 1) = 1) ∧
    ((up.setIepe 1 { wait := true }).iepeAt 1).wait = true ∧
    (let h := upW [(ADC_AIN_CFG.IEPE_EN_L 3, 1)]; h.get ADC_TEDS_STAT.BUSY = 0 ∧ h.get (ADC_AIN_CFG.IEPE_EN_L 3) = 1 ∧ (0x80000003 : Word).getLsbD 31 = true) ∧
    up.teds = none ∧ { up with teds := some (3, 128) }.teds = some (3, 128) ∧
    up.get ADC_CAL.LOADING = 0 ∧ (upW [(ADC_CAL.LOADING, 1)]).get ADC_CAL.LOADING = 1 ∧ up.lcs.cal0 = [] := by decide +kernel

theorem wit_StreamsSensorsAndCalibration_midSet :
    (let h := streamed 4 []
     let h := h.setAdc 0 { h.adc 0 with reg := some { onePass 1 0 with placed := true } }
     (∃ p, (h.adc 0).reg = some p ∧ p.placed = true ∧ p.idx ≠ 0) ∧ (h.adc 0).buf.isSome = true) ∧
    (let h := streamed 4 []
     (h.dmaWrite 0 iniAdc (h.bufAddr (mkHandle 2 1 3 false)) (strmHeader 0 { hdl := mkHandle 2 1 3 false, seqno := 9, dropped := 1, nslot := 3, tset := true, sets := 4 } false)).1.linePoisoned
       (h.metaAddr 2 3 + 8) 4 = false) ∧
    (let h := upW [(CLK_GATE.EN, 0x3FFFFFF), (ADC_AIN_CFG.IEPE_EN_L 1, 1)]; h.blockOn 0xB = true ∧ h.clocked = true ∧ h.opens t0 = true ∧ (h.setIepe 1 { band := 1, cnt := 7 }).iepeAt 1 = { band := 1, cnt := 7 }) ∧
    (0x46 : Byte) ≠ 0 := by
  refine ⟨⟨⟨{ onePass 1 0 with placed := true }, ?_, rfl, ?_⟩, ?_⟩, ?_, ?_, ?_⟩ <;> decide +kernel

/-- A part whose AOUT runs, channel 0 enabled with this state. -/
def driven (l : List (Fld × Nat)) (x : DrvCh) : Hw := (upW ([(CLK_GATE.EN, 0x3FFFFFF), (AOUT_DRV_CFG.EN_L 0, 1), (AOUT_CL_CFG.EN_L 0, 1)] ++ l)).setDrv 0 x

theorem wit_DrivesPlayTheirQueuesAndLoopsGuardTheirHeadroom :
    up.get (AOUT_DRV_CFG.EN_L 0) ≠ 1 ∧
    (let h := driven [] { next := some ⟨7, none⟩ }; h.aoutOn = true ∧ h.get (AOUT_DRV_CFG.EN_L 0) = 1 ∧ h.get (AOUT_DRV_CFG.SRC_L 0) = 0 ∧ (h.drvAt 0).next = some ⟨7, none⟩) ∧
    (let h := driven [(PE_POOL_CFG.EN_L 2, 1), (PE_POOL_NBUF.COUNT_L 2, 4), (PE_POOL_META.ADDR_L 2, 0x40)] { next := some ⟨7, some (mkHandle 2 1 3 false)⟩ }
     let h := { h with mem := cellsIn 0 [] (cellsAt 0x1030 (metaBytes (mkHandle 2 1 3 false) true 0 1)) }
     (h.checkHandle (h.get (AOUT_DRV_OWNER.TID_L 0)) (mkHandle 2 1 3 false) none).2 = 0 ∧ h.get (PE_POOL_CFG.MODE_L 2) = 0 ∧ (h.pool 2).cache.length < 32 ∧
     hdlPool (h.metaHandle 2 3) = 2 ∧ hdlIndex (h.metaHandle 2 3) = 3) ∧
    (∀ st ∈ [1, 2, 3], let h := driven [(AOUT_DRV_STAT.STATE 0, st)] {}; h.get (AOUT_DRV_STAT.STATE 0) = st ∧ (h.drvAt 0).next = none) ∧
    (let h := driven [(AOUT_DRV_CFG.SRC_L 0, 1), (AOUT_DRV_CFG.TAKE_LOCAL_L 0, 1), (TWIN_STAT.DRIVE_OWN, 1)] { next := some ⟨7, none⟩, rx := some 9 }
     h.get (AOUT_DRV_CFG.SRC_L 0) = 1 ∧ (h.drvAt 0).own = false ∧ h.get TWIN_STAT.DRIVE_OWN = 1 ∧ h.get (AOUT_DRV_CFG.TAKE_LOCAL_L 0) = 1 ∧ (h.drvAt 0).rx = some 9) ∧
    (driven [(AOUT_DRV_CFG.SRC_L 0, 2)] {}).get (AOUT_DRV_CFG.SRC_L 0) = 2 ∧
    (let h := driven [] { due := true, cur := some ⟨mkHandle 2 1 3 false, 4, 0⟩ }
     (h.drvAt 0).due = true ∧ (h.drvAt 0).cur.isSome = true ∧ (h.dmaRead 0 iniAout (h.bufAddr (mkHandle 2 1 3 false)) 4).2.isOk = true) ∧
    (let h := driven [] { due := true, q := [5] }; (h.drvAt 0).q = [5] ∧ (h.checkHandle 0 5 none).2 ≠ 0) ∧
    (∀ e ∈ [(0, 0, 0, 3), (1, 1, 0, 0)], let h := (driven [(AOUT_CL_STAT.HEADROOM 0, e.1), (AOUT_CL_STAT.FAULT_ACTIVE 0, e.2.1), (AOUT_CL_CFG.POLICY_L 0, 2)] {}).setCl 0 { retry := e.2.2.1, low := e.2.2.2, unmet := 3, ok := 15, dev := 15 }
      h.get (AOUT_CL_CFG.EN_L 0) = 1 ∧ h.get (AOUT_CL_STAT.HEADROOM 0) = e.1 ∧ h.get (AOUT_CL_STAT.FAULT_ACTIVE 0) = e.2.1 ∧ (h.cl 0).retry = e.2.2.1 ∧ (h.cl 0).low = e.2.2.2 ∧ h.get (AOUT_CL_CFG.MODE_L 0) = 0) ∧
    (let h := driven [(⟨loopBst2.base + 0xC, 0, 2⟩, 1), (AOUT_CL_CFG.MODE_L 0, 1), (loopBst2.fld 0x24, 200)] {}
     h.loopMode loopBst2 = 1 ∧ h.bst2Want = some 260 ∧ h.loopHigh loopBst2 = 200 ∧ h.bst2Loop.side ≠ 2) ∧
    (up.get (AOUT_CL_READBACK.I_RB 0) < 200 ∧ 200 ≤ (upW [(AOUT_CL_READBACK.I_RB 0, 40000)]).get (AOUT_CL_READBACK.I_RB 0)) := by decide +kernel

theorem wit_DrivesPlayTheirQueues_more :
    ((driven [] {}).trigUp ((driven [] {}).get (AOUT_DRV_CFG.TRIG_L 0)) = false ∧
     (let h := { driven [(AOUT_DRV_CFG.TRIG_L 0, 3), (AOUT_DRV_CFG.SRC_L 0, 2), (AOUT_DRV_CFG.TRACK_TX_L 0, 1), (TWIN_STAT.DRIVE_OWN, 1), (TWIN_CFG.EN, 1), (TWIN_STAT.LINK_UP, 1)] {} with evLines := 4 }
      h.trigUp (h.get (AOUT_DRV_CFG.TRIG_L 0)) = true ∧ h.get TWIN_STAT.DRIVE_OWN = 1 ∧ h.get (AOUT_DRV_CFG.TRACK_TX_L 0) = 1 ∧ h.linkUp = true)) ∧
    (let h := { driven [(CLK_GATE.EN, 0x3FFFBFF)] { due := true, q := [5] } with dir := [] }; h.aoutOn = true ∧ (h.drvAt 0).cur = none ∧ h.blockOn 0xA = false) ∧
    ((driven [] {}).opens t0 = true ∧ (driven [] { q := List.replicate 8 0 }).aoutOn = true ∧ 49000 < (49001 : Word).toNat % 65536 ∧ (49000 : Word).toNat % 65536 ≤ 49000) ∧
    (∀ v ∈ [199, 200, 201], let h := driven [(⟨loopBst2.base + 0xC, 0, 2⟩, 1), (AOUT_CL_CFG.MODE_L 0, 1), (loopBst2.fld 0x24, 200), (AOUT_BST2_MON.VOUT, v)] {}
      decide (h.loopHigh loopBst2 = (h.get AOUT_BST2_MON.VOUT : Nat)) = decide (v = 200) ∧ h.get (AOUT_CL_CFG.MODE_L 0) ≠ 0 ∧ h.loopMode loopBst2 = 1) := by decide +kernel

theorem wit_CurrentLoopsAreEvaluated :
    (let h := driven [(⟨loopBst2.base + 0xC, 0, 2⟩, 1), (AOUT_CL_CFG.MODE_L 0, 1), (loopBst2.fld 0x24, 200), (AOUT_BST2_MON.VOUT, 150)] {}
     h.get (AOUT_CL_CFG.MODE_L 0) ≠ 0 ∧ h.loopMode loopBst2 = 1 ∧ ¬ h.loopHigh loopBst2 ≤ (h.get AOUT_BST2_MON.VOUT : Nat) ∧ h.get AOUT_BST2_MON.ILIM = 0) ∧
    (driven [(AOUT_BST2_MON.ILIM, 1)] {}).get AOUT_BST2_MON.ILIM = 1 ∧ (driven [] {}).get (AOUT_CL_CFG.MODE_L 0) = 0 := by decide +kernel

/-- A part whose timers run. -/
def timed (l : List (Fld × Nat)) : Hw := upW ([(CLK_GATE.EN, 0x3FFFFFF), (TMR_GT_CTL.RUN 0, 1), (TMR_PT_CTL.RUN 0, 1)] ++ l)

theorem wit_TimersCountMatchCaptureAndPulse :
    (let h := timed []
     h.blockOn 0xD = true ∧ h.pwr.bermActive = false ∧ h.get (TMR_GT_CTL.RUN 0) = 1 ∧ h.tmrFrozen 0 = false ∧ h.get (TMR_GT_CFG.MODE_L 0) = 0 ∧
     h.get (TMR_PT_CTL.RUN 0) = 1 ∧ h.tmrFrozen 16 = false) ∧
    (∀ c ∈ [0, 5, 0xFFFFFFFF], (timed [(TMR_GT_COUNT.COUNT 0, c)]).get (TMR_GT_COUNT.COUNT 0) = c) ∧
    (let h := timed [(TMR_GT_CFG.MODE_L 0, 1), (TMR_GT_CFG.ONESHOT_L 0, 1)]; h.get (TMR_GT_CFG.MODE_L 0) = 1 ∧ h.get (TMR_GT_CFG.ONESHOT_L 0) = 1 ∧ h.get (TMR_GT_COUNT.COUNT 0) = 0) ∧
    (let h := timed [(TMR_GT_CMP0.VALUE 0, 6), (TMR_GT_COUNT.COUNT 0, 5)]; h.get (TMR_GT_CTL.CMP0_EN 0) = 1 ∧ h.get (TMR_GT_CMP0.VALUE 0) = h.get (TMR_GT_COUNT.COUNT 0) + 1) ∧
    (let h := timed [(TMR_GT_CTL.CAPEN 0, 1), (CLK_DIV.PER_DIV, 16), (TMR_GT_STAT.CAP 0, 1)]
     (upW [(GPIO_MUX.FN 0, 2)]).get (GPIO_MUX.FN 0) = 2 ∧ h.get (TMR_GT_CTL.CAPEN 0) = 1 ∧ h.get (TMR_GT_CFG.CAPSEL_L 0) = 0 ∧ h.get (TMR_GT_STAT.CAP 0) = 1) ∧
    (let h := (timed [(TMR_PT_PERIOD_ACT.VALUE 0, 10), (TMR_PT_COUNT.COUNT 0, 9), (TMR_PT_PERIOD.VALUE 0, 20)]).setPt 0 { raw := 1, wait := [(1, 1)] }
     h.get (TMR_PT_PERIOD_ACT.VALUE 0) ≤ h.get (TMR_PT_COUNT.COUNT 0) + 1 ∧ h.get (TMR_PT_CTL.HOLD 0) = 0 ∧ tget 0 (h.pt 0).wait 1 = 1 ∧ bitOf (h.pt 0).raw 0 = true) ∧
    (timed [(TMR_PT_CFG.MODE_L 0, 1)]).get (TMR_PT_CFG.MODE_L 0) = 1 ∧ (timed [(TMR_PT_CFG.COMP01_L 0, 1)]).get (TMR_PT_CFG.COMP01_L 0) = 1 := by decide +kernel

theorem wit_TimersCountMatchCaptureAndPulse_edges :
    (∀ e ∈ [(0, false), (1, true), (2, false), (2, true)],
      let h := { timed [(TMR_GT_CTL.CAPEN 0, 1), (CLK_DIV.PER_DIV, 16), (GPIO_MUX.FN 0, 2), (TMR_GT_CFG.CAPEDGE_L 0, e.1)] with clk := { tb := 1000, tbRun := true } }
      (h.get (TMR_GT_CFG.CAPEDGE_L 0) = 2 ∨ h.get (TMR_GT_CFG.CAPEDGE_L 0) = b2n e.2) ∧ h.get (GPIO_MUX.FN 0) = 2 ∧
      64 * ((2 + h.get (TMR_GT_CFG.FILT_L 0)) * h.get CLK_DIV.PER_DIV) ≤ 128 * h.clk.tb.toNat + h.clk.tbFrac.toNat) ∧
    (∀ w ∈ [0, 1, 2], tget 0 ((timed [(TMR_PT_CFG.COMP01_L 0, 1), (TMR_PT_DT_ACT.DT01 0, 2)]).setPt 0 { raw := 1, wait := [(0, w)] } |>.pt 0).wait 0 = w) := by decide +kernel

theorem wit_TimersTickAtTheirPrescaler :
    (let h := { timed [(TMR_GT_CFG.PRE_L 0, 2), (TMR_PT_CFG.PRE_L 0, 1)] with phase := [(0, 2), (16, 1)] }
     h.get (TMR_GT_CFG.PRE_L 0) ≤ h.tmrPhase 0 ∧ h.get (TMR_PT_CFG.PRE_L 0) ≤ h.tmrPhase 16 ∧ h.tmrCounts 0 = true) ∧
    (let h := timed [(TMR_GT_CFG.PRE_L 0, 2)]; h.tmrCounts 0 = true ∧ h.tmrPhase 0 < h.tmrPre 0) ∧ up.tmrCounts 0 = false ∧
    (let h := timed [(TMR_GT_CTL.CAPEN 3, 1), (TMR_GT_CTL.RUN 3, 1), (TMR_GT_CFG.CAPSEL_L 3, 1)]
     ∃ b, h.gtWatches 3 1 b = true) := by
  refine ⟨by decide +kernel, by decide +kernel, by decide +kernel, false, by decide +kernel⟩

theorem wit_TimerWritesAndTheTimebaseTakeEffect :
    (up.pwr.phase = .up ∧ up.pwr.sleep ≠ .sleep ∧ t0.tid = 0 ∧ up.tmrHolds 3 = false) ∧
    (upW [(TMR_GT_OWNER.TID_L 3, 5)]).get (TMR_GT_OWNER.TID_L 3) = 5 ∧
    (let h := { upW [(CMT_STATUS.STATE, cmtSwitching), (TMR_GT_CFG.PRE 3, 1)] with cmt := { up.cmt with captured := some [(TMR_GT_CFG 3, 4)], nextDom := 5 } }; h.tmrHolds 3 = true) ∧
    { up with clk := { up.clk with tbRun := true } }.clk.tbRun = true ∧
    (let h := { upW [(CLK_GATE.EN, 0x3FFFFFF), (TMR_TBS_CTL.ARM, 1), (TMR_TB_ALM_CTL.ARM, 1)] with clk := { up.clk with tbRun := true } }
     h.blockOn 0xD = true ∧ h.clk.tbRun = true ∧ h.get TMR_TBS_CTL.ARM = 1 ∧ h.get TMR_TB_ALM_CTL.ARM = 1 ∧ (∀ t, t < 20 → h.tmrHolds t = false)) := by decide +kernel

theorem wit_TimerWritesAndTheTimebaseTakeEffect_alarms :
    (∀ x ∈ [(true, SleepSt.run), (false, .sleep)], let h := { upW [(TMR_TB_ALM_CTL.ARM, 1), (TMR_TB_ALM_LO.TB, 900)] with clk := { tbRun := x.1, tbEntry := 1000, tb := 1000 }, pwr := { phase := .up, sleep := x.2 } }
      h.pwr.phase = .up ∧ h.get TMR_TB_ALM_CTL.ARM = 1 ∧ h.clk.tbRun = x.1 ∧ h.pwr.sleep = x.2 ∧
      h.get TMR_TB_ALM_LO.TB ≤ (128 * h.clk.tbEntry.toNat + h.clk.tbFrac.toNat + h.bak.retLsx * 3906250 + h.bak.retIrc * 16000) / 128) ∧
    (let h := { upW [(TMR_TB_ALM_CTL.ARM, 1), (TMR_TB_ALM_LO.TB, 1001)] with clk := { tbEntry := 1000 } }
     (128 * h.clk.tbEntry.toNat + h.clk.tbFrac.toNat + h.bak.retLsx * 3906250 + h.bak.retIrc * 16000) / 128 < h.get TMR_TB_ALM_LO.TB) ∧
    (let h := { upW [(TMR_TB_SET_LO.VALUE, 2000000), (CLK_DIV.PER_DIV, 16)] with clk := { tbRun := true, tb := 1000000, epochHi := some 2 } }
     h.opens t0 = true ∧ h.clk.tbRun = true ∧ (∀ k, h.clk.epochHi = some k → h.get TMR_TB_SET_LO.VALUE / 1000000 ≤ k) ∧ h.get TMR_TB_ALM_CTL.ARM = 0 ∧ h.get TMR_TBS_CTL.ARM = 0) := by
  refine ⟨by decide +kernel, by decide +kernel, by decide +kernel, by decide +kernel, ?_, by decide +kernel, by decide +kernel⟩
  intro k hk
  have hc : ({ tbRun := true, tb := 1000000, epochHi := some 2 } : Clk).epochHi = some k := hk
  cases hc
  decide +kernel

/-- A part whose serial blocks are clocked and enabled. -/
def wired (l : List (Fld × Nat)) : Hw :=
  upW ([(CLK_GATE.EN, 0x3FFFFFF), (UART_CFG.EN 0, 1), (UART_CFG.DATA 0, 8), (CAN_CTL.EN 0, 1), (SPI_CFG.EN 0, 1), (SPI_CFG.LEN 0, 7), (I2C_CFG.EN 0, 1),
    (GPIO_MUX.FN 1, 1), (GPIO_MUX.FN 3, 1), (GPIO_MUX.FN 25, 1), (GPIO_MUX.FN 28, 1), (GPIO_MUX.FN 30, 1), (GPIO_MUX.FN 35, 1), (GPIO_MUX.FN 36, 1), (GPIO_MUX.FN 58, 1), (GPIO_MUX.FN 59, 1)] ++ l)

theorem wit_UartSpiAndI2cMoveTheirCharacters :
    (let h := wired []
     h.pwr.phase = .up ∧ h.pwr.sleep ≠ .sleep ∧ h.pwr.polderLow = false ∧ h.blockOn 0xE = true ∧ h.get (uf UART_CFG.EN 0) = 1 ∧ h.blockOn 0x10 = true ∧
     h.blockOn 0x11 = true ∧ h.get (SPI_CFG.EN 0) = 1 ∧ h.get (I2C_CFG.EN 0) = 1 ∧ h.get (SPI_CFG.SLAVE 0) = 0 ∧ h.get (I2C_CFG.TARGET 0) = 0 ∧
     ∀ k ∈ [1, 3, 25, 28, 30, 35, 36, 58, 59], h.get (GPIO_MUX.FN k) = 1) ∧
    (({} : Hw).pwr.phase ≠ .up ∧ up.get (uf UART_CFG.EN 0) = 0) ∧
    (let h := (wired []).setUart 0 { tx := [1], rx := [2], recv := true, cur := some 3 }
     (h.uart 0).tx = [1] ∧ (h.uart 0).rx = [2] ∧ (h.uart 0).recv = true ∧ (h.uart 0).cur = some 3) ∧
    (let h := (wired []).setUart 0 { tx := List.replicate 32 1, rx := List.replicate 32 2 }; (h.uart 0).tx.length = 32 ∧ (h.uart 0).rx.length = 32) ∧
    (let h := (wired [(SPI_CFG.SLAVE 1, 1)]).setSpi 0 { tx := [4], rx := [5], cur := some 6 }
     (h.spi 0).tx = [4] ∧ (h.spi 0).rx = [5] ∧ (h.spi 0).cur = some 6 ∧ h.get (SPI_CFG.SLAVE 1) = 1) ∧
    (let h := (wired [(I2C_CFG.TARGET 1, 1)]).setI2c 0 { cmds := [0x401, 7], rx := [9] }
     (h.i2c 0).cmds = [0x401, 7] ∧ (h.i2c 0).rx = [9] ∧ h.get (I2C_CFG.TARGET 1) = 1) ∧
    (wired [(UART_TOUT.BITS 0, 9)]).get (uf UART_TOUT.BITS 0) ≠ 0 := by decide +kernel

theorem wit_UartSpiAndI2cMoveTheirCharacters_pins :
    ((wired []).opens t0 = true ∧ (wired []).opens dbgAcc = false ∧
     (let h := { up with pol := { run := .running } }; h.polRuns = true ∧ h.busHeld .polder = false) ∧ up.polRuns = false) ∧
    (let h := wired [(GPIO_MUX.FN 1, 0)]; h.get (GPIO_MUX.FN 1) ≠ 1 ∧ h.get (uf UART_CFG.EN 0) = 1) ∧
    (∀ x ∈ [27, 31], (((wired [(uf UART_CFG.FLOW 0, 1)]).setUart 0 { rx := List.replicate x 2, recv := true }).uart 0).rx.length = x) ∧
    (let h := (wired [(SPI_CFG.SLAVE 0, 1), (SPI_CFG.LSBF 0, 1), (SPI_CFG.CONT 0, 1)]).setSpi 0 { cur := none, sel := true }
     h.get (SPI_CFG.SLAVE 0) = 1 ∧ h.get (GPIO_MUX.FN 28) = 1 ∧ (h.spi 0).cur = none ∧ (h.spi 0).tx = [] ∧ h.get (SPI_CFG.LSBF 0) = 1 ∧ h.get (SPI_CFG.CONT 0) = 1) ∧
    (let h := (wired [(I2C_CFG.TARGET 0, 1), (I2C_CFG.ADDR 0, 0x48), (GPIO_MUX.FN 56, 1), (GPIO_MUX.FN 57, 1)]).setI2c 0 { cmds := [7] }
     h.get (I2C_CFG.TARGET 0) = 1 ∧ h.get (GPIO_MUX.FN 56) = 1 ∧ h.get (GPIO_MUX.FN 57) = 1 ∧ (h.i2c 0).tin = [] ∧ (h.i2c 0).tout = 0 ∧ h.get (I2C_CFG.ADDR10 0) = b2n false ∧
     (0x48 : BitVec 10).toNat % 128 = h.get (I2C_CFG.ADDR 0) % 128) ∧
    (∀ e ∈ [(0x100, false), (0x000, true), (0x000, false), (0x500, false)], let h := (wired []).setI2c 0 { cmds := [BitVec.ofNat 32 e.1], held := e.2 }
      (h.i2c 0).cmds = [BitVec.ofNat 32 e.1] ∧ (h.i2c 0).held = e.2 ∧ h.get (I2C_CFG.TARGET 0) = 0) ∧
    (let y := ((wired []).setI2c 0 { rx := [1, 2], tin := [3], tout := 2 }).i2c 0; y.rx = [1, 2] ∧ y.tin ≠ [] ∧ y.tout = 1 + 1 ∧ y.cmds = []) := by decide +kernel

theorem wit_CanAndXspiFollowTheirRules :
    (let h := wired [(CAN_TXREQ.BUF 0, 4), (CAN_CTL.NOMATCH 0, 1)]
     h.blockOn 0xF = true ∧ h.get (GPIO_MUX.FN 25) = 1 ∧ h.get (CAN_CTL.EN 0) = 1 ∧ h.get (CAN_ECR.STATE 0) = 0 ∧ h.get (CAN_CTL.MODE 0) = 0 ∧ h.canNext 0 = some 2 ∧ h.canFilter 0 5 = none ∧
     h.get (CAN_CTL.NOMATCH 0) = 1 ∧ (h.can 0).rxf = []) ∧
    (wired [(CAN_CTL.EN 0, 0)]).get (CAN_CTL.EN 0) ≠ 1 ∧
    (let h := wired [(CAN_ECR.STATE 0, 2), (CAN_CTL.AUTO_REC 0, 1)]; h.get (CAN_ECR.STATE 0) = 2 ∧ h.get (CAN_CTL.AUTO_REC 0) = 1) ∧
    (wired [(CAN_ECR.REC 0, 200)]).get (CAN_ECR.REC 0) = 200 ∧
    64 ≤ (((wired []).setCan 0 { rxf := List.replicate 64 [] }).can 0).rxf.length ∧
    (let h := { wired [] with xspi := { cmd := some 0x400000, polling := true } }
     h.blockOn 0x12 = true ∧ h.xspi.polling = true ∧ h.xspi.cmd = some 0x400000 ∧ bitOf 0 (h.get XSPI_POLLCFG.POLL_BIT) = decide (h.get XSPI_POLLCFG.POLL_RDY = 1)) ∧
    (let h := wired []; h.get XSPI_NEG_RESULT.LINK_FLOOR = 0 ∧ h.xspi.cmd = none ∧ h.windowWaits (64 * 0x01000000) = false ∧ h.xspi.lines = [] ∧ XSPI_ICMD.DTR.of 0 = 0) := by
  decide +kernel

theorem wit_CanBuffersOnTheBus :
    (let h := (wired [(CAN_TXREQ.BUF 0, 4)]).setCan 0 { bus := some 2, cancel := true }
     (h.can 0).bus = some 2 ∧ (h.can 0).cancel = true ∧ (h.rd (canBuf 0 2 4)).getLsbD 16 = false) ∧
    (let h := ((wired [(CAN_TXREQ.BUF 0, 4)]).wr (canBuf 0 2 4) 0x10000).setCan 0 { bus := some 2 }
     (h.rd (canBuf 0 2 4)).getLsbD 16 = true) ∧
    ((wired []).can 0).bus = none ∧ (wired []).canNext 0 = none ∧ (wired [(CAN_ECR.REC 0, 127)]).get (CAN_ECR.REC 0) ≤ 127 := by decide +kernel

theorem wit_CanAndXspi_waits :
    (∀ m ∈ [0, 1, 2, 3], (wired [(CAN_CTL.MODE 0, m)]).get (CAN_CTL.MODE 0) = m) ∧
    (let h := (wired [(CAN_TXREQ.BUF 0, 4)]).setCan 0 { busy := true, wait := true }; (h.can 0).wait = true ∧ (h.can 0).busy = true ∧ (h.can 0).bus = none) ∧
    (wired [(GPIO_MUX.FN 25, 0)]).get (GPIO_MUX.FN 25) ≠ 1 ∧
    (let h := { wired [(GPIO_BANK_STAT.PRESENT, 1)] with xspi := { cmd := some 0xF8000000, fifo := zeros 63 } }
     bitOf (h.get GPIO_BANK_STAT.PRESENT) 0 = true ∧ h.xspi.polling = false ∧ h.xspi.inq = [] ∧ XSPI_ICMD.WRITE.of 0xF8000000 ≠ 1 ∧ 64 - h.xspi.fifo.length < ((zeros 2).take (XSPI_ICMD.LEN.of 0xF8000000 + 1)).length) ∧
    ({ inq := [1] : Xspi }.inq ≠ [] ∧ (wired [(XSPI_NEG_RESULT.LINK_FLOOR, 1)]).get XSPI_NEG_RESULT.LINK_FLOOR = 1) := by decide +kernel

/-- A part whose Ethernet port 0 is up at 100 Mb/s, with pool 2 as `pooled` has it but with 512-byte buffers. -/
def linked (l : List (Fld × Nat)) : Hw :=
  (pooled ([(GPIO_BANK_STAT.PRESENT, 0xF), (ETH_CFG.EN 0, 1), (ETH_NEG_RESULT.LINK 0, 1), (ETH_NEG_RESULT.MODE 0, 4), (PE_POOL_CFG.LOG2SIZE_L 2, 9)] ++ l)).setEth 0 { mac := 4 }

/-- That part with buffer 3 allocated to tenant 0 and the bytes `bs` in it, its handle in queue `q` of port 0. -/
def queued (q : Nat) (bs : List Byte) (l : List (Fld × Nat)) : Hw :=
  { linked ((PE_Q_USED.COUNT 0 2, 1) :: l) with
    mem := cellsIn 0 [] (cellsAt 0x600 bs ++ cellsAt 0x1030 (metaBytes (mkHandle 2 1 3 false) true 0 1)), pools := []
    eths := [(0, { mac := 4, txq := [(q, [mkHandle 2 1 3 false])] })] }

/-- A transmit header: 20 bytes, with these FLAGS, TCI 5, TAG 7. -/
def txHead (fl : Byte) : List Byte := [20, 0, fl, 0, 5, 0, 7, 0] ++ zeros 8 ++ (List.range 20).map (BitVec.ofNat 8)

theorem wit_EthernetPortsNegotiateAndSend :
    (let h := linked []
     h.pwr.phase = .up ∧ h.pwr.sleep ≠ .sleep ∧ h.bistMutes (ETH_CFG 0) = false ∧ h.get (ETH_CFG.EN 0) = 1 ∧ h.get (ETH_CFG.EN 1) = 0 ∧ h.blockOn 0x13 = true ∧
     h.pwr.bermActive = false ∧ h.get (ETH_MDIO_STAT.BUSY 0) = 0 ∧ h.get (ETH_LF_CFG.EN 0) = 0 ∧ h.ethOffRate 0 = false ∧ h.drained 2 = false ∧ h.txPick 0 = none ∧
     h.shaped 0 6 = false ∧ h.shaped 0 7 = false) ∧
    ((linked [(ETH_NEG_RESULT.MODE 0, 5), (CLK_DIV.PER_DIV, 15)]).setEth 0 { mac := 5 }).ethOffRate 0 = true ∧
    (let h := linked [(ETH_TXQ_IDLESLOPE.CBS_EN_L 0 6, 1), (ETH_TXQ_IDLESLOPE.KBPS_L 0 6, 5000)]; h.get (ETH_TXQ_IDLESLOPE.CBS_EN_L 0 6) = 1 ∧ h.txq 0 6 = []) ∧
    (let h := linked [(ETH_LF_CFG.EN 0, 1), (ETH_MDIO_STAT.BUSY 0, 1)]; h.get (ETH_LF_CFG.EN 0) = 1 ∧ h.get (ETH_MDIO_STAT.BUSY 0) = 1) ∧
    (∀ fl ∈ [(1 : Byte), 2, 8], let h := queued 5 (txHead fl) []
      let a := h.handleAddr 0 (iniEth 0) 4 (mkHandle 2 1 3 false)
      h.txPick 0 = some 5 ∧ a.2 = some 0x600 ∧ (a.1.dmaRead 0 (iniEth 0) 0x600 16).2.toOption.map (fun hd => (fieldB hd 0 2, fieldB hd 2 1)) = some (20, fl.toNat) ∧
        (a.1.dmaRead 0 (iniEth 0) 0x610 20).2.toOption.map List.length = some 20) ∧
    (let h := (queued 5 [] []).setTxq 0 5 [0]; h.txPick 0 = some 5 ∧ (h.handleAddr 0 (iniEth 0) 4 0).2 = none) ∧
    (let h := (linked []).setEth 0 { tx := some ⟨5, 0, 1, 7, 9, 8, []⟩, mdio := some 0x1000, rxq := [(3, [7])], ts := [⟨7, 5, 9⟩], syncs := [⟨1, [], 0⟩] }
     (h.eth 0).tx = some ⟨5, 0, 1, 7, 9, 8, []⟩ ∧ (h.eth 0).mdio = some 0x1000 ∧ h.rxq 0 3 = [7] ∧ (h.eth 0).ts ≠ [] ∧ (h.eth 0).syncs ≠ []) := by
  decide +kernel

theorem wit_EthernetPortsNegotiateAndSend_more :
    ((linked []).opens t0 = true ∧ (linked []).opens dbgAcc = false) ∧
    (∀ u ∈ [true, false], let h := (linked [(ETH_LF_CFG.EN 0, 1)]).setEth 0 { up := u }; h.get (ETH_LF_CFG.EN 0) = 1 ∧ (h.eth 0).up = u) ∧
    (let h := linked [(ETH_NEG_RESULT.LINK 0, 0), (ETH_LF_CFG.MANUAL 0, 3)]; h.get (ETH_LF_CFG.EN 0) = 0 ∧ h.get (ETH_LF_CFG.MANUAL 0) = 3 ∧ h.get (ETH_NEG_RESULT.LINK 0) = 0) ∧
    (∀ c ∈ [(-5 : Int), 0, 5], let h := (queued 6 [] [(ETH_TXQ_IDLESLOPE.CBS_EN_L 0 6, 1), (ETH_TXQ_IDLESLOPE.KBPS_L 0 6, 5000)]).setCredit 0 6 c
      h.get (ETH_TXQ_IDLESLOPE.CBS_EN_L 0 6) = 1 ∧ h.get (ETH_TXQ_IDLESLOPE.KBPS_L 0 6) < 100000 ∧ (h.eth 0).mac = 4 ∧ h.credit 0 6 = c ∧ h.txq 0 6 ≠ [] ∧ (h.setTxq 0 6 []).credit 0 6 = c ∧ (h.setTxq 0 6 []).txq 0 6 = []) ∧
    ((linked [(ETH_NEG_RESULT.FLOOR 0, 1)]).get (ETH_NEG_RESULT.FLOOR 0) = 1 ∧ bitOf ((linked [(GPIO_BANK_STAT.PRESENT, 13)]).get GPIO_BANK_STAT.PRESENT) 1 = false ∧ (linked [(PE_POOL_CFG.LOG2SIZE_L 2, 9)]).blockOn 0xA = true) ∧
    (linked [(BIST_STAT.BUSY, 1), (BIST_STAT.TARGET, 8)]).bistMutes (ETH_CFG 0) = true := by decide +kernel

/-- A frame of 60 bytes from 2 to 1 with this EtherType and these bytes after it. -/
def frame (ty : List Byte) (l : List Byte) : List Byte := padTo 60 ([0, 0, 0, 0, 0, 1, 0, 0, 0, 0, 0, 2] ++ ty ++ l)

/-- A port whose rule 3 delivers EtherType 0x0800 from pool 2 to queue 4. -/
def ruled (l : List (Fld × Nat)) : Hw :=
  { linked ([(ETH_RULE_CTL.EN_L 0 3, 1), (ETH_RULE_CTL.M_ETYPE_L 0 3, 1), (ETH_RULE_MATCH.ETYPE_L 0 3, 0x800), (ETH_RULE_CTL.POOL_L 0 3, 2), (ETH_RULE_CTL.RXQ_L 0 3, 4),
    (ETH_PTP_CFG.SLAVE_L 0, 1)] ++ l) with
    mem := cellsIn 0 [] (cellsAt 0x1030 (metaBytes (mkHandle 2 1 3 false) false 0 1)), pools := [(2, { cache := [mkHandle 2 1 3 false] })] }

theorem wit_EthernetPortsClassifyAndDeliver :
    (let h := ruled []
     let f := h.ethParse 0 (frame [8, 0] [])
     let a := (h.inc (ETH_RULE_HITS.COUNT 0 3)).allocNow 2 0 false
     h.ethOn 0 = true ∧ h.ethOffRate 0 = false ∧ f = ⟨frame [8, 0] [], false, 1, 0x800, 14⟩ ∧ h.ptpExamine 0 f 0 = h ∧ (List.range 128).find? (fun j => h.ruleHolds 0 j f) = some 3 ∧
     h.get (ETH_RULE_CTL.DROP_L 0 3) = 0 ∧ hdlV a.2 = true ∧ a.1.poolSize (hdlPool a.2) = 512 ∧ (a.1.dmaWrite 0 (iniEth 0) (a.1.bufAddr a.2) (zeros 92)).2 = none ∧ h.rxq 0 4 = []) ∧
    (ruled [(ETH_RULE_CTL.DROP_L 0 3, 1)]).get (ETH_RULE_CTL.DROP_L 0 3) = 1 ∧
    (List.range 128).find? (fun j => (ruled []).ruleHolds 0 j ((ruled []).ethParse 0 (frame [8, 1] []))) = none ∧
    ((ruled []).ethParse 0 (frame [0x81, 0, 0x30, 5, 0x88, 8] [])) = ⟨frame [0x81, 0, 0x30, 5, 0x88, 8] [], true, 0x3005, 0x8808, 18⟩ ∧
    hdlV (({ ruled [] with pools := [] }.inc (ETH_RULE_HITS.COUNT 0 3)).allocNow 2 0 false).2 = false ∧
    (ruled [(PE_POOL_CFG.LOG2SIZE_L 2, 6)]).poolSize 2 < 92 ∧
    ((ruled [(ETH_NEG_RESULT.MODE 0, 5), (CLK_DIV.PER_DIV, 15)]).setEth 0 { mac := 5 }).ethOffRate 0 = true ∧ (ruled [(ETH_CFG.EN 0, 0)]).ethOn 0 = false ∧
    (let h := (ruled []).setEth 0 { syncs := [⟨0, zeros 10, 5⟩] }
     (ruled []).ptpType 0 ((ruled []).ethParse 0 (frame [0x88, 0xF7] [0x10])) = some 0 ∧ (ruled []).ptpType 0 ((ruled []).ethParse 0 (frame [0x88, 0xF7] [0x18])) = some 8 ∧
     h.get CLK_SRV_CFG.PORT_L = 0 ∧ h.get (ETH_PTP_CFG.SLAVE_L 0) = 1 ∧ h.get (ETH_PTP_CFG.PORTID_EN_L 0) = 0 ∧ (h.eth 0).syncs = [⟨0, zeros 10, 5⟩]) := by decide +kernel

/-- An island whose core runs and whose log holds `n` of four records, with these fields written. -/
def isle (n : Nat) (l : List (Fld × Nat)) : Hw :=
  { upW ([(POL_STAT.CORE_HELD, 0), (POL_LOG_CFG.EN, 1), (POL_LOG_RING.SIZE, 4), (POL_LOG_HEAD.ISEQ, 5 + n), (POL_LOG_TAIL.ISEQ, 5), (POL_WDP_CTL.EN, 1), (POL_ADC_CFG.EN_L, 1)] ++ l) with
    pol := { run := .running } }

theorem wit_PolderIslandScansTripsLogsAndHandsOver :
    (let h := isle 2 [(POL_TRIP_STAT.TRIPPED, 0), (POL_HAND.MODE, 0)]
     h.pwr.phase = .up ∧ h.pwr.sleep ≠ .sleep ∧ h.pwr.polderLow = false ∧ h.pol.run = .running ∧ h.get POL_STAT.CORE_HELD = 0 ∧ h.get POL_TRIP_STAT.TRIPPED = 0 ∧ h.get POL_HAND.MODE = 0 ∧
     h.get POL_WDP_CTL.EN = 1 ∧ h.get POL_TRIP_CFG.ON_WDP_L = 1 ∧ h.get POL_TRIP_CFG.ON_STALL_L = 1 ∧ h.get POL_ADC_CFG.EN_L = 1 ∧ h.bistRuns 0xA = false ∧ h.get POL_LOG_CFG.EN = 1 ∧
     h.get POL_WAKE_CFG.FALLING = 0 ∧ h.get POL_WAKE_CFG.EN = 0 ∧ h.drain = .idle ∧ h.get POL_TRIP_CFG.REL_SRC_L = 1) ∧
    (let h := up; h.get POL_TRIP_STAT.TRIPPED = 1 ∧ h.get POL_HAND.MODE = 1 ∧ h.get POL_STAT.CORE_HELD = 1 ∧ h.get POL_LOG_CFG.EN = 0 ∧ h.get POL_WDP_CTL.EN = 0 ∧ h.pol.run ≠ .running ∧
      h.get POL_ADC_CFG.EN_L = 0 ∧ h.get (POL_RULE_CFG.EN_L 0) = 0 ∧ h.get (POL_BQ_CFG.EN_L 0) = 0 ∧ h.get (POL_RULE_STAT.ACTIVE 0) = 0) ∧
    (let h := isle 4 []; h.get POL_LOG_RING.SIZE ≤ h.get POL_LOG_HEAD.ISEQ - h.get POL_LOG_TAIL.ISEQ ∧ h.get POL_LOG_CFG.WRAP = 0) ∧
    (isle 4 [(POL_LOG_CFG.WRAP, 1)]).get POL_LOG_CFG.WRAP = 1 ∧ (isle 1 [(POL_WAKE_CFG.EN, 1)]).get POL_WAKE_CFG.EN = 1 ∧
    (let h := isle 1 [(POL_RULE_ACTIVE.RULES, 8), (POL_RULE_CFG.TRIP_L 3, 1)]; bitOf (h.get POL_RULE_ACTIVE.RULES) 3 = true ∧ h.get (POL_RULE_CFG.TRIP_L 3) = 1) ∧
    (let h := { isle 1 [(POL_STAT.MAIN_UP, 1), (POL_LOG_CFG.DRAIN_EN, 1)] with drain := .retry }
     h.get POL_STAT.MAIN_UP = 1 ∧ h.get POL_LOG_CFG.DRAIN_EN = 1 ∧ h.get POL_LOG_HEAD.ISEQ ≠ h.get POL_LOG_TAIL.ISEQ ∧ h.drain = .retry ∧ h.appendQ.length < 64) ∧
    (let h := isle 1 [(POL_RULE_CFG.EN_L 2, 1), (POL_RULE_CFG.SRC_L 2, 28), (POL_RULE_CFG.TRIP_L 2, 1), (POL_BQ_CFG.EN_L 0, 1), (POL_TRIP_STAT.TRIPPED, 0)]
     h.get (POL_RULE_CFG.EN_L 2) = 1 ∧ h.ruleX 2 0 true = 8 ∧ h.ruleX 2 0 false = 0 ∧ h.ruleT 2 = 0 ∧ h.get (POL_RULE_STAT.COUNT 2) = 0 ∧ h.get (POL_RULE_CFG.PERSIST_L 2) = 0 ∧ h.get (POL_BQ_CFG.EN_L 0) = 1) ∧
    (isle 1 [(POL_RULE_CFG.PERSIST_L 2, 3)]).get (POL_RULE_CFG.PERSIST_L 2) = 3 ∧
    (let h := isle 1 [(POL_RULE_STAT.ACTIVE 4, 1), (POL_RULE_CFG.OUT_MODE_L 4, 1)]
     h.get (POL_RULE_STAT.ACTIVE 4) = 1 ∧ h.get POL_HAND.MODE = 1 ∧ h.get (POL_RULE_CFG.OUT_MODE_L 4) = 1 ∧ h.get (POL_RULE_CFG.OUT_PIN_L 4) = 0) ∧
    (isle 1 [(uf UART_CFG.EN 6, 1)]).get (uf UART_CFG.EN 6) = 1 ∧ ({ up with pwr := { up.pwr with polderLow := true } } : Hw).pwr.polderLow = true := by decide +kernel

theorem wit_PolderIslandScansTripsLogsAndHandsOver_more :
    ((isle 1 []).opens t0 = true ∧ (isle 1 []).busHeld .polder = false ∧ (isle 1 [(BIST_STAT.BUSY, 1), (BIST_STAT.TARGET, 0xA)]).bistRuns 0xA = true) ∧
    (∀ r ∈ [RunState.running, .waiting], let h := { isle 1 [(POL_WDP_COUNT.VALUE, 7)] with pol := { run := r } }
      h.pwr.polderLow = false ∧ h.pol.run = r ∧ h.pwr.phase ≠ .unpowered ∧ h.get POL_WDP_COUNT.VALUE = 7) ∧
    (∀ x ∈ [(PwrPhase.unpowered, true, 0), (.unpowered, false, 0), (.unpowered, true, 1)],
      let h := { isle 1 [(CLK_STAT.LSX_FAIL, x.2.2)] with pwr := { phase := x.1 }, bak := { lsxRun := x.2.1 }, pol := { run := .waiting } }
      h.pwr.phase = .unpowered ∧ h.bak.lsxRun = x.2.1 ∧ h.get CLK_STAT.LSX_FAIL = x.2.2 ∧ h.get (uf UART_CFG.EN 6) = 0 ∧ h.pol.run = .waiting ∧ h.wdpRuns = (!x.2.1 || x.2.2 == 1)) ∧
    (∀ lat ∈ [true, false], ({ isle 1 [] with clk := { tbRun := lat } } : Hw).clk.tbRun = lat) ∧
    (let h := { isle 0 [(POL_LOG_TAIL.ISEQ, 0xFFFFFFFF), (POL_LOG_HEAD.ISEQ, 1), (POL_LOG_RING.SIZE, 3), (POL_STAT.MAIN_UP, 1), (POL_LOG_CFG.DRAIN_EN, 1)] with logEra := 1 }
     h.get POL_LOG_HEAD.ISEQ < h.get POL_LOG_TAIL.ISEQ ∧ h.drain = .idle ∧ h.logEra = 1) ∧
    ((isle 1 [(POL_TRIP_CFG.ON_WDP_L, 0)]).get POL_TRIP_CFG.ON_WDP_L = 0 ∧ (isle 1 [(POL_HAND.MODE, 1)]).get POL_HAND.MODE = 1 ∧ (isle 1 [(POL_TRIP_STAT.TRIPPED, 1)]).get POL_TRIP_STAT.TRIPPED = 1) := by decide +kernel

/-- A part whose twin block is clocked and enabled, in state `st`. -/
def twin (st : Nat) (x : Twin) (l : List (Fld × Nat)) : Hw :=
  { upW ([(CLK_GATE.EN, 0x3FFFFFF), (TWIN_CFG.EN, 1), (TWIN_STAT.STATE, st), (TWIN_STAT.LINK_UP, 1)] ++ l) with twin := x }

theorem wit_TwinTrainsPairsAndElectsItsRole :
    (∀ st ∈ List.range 7, (twin st {} []).get TWIN_STAT.STATE = st) ∧
    (let h := twin 3 { ho := .asked 5000 false } []
     h.pwr.phase = .up ∧ h.pwr.sleep ≠ .sleep ∧ h.blockOn 0x15 = true ∧ h.get TWIN_CFG.EN = 1 ∧ h.get TWIN_STAT.LINK_UP = 1 ∧ h.get TWIN_STAT.PEER_NEW = 0 ∧ h.twin.ho = .asked 5000 false ∧
     h.get TWIN_STAT.ROLE_DRIVE = 0 ∧ h.get TWIN_STAT.DRIVE_OWN = 0) ∧
    ({} : Hw).blockOn 0x15 = false ∧
    (let h := twin 4 { hb := some (0, 0), miss := 2, leave := true, armed := some 5000 } [(TWIN_STAT.PAIRED, 1), (TWIN_STAT.IN_SYNC, 1), (TWIN_STAT.HB_LOST, 1), (TWIN_STAT.ROLE_DRIVE, 1), (TWIN_STAT.DRIVE_OWN, 1)]
     h.twin.hb ≠ none ∧ h.twin.miss = 2 ∧ h.get TWIN_STAT.PAIRED = 1 ∧ h.get TWIN_STAT.IN_SYNC = 1 ∧ h.get TWIN_STAT.HB_LOST = 1 ∧ h.get TWIN_STAT.ROLE_DRIVE = 1 ∧ h.twin.armed = some 5000 ∧
     h.clk.tb.toNat ≤ 7000) ∧
    (let h := twin 1 { peer := some ⟨3, 7, 0, false, false⟩, train := .prbs, lanes := 3, mode := 6 } [(TWIN_STAT.PEER_NEW, 1)]
     h.twin.peer = some ⟨3, 7, 0, false, false⟩ ∧ h.get TWIN_STAT.PEER_NEW = 1 ∧ (h.tallyAdvance 2 3 ⟨0, false, false⟩).2 = 0 ∧ h.twin.train = .prbs ∧ h.twin.mode = 6 ∧ h.get TWIN_LINK.FLOOR = 0 ∧
     h.get TWIN_BOUND_LO.SERIAL = 0 ∧ h.get TWIN_PEER_SERIAL_LO.SERIAL = 0) ∧
    ((twin 1 {} [(LCS_TALLY.VALUE 2, 4)]).tallyAdvance 2 3 ⟨0, false, false⟩).2 ≠ 0 ∧ (twin 1 {} [(TWIN_LINK.FLOOR, 7)]).get TWIN_LINK.FLOOR = 7 ∧
    (twin 1 {} [(TWIN_BOUND_LO.SERIAL, 9)]).get TWIN_BOUND_LO.SERIAL = 9 ∧ (twin 1 {} [(TWIN_PEER_SERIAL_LO.SERIAL, 9)]).get TWIN_PEER_SERIAL_LO.SERIAL = 9 ∧
    (twin 5 {} [(TWIN_CFG.ISO_CLAIM, 1)]).get TWIN_CFG.ISO_CLAIM = 1 := by decide +kernel

theorem wit_TwinTrainsPairsAndElectsItsRole_more :
    (∀ t ∈ [TwinTrain.align, .prbs, .retry], (twin 1 { train := t, lanes := 3 } []).twin.train = t) ∧
    (let h := twin 1 { train := .align, lanes := 3 } [(TWIN_LINK.CEIL, 4)]; h.twin.lanes = 3 ∧ min (h.get TWIN_LINK.CEIL) 6 = 4 ∧ h.twin.lanes &&& 2 = 2) ∧
    (∀ n ∈ [0, 1, 64], (twin 2 { claim := .arbitration n } [(SYS_SERIAL_LO.SERIAL, 5)]).twin.claim = .arbitration n) ∧
    (let h := twin 2 { claim := .guard } [(SYS_SERIAL_LO.SERIAL, 5)]
     bitOf (h.get SYS_SERIAL_LO.SERIAL + 2 ^ 32 * h.get SYS_SERIAL_HI.SERIAL) 0 = true ∧ bitOf (h.get SYS_SERIAL_LO.SERIAL + 2 ^ 32 * h.get SYS_SERIAL_HI.SERIAL) 1 = false ∧
      h.get TWIN_STAT.STATE = 2 ∧ h.twin.claim = .guard ∧ h.scanDrive 5 = none) ∧
    (∀ e ∈ [TwinHo.asked 6000 true, .released 6000, .none], (twin 4 { ho := e } []).twin.ho = e) ∧
    (twin 1 {} [(TWIN_STAT.PAIRED, 0)]).get TWIN_STAT.PAIRED = 0 ∧ (twin 1 {} [(TWIN_STAT.LINK_UP, 0)]).get TWIN_STAT.LINK_UP = 0 ∧ (twin 1 {} [(TWIN_CFG.EN, 0)]).get TWIN_CFG.EN = 0 := by decide +kernel

theorem wit_TwinMirrorsLocksAndMessages_more :
    (let h := held 0 0 1 [(TWIN_MSG_CFG.EN_L, 1)]; h.blockOn 0xA = true ∧ h.twin.msgNew = [] ∧ ¬ (h.linkUp = true ∧ h.get TWIN_STAT.PAIRED = 1) ∧ (h.handleAddr 0 iniTwin 4 (mkHandle 2 1 3 false)).2 ≠ none) ∧
    (let h := { held 0 0 1 [(TWIN_MSG_CFG.EN_L, 1), (CLK_GATE.EN, 0)] with twin := { msgNew := [5] } }; h.blockOn 0xA = false ∧ h.twin.msgTx = [] ∧ h.twin.msgNew = [5]) ∧
    (let h := twin 4 { msgTx := List.replicate 9 1, msgNew := List.replicate 7 2 } [(TWIN_MSG_CFG.EN_L, 1)]; 16 ≤ h.twin.msgTx.length + h.twin.msgNew.length) ∧
    (let h := twin 3 {} [(TWIN_MW_CFG.EN_L 2, 1), (TWIN_MW_STAT.BUSY 2, 1)]; h.get (TWIN_MW_STAT.BUSY 2) = 1) ∧
    (let h := twin 4 { mir := [(2, some ⟨5, 1, 64, 0, 64, 0xC000, 0, true⟩)] } [(TWIN_MW_CFG.EN_L 2, 1)]; h.twinMir 2 = some ⟨5, 1, 64, 0, 64, 0xC000, 0, true⟩) ∧
    (let h := held 0 0 1 [(TWIN_MSG_CFG.EN_L, 1)]; 0 ∈ List.range 1 ∧ (h.dmaRead 0 iniTwin (h.bufAddr (mkHandle 2 1 3 false)) 8).2 = .ok (zeros 8)) ∧
    (let l : List Byte := zeros 16; l.length = 8 * 2) := by decide +kernel

theorem wit_TwinMirrorsLocksAndMessages :
    (let h := twin 3 { msgRx := [7], pub := [(2, some ⟨0x4000, 64, 0, 1, zeros 64⟩)] } [(TWIN_MW_CFG.EN_L 2, 1), (TWIN_MW_CUR.GEN 2, 5), (TWIN_MSG_CFG.EN_L, 1)]
     h.get (TWIN_MW_CFG.EN_L 2) = 1 ∧ h.get (TWIN_MW_STAT.BUSY 2) = 0 ∧ h.drained 4 = false ∧ h.get (TWIN_MW_CUR.GEN 2) = 5 ∧ h.get TWIN_MSG_CFG.EN_L = 1 ∧ h.twin.msgTx = [] ∧ h.twin.msgRx = [7] ∧
     h.bistMutes TWIN_MSG_POP = false ∧ h.twinPub 2 = some ⟨0x4000, 64, 0, 1, zeros 64⟩ ∧ (h.handleAddr 0 iniTwin 4 3).2 = none) ∧
    (let h := held 0 0 1 [(TWIN_MSG_CFG.EN_L, 1), (TWIN_STAT.LINK_UP, 1), (TWIN_STAT.PAIRED, 1)]
     let a := h.handleAddr 0 iniTwin 4 (mkHandle 2 1 3 false)
     a.2 = some 0xC0 ∧ a.1.get TWIN_STAT.LINK_UP = 1 ∧ a.1.get TWIN_STAT.PAIRED = 1 ∧ a.1.twin.msgTx = [] ∧ h.bufLen (mkHandle 2 1 3 false) ≤ 16384) ∧
    (let h := twin 4 { mir := [(2, some ⟨5, 1, 0, 0xFFFFFFFF, 64, 0xC000, 0, false⟩)], msgIn := some ⟨1, some 5, 0, 4⟩ } [(TWIN_MW_CFG.EN_L 2, 1), (TWIN_MSG_CFG.EN_L, 1)]
     h.blockOn 0x15 = true ∧ h.get TWIN_STAT.LINK_UP = 1 ∧ h.twinMir 2 = some ⟨5, 1, 0, 0xFFFFFFFF, 64, 0xC000, 0, false⟩ ∧ (h.dmaWrite 0 iniTwin 0xC000 [1]).2 = none ∧
     h.twin.msgIn = some ⟨1, some 5, 0, 4⟩ ∧ h.twin.msgRx = []) ∧
    (let h := twin 4 {} [(TWIN_MW_CUR.GEN 2, 5), (TWIN_MW_STAT.CUR_BANK 2, 1), (TWIN_MW_LOCKSTAT.LOCKED 2, 1)]
     h.get (TWIN_MW_CUR.GEN 2) ≠ 0 ∧ h.get (TWIN_MW_STAT.CUR_BANK 2) = 1 ∧ h.get (TWIN_MW_LOCKSTAT.LOCKED 2) = 1 ∧ h.get (TWIN_MW_LOCKSTAT.LBANK 2) = 0) ∧
    (let a := (pooled []).allocNow 2 0 false; hdlV a.2 = true ∧ a.1.poolSize (hdlPool a.2) = 64) ∧ hdlV ((upW []).allocNow 2 0 false).2 = false := by decide +kernel

/-- A part whose commit engine is in STATE `n` with the commit `c`. -/
def committing (n : Nat) (c : Cmt) (l : List (Fld × Nat)) : Hw := { upW ((CMT_STATUS.STATE, n) :: l) with cmt := c }

/-- A commit that captured the register words that `l` leaves. -/
def capturing (l : List (Fld × Nat)) : Cmt := { captured := some (upW l).regs }

theorem wit_CommitsArmValidateAndSwitch_runs :
    ((committing 0 {} []).pwr.phase = .up ∧ (committing 0 {} []).pwr.sleep ≠ .sleep ∧ (committing 0 {} []).cmt.captured = none ∧ (committing 5 (capturing []) []).cmt.captured ≠ none) ∧
    ((rowOf (TMR_GT_CFG 3)).map (fun e => (e.2, e.1.sh != 0, e.1.dom)) = some (false, true, 5) ∧ (rowOf (TEN_RGN_BASE 0 1)).map (fun e => (e.2, e.1.sh != 0, e.1.dom)) = some (false, true, 1) ∧
      (rowOf POL_ADC_CFG).map (fun e => (e.2, e.1.sh != 0, e.1.dom)) = some (false, true, 7)) ∧
    (committing 3 {} []).get CMT_STATUS.STATE = 3 ∧ ({} : Hw).pwr.phase ≠ .up ∧
    (let h := committing 5 { capturing [] with nextDom := 5 } []
     h.get CMT_STATUS.STATE = 5 ∧ (h.switchDom h.cmt.nextDom).cmt.nextDom ≤ 7) ∧
    (let h := committing 5 { capturing [] with nextDom := 7 } []
     7 < (h.switchDom h.cmt.nextDom).cmt.nextDom ∧ (h.switchDom h.cmt.nextDom).cmt.heldWr = []) ∧
    (let h := committing 4 { capturing [] with drain := true } []
     h.get CMT_STATUS.STATE = 4 ∧ h.drainIdle = true ∧ (100#10).toNat ≤ h.get CMT_DRAIN_CFG.TIMEOUT ∧ ¬ (101#10).toNat ≤ h.get CMT_DRAIN_CFG.TIMEOUT ∧ h.cmt.captured ≠ none ∧ h.cmt.heldWr = []) ∧
    (let h := { committing 4 (capturing []) [] with eths := [(0, { tx := some ⟨5, 0, 1, 7, 9, 8, []⟩ })] }
     h.drainIdle = false ∧ h.cmt.captured ≠ none) := by decide +kernel

theorem wit_CommitsArmValidateAndSwitch_copies :
    ((committing 0 {} []).opens t0 = true ∧ (committing 0 {} []).opens dbgAcc = false) ∧
    (let h := committing 5 { capturing [] with nextDom := 5, words := [TMR_GT_CFG 3], rewritten := 0x10, heldWr := [] } [(CMT_STAGED.DOMAIN, 0x10)]
     h.cmt.words.contains (TMR_GT_CFG 3) = true ∧ h.cmt.words.contains (TMR_GT_CFG 4) = false ∧ bitOf h.cmt.rewritten 4 = true ∧ bitOf (h.get CMT_STAGED.DOMAIN) 4 = true ∧ h.cmt.captured ≠ none ∧ h.cmt.heldWr = []) ∧
    (let c : Cmt := { capturing [] with heldWr := [(5, t0, TMR_GT_CFG 0, 1)] }; ∀ e ∈ c.heldWr, e.1 = 5) := by decide +kernel

/-- A commit that captured the words that `l` leaves passes the checks of TEN where `l` writes nothing there and the queues' lane memory is in order. -/
theorem ten_ok (l : List (Fld × Nat)) (hl : (upW l).regs.all (fun e => e.1 / 0x10000 != 0x2005) = true)
    (hq : ∀ q, q < 16 → ¬ (committing 3 (capturing l) []).cap (LAC_Q_LMEM.LIMIT q) < (committing 3 (capturing l) []).cap (LAC_Q_LMEM.BASE q)) :
    (committing 3 (capturing l) []).cmtCheck 1 = none := ten_passes rfl hl hq

theorem wit_CommitsArmValidateAndSwitch_pass : ∀ d ∈ [1, 2, 3, 4, 5, 6, 7], (committing 3 (capturing []) []).cmtCheck d = none := by
  have h1 := ten_ok [] (by decide +kernel) (by decide +kernel)
  have h2 : (committing 3 (capturing []) []).cmtCheck 2 = none := pools_pass (m := (upW []).regs) rfl (by decide +kernel) (by decide +kernel)
  have h3 : ∀ d ∈ [3, 4, 5, 6, 7], (committing 3 (capturing []) []).cmtCheck d = none := by decide +kernel
  exact List.forall_mem_cons.2 ⟨h1, List.forall_mem_cons.2 ⟨h2, h3⟩⟩

theorem wit_CommitsArmValidateAndSwitch_checks :
    (let h := committing 3 (capturing [(TEN_RGN_BASE.ADDR 0 1, 5), (TEN_RGN_LIMIT.ADDR 0 1, 4)]) []
     h.cap (TEN_RGN_LIMIT.ADDR 0 1) < h.cap (TEN_RGN_BASE.ADDR 0 1) ∧ (∀ i, i < 1 → ¬ h.cap (TEN_RGN_LIMIT.ADDR (i / 8) (i % 8)) < h.cap (TEN_RGN_BASE.ADDR (i / 8) (i % 8))) ∧
     h.cmtCheck 1 ≠ none ∧ h.cmt.heldWr = []) ∧
    (let h := committing 3 (capturing [(LAC_AVS_HIGH.MV, 3), (LAC_AVS_LOW.MV, 9)]) []
     h.cap LAC_AVS_HIGH.MV < h.cap LAC_AVS_LOW.MV ∧ h.cmtCheck 4 ≠ none) ∧
    (let h := committing 3 (capturing [(POL_THR_HIGH.V, 0xFFFF)]) []
     sgn 16 (h.cap POL_THR_HIGH.V) < sgn 16 (h.cap POL_THR_LOW.V) ∧ h.cmtCheck 7 ≠ none) ∧
    (let h := committing 3 (capturing [(POL_ADC_CFG.LEN, 8), (POL_BQ_CFG.INPUT 3, 8)]) []
     sgn 16 (h.cap POL_THR_LOW.V) ≤ sgn 16 (h.cap POL_THR_HIGH.V) ∧ h.cap POL_ADC_CFG.LEN ≤ h.cap (POL_BQ_CFG.INPUT 3) ∧ ∀ c, c < 3 → h.cap (POL_BQ_CFG.INPUT c) < h.cap POL_ADC_CFG.LEN) := by decide +kernel

theorem wit_CommitsArmValidateAndSwitch_lmem :
    let h := committing 3 (capturing [(LAC_Q_LMEM.BASE 15, 9), (LAC_Q_LMEM.LIMIT 15, 7)]) []
    h.cap (LAC_Q_LMEM.LIMIT 15) < h.cap (LAC_Q_LMEM.BASE 15) ∧ (∀ i, i < 15 → ¬ h.cap (LAC_Q_LMEM.LIMIT i) < h.cap (LAC_Q_LMEM.BASE i)) ∧
    (∀ i, i < 1024 → ¬ h.cap (TEN_RGN_LIMIT.ADDR (i / 8) (i % 8)) < h.cap (TEN_RGN_BASE.ADDR (i / 8) (i % 8))) :=
  ⟨by decide +kernel, by decide +kernel, ten_in_order (m := (upW [(LAC_Q_LMEM.BASE 15, 9), (LAC_Q_LMEM.LIMIT 15, 7)]).regs) rfl (by decide +kernel)⟩

theorem wit_CommitsArmValidateAndSwitch_pools :
    let h := committing 3 (capturing [(PE_POOL_CFG.EN 3, 1)]) []
    h.cmtCheck 1 = none ∧ h.cmtCheck 2 ≠ none :=
  ⟨ten_ok _ (by decide +kernel) (by decide +kernel), by decide +kernel⟩

/-- An FSD request with this SYNC, OP and address, its CHK right or wrong. -/
def fsdReq (sync op a : Nat) (ok : Bool) : BitVec 40 :=
  BitVec.ofNat 40 (sync * 2 ^ 36 + op * 2 ^ 34 + a / 4 * 16 + (fsdChk (BitVec.ofNat 32 (op * 2 ^ 30 + a / 4)) + b2n !ok) % 16)

/-- An FSD data frame with its CRC right or wrong. -/
def fsdWord (v : Nat) (ok : Bool) : BitVec 40 := BitVec.ofNat 40 (v * 256 + (fsdCrc (BitVec.ofNat 32 v) + b2n !ok) % 256)

/-- A part with DBGACC in the instruction register and CORE_EN high. -/
def probed (l : List (Fld × Nat)) : Hw := { upW l with dbg := { ir := 0x10 }, pwr := { phase := .up, coreEn := true } }

theorem wit_DebugPortsSelfTestAndBallsAct_ports :
    (let h := probed [(LCS_STAT.DBG_PERM, 15), (TWIN_STAT.STATE, 3)]
     h.pwr.phase = .up ∧ h.pwr.sleep ≠ .sleep ∧ h.dbg.ir = 0x10 ∧ h.pwr.coreEn = true ∧ bitOf (h.get LCS_STAT.DBG_PERM) 0 = true ∧ h.get TWIN_STAT.STATE = 3 ∧
     ((h.region 0x10000040).device = false ∧ h.windowWaits 0x10000040 = false ∧ (h.dmaRead 0 iniDebug 0x10000040 4).2 = .ok [0, 0, 0, 0] ∧ (h.dmaWrite 0 iniDebug 0x10000040 [1, 2, 3, 4]).2 = none) ∧
     ((h.region 0xF8000000).device = false ∧ (h.dmaRead 0 iniDebug 0xF8000000 4).2 ≠ .ok [0, 0, 0, 0] ∧ (h.dmaWrite 0 iniDebug 0xF8000000 [1, 2, 3, 4]).2 ≠ none)) ∧
    (let h := { probed [(LCS_STAT.DBG_PERM, 15)] with xspi := { cmd := some 0 } }
     (h.region 0x40000000).device = false ∧ h.windowWaits 0x40000000 = true) ∧
    (let q := fsdReq 0xB 1 0x10000040 true
     (q.extractLsb' 34 2).toNat = 1 ∧ (q.extractLsb' 4 30).toNat * 4 = 0x10000040 ∧ q.extractLsb' 36 4 = 0xB ∧ (q.extractLsb' 0 4).toNat = fsdChk (q.extractLsb' 4 32)) ∧
    (let q := fsdReq 0xB 2 0x10000040 false
     (q.extractLsb' 34 2).toNat = 2 ∧ (q.extractLsb' 0 4).toNat ≠ fsdChk (q.extractLsb' 4 32)) ∧
    (let w := fsdWord 5 true
     (w.extractLsb' 0 8).toNat = fsdCrc (w.extractLsb' 8 32)) ∧
    (let w := fsdWord 5 false
     (w.extractLsb' 0 8).toNat ≠ fsdCrc (w.extractLsb' 8 32)) ∧
    (bitOf ((probed []).get LCS_STAT.DBG_PERM) 0 = false ∧ bitOf ((probed []).get LCS_STAT.DBG_PERM) 3 = false ∧ (probed []).get LCS_STATE.STATE = 1) := by decide +kernel

theorem wit_DebugPortsSelfTestAndBallsAct_halts :
    (let h := { upW [(DBG_C_REGSEL.NUM 0, 31), (DBG_C_REGSEL.NUM 1, 63), (DBG_C_REGSEL.NUM 2, 129), (DBG_STAT.ATTACHED, 1)] with
       m0 := { run := .halted }, m1 := { run := .waiting }, pwr := { phase := .up, sleep := .sleepEmulated, pending := some (0xC, false) } }
     (h.coreAt 0).run = .halted ∧ (h.coreAt 1).run = .waiting ∧ h.get (DBG_C_REGSEL.NUM 0) < 32 ∧ 32 ≤ h.get (DBG_C_REGSEL.NUM 1) ∧ h.get (DBG_C_REGSEL.NUM 2) = 129 ∧
     h.get DBG_STAT.ATTACHED = 1 ∧ h.pwr.pending = some (0xC, false) ∧ h.pwr.sleep = .sleepEmulated) ∧
    (64 ≤ (upW [(DBG_C_REGSEL.NUM 0, 95)]).get (DBG_C_REGSEL.NUM 0) ∧ (upW [(DBG_C_REGSEL.NUM 0, 160)]).get (DBG_C_REGSEL.NUM 0) = 160 ∧ up.get DBG_STAT.ATTACHED = 0 ∧ up.pwr.pending = none) ∧
    (let h := { upW [(DBG_PU_CTL.EN 9, 1), (DBG_PU_CTL.SRC 9, 3), (DBG_C_WP_CTL.EN 0 1, 1), (DBG_C_WP_CTL.SRC 0 1, 1), (DBG_PU_CTL.LOCKED 4, 1)] with laneG := [(3, { queue := some 5, halted := true })] }
     (h.grp 3).halted = true ∧ (h.grp 4).halted = false ∧ (h.grp 3).queue ≠ none ∧ (h.grp 3).ended = false ∧ h.get (DBG_PU_CTL.EN 9) = 1 ∧ h.get (DBG_PU_CTL.SRC 9) ≠ 2 ∧
     h.get (DBG_PU_CTL.LOCKED 4) = 1 ∧ h.get (DBG_C_WP_CTL.EN 0 1) = 1 ∧ h.get (DBG_C_WP_CTL.SRC 0 1) ≠ 0 ∧ h.m0.mode = true) := by decide +kernel

theorem wit_DebugPortsSelfTestAndBallsAct_tests :
    (let h := { upW [(DBG_STAT.PERM, 4)] with m0 := { run := .halted }, m1 := { run := .held }, bistHold := 2 }
     bitOf (h.get DBG_STAT.PERM) 2 = true ∧ h.get BIST_STAT.BUSY = 0 ∧ h.bistReady 1 = true ∧ h.bistReady 8 = true ∧ h.bistReady 0x20 = true ∧ h.bistReady 9 = false ∧ bitOf h.bistHold 1 = true) ∧
    ((upW [(TWIN_STAT.STATE, 6)]).bistReady 9 = true ∧ up.bistReady 7 = true ∧ (upW [(POL_TRIP_STAT.TRIPPED, 1)]).bistReady 0xA = true ∧
      ({ up with m0 := { run := .halted }, m1 := { run := .halted } } : Hw).bistReady 0x10 = true) ∧
    (∀ n ∈ [1, 0xA, 0x10, 0x1B, 0x20], (upW [(BIST_STAT.BUSY, 1), (BIST_STAT.TARGET, n)]).get BIST_STAT.TARGET = n) ∧
    (let h := upW [(CLK_GATE.EN, 0x3FFFFFF), (GPIO_BANK_STAT.PRESENT, 0xF), (⟨GPIO_IN 1, 4, 1⟩, 1), (⟨GPIO_FALL 1, 4, 1⟩, 1), (⟨GPIO_DIR 2, 7, 1⟩, 1)]
     bitOf (h.get CLK_GATE.EN) 25 = true ∧ h.gpioDrive 36 = none ∧ (h.rd (GPIO_IN 1)).getLsbD 4 ≠ false ∧ (h.rd (GPIO_FALL 1)).getLsbD 4 = true ∧ (h.rd (GPIO_IN 1)).getLsbD 5 = false ∧
     (h.rd (GPIO_DIR 2)).getLsbD 7 = true ∧ h.get (GPIO_MUX.FN 71) = 0 ∧ h.get (GPIO_MUX.OD 71) = 0 ∧ h.gpioDrive 71 = some false) := by decide +kernel

theorem wit_DebugPortsSelfTestAndBallsAct_more :
    (∀ p ∈ [0, 1, 3, 7], let h := upW [(LCS_STAT.DBG_PERM, p)]
      h.clocked = true ∧ h.busHeld .debug = false ∧ bitOf (h.get LCS_STAT.DBG_PERM) 0 = decide (p ≠ 0) ∧ bitOf (h.get LCS_STAT.DBG_PERM) 1 = decide (2 ≤ p) ∧ bitOf (h.get LCS_STAT.DBG_PERM) 2 = decide (p = 7) ∧
      h.opens dbgAcc = decide (p ≠ 0)) ∧
    (let h := { up with m1 := { run := .running, haltReq := true }, peAns := [(.m1, 5)] }; (h.coreAt 1).run = .running ∧ h.busHeld (coreIni (dbgCore 1)) = false ∧ h.peAns.any (fun e => e.1 == coreIni (dbgCore 1)) = true) ∧
    (let h := { upW [(DBG_C_REGSEL.NUM 0, 132)] with m0 := { run := .halted, atRun := some ⟨3, false, 5, 7⟩ } }; (h.coreAt 0).run = .halted ∧ (h.coreAt 0).atRun = some ⟨3, false, 5, 7⟩ ∧ h.get (DBG_C_REGSEL.NUM 0) = 132) ∧
    (let h := { upW [(DBG_C_REGSEL.NUM 0, 132)] with m0 := { run := .halted }, lnch := { phase := .failed } }; (h.coreAt 0).atRun = none ∧ h.lnch.phase = .failed) ∧
    (let h := { upW [(DBG_STAT.PERM, 4), (LCS_STAT.DBG_PERM, 7), (CLK_GATE.EN, 0)] with m0 := { run := .halted } }
     h.opens dbgAcc = true ∧ h.blockOn 0x18 = false ∧ h.bistReady 1 = true ∧ bitOf (h.get DBG_STAT.PERM) 2 = true) ∧
    (let h := { upW [(BIST_STAT.BUSY, 1), (BIST_STAT.TARGET, 1)] with bistHold := 1 }; bitOf h.bistHold 0 = true ∧ h.get BIST_STAT.BUSY = 1 ∧ h.lcsm.holds = false) ∧
    (∀ x ∈ [(0, true), (0xA, true), (0x1B, true), (0x20, true), (1, false)], let h := { upW [(CLK_GATE.EN, 0x3FFFFFF), (BIST_STAT.BUSY, 1), (BIST_STAT.TARGET, x.1)] with bistWait := !x.2 }
      h.blockOn 0x18 = true ∧ h.get BIST_STAT.TARGET = x.1 ∧ h.bistWait = !x.2 ∧ h.upsets = []) ∧
    (∀ ir ∈ [0, 4, 5, 1], let h := { upW [(GPIO_BANK_STAT.PRESENT, 0xF), (GPIO_MUX.FN 0, 1)] with dbg := { ir := ir } }; h.dbg.ir = ir ∧ bitOf (h.get GPIO_BANK_STAT.PRESENT) 2 = true ∧ h.get (GPIO_MUX.FN 0) = 1 ∧ h.get (GPIO_MUX.OD 0) = 0) ∧
    (let h := { probed [(LCS_STATE.STATE, 3)] with dbg := { ir := 0x10, cells := 0 } }; h.scanDrive 5 = none ∧ ({ h with dbg := { ir := 0, cells := 0 } } : Hw).scanDrive 5 ≠ none) := by decide +kernel

theorem wit_StepTakesTheFrontCommand_edges :
    (let h := { upW [(TMR_WD_CTL.EN 0, 1), (TMR_WD_CTL.EN 1, 1), (TMR_WD_CTL.FREEZE 0, 0), (TMR_WD_CTL.FREEZE 1, 0), (TMR_WD_COUNT.VALUE 0, 1), (TMR_WD_COUNT.VALUE 1, 1), (CLK_DIV.PER_DIV, 4)] with wdFrac := [(0, 15996), (1, 15999)] }
     h.pwr.pending = none ∧ ∀ n, n < 2 → h.wdRuns n = true ∧ 16000 ≤ tget 0 h.wdFrac n + h.get CLK_DIV.PER_DIV ∧ h.get (TMR_WD_COUNT.VALUE n) ≤ 1) ∧
    (let h := { upW [(TMR_WD_CTL.EN 0, 1), (TMR_WD_CTL.FREEZE 0, 0), (TMR_WD_COUNT.VALUE 0, 9), (TMR_WD_WARN.VALUE 0, 8), (CLK_DIV.PER_DIV, 4)] with wdFrac := [(0, 15996)] }
     h.wdRuns 0 = true ∧ 16000 ≤ tget 0 h.wdFrac 0 + h.get CLK_DIV.PER_DIV ∧ 1 < h.get (TMR_WD_COUNT.VALUE 0) ∧ h.get (TMR_WD_COUNT.VALUE 0) - 1 = h.get (TMR_WD_WARN.VALUE 0)) ∧
    (∀ x ∈ [(0, true, 0), (3900000, true, 0), (0, false, 0), (0, true, 1)], let h := { upW [(CLK_STAT.LSX_FAIL, x.2.2)] with bak := { lsxRun := x.2.1, lsxFrac := x.1 } }
      h.clk.tbRun = false ∧ h.bak.lsxFrac = x.1 ∧ h.bak.lsxRun = x.2.1 ∧ h.get CLK_STAT.LSX_FAIL = x.2.2) ∧
    (let h := { upW [(POL_WDP_CTL.EN, 1), (POL_STAT.CORE_HELD, 0), (POL_WDP_COUNT.VALUE, 9), (CLK_DIV.PER_DIV, 4)] with wdFrac := [(2, 15999)], pol := { run := .waiting } }
     h.wdpRuns = true ∧ 16000 ≤ tget 0 h.wdFrac 2 + h.get CLK_DIV.PER_DIV ∧ 1 < h.get POL_WDP_COUNT.VALUE) ∧
    (let h := { upW [(TMR_TB_ALM_CTL.ARM, 1), (TMR_TB_ALM_LO.TB, 900), (TMR_TBS_CTL.ARM, 0)] with clk := { tbRun := true, tb := 5, epochHi := some 9 } }
     h.clocked = true ∧ h.clk.tbRun = true ∧ h.get TMR_TB_ALM_LO.TB = 900 ∧ h.clk.epochHi = some 9) := by decide +kernel

theorem wit_StepTakesTheFrontCommand_idle :
    (∀ t, t < 20 → up.tmrCounts t = false) ∧ up.evLines = 0 ∧ up.wdRuns 0 = false ∧ up.wdRuns 1 = false ∧ up.wdpRuns = false ∧
    (let h := { upW [(POL_WDP_CTL.EN, 1), (POL_STAT.CORE_HELD, 0), (POL_WDP_COUNT.VALUE, 1)] with pol := { run := .running } }
     h.clocked = true ∧ h.wdpRuns = true ∧ tget 0 h.wdFrac 2 + h.get CLK_DIV.PER_DIV < 16000 ∧ h.get POL_WDP_COUNT.VALUE ≤ 1) ∧
    (let h := upW [(TMR_WD_CTL.EN 0, 1), (TMR_WD_CTL.FREEZE 0, 0), (TMR_WD_COUNT.VALUE 0, 1)]
     h.wdRuns 0 = true ∧ tget 0 h.wdFrac 0 + h.get CLK_DIV.PER_DIV < 16000 ∧ h.get (TMR_WD_COUNT.VALUE 0) ≤ 1 ∧ h.pwr.pending = none) := by decide +kernel

theorem wit_StepTakesTheFrontCommand :
    (st {}).pending = [] ∧ ({} : Hw).clocked = false ∧
    (let h := { up with clk := { up.clk with tbRun := true } }
     h.clocked = true ∧ h.clk.tbRun = true) := by decide

theorem wit_EveryStepKeepsTablesAndQueue :
    (let s : State := { hw := up.set SYS_LAUNCH_STAT.DONE 1, pending := [.boWarn, .boWarn] }
     s.hw.tablesOk = true) ∧
    (∃ t, step { hw := { at_ .up with clk := { tbRun := true } }, pending := [] } = .next t) := by
  exact ⟨by decide +kernel, _, rfl⟩

end Sys2Proof.Tests
end

/-! The part at reset: what a byte of memory reads before anything has been written. -/

namespace Sys2Proof.Machine

/-- With no window line in the L2 and nothing programmed, the xSPI window shows erased NVM (R22, R349; log entry 3). -/
theorem Hw.byte_of_erased_window {h : Hw} {a : Nat} (hl : h.xspi.lines = []) (hn : h.nvm = [])
    (ha : 0x40000000 ≤ a ∧ a < 0x50000000) : h.byte a = 0xFF := by
  rw [Hw.byte_eq, (region_xspi h a).2 ha, hl, hn]
  rfl

/-- Refutes O59: its clause on bytes takes in the xSPI window, whose first address reads 0xFF at reset, not 0, as the NVM behind
it is erased. -/
theorem not_resetLeavesEveryRegisterAtItsResetWord : ¬ Obligations.ResetLeavesEveryRegisterAtItsResetWord := by
  unfold Obligations.ResetLeavesEveryRegisterAtItsResetWord
  rintro ⟨-, hmem, -⟩
  obtain ⟨-, hzero, -⟩ := hmem 0x40000000
  have herased : State.reset.hw.byte 0x40000000 = 0xFF := Hw.byte_of_erased_window rfl rfl (by decide)
  exact absurd (herased.symm.trans hzero) (by decide)

end Sys2Proof.Machine

/-! The timers at an edge of TB: the alarm, the start unit and the capture inputs stay within the timers' registers. -/

namespace Sys2Proof.Machine

/-- From `h` to `k` the clocks stand, and every register outside the timers' window. -/
structure TimersOnly (h k : Hw) : Prop where
  clk : k.clk = h.clk
  rd : ∀ a, a / 0x10000 ≠ 0x200D → k.rd a = h.rd a

namespace TimersOnly

theorem of_regs {h k : Hw} (hc : k.clk = h.clk) (hr : k.regs = h.regs) : TimersOnly h k := ⟨hc, fun a _ => Hw.rd_of_regs hr a⟩

theorem refl (h : Hw) : TimersOnly h h := of_regs rfl rfl

theorem trans {h k t : Hw} (hk : TimersOnly h k) (ht : TimersOnly k t) : TimersOnly h t :=
  ⟨ht.clk.trans hk.clk, fun a ha => (ht.rd a ha).trans (hk.rd a ha)⟩

theorem wr (h : Hw) {a : Nat} (v : BitVec 32) (ha : a / 0x10000 = 0x200D) : TimersOnly h (h.wr a v) :=
  ⟨rfl, fun b hb => Hw.rd_wr_other h v (by rintro rfl; exact hb ha)⟩

theorem set (h : Hw) {f : Fld} (v : Nat) (hf : f.adr / 0x10000 = 0x200D) : TimersOnly h (h.set f v) := wr h _ hf

theorem upIf (h : Hw) (b : Bool) {f : Fld} (hf : f.adr / 0x10000 = 0x200D) : TimersOnly h (h.upIf b f) := by
  cases b
  · exact refl h
  · exact set h 1 hf

/-- A loop whose every turn stays within the timers does so too. -/
theorem foldl {α : Type} (F : Hw → α → Hw) (l : List α) (h : Hw) (hF : ∀ k, ∀ x ∈ l, TimersOnly k (F k x)) : TimersOnly h (l.foldl F h) :=
  List.foldlRecOn l F (refl h) (fun k hk x hx => hk.trans (hF k x hx))

theorem ite {h k t : Hw} {p : Prop} [Decidable p] (hk : TimersOnly h k) (ht : TimersOnly h t) : TimersOnly h (if p then k else t) := by
  split
  · exact hk
  · exact ht

theorem get {h k : Hw} (hk : TimersOnly h k) {f : Fld} (hf : f.adr / 0x10000 ≠ 0x200D) : k.get f = h.get f := by
  unfold Hw.get
  rw [hk.rd _ hf]

end TimersOnly

theorem Hw.gtCapture_timersOnly (h : Hw) {n : Nat} (hn : n < 16) : TimersOnly h (h.gtCapture n) := by
  unfold Hw.gtCapture
  refine ((TimersOnly.upIf h _ ?_).trans (TimersOnly.set _ 1 ?_)).trans (TimersOnly.foldl _ _ _ fun k p hp => TimersOnly.set k _ ?_)
  · simp only [TMR_GT_STAT.OVR, TMR_GT_STAT]; omega
  · simp only [TMR_GT_STAT.CAP, TMR_GT_STAT]; omega
  · simp only [List.mem_cons, List.not_mem_nil, or_false] at hp
    rcases hp with rfl | rfl | rfl
    · simp only [TMR_GT_CAP.COUNT, TMR_GT_CAP]; omega
    · simp only [TMR_GT_CAP_TBL.TB, TMR_GT_CAP_TBL]; omega
    · simp only [TMR_GT_CAP_TBH.TB, TMR_GT_CAP_TBH]; omega

theorem Hw.capEdge_timersOnly (h : Hw) (src : Nat) (falling : Bool) : TimersOnly h (h.capEdge src falling) :=
  TimersOnly.foldl _ _ _ fun k _ hn => TimersOnly.ite (k.gtCapture_timersOnly (List.mem_range.1 hn)) (TimersOnly.refl k)

theorem Hw.almFire_timersOnly (h : Hw) : TimersOnly h h.almFire :=
  ((TimersOnly.set h 0 (by decide)).trans (TimersOnly.set _ 1 (by decide))).trans (Hw.capEdge_timersOnly _ _ _)

theorem Hw.ptLoad_timersOnly (h : Hw) {n : Nat} (hn : n < 4) : TimersOnly h (h.ptLoad n) := by
  unfold Hw.ptLoad
  refine (TimersOnly.foldl _ _ _ fun k e he => TimersOnly.wr k _ ?_).trans (TimersOnly.upIf _ _ ?_)
  · simp only [List.mem_cons, List.not_mem_nil, or_false] at he
    rcases he with rfl | rfl | rfl | rfl | rfl | rfl | rfl <;>
      simp only [TMR_PT_PERIOD_ACT, TMR_PT_DUTY_ACT, TMR_PT_DT_ACT, TMR_PT_EVCMP_ACT] <;> omega
  · simp only [TMR_PT_STAT.LOADED, TMR_PT_STAT]; omega

theorem Hw.ptBegin_timersOnly (h : Hw) {n : Nat} (hn : n < 4) : TimersOnly h (h.ptBegin n) :=
  (TimersOnly.ite (TimersOnly.refl h) (h.ptLoad_timersOnly hn)).trans (TimersOnly.of_regs rfl rfl)

theorem tmrRun_window {t : Nat} (ht : t < 20) : (tmrRun t).adr / 0x10000 = 0x200D := by
  unfold tmrRun
  split
  · simp only [TMR_GT_CTL.RUN, TMR_GT_CTL]; omega
  · simp only [TMR_PT_CTL.RUN, TMR_PT_CTL]; omega

theorem Hw.tmrSetRun_timersOnly (h : Hw) {t : Nat} (ht : t < 20) (b : Bool) : TimersOnly h (h.tmrSetRun t b) :=
  (TimersOnly.set h _ (tmrRun_window ht)).trans (TimersOnly.ite (Hw.ptBegin_timersOnly _ (by omega)) (TimersOnly.refl _))

theorem Hw.tmrSetAll_timersOnly (h : Hw) (m : Nat) (b : Bool) : TimersOnly h (h.tmrSetAll m b) :=
  TimersOnly.foldl _ _ _ fun k _ ht => TimersOnly.ite (k.tmrSetRun_timersOnly (List.mem_range.1 ht) b) (TimersOnly.refl k)

theorem Hw.tbsFire_timersOnly (h : Hw) : TimersOnly h h.tbsFire := by
  unfold Hw.tbsFire
  refine (TimersOnly.trans (TimersOnly.set h 0 ?_) (TimersOnly.set _ 1 ?_)).trans (TimersOnly.ite ?_ (Hw.tmrSetAll_timersOnly _ _ _))
  · decide
  · decide
  · exact TimersOnly.of_regs rfl rfl

/-- What is due at an edge of TB fires within the timers (R325, R328). -/
theorem Hw.tbDue_timersOnly (h : Hw) : TimersOnly h h.tbDue :=
  TimersOnly.trans (TimersOnly.ite h.almFire_timersOnly (TimersOnly.refl h)) (TimersOnly.ite (Hw.tbsFire_timersOnly _) (TimersOnly.refl _))

/-- TB that reaches a time leaves every register outside the timers alone. -/
theorem Hw.tbReach_get (h : Hw) (v : Nat) {f : Fld} (hf : f.adr / 0x10000 ≠ 0x200D) : (h.tbReach v).get f = h.get f := by
  unfold Hw.tbReach
  rw [(Hw.tbDue_timersOnly _).get hf]
  split <;> rfl

end Sys2Proof.Machine

/-! The ROOT servo: signed fields and slews, what a change of state and an accepted sample write, and the sample in each state. -/

namespace Sys2Proof.Machine

/-! ### Signed words and slews -/

/-- A value that a signed 32-bit field can hold. -/
def fits32 (v : Int) : Prop := -(2 ^ 31) ≤ v ∧ v < 2 ^ 31

theorem fits32_sgn (v : Nat) : fits32 (sgn 32 v) := by
  unfold fits32 sgn
  split <;> omega

theorem sgn_twos32 {v : Int} (hv : fits32 v) : sgn 32 (twos 32 v) = v := by
  unfold fits32 at hv
  unfold sgn twos
  split <;> omega

theorem twos_mod (w : Nat) (v : Int) : twos w v % 2 ^ w = twos w v := by
  have hpos : (0 : Int) < ((2 ^ w : Nat) : Int) := by positivity
  have hlt := Int.emod_lt_of_pos v hpos
  have hge := Int.emod_nonneg v hpos.ne'
  exact Nat.mod_eq_of_lt (by unfold twos; omega)

/-- A 32-bit field reads the value written, where it fits. -/
theorem Hw.getS_setS (h : Hw) {f : Fld} {v : Int} (hlo : f.lo = 0) (hw : f.wid = 32) (hv : fits32 v) : (h.setS f v).getS f = v := by
  unfold Hw.getS Hw.setS
  rw [Hw.get_set_self _ _ _ (by omega), twos_mod, hw, sgn_twos32 hv]

theorem Hw.getS_of_get {h k : Hw} {f : Fld} (e : k.get f = h.get f) : k.getS f = h.getS f := by
  unfold Hw.getS
  rw [e]

theorem fits32_clampI {lo hi : Int} (v : Int) (hl : fits32 lo) (hh : fits32 hi) : fits32 (clampI lo hi v) := by
  unfold fits32 clampI at *
  omega

theorem clampI_inside {lo hi v : Int} (hl : lo ≤ v) (hh : v ≤ hi) : clampI lo hi v = v := by
  unfold clampI
  omega

theorem clampI_mem {lo hi : Int} (v : Int) (hle : lo ≤ hi) : lo ≤ clampI lo hi v ∧ clampI lo hi v ≤ hi := by
  unfold clampI
  omega

/-- A slew ends between the value and its goal. -/
theorem slew_between (v t : Int) {step : Int} (hs : 0 ≤ step) : min v t ≤ slew v t step ∧ slew v t step ≤ max v t := by
  unfold slew
  split <;> omega

/-- A slew moves by at most its step. -/
theorem slew_moves_at_most (v t step : Int) (hs : 0 ≤ step) : (slew v t step - v).natAbs ≤ step.natAbs := by
  unfold slew
  split <;> omega

theorem fits32_slew {v t step : Int} (hv : fits32 v) (ht : fits32 t) (hs : 0 ≤ step) : fits32 (slew v t step) := by
  have hb := slew_between v t hs
  unfold fits32 at *
  omega

/-! ### Reads beside the registers -/

@[simp] theorem Hw.get_withClk (h : Hw) (c : Clk) (f : Fld) : ({ h with clk := c } : Hw).get f = h.get f := rfl

@[simp] theorem Hw.pulseLine_get (h : Hw) (n : Nat) (f : Fld) : (h.pulseLine n).get f = h.get f := by
  unfold Hw.pulseLine
  split <;> rfl

@[simp] theorem Hw.pulseLine_clk (h : Hw) (n : Nat) : (h.pulseLine n).clk = h.clk := by
  unfold Hw.pulseLine
  split <;> rfl

@[simp] theorem Hw.upIf_clk (h : Hw) (b : Bool) (f : Fld) : (h.upIf b f).clk = h.clk := by cases b <;> rfl

theorem Hw.upIf_get (h : Hw) (b : Bool) {f g : Fld} (hf : f.apart g = true) : (h.upIf b f).get g = h.get g := by
  cases b
  · rfl
  · exact Hw.get_set_of_apart h f g 1 hf

/-! ### The servo loop's bounds -/

theorem Hw.loopServo_value (h : Hw) (o : Nat) : h.loopVal loopServo o = h.getS (loopServo.fld o) := rfl

theorem Hw.fits32_svValue (h : Hw) (o : Nat) : fits32 (h.loopVal loopServo o) := fits32_sgn _

/-- Two parts that read the same MODE and bounds are in the same loop. -/
theorem Hw.svInside_of_get {h k : Hw} (el : k.get (loopServo.fld 0x20) = h.get (loopServo.fld 0x20))
    (eh : k.get (loopServo.fld 0x24) = h.get (loopServo.fld 0x24)) (v : Int) : k.svInside v = h.svInside v := by
  unfold Hw.svInside Hw.loopInside Hw.loopLow Hw.loopHigh
  rw [Hw.loopServo_value, Hw.loopServo_value, Hw.loopServo_value, Hw.loopServo_value, Hw.getS_of_get el, Hw.getS_of_get eh]

theorem Hw.fits32_svInside (h : Hw) (v : Int) : fits32 (h.svInside v) := fits32_clampI v (h.fits32_svValue _) (h.fits32_svValue _)

/-- The correction that CLK_SRV_CORR takes is the one it shows. -/
theorem Hw.svSet_corr (h : Hw) {v : Int} (hv : fits32 v) : (h.svSet v).getS CLK_SRV_CORR.CORR = v := Hw.getS_setS h rfl rfl hv

theorem Hw.svSet_get (h : Hw) (v : Int) {f : Fld} (hf : CLK_SRV_CORR.CORR.apart f = true) : (h.svSet v).get f = h.get f :=
  Hw.get_set_of_apart h _ f _ hf

/-! ### A change of state (R89, R94) -/

/-- The servo's counts and demand as a change of state leaves them. -/
def Clk.svRestart (c : Clk) : Clk := { c with srvIn := 0, srvOut := 0, srvDemand := none }

/-- The part in a new servo state, before what that state does of its own. -/
def Hw.svEntering (h : Hw) (st : Nat) : Hw :=
  let k := ((h.set CLK_SRV_STATE.STATE st).pulseLine 9).loopSafe loopServo (st = svHoldover)
  { k with clk := k.clk.svRestart }

theorem Hw.svEntering_clk (h : Hw) (st : Nat) : (h.svEntering st).clk = h.clk.svRestart := congrArg Clk.svRestart (Hw.pulseLine_clk _ _)

/-- What `svEntering` reads, in the order of its writes. -/
theorem Hw.svEntering_reads (h : Hw) (st : Nat) (f : Fld) :
    (h.svEntering st).get f = (((h.set CLK_SRV_STATE.STATE st).pulseLine 9).set CLK_SRV_AUTH_STAT.SAFE_ACT (b2n (decide (st = svHoldover)))).get f := rfl

theorem Hw.svEntering_get (h : Hw) (st : Nat) {f : Fld} (hs : CLK_SRV_STATE.STATE.apart f = true) (ha : CLK_SRV_AUTH_STAT.SAFE_ACT.apart f = true) :
    (h.svEntering st).get f = h.get f := by
  rw [Hw.svEntering_reads, Hw.get_set_of_apart _ _ f _ ha, Hw.pulseLine_get, Hw.get_set_of_apart _ _ f _ hs]

theorem Hw.svEntering_state (h : Hw) {st : Nat} (hst : st < 4) : (h.svEntering st).svState = st := by
  unfold Hw.svState
  rw [Hw.svEntering_reads, Hw.get_set_of_apart _ _ _ _ (by decide), Hw.pulseLine_get, Hw.get_set_self _ _ _ (by decide)]
  exact Nat.mod_eq_of_lt hst

theorem Hw.svEntering_safe (h : Hw) (st : Nat) : (h.svEntering st).get CLK_SRV_AUTH_STAT.SAFE_ACT = b2n (decide (st = svHoldover)) := by
  rw [Hw.svEntering_reads, Hw.get_set_self _ _ _ (by decide)]
  exact b2n_mod1 _

theorem Hw.svEnter_same {h : Hw} {st : Nat} (hs : h.svState = st) : h.svEnter st = h := if_pos hs

/-- What a state does of its own when it is entered. -/
theorem Hw.svEnter_changed {h : Hw} {st : Nat} (hs : h.svState ≠ st) :
    h.svEnter st = (let k := h.svEntering st
      if st = 0 then (let t := { k with clk := { k.clk with srvF := 0, srvLast := none } }; t.svSet t.svFreeCorr)
      else if st = 3 then (if k.loopMode loopServo = 2 then k else k.svSet (k.svInside k.clk.srvF))
      else if st = 2 then (k.up CLK_TB_STAT.VALID).clr CLK_TB_STAT.COARSE
      else k) := if_neg hs

theorem Hw.svEnter_free {h : Hw} (hs : h.svState ≠ 0) :
    h.svEnter 0 = (let k := { h.svEntering 0 with clk := { (h.svEntering 0).clk with srvF := 0, srvLast := none } }; k.svSet k.svFreeCorr) :=
  Hw.svEnter_changed hs

theorem Hw.svEnter_track {h : Hw} (hs : h.svState ≠ 2) : h.svEnter 2 = ((h.svEntering 2).up CLK_TB_STAT.VALID).clr CLK_TB_STAT.COARSE :=
  Hw.svEnter_changed hs

theorem Hw.svEnter_holdover {h : Hw} (hs : h.svState ≠ 3) :
    h.svEnter 3 = if (h.svEntering 3).loopMode loopServo = 2 then h.svEntering 3
      else (h.svEntering 3).svSet ((h.svEntering 3).svInside (h.svEntering 3).clk.srvF) :=
  Hw.svEnter_changed hs

/-- What a state does of its own touches CLK_SRV_CORR and CLK_TB_STAT alone. -/
theorem Hw.svEnter_get_changed {h : Hw} {st : Nat} {f : Fld} (hs : h.svState ≠ st) (hcorr : CLK_SRV_CORR.CORR.apart f = true)
    (hval : CLK_TB_STAT.VALID.apart f = true) (hcoarse : CLK_TB_STAT.COARSE.apart f = true) :
    (h.svEnter st).get f = (h.svEntering st).get f := by
  rw [Hw.svEnter_changed hs]
  dsimp only
  split
  · rw [Hw.svSet_get _ _ hcorr, Hw.get_withClk]
  · split
    · split
      · rfl
      · rw [Hw.svSet_get _ _ hcorr]
    · split
      · rw [Hw.clr, Hw.get_set_of_apart _ _ f _ hcoarse, Hw.up, Hw.get_set_of_apart _ _ f _ hval]
      · rfl

/-- The fields that a change of state writes. -/
def svEnterFields : List Fld := [CLK_SRV_STATE.STATE, CLK_SRV_AUTH_STAT.SAFE_ACT, CLK_SRV_CORR.CORR, CLK_TB_STAT.VALID, CLK_TB_STAT.COARSE]

theorem Hw.svEnter_get (h : Hw) {st : Nat} {f : Fld} (hf : ∀ g ∈ svEnterFields, g.apart f = true) : (h.svEnter st).get f = h.get f := by
  simp only [svEnterFields, List.forall_mem_cons, List.not_mem_nil, false_implies, implies_true, and_true] at hf
  obtain ⟨hst, hsafe, hcorr, hval, hcoarse⟩ := hf
  by_cases hs : h.svState = st
  · rw [Hw.svEnter_same hs]
  · rw [Hw.svEnter_get_changed hs hcorr hval hcoarse, Hw.svEntering_get h st hst hsafe]

theorem Hw.svEnter_state (h : Hw) {st : Nat} (hst : st < 4) : (h.svEnter st).svState = st := by
  by_cases hs : h.svState = st
  · rw [Hw.svEnter_same hs, hs]
  · exact (Hw.svEnter_get_changed hs (by decide) (by decide) (by decide)).trans (h.svEntering_state hst)

theorem Hw.svEnter_clk {h : Hw} {st : Nat} (h0 : st ≠ 0) (hs : h.svState ≠ st) :
    (h.svEnter st).clk = h.clk.svRestart := by
  rw [← Hw.svEntering_clk h st, Hw.svEnter_changed hs]
  dsimp only
  rw [if_neg h0]
  split
  · split <;> rfl
  · split <;> rfl

/-- FREE clears F. -/
theorem Hw.svEnter_free_srvF (h : Hw) : (h.svEnter 0).clk.srvF = if h.svState = 0 then h.clk.srvF else 0 := by
  split
  case isTrue hs => rw [Hw.svEnter_same hs]
  case isFalse hs => rw [Hw.svEnter_free hs]; rfl

/-- TRACK makes TB valid and no longer coarse, and ends the safe action. -/
theorem Hw.svEnter_track_reads {h : Hw} (hs : h.svState ≠ 2) :
    (h.svEnter 2).reads [(CLK_TB_STAT.VALID, 1), (CLK_TB_STAT.COARSE, 0), (CLK_SRV_AUTH_STAT.SAFE_ACT, 0)] := by
  rw [Hw.svEnter_track hs]
  simp only [Hw.reads_cons, Hw.reads_nil, and_true, Hw.up, Hw.clr]
  refine ⟨?_, ?_, ?_⟩
  · rw [Hw.get_set_of_apart _ _ _ _ (by decide), Hw.get_set_self _ _ _ (by decide)]
    rfl
  · rw [Hw.get_set_self _ _ _ (by decide)]
    rfl
  · rw [Hw.get_set_of_apart _ _ _ _ (by decide), Hw.get_set_of_apart _ _ _ _ (by decide), Hw.svEntering_safe]
    rfl

theorem Hw.svEnter_holdover_safe {h : Hw} (hs : h.svState ≠ 3) : (h.svEnter 3).get CLK_SRV_AUTH_STAT.SAFE_ACT = 1 :=
  (Hw.svEnter_get_changed hs (by decide) (by decide) (by decide)).trans (h.svEntering_safe 3)

/-- HOLDOVER freezes the correction at F within the bounds (R94). -/
theorem Hw.svEnter_holdover_corr {h : Hw} (hs : h.svState ≠ 3) (hm : h.loopMode loopServo ≠ 2) :
    (h.svEnter 3).getS CLK_SRV_CORR.CORR = h.svInside h.clk.srvF := by
  have hmode : (h.svEntering 3).loopMode loopServo = h.loopMode loopServo := h.svEntering_get 3 (by decide) (by decide)
  rw [Hw.svEnter_holdover hs, hmode, if_neg hm, Hw.svSet_corr _ (Hw.fits32_svInside _ _), Hw.svEntering_clk]
  exact Hw.svInside_of_get (h.svEntering_get 3 (by decide) (by decide)) (h.svEntering_get 3 (by decide) (by decide)) _

/-! ### An accepted sample (R93) -/

/-- The fields that a demand past a bound writes. -/
def svConflictFields : List Fld := [CLK_SRV_AUTH_CNT.CONFLICT, CLK_SRV_AUTH_STAT.CONFLICT_SEEN]

theorem Hw.loopConflict_get (h : Hw) {f : Fld} (hf : ∀ g ∈ svConflictFields, g.apart f = true) : (h.loopConflict loopServo).get f = h.get f := by
  simp only [svConflictFields, List.forall_mem_cons, List.not_mem_nil, false_implies, implies_true, and_true] at hf
  exact (Hw.upIf_get _ _ hf.2).trans (Hw.get_set_of_apart h _ f _ hf.1)

theorem Hw.loopConflict_clk (h : Hw) : (h.loopConflict loopServo).clk = h.clk := Hw.upIf_clk _ _ _

/-- A demand counts a conflict or changes nothing. -/
theorem Hw.loopDemand_fst (h : Hw) (l : Loop) (d : Int) :
    (h.loopDemand loopServo l d).1 = h ∨ (h.loopDemand loopServo l d).1 = h.loopConflict loopServo := by
  unfold Hw.loopDemand
  dsimp only
  split
  · split
    · exact .inl rfl
    · exact .inr rfl
  · split
    · split
      · exact .inl rfl
      · exact .inr rfl
    · exact .inl rfl

theorem Hw.svR_get (h : Hw) (e d : Int) (f : Fld) : (h.svR e d).1.get f = h.get f := by
  unfold Hw.svR
  split <;> rfl

theorem Hw.svR_clk (h : Hw) (e d : Int) : (h.svR e d).1.clk = h.clk := by
  unfold Hw.svR
  split <;> rfl

/-- The clocks with another integral, demand and conflict memory of the servo. -/
def Clk.svMoved (c : Clk) (l : Loop) (d : Option Int) (f : Int) : Clk := { c with srvLoop := l, srvDemand := d, srvF := f }

/-- What R93's computation leaves before it sets the servo's values: the free value that d = 0 draws, and a conflict in AUTO. -/
theorem Hw.svCompute_shape (h : Hw) (e d : Int) :
    ∃ k l m f, h.svCompute e d = { k with clk := k.clk.svMoved l m f } ∧ (k = (h.svR e d).1 ∨ k = (h.svR e d).1.loopConflict loopServo) := by
  refine ⟨_, _, _, _, rfl, ?_⟩
  split
  · exact Hw.loopDemand_fst _ _ _
  · exact .inl rfl

theorem Hw.svCompute_clk (h : Hw) (e d : Int) : ∃ l m f, (h.svCompute e d).clk = h.clk.svMoved l m f := by
  obtain ⟨k, l, m, f, heq, hk⟩ := h.svCompute_shape e d
  have hclk : k.clk = h.clk := by
    rcases hk with rfl | rfl
    · exact h.svR_clk e d
    · exact (Hw.loopConflict_clk _).trans (h.svR_clk e d)
  exact ⟨l, m, f, by rw [heq, ← hclk]⟩

theorem Hw.svCompute_get (h : Hw) (e d : Int) {f : Fld} (hf : ∀ g ∈ svConflictFields, g.apart f = true) : (h.svCompute e d).get f = h.get f := by
  obtain ⟨k, l, m, i, heq, hk⟩ := h.svCompute_shape e d
  rw [heq, Hw.get_withClk]
  rcases hk with rfl | rfl
  · exact h.svR_get e d f
  · exact (Hw.loopConflict_get _ hf).trans (h.svR_get e d f)

/-- With an interval to measure over and outside AUTO, the demand and F are those of R93. -/
theorem Hw.svCompute_values (h : Hw) (e : Int) {d : Int} (hd : d ≠ 0) (hm : h.loopMode loopServo ≠ 1) :
    let r := e * 16000000000 / d
    let i := r / 2 ^ h.get CLK_SRV_CFG.KI_SHIFT_L
    let dem := h.clk.srvF - r / 2 ^ h.get CLK_SRV_CFG.KP_SHIFT_L - i
    (h.svCompute e d).clk.srvDemand = some (h.svInside dem) ∧
    (h.svCompute e d).clk.srvF = if h.loopLow loopServo ≤ dem ∧ dem ≤ h.loopHigh loopServo then h.clk.srvF - i else h.clk.srvF := by
  simp only [Hw.svCompute, Hw.svR, if_neg hd, if_neg hm, asr, Nat.cast_pow, Nat.cast_ofNat, decide_eq_true_eq, and_self]

theorem Hw.svAccept_clk (h : Hw) (e : Int) (hold : Bool) :
    ∃ l m f, (h.svAccept e hold).clk = { h.clk.svMoved l m f with srvLast := some h.clk.tb } := by
  unfold Hw.svAccept
  dsimp only
  split
  · split
    · exact ⟨_, _, _, rfl⟩
    · rename_i l _ _
      obtain ⟨l, m, f, hc⟩ := Hw.svCompute_clk (h.set CLK_SRV_STATE.SAMPLES (h.get CLK_SRV_STATE.SAMPLES + 1)) e (h.clk.tb - l).toInt
      refine ⟨l, m, f, ?_⟩
      exact congrArg (fun c : Clk => { c with srvLast := some h.clk.tb }) hc
  · exact ⟨_, _, _, rfl⟩

/-- In HOLDOVER an accepted sample sets the start of the next interval alone. -/
theorem Hw.svAccept_hold_clk (h : Hw) (e : Int) : (h.svAccept e true).clk = { h.clk with srvLast := some h.clk.tb } := by
  unfold Hw.svAccept
  dsimp only
  split <;> rfl

theorem Hw.svAccept_reads (h : Hw) (e : Int) (hold : Bool) {f : Fld} (hf : ∀ g ∈ svConflictFields, g.apart f = true) :
    (h.svAccept e hold).get f = (h.set CLK_SRV_STATE.SAMPLES (h.get CLK_SRV_STATE.SAMPLES + 1)).get f := by
  unfold Hw.svAccept
  dsimp only
  rw [Hw.get_withClk]
  split
  · split
    · rfl
    · exact Hw.svCompute_get _ _ _ hf
  · rfl

theorem Hw.svAccept_samples (h : Hw) (e : Int) (hold : Bool) :
    (h.svAccept e hold).get CLK_SRV_STATE.SAMPLES = (h.get CLK_SRV_STATE.SAMPLES + 1) % 65536 := by
  rw [Hw.svAccept_reads h e hold (by decide), Hw.get_set_self _ _ _ (by decide)]
  rfl

theorem Hw.svAccept_get (h : Hw) (e : Int) (hold : Bool) {f : Fld} (hc : ∀ g ∈ svConflictFields, g.apart f = true)
    (hs : CLK_SRV_STATE.SAMPLES.apart f = true) : (h.svAccept e hold).get f = h.get f := by
  rw [Hw.svAccept_reads h e hold hc, Hw.get_set_of_apart _ _ f _ hs]

/-! ### A sample by the servo's state (R93, R94) -/

/-- The fields that a sample may write beside CLK_SRV_OFS. -/
def svSampleFields : List Fld := svEnterFields ++ svConflictFields ++ [CLK_SRV_STATE.SAMPLES, CLK_TB_STAT.STEPPED]

/-- A field that a sample leaves alone: none of those, and none of a timer that a step of TB may start. -/
def Fld.offSample (f : Fld) : Prop := (∀ g ∈ svSampleFields, g.apart f = true) ∧ f.adr / 0x10000 ≠ 0x200D

theorem Fld.offSample.enter {f : Fld} (hf : f.offSample) : ∀ g ∈ svEnterFields, g.apart f = true :=
  fun g hg => hf.1 g (List.mem_append_left _ (List.mem_append_left _ hg))

theorem Fld.offSample.conflict {f : Fld} (hf : f.offSample) : ∀ g ∈ svConflictFields, g.apart f = true :=
  fun g hg => hf.1 g (List.mem_append_left _ (List.mem_append_right _ hg))

theorem Fld.offSample.samples {f : Fld} (hf : f.offSample) : CLK_SRV_STATE.SAMPLES.apart f = true :=
  hf.1 _ (List.mem_append_right _ (List.mem_cons_self ..))

theorem Fld.offSample.stepped {f : Fld} (hf : f.offSample) : CLK_TB_STAT.STEPPED.apart f = true :=
  hf.1 _ (List.mem_append_right _ (List.mem_cons_of_mem _ (List.mem_cons_self ..)))

/-- While acquiring, the sample `e` makes the servo step TB. -/
def Hw.svSteps (h : Hw) (e : Int) : Prop := h.get CLK_SRV_THR.STEP_THR_L * 1000 < e.natAbs ∧ h.get CLK_SRV_CFG.STEP_EN_L = 1

/-- The good samples in a row, `e` among them. -/
def Hw.svRun (h : Hw) (e : Int) : Nat := if e.natAbs ≤ h.get CLK_SRV_THR.LOCK_THR_L then h.clk.srvIn + 1 else 0

/-- The part after `e` has been accepted and `n` samples in a row count toward the next state. -/
def Hw.svCounted (h : Hw) (e : Int) (hold : Bool) (n : Nat) : Hw :=
  let k := h.svAccept e hold
  { k with clk := { k.clk with srvIn := n } }

theorem Hw.on_iff (h : Hw) {f : Fld} (hf : f.wid = 1) : h.on f = true ↔ h.get f = 1 := by
  have hlt : h.get f < 2 := by
    have := Nat.mod_lt ((h.rd f.adr).toNat >>> f.lo) (Nat.two_pow_pos f.wid)
    unfold Hw.get Fld.of
    rwa [hf] at this ⊢
  rw [Hw.on, bne_iff_ne]
  omega

/-- The clocks once the servo has stepped TB by the offset and restarted. -/
def Clk.tbStepped (c : Clk) (e : Int) : Clk := { c with tb := c.tb - BitVec.ofInt 64 e, srvLast := none, srvIn := 0 }

theorem Hw.svAcq_steps {h : Hw} {e : Int} (hs : h.svSteps e) :
    h.svAcq e = Hw.tbDue { h.up CLK_TB_STAT.STEPPED with clk := h.clk.tbStepped e } := by
  unfold Hw.svAcq
  rw [if_pos (by rw [Bool.and_eq_true, decide_eq_true_eq, Hw.on_iff h rfl]; exact hs)]
  rfl

theorem Hw.svAcq_counts {h : Hw} {e : Int} (hs : ¬ h.svSteps e) :
    h.svAcq e = (let t := h.svCounted e false (h.svRun e)
      if 8 ≤ h.svRun e then (let k := t.svEnter 2; { k with clk := { k.clk with srvDemand := t.clk.srvDemand } }) else t) := by
  have hthr : (h.svAccept e false).get CLK_SRV_THR.LOCK_THR_L = h.get CLK_SRV_THR.LOCK_THR_L := h.svAccept_get e false (by decide) (by decide)
  have hin : (h.svAccept e false).clk.srvIn = h.clk.srvIn := by
    obtain ⟨l, m, f, hc⟩ := h.svAccept_clk e false
    rw [hc]
    rfl
  unfold Hw.svAcq
  rw [if_neg (by rw [Bool.and_eq_true, decide_eq_true_eq, Hw.on_iff h rfl]; exact hs)]
  dsimp only
  rw [hthr, hin]
  rfl

/-- The part with `n` outliers in a row. -/
def Hw.svOutliers (h : Hw) (n : Nat) : Hw := { h with clk := { h.clk with srvOut := n } }

theorem Hw.svOutliers_get (h : Hw) (n : Nat) (f : Fld) : (h.svOutliers n).get f = h.get f := rfl

theorem Hw.svTrk_far {h : Hw} {e : Int} (hf : h.get CLK_SRV_THR.OUTLIER_THR_L < e.natAbs) :
    h.svTrk e = if 8 ≤ h.clk.srvOut + 1 then (h.svOutliers (h.clk.srvOut + 1)).svEnter 3 else h.svOutliers (h.clk.srvOut + 1) := if_pos hf

theorem Hw.svTrk_near {h : Hw} {e : Int} (hf : ¬ h.get CLK_SRV_THR.OUTLIER_THR_L < e.natAbs) :
    h.svTrk e = (h.svOutliers 0).svAccept e false := if_neg hf

theorem Hw.svHold_far {h : Hw} {e : Int} (hf : h.get CLK_SRV_THR.OUTLIER_THR_L < e.natAbs) :
    h.svHold e = { h with clk := { h.clk with srvIn := 0 } } := if_pos hf

theorem Hw.svHold_near {h : Hw} {e : Int} (hf : ¬ h.get CLK_SRV_THR.OUTLIER_THR_L < e.natAbs) :
    h.svHold e = (let t := h.svCounted e true (h.clk.srvIn + 1); if 4 ≤ h.clk.srvIn + 1 then t.svEnter 2 else t) := by
  have hin : (h.svAccept e true).clk.srvIn = h.clk.srvIn := by rw [Hw.svAccept_hold_clk]
  unfold Hw.svHold
  rw [if_neg hf]
  dsimp only
  rw [hin]
  rfl

theorem Hw.svCounted_get (h : Hw) (e : Int) (hold : Bool) (n : Nat) {f : Fld} (hc : ∀ g ∈ svConflictFields, g.apart f = true)
    (hs : CLK_SRV_STATE.SAMPLES.apart f = true) : (h.svCounted e hold n).get f = h.get f := h.svAccept_get e hold hc hs

theorem Hw.svCounted_state (h : Hw) (e : Int) (hold : Bool) (n : Nat) : (h.svCounted e hold n).svState = h.svState :=
  h.svCounted_get e hold n (by decide) (by decide)

theorem Hw.svCounted_samples (h : Hw) (e : Int) (hold : Bool) (n : Nat) :
    (h.svCounted e hold n).get CLK_SRV_STATE.SAMPLES = (h.get CLK_SRV_STATE.SAMPLES + 1) % 65536 := h.svAccept_samples e hold

theorem Hw.svCounted_clk (h : Hw) (e : Int) (hold : Bool) (n : Nat) :
    ∃ l m f, (h.svCounted e hold n).clk = { h.clk.svMoved l m f with srvLast := some h.clk.tb, srvIn := n } := by
  obtain ⟨l, m, f, hc⟩ := h.svAccept_clk e hold
  exact ⟨l, m, f, congrArg (fun c : Clk => { c with srvIn := n }) hc⟩

/-- A change of state does not count as an epoch. -/
theorem Hw.svEnter_idle (h : Hw) {st : Nat} (h0 : st ≠ 0) : (h.svEnter st).clk.srvIdle = h.clk.srvIdle := by
  by_cases hs : h.svState = st
  · rw [Hw.svEnter_same hs]
  · rw [Hw.svEnter_clk h0 hs]
    rfl

/-! ### Beside the sample's own fields -/

theorem Hw.svAcq_get (h : Hw) (e : Int) {f : Fld} (hf : f.offSample) : (h.svAcq e).get f = h.get f := by
  by_cases hs : h.svSteps e
  · rw [Hw.svAcq_steps hs, (Hw.tbDue_timersOnly _).get hf.2]
    exact Hw.get_set_of_apart h _ f 1 hf.stepped
  · have hk := h.svCounted_get e false (h.svRun e) hf.conflict hf.samples
    rw [Hw.svAcq_counts hs]
    dsimp only
    split
    · exact (Hw.svEnter_get _ hf.enter).trans hk
    · exact hk

theorem Hw.svTrk_get (h : Hw) (e : Int) {f : Fld} (hf : f.offSample) : (h.svTrk e).get f = h.get f := by
  by_cases hfar : h.get CLK_SRV_THR.OUTLIER_THR_L < e.natAbs
  · rw [Hw.svTrk_far hfar]
    split
    · exact Hw.svEnter_get _ hf.enter
    · rfl
  · rw [Hw.svTrk_near hfar]
    exact Hw.svAccept_get _ e false hf.conflict hf.samples

theorem Hw.svHold_get (h : Hw) (e : Int) {f : Fld} (hf : f.offSample) : (h.svHold e).get f = h.get f := by
  by_cases hfar : h.get CLK_SRV_THR.OUTLIER_THR_L < e.natAbs
  · rw [Hw.svHold_far hfar, Hw.get_withClk]
  · have hk := h.svCounted_get e true (h.clk.srvIn + 1) hf.conflict hf.samples
    rw [Hw.svHold_near hfar]
    dsimp only
    split
    · exact (Hw.svEnter_get _ hf.enter).trans hk
    · exact hk

theorem Hw.svCounted_idle (h : Hw) (e : Int) (hold : Bool) (n : Nat) : (h.svCounted e hold n).clk.srvIdle = h.clk.srvIdle := by
  obtain ⟨l, m, f, hc⟩ := h.svCounted_clk e hold n
  rw [hc]
  rfl

theorem Hw.svAcq_idle (h : Hw) (e : Int) : (h.svAcq e).clk.srvIdle = h.clk.srvIdle := by
  by_cases hs : h.svSteps e
  · rw [Hw.svAcq_steps hs, (Hw.tbDue_timersOnly _).clk]
    rfl
  · rw [Hw.svAcq_counts hs]
    dsimp only
    split
    · exact (Hw.svEnter_idle _ (by decide)).trans (h.svCounted_idle e false _)
    · exact h.svCounted_idle e false _

theorem Hw.svTrk_idle (h : Hw) (e : Int) : (h.svTrk e).clk.srvIdle = h.clk.srvIdle := by
  by_cases hfar : h.get CLK_SRV_THR.OUTLIER_THR_L < e.natAbs
  · rw [Hw.svTrk_far hfar]
    split
    · exact Hw.svEnter_idle _ (by decide)
    · rfl
  · obtain ⟨l, m, f, hc⟩ := Hw.svAccept_clk (h.svOutliers 0) e false
    rw [Hw.svTrk_near hfar, hc]
    rfl

theorem Hw.svHold_idle (h : Hw) (e : Int) : (h.svHold e).clk.srvIdle = h.clk.srvIdle := by
  by_cases hfar : h.get CLK_SRV_THR.OUTLIER_THR_L < e.natAbs
  · rw [Hw.svHold_far hfar]
  · rw [Hw.svHold_near hfar]
    dsimp only
    split
    · exact (Hw.svEnter_idle _ (by decide)).trans (h.svCounted_idle e true _)
    · exact h.svCounted_idle e true _

/-! ### The sample reaches the servo -/

/-- The part once CLK_SRV_OFS shows the sample `e`. -/
def Hw.svShows (h : Hw) (e : Int) : Hw := h.setS CLK_SRV_OFS.OFS (clampI (-(2 ^ 31)) (2 ^ 31 - 1) e)

/-- The part once a servo that is not OFF has heard the sample `e`. -/
def Hw.svHears (h : Hw) (e : Int) : Hw := { h.svShows e with clk := { h.clk with srvIdle := 0 } }

theorem Hw.svHears_get (h : Hw) (e : Int) {f : Fld} (hf : CLK_SRV_OFS.OFS.apart f = true) : (h.svHears e).get f = h.get f :=
  Hw.get_set_of_apart h _ f _ hf

theorem Hw.svHears_state (h : Hw) (e : Int) : (h.svHears e).svState = h.svState := h.svHears_get e (by decide)

theorem Hw.svShows_ofs (h : Hw) (e : Int) : (h.svShows e).getS CLK_SRV_OFS.OFS = clampI (-(2 ^ 31)) (2 ^ 31 - 1) e :=
  Hw.getS_setS h rfl rfl (fits32_clampI e (by unfold fits32; decide) (by unfold fits32; decide))

theorem Hw.svSample_off {h : Hw} (hm : h.loopMode loopServo = 0) (e : Int) : h.svSample e = h.svShows e := by
  have hmode : (h.svShows e).loopMode loopServo = 0 := (Hw.get_set_of_apart h _ _ _ (by decide)).trans hm
  exact if_pos hmode

/-- A servo that is not OFF hears the sample, leaves FREE for ACQUIRE, and treats it by its state. -/
theorem Hw.svSample_heard {h : Hw} (hm : h.loopMode loopServo ≠ 0) (e : Int) :
    h.svSample e = (let k := if (h.svHears e).svState = 0 then (h.svHears e).svEnter 1 else h.svHears e
      if k.svState = 1 then k.svAcq e else if k.svState = 2 then k.svTrk e else k.svHold e) := by
  have hmode : (h.svShows e).loopMode loopServo ≠ 0 := by
    rwa [Hw.loopMode, Hw.svShows, Hw.setS, Hw.get_set_of_apart h _ _ _ (by decide)]
  exact if_neg hmode

/-- The acquiring servo that has heard `e`. -/
def Hw.svSeeks (h : Hw) (e : Int) : Hw := (h.svHears e).svEnter 1

theorem Hw.svSample_acquire {h : Hw} (hm : h.loopMode loopServo ≠ 0) (hs : h.svState ≤ 1) (e : Int) : h.svSample e = (h.svSeeks e).svAcq e := by
  have hk : (if (h.svHears e).svState = 0 then (h.svHears e).svEnter 1 else h.svHears e) = h.svSeeks e := by
    split
    · rfl
    · rename_i h0
      have h1 : (h.svHears e).svState = 1 := by rw [Hw.svHears_state] at h0 ⊢; omega
      exact (Hw.svEnter_same h1).symm
  rw [Hw.svSample_heard hm, hk]
  exact if_pos (Hw.svEnter_state _ (by decide))

theorem Hw.svSample_later {h : Hw} (hm : h.loopMode loopServo ≠ 0) (hs : 1 < h.svState) (e : Int) :
    h.svSample e = if h.svState = 2 then (h.svHears e).svTrk e else (h.svHears e).svHold e := by
  have hstate := h.svHears_state e
  have hk : (if (h.svHears e).svState = 0 then (h.svHears e).svEnter 1 else h.svHears e) = h.svHears e := if_neg (by omega)
  rw [Hw.svSample_heard hm, hk]
  dsimp only
  rw [hstate, if_neg (by omega)]

theorem Hw.svSample_track {h : Hw} (hm : h.loopMode loopServo ≠ 0) (hs : h.svState = 2) (e : Int) : h.svSample e = (h.svHears e).svTrk e := by
  rw [Hw.svSample_later hm (by omega), if_pos hs]

theorem Hw.svSample_holdover {h : Hw} (hm : h.loopMode loopServo ≠ 0) (hs : h.svState = 3) (e : Int) : h.svSample e = (h.svHears e).svHold e := by
  rw [Hw.svSample_later hm (by omega), if_neg (by omega)]

theorem Hw.svState_lt (h : Hw) : h.svState < 4 := Nat.mod_lt _ (by decide)

/-- Whatever its state, the servo leaves the other fields as the sample found them, with no epoch since it. -/
theorem Hw.svSample_frame {h : Hw} (hm : h.loopMode loopServo ≠ 0) (e : Int) :
    (∀ f : Fld, f.offSample → (h.svSample e).get f = (h.svHears e).get f) ∧ (h.svSample e).clk.srvIdle = 0 := by
  have hlt := h.svState_lt
  rcases (by omega : h.svState ≤ 1 ∨ h.svState = 2 ∨ h.svState = 3) with hs | hs | hs
  · rw [Hw.svSample_acquire hm hs]
    exact ⟨fun f hf => (Hw.svAcq_get _ e hf).trans (Hw.svEnter_get _ hf.enter), (Hw.svAcq_idle _ e).trans (Hw.svEnter_idle _ (by decide))⟩
  · rw [Hw.svSample_track hm hs]
    exact ⟨fun f hf => Hw.svTrk_get _ e hf, Hw.svTrk_idle _ e⟩
  · rw [Hw.svSample_holdover hm hs]
    exact ⟨fun f hf => Hw.svHold_get _ e hf, Hw.svHold_idle _ e⟩

theorem ofs_offSample : CLK_SRV_OFS.OFS.offSample := by
  unfold Fld.offSample
  decide

/-- Every sample shows in CLK_SRV_OFS. -/
theorem Hw.svSample_ofs (h : Hw) (e : Int) : (h.svSample e).getS CLK_SRV_OFS.OFS = clampI (-(2 ^ 31)) (2 ^ 31 - 1) e := by
  by_cases hm : h.loopMode loopServo = 0
  · rw [Hw.svSample_off hm, Hw.svShows_ofs]
  · exact (Hw.getS_of_get ((Hw.svSample_frame hm e).1 _ ofs_offSample)).trans (h.svShows_ofs e)

/-! ### ACQUIRE -/

theorem Hw.svSeeks_get (h : Hw) (e : Int) {f : Fld} (hf : ∀ g ∈ CLK_SRV_OFS.OFS :: svEnterFields, g.apart f = true) : (h.svSeeks e).get f = h.get f := by
  rw [List.forall_mem_cons] at hf
  exact (Hw.svEnter_get _ hf.2).trans (h.svHears_get e hf.1)

theorem Hw.svSeeks_state (h : Hw) (e : Int) : (h.svSeeks e).svState = 1 := Hw.svEnter_state _ (by decide)

theorem Hw.svSeeks_samples (h : Hw) (e : Int) : (h.svSeeks e).get CLK_SRV_STATE.SAMPLES = h.get CLK_SRV_STATE.SAMPLES :=
  h.svSeeks_get e (by decide)

theorem Hw.svSeeks_clk (h : Hw) (e : Int) :
    (h.svSeeks e).clk.tb = h.clk.tb ∧ (h.svSeeks e).clk.srvIn = if h.svState = 1 then h.clk.srvIn else 0 := by
  unfold Hw.svSeeks
  by_cases hs : h.svState = 1
  · rw [Hw.svEnter_same ((h.svHears_state e).trans hs), if_pos hs]
    exact ⟨rfl, rfl⟩
  · rw [Hw.svEnter_clk (by decide) (by rwa [Hw.svHears_state]), if_neg hs]
    exact ⟨rfl, rfl⟩

theorem Hw.svSeeks_steps (h : Hw) (e : Int) : (h.svSeeks e).svSteps e ↔ h.svSteps e := by
  unfold Hw.svSteps
  rw [h.svSeeks_get e (by decide), h.svSeeks_get e (by decide)]

theorem Hw.svSeeks_run {h : Hw} (hs : h.svState ≤ 1) (e : Int) :
    (h.svSeeks e).svRun e = if e.natAbs ≤ h.get CLK_SRV_THR.LOCK_THR_L then (if h.svState = 0 then 0 else h.clk.srvIn) + 1 else 0 := by
  have hin : (h.svSeeks e).clk.srvIn = if h.svState = 0 then 0 else h.clk.srvIn := by
    rw [(h.svSeeks_clk e).2]
    split <;> split <;> omega
  rw [Hw.svRun, hin, h.svSeeks_get e (by decide)]

/-- A sample that steps TB moves it by the offset and restarts the servo (log entry 138). -/
theorem Hw.svSample_steps {h : Hw} (hm : h.loopMode loopServo ≠ 0) (hs : h.svState ≤ 1) {e : Int} (hst : h.svSteps e) :
    let t := h.svSample e
    t.svState = 1 ∧ t.clk.tb = h.clk.tb - BitVec.ofInt 64 e ∧ t.get CLK_TB_STAT.STEPPED = 1 ∧ t.clk.srvLast = none ∧
    t.get CLK_SRV_STATE.SAMPLES = h.get CLK_SRV_STATE.SAMPLES := by
  rw [Hw.svSample_acquire hm hs, Hw.svAcq_steps ((h.svSeeks_steps e).2 hst)]
  have hdue := Hw.tbDue_timersOnly { (h.svSeeks e).up CLK_TB_STAT.STEPPED with clk := (h.svSeeks e).clk.tbStepped e }
  have hkeeps : ∀ f : Fld, CLK_TB_STAT.STEPPED.apart f = true → f.adr / 0x10000 ≠ 0x200D →
      (Hw.tbDue { (h.svSeeks e).up CLK_TB_STAT.STEPPED with clk := (h.svSeeks e).clk.tbStepped e }).get f = (h.svSeeks e).get f :=
    fun f hf ht => (hdue.get ht).trans (Hw.get_set_of_apart (h.svSeeks e) _ f 1 hf)
  refine ⟨?_, ?_, ?_, ?_, ?_⟩
  · exact (hkeeps CLK_SRV_STATE.STATE (by decide) (by decide)).trans (h.svSeeks_state e)
  · rw [hdue.clk, ← (h.svSeeks_clk e).1]
    rfl
  · exact (hdue.get (f := CLK_TB_STAT.STEPPED) (by decide)).trans (Hw.get_set_self (h.svSeeks e) CLK_TB_STAT.STEPPED 1 (by decide))
  · rw [hdue.clk]
    rfl
  · exact (hkeeps CLK_SRV_STATE.SAMPLES (by decide) (by decide)).trans (h.svSeeks_samples e)

/-- A sample that does not step TB is accepted; the eighth good one in a row leads to TRACK. -/
theorem Hw.svSample_acquires {h : Hw} (hm : h.loopMode loopServo ≠ 0) (hs : h.svState ≤ 1) {e : Int} (hst : ¬ h.svSteps e) :
    let t := h.svSample e
    let run := if e.natAbs ≤ h.get CLK_SRV_THR.LOCK_THR_L then (if h.svState = 0 then 0 else h.clk.srvIn) + 1 else 0
    t.clk.tb = h.clk.tb ∧ t.clk.srvLast = some h.clk.tb ∧ t.get CLK_SRV_STATE.SAMPLES = (h.get CLK_SRV_STATE.SAMPLES + 1) % 65536 ∧
    (8 ≤ run → t.svState = 2 ∧ t.reads [(CLK_TB_STAT.VALID, 1), (CLK_TB_STAT.COARSE, 0)]) ∧ (run < 8 → t.svState = 1 ∧ t.clk.srvIn = run) := by
  dsimp only
  rw [Hw.svSample_acquire hm hs, Hw.svAcq_counts (mt (h.svSeeks_steps e).1 hst), Hw.svSeeks_run hs]
  generalize (if e.natAbs ≤ h.get CLK_SRV_THR.LOCK_THR_L then (if h.svState = 0 then 0 else h.clk.srvIn) + 1 else 0) = run
  obtain ⟨l, m, f, hc⟩ := (h.svSeeks e).svCounted_clk e false run
  have hstate := ((h.svSeeks e).svCounted_state e false run).trans (h.svSeeks_state e)
  have hsamples := (h.svSeeks e).svCounted_samples e false run
  rw [h.svSeeks_samples e] at hsamples
  have htb := (h.svSeeks_clk e).1
  generalize (h.svSeeks e).svCounted e false run = t at hc hstate hsamples ⊢
  by_cases h8 : 8 ≤ run
  · have hne : t.svState ≠ 2 := by omega
    have hreads := Hw.svEnter_track_reads hne
    simp only [Hw.reads_cons, Hw.reads_nil, and_true] at hreads
    obtain ⟨hvalid, hcoarse, -⟩ := hreads
    simp only [if_pos h8, Hw.svEnter_clk (by decide : 2 ≠ 0) hne, hc]
    exact ⟨htb, congrArg some htb, (Hw.svEnter_get _ (by decide)).trans hsamples,
      fun _ => ⟨t.svEnter_state (by decide), by simpa using ⟨hvalid, hcoarse⟩⟩, fun hlt => absurd h8 (by omega)⟩
  · simp only [if_neg h8, hc]
    exact ⟨htb, congrArg some htb, hsamples, fun hle => absurd hle h8, fun _ => ⟨hstate, trivial⟩⟩

/-! ### TRACK and HOLDOVER -/

theorem Hw.svHears_outlier (h : Hw) (e : Int) : (h.svHears e).get CLK_SRV_THR.OUTLIER_THR_L = h.get CLK_SRV_THR.OUTLIER_THR_L :=
  h.svHears_get e (by decide)

theorem Hw.svHears_samples (h : Hw) (e : Int) : (h.svHears e).get CLK_SRV_STATE.SAMPLES = h.get CLK_SRV_STATE.SAMPLES := h.svHears_get e (by decide)

/-- An outlier in TRACK is discarded; the eighth in a row leads to HOLDOVER. -/
theorem Hw.svSample_outlier {h : Hw} (hm : h.loopMode loopServo ≠ 0) (hs : h.svState = 2) {e : Int} (hfar : h.get CLK_SRV_THR.OUTLIER_THR_L < e.natAbs) :
    let t := h.svSample e
    t.get CLK_SRV_STATE.SAMPLES = h.get CLK_SRV_STATE.SAMPLES ∧ t.clk.srvF = h.clk.srvF ∧ t.clk.srvLast = h.clk.srvLast ∧
    (8 ≤ h.clk.srvOut + 1 → t.svState = 3 ∧ t.get CLK_SRV_AUTH_STAT.SAFE_ACT = 1) ∧
    (h.clk.srvOut + 1 < 8 → t.svState = 2 ∧ t.clk.srvOut = h.clk.srvOut + 1 ∧ t.clk.srvDemand = h.clk.srvDemand) := by
  rw [← h.svHears_outlier e] at hfar
  rw [Hw.svSample_track hm hs, Hw.svTrk_far hfar]
  have hstate := (h.svHears_state e).trans hs
  have hsamples := h.svHears_samples e
  have hout : (h.svHears e).clk.srvOut = h.clk.srvOut := rfl
  rw [hout]
  by_cases h8 : 8 ≤ h.clk.srvOut + 1
  · have hne : ((h.svHears e).svOutliers (h.clk.srvOut + 1)).svState ≠ 3 := by
      have hsame : ((h.svHears e).svOutliers (h.clk.srvOut + 1)).svState = (h.svHears e).svState := rfl
      omega
    simp only [if_pos h8, Hw.svEnter_clk (by decide : 3 ≠ 0) hne]
    exact ⟨(Hw.svEnter_get _ (by decide)).trans hsamples, rfl, rfl, fun _ => ⟨Hw.svEnter_state _ (by decide), Hw.svEnter_holdover_safe hne⟩,
      fun hlt => absurd h8 (by omega)⟩
  · simp only [if_neg h8]
    exact ⟨hsamples, rfl, rfl, fun hle => absurd hle h8, fun _ => ⟨hstate, rfl, rfl⟩⟩

/-- A sample in TRACK that is no outlier is accepted and clears the outliers' count. -/
theorem Hw.svSample_tracks {h : Hw} (hm : h.loopMode loopServo ≠ 0) (hs : h.svState = 2) {e : Int} (hfar : ¬ h.get CLK_SRV_THR.OUTLIER_THR_L < e.natAbs) :
    let t := h.svSample e
    t.svState = 2 ∧ t.clk.srvOut = 0 ∧ t.clk.srvLast = some h.clk.tb ∧
    t.get CLK_SRV_STATE.SAMPLES = (h.get CLK_SRV_STATE.SAMPLES + 1) % 65536 := by
  rw [← h.svHears_outlier e] at hfar
  rw [Hw.svSample_track hm hs, Hw.svTrk_near hfar]
  obtain ⟨l, m, f, hc⟩ := Hw.svAccept_clk ((h.svHears e).svOutliers 0) e false
  have hstate := (Hw.svAccept_get ((h.svHears e).svOutliers 0) e false (f := CLK_SRV_STATE.STATE)
    (by decide) (by decide)).trans ((h.svHears_state e).trans hs)
  have hsamples := Hw.svAccept_samples ((h.svHears e).svOutliers 0) e false
  rw [Hw.svOutliers_get, h.svHears_samples e] at hsamples
  dsimp only
  rw [hc]
  exact ⟨hstate, rfl, rfl, hsamples⟩

/-- An outlier in HOLDOVER is discarded and the count toward TRACK starts again. -/
theorem Hw.svSample_holdover_outlier {h : Hw} (hm : h.loopMode loopServo ≠ 0) (hs : h.svState = 3) {e : Int}
    (hfar : h.get CLK_SRV_THR.OUTLIER_THR_L < e.natAbs) :
    let t := h.svSample e
    t.svState = 3 ∧ t.clk.srvIn = 0 ∧ t.get CLK_SRV_STATE.SAMPLES = h.get CLK_SRV_STATE.SAMPLES := by
  rw [← h.svHears_outlier e] at hfar
  rw [Hw.svSample_holdover hm hs, Hw.svHold_far hfar]
  exact ⟨(h.svHears_state e).trans hs, rfl, h.svHears_samples e⟩

/-- A good sample in HOLDOVER leaves F alone; the fourth in a row leads back to TRACK. -/
theorem Hw.svSample_recovers {h : Hw} (hm : h.loopMode loopServo ≠ 0) (hs : h.svState = 3) {e : Int} (hfar : ¬ h.get CLK_SRV_THR.OUTLIER_THR_L < e.natAbs) :
    let t := h.svSample e
    t.clk.srvF = h.clk.srvF ∧ t.get CLK_SRV_STATE.SAMPLES = (h.get CLK_SRV_STATE.SAMPLES + 1) % 65536 ∧
    (4 ≤ h.clk.srvIn + 1 → t.svState = 2 ∧ t.reads [(CLK_TB_STAT.VALID, 1), (CLK_TB_STAT.COARSE, 0), (CLK_SRV_AUTH_STAT.SAFE_ACT, 0)]) ∧
    (h.clk.srvIn + 1 < 4 → t.svState = 3 ∧ t.clk.srvIn = h.clk.srvIn + 1) := by
  rw [← h.svHears_outlier e] at hfar
  rw [Hw.svSample_holdover hm hs, Hw.svHold_near hfar]
  have hin : (h.svHears e).clk.srvIn = h.clk.srvIn := rfl
  rw [hin]
  have hstate := ((h.svHears e).svCounted_state e true (h.clk.srvIn + 1)).trans ((h.svHears_state e).trans hs)
  have hsamples := (h.svHears e).svCounted_samples e true (h.clk.srvIn + 1)
  rw [h.svHears_samples e] at hsamples
  have hclk : ((h.svHears e).svCounted e true (h.clk.srvIn + 1)).clk =
      { h.clk with srvIdle := 0, srvLast := some h.clk.tb, srvIn := h.clk.srvIn + 1 } :=
    congrArg (fun c : Clk => { c with srvIn := h.clk.srvIn + 1 }) ((h.svHears e).svAccept_hold_clk e)
  generalize (h.svHears e).svCounted e true (h.clk.srvIn + 1) = t at hstate hsamples hclk ⊢
  by_cases h4 : 4 ≤ h.clk.srvIn + 1
  · have hne : t.svState ≠ 2 := by omega
    simp only [if_pos h4, Hw.svEnter_clk (by decide : 2 ≠ 0) hne, hclk]
    exact ⟨rfl, (Hw.svEnter_get _ (by decide)).trans hsamples, fun _ => ⟨t.svEnter_state (by decide), Hw.svEnter_track_reads hne⟩,
      fun hlt => absurd h4 (by omega)⟩
  · simp only [if_neg h4, hclk]
    exact ⟨trivial, hsamples, fun hle => absurd hle h4, fun _ => ⟨hstate, trivial⟩⟩

end Sys2Proof.Machine

/-! The ROOT servo's correction at an epoch boundary, the boundary itself, and the commands of the clock chapter. -/

namespace Sys2Proof.Machine

/-! ### The correction at an epoch boundary (R45, R93) -/

theorem svStep_nonneg : 0 ≤ svStep := by
  unfold svStep
  norm_num

/-- One more epoch has passed since the last sample. -/
def Hw.svAges (h : Hw) : Hw := { h with clk := { h.clk with srvIdle := h.clk.srvIdle + 1 } }

/-- Where the servo moves the correction outside FREE: to F in HOLDOVER, else to its demand, and inside the bounds where it has none. -/
def Hw.svGoal (h : Hw) : Int :=
  if h.svState = 3 then h.svInside h.clk.srvF
  else match h.clk.srvDemand with
    | some d => h.svInside d
    | none => h.svInside (h.getS CLK_SRV_CORR.CORR)

theorem Hw.svGoal_inside (h : Hw) : ∃ v, h.svGoal = h.svInside v := by
  unfold Hw.svGoal
  split
  · exact ⟨_, rfl⟩
  · split <;> exact ⟨_, rfl⟩

theorem Hw.svFreeCorr_auto {h : Hw} (hm : h.loopMode loopServo = 1) : h.svFreeCorr = h.svInside (h.loopHint loopServo) := by
  unfold Hw.svFreeCorr
  rw [hm]
  rfl

/-- The correction that an epoch boundary brings in AUTO. -/
def Hw.svNext (h : Hw) : Int :=
  let v := h.getS CLK_SRV_CORR.CORR
  if h.svState = 0 then (if h.svInside v = v then h.svInside (h.loopHint loopServo) else slew v (h.svInside v) svStep) else slew v h.svGoal svStep

theorem Hw.svEpoch_auto {h : Hw} (hm : h.loopMode loopServo = 1) : h.svEpoch = h.svAges.svSet h.svNext := by
  have hmode : h.svAges.loopMode loopServo = 1 := hm
  unfold Hw.svEpoch
  dsimp only
  split
  · exact absurd (hmode.symm.trans ‹_›) (by decide)
  · exact absurd (hmode.symm.trans ‹_›) (by decide)
  · unfold Hw.svNext
    rw [← Hw.svFreeCorr_auto hm]
    dsimp only
    split
    · rename_i hs
      rw [if_pos (show h.svState = 0 from hs)]
      rfl
    · rename_i hs
      rw [if_neg (show ¬ h.svState = 0 from hs)]
      rfl

theorem Hw.fits32_corr (h : Hw) : fits32 (h.getS CLK_SRV_CORR.CORR) := fits32_sgn _

/-- In AUTO the boundary brings the hint in a FREE servo at rest, and else a slew to a place within the bounds. -/
theorem Hw.svNext_cases (h : Hw) :
    (h.svState = 0 ∧ h.svInside (h.getS CLK_SRV_CORR.CORR) = h.getS CLK_SRV_CORR.CORR ∧ h.svNext = h.svInside (h.loopHint loopServo)) ∨
    ∃ v, h.svNext = slew (h.getS CLK_SRV_CORR.CORR) (h.svInside v) svStep := by
  unfold Hw.svNext
  dsimp only
  split
  case isTrue hs =>
    split
    case isTrue hin => exact .inl ⟨hs, hin, rfl⟩
    case isFalse => exact .inr ⟨_, rfl⟩
  case isFalse =>
    obtain ⟨v, hv⟩ := h.svGoal_inside
    exact .inr ⟨v, by rw [hv]⟩

theorem Hw.svEpoch_corr {h : Hw} (hm : h.loopMode loopServo = 1) : h.svEpoch.getS CLK_SRV_CORR.CORR = h.svNext := by
  have hfits : fits32 h.svNext := by
    rcases h.svNext_cases with ⟨-, -, hn⟩ | ⟨v, hn⟩
    · rw [hn]
      exact h.fits32_svInside _
    · rw [hn]
      exact fits32_slew h.fits32_corr (h.fits32_svInside v) svStep_nonneg
  rw [Hw.svEpoch_auto hm, Hw.svSet_corr _ hfits]

/-- A FREE servo whose correction lies within the bounds takes its hint. -/
theorem Hw.svEpoch_free {h : Hw} (hm : h.loopMode loopServo = 1) (hs : h.svState = 0)
    (hlow : h.loopLow loopServo ≤ h.getS CLK_SRV_CORR.CORR) (hhigh : h.getS CLK_SRV_CORR.CORR ≤ h.loopHigh loopServo) :
    h.svEpoch.getS CLK_SRV_CORR.CORR = h.svInside (h.loopHint loopServo) := by
  have hin : h.svInside (h.getS CLK_SRV_CORR.CORR) = h.getS CLK_SRV_CORR.CORR := clampI_inside hlow hhigh
  rw [Hw.svEpoch_corr hm, Hw.svNext]
  simp only [hs, hin, if_true]

/-- Otherwise the correction moves by at most 2 ppm and does not leave the bounds. With LOW above HIGH a FREE servo whose correction is
what the bounds make of it stands still. -/
theorem Hw.svEpoch_slews {h : Hw} (hm : h.loopMode loopServo = 1)
    (hfree : h.svState = 0 → ¬ (h.loopLow loopServo ≤ h.getS CLK_SRV_CORR.CORR ∧ h.getS CLK_SRV_CORR.CORR ≤ h.loopHigh loopServo)) :
    (h.svEpoch.getS CLK_SRV_CORR.CORR - h.getS CLK_SRV_CORR.CORR).natAbs ≤ 32000 ∧
    (h.loopLow loopServo ≤ h.getS CLK_SRV_CORR.CORR → h.getS CLK_SRV_CORR.CORR ≤ h.loopHigh loopServo →
      h.loopLow loopServo ≤ h.svEpoch.getS CLK_SRV_CORR.CORR ∧ h.svEpoch.getS CLK_SRV_CORR.CORR ≤ h.loopHigh loopServo) := by
  rw [Hw.svEpoch_corr hm]
  rcases h.svNext_cases with ⟨hs, hin, hn⟩ | ⟨v, hn⟩
  · have hout := hfree hs
    have hsame : h.svNext = h.getS CLK_SRV_CORR.CORR := by
      rw [hn]
      unfold Hw.svInside Hw.loopInside clampI at hin ⊢
      omega
    rw [hsame]
    exact ⟨by omega, fun hlow hhigh => absurd ⟨hlow, hhigh⟩ hout⟩
  · rw [hn]
    refine ⟨slew_moves_at_most _ _ svStep svStep_nonneg, fun hlow hhigh => ?_⟩
    have hgoal : h.loopLow loopServo ≤ h.svInside v ∧ h.svInside v ≤ h.loopHigh loopServo := clampI_mem v (hlow.trans hhigh)
    have hbetween := slew_between (h.getS CLK_SRV_CORR.CORR) (h.svInside v) svStep_nonneg
    omega

/-! ### The epoch boundary (R21, R427) -/

/-- TB at the boundary of the next epoch, which is the highest generated from then on. -/
def Hw.epochReached (h : Hw) : Hw :=
  let k := h.tbReach (h.nextEpoch * 1000000)
  { k with clk := { k.clk with epochHi := some h.nextEpoch } }

theorem Hw.epochReached_get (h : Hw) {f : Fld} (hf : f.adr / 0x10000 ≠ 0x200D) : h.epochReached.get f = h.get f :=
  (Hw.get_withClk _ _ f).trans (h.tbReach_get _ hf)

theorem Hw.epochReached_epochHi (h : Hw) : h.epochReached.clk.epochHi = some h.nextEpoch := rfl

theorem Hw.epochEdge_eq (h : Hw) : h.epochEdge = (h.epochReached.up CMT_STATUS.EPOCH).capEdge capEpoch false := rfl

theorem Hw.epochEdge_epochHi (h : Hw) : h.epochEdge.clk.epochHi = some h.nextEpoch := by
  rw [Hw.epochEdge_eq, (Hw.capEdge_timersOnly _ _ _).clk, Hw.up, Hw.set_clk, Hw.epochReached_epochHi]

theorem Hw.epochEdge_shows (h : Hw) : h.epochEdge.get CMT_STATUS.EPOCH = 1 := by
  rw [Hw.epochEdge_eq, (Hw.capEdge_timersOnly _ _ _).get (by decide), Hw.up, Hw.get_set_self _ _ _ (by decide)]
  rfl

theorem Hw.epochEdge_keeps_state (h : Hw) : h.epochEdge.get CMT_STATUS.STATE = h.get CMT_STATUS.STATE := by
  rw [Hw.epochEdge_eq, (Hw.capEdge_timersOnly _ _ _).get (by decide), Hw.up, Hw.get_set_of_apart _ _ _ _ (by decide),
    Hw.epochReached_get _ (by decide)]

/-- An armed commit is captured at the edge and validation starts (R427). -/
theorem Hw.epochBoundary_armed {h : Hw} (hst : h.epochEdge.get CMT_STATUS.STATE = 1 ∨ h.epochEdge.get CMT_STATUS.STATE = 2) :
    h.epochBoundary = ((h.epochEdge.cmtCapture (decide (h.epochEdge.get CMT_STATUS.STATE = 2))).set CMT_STATUS.STATE 3).epochWork := by
  refine congrArg Hw.epochWork (if_pos ?_)
  rw [Bool.or_eq_true, decide_eq_true_eq, decide_eq_true_eq]
  exact hst

theorem Hw.epochBoundary_unarmed {h : Hw} (h1 : h.epochEdge.get CMT_STATUS.STATE ≠ 1) (h2 : h.epochEdge.get CMT_STATUS.STATE ≠ 2) :
    h.epochBoundary = h.epochEdge.epochWork := by
  refine congrArg Hw.epochWork (if_neg ?_)
  rw [Bool.or_eq_true, decide_eq_true_eq, decide_eq_true_eq]
  exact fun hor => hor.elim h1 h2

theorem Hw.nextEpoch_first {h : Hw} (hn : h.clk.epochHi = none) : h.nextEpoch = h.clk.tb.toNat / 1000000 + 1 := by
  unfold Hw.nextEpoch
  rw [hn]

theorem Hw.nextEpoch_later {h : Hw} {n : Nat} (hn : h.clk.epochHi = some n) : h.nextEpoch = max (h.clk.tb.toNat / 1000000) (n + 1) := by
  unfold Hw.nextEpoch
  rw [hn]

/-! ### The commands (R21, R79, R87, R94) -/

/-- A command whose condition holds completes with its effect. -/
theorem becomes_of_when {i : Instr} {s : State} {b : Hw → Bool} {f : Hw → Hw} {h : Hw} (hi : exec i s = s.run (fun k => k.when (b k) f))
    (hb : b s.hw = true) (hf : f s.hw = h) : Becomes i s h := by
  rw [Becomes, hi, State.run, Hw.when, if_pos hb, hf]

theorem Hw.clocked_of_up {h : Hw} (hup : h.pwr.phase = .up) (hs : h.pwr.sleep ≠ .sleep) : h.clocked = true := by
  simp only [Hw.clocked, Hw.mainUp, hup, decide_true, Bool.true_and, bne_iff_ne]
  exact hs

theorem Hw.mainUp_of_up {h : Hw} (hup : h.pwr.phase = .up) : h.mainUp = true := decide_eq_true hup

theorem Hw.launched_of_done {h : Hw} (hd : h.get SYS_LAUNCH_STAT.DONE = 1) : h.launched = true := (Hw.on_iff h rfl).2 hd

/-- CLOCK_FAIL is asked for (R67, R79, R87). -/
def Hw.asksClockFail (h : Hw) : Hw := { h with pwr := { h.pwr with pending := some (6, false) } }

theorem Hw.requestReset_clock {h : Hw} (hup : h.pwr.phase = .up) (hp : h.pwr.pending = none) (same : Bool) :
    h.requestReset rcClock same = h.asksClockFail := by
  unfold Hw.requestReset
  rw [if_pos (h.mainUp_of_up hup), hp]
  rfl

theorem pllUnlock_becomes {s : State} (hup : s.hw.pwr.phase = .up) (hs : s.hw.pwr.sleep ≠ .sleep) (hroot : s.hw.clk.onRoot = true)
    (hpll : s.hw.clk.pll = .locked) :
    Becomes .pllUnlock s ({ s.hw with clk := { s.hw.clk with pll := .unlocked, wakeUnlock := false } }.sets
      [(CLK_STAT.PLL_LOCK, 0), (CLK_STAT.UNLOCK_SEEN, 1)]) :=
  becomes_of_when (execPllUnlock.eq_1 s) (by simp [Hw.clocked_of_up hup hs, hroot, hpll]) rfl

theorem pllRelock_becomes {s : State} (hup : s.hw.pwr.phase = .up) (hs : s.hw.pwr.sleep ≠ .sleep) (hpll : s.hw.clk.pll = .unlocked) :
    Becomes .pllRelock s ({ s.hw with clk := { s.hw.clk with pll := .locked } }.set CLK_STAT.PLL_LOCK 1) :=
  becomes_of_when (execPllRelock.eq_1 s) (by simp [Hw.clocked_of_up hup hs, hpll]) rfl

theorem unlockTimeout_becomes {s : State} (hup : s.hw.pwr.phase = .up) (hs : s.hw.pwr.sleep ≠ .sleep) (hpll : s.hw.clk.pll = .unlocked)
    (hp : s.hw.pwr.pending = none) (b : Bool) : Becomes (.unlockTimeout b) s s.hw.asksClockFail :=
  becomes_of_when (execUnlockTimeout.eq_1 b s) (by simp [Hw.clocked_of_up hup hs, hpll]) (Hw.requestReset_clock hup hp b)

theorem xoFailReset_becomes {s : State} (hup : s.hw.pwr.phase = .up) (hx : s.hw.clk.xoDue = true) (hp : s.hw.pwr.pending = none) (b : Bool) :
    Becomes (.xoFailReset b) s ({ s.hw with clk := { s.hw.clk with xoDue := false } } : Hw).asksClockFail :=
  becomes_of_when (execXoFailReset.eq_1 b s) (by simp [Hw.mainUp_of_up hup, hx])
    (Hw.requestReset_clock (h := { s.hw with clk := { s.hw.clk with xoDue := false } }) hup hp b)

/-- A window of 2800 to 3600 reference edges shows its count; any other is XO_FAIL too (R87; log entry 165). -/
theorem xoMonitorWindow_becomes {s : State} (n : BitVec 12) (hup : s.hw.pwr.phase = .up) (hd : s.hw.get SYS_LAUNCH_STAT.DONE = 1) :
    (2800 ≤ n.toNat ∧ n.toNat ≤ 3600 → Becomes (.xoMonitorWindow n) s (s.hw.set CLK_MON.XO_CNT n.toNat)) ∧
    (n.toNat < 2800 ∨ 3600 < n.toNat → Becomes (.xoMonitorWindow n) s
      ({ s.hw with clk := { s.hw.clk with xoDue := true } }.sets [(CLK_MON.XO_CNT, n.toNat), (CLK_STAT.XO_FAIL, 1)])) := by
  have hgo : (s.hw.mainUp && s.hw.launched) = true := by rw [Hw.mainUp_of_up hup, Hw.launched_of_done hd]; rfl
  refine ⟨fun hin => becomes_of_when (execXoMonitorWindow.eq_1 n s) hgo (if_neg ?_),
    fun hout => becomes_of_when (execXoMonitorWindow.eq_1 n s) hgo (if_pos ?_)⟩
  · simp only [Bool.or_eq_true, decide_eq_true_eq]
    omega
  · simpa only [Bool.or_eq_true, decide_eq_true_eq] using hout

/-- A check of 31 to 36 LSX edges shows its count; any other is LSX_FAIL too (R87). -/
theorem lsxMonitorCheck_becomes {s : State} (n : BitVec 6) (hup : s.hw.pwr.phase = .up) (hd : s.hw.get SYS_LAUNCH_STAT.DONE = 1)
    (hl : s.hw.bak.lsxRun = true) (hp : s.hw.pwr.polderLow = false) (htb : s.hw.clk.tbRun = true) :
    (31 ≤ n.toNat ∧ n.toNat ≤ 36 → Becomes (.lsxMonitorCheck n) s (s.hw.set CLK_MON.LSX_CNT n.toNat)) ∧
    (n.toNat < 31 ∨ 36 < n.toNat → Becomes (.lsxMonitorCheck n) s (s.hw.sets [(CLK_MON.LSX_CNT, n.toNat), (CLK_STAT.LSX_FAIL, 1)])) := by
  have hgo : (s.hw.bak.lsxRun && s.hw.islandUp && (s.hw.launched || !s.hw.mainUp)) = true := by
    rw [hl, Hw.launched_of_done hd, Hw.islandUp, hp]
    rfl
  have hcount : (if s.hw.mainUp then s.hw.set CLK_MON.LSX_CNT n.toNat else s.hw) = s.hw.set CLK_MON.LSX_CNT n.toNat := if_pos (Hw.mainUp_of_up hup)
  refine ⟨fun hin => becomes_of_when (execLsxMonitorCheck.eq_1 n s) hgo ?_, fun hout => becomes_of_when (execLsxMonitorCheck.eq_1 n s) hgo ?_⟩
  · dsimp only
    rw [hcount, if_neg (by simp only [Bool.or_eq_true, decide_eq_true_eq]; omega)]
  · dsimp only
    rw [hcount, if_pos (by simpa only [Bool.or_eq_true, decide_eq_true_eq] using hout)]
    simp only [Hw.up, Hw.set_clk, htb, Bool.not_true]
    rfl

/-- HOLD_TMO takes ACQUIRE to FREE and TRACK to HOLDOVER, and nothing else (R94). -/
theorem Hw.svTimeout_eq (h : Hw) : (h.svState = 1 → h.svTimeout = h.svEnter 0) ∧ (h.svState = 2 → h.svTimeout = h.svEnter 3) ∧
    (h.svState = 0 ∨ h.svState = 3 → h.svTimeout = h) := by
  unfold Hw.svTimeout svAcquire svTrack svFree svHoldover
  refine ⟨fun hs => if_pos hs, fun hs => ?_, fun hs => ?_⟩
  · rw [if_neg (by omega), if_pos hs]
  · rw [if_neg (by omega), if_neg (by omega)]

theorem holdTmo_becomes {s : State} (hup : s.hw.pwr.phase = .up) (hs : s.hw.pwr.sleep ≠ .sleep)
    (hidle : s.hw.get CLK_SRV_CFG.HOLD_TMO_L ≤ s.hw.clk.srvIdle) : Becomes .holdTmo s s.hw.svTimeout :=
  becomes_of_when (execHoldTmo.eq_1 s) (by simp [Hw.clocked_of_up hup hs, hidle]) rfl

/-- An access that the bus lets through acts on the part. -/
theorem reacq_becomes {s : State} {acc : Access} (ho : s.hw.opens acc = true) : Becomes (.reacq acc) s (s.hw.svCtl acc 1).1 := by
  have hi : exec (.reacq acc) s = s.onBusBy acc (fun h => (h.svCtl acc 1).1) := rfl
  have ho' : s.hw.opensTo acc (s.hw.permits 0) = true := ho
  rw [Becomes, hi, State.onBusBy, State.onBusTo, State.run, if_pos ho']

/-- REACQ by TID 0 restarts acquisition outside FREE (R94). -/
theorem Hw.svCtl_reacq (h : Hw) (acc : Access) : (acc.tid = 0 → h.svState ≠ 0 → (h.svCtl acc 1).1 = h.svEnter 1) ∧
    (acc.tid ≠ 0 ∨ h.svState = 0 → (h.svCtl acc 1).1 = h) := by
  by_cases ht : acc.tid = 0
  · have hw : (h.svCtl acc 1).1 = if h.svState ≠ 0 then h.svEnter 1 else h := by
      simp [Hw.svCtl, Hw.guarded, ht, svFree, svAcquire]
    rw [hw]
    exact ⟨fun _ hs => if_pos hs, fun hor => if_neg (by simpa [ht] using hor)⟩
  · refine ⟨fun h0 => absurd h0 ht, fun _ => ?_⟩
    have hno : ¬ ((decide (acc.tid = 0) || ([] : List Nat).contains acc.tid.toNat) = true) := by simpa using ht
    rw [Hw.svCtl, Hw.guarded, if_neg hno]

theorem epochBoundary_becomes {s : State} (hup : s.hw.pwr.phase = .up) (hs : s.hw.pwr.sleep ≠ .sleep) (he : s.hw.pwr.sleep ≠ .sleepEmulated)
    (htb : s.hw.clk.tbRun = true) : Becomes .epochBoundary s s.hw.epochBoundary :=
  becomes_of_when (execEpochBoundary.eq_1 s) (by simp [Hw.clocked_of_up hup hs, he, htb]) rfl

/-! ### The statement -/

/-- Settles O33: each command completes with its rule's effect, each servo operation and each sample by the servo's state does what its
lemma above says, and a boundary captures what is armed at its edge. -/
theorem clocksAndServoFollowTheirRules : Obligations.ClocksAndServoFollowTheirRules := by
  unfold Obligations.ClocksAndServoFollowTheirRules
  refine ⟨fun s => ?_, fun k => ?_⟩
  · obtain ⟨hfree, hhold, hstay⟩ := s.hw.svTimeout_eq
    refine ⟨fun ⟨hup, hs⟩ => pllUnlock_becomes hup hs, fun ⟨hup, hs⟩ hpll => ⟨pllRelock_becomes hup hs hpll, unlockTimeout_becomes hup hs hpll⟩,
      fun n => xoMonitorWindow_becomes n, xoFailReset_becomes, fun n => lsxMonitorCheck_becomes n, fun ⟨hup, hs⟩ hidle => ?_, fun acc ho => ?_,
      fun ⟨hup, hs⟩ => epochBoundary_becomes hup hs⟩
    · have hrun := holdTmo_becomes hup hs hidle
      exact ⟨fun h1 => hfree h1 ▸ hrun, fun h2 => hhold h2 ▸ hrun, fun h3 => by rwa [hstay h3] at hrun⟩
    · obtain ⟨hgo, hrefuse⟩ := s.hw.svCtl_reacq acc
      have hrun := reacq_becomes ho
      exact ⟨fun ht hst => hgo ht hst ▸ hrun, fun hor => by rwa [hrefuse hor] at hrun⟩
  · refine ⟨k.svEnter_free_srvF, fun st hst => k.svEnter_state hst, fun hs => ?_, fun e d hd hm => k.svCompute_values e hd hm,
      Hw.svEnter_holdover_corr, Hw.svEpoch_free, Hw.svEpoch_slews, fun e => ?_, Hw.nextEpoch_first, fun n => Hw.nextEpoch_later,
      k.epochEdge_epochHi, k.epochEdge_shows, k.epochEdge_keeps_state, Hw.epochBoundary_armed, Hw.epochBoundary_unarmed⟩
    · have hreads := Hw.svEnter_track_reads hs
      simp only [Hw.reads_cons, Hw.reads_nil, and_true] at hreads ⊢
      obtain ⟨hvalid, hcoarse, -⟩ := hreads
      exact ⟨hvalid, hcoarse⟩
    · refine ⟨k.svSample_ofs e, fun hm => ?_, fun hm => ⟨(Hw.svSample_frame hm e).2, fun ⟨hs, hst⟩ => Hw.svSample_steps hm hs hst,
        fun hs hst => Hw.svSample_acquires hm hs (fun h => hst ⟨hs, h⟩), fun hs => Hw.svSample_outlier hm hs, fun hs => Hw.svSample_tracks hm hs,
        fun hs => Hw.svSample_holdover_outlier hm hs, fun hs => Hw.svSample_recovers hm hs⟩⟩
      rw [Hw.svSample_off hm]
      exact ⟨Hw.get_set_of_apart k _ _ _ (by decide), rfl⟩

end Sys2Proof.Machine

/-! Registers written by the timers at an edge: which they are, and what they leave alone. -/

namespace Sys2Proof.Machine

/-! ### Writes of registers within a range -/

/-- From `h` to `k` registers in `W` are written, and nothing else changes. -/
structure RegWrites (W : Nat → Prop) (h k : Hw) : Prop where
  only : k = { h with regs := k.regs }
  rd : ∀ a, ¬ W a → k.rd a = h.rd a

namespace RegWrites

variable {W V : Nat → Prop} {h k t : Hw}

theorem refl (W : Nat → Prop) (h : Hw) : RegWrites W h h := ⟨rfl, fun _ _ => rfl⟩

theorem trans (hk : RegWrites W h k) (ht : RegWrites W k t) : RegWrites W h t :=
  ⟨ht.only.trans (congrArg (fun x : Hw => { x with regs := t.regs }) hk.only), fun a ha => (ht.rd a ha).trans (hk.rd a ha)⟩

theorem mono (hk : RegWrites W h k) (hWV : ∀ a, W a → V a) : RegWrites V h k := ⟨hk.only, fun a ha => hk.rd a (mt (hWV a) ha)⟩

theorem wr (h : Hw) {a : Nat} (v : BitVec 32) (ha : W a) : RegWrites W h (h.wr a v) :=
  ⟨rfl, fun _ hb => Hw.rd_wr_other h v fun e => hb (e ▸ ha)⟩

theorem set (h : Hw) {f : Fld} (v : Nat) (hf : W f.adr) : RegWrites W h (h.set f v) := wr h _ hf

theorem ite {p : Prop} [Decidable p] (hk : RegWrites W h k) (ht : RegWrites W h t) : RegWrites W h (if p then k else t) := by
  split
  · exact hk
  · exact ht

theorem upIf (h : Hw) (b : Bool) {f : Fld} (hf : W f.adr) : RegWrites W h (h.upIf b f) := ite (set h 1 hf) (refl W h)

theorem foldl {α : Type} (F : Hw → α → Hw) (l : List α) (h : Hw) (hF : ∀ k, ∀ x ∈ l, RegWrites W k (F k x)) : RegWrites W h (l.foldl F h) :=
  List.foldlRecOn l F (refl W h) (fun _ hk x hx => hk.trans (hF _ x hx))

theorem get (hk : RegWrites W h k) {f : Fld} (hf : ¬ W f.adr) : k.get f = h.get f := by
  unfold Hw.get
  rw [hk.rd _ hf]

theorem phase (hk : RegWrites W h k) : k.phase = h.phase := (congrArg Hw.phase hk.only).trans rfl

theorem evLines (hk : RegWrites W h k) : k.evLines = h.evLines := (congrArg Hw.evLines hk.only).trans rfl

end RegWrites

/-! ### The registers of the timers -/

/-- The address lies in the block of timer `t`: GT0 to GT15, then PT0 to PT3. -/
def tmrReg (t a : Nat) : Prop :=
  (t < 16 ∧ 0x200D0400 + 64 * t ≤ a ∧ a < 0x200D0440 + 64 * t) ∨ (16 ≤ t ∧ 0x200D0800 + 128 * (t - 16) ≤ a ∧ a < 0x200D0880 + 128 * (t - 16))

/-- The registers that a capture edge may write: STAT, CAP and the stamp of every GT (R317). -/
def capReg (a : Nat) : Prop := 0x200D0400 ≤ a ∧ a < 0x200D0800 ∧ (a % 64 = 0x1C ∨ a % 64 = 0x24 ∨ a % 64 = 0x28 ∨ a % 64 = 0x2C)

/-- The registers from which timer `t` takes its next count. -/
def tmrInputs (t : Nat) : List Nat :=
  if t < 16 then [TMR_GT_COUNT t, TMR_GT_CFG_LIVE t, TMR_GT_RELOAD t]
  else [TMR_PT_COUNT (t - 16), TMR_PT_CFG_LIVE (t - 16), TMR_PT_PERIOD_ACT (t - 16), TMR_PT_STAT (t - 16)]

theorem tmrInputs_spared {t a : Nat} (ht : t < 20) (ha : a ∈ tmrInputs t) : ¬ capReg a ∧ ∀ j, j < 20 → j ≠ t → ¬ tmrReg j a := by
  unfold tmrInputs at ha
  unfold capReg tmrReg
  split at ha <;> simp only [List.mem_cons, List.not_mem_nil, or_false] at ha
  · simp only [TMR_GT_COUNT, TMR_GT_CFG_LIVE, TMR_GT_CFG, TMR_GT_RELOAD] at ha
    exact ⟨by omega, fun j _ _ => by omega⟩
  · simp only [TMR_PT_COUNT, TMR_PT_CFG_LIVE, TMR_PT_CFG, TMR_PT_PERIOD_ACT, TMR_PT_STAT] at ha
    exact ⟨by omega, fun j _ _ => by omega⟩

theorem tmrReg_window {t a : Nat} (ht : t < 20) (ha : tmrReg t a) : a / 0x10000 = 0x200D := by
  unfold tmrReg at ha
  omega

theorem capReg_window {a : Nat} (ha : capReg a) : a / 0x10000 = 0x200D := by
  unfold capReg at ha
  omega

/-! ### Captures and event lines (R316, R317, R322) -/

theorem Hw.gtCapture_writes (h : Hw) {n : Nat} (hn : n < 16) : RegWrites capReg h (h.gtCapture n) := by
  have hstat : capReg (TMR_GT_STAT n) := by simp only [capReg, TMR_GT_STAT]; omega
  unfold Hw.gtCapture
  refine ((RegWrites.upIf h _ hstat).trans (RegWrites.set _ 1 hstat)).trans (RegWrites.foldl _ _ _ fun k p hp => RegWrites.set k _ ?_)
  simp only [List.mem_cons, List.not_mem_nil, or_false] at hp
  rcases hp with rfl | rfl | rfl
  · simp only [capReg, TMR_GT_CAP.COUNT, TMR_GT_CAP]; omega
  · simp only [capReg, TMR_GT_CAP_TBL.TB, TMR_GT_CAP_TBL]; omega
  · simp only [capReg, TMR_GT_CAP_TBH.TB, TMR_GT_CAP_TBH]; omega

theorem Hw.capEdge_writes (h : Hw) (src : Nat) (falling : Bool) : RegWrites capReg h (h.capEdge src falling) :=
  RegWrites.foldl _ _ _ fun k _ hn => RegWrites.ite (k.gtCapture_writes (List.mem_range.1 hn)) (RegWrites.refl _ k)

/-- The event line of timer `t` alone. -/
def Hw.withLine (h : Hw) (t : Nat) (b : Bool) : Hw := { h with evLines := setBit h.evLines t b }

/-- An event line takes its level, and a PT's edge is captured. -/
theorem Hw.setEv_writes (h : Hw) (t : Nat) (b : Bool) : RegWrites capReg (h.withLine t b) (h.setEv t b) :=
  RegWrites.ite (Hw.capEdge_writes _ _ _) (RegWrites.refl _ _)

@[simp] theorem Hw.setEv_phase (h : Hw) (t : Nat) (b : Bool) : (h.setEv t b).phase = h.phase := (h.setEv_writes t b).phase

@[simp] theorem Hw.setEv_evLines (h : Hw) (t : Nat) (b : Bool) : (h.setEv t b).evLines = setBit h.evLines t b := (h.setEv_writes t b).evLines

theorem Hw.setEv_rd (h : Hw) (t : Nat) (b : Bool) {a : Nat} (ha : ¬ capReg a) : (h.setEv t b).rd a = h.rd a := (h.setEv_writes t b).rd a ha

theorem setBit_of_clear {n t : Nat} (hb : bitOf n t = false) : setBit n t false = n := by
  unfold bitOf at hb
  simp [setBit, Nat.and_two_pow, hb]

/-- A line that is down stays down without an edge. -/
theorem Hw.setEv_down {h : Hw} {t : Nat} (hb : bitOf h.evLines t = false) : h.setEv t false = h := by
  have hw : h.withLine t false = h := by rw [Hw.withLine, setBit_of_clear hb]
  have he : h.setEv t false = h.withLine t false := if_neg (by simp [hb])
  rw [he, hw]

end Sys2Proof.Machine

/-! What one PER_CLK edge does to a timer, and that every other timer takes its next count as if it had not been there. -/

namespace Sys2Proof.Machine

/-! ### One timer's work -/

/-- From `h` to `k` registers in `W` are written, and phases, PT outputs and event lines change; nothing else does. -/
structure TimerWork (W : Nat → Prop) (h k : Hw) : Prop where
  only : k = { h with regs := k.regs, phase := k.phase, pts := k.pts, evLines := k.evLines }
  rd : ∀ a, ¬ W a → k.rd a = h.rd a

namespace TimerWork

variable {W V : Nat → Prop} {h k t : Hw}

theorem refl (W : Nat → Prop) (h : Hw) : TimerWork W h h := ⟨rfl, fun _ _ => rfl⟩

theorem trans (hk : TimerWork W h k) (ht : TimerWork W k t) : TimerWork W h t :=
  ⟨ht.only.trans (congrArg (fun x : Hw => { x with regs := t.regs, phase := t.phase, pts := t.pts, evLines := t.evLines }) hk.only),
    fun a ha => (ht.rd a ha).trans (hk.rd a ha)⟩

theorem mono (hk : TimerWork W h k) (hWV : ∀ a, W a → V a) : TimerWork V h k := ⟨hk.only, fun a ha => hk.rd a (mt (hWV a) ha)⟩

theorem of_writes (hk : RegWrites W h k) : TimerWork W h k :=
  ⟨congrArg (fun x : Hw => { x with regs := k.regs, phase := k.phase, pts := k.pts, evLines := k.evLines }) hk.only, hk.rd⟩

theorem foldl {α : Type} (F : Hw → α → Hw) (l : List α) (h : Hw) (hF : ∀ k, ∀ x ∈ l, TimerWork W k (F k x)) : TimerWork W h (l.foldl F h) :=
  List.foldlRecOn l F (refl W h) (fun _ hk x hx => hk.trans (hF _ x hx))

theorem clk (hk : TimerWork W h k) : k.clk = h.clk := (congrArg Hw.clk hk.only).trans rfl

theorem core (hk : TimerWork W h k) (c : CoreId) : k.core c = h.core c := by
  have hc := congrArg (fun x : Hw => x.core c) hk.only
  cases c <;> exact hc

/-- Work in the timers' window leaves memory alone. -/
theorem sameMemory (hk : TimerWork W h k) (hW : ∀ a, W a → a / 0x10000 = 0x200D) : SameMemory h k := by
  have htop : k.rd DDR_TOP.TOP_MB.adr = h.rd DDR_TOP.TOP_MB.adr := hk.rd _ fun hd => absurd (hW _ hd) (by decide)
  have hsame : SameBytes h k := by
    refine ⟨?_, (congrArg Hw.xspi hk.only).trans rfl, (congrArg Hw.nvm hk.only).trans rfl, fun a => ?_⟩
    · unfold Hw.ddrTop Hw.get
      rw [htop]
    · exact (congrArg (fun x : Hw => (x.dirtyAt a).getD (x.backing a)) hk.only).trans rfl
  exact hsame.byte

end TimerWork

theorem Hw.setEv_work (h : Hw) (t : Nat) (b : Bool) : TimerWork capReg h (h.setEv t b) :=
  TimerWork.trans (k := h.withLine t b) ⟨rfl, fun _ _ => rfl⟩ (TimerWork.of_writes (h.setEv_writes t b))

/-! ### A tick of a general timer (R312 to R316) -/

/-- The part once GT `n` has its next count, and RUN cleared where it stops. -/
def Hw.gtCounted (h : Hw) (n : Nat) : Hw :=
  match (h.gtNext n).1 with
  | some v => (h.setPhase n 0).set (TMR_GT_COUNT.COUNT n) v
  | none => (h.setPhase n 0).clr (TMR_GT_CTL.RUN n)

/-- The registers in which a tick of GT `n` shows what it did. -/
def gtFlagReg (n a : Nat) : Prop := a = TMR_GT_STAT n ∨ a = TMR_GT_RLD_ACT n

theorem Hw.gtAct_writes (h : Hw) (n act : Nat) : RegWrites (gtFlagReg n) h (h.gtAct n act) := by
  unfold Hw.gtAct
  split
  · exact RegWrites.set h 1 (.inl rfl)
  · exact RegWrites.set h 0 (.inl rfl)
  · exact RegWrites.set h _ (.inl rfl)
  · exact RegWrites.refl _ h

/-- A tick of a GT: its count, then its flags and output, then its event line. -/
theorem Hw.gtTick_shape (h : Hw) (n : Nat) : ∃ k b, h.gtTick n = k.setEv n b ∧ RegWrites (gtFlagReg n) (h.gtCounted n) k := by
  refine ⟨_, _, rfl, ?_⟩
  have hact : ∀ (k : Hw) (b : Bool) (f : Fld) (act : Nat), f.adr = TMR_GT_STAT n → RegWrites (gtFlagReg n) k (if b then (k.up f).gtAct n act else k) :=
    fun k b f act hf => RegWrites.ite ((RegWrites.set k 1 (.inl hf)).trans (Hw.gtAct_writes _ n act)) (RegWrites.refl _ k)
  have hrld : RegWrites (gtFlagReg n) (h.gtCounted n)
      (if (h.gtNext n).2 && h.on (TMR_GT_CFG.MODE_L n) && (h.gtNext n).1.isSome then
        (h.gtCounted n).set (TMR_GT_RLD_ACT.VALUE n) ((h.gtNext n).1.getD 0) else h.gtCounted n) :=
    RegWrites.ite (RegWrites.set _ _ (.inr rfl)) (RegWrites.refl _ _)
  exact ((hrld.trans (RegWrites.upIf _ _ (.inl rfl))).trans (hact _ _ _ _ rfl)).trans (hact _ _ _ _ rfl)

theorem Hw.get_lt (h : Hw) (f : Fld) : h.get f < 2 ^ f.wid := Nat.mod_lt _ (Nat.two_pow_pos _)

theorem Hw.gtNext_lt {h : Hw} {n v : Nat} (hv : (h.gtNext n).1 = some v) : v < 2 ^ 32 := by
  have hc : h.get (TMR_GT_COUNT.COUNT n) < 2 ^ 32 := h.get_lt _
  have hr : h.get (TMR_GT_RELOAD.VALUE n) < 2 ^ 32 := h.get_lt _
  unfold Hw.gtNext at hv
  dsimp only at hv
  split at hv
  · split at hv
    · split at hv <;> simp at hv
      omega
    · simp at hv
      omega
  · simp at hv
    omega

/-- A GT whose count has no next value stands at 0 and stops there (R313). -/
theorem Hw.gtNext_none {h : Hw} {n : Nat} (hv : (h.gtNext n).1 = none) : h.get (TMR_GT_COUNT.COUNT n) = 0 := by
  unfold Hw.gtNext at hv
  dsimp only at hv
  split at hv
  · split at hv
    · assumption
    · simp at hv
  · simp at hv

theorem Hw.gtCounted_count (h : Hw) (n : Nat) : (h.gtCounted n).get (TMR_GT_COUNT.COUNT n) = ((h.gtNext n).1).getD 0 := by
  unfold Hw.gtCounted
  cases hv : (h.gtNext n).1 with
  | some v =>
    have hmod : v % 2 ^ 32 = v := Nat.mod_eq_of_lt (Hw.gtNext_lt hv)
    exact (Hw.get_set_self (h.setPhase n 0) (TMR_GT_COUNT.COUNT n) v (Nat.le_refl 32)).trans hmod
  | none =>
    have hstays : ((h.setPhase n 0).clr (TMR_GT_CTL.RUN n)).get (TMR_GT_COUNT.COUNT n) = h.get (TMR_GT_COUNT.COUNT n) :=
      Hw.get_set_apart _ _ _ _ (.inl (by simp only [TMR_GT_CTL.RUN, TMR_GT_CTL, TMR_GT_COUNT.COUNT, TMR_GT_COUNT]; omega))
    exact hstays.trans (Hw.gtNext_none hv)

theorem Hw.gtCounted_work (h : Hw) {n : Nat} (hn : n < 16) : TimerWork (tmrReg n) h (h.gtCounted n) := by
  have hphase : TimerWork (tmrReg n) h (h.setPhase n 0) := ⟨rfl, fun _ _ => rfl⟩
  unfold Hw.gtCounted
  cases (h.gtNext n).1 with
  | some v => exact hphase.trans (.of_writes (.set _ v (by simp only [tmrReg, TMR_GT_COUNT.COUNT, TMR_GT_COUNT]; omega)))
  | none => exact hphase.trans (.of_writes (.set _ 0 (by simp only [tmrReg, TMR_GT_CTL.RUN, TMR_GT_CTL]; omega)))

theorem Hw.gtCounted_phase (h : Hw) (n : Nat) : (h.gtCounted n).phase = tput 0 h.phase n 0 := by
  unfold Hw.gtCounted
  cases (h.gtNext n).1 <;> rfl

theorem Hw.gtCounted_evLines (h : Hw) (n : Nat) : (h.gtCounted n).evLines = h.evLines := by
  unfold Hw.gtCounted
  cases (h.gtNext n).1 <;> rfl

theorem gtFlagReg_own {n a : Nat} (hn : n < 16) (ha : gtFlagReg n a) : tmrReg n a := by
  simp only [gtFlagReg, TMR_GT_STAT, TMR_GT_RLD_ACT] at ha
  unfold tmrReg
  omega

/-! ### A tick of a PWM timer (R319 to R322) -/

theorem Hw.ptLoad_writes (h : Hw) {n : Nat} (hn : n < 4) : RegWrites (tmrReg (16 + n)) h (h.ptLoad n) := by
  unfold Hw.ptLoad
  refine (RegWrites.foldl _ _ _ fun k e he => RegWrites.wr k _ ?_).trans (RegWrites.upIf _ _ ?_)
  · simp only [List.mem_cons, List.not_mem_nil, or_false] at he
    rcases he with rfl | rfl | rfl | rfl | rfl | rfl | rfl <;>
      simp only [tmrReg, TMR_PT_PERIOD_ACT, TMR_PT_DUTY_ACT, TMR_PT_DT_ACT, TMR_PT_EVCMP_ACT] <;> omega
  · simp only [tmrReg, TMR_PT_STAT.LOADED, TMR_PT_STAT]; omega

/-- The part as a tick of PT `n` meets the count it writes: the phase cleared, the buffers loaded where a period starts. -/
def Hw.ptReady (h : Hw) (n : Nat) : Hw :=
  if h.ptStarts n && !(h.setPhase (16 + n) 0).on (TMR_PT_CTL.HOLD n) then (h.setPhase (16 + n) 0).ptLoad n else h.setPhase (16 + n) 0

theorem Hw.ptReady_writes (h : Hw) {n : Nat} (hn : n < 4) : RegWrites (tmrReg (16 + n)) (h.setPhase (16 + n) 0) (h.ptReady n) :=
  RegWrites.ite (Hw.ptLoad_writes _ hn) (RegWrites.refl _ _)

/-- A tick of a PT: its count, then its flags, then its outputs, then its event line. -/
theorem Hw.ptTick_shape (h : Hw) (n : Nat) : ∃ k x b, h.ptTick n = (k.setPt n x).setEv (16 + n) b ∧
    RegWrites (· = TMR_PT_STAT n) ((h.ptReady n).set (TMR_PT_COUNT.COUNT n) (h.ptNext n).1) k := by
  refine ⟨_, _, _, rfl, ?_⟩
  have hdir := RegWrites.set (W := (· = TMR_PT_STAT n)) ((h.ptReady n).set (TMR_PT_COUNT.COUNT n) (h.ptNext n).1) (f := TMR_PT_STAT.DIR n)
    (b2n (h.ptNext n).2) rfl
  exact (hdir.trans (RegWrites.upIf _ _ rfl)).trans (RegWrites.upIf _ _ rfl)

/-! ### One edge of a timer (R311) -/

/-- COUNT of timer `t`. -/
def countFld (t : Nat) : Fld := if t < 16 then TMR_GT_COUNT.COUNT t else TMR_PT_COUNT.COUNT (t - 16)

theorem countFld_gt {t : Nat} (ht : t < 16) : countFld t = TMR_GT_COUNT.COUNT t := if_pos ht

theorem countFld_pt (n : Nat) : countFld (16 + n) = TMR_PT_COUNT.COUNT n := by
  rw [countFld, if_neg (by omega), Nat.add_sub_cancel_left]

/-- An edge of timer `t` from `h` to `k`: its phase becomes `p` and its count `c`, it works in its own registers and those of captures,
and the event lines of the others stand. -/
structure TimerEdge (t p c : Nat) (h k : Hw) : Prop where
  work : TimerWork (fun a => tmrReg t a ∨ capReg a) h k
  phase : k.phase = tput 0 h.phase t p
  count : k.get (countFld t) = c
  line : ∀ j, j ≠ t → bitOf k.evLines j = bitOf h.evLines j

theorem bitOf_setBit_other (n : Nat) {t j : Nat} (b : Bool) (hj : j ≠ t) : bitOf (setBit n t b) j = bitOf n j := by
  rw [bit_setBit, if_neg hj]

theorem countFld_mem (t : Nat) : (countFld t).adr ∈ tmrInputs t := by
  unfold countFld tmrInputs
  split <;> exact List.mem_cons_self

theorem Hw.setEv_count (h : Hw) {t : Nat} (ht : t < 20) (j : Nat) (b : Bool) : (h.setEv j b).get (countFld t) = h.get (countFld t) := by
  unfold Hw.get
  rw [h.setEv_rd j b (tmrInputs_spared ht (countFld_mem t)).1]

theorem Hw.gtTick_edge (h : Hw) {n : Nat} (hn : n < 16) : TimerEdge n 0 (((h.gtNext n).1).getD 0) h (h.gtTick n) := by
  obtain ⟨k, b, hk, hw⟩ := h.gtTick_shape n
  rw [hk]
  refine ⟨?_, ?_, ?_, fun j hj => ?_⟩
  · have hown : TimerWork (tmrReg n) h k := (h.gtCounted_work hn).trans (.of_writes (hw.mono fun a => gtFlagReg_own hn))
    exact (hown.mono fun a => .inl).trans ((k.setEv_work n b).mono fun a => .inr)
  · rw [Hw.setEv_phase, hw.phase, Hw.gtCounted_phase]
  · have hkeeps : k.get (TMR_GT_COUNT.COUNT n) = (h.gtCounted n).get (TMR_GT_COUNT.COUNT n) :=
      hw.get (by simp only [gtFlagReg, TMR_GT_COUNT.COUNT, TMR_GT_COUNT, TMR_GT_STAT, TMR_GT_RLD_ACT]; omega)
    rw [Hw.setEv_count _ (Nat.lt_trans hn (by decide)), countFld_gt hn, hkeeps, Hw.gtCounted_count]
  · rw [Hw.setEv_evLines, bitOf_setBit_other _ b hj, hw.evLines, Hw.gtCounted_evLines]

theorem Hw.ptTick_edge (h : Hw) {n : Nat} (hn : n < 4) : TimerEdge (16 + n) 0 ((h.ptNext n).1 % 2 ^ 32) h (h.ptTick n) := by
  obtain ⟨k, x, b, hk, hw⟩ := h.ptTick_shape n
  have hready := h.ptReady_writes hn
  rw [hk]
  refine ⟨?_, ?_, ?_, fun j hj => ?_⟩
  · have hstat : ∀ a, a = TMR_PT_STAT n → tmrReg (16 + n) a := fun a ha => by simp only [ha, tmrReg, TMR_PT_STAT]; omega
    have hset : RegWrites (tmrReg (16 + n)) (h.ptReady n) ((h.ptReady n).set (TMR_PT_COUNT.COUNT n) (h.ptNext n).1) :=
      RegWrites.set _ _ (by simp only [tmrReg, TMR_PT_COUNT.COUNT, TMR_PT_COUNT]; omega)
    have hown : TimerWork (tmrReg (16 + n)) h k :=
      TimerWork.trans (k := h.setPhase (16 + n) 0) ⟨rfl, fun _ _ => rfl⟩ (.of_writes ((hready.trans hset).trans (hw.mono hstat)))
    have hpt : TimerWork (tmrReg (16 + n)) k (k.setPt n x) := ⟨rfl, fun _ _ => rfl⟩
    exact ((hown.trans hpt).mono fun a => .inl).trans ((Hw.setEv_work _ (16 + n) b).mono fun a => .inr)
  · have hkp : k.phase = tput 0 h.phase (16 + n) 0 := hw.phase.trans hready.phase
    rw [Hw.setEv_phase]
    exact hkp
  · have hkeeps : k.get (TMR_PT_COUNT.COUNT n) = (h.ptNext n).1 % 2 ^ 32 :=
      (hw.get (by simp only [TMR_PT_COUNT.COUNT, TMR_PT_COUNT, TMR_PT_STAT]; omega)).trans
        (Hw.get_set_self (h.ptReady n) (TMR_PT_COUNT.COUNT n) _ (Nat.le_refl 32))
    rw [Hw.setEv_count _ (Nat.add_lt_add_left hn 16), countFld_pt]
    exact hkeeps
  · have hkl : k.evLines = h.evLines := hw.evLines.trans hready.evLines
    rw [Hw.setEv_evLines, bitOf_setBit_other _ b hj]
    exact congrArg (bitOf · j) hkl

/-- The count that the next tick of timer `t` gives it. -/
def Hw.tmrNext (h : Hw) (t : Nat) : Nat := if t < 16 then ((h.gtNext t).1).getD 0 else (h.ptNext (t - 16)).1 % 2 ^ 32

theorem Hw.tmrTick_edge (h : Hw) {t : Nat} (ht : t < 20) : TimerEdge t 0 (h.tmrNext t) h (h.tmrTick t) := by
  by_cases hg : t < 16
  · rw [Hw.tmrNext, if_pos hg, Hw.tmrTick, if_pos hg]
    exact h.gtTick_edge hg
  · rw [Hw.tmrNext, if_neg hg, Hw.tmrTick, if_neg hg]
    have hpt := h.ptTick_edge (n := t - 16) (by omega)
    rwa [show 16 + (t - 16) = t by omega] at hpt

theorem Hw.tmrEdge_ticks {h : Hw} {t : Nat} (hp : h.tmrPre t ≤ h.tmrPhase t) : h.tmrEdge t = h.tmrTick t := if_pos hp

/-- Short of PRE an edge moves the phase, and a PT's delayed rises come nearer; no event line moves. -/
theorem Hw.tmrEdge_waits {h : Hw} {t : Nat} (hp : h.tmrPhase t < h.tmrPre t) :
    TimerEdge t (h.tmrPhase t + 1) (h.get (countFld t)) h (h.tmrEdge t) ∧ (h.tmrEdge t).evLines = h.evLines := by
  have he : h.tmrEdge t = if t < 16 then h.setPhase t (h.tmrPhase t + 1) else (h.setPhase t (h.tmrPhase t + 1)).ptPass (t - 16) :=
    if_neg (Nat.not_le.2 hp)
  rw [he]
  split
  · exact ⟨⟨⟨rfl, fun _ _ => rfl⟩, rfl, rfl, fun _ _ => rfl⟩, rfl⟩
  · exact ⟨⟨⟨rfl, fun _ _ => rfl⟩, rfl, rfl, fun _ _ => rfl⟩, rfl⟩

end Sys2Proof.Machine

/-! A PER_CLK edge for all timers at once. -/

namespace Sys2Proof.Machine

/-! ### What a timer counts from -/

/-- Timer `t` stands in `k` as in `h`: the registers from which it takes its next count, and its prescaler phase. -/
structure SameTimer (t : Nat) (h k : Hw) : Prop where
  inputs : ∀ a ∈ tmrInputs t, k.rd a = h.rd a
  phase : k.tmrPhase t = h.tmrPhase t

namespace SameTimer

variable {t : Nat} {h k u : Hw}

theorem refl (t : Nat) (h : Hw) : SameTimer t h h := ⟨fun _ _ => rfl, rfl⟩

theorem trans (hk : SameTimer t h k) (hu : SameTimer t k u) : SameTimer t h u :=
  ⟨fun a ha => (hu.inputs a ha).trans (hk.inputs a ha), hu.phase.trans hk.phase⟩

theorem get (hk : SameTimer t h k) {f : Fld} (hf : f.adr ∈ tmrInputs t) : k.get f = h.get f := by
  unfold Hw.get
  rw [hk.inputs _ hf]

theorem count (hk : SameTimer t h k) : k.get (countFld t) = h.get (countFld t) := hk.get (countFld_mem t)

theorem pre (hk : SameTimer t h k) : k.tmrPre t = h.tmrPre t := by
  unfold Hw.tmrPre
  split <;> rename_i hg
  · exact hk.get (by simp [tmrInputs, hg, TMR_GT_CFG.PRE_L])
  · exact hk.get (by simp [tmrInputs, hg, TMR_PT_CFG.PRE_L])

theorem next (hk : SameTimer t h k) : k.tmrNext t = h.tmrNext t := by
  unfold Hw.tmrNext
  split <;> rename_i hg
  · have hcount : k.get (TMR_GT_COUNT.COUNT t) = h.get (TMR_GT_COUNT.COUNT t) := hk.get (by simp [tmrInputs, hg, TMR_GT_COUNT.COUNT])
    have hmode : k.get (TMR_GT_CFG.MODE_L t) = h.get (TMR_GT_CFG.MODE_L t) := hk.get (by simp [tmrInputs, hg, TMR_GT_CFG.MODE_L])
    have hone : k.get (TMR_GT_CFG.ONESHOT_L t) = h.get (TMR_GT_CFG.ONESHOT_L t) := hk.get (by simp [tmrInputs, hg, TMR_GT_CFG.ONESHOT_L])
    have hrld : k.get (TMR_GT_RELOAD.VALUE t) = h.get (TMR_GT_RELOAD.VALUE t) := hk.get (by simp [tmrInputs, hg, TMR_GT_RELOAD.VALUE])
    unfold Hw.gtNext Hw.on
    rw [hcount, hmode, hone, hrld]
  · have hcount : k.get (TMR_PT_COUNT.COUNT (t - 16)) = h.get (TMR_PT_COUNT.COUNT (t - 16)) := hk.get (by simp [tmrInputs, hg, TMR_PT_COUNT.COUNT])
    have hmode : k.get (TMR_PT_CFG.MODE_L (t - 16)) = h.get (TMR_PT_CFG.MODE_L (t - 16)) := hk.get (by simp [tmrInputs, hg, TMR_PT_CFG.MODE_L])
    have hper : k.get (TMR_PT_PERIOD_ACT.VALUE (t - 16)) = h.get (TMR_PT_PERIOD_ACT.VALUE (t - 16)) :=
      hk.get (by simp [tmrInputs, hg, TMR_PT_PERIOD_ACT.VALUE])
    have hdir : k.get (TMR_PT_STAT.DIR (t - 16)) = h.get (TMR_PT_STAT.DIR (t - 16)) := hk.get (by simp [tmrInputs, hg, TMR_PT_STAT.DIR])
    unfold Hw.ptNext Hw.on
    rw [hcount, hmode, hper, hdir]

end SameTimer

/-- An edge of one timer leaves every other as it stands. -/
theorem TimerEdge.other {j t p c : Nat} {h k : Hw} (he : TimerEdge j p c h k) (hj : j < 20) (ht : t < 20) (hne : t ≠ j) : SameTimer t h k := by
  refine ⟨fun a ha => he.work.rd a ?_, ?_⟩
  · obtain ⟨hcap, hreg⟩ := tmrInputs_spared ht ha
    exact not_or.2 ⟨hreg j hj hne.symm, hcap⟩
  · rw [Hw.tmrPhase, he.phase, tget_tput, if_neg hne]
    rfl

theorem TimerEdge.phase_self {t p c : Nat} {h k : Hw} (he : TimerEdge t p c h k) : k.tmrPhase t = p := by
  rw [Hw.tmrPhase, he.phase, tget_tput, if_pos rfl]

theorem Hw.tmrEdge_edge (h : Hw) {t : Nat} (ht : t < 20) : ∃ p c, TimerEdge t p c h (h.tmrEdge t) := by
  by_cases hp : h.tmrPre t ≤ h.tmrPhase t
  · rw [Hw.tmrEdge_ticks hp]
    exact ⟨_, _, h.tmrTick_edge ht⟩
  · exact ⟨_, _, (Hw.tmrEdge_waits (Nat.lt_of_not_le hp)).1⟩

/-! ### The pulses of the last edge end -/

/-- Every event line is down. -/
def Hw.pulsesEnd (h : Hw) : Hw := (List.range 20).foldl (fun h t => h.setEv t false) h

theorem Hw.pulsesEnd_work (h : Hw) : TimerWork capReg h h.pulsesEnd := TimerWork.foldl _ _ _ fun k t _ => k.setEv_work t false

theorem Hw.pulsesEnd_phase (h : Hw) : h.pulsesEnd.phase = h.phase :=
  List.foldlRecOn (motive := fun k : Hw => k.phase = h.phase) _ _ rfl fun k hk t _ => (k.setEv_phase t false).trans hk

theorem Hw.pulsesEnd_same (h : Hw) {t : Nat} (ht : t < 20) : SameTimer t h h.pulsesEnd :=
  ⟨fun a ha => h.pulsesEnd_work.rd a (tmrInputs_spared ht ha).1, congrArg (tget 0 · t) h.pulsesEnd_phase⟩

theorem Hw.evLines_foldl_down (t : Nat) (l : List Nat) (h : Hw) :
    bitOf (l.foldl (fun h t => h.setEv t false) h).evLines t = if t ∈ l then false else bitOf h.evLines t := by
  induction l generalizing h with
  | nil => rfl
  | cons x l ih =>
    rw [List.foldl_cons, ih, Hw.setEv_evLines, bit_setBit]
    by_cases hx : t = x <;> by_cases hl : t ∈ l <;> simp [hx, hl]

theorem Hw.pulsesEnd_line (h : Hw) {t : Nat} (ht : t < 20) : bitOf h.pulsesEnd.evLines t = false := by
  rw [Hw.pulsesEnd, Hw.evLines_foldl_down, if_pos (List.mem_range.2 ht)]

theorem Hw.pulsesEnd_quiet {h : Hw} (hl : h.evLines = 0) : h.pulsesEnd = h := by
  refine List.foldlRecOn (motive := fun k => k = h) _ _ rfl fun k hk t _ => ?_
  rw [hk]
  exact Hw.setEv_down (by rw [hl]; exact Nat.zero_testBit t)

/-! ### The timers that count have their edges -/

/-- Timer `t` has its edge where `counts` names it. -/
def Hw.tmrTurn (counts : Nat → Bool) (h : Hw) (t : Nat) : Hw := if counts t then h.tmrEdge t else h

theorem Hw.tmrEdges_eq (h : Hw) (counts : Nat → Bool) : h.tmrEdges counts = (List.range 20).reverse.foldl (Hw.tmrTurn counts) h.pulsesEnd := rfl

/-- The turns of other timers leave timer `t` and its event line as they stand. -/
theorem Hw.tmrTurns_other (counts : Nat → Bool) {t : Nat} (ht : t < 20) {l : List Nat} (hl : ∀ j ∈ l, j < 20 ∧ t ≠ j) (h : Hw) :
    SameTimer t h (l.foldl (Hw.tmrTurn counts) h) ∧ bitOf (l.foldl (Hw.tmrTurn counts) h).evLines t = bitOf h.evLines t := by
  refine List.foldlRecOn (motive := fun k => SameTimer t h k ∧ bitOf k.evLines t = bitOf h.evLines t) _ _ ⟨.refl t h, rfl⟩ ?_
  intro k ⟨hsame, hline⟩ j hj
  obtain ⟨hj20, hne⟩ := hl j hj
  unfold Hw.tmrTurn
  split
  · obtain ⟨p, c, he⟩ := k.tmrEdge_edge hj20
    exact ⟨hsame.trans (he.other hj20 ht hne), (he.line t hne).trans hline⟩
  · exact ⟨hsame, hline⟩

/-- Timer `t` meets its turn as it stood before the edge, its line down, and what its turn makes of it stands after the edge. -/
theorem Hw.tmrEdges_turn (h : Hw) (counts : Nat → Bool) {t : Nat} (ht : t < 20) :
    ∃ m, SameTimer t h m ∧ bitOf m.evLines t = false ∧ SameTimer t (m.tmrTurn counts t) (h.tmrEdges counts) ∧
      bitOf (h.tmrEdges counts).evLines t = bitOf (m.tmrTurn counts t).evLines t := by
  obtain ⟨l, r, hlr⟩ := List.append_of_mem (List.mem_reverse.2 (List.mem_range.2 ht))
  have hnodup : (l ++ t :: r).Nodup := hlr ▸ List.nodup_reverse.2 List.nodup_range
  have hlt : ∀ j ∈ l ++ t :: r, j < 20 := fun j hj => List.mem_range.1 (List.mem_reverse.1 (hlr ▸ hj))
  have hl : ∀ j ∈ l, j < 20 ∧ t ≠ j := fun j hj =>
    ⟨hlt j (List.mem_append_left _ hj), fun e => List.disjoint_of_nodup_append hnodup hj (e ▸ List.mem_cons_self)⟩
  have hr : ∀ j ∈ r, j < 20 ∧ t ≠ j := fun j hj =>
    ⟨hlt j (List.mem_append_right _ (List.mem_cons_of_mem _ hj)), fun e => (List.nodup_cons.1 (List.nodup_append.1 hnodup).2.1).1 (e ▸ hj)⟩
  obtain ⟨hbefore, hline⟩ := Hw.tmrTurns_other counts ht hl h.pulsesEnd
  have hafter := Hw.tmrTurns_other counts ht hr ((l.foldl (Hw.tmrTurn counts) h.pulsesEnd).tmrTurn counts t)
  rw [Hw.tmrEdges_eq, hlr, List.foldl_append, List.foldl_cons]
  exact ⟨_, (h.pulsesEnd_same ht).trans hbefore, hline.trans (h.pulsesEnd_line ht), hafter⟩

theorem Hw.tmrEdges_idle (h : Hw) {counts : Nat → Bool} {t : Nat} (ht : t < 20) (hc : counts t = false) :
    (h.tmrEdges counts).get (countFld t) = h.get (countFld t) ∧ (h.tmrEdges counts).tmrPhase t = h.tmrPhase t ∧
      bitOf (h.tmrEdges counts).evLines t = false := by
  obtain ⟨m, hm, hline, hk, hkline⟩ := h.tmrEdges_turn counts ht
  have hturn : m.tmrTurn counts t = m := by simp [Hw.tmrTurn, hc]
  rw [hturn] at hk hkline
  exact ⟨(hm.trans hk).count, (hm.trans hk).phase, hkline.trans hline⟩

theorem Hw.tmrEdges_waits (h : Hw) {counts : Nat → Bool} {t : Nat} (ht : t < 20) (hc : counts t = true) (hp : h.tmrPhase t < h.tmrPre t) :
    (h.tmrEdges counts).get (countFld t) = h.get (countFld t) ∧ (h.tmrEdges counts).tmrPhase t = h.tmrPhase t + 1 ∧
      bitOf (h.tmrEdges counts).evLines t = false := by
  obtain ⟨m, hm, hline, hk, hkline⟩ := h.tmrEdges_turn counts ht
  have hturn : m.tmrTurn counts t = m.tmrEdge t := by simp [Hw.tmrTurn, hc]
  rw [hturn] at hk hkline
  obtain ⟨he, hel⟩ := Hw.tmrEdge_waits (h := m) (t := t) (by rwa [hm.phase, hm.pre])
  exact ⟨hk.count.trans (he.count.trans hm.count), by rw [hk.phase, he.phase_self, hm.phase], by rw [hkline, hel, hline]⟩

theorem Hw.tmrEdges_ticks (h : Hw) {counts : Nat → Bool} {t : Nat} (ht : t < 20) (hc : counts t = true) (hp : h.tmrPre t ≤ h.tmrPhase t) :
    (h.tmrEdges counts).get (countFld t) = h.tmrNext t ∧ (h.tmrEdges counts).tmrPhase t = 0 := by
  obtain ⟨m, hm, -, hk, -⟩ := h.tmrEdges_turn counts ht
  have hturn : m.tmrTurn counts t = m.tmrTick t := by
    rw [Hw.tmrTurn, if_pos hc, Hw.tmrEdge_ticks (by rwa [hm.phase, hm.pre])]
  rw [hturn] at hk
  have he := m.tmrTick_edge ht
  exact ⟨hk.count.trans (he.count.trans hm.next), hk.phase.trans he.phase_self⟩

/-- An edge for the timers writes registers of the timers' window alone. -/
theorem Hw.tmrEdges_work (h : Hw) (counts : Nat → Bool) : TimerWork (· / 0x10000 = 0x200D) h (h.tmrEdges counts) := by
  refine (h.pulsesEnd_work.mono fun a => capReg_window).trans (TimerWork.foldl _ _ _ fun k t ht => ?_)
  have ht20 : t < 20 := List.mem_range.1 (List.mem_reverse.1 ht)
  split
  · obtain ⟨p, c, he⟩ := k.tmrEdge_edge ht20
    exact he.work.mono fun a ha => ha.elim (tmrReg_window ht20) capReg_window
  · exact .refl _ k

/-- Where no event line is up and no timer counts, an edge changes nothing. -/
theorem Hw.tmrEdges_still {h : Hw} {counts : Nat → Bool} (hl : h.evLines = 0) (hc : ∀ t, t < 20 → counts t = false) : h.tmrEdges counts = h := by
  rw [Hw.tmrEdges_eq, Hw.pulsesEnd_quiet hl]
  refine List.foldlRecOn (motive := fun k => k = h) _ _ rfl fun k hk t ht => ?_
  rw [hk, Hw.tmrTurn, hc t (List.mem_range.1 (List.mem_reverse.1 ht))]
  rfl

end Sys2Proof.Machine

/-! The watchdogs at an edge: WD0 and WD1 (R161, R67), and WDP (R395). -/

namespace Sys2Proof.Machine

/-! ### A request of a reset -/

/-- A request of a reset changes which reset is pending, and nothing else. -/
theorem Hw.requestReset_only (h : Hw) (cause : Nat) (same : Bool) :
    h.requestReset cause same = { h with pwr := { h.pwr with pending := (h.requestReset cause same).pwr.pending } } := by
  unfold Hw.requestReset
  split
  · split
    · rfl
    · split <;> rfl
  · rfl

theorem Hw.requestReset_get (h : Hw) (cause : Nat) (same : Bool) (f : Fld) : (h.requestReset cause same).get f = h.get f :=
  Hw.get_of_regs ((congrArg Hw.regs (h.requestReset_only cause same)).trans rfl) f

theorem Hw.requestReset_first {h : Hw} (hup : h.mainUp = true) (hp : h.pwr.pending = none) (cause : Nat) (same : Bool) :
    (h.requestReset cause same).pwr.pending = some (cause, false) := by
  rw [Hw.requestReset, if_pos hup, hp]

theorem Hw.requestReset_later {h : Hw} (hup : h.mainUp = true) {p : Nat × Bool} (hp : h.pwr.pending = some p) (cause : Nat) (same : Bool) :
    (h.requestReset cause same).pwr.pending = if same = true ∧ p.1 ≠ cause then some (min p.1 cause, true) else some p := by
  have hcond : ((same && p.1 != cause) = true) = (same = true ∧ p.1 ≠ cause) := by simp
  rw [Hw.requestReset, if_pos hup, hp]
  simp only [hcond]
  split
  · rfl
  · exact hp

/-! ### WD0 and WD1 -/

/-- The registers that an edge of WDn writes. -/
def wdReg (n a : Nat) : Prop := a = TMR_WD_COUNT n ∨ a = TMR_WD_STAT n

theorem Hw.wdRuns_mainUp {h : Hw} {n : Nat} (hr : h.wdRuns n = true) : h.mainUp = true := by
  simp only [Hw.wdRuns, Hw.clocked, Bool.and_eq_true] at hr
  obtain ⟨⟨⟨⟨-, hup, -⟩, -⟩, -⟩, -⟩ := hr
  exact hup

theorem Hw.wdPass_writes (h : Hw) (n k : Nat) : RegWrites (wdReg n) h (h.wdPass n k) :=
  (RegWrites.set h _ (.inl rfl)).trans (RegWrites.upIf _ _ (.inr rfl))

theorem wdCount_ne_stat (n m : Nat) : TMR_WD_COUNT n ≠ TMR_WD_STAT m := by
  simp only [TMR_WD_COUNT, TMR_WD_STAT]
  omega

/-- A passing count goes down, to 0 at least. -/
theorem Hw.wdPass_count (h : Hw) (n k : Nat) : (h.wdPass n k).get (TMR_WD_COUNT.VALUE n) = h.get (TMR_WD_COUNT.VALUE n) - k := by
  have hlt : h.get (TMR_WD_COUNT.VALUE n) < 2 ^ 24 := h.get_lt _
  have hstat : RegWrites (· = TMR_WD_STAT n) (h.set (TMR_WD_COUNT.VALUE n) (h.get (TMR_WD_COUNT.VALUE n) - k)) (h.wdPass n k) := RegWrites.upIf _ _ rfl
  rw [hstat.get (wdCount_ne_stat n n), Hw.get_set_self h _ _ (show 0 + 24 ≤ 32 by decide)]
  exact Nat.mod_eq_of_lt (Nat.lt_of_le_of_lt (Nat.sub_le _ _) hlt)

/-- One count to a value above 0 sets WARNED where it comes to WARN. -/
theorem Hw.wdPass_warned {h : Hw} {n : Nat} (hc : 1 < h.get (TMR_WD_COUNT.VALUE n)) : (h.wdPass n 1).get (TMR_WD_STAT.WARNED n) =
    if h.get (TMR_WD_COUNT.VALUE n) - 1 = h.get (TMR_WD_WARN.VALUE n) then 1 else h.get (TMR_WD_STAT.WARNED n) := by
  have hmeets : ((h.get (TMR_WD_WARN.VALUE n) != 0 && decide (h.get (TMR_WD_WARN.VALUE n) < h.get (TMR_WD_COUNT.VALUE n)) &&
      decide (h.get (TMR_WD_COUNT.VALUE n) - 1 ≤ h.get (TMR_WD_WARN.VALUE n))) = true) =
      (h.get (TMR_WD_COUNT.VALUE n) - 1 = h.get (TMR_WD_WARN.VALUE n)) := by
    simp only [Bool.and_eq_true, bne_iff_ne, decide_eq_true_eq, eq_iff_iff]
    omega
  unfold Hw.wdPass Hw.upIf
  simp only [hmeets]
  split
  · exact Hw.get_set_self _ (TMR_WD_STAT.WARNED n) 1 (show 0 + 1 ≤ 32 by decide)
  · exact Hw.get_set_apart h _ _ _ (.inl (wdCount_ne_stat n n))

theorem Hw.wdDown_counts {h : Hw} {n : Nat} (hc : 1 < h.get (TMR_WD_COUNT.VALUE n)) (same : Bool) : h.wdDown n same = h.wdPass n 1 :=
  if_neg (by rw [Hw.wdPass_count]; omega)

theorem Hw.wdDown_expires {h : Hw} {n : Nat} (hc : h.get (TMR_WD_COUNT.VALUE n) ≤ 1) (same : Bool) :
    h.wdDown n same = ((h.wdPass n 1).set (TMR_WD_COUNT.VALUE n) 0).requestReset (rcWd n) same :=
  if_pos (by rw [Hw.wdPass_count]; omega)

theorem Hw.wdDown_count (h : Hw) (n : Nat) (same : Bool) :
    (h.wdDown n same).get (TMR_WD_COUNT.VALUE n) = h.get (TMR_WD_COUNT.VALUE n) - 1 := by
  by_cases hc : 1 < h.get (TMR_WD_COUNT.VALUE n)
  · rw [Hw.wdDown_counts hc, Hw.wdPass_count]
  · rw [Hw.wdDown_expires (Nat.le_of_not_lt hc), Hw.requestReset_get, Hw.get_set_self _ _ _ (show 0 + 24 ≤ 32 by decide), Nat.zero_mod]
    omega

/-- From `h` to `k` WDn has its edge: registers of its own, its part of a count and the pending reset change, and nothing else. -/
structure WdWork (n : Nat) (h k : Hw) : Prop where
  only : k = { h with regs := k.regs, wdFrac := k.wdFrac, pwr := { h.pwr with pending := k.pwr.pending } }
  rd : ∀ a, ¬ wdReg n a → k.rd a = h.rd a
  frac : ∀ j, j ≠ n → tget 0 k.wdFrac j = tget 0 h.wdFrac j

/-- WDn with `t` half nanoseconds gone since its count last went down. -/
def Hw.wdTimed (h : Hw) (n t : Nat) : Hw := { h with wdFrac := tput 0 h.wdFrac n t }

theorem tget_tput_other {α : Type} [DecidableEq α] (d : α) (m : SMap α) {k j : Nat} (v : α) (hj : j ≠ k) : tget d (tput d m k v) j = tget d m j := by
  rw [tget_tput, if_neg hj]

theorem tget_tput_self {α : Type} [DecidableEq α] (d : α) (m : SMap α) (k : Nat) (v : α) : tget d (tput d m k v) k = v := by
  rw [tget_tput, if_pos rfl]

namespace WdWork

variable {n : Nat} {h k t : Hw}

theorem refl (n : Nat) (h : Hw) : WdWork n h h := ⟨rfl, fun _ _ => rfl, fun _ _ => rfl⟩

theorem trans (hk : WdWork n h k) (ht : WdWork n k t) : WdWork n h t :=
  ⟨ht.only.trans (congrArg (fun x : Hw => { x with regs := t.regs, wdFrac := t.wdFrac, pwr := { x.pwr with pending := t.pwr.pending } }) hk.only),
    fun a ha => (ht.rd a ha).trans (hk.rd a ha), fun j hj => (ht.frac j hj).trans (hk.frac j hj)⟩

theorem of_writes (hk : RegWrites (wdReg n) h k) : WdWork n h k :=
  ⟨congrArg (fun x : Hw => { x with regs := k.regs, wdFrac := k.wdFrac, pwr := { x.pwr with pending := k.pwr.pending } }) hk.only, hk.rd,
    fun j _ => (congrArg (fun x : Hw => tget 0 x.wdFrac j) hk.only).trans rfl⟩

theorem timed (h : Hw) (n t : Nat) : WdWork n h (h.wdTimed n t) := ⟨rfl, fun _ _ => rfl, fun _ hj => tget_tput_other _ _ _ hj⟩

theorem requests (h : Hw) (n cause : Nat) (same : Bool) : WdWork n h (h.requestReset cause same) := by
  have honly := h.requestReset_only cause same
  refine ⟨?_, fun a _ => Hw.rd_of_regs ((congrArg Hw.regs honly).trans rfl) a, fun j _ => (congrArg (fun x : Hw => tget 0 x.wdFrac j) honly).trans rfl⟩
  have hregs : (h.requestReset cause same).regs = h.regs := (congrArg Hw.regs honly).trans rfl
  have hfrac : (h.requestReset cause same).wdFrac = h.wdFrac := (congrArg Hw.wdFrac honly).trans rfl
  rw [hregs, hfrac]
  exact honly

theorem get (hk : WdWork n h k) {f : Fld} (hf : ¬ wdReg n f.adr) : k.get f = h.get f := by
  unfold Hw.get
  rw [hk.rd _ hf]

theorem mainUp (hk : WdWork n h k) : k.mainUp = h.mainUp := (congrArg Hw.mainUp hk.only).trans rfl

/-- The other watchdog runs as it did. -/
theorem runs (hk : WdWork n h k) (j : Nat) : k.wdRuns j = h.wdRuns j := by
  have hctl : ∀ f : Fld, f.adr = TMR_WD_CTL j → k.on f = h.on f := fun f hf => by
    have hspared : ¬ wdReg n f.adr := by simp only [hf, wdReg, TMR_WD_CTL, TMR_WD_COUNT, TMR_WD_STAT]; omega
    rw [Hw.on, hk.get hspared]
    rfl
  have hclk : k.clocked = h.clocked := (congrArg Hw.clocked hk.only).trans rfl
  have hsleep : k.pwr.sleep = h.pwr.sleep := (congrArg (fun x : Hw => x.pwr.sleep) hk.only).trans rfl
  have hm0 : k.m0 = h.m0 := (congrArg Hw.m0 hk.only).trans rfl
  have hm1 : k.m1 = h.m1 := (congrArg Hw.m1 hk.only).trans rfl
  unfold Hw.wdRuns
  rw [hctl _ rfl, hctl _ rfl, hctl _ rfl, hclk, hsleep, hm0, hm1]

end WdWork

theorem Hw.wdDown_work (h : Hw) (n : Nat) (same : Bool) : WdWork n h (h.wdDown n same) := by
  by_cases hc : 1 < h.get (TMR_WD_COUNT.VALUE n)
  · rw [Hw.wdDown_counts hc]
    exact .of_writes (h.wdPass_writes n 1)
  · rw [Hw.wdDown_expires (Nat.le_of_not_lt hc)]
    exact (WdWork.of_writes ((h.wdPass_writes n 1).trans (RegWrites.set _ 0 (.inl rfl)))).trans (.requests _ n _ _)

/-- At its last count WDn asks for its reset, with the power state as it was. -/
theorem Hw.wdDown_request {h : Hw} {n : Nat} (hup : h.mainUp = true) (hc : h.get (TMR_WD_COUNT.VALUE n) ≤ 1) (same : Bool) :
    ∃ g : Hw, h.wdDown n same = g.requestReset (rcWd n) same ∧ g.mainUp = true ∧ g.pwr = h.pwr := by
  have hw := (h.wdPass_writes n 1).trans (RegWrites.set _ (f := TMR_WD_COUNT.VALUE n) 0 (.inl rfl))
  exact ⟨_, Hw.wdDown_expires hc same, (WdWork.of_writes hw).mainUp.trans hup, (congrArg Hw.pwr hw.only).trans rfl⟩

/-! ### The edge of WDn -/

theorem Hw.wdEdge_stopped {h : Hw} {n : Nat} (hr : h.wdRuns n = false) (same : Bool) : h.wdEdge n same = h :=
  if_pos (by rw [hr]; rfl)

/-- WDn lets an edge pass: short of 16 000 half nanoseconds its count stands, and at them it goes down (log entry 24). -/
theorem Hw.wdEdge_runs {h : Hw} {n : Nat} (hr : h.wdRuns n = true) (same : Bool) :
    h.wdEdge n same = (let t := tget 0 h.wdFrac n + h.get CLK_DIV.PER_DIV
      if t < 16000 then h.wdTimed n t else (h.wdTimed n (t - 16000)).wdDown n same) :=
  if_neg (by rw [hr]; decide)

theorem Hw.wdEdge_waits {h : Hw} {n : Nat} (hr : h.wdRuns n = true) (ht : tget 0 h.wdFrac n + h.get CLK_DIV.PER_DIV < 16000) (same : Bool) :
    h.wdEdge n same = h.wdTimed n (tget 0 h.wdFrac n + h.get CLK_DIV.PER_DIV) := by
  rw [Hw.wdEdge_runs hr]
  exact if_pos ht

theorem Hw.wdEdge_counts {h : Hw} {n : Nat} (hr : h.wdRuns n = true) (ht : 16000 ≤ tget 0 h.wdFrac n + h.get CLK_DIV.PER_DIV) (same : Bool) :
    ∃ u, u = tget 0 h.wdFrac n + h.get CLK_DIV.PER_DIV - 16000 ∧ h.wdEdge n same = (h.wdTimed n u).wdDown n same :=
  ⟨_, rfl, (Hw.wdEdge_runs hr same).trans (if_neg (Nat.not_lt.2 ht))⟩

theorem Hw.wdDown_wdFrac (h : Hw) (n : Nat) (same : Bool) : (h.wdDown n same).wdFrac = h.wdFrac := by
  have hpass := (congrArg Hw.wdFrac (h.wdPass_writes n 1).only).trans rfl
  by_cases hc : 1 < h.get (TMR_WD_COUNT.VALUE n)
  · rw [Hw.wdDown_counts hc]
    exact hpass
  · rw [Hw.wdDown_expires (Nat.le_of_not_lt hc)]
    exact ((congrArg Hw.wdFrac (Hw.requestReset_only _ _ _)).trans rfl).trans hpass

theorem Hw.wdEdge_work (h : Hw) (n : Nat) (same : Bool) : WdWork n h (h.wdEdge n same) := by
  by_cases hr : h.wdRuns n = true
  · rw [Hw.wdEdge_runs hr]
    dsimp only
    split
    · exact .timed h n _
    · exact (WdWork.timed h n _).trans (Hw.wdDown_work _ n same)
  · rw [Hw.wdEdge_stopped (Bool.eq_false_of_not_eq_true hr)]
    exact .refl n h

section
variable {h : Hw} {n : Nat} (hr : h.wdRuns n = true) (ht : 16000 ≤ tget 0 h.wdFrac n + h.get CLK_DIV.PER_DIV)
include hr ht

theorem Hw.wdEdge_frac (same : Bool) : tget 0 (h.wdEdge n same).wdFrac n = tget 0 h.wdFrac n + h.get CLK_DIV.PER_DIV - 16000 := by
  obtain ⟨u, hu, hk⟩ := Hw.wdEdge_counts hr ht same
  rw [← hu, hk, Hw.wdDown_wdFrac]
  exact tget_tput_self _ _ _ _

theorem Hw.wdEdge_count (same : Bool) : (h.wdEdge n same).get (TMR_WD_COUNT.VALUE n) = h.get (TMR_WD_COUNT.VALUE n) - 1 := by
  obtain ⟨u, -, hk⟩ := Hw.wdEdge_counts hr ht same
  rw [hk, Hw.wdDown_count]
  rfl

/-- A count that stays above 0 asks for no reset, and sets WARNED where it comes to WARN (R161). -/
theorem Hw.wdEdge_above (hc : 1 < h.get (TMR_WD_COUNT.VALUE n)) (same : Bool) : (h.wdEdge n same).pwr = h.pwr ∧
    (h.wdEdge n same).get (TMR_WD_STAT.WARNED n) =
      if h.get (TMR_WD_COUNT.VALUE n) - 1 = h.get (TMR_WD_WARN.VALUE n) then 1 else h.get (TMR_WD_STAT.WARNED n) := by
  obtain ⟨u, -, hk⟩ := Hw.wdEdge_counts hr ht same
  have hc' : 1 < (h.wdTimed n u).get (TMR_WD_COUNT.VALUE n) := hc
  rw [hk, Hw.wdDown_counts hc']
  exact ⟨(congrArg Hw.pwr (Hw.wdPass_writes _ n 1).only).trans rfl, Hw.wdPass_warned hc'⟩

theorem Hw.wdEdge_request (hc : h.get (TMR_WD_COUNT.VALUE n) ≤ 1) (same : Bool) :
    ∃ g : Hw, h.wdEdge n same = g.requestReset (rcWd n) same ∧ g.mainUp = true ∧ g.pwr = h.pwr := by
  obtain ⟨u, -, hk⟩ := Hw.wdEdge_counts hr ht same
  rw [hk]
  exact Hw.wdDown_request (h := h.wdTimed n u) (Hw.wdRuns_mainUp hr) hc same

/-- At 0 WDn asks for its reset (R67). -/
theorem Hw.wdEdge_first (hc : h.get (TMR_WD_COUNT.VALUE n) ≤ 1) (hp : h.pwr.pending = none) (same : Bool) :
    (h.wdEdge n same).pwr.pending = some (rcWd n, false) := by
  obtain ⟨g, hg, hup, hpwr⟩ := Hw.wdEdge_request hr ht hc same
  rw [hg]
  exact Hw.requestReset_first hup (by rw [hpwr, hp]) _ _

/-- Where another cause is pending, WDn's joins it only if both arise on this edge: the lower code, with MULTI (R67). -/
theorem Hw.wdEdge_later (hc : h.get (TMR_WD_COUNT.VALUE n) ≤ 1) {p : Nat × Bool} (hp : h.pwr.pending = some p) (same : Bool) :
    (h.wdEdge n same).pwr.pending = if same = true ∧ p.1 ≠ rcWd n then some (min p.1 (rcWd n), true) else some p := by
  obtain ⟨g, hg, hup, hpwr⟩ := Hw.wdEdge_request hr ht hc same
  rw [hg]
  exact Hw.requestReset_later hup (by rw [hpwr, hp]) _ _

end

/-- Both watchdogs come to 0 on one edge: the lower cause is pending, with MULTI (R67). -/
theorem Hw.wdEdges_both {h : Hw} (hp : h.pwr.pending = none) (hboth : ∀ n, n < 2 → h.wdRuns n = true ∧
    16000 ≤ tget 0 h.wdFrac n + h.get CLK_DIV.PER_DIV ∧ h.get (TMR_WD_COUNT.VALUE n) ≤ 1) : h.wdEdges.pwr.pending = some (7, true) := by
  obtain ⟨hr0, ht0, hc0⟩ := hboth 0 (by decide)
  obtain ⟨hr1, ht1, hc1⟩ := hboth 1 (by decide)
  have hw := h.wdEdge_work 0 false
  have hfirst : (h.wdEdge 0 false).pwr.pending = some (7, false) := Hw.wdEdge_first hr0 ht0 hc0 hp false
  have hdiv : (h.wdEdge 0 false).get CLK_DIV.PER_DIV = h.get CLK_DIV.PER_DIV := hw.get (by unfold wdReg; decide)
  have hcount : (h.wdEdge 0 false).get (TMR_WD_COUNT.VALUE 1) = h.get (TMR_WD_COUNT.VALUE 1) := hw.get (by unfold wdReg; decide)
  rw [Hw.wdEdges, Hw.wdEdge_later (by rw [hw.runs, hr1]) (by rw [hw.frac 1 (by decide), hdiv]; exact ht1) (by rw [hcount]; exact hc1) hfirst,
    hfirst, hp]
  decide

/-- Where no watchdog runs, an edge changes nothing. -/
theorem Hw.wdEdges_stopped {h : Hw} (h0 : h.wdRuns 0 = false) (h1 : h.wdRuns 1 = false) : h.wdEdges = h := by
  rw [Hw.wdEdges, Hw.wdEdge_stopped h0, Hw.wdEdge_stopped h1]

end Sys2Proof.Machine

/-! WDP at an edge (R395): where it runs, and the island core's restart with the island log's records. -/

namespace Sys2Proof.Machine

/-! ### The island log and SAFE_TRIP leave the restarted core alone -/

/-- The registers that a record of the island log, a trip and a wake write (R387, R389, R391). -/
def islandLogRegs : List Nat := [POL_LOG_DROPPED, POL_LOG_TAIL, POL_LOG_HEAD, POL_HAND, PWR_RST_CAUSE, POL_TRIP_STAT, POL_CORE_PEND]

/-- From `h` to `k` records are written: the Polder core runs as it did, the watchdogs' times stand, and so do the registers outside the
log's. -/
structure IslandLogged (h k : Hw) : Prop where
  rd : ∀ a, a ∉ islandLogRegs → k.rd a = h.rd a
  run : k.pol.run = h.pol.run
  frac : k.wdFrac = h.wdFrac

namespace IslandLogged

variable {h k t : Hw}

theorem refl (h : Hw) : IslandLogged h h := ⟨fun _ _ => rfl, rfl, rfl⟩

theorem trans (hk : IslandLogged h k) (ht : IslandLogged k t) : IslandLogged h t :=
  ⟨fun a ha => (ht.rd a ha).trans (hk.rd a ha), ht.run.trans hk.run, ht.frac.trans hk.frac⟩

theorem set (h : Hw) {f : Fld} (v : Nat) (hf : f.adr ∈ islandLogRegs) : IslandLogged h (h.set f v) :=
  ⟨fun a ha => Hw.rd_set_other h f v a fun e => ha (e ▸ hf), rfl, rfl⟩

theorem ite {p : Prop} [Decidable p] (hk : IslandLogged h k) (ht : IslandLogged h t) : IslandLogged h (if p then k else t) := by
  split
  · exact hk
  · exact ht

theorem get (hk : IslandLogged h k) {f : Fld} (hf : f.adr ∉ islandLogRegs) : k.get f = h.get f := by
  unfold Hw.get
  rw [hk.rd _ hf]

end IslandLogged

theorem Hw.wakeOff_logged (h : Hw) : IslandLogged h h.wakeOff :=
  .ite (.trans (k := { h with pwr := { h.pwr with phase := .vcoreRamp, coreEn := true, bermActive := false } }) ⟨fun _ _ => rfl, rfl, rfl⟩
    (.set _ _ (by decide))) (.refl h)

theorem Hw.setReq_logged (h : Hw) (src : Nat) : IslandLogged h (h.setReq src) :=
  (IslandLogged.ite (.refl h) ((IslandLogged.set h 1 (by decide)).trans (.set _ src (by decide)))).trans (Hw.wakeOff_logged _)

theorem Hw.logWake_logged (h : Hw) : IslandLogged h h.logWake := .ite (h.setReq_logged 4) (.refl h)

theorem Hw.memPut_logged (h : Hw) (bs : List Host.Cell) : IslandLogged h (h.memPut bs) := ⟨fun _ _ => rfl, rfl, rfl⟩

theorem Hw.polPut_logged (h : Hw) (ty info : Nat) : IslandLogged h (h.polPut ty info) := by
  unfold Hw.polPut
  have hroom : ∀ {p : Prop} [Decidable p], IslandLogged h
      (if p then (h.set POL_LOG_TAIL.ISEQ (h.get POL_LOG_TAIL.ISEQ + 1)).inc POL_LOG_DROPPED.COUNT else h) :=
    .ite ((IslandLogged.set h _ (by decide)).trans (.set _ _ (by decide))) (.refl h)
  have hslot : ∀ (k : Hw) (bs : List Host.Cell) (q : Nat), IslandLogged k ((k.memPut bs).set POL_LOG_HEAD.ISEQ q) := fun k bs q =>
    (k.memPut_logged bs).trans (.set _ _ (by decide))
  have hera : ∀ (k : Hw) (n : Nat), IslandLogged k { k with logEra := n } := fun _ _ => ⟨fun _ _ => rfl, rfl, rfl⟩
  exact .ite (.refl h) (.ite (.set h _ (by decide)) (.ite ((hroom.trans (hslot _ _ _)).trans (hera _ _)) (hroom.trans (hslot _ _ _))))

theorem Hw.polRecord_logged (h : Hw) (ty info : Nat) : IslandLogged h (h.polRecord ty info) := (h.polPut_logged ty info).trans (Hw.logWake_logged _)

theorem Hw.tripPut_logged (h : Hw) (cause rule : Nat) : IslandLogged h (h.tripPut cause rule) := by
  refine .ite (.refl h) (.trans (.trans ?_ (.set _ _ (by decide))) (Hw.polPut_logged _ _ _))
  exact (((IslandLogged.set h (f := POL_TRIP_STAT.TRIPPED) 1 (by decide)).trans (.set (f := POL_TRIP_STAT.CAUSE) _ cause (by decide))).trans
    (.set (f := POL_TRIP_STAT.RULE) _ rule (by decide))).trans (.set (f := POL_TRIP_STAT.TRIP_EVT) _ 1 (by decide))

theorem Hw.trip_logged (h : Hw) (cause rule : Nat) : IslandLogged h (h.trip cause rule) :=
  .ite (.refl h) ((h.tripPut_logged cause rule).trans (Hw.logWake_logged _))

/-! ### An expiry of WDP -/

/-- The part once WDP has restarted the Polder core, before its records. -/
def Hw.wdpRestarted (h : Hw) : Hw := ((h.set POL_WDP_COUNT.VALUE 0).up POL_STAT.WDP_RESET).polRestart 3

theorem Hw.wdpExpire_logged (h : Hw) : IslandLogged h.wdpRestarted h.wdpExpire :=
  (h.wdpRestarted.polRecord_logged recWdp 0).trans (.ite (Hw.trip_logged _ 4 0) (.refl _))

/-- The fields that a restart of the Polder core writes, with island cause `cause` (R377). -/
def polRestartFields (cause : Nat) : List (Fld × Nat) :=
  [(POL_STAT.CORE_RUN, 1), (POL_STAT.CORE_HELD, 0), (POL_RST_CAUSE.CAUSE, cause), (POL_WDP_CTL.EN, 0), (DBG_C_STAT.HALTED 2, 0)]

theorem Hw.polRestart_regs (h : Hw) (cause : Nat) : (h.polRestart cause).regs = (h.sets (polRestartFields cause)).regs := rfl

theorem Hw.wdpRestarted_get (h : Hw) (f : Fld) :
    h.wdpRestarted.get f = (((h.set POL_WDP_COUNT.VALUE 0).up POL_STAT.WDP_RESET).sets (polRestartFields 3)).get f :=
  Hw.get_of_regs (Hw.polRestart_regs _ 3) f

theorem Hw.wdpRestarted_reads (h : Hw) :
    h.wdpRestarted.reads [(POL_WDP_COUNT.VALUE, 0), (POL_STAT.WDP_RESET, 1), (POL_RST_CAUSE.CAUSE, 3), (POL_WDP_CTL.EN, 0)] := by
  simp only [Hw.reads_cons, Hw.reads_nil, Hw.wdpRestarted_get, and_true]
  refine ⟨?_, ?_, ?_, ?_⟩
  · rw [Hw.get_sets_apart _ _ _ (by decide), Hw.up, Hw.get_set_of_apart _ _ _ _ (by decide), Hw.get_set_self _ _ _ (by decide)]
    rfl
  · rw [Hw.get_sets_apart _ _ _ (by decide), Hw.up, Hw.get_set_self _ _ _ (by decide)]
    rfl
  · rw [polRestartFields, Hw.sets_cons, Hw.sets_cons, Hw.sets_cons, Hw.get_sets_apart _ _ _ (by decide), Hw.get_set_self _ _ _ (by decide)]
    rfl
  · rw [polRestartFields, Hw.sets_cons, Hw.sets_cons, Hw.sets_cons, Hw.sets_cons, Hw.get_sets_apart _ _ _ (by decide),
      Hw.get_set_self _ _ _ (by decide)]
    rfl

/-- At 0 WDP has restarted the Polder core with island cause WDP, and is itself disabled (R395). -/
theorem Hw.wdpExpire_reads (h : Hw) :
    h.wdpExpire.reads [(POL_WDP_COUNT.VALUE, 0), (POL_STAT.WDP_RESET, 1), (POL_RST_CAUSE.CAUSE, 3), (POL_WDP_CTL.EN, 0)] := by
  intro p hp
  have hspared : p.1.adr ∉ islandLogRegs := by
    simp only [List.mem_cons, List.not_mem_nil, or_false] at hp
    rcases hp with rfl | rfl | rfl | rfl <;> decide
  rw [h.wdpExpire_logged.get hspared]
  exact h.wdpRestarted_reads p hp

theorem Hw.wdpExpire_run (h : Hw) : h.wdpExpire.pol.run = .running := h.wdpExpire_logged.run

theorem Hw.wdpExpire_wdFrac (h : Hw) : h.wdpExpire.wdFrac = h.wdFrac := h.wdpExpire_logged.frac

/-! ### The edge of WDP -/

/-- WDP runs while it is enabled and the core is neither held nor halted, and in WAIT only while IRC runs for another of its users (R373,
R395). -/
theorem Hw.wdpRuns_iff (h : Hw) : h.wdpRuns = true ↔ h.get POL_WDP_CTL.EN = 1 ∧ h.pwr.polderLow = false ∧ h.get POL_STAT.CORE_HELD = 0 ∧
    h.pol.run ≠ .halted ∧ h.pol.run ≠ .held ∧ (h.pol.run = .waiting → h.pwr.phase ≠ .unpowered ∨
      (h.get (uf UART_CFG.EN 6) = 1 ∧ h.get (uf UART_CFG.CLKSRC 6) = 0) ∨ h.bak.lsxRun = false ∨ h.get CLK_STAT.LSX_FAIL = 1) := by
  have hen : h.on POL_WDP_CTL.EN = true ↔ h.get POL_WDP_CTL.EN = 1 := h.on_iff rfl
  have hheld : h.on POL_STAT.CORE_HELD = false ↔ h.get POL_STAT.CORE_HELD = 0 := by simp [Hw.on]
  have hirc : h.pol.run = .waiting → (h.ircRuns = true ↔ h.pwr.phase ≠ .unpowered ∨
      (h.get (uf UART_CFG.EN 6) = 1 ∧ h.get (uf UART_CFG.CLKSRC 6) = 0) ∨ h.bak.lsxRun = false ∨ h.get CLK_STAT.LSX_FAIL = 1) := by
    intro hw
    have hpu : h.on (uf UART_CFG.EN 6) = true ↔ h.get (uf UART_CFG.EN 6) = 1 := h.on_iff rfl
    have hlsx : h.on CLK_STAT.LSX_FAIL = true ↔ h.get CLK_STAT.LSX_FAIL = 1 := h.on_iff rfl
    simp [Hw.ircRuns, Hw.polRuns, hw, hpu, hlsx, or_assoc]
  simp only [Hw.wdpRuns, Hw.islandUp, Bool.and_eq_true, Bool.or_eq_true, Bool.not_eq_true', bne_iff_ne, hen, hheld, ne_eq, and_assoc]
  refine and_congr_right fun _ => and_congr_right fun _ => and_congr_right fun _ => and_congr_right fun _ => and_congr_right fun _ => ?_
  by_cases hw : h.pol.run = .waiting
  · simp [hw, hirc hw]
  · simp [hw]

/-- The half nanoseconds since WDP's count last went down, once a step has passed (log entries 1 and 24). -/
def Hw.wdpTime (h : Hw) : Nat := tget 0 h.wdFrac 2 + (if h.clocked then h.get CLK_DIV.PER_DIV else 250)

theorem Hw.wdpEdge_stopped {h : Hw} (hr : h.wdpRuns = false) : h.wdpEdge = h := if_pos (by rw [hr]; rfl)

theorem Hw.wdpEdge_runs {h : Hw} (hr : h.wdpRuns = true) : h.wdpEdge = if h.wdpTime < 16000 then h.wdTimed 2 h.wdpTime
    else if h.get POL_WDP_COUNT.VALUE - 1 = 0 then ((h.wdTimed 2 (h.wdpTime - 16000)).set POL_WDP_COUNT.VALUE (h.get POL_WDP_COUNT.VALUE - 1)).wdpExpire
    else (h.wdTimed 2 (h.wdpTime - 16000)).set POL_WDP_COUNT.VALUE (h.get POL_WDP_COUNT.VALUE - 1) := if_neg (by rw [hr]; decide)

theorem Hw.wdpEdge_waits {h : Hw} (hr : h.wdpRuns = true) (ht : h.wdpTime < 16000) : h.wdpEdge = h.wdTimed 2 h.wdpTime := by
  rw [Hw.wdpEdge_runs hr, if_pos ht]

/-- The part once WDP's count has gone down. -/
def Hw.wdpCounted (h : Hw) (u : Nat) : Hw := (h.wdTimed 2 u).set POL_WDP_COUNT.VALUE (h.get POL_WDP_COUNT.VALUE - 1)

theorem Hw.wdpEdge_counts {h : Hw} (hr : h.wdpRuns = true) (ht : 16000 ≤ h.wdpTime) :
    ∃ u, u = h.wdpTime - 16000 ∧ h.wdpEdge = if h.get POL_WDP_COUNT.VALUE - 1 = 0 then (h.wdpCounted u).wdpExpire else h.wdpCounted u :=
  ⟨_, rfl, (Hw.wdpEdge_runs hr).trans (if_neg (Nat.not_lt.2 ht))⟩

theorem Hw.wdpCounted_wdFrac (h : Hw) (u : Nat) : tget 0 (h.wdpCounted u).wdFrac 2 = u := tget_tput_self _ _ _ _

theorem Hw.wdpEdge_frac {h : Hw} (hr : h.wdpRuns = true) (ht : 16000 ≤ h.wdpTime) : tget 0 h.wdpEdge.wdFrac 2 = h.wdpTime - 16000 := by
  obtain ⟨u, hu, hk⟩ := Hw.wdpEdge_counts hr ht
  rw [← hu, hk]
  split
  · rw [Hw.wdpExpire_wdFrac, Hw.wdpCounted_wdFrac]
  · exact h.wdpCounted_wdFrac u

theorem Hw.wdpEdge_above {h : Hw} (hr : h.wdpRuns = true) (ht : 16000 ≤ h.wdpTime) (hc : 1 < h.get POL_WDP_COUNT.VALUE) :
    h.wdpEdge.get POL_WDP_COUNT.VALUE = h.get POL_WDP_COUNT.VALUE - 1 ∧ h.wdpEdge.pol = h.pol := by
  obtain ⟨u, -, hk⟩ := Hw.wdpEdge_counts hr ht
  have hlt : h.get POL_WDP_COUNT.VALUE < 2 ^ 24 := h.get_lt _
  rw [hk, if_neg (by omega)]
  refine ⟨?_, rfl⟩
  rw [Hw.wdpCounted, Hw.get_set_self _ _ _ (by decide)]
  exact Nat.mod_eq_of_lt (Nat.lt_of_le_of_lt (Nat.sub_le _ _) hlt)

theorem Hw.wdpEdge_expires {h : Hw} (hr : h.wdpRuns = true) (ht : 16000 ≤ h.wdpTime) (hc : h.get POL_WDP_COUNT.VALUE ≤ 1) :
    h.wdpEdge.reads [(POL_WDP_COUNT.VALUE, 0), (POL_STAT.WDP_RESET, 1), (POL_RST_CAUSE.CAUSE, 3), (POL_WDP_CTL.EN, 0)] ∧
      h.wdpEdge.pol.run = .running := by
  obtain ⟨u, -, hk⟩ := Hw.wdpEdge_counts hr ht
  rw [hk, if_pos (by omega)]
  exact ⟨Hw.wdpExpire_reads _, Hw.wdpExpire_run _⟩

end Sys2Proof.Machine

/-! A step with no command waiting, and the statement on steps. -/

namespace Sys2Proof.Machine

/-! ### The edge for TB (R88, R325, R328, R21) -/

/-- A time that is armed and not reached is not due. -/
theorem Hw.armed_not_due {h : Hw} {arm : Fld} (hf : arm.wid = 1) {time tb : Nat} (hq : h.get arm = 1 → tb < time) :
    (h.on arm && decide (time ≤ tb)) = false := by
  by_cases ho : h.on arm = true
  · simp [hq ((h.on_iff hf).1 ho)]
  · simp [ho]

/-- TB short of an armed alarm and of the armed start: nothing is due. -/
theorem Hw.tbDue_quiet {h : Hw} (halm : h.get TMR_TB_ALM_CTL.ARM = 1 → h.clk.tb.toNat < h.almTime)
    (htbs : h.get TMR_TBS_CTL.ARM = 1 → h.clk.tb.toNat < h.tbsTime) : h.tbDue = h := by
  unfold Hw.tbDue
  simp only [Hw.armed_not_due rfl halm, Hw.armed_not_due rfl htbs, Bool.and_assoc, Bool.and_false, Bool.false_eq_true, if_false]

/-- TB within the last epoch generated: no boundary is caught up. -/
theorem Hw.epochCatch_quiet {h : Hw} (he : ∀ k, h.clk.epochHi = some k → h.clk.tb.toNat / 1000000 ≤ k) : h.epochCatch = h := by
  unfold Hw.epochCatch
  split
  · next k hk =>
    exact if_neg (by simp [he k hk])
  · rfl

/-- The edge for TB, where TB runs on it. -/
def Hw.tbStep (h : Hw) : Hw := if h.clocked && h.clk.tbRun then h.tbEdge.tbDue.epochCatch else h

/-- TB that reaches nothing on its edge advances, and no more happens. -/
theorem Hw.tbStep_quiet {h : Hw} (hclk : h.clocked = true) (hr : h.clk.tbRun = true)
    (halm : h.get TMR_TB_ALM_CTL.ARM = 1 → h.tbEdge.clk.tb.toNat < h.almTime) (htbs : h.get TMR_TBS_CTL.ARM = 1 → h.tbEdge.clk.tb.toNat < h.tbsTime)
    (he : ∀ k, h.clk.epochHi = some k → h.tbEdge.clk.tb.toNat / 1000000 ≤ k) : h.tbStep = h.tbEdge := by
  have hdue : h.tbEdge.tbDue = h.tbEdge := Hw.tbDue_quiet halm htbs
  rw [Hw.tbStep, if_pos (by simp [hclk, hr]), hdue]
  exact Hw.epochCatch_quiet he

/-! ### Steps without a command (log entry 1) -/

theorem step_idle {s : State} (hp : s.pending = []) : step s = .next { s with hw :=
    (if s.hw.tbStep.clocked then (s.hw.tbStep.tmrEdges s.hw.tmrCounts).wdEdges else s.hw.tbStep.retainIrc.almRetained).wdpEdge.canon } := by
  have hs : step s = tick s := by
    unfold step
    rw [hp]
  exact hs.trans rfl

/-- No timer counts, no event line is up and no watchdog runs. -/
structure Hw.Still (h : Hw) : Prop where
  counts : ∀ t, t < 20 → h.tmrCounts t = false
  lines : h.evLines = 0
  wd0 : h.wdRuns 0 = false
  wd1 : h.wdRuns 1 = false
  wdp : h.wdpRuns = false

/-- With nothing that counts, an edge is TB's alone. -/
theorem step_still {s : State} (hp : s.pending = []) (hs : s.hw.Still) (hclk : s.hw.clocked = true) {c : Clk}
    (htb : s.hw.tbStep = { s.hw with clk := c }) : step s = .next { s with hw := ({ s.hw with clk := c } : Hw).canon } := by
  have hcl : ({ s.hw with clk := c } : Hw).clocked = true := hclk
  have hl : ({ s.hw with clk := c } : Hw).evLines = 0 := hs.lines
  have h0 : ({ s.hw with clk := c } : Hw).wdRuns 0 = false := hs.wd0
  have h1 : ({ s.hw with clk := c } : Hw).wdRuns 1 = false := hs.wd1
  have hw : ({ s.hw with clk := c } : Hw).wdpRuns = false := hs.wdp
  rw [step_idle hp, htb, if_pos hcl, Hw.tmrEdges_still hl hs.counts, Hw.wdEdges_stopped h0 h1, Hw.wdpEdge_stopped hw]

/-! ### The retention counter (R90 to R92) -/

theorem Hw.retainIrc_running {h : Hw} (hr : h.clk.tbRun = true) : h.retainIrc = h := if_pos hr

theorem Hw.almRetained_awake {h : Hw} (hs : h.pwr.sleep ≠ .sleep) : h.almRetained = h := if_neg (by simp [hs])

/-- Where the part has no clock, TB is not retained and WDP stands, a step changes nothing. -/
theorem step_unclocked {s : State} (hp : s.pending = []) (hclk : s.hw.clocked = false) (hs : s.hw.pwr.sleep ≠ .sleep) (hr : s.hw.clk.tbRun = true)
    (hw : s.hw.wdpRuns = false) : step s = .next { s with hw := s.hw.canon } := by
  have htb : s.hw.tbStep = s.hw := if_neg (by simp [hclk])
  rw [step_idle hp, htb, if_neg (by simp [hclk]), Hw.retainIrc_running hr, Hw.almRetained_awake hs, Hw.wdpEdge_stopped hw]

/-- The retention counter counts LSX where it runs and has not failed. -/
def Hw.onLsx (h : Hw) : Prop := h.bak.lsxRun = true ∧ h.get CLK_STAT.LSX_FAIL = 0

/-- The part with `u` of an LSX period gone, in units of 1/128 ns. -/
def Hw.lsxAt (h : Hw) (u : Nat) : Hw := { h with bak := { h.bak with lsxFrac := u } }

theorem Hw.retainIrc_lsx {h : Hw} (hr : h.clk.tbRun = false) (hl : h.onLsx) : h.retainIrc =
    if h.bak.lsxFrac + 16000 < 3906250 then h.lsxAt (h.bak.lsxFrac + 16000) else (h.lsxAt (h.bak.lsxFrac + 16000 - 3906250)).retain 1 0 := by
  obtain ⟨hrun, hfail⟩ := hl
  rw [Hw.retainIrc, if_neg (by simp [hr]), if_pos (by simp [Hw.on, hrun, hfail])]
  rfl

theorem Hw.retainIrc_irc {h : Hw} (hr : h.clk.tbRun = false) (hl : ¬ h.onLsx) : h.retainIrc = if h.bak.retStop then h else h.retain 0 1 := by
  have hno : ¬ (h.bak.lsxRun && !h.on CLK_STAT.LSX_FAIL) = true := by simpa [Hw.on, Hw.onLsx] using hl
  rw [Hw.retainIrc, if_neg (by simp [hr]), if_neg hno]

/-- An LSX edge more is 30 517.578125 ns more, in units of 1/128 ns. -/
theorem Hw.retain_lsx {h : Hw} (hr : h.clk.tbRun = false) : (h.retain 1 0).retained128 = h.retained128 + 3906250 := by
  rw [Hw.retain, if_neg (by simp [hr])]
  unfold Hw.retained128
  dsimp only
  omega

/-- An IRC period more is 125 ns more. -/
theorem Hw.retain_irc {h : Hw} (hr : h.clk.tbRun = false) : (h.retain 0 1).retained128 = h.retained128 + 16000 := by
  rw [Hw.retain, if_neg (by simp [hr])]
  unfold Hw.retained128
  dsimp only
  omega

/-- The part of an LSX period that has passed is not in the retained time. -/
theorem Hw.lsxAt_retained128 (h : Hw) (u : Nat) : (h.lsxAt u).retained128 = h.retained128 := by
  unfold Hw.retained128
  rfl

theorem Hw.retainIrc_lsx_waits {h : Hw} (hr : h.clk.tbRun = false) (hl : h.onLsx) (hf : h.bak.lsxFrac + 16000 < 3906250) :
    h.retainIrc = h.lsxAt (h.bak.lsxFrac + 16000) := by
  rw [Hw.retainIrc_lsx hr hl, if_pos hf]

theorem Hw.retainIrc_lsx_edge {h : Hw} (hr : h.clk.tbRun = false) (hl : h.onLsx) (hf : 3906250 ≤ h.bak.lsxFrac + 16000) :
    h.retainIrc = (h.lsxAt (h.bak.lsxFrac + 16000 - 3906250)).retain 1 0 :=
  (Hw.retainIrc_lsx hr hl).trans (if_neg (Nat.not_lt.2 hf))

theorem Hw.lsxAt_retain_lsxFrac {h : Hw} (hr : h.clk.tbRun = false) (u : Nat) : ((h.lsxAt u).retain 1 0).bak.lsxFrac = u :=
  congrArg (fun x : Hw => x.bak.lsxFrac) (if_neg (by simp [Hw.lsxAt, hr]))

theorem Hw.lsxAt_retain_retained128 {h : Hw} (hr : h.clk.tbRun = false) (u : Nat) :
    ((h.lsxAt u).retain 1 0).retained128 = h.retained128 + 3906250 := by
  rw [Hw.retain_lsx (show (h.lsxAt u).clk.tbRun = false from hr), Hw.lsxAt_retained128]

theorem Hw.retainIrc_lsx_counts {h : Hw} (hr : h.clk.tbRun = false) (hl : h.onLsx) (hf : 3906250 ≤ h.bak.lsxFrac + 16000) :
    h.retainIrc.bak.lsxFrac = h.bak.lsxFrac + 16000 - 3906250 ∧ h.retainIrc.retained128 = h.retained128 + 3906250 := by
  rw [Hw.retainIrc_lsx_edge hr hl hf]
  exact ⟨Hw.lsxAt_retain_lsxFrac hr _, Hw.lsxAt_retain_retained128 hr _⟩

theorem Hw.retainIrc_irc_counts {h : Hw} (hr : h.clk.tbRun = false) (hl : ¬ h.onLsx) :
    h.retainIrc.retained128 = h.retained128 + (if h.bak.retStop then 0 else 16000) := by
  rw [Hw.retainIrc_irc hr hl]
  split
  · rfl
  · exact Hw.retain_irc hr

/-! ### The statement -/

/-- Settles O58: a step takes the front command, or lets one edge pass, whose parts do what their lemmas say: TB, the retention counter, the
timers, each for itself, the watchdogs and WDP. -/
theorem stepTakesTheFrontCommand : Obligations.StepTakesTheFrontCommand := by
  unfold Obligations.StepTakesTheFrontCommand
  refine ⟨fun c s => rfl, fun s hp => ?_, fun h => ?_, fun h counts => ?_, fun h n same => ?_, fun h hp => Hw.wdEdges_both hp, fun h => ?_⟩
  · refine ⟨step_idle hp, step_unclocked hp, fun ⟨hcounts, hlines, h0, h1, hwdp⟩ hclk hr => ?_,
      fun ⟨hcounts, hlines, h0, h1, hwdp⟩ ⟨hclk, hr⟩ ⟨halm, htbs, hepoch⟩ => ?_⟩
    · exact step_still hp ⟨hcounts, hlines, h0, h1, hwdp⟩ hclk (c := s.hw.clk) (if_neg (by simp [hr]))
    · exact step_still hp ⟨hcounts, hlines, h0, h1, hwdp⟩ hclk (Hw.tbStep_quiet hclk hr halm htbs hepoch)
  · exact ⟨Hw.retainIrc_running, Hw.retainIrc_lsx_waits, Hw.retainIrc_lsx_counts, Hw.retainIrc_irc_counts⟩
  · have hwork := h.tmrEdges_work counts
    exact ⟨fun t ht => ⟨h.tmrEdges_idle ht, h.tmrEdges_waits ht, h.tmrEdges_ticks ht⟩, hwork.core, hwork.sameMemory fun _ => id, hwork.clk⟩
  · exact ⟨fun hr => Hw.wdEdge_stopped hr same, fun hr ht => Hw.wdEdge_waits hr ht same, fun hr ht =>
      ⟨Hw.wdEdge_frac hr ht same, Hw.wdEdge_count hr ht same, fun hc => Hw.wdEdge_above hr ht hc same,
        fun hc hp => Hw.wdEdge_first hr ht hc hp same, fun hc p hp => Hw.wdEdge_later hr ht hc hp same⟩⟩
  · refine ⟨fun hr => Hw.wdpEdge_stopped (Bool.eq_false_of_not_eq_true (mt h.wdpRuns_iff.1 hr)),
      fun hr ht => Hw.wdpEdge_waits (h.wdpRuns_iff.2 hr) ht, fun hr ht => ?_⟩
    have hruns := h.wdpRuns_iff.2 hr
    exact ⟨Hw.wdpEdge_frac hruns ht, Hw.wdpEdge_above hruns ht, Hw.wdpEdge_expires hruns ht⟩

end Sys2Proof.Machine

/-! The cores: their general registers (R137), what a fetch leaves (R148, R206), and the return from an exception (R144). -/

namespace Sys2Proof.Machine

/-! ### General registers (R137) -/

@[simp] theorem Core.gr_zero (x : Core) : x.gr 0 = 0 := rfl

theorem Core.gr_two (x : Core) : x.gr 2 = if x.mode then x.ssp else x.usp := rfl

theorem Core.gr_of_ne (x : Core) {i : Fin 32} (h0 : i ≠ 0) (h2 : i ≠ 2) : x.gr i = x.g[i] := by
  rw [Core.gr, if_neg h0, if_neg h2]

@[simp] theorem Core.setGr_zero (x : Core) (v : Word) : x.setGr 0 v = x := rfl

theorem Core.setGr_two (x : Core) (v : Word) : x.setGr 2 v = if x.mode then { x with ssp := v } else { x with usp := v } := rfl

theorem Core.setGr_of_ne (x : Core) {i : Fin 32} (v : Word) (h0 : i ≠ 0) (h2 : i ≠ 2) : x.setGr i v = { x with g := x.g.set i v } := by
  rw [Core.setGr, if_neg h0, if_neg h2]

/-- A write of a general register changes that register's storage alone. -/
theorem Core.setGr_eq (x : Core) (i : Fin 32) (v : Word) : x.setGr i v = { x with
    g := if i = 0 ∨ i = 2 then x.g else x.g.set i v
    usp := if i = 2 ∧ x.mode = false then v else x.usp
    ssp := if i = 2 ∧ x.mode = true then v else x.ssp } := by
  by_cases h0 : i = 0
  · subst h0; rfl
  · by_cases h2 : i = 2
    · subst h2
      rw [Core.setGr_two]
      cases hm : x.mode <;> rfl
    · rw [Core.setGr_of_ne x v h0 h2]
      simp [h0, h2]

theorem Core.setGr_mode (x : Core) (i : Fin 32) (v : Word) : (x.setGr i v).mode = x.mode := by
  rw [Core.setGr_eq]; rfl

theorem Core.gr_setGr_same (x : Core) (i : Fin 32) (v : Word) : (x.setGr i v).gr i = if i = 0 then 0 else v := by
  by_cases h0 : i = 0
  · subst h0; rfl
  · rw [if_neg h0]
    by_cases h2 : i = 2
    · subst h2
      rw [Core.gr_two, Core.setGr_mode, Core.setGr_two]
      cases x.mode <;> rfl
    · rw [Core.gr_of_ne _ h0 h2, Core.setGr_of_ne x v h0 h2]
      exact Vector.getElem_set_self _

theorem Core.gr_setGr_other (x : Core) {i j : Fin 32} (v : Word) (hj : j ≠ i) : (x.setGr i v).gr j = x.gr j := by
  by_cases h0 : j = 0
  · subst h0; rfl
  · by_cases h2 : j = 2
    · subst h2
      rw [Core.gr_two, Core.gr_two, Core.setGr_mode, Core.setGr_eq]
      simp [hj.symm]
    · rw [Core.gr_of_ne _ h0 h2, Core.gr_of_ne _ h0 h2, Core.setGr_eq]
      split
      · rfl
      · exact Vector.getElem_set_ne i.isLt j.isLt (Fin.val_ne_of_ne hj.symm)

/-- Settles O1: each clause is the register file's own law of a read after a write. -/
theorem registerFileReadsWhatWasWritten : Obligations.RegisterFileReadsWhatWasWritten := by
  unfold Obligations.RegisterFileReadsWhatWasWritten
  exact fun x i v => ⟨x.gr_setGr_same i v, fun j hj => x.gr_setGr_other v hj, x.gr_two, x.setGr_eq i v⟩

/-! ### The fetch (R148, R206) -/

theorem Hw.issued_other {h : Hw} {c d : CoreId} (ldm : Bool) (hf : (h.fetch c).2 = none) (hd : d ≠ c) :
    (h.issued c ldm).core d = h.core d := by
  rw [Hw.issued, Hw.settle_begun, Hw.setCore_other _ _ hd]
  exact h.fetch_other c d hd hf

theorem Hw.issued_sameBytes {h : Hw} {c : CoreId} (ldm : Bool) (hf : (h.fetch c).2 = none) : SameBytes h (h.issued c ldm) := by
  rw [Hw.issued, Hw.settle_begun]
  exact (h.fetch_same c hf).trans (Hw.setCore_same _ _ _)

/-- Settles O2, from what a fetch that succeeds leaves of its core, of the other cores and of memory. -/
theorem fetchLeavesRegistersAndMemory : Obligations.FetchLeavesRegistersAndMemory := by
  unfold Obligations.FetchLeavesRegistersAndMemory
  exact fun h c ldm hf => ⟨h.issued_core_eq c ldm hf, fun _ hd => Hw.issued_other ldm hf hd, (Hw.issued_sameBytes ldm hf).byte⟩

/-! ### The fields of an SSTAT word (R137) -/

/-- The SSTAT word of these fields has them at the places of table "SSTAT": no sum of lower fields carries into the next. -/
theorem toNat_mkSstat (mode ie exl fpe pmode pie : Bool) (ptid : BitVec 7) : (mkSstat mode ie exl fpe pmode pie ptid).toNat =
    b2n mode + 2 * b2n ie + 4 * b2n exl + 8 * b2n fpe + 16 * b2n pmode + 32 * b2n pie + 256 * ptid.toNat := by
  have := b2n_lt mode; have := b2n_lt ie; have := b2n_lt exl; have := b2n_lt fpe; have := b2n_lt pmode; have := b2n_lt pie
  have := ptid.isLt
  rw [mkSstat, BitVec.toNat_ofNat]
  omega

theorem testBit_of_div_mod {n i : Nat} {b : Bool} (h : n / 2 ^ i % 2 = b2n b) : n.testBit i = b := by
  rw [Nat.testBit_eq_decide_div_mod_eq, h]
  cases b <;> rfl

theorem getLsbD_mkSstat (mode ie exl fpe pmode pie : Bool) (ptid : BitVec 7) :
    let w := mkSstat mode ie exl fpe pmode pie ptid
    w.getLsbD 0 = mode ∧ w.getLsbD 1 = ie ∧ w.getLsbD 2 = exl ∧ w.getLsbD 3 = fpe ∧ w.getLsbD 4 = pmode ∧ w.getLsbD 5 = pie := by
  have := b2n_lt mode; have := b2n_lt ie; have := b2n_lt exl; have := b2n_lt fpe; have := b2n_lt pmode; have := b2n_lt pie
  refine ⟨?_, ?_, ?_, ?_, ?_, ?_⟩ <;>
  · refine testBit_of_div_mod ?_
    rw [toNat_mkSstat]
    omega

/-! ### ERET (R144) -/

theorem Hw.priv_supervisor {h : Hw} {c : CoreId} (k : Hw × Done) (hm : (h.core c).mode = true) : h.priv c k = k := if_pos hm

theorem Hw.priv_user {h : Hw} {c : CoreId} (k : Hw × Done) (hm : (h.core c).mode = false) :
    h.priv c k = (h, .stop (.exc { vec := vPrivileged })) := if_neg (by simp [hm])

/-- A privileged instruction in user mode raises PRIVILEGED. -/
theorem State.instr_priv_user {s : State} {c : CoreId} {k : Hw → Hw × Done} (hr : s.hw.Ready c)
    (hm : ((s.hw.issued c false).core c).mode = false) (hu : (s.hw.issued c false).Uncaught c) :
    s.instr c (fun h => h.priv c (k h)) = .next { s with hw := ((s.hw.issued c false).takes c 9 0 0 0 false 0).canon } :=
  State.instr_takes (e := { vec := vPrivileged }) hr (Hw.priv_user _ hm) hu rfl rfl

/-- The core after an ERET but for its PC and the marks of the return. The Polder core keeps TID, and SSTAT as its own fields allow (R375). -/
def Core.restored (x : Core) (c : CoreId) : Core :=
  if c = .pol then { x.eret with sstat := sstatOf c x.eret.sstat, tid := x.tid } else x.eret

theorem Core.restored_ends (x : Core) (c : CoreId) : (x.restored c).ends = x.ends := by
  unfold Core.restored
  split <;> rfl

theorem Core.restored_ecause (x : Core) (c : CoreId) : (x.restored c).ecause = x.ecause := by
  unfold Core.restored
  split <;> rfl

/-- The core after an ERET, at EPC; its next instruction follows an ERET, and may pass a watchpoint that DEBUG reported (R148, R449). -/
def Core.returned (x : Core) (c : CoreId) : Core :=
  { x.restored c with pc := x.epc, afterEret := true, wpExempt := decide (x.ecause.toNat % 512 = 15) }

theorem Core.returned_eq (x : Core) (c : CoreId) : x.returned c = { x with
    sstat := if c = .pol then sstatOf .pol (mkSstat x.pmode x.pie false x.fpe x.pmode x.pie x.ptid)
      else mkSstat x.pmode x.pie false x.fpe x.pmode x.pie x.ptid
    tid := if c = .pol then x.tid else x.ptid, inDF := false, resv := none
    pc := x.epc, afterEret := true, wpExempt := decide (x.ecause.toNat % 512 = 15) } := by
  cases c <;> rfl

theorem execEret_supervisor {s : State} {c : CoreId} (hr : s.hw.Ready c) (hm : ((s.hw.issued c false).core c).mode = true) :
    let h := s.hw.issued c false
    execEret c s = .next { s with hw := (h.setCore c ((h.core c).returned c)).canon } := by
  intro h
  let x := h.core c
  have hbody : h.priv c (h.setCore c (x.restored c), .back x.epc) = (h.setCore c (x.restored c), .back x.epc) := Hw.priv_supervisor _ hm
  have hends : ((h.setCore c (x.restored c)).core c).ends = x.ends := by rw [Hw.setCore_core, Core.restored_ends]
  refine (State.instr_back hr hbody hends).trans ?_
  rw [Hw.setCore_setCore, Hw.setCore_core, Core.restored_ecause]
  rfl

theorem execEret_user {s : State} {c : CoreId} (hr : s.hw.Ready c) (hm : ((s.hw.issued c false).core c).mode = false)
    (hu : (s.hw.issued c false).Uncaught c) :
    execEret c s = .next { s with hw := ((s.hw.issued c false).takes c 9 0 0 0 false 0).canon } :=
  State.instr_priv_user hr hm hu

/-- Settles O12: an ERET by the mode it runs in, and the fields of the SSTAT word that it writes. -/
theorem eretRestoresModeInterruptEnableAndTid : Obligations.EretRestoresModeInterruptEnableAndTid := by
  unfold Obligations.EretRestoresModeInterruptEnableAndTid
  intro c s hr h x st y
  refine ⟨fun hm => ?_, fun hc => ?_, fun hm hu => execEret_user hr hm hu⟩
  · have hy : x.returned c = y := x.returned_eq c
    rw [← hy]
    exact execEret_supervisor hr hm
  · have hst : st = mkSstat x.pmode x.pie false x.fpe x.pmode x.pie x.ptid := if_neg hc
    obtain ⟨hmode, hie, hexl, -⟩ := getLsbD_mkSstat x.pmode x.pie false x.fpe x.pmode x.pie x.ptid
    rw [← hst] at hmode hie hexl
    refine ⟨hmode, hie, hexl, if_neg hc, ?_⟩
    rw [Core.gr_two, show y.mode = x.pmode from hmode]

end Sys2Proof.Machine

/-! The arithmetic of a word, as the instruction tables of section 07 give it: on the signed and unsigned values of its operands. -/

namespace Sys2Proof.Machine

/-! ### Comparisons and the least and greatest of two words -/

theorem flagW_slt {n : Nat} (a b : BitVec n) : flagW (a.slt b) = if a.toInt < b.toInt then 1 else 0 := by
  simp only [flagW, BitVec.slt_iff_toInt_lt]

theorem flagW_ult {n : Nat} (a b : BitVec n) : flagW (a.ult b) = if a.toNat < b.toNat then 1 else 0 := by
  simp only [flagW, BitVec.ult_iff_lt, BitVec.lt_def]

theorem minS_eq (a b : Word) : (if a.slt b then a else b) = BitVec.ofInt 32 (min a.toInt b.toInt) := by
  simp only [BitVec.slt_iff_toInt_lt]
  split
  · rw [min_eq_left (by omega), BitVec.ofInt_toInt]
  · rw [min_eq_right (by omega), BitVec.ofInt_toInt]

theorem maxS_eq (a b : Word) : (if a.slt b then b else a) = BitVec.ofInt 32 (max a.toInt b.toInt) := by
  simp only [BitVec.slt_iff_toInt_lt]
  split
  · rw [max_eq_right (by omega), BitVec.ofInt_toInt]
  · rw [max_eq_left (by omega), BitVec.ofInt_toInt]

theorem minU_eq (a b : Word) : (if a.ult b then a else b) = BitVec.ofNat 32 (min a.toNat b.toNat) := by
  simp only [BitVec.ult_iff_lt, BitVec.lt_def]
  split
  · rw [min_eq_left (by omega), BitVec.ofNat_toNat, BitVec.setWidth_eq]
  · rw [min_eq_right (by omega), BitVec.ofNat_toNat, BitVec.setWidth_eq]

theorem maxU_eq (a b : Word) : (if a.ult b then b else a) = BitVec.ofNat 32 (max a.toNat b.toNat) := by
  simp only [BitVec.ult_iff_lt, BitVec.lt_def]
  split
  · rw [max_eq_right (by omega), BitVec.ofNat_toNat, BitVec.setWidth_eq]
  · rw [max_eq_left (by omega), BitVec.ofNat_toNat, BitVec.setWidth_eq]

/-! ### Shifts and products -/

theorem sshiftRight_eq_div (a : Word) (n : Nat) : a.sshiftRight n = BitVec.ofInt 32 (a.toInt / 2 ^ n) := by
  rw [BitVec.sshiftRight_eq, Int.shiftRight_eq_div_pow]
  norm_cast

theorem mul_eq_ofNat (a b : Word) : a * b = BitVec.ofNat 32 (a.toNat * b.toNat) :=
  BitVec.eq_of_toNat_eq (by rw [BitVec.toNat_mul, BitVec.toNat_ofNat])

/-- The high word of a 64-bit value, from its value as an integer. -/
theorem highWord_ofInt (v : Int) : ((BitVec.ofInt 64 v) >>> 32).truncate 32 = BitVec.ofInt 32 (v / 2 ^ 32) := by
  apply BitVec.eq_of_toNat_eq
  rw [BitVec.truncate_eq_setWidth, BitVec.toNat_setWidth, BitVec.toNat_ushiftRight, BitVec.toNat_ofInt, BitVec.toNat_ofInt, Nat.shiftRight_eq_div_pow]
  omega

theorem mulHi_eq (a b : Word) : mulHi a b = BitVec.ofInt 32 (a.toInt * b.toInt / 2 ^ 32) := by
  rw [← highWord_ofInt, BitVec.ofInt_mul]
  rfl

theorem mulHiU_eq (a b : Word) : mulHiU a b = BitVec.ofNat 32 (a.toNat * b.toNat / 2 ^ 32) := by
  have hlt : a.toNat * b.toNat < 2 ^ 32 * 2 ^ 32 := Nat.mul_lt_mul'' a.isLt b.isLt
  apply BitVec.eq_of_toNat_eq
  simp only [mulHiU, BitVec.truncate_eq_setWidth, BitVec.toNat_ushiftRight, BitVec.toNat_mul, BitVec.toNat_setWidth, BitVec.toNat_ofNat,
    Nat.shiftRight_eq_div_pow]
  rw [Nat.mod_eq_of_lt (show a.toNat < 2 ^ 64 by omega), Nat.mod_eq_of_lt (show b.toNat < 2 ^ 64 by omega),
    Nat.mod_eq_of_lt (show a.toNat * b.toNat < 2 ^ 64 by omega)]

/-! ### Division (R167) -/

theorem sdiv_eq_tdiv (a b : Word) : a.sdiv b = BitVec.ofInt 32 (a.toInt.tdiv b.toInt) :=
  BitVec.eq_of_toInt_eq (by rw [BitVec.toInt_sdiv, BitVec.toInt_ofInt])

theorem srem_eq_tmod (a b : Word) : a.srem b = BitVec.ofInt 32 (a.toInt.tmod b.toInt) := by
  rw [← BitVec.toInt_srem, BitVec.ofInt_toInt]

theorem divS_eq (a b : Word) : divS a b = if b = 0 then 0xFFFFFFFF else if a = 0x80000000 ∧ b = 0xFFFFFFFF then 0x80000000
    else BitVec.ofInt 32 (a.toInt.tdiv b.toInt) := by
  rw [divS, sdiv_eq_tdiv]

theorem remS_eq (a b : Word) : remS a b = if b = 0 then a else if a = 0x80000000 ∧ b = 0xFFFFFFFF then 0
    else BitVec.ofInt 32 (a.toInt.tmod b.toInt) := by
  rw [remS, srem_eq_tmod]

theorem divU_eq (a b : Word) : divU a b = if b = 0 then 0xFFFFFFFF else BitVec.ofNat 32 (a.toNat / b.toNat) := by
  rw [divU, ← BitVec.toNat_udiv, BitVec.ofNat_toNat, BitVec.setWidth_eq]

theorem remU_eq (a b : Word) : remU a b = if b = 0 then a else BitVec.ofNat 32 (a.toNat % b.toNat) := by
  rw [remU, ← BitVec.toNat_umod, BitVec.ofNat_toNat, BitVec.setWidth_eq]

/-! ### Immediates and the counts of bits -/

theorem shl16_eq (imm : BitVec 16) : (zextW imm <<< 16 : Word) = BitVec.ofNat 32 (imm.toNat * 2 ^ 16) := by
  apply BitVec.eq_of_toNat_eq
  simp only [zextW, BitVec.toNat_shiftLeft, BitVec.zeroExtend_eq_setWidth, BitVec.toNat_setWidth, BitVec.toNat_ofNat, Nat.shiftLeft_eq]
  omega

theorem toInt_sextW {n : Nat} (v : BitVec n) (hn : n ≤ 32) : (sextW v).toInt = v.toInt := BitVec.toInt_signExtend_of_le hn

theorem clzW_eq (a : Word) : clzW a = a.clz := by
  unfold clzW
  by_cases h0 : a = 0
  · rw [if_pos h0, BitVec.clz_eq_iff_eq_zero.2 h0]
    rfl
  · have hlow := BitVec.two_pow_sub_clz_le_toNat_of_ne_zero (by decide) h0
    have hhigh := BitVec.toNat_lt_two_pow_sub_clz (x := a)
    have hlt : a.clz.toNat < 32 := BitVec.clz_lt_iff_ne_zero.2 h0
    have hlog : Nat.log2 a.toNat = 31 - a.clz.toNat := by
      refine (Nat.log2_eq_iff (by simpa [← BitVec.toNat_inj] using h0)).2 ⟨hlow, ?_⟩
      rwa [show 31 - a.clz.toNat + 1 = 32 - a.clz.toNat by omega]
    rw [if_neg h0, hlog, show 31 - (31 - a.clz.toNat) = a.clz.toNat by omega, BitVec.ofNat_toNat, BitVec.setWidth_eq]

theorem popW_eq (a : Word) : popW a = BitVec.ofNat 32 ((List.range 32).countP (fun i => a.getLsbD i)) := by
  rw [popW, List.countP_eq_length_filter]

/-- A bit of a word that four bytes make, the highest first. -/
theorem getLsbD_fourBytes (x y z t : Byte) (i : Nat) : BitVec.getLsbD (w := 32) (x ++ y ++ z ++ t) i =
    if i < 8 then t.getLsbD i else if i < 16 then z.getLsbD (i - 8) else if i < 24 then y.getLsbD (i - 16) else x.getLsbD (i - 24) := by
  refine (BitVec.getLsbD_append (x := x ++ y ++ z) (y := t)).trans ?_
  rw [BitVec.getLsbD_append, BitVec.getLsbD_append]
  split
  · rfl
  · grind

theorem bswapW_eq (a : Word) : bswapW a = a.extractLsb' 0 8 ++ a.extractLsb' 8 8 ++ a.extractLsb' 16 8 ++ a.extractLsb' 24 8 := by
  apply BitVec.eq_of_getLsbD_eq
  intro i hi
  rw [getLsbD_fourBytes]
  interval_cases i <;> simp [bswapW]

end Sys2Proof.Machine

/-! Register, immediate and control instructions (R165 to R167). -/

namespace Sys2Proof.Machine

/-- An instruction that writes the value `v` to one general register completes with the value `w`, where `v` comes to `w` at the issue. -/
theorem becomes_of_alu {i : Instr} {s : State} {c : CoreId} {rd : Fin 32} {v : Hw → Word} {w : Word} (hr : s.hw.Ready c)
    (hi : exec i s = s.alu c rd v) (hv : v (s.hw.issued c false) = w) :
    Becomes i s (((s.hw.issued c false).setGr c rd w).goes c ((s.hw.core c).pc + 4)) := by
  rw [Becomes, hi, State.alu_next hr, hv]

/-- Settles O3: each instruction writes its table's value, which for signed and unsigned arithmetic is that of its operands as integers. -/
theorem registerArithmeticWritesItsResult : Obligations.RegisterArithmeticWritesItsResult := by
  unfold Obligations.RegisterArithmeticWritesItsResult
  intro c rd ra rb s hr h a b
  have alu : ∀ {i w} f, exec i s = s.alu2 c rd ra rb f → f a b = w → Becomes i s ((h.setGr c rd w).goes c ((s.hw.core c).pc + 4)) :=
    fun f hi hv => becomes_of_alu hr hi hv
  clear_value a b
  simp only [List.forall_mem_cons]
  exact ⟨alu (· + ·) rfl rfl, alu (· - ·) rfl rfl, alu (· &&& ·) rfl rfl, alu (· ||| ·) rfl rfl, alu (· ^^^ ·) rfl rfl,
    alu (fun a b => flagW (a.slt b)) rfl (flagW_slt a b), alu (fun a b => flagW (a.ult b)) rfl (flagW_ult a b),
    alu (fun a b => a <<< shamt b) rfl rfl, alu (fun a b => a >>> shamt b) rfl rfl,
    alu (fun a b => a.sshiftRight (shamt b)) rfl (sshiftRight_eq_div a (shamt b)), alu (· * ·) rfl (mul_eq_ofNat a b),
    alu mulHi rfl (mulHi_eq a b), alu mulHiU rfl (mulHiU_eq a b), alu divS rfl (divS_eq a b), alu divU rfl (divU_eq a b),
    alu remS rfl (remS_eq a b), alu remU rfl (remU_eq a b),
    alu (fun a b => if a.slt b then a else b) rfl (minS_eq a b), alu (fun a b => if a.slt b then b else a) rfl (maxS_eq a b),
    alu (fun a b => if a.ult b then a else b) rfl (minU_eq a b), alu (fun a b => if a.ult b then b else a) rfl (maxU_eq a b),
    List.forall_mem_nil _⟩

/-- Settles O4: as for the register forms, with the immediate extended as its instruction says and the counts of bits. -/
theorem immediateAndBitInstructionsWriteTheirResult : Obligations.ImmediateAndBitInstructionsWriteTheirResult := by
  unfold Obligations.ImmediateAndBitInstructionsWriteTheirResult
  intro c rd ra n imm s hr h a
  have alu : ∀ {i w} (f : Word → Word), exec i s = s.alu c rd (fun h => f (h.gr c ra)) → f a = w → Becomes i s ((h.setGr c rd w).goes c ((s.hw.core c).pc + 4)) :=
    fun f hi hv => becomes_of_alu hr hi hv
  have hslti : flagW (a.slt (sextW imm)) = if a.toInt < imm.toInt then 1 else 0 := by rw [flagW_slt, toInt_sextW imm (by decide)]
  have hlui := becomes_of_alu (i := .lui c rd imm) (v := fun _ => zextW imm <<< 16) hr rfl (shl16_eq imm)
  have hpcaddh := becomes_of_alu (i := .pcaddh c rd imm) (v := fun h => (h.core c).pc + zextW imm <<< 16)
    (w := (s.hw.core c).pc + BitVec.ofNat 32 (imm.toNat * 2 ^ 16)) hr rfl (by rw [shl16_eq, Hw.issued_pc hr])
  clear_value a
  simp only [List.forall_mem_cons]
  exact ⟨alu (· + sextW imm) rfl rfl, alu (· &&& zextW imm) rfl rfl, alu (· ||| zextW imm) rfl rfl, alu (· ^^^ zextW imm) rfl rfl,
    alu (fun a => flagW (a.slt (sextW imm))) rfl hslti, alu (fun a => flagW (a.ult (sextW imm))) rfl (flagW_ult a (sextW imm)), hlui, hpcaddh,
    alu (· <<< n.val) rfl rfl, alu (· >>> n.val) rfl rfl, alu (fun a => a.sshiftRight n.val) rfl (sshiftRight_eq_div a n.val),
    alu clzW rfl (clzW_eq a), alu popW rfl (popW_eq a), alu bswapW rfl (bswapW_eq a), List.forall_mem_nil _⟩

/-! ### Control flow (R165, R166) -/

theorem bne_eq_decide_ne (a b : Word) : (a != b) = decide (a ≠ b) := by
  rw [bne, beq_eq_decide, decide_not]

theorem not_slt_eq (a b : Word) : (!a.slt b) = decide (b.toInt ≤ a.toInt) := by
  rw [BitVec.slt, ← decide_not, decide_eq_decide]
  omega

theorem not_ult_eq (a b : Word) : (!a.ult b) = decide (b.toNat ≤ a.toNat) := by
  rw [BitVec.ult, ← decide_not, decide_eq_decide]
  omega

/-- A branch target by the signed offset in words. -/
theorem target_eq {n : Nat} (pc : Word) (off : BitVec n) (hn : n ≤ 32) : target pc off = BitVec.ofInt 32 (pc.toNat + 4 * off.toInt) := by
  rw [target, BitVec.ofInt_add, BitVec.ofInt_mul, ← toInt_sextW off hn, BitVec.ofInt_toInt, BitVec.ofInt_natCast, BitVec.ofNat_toNat, BitVec.setWidth_eq]
  rfl

theorem becomes_of_jump {i : Instr} {s : State} {c : CoreId} {body : Hw → Hw × Done} {t : Word} (hr : s.hw.Ready c)
    (hi : exec i s = s.instr c body) (hb : body (s.hw.issued c false) = (s.hw.issued c false, .jump t)) :
    Becomes i s ((s.hw.issued c false).goes c t) :=
  hi.trans (State.instr_jump hr hb rfl rfl)

/-- A jump that links: the next instruction's address goes to G1. -/
theorem becomes_of_link {i : Instr} {s : State} {c : CoreId} {body : Hw → Hw × Done} {t : Word} (hr : s.hw.Ready c)
    (hi : exec i s = s.instr c body)
    (hb : let h := s.hw.issued c false; body h = (h.setGr c 1 ((h.core c).pc + 4), .jump t)) :
    Becomes i s (((s.hw.issued c false).setGr c 1 ((s.hw.core c).pc + 4)).goes c t) := by
  rw [← Hw.issued_pc hr false]
  refine hi.trans (State.instr_jump hr hb ?_ ?_)
  · rw [Hw.setGr, Hw.setCore_core, Core.setGr_ends]
  · rw [Hw.setGr, Hw.setCore_core, Core.setGr_wpExempt]

theorem becomes_of_branch {i : Instr} {s : State} {c : CoreId} {ra rb : Fin 32} {off : BitVec 16} {f : Word → Word → Bool} {b : Bool}
    (hr : s.hw.Ready c) (hi : exec i s = s.branch c ra rb off f)
    (hb : f ((s.hw.issued c false).gr c ra) ((s.hw.issued c false).gr c rb) = b) :
    Becomes i s ((s.hw.issued c false).goes c
      (if b then BitVec.ofInt 32 ((s.hw.core c).pc.toNat + 4 * off.toInt) else (s.hw.core c).pc + 4)) := by
  cases b with
  | true =>
    refine becomes_of_jump hr hi ?_
    rw [hb, Hw.issued_pc hr, target_eq _ _ (by decide)]
    rfl
  | false => exact hi.trans (State.instr_next hr (by rw [hb]; rfl) rfl rfl)

theorem jumpReg_aligned {t : Word} (h k : Hw) (ht : t.toNat % 4 = 0) : jumpReg h t k = (k, .jump t) := if_pos ht

theorem jumpReg_misaligned {t : Word} (h k : Hw) (ht : t.toNat % 4 ≠ 0) :
    jumpReg h t k = (h, .stop (.exc { vec := vMisaligned, addr := t.toNat })) := if_neg ht

/-- Settles O5: a branch by whether its condition holds, a jump by its form. -/
theorem branchesAndJumpsGoToTheirTarget : Obligations.BranchesAndJumpsGoToTheirTarget := by
  unfold Obligations.BranchesAndJumpsGoToTheirTarget
  intro c ra rb off far s hr h pc a b
  have htarget : target (h.core c).pc far = BitVec.ofInt 32 (pc.toNat + 4 * far.toInt) := by
    rw [Hw.issued_pc hr, target_eq _ _ (by decide)]
  refine ⟨?_, ?_, ?_, fun ha => ⟨?_, ?_⟩⟩
  · have branch : ∀ {i p} f, exec i s = s.branch c ra rb off f → f a b = p →
        Becomes i s (h.goes c (if p then BitVec.ofInt 32 (pc.toNat + 4 * off.toInt) else pc + 4)) := fun f hi hb => becomes_of_branch hr hi hb
    clear_value a b
    simp only [List.forall_mem_cons]
    exact ⟨branch (· == ·) rfl (beq_eq_decide a b), branch (· != ·) rfl (bne_eq_decide_ne a b), branch (fun a b => a.slt b) rfl rfl,
      branch (fun a b => !a.slt b) rfl (not_slt_eq a b), branch (fun a b => a.ult b) rfl rfl, branch (fun a b => !a.ult b) rfl (not_ult_eq a b),
      List.forall_mem_nil _⟩
  · exact becomes_of_jump hr rfl (congrArg (fun t => (h, Done.jump t)) htarget)
  · exact becomes_of_link hr rfl (congrArg (fun t => (_, Done.jump t)) htarget)
  · exact becomes_of_jump hr rfl (jumpReg_aligned h h ha)
  · exact becomes_of_link hr rfl (jumpReg_aligned h _ ha)

end Sys2Proof.Machine

/-! The words of a core (R164, R175): the formats of section 07 field by field, and what the decoder reads from each. -/

namespace Sys2Proof

/-! ### Words put together from fields -/

theorem toNat_append_eq {m n : Nat} (x : BitVec m) (y : BitVec n) : (x ++ y).toNat = x.toNat * 2 ^ n + y.toNat := by
  rw [BitVec.toNat_append, ← Nat.shiftLeft_add_eq_or_of_lt y.isLt, Nat.shiftLeft_eq]

/-- A field of a word, from the word's value. -/
theorem field_eq {n lo k : Nat} {w : BitVec n} {x : BitVec k} (h : w.toNat / 2 ^ lo % 2 ^ k = x.toNat) : w.extractLsb' lo k = x :=
  BitVec.eq_of_toNat_eq (by rw [BitVec.extractLsb'_toNat, Nat.shiftRight_eq_div_pow, h])

/-- One bit of a word, from the word's value. -/
theorem bit_eq {n i : Nat} {w : BitVec n} {b : Bool} (hi : i < n) (h : w.toNat / 2 ^ i % 2 = (BitVec.ofBool b).toNat) : w[i] = b := by
  rw [← BitVec.getLsbD_eq_getElem, BitVec.getLsbD, Nat.testBit_eq_decide_div_mod_eq, h]
  cases b <;> rfl

/-- The register that a field names is G0 where the field is 0. -/
@[simp] theorem toFin_reg_eq_zero (x : BitVec 5) : @Eq (Fin 32) x.toFin 0 ↔ x = 0 := BitVec.toFin_inj (y := 0#5)

theorem clearOnly_eq (b : Bool) (i : Instr) : clearOnly b i = if b = true then some i else none := rfl

/-! ### The formats of a core word (R164) -/

/-- Format R. -/
def wordR (op : BitVec 6) (rd ra rb : BitVec 5) (f : BitVec 11) : BitVec 32 := op ++ rd ++ ra ++ rb ++ f

/-- Format I. -/
def wordI (op : BitVec 6) (rd ra : BitVec 5) (imm : BitVec 16) : BitVec 32 := op ++ rd ++ ra ++ imm

/-- Format J. -/
def wordJ (op : BitVec 6) (far : BitVec 26) : BitVec 32 := op ++ far

section
variable (op : BitVec 6) (rd ra rb : BitVec 5) (f : BitVec 11) (imm : BitVec 16) (far : BitVec 26)

theorem toNat_wordR : (wordR op rd ra rb f).toNat =
    op.toNat * 2 ^ 26 + rd.toNat * 2 ^ 21 + ra.toNat * 2 ^ 16 + rb.toNat * 2 ^ 11 + f.toNat := by
  refine (toNat_append_eq (op ++ rd ++ ra ++ rb) f).trans ?_
  simp only [toNat_append_eq]
  ring

theorem toNat_wordI : (wordI op rd ra imm).toNat = op.toNat * 2 ^ 26 + rd.toNat * 2 ^ 21 + ra.toNat * 2 ^ 16 + imm.toNat := by
  refine (toNat_append_eq (op ++ rd ++ ra) imm).trans ?_
  simp only [toNat_append_eq]
  ring

theorem toNat_wordJ : (wordJ op far).toNat = op.toNat * 2 ^ 26 + far.toNat := toNat_append_eq op far

@[simp] theorem op_wordR : (wordR op rd ra rb f).extractLsb' 26 6 = op := field_eq (by rw [toNat_wordR]; omega)
@[simp] theorem rdOf_wordR : rdOf (wordR op rd ra rb f) = rd.toFin := congrArg BitVec.toFin (field_eq (by rw [toNat_wordR]; omega))
@[simp] theorem raOf_wordR : raOf (wordR op rd ra rb f) = ra.toFin := congrArg BitVec.toFin (field_eq (by rw [toNat_wordR]; omega))
@[simp] theorem rbOf_wordR : rbOf (wordR op rd ra rb f) = rb.toFin := congrArg BitVec.toFin (field_eq (by rw [toNat_wordR]; omega))
@[simp] theorem func_wordR : (wordR op rd ra rb f).extractLsb' 0 11 = f := field_eq (by rw [toNat_wordR]; omega)

@[simp] theorem op_wordI : (wordI op rd ra imm).extractLsb' 26 6 = op := field_eq (by rw [toNat_wordI]; omega)
@[simp] theorem rdOf_wordI : rdOf (wordI op rd ra imm) = rd.toFin := congrArg BitVec.toFin (field_eq (by rw [toNat_wordI]; omega))
@[simp] theorem raOf_wordI : raOf (wordI op rd ra imm) = ra.toFin := congrArg BitVec.toFin (field_eq (by rw [toNat_wordI]; omega))
@[simp] theorem imm_wordI : (wordI op rd ra imm).extractLsb' 0 16 = imm := field_eq (by rw [toNat_wordI]; omega)

@[simp] theorem op_wordJ : (wordJ op far).extractLsb' 26 6 = op := field_eq (by rw [toNat_wordJ]; omega)
@[simp] theorem far_wordJ : (wordJ op far).extractLsb' 0 26 = far := field_eq (by rw [toNat_wordJ]; omega)

end

/-! ### The fields within a function field or an immediate -/

/-- The function field of LDM and STM: WB at bit 10, over bits that are 0. -/
def funcM (p : Bool) (z : BitVec 10) : BitVec 11 := BitVec.ofBool p ++ z

/-- The function field of an FPU word: rc, P at bit 5, and the function. -/
def funcF (rc : BitVec 5) (p : Bool) (q : BitVec 5) : BitVec 11 := rc ++ BitVec.ofBool p ++ q

/-- The immediate field of a system word: n and the function. -/
def immS (n q : BitVec 8) : BitVec 16 := n ++ q

section
variable (op : BitVec 6) (rd ra rb rc : BitVec 5) (p : Bool) (z : BitVec 10) (fn : BitVec 5) (n q : BitVec 8)

theorem toNat_funcM : (funcM p z).toNat = (BitVec.ofBool p).toNat * 2 ^ 10 + z.toNat :=
  toNat_append_eq (BitVec.ofBool p) z

theorem toNat_funcF : (funcF rc p fn).toNat = rc.toNat * 2 ^ 6 + (BitVec.ofBool p).toNat * 2 ^ 5 + fn.toNat := by
  refine (toNat_append_eq (rc ++ BitVec.ofBool p) fn).trans ?_
  rw [toNat_append_eq]
  ring

theorem toNat_immS : (immS n q).toNat = n.toNat * 2 ^ 8 + q.toNat := toNat_append_eq n q

theorem wordR_funcM : (op ++ rd ++ ra ++ rb ++ BitVec.ofBool p ++ z : BitVec 32) = wordR op rd ra rb (funcM p z) := BitVec.append_assoc

theorem wordR_funcF : (op ++ rd ++ ra ++ rb ++ rc ++ BitVec.ofBool p ++ fn : BitVec 32) = wordR op rd ra rb (funcF rc p fn) := by
  apply BitVec.eq_of_toNat_eq
  refine (toNat_append_eq (op ++ rd ++ ra ++ rb ++ rc ++ BitVec.ofBool p) fn).trans ?_
  rw [toNat_wordR, toNat_funcF]
  simp only [toNat_append_eq]
  ring

theorem wordI_immS : (op ++ rd ++ ra ++ n ++ q : BitVec 32) = wordI op rd ra (immS n q) := BitVec.append_assoc

@[simp] theorem low_funcM : (wordR op rd ra rb (funcM p z)).extractLsb' 0 10 = z := field_eq (by rw [toNat_wordR, toNat_funcM]; omega)
@[simp] theorem wb_funcM : (wordR op rd ra rb (funcM p z))[10] = p :=
  bit_eq (by decide) (by rw [toNat_wordR, toNat_funcM]; omega)

@[simp] theorem rc_funcF : (wordR op rd ra rb (funcF rc p fn)).extractLsb' 6 5 = rc :=
  field_eq (by rw [toNat_wordR, toNat_funcF]; omega)
@[simp] theorem p_funcF : (wordR op rd ra rb (funcF rc p fn))[5] = p :=
  bit_eq (by decide) (by rw [toNat_wordR, toNat_funcF]; omega)
@[simp] theorem fn_funcF : (funcF rc p fn).toNat % 32 = fn.toNat := by rw [toNat_funcF]; omega

@[simp] theorem n_immS : (wordI op rd ra (immS n q)).extractLsb' 8 8 = n := field_eq (by rw [toNat_wordI, toNat_immS]; omega)
@[simp] theorem fn_immS : (wordI op rd ra (immS n q)).extractLsb' 0 8 = q := field_eq (by rw [toNat_wordI, toNat_immS]; omega)

end

/-! ### What the decoder reads, by the op -/

section
variable (c : CoreId) (rd ra rb rc : BitVec 5) (f : BitVec 11) (imm : BitVec 16) (p : Bool) (z : BitVec 10) (fn : BitVec 5) (n q : BitVec 8)

theorem decodeCore_alu : decodeCore c (wordR 0x00#6 rd ra rb f) = decodeAlu c f.toNat rd.toFin ra.toFin rb.toFin := by
  simp [decodeCore]

theorem decodeCore_mem : decodeCore c (wordR 0x30#6 rd ra rb f) = decodeMem c f.toNat rd.toFin ra.toFin rb.toFin := by
  simp [decodeCore]

theorem decodeCore_jumpReg : decodeCore c (wordR 0x2A#6 rd ra rb f) =
    if rd = 0 ∧ rb = 0 ∧ f = 1 then some (.jr c ra.toFin) else if rd = 0 ∧ rb = 0 ∧ f = 2 then some (.callr c ra.toFin) else none := by
  by_cases h1 : f = 1
  · simp [decodeCore, clearOnly_eq, h1]
  · by_cases h2 : f = 2
    · simp [decodeCore, clearOnly_eq, h2]
    · have n1 : f.toNat ≠ 1 := fun h => h1 (BitVec.eq_of_toNat_eq h)
      have n2 : f.toNat ≠ 2 := fun h => h2 (BitVec.eq_of_toNat_eq h)
      rw [if_neg (fun h => h1 h.2.2), if_neg (fun h => h2 h.2.2)]
      simp [decodeCore, n1, n2]

theorem decodeCore_long : decodeCore c (wordR 0x34#6 rd ra rb f) =
    if f = 1 then some (.bmov c rd.toFin ra.toFin rb.toFin none) else if f = 2 then some (.bfil c rd.toFin ra.toFin rb.toFin none)
    else if f = 3 then some (.crcb c rd.toFin ra.toFin rb.toFin none) else none := by
  simp [decodeCore, ← BitVec.toNat_inj]

theorem decodeCore_ldm : decodeCore c (wordR 0x35#6 rd ra rb (funcM p z)) =
    if z = 0 then some (.ldm c rd.toFin ra.toFin rb.toFin p none) else none := by
  simp [decodeCore, clearOnly_eq]

theorem decodeCore_stm : decodeCore c (wordR 0x36#6 rd ra rb (funcM p z)) =
    if z = 0 then some (.stm c rd.toFin ra.toFin rb.toFin p none) else none := by
  simp [decodeCore, clearOnly_eq]

theorem decodeCore_fop : decodeCore c (wordR 0x38#6 rd ra rb (funcF rc p fn)) =
    if rc = 0 then decodeFop c p fn.toNat rd.toFin ra.toFin rb.toFin else none := by
  simp [decodeCore]

theorem decodeCore_fma : decodeCore c (wordR 0x39#6 rd ra rb (funcF rc p fn)) = decodeFma c p fn.toNat rd.toFin ra.toFin rb.toFin rc.toFin := by
  simp [decodeCore, regField]

theorem decodeCore_sys : decodeCore c (wordI 0x3F#6 rd ra (immS n q)) = decodeSys c q.toNat rd.toFin ra.toFin n := by
  simp [decodeCore]

theorem decodeCore_lui : decodeCore c (wordI 0x07#6 rd ra imm) = if ra = 0 then some (.lui c rd.toFin imm) else none := by
  simp [decodeCore, clearOnly_eq]

theorem decodeCore_pcaddh : decodeCore c (wordI 0x08#6 rd ra imm) = if ra = 0 then some (.pcaddh c rd.toFin imm) else none := by
  simp [decodeCore, clearOnly_eq]

theorem decodeCore_mfs : decodeCore c (wordI 0x3F#6 rd ra (immS n 0x05#8)) =
    if ra = 0 ∧ n.toNat < 32 then some (.mfs c rd.toFin (Fin.ofNat 32 n.toNat)) else none := by
  simp only [decodeCore_sys, decodeSys, clearOnly_eq, Bool.and_eq_true, decide_eq_true_eq, toFin_reg_eq_zero]
  exact if_congr Iff.rfl rfl rfl

theorem decodeCore_mts : decodeCore c (wordI 0x3F#6 rd ra (immS n 0x06#8)) =
    if rd = 0 ∧ n.toNat < 32 then some (.mts c (Fin.ofNat 32 n.toNat) ra.toFin) else none := by
  simp only [decodeCore_sys, decodeSys, clearOnly_eq, Bool.and_eq_true, decide_eq_true_eq, toFin_reg_eq_zero]
  exact if_congr Iff.rfl rfl rfl

theorem decodeCore_jmp (far : BitVec 26) : decodeCore c (wordJ 0x28#6 far) = some (.jmp c far) := by
  simp [decodeCore]

theorem decodeCore_call (far : BitVec 26) : decodeCore c (wordJ 0x29#6 far) = some (.call c far) := by
  simp [decodeCore]

theorem decodeCore_ll : decodeCore c (wordR 0x30#6 rd ra rb 0x001#11) = if rb = 0 then some (.ll c rd.toFin ra.toFin) else none := by
  simp [decodeCore_mem, decodeMem, clearOnly_eq]

end

/-! ### The tables of section 07, and the functions and ops that none of them lists -/

section
variable (c : CoreId) (d a b : Fin 32) (imm : BitVec 16)

/-- Table "Core ALU functions": the forms that use rd, ra and rb. -/
def aluTable : List (BitVec 11 × Instr) :=
  [(0x001, .add c d a b), (0x002, .sub c d a b), (0x003, .and c d a b), (0x004, .or c d a b), (0x005, .xor c d a b), (0x006, .slt c d a b),
    (0x007, .sltu c d a b), (0x008, .sll c d a b), (0x009, .srl c d a b), (0x00A, .sra c d a b), (0x00B, .slli c d a b), (0x00C, .srli c d a b),
    (0x00D, .srai c d a b), (0x010, .mul c d a b), (0x011, .mulh c d a b), (0x012, .mulhu c d a b), (0x013, .div c d a b), (0x014, .divu c d a b),
    (0x015, .rem c d a b), (0x016, .remu c d a b), (0x018, .min c d a b), (0x019, .max c d a b), (0x01A, .minu c d a b), (0x01B, .maxu c d a b)]

/-- The same table: the forms with rb = 0. -/
def bitTable : List (BitVec 11 × Instr) := [(0x020, .clz c d a), (0x021, .popc c d a), (0x022, .bswap c d a)]

/-- Table "Core major opcodes": the forms of format I that use all its fields. -/
def immTable : List (BitVec 6 × Instr) :=
  [(0x01, .addi c d a imm), (0x02, .andi c d a imm), (0x03, .ori c d a imm), (0x04, .xori c d a imm), (0x05, .slti c d a imm), (0x06, .sltiu c d a imm),
    (0x10, .lb c d a imm), (0x11, .lbu c d a imm), (0x12, .lh c d a imm), (0x13, .lhu c d a imm), (0x14, .lw c d a imm .none), (0x18, .sb c d a imm),
    (0x19, .sh c d a imm), (0x1A, .sw c d a imm), (0x1C, .flw c d a imm), (0x1D, .fld c d a imm), (0x1E, .fsw c d a imm), (0x1F, .fsd c d a imm),
    (0x20, .beq c d a imm), (0x21, .bne c d a imm), (0x22, .blt c d a imm), (0x23, .bge c d a imm), (0x24, .bltu c d a imm), (0x25, .bgeu c d a imm)]

/-- Table "Core memory and ordering functions": the forms that use rd, ra and rb. -/
def atomicTable : List (BitVec 11 × Instr) :=
  [(0x002, .sc c d a b), (0x010, .amoswap c d a b), (0x011, .amoadd c d a b), (0x012, .amoand c d a b), (0x013, .amoor c d a b),
    (0x014, .amoxor c d a b), (0x015, .amomax c d a b), (0x016, .amomin c d a b), (0x017, .amocas c d a b)]

/-- The same table: the forms that name a line by ra. -/
def lineTable : List (BitVec 11 × Instr) := [(0x030, .dcwb c a), (0x031, .dcwbi c a), (0x032, .dcinv c a), (0x033, .icinv c a)]

/-- The same table: the forms without operands. -/
def orderTable : List (BitVec 11 × Instr) := [(0x020, .fence c), (0x021, .fenceWd c), (0x023, .isync c), (0x034, .icinvAll c)]

variable (p : Bool)

/-- Table "Core FPU functions": the forms that use rd, ra and rb. -/
def fpuTable : List (BitVec 5 × Instr) :=
  [(0x01, .fadd c p d a b), (0x02, .fsub c p d a b), (0x03, .fmul c p d a b), (0x04, .fdiv c p d a b), (0x06, .fmin c p d a b), (0x07, .fmax c p d a b),
    (0x0E, .feq c p d a b), (0x0F, .flt c p d a b), (0x10, .fle c p d a b)]

/-- The same table: the forms with rb = 0. -/
def fpuUnaryTable : List (BitVec 5 × Instr) :=
  [(0x05, .fsqrt c p d a), (0x08, .fabs c p d a), (0x09, .fneg c p d a), (0x0A, .fmov c p d a), (0x0B, .fcvt c p d a), (0x0C, .ftoi c p d a),
    (0x0D, .itof c p d a), (0x11, .fmvg c p d a), (0x12, .fmvf c p d a)]

/-- The fused operations. -/
def fusedTable (r : Fin 32) : List (BitVec 5 × Instr) :=
  [(0x00, .fmadd c p d a b r), (0x01, .fmsub c p d a b r), (0x02, .fnmadd c p d a b r), (0x03, .fnmsub c p d a b r)]

/-- Table "Core system functions": the forms that use n alone. -/
def trapTable (n : BitVec 8) : List (BitVec 8 × Instr) := [(0x01, .slc c n), (0x02, .trap c n), (0x07, .brk c n)]

/-- The same table: the forms without operands. -/
def bareTable : List (BitVec 8 × Instr) := [(0x03, .eret c), (0x04, .wait c)]

end

section
variable (c : CoreId) (rd ra rb : BitVec 5) (imm : BitVec 16) (p : Bool)

theorem decodeCore_aluTable : ∀ x ∈ aluTable c rd.toFin ra.toFin rb.toFin, decodeCore c (wordR 0x00#6 rd ra rb x.1) = some x.2 := by
  simp [aluTable, decodeCore_alu, decodeAlu]

theorem decodeCore_bitTable : ∀ x ∈ bitTable c rd.toFin ra.toFin,
    decodeCore c (wordR 0x00#6 rd ra rb x.1) = if rb = 0 then some x.2 else none := by
  simp [bitTable, decodeCore_alu, decodeAlu, clearOnly_eq]

theorem decodeCore_alu_unlisted (f : BitVec 11) (hf : ∀ x ∈ aluTable c rd.toFin ra.toFin rb.toFin ++ bitTable c rd.toFin ra.toFin, f ≠ x.1) :
    decodeCore c (wordR 0x00#6 rd ra rb f) = none := by
  simp only [aluTable, bitTable, List.cons_append, List.nil_append, List.forall_mem_cons, ne_eq, ← BitVec.toNat_inj] at hf
  rw [decodeCore_alu, decodeAlu.eq_def]
  generalize f.toNat = k at hf ⊢
  split <;> simp at hf ⊢

theorem decodeCore_immTable : ∀ x ∈ immTable c rd.toFin ra.toFin imm, decodeCore c (wordI x.1 rd ra imm) = some x.2 := by
  simp [immTable, decodeCore]

theorem decodeCore_atomicTable : ∀ x ∈ atomicTable c rd.toFin ra.toFin rb.toFin, decodeCore c (wordR 0x30#6 rd ra rb x.1) = some x.2 := by
  simp [atomicTable, decodeCore_mem, decodeMem]

theorem decodeCore_lineTable : ∀ x ∈ lineTable c ra.toFin,
    decodeCore c (wordR 0x30#6 rd ra rb x.1) = if rd = 0 ∧ rb = 0 then some x.2 else none := by
  simp [lineTable, decodeCore_mem, decodeMem, clearOnly_eq]

theorem decodeCore_orderTable : ∀ x ∈ orderTable c,
    decodeCore c (wordR 0x30#6 rd ra rb x.1) = if rd = 0 ∧ ra = 0 ∧ rb = 0 then some x.2 else none := by
  simp [orderTable, decodeCore_mem, decodeMem, clearOnly_eq, and_assoc]

theorem decodeCore_mem_unlisted (f : BitVec 11) (hll : f ≠ 0x001)
    (hf : ∀ x ∈ atomicTable c rd.toFin ra.toFin rb.toFin ++ lineTable c ra.toFin ++ orderTable c, f ≠ x.1) :
    decodeCore c (wordR 0x30#6 rd ra rb f) = none := by
  simp only [atomicTable, lineTable, orderTable, List.cons_append, List.nil_append, List.forall_mem_cons, ne_eq, ← BitVec.toNat_inj] at hll hf
  rw [decodeCore_mem, decodeMem.eq_def]
  generalize f.toNat = k at hll hf ⊢
  split <;> simp at hll hf ⊢

theorem decodeCore_fpuTable : ∀ x ∈ fpuTable c rd.toFin ra.toFin rb.toFin p, decodeCore c (wordR 0x38#6 rd ra rb (funcF 0#5 p x.1)) = some x.2 := by
  simp [fpuTable, decodeCore_fop, decodeFop]

theorem decodeCore_fpuUnaryTable : ∀ x ∈ fpuUnaryTable c rd.toFin ra.toFin p,
    decodeCore c (wordR 0x38#6 rd ra rb (funcF 0#5 p x.1)) = if rb = 0 then some x.2 else none := by
  simp [fpuUnaryTable, decodeCore_fop, decodeFop, clearOnly_eq]

theorem decodeCore_frfsr : decodeCore c (wordR 0x38#6 rd ra rb (funcF 0#5 p 0x13#5)) =
    if p = false ∧ ra = 0 ∧ rb = 0 then some (.frfsr c rd.toFin) else none := by
  simp [decodeCore_fop, decodeFop, clearOnly_eq, and_assoc]

theorem decodeCore_fwfsr : decodeCore c (wordR 0x38#6 rd ra rb (funcF 0#5 p 0x14#5)) =
    if p = false ∧ rd = 0 ∧ rb = 0 then some (.fwfsr c ra.toFin) else none := by
  simp [decodeCore_fop, decodeFop, clearOnly_eq, and_assoc]

theorem decodeCore_fop_reserved {rc : BitVec 5} (fn : BitVec 5) (hrc : rc ≠ 0) : decodeCore c (wordR 0x38#6 rd ra rb (funcF rc p fn)) = none := by
  rw [decodeCore_fop, if_neg hrc]

theorem decodeCore_fop_unlisted (rc fn : BitVec 5) (h13 : fn ≠ 0x13) (h14 : fn ≠ 0x14)
    (hf : ∀ x ∈ fpuTable c rd.toFin ra.toFin rb.toFin p ++ fpuUnaryTable c rd.toFin ra.toFin p, fn ≠ x.1) :
    decodeCore c (wordR 0x38#6 rd ra rb (funcF rc p fn)) = none := by
  simp only [fpuTable, fpuUnaryTable, List.cons_append, List.nil_append, List.forall_mem_cons, ne_eq, ← BitVec.toNat_inj] at h13 h14 hf
  rw [decodeCore_fop, decodeFop.eq_def]
  generalize fn.toNat = k at h13 h14 hf ⊢
  split
  · split <;> simp at h13 h14 hf ⊢
  · rfl

theorem decodeCore_fusedTable (rc : BitVec 5) : ∀ x ∈ fusedTable c rd.toFin ra.toFin rb.toFin p rc.toFin,
    decodeCore c (wordR 0x39#6 rd ra rb (funcF rc p x.1)) = some x.2 := by
  simp [fusedTable, decodeCore_fma, decodeFma]

theorem decodeCore_fma_unlisted (rc fn : BitVec 5) (hf : 3 < fn.toNat) : decodeCore c (wordR 0x39#6 rd ra rb (funcF rc p fn)) = none := by
  rw [decodeCore_fma, decodeFma.eq_def]
  split <;> simp_all

theorem decodeCore_trapTable (n : BitVec 8) : ∀ x ∈ trapTable c n,
    decodeCore c (wordI 0x3F#6 rd ra (immS n x.1)) = if rd = 0 ∧ ra = 0 then some x.2 else none := by
  simp [trapTable, decodeCore_sys, decodeSys, clearOnly_eq]

theorem decodeCore_bareTable (n : BitVec 8) : ∀ x ∈ bareTable c,
    decodeCore c (wordI 0x3F#6 rd ra (immS n x.1)) = if rd = 0 ∧ ra = 0 ∧ n = 0 then some x.2 else none := by
  simp [bareTable, decodeCore_sys, decodeSys, clearOnly_eq, and_assoc]

theorem decodeCore_sys_unlisted (n q : BitVec 8) (hq : q = 0 ∨ 7 < q.toNat) : decodeCore c (wordI 0x3F#6 rd ra (immS n q)) = none := by
  rw [← BitVec.toNat_inj] at hq
  rw [decodeCore_sys, decodeSys.eq_def]
  generalize q.toNat = k at hq ⊢
  dsimp only
  split <;> simp at hq ⊢

theorem decodeCore_unlisted (op : BitVec 6) (far : BitVec 26) (hop : op.toNat ∉ [0x00, 0x01, 0x02, 0x03, 0x04, 0x05, 0x06, 0x07, 0x08, 0x10, 0x11, 0x12,
    0x13, 0x14, 0x18, 0x19, 0x1A, 0x1C, 0x1D, 0x1E, 0x1F, 0x20, 0x21, 0x22, 0x23, 0x24, 0x25, 0x28, 0x29, 0x2A, 0x30, 0x34, 0x35, 0x36, 0x38, 0x39,
    0x3F]) : decodeCore c (wordJ op far) = none := by
  unfold decodeCore
  rw [op_wordJ]
  generalize op.toNat = k at hop
  dsimp only
  split <;> simp at hop ⊢

end

end Sys2Proof

/-! The words of the lanes (R176, R177): the formats of section 07 field by field, and what the decoder reads from each. -/

namespace Sys2Proof

/-! ### Fields, from a word's value -/

theorem headOf_eq {w : BitVec 64} {pe pn : Bool} {kg : BitVec 3} {ld : BitVec 6}
    (h : w.toNat / 2 ^ 45 % 2 ^ 11 = (BitVec.ofBool pe).toNat * 2 ^ 10 + (BitVec.ofBool pn).toNat * 2 ^ 9 + kg.toNat * 2 ^ 6 + ld.toNat) :
    headOf w = { pe := pe, pn := pn, kg := kg.toFin, ld := ld.toFin } := by
  have h55 : w.getLsbD 55 = pe := bit_eq (by decide) (by omega)
  have h54 : w.getLsbD 54 = pn := bit_eq (by decide) (by omega)
  have h51 : w.extractLsb' 51 3 = kg := field_eq (by omega)
  have h45 : w.extractLsb' 45 6 = ld := field_eq (by omega)
  rw [headOf, predField, laneField, h55, h54, h51, h45]

/-- The listed fields (lowest bit, width) of a word with value `v` are 0. -/
def Clear (v : Nat) : List (Nat × Nat) → Prop
  | [] => True
  | e :: l => v / 2 ^ e.1 % 2 ^ e.2 = 0 ∧ Clear v l

theorem clear_iff (v : Nat) (l : List (Nat × Nat)) : l.all (fun e => v / 2 ^ e.1 % 2 ^ e.2 = 0) = true ↔ Clear v l := by
  induction l with
  | nil => simp [Clear]
  | cons e l ih => simp [Clear, ← ih]

/-- A word is an instruction where the fields that it does not use are 0, which is `P`. -/
theorem unused_eq {w : BitVec 64} {l : List (Nat × Nat)} {P : Prop} [Decidable P] (i : Instr) (h : Clear w.toNat l ↔ P) :
    unused w l i = if P then some i else none := by
  simp only [unused, clearOnly_eq, clear_iff, h]

theorem field_zero {n : Nat} (x : BitVec n) : x = 0 ↔ x.toNat = 0 := by rw [← BitVec.toNat_inj]; rfl

/-! ### The formats of a lane word (R176) -/

/-- Format LR. -/
def wordLR (op : BitVec 8) (pe pn : Bool) (kg : BitVec 3) (ld la lb lc : BitVec 6) (kd : BitVec 3) (t : BitVec 4) (z : BitVec 20) : BitVec 64 :=
  op ++ BitVec.ofBool pe ++ BitVec.ofBool pn ++ kg ++ ld ++ la ++ lb ++ lc ++ kd ++ t ++ z

/-- Format LI. -/
def wordLI (op : BitVec 8) (pe pn : Bool) (kg : BitVec 3) (ld la : BitVec 6) (kd : BitVec 3) (t : BitVec 4) (imm : BitVec 32) : BitVec 64 :=
  op ++ BitVec.ofBool pe ++ BitVec.ofBool pn ++ kg ++ ld ++ la ++ kd ++ t ++ imm

/-- Format LI of a shuffle, which uses neither Kd nor T. -/
def wordLX (op : BitVec 8) (pe pn : Bool) (kg : BitVec 3) (ld la : BitVec 6) (z : BitVec 7) (imm : BitVec 32) : BitVec 64 :=
  op ++ BitVec.ofBool pe ++ BitVec.ofBool pn ++ kg ++ ld ++ la ++ z ++ imm

/-- Format LI of SVAL, which uses La neither. -/
def wordLV (op : BitVec 8) (pe pn : Bool) (kg : BitVec 3) (ld : BitVec 6) (z : BitVec 13) (imm : BitVec 32) : BitVec 64 :=
  op ++ BitVec.ofBool pe ++ BitVec.ofBool pn ++ kg ++ ld ++ z ++ imm

/-- Format LM. -/
def wordLM (op : BitVec 8) (pe pn : Bool) (kg : BitVec 3) (ld la ls : BitVec 6) (sz spc : BitVec 2) (r : BitVec 1) (aop : BitVec 4) (off : BitVec 24) :
    BitVec 64 :=
  op ++ BitVec.ofBool pe ++ BitVec.ofBool pn ++ kg ++ ld ++ la ++ ls ++ sz ++ spc ++ r ++ aop ++ off

/-- Format LC. -/
def wordLC (op : BitVec 8) (y : BitVec 17) (kc : BitVec 3) (cn : Bool) (imm : BitVec 32) : BitVec 64 := op ++ y ++ kc ++ BitVec.ofBool cn ++ 0#3 ++ imm

/-- A word by its op alone. -/
def wordLO (op : BitVec 8) (rest : BitVec 56) : BitVec 64 := op ++ rest

section
variable (op : BitVec 8) (pe pn cn : Bool) (kg kd kc : BitVec 3) (ld la lb lc ls : BitVec 6) (t aop : BitVec 4) (z20 : BitVec 20) (z7 : BitVec 7) (z13 : BitVec 13)
  (sz spc : BitVec 2) (r : BitVec 1) (off : BitVec 24) (y : BitVec 17) (imm : BitVec 32) (rest : BitVec 56)

theorem toNat_wordLR : (wordLR op pe pn kg ld la lb lc kd t z20).toNat = op.toNat * 2 ^ 56 + (BitVec.ofBool pe).toNat * 2 ^ 55 + (BitVec.ofBool pn).toNat * 2 ^ 54 + kg.toNat * 2 ^ 51 +
    ld.toNat * 2 ^ 45 + la.toNat * 2 ^ 39 + lb.toNat * 2 ^ 33 + lc.toNat * 2 ^ 27 + kd.toNat * 2 ^ 24 + t.toNat * 2 ^ 20 + z20.toNat := by
  refine (toNat_append_eq (op ++ BitVec.ofBool pe ++ BitVec.ofBool pn ++ kg ++ ld ++ la ++ lb ++ lc ++ kd ++ t) z20).trans ?_
  simp only [toNat_append_eq]
  ring

theorem toNat_wordLI : (wordLI op pe pn kg ld la kd t imm).toNat = op.toNat * 2 ^ 56 + (BitVec.ofBool pe).toNat * 2 ^ 55 + (BitVec.ofBool pn).toNat * 2 ^ 54 + kg.toNat * 2 ^ 51 +
    ld.toNat * 2 ^ 45 + la.toNat * 2 ^ 39 + kd.toNat * 2 ^ 36 + t.toNat * 2 ^ 32 + imm.toNat := by
  refine (toNat_append_eq (op ++ BitVec.ofBool pe ++ BitVec.ofBool pn ++ kg ++ ld ++ la ++ kd ++ t) imm).trans ?_
  simp only [toNat_append_eq]
  ring

theorem toNat_wordLX : (wordLX op pe pn kg ld la z7 imm).toNat = op.toNat * 2 ^ 56 + (BitVec.ofBool pe).toNat * 2 ^ 55 + (BitVec.ofBool pn).toNat * 2 ^ 54 + kg.toNat * 2 ^ 51 +
    ld.toNat * 2 ^ 45 + la.toNat * 2 ^ 39 + z7.toNat * 2 ^ 32 + imm.toNat := by
  refine (toNat_append_eq (op ++ BitVec.ofBool pe ++ BitVec.ofBool pn ++ kg ++ ld ++ la ++ z7) imm).trans ?_
  simp only [toNat_append_eq]
  ring

theorem toNat_wordLV : (wordLV op pe pn kg ld z13 imm).toNat = op.toNat * 2 ^ 56 + (BitVec.ofBool pe).toNat * 2 ^ 55 + (BitVec.ofBool pn).toNat * 2 ^ 54 + kg.toNat * 2 ^ 51 +
    ld.toNat * 2 ^ 45 + z13.toNat * 2 ^ 32 + imm.toNat := by
  refine (toNat_append_eq (op ++ BitVec.ofBool pe ++ BitVec.ofBool pn ++ kg ++ ld ++ z13) imm).trans ?_
  simp only [toNat_append_eq]
  ring

theorem toNat_wordLM : (wordLM op pe pn kg ld la ls sz spc r aop off).toNat = op.toNat * 2 ^ 56 + (BitVec.ofBool pe).toNat * 2 ^ 55 + (BitVec.ofBool pn).toNat * 2 ^ 54 +
    kg.toNat * 2 ^ 51 + ld.toNat * 2 ^ 45 + la.toNat * 2 ^ 39 + ls.toNat * 2 ^ 33 + sz.toNat * 2 ^ 31 + spc.toNat * 2 ^ 29 + r.toNat * 2 ^ 28 +
    aop.toNat * 2 ^ 24 + off.toNat := by
  refine (toNat_append_eq (op ++ BitVec.ofBool pe ++ BitVec.ofBool pn ++ kg ++ ld ++ la ++ ls ++ sz ++ spc ++ r ++ aop) off).trans ?_
  simp only [toNat_append_eq]
  ring

theorem toNat_wordLC : (wordLC op y kc cn imm).toNat = op.toNat * 2 ^ 56 + y.toNat * 2 ^ 39 + kc.toNat * 2 ^ 36 + (BitVec.ofBool cn).toNat * 2 ^ 35 + imm.toNat := by
  refine (toNat_append_eq (op ++ y ++ kc ++ BitVec.ofBool cn ++ 0#3) imm).trans ?_
  simp only [toNat_append_eq, BitVec.toNat_ofNat]
  ring

theorem toNat_wordLO : (wordLO op rest).toNat = op.toNat * 2 ^ 56 + rest.toNat := toNat_append_eq op rest

/-! ### The fields of each format -/

@[simp] theorem op_wordLR : (wordLR op pe pn kg ld la lb lc kd t z20).extractLsb' 56 8 = op :=
  field_eq (by rw [toNat_wordLR]; omega)
@[simp] theorem headOf_wordLR : headOf (wordLR op pe pn kg ld la lb lc kd t z20) = { pe := pe, pn := pn, kg := kg.toFin, ld := ld.toFin } :=
  headOf_eq (by rw [toNat_wordLR]; omega)
@[simp] theorem la_wordLR : laneField (wordLR op pe pn kg ld la lb lc kd t z20) 39 = la.toFin :=
  congrArg BitVec.toFin (field_eq (by rw [toNat_wordLR]; omega))
@[simp] theorem lb_wordLR : laneField (wordLR op pe pn kg ld la lb lc kd t z20) 33 = lb.toFin :=
  congrArg BitVec.toFin (field_eq (by rw [toNat_wordLR]; omega))
@[simp] theorem lc_wordLR : laneField (wordLR op pe pn kg ld la lb lc kd t z20) 27 = lc.toFin :=
  congrArg BitVec.toFin (field_eq (by rw [toNat_wordLR]; omega))
@[simp] theorem kd_wordLR : predField (wordLR op pe pn kg ld la lb lc kd t z20) 24 = kd.toFin :=
  congrArg BitVec.toFin (field_eq (by rw [toNat_wordLR]; omega))
@[simp] theorem t_wordLR : codeField (wordLR op pe pn kg ld la lb lc kd t z20) 20 = t.toFin :=
  congrArg BitVec.toFin (field_eq (by rw [toNat_wordLR]; omega))
/-- KOP's first source is a predicate number. -/
@[simp] theorem ka_wordLR : predField (wordLR op pe pn kg ld la lb lc kd t z20) 39 = Fin.ofNat 8 la.toNat := by
  apply Fin.ext
  rw [predField, BitVec.val_toFin, BitVec.extractLsb'_toNat, Nat.shiftRight_eq_div_pow, toNat_wordLR]
  simp only [Fin.ofNat]
  omega
/-- KOP's second source is a predicate number. -/
@[simp] theorem kb_wordLR : predField (wordLR op pe pn kg ld la lb lc kd t z20) 33 = Fin.ofNat 8 lb.toNat := by
  apply Fin.ext
  rw [predField, BitVec.val_toFin, BitVec.extractLsb'_toNat, Nat.shiftRight_eq_div_pow, toNat_wordLR]
  simp only [Fin.ofNat]
  omega

@[simp] theorem op_wordLI : (wordLI op pe pn kg ld la kd t imm).extractLsb' 56 8 = op :=
  field_eq (by rw [toNat_wordLI]; omega)
@[simp] theorem headOf_wordLI : headOf (wordLI op pe pn kg ld la kd t imm) = { pe := pe, pn := pn, kg := kg.toFin, ld := ld.toFin } :=
  headOf_eq (by rw [toNat_wordLI]; omega)
@[simp] theorem la_wordLI : laneField (wordLI op pe pn kg ld la kd t imm) 39 = la.toFin := congrArg BitVec.toFin (field_eq (by rw [toNat_wordLI]; omega))
@[simp] theorem kd_wordLI : predField (wordLI op pe pn kg ld la kd t imm) 36 = kd.toFin := congrArg BitVec.toFin (field_eq (by rw [toNat_wordLI]; omega))
@[simp] theorem t_wordLI : codeField (wordLI op pe pn kg ld la kd t imm) 32 = t.toFin := congrArg BitVec.toFin (field_eq (by rw [toNat_wordLI]; omega))
@[simp] theorem imm_wordLI : (wordLI op pe pn kg ld la kd t imm).extractLsb' 0 32 = imm := field_eq (by rw [toNat_wordLI]; omega)

@[simp] theorem op_wordLX : (wordLX op pe pn kg ld la z7 imm).extractLsb' 56 8 = op :=
  field_eq (by rw [toNat_wordLX]; omega)
@[simp] theorem headOf_wordLX : headOf (wordLX op pe pn kg ld la z7 imm) = { pe := pe, pn := pn, kg := kg.toFin, ld := ld.toFin } :=
  headOf_eq (by rw [toNat_wordLX]; omega)
@[simp] theorem la_wordLX : laneField (wordLX op pe pn kg ld la z7 imm) 39 = la.toFin := congrArg BitVec.toFin (field_eq (by rw [toNat_wordLX]; omega))
@[simp] theorem imm_wordLX : (wordLX op pe pn kg ld la z7 imm).extractLsb' 0 32 = imm := field_eq (by rw [toNat_wordLX]; omega)

@[simp] theorem op_wordLV : (wordLV op pe pn kg ld z13 imm).extractLsb' 56 8 = op :=
  field_eq (by rw [toNat_wordLV]; omega)
@[simp] theorem headOf_wordLV : headOf (wordLV op pe pn kg ld z13 imm) = { pe := pe, pn := pn, kg := kg.toFin, ld := ld.toFin } :=
  headOf_eq (by rw [toNat_wordLV]; omega)
@[simp] theorem imm_wordLV : (wordLV op pe pn kg ld z13 imm).extractLsb' 0 32 = imm := field_eq (by rw [toNat_wordLV]; omega)

@[simp] theorem op_wordLM : (wordLM op pe pn kg ld la ls sz spc r aop off).extractLsb' 56 8 = op :=
  field_eq (by rw [toNat_wordLM]; omega)
@[simp] theorem headOf_wordLM : headOf (wordLM op pe pn kg ld la ls sz spc r aop off) = { pe := pe, pn := pn, kg := kg.toFin, ld := ld.toFin } :=
  headOf_eq (by rw [toNat_wordLM]; omega)
@[simp] theorem la_wordLM : laneField (wordLM op pe pn kg ld la ls sz spc r aop off) 39 = la.toFin :=
  congrArg BitVec.toFin (field_eq (by rw [toNat_wordLM]; omega))
@[simp] theorem ls_wordLM : laneField (wordLM op pe pn kg ld la ls sz spc r aop off) 33 = ls.toFin :=
  congrArg BitVec.toFin (field_eq (by rw [toNat_wordLM]; omega))
@[simp] theorem sz_wordLM : (wordLM op pe pn kg ld la ls sz spc r aop off).extractLsb' 31 2 = sz := field_eq (by rw [toNat_wordLM]; omega)
@[simp] theorem spc_wordLM : (wordLM op pe pn kg ld la ls sz spc r aop off).extractLsb' 29 2 = spc := field_eq (by rw [toNat_wordLM]; omega)
@[simp] theorem aop_wordLM : codeField (wordLM op pe pn kg ld la ls sz spc r aop off) 24 = aop.toFin :=
  congrArg BitVec.toFin (field_eq (by rw [toNat_wordLM]; omega))
@[simp] theorem off_wordLM : (wordLM op pe pn kg ld la ls sz spc r aop off).extractLsb' 0 24 = off := field_eq (by rw [toNat_wordLM]; omega)

@[simp] theorem op_wordLC : (wordLC op y kc cn imm).extractLsb' 56 8 = op := field_eq (by rw [toNat_wordLC]; omega)
@[simp] theorem ctlOf_wordLC : ctlOf (wordLC op y kc cn imm) = { kc := kc.toFin, cn := cn, off := imm } := by
  have h36 : (wordLC op y kc cn imm).extractLsb' 36 3 = kc := field_eq (by rw [toNat_wordLC]; omega)
  have h35 : (wordLC op y kc cn imm).getLsbD 35 = cn := bit_eq (by decide) (by rw [toNat_wordLC]; omega)
  have h0 : (wordLC op y kc cn imm).extractLsb' 0 32 = imm := field_eq (by rw [toNat_wordLC]; omega)
  rw [ctlOf, predField, h36, h35, h0]

@[simp] theorem op_wordLO : (wordLO op rest).extractLsb' 56 8 = op := field_eq (by rw [toNat_wordLO]; omega)

end

end Sys2Proof

/-! What the decoder of the lanes reads, table by table (R176, R177). -/

namespace Sys2Proof

/-! ### The fields that an op does not use are 0, in each format -/

section
variable (op : BitVec 8) (pe pn cn : Bool) (kg kd kc : BitVec 3) (ld la lb lc ls : BitVec 6) (t aop : BitVec 4) (z : BitVec 20) (z7 : BitVec 7) (z13 : BitVec 13)
  (sz spc : BitVec 2) (r : BitVec 1) (off : BitVec 24) (y : BitVec 17) (imm : BitVec 32) (rest : BitVec 56) (i : Instr)

@[simp] theorem unused_two : unused (wordLR op pe pn kg ld la lb lc kd t z) [(0, 33)] i =
    if lc = 0 ∧ kd = 0 ∧ t = 0 ∧ z = 0 then some i else none :=
  unused_eq i (by simp only [Clear, toNat_wordLR, field_zero, and_true]; omega)
@[simp] theorem unused_twoT : unused (wordLR op pe pn kg ld la lb lc kd t z) [(0, 20), (24, 9)] i =
    if lc = 0 ∧ kd = 0 ∧ z = 0 then some i else none :=
  unused_eq i (by simp only [Clear, toNat_wordLR, field_zero, and_true]; omega)
@[simp] theorem unused_three : unused (wordLR op pe pn kg ld la lb lc kd t z) [(0, 27)] i =
    if kd = 0 ∧ t = 0 ∧ z = 0 then some i else none :=
  unused_eq i (by simp only [Clear, toNat_wordLR, field_zero, and_true]; omega)
@[simp] theorem unused_threeT : unused (wordLR op pe pn kg ld la lb lc kd t z) [(0, 20), (24, 3)] i =
    if kd = 0 ∧ z = 0 then some i else none :=
  unused_eq i (by simp only [Clear, toNat_wordLR, field_zero, and_true]; omega)
@[simp] theorem unused_one : unused (wordLR op pe pn kg ld la lb lc kd t z) [(0, 39)] i =
    if lb = 0 ∧ lc = 0 ∧ kd = 0 ∧ t = 0 ∧ z = 0 then some i else none :=
  unused_eq i (by simp only [Clear, toNat_wordLR, field_zero, and_true]; omega)
@[simp] theorem unused_oneT : unused (wordLR op pe pn kg ld la lb lc kd t z) [(0, 20), (24, 15)] i =
    if lb = 0 ∧ lc = 0 ∧ kd = 0 ∧ z = 0 then some i else none :=
  unused_eq i (by simp only [Clear, toNat_wordLR, field_zero, and_true]; omega)
@[simp] theorem unused_compare : unused (wordLR op pe pn kg ld la lb lc kd t z) [(0, 20), (27, 6), (45, 6)] i =
    if lc = 0 ∧ ld = 0 ∧ z = 0 then some i else none :=
  unused_eq i (by simp only [Clear, toNat_wordLR, field_zero, and_true]; omega)
@[simp] theorem unused_sel : unused (wordLR op pe pn kg ld la lb lc kd t z) [(0, 24), (27, 6)] i =
    if lc = 0 ∧ t = 0 ∧ z = 0 then some i else none :=
  unused_eq i (by simp only [Clear, toNat_wordLR, field_zero, and_true]; omega)
@[simp] theorem unused_vote : unused (wordLR op pe pn kg ld la lb lc kd t z) [(0, 24), (27, 18)] i =
    if la = 0 ∧ lb = 0 ∧ lc = 0 ∧ t = 0 ∧ z = 0 then some i else none :=
  unused_eq i (by simp only [Clear, toNat_wordLR, field_zero, and_true]; omega)
@[simp] theorem unused_kop : unused (wordLR op pe pn kg ld la lb lc kd t z) [(0, 20), (27, 6), (36, 3), (42, 9)] i =
    if ld = 0 ∧ la.toNat < 8 ∧ lb.toNat < 8 ∧ lc = 0 ∧ z = 0 then some i else none :=
  unused_eq i (by simp only [Clear, toNat_wordLR, field_zero, and_true]; omega)
@[simp] theorem unused_nop : unused (wordLR op pe pn kg ld la lb lc kd t z) [(0, 51)] i =
    if ld = 0 ∧ la = 0 ∧ lb = 0 ∧ lc = 0 ∧ kd = 0 ∧ t = 0 ∧ z = 0 then some i else none :=
  unused_eq i (by simp only [Clear, toNat_wordLR, field_zero, and_true]; omega)
@[simp] theorem unused_load : unused (wordLM op pe pn kg ld la ls sz spc r aop off) [(24, 5), (33, 6)] i =
    if ls = 0 ∧ r = 0 ∧ aop = 0 then some i else none :=
  unused_eq i (by simp only [Clear, toNat_wordLM, field_zero, and_true]; omega)
@[simp] theorem unused_store : unused (wordLM op pe pn kg ld la ls sz spc r aop off) [(24, 5), (45, 6)] i =
    if ld = 0 ∧ r = 0 ∧ aop = 0 then some i else none :=
  unused_eq i (by simp only [Clear, toNat_wordLM, field_zero, and_true]; omega)
@[simp] theorem unused_atom : unused (wordLM op pe pn kg ld la ls sz spc r aop off) [(28, 1), (31, 2)] i =
    if sz = 0 ∧ r = 0 then some i else none :=
  unused_eq i (by simp only [Clear, toNat_wordLM, field_zero, and_true]; omega)
@[simp] theorem unused_haddr : unused (wordLM op pe pn kg ld la ls sz spc r aop off) [(24, 15)] i =
    if ls = 0 ∧ sz = 0 ∧ spc = 0 ∧ r = 0 ∧ aop = 0 then some i else none :=
  unused_eq i (by simp only [Clear, toNat_wordLM, field_zero, and_true]; omega)
@[simp] theorem unused_lfence : unused (wordLM op pe pn kg ld la ls sz spc r aop off) [(0, 24), (28, 23)] i =
    if ld = 0 ∧ la = 0 ∧ ls = 0 ∧ sz = 0 ∧ spc = 0 ∧ r = 0 ∧ off = 0 then some i else none :=
  unused_eq i (by simp only [Clear, toNat_wordLM, field_zero, and_true]; omega)
@[simp] theorem unused_sval : unused (wordLV op pe pn kg ld z13 imm) [(32, 13)] i =
    if z13 = 0 then some i else none :=
  unused_eq i (by simp only [Clear, toNat_wordLV, field_zero, and_true]; omega)
@[simp] theorem unused_shuffle : unused (wordLX op pe pn kg ld la z7 imm) [(32, 7)] i =
    if z7 = 0 then some i else none :=
  unused_eq i (by simp only [Clear, toNat_wordLX, field_zero, and_true]; omega)
@[simp] theorem unused_whole : unused (wordLC op y kc cn imm) [(39, 17), (32, 3)] i =
    if y = 0 then some i else none :=
  unused_eq i (by simp only [Clear, toNat_wordLC, field_zero, and_true]; omega)
@[simp] theorem unused_noTarget : unused (wordLC op y kc cn imm) [(39, 17), (0, 35)] i =
    if y = 0 ∧ imm = 0 then some i else none :=
  unused_eq i (by simp only [Clear, toNat_wordLC, field_zero, and_true]; omega)
@[simp] theorem unused_bare : unused (wordLO op rest) [(0, 56)] i =
    if rest = 0 then some i else none :=
  unused_eq i (by simp only [Clear, toNat_wordLO, field_zero, and_true]; omega)
@[simp] theorem unused_noCond : unused (wordLC op y kc cn imm) [(39, 17), (32, 7)] i =
    if y = 0 ∧ kc = 0 ∧ cn = false then some i else none :=
  unused_eq i (by simp only [Clear, toNat_wordLC, field_zero, and_true]; cases cn <;> simp <;> omega)

end

/-! ### Words by their op -/

section
variable {op : BitVec 8} (g : Fin 16) (outside pe pn cn : Bool) (kg kd kc : BitVec 3) (ld la lb lc ls : BitVec 6) (t aop : BitVec 4) (z : BitVec 20)
  (z7 : BitVec 7) (z13 : BitVec 13) (sz spc : BitVec 2) (r : BitVec 1) (off : BitVec 24) (y : BitVec 17) (imm : BitVec 32) (rest : BitVec 56)

/-- The operands that every lane instruction but a control instruction names. -/
def hdOf : LaneHdr := { pe := pe, pn := pn, kg := kg.toFin, ld := ld.toFin }

theorem decodeLane_imm (hlo : 0x50 ≤ op.toNat) (hhi : op.toNat ≤ 0x6B) :
    decodeLane g outside (wordLI op pe pn kg ld la kd t imm) =
      some (.laneImmediateForm g (hdOf pe pn kg ld) op kd.toFin t.toFin la.toFin imm) := by
  simp only [decodeLane, op_wordLI, headOf_wordLI, la_wordLI, kd_wordLI, t_wordLI, imm_wordLI]
  rw [if_neg (by omega), if_neg (by omega), if_neg (by omega), if_neg (by omega), if_neg (by omega), if_pos hhi]
  rfl

/-- Table "Lane opcodes": the integer forms that use La and Lb. -/
def laneTable (hd : LaneHdr) (a b : Fin 64) : List (BitVec 8 × Instr) :=
  [(0x10, .laneIadd g hd a b), (0x11, .laneIsub g hd a b), (0x12, .laneImul g hd a b), (0x15, .laneAnd g hd a b), (0x16, .laneOr g hd a b),
    (0x17, .laneXor g hd a b), (0x18, .laneShl g hd a b), (0x19, .laneShr g hd a b), (0x1A, .laneSar g hd a b), (0x1B, .laneImin g hd a b),
    (0x1C, .laneImax g hd a b), (0x30, .laneShfl g hd a b), (0x31, .laneShflx g hd a b)]

theorem decodeLane_laneTable : ∀ x ∈ laneTable g (hdOf pe pn kg ld) la.toFin lb.toFin,
    decodeLane g outside (wordLR x.1 pe pn kg ld la lb lc kd t z) = if lc = 0 ∧ kd = 0 ∧ t = 0 ∧ z = 0 then some x.2 else none := by
  simp [laneTable, decodeLane, decodeLaneReg, hdOf]

/-- The same table: the floating-point forms, whose T names modifiers. -/
def laneFloatTable (hd : LaneHdr) (t : Fin 16) (a b : Fin 64) : List (BitVec 8 × Instr) :=
  [(0x20, .laneFadd g hd t a b), (0x21, .laneFsub g hd t a b), (0x22, .laneFmul g hd t a b), (0x24, .laneFmin g hd t a b), (0x25, .laneFmax g hd t a b)]

theorem decodeLane_floatTable : ∀ x ∈ laneFloatTable g (hdOf pe pn kg ld) t.toFin la.toFin lb.toFin,
    decodeLane g outside (wordLR x.1 pe pn kg ld la lb lc kd t z) = if lc = 0 ∧ kd = 0 ∧ z = 0 then some x.2 else none := by
  simp [laneFloatTable, decodeLane, decodeLaneReg, hdOf]

/-- The same table: the comparisons into a predicate. -/
def laneCompareTable (hd : LaneHdr) (kd : Fin 8) (t : Fin 16) (a b : Fin 64) : List (BitVec 8 × Instr) :=
  [(0x1D, .laneIcmp g hd kd t a b), (0x26, .laneFcmp g hd kd t a b)]

theorem decodeLane_compareTable : ∀ x ∈ laneCompareTable g (hdOf pe pn kg ld) kd.toFin t.toFin la.toFin lb.toFin,
    decodeLane g outside (wordLR x.1 pe pn kg ld la lb lc kd t z) = if lc = 0 ∧ ld = 0 ∧ z = 0 then some x.2 else none := by
  simp [laneCompareTable, decodeLane, decodeLaneReg, hdOf]

/-- The same table: the forms that use La alone. -/
def laneUnaryTable (hd : LaneHdr) (a : Fin 64) : List (BitVec 8 × Instr) :=
  [(0x1F, .lanePopc g hd a), (0x29, .laneFtoi g hd a), (0x2A, .laneItof g hd a), (0x2B, .laneMov g hd a)]

theorem decodeLane_unaryTable : ∀ x ∈ laneUnaryTable g (hdOf pe pn kg ld) la.toFin,
    decodeLane g outside (wordLR x.1 pe pn kg ld la lb lc kd t z) = if lb = 0 ∧ lc = 0 ∧ kd = 0 ∧ t = 0 ∧ z = 0 then some x.2 else none := by
  simp [laneUnaryTable, decodeLane, decodeLaneReg, hdOf]

/-- The same table: the approximations, whose T names modifiers. -/
def laneApproxTable (hd : LaneHdr) (t : Fin 16) (a : Fin 64) : List (BitVec 8 × Instr) := [(0x27, .laneFrcp g hd t a), (0x28, .laneFrsq g hd t a)]

theorem decodeLane_approxTable : ∀ x ∈ laneApproxTable g (hdOf pe pn kg ld) t.toFin la.toFin,
    decodeLane g outside (wordLR x.1 pe pn kg ld la lb lc kd t z) = if lb = 0 ∧ lc = 0 ∧ kd = 0 ∧ z = 0 then some x.2 else none := by
  simp [laneApproxTable, decodeLane, decodeLaneReg, hdOf]

theorem decodeLane_imulh : decodeLane g outside (wordLR 0x13#8 pe pn kg ld la lb lc kd t z) =
    if lc = 0 ∧ kd = 0 ∧ z = 0 then some (.laneImulh g (hdOf pe pn kg ld) t.toFin la.toFin lb.toFin) else none := by
  simp [decodeLane, decodeLaneReg, hdOf]

theorem decodeLane_imad : decodeLane g outside (wordLR 0x14#8 pe pn kg ld la lb lc kd t z) =
    if kd = 0 ∧ t = 0 ∧ z = 0 then some (.laneImad g (hdOf pe pn kg ld) la.toFin lb.toFin lc.toFin) else none := by
  simp [decodeLane, decodeLaneReg, hdOf]

theorem decodeLane_sel : decodeLane g outside (wordLR 0x1E#8 pe pn kg ld la lb lc kd t z) =
    if lc = 0 ∧ t = 0 ∧ z = 0 then some (.laneSel g (hdOf pe pn kg ld) kd.toFin la.toFin lb.toFin) else none := by
  simp [decodeLane, decodeLaneReg, hdOf]

theorem decodeLane_ffma : decodeLane g outside (wordLR 0x23#8 pe pn kg ld la lb lc kd t z) =
    if kd = 0 ∧ z = 0 then some (.laneFfma g (hdOf pe pn kg ld) t.toFin la.toFin lb.toFin lc.toFin) else none := by
  simp [decodeLane, decodeLaneReg, hdOf]

theorem decodeLane_vote : decodeLane g outside (wordLR 0x32#8 pe pn kg ld la lb lc kd t z) =
    if la = 0 ∧ lb = 0 ∧ lc = 0 ∧ t = 0 ∧ z = 0 then some (.laneVote g (hdOf pe pn kg ld) kd.toFin) else none := by
  simp [decodeLane, decodeLaneReg, hdOf]

theorem decodeLane_kop : decodeLane g outside (wordLR 0x35#8 pe pn kg ld la lb lc kd t z) =
    if ld = 0 ∧ la.toNat < 8 ∧ lb.toNat < 8 ∧ lc = 0 ∧ z = 0 then
      some (.laneKop g (hdOf pe pn kg ld) kd.toFin t.toFin (Fin.ofNat 8 la.toNat) (Fin.ofNat 8 lb.toNat)) else none := by
  simp [decodeLane, decodeLaneReg, hdOf]

theorem decodeLane_nop : decodeLane g outside (wordLR 0x00#8 pe pn kg ld la lb lc kd t z) =
    if ld = 0 ∧ la = 0 ∧ lb = 0 ∧ lc = 0 ∧ kd = 0 ∧ t = 0 ∧ z = 0 then some (.laneNop g (hdOf pe pn kg ld) false) else none := by
  simp [decodeLane, hdOf]

theorem decodeLane_sval : decodeLane g outside (wordLV 0x34#8 pe pn kg ld z13 imm) =
    if z13 = 0 then some (.laneSval g (hdOf pe pn kg ld) imm) else none := by
  simp [decodeLane, hdOf]

/-- The same table: the shuffles by an immediate. -/
def laneShuffleTable (hd : LaneHdr) (a : Fin 64) (imm : BitVec 32) : List (BitVec 8 × Instr) := [(0x70, .laneShfli g hd a imm), (0x71, .laneShflxi g hd a imm)]

theorem decodeLane_shuffleTable : ∀ x ∈ laneShuffleTable g (hdOf pe pn kg ld) la.toFin imm,
    decodeLane g outside (wordLX x.1 pe pn kg ld la z7 imm) = if z7 = 0 then some x.2 else none := by
  simp [laneShuffleTable, decodeLane, hdOf]

/-! ### Memory words -/

theorem decodeLane_load : decodeLane g outside (wordLM 0x38#8 pe pn kg ld la ls sz spc r aop off) =
    if ls = 0 ∧ r = 0 ∧ aop = 0 then some (.laneLd g (hdOf pe pn kg ld) sz.toFin spc.toFin la.toFin off .none) else none := by
  simp [decodeLane, decodeLaneMem, hdOf]

theorem decodeLane_store : decodeLane g outside (wordLM 0x39#8 pe pn kg ld la ls sz spc r aop off) =
    if ld = 0 ∧ r = 0 ∧ aop = 0 then some (.laneSt g (hdOf pe pn kg ld) sz.toFin spc.toFin la.toFin ls.toFin off) else none := by
  simp [decodeLane, decodeLaneMem, hdOf]

theorem decodeLane_atom : decodeLane g outside (wordLM 0x3A#8 pe pn kg ld la ls sz spc r aop off) =
    if sz = 0 ∧ r = 0 then some (.laneAtom g (hdOf pe pn kg ld) spc.toFin aop.toFin la.toFin ls.toFin off) else none := by
  simp [decodeLane, decodeLaneMem, hdOf]

theorem decodeLane_haddr : decodeLane g outside (wordLM 0x3B#8 pe pn kg ld la ls sz spc r aop off) =
    if ls = 0 ∧ sz = 0 ∧ spc = 0 ∧ r = 0 ∧ aop = 0 then some (.laneHaddr g (hdOf pe pn kg ld) la.toFin off) else none := by
  simp [decodeLane, decodeLaneMem, hdOf]

theorem decodeLane_lfence : decodeLane g outside (wordLM 0x3C#8 pe pn kg ld la ls sz spc r aop off) =
    if ld = 0 ∧ la = 0 ∧ ls = 0 ∧ sz = 0 ∧ spc = 0 ∧ r = 0 ∧ off = 0 then some (.laneLfence g (hdOf pe pn kg ld) aop.toFin) else none := by
  simp [decodeLane, decodeLaneMem, hdOf]

/-! ### Control words (R177, R185) -/

/-- Table "Lane opcodes": the control forms with a condition and a target. -/
def branchTable (k : LaneCtl) : List (BitVec 8 × Instr) :=
  [(0x0D, .laneBany g k outside), (0x0E, .laneBall g k outside), (0x0F, .laneBnone g k outside), (0x04, .laneIf g k)]

/-- The same table: the control forms with a condition and no target. -/
def leaveTable (k : LaneCtl) : List (BitVec 8 × Instr) := [(0x02, .laneExit g k), (0x09, .laneBrk g k), (0x0A, .laneCont g k)]

/-- The same table: the control forms without a condition. -/
def gotoTable (k : LaneCtl) : List (BitVec 8 × Instr) := [(0x0C, .laneJmp g k outside), (0x05, .laneElse g k), (0x08, .laneLoop g)]

/-- The same table: the control forms without operands. -/
def endTable : List (BitVec 8 × Instr) := [(0x01, .laneEnd g), (0x06, .laneEndif g), (0x0B, .laneEndl g)]

theorem decodeLane_branchTable : ∀ x ∈ branchTable g outside { kc := kc.toFin, cn := cn, off := imm },
    decodeLane g outside (wordLC x.1 0 kc cn imm) = some x.2 := by
  simp [branchTable, decodeLane, decodeLaneControl]

theorem decodeLane_leaveTable : ∀ x ∈ leaveTable g { kc := kc.toFin, cn := cn, off := 0 },
    decodeLane g outside (wordLC x.1 0 kc cn imm) = if imm = 0 then some x.2 else none := by
  by_cases h : imm = 0#32
  · subst h; simp [leaveTable, decodeLane, decodeLaneControl]
  · simp [leaveTable, decodeLane, decodeLaneControl, h]

theorem decodeLane_gotoTable : ∀ x ∈ gotoTable g outside { kc := 0, cn := false, off := imm },
    decodeLane g outside (wordLC x.1 0 kc cn imm) = if kc = 0 ∧ cn = false then some x.2 else none := by
  by_cases h : kc = 0#3 ∧ cn = false
  · obtain ⟨rfl, rfl⟩ := h; simp [gotoTable, decodeLane, decodeLaneControl]
  · simp [gotoTable, decodeLane, decodeLaneControl, h]

/-- A control word with a bit of its guard, Ld or La set is none. -/
theorem decodeLane_control_reserved (k l m : LaneCtl) : ∀ x ∈ branchTable g outside k ++ leaveTable g l ++ gotoTable g outside m, ∀ y, y ≠ 0 →
    decodeLane g outside (wordLC x.1 y kc cn imm) = none := by
  intro x hx y hy
  have hy' : y ≠ 0#17 := hy
  revert x
  simp [branchTable, leaveTable, gotoTable, decodeLane, decodeLaneControl, hy']

theorem decodeLane_endTable : ∀ x ∈ endTable g, decodeLane g outside (wordLO x.1 rest) = if rest = 0 then some x.2 else none := by
  simp [endTable, decodeLane, decodeLaneControl]

/-! ### Ops that the table reserves -/

theorem decodeLaneControl_reserved {w : BitVec 64} (h : (w.extractLsb' 56 8).toNat = 3 ∨ (w.extractLsb' 56 8).toNat = 7) :
    decodeLaneControl g outside w = none := by
  unfold decodeLaneControl
  rcases h with h | h <;> simp [h]

theorem decodeLaneReg_reserved {w : BitVec 64} (h : let k := (w.extractLsb' 56 8).toNat; (0x2C ≤ k ∧ k < 0x30) ∨ k = 0x33 ∨ 0x36 ≤ k) :
    decodeLaneReg g w = none := by
  unfold decodeLaneReg
  generalize (w.extractLsb' 56 8).toNat = k at h ⊢
  dsimp only at h ⊢
  split <;> simp at h ⊢

theorem decodeLaneMem_reserved {w : BitVec 64} (h : 0x3D ≤ (w.extractLsb' 56 8).toNat) : decodeLaneMem g w = none := by
  unfold decodeLaneMem
  generalize (w.extractLsb' 56 8).toNat = k at h ⊢
  dsimp only at h ⊢
  split <;> simp at h ⊢

theorem decodeLane_reserved (h : op = 3 ∨ op = 7 ∨ (0x2C ≤ op.toNat ∧ op.toNat < 0x30) ∨ op = 0x33 ∨ op = 0x36 ∨ op = 0x37 ∨
    (0x3D ≤ op.toNat ∧ op.toNat < 0x50) ∨ (0x6C ≤ op.toNat ∧ op.toNat < 0x70) ∨ 0x72 ≤ op.toNat) :
    decodeLane g outside (wordLO op rest) = none := by
  simp only [← BitVec.toNat_inj, BitVec.ofNat_eq_ofNat, BitVec.toNat_ofNat] at h
  simp only [decodeLane, op_wordLO]
  split_ifs
  · omega
  · exact decodeLaneControl_reserved g outside (by rw [op_wordLO]; omega)
  · omega
  · exact decodeLaneReg_reserved g (by rw [op_wordLO]; omega)
  · exact decodeLaneMem_reserved g (by rw [op_wordLO]; omega)
  · omega
  · omega
  · omega
  · rfl

end

end Sys2Proof

/-! Instructions that trap (R142, R158, R164, R166, R171, R173): each body stops with its exception, and the words of both instruction sets. -/

namespace Sys2Proof.Machine

/-! ### What the checks of R142 stop with -/

/-- An instruction whose body stops with an exception that no debugger catches takes it. -/
theorem becomes_of_exc {i : Instr} {s : State} {c : CoreId} {body : Hw → Hw × Done} {g : Hw} {e : Exc} (hr : s.hw.Ready c)
    (hi : exec i s = s.instr c body) (hb : body (s.hw.issued c false) = (g, .stop (.exc e))) (hu : g.Uncaught c)
    (hg : g.core c = (s.hw.issued c false).core c) : Becomes i s (g.takes c e.vec e.detail e.aux e.arg e.write e.addr) :=
  hi.trans (State.instr_takes hr hb hu (by rw [hg]) (by rw [hg]))

theorem Hw.coreViolation_core (h : Hw) (c d : CoreId) (a : Nat) (p : Perm) : (h.coreViolation c a p).core d = h.core d := by
  unfold Hw.coreViolation Hw.violation
  split
  · rfl
  · split
    · rfl
    · cases d <;> rfl

theorem Hw.coreLoad_misaligned (h : Hw) (c : CoreId) {a : Nat} (ha : a % 4 ≠ 0) :
    h.coreLoad c a 4 4 = (h, .error (.exc { vec := vMisaligned, addr := a })) := by
  simp [Hw.coreLoad, ha]

theorem Hw.coreLoad_refused {h : Hw} {c : CoreId} {a : Nat} (ha : a % 4 = 0) (hm : h.coreMpu c .r a 4 = false) :
    h.coreLoad c a 4 4 = (h.coreViolation c a .r, .error (.exc { vec := vMpuData, addr := a })) := by
  simp [Hw.coreLoad, ha, hm]

theorem Hw.coreStore_misaligned (h : Hw) (c : CoreId) {a : Nat} {bs : List Byte} (hn : bs.length = 4) (ha : a % 4 ≠ 0) :
    h.coreStore c a bs 4 = (h, some (.exc { vec := vMisaligned, addr := a, write := true })) := by
  simp [Hw.coreStore, Hw.misaligned, hn, ha]

theorem Hw.coreStore_refused {h : Hw} {c : CoreId} {a : Nat} {bs : List Byte} (hn : bs.length = 4) (ha : a % 4 = 0)
    (hm : h.coreMpu c .w a 4 = false) :
    h.coreStore c a bs 4 = (h.coreViolation c a .w, some (.exc { vec := vMpuData, addr := a, write := true })) := by
  simp [Hw.coreStore, Hw.misaligned, hn, ha, hm]

theorem Hw.hubLoad_misaligned (h : Hw) (c : CoreId) {a : Nat} (write : Bool) (ha : a % 4 ≠ 0) :
    h.hubLoad c a write = (h, .error (.exc { vec := vMisaligned, addr := a, write := write })) := by
  simp [Hw.hubLoad, ha]

theorem Hw.fpu_off {h : Hw} {c : CoreId} (k : Hw × Done) (hf : (h.core c).fpe = false ∨ c = .pol) : h.fpu c k = (h, .stop (.exc { vec := vFpu })) := by
  rw [Hw.fpu, if_neg]
  rcases hf with hf | rfl
  · simp [hf]
  · simp

theorem longOk_eq (rd ra rb : Fin 32) : longOk rd ra rb = decide (rd ≠ ra ∧ rd ≠ rb ∧ ra ≠ rb ∧ rd ≠ 0 ∧ ra ≠ 0 ∧ rb ≠ 0) := by
  simp only [longOk, Bool.decide_and, Bool.and_assoc]

theorem Core.special_sstat (x : Core) (c : CoreId) : x.special c 0 = some x.sstat := by cases c <;> rfl

/-! ### The instructions that stop so -/

section
variable {s : State} {c : CoreId} {rd ra rb : Fin 32} {imm : BitVec 16} (hr : s.hw.Ready c)
include hr

theorem jumps_misaligned (hu : (s.hw.issued c false).Uncaught c) (hj : ((s.hw.issued c false).gr c ra).toNat % 4 ≠ 0) :
    let h := s.hw.issued c false
    ∀ i ∈ [Instr.jr c ra, .callr c ra], Becomes i s (h.takes c 10 0 0 0 false (h.gr c ra).toNat) := by
  intro h
  have traps : ∀ {i} (k : Hw → Hw), exec i s = s.instr c (fun h => jumpReg h (h.gr c ra) (k h)) →
      Becomes i s (h.takes c 10 0 0 0 false (h.gr c ra).toNat) := fun _ hi =>
    becomes_of_exc (e := { vec := vMisaligned, addr := (h.gr c ra).toNat }) hr hi (jumpReg_misaligned h _ hj) hu rfl
  simp only [List.forall_mem_cons]
  exact ⟨traps id rfl, traps (fun h => h.setGr c 1 ((h.core c).pc + 4)) rfl, List.forall_mem_nil _⟩

/-- A load of a word that stops before its access. -/
theorem becomes_of_lw_stop {g : Hw} {e : Exc} (hl : let h := s.hw.issued c false; h.coreLoad c (h.ea c ra imm) 4 4 = (g, .error (.exc e)))
    (hu : g.Uncaught c) (hg : g.core c = (s.hw.issued c false).core c) :
    Becomes (.lw c rd ra imm .none) s (g.takes c e.vec e.detail e.aux e.arg e.write e.addr) :=
  becomes_of_exc hr rfl (congrArg (afterLoad · _) hl) hu hg

/-- A store of a word that stops before its access. -/
theorem becomes_of_sw_stop {g : Hw} {e : Exc}
    (hl : let h := s.hw.issued c false; h.coreStore c (h.ea c ra imm) (leBytes 4 (h.gr c rd).toNat) 4 = (g, some (.exc e)))
    (hu : g.Uncaught c) (hg : g.core c = (s.hw.issued c false).core c) :
    Becomes (.sw c rd ra imm) s (g.takes c e.vec e.detail e.aux e.arg e.write e.addr) :=
  becomes_of_exc hr rfl (congrArg (afterStore · _) hl) hu hg

theorem lw_sw_misaligned (hu : (s.hw.issued c false).Uncaught c) (ha : (s.hw.issued c false).ea c ra imm % 4 ≠ 0) :
    let h := s.hw.issued c false
    Becomes (.lw c rd ra imm .none) s (h.takes c 10 0 0 0 false (h.ea c ra imm)) ∧ Becomes (.sw c rd ra imm) s (h.takes c 10 0 0 0 true (h.ea c ra imm)) := by
  intro h
  exact ⟨becomes_of_lw_stop (e := { vec := vMisaligned, addr := h.ea c ra imm }) hr (h.coreLoad_misaligned c ha) hu rfl,
    becomes_of_sw_stop (e := { vec := vMisaligned, addr := h.ea c ra imm, write := true }) hr (h.coreStore_misaligned c (length_leBytes 4 _) ha) hu rfl⟩

theorem lw_refused (ha : (s.hw.issued c false).ea c ra imm % 4 = 0)
    (hm : (s.hw.issued c false).coreMpu c .r ((s.hw.issued c false).ea c ra imm) 4 = false) :
    let h := s.hw.issued c false
    let v := h.coreViolation c (h.ea c ra imm) .r
    v.Uncaught c → Becomes (.lw c rd ra imm .none) s (v.takes c 6 0 0 0 false (h.ea c ra imm)) := by
  intro h v hv
  exact becomes_of_lw_stop (e := { vec := vMpuData, addr := h.ea c ra imm }) hr (Hw.coreLoad_refused ha hm) hv (h.coreViolation_core c c _ .r)

theorem sw_refused (ha : (s.hw.issued c false).ea c ra imm % 4 = 0)
    (hm : (s.hw.issued c false).coreMpu c .w ((s.hw.issued c false).ea c ra imm) 4 = false) :
    let h := s.hw.issued c false
    let v := h.coreViolation c (h.ea c ra imm) .w
    v.Uncaught c → Becomes (.sw c rd ra imm) s (v.takes c 6 0 0 0 true (h.ea c ra imm)) := by
  intro h v hv
  exact becomes_of_sw_stop (e := { vec := vMpuData, addr := h.ea c ra imm, write := true }) hr (Hw.coreStore_refused (length_leBytes 4 _) ha hm) hv
    (h.coreViolation_core c c _ .w)

theorem ll_misaligned (hu : (s.hw.issued c false).Uncaught c) (hj : ((s.hw.issued c false).gr c ra).toNat % 4 ≠ 0) :
    let h := s.hw.issued c false
    Becomes (.ll c rd ra) s (h.takes c 10 0 0 0 false (h.gr c ra).toNat) := by
  intro h
  exact becomes_of_exc (e := { vec := vMisaligned, addr := (h.gr c ra).toNat }) hr rfl (congrArg (afterLoad · _) (h.hubLoad_misaligned c false hj)) hu rfl

theorem sc_misaligned (hu : (s.hw.issued c false).Uncaught c) (hj : ((s.hw.issued c false).gr c ra).toNat % 4 ≠ 0) :
    let h := s.hw.issued c false
    Becomes (.sc c rd ra rb) s (h.takes c 10 0 0 0 true (h.gr c ra).toNat) := by
  intro h
  exact becomes_of_exc (e := { vec := vMisaligned, addr := (h.gr c ra).toNat, write := true }) hr rfl (if_pos (bne_iff_ne.2 hj)) hu rfl

/-- Supervisor instructions in user mode. -/
theorem privileged_user (hu : (s.hw.issued c false).Uncaught c) (hm : ((s.hw.issued c false).core c).mode = false) :
    ∀ i ∈ [Instr.mfs c rd 0, .wait c, .dcinv c ra], Becomes i s ((s.hw.issued c false).takes c 9 0 0 0 false 0) := by
  simp only [List.forall_mem_cons]
  refine ⟨becomes_of_exc (e := { vec := vPrivileged }) hr rfl ?_ hu rfl, State.instr_priv_user hr hm hu, State.instr_priv_user hr hm hu, List.forall_mem_nil _⟩
  rw [Core.special_sstat]
  exact Hw.priv_user _ hm

/-- FPU instructions where the FPU is not enabled, or is not there. -/
theorem fpu_disabled (p : Bool) (hu : (s.hw.issued c false).Uncaught c) (hf : ((s.hw.issued c false).core c).fpe = false ∨ c = .pol) :
    ∀ i ∈ [Instr.fadd c p rd ra rb, .fmov c p rd ra, .frfsr c rd, .fmadd c p rd ra rb rd, .flw c rd ra imm, .fsd c rd ra imm],
      Becomes i s ((s.hw.issued c false).takes c 11 0 0 0 false 0) := by
  have off : ∀ {i} (k : Hw → Hw × Done), exec i s = s.instr c (fun h => h.fpu c (k h)) →
      Becomes i s ((s.hw.issued c false).takes c 11 0 0 0 false 0) := fun _ hi =>
    becomes_of_exc (e := { vec := vFpu }) hr hi (Hw.fpu_off _ hf) hu rfl
  simp only [List.forall_mem_cons]
  exact ⟨off _ rfl, off _ rfl, off _ rfl, off _ rfl, off _ rfl, off _ rfl, List.forall_mem_nil _⟩

/-- Long instructions that name a register twice, or G0 (R171). -/
theorem long_illegal (hu : (s.hw.issued c false).Uncaught c) (hn : ¬ (rd ≠ ra ∧ rd ≠ rb ∧ ra ≠ rb ∧ rd ≠ 0 ∧ ra ≠ 0 ∧ rb ≠ 0)) :
    ∀ i ∈ [Instr.bmov c rd ra rb none, .bfil c rd ra rb none, .crcb c rd ra rb none], Becomes i s ((s.hw.issued c false).takes c 8 0 0 0 false 0) := by
  have hok : (!longOk rd ra rb) = true := by rw [longOk_eq, Bool.not_eq_true', decide_eq_false_iff_not]; exact hn
  have bad : ∀ {i} one, exec i s = s.long c rd ra rb none one → Becomes i s ((s.hw.issued c false).takes c 8 0 0 0 false 0) :=
    fun _ hi => becomes_of_exc (e := { vec := vIllegal }) hr hi (if_pos hok) hu rfl
  simp only [List.forall_mem_cons]
  exact ⟨bad _ rfl, bad _ rfl, bad _ rfl, List.forall_mem_nil _⟩

end

/-! ### The meaning of a word -/

theorem coreWord_none {c : CoreId} {w : Word} (s : State) (h : decodeCore c w = none) : coreWord c w s = exec (.illegal c) s := by
  rw [coreWord, h]
  rfl

theorem coreWord_some {c : CoreId} {w : Word} {i : Instr} (s : State) (h : decodeCore c w = some i) : coreWord c w s = exec i s := by
  rw [coreWord, h]

theorem laneWord_none {g : Fin 16} {outside : Bool} {w : DWord} (s : State) (h : decodeLane g outside w = none) :
    laneWord g outside w s = exec (.illegalOp g) s := by
  rw [laneWord, h]
  rfl

theorem laneWord_some {g : Fin 16} {outside : Bool} {w : DWord} {i : Instr} (s : State) (h : decodeLane g outside w = some i) :
    laneWord g outside w s = exec i s := by
  rw [laneWord, h]

/-- Settles O15: the traps by the check that each instruction stops at, and the words of both instruction sets by the tables of section 07. -/
theorem formsThatTrap : Obligations.FormsThatTrap := by
  unfold Obligations.FormsThatTrap
  refine ⟨?_, ?_, ?_⟩
  · intro c rd ra rb imm p s hr h a j hu
    exact ⟨jumps_misaligned hr hu, lw_sw_misaligned hr hu, fun hj => ⟨ll_misaligned hr hu hj, sc_misaligned hr hu hj⟩, lw_refused hr, sw_refused hr,
      privileged_user hr hu, fpu_disabled hr p hu, long_illegal hr hu⟩
  · intro c op rd ra rb f imm far n p z rc fn w s d a b alu bits imms listed
    have wordM : ∀ {op r}, decodeCore c (wordR op rd ra rb (funcM p z)) = r →
        decodeCore c (op ++ rd ++ ra ++ rb ++ BitVec.ofBool p ++ z) = r := fun h => (congrArg (decodeCore c) (wordR_funcM ..)).trans h
    have wordF : ∀ {op z q r}, decodeCore c (wordR op rd ra rb (funcF z p q)) = r →
        decodeCore c (op ++ rd ++ ra ++ rb ++ z ++ BitVec.ofBool p ++ q) = r := fun h => (congrArg (decodeCore c) (wordR_funcF ..)).trans h
    have wordS : ∀ {op q r}, decodeCore c (wordI op rd ra (immS n q)) = r →
        decodeCore c (op ++ rd ++ ra ++ n ++ q) = r := fun h => (congrArg (decodeCore c) (wordI_immS ..)).trans h
    exact ⟨decodeCore_aluTable c rd ra rb, decodeCore_bitTable c rd ra rb, decodeCore_alu_unlisted c rd ra rb f, decodeCore_immTable c rd ra imm,
      decodeCore_lui c rd ra imm, decodeCore_jmp c far, decodeCore_call c far, wordS (decodeCore_mfs c rd ra n), wordS (decodeCore_mts c rd ra n),
      decodeCore_pcaddh c rd ra imm, decodeCore_jumpReg c rd ra rb f,
      ⟨decodeCore_ll c rd ra rb, decodeCore_atomicTable c rd ra rb, decodeCore_lineTable c rd ra rb, decodeCore_orderTable c rd ra rb,
        decodeCore_mem_unlisted c rd ra rb f⟩,
      decodeCore_long c rd ra rb f, wordM (decodeCore_ldm c rd ra rb p z), wordM (decodeCore_stm c rd ra rb p z),
      ⟨fun x hx => wordF (decodeCore_fpuTable c rd ra rb p x hx), fun x hx => wordF (decodeCore_fpuUnaryTable c rd ra rb p x hx),
        wordF (decodeCore_frfsr c rd ra rb p), wordF (decodeCore_fwfsr c rd ra rb p), fun h => wordF (decodeCore_fop_reserved c rd ra rb p fn h),
        fun h13 h14 hf => wordF (decodeCore_fop_unlisted c rd ra rb p rc fn h13 h14 hf)⟩,
      ⟨fun x hx => wordF (decodeCore_fusedTable c rd ra rb p rc x hx), fun hf => wordF (decodeCore_fma_unlisted c rd ra rb p rc fn hf)⟩,
      ⟨fun x hx => wordS (decodeCore_trapTable c rd ra n x hx), fun x hx => wordS (decodeCore_bareTable c rd ra n x hx),
        fun q hq => wordS (decodeCore_sys_unlisted c rd ra n q hq)⟩,
      decodeCore_unlisted c op far, rfl, rfl, coreWord_none s, fun _ => coreWord_some s⟩
  · intro g outside pe pn op kg kd kc ld la lb lc t z imm rest sz spc r28 aop off z13 z7 w s hd a b head
    exact ⟨decodeLane_laneTable g outside pe pn kg kd ld la lb lc t z, decodeLane_floatTable g outside pe pn kg kd ld la lb lc t z,
      decodeLane_compareTable g outside pe pn kg kd ld la lb lc t z, decodeLane_imm g outside pe pn kg kd ld la t imm,
      ⟨decodeLane_branchTable g outside pn kc imm, decodeLane_leaveTable g outside pn kc imm, decodeLane_gotoTable g outside pn kc imm,
        decodeLane_control_reserved g outside pn kc imm _ _ _⟩,
      decodeLane_endTable g outside rest,
      ⟨decodeLane_load g outside pe pn kg ld la lb aop sz spc r28 off, decodeLane_store g outside pe pn kg ld la lb aop sz spc r28 off,
        decodeLane_atom g outside pe pn kg ld la lb aop sz spc r28 off, decodeLane_haddr g outside pe pn kg ld la lb aop sz spc r28 off,
        decodeLane_lfence g outside pe pn kg ld la lb aop sz spc r28 off⟩,
      ⟨decodeLane_imulh g outside pe pn kg kd ld la lb lc t z, decodeLane_imad g outside pe pn kg kd ld la lb lc t z,
        decodeLane_sel g outside pe pn kg kd ld la lb lc t z, decodeLane_ffma g outside pe pn kg kd ld la lb lc t z,
        decodeLane_unaryTable g outside pe pn kg kd ld la lb lc t z, decodeLane_approxTable g outside pe pn kg kd ld la lb lc t z,
        decodeLane_vote g outside pe pn kg kd ld la lb lc t z, decodeLane_kop g outside pe pn kg kd ld la lb lc t z,
        decodeLane_nop g outside pe pn kg kd ld la lb lc t z⟩,
      decodeLane_sval g outside pe pn kg ld z13 imm, decodeLane_shuffleTable g outside pe pn kg ld la z7 imm, decodeLane_reserved g outside rest,
      laneWord_none s, fun _ => laneWord_some s⟩

end Sys2Proof.Machine

/-! Register writes: the word that a plain register takes (R12 to R17, R425), the bus it comes over (R24, R25, R30, R376, R442), and the record of a
failed buffered store (R33). -/

namespace Sys2Proof.Machine

/-! ### The word that a write leaves (R12 to R15) -/

/-- A word whose fields all have listed encodings is written as it stands (R15). -/
theorem legalWord_of_encOk {a : Nat} {v : BitVec 32} (w : BitVec 32) (hok : encOk a v = true) : legalWord a w v = v := by
  refine List.foldlRecOn (motive := fun x => x = v) encRules _ rfl ?_
  rintro x rfl e he
  have hrule := List.all_eq_true.1 hok e he
  refine if_neg fun hbad => ?_
  simp only [Bool.and_eq_true, Bool.not_eq_true'] at hbad
  simp [hbad] at hrule

/-- Where no field has reserved encodings, every word is written as it stands. -/
theorem encOk_of_unruled {a : Nat} (v : BitVec 32) (hfree : ∀ e ∈ encRules, e.hits a = false) : encOk a v = true :=
  List.all_eq_true.2 fun e he => by rw [hfree e he]; rfl

/-- Of a written bit `x` over `y`: in a W1S column (`s`), else in a W1C column (`c`), else in a column that takes the bit (`m`). -/
theorem columns_write (s c m x y : Bool) : ((y && !m || x && m) && !(x && c) || x && s) =
    if s && x then true else if c && x then false else if m then x else y := by
  cases s <;> cases c <;> cases m <;> cases x <;> cases y <;> rfl

/-- The bits of the written word, by the columns of the register's row. -/
theorem RegRow.getLsbD_written (r : RegRow) (launched : Bool) (w v : BitVec 32) {i : Nat} (hi : i < 32) :
    (r.written launched w v).getLsbD i = if bitOf r.w1s i && v.getLsbD i then true else if bitOf r.w1c i && v.getLsbD i then false
      else if bitOf r.rw i || bitOf r.sh i || (bitOf r.lk i && !launched) then v.getLsbD i else w.getLsbD i := by
  have hlk : (if launched then 0 else r.lk).testBit i = (r.lk.testBit i && !launched) := by cases launched <;> simp
  simp only [RegRow.written, bitOf, BitVec.getLsbD_or, BitVec.getLsbD_and, BitVec.getLsbD_not, BitVec.getLsbD_ofNat, Nat.testBit_or, hlk, hi, decide_true,
    Bool.true_and]
  exact columns_write _ _ _ _ _

/-! ### A register with no behaviour of its own (R12 to R16, R425) -/

/-- The word that a write of `v` leaves at `a`, a register of row `r`. -/
def Hw.rowWord (h : Hw) (a : Nat) (r : RegRow) (v : BitVec 32) : BitVec 32 := r.written h.launched (h.rd a) (legalWord a (h.rd a) v)

/-- A register with no SH field takes the word, and nothing else changes. -/
theorem Hw.plainWrite_unstaged {a : Nat} {r : RegRow} (h : Hw) (v : BitVec 32) (hr : rowOf a = some (r, false)) (hs : r.sh = 0) :
    h.plainWrite a v = h.wr a (h.rowWord a r v) := by
  unfold Hw.plainWrite
  rw [hr]
  exact if_neg (by simp [hs])

/-- A register with SH fields takes the word, its domain is marked, and what a commit keeps of the write is noted. -/
theorem Hw.plainWrite_staged {a : Nat} {r : RegRow} (h : Hw) (v : BitVec 32) (hr : rowOf a = some (r, false)) (hs : r.sh ≠ 0) :
    h.plainWrite a v =
      ((h.wr a (h.rowWord a r v)).set CMT_STAGED.DOMAIN (setBit ((h.wr a (h.rowWord a r v)).get CMT_STAGED.DOMAIN) (r.dom - 1) true)).staged a r.dom := by
  unfold Hw.plainWrite
  rw [hr]
  exact if_pos (by simp [hs])

theorem Hw.plainWrite_unlisted {a : Nat} (h : Hw) (v : BitVec 32) (hr : rowOf a = none) : h.plainWrite a v = h := by
  unfold Hw.plainWrite
  rw [hr]

/-- What a commit keeps of a staged write stands beside the registers. -/
theorem Hw.staged_only (h : Hw) (a d : Nat) : h.staged a d = { h with cmt := (h.staged a d).cmt } := by
  unfold Hw.staged Hw.stagedDom
  split
  · split <;> rfl
  · rfl

theorem Hw.staged_regs (h : Hw) (a d : Nat) : (h.staged a d).regs = h.regs := (congrArg Hw.regs (h.staged_only a d)).trans rfl

/-- CMT_STAGED itself has no SH field. -/
theorem ne_staged_of_sh {a : Nat} {r : RegRow} (hr : rowOf a = some (r, false)) (hs : r.sh ≠ 0) : a ≠ CMT_STAGED := by
  rintro rfl
  have h0 : (rowOf CMT_STAGED).map (fun x => x.1.sh) = some 0 := by decide +kernel
  rw [hr] at h0
  exact hs (Option.some.inj h0)

/-- Every row with SH fields names one of the commit domains 1 to 7. -/
theorem dom_of_sh {a : Nat} {r : RegRow} {l : Bool} (hr : rowOf a = some (r, l)) (hs : r.sh ≠ 0) : r.dom ≤ 7 := by
  have hwin : ∀ x ∈ (blockOf a).2, x.sh ≠ 0 → x.dom ≤ 7 := by
    unfold blockOf
    split <;> decide +kernel
  exact hwin r (rowOf_hits hr).1 hs

theorem Hw.rd_plainWrite_self {a : Nat} {r : RegRow} (h : Hw) (v : BitVec 32) (hr : rowOf a = some (r, false)) :
    (h.plainWrite a v).rd a = h.rowWord a r v := by
  by_cases hs : r.sh = 0
  · rw [h.plainWrite_unstaged v hr hs, Hw.rd_wr_self]
  · rw [h.plainWrite_staged v hr hs, Hw.rd_of_regs (Hw.staged_regs ..), Hw.rd_set_other _ _ _ _ (ne_staged_of_sh hr hs), Hw.rd_wr_self]

theorem Hw.rd_plainWrite_other {a b : Nat} {r : RegRow} (h : Hw) (v : BitVec 32) (hr : rowOf a = some (r, false)) (hb : b ≠ a) (hc : b ≠ CMT_STAGED) :
    (h.plainWrite a v).rd b = h.rd b := by
  by_cases hs : r.sh = 0
  · rw [h.plainWrite_unstaged v hr hs, Hw.rd_wr_other h _ hb]
  · rw [h.plainWrite_staged v hr hs, Hw.rd_of_regs (Hw.staged_regs ..), Hw.rd_set_other _ _ _ _ hc, Hw.rd_wr_other h _ hb]

/-- A write of a register changes registers and what a commit keeps of it, and nothing else. -/
theorem Hw.plainWrite_only (h : Hw) (a : Nat) (v : BitVec 32) :
    h.plainWrite a v = { h with regs := (h.plainWrite a v).regs, cmt := (h.plainWrite a v).cmt } := by
  unfold Hw.plainWrite
  split
  · split
    · rw [Hw.staged_only]
      rfl
    · rfl
  · rfl

/-- A staged write marks its domain (R425). -/
theorem Hw.plainWrite_marks {a : Nat} {r : RegRow} (h : Hw) (v : BitVec 32) (hr : rowOf a = some (r, false)) (hs : r.sh ≠ 0) (hd : 1 ≤ r.dom) :
    bitOf ((h.plainWrite a v).get CMT_STAGED.DOMAIN) (r.dom - 1) = true := by
  have hlt : r.dom - 1 < 7 := by have := dom_of_sh hr hs; omega
  rw [h.plainWrite_staged v hr hs, Hw.get_of_regs (Hw.staged_regs ..), Hw.get_set_self _ _ _ (show 1 + 7 ≤ 32 by decide)]
  rw [bitOf, Nat.testBit_mod_two_pow, decide_eq_true (show r.dom - 1 < CMT_STAGED.DOMAIN.wid from hlt), setBit, if_pos rfl, Nat.testBit_or,
    Nat.testBit_two_pow_self, Bool.or_true, Bool.true_and]

/-! ### The register bus (R24, R25, R36, R442, R443) -/

/-- An access by TID 0 is made. -/
theorem Hw.guarded_t0 (h : Hw) {acc : Access} (tids : List Nat) (f : Hw → Hw) (ht : acc.tid = 0) : h.guarded acc tids f = (f h, .ok) := by
  simp [Hw.guarded, ht]

/-- Where no owner is listed, another TID's access is refused. -/
theorem Hw.guarded_refused (h : Hw) {acc : Access} (f : Hw → Hw) (ht : acc.tid ≠ 0) : h.guarded acc [] f = (h, .owner) := by
  have hno : ¬ (decide (acc.tid = 0) || ([] : List Nat).contains acc.tid.toNat) = true := by simpa using ht
  exact if_neg hno

/-- T0's gate mask lies in the TEN window. -/
theorem gateMask0_window {a : Nat} (hg : gateMask0 a = true) : (a - 0x20000000) / 0x10000 = 5 := by
  simp only [gateMask0, Bool.or_eq_true, Bool.and_eq_true, decide_eq_true_eq] at hg
  simp only [TEN_GATE_LIVE, TEN_GATE] at hg
  omega

/-- In the windows with no behaviour of their own, a write is a plain one, but for T0's gate mask, which no write changes. -/
theorem Hw.windowWrite_plain (h : Hw) (acc : Access) {n a : Nat} (v : Word) (hn : n ∈ [5, 6, 8, 0xA, 0x19])
    (hg : gateMask0 a = true → n = 5) : h.windowWrite acc n a v = h.guarded acc [] (fun h => if gateMask0 a then h else h.plainWrite a v) := by
  rcases List.mem_cons.1 hn with rfl | hn
  · rfl
  · have hno : gateMask0 a = false := Bool.eq_false_iff.2 fun h5 => by rw [hg h5] at hn; revert hn; decide
    simp only [hno, Bool.false_eq_true, if_false]
    simp only [List.mem_cons, List.not_mem_nil, or_false] at hn
    rcases hn with rfl | rfl | rfl | rfl <;> rfl

/-- A hole of a window takes no write. -/
theorem Hw.devWrite_hole (h : Hw) (acc : Access) {a : Nat} (v : Word) (hw : inWindows a = true) (hr : rowOf a = none) (ha : a % 4 = 0) :
    h.devWrite acc a v = (h, .ok) := by
  simp [Hw.devWrite, reservedOfs, ha, hw, hr]

/-- A hole of a window reads 0. -/
theorem Hw.devRead_hole (h : Hw) (acc : Access) {a : Nat} (hw : inWindows a = true) (hr : rowOf a = none) (ha : a % 4 = 0) :
    h.devRead acc a = (h, .word 0) := by
  simp [Hw.devRead, reservedOfs, ha, hw, hr]

/-- A write of a listed register goes to its window. -/
theorem Hw.devWrite_listed (h : Hw) (acc : Access) {a : Nat} (v : Word) (hw : inWindows a = true) (hr : rowOf a ≠ none) (ha : a % 4 = 0) :
    h.devWrite acc a v = h.windowWrite acc ((a - 0x20000000) / 0x10000) a v := by
  have hl : (rowOf a).isNone = false := Option.isNone_eq_false_iff.2 (Option.isSome_iff_ne_none.2 hr)
  simp [Hw.devWrite, reservedOfs, ha, hw, hl]

/-- A misaligned address, or one of no window, no pool and not of the island. -/
def offBus (a : Nat) : Prop :=
  a % 4 ≠ 0 ∨ a < 0x20000000 ∨ (0x201A0000 ≤ a ∧ a < 0x21000000) ∨ (0x21010000 ≤ a ∧ a < 0x30000000) ∨ 0x30010000 ≤ a

/-- Off the bus a write ends in a bus error. -/
theorem Hw.devWrite_off (h : Hw) (acc : Access) {a : Nat} (v : Word) (ho : offBus a) : h.devWrite acc a v = (h, .bus) := by
  unfold Hw.devWrite
  by_cases ha : a % 4 = 0
  · have hmap : inWindows a = false ∧ (decide (0x21000000 ≤ a) && decide (a < 0x21010000)) = false ∧ islandReg a = false := by
      simp only [offBus] at ho
      simp only [inWindows, islandReg, Bool.and_eq_false_iff, decide_eq_false_iff_not]
      omega
    obtain ⟨hwin, hpool, hisl⟩ := hmap
    simp [ha, reservedOfs, hwin, hisl, hpool]
  · exact if_pos (by simp [ha])

/-- No register of R448 lies off the bus: the debug port's record is BUS_ERR. -/
theorem busReason_off {a : Nat} (ho : offBus a) : busReason a = 2 := by
  refine if_neg ?_
  simp only [Bool.and_eq_true, decide_eq_true_eq]
  simp only [offBus] at ho
  simp only [DBG_STAT, DBG_PU_CTL]
  omega

/-! ### REGISTER_WRITE -/

/-- What is left of a refused write: a debug port's is recorded with its reason (R443). -/
def Hw.refusedBy (h : Hw) (acc : Access) (reason : Nat) : Hw := if acc.who = .debug then h.set DBG_STAT.FSD_FAULT reason else h

theorem Hw.portAnswer_ok (h : Hw) (acc : Access) (a : Nat) : Hw.portAnswer acc a (h, .ok) = h := by
  unfold Hw.portAnswer
  split <;> rfl

theorem Hw.portAnswer_owner (h : Hw) (acc : Access) (a : Nat) : Hw.portAnswer acc a (h, .owner) = h.refusedBy acc 1 := by
  simp [Hw.portAnswer, fromDebug, Hw.refusedBy]

theorem Hw.portAnswer_bus (h : Hw) (acc : Access) (a : Nat) : Hw.portAnswer acc a (h, .bus) = h.refusedBy acc (busReason a) := by
  simp [Hw.portAnswer, fromDebug, Hw.refusedBy]

section
variable {s : State} {acc : Access} {adr v : Word}

/-- A write that its initiator can make is done, and the port answered. -/
theorem registerWrite_reaching {r : Hw × AccRes} (hr : s.hw.reaches acc adr.toNat v = true) (hd : s.hw.devWrite acc adr.toNat v = r) :
    Becomes (.registerWrite acc adr v) s (Hw.portAnswer acc adr.toNat r) := by
  have hi : exec (.registerWrite acc adr v) s = execRegisterWrite acc adr v s := rfl
  rw [Becomes, hi, execRegisterWrite, State.run, if_pos hr, hd]

/-- A write that its initiator cannot make is turned away. -/
theorem registerWrite_shut (hr : s.hw.reaches acc adr.toNat v = false) : Becomes (.registerWrite acc adr v) s (s.hw.shutTo acc) := by
  have hi : exec (.registerWrite acc adr v) s = execRegisterWrite acc adr v s := rfl
  rw [Becomes, hi, execRegisterWrite, State.run, if_neg (by rw [hr]; decide)]

/-- In a window with no behaviour of its own: T0's write, and another TID's. -/
theorem registerWrite_window (hr : s.hw.reaches acc adr.toNat v = true) (ha : adr.toNat % 4 = 0) (hlo : 0x20000000 ≤ adr.toNat)
    (hwin : (adr.toNat - 0x20000000) / 0x10000 ∈ [5, 6, 8, 0xA, 0x19]) :
    (acc.tid = 0 → Becomes (.registerWrite acc adr v) s (if gateMask0 adr.toNat then s.hw else s.hw.plainWrite adr.toNat v)) ∧
    (acc.tid ≠ 0 → rowOf adr.toNat ≠ none → Becomes (.registerWrite acc adr v) s (s.hw.refusedBy acc 1)) := by
  have hin : inWindows adr.toNat = true := by
    simp only [List.mem_cons, List.not_mem_nil, or_false] at hwin
    simp only [inWindows, Bool.and_eq_true, decide_eq_true_eq]
    omega
  have hdev : rowOf adr.toNat ≠ none → s.hw.devWrite acc adr.toNat v = _ := fun hrow =>
    (s.hw.devWrite_listed acc v hin hrow ha).trans (s.hw.windowWrite_plain acc v hwin gateMask0_window)
  refine ⟨fun ht => ?_, fun ht hrow => ?_⟩
  · by_cases hrow : rowOf adr.toNat = none
    · have hgo := registerWrite_reaching hr (s.hw.devWrite_hole acc v hin hrow ha)
      rwa [s.hw.plainWrite_unlisted v hrow, ite_self, ← s.hw.portAnswer_ok acc adr.toNat]
    · rw [← Hw.portAnswer_ok (ite ..) acc adr.toNat]
      exact registerWrite_reaching hr ((hdev hrow).trans (s.hw.guarded_t0 _ _ ht))
  · rw [← Hw.portAnswer_owner s.hw acc adr.toNat]
    exact registerWrite_reaching hr ((hdev hrow).trans (s.hw.guarded_refused _ ht))

/-- In a hole of a window. -/
theorem registerWrite_hole (hr : s.hw.reaches acc adr.toNat v = true) (hw : inWindows adr.toNat = true) (hrow : rowOf adr.toNat = none)
    (ha : adr.toNat % 4 = 0) : Becomes (.registerWrite acc adr v) s s.hw := by
  have hgo := registerWrite_reaching hr (s.hw.devWrite_hole acc v hw hrow ha)
  rwa [Hw.portAnswer_ok] at hgo

/-- Off the bus. -/
theorem registerWrite_off (hr : s.hw.reaches acc adr.toNat v = true) (ho : offBus adr.toNat) :
    Becomes (.registerWrite acc adr v) s (s.hw.refusedBy acc 2) := by
  have hgo := registerWrite_reaching hr (s.hw.devWrite_off acc v ho)
  rwa [Hw.portAnswer_bus, busReason_off ho] at hgo

/-- While an earlier access of the initiator waits (R30). -/
theorem registerWrite_waits (hb : s.hw.busHeld acc.who = true) : Becomes (.registerWrite acc adr v) s s.hw := by
  have hgo : Becomes (.registerWrite acc adr v) s (s.hw.shutTo acc) := registerWrite_shut (by simp [Hw.reaches, hb])
  rwa [Hw.shutTo, if_pos hb] at hgo

/-- The Polder core's, off the island, while the main domain is down (R376). -/
theorem registerWrite_bridge (hw : acc.who = .polder) (hb : s.hw.busHeld .polder = false) (hp : s.hw.polRuns = true)
    (hi : islandReg adr.toNat = false) (hm : s.hw.get POL_STAT.MAIN_UP = 0) : Becomes (.registerWrite acc adr v) s (s.hw.set POL_STAT.BRIDGE_ERR 1) := by
  have hdown : s.hw.on POL_STAT.MAIN_UP = false := by simp [Hw.on, hm]
  have hgo : Becomes (.registerWrite acc adr v) s (s.hw.shutTo acc) := registerWrite_shut (by simp [Hw.reaches, fromPolder, hw, hi, hdown])
  rw [Hw.shutTo, if_neg (by simp [hw, hb]), if_pos (by simp [fromPolder, hw]), Hw.when, if_pos (by simp [hp, hdown])] at hgo
  exact hgo

/-- The debug port's without permission (R442). -/
theorem registerWrite_unpermitted (hw : acc.who = .debug) (hb : s.hw.busHeld .debug = false) (hc : s.hw.clocked = true)
    (hm : s.hw.dbgMay s.hw.dbg.jtag adr.toNat true v = false) : Becomes (.registerWrite acc adr v) s (s.hw.set DBG_STAT.FSD_FAULT 1) := by
  have hgo : Becomes (.registerWrite acc adr v) s (s.hw.shutTo acc) := registerWrite_shut (by simp [Hw.reaches, fromDebug, hw, hm])
  rw [Hw.shutTo, if_neg (by simp [hw, hb]), if_neg (by simp [fromPolder, hw]), Hw.when, if_pos (by simp [hc, fromDebug, hw])] at hgo
  exact hgo

end

/-! ### ASYNC_BUS_ERROR (R33) -/

/-- The oldest failed store is recorded while no record is held. -/
theorem asyncBusError_becomes {s : State} {n a t : Nat} {rest : List (Nat × Nat × Nat)} (hs : s.hw.stores = (n, a, t) :: rest) :
    Becomes .asyncBusError s (if s.hw.on SYS_BERR_INFO.VALID then { s.hw with stores := rest } else ({ s.hw with stores := rest } : Hw).sets
      [(SYS_BERR_ADDR.ADDR, a), (SYS_BERR_INFO.TID, t), (SYS_BERR_INFO.CORE, n), (SYS_BERR_INFO.VALID, 1)]) := by
  have hi : exec .asyncBusError s = execAsyncBusError s := rfl
  rw [Becomes, hi, execAsyncBusError, State.run, hs]
  rfl

/-! ### The statement -/

/-- Settles O37: a plain register's bits by its columns, REGISTER_WRITE by where it goes and who makes it, and the record of a failed
store. -/
theorem registersTakeTheirWritesAsTheirColumnsSay : Obligations.RegistersTakeTheirWritesAsTheirColumnsSay := by
  unfold Obligations.RegistersTakeTheirWritesAsTheirColumnsSay
  refine ⟨fun k a v r hr hfree => ?_, fun s acc adr v => ?_, fun s n a t rest hs => ?_⟩
  · have honly := k.plainWrite_only a v
    refine ⟨fun i hi => ?_, fun b hb hc => k.rd_plainWrite_other v hr hb hc, (congrArg Hw.mem honly).trans rfl, (congrArg Hw.pwr honly).trans rfl, (congrArg Hw.m0 honly).trans rfl,
      fun hs hd _ => k.plainWrite_marks v hr hs hd⟩
    rw [k.rd_plainWrite_self v hr, Hw.rowWord, legalWord_of_encOk _ (encOk_of_unruled v hfree), RegRow.getLsbD_written _ _ _ _ hi]
  · refine ⟨fun hr => ⟨fun ha hlo hwin => ?_, fun hw hrow ha => ⟨registerWrite_hole hr hw hrow ha, s.hw.devRead_hole acc hw hrow ha,
      s.hw.devWrite_hole acc v hw hrow ha⟩, registerWrite_off hr⟩, registerWrite_waits, registerWrite_bridge, registerWrite_unpermitted⟩
    obtain ⟨ht0, hother⟩ := registerWrite_window hr ha hlo hwin
    exact ⟨fun ht hg => by simpa [hg] using ht0 ht, fun ht hg => by simpa [hg] using ht0 ht, hother⟩
  · have hgo := asyncBusError_becomes hs
    exact ⟨fun hv => by rwa [if_pos ((Hw.on_iff _ rfl).2 hv)] at hgo, fun hv => by rwa [if_neg (by simp [Hw.on, hv])] at hgo⟩

end Sys2Proof.Machine

/-! Serial units (spec/14_serial.md): who reaches a unit, what its FIFOs, levels and flags become, and the events of the UARTs. -/

namespace Sys2Proof.Machine

/-! ### Commands and their outcomes -/

/-- Canonical form changes no byte of memory. -/
theorem Hw.byte_canon (h : Hw) (a : Nat) : h.canon.byte a = h.byte a := by
  have hregion : h.canon.region a = h.region a := by
    unfold Hw.region Hw.ddrTop
    rw [Hw.get_canon]
  have hback : h.canon.backing a = h.backing a := mget_mcanon _ _
  have hnvm : mget (fun _ => (0xFF : Byte)) h.canon.nvm (a - 0x40000000) = mget (fun _ => 0xFF) h.nvm (a - 0x40000000) := mget_mcanon _ _
  rw [Hw.byte_eq, Hw.byte_eq, hregion, hback, hnvm]
  rfl

theorem SameBytes.canon {h t : Hw} (hs : SameBytes h t) : SameMemory h t.canon := fun a => (t.byte_canon a).trans (hs.byte a)

/-- A command that leaves the part `k` completes with what holds of `k` in canonical form. -/
theorem Becomes.completes {i : Instr} {s : State} {k : Hw} {P : Hw → Prop} (hb : Becomes i s k) (hp : P k.canon) : Completes i s P := ⟨_, hb, hp⟩

/-- A command whose condition does not hold leaves everything as it is (log entry 2). -/
theorem becomes_of_when_not {i : Instr} {s : State} {b : Hw → Bool} {f : Hw → Hw} (hi : exec i s = s.run (fun k => k.when (b k) f))
    (hb : b s.hw = false) : Becomes i s s.hw := by
  rw [Becomes, hi, State.run, Hw.when, if_neg (by rw [hb]; decide)]

/-- An access that the bus lets through acts on the part. -/
theorem becomes_of_bus {i : Instr} {s : State} {acc : Access} {f : Hw → Hw} (hi : exec i s = s.onBusBy acc f) (ho : s.hw.opens acc = true) :
    Becomes i s (f s.hw) := by
  have ho' : s.hw.opensTo acc (s.hw.permits 0) = true := ho
  rw [Becomes, hi, State.onBusBy, State.onBusTo, State.run, if_pos ho']

/-- One that it does not let through is turned away. -/
theorem becomes_of_bus_shut {i : Instr} {s : State} {acc : Access} {f : Hw → Hw} (hi : exec i s = s.onBusBy acc f) (ho : ¬ s.hw.opens acc = true) :
    Becomes i s (s.hw.shutTo acc) := by
  have ho' : ¬ s.hw.opensTo acc (s.hw.permits 0) = true := ho
  rw [Becomes, hi, State.onBusBy, State.onBusTo, State.run, if_neg ho']

/-! ### Owners (R36, R37, R485) -/

/-- The access is T0's or the owner's. -/
def owns (acc : Access) (t : Nat) : Prop := acc.tid = 0 ∨ acc.tid.toNat = t

theorem owns_iff (acc : Access) (t : Nat) : (decide (acc.tid = 0) || [t].contains acc.tid.toNat) = true ↔ owns acc t := by
  simp [owns]

section
variable {acc : Access} {t : Nat} (h : Hw)

theorem Hw.guarded_owned (f : Hw → Hw) (hm : owns acc t) : h.guarded acc [t] f = (f h, .ok) := if_pos ((owns_iff acc t).2 hm)

theorem Hw.guarded_unowned (f : Hw → Hw) (hm : ¬ owns acc t) : h.guarded acc [t] f = (h, .owner) := if_neg (mt (owns_iff acc t).1 hm)

theorem Hw.guardedR_owned (f : Hw → Hw × Word) (hm : owns acc t) : h.guardedR acc [t] f = ((f h).1, .word (f h).2) := if_pos ((owns_iff acc t).2 hm)

theorem Hw.guardedR_unowned (f : Hw → Hw × Word) (hm : ¬ owns acc t) : h.guardedR acc [t] f = (h, .owner) := if_neg (mt (owns_iff acc t).1 hm)

end

/-! ### Fields -/

theorem Hw.upIf_get_self (h : Hw) (b : Bool) {f : Fld} (hlo : f.lo + f.wid ≤ 32) (hw : f.wid = 1) : (h.upIf b f).get f = if b then 1 else h.get f := by
  cases b
  · rfl
  · exact (h.get_set_self f 1 hlo).trans (by rw [hw]; rfl)

/-! ### The state of a UART, its levels and its idle flags (R339, R340) -/

@[simp] theorem Hw.uart_canon (h : Hw) (u : Nat) : h.canon.uart u = h.uart u := rfl
@[simp] theorem Hw.uart_up (h : Hw) (f : Fld) (u : Nat) : (h.up f).uart u = h.uart u := rfl
@[simp] theorem Hw.uart_upIf (h : Hw) (b : Bool) (f : Fld) (u : Nat) : (h.upIf b f).uart u = h.uart u := by cases b <;> rfl

theorem Hw.uart_plainWrite (h : Hw) (a : Nat) (v : Word) (u : Nat) : (h.plainWrite a v).uart u = h.uart u := by
  rw [Hw.plainWrite_only]
  rfl

/-- RTS of unit `u` with its state `x`: high from 28 characters on, until 24 or fewer are left (R340). -/
def Hw.uartRts (h : Hw) (u : Nat) (x : Uart) : Bool := h.on (uf UART_CFG.FLOW u) && (28 ≤ x.rx.length || (x.rts && 24 < x.rx.length))

/-- The fields of unit `u` that show its state, with what they take. -/
def uartShows (u : Nat) (x : Uart) : List (Fld × Nat) :=
  [(uf UART_FIFO.RXLVL u, x.rx.length), (uf UART_FIFO.TXLVL u, x.tx.length), (uf UART_STAT.TXIDLE u, b2n x.cur.isNone), (uf UART_STAT.RXIDLE u, b2n (!x.recv))]

/-- The part with the state of unit `u` replaced, its fields not yet. -/
def Hw.withUart (h : Hw) (u : Nat) (x : Uart) : Hw := { h with uarts := tput {} h.uarts u { x with rts := h.uartRts u x } }

theorem Hw.setUart_eq (h : Hw) (u : Nat) (x : Uart) : h.setUart u x = (h.withUart u x).sets (uartShows u x) := rfl

@[simp] theorem Hw.setUart_uart (h : Hw) (u : Nat) (x : Uart) : (h.setUart u x).uart u = { x with rts := h.uartRts u x } := by
  rw [Hw.setUart_eq, Hw.sets_only]
  exact tget_tput_self _ _ _ _

section
variable (h : Hw) (u : Fin 7) (x : Uart)

theorem Hw.setUart_rxlvl : (h.setUart u x).get (uf UART_FIFO.RXLVL u) = x.rx.length % 64 := by
  rw [Hw.setUart_eq, uartShows, Hw.sets_cons, Hw.get_sets_apart, Hw.get_set_self _ _ _ (show 0 + 6 ≤ 32 by decide)]
  · rfl
  · simp only [List.forall_mem_cons, List.not_mem_nil, false_implies, implies_true, and_true]
    revert u
    decide

theorem Hw.setUart_txlvl : (h.setUart u x).get (uf UART_FIFO.TXLVL u) = x.tx.length % 64 := by
  rw [Hw.setUart_eq, uartShows, Hw.sets_cons, Hw.sets_cons, Hw.get_sets_apart, Hw.get_set_self _ _ _ (show 8 + 6 ≤ 32 by decide)]
  · rfl
  · simp only [List.forall_mem_cons, List.not_mem_nil, false_implies, implies_true, and_true]
    revert u
    decide

theorem Hw.setUart_txidle : (h.setUart u x).get (uf UART_STAT.TXIDLE u) = b2n x.cur.isNone := by
  rw [Hw.setUart_eq, uartShows, Hw.sets_cons, Hw.sets_cons, Hw.sets_cons, Hw.get_sets_apart, Hw.get_set_self _ _ _ (show 0 + 1 ≤ 32 by decide)]
  · exact b2n_mod1 _
  · simp only [List.forall_mem_cons, List.not_mem_nil, false_implies, implies_true, and_true]
    revert u
    decide

theorem Hw.setUart_rxidle : (h.setUart u x).get (uf UART_STAT.RXIDLE u) = b2n (!x.recv) := by
  rw [Hw.setUart_eq, uartShows, Hw.sets_cons, Hw.sets_cons, Hw.sets_cons, Hw.sets_cons, Hw.sets_nil, Hw.get_set_self _ _ _ (show 1 + 1 ≤ 32 by decide)]
  exact b2n_mod1 _

/-- A field shows nothing of a unit's state. -/
abbrev Fld.besideUart (f : Fld) (u : Nat) : Prop :=
  ∀ g ∈ [uf UART_FIFO.RXLVL u, uf UART_FIFO.TXLVL u, uf UART_STAT.TXIDLE u, uf UART_STAT.RXIDLE u], g.apart f = true

theorem Hw.setUart_get {f : Fld} (hf : f.besideUart u) : (h.setUart u x).get f = h.get f := by
  rw [Hw.setUart_eq, Hw.get_sets_apart]
  · exact Hw.get_of_regs rfl f
  · simp only [Fld.besideUart, List.forall_mem_cons, List.not_mem_nil, false_implies, implies_true, and_true] at hf
    simpa only [uartShows, List.forall_mem_cons, List.not_mem_nil, false_implies, implies_true, and_true] using hf

/-- Registers other than FIFO and STAT read as before. -/
theorem Hw.setUart_rd {a : Nat} (hf : a ≠ ua UART_FIFO u) (hs : a ≠ ua UART_STAT u) : (h.setUart u x).rd a = h.rd a := by
  rw [Hw.setUart_eq, Hw.rd_sets_other]
  · exact Hw.rd_of_regs rfl a
  · simp only [uartShows, List.forall_mem_cons, List.not_mem_nil, false_implies, implies_true, and_true]
    exact ⟨hf.symm, hf.symm, hs.symm, hs.symm⟩

theorem Hw.setUart_same : SameBytes h (h.setUart u x) := by
  have hadr : (∀ g ∈ [uf UART_FIFO.RXLVL u, uf UART_FIFO.TXLVL u, uf UART_STAT.TXIDLE u, uf UART_STAT.RXIDLE u], g.adr ≠ DDR_TOP) := by
    revert u
    decide
  simp only [List.forall_mem_cons, List.not_mem_nil, false_implies, implies_true, and_true] at hadr
  obtain ⟨hrx, htx, hti, hri⟩ := hadr
  have hwith : SameBytes h (h.withUart u x) := ⟨rfl, rfl, rfl, fun _ => rfl⟩
  exact (((hwith.trans (Hw.set_same _ _ _ hrx)).trans (Hw.set_same _ _ _ htx)).trans (Hw.set_same _ _ _ hti)).trans (Hw.set_same _ _ _ hri)

end

end Sys2Proof.Machine

/-! UART accesses (R337, R339 to R341, R394): pushes, pops, flushes, breaks, and writes of CFG and BAUD. -/

namespace Sys2Proof.Machine

/-! ### Who reaches a unit (R376, R394) -/

/-- The access can be made: to PU by the Polder core locally, to every unit over the register bus otherwise. -/
def Hw.uartReach (h : Hw) (acc : Access) (u : Nat) : Prop :=
  if 6 ≤ u ∧ acc.who = .polder then h.polRuns = true ∧ h.busHeld acc.who = false else h.opens acc = true

section
variable {i : Instr} {s : State} {acc : Access} {u : Nat} {f : Hw → Hw}

theorem onUart_local (hl : 6 ≤ u ∧ acc.who = .polder) : s.onUart acc u f = s.run (fun h => h.when (h.polRuns && !h.busHeld acc.who) f) := by
  rw [State.onUart, if_neg (by omega), State.onIsland, if_pos (by simp [fromPolder, hl.2])]

theorem onUart_bus (hl : ¬ (6 ≤ u ∧ acc.who = .polder)) : s.onUart acc u f = s.onBusBy acc f := by
  unfold State.onUart
  by_cases hu : u < 6
  · exact if_pos hu
  · have hw : acc.who ≠ .polder := fun hp => hl ⟨Nat.le_of_not_lt hu, hp⟩
    rw [if_neg hu, State.onIsland, if_neg (by simp [fromPolder, hw])]

/-- An access that reaches the unit acts on it. -/
theorem becomes_of_uart {k : Hw} (hi : exec i s = s.onUart acc u f) (hr : s.hw.uartReach acc u) (hk : f s.hw = k) : Becomes i s k := by
  unfold Hw.uartReach at hr
  split at hr
  · next hl => exact becomes_of_when (hi.trans (onUart_local hl)) (by simp [hr.1, hr.2]) hk
  · next hl => exact hk ▸ becomes_of_bus (hi.trans (onUart_bus hl)) hr

/-- One that does not is turned away: the Polder core's own without a trace. -/
theorem becomes_of_uart_shut (hi : exec i s = s.onUart acc u f) (hr : ¬ s.hw.uartReach acc u) :
    (6 ≤ u ∧ acc.who = .polder → Becomes i s s.hw) ∧ (¬ (6 ≤ u ∧ acc.who = .polder) → Becomes i s (s.hw.shutTo acc)) := by
  refine ⟨fun hl => becomes_of_when_not (hi.trans (onUart_local hl)) ?_, fun hl => becomes_of_bus_shut (hi.trans (onUart_bus hl)) ?_⟩
  · rw [Hw.uartReach, if_pos hl] at hr
    simpa using hr
  · rwa [Hw.uartReach, if_neg hl] at hr

end

/-! ### What an access makes of a unit -/

section
variable (h : Hw) {acc : Access} {u : Nat} (v : Word)

/-- The owner in force of unit `u`. -/
abbrev Hw.uartOwner (h : Hw) (u : Nat) : Nat := h.get (uf UART_OWNER.TID_L u)

theorem Hw.uartPush_room (hm : owns acc (h.uartOwner u)) (hx : (h.uart u).tx.length < 32) :
    (h.uartPush acc u v).1 = h.setUart u { h.uart u with tx := (h.uart u).tx ++ [v &&& 0x1FF] } := by
  rw [Hw.uartPush, Hw.uartTids, Hw.guarded_owned _ _ hm]
  exact if_neg (by omega)

theorem Hw.uartPush_full (hm : owns acc (h.uartOwner u)) (hx : 32 ≤ (h.uart u).tx.length) : (h.uartPush acc u v).1 = h.up (uf UART_STAT.TXOVR u) := by
  rw [Hw.uartPush, Hw.uartTids, Hw.guarded_owned _ _ hm]
  exact if_pos hx

theorem Hw.uartPush_unowned (hm : ¬ owns acc (h.uartOwner u)) : (h.uartPush acc u v).1 = h := congrArg Prod.fst (h.guarded_unowned _ hm)

theorem Hw.uartPop_empty (hm : owns acc (h.uartOwner u)) (hx : (h.uart u).rx = []) : h.uartPop acc u = (h, .word 0x80000000) := by
  rw [Hw.uartPop, Hw.uartTids, Hw.guardedR_owned _ _ hm]
  simp only [hx]

theorem Hw.uartPop_next (hm : owns acc (h.uartOwner u)) {w : Word} {l : List Word} (hx : (h.uart u).rx = w :: l) :
    h.uartPop acc u = (h.setUart u { h.uart u with rx := l }, .word w) := by
  rw [Hw.uartPop, Hw.uartTids, Hw.guardedR_owned _ _ hm]
  simp only [hx]

theorem Hw.uartPop_unowned (hm : ¬ owns acc (h.uartOwner u)) : h.uartPop acc u = (h, .owner) := h.guardedR_unowned _ hm

/-- A unit that runs keeps its formats: CFG_REJ, and EN where the write clears it (R341). -/
theorem Hw.uartCfg_running (hm : owns acc (h.uartOwner u)) (hen : h.get (uf UART_CFG.EN u) = 1) (baud : Bool) :
    (h.uartCfg acc u baud v).1 = if baud || v.getLsbD 0 then h.up (uf UART_STAT.CFG_REJ u)
      else ((h.up (uf UART_STAT.CFG_REJ u)).clr (uf UART_CFG.EN u)).setUart u { h.uart u with recv := false } := by
  rw [Hw.uartCfg, Hw.uartTids, Hw.guarded_owned _ _ hm]
  exact if_pos ((h.on_iff rfl).2 hen)

/-- A unit at rest takes the write. -/
theorem Hw.uartCfg_resting (hm : owns acc (h.uartOwner u)) (hen : ¬ h.get (uf UART_CFG.EN u) = 1) (baud : Bool) :
    (h.uartCfg acc u baud v).1 = (h.plainWrite (ua (if baud then UART_BAUD else UART_CFG) u) v).setUart u (h.uart u) := by
  have hoff : ¬ h.on (uf UART_CFG.EN u) = true := mt (h.on_iff rfl).1 hen
  rw [Hw.uartCfg, Hw.uartTids, Hw.guarded_owned _ _ hm, ← h.uart_plainWrite (ua (if baud then UART_BAUD else UART_CFG) u) v u]
  exact if_neg hoff

theorem Hw.uartCfg_unowned (hm : ¬ owns acc (h.uartOwner u)) (baud : Bool) : (h.uartCfg acc u baud v).1 = h :=
  congrArg Prod.fst (h.guarded_unowned _ hm)

/-- A unit whose FIFOs CTL's flush bits empty (R339). -/
def Uart.flushed (x : Uart) (v : Word) : Uart := { x with rx := if v.getLsbD 1 then [] else x.rx, tx := if v.getLsbD 2 then [] else x.tx }

theorem Hw.uartCtl_owned (hm : owns acc (h.uartOwner u)) :
    (h.uartCtl acc u v).1 = (h.put (uf UART_CTL.BREAK u) (v.getLsbD 0)).setUart u ((h.uart u).flushed v) := by
  rw [Hw.uartCtl, Hw.uartTids, Hw.guarded_owned _ _ hm]
  show Hw.setUart _ u _ = _
  congr 1
  unfold Uart.flushed
  cases v.getLsbD 1 <;> cases v.getLsbD 2 <;> rfl

theorem Hw.uartCtl_unowned (hm : ¬ owns acc (h.uartOwner u)) : (h.uartCtl acc u v).1 = h := congrArg Prod.fst (h.guarded_unowned _ hm)

end

/-- BREAK as it is, with a flush bit: the bits of the word written. -/
theorem ctlWord_bits {b : Nat} (hb : b < 2) :
    (BitVec.ofNat 32 (2 + b)).getLsbD 1 = true ∧ (BitVec.ofNat 32 (2 + b)).getLsbD 2 = false ∧
    (BitVec.ofNat 32 (4 + b)).getLsbD 1 = false ∧ (BitVec.ofNat 32 (4 + b)).getLsbD 2 = true := by
  have hcases : b = 0 ∨ b = 1 := by omega
  rcases hcases with rfl | rfl <;> decide

theorem breakWord_bits (b : Bool) :
    (BitVec.ofNat 32 (b2n b)).getLsbD 0 = b ∧ (BitVec.ofNat 32 (b2n b)).getLsbD 1 = false ∧ (BitVec.ofNat 32 (b2n b)).getLsbD 2 = false := by
  cases b <;> decide

/-! ### The formats of CFG and BAUD (R15, R341) -/

/-- The bits of field `f` are plain RW bits of its register. -/
def RegRow.takes (r : RegRow) (f : Fld) : Bool :=
  (List.range f.wid).all fun i => bitOf r.rw (f.lo + i) && !bitOf r.w1s (f.lo + i) && !bitOf r.w1c (f.lo + i)

theorem RegRow.of_written {r : RegRow} {f : Fld} (hf : r.takes f = true) (hlo : f.lo + f.wid ≤ 32) (launched : Bool) (w v : BitVec 32) :
    f.of (r.written launched w v) = f.of v := by
  apply Nat.eq_of_testBit_eq
  intro i
  simp only [Fld.of, Nat.testBit_mod_two_pow, Nat.testBit_shiftRight, ← BitVec.getLsbD.eq_1]
  by_cases hi : i < f.wid
  · have hbits := List.all_eq_true.1 hf i (List.mem_range.2 hi)
    simp only [Bool.and_eq_true, Bool.not_eq_true'] at hbits
    obtain ⟨⟨hrw, hw1s⟩, hw1c⟩ := hbits
    rw [RegRow.getLsbD_written _ _ _ _ (by omega)]
    simp [hrw, hw1s, hw1c]
  · simp [hi]

/-- A field apart from every field with reserved encodings is written as it stands (R15). -/
theorem legalWord_apart {a : Nat} {f : Fld} (w v : BitVec 32) (ha : f.adr = a)
    (hf : ∀ e ∈ encRules, e.hits a = true → (⟨a, e.lo, e.wid⟩ : Fld).apart f = true) : f.of (legalWord a w v) = f.of v := by
  refine List.foldlRecOn (motive := fun x => f.of x = f.of v) encRules _ rfl ?_
  intro x hx e he
  dsimp only
  split
  · next hbad =>
    have hap := hf e he (Bool.and_eq_true_iff.1 hbad).1
    simp only [Fld.apart, ha, bne_self_eq_false, Bool.false_or, Bool.or_eq_true, decide_eq_true_eq] at hap
    rw [Fld.of_into_apart _ _ _ _ hap, hx]
  · exact hx

/-- A field of a unit that a plain write of its register reaches. -/
def Fld.plain (f : Fld) : Bool := (rowOf f.adr).any fun e => !e.2 && e.1.takes f

theorem Fld.plain_row {f : Fld} (hf : f.plain = true) : ∃ r, rowOf f.adr = some (r, false) ∧ r.takes f = true := by
  obtain ⟨⟨r, live⟩, hr, ht⟩ := (Option.any_eq_true _ _).1 hf
  cases live
  · exact ⟨r, hr, ht⟩
  · exact absurd ht (by simp)

theorem Hw.get_plainWrite {f : Fld} (hf : f.plain = true) (hlo : f.lo + f.wid ≤ 32) (h : Hw) (v : Word) :
    (h.plainWrite f.adr v).get f = f.of (legalWord f.adr (h.rd f.adr) v) := by
  obtain ⟨r, hr, ht⟩ := f.plain_row hf
  rw [Hw.get, h.rd_plainWrite_self v hr, Hw.rowWord, RegRow.of_written ht hlo]

theorem Hw.rd_plainWrite_beside {f : Fld} (hf : f.plain = true) {b : Nat} (hb : b ≠ f.adr) (hc : b ≠ CMT_STAGED) (h : Hw) (v : Word) :
    (h.plainWrite f.adr v).rd b = h.rd b := by
  obtain ⟨r, hr, -⟩ := f.plain_row hf
  exact h.rd_plainWrite_other v hr hb hc

/-- BAUD has one field with a reserved encoding: DIV is not 0. -/
theorem baud_rules (u : Fin 7) : ∃ r n s, encRules.filter (fun e => e.hits (ua UART_BAUD u)) = [⟨r, n, s, 0, 16, fun v => v != 0⟩] := by
  fin_cases u <;> exact ⟨_, _, _, rfl⟩

theorem encOk_baud (u : Fin 7) {v : Word} (hv : v.toNat % 65536 ≠ 0) : encOk (ua UART_BAUD u) v = true := by
  obtain ⟨r, n, s, hrules⟩ := baud_rules u
  have hdiv : (⟨ua UART_BAUD u, 0, 16⟩ : Fld).of v ≠ 0 := hv
  refine List.all_eq_true.2 fun e he => ?_
  by_cases hh : e.hits (ua UART_BAUD u) = true
  · have hmem : e ∈ encRules.filter (fun e => e.hits (ua UART_BAUD u)) := List.mem_filter.2 ⟨he, hh⟩
    rw [hrules, List.mem_singleton] at hmem
    subst hmem
    simp [hdiv]
  · simp [hh]

/-- EN of CFG has no reserved encoding, and shares no bit with a field that has one. -/
theorem cfg_rules : ∀ u : Fin 7, ∀ e ∈ encRules, e.hits (ua UART_CFG u) = true →
    (⟨ua UART_CFG u, e.lo, e.wid⟩ : Fld).apart (uf UART_CFG.EN u) = true := by decide +kernel

/-- Of a one-bit field at bit 0. -/
theorem Fld.into_bit0_clear {f : Fld} (hlo : f.lo = 0) (hw : f.wid = 1) (w : BitVec 32) : f.into w 0 = w &&& ~~~1 := by
  unfold Fld.into Fld.mask
  rw [hlo, hw]
  simp

theorem Fld.of_bit0 {f : Fld} (hlo : f.lo = 0) (hw : f.wid = 1) (w : BitVec 32) : f.of w = b2n (w.getLsbD 0) := by
  unfold Fld.of
  rw [hlo, hw]
  cases hb : w.getLsbD 0 <;> simp [BitVec.getLsbD, Nat.testBit_zero] at hb <;> simp [b2n, hb]

end Sys2Proof.Machine

/-! The commands on a UART by access, and its statement. -/

namespace Sys2Proof.Machine

/-- From `h` to `t` memory stands, and the levels of unit `u` are those of its FIFOs. -/
def Hw.uartLevels (h t : Hw) (u : Nat) : Prop :=
  t.get (uf UART_FIFO.RXLVL u) = (t.uart u).rx.length % 64 ∧ t.get (uf UART_FIFO.TXLVL u) = (t.uart u).tx.length % 64 ∧ SameMemory h t

theorem Hw.uartLevels_setUart {h k : Hw} (hs : SameBytes h k) (u : Fin 7) (x : Uart) : h.uartLevels (k.setUart u x).canon u := by
  refine ⟨?_, ?_, (hs.trans (k.setUart_same u x)).canon⟩
  · rw [Hw.get_canon, Hw.setUart_rxlvl, Hw.uart_canon, Hw.setUart_uart]
  · rw [Hw.get_canon, Hw.setUart_txlvl, Hw.uart_canon, Hw.setUart_uart]

/-! ### The answer of a read -/

section
variable (r : Hw × RdRes)

theorem Hw.answered_uart (u : Nat) : (Hw.answered r).uart u = r.1.uart u := rfl
theorem Hw.answered_get (f : Fld) : (Hw.answered r).get f = r.1.get f := Hw.get_of_regs rfl f
theorem Hw.answered_same : SameBytes r.1 (Hw.answered r) := ⟨rfl, rfl, rfl, fun _ => rfl⟩
theorem Hw.busData_canon (h : Hw) : h.canon.busData = h.busData := rfl

end

theorem Hw.answered_setUart (h : Hw) (u : Nat) (x : Uart) (r : RdRes) : (Hw.answered (h.setUart u x, r)).uart u = { x with rts := h.uartRts u x } :=
  (Hw.answered_uart _ u).trans (h.setUart_uart u x)

theorem Hw.uartLevels_answered (h : Hw) (u : Fin 7) (x : Uart) (r : RdRes) : h.uartLevels (Hw.answered (h.setUart u x, r)).canon u := by
  refine ⟨?_, ?_, ((h.setUart_same u x).trans (Hw.answered_same (h.setUart u x, r))).canon⟩
  · rw [Hw.get_canon, Hw.answered_get, Hw.setUart_rxlvl, Hw.uart_canon, Hw.answered_setUart]
  · rw [Hw.get_canon, Hw.answered_get, Hw.setUart_txlvl, Hw.uart_canon, Hw.answered_setUart]

/-! ### The registers of a unit -/

theorem uart_adrs_apart : ∀ u : Fin 7, (ua UART_CFG u ≠ ua UART_FIFO u ∧ ua UART_CFG u ≠ ua UART_STAT u ∧ ua UART_BAUD u ≠ ua UART_FIFO u ∧
    ua UART_BAUD u ≠ ua UART_STAT u) ∧ ua UART_BAUD u ≠ ua UART_CFG u ∧ ua UART_CFG u ≠ CMT_STAGED ∧ ua UART_BAUD u ≠ CMT_STAGED ∧
    ua UART_CTL u ≠ DDR_TOP := by decide

theorem uart_fields_beside : ∀ u : Fin 7, (uf UART_CTL.BREAK u).besideUart u ∧ (uf UART_CFG.EN u).besideUart u ∧ (uf UART_STAT.CFG_REJ u).besideUart u ∧
    (uf UART_BAUD.DIV u).besideUart u ∧ (uf UART_BAUD.FRAC u).besideUart u := by decide

theorem uart_fields_plain : ∀ u : Fin 7, (uf UART_CFG.EN u).plain = true ∧ (uf UART_BAUD.DIV u).plain = true ∧ (uf UART_BAUD.FRAC u).plain = true := by
  decide +kernel

section
variable {s : State} {acc : Access} {u : Fin 7} {v : Word} (hr : s.hw.uartReach acc u) (hm : owns acc (s.hw.uartOwner u))
include hr hm

/-! ### DATA (R339) -/

theorem uartTxPush_room (hx : (s.hw.uart u).tx.length < 32) : Completes (.uartTxPush acc u v) s (fun t =>
    (t.uart u).tx = (s.hw.uart u).tx ++ [v &&& 0x1FF] ∧ (t.uart u).rx = (s.hw.uart u).rx ∧ s.hw.uartLevels t u) := by
  have hgo : Becomes (.uartTxPush acc u v) s _ := becomes_of_uart rfl hr (s.hw.uartPush_room v hm hx)
  refine hgo.completes ⟨?_, ?_, Hw.uartLevels_setUart (.refl _) u _⟩ <;>
    rw [Hw.uart_canon, Hw.setUart_uart]

theorem uartRxPop_empty (hx : (s.hw.uart u).rx = []) : Completes (.uartRxPop acc u) s (fun t => t.busData = 0x80000000 ∧ t.uart u = s.hw.uart u) := by
  have hgo : Becomes (.uartRxPop acc u) s _ := becomes_of_uart rfl hr (congrArg Hw.answered (s.hw.uartPop_empty hm hx))
  exact hgo.completes ⟨rfl, rfl⟩

theorem uartRxPop_next {w : Word} {l : List Word} (hx : (s.hw.uart u).rx = w :: l) : Completes (.uartRxPop acc u) s (fun t =>
    t.busData = w ∧ (t.uart u).rx = l ∧ (t.uart u).tx = (s.hw.uart u).tx ∧ s.hw.uartLevels t u ∧
    (s.hw.get (uf UART_CFG.FLOW u) = 1 → l.length ≤ 24 → (t.uart u).rts = false)) := by
  have hgo : Becomes (.uartRxPop acc u) s _ := becomes_of_uart rfl hr (congrArg Hw.answered (s.hw.uartPop_next hm hx))
  refine hgo.completes ⟨?_, ?_, ?_, s.hw.uartLevels_answered u _ _, fun _ hlen => ?_⟩
  · rw [Hw.busData_canon]
    rfl
  · rw [Hw.uart_canon, Hw.answered_setUart]
  · rw [Hw.uart_canon, Hw.answered_setUart]
  · rw [Hw.uart_canon, Hw.answered_setUart]
    have hlow : ¬ 28 ≤ l.length ∧ ¬ 24 < l.length := by omega
    simp [Hw.uartRts, hlow]

/-! ### CTL (R339) -/

theorem rxflush_completes : Completes (.rxflush acc u) s (fun t => (t.uart u).rx = [] ∧ (t.uart u).tx = (s.hw.uart u).tx ∧ s.hw.uartLevels t u) := by
  obtain ⟨hrx, htx, -, -⟩ := ctlWord_bits (s.hw.get_lt (uf UART_CTL.BREAK u))
  have hgo : Becomes (.rxflush acc u) s _ := becomes_of_uart rfl hr (s.hw.uartCtl_owned _ hm)
  refine hgo.completes ⟨?_, ?_, Hw.uartLevels_setUart (Hw.set_same _ _ _ (uart_adrs_apart u).2.2.2.2) u _⟩ <;>
    rw [Hw.uart_canon, Hw.setUart_uart] <;> simp only [Uart.flushed, hrx, htx, if_true, Bool.false_eq_true, if_false]

theorem txflush_completes : Completes (.txflush acc u) s (fun t => (t.uart u).tx = [] ∧ (t.uart u).rx = (s.hw.uart u).rx ∧ s.hw.uartLevels t u) := by
  obtain ⟨-, -, hrx, htx⟩ := ctlWord_bits (s.hw.get_lt (uf UART_CTL.BREAK u))
  have hgo : Becomes (.txflush acc u) s _ := becomes_of_uart rfl hr (s.hw.uartCtl_owned _ hm)
  refine hgo.completes ⟨?_, ?_, Hw.uartLevels_setUart (Hw.set_same _ _ _ (uart_adrs_apart u).2.2.2.2) u _⟩ <;>
    rw [Hw.uart_canon, Hw.setUart_uart] <;> simp only [Uart.flushed, hrx, htx, if_true, Bool.false_eq_true, if_false]

theorem uartBreak_completes (on : Bool) : Completes (.uartBreak acc u on) s (fun t =>
    t.get (uf UART_CTL.BREAK u) = b2n on ∧ (t.uart u).tx = (s.hw.uart u).tx ∧ (t.uart u).rx = (s.hw.uart u).rx) := by
  obtain ⟨hbreak, hrx, htx⟩ := breakWord_bits on
  have hgo : Becomes (.uartBreak acc u on) s _ := becomes_of_uart rfl hr (s.hw.uartCtl_owned _ hm)
  refine hgo.completes ⟨?_, ?_, ?_⟩
  · rw [Hw.get_canon, Hw.setUart_get _ _ _ (uart_fields_beside u).1, hbreak]
    exact (Hw.get_set_self _ _ _ (show 0 + 1 ≤ 32 by decide)).trans (b2n_mod1 on)
  · rw [Hw.uart_canon, Hw.setUart_uart]
    simp only [Uart.flushed, htx, Bool.false_eq_true, if_false]
  · rw [Hw.uart_canon, Hw.setUart_uart]
    simp only [Uart.flushed, hrx, Bool.false_eq_true, if_false]

/-! ### CFG and BAUD (R341) -/

theorem uartCfgWrite_running (hen : s.hw.get (uf UART_CFG.EN u) = 1) (baud : Bool) : Completes (.uartCfgWrite acc u baud v) s (fun t =>
    t.get (uf UART_STAT.CFG_REJ u) = 1 ∧ t.rd (ua UART_BAUD u) = s.hw.rd (ua UART_BAUD u) ∧
    t.rd (ua UART_CFG u) = (if baud = true ∨ v.getLsbD 0 = true then s.hw.rd (ua UART_CFG u) else s.hw.rd (ua UART_CFG u) &&& ~~~1) ∧
    (t.uart u).tx = (s.hw.uart u).tx ∧ (t.uart u).rx = (s.hw.uart u).rx ∧ (t.uart u).cur = (s.hw.uart u).cur ∧
    (baud = false → v.getLsbD 0 = false → (t.uart u).recv = false)) := by
  obtain ⟨⟨hcf, hcs, hbf, hbs⟩, hbc, -⟩ := uart_adrs_apart u
  obtain ⟨-, -, hbeside, -⟩ := uart_fields_beside u
  have hrej : (s.hw.up (uf UART_STAT.CFG_REJ u)).get (uf UART_STAT.CFG_REJ u) = 1 := Hw.get_set_self _ _ _ (show 9 + 1 ≤ 32 by decide)
  have hrd : ∀ a, a ≠ ua UART_STAT u → (s.hw.up (uf UART_STAT.CFG_REJ u)).rd a = s.hw.rd a := fun a ha => Hw.rd_set_other _ _ _ _ ha
  have hgo : Becomes (.uartCfgWrite acc u baud v) s _ := becomes_of_uart rfl hr (s.hw.uartCfg_running v hm hen baud)
  by_cases hkeep : (baud || v.getLsbD 0) = true
  · rw [if_pos hkeep] at hgo
    rw [Bool.or_eq_true] at hkeep
    refine hgo.completes ⟨hrej ▸ Hw.get_canon _ _, (Hw.rd_canon _ _).trans (hrd _ hbs), ?_, rfl, rfl, rfl, fun hb h0 => ?_⟩
    · rw [Hw.rd_canon, hrd _ hcs, if_pos hkeep]
    · rw [hb, h0] at hkeep
      exact absurd hkeep (by decide)
  · rw [if_neg hkeep] at hgo
    rw [Bool.or_eq_true] at hkeep
    refine hgo.completes ⟨?_, ?_, ?_, ?_, ?_, ?_, fun _ _ => ?_⟩
    · rw [Hw.get_canon, Hw.setUart_get _ _ _ hbeside, Hw.clr, Hw.get_set_apart _ _ _ _ (.inl hcs), hrej]
    · rw [Hw.rd_canon, Hw.setUart_rd _ _ _ hbf hbs, Hw.clr, Hw.rd_set_other _ _ _ _ hbc, hrd _ hbs]
    · rw [Hw.rd_canon, Hw.setUart_rd _ _ _ hcf hcs, if_neg hkeep, ← hrd _ hcs]
      exact (Hw.rd_wr_self _ _ _).trans (Fld.into_bit0_clear rfl rfl _)
    all_goals rw [Hw.uart_canon, Hw.setUart_uart]

theorem uartCfgWrite_baud (hen : ¬ s.hw.get (uf UART_CFG.EN u) = 1) (hv : v.toNat % 65536 ≠ 0) : Completes (.uartCfgWrite acc u true v) s (fun t =>
    t.get (uf UART_BAUD.DIV u) = v.toNat % 65536 ∧ t.get (uf UART_BAUD.FRAC u) = v.toNat / 65536 % 64 ∧ t.rd (ua UART_CFG u) = s.hw.rd (ua UART_CFG u)) := by
  obtain ⟨⟨hcf, hcs, -, -⟩, hbc, hc, -⟩ := uart_adrs_apart u
  obtain ⟨-, -, -, hdiv, hfrac⟩ := uart_fields_beside u
  obtain ⟨-, hpdiv, hpfrac⟩ := uart_fields_plain u
  have hlegal : ∀ w, legalWord (ua UART_BAUD u) w v = v := fun w => legalWord_of_encOk w (encOk_baud u hv)
  have hgo : Becomes (.uartCfgWrite acc u true v) s _ := becomes_of_uart rfl hr (s.hw.uartCfg_resting v hm hen true)
  refine hgo.completes ⟨?_, ?_, ?_⟩
  · rw [Hw.get_canon, Hw.setUart_get _ _ _ hdiv]
    exact (Hw.get_plainWrite hpdiv (show 0 + 16 ≤ 32 by decide) s.hw v).trans (congrArg (uf UART_BAUD.DIV u).of (hlegal _))
  · rw [Hw.get_canon, Hw.setUart_get _ _ _ hfrac, ← show v.toNat >>> 16 = v.toNat / 65536 from Nat.shiftRight_eq_div_pow _ 16]
    exact (Hw.get_plainWrite hpfrac (show 16 + 6 ≤ 32 by decide) s.hw v).trans (congrArg (uf UART_BAUD.FRAC u).of (hlegal _))
  · rw [Hw.rd_canon, Hw.setUart_rd _ _ _ hcf hcs]
    exact Hw.rd_plainWrite_beside hpdiv hbc.symm hc s.hw v

theorem uartCfgWrite_cfg (hen : ¬ s.hw.get (uf UART_CFG.EN u) = 1) : Completes (.uartCfgWrite acc u false v) s (fun t =>
    t.get (uf UART_CFG.EN u) = b2n (v.getLsbD 0) ∧ t.rd (ua UART_BAUD u) = s.hw.rd (ua UART_BAUD u) ∧
    (t.uart u).tx = (s.hw.uart u).tx ∧ (t.uart u).rx = (s.hw.uart u).rx) := by
  obtain ⟨⟨-, -, hbf, hbs⟩, hbc, -, hc, -⟩ := uart_adrs_apart u
  obtain ⟨-, hen', -⟩ := uart_fields_beside u
  obtain ⟨hplain, -⟩ := uart_fields_plain u
  have hgo : Becomes (.uartCfgWrite acc u false v) s _ := becomes_of_uart rfl hr (s.hw.uartCfg_resting v hm hen false)
  refine hgo.completes ⟨?_, ?_, ?_, ?_⟩
  · rw [Hw.get_canon, Hw.setUart_get _ _ _ hen', ← Fld.of_bit0 (f := uf UART_CFG.EN u) rfl rfl v]
    exact (Hw.get_plainWrite hplain (show 0 + 1 ≤ 32 by decide) s.hw v).trans (legalWord_apart _ _ rfl (cfg_rules u))
  · rw [Hw.rd_canon, Hw.setUart_rd _ _ _ hbf hbs]
    exact Hw.rd_plainWrite_beside hplain hbc hc s.hw v
  all_goals rw [Hw.uart_canon, Hw.setUart_uart]

end

end Sys2Proof.Machine

/-! The events of a UART (R333, R336, R337, R339, R340, R394): characters sent, frames received, the receive time-out. -/

namespace Sys2Proof.Machine

/-! ### Clock, balls and parity -/

/-- Unit `u` has its clock. -/
def Hw.uartClocked (h : Hw) (u : Nat) : Prop := if u < 6 then h.blockOn 0xE = true else h.pwr.polderLow = false

/-- Unit `u` runs: clocked and enabled. -/
def Hw.uartRuns (h : Hw) (u : Nat) : Prop := h.uartClocked u ∧ h.get (uf UART_CFG.EN u) = 1

/-- A ball carries RX of unit `u` (R467, R468). -/
def Hw.uartWired (h : Hw) (u : Nat) : Bool := decide (u = 6 ∨ h.get (GPIO_MUX.FN (4 * u + 1)) = 1)

/-- The parity bit of the `n` low bits of `c` (R333): odd, even, mark or space. -/
def parityBit (k c n : Nat) : Bool :=
  let ones := ((List.range n).filter (fun i => bitOf c i)).length % 2
  if k = 1 then decide (ones = 1) else if k = 2 then decide (ones = 0) else decide (k = 3)

/-- The frame that sends `c` (R333). -/
def Hw.uartFrameBits (h : Hw) (u c : Nat) : List Bool :=
  let n := h.get (uf UART_CFG.DATA u)
  let k := h.get (uf UART_CFG.PARITY u)
  [false] ++ (List.range n).map (bitOf c) ++ (if k = 0 then [] else [parityBit k c n]) ++ List.replicate (h.get (uf UART_CFG.STOP2 u) + 1) true

/-- The condition for a character to start (R340, R468). -/
def Hw.uartStarts (h : Hw) (u : Nat) (cts : Bool) : Prop :=
  h.uartRuns u ∧ (h.uart u).cur = none ∧ ((cts = true ∧ u < 6 ∧ h.get (GPIO_MUX.FN (4 * u + 3)) = 1) ∨ h.get (uf UART_CFG.FLOW u) = 0)

section
variable (h : Hw) (u : Nat)

theorem Hw.uartClock_iff : (if u < 6 then h.blockOn 0xE else h.islandUp) = true ↔ h.uartClocked u := by
  unfold Hw.uartClocked Hw.islandUp
  split <;> simp

theorem Hw.uartOn_iff : h.uartOn u = true ↔ h.uartRuns u := by
  rw [Hw.uartOn, Bool.and_eq_true, h.uartClock_iff, h.on_iff rfl, Hw.uartRuns]

theorem Hw.uartRxBall_eq : h.uartRxBall u = h.uartWired u := (Bool.decide_or _ _).symm

theorem Hw.uartStarts_iff (cts : Bool) :
    (h.uartOn u && (h.uart u).cur.isNone && ((cts && h.uartCtsBall u) || !h.on (uf UART_CFG.FLOW u))) = true ↔ h.uartStarts u cts := by
  simp only [Bool.and_eq_true, Bool.or_eq_true, h.uartOn_iff, Option.isNone_iff_eq_none, Hw.uartStarts, Hw.uartCtsBall, Hw.ballFn, Hw.on,
    decide_eq_true_eq, Bool.not_eq_true', bne_eq_false_iff_eq, and_assoc]

end

theorem parityOf_eq (k c n : Nat) : parityOf k c n = parityBit k c n := by
  have hodd : ∀ m : Nat, (!decide (m % 2 = 1)) = decide (m % 2 = 0) := fun m => by
    rcases Nat.mod_two_eq_zero_or_one m with hm | hm <;> simp [hm]
  match k with
  | 0 | 1 | 3 => rfl
  | 2 => exact hodd _
  | k + 4 => simp [parityOf, parityBit]

theorem Hw.uartBits_eq (h : Hw) (u d : Nat) :
    h.uartBits u (d % 2 ^ h.get (uf UART_CFG.DATA u)) = h.uartFrameBits u (d % 2 ^ h.get (uf UART_CFG.DATA u)) := by
  rw [Hw.uartBits, Nat.mod_mod, parityOf_eq]
  rfl

/-! ### Flags that a frame leaves (R337) -/

/-- The flags of a frame: each that holds is set. -/
def Hw.uartMarked (h : Hw) (u : Nat) (pe fe brk : Bool) : Hw :=
  ((h.upIf pe (uf UART_STAT.PE_SEEN u)).upIf fe (uf UART_STAT.FE_SEEN u)).upIf brk (uf UART_STAT.BRK_SEEN u)

theorem uart_flags_beside : ∀ u : Fin 7, (uf UART_STAT.PE_SEEN u).besideUart u ∧ (uf UART_STAT.FE_SEEN u).besideUart u ∧
    (uf UART_STAT.BRK_SEEN u).besideUart u ∧ (uf UART_STAT.OVR u).besideUart u := by decide

theorem uart_flags_apart : ∀ u : Fin 7,
    ((uf UART_STAT.PE_SEEN u).apart (uf UART_STAT.FE_SEEN u) = true ∧ (uf UART_STAT.PE_SEEN u).apart (uf UART_STAT.BRK_SEEN u) = true ∧
      (uf UART_STAT.FE_SEEN u).apart (uf UART_STAT.BRK_SEEN u) = true) ∧
    ((uf UART_STAT.FE_SEEN u).apart (uf UART_STAT.PE_SEEN u) = true ∧ (uf UART_STAT.BRK_SEEN u).apart (uf UART_STAT.PE_SEEN u) = true ∧
      (uf UART_STAT.BRK_SEEN u).apart (uf UART_STAT.FE_SEEN u) = true) ∧
    ∀ g ∈ [uf UART_CFG.FLOW u, uf UART_STAT.OVR u], (uf UART_STAT.PE_SEEN u).apart g = true ∧ (uf UART_STAT.FE_SEEN u).apart g = true ∧
      (uf UART_STAT.BRK_SEEN u).apart g = true := by decide

theorem uart_ovr_apart : ∀ u : Fin 7, (uf UART_STAT.OVR u).apart (uf UART_STAT.PE_SEEN u) = true ∧
    (uf UART_STAT.OVR u).apart (uf UART_STAT.FE_SEEN u) = true ∧ (uf UART_STAT.OVR u).apart (uf UART_STAT.BRK_SEEN u) = true := by decide

section
variable (h : Hw) (u : Fin 7) (pe fe brk : Bool)

theorem Hw.uartMarked_uart : (h.uartMarked u pe fe brk).uart u = h.uart u := by
  rw [Hw.uartMarked, Hw.uart_upIf, Hw.uart_upIf, Hw.uart_upIf]

theorem Hw.uartMarked_pe : (h.uartMarked u pe fe brk).get (uf UART_STAT.PE_SEEN u) = if pe then 1 else h.get (uf UART_STAT.PE_SEEN u) := by
  obtain ⟨-, ⟨hfe, hbrk, -⟩, -⟩ := uart_flags_apart u
  rw [Hw.uartMarked, Hw.upIf_get _ _ hbrk, Hw.upIf_get _ _ hfe, Hw.upIf_get_self _ _ (show 4 + 1 ≤ 32 by decide) rfl]

theorem Hw.uartMarked_fe : (h.uartMarked u pe fe brk).get (uf UART_STAT.FE_SEEN u) = if fe then 1 else h.get (uf UART_STAT.FE_SEEN u) := by
  obtain ⟨⟨hpe, -⟩, ⟨-, -, hbrk⟩, -⟩ := uart_flags_apart u
  rw [Hw.uartMarked, Hw.upIf_get _ _ hbrk, Hw.upIf_get_self _ _ (show 5 + 1 ≤ 32 by decide) rfl, Hw.upIf_get _ _ hpe]

theorem Hw.uartMarked_brk : (h.uartMarked u pe fe brk).get (uf UART_STAT.BRK_SEEN u) = if brk then 1 else h.get (uf UART_STAT.BRK_SEEN u) := by
  obtain ⟨⟨-, hpe, hfe⟩, -⟩ := uart_flags_apart u
  rw [Hw.uartMarked, Hw.upIf_get_self _ _ (show 6 + 1 ≤ 32 by decide) rfl, Hw.upIf_get _ _ hfe, Hw.upIf_get _ _ hpe]

theorem Hw.uartMarked_get {g : Fld} (hg : g ∈ [uf UART_CFG.FLOW u, uf UART_STAT.OVR u]) : (h.uartMarked u pe fe brk).get g = h.get g := by
  obtain ⟨-, -, hbeside⟩ := uart_flags_apart u
  obtain ⟨hpe, hfe, hbrk⟩ := hbeside g hg
  rw [Hw.uartMarked, Hw.upIf_get _ _ hbrk, Hw.upIf_get _ _ hfe, Hw.upIf_get _ _ hpe]

end

/-- The three flags are those of `h`, each with what the frame adds. -/
def Hw.uartSaw (h t : Hw) (u : Nat) (pe fe brk : Bool) : Prop :=
  (t.get (uf UART_STAT.PE_SEEN u) = if pe then 1 else h.get (uf UART_STAT.PE_SEEN u)) ∧
  (t.get (uf UART_STAT.FE_SEEN u) = if fe then 1 else h.get (uf UART_STAT.FE_SEEN u)) ∧
  (t.get (uf UART_STAT.BRK_SEEN u) = if brk then 1 else h.get (uf UART_STAT.BRK_SEEN u))

theorem Hw.uartSaw_setUart (h : Hw) (u : Fin 7) (pe fe brk : Bool) (x : Uart) :
    h.uartSaw ((h.uartMarked u pe fe brk).setUart u x) u pe fe brk := by
  obtain ⟨hpe, hfe, hbrk, -⟩ := uart_flags_beside u
  refine ⟨?_, ?_, ?_⟩
  · rw [Hw.setUart_get _ _ _ hpe, Hw.uartMarked_pe]
  · rw [Hw.setUart_get _ _ _ hfe, Hw.uartMarked_fe]
  · rw [Hw.setUart_get _ _ _ hbrk, Hw.uartMarked_brk]

theorem Hw.uartSaw.up {h t : Hw} {u : Fin 7} {pe fe brk : Bool} (hs : h.uartSaw t u pe fe brk) : h.uartSaw (t.up (uf UART_STAT.OVR u)) u pe fe brk := by
  obtain ⟨hpe, hfe, hbrk⟩ := uart_ovr_apart u
  unfold Hw.uartSaw Hw.up
  rw [Hw.get_set_of_apart _ _ _ _ hpe, Hw.get_set_of_apart _ _ _ _ hfe, Hw.get_set_of_apart _ _ _ _ hbrk]
  exact hs

theorem Hw.uartSaw.canon {h t : Hw} {u : Nat} {pe fe brk : Bool} (hs : h.uartSaw t u pe fe brk) : h.uartSaw t.canon u pe fe brk := by
  unfold Hw.uartSaw
  rw [Hw.get_canon, Hw.get_canon, Hw.get_canon]
  exact hs

section
variable {h : Hw} {u : Nat} (w : Word)

theorem Hw.uartStore_full (hx : 32 ≤ (h.uart u).rx.length) :
    h.uartStore u w = (h.setUart u { h.uart u with recv := false }).up (uf UART_STAT.OVR u) := if_pos hx

theorem Hw.uartStore_room (hx : (h.uart u).rx.length < 32) :
    h.uartStore u w = h.setUart u { h.uart u with recv := false, rx := (h.uart u).rx ++ [w] } := if_neg (Nat.not_le.2 hx)

end

/-- What the samples of a frame say of it (R333, R337): its character, PE and BRK. -/
def Hw.uartChar (h : Hw) (u d : Nat) : Nat := d % 2 ^ h.get (uf UART_CFG.DATA u)
def Hw.uartPe (h : Hw) (u d : Nat) (par : Bool) : Bool :=
  decide (h.get (uf UART_CFG.PARITY u) ≠ 0) && par != parityBit (h.get (uf UART_CFG.PARITY u)) (h.uartChar u d) (h.get (uf UART_CFG.DATA u))
def Hw.uartBrk (h : Hw) (u d : Nat) (par stop : Bool) : Bool :=
  decide (h.uartChar u d = 0) && !stop && (decide (h.get (uf UART_CFG.PARITY u) = 0) || !par)

/-- The word of DATA that a frame enters as (R339). -/
def Hw.uartEntry (h : Hw) (u d : Nat) (par stop : Bool) : Word :=
  BitVec.ofNat 32 (h.uartChar u d + (if h.uartPe u d par then 2 ^ 9 else 0) + (if stop then 0 else 2 ^ 10) + (if h.uartBrk u d par stop then 2 ^ 11 else 0))

theorem Hw.uartFrame_eq (h : Hw) (u d : Nat) (par stop : Bool) :
    h.uartFrame u d par stop = (h.uartMarked u (h.uartPe u d par) (!stop) (h.uartBrk u d par stop)).uartStore u (h.uartEntry u d par stop) := by
  have hbit : ∀ (b : Bool) (m : Nat), b2n b * m = if b then m else 0 := fun b m => by cases b <;> simp [b2n]
  have hstop : (if (!stop) = true then 2 ^ 10 else 0) = if stop then 0 else 2 ^ 10 := by cases stop <;> rfl
  have hpe : (h.get (uf UART_CFG.PARITY u) != 0) = decide (h.get (uf UART_CFG.PARITY u) ≠ 0) := by rw [bne, decide_not]; rfl
  unfold Hw.uartFrame
  simp only [hbit, hstop, hpe, parityOf_eq]
  rfl

/-! ### The events -/

section
variable {s : State} {u : Fin 7}

theorem characterStart_idle {cts : Bool} (hidle : ¬ s.hw.uartStarts u cts ∨ (s.hw.uart u).tx = []) : Becomes (.uartCharacterStart u cts) s s.hw := by
  by_cases hs : s.hw.uartStarts u cts
  · have hx := hidle.resolve_left (not_not.2 hs)
    exact becomes_of_when (execUartCharacterStart.eq_1 u cts s) ((s.hw.uartStarts_iff u cts).2 hs) (by rw [hx])
  · exact becomes_of_when_not (execUartCharacterStart.eq_1 u cts s) (Bool.eq_false_iff.2 (mt (s.hw.uartStarts_iff u cts).1 hs))

theorem characterStart_completes {cts : Bool} (hs : s.hw.uartStarts u cts) {e : Word} {l : List Word} (hx : (s.hw.uart u).tx = e :: l) :
    Completes (.uartCharacterStart u cts) s (fun t =>
      (t.uart u).cur = some (BitVec.ofNat 32 (s.hw.uartChar u e.toNat)) ∧ (t.uart u).bits = s.hw.uartFrameBits u (s.hw.uartChar u e.toNat) ∧
      (t.uart u).tx = l ∧ (t.uart u).rx = (s.hw.uart u).rx ∧ t.get (uf UART_STAT.TXIDLE u) = 0) := by
  have hgo : Becomes (.uartCharacterStart u cts) s (s.hw.setUart u { s.hw.uart u with
      tx := l, cur := some (BitVec.ofNat 32 (s.hw.uartChar u e.toNat)), bits := s.hw.uartBits u (s.hw.uartChar u e.toNat) }) :=
    becomes_of_when (execUartCharacterStart.eq_1 u cts s) ((s.hw.uartStarts_iff u cts).2 hs) (by rw [hx]; rfl)
  refine hgo.completes ⟨?_, ?_, ?_, ?_, ?_⟩
  · rw [Hw.uart_canon, Hw.setUart_uart]
  · rw [Hw.uart_canon, Hw.setUart_uart]
    exact s.hw.uartBits_eq u _
  · rw [Hw.uart_canon, Hw.setUart_uart]
  · rw [Hw.uart_canon, Hw.setUart_uart]
  · rw [Hw.get_canon, Hw.setUart_txidle]
    rfl

theorem characterSent_iff : ((if u.val < 6 then s.hw.blockOn 0xE else s.hw.islandUp) && (s.hw.uart u).cur.isSome) = true ↔
    s.hw.uartClocked u ∧ (s.hw.uart u).cur ≠ none := by
  rw [Bool.and_eq_true, s.hw.uartClock_iff, Option.isSome_iff_ne_none]

theorem characterSent_idle (hidle : ¬ s.hw.uartClocked u ∨ (s.hw.uart u).cur = none) : Becomes (.uartCharacterSent u) s s.hw := by
  refine becomes_of_when_not (execUartCharacterSent.eq_1 u s) (Bool.eq_false_iff.2 (mt characterSent_iff.1 ?_))
  rintro ⟨hc, hcur⟩
  exact hidle.elim (· hc) hcur

theorem characterSent_completes (hc : s.hw.uartClocked u) (hcur : (s.hw.uart u).cur ≠ none) : Completes (.uartCharacterSent u) s (fun t =>
    (t.uart u).cur = none ∧ (t.uart u).sent = (s.hw.uart u).cur ∧ t.get (uf UART_STAT.TXIDLE u) = 1) := by
  have hgo : Becomes (.uartCharacterSent u) s (s.hw.setUart u { s.hw.uart u with cur := none, sent := (s.hw.uart u).cur }) :=
    becomes_of_when (execUartCharacterSent.eq_1 u s) (characterSent_iff.2 ⟨hc, hcur⟩) rfl
  refine hgo.completes ⟨?_, ?_, ?_⟩
  · rw [Hw.uart_canon, Hw.setUart_uart]
  · rw [Hw.uart_canon, Hw.setUart_uart]
  · rw [Hw.get_canon, Hw.setUart_txidle]
    rfl

theorem startDetect_iff : (s.hw.uartOn u && s.hw.uartRxBall u && !(s.hw.uart u).recv) = true ↔
    (s.hw.uartRuns u ∧ s.hw.uartWired u = true) ∧ (s.hw.uart u).recv = false := by
  rw [Bool.and_eq_true, Bool.and_eq_true, s.hw.uartOn_iff, s.hw.uartRxBall_eq, Bool.not_eq_true']

theorem startDetect_deaf {bad : Bool} (hd : ¬ (s.hw.uartRuns u ∧ s.hw.uartWired u = true) ∨ (s.hw.uart u).recv = true) :
    Becomes (.uartStartDetect u bad) s s.hw := by
  refine becomes_of_when_not (execUartStartDetect.eq_1 u bad s) (Bool.eq_false_iff.2 (mt startDetect_iff.1 ?_))
  rintro ⟨hh, hrecv⟩
  exact hd.elim (· hh) (by simp [hrecv])

theorem startDetect_glitch (hh : s.hw.uartRuns u ∧ s.hw.uartWired u = true) (hrecv : (s.hw.uart u).recv = false) :
    Becomes (.uartStartDetect u true) s (s.hw.set (uf UART_STAT.GLITCH u) 1) :=
  becomes_of_when (execUartStartDetect.eq_1 u true s) (startDetect_iff.2 ⟨hh, hrecv⟩) rfl

theorem startDetect_completes (hh : s.hw.uartRuns u ∧ s.hw.uartWired u = true) (hrecv : (s.hw.uart u).recv = false) :
    Completes (.uartStartDetect u false) s (fun t =>
      (t.uart u).recv = true ∧ (t.uart u).rx = (s.hw.uart u).rx ∧ t.get (uf UART_STAT.RXIDLE u) = 0) := by
  have hgo : Becomes (.uartStartDetect u false) s (s.hw.setUart u { s.hw.uart u with recv := true }) :=
    becomes_of_when (execUartStartDetect.eq_1 u false s) (startDetect_iff.2 ⟨hh, hrecv⟩) rfl
  refine hgo.completes ⟨?_, ?_, ?_⟩
  · rw [Hw.uart_canon, Hw.setUart_uart]
  · rw [Hw.uart_canon, Hw.setUart_uart]
  · rw [Hw.get_canon, Hw.setUart_rxidle]
    rfl

section
variable {d : BitVec 9} {par stop : Bool}

theorem frameReceived_iff : (s.hw.uartOn u && (s.hw.uart u).recv) = true ↔ s.hw.uartRuns u ∧ (s.hw.uart u).recv = true := by
  rw [Bool.and_eq_true, s.hw.uartOn_iff]

theorem frameReceived_idle (hd : ¬ s.hw.uartRuns u ∨ (s.hw.uart u).recv = false) : Becomes (.uartFrameReceived u d par stop) s s.hw := by
  refine becomes_of_when_not (execUartFrameReceived.eq_1 u d par stop s) (Bool.eq_false_iff.2 (mt frameReceived_iff.1 ?_))
  rintro ⟨hr, hrecv⟩
  exact hd.elim (· hr) (by simp [hrecv])

/-- The stop sample as the unit takes it: 1 where no ball carries RX (R468). -/
def Hw.uartStop (h : Hw) (u : Nat) (stop : Bool) : Bool := stop || !h.uartWired u

/-- The part with the flags of the frame received, its character not yet in. -/
def Hw.uartSeen (h : Hw) (u d : Nat) (par stop : Bool) : Hw := h.uartMarked u (h.uartPe u d par) (!stop) (h.uartBrk u d par stop)

theorem frameReceived_becomes (hr : s.hw.uartRuns u) (hrecv : (s.hw.uart u).recv = true) :
    Becomes (.uartFrameReceived u d par stop) s ((s.hw.uartSeen u d.toNat par (s.hw.uartStop u stop)).uartStore u
      (s.hw.uartEntry u d.toNat par (s.hw.uartStop u stop))) := by
  refine becomes_of_when (execUartFrameReceived.eq_1 u d par stop s) (frameReceived_iff.2 ⟨hr, hrecv⟩) ?_
  rw [s.hw.uartRxBall_eq, Hw.uartFrame_eq]
  rfl

/-- What a frame leaves of unit `u`: not receiving, with its flags, and its character in the FIFO or lost with OVR. -/
def Hw.uartTook (h t : Hw) (u : Nat) (w : Word) (pe fe brk : Bool) : Prop :=
  (t.uart u).recv = false ∧ (t.uart u).tx = (h.uart u).tx ∧ h.uartSaw t u pe fe brk ∧
  ((h.uart u).rx.length < 32 → (t.uart u).rx = (h.uart u).rx ++ [w] ∧ t.get (uf UART_STAT.OVR u) = h.get (uf UART_STAT.OVR u) ∧
    (h.get (uf UART_CFG.FLOW u) = 1 → 27 ≤ (h.uart u).rx.length → (t.uart u).rts = true)) ∧
  (32 ≤ (h.uart u).rx.length → (t.uart u).rx = (h.uart u).rx ∧ t.get (uf UART_STAT.OVR u) = 1)

theorem Hw.uartStore_takes (h : Hw) (u : Fin 7) (w : Word) (pe fe brk : Bool) :
    h.uartTook ((h.uartMarked u pe fe brk).uartStore u w).canon u w pe fe brk := by
  obtain ⟨-, -, -, hovr⟩ := uart_flags_beside u
  have hu := h.uartMarked_uart u pe fe brk
  rcases Nat.lt_or_ge (h.uart u).rx.length 32 with hx | hx
  · rw [Hw.uartStore_room w (by rwa [hu]), hu]
    refine ⟨?_, ?_, (h.uartSaw_setUart u pe fe brk _).canon, fun _ => ⟨?_, ?_, fun hflow hlen => ?_⟩, fun hfull => absurd hfull (Nat.not_le.2 hx)⟩
    · rw [Hw.uart_canon, Hw.setUart_uart]
    · rw [Hw.uart_canon, Hw.setUart_uart]
    · rw [Hw.uart_canon, Hw.setUart_uart]
    · rw [Hw.get_canon, Hw.setUart_get _ _ _ hovr, Hw.uartMarked_get _ _ _ _ _ (by simp)]
    · rw [Hw.uart_canon, Hw.setUart_uart, Hw.uartRts, ((Hw.on_iff _ rfl).2 ((Hw.uartMarked_get _ _ _ _ _ (by simp)).trans hflow))]
      simp only [List.length_append, List.length_singleton, Bool.true_and, Bool.or_eq_true, decide_eq_true_eq]
      omega
  · rw [Hw.uartStore_full w (by rwa [hu]), hu]
    refine ⟨?_, ?_, (h.uartSaw_setUart u pe fe brk _).up.canon, fun hroom => absurd hroom (Nat.not_lt.2 hx), fun _ => ⟨?_, ?_⟩⟩
    · rw [Hw.uart_canon, Hw.uart_up, Hw.setUart_uart]
    · rw [Hw.uart_canon, Hw.uart_up, Hw.setUart_uart]
    · rw [Hw.uart_canon, Hw.uart_up, Hw.setUart_uart]
    · rw [Hw.get_canon]
      exact Hw.get_set_self _ _ _ (show 2 + 1 ≤ 32 by decide)

theorem frameReceived_completes (hr : s.hw.uartRuns u) (hrecv : (s.hw.uart u).recv = true) :
    Completes (.uartFrameReceived u d par stop) s (fun t => s.hw.uartTook t u (s.hw.uartEntry u d.toNat par (s.hw.uartStop u stop))
      (s.hw.uartPe u d.toNat par) (!s.hw.uartStop u stop) (s.hw.uartBrk u d.toNat par (s.hw.uartStop u stop))) :=
  (frameReceived_becomes hr hrecv).completes (s.hw.uartStore_takes u _ _ _ _)

end

theorem rxto_iff : (s.hw.uartOn u && s.hw.on (uf UART_TOUT.BITS u) && (s.hw.uart u).rx != []) = true ↔
    s.hw.uartRuns u ∧ s.hw.get (uf UART_TOUT.BITS u) ≠ 0 ∧ (s.hw.uart u).rx ≠ [] := by
  simp only [Bool.and_eq_true, s.hw.uartOn_iff, Hw.on, bne_iff_ne, and_assoc]

theorem rxto_idle (hd : ¬ (s.hw.uartRuns u ∧ s.hw.get (uf UART_TOUT.BITS u) ≠ 0 ∧ (s.hw.uart u).rx ≠ [])) : Becomes (.rxto u) s s.hw :=
  becomes_of_when_not (execRxto.eq_1 u s) (Bool.eq_false_iff.2 (mt rxto_iff.1 hd))

theorem rxto_due (hd : s.hw.uartRuns u ∧ s.hw.get (uf UART_TOUT.BITS u) ≠ 0 ∧ (s.hw.uart u).rx ≠ []) :
    Becomes (.rxto u) s (s.hw.set (uf UART_STAT.RXTO u) 1) :=
  becomes_of_when (execRxto.eq_1 u s) (rxto_iff.2 hd) rfl

end

end Sys2Proof.Machine

/-! SPI and I2C accesses (R347, R348, R485): pushes, pops and CLEAR. -/

namespace Sys2Proof.Machine

/-! ### The state of an SPI port and its levels -/

theorem Hw.spi_canon (h : Hw) (n : Nat) : h.canon.spi n = h.spi n := rfl
theorem Hw.spi_set (h : Hw) (f : Fld) (v n : Nat) : (h.set f v).spi n = h.spi n := rfl
theorem Hw.i2c_canon (h : Hw) (n : Nat) : h.canon.i2c n = h.i2c n := rfl
theorem Hw.i2c_set (h : Hw) (f : Fld) (v n : Nat) : (h.set f v).i2c n = h.i2c n := rfl
theorem Hw.answered_spi (r : Hw × RdRes) (n : Nat) : (Hw.answered r).spi n = r.1.spi n := rfl
theorem Hw.answered_i2c (r : Hw × RdRes) (n : Nat) : (Hw.answered r).i2c n = r.1.i2c n := rfl

section
variable (h : Hw) (n : Nat) (x : Spi)

theorem Hw.setSpi_spi : (h.setSpi n x).spi n = x := by
  rw [Hw.setSpi, Hw.sets_only]
  exact tget_tput_self _ _ _ _

theorem Hw.setSpi_txlvl : (h.setSpi n x).get (SPI_STAT.TXLVL n) = x.tx.length % 32 := by
  rw [Hw.setSpi, Hw.sets_cons, Hw.get_sets_apart, Hw.get_set_self _ _ _ (show 0 + 5 ≤ 32 by decide)]
  · rfl
  · simp [Fld.apart, SPI_STAT.RXLVL, SPI_STAT.TXLVL]

theorem Hw.setSpi_rxlvl : (h.setSpi n x).get (SPI_STAT.RXLVL n) = x.rx.length % 32 := by
  rw [Hw.setSpi, Hw.sets_cons, Hw.sets_cons, Hw.sets_nil, Hw.get_set_self _ _ _ (show 8 + 5 ≤ 32 by decide)]
  rfl

/-- A field beside both levels reads as before. -/
theorem Hw.setSpi_get {f : Fld} (htx : (SPI_STAT.TXLVL n).apart f = true) (hrx : (SPI_STAT.RXLVL n).apart f = true) : (h.setSpi n x).get f = h.get f := by
  rw [Hw.setSpi, Hw.get_sets_apart]
  · exact Hw.get_of_regs rfl f
  · simp [htx, hrx]

theorem Hw.setSpi_udr : (h.setSpi n x).get (SPI_STAT.UDR n) = h.get (SPI_STAT.UDR n) :=
  h.setSpi_get n x (by simp [Fld.apart, SPI_STAT.UDR, SPI_STAT.TXLVL]) (by simp [Fld.apart, SPI_STAT.UDR, SPI_STAT.RXLVL])

theorem Hw.setSpi_ovr : (h.setSpi n x).get (SPI_STAT.OVR n) = h.get (SPI_STAT.OVR n) :=
  h.setSpi_get n x (by simp [Fld.apart, SPI_STAT.OVR, SPI_STAT.TXLVL]) (by simp [Fld.apart, SPI_STAT.OVR, SPI_STAT.RXLVL])

end

theorem Hw.setI2c_i2c (h : Hw) (n : Nat) (y : I2c) : (h.setI2c n y).i2c n = y := tget_tput_self _ _ _ _

/-! ### What an access makes of an SPI port -/

theorem spi_data_adr : ∀ n : Fin 4, (SPI_DATA n - SPI_CFG 0) / 0x100 = n ∧ SPI_DATA n % 0x100 = 8 := by decide

section
variable (h : Hw) {acc : Access} (n : Fin 4) (v : Word)

/-- The owner in force of SPI port `n`. -/
abbrev Hw.spiOwner (h : Hw) (n : Nat) : Nat := h.get (SPI_OWNER.TID_L n)

theorem Hw.spiWrite_data : h.spiWrite acc (SPI_DATA n) v = h.guarded acc [h.spiOwner n] (fun h =>
    if (h.spi n).tx.length < 16 then h.setSpi n { h.spi n with tx := (h.spi n).tx ++ [v] } else h) := by
  obtain ⟨hport, hofs⟩ := spi_data_adr n
  rw [Hw.spiWrite, hport, hofs]
  rfl

theorem Hw.spiRead_data : h.spiRead acc (SPI_DATA n) = h.guardedR acc [h.spiOwner n] (fun h =>
    match (h.spi n).rx with
    | [] => h.freeWord
    | w :: t => (h.setSpi n { h.spi n with rx := t }, w)) := by
  obtain ⟨hport, hofs⟩ := spi_data_adr n
  rw [Hw.spiRead, hport, hofs]
  rfl

theorem Hw.spiPush_room (hm : owns acc (h.spiOwner n)) (hx : (h.spi n).tx.length < 16) :
    (h.spiWrite acc (SPI_DATA n) v).1 = h.setSpi n { h.spi n with tx := (h.spi n).tx ++ [v] } := by
  rw [Hw.spiWrite_data, Hw.guarded_owned _ _ hm]
  exact if_pos hx

theorem Hw.spiPush_full (hm : owns acc (h.spiOwner n)) (hx : 16 ≤ (h.spi n).tx.length) : (h.spiWrite acc (SPI_DATA n) v).1 = h := by
  rw [Hw.spiWrite_data, Hw.guarded_owned _ _ hm]
  exact if_neg (Nat.not_lt.2 hx)

theorem Hw.spiPush_unowned (hm : ¬ owns acc (h.spiOwner n)) : (h.spiWrite acc (SPI_DATA n) v).1 = h := by
  rw [Hw.spiWrite_data, Hw.guarded_unowned _ _ hm]

theorem Hw.spiPop_empty (hm : owns acc (h.spiOwner n)) (hx : (h.spi n).rx = []) : h.spiRead acc (SPI_DATA n) = (h.drawn, .word h.free) := by
  rw [Hw.spiRead_data, Hw.guardedR_owned _ _ hm, hx]
  rfl

theorem Hw.spiPop_next (hm : owns acc (h.spiOwner n)) {w : Word} {l : List Word} (hx : (h.spi n).rx = w :: l) :
    h.spiRead acc (SPI_DATA n) = (h.setSpi n { h.spi n with rx := l }, .word w) := by
  rw [Hw.spiRead_data, Hw.guardedR_owned _ _ hm, hx]

theorem Hw.spiPop_unowned (hm : ¬ owns acc (h.spiOwner n)) : h.spiRead acc (SPI_DATA n) = (h, .owner) := by
  rw [Hw.spiRead_data, Hw.guardedR_unowned _ _ hm]

end

/-! ### What an access makes of an I2C port -/

theorem i2c_adrs : ∀ n : Fin 4, ((I2C_CMD n - I2C_CFG 0) / 0x100 = n ∧ I2C_CMD n % 0x100 = 0xC) ∧
    ((I2C_CTL n - I2C_CFG 0) / 0x100 = n ∧ I2C_CTL n % 0x100 = 0x18) ∧ (I2C_RXDATA n - I2C_CFG 0) / 0x100 = n ∧ I2C_RXDATA n % 0x100 = 0x10 := by decide

/-- With nothing to come and nothing to go the target's transfer stands. -/
theorem I2c.serve_idle {y : I2c} (hin : y.tin = []) (hout : y.tout = 0) : y.serve = y := by
  cases y
  subst hin hout
  simp [I2c.serve]

/-- With an empty command FIFO, or nothing asked for, room in the RX FIFO lets in what waits. -/
theorem I2c.serve_receives {y : I2c} (l : List Byte) (hy : y.tout = 0 ∨ y.cmds = []) :
    { y with rx := l }.serve = { y with rx := l ++ y.tin.take (8 - l.length), tin := y.tin.drop (8 - l.length) } := by
  have hnone : min y.tout y.cmds.length = 0 := by rcases hy with hy | hy <;> simp [hy]
  simp [I2c.serve, hnone]

/-- A byte for a transfer that waits for one goes out. -/
theorem I2c.serve_sends {y : I2c} (hc : y.cmds = []) (hin : y.tin = []) {k : Nat} (hout : y.tout = k + 1) (w : Word) :
    { y with cmds := y.cmds ++ [w] }.serve = { y with tout := k, sent := y.sent ++ [w.truncate 8] } := by
  cases y
  subst hc hin hout
  simp [I2c.serve]

theorem low_byte_of_cmd (v : Word) : (v &&& 0xFFF).truncate 8 = v.truncate 8 := by
  have hones : ∀ i : Fin 8, (0xFF#8)[i.val] = true := by decide
  ext i hi
  simpa using fun _ => hones ⟨i, hi⟩

section
variable (h : Hw) {acc : Access} (n : Fin 4) (v : Word)

/-- The owner in force of I2C port `n`. -/
abbrev Hw.i2cOwner (h : Hw) (n : Nat) : Nat := h.get (I2C_OWNER.TID_L n)

theorem Hw.i2cWrite_cmd : h.i2cWrite acc (I2C_CMD n) v = h.guarded acc [h.i2cOwner n] (fun h =>
    if (h.i2c n).cmds.length < 8 then h.setI2c n { h.i2c n with cmds := (h.i2c n).cmds ++ [v &&& 0xFFF] }.serve else h) := by
  obtain ⟨⟨hport, hofs⟩, -⟩ := i2c_adrs n
  rw [Hw.i2cWrite, hport, hofs]
  rfl

theorem Hw.i2cWrite_clear : h.i2cWrite acc (I2C_CTL n) 1 = h.guarded acc [h.i2cOwner n] (fun h => h.setI2c n { h.i2c n with held := false }) := by
  obtain ⟨-, ⟨hport, hofs⟩, -⟩ := i2c_adrs n
  rw [Hw.i2cWrite, hport, hofs]
  rfl

theorem Hw.i2cRead_rxdata : h.i2cRead acc (I2C_RXDATA n) = h.guardedR acc [h.i2cOwner n] (fun h =>
    match (h.i2c n).rx with
    | [] => (h.drawn, h.free &&& 0xFF)
    | b :: t => (h.setI2c n { h.i2c n with rx := t }.serve, b.setWidth 32)) := by
  obtain ⟨-, -, hport, hofs⟩ := i2c_adrs n
  rw [Hw.i2cRead, hport, hofs]
  rfl

theorem Hw.i2cCmd_room (hm : owns acc (h.i2cOwner n)) (hx : (h.i2c n).cmds.length < 8) :
    (h.i2cWrite acc (I2C_CMD n) v).1 = h.setI2c n { h.i2c n with cmds := (h.i2c n).cmds ++ [v &&& 0xFFF] }.serve := by
  rw [Hw.i2cWrite_cmd, Hw.guarded_owned _ _ hm]
  exact if_pos hx

theorem Hw.i2cCmd_full (hm : owns acc (h.i2cOwner n)) (hx : 8 ≤ (h.i2c n).cmds.length) : (h.i2cWrite acc (I2C_CMD n) v).1 = h := by
  rw [Hw.i2cWrite_cmd, Hw.guarded_owned _ _ hm]
  exact if_neg (Nat.not_lt.2 hx)

theorem Hw.i2cCmd_unowned (hm : ¬ owns acc (h.i2cOwner n)) : (h.i2cWrite acc (I2C_CMD n) v).1 = h := by
  rw [Hw.i2cWrite_cmd, Hw.guarded_unowned _ _ hm]

theorem Hw.i2cPop_empty (hm : owns acc (h.i2cOwner n)) (hx : (h.i2c n).rx = []) :
    h.i2cRead acc (I2C_RXDATA n) = (h.drawn, .word (h.free &&& 0xFF)) := by
  rw [Hw.i2cRead_rxdata, Hw.guardedR_owned _ _ hm, hx]

theorem Hw.i2cPop_next (hm : owns acc (h.i2cOwner n)) {b : Byte} {l : List Byte} (hx : (h.i2c n).rx = b :: l) :
    h.i2cRead acc (I2C_RXDATA n) = (h.setI2c n { h.i2c n with rx := l }.serve, .word (b.setWidth 32)) := by
  rw [Hw.i2cRead_rxdata, Hw.guardedR_owned _ _ hm, hx]

theorem Hw.i2cPop_unowned (hm : ¬ owns acc (h.i2cOwner n)) : h.i2cRead acc (I2C_RXDATA n) = (h, .owner) := by
  rw [Hw.i2cRead_rxdata, Hw.guardedR_unowned _ _ hm]

theorem Hw.i2cClear_owned (hm : owns acc (h.i2cOwner n)) : (h.i2cWrite acc (I2C_CTL n) 1).1 = h.setI2c n { h.i2c n with held := false } := by
  rw [Hw.i2cWrite_clear, Hw.guarded_owned _ _ hm]

theorem Hw.i2cClear_unowned (hm : ¬ owns acc (h.i2cOwner n)) : (h.i2cWrite acc (I2C_CTL n) 1).1 = h := by
  rw [Hw.i2cWrite_clear, Hw.guarded_unowned _ _ hm]

end

/-! ### The commands -/

/-- An access that the bus lets through leaves what its write leaves. -/
theorem becomes_of_open {i : Instr} {s : State} {acc : Access} {f : Hw → Hw} {k : Hw} (hi : exec i s = s.onBusBy acc f)
    (ho : s.hw.opens acc = true) (hk : f s.hw = k) : Becomes i s k := hk ▸ becomes_of_bus hi ho

section
variable {s : State} {acc : Access} {n : Fin 4} (v : Word) (ho : s.hw.opens acc = true)
include ho

theorem spi_unowned (hm : ¬ owns acc (s.hw.spiOwner n)) :
    Becomes (.spiTxPush acc n v) s s.hw ∧ Becomes (.spiRxPop acc n) s { s.hw with busData := 0 } :=
  ⟨becomes_of_open (execSpiTxPush.eq_1 acc n v s) ho (s.hw.spiPush_unowned n v hm),
   becomes_of_open (execSpiRxPop.eq_1 acc n s) ho (congrArg Hw.answered (s.hw.spiPop_unowned n hm))⟩

theorem i2c_unowned (hm : ¬ owns acc (s.hw.i2cOwner n)) :
    Becomes (.i2cCmd acc n v) s s.hw ∧ Becomes (.i2cRxPop acc n) s { s.hw with busData := 0 } ∧ Becomes (.clear acc n) s s.hw :=
  ⟨becomes_of_open (execI2cCmd.eq_1 acc n v s) ho (s.hw.i2cCmd_unowned n v hm),
   becomes_of_open (execI2cRxPop.eq_1 acc n s) ho (congrArg Hw.answered (s.hw.i2cPop_unowned n hm)),
   becomes_of_open (execClear.eq_1 acc n s) ho (s.hw.i2cClear_unowned n hm)⟩

section
variable (hm : owns acc (s.hw.spiOwner n))
include hm

theorem spiTxPush_room (hx : (s.hw.spi n).tx.length < 16) : Completes (.spiTxPush acc n v) s (fun t =>
    t.spi n = { s.hw.spi n with tx := (s.hw.spi n).tx ++ [v] } ∧ t.get (SPI_STAT.TXLVL n) = (s.hw.spi n).tx.length + 1) := by
  have hgo : Becomes (.spiTxPush acc n v) s _ := becomes_of_open (execSpiTxPush.eq_1 acc n v s) ho (s.hw.spiPush_room n v hm hx)
  refine hgo.completes ⟨?_, ?_⟩
  · rw [Hw.spi_canon, Hw.setSpi_spi]
  · rw [Hw.get_canon, Hw.setSpi_txlvl, List.length_append, List.length_singleton]
    omega

theorem spiTxPush_full (hx : 16 ≤ (s.hw.spi n).tx.length) : Becomes (.spiTxPush acc n v) s s.hw :=
  becomes_of_open (execSpiTxPush.eq_1 acc n v s) ho (s.hw.spiPush_full n v hm hx)

omit v

theorem spiRxPop_empty (hx : (s.hw.spi n).rx = []) :
    Becomes (.spiRxPop acc n) s { s.hw with busData := Config.freeValue s.hw.freeCtr, freeCtr := s.hw.freeCtr + 1 } :=
  becomes_of_open (execSpiRxPop.eq_1 acc n s) ho (congrArg Hw.answered (s.hw.spiPop_empty n hm hx))

theorem spiRxPop_next {w : Word} {l : List Word} (hx : (s.hw.spi n).rx = w :: l) : Completes (.spiRxPop acc n) s (fun t =>
    t.busData = w ∧ t.spi n = { s.hw.spi n with rx := l } ∧ t.get (SPI_STAT.RXLVL n) = l.length % 32) := by
  have hgo : Becomes (.spiRxPop acc n) s _ := becomes_of_open (execSpiRxPop.eq_1 acc n s) ho (congrArg Hw.answered (s.hw.spiPop_next n hm hx))
  refine hgo.completes ⟨?_, ?_, ?_⟩
  · rw [Hw.busData_canon]
    rfl
  · rw [Hw.spi_canon, Hw.answered_spi, Hw.setSpi_spi]
  · rw [Hw.get_canon, Hw.answered_get, Hw.setSpi_rxlvl]

end

section
variable (hm : owns acc (s.hw.i2cOwner n))
include hm

/-- Without a transfer as target a command waits in the FIFO. -/
theorem i2cCmd_queues (hx : (s.hw.i2c n).cmds.length < 8) (hin : (s.hw.i2c n).tin = []) (hout : (s.hw.i2c n).tout = 0) :
    Becomes (.i2cCmd acc n v) s (s.hw.setI2c n { s.hw.i2c n with cmds := (s.hw.i2c n).cmds ++ [v &&& 0xFFF] }) :=
  becomes_of_open (execI2cCmd.eq_1 acc n v s) ho
    ((s.hw.i2cCmd_room n v hm hx).trans (congrArg (s.hw.setI2c n) (I2c.serve_idle hin hout)))

/-- A byte that the bus controller waits for goes out at once. -/
theorem i2cCmd_sends (hx : (s.hw.i2c n).cmds = []) (hin : (s.hw.i2c n).tin = []) {k : Nat} (hout : (s.hw.i2c n).tout = k + 1) :
    Becomes (.i2cCmd acc n v) s (s.hw.setI2c n { s.hw.i2c n with tout := k, sent := (s.hw.i2c n).sent ++ [v.truncate 8] }) := by
  have hroom : (s.hw.i2c n).cmds.length < 8 := by simp [hx]
  refine becomes_of_open (execI2cCmd.eq_1 acc n v s) ho ((s.hw.i2cCmd_room n v hm hroom).trans (congrArg (s.hw.setI2c n) ?_))
  exact (I2c.serve_sends hx hin hout (v &&& 0xFFF)).trans (by rw [low_byte_of_cmd])

theorem i2cCmd_full (hx : 8 ≤ (s.hw.i2c n).cmds.length) : Becomes (.i2cCmd acc n v) s s.hw :=
  becomes_of_open (execI2cCmd.eq_1 acc n v s) ho (s.hw.i2cCmd_full n v hm hx)

omit v

theorem i2cRxPop_empty (hx : (s.hw.i2c n).rx = []) :
    Becomes (.i2cRxPop acc n) s { s.hw with busData := Config.freeValue s.hw.freeCtr &&& 0xFF, freeCtr := s.hw.freeCtr + 1 } :=
  becomes_of_open (execI2cRxPop.eq_1 acc n s) ho (congrArg Hw.answered (s.hw.i2cPop_empty n hm hx))

theorem i2cRxPop_next {b : Byte} {l : List Byte} (hx : (s.hw.i2c n).rx = b :: l) (hy : (s.hw.i2c n).tout = 0 ∨ (s.hw.i2c n).cmds = []) :
    Completes (.i2cRxPop acc n) s (fun t => t.busData.toNat = b.toNat ∧
      t.i2c n = { s.hw.i2c n with rx := l ++ (s.hw.i2c n).tin.take (8 - l.length), tin := (s.hw.i2c n).tin.drop (8 - l.length) } ∧
      t.regs = mcanon resetWord s.hw.regs) := by
  have hgo : Becomes (.i2cRxPop acc n) s _ := becomes_of_open (execI2cRxPop.eq_1 acc n s) ho (congrArg Hw.answered (s.hw.i2cPop_next n hm hx))
  refine hgo.completes ⟨?_, ?_, rfl⟩
  · rw [Hw.busData_canon]
    exact BitVec.toNat_setWidth_of_le (by decide)
  · rw [Hw.i2c_canon, Hw.answered_i2c, Hw.setI2c_i2c]
    exact I2c.serve_receives l hy

theorem i2cClear_frees : Becomes (.clear acc n) s (s.hw.setI2c n { s.hw.i2c n with held := false }) :=
  becomes_of_open (execClear.eq_1 acc n s) ho (s.hw.i2cClear_owned n hm)

end

end

end Sys2Proof.Machine

/-! The events of SPI and I2C (R347, R348, R468): frames, bytes, the target port. -/

namespace Sys2Proof.Machine

theorem Hw.on_eq (h : Hw) {f : Fld} (hf : f.wid = 1) : h.on f = decide (h.get f = 1) := by
  rw [Bool.eq_iff_iff, h.on_iff hf, decide_eq_true_iff]

/-! ### Frames of an SPI port -/

/-- The bits of a frame that sends `w`, in their order (R347). -/
def Hw.spiOrder (h : Hw) (n : Nat) (w : Word) : List Bool :=
  let l := (List.range (h.get (SPI_CFG.LEN n) + 1)).map w.getLsbD
  if h.get (SPI_CFG.LSBF n) = 1 then l else l.reverse

/-- The port is a slave. -/
abbrev Hw.spiSlave (h : Hw) (n : Nat) : Prop := h.get (SPI_CFG.SLAVE n) = 1

/-- The chip select stays asserted after a frame: CONT, and words wait (R347). -/
def Hw.spiKeeps (h : Hw) (n : Nat) : Bool := (h.spi n).sel && h.on (SPI_CFG.CONT n) && (h.spi n).tx != []

/-- The word that a frame leaves: cut to LEN + 1 bits, and 0 where no ball carries the port's data input (R468). -/
def Hw.spiWord (h : Hw) (n : Nat) (v : Word) : Word :=
  if h.get (GPIO_MUX.FN (if h.get (SPI_CFG.SLAVE n) = 1 then 29 + 7 * n else 30 + 7 * n)) = 1
  then BitVec.ofNat 32 (v.toNat % 2 ^ (h.get (SPI_CFG.LEN n) + 1)) else 0

section
variable (h : Hw) (n : Nat)

theorem Hw.spiOn_iff : h.spiOn n = true ↔ h.blockOn 0x10 = true ∧ h.get (SPI_CFG.EN n) = 1 := by
  rw [Hw.spiOn, Bool.and_eq_true, h.on_iff rfl]

theorem Hw.spiBits_eq (w : Word) : h.spiBits n w = h.spiOrder n w := if_congr (h.on_iff rfl) rfl rfl

theorem Hw.spiSel_eq : (!h.on (SPI_CFG.SLAVE n)) = decide (¬ h.spiSlave n) := by
  rw [h.on_eq rfl, decide_not]

end

section
variable {h : Hw} {n : Nat}

/-- A frame in progress, nothing to send as master or no room for what comes back: nothing starts. -/
theorem Hw.spiStart_stays (hx : (h.spi n).cur ≠ none ∨ ((h.spi n).tx = [] ∧ ¬ h.spiSlave n) ∨ (¬ h.spiSlave n ∧ 16 ≤ (h.spi n).rx.length)) :
    h.spiStart n = h := by
  have hoff : ¬ h.spiSlave n → h.on (SPI_CFG.SLAVE n) = false := fun hm => Bool.eq_false_iff.2 (mt (h.on_iff rfl).1 hm)
  unfold Hw.spiStart
  rcases hx with hcur | ⟨htx, hm⟩ | ⟨hm, hrx⟩
  · simp [Option.isSome_iff_ne_none.2 hcur]
  · simp [htx, hoff hm]
  · cases htx : (h.spi n).tx <;> simp [htx, hoff hm, Nat.not_lt.2 hrx]

theorem Hw.spiStart_sends (hcur : (h.spi n).cur = none) (hgo : h.spiSlave n ∨ (h.spi n).rx.length < 16) {e : Word} {l : List Word}
    (htx : (h.spi n).tx = e :: l) :
    h.spiStart n = h.setSpi n { h.spi n with tx := l, cur := some e, bits := h.spiOrder n e, sel := decide (¬ h.spiSlave n) } := by
  have hgo' : (h.on (SPI_CFG.SLAVE n) || decide ((h.spi n).rx.length < 16)) = true := by
    rwa [Bool.or_eq_true, h.on_iff rfl, decide_eq_true_iff]
  rw [← h.spiBits_eq, ← h.spiSel_eq]
  unfold Hw.spiStart
  simp [hcur, htx, hgo']

theorem Hw.spiStart_underruns (hcur : (h.spi n).cur = none) (hs : h.spiSlave n) (htx : (h.spi n).tx = []) :
    h.spiStart n = (h.setSpi n { h.spi n with cur := some 0, bits := h.spiOrder n 0, sel := false }).up (SPI_STAT.UDR n) := by
  rw [← h.spiBits_eq]
  unfold Hw.spiStart
  simp [hcur, htx, (h.on_iff rfl).2 hs]

theorem Hw.spiEnd_room {w : Word} (hx : (h.spi n).rx.length < 16) : h.spiEnd n w = h.setSpi n { h.spi n with
    cur := none, sel := h.spiKeeps n, rx := (h.spi n).rx ++ [BitVec.ofNat 32 (w.toNat % 2 ^ (h.get (SPI_CFG.LEN n) + 1))] } :=
  if_neg (Nat.not_le.2 hx)

theorem Hw.spiEnd_full {w : Word} (hx : 16 ≤ (h.spi n).rx.length) :
    h.spiEnd n w = (h.setSpi n { h.spi n with cur := none, sel := h.spiKeeps n }).up (SPI_STAT.OVR n) := if_pos hx

end

/-- The word as the port sees it, cut to its length, is the word that the frame leaves. -/
theorem Hw.spiWord_eq (h : Hw) (n : Nat) (v : Word) :
    BitVec.ofNat 32 ((if h.ballFn (30 + 7 * n - b2n (h.on (SPI_CFG.SLAVE n))) 1 then v else 0).toNat % 2 ^ (h.get (SPI_CFG.LEN n) + 1)) = h.spiWord n v := by
  have hball : 30 + 7 * n - b2n (h.on (SPI_CFG.SLAVE n)) = if h.get (SPI_CFG.SLAVE n) = 1 then 29 + 7 * n else 30 + 7 * n := by
    rw [h.on_eq rfl]
    by_cases hs : h.get (SPI_CFG.SLAVE n) = 1 <;> simp only [hs, decide_true, decide_false, Bool.false_eq_true, if_true, if_false, b2n] <;> omega
  rw [hball]
  unfold Hw.spiWord Hw.ballFn
  by_cases hw : h.get (GPIO_MUX.FN (if h.get (SPI_CFG.SLAVE n) = 1 then 29 + 7 * n else 30 + 7 * n)) = 1
  · rw [if_pos hw, if_pos (decide_eq_true hw)]
  · rw [if_neg hw, if_neg (by rwa [decide_eq_true_iff])]
    simp

section
variable {s : State} {n : Fin 4} {v : Word}

/-- SPI port `n` has its clock and is enabled. -/
abbrev Hw.spiRuns (h : Hw) (n : Nat) : Prop := h.blockOn 0x10 = true ∧ h.get (SPI_CFG.EN n) = 1

/-- A ball carries SCK of port `n`. -/
abbrev Hw.spiClocked (h : Hw) (n : Nat) : Prop := h.get (GPIO_MUX.FN (28 + 7 * n)) = 1

theorem spiFrameStart_iff : (s.hw.spiOn n && (s.hw.ballFn (28 + 7 * n) 1 || !s.hw.on (SPI_CFG.SLAVE n))) = true ↔
    s.hw.spiRuns n ∧ (s.hw.spiClocked n ∨ ¬ s.hw.spiSlave n) := by
  rw [Bool.and_eq_true, s.hw.spiOn_iff, Bool.or_eq_true, s.hw.spiSel_eq, decide_eq_true_iff, Hw.ballFn, decide_eq_true_iff]

theorem spiFrameStart_stays (hd : ¬ s.hw.spiRuns n ∨ (s.hw.spiSlave n ∧ ¬ s.hw.spiClocked n) ∨ (s.hw.spi n).cur ≠ none ∨
    ((s.hw.spi n).tx = [] ∧ ¬ s.hw.spiSlave n) ∨ (¬ s.hw.spiSlave n ∧ 16 ≤ (s.hw.spi n).rx.length)) : Becomes (.spiFrameStart n) s s.hw := by
  by_cases hgo : s.hw.spiRuns n ∧ (s.hw.spiClocked n ∨ ¬ s.hw.spiSlave n)
  · have hstays := hd.elim (absurd hgo.1) fun hd => hd.elim (fun hd => hgo.2.elim (absurd · hd.2) (absurd hd.1)) id
    exact becomes_of_when (execSpiFrameStart.eq_1 n s) (spiFrameStart_iff.2 hgo) (Hw.spiStart_stays hstays)
  · exact becomes_of_when_not (execSpiFrameStart.eq_1 n s) (Bool.eq_false_iff.2 (mt spiFrameStart_iff.1 hgo))

theorem spiFrameStart_sends (hr : s.hw.spiRuns n) (hcur : (s.hw.spi n).cur = none)
    (hgo : (s.hw.spiSlave n ∧ s.hw.spiClocked n) ∨ (¬ s.hw.spiSlave n ∧ (s.hw.spi n).rx.length < 16)) {e : Word} {l : List Word}
    (htx : (s.hw.spi n).tx = e :: l) : Completes (.spiFrameStart n) s (fun t =>
      t.spi n = { s.hw.spi n with tx := l, cur := some e, bits := s.hw.spiOrder n e, sel := decide (¬ s.hw.spiSlave n) } ∧
      t.get (SPI_STAT.TXLVL n) = l.length % 32 ∧ t.get (SPI_STAT.UDR n) = s.hw.get (SPI_STAT.UDR n)) := by
  have hclock : s.hw.spiClocked n ∨ ¬ s.hw.spiSlave n := hgo.imp And.right And.left
  have hstart := Hw.spiStart_sends hcur (hgo.imp And.left And.right) htx
  have hb : Becomes (.spiFrameStart n) s _ := becomes_of_when (execSpiFrameStart.eq_1 n s) (spiFrameStart_iff.2 ⟨hr, hclock⟩) hstart
  refine hb.completes ⟨?_, ?_, ?_⟩
  · rw [Hw.spi_canon, Hw.setSpi_spi]
  · rw [Hw.get_canon, Hw.setSpi_txlvl]
  · rw [Hw.get_canon, Hw.setSpi_udr]

theorem spiFrameStart_underruns (hr : s.hw.spiRuns n) (hcur : (s.hw.spi n).cur = none) (hs : s.hw.spiSlave n) (hc : s.hw.spiClocked n)
    (htx : (s.hw.spi n).tx = []) : Completes (.spiFrameStart n) s (fun t =>
      t.spi n = { s.hw.spi n with cur := some 0, bits := s.hw.spiOrder n 0, sel := false } ∧ t.get (SPI_STAT.UDR n) = 1) := by
  have hb : Becomes (.spiFrameStart n) s _ :=
    becomes_of_when (execSpiFrameStart.eq_1 n s) (spiFrameStart_iff.2 ⟨hr, .inl hc⟩) (Hw.spiStart_underruns hcur hs htx)
  refine hb.completes ⟨?_, ?_⟩
  · rw [Hw.spi_canon, Hw.up, Hw.spi_set, Hw.setSpi_spi]
  · rw [Hw.get_canon]
    exact Hw.get_set_self _ _ _ (show 16 + 1 ≤ 32 by decide)

theorem spiFrameEnd_iff : (s.hw.spiOn n && (s.hw.spi n).cur.isSome) = true ↔ s.hw.spiRuns n ∧ (s.hw.spi n).cur ≠ none := by
  rw [Bool.and_eq_true, s.hw.spiOn_iff, Option.isSome_iff_ne_none]

theorem spiFrameEnd_idle (hd : ¬ s.hw.spiRuns n ∨ (s.hw.spi n).cur = none) : Becomes (.spiFrameEnd n v) s s.hw := by
  refine becomes_of_when_not (execSpiFrameEnd.eq_1 n v s) (Bool.eq_false_iff.2 (mt spiFrameEnd_iff.1 ?_))
  rintro ⟨hr, hcur⟩
  exact hd.elim (· hr) hcur

section
variable (hr : s.hw.spiRuns n) (hcur : (s.hw.spi n).cur ≠ none)
include hr hcur

theorem spiFrameEnd_room (hx : (s.hw.spi n).rx.length < 16) : Completes (.spiFrameEnd n v) s (fun t =>
    t.spi n = { s.hw.spi n with cur := none, sel := s.hw.spiKeeps n, rx := (s.hw.spi n).rx ++ [s.hw.spiWord n v] } ∧
    t.get (SPI_STAT.OVR n) = s.hw.get (SPI_STAT.OVR n)) := by
  have hb : Becomes (.spiFrameEnd n v) s _ := becomes_of_when (execSpiFrameEnd.eq_1 n v s) (spiFrameEnd_iff.2 ⟨hr, hcur⟩) (Hw.spiEnd_room hx)
  refine hb.completes ⟨?_, ?_⟩
  · rw [Hw.spi_canon, Hw.setSpi_spi, Hw.spiWord_eq]
  · rw [Hw.get_canon, Hw.setSpi_ovr]

theorem spiFrameEnd_full (hx : 16 ≤ (s.hw.spi n).rx.length) : Completes (.spiFrameEnd n v) s (fun t =>
    t.spi n = { s.hw.spi n with cur := none, sel := s.hw.spiKeeps n } ∧ t.get (SPI_STAT.OVR n) = 1) := by
  have hb : Becomes (.spiFrameEnd n v) s _ := becomes_of_when (execSpiFrameEnd.eq_1 n v s) (spiFrameEnd_iff.2 ⟨hr, hcur⟩) (Hw.spiEnd_full hx)
  refine hb.completes ⟨?_, ?_⟩
  · rw [Hw.spi_canon, Hw.up, Hw.spi_set, Hw.setSpi_spi]
  · rw [Hw.get_canon]
    exact Hw.get_set_self _ _ _ (show 17 + 1 ≤ 32 by decide)

end

end

/-! ### Bytes of an I2C controller -/

/-- I2C port `n` has its clock and is enabled. -/
abbrev Hw.i2cRuns (h : Hw) (n : Nat) : Prop := h.blockOn 0x11 = true ∧ h.get (I2C_CFG.EN n) = 1

/-- Balls carry SCL, or SDA, of port `n`. -/
abbrev Hw.sclWired (h : Hw) (n : Nat) : Prop := h.get (GPIO_MUX.FN (56 + 2 * n)) = 1
abbrev Hw.sdaWired (h : Hw) (n : Nat) : Prop := h.get (GPIO_MUX.FN (57 + 2 * n)) = 1

theorem Hw.i2cOn_iff (h : Hw) (n : Nat) : h.i2cOn n = true ↔ h.i2cRuns n := by
  rw [Hw.i2cOn, Bool.and_eq_true, h.on_iff rfl]

section
variable {h : Hw} {n : Nat} {nack arb : Bool} {b : Byte} {e : Word} {l : List Word}

theorem Hw.i2cDone_none (hc : (h.i2c n).cmds = []) : h.i2cDone n nack arb b = h := by
  unfold Hw.i2cDone
  simp [hc]

/-- With neither START nor the bus held the command waits. -/
theorem Hw.i2cDone_waits (hc : (h.i2c n).cmds = e :: l) (hs : e.getLsbD 8 = false) (hh : (h.i2c n).held = false) : h.i2cDone n nack arb b = h := by
  unfold Hw.i2cDone
  simp only [hc, hs, hh, Bool.not_false, Bool.and_self, if_true]

section
variable (hc : (h.i2c n).cmds = e :: l) (hs : e.getLsbD 8 = true ∨ (h.i2c n).held = true)
include hc hs

theorem Hw.i2cDone_begun : h.i2cDone n nack arb b =
    if arb then (h.setI2c n { h.i2c n with cmds := [], held := false }).up (I2C_STAT.ARBLOST n)
    else
      let x := if e.getLsbD 10 then h.i2c n else { h.i2c n with sent := [e.truncate 8] }
      if nack && !e.getLsbD 10 then (h.setI2c n { x with cmds := [], held := false }).up (I2C_STAT.NACKED n)
      else
        let k := h.setI2c n { x with cmds := l, held := !e.getLsbD 9 }
        (if e.getLsbD 10 then k.i2cStore n b else k).up (I2C_STAT.DONE n) := by
  have hgo : (!e.getLsbD 8 && !(h.i2c n).held) = false := by rcases hs with hs | hs <;> simp [hs]
  unfold Hw.i2cDone
  simp only [hc, hgo, Bool.false_eq_true, if_false]

theorem Hw.i2cDone_lost : h.i2cDone n nack true b = (h.setI2c n { h.i2c n with cmds := [], held := false }).up (I2C_STAT.ARBLOST n) :=
  (Hw.i2cDone_begun hc hs).trans (if_pos rfl)

theorem Hw.i2cDone_nacked (hw : e.getLsbD 10 = false) : h.i2cDone n true false b =
    (h.setI2c n { h.i2c n with cmds := [], held := false, sent := [e.truncate 8] }).up (I2C_STAT.NACKED n) := by
  rw [Hw.i2cDone_begun hc hs, hw]
  rfl

theorem Hw.i2cDone_written (hw : e.getLsbD 10 = false) : h.i2cDone n false false b =
    (h.setI2c n { h.i2c n with cmds := l, held := !e.getLsbD 9, sent := [e.truncate 8] }).up (I2C_STAT.DONE n) := by
  rw [Hw.i2cDone_begun hc hs, hw]
  rfl

theorem Hw.i2cDone_read (hr : e.getLsbD 10 = true) : h.i2cDone n nack false b =
    ((h.setI2c n { h.i2c n with cmds := l, held := !e.getLsbD 9 }).i2cStore n b).up (I2C_STAT.DONE n) := by
  rw [Hw.i2cDone_begun hc hs, hr]
  cases nack <;> rfl

end

theorem Hw.i2cStore_room (hx : (h.i2c n).rx.length < 8) : h.i2cStore n b = h.setI2c n { h.i2c n with rx := (h.i2c n).rx ++ [b] } :=
  if_neg (Nat.not_le.2 hx)

theorem Hw.i2cStore_full (hx : 8 ≤ (h.i2c n).rx.length) : h.i2cStore n b = h.up (I2C_STAT.OVR n) := if_pos hx

end

section
variable {s : State} {n : Fin 4} {nack arb : Bool} {b : Byte}

/-- How a byte ends as the port sees it: without a ball for SDA it reads 1 (R468). -/
def Hw.seenNack (h : Hw) (n : Nat) (nack : Bool) : Bool := nack || !decide (h.sdaWired n)
def Hw.seenArb (h : Hw) (n : Nat) (arb : Bool) : Bool := arb && decide (h.sdaWired n)
def Hw.seenByte (h : Hw) (n : Nat) (b : Byte) : Byte := if h.sdaWired n then b else 0xFF

theorem i2cByteDone_iff : (s.hw.i2cOn n && !s.hw.on (I2C_CFG.TARGET n)) = true ↔ s.hw.i2cRuns n ∧ ¬ s.hw.get (I2C_CFG.TARGET n) = 1 := by
  rw [Bool.and_eq_true, s.hw.i2cOn_iff, Bool.not_eq_true', ← Bool.not_eq_true, s.hw.on_iff rfl]

theorem i2cByteDone_becomes (hr : s.hw.i2cRuns n) (ht : ¬ s.hw.get (I2C_CFG.TARGET n) = 1) :
    Becomes (.i2cByteDone n nack arb b) s (s.hw.i2cDone n (s.hw.seenNack n nack) (s.hw.seenArb n arb) (s.hw.seenByte n b)) := by
  refine becomes_of_when (execI2cByteDone.eq_1 n nack arb b s) (i2cByteDone_iff.2 ⟨hr, ht⟩) ?_
  unfold Hw.seenNack Hw.seenArb Hw.seenByte Hw.sdaBall Hw.ballFn
  by_cases hsda : s.hw.sdaWired n
  · rw [if_pos (decide_eq_true hsda), if_pos hsda, decide_eq_true hsda, Bool.not_true, Bool.or_false, Bool.and_true]
  · rw [if_neg (by rwa [decide_eq_true_iff]), if_neg hsda, decide_eq_false hsda, Bool.not_false, Bool.or_true, Bool.and_false]

theorem i2cByteDone_idle (hd : ¬ s.hw.i2cRuns n ∨ s.hw.get (I2C_CFG.TARGET n) = 1 ∨ (s.hw.i2c n).cmds = []) :
    Becomes (.i2cByteDone n nack arb b) s s.hw := by
  by_cases hgo : s.hw.i2cRuns n ∧ ¬ s.hw.get (I2C_CFG.TARGET n) = 1
  · have hc := (hd.resolve_left (not_not.2 hgo.1)).resolve_left hgo.2
    have hb : Becomes (.i2cByteDone n nack arb b) s _ := i2cByteDone_becomes hgo.1 hgo.2
    rwa [Hw.i2cDone_none hc] at hb
  · exact becomes_of_when_not (execI2cByteDone.eq_1 n nack arb b s) (Bool.eq_false_iff.2 (mt i2cByteDone_iff.1 hgo))

section
variable {e : Word} {l : List Word} (hr : s.hw.i2cRuns n) (ht : ¬ s.hw.get (I2C_CFG.TARGET n) = 1) (hc : (s.hw.i2c n).cmds = e :: l)
include hr ht hc

theorem i2cByteDone_waits (hs : e.getLsbD 8 = false) (hh : (s.hw.i2c n).held = false) : Becomes (.i2cByteDone n nack arb b) s s.hw := by
  have hb : Becomes (.i2cByteDone n nack arb b) s _ := i2cByteDone_becomes hr ht
  rwa [Hw.i2cDone_waits hc hs hh] at hb

section
variable (hs : e.getLsbD 8 = true ∨ (s.hw.i2c n).held = true)
include hs

theorem i2cByteDone_lost (ha : s.hw.seenArb n arb = true) : Becomes (.i2cByteDone n nack arb b) s
    ((s.hw.setI2c n { s.hw.i2c n with cmds := [], held := false }).set (I2C_STAT.ARBLOST n) 1) := by
  have hb : Becomes (.i2cByteDone n nack arb b) s _ := i2cByteDone_becomes hr ht
  rwa [ha, Hw.i2cDone_lost hc hs] at hb

theorem i2cByteDone_nacked (ha : s.hw.seenArb n arb = false) (hn : s.hw.seenNack n nack = true) (hw : e.getLsbD 10 = false) :
    Becomes (.i2cByteDone n nack arb b) s
      ((s.hw.setI2c n { s.hw.i2c n with cmds := [], held := false, sent := [e.truncate 8] }).set (I2C_STAT.NACKED n) 1) := by
  have hb : Becomes (.i2cByteDone n nack arb b) s _ := i2cByteDone_becomes hr ht
  rwa [ha, hn, Hw.i2cDone_nacked hc hs hw] at hb

theorem i2cByteDone_written (ha : s.hw.seenArb n arb = false) (hn : s.hw.seenNack n nack = false) (hw : e.getLsbD 10 = false) :
    Completes (.i2cByteDone n nack arb b) s (fun t =>
      t.i2c n = { s.hw.i2c n with cmds := l, held := !e.getLsbD 9, sent := [e.truncate 8] } ∧ t.get (I2C_STAT.DONE n) = 1) := by
  have hb : Becomes (.i2cByteDone n nack arb b) s _ := i2cByteDone_becomes hr ht
  rw [ha, hn, Hw.i2cDone_written hc hs hw] at hb
  refine hb.completes ⟨?_, ?_⟩
  · rw [Hw.i2c_canon, Hw.up, Hw.i2c_set, Hw.setI2c_i2c]
  · rw [Hw.get_canon]
    exact Hw.get_set_self _ _ _ (show 0 + 1 ≤ 32 by decide)

theorem i2cByteDone_read (ha : s.hw.seenArb n arb = false) (hw : e.getLsbD 10 = true) (hx : (s.hw.i2c n).rx.length < 8) :
    Completes (.i2cByteDone n nack arb b) s (fun t =>
      t.i2c n = { s.hw.i2c n with cmds := l, held := !e.getLsbD 9, rx := (s.hw.i2c n).rx ++ [s.hw.seenByte n b] } ∧ t.get (I2C_STAT.DONE n) = 1) := by
  have hb : Becomes (.i2cByteDone n nack arb b) s _ := i2cByteDone_becomes hr ht
  rw [ha, Hw.i2cDone_read hc hs hw, Hw.i2cStore_room (by rwa [Hw.setI2c_i2c])] at hb
  refine hb.completes ⟨?_, ?_⟩
  · rw [Hw.i2c_canon, Hw.up, Hw.i2c_set, Hw.setI2c_i2c, Hw.setI2c_i2c]
  · rw [Hw.get_canon]
    exact Hw.get_set_self _ _ _ (show 0 + 1 ≤ 32 by decide)

theorem i2cByteDone_overruns (ha : s.hw.seenArb n arb = false) (hw : e.getLsbD 10 = true) (hx : 8 ≤ (s.hw.i2c n).rx.length) :
    Completes (.i2cByteDone n nack arb b) s (fun t =>
      t.i2c n = { s.hw.i2c n with cmds := l, held := !e.getLsbD 9 } ∧ t.reads [(I2C_STAT.DONE n, 1), (I2C_STAT.OVR n, 1)]) := by
  have hb : Becomes (.i2cByteDone n nack arb b) s _ := i2cByteDone_becomes hr ht
  rw [ha, Hw.i2cDone_read hc hs hw, Hw.i2cStore_full (by rwa [Hw.setI2c_i2c])] at hb
  have hapart : (I2C_STAT.DONE n).apart (I2C_STAT.OVR n) = true := by simp [Fld.apart, I2C_STAT.DONE, I2C_STAT.OVR]
  refine hb.completes ⟨?_, ?_⟩
  · rw [Hw.i2c_canon, Hw.up, Hw.i2c_set, Hw.up, Hw.i2c_set, Hw.setI2c_i2c]
  · unfold Hw.reads
    simp only [List.forall_mem_cons, List.not_mem_nil, false_implies, implies_true, and_true, Hw.get_canon]
    refine ⟨Hw.get_set_self _ _ _ (show 0 + 1 ≤ 32 by decide), ?_⟩
    exact (Hw.get_set_of_apart _ _ _ _ hapart).trans (Hw.get_set_self _ _ _ (show 5 + 1 ≤ 32 by decide))

end

end

/-! ### SCL stuck, and the target port -/

theorem sclStuck_iff : (s.hw.i2cOn n && s.hw.sclBall n) = true ↔ s.hw.i2cRuns n ∧ s.hw.sclWired n := by
  rw [Bool.and_eq_true, s.hw.i2cOn_iff, Hw.sclBall, Hw.ballFn, decide_eq_true_iff]

theorem sclStuck_unseen (hd : ¬ (s.hw.i2cRuns n ∧ s.hw.sclWired n)) : Becomes (.sclStuck n) s s.hw :=
  becomes_of_when_not (execSclStuck.eq_1 n s) (Bool.eq_false_iff.2 (mt sclStuck_iff.1 hd))

theorem sclStuck_sets (hr : s.hw.i2cRuns n) (hw : s.hw.sclWired n) : Becomes (.sclStuck n) s (s.hw.set (I2C_STAT.SCL_STUCK n) 1) :=
  becomes_of_when (execSclStuck.eq_1 n s) (sclStuck_iff.2 ⟨hr, hw⟩) rfl

/-- The address on the bus, where one is given, is the port's own (R348). -/
def Hw.i2cNamed (h : Hw) (n : Nat) (adr : Option (Bool × BitVec 10)) : Prop :=
  ∀ a, adr = some a → h.get (I2C_CFG.ADDR10 n) = b2n a.1 ∧
    (if a.1 then a.2.toNat = h.get (I2C_CFG.ADDR n) else a.2.toNat % 128 = h.get (I2C_CFG.ADDR n) % 128)

/-- The target port answers: it runs, sees the bus, stretches nothing and is addressed. -/
def Hw.i2cAddressed (h : Hw) (n : Nat) (adr : Option (Bool × BitVec 10)) : Prop :=
  h.i2cRuns n ∧ h.get (I2C_CFG.TARGET n) = 1 ∧ h.sclWired n ∧ h.sdaWired n ∧ (h.i2c n).tin = [] ∧ (h.i2c n).tout = 0 ∧ h.i2cNamed n adr

theorem Hw.i2cOwn_iff (h : Hw) (n : Nat) (ten : Bool) (a : BitVec 10) : h.i2cOwn n ten a = true ↔ h.get (I2C_CFG.ADDR10 n) = b2n ten ∧
    (if ten then a.toNat = h.get (I2C_CFG.ADDR n) else a.toNat % 128 = h.get (I2C_CFG.ADDR n) % 128) := by
  have hbit : (h.on (I2C_CFG.ADDR10 n) == ten) = true ↔ h.get (I2C_CFG.ADDR10 n) = b2n ten := by
    have hlt : h.get (I2C_CFG.ADDR10 n) < 2 := h.get_lt (I2C_CFG.ADDR10 n)
    rw [beq_iff_eq, h.on_eq rfl]
    cases ten with
    | true => simp [b2n]
    | false =>
      simp [b2n]
      omega
  rw [Hw.i2cOwn, Bool.and_eq_true, hbit]
  cases ten <;> simp

theorem Hw.i2cNamed_iff (h : Hw) (n : Nat) (adr : Option (Bool × BitVec 10)) : adr.all (fun a => h.i2cOwn n a.1 a.2) = true ↔ h.i2cNamed n adr := by
  simp only [Option.all_eq_true, h.i2cOwn_iff, Hw.i2cNamed]

theorem i2cAddressed_iff {adr : Option (Bool × BitVec 10)} :
    (s.hw.i2cOn n && s.hw.on (I2C_CFG.TARGET n) && s.hw.sclBall n && s.hw.sdaBall n && !(s.hw.i2c n).stretches &&
      adr.all (fun a => s.hw.i2cOwn n a.1 a.2)) = true ↔ s.hw.i2cAddressed n adr := by
  have hfree : (!(s.hw.i2c n).stretches) = true ↔ (s.hw.i2c n).tin = [] ∧ (s.hw.i2c n).tout = 0 := by simp [I2c.stretches]
  simp only [Bool.and_eq_true, s.hw.i2cOn_iff, s.hw.on_iff (f := I2C_CFG.TARGET n) rfl, Hw.sclBall, Hw.sdaBall, Hw.ballFn, decide_eq_true_iff,
    hfree, s.hw.i2cNamed_iff, and_assoc, Hw.i2cAddressed]

theorem i2cTargetAddressed_unseen {bs : List Byte} {k : Nat} {adr : Option (Bool × BitVec 10)} (hd : ¬ s.hw.i2cAddressed n adr) :
    Becomes (.i2cTargetAddressed n bs k adr) s s.hw :=
  becomes_of_when_not (execI2cTargetAddressed.eq_1 n bs k s adr) (Bool.eq_false_iff.2 (mt i2cAddressed_iff.1 hd))

theorem i2cTargetAddressed_becomes {bs : List Byte} {k : Nat} {adr : Option (Bool × BitVec 10)} (ha : s.hw.i2cAddressed n adr) :
    Becomes (.i2cTargetAddressed n bs k adr) s (s.hw.i2cTarget n bs k) :=
  becomes_of_when (execI2cTargetAddressed.eq_1 n bs k s adr) (i2cAddressed_iff.2 ha) rfl

end

end Sys2Proof.Machine

/-! UART, SPI and I2C: the statement, from the cases above. -/

namespace Sys2Proof.Machine

/-- An access with another TID changes nothing, and reads 0 (R37, R485). -/
theorem uart_unowned {s : State} {acc : Access} {u : Fin 7} (hr : s.hw.uartReach acc u) (v : Word) (baud on : Bool) (hm : ¬ owns acc (s.hw.uartOwner u)) :
    Becomes (.uartTxPush acc u v) s s.hw ∧ Becomes (.uartRxPop acc u) s { s.hw with busData := 0 } ∧ Becomes (.uartCfgWrite acc u baud v) s s.hw ∧
    Becomes (.rxflush acc u) s s.hw ∧ Becomes (.txflush acc u) s s.hw ∧ Becomes (.uartBreak acc u on) s s.hw :=
  ⟨becomes_of_uart (execUartTxPush.eq_1 acc u v s) hr (s.hw.uartPush_unowned v hm),
   becomes_of_uart (execUartRxPop.eq_1 acc u s) hr (congrArg Hw.answered (s.hw.uartPop_unowned hm)),
   becomes_of_uart (execUartCfgWrite.eq_1 acc u baud v s) hr (s.hw.uartCfg_unowned v hm baud),
   becomes_of_uart (execRxflush.eq_1 acc u s) hr (s.hw.uartCtl_unowned _ hm),
   becomes_of_uart (execTxflush.eq_1 acc u s) hr (s.hw.uartCtl_unowned _ hm),
   becomes_of_uart (execUartBreak.eq_1 acc u on s) hr (s.hw.uartCtl_unowned _ hm)⟩

/-- An access that does not reach the unit. -/
theorem uart_shut {s : State} {acc : Access} {u : Fin 7} (hr : ¬ s.hw.uartReach acc u) (v : Word) (baud on : Bool) :
    ∀ i ∈ [Instr.uartTxPush acc u v, .uartRxPop acc u, .uartCfgWrite acc u baud v, .rxflush acc u, .txflush acc u, .uartBreak acc u on],
      (6 ≤ u.val ∧ acc.who = .polder → Becomes i s s.hw) ∧ (¬ (6 ≤ u.val ∧ acc.who = .polder) → Becomes i s (s.hw.shutTo acc)) := by
  simp only [List.forall_mem_cons, List.not_mem_nil, false_implies, implies_true, and_true]
  exact ⟨becomes_of_uart_shut (execUartTxPush.eq_1 acc u v s) hr, becomes_of_uart_shut (execUartRxPop.eq_1 acc u s) hr,
    becomes_of_uart_shut (execUartCfgWrite.eq_1 acc u baud v s) hr, becomes_of_uart_shut (execRxflush.eq_1 acc u s) hr,
    becomes_of_uart_shut (execTxflush.eq_1 acc u s) hr, becomes_of_uart_shut (execUartBreak.eq_1 acc u on s) hr⟩

/-- Settles O49: each clause is a command's own case, on units that run, to accesses that reach them. -/
theorem uartSpiAndI2cMoveTheirCharacters : Obligations.UartSpiAndI2cMoveTheirCharacters := by
  unfold Obligations.UartSpiAndI2cMoveTheirCharacters
  refine ⟨fun s acc u v baud on => ⟨fun hr => uart_shut hr v baud on, fun hr hm => uart_unowned hr v baud on hm, fun hr hm => ?uartAccesses⟩,
    fun s u cts bad d par stop => ?uartEvents,
    fun s acc n v ho => ⟨fun hm => spi_unowned v ho hm, fun hm => ?spiAccesses, fun hm => i2c_unowned v ho hm, fun hm => ?i2cAccesses⟩,
    fun s n v nack arb b bs k adr => ?ports⟩
  case uartAccesses =>
    exact ⟨uartTxPush_room hr hm, fun hx => becomes_of_uart (execUartTxPush.eq_1 acc u v s) hr (s.hw.uartPush_full v hm hx), uartRxPop_empty hr hm,
      fun w l hx => uartRxPop_next hr hm hx, fun hen => uartCfgWrite_running hr hm hen baud,
      fun hen hb hv => hb ▸ uartCfgWrite_baud hr hm hen hv, fun hen hb => hb ▸ uartCfgWrite_cfg hr hm hen,
      rxflush_completes hr hm, txflush_completes hr hm, uartBreak_completes hr hm on⟩
  case uartEvents =>
    refine ⟨characterStart_idle, fun hs e l hx => characterStart_completes hs hx, characterSent_idle, characterSent_completes, startDetect_deaf,
      fun hh hrecv => ⟨fun hb => hb ▸ startDetect_glitch hh hrecv, fun hb => hb ▸ startDetect_completes hh hrecv⟩, frameReceived_idle,
      fun hr hrecv => ?_, rxto_idle, rxto_due⟩
    obtain ⟨t, hgo, hquiet, htx, ⟨hpe, hfe, hbrk⟩, hroom, hfull⟩ := frameReceived_completes (d := d) (par := par) (stop := stop) hr hrecv
    exact ⟨t, hgo, hquiet, htx, hpe, hfe, hbrk, hroom, hfull⟩
  case spiAccesses =>
    exact ⟨spiTxPush_room v ho hm, spiTxPush_full v ho hm, spiRxPop_empty ho hm, fun w l hx => spiRxPop_next ho hm hx⟩
  case i2cAccesses =>
    exact ⟨i2cCmd_queues v ho hm, fun hx hin k hout => i2cCmd_sends v ho hm hx hin hout, i2cCmd_full v ho hm, i2cRxPop_empty ho hm,
      fun b l hx hy => i2cRxPop_next ho hm hx hy, i2cClear_frees ho hm⟩
  case ports =>
    exact ⟨spiFrameStart_stays, fun hr hcur hgo e l htx => spiFrameStart_sends hr hcur hgo htx, spiFrameStart_underruns, spiFrameEnd_idle,
      fun hr hcur => ⟨spiFrameEnd_room hr hcur, spiFrameEnd_full hr hcur⟩, i2cByteDone_idle,
      fun hr ht e l hc => ⟨i2cByteDone_waits hr ht hc, fun hs => ⟨i2cByteDone_lost hr ht hc hs, i2cByteDone_nacked hr ht hc hs,
        i2cByteDone_written hr ht hc hs, i2cByteDone_read hr ht hc hs, i2cByteDone_overruns hr ht hc hs⟩⟩,
      sclStuck_unseen, sclStuck_sets, i2cTargetAddressed_unseen, i2cTargetAddressed_becomes⟩

end Sys2Proof.Machine

/-! The commands of the life-cycle block before their own action, and a direct advance of a tally (spec/05_lifecycle.md). -/

namespace Sys2Proof.Machine

/-! ### Accesses that a permission opens -/

/-- An access that its permission lets through acts on the part. -/
theorem becomes_of_busTo {i : Instr} {s : State} {acc : Access} {may : Hw → Bool} {f : Hw → Hw} {k : Hw} (hi : exec i s = s.onBusTo acc may f)
    (ho : s.hw.opensTo acc (may s.hw) = true) (hk : f s.hw = k) : Becomes i s k := by
  rw [Becomes, hi, State.onBusTo, State.run, if_pos ho, hk]

/-- The debug port's access without its permission leaves PERM in FSD_FAULT (R442). -/
theorem becomes_of_busTo_perm {i : Instr} {s : State} {acc : Access} {may : Hw → Bool} {f : Hw → Hw} (hi : exec i s = s.onBusTo acc may f)
    (hc : s.hw.clocked = true) (hw : acc.who = .debug) (hh : s.hw.busHeld .debug = false) (hm : may s.hw = false) :
    Becomes i s (s.hw.set DBG_STAT.FSD_FAULT 1) := by
  have hshut : ¬ s.hw.opensTo acc (may s.hw) = true := by simp [Hw.opensTo, fromDebug, hw, hm]
  rw [Becomes, hi, State.onBusTo, State.run, if_neg hshut]
  simp [Hw.shutTo, Hw.when, hw, hh, hc, fromPolder, fromDebug]

/-! ### Who may write LCS_CMD -/

theorem fsdAlways_lcsCmd (h : Hw) (v : Word) : h.fsdAlways LCS_CMD true v = (h.lcState != lcEol && fsdCommand v) := by
  have hn : LCS_CMD ≠ LCS_STAT ∧ LCS_CMD ≠ LCS_ARG0 ∧ ¬ LCS_MSG 0 ≤ LCS_CMD ∧ ¬ LCS_CHAL 0 ≤ LCS_CMD := by decide
  obtain ⟨hstat, harg, hmsg, hchal⟩ := hn
  simp [Hw.fsdAlways, hstat, harg, hmsg, hchal]

theorem dbgMay_lcsCmd (h : Hw) (jtag : Bool) (v : Word) :
    h.dbgMay jtag LCS_CMD true v = ((!jtag && (h.lcState != lcEol && fsdCommand v)) || h.permits 0) := by
  have hp : patchAddr LCS_CMD = false := by decide
  have hb : bistAddr LCS_CMD = false := by decide
  simp [Hw.dbgMay, fsdAlways_lcsCmd, hp, hb]

/-- Codes 5, 7 and 8 before EOL by the FSD, the others with HALT_MEM (R442). -/
theorem dbgMay_lcsCmd_iff (h : Hw) (code : Nat) : h.dbgMay h.dbg.jtag LCS_CMD true (lcsWord code) = true ↔
    (h.dbg.jtag = false ∧ h.lcState ≠ 5 ∧ LCS_CMD.CMD.of (lcsWord code) ∈ [5, 7, 8]) ∨ bitOf (h.get LCS_STAT.DBG_PERM) 0 = true := by
  simp [dbgMay_lcsCmd, fsdCommand, lcEol, Hw.permits]

/-! ### A life-cycle command by what the block finds -/

/-- A command is refused with `reason`. -/
def Hw.lcsRefused (h : Hw) (reason : Nat) : Hw :=
  h.sets [(LCS_STAT.BUSY, 0), (LCS_STAT.DONE, 1), (LCS_STAT.REASON, reason), (LCS_STAT.REFUSED, 1)]

theorem Hw.lcsEnd_refused (h : Hw) {reason : Nat} (hr : reason ≠ 0) : h.lcsEnd reason = h.lcsRefused reason := by
  rw [Hw.lcsEnd, Hw.upIf, if_pos (bne_iff_ne.mpr hr)]
  rfl

theorem lcsBusy_on (h : Hw) : h.on LCS_STAT.BUSY = true ↔ h.get LCS_STAT.BUSY = 1 := h.on_iff rfl

section
variable {h : Hw} {acc : Access}

theorem lcsBusy_off (hb : h.get LCS_STAT.BUSY = 0) : ¬ h.on LCS_STAT.BUSY = true := by
  rw [lcsBusy_on, hb]; decide

theorem lcsCmd_busy (hb : h.get LCS_STAT.BUSY = 1) (code : Nat) : h.lcsCmd acc code = h.set LCS_STAT.COLLIDE 1 :=
  if_pos ((lcsBusy_on h).mpr hb)

theorem lcsCmd_notT0 (hb : h.get LCS_STAT.BUSY = 0) (ht : acc.tid ≠ 0) (code : Nat) : h.lcsCmd acc code = h.lcsRefused 5 := by
  rw [Hw.lcsCmd, if_neg (lcsBusy_off hb), if_pos (bne_iff_ne.mpr ht)]
  exact h.lcsEnd_refused (by decide)

/-- From T0 with the block free, the code decides (R126). -/
theorem lcsCmd_t0 (hb : h.get LCS_STAT.BUSY = 0) (ht : acc.tid = 0) (code : Nat) : h.lcsCmd acc code =
    if !lcsNamed code then h.lcsEnd lrBadArg
    else if !(lcsAccepts h.lcState).contains code then h.lcsEnd lrWrongState else h.lcsAct (h.auditBy acc) code := by
  rw [Hw.lcsCmd, if_neg (lcsBusy_off hb), if_neg (by simp [ht])]

theorem lcsCmd_reserved (hb : h.get LCS_STAT.BUSY = 0) (ht : acc.tid = 0) {code : Nat} (hn : lcsNamed code = false) :
    h.lcsCmd acc code = h.lcsRefused 0xC := by
  rw [lcsCmd_t0 hb ht, if_pos (by rw [hn]; rfl)]
  exact h.lcsEnd_refused (by decide)

theorem lcsCmd_wrongState (hb : h.get LCS_STAT.BUSY = 0) (ht : acc.tid = 0) {code : Nat} (hn : lcsNamed code = true)
    (hs : (lcsAccepts h.lcState).contains code = false) : h.lcsCmd acc code = h.lcsRefused 1 := by
  rw [lcsCmd_t0 hb ht, if_neg (by rw [hn]; decide), if_pos (by rw [hs]; rfl)]
  exact h.lcsEnd_refused (by decide)

end

/-- A state whose row lists a code accepts it: the states of `row` are all that do. -/
def lcsRowStates (code : Nat) (row : List Nat) : Bool :=
  lcsNamed code && [1, 2, 3, 4].all (fun st => row.contains st || !(lcsAccepts st).contains code)

theorem lcsAccepts_beside {code : Nat} {row : List Nat} (hr : lcsRowStates code row = true) {st : Nat} (hs : st ∉ row) :
    (lcsAccepts st).contains code = false := by
  have hst : st ∉ [1, 2, 3, 4] → lcsAccepts st = [] := by
    intro h
    unfold lcsAccepts
    split <;> simp_all
  by_cases h : st ∈ [1, 2, 3, 4]
  · have := List.all_eq_true.mp (Bool.and_eq_true_iff.mp hr).2 st h
    simpa [hs] using this
  · rw [hst h]; rfl

/-- The commands of the table "LCS commands", each with its code and the states whose row lists it. -/
def lcsRows (acc : Access) : List (Instr × Nat × List Nat) :=
  [(.setOwnerKey acc, 1, [1, 2]), (.setDebugKey acc, 2, [1, 2, 3]), (.toTest acc, 3, [1]), (.toProd acc, 4, [2, 4]),
    (.enterRtest acc, 5, [3]), (.scrap acc, 6, [1, 2, 3, 4]), (.dbgRequest acc, 7, [3]), (.dbgResponse acc, 8, [3]), (.dbgRevoke acc, 9, [3]),
    (.trkRotate acc, 0xA, [2, 3]), (.trkDerive acc, 0xB, [2, 3]), (.calCommit acc, 0xC, [2, 3, 4]), (.auditRelease acc, 0xD, [1, 2, 3, 4])]

/-- Each is a write of LCS_CMD with its code, which the states of its row accept. -/
theorem lcsRows_exec (s : State) (acc : Access) : ∀ p ∈ lcsRows acc, exec p.1 s = s.lcsRow acc p.2.1 ∧ lcsRowStates p.2.1 p.2.2 = true := by
  simp only [lcsRows, List.forall_mem_cons, List.not_mem_nil, false_implies, implies_true, and_true]
  refine ⟨?_, ?_, ?_, ?_, ?_, ?_, ?_, ?_, ?_, ?_, ?_, ?_, ?_⟩ <;> exact ⟨rfl, rfl⟩

/-- What a row of the table "LCS commands" does before its own action. -/
theorem becomes_lcsRow {i : Instr} {s : State} {acc : Access} {code : Nat} {row : List Nat} (hi : exec i s = s.lcsRow acc code)
    (hr : lcsRowStates code row = true) (ho : s.hw.opensTo acc (s.hw.dbgMay s.hw.dbg.jtag LCS_CMD true (lcsWord code)) = true) :
    (s.hw.get LCS_STAT.BUSY = 1 → Becomes i s (s.hw.set LCS_STAT.COLLIDE 1)) ∧
    (s.hw.get LCS_STAT.BUSY = 0 → acc.tid ≠ 0 → Becomes i s (s.hw.lcsRefused 5)) ∧
    (s.hw.get LCS_STAT.BUSY = 0 → acc.tid = 0 → s.hw.lcState ∉ row → Becomes i s (s.hw.lcsRefused 1)) := by
  have hn : lcsNamed code = true := (Bool.and_eq_true_iff.mp hr).1
  refine ⟨fun hb => becomes_of_busTo hi ho (lcsCmd_busy hb code), fun hb ht => becomes_of_busTo hi ho (lcsCmd_notT0 hb ht code),
    fun hb ht hs => becomes_of_busTo hi ho (lcsCmd_wrongState hb ht hn (lcsAccepts_beside hr hs))⟩

/-- A code that the table does not name (R126). -/
theorem becomes_lcsReserved {s : State} {acc : Access} {code : Byte} (ho : s.hw.opens acc = true)
    (hcode : code.toNat = 0 ∨ 0xD < code.toNat) (hb : s.hw.get LCS_STAT.BUSY = 0) (ht : acc.tid = 0) :
    Becomes (.lcsReservedCommand acc code) s (s.hw.lcsRefused 0xC) := by
  have hn : lcsNamed code.toNat = false := by
    simp [lcsNamed]
    omega
  refine becomes_of_open (f := fun h => if lcsNamed code.toNat then h else h.lcsCmd acc code.toNat) rfl ho ?_
  rw [if_neg (by rw [hn]; decide), lcsCmd_reserved hb ht hn]

/-! ### The tally's record leaves the block's other registers alone -/

theorem claimWrite_rd (h : Hw) (n : Nat) {a : Nat} (ha : a ≠ HUB_QWAIT_CNT) : (h.claimWrite n).rd a = h.rd a := by
  have hm : (h.metTransit n).rd a = h.rd a := by
    unfold Hw.metTransit
    split
    · exact Hw.rd_set_other h _ _ _ ha
    · rfl
  unfold Hw.claimWrite
  dsimp only
  have hk : ∀ k : Hw, (k.killResv n).rd a = k.rd a := fun _ => rfl
  have hd : ∀ (k : Hw) (e : DirEnt), (k.setDir n e).rd a = k.rd a := fun _ _ => rfl
  have hr : ∀ k : Hw, (k.recallAll n).rd a = k.rd a := fun _ => rfl
  rw [hk, hd, hr, hm]

theorem claimWrites_rd (ns : List Nat) (h : Hw) {a : Nat} (ha : a ≠ HUB_QWAIT_CNT) : (ns.foldl (fun h n => h.claimWrite n) h).rd a = h.rd a := by
  induction ns generalizing h with
  | nil => rfl
  | cons n ns ih => exact (ih _).trans (claimWrite_rd h n ha)

theorem groupWrite_rd (h : Hw) (m : Nat) (bs : List Byte) {a : Nat} (ha : a ≠ HUB_QWAIT_CNT) : (h.groupWrite m bs).rd a = h.rd a :=
  claimWrites_rd _ h ha

theorem lsWrite_rd (h : Hw) (n m : Nat) (bs : List Byte) {a : Nat} (ha : a ≠ HUB_QWAIT_CNT) : (h.lsWrite n m bs).rd a = h.rd a := by
  unfold Hw.lsWrite
  split
  · rfl
  · exact groupWrite_rd h m bs ha

theorem lsPlace_rd (h : Hw) (n : Nat) (p : List Byte) {a : Nat} (ha : a ≠ HUB_QWAIT_CNT) (hl : a ≠ MRC_LS_HEAD n) :
    (h.lsPlace n p).rd a = h.rd a := by
  unfold Hw.lsPlace
  dsimp only
  exact (Hw.rd_set_other _ _ _ _ hl).trans (lsWrite_rd h n _ _ ha)

/-- A register that no audit record shows in. -/
def notAudit (a : Nat) : Prop := a ≠ HUB_QWAIT_CNT ∧ a ≠ MRC_LS_HEAD 15 ∧ a ≠ LCS_AUDIT_SEQ ∧ a ≠ LCS_AUDIT_STAT

theorem audit_rd (h : Hw) (ty : Nat) (b : AuditBy) (body : List Byte) {a : Nat} (ha : notAudit a) : (h.audit ty b body).1.rd a = h.rd a := by
  obtain ⟨hq, hl, hs, hf⟩ := ha
  unfold Hw.audit
  dsimp only
  split
  · exact Hw.rd_set_other h _ _ _ hf
  · split
    · rfl
    · exact ((Hw.rd_set_other _ _ _ _ hf).trans (Hw.rd_set_other _ _ _ _ hs)).trans (lsPlace_rd h 15 _ hq hl)

theorem notAudit_stat : notAudit LCS_STAT := by unfold notAudit; decide

/-! ### A write of LCS_TALLYn (R132) -/

theorem tallyMax_le (n : Fin 8) : tallyMax n ≤ 64 := by revert n; decide

theorem tallyAdvance_max {h : Hw} {n : Nat} (hv : tallyMax n ≤ h.get (LCS_TALLY.VALUE n)) (c : Nat) (b : AuditBy) :
    h.tallyAdvance n c b = (h, lrTallyMax) := if_pos hv

theorem tallyAdvance_full {h : Hw} {n : Nat} (hv : h.get (LCS_TALLY.VALUE n) < tallyMax n) (hf : h.auditFree = 0) (c : Nat) (b : AuditBy) :
    h.tallyAdvance n c b = (h, lrAuditFull) := by
  rw [Hw.tallyAdvance, if_neg (by omega), if_pos hf]

/-- An advance that nothing refuses: its record, then the value and the event. -/
theorem tallyAdvance_done {h : Hw} {n : Nat} (hv : h.get (LCS_TALLY.VALUE n) < tallyMax n) (hf : h.auditFree ≠ 0) (c : Nat) (b : AuditBy) :
    ∃ body, h.tallyAdvance n c b =
      ((((h.audit audTally b body).1.set (LCS_TALLY.VALUE n) (h.get (LCS_TALLY.VALUE n) + 1)).up LCS_STAT.TALLY_EVT), 0) := by
  rw [Hw.tallyAdvance, if_neg (by omega), if_neg hf]
  exact ⟨_, rfl⟩

theorem lcsEnd_ok (h : Hw) : h.lcsEnd 0 = h.sets [(LCS_STAT.BUSY, 0), (LCS_STAT.DONE, 1), (LCS_STAT.REASON, 0)] := rfl

/-- What a completed advance shows. -/
theorem advanced_reads {h k : Hw} (n : Fin 8) {v : Nat} (hv : v ≤ 64) (hk : ∀ a, notAudit a → k.rd a = h.rd a) :
    (((k.set (LCS_TALLY.VALUE n) v).up LCS_STAT.TALLY_EVT).lcsEnd 0).reads [(LCS_TALLY.VALUE n, v), (LCS_STAT.TALLY_EVT, 1), (LCS_STAT.DONE, 1),
      (LCS_STAT.BUSY, 0), (LCS_STAT.REASON, 0), (LCS_STAT.REFUSED, h.get LCS_STAT.REFUSED)] := by
  have hne : ∀ f : Fld, f.adr = LCS_STAT → f.apart (LCS_TALLY.VALUE n) = true := by
    intro f hf
    have : LCS_STAT ≠ LCS_TALLY n := by simp only [LCS_STAT, LCS_TALLY]; omega
    simp [Fld.apart, hf, LCS_TALLY.VALUE, this]
  have hback : ∀ f : Fld, f.adr = LCS_STAT → (LCS_TALLY.VALUE n).apart f = true := by
    intro f hf
    have : LCS_TALLY n ≠ LCS_STAT := by simp only [LCS_STAT, LCS_TALLY]; omega
    simp [Fld.apart, hf, LCS_TALLY.VALUE, this]
  have hold : k.get LCS_STAT.REFUSED = h.get LCS_STAT.REFUSED := by
    unfold Hw.get
    exact congrArg LCS_STAT.REFUSED.of (hk _ notAudit_stat)
  rw [lcsEnd_ok]
  simp only [Hw.reads_cons, Hw.reads_nil, and_true, Hw.sets_cons, Hw.sets_nil, Hw.up]
  refine ⟨?_, ?_, ?_, ?_, ?_, ?_⟩
  · rw [Hw.get_set_of_apart _ _ _ _ (hne _ rfl), Hw.get_set_of_apart _ _ _ _ (hne _ rfl), Hw.get_set_of_apart _ _ _ _ (hne _ rfl),
      Hw.get_set_of_apart _ _ _ _ (hne _ rfl), Hw.get_set_self _ _ _ (by decide : 0 + 8 ≤ 32)]
    exact Nat.mod_eq_of_lt (by show v < 256; omega)
  · rw [Hw.get_set_of_apart _ _ _ _ (by decide), Hw.get_set_of_apart _ _ _ _ (by decide), Hw.get_set_of_apart _ _ _ _ (by decide),
      Hw.get_set_self _ _ _ (by decide)]
    rfl
  · rw [Hw.get_set_of_apart _ _ _ _ (by decide), Hw.get_set_self _ _ _ (by decide)]
    rfl
  · rw [Hw.get_set_of_apart _ _ _ _ (by decide), Hw.get_set_of_apart _ _ _ _ (by decide), Hw.get_set_self _ _ _ (by decide)]
    rfl
  · rw [Hw.get_set_self _ _ _ (by decide)]
    rfl
  · rw [Hw.get_set_of_apart _ _ _ _ (by decide), Hw.get_set_of_apart _ _ _ _ (by decide), Hw.get_set_of_apart _ _ _ _ (by decide),
      Hw.get_set_of_apart _ _ _ _ (by decide), Hw.get_set_of_apart _ _ _ _ (hback _ rfl), hold]

section
variable {h : Hw} {acc : Access} {n : Nat} {v : Word}

theorem tallyWrite_busy (hb : h.get LCS_STAT.BUSY = 1) : h.tallyWrite acc n v = h.set LCS_STAT.COLLIDE 1 :=
  if_pos ((lcsBusy_on h).mpr hb)

theorem tallyWrite_notT0 (hb : h.get LCS_STAT.BUSY = 0) (ht : acc.tid ≠ 0) : h.tallyWrite acc n v = h.lcsRefused 5 := by
  rw [Hw.tallyWrite, if_neg (lcsBusy_off hb), if_pos (bne_iff_ne.mpr ht)]
  exact h.lcsEnd_refused (by decide)

/-- From T0 with the block free, the value asked for decides. -/
theorem tallyWrite_t0 (hb : h.get LCS_STAT.BUSY = 0) (ht : acc.tid = 0) : h.tallyWrite acc n v =
    if v.toNat % 256 != h.get (LCS_TALLY.VALUE n) + 1 then h
    else if 1 ≤ n && n ≤ 5 then h.lcsEnd lrBound
    else (h.tallyAdvance n 0 (h.auditBy acc)).1.lcsEnd (h.tallyAdvance n 0 (h.auditBy acc)).2 := by
  rw [Hw.tallyWrite, if_neg (lcsBusy_off hb), if_neg (by simp [ht])]

theorem tallyWrite_other (hb : h.get LCS_STAT.BUSY = 0) (ht : acc.tid = 0) (hv : v.toNat % 256 ≠ h.get (LCS_TALLY.VALUE n) + 1) :
    h.tallyWrite acc n v = h := by
  rw [tallyWrite_t0 hb ht, if_pos (bne_iff_ne.mpr hv)]

theorem tallyWrite_bound (hb : h.get LCS_STAT.BUSY = 0) (ht : acc.tid = 0) (hv : v.toNat % 256 = h.get (LCS_TALLY.VALUE n) + 1)
    (hn : 1 ≤ n ∧ n ≤ 5) : h.tallyWrite acc n v = h.lcsRefused 0xB := by
  rw [tallyWrite_t0 hb ht, if_neg (by simp [hv]), if_pos (by simp [hn])]
  exact h.lcsEnd_refused (by decide)

theorem tallyWrite_free (hb : h.get LCS_STAT.BUSY = 0) (ht : acc.tid = 0) (hv : v.toNat % 256 = h.get (LCS_TALLY.VALUE n) + 1)
    (hn : n = 0 ∨ 5 < n) :
    h.tallyWrite acc n v = (h.tallyAdvance n 0 (h.auditBy acc)).1.lcsEnd (h.tallyAdvance n 0 (h.auditBy acc)).2 := by
  rw [tallyWrite_t0 hb ht, if_neg (by simp [hv]), if_neg (by simp; omega)]

theorem tallyWrite_max (hb : h.get LCS_STAT.BUSY = 0) (ht : acc.tid = 0) (hv : v.toNat % 256 = h.get (LCS_TALLY.VALUE n) + 1)
    (hn : n = 0 ∨ 5 < n) (hm : tallyMax n ≤ h.get (LCS_TALLY.VALUE n)) : h.tallyWrite acc n v = h.lcsRefused 3 := by
  rw [tallyWrite_free hb ht hv hn, tallyAdvance_max hm]
  exact h.lcsEnd_refused (reason := lrTallyMax) (by decide)

theorem tallyWrite_full (hb : h.get LCS_STAT.BUSY = 0) (ht : acc.tid = 0) (hv : v.toNat % 256 = h.get (LCS_TALLY.VALUE n) + 1)
    (hn : n = 0 ∨ 5 < n) (hm : h.get (LCS_TALLY.VALUE n) < tallyMax n) (hf : h.auditFree = 0) : h.tallyWrite acc n v = h.lcsRefused 4 := by
  rw [tallyWrite_free hb ht hv hn, tallyAdvance_full hm hf]
  exact h.lcsEnd_refused (reason := lrAuditFull) (by decide)

end

/-- An advance that nothing refuses shows in the tally and in LCS_STAT. -/
theorem tallyWrite_done {h : Hw} {acc : Access} {n : Fin 8} {v : Word} (hb : h.get LCS_STAT.BUSY = 0) (ht : acc.tid = 0)
    (hv : v.toNat % 256 = h.get (LCS_TALLY.VALUE n) + 1) (hn : n.val = 0 ∨ 5 < n.val) (hm : h.get (LCS_TALLY.VALUE n) < tallyMax n)
    (hf : h.auditFree ≠ 0) : (h.tallyWrite acc n v).reads [(LCS_TALLY.VALUE n, h.get (LCS_TALLY.VALUE n) + 1), (LCS_STAT.TALLY_EVT, 1),
      (LCS_STAT.DONE, 1), (LCS_STAT.BUSY, 0), (LCS_STAT.REASON, 0), (LCS_STAT.REFUSED, h.get LCS_STAT.REFUSED)] := by
  obtain ⟨body, hd⟩ := tallyAdvance_done hm hf 0 (h.auditBy acc)
  have hmax := tallyMax_le n
  rw [tallyWrite_free hb ht hv hn, hd]
  exact advanced_reads n (by omega) (fun a ha => audit_rd h audTally _ body ha)

theorem Hw.reads_canon {t : Hw} {l : List (Fld × Nat)} (hr : t.reads l) : t.canon.reads l :=
  fun p hp => (t.get_canon p.1).trans (hr p hp)

/-- TALLY_ADVANCE by what the block finds. -/
theorem becomes_tallyAdvance {s : State} {acc : Access} (ho : s.hw.opens acc = true) (n : Fin 8) (v : Word) :
    (s.hw.get LCS_STAT.BUSY = 1 → Becomes (.tallyAdvance acc n v) s (s.hw.set LCS_STAT.COLLIDE 1)) ∧
    (s.hw.get LCS_STAT.BUSY = 0 → acc.tid ≠ 0 → Becomes (.tallyAdvance acc n v) s (s.hw.lcsRefused 5)) ∧
    (s.hw.get LCS_STAT.BUSY = 0 → acc.tid = 0 →
      (v.toNat % 256 ≠ s.hw.get (LCS_TALLY.VALUE n) + 1 → Becomes (.tallyAdvance acc n v) s s.hw) ∧
      (v.toNat % 256 = s.hw.get (LCS_TALLY.VALUE n) + 1 → 1 ≤ n.val ∧ n.val ≤ 5 → Becomes (.tallyAdvance acc n v) s (s.hw.lcsRefused 0xB)) ∧
      (v.toNat % 256 = s.hw.get (LCS_TALLY.VALUE n) + 1 → n.val = 0 ∨ 5 < n.val →
        (tallyMax n ≤ s.hw.get (LCS_TALLY.VALUE n) → Becomes (.tallyAdvance acc n v) s (s.hw.lcsRefused 3)) ∧
        (s.hw.get (LCS_TALLY.VALUE n) < tallyMax n → s.hw.auditFree = 0 → Becomes (.tallyAdvance acc n v) s (s.hw.lcsRefused 4)) ∧
        (s.hw.get (LCS_TALLY.VALUE n) < tallyMax n → s.hw.auditFree ≠ 0 → Completes (.tallyAdvance acc n v) s (fun t =>
          t.reads [(LCS_TALLY.VALUE n, s.hw.get (LCS_TALLY.VALUE n) + 1), (LCS_STAT.TALLY_EVT, 1), (LCS_STAT.DONE, 1), (LCS_STAT.BUSY, 0),
            (LCS_STAT.REASON, 0), (LCS_STAT.REFUSED, s.hw.get LCS_STAT.REFUSED)])))) := by
  have hx : exec (.tallyAdvance acc n v) s = s.onBusBy acc (fun h => h.tallyWrite acc n v) := rfl
  refine ⟨fun hb => becomes_of_open hx ho (tallyWrite_busy hb), fun hb ht => becomes_of_open hx ho (tallyWrite_notT0 hb ht),
    fun hb ht => ⟨fun hv => becomes_of_open hx ho (tallyWrite_other hb ht hv),
      fun hv hn => becomes_of_open hx ho (tallyWrite_bound hb ht hv hn), fun hv hn => ⟨fun hm => ?_, fun hm hf => ?_, fun hm hf => ?_⟩⟩⟩
  · exact becomes_of_open hx ho (tallyWrite_max hb ht hv hn hm)
  · exact becomes_of_open hx ho (tallyWrite_full hb ht hv hn hm hf)
  · exact (becomes_of_bus hx ho).completes (Hw.reads_canon (tallyWrite_done hb ht hv hn hm hf))

/-- Settles O34: the branches of a command before its action, and those of a direct advance of a tally. -/
theorem lifeCycleCommandsAreRefusedByTheirTable : Obligations.LifeCycleCommandsAreRefusedByTheirTable := by
  unfold Obligations.LifeCycleCommandsAreRefusedByTheirTable
  intro s acc h may refused all
  refine ⟨dbgMay_lcsCmd_iff h, fun p hp ho => ?_, fun p hp hc hw hh hm => ?_, fun ho code hcode hb ht => ?_, fun ho n v => ?_⟩
  · obtain ⟨hi, hr⟩ := lcsRows_exec s acc p hp
    exact becomes_lcsRow hi hr ho
  · exact becomes_of_busTo_perm (lcsRows_exec s acc p hp).1 hc hw hh hm
  · exact becomes_lcsReserved ho hcode hb ht
  · exact becomes_tallyAdvance ho n v

end Sys2Proof.Machine

/-! The access path of the debug ports: FSD, DBGACC and the JTAG instructions (spec/19_debug_and_test.md, R441 to R444). -/

namespace Sys2Proof.Machine

/-! ### What a port may do (R442) -/

/-- DBG_PERM allows an access at `a`: HALT_MEM, PATCH for a write of a patch unit, BIST for one in the BIST window. -/
def Hw.portGranted (h : Hw) (write : Bool) (a : Nat) : Prop :=
  bitOf (h.get LCS_STAT.DBG_PERM) 0 = true ∧ (write = false ∨
    ((a < 0x20171000 ∨ 0x20171800 ≤ a ∨ bitOf (h.get LCS_STAT.DBG_PERM) 1 = true) ∧
      (a < 0x20180000 ∨ 0x20190000 ≤ a ∨ bitOf (h.get LCS_STAT.DBG_PERM) 2 = true)))

/-- FSD may always make the access. -/
def Hw.fsdAllowed (h : Hw) (write : Bool) (a : Nat) (v : Word) : Prop :=
  (write = false ∧ (a = SYS_ID ∨ a = LCS_STATE)) ∨
    (h.get LCS_STATE.STATE ≠ 5 ∧ (a = LCS_STAT ∨
      (a = LCS_CMD ∧ (write = false ∨ LCS_CMD.CMD.of v = 5 ∨ LCS_CMD.CMD.of v = 7 ∨ LCS_CMD.CMD.of v = 8)) ∨ a = LCS_ARG0 ∨
      (LCS_MSG 0 ≤ a ∧ a ≤ LCS_MSG 63) ∨ (LCS_CHAL 0 ≤ a ∧ a ≤ LCS_CHAL 15)))

theorem fsdAlways_iff (h : Hw) (a : Nat) (write : Bool) (v : Word) : h.fsdAlways a write v = true ↔ h.fsdAllowed write a v := by
  simp [Hw.fsdAlways, Hw.fsdAllowed, Hw.lcState, lcEol, fsdCommand, or_assoc]

theorem patchAddr_iff (a : Nat) : patchAddr a = false ↔ a < 0x20171000 ∨ 0x20171800 ≤ a := by
  have e : DBG_PU_CTL 0 = 0x20171000 := rfl
  simp only [patchAddr, e, Bool.and_eq_false_iff, decide_eq_false_iff_not, Nat.not_le, Nat.not_lt]

theorem bistAddr_iff (a : Nat) : bistAddr a = false ↔ a < 0x20180000 ∨ 0x20190000 ≤ a := by
  simp only [bistAddr, Bool.and_eq_false_iff, decide_eq_false_iff_not, Nat.not_le, Nat.not_lt]

theorem dbgMay_iff (h : Hw) (jtag : Bool) (a : Nat) (write : Bool) (v : Word) :
    h.dbgMay jtag a write v = true ↔ (jtag = false ∧ h.fsdAllowed write a v) ∨ h.portGranted write a := by
  unfold Hw.dbgMay Hw.portGranted Hw.permits
  simp only [Bool.or_eq_true, Bool.and_eq_true, Bool.not_eq_true', fsdAlways_iff, patchAddr_iff, bistAddr_iff, or_assoc]

theorem dbgMay_fsd {h : Hw} {a : Nat} {write : Bool} {v : Word} :
    h.dbgMay false a write v = true ↔ h.portGranted write a ∨ h.fsdAllowed write a v := by
  rw [dbgMay_iff, or_comm]
  simp

theorem dbgMay_jtag {h : Hw} {a : Nat} {write : Bool} {v : Word} : h.dbgMay true a write v = true ↔ h.portGranted write a := by
  rw [dbgMay_iff]
  simp

/-! ### An access by what it meets (R441) -/

/-- The part as an access through the port `jtag` finds it. -/
def Hw.byPort (h : Hw) (jtag : Bool) : Hw := { h with dbg := { h.dbg with jtag := jtag } }

section
variable {h : Hw} {jtag inFlight : Bool} {op a : Nat} {v : Word}

/-- Another access of the port is in flight. -/
def Hw.portBusy (h : Hw) (inFlight : Bool) : Prop := inFlight = true ∨ h.busHeld .debug = true

theorem dbgAccess_retry (hb : h.portBusy inFlight) : h.dbgAccess jtag inFlight op a v = (h, ⟨3, 0⟩) :=
  if_pos (Bool.or_eq_true_iff.mpr hb)

theorem portBusy_not (hb : ¬ h.portBusy inFlight) : ¬ (inFlight || h.busHeld .debug) = true := fun hc => hb (Bool.or_eq_true_iff.mp hc)

theorem dbgAccess_badOp (hb : ¬ h.portBusy inFlight) (h1 : op ≠ 1) (h2 : op ≠ 2) :
    h.dbgAccess jtag inFlight op a v = (h.set DBG_STAT.FSD_FAULT 4, ⟨12, 0⟩) := by
  rw [Hw.dbgAccess, if_neg (portBusy_not hb), if_pos (by simp [h1, h2])]
  rfl

theorem dbgAccess_perm (hb : ¬ h.portBusy inFlight) (hop : op = 1 ∨ op = 2) (hm : ¬ h.dbgMay jtag a (op = 2) v = true) :
    h.dbgAccess jtag inFlight op a v = (h.set DBG_STAT.FSD_FAULT 1, ⟨12, 0⟩) := by
  rw [Hw.dbgAccess, if_neg (portBusy_not hb), if_neg (by rcases hop with rfl | rfl <;> decide), if_pos (by simpa using hm)]
  rfl

/-- An access that the port may make is made. -/
theorem dbgAccess_read (hb : ¬ h.portBusy inFlight) (hop : op = 1) (hm : h.dbgMay jtag a (op = 2) v = true) :
    h.dbgAccess jtag inFlight op a v = (h.byPort jtag).dbgLoad a := by
  rw [Hw.dbgAccess, if_neg (portBusy_not hb), if_neg (by rw [hop]; decide), if_neg (by simp [hm]), if_pos hop]
  rfl

theorem dbgAccess_write (hb : ¬ h.portBusy inFlight) (hop : op = 2) (hm : h.dbgMay jtag a (op = 2) v = true) :
    h.dbgAccess jtag inFlight op a v = (h.byPort jtag).dbgStore a v := by
  rw [Hw.dbgAccess, if_neg (portBusy_not hb), if_neg (by rw [hop]; decide), if_neg (by simp [hm]), if_neg (by rw [hop]; decide)]
  rfl

/-! Loads and stores in normal memory. -/

theorem dbgLoad_waits (hd : (h.region a).device = false) (hw : h.windowWaits a = true) : h.dbgLoad a = (h, ⟨3, 0⟩) := by
  rw [Hw.dbgLoad, if_neg (by rw [hd]; decide), if_pos hw]
  rfl

theorem dbgLoad_ok (hd : (h.region a).device = false) (hw : h.windowWaits a = false) {bs : List Byte}
    (hr : (h.dmaRead 0 iniDebug a 4).2 = .ok bs) : h.dbgLoad a = ((h.dmaRead 0 iniDebug a 4).1, ⟨6, BitVec.ofNat 32 (leNat bs)⟩) := by
  rw [Hw.dbgLoad, if_neg (by rw [hd]; decide), if_neg (by rw [hw]; decide)]
  generalize h.dmaRead 0 iniDebug a 4 = r at hr ⊢
  obtain ⟨g, x⟩ := r
  subst hr
  rfl

theorem dbgLoad_error (hd : (h.region a).device = false) (hw : h.windowWaits a = false) {e : DmaErr}
    (hr : (h.dmaRead 0 iniDebug a 4).2 = .error e) : h.dbgLoad a = ((h.dmaRead 0 iniDebug a 4).1.set DBG_STAT.FSD_FAULT 2, ⟨12, 0⟩) := by
  rw [Hw.dbgLoad, if_neg (by rw [hd]; decide), if_neg (by rw [hw]; decide)]
  generalize h.dmaRead 0 iniDebug a 4 = r at hr ⊢
  obtain ⟨g, x⟩ := r
  subst hr
  rfl

theorem dbgStore_ok (hd : (h.region a).device = false) (hr : (h.dmaWrite 0 iniDebug a (leBytes 4 v.toNat)).2 = none) :
    h.dbgStore a v = ((h.dmaWrite 0 iniDebug a (leBytes 4 v.toNat)).1, ⟨6, 0⟩) := by
  rw [Hw.dbgStore, if_neg (by rw [hd]; decide)]
  generalize h.dmaWrite 0 iniDebug a (leBytes 4 v.toNat) = r at hr ⊢
  obtain ⟨g, x⟩ := r
  subst hr
  rfl

theorem dbgStore_error (hd : (h.region a).device = false) (hr : (h.dmaWrite 0 iniDebug a (leBytes 4 v.toNat)).2 ≠ none) :
    h.dbgStore a v = ((h.dmaWrite 0 iniDebug a (leBytes 4 v.toNat)).1.set DBG_STAT.FSD_FAULT 2, ⟨12, 0⟩) := by
  rw [Hw.dbgStore, if_neg (by rw [hd]; decide)]
  generalize h.dmaWrite 0 iniDebug a (leBytes 4 v.toNat) = r at hr ⊢
  obtain ⟨g, x⟩ := r
  cases x with
  | none => exact absurd rfl hr
  | some e => rfl

end

/-- A read of SYS_ID answers with a word and changes no register. -/
theorem devRead_sysId (h : Hw) : ∃ w, h.devRead ⟨.debug, 0⟩ SYS_ID = (h, .word w) := by
  unfold Hw.devRead
  rw [if_neg (by decide)]
  by_cases hm : (h.bistMutes SYS_ID || reservedOfs SYS_ID) = true
  · exact ⟨_, if_pos hm⟩
  · have hrow : ∃ r, rowOf SYS_ID = some (r, false) ∧ r.rc = 0 := ⟨_, rfl, rfl⟩
    obtain ⟨r, hr, hrc⟩ := hrow
    have hread : (h.plainRead SYS_ID).1 = h := by
      rw [Hw.plainRead, hr]
      exact if_neg (by rw [hrc]; decide)
    have hq : readChanges SYS_ID = false := by
      rw [readChanges, hr]
      exact bne_eq_false_iff_eq.mpr hrc
    rw [if_neg hm, if_neg (by decide), if_pos (by decide)]
    refine ⟨(h.plainRead SYS_ID).2, ?_⟩
    show (if readChanges SYS_ID && (0 : BitVec 7) != 0 then (h, RdRes.owner) else h.plainRes SYS_ID) = _
    rw [hq, if_neg (by decide), Hw.plainRes, hread]

theorem dbgLoad_sysId (h : Hw) : ∃ w, h.dbgLoad SYS_ID = (h, ⟨6, w⟩) := by
  obtain ⟨w, hw⟩ := devRead_sysId h
  have hd : (h.region SYS_ID).device = true := rfl
  refine ⟨w, ?_⟩
  rw [Hw.dbgLoad, if_pos hd, hw]
  rfl

/-! ### FSD (R443) -/

/-- Its main domain is clocked, so the part answers a port. -/
def Hw.answers (h : Hw) : Prop := h.pwr.phase = .up ∧ h.pwr.sleep ≠ .sleep

theorem clocked_iff (h : Hw) : h.clocked = true ↔ h.answers := by
  simp [Hw.clocked, Hw.mainUp, Hw.answers]

/-- The FSD link's answer stands in the part. -/
def Hw.fsdSays (h : Hw) (stat : Nat) (data : Word) : Hw := { h with dbg := { h.dbg with fsdStat := stat, fsdData := data } }

section
variable {s : State} {inFlight : Bool} {req wdata : BitVec 40}

/-- The fields of a request: OP, the address, and the word to write. -/
def fsdOp (req : BitVec 40) : Nat := (req.extractLsb' 34 2).toNat
def fsdAdr (req : BitVec 40) : Nat := (req.extractLsb' 4 30).toNat * 4
def fsdWord (wdata : BitVec 40) : Word := wdata.extractLsb' 8 32

/-- SYNC or CHK of the request is wrong. -/
def fsdWrong (req : BitVec 40) : Prop := req.extractLsb' 36 4 ≠ 0xB ∨ (req.extractLsb' 0 4).toNat ≠ fsdChk (req.extractLsb' 4 32)

/-- The CRC of the write data is wrong. -/
def fsdTorn (wdata : BitVec 40) : Prop := (wdata.extractLsb' 0 8).toNat ≠ fsdCrc (fsdWord wdata)

/-- FSD may make the access that the request asks for. -/
def Hw.fsdMay (h : Hw) (req wdata : BitVec 40) : Prop :=
  h.portGranted (decide (fsdOp req = 2)) (fsdAdr req) ∨ h.fsdAllowed (decide (fsdOp req = 2)) (fsdAdr req) (fsdWord wdata)

theorem fsdMay_iff (h : Hw) : h.dbgMay false (fsdAdr req) (decide (fsdOp req = 2)) (fsdWord wdata) = true ↔ h.fsdMay req wdata := dbgMay_fsd

theorem becomes_fsd {g : Hw} {stat : Nat} {w : Word} (hb : s.hw.answers) (hk : s.hw.fsdTransfer inFlight req wdata = (g, ⟨stat, w⟩)) :
    Becomes (.fsdTransfer inFlight req wdata) s (g.fsdSays stat w) :=
  becomes_of_when (b := Hw.clocked) (f := fun h => Hw.fsdAnswer (h.fsdTransfer inFlight req wdata)) rfl ((clocked_iff s.hw).mpr hb) (by rw [hk]; rfl)

theorem becomes_fsd_unclocked (hb : ¬ s.hw.answers) : Becomes (.fsdTransfer inFlight req wdata) s s.hw :=
  becomes_of_when_not (b := Hw.clocked) (f := fun h => Hw.fsdAnswer (h.fsdTransfer inFlight req wdata)) rfl
    (Bool.eq_false_iff.mpr (mt (clocked_iff s.hw).mp hb))

theorem fsdWrong_iff : ((req.extractLsb' 36 4).toNat != 0xB || (req.extractLsb' 0 4).toNat != fsdChk (req.extractLsb' 4 32)) = true ↔ fsdWrong req := by
  have hs : (req.extractLsb' 36 4).toNat ≠ 0xB ↔ req.extractLsb' 36 4 ≠ 0xB :=
    not_congr ⟨fun h => BitVec.eq_of_toNat_eq h, fun h => congrArg BitVec.toNat h⟩
  rw [Bool.or_eq_true, bne_iff_ne, bne_iff_ne, hs, fsdWrong]

theorem fsdTransfer_wrong {h : Hw} (hw : fsdWrong req) : h.fsdTransfer inFlight req wdata = (h.set DBG_STAT.FSD_FAULT 3, ⟨0, 0⟩) :=
  if_pos (fsdWrong_iff.mpr hw)

theorem fsdTransfer_torn {h : Hw} (hw : ¬ fsdWrong req) (hb : ¬ h.portBusy inFlight) (hop : fsdOp req = 2) (hm : h.fsdMay req wdata)
    (ht : fsdTorn wdata) : h.fsdTransfer inFlight req wdata = (h.set DBG_STAT.FSD_FAULT 3, ⟨6, 0⟩) := by
  have hm' : h.dbgMay false (fsdAdr req) true (fsdWord wdata) = true := by
    have := (fsdMay_iff h).mpr hm
    rwa [hop] at this
  have hb' := Bool.or_eq_false_iff.mp (Bool.eq_false_iff.mpr (portBusy_not hb))
  refine (if_neg (mt fsdWrong_iff.mp hw)).trans (if_pos ?_)
  simp only [Bool.and_eq_true, decide_eq_true_eq, Bool.not_eq_true', bne_iff_ne]
  exact ⟨⟨⟨⟨hop, hb'.1⟩, hb'.2⟩, hm'⟩, ht⟩

/-- A request that is whole asks for its access. -/
theorem fsdTransfer_access {h : Hw} (hw : ¬ fsdWrong req) (hc : h.portBusy inFlight ∨ fsdOp req ≠ 2 ∨ ¬ h.fsdMay req wdata ∨ ¬ fsdTorn wdata) :
    h.fsdTransfer inFlight req wdata = h.dbgAccess false inFlight (fsdOp req) (fsdAdr req) (fsdWord wdata) := by
  refine (if_neg (mt fsdWrong_iff.mp hw)).trans (if_neg ?_)
  simp only [Bool.and_eq_true, decide_eq_true_eq, Bool.not_eq_true', bne_iff_ne]
  rintro ⟨⟨⟨⟨hop, hi⟩, hh⟩, hm⟩, ht⟩
  rcases hc with (hb | hb) | hn | hn | hn
  · exact absurd (hb.symm.trans hi) (by decide)
  · exact absurd (hb.symm.trans hh) (by decide)
  · exact hn hop
  · have hop' : fsdOp req = 2 := hop
    refine hn ((fsdMay_iff h).mp ?_)
    rw [hop']
    exact hm
  · exact hn ht

section
variable (hb : s.hw.answers) (hw : ¬ fsdWrong req)
include hb hw

theorem becomes_fsd_retry (hi : s.hw.portBusy inFlight) : Becomes (.fsdTransfer inFlight req wdata) s (s.hw.fsdSays 3 0) :=
  becomes_fsd hb ((fsdTransfer_access hw (.inl hi)).trans (dbgAccess_retry hi))

variable (hi : ¬ s.hw.portBusy inFlight)
include hi

theorem becomes_fsd_badOp (h1 : fsdOp req ≠ 1) (h2 : fsdOp req ≠ 2) :
    Becomes (.fsdTransfer inFlight req wdata) s ((s.hw.set DBG_STAT.FSD_FAULT 4).fsdSays 12 0) :=
  becomes_fsd hb ((fsdTransfer_access hw (.inr (.inl h2))).trans (dbgAccess_badOp hi h1 h2))

theorem becomes_fsd_perm (hop : fsdOp req = 1 ∨ fsdOp req = 2) (hm : ¬ s.hw.fsdMay req wdata) :
    Becomes (.fsdTransfer inFlight req wdata) s ((s.hw.set DBG_STAT.FSD_FAULT 1).fsdSays 12 0) :=
  becomes_fsd hb ((fsdTransfer_access hw (.inr (.inr (.inl hm)))).trans (dbgAccess_perm hi hop (mt (fsdMay_iff s.hw).mp hm)))

theorem becomes_fsd_torn (hop : fsdOp req = 2) (hm : s.hw.fsdMay req wdata) (ht : fsdTorn wdata) :
    Becomes (.fsdTransfer inFlight req wdata) s ((s.hw.set DBG_STAT.FSD_FAULT 3).fsdSays 6 0) :=
  becomes_fsd hb (fsdTransfer_torn hw hi hop hm ht)

omit hb in
/-- A read that is made. -/
theorem fsdTransfer_read (hop : fsdOp req = 1) (hm : s.hw.fsdMay req wdata) :
    s.hw.fsdTransfer inFlight req wdata = (s.hw.byPort false).dbgLoad (fsdAdr req) :=
  (fsdTransfer_access hw (.inr (.inl (by rw [hop]; decide)))).trans (dbgAccess_read hi hop ((fsdMay_iff s.hw).mpr hm))

omit hb in
/-- A write that is made. -/
theorem fsdTransfer_write (hop : fsdOp req = 2) (hm : s.hw.fsdMay req wdata) (ht : ¬ fsdTorn wdata) :
    s.hw.fsdTransfer inFlight req wdata = (s.hw.byPort false).dbgStore (fsdAdr req) (fsdWord wdata) :=
  (fsdTransfer_access hw (.inr (.inr (.inr ht)))).trans (dbgAccess_write hi hop ((fsdMay_iff s.hw).mpr hm))

section
variable (hop : fsdOp req = 1) (hm : s.hw.fsdMay req wdata) (hd : (s.hw.region (fsdAdr req)).device = false)
include hop hm hd

theorem becomes_fsd_waits (hs : (s.hw.byPort false).windowWaits (fsdAdr req) = true) :
    Becomes (.fsdTransfer inFlight req wdata) s ((s.hw.byPort false).fsdSays 3 0) :=
  becomes_fsd hb ((fsdTransfer_read hw hi hop hm).trans (dbgLoad_waits hd hs))

variable (hs : (s.hw.byPort false).windowWaits (fsdAdr req) = false)
include hs

theorem becomes_fsd_reads {bs : List Byte} (hr : ((s.hw.byPort false).dmaRead 0 iniDebug (fsdAdr req) 4).2 = .ok bs) :
    Becomes (.fsdTransfer inFlight req wdata) s
      (((s.hw.byPort false).dmaRead 0 iniDebug (fsdAdr req) 4).1.fsdSays 6 (BitVec.ofNat 32 (leNat bs))) := by
  have hd' : ((s.hw.byPort false).region (fsdAdr req)).device = false := hd
  exact becomes_fsd hb (by rw [fsdTransfer_read hw hi hop hm, dbgLoad_ok hd' hs hr])

theorem becomes_fsd_readError {e : DmaErr} (hr : ((s.hw.byPort false).dmaRead 0 iniDebug (fsdAdr req) 4).2 = .error e) :
    Becomes (.fsdTransfer inFlight req wdata) s
      ((((s.hw.byPort false).dmaRead 0 iniDebug (fsdAdr req) 4).1.set DBG_STAT.FSD_FAULT 2).fsdSays 12 0) := by
  have hd' : ((s.hw.byPort false).region (fsdAdr req)).device = false := hd
  exact becomes_fsd hb (by rw [fsdTransfer_read hw hi hop hm, dbgLoad_error hd' hs hr])

end

section
variable (hop : fsdOp req = 2) (hm : s.hw.fsdMay req wdata) (ht : ¬ fsdTorn wdata) (hd : (s.hw.region (fsdAdr req)).device = false)
include hop hm ht hd

theorem becomes_fsd_writes (hr : ((s.hw.byPort false).dmaWrite 0 iniDebug (fsdAdr req) (leBytes 4 (fsdWord wdata).toNat)).2 = none) :
    Becomes (.fsdTransfer inFlight req wdata) s
      (((s.hw.byPort false).dmaWrite 0 iniDebug (fsdAdr req) (leBytes 4 (fsdWord wdata).toNat)).1.fsdSays 6 0) := by
  have hd' : ((s.hw.byPort false).region (fsdAdr req)).device = false := hd
  exact becomes_fsd hb (by rw [fsdTransfer_write hw hi hop hm ht, dbgStore_ok hd' hr])

theorem becomes_fsd_writeError (hr : ((s.hw.byPort false).dmaWrite 0 iniDebug (fsdAdr req) (leBytes 4 (fsdWord wdata).toNat)).2 ≠ none) :
    Becomes (.fsdTransfer inFlight req wdata) s
      ((((s.hw.byPort false).dmaWrite 0 iniDebug (fsdAdr req) (leBytes 4 (fsdWord wdata).toNat)).1.set DBG_STAT.FSD_FAULT 2).fsdSays 12 0) := by
  have hd' : ((s.hw.byPort false).region (fsdAdr req)).device = false := hd
  exact becomes_fsd hb (by rw [fsdTransfer_write hw hi hop hm ht, dbgStore_error hd' hr])

end

/-- SYS_ID may always be read. -/
theorem completes_fsd_sysId (hop : fsdOp req = 1) (ha : fsdAdr req = SYS_ID) : Completes (.fsdTransfer inFlight req wdata) s (fun t =>
    t.dbg.fsdStat = 6 ∧ SameMemory s.hw t ∧ t.regs = mcanon resetWord s.hw.regs) := by
  have hm : s.hw.fsdMay req wdata := .inr (.inl ⟨by rw [hop]; rfl, .inl ha⟩)
  obtain ⟨w, hl⟩ := dbgLoad_sysId (s.hw.byPort false)
  have hk : s.hw.fsdTransfer inFlight req wdata = (s.hw.byPort false, ⟨6, w⟩) := by rw [fsdTransfer_read hw hi hop hm, ha, hl]
  refine (becomes_fsd hb hk).completes ⟨rfl, fun b => ?_, rfl⟩
  have hsame : SameBytes s.hw ((s.hw.byPort false).fsdSays 6 w) := ⟨rfl, rfl, rfl, fun _ => rfl⟩
  exact (Hw.byte_canon _ b).trans (hsame.byte b)

end

end

/-! ### DBGACC (R444) -/

/-- The JTAG port keeps the answer. -/
def Hw.jtagSays (h : Hw) (stat : Nat) (data : Word) : Hw := { h with dbg := { h.dbg with daStat := stat, daData := data } }

def daOp (dr : BitVec 68) : Nat := (dr.extractLsb' 0 2).toNat
def daAdr (dr : BitVec 68) : Nat := (dr.extractLsb' 2 30).toNat * 4

section
variable {s : State} {inFlight : Bool} {dr : BitVec 68}

/-- DBGACC is selected in a part that answers. -/
def Hw.listens (h : Hw) : Prop := h.answers ∧ h.dbg.ir = 0x10

theorem becomes_dbgacc {g : Hw} {stat : Nat} {w : Word} (hl : s.hw.listens)
    (hk : s.hw.dbgAccess true inFlight (daOp dr) (daAdr dr) (dr.extractLsb' 32 32) = (g, ⟨stat, w⟩)) :
    Becomes (.dbgacc inFlight dr) s (g.jtagSays stat w) := by
  refine becomes_of_when (b := Hw.clocked) (f := fun h => h.when (h.dbg.ir = 0x10) (fun h => h.dbgacc inFlight dr)) rfl ((clocked_iff s.hw).mpr hl.1) ?_
  rw [Hw.when, if_pos (decide_eq_true hl.2)]
  show Hw.jtagSays (Hw.dbgAccess s.hw true inFlight (daOp dr) (daAdr dr) (dr.extractLsb' 32 32)).1
    (Hw.dbgAccess s.hw true inFlight (daOp dr) (daAdr dr) (dr.extractLsb' 32 32)).2.stat
    (Hw.dbgAccess s.hw true inFlight (daOp dr) (daAdr dr) (dr.extractLsb' 32 32)).2.data = _
  rw [hk]

section
variable (hl : s.hw.listens)
include hl

theorem becomes_dbgacc_retry (hi : s.hw.portBusy inFlight) : Becomes (.dbgacc inFlight dr) s (s.hw.jtagSays 3 0) :=
  becomes_dbgacc hl (dbgAccess_retry hi)

variable (hi : ¬ s.hw.portBusy inFlight)
include hi

theorem becomes_dbgacc_badOp (h1 : daOp dr ≠ 1) (h2 : daOp dr ≠ 2) :
    Becomes (.dbgacc inFlight dr) s ((s.hw.set DBG_STAT.FSD_FAULT 4).jtagSays 12 0) :=
  becomes_dbgacc hl (dbgAccess_badOp hi h1 h2)

theorem becomes_dbgacc_perm (hop : daOp dr = 1 ∨ daOp dr = 2) (hm : ¬ s.hw.portGranted (decide (daOp dr = 2)) (daAdr dr)) :
    Becomes (.dbgacc inFlight dr) s ((s.hw.set DBG_STAT.FSD_FAULT 1).jtagSays 12 0) :=
  becomes_dbgacc hl (dbgAccess_perm hi hop (mt dbgMay_jtag.mp hm))

theorem becomes_dbgacc_reads (hop : daOp dr = 1) (hm : s.hw.portGranted false (daAdr dr)) (hd : (s.hw.region (daAdr dr)).device = false)
    (hs : (s.hw.byPort true).windowWaits (daAdr dr) = false) {bs : List Byte}
    (hr : ((s.hw.byPort true).dmaRead 0 iniDebug (daAdr dr) 4).2 = .ok bs) : Becomes (.dbgacc inFlight dr) s
      (((s.hw.byPort true).dmaRead 0 iniDebug (daAdr dr) 4).1.jtagSays 6 (BitVec.ofNat 32 (leNat bs))) := by
  have hd' : ((s.hw.byPort true).region (daAdr dr)).device = false := hd
  exact becomes_dbgacc hl (by rw [dbgAccess_read hi hop (dbgMay_jtag.mpr (by rw [hop]; exact hm)), dbgLoad_ok hd' hs hr])

theorem becomes_dbgacc_writes (hop : daOp dr = 2) (hm : s.hw.portGranted true (daAdr dr)) (hd : (s.hw.region (daAdr dr)).device = false)
    (hr : ((s.hw.byPort true).dmaWrite 0 iniDebug (daAdr dr) (leBytes 4 (dr.extractLsb' 32 32).toNat)).2 = none) : Becomes (.dbgacc inFlight dr) s
      (((s.hw.byPort true).dmaWrite 0 iniDebug (daAdr dr) (leBytes 4 (dr.extractLsb' 32 32).toNat)).1.jtagSays 6 0) := by
  have hd' : ((s.hw.byPort true).region (daAdr dr)).device = false := hd
  exact becomes_dbgacc hl (by rw [dbgAccess_write hi hop (dbgMay_jtag.mpr (by rw [hop]; exact hm)), dbgStore_ok hd' hr])

end

theorem becomes_dbgacc_deaf (hl : ¬ s.hw.listens) : Becomes (.dbgacc inFlight dr) s s.hw := by
  by_cases hc : s.hw.clocked = true
  · have hir : ¬ s.hw.dbg.ir = 0x10 := fun hir => hl ⟨(clocked_iff s.hw).mp hc, hir⟩
    exact becomes_of_when (b := Hw.clocked) (f := fun h => h.when (h.dbg.ir = 0x10) (fun h => h.dbgacc inFlight dr)) rfl hc
      (if_neg (by simpa using hir))
  · exact becomes_of_when_not (b := Hw.clocked) (f := fun h => h.when (h.dbg.ir = 0x10) (fun h => h.dbgacc inFlight dr)) rfl
      (Bool.eq_false_iff.mpr hc)

end

/-- What Capture-DR loads under DBGACC: the status above the data (R444). -/
theorem captureDr_dbgacc {h : Hw} (hir : h.dbg.ir = 0x10) :
    h.captureDr.1 = 68 ∧ h.captureDr.2 / 2 ^ 64 = h.dbg.daStat ∧ h.captureDr.2 / 2 ^ 32 % 2 ^ 32 = h.dbg.daData.toNat := by
  have hc : h.captureDr = (68, h.dbg.daStat * 2 ^ 64 + h.dbg.daData.toNat * 2 ^ 32 + h.free.toNat) := by
    unfold Hw.captureDr
    rw [if_neg (by rw [hir]; decide), if_pos hir]
  have hf := h.free.isLt
  have hd := h.dbg.daData.isLt
  rw [hc]
  exact ⟨rfl, by omega, by omega⟩

theorem captureDr_idcode {h : Hw} (hir : h.dbg.ir = 1) : h.captureDr = (32, 0x24864793) := if_pos hir

theorem captureIr_eq (h : Hw) : h.captureIr = if h.dbg.refused = true then 5 else 1 := rfl

/-! ### JTAG instructions (R442, R461) -/

/-- The instruction needs a permission or a state that the part does not have. -/
def Hw.jtagForbids (h : Hw) (c : Nat) : Prop :=
  (bitOf (h.get LCS_STAT.DBG_PERM) 3 = false ∧ ((c = 0 ∨ c = 2) ∧ h.get LCS_STATE.STATE ≠ 5 ∨ c = 4 ∨ c = 5)) ∨
    ((c = 0 ∨ c = 4 ∨ c = 5) ∧ h.get TWIN_STAT.STATE = 3) ∨ (c = 0x10 ∧ h.get LCS_STATE.STATE = 5)

theorem jtagRefuses_iff (h : Hw) (c : Nat) : h.jtagRefuses c = true ↔ h.jtagForbids c := by
  unfold Hw.jtagRefuses Hw.jtagForbids Hw.permits Hw.lcState
  simp only [Bool.or_eq_true, Bool.and_eq_true, Bool.not_eq_true', Bool.and_eq_false_iff, Bool.or_eq_false_iff, decide_eq_true_eq,
    decide_eq_false_iff_not, lcEol, twActive]
  have hn : ∀ p : Prop, ¬ (p ∧ (c = 0 ∨ c = 2)) ↔ ¬ p ∨ ¬ (c = 0 ∨ c = 2) := fun p => not_and_or
  grind

/-- The TW_ROLE ball follows its new driver, where it has one. -/
theorem scanned_same {b h : Hw} (hs : b.pwr.phase ≠ .up ∨ b.scanDrive 5 = h.scanDrive 5) : b.scanned h = b := by
  refine if_neg ?_
  simp only [Bool.and_eq_true, bne_iff_ne, Hw.mainUp, decide_eq_true_eq, roleBallNo]
  rintro ⟨hup, hne⟩
  exact hs.elim (fun h => h hup) (fun h => hne h)

theorem scanned_moves {b h : Hw} (hup : b.pwr.phase = .up) (hs : b.scanDrive 5 ≠ h.scanDrive 5) : b.scanned h = b.roleNow := by
  refine if_pos ?_
  simp only [Bool.and_eq_true, bne_iff_ne, Hw.mainUp, decide_eq_true_eq, roleBallNo]
  exact ⟨hup, hs⟩

/-- A command that selects an instruction ends with the TW_ROLE ball at its new driver. -/
theorem becomes_lands {i : Instr} {s : State} {b : Hw} (hb : Becomes i s (b.scanned s.hw)) :
    (b.pwr.phase ≠ .up ∨ b.scanDrive 5 = s.hw.scanDrive 5 → Becomes i s b) ∧
    (b.pwr.phase = .up → b.scanDrive 5 ≠ s.hw.scanDrive 5 → Becomes i s b.roleNow) :=
  ⟨fun hs => scanned_same hs ▸ hb, fun hup hs => scanned_moves hup hs ▸ hb⟩

/-- What the boundary scans made under EXTEST and SAMPLE/PRELOAD leave: those of the last one. -/
def Hw.lastScan (h : Hw) (scans : List (BitVec 356 × BitVec 356)) : Hw :=
  match scans.getLast? with
  | some d => { h with dbg := { h.dbg with captured := d.1, cells := d.2 } }
  | none => h

theorem lastScan_cons (h : Hw) (d : BitVec 356 × BitVec 356) (l : List (BitVec 356 × BitVec 356)) :
    Hw.lastScan { h with dbg := { h.dbg with captured := d.1, cells := d.2 } } l = h.lastScan (d :: l) := by
  cases l with
  | nil => rfl
  | cons e l =>
    unfold Hw.lastScan
    rw [List.getLast?_cons_cons, List.getLast?_eq_some_getLast (List.cons_ne_nil e l)]

theorem boundaryScans_last {h : Hw} (hir : h.dbg.ir = 0 ∨ h.dbg.ir = 2) (scans : List (BitVec 356 × BitVec 356)) :
    scans.foldl (fun h d => h.boundaryScan d.1 d.2) h = h.lastScan scans := by
  induction scans generalizing h with
  | nil => rfl
  | cons d l ih =>
    have hscan : h.boundaryScan d.1 d.2 = { h with dbg := { h.dbg with captured := d.1, cells := d.2 } } :=
      if_pos (by simpa using hir)
    rw [List.foldl_cons, hscan, ← lastScan_cons]
    exact ih hir

theorem boundaryScans_none {h : Hw} (h0 : h.dbg.ir ≠ 0) (h2 : h.dbg.ir ≠ 2) (scans : List (BitVec 356 × BitVec 356)) :
    scans.foldl (fun h d => h.boundaryScan d.1 d.2) h = h := by
  induction scans with
  | nil => rfl
  | cons d l ih => rw [List.foldl_cons, Hw.boundaryScan, if_neg (by simp [h0, h2]), ih]

section
variable {s : State} {code : BitVec 5} {scans : List (BitVec 356 × BitVec 356)}

theorem becomes_jtag_off (hc : s.hw.pwr.coreEn = false) : Becomes (.jtagInstruction code scans) s s.hw :=
  becomes_of_when_not (b := fun h => h.pwr.coreEn) (f := fun h => Hw.scanned (scans.foldl (fun h d => h.boundaryScan d.1 d.2) (h.jtagInstruction code.toNat)) h)
    rfl hc

/-- The instruction `ir` is selected, refused or not. -/
def Hw.withIr (h : Hw) (ir : Nat) (no : Bool) : Hw := { h with dbg := { h.dbg with ir := ir, refused := no } }

theorem becomes_jtag (hc : s.hw.pwr.coreEn = true) {k b : Hw} (hk : s.hw.jtagInstruction code.toNat = k)
    (hb : scans.foldl (fun h d => h.boundaryScan d.1 d.2) k = b) : Becomes (.jtagInstruction code scans) s (b.scanned s.hw) :=
  becomes_of_when (b := fun h => h.pwr.coreEn) (f := fun h => Hw.scanned (scans.foldl (fun h d => h.boundaryScan d.1 d.2) (h.jtagInstruction code.toNat)) h)
    rfl hc (by rw [hk, hb])

theorem jtagInstruction_refused {h : Hw} {c : Nat} (hr : h.jtagForbids c) : h.jtagInstruction c = h.withIr 0x1F true := by
  unfold Hw.jtagInstruction
  rw [(jtagRefuses_iff h c).mpr hr]
  rfl

theorem jtagInstruction_selects {h : Hw} {c : Nat} (hr : ¬ h.jtagForbids c) : h.jtagInstruction c = h.withIr (jtagSelects c) false := by
  unfold Hw.jtagInstruction
  rw [Bool.eq_false_iff.mpr (mt (jtagRefuses_iff h c).mp hr)]
  rfl

theorem jtagSelects_eq (c : Nat) : jtagSelects c = if c = 0 ∨ c = 2 then c else if c = 1 ∨ c = 4 ∨ c = 5 ∨ c = 0x10 then c else 0x1F := by
  unfold jtagSelects
  by_cases hs : c = 0 ∨ c = 2
  · rw [if_pos hs, if_pos (by rcases hs with rfl | rfl <;> decide)]
  · rw [if_neg hs]
    have : [0, 1, 2, 4, 5, 0x10].contains c = true ↔ c = 1 ∨ c = 4 ∨ c = 5 ∨ c = 0x10 := by
      simp
      omega
    simp only [this]

theorem becomes_jtag_refused (hc : s.hw.pwr.coreEn = true) (hr : s.hw.jtagForbids code.toNat) :
    Becomes (.jtagInstruction code scans) s ((s.hw.withIr 0x1F true).scanned s.hw) :=
  becomes_jtag hc (jtagInstruction_refused hr) (boundaryScans_none (by simp [Hw.withIr]) (by simp [Hw.withIr]) scans)

theorem becomes_jtag_scans (hc : s.hw.pwr.coreEn = true) (hr : ¬ s.hw.jtagForbids code.toNat) (hcode : code.toNat = 0 ∨ code.toNat = 2) :
    Becomes (.jtagInstruction code scans) s (((s.hw.withIr code.toNat false).lastScan scans).scanned s.hw) := by
  refine becomes_jtag hc (jtagInstruction_selects hr) ?_
  rw [jtagSelects_eq, if_pos hcode]
  exact boundaryScans_last hcode scans

theorem becomes_jtag_selects (hc : s.hw.pwr.coreEn = true) (hr : ¬ s.hw.jtagForbids code.toNat) (h0 : code.toNat ≠ 0) (h2 : code.toNat ≠ 2) :
    Becomes (.jtagInstruction code scans) s
      ((s.hw.withIr (if code.toNat = 1 ∨ code.toNat = 4 ∨ code.toNat = 5 ∨ code.toNat = 0x10 then code.toNat else 0x1F) false).scanned s.hw) := by
  have hsel : jtagSelects code.toNat ≠ 0 ∧ jtagSelects code.toNat ≠ 2 := by
    rw [jtagSelects_eq, if_neg (by omega)]
    split <;> omega
  refine becomes_jtag hc (jtagInstruction_selects hr) ?_
  rw [boundaryScans_none hsel.1 hsel.2, jtagSelects_eq, if_neg (by omega)]

theorem becomes_testLogicReset : Becomes .testLogicReset s (Hw.scanned { s.hw with dbg := { s.hw.dbg with ir := 1 } } s.hw) := rfl

theorem becomes_fsdLinkReset : Becomes .fsdLinkReset s (s.hw.fsdSays 0 0) := rfl

end

end Sys2Proof.Machine

/-! The debug port's commands without their permission (spec/19_debug_and_test.md, R442). -/

namespace Sys2Proof.Machine

/-! ### The debug unit's commands as writes of its registers -/

section
variable (s : State) (acc : Access) (c : Fin 3) (q : Fin 16) (u : Fin 32) (w : Fin 16) (i : Fin 8) (reg : Fin 4) (t : Byte) (r : Fin 2) (v : Word)
  (same : Bool) (port : Option Bool)

theorem exec_attach : exec (.attach acc port) s = s.onDebug acc DBG_CTL 0x44470001 (fun h =>
    Hw.dbgWrite { h with dbg := { h.dbg with jtag := if fromDebug acc then port.getD h.dbg.jtag else h.dbg.jtag } } acc DBG_CTL 0x44470001) := execAttach.eq_1 ..
theorem exec_detach : exec (.detach acc) s = s.onDebug acc DBG_CTL 0x44470002 (fun h => h.dbgWrite acc DBG_CTL 0x44470002) := execDetach.eq_1 ..
theorem exec_debugReset : exec (.debugReset acc same) s =
    s.onDebug acc DBG_CTL 0x44470003 (fun h => h.byDebug acc (fun h => h.dbgKey 0x44470003 same)) := execDebugReset.eq_1 ..
theorem exec_debugWake : exec (.debugWake acc) s = s.onDebug acc DBG_CTL 0x44470004 (fun h => h.dbgWrite acc DBG_CTL 0x44470004) := execDebugWake.eq_1 ..
theorem exec_halt : exec (.halt acc c) s = s.onDebug acc (DBG_C_CTL c) 1 (fun h => h.byDebug acc (fun h => h.dbgHalt c)) := rfl
theorem exec_run : exec (.run acc c) s = s.onDebug acc (DBG_C_CTL c) 2 (fun h => h.byDebug acc (fun h => h.dbgResume c)) := rfl
theorem exec_step : exec (.step acc c) s = s.onDebug acc (DBG_C_CTL c) 4 (fun h => h.byDebug acc (fun h => h.dbgStep c)) := rfl
theorem exec_regdataWrite : exec (.regdata acc c true v) s =
    s.onBusBy acc (fun h => Hw.portAnswer acc (DBG_C_REGDATA c) (h.dbgWrite acc (DBG_C_REGDATA c) v)) :=
  (execRegdata.eq_1 ..).trans (by simp only [if_true])
theorem exec_regdataRead : exec (.regdata acc c false v) s =
    s.onBusBy acc (fun h => Hw.portRead acc (DBG_C_REGDATA c) (h.dbgRead acc (DBG_C_REGDATA c))) :=
  (execRegdata.eq_1 ..).trans (by simp only [Bool.false_eq_true, if_false])
theorem exec_laneHalt : exec (.laneHalt acc q) s = s.onDebug acc (DBG_G_CTL q) 1 (fun h => h.dbgWrite acc (DBG_G_CTL q) 1) := rfl
theorem exec_laneRun : exec (.laneRun acc q) s = s.onDebug acc (DBG_G_CTL q) 2 (fun h => h.dbgWrite acc (DBG_G_CTL q) 2) := rfl
theorem exec_laneStep : exec (.laneStep acc q) s = s.onDebug acc (DBG_G_CTL q) 4 (fun h => h.dbgWrite acc (DBG_G_CTL q) 4) := rfl
theorem exec_watchpointWrite : exec (.watchpointWrite acc c i reg v) s =
    s.onDebug acc (DBG_C_WP_ADDR c i + 4 * reg) v (fun h => h.dbgWrite acc (DBG_C_WP_ADDR c i + 4 * reg) v) := rfl
theorem exec_patchUnitWrite : exec (.patchUnitWrite acc u w v) s =
    s.onDebug acc (DBG_PU_CTL u + 4 * w) v (fun h => h.dbgWrite acc (DBG_PU_CTL u + 4 * w) v) := rfl
theorem exec_bistCmd : exec (.bistCmd acc t) s = s.onDebug acc BIST_CMD (BitVec.ofNat 32 (0x42530000 + t.toNat))
    (fun h => h.bistWrite acc BIST_CMD (BitVec.ofNat 32 (0x42530000 + t.toNat))) := rfl
theorem exec_bistRel : exec (.bistRel acc r) s = s.onDebug acc BIST_REL (BitVec.ofNat 32 (0x42530101 + r.val))
    (fun h => h.bistWrite acc BIST_REL (BitVec.ofNat 32 (0x42530101 + r.val))) := rfl

end

/-! ### Without the permission -/

/-- FSD's standing rights end with the life-cycle block's registers. -/
theorem fsdAllowed_low {h : Hw} {a : Nat} {v : Word} (hf : h.fsdAllowed true a v) : a < 0x20040000 := by
  have e : LCS_STAT < 0x20040000 ∧ LCS_CMD < 0x20040000 ∧ LCS_ARG0 < 0x20040000 ∧ LCS_MSG 63 < 0x20040000 ∧ LCS_CHAL 15 < 0x20040000 := by decide
  obtain ⟨hstat, hcmd, harg, hmsg, hchal⟩ := e
  rcases hf with ⟨hw, -⟩ | ⟨-, hf⟩
  · exact absurd hw (by decide)
  · rcases hf with rfl | ⟨rfl, -⟩ | rfl | ⟨-, hm⟩ | ⟨-, hc⟩
    · exact hstat
    · exact hcmd
    · exact harg
    · exact lt_of_le_of_lt hm hmsg
    · exact lt_of_le_of_lt hc hchal

/-- A debug port writes a register above them with its granted permissions alone. -/
theorem dbgMay_high {h : Hw} {jtag : Bool} {a : Nat} {v : Word} (ha : 0x20040000 ≤ a) : h.dbgMay jtag a true v = true ↔ h.portGranted true a := by
  rw [dbgMay_iff]
  exact ⟨fun hm => hm.resolve_left (fun hf => absurd (fsdAllowed_low hf.2) (by omega)), Or.inr⟩

section
variable {s : State} {acc : Access} (hw : acc.who = .debug) (hc : s.hw.clocked = true) (hh : s.hw.busHeld .debug = false)
include hw hc hh

/-- A debug register that the port may not write. -/
theorem becomes_onDebug_perm {i : Instr} {a : Nat} {v : Word} {f : Hw → Hw × AccRes} (hi : exec i s = s.onDebug acc a v f) (ha : 0x20040000 ≤ a)
    (hp : ¬ s.hw.portGranted true a) : Becomes i s (s.hw.set DBG_STAT.FSD_FAULT 1) :=
  becomes_of_busTo_perm hi hc hw hh (Bool.eq_false_iff.mpr (mt (dbgMay_high ha).mp hp))

theorem becomes_noPatch (hp : ¬ bitOf (s.hw.get LCS_STAT.DBG_PERM) 1 = true) (u : Fin 32) (w : Fin 16) (v : Word) :
    Becomes (.patchUnitWrite acc u w v) s (s.hw.set DBG_STAT.FSD_FAULT 1) := by
  refine becomes_onDebug_perm hw hc hh (exec_patchUnitWrite ..) ?_ ?_
  · simp only [DBG_PU_CTL]; omega
  · rintro ⟨-, hg⟩
    rcases hg with hg | ⟨hg, -⟩
    · exact absurd hg (by decide)
    · simp only [DBG_PU_CTL] at hg
      rcases hg with hg | hg | hg
      · omega
      · omega
      · exact hp hg

theorem becomes_noBist (hp : ¬ bitOf (s.hw.get LCS_STAT.DBG_PERM) 2 = true) (t : Byte) (r : Fin 2) :
    ∀ x ∈ [Instr.bistCmd acc t, .bistRel acc r], Becomes x s (s.hw.set DBG_STAT.FSD_FAULT 1) := by
  have hg : ∀ a, 0x20180000 ≤ a → a < 0x20190000 → ¬ s.hw.portGranted true a := by
    rintro a hlo hhi ⟨-, hg | ⟨-, hg⟩⟩
    · exact absurd hg (by decide)
    · rcases hg with hg | hg | hg
      · omega
      · omega
      · exact hp hg
  simp only [List.forall_mem_cons, List.not_mem_nil, false_implies, implies_true, and_true]
  exact ⟨becomes_onDebug_perm hw hc hh (exec_bistCmd ..) (by decide) (hg _ (by decide) (by decide)),
    becomes_onDebug_perm hw hc hh (exec_bistRel ..) (by decide) (hg _ (by decide) (by decide))⟩

theorem becomes_noHaltMem (hp : ¬ bitOf (s.hw.get LCS_STAT.DBG_PERM) 0 = true) (c : Fin 3) (q : Fin 16) (u : Fin 32) (w : Fin 16) (i : Fin 8)
    (reg : Fin 4) (t : Byte) (r : Fin 2) (v : Word) (same wr : Bool) (port : Option Bool) :
    ∀ x ∈ [Instr.attach acc port, .detach acc, .debugReset acc same, .debugWake acc, .halt acc c, .run acc c, .step acc c, .regdata acc c wr v,
      .laneHalt acc q, .laneRun acc q, .laneStep acc q, .watchpointWrite acc c i reg v, .patchUnitWrite acc u w v, .bistCmd acc t, .bistRel acc r],
      Becomes x s (s.hw.set DBG_STAT.FSD_FAULT 1) := by
  have hg : ∀ a, ¬ s.hw.portGranted true a := fun a hg => hp hg.1
  have hctl : 0x20040000 ≤ DBG_C_CTL c := by simp only [DBG_C_CTL]; omega
  have hlane : 0x20040000 ≤ DBG_G_CTL q := by simp only [DBG_G_CTL]; omega
  have hwp : 0x20040000 ≤ DBG_C_WP_ADDR c i + 4 * reg := by simp only [DBG_C_WP_ADDR]; omega
  have hpu : 0x20040000 ≤ DBG_PU_CTL u + 4 * w := by simp only [DBG_PU_CTL]; omega
  simp only [List.forall_mem_cons, List.not_mem_nil, false_implies, implies_true, and_true]
  refine ⟨becomes_onDebug_perm hw hc hh (exec_attach ..) (by decide) (hg _), becomes_onDebug_perm hw hc hh (exec_detach ..) (by decide) (hg _),
    becomes_onDebug_perm hw hc hh (exec_debugReset ..) (by decide) (hg _), becomes_onDebug_perm hw hc hh (exec_debugWake ..) (by decide) (hg _),
    becomes_onDebug_perm hw hc hh (exec_halt ..) hctl (hg _), becomes_onDebug_perm hw hc hh (exec_run ..) hctl (hg _),
    becomes_onDebug_perm hw hc hh (exec_step ..) hctl (hg _), ?_,
    becomes_onDebug_perm hw hc hh (exec_laneHalt ..) hlane (hg _), becomes_onDebug_perm hw hc hh (exec_laneRun ..) hlane (hg _),
    becomes_onDebug_perm hw hc hh (exec_laneStep ..) hlane (hg _), becomes_onDebug_perm hw hc hh (exec_watchpointWrite ..) hwp (hg _),
    becomes_onDebug_perm hw hc hh (exec_patchUnitWrite ..) hpu (hg _), becomes_onDebug_perm hw hc hh (exec_bistCmd ..) (by decide) (hg _),
    becomes_onDebug_perm hw hc hh (exec_bistRel ..) (by decide) (hg _)⟩
  have hn : s.hw.permits 0 = false := Bool.eq_false_iff.mpr hp
  cases wr
  · exact becomes_of_busTo_perm (may := fun h => h.permits 0) (exec_regdataRead ..) hc hw hh hn
  · exact becomes_of_busTo_perm (may := fun h => h.permits 0) (exec_regdataWrite ..) hc hw hh hn

end

/-! ### Accesses that the port's permissions let through -/

/-- The permission of a debug register below the patch units' is HALT_MEM. -/
theorem portGranted_plain {h : Hw} {a : Nat} (ha : a < 0x20171000) : h.portGranted true a ↔ h.permits 0 = true :=
  ⟨fun hg => hg.1, fun hg => ⟨hg, .inr ⟨.inl ha, .inl (by omega)⟩⟩⟩

/-- An access that is open with HALT_MEM alone is open at a register that asks for no more. -/
theorem opensTo_onDebug {h : Hw} {acc : Access} {a : Nat} {v : Word} (ho : h.opens acc = true) (ha : 0x20040000 ≤ a)
    (hg : acc.who = .debug → h.permits 0 = true → h.portGranted true a) : h.opensTo acc (h.dbgMay h.dbg.jtag a true v) = true := by
  simp only [Hw.opens, Hw.opensTo, Bool.and_eq_true, Bool.or_eq_true, Bool.not_eq_true', fromDebug, decide_eq_false_iff_not] at ho ⊢
  obtain ⟨⟨⟨hc, hb⟩, hp⟩, hm⟩ := ho
  refine ⟨⟨⟨hc, hb⟩, hp⟩, ?_⟩
  by_cases hd : acc.who = .debug
  · exact .inr ((dbgMay_high ha).mpr (hg hd (hm.resolve_left (fun hn => hn hd))))
  · exact .inl hd

/-- A debug register that asks for no more than HALT_MEM acts. -/
theorem becomes_onDebug {i : Instr} {s : State} {acc : Access} {a : Nat} {v : Word} {f : Hw → Hw × AccRes} {k : Hw}
    (hi : exec i s = s.onDebug acc a v f) (ho : s.hw.opens acc = true) (hlo : 0x20040000 ≤ a) (hhi : a < 0x20171000)
    (hk : Hw.portAnswer acc a (f s.hw) = k) : Becomes i s k :=
  becomes_of_busTo hi (opensTo_onDebug ho hlo (fun _ hp => (portGranted_plain hhi).mpr hp)) hk

/-- So does a patch unit, with PATCH. -/
theorem becomes_onDebug_patch {i : Instr} {s : State} {acc : Access} {a : Nat} {v : Word} {f : Hw → Hw × AccRes} {k : Hw}
    (hi : exec i s = s.onDebug acc a v f) (ho : s.hw.opens acc = true) (hlo : 0x20040000 ≤ a) (hhi : a < 0x20180000)
    (hp : acc.who = .debug → bitOf (s.hw.get LCS_STAT.DBG_PERM) 1 = true) (hk : Hw.portAnswer acc a (f s.hw) = k) : Becomes i s k :=
  becomes_of_busTo hi (opensTo_onDebug ho hlo (fun hd h0 => ⟨h0, .inr ⟨.inr (.inr (hp hd)), .inl hhi⟩⟩)) hk

/-- And the BIST window, with BIST. -/
theorem becomes_onDebug_bist {i : Instr} {s : State} {acc : Access} {a : Nat} {v : Word} {f : Hw → Hw × AccRes} {k : Hw}
    (hi : exec i s = s.onDebug acc a v f) (ho : s.hw.opens acc = true) (hlo : 0x20171800 ≤ a)
    (hp : acc.who = .debug → bitOf (s.hw.get LCS_STAT.DBG_PERM) 2 = true) (hk : Hw.portAnswer acc a (f s.hw) = k) : Becomes i s k :=
  becomes_of_busTo hi (opensTo_onDebug ho (by omega) (fun hd h0 => ⟨h0, .inr ⟨.inr (.inl hlo), .inr (.inr (hp hd))⟩⟩)) hk

/-! ### Answers -/

theorem portAnswer_other {acc : Access} (hw : acc.who ≠ .debug) (a : Nat) (r : Hw × AccRes) : Hw.portAnswer acc a r = r.1 :=
  if_neg (by simpa [fromDebug] using hw)

theorem byDebug_debug {h : Hw} {acc : Access} (hw : acc.who = .debug) (f : Hw → Hw) : h.byDebug acc f = (f h, .ok) :=
  if_pos (decide_eq_true hw)

theorem byDebug_other {h : Hw} {acc : Access} (hw : acc.who ≠ .debug) (f : Hw → Hw) : h.byDebug acc f = (h, .owner) :=
  if_neg (by simpa [fromDebug] using hw)

end Sys2Proof.Machine

/-! Attaching, halting, running and stepping cores, and a halted core's registers (spec/19_debug_and_test.md, R445 to R448). -/

namespace Sys2Proof.Machine

/-! ### Cores by number -/

theorem coreAt_core (h : Hw) (c : Nat) : h.coreAt c = h.core (dbgCore c) := by
  unfold Hw.coreAt dbgCore
  split
  · rfl
  · split <;> rfl

theorem setCoreAt_core (h : Hw) (c : Nat) (x : Core) : h.setCoreAt c x = h.setCore (dbgCore c) x := by
  unfold Hw.setCoreAt dbgCore
  split
  · rfl
  · split <;> rfl

theorem coreNum_dbgCore {c : Nat} (hc : c < 3) : coreNum (dbgCore c) = c := by
  have : c = 0 ∨ c = 1 ∨ c = 2 := by omega
  rcases this with rfl | rfl | rfl <;> rfl

theorem coreAt_setCoreAt (h : Hw) {c j : Nat} (hc : c < 3) (hj : j < 3) (x : Core) :
    (h.setCoreAt c x).coreAt j = if j = c then x else h.coreAt j := by
  have hc' : c = 0 ∨ c = 1 ∨ c = 2 := by omega
  have hj' : j = 0 ∨ j = 1 ∨ j = 2 := by omega
  rcases hc' with rfl | rfl | rfl <;> rcases hj' with rfl | rfl | rfl <;> rfl

theorem coreAt_setCoreAt_self (h : Hw) {c : Nat} (hc : c < 3) (x : Core) : (h.setCoreAt c x).coreAt c = x := by
  rw [coreAt_setCoreAt h hc hc, if_pos rfl]

/-- Everything but the cores is as before. -/
theorem setCoreAt_regs (h : Hw) (c : Nat) (x : Core) : (h.setCoreAt c x).regs = h.regs := by
  unfold Hw.setCoreAt
  split
  · rfl
  · split <;> rfl

theorem setCoreAt_lnch (h : Hw) (c : Nat) (x : Core) : (h.setCoreAt c x).lnch = h.lnch := by
  rw [setCoreAt_core, Hw.setCore_lnch]

theorem setCoreAt_laneG (h : Hw) (c : Nat) (x : Core) : (h.setCoreAt c x).laneG = h.laneG := by
  rw [setCoreAt_core, Hw.setCore_laneG]

@[simp] theorem canon_coreAt (h : Hw) (j : Nat) : h.canon.coreAt j = h.coreAt j := rfl
@[simp] theorem set_coreAt (h : Hw) (f : Fld) (v j : Nat) : (h.set f v).coreAt j = h.coreAt j := rfl

/-- The cores other than `c` are those of `h`. -/
def Hw.coresBeside (h t : Hw) (c : Nat) : Prop := ∀ j, j < 3 → j = c ∨ t.coreAt j = h.coreAt j

theorem coresBeside_setCoreAt (h : Hw) {c : Nat} (hc : c < 3) (x : Core) : h.coresBeside (h.setCoreAt c x) c := by
  intro j hj
  by_cases hjc : j = c
  · exact .inl hjc
  · exact .inr (by rw [coreAt_setCoreAt h hc hj, if_neg hjc])

/-! ### A debug register written by the debug port alone -/

section
variable {s : State} {acc : Access} (ho : s.hw.opens acc = true)
include ho

/-- What is not the debug port leaves such a register as it is. -/
theorem becomes_byDebug_other {i : Instr} {a : Nat} {v : Word} {f : Hw → Hw × AccRes} (hi : exec i s = s.onDebug acc a v f)
    (hlo : 0x20040000 ≤ a) (hhi : a < 0x20171000) (hw : acc.who ≠ .debug) (hf : f s.hw = (s.hw, .owner)) : Becomes i s s.hw :=
  becomes_onDebug hi ho hlo hhi (by rw [hf, portAnswer_other hw])

/-- What the debug port asks of it is done. -/
theorem becomes_byDebug {i : Instr} {a : Nat} {v : Word} {f : Hw → Hw × AccRes} {k : Hw} (hi : exec i s = s.onDebug acc a v f)
    (hlo : 0x20040000 ≤ a) (hhi : a < 0x20171000) (hf : f s.hw = (k, .ok)) : Becomes i s k :=
  becomes_onDebug hi ho hlo hhi (by rw [hf, Hw.portAnswer_ok])

end

/-! ### The keys of DBG_CTL -/

theorem dbgWrite_key (h : Hw) (acc : Access) (v : Word) : h.dbgWrite acc DBG_CTL v = h.byDebug acc (fun h => h.dbgKey v false) := by
  have ho : DBG_CTL - 0x20170000 = 4 := rfl
  rw [Hw.dbgWrite]
  exact if_pos ho

theorem dbgKey_attach (h : Hw) (same : Bool) : h.dbgKey 0x44470001 same = h.attach := if_pos rfl
theorem dbgKey_detach (h : Hw) (same : Bool) : h.dbgKey 0x44470002 same = h.detach := by
  rw [Hw.dbgKey, if_neg (by decide), if_pos rfl]
theorem dbgKey_reset (h : Hw) (same : Bool) : h.dbgKey 0x44470003 same = h.requestReset rcDebug same := by
  rw [Hw.dbgKey, if_neg (by decide), if_neg (by decide), if_pos rfl]
theorem dbgKey_wake (h : Hw) (same : Bool) : h.dbgKey 0x44470004 same = h.emulatedWake := by
  rw [Hw.dbgKey, if_neg (by decide), if_neg (by decide), if_neg (by decide), if_pos rfl]

theorem pulseLine_contains (h : Hw) (k : Nat) : (h.pulseLine k).lineLatch.contains k = true := by
  unfold Hw.pulseLine
  split
  · assumption
  · simp

theorem attach_reads (h : Hw) : h.attach.reads [(DBG_STAT.ATTACHED, 1), (DBG_STAT.PORT, b2n h.dbg.jtag)] := by
  have hs : (h.sets [(DBG_STAT.ATTACHED, 1), (DBG_STAT.PORT, b2n h.dbg.jtag)]).reads [(DBG_STAT.ATTACHED, 1), (DBG_STAT.PORT, b2n h.dbg.jtag)] := by
    simp only [Hw.reads_cons, Hw.reads_nil, and_true, Hw.sets_cons, Hw.sets_nil]
    refine ⟨?_, ?_⟩
    · rw [Hw.get_set_of_apart _ _ _ _ (by decide), Hw.get_set_self _ _ _ (by decide)]
      rfl
    · rw [Hw.get_set_self _ _ _ (by decide)]
      exact b2n_mod1 _
  unfold Hw.attach
  dsimp only
  split
  · exact fun p hp => (Hw.pulseLine_get _ _ _).trans (hs p hp)
  · exact hs

theorem attach_line (h : Hw) (hie : h.get DBG_IE.ATTACH = 1) : h.attach.lineLatch.contains 242 = true := by
  have hs : (h.sets [(DBG_STAT.ATTACHED, 1), (DBG_STAT.PORT, b2n h.dbg.jtag)]).on DBG_IE.ATTACH = true := by
    rw [Hw.on_iff _ rfl, Hw.get_sets_apart _ _ _ (by intro p hp; simp only [List.mem_cons, List.not_mem_nil, or_false] at hp; rcases hp with rfl | rfl <;> rfl), hie]
  have ha : h.attach = (h.sets [(DBG_STAT.ATTACHED, 1), (DBG_STAT.PORT, b2n h.dbg.jtag)]).pulseLine 242 := if_pos hs
  rw [ha]
  exact pulseLine_contains _ _

section
variable {s : State} {acc : Access} (ho : s.hw.opens acc = true)
include ho

/-- The keys do nothing for another initiator. -/
theorem becomes_keys_other (hw : acc.who ≠ .debug) (same : Bool) (port : Option Bool) :
    Becomes (.attach acc port) s s.hw ∧ Becomes (.detach acc) s s.hw ∧ Becomes (.debugReset acc same) s s.hw ∧ Becomes (.debugWake acc) s s.hw := by
  refine ⟨becomes_byDebug_other ho (exec_attach ..) (by decide) (by decide) hw ?_, becomes_byDebug_other ho (exec_detach ..) (by decide) (by decide) hw ?_,
    becomes_byDebug_other ho (exec_debugReset ..) (by decide) (by decide) hw ?_, becomes_byDebug_other ho (exec_debugWake ..) (by decide) (by decide) hw ?_⟩
  · rw [dbgWrite_key, byDebug_other hw, show fromDebug acc = false from decide_eq_false hw, if_neg (by decide)]
  · rw [dbgWrite_key, byDebug_other hw]
  · rw [byDebug_other hw]
  · rw [dbgWrite_key, byDebug_other hw]

/-- The commands of a core do nothing for another initiator either. -/
theorem becomes_core_other (hw : acc.who ≠ .debug) (c : Fin 3) : Becomes (.halt acc c) s s.hw ∧ Becomes (.run acc c) s s.hw ∧ Becomes (.step acc c) s s.hw := by
  have hlo : 0x20040000 ≤ DBG_C_CTL c := by simp only [DBG_C_CTL]; omega
  have hhi : DBG_C_CTL c < 0x20171000 := by simp only [DBG_C_CTL]; omega
  exact ⟨becomes_byDebug_other ho (exec_halt ..) hlo hhi hw (byDebug_other hw _), becomes_byDebug_other ho (exec_run ..) hlo hhi hw (byDebug_other hw _),
    becomes_byDebug_other ho (exec_step ..) hlo hhi hw (byDebug_other hw _)⟩

variable (hw : acc.who = .debug)
include hw

theorem becomes_attach (port : Option Bool) :
    Becomes (.attach acc port) s (Hw.attach { s.hw with dbg := { s.hw.dbg with jtag := port.getD s.hw.dbg.jtag } }) := by
  refine becomes_byDebug ho (exec_attach ..) (by decide) (by decide) ?_
  rw [dbgWrite_key, byDebug_debug hw, dbgKey_attach, show fromDebug acc = true from decide_eq_true hw, if_pos rfl]

theorem completes_attach (port : Option Bool) : Completes (.attach acc port) s (fun t =>
    t.reads [(DBG_STAT.ATTACHED, 1), (DBG_STAT.PORT, b2n (port.getD s.hw.dbg.jtag))] ∧
      (s.hw.get DBG_IE.ATTACH = 1 → t.lineLatch.contains 242 = true)) :=
  (becomes_attach ho hw port).completes ⟨Hw.reads_canon (attach_reads _), fun hie => by
    rw [Hw.canon_lineLatch]
    exact attach_line _ hie⟩

theorem becomes_detach : Becomes (.detach acc) s s.hw.detach :=
  becomes_byDebug ho (exec_detach ..) (by decide) (by decide) (by rw [dbgWrite_key, byDebug_debug hw, dbgKey_detach])

theorem becomes_detach_idle (ha : s.hw.get DBG_STAT.ATTACHED = 0) : Becomes (.detach acc) s s.hw := by
  have hd : s.hw.detach = s.hw := if_pos (by rw [Hw.on, ha]; rfl)
  exact hd ▸ becomes_detach ho hw

theorem becomes_debugWake : Becomes (.debugWake acc) s s.hw.emulatedWake :=
  becomes_byDebug ho (exec_debugWake ..) (by decide) (by decide) (by rw [dbgWrite_key, byDebug_debug hw, dbgKey_wake])

theorem becomes_debugWake_awake (hs : s.hw.pwr.sleep ≠ .sleepEmulated) : Becomes (.debugWake acc) s s.hw := by
  have hd : s.hw.emulatedWake = s.hw := if_neg hs
  exact hd ▸ becomes_debugWake ho hw

theorem becomes_debugReset (same : Bool) : Becomes (.debugReset acc same) s (s.hw.requestReset 0xA same) :=
  becomes_byDebug ho (exec_debugReset ..) (by decide) (by decide) (by rw [byDebug_debug hw, dbgKey_reset]; rfl)

omit hw in
theorem mainUp_of_opens : s.hw.mainUp = true := by
  simp only [Hw.opens, Hw.opensTo, Hw.clocked, Bool.and_eq_true] at ho
  exact ho.1.1.1.1

theorem becomes_debugReset_first (hp : s.hw.pwr.pending = none) (same : Bool) :
    Becomes (.debugReset acc same) s { s.hw with pwr := { s.hw.pwr with pending := some (0xA, false) } } := by
  have hr := s.hw.requestReset_only 0xA same
  rw [Hw.requestReset_first (mainUp_of_opens ho) hp] at hr
  exact hr ▸ becomes_debugReset ho hw same

theorem becomes_debugReset_later {p : Nat × Bool} (hp : s.hw.pwr.pending = some p) (same : Bool) :
    (same = false ∨ p.1 = 0xA → Becomes (.debugReset acc same) s s.hw) ∧
    (same = true → p.1 ≠ 0xA → Becomes (.debugReset acc same) s { s.hw with pwr := { s.hw.pwr with pending := some (min p.1 0xA, true) } }) := by
  have hr := s.hw.requestReset_only 0xA same
  have hb := becomes_debugReset ho hw same
  rw [Hw.requestReset_later (mainUp_of_opens ho) hp] at hr
  refine ⟨fun hc => ?_, fun hs hne => ?_⟩
  · rw [if_neg (by rintro ⟨hs, hne⟩; rcases hc with hc | hc; exacts [absurd (hc.symm.trans hs) (by decide), hne hc]), ← hp] at hr
    rw [hr] at hb
    exact hb
  · rw [if_pos ⟨hs, hne⟩] at hr
    rw [hr] at hb
    exact hb

end

/-! ### Halt, run and step (R446, R447) -/

/-- A core that a halt stops. -/
def Core.goesOn (x : Core) : Prop := x.run = .running ∨ x.run = .waiting ∨ x.run = .romWait

theorem dbgHalt_idle {h : Hw} {c : Nat} (hg : ¬ (h.coreAt c).goesOn) : h.dbgHalt c = h := by
  refine if_neg ?_
  simpa [Core.goesOn, or_assoc] using hg

theorem dbgHalt_goes {h : Hw} {c : Nat} (hg : (h.coreAt c).goesOn) : h.dbgHalt c =
    if h.owesAccess (coreIni (dbgCore c)) then h.setCoreAt c { h.coreAt c with stepping := false, haltReq := true }
    else (h.setCoreAt c { h.coreAt c with stepping := false }).haltCore (dbgCore c) haltWrite :=
  if_pos (by simpa [Core.goesOn, or_assoc] using hg)

theorem dbgHalt_owes {h : Hw} {c : Nat} (hg : (h.coreAt c).goesOn) (ho : h.owesAccess (coreIni (dbgCore c)) = true) :
    h.dbgHalt c = h.setCoreAt c { h.coreAt c with stepping := false, haltReq := true } := (dbgHalt_goes hg).trans (if_pos ho)

/-- A halted core, as DBG_Cc_STAT shows it. -/
theorem haltCore_eq (h : Hw) {c : Nat} (hc : c < 3) (cause : Nat) : h.haltCore (dbgCore c) cause =
    ((h.setCoreAt c { h.coreAt c with run := .halted, resv := none }).set (DBG_C_STAT.HALTED c) 1).set (DBG_C_STAT.CAUSE c) cause := by
  rw [Hw.haltCore, coreNum_dbgCore hc, setCoreAt_core, coreAt_core]
  rfl

theorem setCoreAt_setCoreAt (h : Hw) (c : Nat) (x y : Core) : (h.setCoreAt c x).setCoreAt c y = h.setCoreAt c y := by
  unfold Hw.setCoreAt
  split
  · rfl
  · split <;> rfl

theorem dbgHalt_now {h : Hw} {c : Nat} (hc : c < 3) (hg : (h.coreAt c).goesOn) (ho : ¬ h.owesAccess (coreIni (dbgCore c)) = true) :
    h.dbgHalt c = ((h.setCoreAt c { h.coreAt c with run := .halted, resv := none, stepping := false }).set (DBG_C_STAT.HALTED c) 1).set
      (DBG_C_STAT.CAUSE c) 1 := by
  rw [dbgHalt_goes hg, if_neg ho, haltCore_eq _ hc, setCoreAt_setCoreAt, coreAt_setCoreAt_self h hc]
  rfl

/-- Core `c` stays in the ROM wait loop when it goes on. -/
abbrev Hw.romAt (h : Hw) (c : Nat) : Prop := c = 0 ∧ h.lnch.phase = .failed

theorem inRomLoop_iff (h : Hw) (c : Nat) : h.inRomLoop c = true ↔ h.romAt c := by
  simp [Hw.inRomLoop, Hw.romAt]

/-- What a halted core does when it goes on. -/
def Hw.resumes (h : Hw) (c : Nat) : Core :=
  { (h.coreAt c).applied with run := if h.inRomLoop c then .romWait else .running, wpExempt := true }

theorem resumes_eq (h : Hw) (c : Nat) :
    h.resumes c = { (h.coreAt c).applied with run := if h.romAt c then .romWait else .running, wpExempt := true } := by
  unfold Hw.resumes
  simp only [inRomLoop_iff]

theorem dbgResume_halted {h : Hw} {c : Nat} (hr : (h.coreAt c).run = .halted) :
    h.dbgResume c = (h.setCoreAt c (h.resumes c)).set (DBG_C_STAT.HALTED c) 0 := if_pos hr

theorem dbgResume_running {h : Hw} {c : Nat} (hr : (h.coreAt c).run ≠ .halted) : h.dbgResume c = h := if_neg hr

theorem dbgStep_running {h : Hw} {c : Nat} (hr : (h.coreAt c).run ≠ .halted) : h.dbgStep c = h := by
  rw [Hw.dbgStep, if_neg (by simp [hr]), if_neg hr]

theorem dbgStep_rom {h : Hw} {c : Nat} (hr : (h.coreAt c).run = .halted) (hm : h.romAt c) : h.dbgStep c = h.set (DBG_C_STAT.CAUSE c) 4 :=
  if_pos (by simp [hr, (inRomLoop_iff h c).mpr hm])

theorem dbgStep_goes {h : Hw} {c : Nat} (hc : c < 3) (hr : (h.coreAt c).run = .halted) (hm : ¬ h.romAt c) :
    h.dbgStep c = ((h.setCoreAt c (h.resumes c)).set (DBG_C_STAT.HALTED c) 0).setCoreAt c { h.resumes c with stepping := true } := by
  rw [Hw.dbgStep, if_neg (by simp [hr, mt (inRomLoop_iff h c).mp hm]), if_pos hr, dbgResume_halted hr]
  show Hw.setCoreAt _ c _ = _
  rw [set_coreAt, coreAt_setCoreAt_self h hc]

section
variable {s : State} {acc : Access} {c : Fin 3} (ho : s.hw.opens acc = true) (hw : acc.who = .debug)
include ho hw

theorem becomes_ctl {i : Instr} {f : Hw → Hw} {v : Word} (hi : exec i s = s.onDebug acc (DBG_C_CTL c) v (fun h => h.byDebug acc f)) :
    Becomes i s (f s.hw) :=
  becomes_byDebug ho hi (by simp only [DBG_C_CTL]; omega) (by simp only [DBG_C_CTL]; omega) (byDebug_debug hw f)

theorem becomes_halt_idle (hg : ¬ (s.hw.coreAt c).goesOn) : Becomes (.halt acc c) s s.hw := by
  have := becomes_ctl ho hw (exec_halt s acc c)
  rwa [dbgHalt_idle hg] at this

theorem completes_halt_owes (hg : (s.hw.coreAt c).goesOn) (he : s.hw.owesAccess (coreIni (dbgCore c)) = true) : Completes (.halt acc c) s (fun t =>
    t.coreAt c = { s.hw.coreAt c with stepping := false, haltReq := true } ∧ s.hw.coresBeside t c ∧
      t.get (DBG_C_STAT.HALTED c) = s.hw.get (DBG_C_STAT.HALTED c)) := by
  have hb := becomes_ctl ho hw (exec_halt s acc c)
  rw [dbgHalt_owes hg he] at hb
  refine hb.completes ⟨?_, coresBeside_setCoreAt _ c.isLt _, ?_⟩
  · rw [canon_coreAt, coreAt_setCoreAt_self _ c.isLt]
  · rw [Hw.get_canon, Hw.get_of_regs (setCoreAt_regs _ _ _)]

theorem completes_halt_now (hg : (s.hw.coreAt c).goesOn) (he : ¬ s.hw.owesAccess (coreIni (dbgCore c)) = true) : Completes (.halt acc c) s (fun t =>
    t.coreAt c = { s.hw.coreAt c with run := .halted, resv := none, stepping := false } ∧ s.hw.coresBeside t c ∧
      t.reads [(DBG_C_STAT.HALTED c, 1), (DBG_C_STAT.CAUSE c, 1)]) := by
  have hb := becomes_ctl ho hw (exec_halt s acc c)
  rw [dbgHalt_now c.isLt hg he] at hb
  refine hb.completes ⟨?_, coresBeside_setCoreAt _ c.isLt _, Hw.reads_canon ?_⟩
  · rw [canon_coreAt, set_coreAt, set_coreAt, coreAt_setCoreAt_self _ c.isLt]
  · simp only [Hw.reads_cons, Hw.reads_nil, and_true]
    rw [Hw.get_set_of_apart _ _ _ _ (by simp [Fld.apart, DBG_C_STAT.HALTED, DBG_C_STAT.CAUSE]), Hw.get_set_self _ _ _ (by decide : 0 + 1 ≤ 32),
      Hw.get_set_self _ _ _ (by decide : 1 + 3 ≤ 32)]
    exact ⟨rfl, rfl⟩

theorem becomes_run_step_idle (hr : (s.hw.coreAt c).run ≠ .halted) : Becomes (.run acc c) s s.hw ∧ Becomes (.step acc c) s s.hw := by
  have hb := becomes_ctl ho hw (exec_run s acc c)
  have hs := becomes_ctl ho hw (exec_step s acc c)
  rw [dbgResume_running hr] at hb
  rw [dbgStep_running hr] at hs
  exact ⟨hb, hs⟩

theorem completes_run (hr : (s.hw.coreAt c).run = .halted) : Completes (.run acc c) s (fun t =>
    t.coreAt c = { (s.hw.coreAt c).applied with run := if s.hw.romAt c then .romWait else .running, wpExempt := true } ∧ s.hw.coresBeside t c ∧
      t.get (DBG_C_STAT.HALTED c) = 0) := by
  rw [← resumes_eq]
  have hb := becomes_ctl ho hw (exec_run s acc c)
  rw [dbgResume_halted hr] at hb
  refine hb.completes ⟨?_, coresBeside_setCoreAt _ c.isLt _, ?_⟩
  · rw [canon_coreAt, set_coreAt, coreAt_setCoreAt_self _ c.isLt]
  · rw [Hw.get_canon, Hw.get_set_self _ _ _ (by decide : 0 + 1 ≤ 32)]
    rfl

theorem becomes_step_rom (hr : (s.hw.coreAt c).run = .halted) (hm : s.hw.romAt c) : Becomes (.step acc c) s (s.hw.set (DBG_C_STAT.CAUSE c) 4) := by
  have hb := becomes_ctl ho hw (exec_step s acc c)
  rwa [dbgStep_rom hr hm] at hb

theorem completes_step (hr : (s.hw.coreAt c).run = .halted) (hm : ¬ s.hw.romAt c) : Completes (.step acc c) s (fun t =>
    t.coreAt c = { (s.hw.coreAt c).applied with run := .running, wpExempt := true, stepping := true } ∧ s.hw.coresBeside t c ∧
      t.get (DBG_C_STAT.HALTED c) = 0) := by
  have hx : ({ (s.hw.coreAt c).applied with run := .running, wpExempt := true, stepping := true } : Core) = { s.hw.resumes c with stepping := true } := by
    rw [resumes_eq, if_neg hm]
  rw [hx]
  have hb := becomes_ctl ho hw (exec_step s acc c)
  rw [dbgStep_goes c.isLt hr hm] at hb
  refine hb.completes ⟨?_, fun j hj => ?_, ?_⟩
  · rw [canon_coreAt, coreAt_setCoreAt_self _ c.isLt]
  · by_cases hjc : j = c
    · exact .inl hjc
    · rw [canon_coreAt, coreAt_setCoreAt _ c.isLt hj, if_neg hjc, set_coreAt, coreAt_setCoreAt _ c.isLt hj, if_neg hjc]
      exact .inr rfl
  · rw [Hw.get_canon, Hw.get_of_regs (setCoreAt_regs _ _ _), Hw.get_set_self _ _ _ (by decide : 0 + 1 ≤ 32)]
    rfl

end

end Sys2Proof.Machine

/-! A halted core's registers through REGSEL and REGDATA (spec/19_debug_and_test.md, R448). -/

namespace Sys2Proof.Machine

/-! ### The register's place in the window -/

section
variable {c : Fin 3}

theorem regdata_offset : DBG_C_REGDATA c - 0x20170000 = 0x114 + 0x100 * c.val ∧ (DBG_C_REGDATA c - 0x20170000) / 0x100 - 1 = c.val ∧
    (DBG_C_REGDATA c - 0x20170000) % 0x100 = 0x14 := by
  simp only [DBG_C_REGDATA]
  omega

theorem dbgWrite_regdata (h : Hw) (acc : Access) (v : Word) :
    h.dbgWrite acc (DBG_C_REGDATA c) v = if fromDebug acc then h.regdataWrite c v else (h, .owner) := by
  have hc := c.isLt
  obtain ⟨ho, hn, hk⟩ := regdata_offset (c := c)
  rw [Hw.dbgWrite, hn, hk, ho, if_neg (by omega), if_neg (by omega), if_pos (by simp; omega), if_neg (by decide), if_neg (by decide)]
  by_cases hd : fromDebug acc = true
  · rw [if_pos hd, if_neg (by simp [hd]), if_neg (by decide), if_neg (by decide), if_neg (by decide), if_pos rfl]
  · rw [if_neg hd, if_pos (by simpa using hd)]

theorem dbgRead_regdata (h : Hw) (acc : Access) : h.dbgRead acc (DBG_C_REGDATA c) = (h, h.regdataRead c) := by
  have hc := c.isLt
  obtain ⟨ho, hn, hk⟩ := regdata_offset (c := c)
  have hq : readChanges (DBG_C_REGDATA c) = false := by revert c; decide +kernel
  rw [Hw.dbgRead, hn, hk, ho, hq, if_neg (by simp), if_neg (by simp), if_neg (by simp), if_pos (by simp; omega)]

theorem regdata_reason : busReason (DBG_C_REGDATA c) = 5 := by revert c; decide

end

/-- A bus error of the debug port's (R443, R448). -/
theorem portAnswer_debugBus {acc : Access} (hw : acc.who = .debug) (a : Nat) (k : Hw) :
    Hw.portAnswer acc a (k, .bus) = k.set DBG_STAT.FSD_FAULT (busReason a) := if_pos (decide_eq_true hw)

theorem coreHalted_iff (h : Hw) (c : Nat) : h.coreHalted c = true ↔ (h.coreAt c).run = .halted := decide_eq_true_iff

/-! ### What a register takes -/

theorem pickedWrite_gr (x : Core) (c : CoreId) {num : Nat} (hn : num < 32) (v : Word) : x.pickedWrite c num v = x.setGr (Fin.ofNat 32 num) v :=
  if_pos hn

theorem pickedWrite_f (x : Core) (c : CoreId) {num : Nat} (h32 : 32 ≤ num) (h64 : num < 64) (v : Word) : x.pickedWrite c num v =
    { x with f := x.f.set (Fin.ofNat 32 num) (x.f[Fin.ofNat 32 num] >>> 32 <<< 32 ||| v.zeroExtend 64) } := by
  rw [Core.pickedWrite, if_neg (by omega), if_pos h64]

theorem pickedWrite_special (x : Core) (c : CoreId) {num : Nat} (hn : 96 ≤ num) (h160 : num ≠ 160) (v : Word) :
    x.pickedWrite c num v = x.specialWrite c (Fin.ofNat 32 num) v := by
  rw [Core.pickedWrite, if_neg (by omega), if_neg (by omega), if_neg (by omega), if_neg h160]

/-- SSTAT, EPROG and TID change what acts at RUN, and nothing else (log entry 176). -/
theorem specialWrite_atRun (x : Core) (c : CoreId) {i : Fin 32} (hi : i = 0 ∨ i = 4 ∨ i = 5) (v : Word) :
    x.specialWrite c i v = { x with atRun := (x.specialWrite c i v).atRun } := by
  have hi' : (i = 0 || i = 4 || i = 5) = true := by simpa [or_assoc] using hi
  unfold Core.specialWrite
  rw [if_pos hi']
  split <;> rfl

theorem setSpecial_eprog (x : Core) (c : CoreId) (v : Word) : x.setSpecial c 4 v = some { x with eprog := v &&& 0x8000001F } := by
  cases c <;> rfl

theorem specialWrite_eprog (x : Core) (c : CoreId) (v : Word) : (x.specialWrite c 4 v).atRun =
    some ⟨x.applied.sstat, x.applied.inDF, x.applied.tid, v &&& 0x8000001F⟩ := by
  unfold Core.specialWrite
  rw [if_pos (by decide), setSpecial_eprog]

theorem specialWrite_epc (x : Core) (c : CoreId) (v : Word) : x.specialWrite c 1 v = { x with epc := v } := by
  unfold Core.specialWrite
  rw [if_neg (by decide)]
  cases c <;> rfl

theorem setGr_f (x : Core) (i : Fin 32) (v : Word) : (x.setGr i v).f = x.f := by rw [Core.setGr_eq]

/-! ### The commands -/

section
variable {s : State} {acc : Access} {c : Fin 3} (ho : s.hw.opens acc = true)
include ho

theorem becomes_regdataWrite (v : Word) : Becomes (.regdata acc c true v) s (Hw.portAnswer acc (DBG_C_REGDATA c)
    (if fromDebug acc then s.hw.regdataWrite c v else (s.hw, .owner))) :=
  becomes_of_open (exec_regdataWrite s acc c v) ho (by rw [dbgWrite_regdata])

theorem becomes_regdataWrite_other (hw : acc.who ≠ .debug) (v : Word) : Becomes (.regdata acc c true v) s s.hw := by
  have hb := becomes_regdataWrite (c := c) ho v
  rwa [if_neg (by simpa [fromDebug] using hw), portAnswer_other hw] at hb

theorem becomes_regdataWrite_running (hw : acc.who = .debug) (hr : (s.hw.coreAt c).run ≠ .halted) (v : Word) :
    Becomes (.regdata acc c true v) s (s.hw.set DBG_STAT.FSD_FAULT 5) := by
  have hd : fromDebug acc = true := decide_eq_true hw
  have hb := becomes_regdataWrite (c := c) ho v
  rwa [if_pos hd, Hw.regdataWrite, if_neg (mt (coreHalted_iff _ _).mp hr), portAnswer_debugBus hw, regdata_reason] at hb

/-- A halted core's register takes the word. -/
theorem becomes_regdataWrite_halted (hw : acc.who = .debug) (hr : (s.hw.coreAt c).run = .halted) (v : Word) : Becomes (.regdata acc c true v) s
    (s.hw.setCoreAt c ((s.hw.coreAt c).pickedWrite (dbgCore c) (s.hw.get (DBG_C_REGSEL.NUM c)) v)) := by
  have hd : fromDebug acc = true := decide_eq_true hw
  have hb := becomes_regdataWrite (c := c) ho v
  rwa [if_pos hd, Hw.regdataWrite, if_pos ((coreHalted_iff _ _).mpr hr), Hw.portAnswer_ok] at hb

/-- What that shows of the core, and of the others. -/
theorem completes_regdataWrite (hw : acc.who = .debug) (hr : (s.hw.coreAt c).run = .halted) (v : Word) {P : Core → Prop}
    (hp : P ((s.hw.coreAt c).pickedWrite (dbgCore c) (s.hw.get (DBG_C_REGSEL.NUM c)) v)) :
    Completes (.regdata acc c true v) s (fun t => P (t.coreAt c) ∧ s.hw.coresBeside t c) :=
  (becomes_regdataWrite_halted ho hw hr v).completes ⟨by rwa [canon_coreAt, coreAt_setCoreAt_self _ c.isLt], coresBeside_setCoreAt _ c.isLt _⟩

section
variable (hw : acc.who = .debug) (hr : (s.hw.coreAt c).run = .halted) (v : Word)
include hw hr

theorem completes_regdata_gr (hn : s.hw.get (DBG_C_REGSEL.NUM c) < 32) : Completes (.regdata acc c true v) s (fun t =>
    (Fin.ofNat 32 (s.hw.get (DBG_C_REGSEL.NUM c)) ≠ 0 → (t.coreAt c).gr (Fin.ofNat 32 (s.hw.get (DBG_C_REGSEL.NUM c))) = v) ∧
    (∀ j ∈ List.finRange 32, j = Fin.ofNat 32 (s.hw.get (DBG_C_REGSEL.NUM c)) ∨ (t.coreAt c).gr j = (s.hw.coreAt c).gr j) ∧
    (t.coreAt c).f = (s.hw.coreAt c).f ∧ s.hw.coresBeside t c) := by
  obtain ⟨t, ht, ⟨hg, hb, hf⟩, hc⟩ := completes_regdataWrite ho hw hr v (P := fun y =>
    (Fin.ofNat 32 (s.hw.get (DBG_C_REGSEL.NUM c)) ≠ 0 → y.gr (Fin.ofNat 32 (s.hw.get (DBG_C_REGSEL.NUM c))) = v) ∧
    (∀ j ∈ List.finRange 32, j = Fin.ofNat 32 (s.hw.get (DBG_C_REGSEL.NUM c)) ∨ y.gr j = (s.hw.coreAt c).gr j) ∧
    y.f = (s.hw.coreAt c).f) (by
      rw [pickedWrite_gr _ _ hn]
      refine ⟨fun h0 => by rw [Core.gr_setGr_same, if_neg h0], fun j _ => ?_, setGr_f _ _ _⟩
      by_cases hj : j = Fin.ofNat 32 (s.hw.get (DBG_C_REGSEL.NUM c))
      · exact .inl hj
      · exact .inr (Core.gr_setGr_other _ v hj))
  exact ⟨t, ht, hg, hb, hf, hc⟩

theorem completes_regdata_f (h32 : 32 ≤ s.hw.get (DBG_C_REGSEL.NUM c)) (h64 : s.hw.get (DBG_C_REGSEL.NUM c) < 64) :
    Completes (.regdata acc c true v) s (fun t =>
      (t.coreAt c).f[Fin.ofNat 32 (s.hw.get (DBG_C_REGSEL.NUM c))] =
        ((s.hw.coreAt c).f[Fin.ofNat 32 (s.hw.get (DBG_C_REGSEL.NUM c))] >>> 32 <<< 32 ||| v.zeroExtend 64) ∧
      (t.coreAt c).g = (s.hw.coreAt c).g ∧ s.hw.coresBeside t c) := by
  obtain ⟨t, ht, ⟨hf, hg⟩, hc⟩ := completes_regdataWrite ho hw hr v (P := fun y =>
    y.f[Fin.ofNat 32 (s.hw.get (DBG_C_REGSEL.NUM c))] =
      ((s.hw.coreAt c).f[Fin.ofNat 32 (s.hw.get (DBG_C_REGSEL.NUM c))] >>> 32 <<< 32 ||| v.zeroExtend 64) ∧ y.g = (s.hw.coreAt c).g) (by
      rw [pickedWrite_f _ _ h32 h64]
      exact ⟨Vector.getElem_set_self _, rfl⟩)
  exact ⟨t, ht, hf, hg, hc⟩

theorem completes_regdata_epc (hn : s.hw.get (DBG_C_REGSEL.NUM c) = 129) : Completes (.regdata acc c true v) s (fun t =>
    t.coreAt c = { s.hw.coreAt c with epc := v } ∧ s.hw.coresBeside t c) :=
  completes_regdataWrite ho hw hr v (P := fun y => y = { s.hw.coreAt c with epc := v }) (by
    rw [hn, pickedWrite_special _ _ (by decide) (by decide)]
    exact specialWrite_epc _ _ v)

theorem completes_regdata_atRun
    (hn : s.hw.get (DBG_C_REGSEL.NUM c) = 128 ∨ s.hw.get (DBG_C_REGSEL.NUM c) = 132 ∨ s.hw.get (DBG_C_REGSEL.NUM c) = 133) :
    Completes (.regdata acc c true v) s (fun t => t.coreAt c = { s.hw.coreAt c with atRun := (t.coreAt c).atRun } ∧ s.hw.coresBeside t c) :=
  completes_regdataWrite ho hw hr v (P := fun y => y = { s.hw.coreAt c with atRun := y.atRun }) (by
    rw [pickedWrite_special _ _ (by omega) (by omega)]
    refine specialWrite_atRun _ _ ?_ v
    rcases hn with hn | hn | hn <;> rw [hn] <;> decide)

theorem completes_regdata_eprog (hn : s.hw.get (DBG_C_REGSEL.NUM c) = 132) : Completes (.regdata acc c true v) s (fun t =>
    ∃ r, (t.coreAt c).atRun = some r ∧ r.sstat = (s.hw.coreAt c).applied.sstat ∧ r.tid = (s.hw.coreAt c).applied.tid ∧
      some r.eprog = ((s.hw.coreAt c).applied.setSpecial (dbgCore c) 4 v).map Core.eprog) := by
  obtain ⟨t, ht, hr, -⟩ := completes_regdataWrite ho hw hr v (P := fun y =>
    ∃ r, y.atRun = some r ∧ r.sstat = (s.hw.coreAt c).applied.sstat ∧ r.tid = (s.hw.coreAt c).applied.tid ∧
      some r.eprog = ((s.hw.coreAt c).applied.setSpecial (dbgCore c) 4 v).map Core.eprog) (by
    rw [hn, pickedWrite_special _ _ (by decide) (by decide)]
    exact ⟨_, specialWrite_eprog _ _ v, rfl, rfl, by rw [setSpecial_eprog]; rfl⟩)
  exact ⟨t, ht, hr⟩

end

/-! Reads. -/

theorem becomes_regdataRead (v : Word) :
    Becomes (.regdata acc c false v) s (Hw.portRead acc (DBG_C_REGDATA c) (s.hw, s.hw.regdataRead c)) :=
  becomes_of_open (exec_regdataRead s acc c v) ho (by rw [dbgRead_regdata])

theorem becomes_regdataRead_running (hr : (s.hw.coreAt c).run ≠ .halted) (v : Word) : Becomes (.regdata acc c false v) s
    (if acc.who = .debug then Hw.set { s.hw with busData := 0 } DBG_STAT.FSD_FAULT 5 else { s.hw with busData := 0 }) := by
  have hb := becomes_regdataRead (c := c) ho v
  rw [Hw.regdataRead, if_neg (mt (coreHalted_iff _ _).mp hr)] at hb
  by_cases hw : acc.who = .debug
  · rw [if_pos hw]
    rw [← regdata_reason (c := c), ← portAnswer_debugBus hw]
    exact hb
  · rw [if_neg hw]
    have hk : Becomes (.regdata acc c false v) s (Hw.portAnswer acc (DBG_C_REGDATA c) ({ s.hw with busData := 0 }, .bus)) := hb
    rwa [portAnswer_other hw] at hk

theorem becomes_regdataRead_halted (hr : (s.hw.coreAt c).run = .halted) (v : Word) : Becomes (.regdata acc c false v) s
    { s.hw with busData := (s.hw.coreAt c).picked (dbgCore c) (s.hw.get (DBG_C_REGSEL.NUM c)) } := by
  have hb := becomes_regdataRead (c := c) ho v
  rw [Hw.regdataRead, if_pos ((coreHalted_iff _ _).mpr hr)] at hb
  exact hb

end

/-! What REGDATA reads, by NUM. -/

section
variable (x : Core) (c : CoreId) {num : Nat}

theorem picked_gr (hn : num < 32) : x.picked c num = x.gr (Fin.ofNat 32 num) := if_pos hn

theorem picked_fLow (h32 : 32 ≤ num) (h64 : num < 64) : x.picked c num = (x.f[Fin.ofNat 32 num]).truncate 32 := by
  rw [Core.picked, if_neg (by omega), if_pos h64]

theorem picked_fHigh (h64 : 64 ≤ num) (h96 : num < 96) : x.picked c num = (x.f[Fin.ofNat 32 num] >>> 32).truncate 32 := by
  rw [Core.picked, if_neg (by omega), if_neg (by omega), if_pos h96]

theorem picked_fsr (hn : num = 160) : x.picked c num = x.fsr := by
  rw [Core.picked, if_neg (by omega), if_neg (by omega), if_neg (by omega), if_pos hn]

theorem picked_epc (hn : num = 129) : x.picked c num = x.epc := by
  rw [Core.picked, if_neg (by omega), if_neg (by omega), if_neg (by omega), if_neg (by omega), hn]
  cases c <;> rfl

end

end Sys2Proof.Machine

/-! The end of a debug session (spec/19_debug_and_test.md, R445). -/

namespace Sys2Proof.Machine

/-! ### Folds over a part -/

/-- What every step of a fold keeps, the fold keeps. -/
theorem foldl_keeps {α β : Type} {f : Hw → α → Hw} (g : Hw → β) : ∀ (l : List α) (h : Hw), (∀ h, ∀ x ∈ l, g (f h x) = g h) → g (l.foldl f h) = g h
  | [], _, _ => rfl
  | x :: l, h, hf =>
    (foldl_keeps g l (f h x) (fun h y hy => hf h y (List.mem_cons_of_mem _ hy))).trans (hf h x (List.mem_cons_self ..))

/-- Steps that each change a register of their own: each is changed once. -/
theorem foldl_rd {α : Type} {f : Hw → α → Hw} {A : α → Nat} {G : α → BitVec 32 → BitVec 32} (hself : ∀ h x, (f h x).rd (A x) = G x (h.rd (A x)))
    (hother : ∀ h x a, a ≠ A x → (f h x).rd a = h.rd a) : ∀ (l : List α) (h : Hw), (l.map A).Nodup → ∀ x ∈ l,
      (l.foldl f h).rd (A x) = G x (h.rd (A x))
  | [], _, _, _, hx => absurd hx (List.not_mem_nil)
  | y :: l, h, hn, x, hx => by
    obtain ⟨hy, hn'⟩ := List.nodup_cons.mp hn
    rw [List.foldl_cons]
    rcases List.mem_cons.mp hx with rfl | hx
    · rw [foldl_keeps (fun h => h.rd (A x)) l _ (fun h z hz => hother h z _ (fun he => hy (he ▸ List.mem_map_of_mem hz))), hself]
    · have hxy : A x ≠ A y := fun he => hy (he ▸ List.mem_map_of_mem hx)
      rw [foldl_rd hself hother l _ hn' x hx, hother h y _ hxy]

/-! ### Cores resume -/

/-- Core `c` once it goes on, if it was halted. -/
def Hw.afterResume (h : Hw) (c : Nat) : Core := if (h.coreAt c).run = .halted then h.resumes c else h.coreAt c

theorem dbgResume_coreAt (h : Hw) {c j : Nat} (hc : c < 3) (hj : j < 3) :
    (h.dbgResume c).coreAt j = if j = c then h.afterResume c else h.coreAt j := by
  unfold Hw.afterResume
  by_cases hr : (h.coreAt c).run = .halted
  · rw [dbgResume_halted hr, set_coreAt, coreAt_setCoreAt h hc hj, if_pos hr]
  · rw [dbgResume_running hr, if_neg hr]
    split
    · next hjc => rw [hjc]
    · rfl

theorem dbgResume_rd (h : Hw) (c : Nat) {a : Nat} (ha : a ≠ DBG_C_STAT c) : (h.dbgResume c).rd a = h.rd a := by
  by_cases hr : (h.coreAt c).run = .halted
  · rw [dbgResume_halted hr, Hw.rd_set_other _ _ _ _ ha, Hw.rd_of_regs (setCoreAt_regs _ _ _)]
  · rw [dbgResume_running hr]

theorem dbgResume_lnch (h : Hw) (c : Nat) : (h.dbgResume c).lnch = h.lnch := by
  by_cases hr : (h.coreAt c).run = .halted
  · rw [dbgResume_halted hr, Hw.set_lnch, setCoreAt_lnch]
  · rw [dbgResume_running hr]

theorem dbgResume_laneG (h : Hw) (c : Nat) : (h.dbgResume c).laneG = h.laneG := by
  by_cases hr : (h.coreAt c).run = .halted
  · rw [dbgResume_halted hr, Hw.set_laneG, setCoreAt_laneG]
  · rw [dbgResume_running hr]

/-- Every core has gone on. -/
def Hw.resumeCores (h : Hw) : Hw := (List.range 3).foldl (fun h c => h.dbgResume c) h

theorem afterResume_dbgResume (h : Hw) {c j : Nat} (hc : c < 3) (hj : j < 3) (hjc : j ≠ c) : (h.dbgResume c).afterResume j = h.afterResume j := by
  have hx : (h.dbgResume c).coreAt j = h.coreAt j := by rw [dbgResume_coreAt h hc hj, if_neg hjc]
  unfold Hw.afterResume Hw.resumes Hw.inRomLoop
  rw [hx, dbgResume_lnch]

theorem resumeCores_coreAt (h : Hw) {j : Nat} (hj : j < 3) : h.resumeCores.coreAt j = h.afterResume j := by
  show (((h.dbgResume 0).dbgResume 1).dbgResume 2).coreAt j = _
  have hj' : j = 0 ∨ j = 1 ∨ j = 2 := by omega
  rcases hj' with rfl | rfl | rfl
  · rw [dbgResume_coreAt _ (by decide) hj, if_neg (by decide), dbgResume_coreAt _ (by decide) hj, if_neg (by decide),
      dbgResume_coreAt _ (by decide) hj, if_pos rfl]
  · rw [dbgResume_coreAt _ (by decide) hj, if_neg (by decide), dbgResume_coreAt _ (by decide) hj, if_pos rfl,
      afterResume_dbgResume _ (by decide) hj (by decide)]
  · rw [dbgResume_coreAt _ (by decide) hj, if_pos rfl, afterResume_dbgResume _ (by decide) hj (by decide),
      afterResume_dbgResume _ (by decide) hj (by decide)]

theorem resumeCores_rd (h : Hw) {a : Nat} (ha : ∀ c < 3, a ≠ DBG_C_STAT c) : h.resumeCores.rd a = h.rd a :=
  foldl_keeps (fun h => h.rd a) _ h (fun h c hc => dbgResume_rd h c (ha c (List.mem_range.mp hc)))

theorem resumeCores_laneG (h : Hw) : h.resumeCores.laneG = h.laneG := foldl_keeps Hw.laneG _ h (fun h c _ => dbgResume_laneG h c)

theorem afterResume_run (h : Hw) (c : Nat) : (h.afterResume c).run =
    if (h.coreAt c).run = .halted then (if h.romAt c then .romWait else .running) else (h.coreAt c).run := by
  unfold Hw.afterResume Hw.resumes
  split
  · simp only [inRomLoop_iff]
  · rfl

theorem applied_pc (x : Core) : x.applied.pc = x.pc := by
  unfold Core.applied
  split <;> rfl

theorem afterResume_pc (h : Hw) (c : Nat) : (h.afterResume c).pc = (h.coreAt c).pc := by
  unfold Hw.afterResume
  split
  · exact applied_pc _
  · rfl

/-! ### Lane groups resume -/

/-- The lane groups are those of `laneG`. -/
theorem grp_of_laneG {h t : Hw} (e : t.laneG = h.laneG) (q : Nat) : t.grp q = h.grp q := by unfold Hw.grp; rw [e]

theorem grp_setGrp_at (h : Hw) (q p : Nat) (g : LaneGrp) : (h.setGrp q g).grp p = if p = q then g else h.grp p := tget_tput _ _ _ _ _

theorem dbgLaneResume_halted {h : Hw} {q : Nat} (hg : (h.grp q).halted = true) :
    h.dbgLaneResume q = (h.setGrp q { h.grp q with halted := false }).set (DBG_G_STAT.HALTED q) 0 := if_pos hg

theorem dbgLaneResume_running {h : Hw} {q : Nat} (hg : (h.grp q).halted = false) : h.dbgLaneResume q = h :=
  if_neg (by rw [show (tget {} h.laneG q : LaneGrp).halted = false from hg]; decide)

theorem dbgLaneResume_grp (h : Hw) (q p : Nat) : (h.dbgLaneResume q).grp p = if p = q then { h.grp q with halted := false } else h.grp p := by
  cases hg : (h.grp q).halted with
  | true =>
    rw [dbgLaneResume_halted hg]
    exact grp_setGrp_at h q p _
  | false =>
    rw [dbgLaneResume_running hg]
    split
    · next hp => rw [hp, ← hg]
    · rfl

theorem dbgLaneResume_rd (h : Hw) (q : Nat) {a : Nat} (ha : a ≠ DBG_G_STAT q) : (h.dbgLaneResume q).rd a = h.rd a := by
  cases hg : (h.grp q).halted with
  | true =>
    rw [dbgLaneResume_halted hg, Hw.rd_set_other _ _ _ _ ha]
    rfl
  | false => rw [dbgLaneResume_running hg]

theorem dbgLaneResume_coreAt (h : Hw) (q j : Nat) : (h.dbgLaneResume q).coreAt j = h.coreAt j := by
  cases hg : (h.grp q).halted with
  | true =>
    rw [dbgLaneResume_halted hg]
    rfl
  | false => rw [dbgLaneResume_running hg]

/-- Every lane group has gone on. -/
def Hw.resumeLanes (h : Hw) : Hw := (List.range 16).foldl (fun h q => h.dbgLaneResume q) h

theorem laneResumes_grp (h : Hw) (n p : Nat) : ((List.range n).foldl (fun h q => h.dbgLaneResume q) h).grp p =
    if p < n then { h.grp p with halted := false } else h.grp p := by
  induction n with
  | zero => rfl
  | succ n ih =>
    rw [List.range_succ, List.foldl_append, List.foldl_cons, List.foldl_nil, dbgLaneResume_grp]
    by_cases hp : p = n
    · subst hp
      rw [if_pos rfl, ih, if_neg (by omega), if_pos (by omega)]
    · rw [if_neg hp, ih]
      by_cases hlt : p < n
      · rw [if_pos hlt, if_pos (by omega)]
      · rw [if_neg hlt, if_neg (by omega)]

theorem resumeLanes_grp (h : Hw) {p : Nat} (hp : p < 16) : h.resumeLanes.grp p = { h.grp p with halted := false } :=
  (laneResumes_grp h 16 p).trans (if_pos hp)

theorem resumeLanes_rd (h : Hw) {a : Nat} (ha : ∀ q < 16, a ≠ DBG_G_STAT q) : h.resumeLanes.rd a = h.rd a :=
  foldl_keeps (fun h => h.rd a) _ h (fun h q hq => dbgLaneResume_rd h q (ha q (List.mem_range.mp hq)))

theorem resumeLanes_coreAt (h : Hw) (j : Nat) : h.resumeLanes.coreAt j = h.coreAt j :=
  foldl_keeps (fun h => h.coreAt j) _ h (fun h q _ => dbgLaneResume_coreAt h q j)

/-! ### The debugger's watchpoints end -/

/-- Watchpoint `p` ends where the debugger enabled it. -/
def Hw.wpEnds (h : Hw) (p : Nat × Nat) : Hw := if h.on (DBG_C_WP_CTL.SRC p.1 p.2) then h.clr (DBG_C_WP_CTL.EN p.1 p.2) else h

/-- The watchpoints of the three cores. -/
def wpUnits : List (Nat × Nat) := (List.range 3).flatMap (fun c => (List.range (wpCount c)).map (fun i => (c, i)))

/-- CTL of a watchpoint that ends. -/
def wpEnded (p : Nat × Nat) (w : BitVec 32) : BitVec 32 :=
  if (DBG_C_WP_CTL.SRC p.1 p.2).of w != 0 then (DBG_C_WP_CTL.EN p.1 p.2).into w 0 else w

theorem wpEnds_self (h : Hw) (p : Nat × Nat) : (h.wpEnds p).rd (DBG_C_WP_CTL p.1 p.2) = wpEnded p (h.rd (DBG_C_WP_CTL p.1 p.2)) := by
  unfold Hw.wpEnds wpEnded
  show Hw.rd (if (DBG_C_WP_CTL.SRC p.1 p.2).of (h.rd (DBG_C_WP_CTL p.1 p.2)) != 0 then _ else _) _ = _
  split
  · exact Hw.rd_wr_self h _ _
  · rfl

theorem wpEnds_other (h : Hw) (p : Nat × Nat) (a : Nat) (ha : a ≠ DBG_C_WP_CTL p.1 p.2) : (h.wpEnds p).rd a = h.rd a := by
  unfold Hw.wpEnds
  split
  · exact Hw.rd_set_other h _ _ _ ha
  · rfl

theorem wpEnded_en (p : Nat × Nat) (w : BitVec 32) : (DBG_C_WP_CTL.EN p.1 p.2).of (wpEnded p w) =
    if (DBG_C_WP_CTL.SRC p.1 p.2).of w = 1 then 0 else (DBG_C_WP_CTL.EN p.1 p.2).of w := by
  have hlt : (DBG_C_WP_CTL.SRC p.1 p.2).of w < 2 := Nat.mod_lt _ (by decide : 0 < 2 ^ 1)
  unfold wpEnded
  by_cases hs : (DBG_C_WP_CTL.SRC p.1 p.2).of w = 1
  · rw [if_pos (by rw [hs]; decide), if_pos hs, Fld.of_into _ _ _ (by decide : 0 + 1 ≤ 32)]
    rfl
  · rw [if_neg (by rw [bne_iff_ne]; omega), if_neg hs]

theorem mem_wpUnits {c i : Nat} : (c, i) ∈ wpUnits ↔ c < 3 ∧ i < wpCount c := by
  simp [wpUnits]

/-- Every watchpoint of the debugger's has ended. -/
def Hw.wpsEnd (h : Hw) : Hw := wpUnits.foldl Hw.wpEnds h

theorem wpsEnd_en (h : Hw) {c i : Nat} (hc : c < 3) (hi : i < wpCount c) : h.wpsEnd.get (DBG_C_WP_CTL.EN c i) =
    if h.get (DBG_C_WP_CTL.SRC c i) = 1 then 0 else h.get (DBG_C_WP_CTL.EN c i) := by
  have hr := foldl_rd wpEnds_self wpEnds_other wpUnits h (by decide) (c, i) (mem_wpUnits.mpr ⟨hc, hi⟩)
  exact (congrArg (DBG_C_WP_CTL.EN c i).of hr).trans (wpEnded_en (c, i) _)

theorem wpsEnd_rd (h : Hw) {a : Nat} (ha : ∀ c i, c < 3 → i < 8 → a ≠ DBG_C_WP_CTL c i) : h.wpsEnd.rd a = h.rd a := by
  refine foldl_keeps (fun h => h.rd a) _ h (fun h p hp => wpEnds_other h p a ?_)
  obtain ⟨hc, hi⟩ := mem_wpUnits.mp (show (p.1, p.2) ∈ wpUnits from hp)
  exact ha _ _ hc (lt_of_lt_of_le hi (by unfold wpCount; split <;> omega))

theorem wpsEnd_coreAt (h : Hw) (j : Nat) : h.wpsEnd.coreAt j = h.coreAt j := by
  refine foldl_keeps (fun h => h.coreAt j) _ h (fun h p _ => ?_)
  unfold Hw.wpEnds
  split <;> rfl

theorem wpsEnd_laneG (h : Hw) : h.wpsEnd.laneG = h.laneG := by
  refine foldl_keeps Hw.laneG _ h (fun h p _ => ?_)
  unfold Hw.wpEnds
  split <;> rfl

/-! ### The debugger's patch units end -/

/-- Patch unit `u` ends where the debugger enabled it. -/
def Hw.puEnds (h : Hw) (u : Nat) : Hw :=
  if h.on (DBG_PU_CTL.EN u) && h.get (DBG_PU_CTL.SRC u) = 3 then
    ((h.clr (DBG_PU_CTL.EN u)).set (DBG_PU_CTL.SRC u) 0).dropFetch (h.get (DBG_PU_LINE.ADDR u) * 32)
  else h

/-- CTL of a patch unit that ends. -/
def puEnded (u : Nat) (w : BitVec 32) : BitVec 32 :=
  if (DBG_PU_CTL.EN u).of w != 0 && (DBG_PU_CTL.SRC u).of w = 3 then (DBG_PU_CTL.SRC u).into ((DBG_PU_CTL.EN u).into w 0) 0 else w

theorem dropFetch_rd (h : Hw) (l a : Nat) : (h.dropFetch l).rd a = h.rd a := rfl

theorem puEnds_self (h : Hw) (u : Nat) : (h.puEnds u).rd (DBG_PU_CTL u) = puEnded u (h.rd (DBG_PU_CTL u)) := by
  unfold Hw.puEnds puEnded
  show Hw.rd (if (DBG_PU_CTL.EN u).of (h.rd (DBG_PU_CTL u)) != 0 && (DBG_PU_CTL.SRC u).of (h.rd (DBG_PU_CTL u)) = 3 then _ else _) _ = _
  split
  · rw [dropFetch_rd]
    refine (Hw.rd_wr_self _ _ _).trans ?_
    exact congrArg ((DBG_PU_CTL.SRC u).into · 0) (Hw.rd_wr_self h (DBG_PU_CTL u) _)
  · rfl

theorem puEnds_other (h : Hw) (u a : Nat) (ha : a ≠ DBG_PU_CTL u) : (h.puEnds u).rd a = h.rd a := by
  unfold Hw.puEnds
  split
  · rw [dropFetch_rd, Hw.rd_set_other _ _ _ _ ha]
    exact Hw.rd_set_other _ _ _ _ ha
  · rfl

theorem puEnded_en (u : Nat) (w : BitVec 32) : (DBG_PU_CTL.EN u).of (puEnded u w) =
    if (DBG_PU_CTL.SRC u).of w = 3 then 0 else (DBG_PU_CTL.EN u).of w := by
  unfold puEnded
  by_cases hs : (DBG_PU_CTL.SRC u).of w = 3
  · rw [if_pos hs]
    by_cases he : (DBG_PU_CTL.EN u).of w = 0
    · rw [if_neg (by rw [he]; simp), he]
    · rw [if_pos (by simp [he, hs]), Fld.of_into_apart _ _ _ _ (.inl (by decide : 0 + 1 ≤ 2)), Fld.of_into _ _ _ (by decide : 0 + 1 ≤ 32)]
      rfl
  · rw [if_neg hs, if_neg (by simp [hs])]

/-- Every patch unit of the debugger's has ended. -/
def Hw.pusEnd (h : Hw) : Hw := (List.range 32).foldl Hw.puEnds h

theorem pusEnd_en (h : Hw) {u : Nat} (hu : u < 32) : h.pusEnd.get (DBG_PU_CTL.EN u) =
    if h.get (DBG_PU_CTL.SRC u) = 3 then 0 else h.get (DBG_PU_CTL.EN u) := by
  have hr := foldl_rd puEnds_self puEnds_other (List.range 32) h (by decide) u (List.mem_range.mpr hu)
  exact (congrArg (DBG_PU_CTL.EN u).of hr).trans (puEnded_en u _)

theorem pusEnd_rd (h : Hw) {a : Nat} (ha : a < 0x20171000) : h.pusEnd.rd a = h.rd a :=
  foldl_keeps (fun h => h.rd a) _ h (fun h u _ => puEnds_other h u a (by simp only [DBG_PU_CTL]; omega))

theorem dropFetch_run_pc (h : Hw) (a j : Nat) : ((h.dropFetch a).coreAt j).run = (h.coreAt j).run ∧ ((h.dropFetch a).coreAt j).pc = (h.coreAt j).pc := by
  unfold Hw.coreAt
  split
  · exact ⟨rfl, rfl⟩
  · split <;> exact ⟨rfl, rfl⟩

theorem puEnds_run_pc (h : Hw) (u j : Nat) : ((h.puEnds u).coreAt j).run = (h.coreAt j).run ∧ ((h.puEnds u).coreAt j).pc = (h.coreAt j).pc := by
  unfold Hw.puEnds
  split
  · exact dropFetch_run_pc ((h.clr (DBG_PU_CTL.EN u)).set (DBG_PU_CTL.SRC u) 0) _ j
  · exact ⟨rfl, rfl⟩

theorem pusEnd_run (h : Hw) (j : Nat) : (h.pusEnd.coreAt j).run = (h.coreAt j).run :=
  foldl_keeps (fun h => (h.coreAt j).run) _ h (fun h u _ => (puEnds_run_pc h u j).1)

theorem pusEnd_pc (h : Hw) (j : Nat) : (h.pusEnd.coreAt j).pc = (h.coreAt j).pc :=
  foldl_keeps (fun h => (h.coreAt j).pc) _ h (fun h u _ => (puEnds_run_pc h u j).2)

theorem pusEnd_laneG (h : Hw) : h.pusEnd.laneG = h.laneG := by
  refine foldl_keeps Hw.laneG _ h (fun h u _ => ?_)
  unfold Hw.puEnds
  split <;> rfl

/-! ### DUP of the patch units -/

theorem patchDups_coreAt (h : Hw) (j : Nat) : h.patchDups.coreAt j = h.coreAt j :=
  foldl_keeps (fun h => h.coreAt j) _ h (fun h _ _ => set_coreAt h _ _ j)

theorem patchDups_laneG (h : Hw) : h.patchDups.laneG = h.laneG := foldl_keeps Hw.laneG _ h (fun h _ _ => Hw.set_laneG h _ _)

theorem patchDups_get (h : Hw) {f : Fld} (hf : ∀ u < 32, (DBG_PU_CTL.DUP u).apart f = true) : h.patchDups.get f = h.get f :=
  foldl_keeps (fun h => h.get f) _ h (fun h u hu => Hw.get_set_of_apart h _ f _ (hf u (List.mem_range.mp hu)))

theorem patchDups_rd (h : Hw) {a : Nat} (ha : ∀ u < 32, a ≠ DBG_PU_CTL u) : h.patchDups.rd a = h.rd a :=
  foldl_keeps (fun h => h.rd a) _ h (fun h u hu => Hw.rd_set_other h _ _ _ (ha u (List.mem_range.mp hu)))

/-- DUP shares no bit with a field below bit 5 of a unit's CTL. -/
theorem dup_apart_low (u : Nat) {f : Fld} (hw : f.lo + f.wid ≤ 5) : (DBG_PU_CTL.DUP u).apart f = true := by
  simp [Fld.apart, DBG_PU_CTL.DUP, hw]

/-! ### The session ends -/

/-- The part after a session's end, but for line 242. -/
def Hw.detached (h : Hw) : Hw := ((h.clr DBG_STAT.ATTACHED).resumeCores.resumeLanes.wpsEnd.pusEnd).patchDups

theorem detach_eq {h : Hw} (ha : h.get DBG_STAT.ATTACHED = 1) :
    h.detach = if h.detached.on DBG_IE.ATTACH then h.detached.pulseLine 242 else h.detached := by
  have hw : ∀ k : Hw, (List.range 3).foldl (fun h c => (List.range (wpCount c)).foldl (fun h i =>
      if h.on (DBG_C_WP_CTL.SRC c i) then h.clr (DBG_C_WP_CTL.EN c i) else h) h) k = k.wpsEnd := fun _ => rfl
  have hd : ∀ k : Hw, k.dbgDisable = k.wpsEnd.pusEnd.patchDups := fun k => by
    unfold Hw.dbgDisable
    dsimp only
    rw [hw]
    rfl
  unfold Hw.detach
  rw [if_neg (by rw [Hw.on, ha]; decide)]
  dsimp only
  rw [hd]
  rfl

theorem detached_low (h : Hw) {a : Nat} (ha : a < 0x20170100) : h.detached.rd a = (h.clr DBG_STAT.ATTACHED).rd a := by
  unfold Hw.detached
  rw [patchDups_rd _ (by intro u hu; simp only [DBG_PU_CTL]; omega), pusEnd_rd _ (by omega),
    wpsEnd_rd _ (by intro c i hc hi; simp only [DBG_C_WP_CTL]; omega), resumeLanes_rd _ (by intro q hq; simp only [DBG_G_STAT]; omega),
    resumeCores_rd _ (by intro c hc; simp only [DBG_C_STAT]; omega)]

theorem detached_attached (h : Hw) : h.detached.get DBG_STAT.ATTACHED = 0 := by
  unfold Hw.get
  rw [detached_low h (by decide)]
  exact Hw.get_set_self h _ _ (by decide)

theorem detached_ie (h : Hw) : h.detached.get DBG_IE.ATTACH = h.get DBG_IE.ATTACH := by
  unfold Hw.get
  rw [detached_low h (by decide), Hw.clr, Hw.rd_set_other h _ _ _ (by decide)]

theorem detached_coreAt (h : Hw) {j : Nat} (hj : j < 3) :
    (h.detached.coreAt j).run = (h.afterResume j).run ∧ (h.detached.coreAt j).pc = (h.afterResume j).pc := by
  have hc : (h.clr DBG_STAT.ATTACHED).afterResume j = h.afterResume j := rfl
  unfold Hw.detached
  rw [patchDups_coreAt, pusEnd_run, pusEnd_pc, wpsEnd_coreAt, resumeLanes_coreAt, resumeCores_coreAt _ hj, hc]
  exact ⟨rfl, rfl⟩

theorem detached_grp (h : Hw) {q : Nat} (hq : q < 16) : h.detached.grp q = { h.grp q with halted := false } := by
  have hl : h.detached.laneG = (h.clr DBG_STAT.ATTACHED).resumeCores.resumeLanes.laneG := by
    unfold Hw.detached
    rw [patchDups_laneG, pusEnd_laneG, wpsEnd_laneG]
  have hg : h.detached.grp q = (h.clr DBG_STAT.ATTACHED).resumeCores.resumeLanes.grp q := grp_of_laneG hl q
  have hg' : (h.clr DBG_STAT.ATTACHED).resumeCores.grp q = h.grp q := grp_of_laneG (resumeCores_laneG _) q
  rw [hg, resumeLanes_grp _ hq, hg']

theorem detached_wp (h : Hw) {c i : Nat} (hc : c < 3) (hi : i < wpCount c) : h.detached.get (DBG_C_WP_CTL.EN c i) =
    if h.get (DBG_C_WP_CTL.SRC c i) = 1 then 0 else h.get (DBG_C_WP_CTL.EN c i) := by
  have hi8 : i < 8 := lt_of_lt_of_le hi (by unfold wpCount; split <;> omega)
  have hlate : h.detached.rd (DBG_C_WP_CTL c i) = (h.clr DBG_STAT.ATTACHED).resumeCores.resumeLanes.wpsEnd.rd (DBG_C_WP_CTL c i) := by
    unfold Hw.detached
    rw [patchDups_rd _ (by intro u hu; simp only [DBG_PU_CTL, DBG_C_WP_CTL]; omega), pusEnd_rd _ (by simp only [DBG_C_WP_CTL]; omega)]
  have hearly : (h.clr DBG_STAT.ATTACHED).resumeCores.resumeLanes.rd (DBG_C_WP_CTL c i) = h.rd (DBG_C_WP_CTL c i) := by
    rw [resumeLanes_rd _ (by intro q hq; simp only [DBG_G_STAT, DBG_C_WP_CTL]; omega),
      resumeCores_rd _ (by intro d hd; simp only [DBG_C_STAT, DBG_C_WP_CTL]; omega)]
    exact Hw.rd_set_other h _ _ _ (by simp only [DBG_STAT.ATTACHED, DBG_STAT, DBG_C_WP_CTL]; omega)
  refine (congrArg (DBG_C_WP_CTL.EN c i).of hlate).trans ((wpsEnd_en _ hc hi).trans ?_)
  have he : ∀ f : Fld, f.adr = DBG_C_WP_CTL c i → ((h.clr DBG_STAT.ATTACHED).resumeCores.resumeLanes).get f = h.get f := by
    intro f hf
    unfold Hw.get
    rw [hf, hearly]
  rw [he _ rfl, he _ rfl]

theorem detached_pu (h : Hw) {u : Nat} (hu : u < 32) : h.detached.get (DBG_PU_CTL.EN u) =
    if h.get (DBG_PU_CTL.SRC u) = 3 then 0 else h.get (DBG_PU_CTL.EN u) := by
  have hearly : ((h.clr DBG_STAT.ATTACHED).resumeCores.resumeLanes.wpsEnd).rd (DBG_PU_CTL u) = h.rd (DBG_PU_CTL u) := by
    rw [wpsEnd_rd _ (by intro c i hc hi; simp only [DBG_C_WP_CTL, DBG_PU_CTL]; omega),
      resumeLanes_rd _ (by intro q hq; simp only [DBG_G_STAT, DBG_PU_CTL]; omega),
      resumeCores_rd _ (by intro d hd; simp only [DBG_C_STAT, DBG_PU_CTL]; omega)]
    exact Hw.rd_set_other h _ _ _ (by simp only [DBG_STAT.ATTACHED, DBG_STAT, DBG_PU_CTL]; omega)
  have he : ∀ f : Fld, f.adr = DBG_PU_CTL u → ((h.clr DBG_STAT.ATTACHED).resumeCores.resumeLanes.wpsEnd).get f = h.get f := by
    intro f hf
    unfold Hw.get
    rw [hf, hearly]
  unfold Hw.detached
  rw [patchDups_get _ (fun v _ => dup_apart_low v (by decide : 0 + 1 ≤ 5)), pusEnd_en _ hu, he _ rfl, he _ rfl]

@[simp] theorem canon_grp (h : Hw) (q : Nat) : h.canon.grp q = h.grp q := rfl

/-- The part `h` with other latched lines. -/
def Hw.withLatch (h : Hw) (ls : List Nat) : Hw := { h with lineLatch := ls }

theorem withLatch_get (h : Hw) (ls : List Nat) (f : Fld) : (h.withLatch ls).get f = h.get f := rfl
theorem withLatch_grp (h : Hw) (ls : List Nat) (q : Nat) : (h.withLatch ls).grp q = h.grp q := rfl
theorem withLatch_coreAt (h : Hw) (ls : List Nat) (j : Nat) : (h.withLatch ls).coreAt j = h.coreAt j := rfl

theorem pulseIf_withLatch (h : Hw) (b : Bool) (k : Nat) : ∃ ls, (if b then h.pulseLine k else h) = h.withLatch ls := by
  unfold Hw.pulseLine
  split
  · split
    · exact ⟨h.lineLatch, rfl⟩
    · exact ⟨_, rfl⟩
  · exact ⟨h.lineLatch, rfl⟩

/-- Line 242 changes nothing that the session's end leaves. -/
theorem detach_withLatch {h : Hw} (ha : h.get DBG_STAT.ATTACHED = 1) : ∃ ls, h.detach = h.detached.withLatch ls := by
  obtain ⟨ls, hl⟩ := pulseIf_withLatch h.detached (h.detached.on DBG_IE.ATTACH) 242
  exact ⟨ls, (detach_eq ha).trans hl⟩

theorem detach_line {h : Hw} (ha : h.get DBG_STAT.ATTACHED = 1) (hie : h.get DBG_IE.ATTACH = 1) : h.detach.lineLatch.contains 242 = true := by
  rw [detach_eq ha, if_pos ((Hw.on_iff _ rfl).mpr ((detached_ie h).trans hie))]
  exact pulseLine_contains _ _

/-- What the end of a session leaves (R445). -/
theorem completes_detach {s : State} {acc : Access} (ho : s.hw.opens acc = true) (hw : acc.who = .debug) (ha : s.hw.get DBG_STAT.ATTACHED = 1) :
    Completes (.detach acc) s (fun t => t.get DBG_STAT.ATTACHED = 0 ∧ (s.hw.get DBG_IE.ATTACH = 1 → t.lineLatch.contains 242 = true) ∧
      (∀ j, j < 3 → (t.coreAt j).run =
        (if (s.hw.coreAt j).run = .halted then (if s.hw.romAt j then .romWait else .running) else (s.hw.coreAt j).run) ∧
        (t.coreAt j).pc = (s.hw.coreAt j).pc) ∧
      (∀ q, q < 16 → (t.grp q).halted = false ∧ (t.grp q).pc = (s.hw.grp q).pc) ∧
      (∀ j, j < 3 → ∀ w, w < wpCount j → t.get (DBG_C_WP_CTL.EN j w) =
        if s.hw.get (DBG_C_WP_CTL.SRC j w) = 1 then 0 else s.hw.get (DBG_C_WP_CTL.EN j w)) ∧
      (∀ u, u < 32 → t.get (DBG_PU_CTL.EN u) = if s.hw.get (DBG_PU_CTL.SRC u) = 3 then 0 else s.hw.get (DBG_PU_CTL.EN u))) := by
  obtain ⟨ls, hd⟩ := detach_withLatch ha
  have hget : ∀ f, s.hw.detach.canon.get f = s.hw.detached.get f := fun f =>
    (Hw.get_canon _ f).trans (by rw [hd, withLatch_get])
  have hcore : ∀ j, s.hw.detach.canon.coreAt j = s.hw.detached.coreAt j := fun j => (canon_coreAt _ j).trans (by rw [hd, withLatch_coreAt])
  have hgrp : ∀ q, s.hw.detach.canon.grp q = s.hw.detached.grp q := fun q => (canon_grp _ q).trans (by rw [hd, withLatch_grp])
  refine (becomes_detach ho hw).completes ⟨?_, fun hie => ?_, fun j hj => ?_, fun q hq => ?_, fun j hj w hw => ?_, fun u hu => ?_⟩
  · rw [hget, detached_attached]
  · rw [Hw.canon_lineLatch]
    exact detach_line ha hie
  · obtain ⟨hrun, hpc⟩ := detached_coreAt s.hw hj
    rw [hcore, hrun, hpc, afterResume_run, afterResume_pc]
    exact ⟨rfl, rfl⟩
  · rw [hgrp, detached_grp _ hq]
    exact ⟨rfl, rfl⟩
  · rw [hget, detached_wp _ hj hw]
  · rw [hget, detached_pu _ hu]

end Sys2Proof.Machine

/-! Lane groups, patch units and watchpoints (spec/19_debug_and_test.md, R449 to R453). -/

namespace Sys2Proof.Machine

/-! ### Lane groups (R451) -/

section
variable {q : Fin 16}

theorem dbgWrite_laneCtl (h : Hw) (acc : Access) (v : Word) :
    h.dbgWrite acc (DBG_G_CTL q) v = h.dbgLaneWrite acc q 0 (DBG_G_CTL q) v := by
  have hq := q.isLt
  have ho : DBG_G_CTL q - 0x20170000 = 0x800 + 0x20 * q.val := by simp only [DBG_G_CTL]; omega
  rw [Hw.dbgWrite, ho, if_neg (by omega), if_neg (by omega), if_neg (by simp; omega), if_pos (by simp; omega)]
  have hn : (0x800 + 0x20 * q.val - 0x800) / 0x20 = q.val := by omega
  have hk : (0x800 + 0x20 * q.val) % 0x20 = 0 := by omega
  rw [hn, hk]

variable {s : State} {acc : Access} (ho : s.hw.opens acc = true)
include ho

theorem becomes_lane_other {i : Instr} {v : Word} (hi : exec i s = s.onDebug acc (DBG_G_CTL q) v (fun h => h.dbgWrite acc (DBG_G_CTL q) v))
    (hw : acc.who ≠ .debug) : Becomes i s s.hw :=
  becomes_byDebug_other ho hi (by simp only [DBG_G_CTL]; omega) (by simp only [DBG_G_CTL]; omega) hw
    ((dbgWrite_laneCtl s.hw acc v).trans (if_pos (by simpa [fromDebug] using hw)))

theorem becomes_lane {i : Instr} {v : Word} (hi : exec i s = s.onDebug acc (DBG_G_CTL q) v (fun h => h.dbgWrite acc (DBG_G_CTL q) v))
    (hw : acc.who = .debug) : Becomes i s (s.hw.dbgLaneCtl q v) := by
  refine becomes_byDebug ho hi (by simp only [DBG_G_CTL]; omega) (by simp only [DBG_G_CTL]; omega) ((dbgWrite_laneCtl s.hw acc v).trans ?_)
  rw [Hw.dbgLaneWrite, if_neg (by simpa [fromDebug] using hw), if_pos rfl]

variable (hw : acc.who = .debug)
include hw

theorem becomes_laneHalt : Becomes (.laneHalt acc q) s (s.hw.dbgLaneHalt q) := becomes_lane ho (exec_laneHalt s acc q) hw
theorem becomes_laneRun : Becomes (.laneRun acc q) s (s.hw.dbgLaneResume q) := becomes_lane ho (exec_laneRun s acc q) hw
theorem becomes_laneStep : Becomes (.laneStep acc q) s (s.hw.dbgLaneStep q) := becomes_lane ho (exec_laneStep s acc q) hw

theorem becomes_laneHalt_idle (hg : (s.hw.grp q).queue = none ∨ (s.hw.grp q).ended = true ∨ (s.hw.grp q).halted = true) :
    Becomes (.laneHalt acc q) s s.hw := by
  have hb := becomes_laneHalt (q := q) ho hw
  have hk : s.hw.dbgLaneHalt q = s.hw := by
    refine if_neg ?_
    rcases hg with hg | hg | hg <;> simp [hg]
  rwa [hk] at hb

theorem completes_laneHalt (hq : (s.hw.grp q).queue ≠ none) (he : (s.hw.grp q).ended = false) (hh : (s.hw.grp q).halted = false) :
    Completes (.laneHalt acc q) s (fun t => t.grp q = { s.hw.grp q with halted := true, stepping := false } ∧ t.get (DBG_G_STAT.HALTED q) = 1 ∧
      (∀ j, j < 16 → j = q.val ∨ t.grp j = s.hw.grp j)) := by
  have hb := becomes_laneHalt (q := q) ho hw
  have hk : s.hw.dbgLaneHalt q = (s.hw.setGrp q { s.hw.grp q with halted := true, stepping := false }).set (DBG_G_STAT.HALTED q) 1 :=
    if_pos (by simp [he, hh, Option.isSome_iff_ne_none.mpr hq])
  rw [hk] at hb
  refine hb.completes ⟨?_, ?_, fun j _ => ?_⟩
  · rw [canon_grp]
    exact (grp_of_laneG (Hw.set_laneG _ _ _) q).trans (grp_setGrp _ _ _)
  · rw [Hw.get_canon, Hw.get_set_self _ _ _ (by decide : 0 + 1 ≤ 32)]
    rfl
  · by_cases hj : j = q
    · exact .inl hj
    · rw [canon_grp, grp_of_laneG (Hw.set_laneG _ _ _), grp_setGrp_at, if_neg hj]
      exact .inr rfl

theorem becomes_lane_running (hh : (s.hw.grp q).halted = false) : Becomes (.laneRun acc q) s s.hw ∧ Becomes (.laneStep acc q) s s.hw := by
  have hr := becomes_laneRun (q := q) ho hw
  have hs := becomes_laneStep (q := q) ho hw
  rw [dbgLaneResume_running hh] at hr
  rw [Hw.dbgLaneStep, if_neg (by rw [hh]; decide)] at hs
  exact ⟨hr, hs⟩

theorem completes_laneRun (hh : (s.hw.grp q).halted = true) : Completes (.laneRun acc q) s (fun t =>
    t.grp q = { s.hw.grp q with halted := false } ∧ t.get (DBG_G_STAT.HALTED q) = 0) := by
  have hb := becomes_laneRun (q := q) ho hw
  rw [dbgLaneResume_halted hh] at hb
  refine hb.completes ⟨?_, ?_⟩
  · rw [canon_grp, grp_of_laneG (Hw.set_laneG _ _ _), grp_setGrp]
  · rw [Hw.get_canon, Hw.get_set_self _ _ _ (by decide : 0 + 1 ≤ 32)]
    rfl

theorem completes_laneStep (hh : (s.hw.grp q).halted = true) : Completes (.laneStep acc q) s (fun t =>
    t.grp q = { s.hw.grp q with halted := false, stepping := true } ∧ t.get (DBG_G_STAT.HALTED q) = 0) := by
  have hb := becomes_laneStep (q := q) ho hw
  rw [Hw.dbgLaneStep, if_pos hh] at hb
  refine hb.completes ⟨?_, ?_⟩
  · rw [canon_grp, grp_setGrp, dbgLaneResume_grp, if_pos rfl]
  · rw [Hw.get_canon, dbgLaneResume_halted hh]
    show Hw.get ((s.hw.setGrp q { s.hw.grp q with halted := false }).set (DBG_G_STAT.HALTED q) 0) (DBG_G_STAT.HALTED q) = 0
    rw [Hw.get_set_self _ _ _ (by decide : 0 + 1 ≤ 32)]
    rfl

end

/-! ### Plain registers of the debug window -/

/-- The register at `a` has RW fields at the bits of `m`, and no other field that a write reaches. -/
def plainRow (a m : Nat) : Bool := match rowOf a with
  | some (r, false) => r.sh == 0 && r.lk == 0 && r.w1c == 0 && r.w1s == 0 && r.rw == m
  | _ => false

theorem plainRow_row {a m : Nat} (hp : plainRow a m = true) :
    ∃ r, rowOf a = some (r, false) ∧ r.sh = 0 ∧ r.lk = 0 ∧ r.w1c = 0 ∧ r.w1s = 0 ∧ r.rw = m := by
  unfold plainRow at hp
  split at hp
  · next r hr =>
    simp only [Bool.and_eq_true, beq_iff_eq] at hp
    obtain ⟨⟨⟨⟨hs, hl⟩, hc⟩, hw⟩, hm⟩ := hp
    exact ⟨r, hr, hs, hl, hc, hw, hm⟩
  · exact absurd hp (by decide)

/-- `w` with the bits of `m` replaced by those of `v`. -/
def masked (m : Nat) (w v : BitVec 32) : BitVec 32 := (w &&& ~~~ BitVec.ofNat 32 m) ||| (v &&& BitVec.ofNat 32 m)

/-- No field of the debug window has reserved encodings (R15). -/
theorem encRules_off_debug : encRules.all (fun r => decide (r.reg + r.n1 * r.s1 ≤ 0x20170000) || decide (0x20180000 ≤ r.reg)) = true := by decide +kernel

theorem encRule_hits_bound {r : EncRule} {a : Nat} (h : r.hits a = true) (hs : 0 < r.s1) : r.reg ≤ a ∧ a < r.reg + r.n1 * r.s1 := by
  simp only [EncRule.hits, Bool.and_eq_true, decide_eq_true_eq] at h
  obtain ⟨⟨hlo, -⟩, hn⟩ := h
  have := (Nat.div_lt_iff_lt_mul hs).mp hn
  omega

theorem encRules_strides : encRules.all (fun r => decide (0 < r.s1)) = true := by decide +kernel

theorem legalWord_debug {a : Nat} (hlo : 0x20170000 ≤ a) (hhi : a < 0x20180000) (w v : BitVec 32) : legalWord a w v = v := by
  refine List.foldlRecOn (motive := fun x => x = v) encRules _ rfl ?_
  intro x hx r hr
  dsimp only
  refine (if_neg ?_).trans hx
  rw [Bool.and_eq_true]
  rintro ⟨hh, -⟩
  obtain ⟨h1, h2⟩ := encRule_hits_bound hh (by simpa using List.all_eq_true.mp encRules_strides r hr)
  have := List.all_eq_true.mp encRules_off_debug r hr
  simp only [Bool.or_eq_true, decide_eq_true_eq] at this
  omega

theorem plainWrite_debug {a m : Nat} (hp : plainRow a m = true) (hlo : 0x20170000 ≤ a) (hhi : a < 0x20180000) (h : Hw) (v : BitVec 32) :
    h.plainWrite a v = h.wr a (masked m (h.rd a) v) := by
  obtain ⟨r, hr, hs, hl, hc, hw, hm⟩ := plainRow_row hp
  rw [Hw.plainWrite_unstaged h v hr hs, Hw.rowWord, legalWord_debug hlo hhi, RegRow.written, hs, hl, hc, hw, hm, ite_self]
  have hall : ~~~(0#32) = BitVec.allOnes 32 := rfl
  simp only [masked, Nat.or_zero, BitVec.and_zero, BitVec.or_zero, hall, BitVec.and_allOnes]

theorem masked_getLsbD (m : Nat) (w v : BitVec 32) {i : Nat} (hi : i < 32) : (masked m w v).getLsbD i = if m.testBit i then v.getLsbD i else w.getLsbD i := by
  simp only [masked, BitVec.getLsbD_or, BitVec.getLsbD_and, BitVec.getLsbD_not, BitVec.getLsbD_ofNat, hi, decide_true, Bool.true_and]
  cases m.testBit i <;> simp

/-- The bits of `m` at the places `lo` to `lo + wid - 1` are all `b`. -/
def maskAt (m lo wid : Nat) (b : Bool) : Bool := (List.range wid).all (fun i => m.testBit (lo + i) == b)

/-- A field within the mask takes the bits of `v`, one outside keeps those of `w`. -/
theorem of_masked {f : Fld} {m : Nat} (b : Bool) (hf : maskAt m f.lo f.wid b = true) (hlo : f.lo + f.wid ≤ 32)
    (w v : BitVec 32) : f.of (masked m w v) = f.of (if b then v else w) := by
  apply Nat.eq_of_testBit_eq
  intro i
  simp only [Fld.of, Nat.testBit_mod_two_pow, Nat.testBit_shiftRight, ← BitVec.getLsbD.eq_1]
  by_cases hi : i < f.wid
  · have hb := List.all_eq_true.mp hf i (List.mem_range.mpr hi)
    rw [masked_getLsbD _ _ _ (by omega), beq_iff_eq.mp hb]
    cases b <;> rfl
  · simp [hi]

theorem masked_full (w v : BitVec 32) : masked 0xffffffff w v = v := by
  apply BitVec.eq_of_getLsbD_eq
  intro i hi
  rw [masked_getLsbD _ _ _ hi, show (0xffffffff : Nat) = 2 ^ 32 - 1 from rfl, Nat.testBit_two_pow_sub_one, decide_eq_true hi, if_pos rfl]

theorem of_bit {f : Fld} (hw : f.wid = 1) (w : BitVec 32) : f.of w = b2n (w.getLsbD f.lo) := by
  unfold Fld.of BitVec.getLsbD
  rw [hw, pow_one, Nat.shiftRight_eq_div_pow, ← Nat.toNat_testBit]
  cases w.toNat.testBit f.lo <;> rfl

/-! ### Who may write a patch unit or a watchpoint (R450, R453) -/

/-- The access is a supervisor's of T0. -/
def Hw.superAccess (h : Hw) (acc : Access) : Prop :=
  acc.tid = 0 ∧ ((acc.who = .m0 ∧ h.m0.mode = true) ∨ (acc.who = .m1 ∧ h.m1.mode = true) ∨ acc.who = .polder ∨ acc.who = .crocus)

theorem superT0_iff (h : Hw) (acc : Access) : h.superT0 acc = true ↔ h.superAccess acc := by
  unfold Hw.superT0 Hw.superAccess
  cases acc.who <;> simp

/-- The access comes from the debug port, or from a supervisor of T0. -/
def Hw.patcher (h : Hw) (acc : Access) : Prop := acc.who = .debug ∨ h.superAccess acc

theorem patcher_iff (h : Hw) (acc : Access) : (!fromDebug acc && !h.superT0 acc) = false ↔ h.patcher acc := by
  unfold Hw.patcher
  rw [← superT0_iff]
  cases h.superT0 acc <;> simp [fromDebug]

/-! ### A write of a patch unit (R452, R453) -/

/-- Who a unit belongs to once this access has enabled it. -/
def patchSrc (acc : Access) : Nat := if acc.who = .debug then 3 else 2

theorem patchSrc_eq (acc : Access) : (if fromDebug acc then 3 else 2) = patchSrc acc := by
  simp [patchSrc, fromDebug]

/-- The unit is enabled by another source. -/
def Hw.patchForeign (h : Hw) (acc : Access) (u : Nat) : Prop := h.get (DBG_PU_CTL.EN u) = 1 ∧ h.get (DBG_PU_CTL.SRC u) ≠ patchSrc acc

section
variable {h : Hw} {acc : Access} {u a : Nat} {v : Word}

theorem patchWrite_barred (hp : ¬ h.patcher acc) : h.patchWrite acc u a v = (h, .owner) :=
  if_pos (by have := mt (patcher_iff h acc).mp hp; simpa using this)

theorem patchWrite_locked (hp : h.patcher acc) (hl : h.get (DBG_PU_CTL.LOCKED u) = 1) : h.patchWrite acc u a v = (h, .ok) := by
  rw [Hw.patchWrite, if_neg (by rw [(patcher_iff h acc).mpr hp]; decide), if_pos ((h.on_iff rfl).mpr hl)]

theorem patchWrite_foreign (hp : h.patcher acc) (hl : h.get (DBG_PU_CTL.LOCKED u) = 0) (hf : h.patchForeign acc u) :
    h.patchWrite acc u a v = (h.set DBG_STAT.PATCH_REJ 1, .ok) := by
  have hlk : ¬ h.on (DBG_PU_CTL.LOCKED u) = true := by rw [h.on_iff rfl, hl]; decide
  rw [Hw.patchWrite, if_neg (by rw [(patcher_iff h acc).mpr hp]; decide), if_neg hlk, patchSrc_eq]
  refine if_pos ?_
  rw [Bool.and_eq_true, h.on_iff rfl, bne_iff_ne]
  exact hf

/-- The unit's EN and SRC after the word has been written: a source that enables it claims it, one that disables it gives it up. -/
def Hw.patchClaim (h : Hw) (acc : Access) (u : Nat) (was : Bool) : Hw :=
  if was != h.on (DBG_PU_CTL.EN u) then h.set (DBG_PU_CTL.SRC u) (if was then 0 else patchSrc acc) else h

/-- Both I-caches lose the unit's old line and its new one. -/
def Hw.patchDrop (h : Hw) (u old : Nat) (changed : Bool) : Hw :=
  h.when changed (fun h => (h.dropFetch old).dropFetch (h.get (DBG_PU_LINE.ADDR u) * 32))

/-- A write that changes the unit. -/
theorem patchWrite_takes (hp : h.patcher acc) (hl : h.get (DBG_PU_CTL.LOCKED u) = 0) (hf : ¬ h.patchForeign acc u) :
    h.patchWrite acc u a v =
      (let was := h.on (DBG_PU_CTL.EN u)
        let k := (h.plainWrite a v).patchClaim acc u was
        ((k.patchDrop u (h.get (DBG_PU_LINE.ADDR u) * 32)
          (was != k.on (DBG_PU_CTL.EN u) || (a != DBG_PU_CTL u && k.rd a != h.rd a))).patchDups, .ok)) := by
  have hlk : ¬ h.on (DBG_PU_CTL.LOCKED u) = true := by rw [h.on_iff rfl, hl]; decide
  have hfn : ¬ (h.on (DBG_PU_CTL.EN u) && h.get (DBG_PU_CTL.SRC u) != patchSrc acc) = true := by
    rw [Bool.and_eq_true, h.on_iff rfl, bne_iff_ne]
    exact hf
  rw [Hw.patchWrite, if_neg (by rw [(patcher_iff h acc).mpr hp]; decide), if_neg hlk, patchSrc_eq, if_neg hfn]
  rfl

end

/-! What such a write leaves. -/

theorem patchDups_same (h : Hw) : SameBytes h h.patchDups := by
  unfold Hw.patchDups
  refine List.foldlRecOn (motive := fun k => SameBytes h k) (List.range 32) _ (SameBytes.refl h) ?_
  intro k hk u hu
  have hne : DBG_PU_CTL u ≠ DDR_TOP := by
    have := List.mem_range.mp hu
    simp only [DBG_PU_CTL, DDR_TOP]
    omega
  exact hk.trans (Hw.set_same k _ _ hne)

theorem dropFetch_same (h : Hw) (l : Nat) : SameBytes h (h.dropFetch l) := ⟨rfl, rfl, rfl, fun _ => rfl⟩

theorem patchDrop_same (h : Hw) (u old : Nat) (b : Bool) : SameBytes h (h.patchDrop u old b) := by
  unfold Hw.patchDrop Hw.when
  split
  · exact (dropFetch_same h old).trans (dropFetch_same _ _)
  · exact SameBytes.refl h

theorem patchDrop_rd (h : Hw) (u old : Nat) (b : Bool) (a : Nat) : (h.patchDrop u old b).rd a = h.rd a := by
  unfold Hw.patchDrop Hw.when
  split
  · rw [dropFetch_rd, dropFetch_rd]
  · rfl

/-- Line `l`, in 32-byte units, is in neither I-cache. -/
def Hw.lineGone (t : Hw) (l : Nat) : Prop := t.m0.icache.contains (lineOf (32 * l)) = false ∧ t.m1.icache.contains (lineOf (32 * l)) = false

/-- The I-caches are those of `h`. -/
def Hw.sameFetch (h t : Hw) : Prop := t.m0.icache = h.m0.icache ∧ t.m1.icache = h.m1.icache

theorem dropFetch_gone (h : Hw) (l : Nat) : (h.dropFetch (l * 32)).lineGone l := by
  unfold Hw.lineGone Hw.dropFetch
  rw [Nat.mul_comm l 32]
  simp

theorem lineGone_dropFetch {h : Hw} {l : Nat} (hg : h.lineGone l) (b : Nat) : (h.dropFetch b).lineGone l := by
  obtain ⟨h0, h1⟩ := hg
  unfold Hw.lineGone Hw.dropFetch
  simp only [List.contains_eq_mem, decide_eq_false_iff_not, List.mem_filter, not_and] at h0 h1 ⊢
  exact ⟨fun h => absurd h h0, fun h => absurd h h1⟩

theorem patchDrop_gone {h : Hw} {u l : Nat} : (h.patchDrop u (l * 32) true).lineGone l ∧ (h.patchDrop u (l * 32) true).lineGone (h.get (DBG_PU_LINE.ADDR u)) := by
  exact ⟨lineGone_dropFetch (dropFetch_gone h l) _, dropFetch_gone _ _⟩

theorem patchDups_fetch (h : Hw) : h.sameFetch h.patchDups :=
  ⟨foldl_keeps (fun h => h.m0.icache) _ h (fun _ _ _ => rfl), foldl_keeps (fun h => h.m1.icache) _ h (fun _ _ _ => rfl)⟩

theorem lineGone_patchDups {h : Hw} {l : Nat} (hg : h.lineGone l) : h.patchDups.lineGone l := by
  obtain ⟨h0, h1⟩ := patchDups_fetch h
  unfold Hw.lineGone
  rw [h0, h1]
  exact hg

theorem patchDrop_unchanged (h : Hw) (u old : Nat) : h.patchDrop u old false = h := rfl

theorem sameFetch_canon {h k : Hw} (hk : h.sameFetch k) : h.sameFetch k.canon := hk

theorem lineGone_canon {h : Hw} {l : Nat} (hg : h.lineGone l) : h.canon.lineGone l := hg

/-- A line leaves both I-caches where the write changes the unit, and no line does otherwise. -/
theorem patchDrop_listed {h k : Hw} (hk : h.sameFetch k) (u old l : Nat) (changed : Bool) (hl : l = old ∨ l = k.get (DBG_PU_LINE.ADDR u)) :
    (changed = true → (k.patchDrop u (old * 32) changed).patchDups.canon.lineGone l) ∧
    (changed = false → h.sameFetch (k.patchDrop u (old * 32) changed).patchDups.canon) := by
  refine ⟨fun hc => ?_, fun hc => ?_⟩
  · subst hc
    refine lineGone_canon (lineGone_patchDups ?_)
    rcases hl with rfl | rfl
    · exact patchDrop_gone.1
    · exact patchDrop_gone.2
  · subst hc
    rw [patchDrop_unchanged]
    obtain ⟨h0, h1⟩ := patchDups_fetch k
    refine sameFetch_canon ?_
    exact ⟨h0.trans hk.1, h1.trans hk.2⟩

end Sys2Proof.Machine

/-! PATCH_UNIT_WRITE and WATCHPOINT_WRITE by access (spec/19_debug_and_test.md, R449, R450, R452, R453). -/

namespace Sys2Proof.Machine

/-! ### The registers' rows -/

theorem plainRow_puCtl : ∀ u : Fin 32, plainRow (DBG_PU_CTL u) 0x3 = true := by decide +kernel
theorem plainRow_puLine : ∀ u : Fin 32, plainRow (DBG_PU_LINE u) 0xffffffe0 = true := by decide +kernel
theorem plainRow_puData : ∀ (u : Fin 32) (w : Fin 8), plainRow (DBG_PU_DATA u w) 0xffffffff = true := by decide +kernel
theorem plainRow_wpAddr : ∀ (c : Fin 3) (i : Fin 8), plainRow (DBG_C_WP_ADDR c i) 0xffffffff = true := by decide +kernel
theorem plainRow_wpMask : ∀ (c : Fin 3) (i : Fin 8), plainRow (DBG_C_WP_MASK c i) 0xffffffff = true := by decide +kernel
theorem plainRow_wpCtl : ∀ (c : Fin 3) (i : Fin 8), plainRow (DBG_C_WP_CTL c i) 0x7ff = true := by decide +kernel

/-! ### A write of a patch unit -/

section
variable {s : State} {acc : Access} {u : Fin 32} {w : Fin 16} {v : Word}

theorem dbgWrite_patch (h : Hw) (acc : Access) (u : Fin 32) (w : Fin 16) (v : Word) :
    h.dbgWrite acc (DBG_PU_CTL u + 4 * w) v = h.patchWrite acc u (DBG_PU_CTL u + 4 * w) v := by
  have hu := u.isLt
  have hw := w.isLt
  have ho : DBG_PU_CTL u + 4 * w.val - 0x20170000 = 0x1000 + 0x40 * u.val + 4 * w.val := by simp only [DBG_PU_CTL]; omega
  have hn : (0x1000 + 0x40 * u.val + 4 * w.val - 0x1000) / 0x40 = u.val := by omega
  rw [Hw.dbgWrite, ho, if_neg (by omega), if_neg (by omega), if_neg (by simp; omega), if_neg (by simp; omega), if_pos (by simp; omega), hn]

variable (ho : s.hw.opens acc = true) (hp : acc.who = .debug → bitOf (s.hw.get LCS_STAT.DBG_PERM) 1 = true)
include ho hp

theorem becomes_patch {k : Hw} (hk : Hw.portAnswer acc (DBG_PU_CTL u + 4 * w) (s.hw.patchWrite acc u (DBG_PU_CTL u + 4 * w) v) = k) :
    Becomes (.patchUnitWrite acc u w v) s k :=
  becomes_onDebug_patch (exec_patchUnitWrite s acc u w v) ho (by simp only [DBG_PU_CTL]; omega) (by simp only [DBG_PU_CTL]; omega) hp
    (by rw [dbgWrite_patch, hk])

theorem becomes_patch_barred (hb : (acc.who ≠ .debug ∧ ¬ s.hw.superAccess acc) ∨ s.hw.get (DBG_PU_CTL.LOCKED u) = 1) :
    Becomes (.patchUnitWrite acc u w v) s s.hw := by
  by_cases hm : s.hw.patcher acc
  · have hl : s.hw.get (DBG_PU_CTL.LOCKED u) = 1 := hb.resolve_left (fun hn => hm.elim hn.1 hn.2)
    exact becomes_patch ho hp (by rw [patchWrite_locked hm hl, Hw.portAnswer_ok])
  · have hd : acc.who ≠ .debug := fun hd => hm (.inl hd)
    exact becomes_patch ho hp (by rw [patchWrite_barred hm, portAnswer_other hd])

variable (hm : s.hw.patcher acc) (hl : s.hw.get (DBG_PU_CTL.LOCKED u) = 0)
include hm hl

theorem becomes_patch_foreign (hf : s.hw.patchForeign acc u) : Becomes (.patchUnitWrite acc u w v) s (s.hw.set DBG_STAT.PATCH_REJ 1) :=
  becomes_patch ho hp (by rw [patchWrite_foreign hm hl hf, Hw.portAnswer_ok])

omit ho hp hm hl in
/-- The unit as a write of `v` at `a` leaves it, the I-caches and DUP aside. -/
def Hw.patchTaken (h : Hw) (acc : Access) (u a : Nat) (v : Word) : Hw := (h.plainWrite a v).patchClaim acc u (h.on (DBG_PU_CTL.EN u))

/-- That changes EN, LINE or DATA. -/
def Hw.patchMoves (h : Hw) (acc : Access) (u a : Nat) (v : Word) : Bool :=
  h.on (DBG_PU_CTL.EN u) != (h.patchTaken acc u a v).on (DBG_PU_CTL.EN u) || (a != DBG_PU_CTL u && (h.patchTaken acc u a v).rd a != h.rd a)

/-- The part after a write that a patch unit takes. -/
def Hw.patched (h : Hw) (acc : Access) (u a : Nat) (v : Word) : Hw :=
  ((h.patchTaken acc u a v).patchDrop u (h.get (DBG_PU_LINE.ADDR u) * 32) (h.patchMoves acc u a v)).patchDups

theorem becomes_patched (hf : ¬ s.hw.patchForeign acc u) {a : Nat} (ha : DBG_PU_CTL u + 4 * w.val = a) :
    Becomes (.patchUnitWrite acc u w v) s (s.hw.patched acc u a v) := by
  refine becomes_patch ho hp ?_
  rw [patchWrite_takes hm hl hf, ha]
  exact Hw.portAnswer_ok _ _ _

end

section
variable {h : Hw} {acc : Access} {u a m : Nat} {v : Word}

/-- A register of the unit. -/
def puReg (u a m : Nat) : Prop := plainRow a m = true ∧ 0x20171000 ≤ a ∧ a < 0x20171800 ∧ u < 32

theorem patchTaken_eq (hr : puReg u a m) : h.patchTaken acc u a v = (h.wr a (masked m (h.rd a) v)).patchClaim acc u (h.on (DBG_PU_CTL.EN u)) := by
  obtain ⟨hrow, hlo, hhi, -⟩ := hr
  rw [Hw.patchTaken, plainWrite_debug hrow (by omega) (by omega)]

theorem patchClaim_same (k : Hw) (hu : u < 32) (b : Bool) : SameBytes k (k.patchClaim acc u b) := by
  unfold Hw.patchClaim
  split
  · exact Hw.set_same k _ _ (by simp only [DBG_PU_CTL.SRC, DBG_PU_CTL, DDR_TOP]; omega)
  · exact SameBytes.refl k

theorem patchClaim_fetch (k : Hw) (b : Bool) : k.sameFetch (k.patchClaim acc u b) := by
  unfold Hw.patchClaim
  split <;> exact ⟨rfl, rfl⟩

theorem patchClaim_get (k : Hw) (b : Bool) {f : Fld} (hf : (DBG_PU_CTL.SRC u).apart f = true) : (k.patchClaim acc u b).get f = k.get f := by
  unfold Hw.patchClaim
  split
  · exact Hw.get_set_of_apart k _ f _ hf
  · rfl

theorem patched_same (hr : puReg u a m) : SameMemory h (h.patched acc u a v).canon := by
  have hne : a ≠ DDR_TOP := by
    obtain ⟨-, hlo, -, -⟩ := hr
    simp only [DDR_TOP]
    omega
  have ht : SameBytes h (h.patchTaken acc u a v) := by
    rw [patchTaken_eq hr]
    exact (Hw.wr_same h _ hne).trans (patchClaim_same _ hr.2.2.2 _)
  exact fun b => (Hw.byte_canon _ b).trans (((ht.trans (patchDrop_same _ _ _ _)).trans (patchDups_same _)).byte b)

theorem patchTaken_fetch (hr : puReg u a m) : h.sameFetch (h.patchTaken acc u a v) := by
  rw [patchTaken_eq hr]
  exact patchClaim_fetch (h.wr a (masked m (h.rd a) v)) (h.on (DBG_PU_CTL.EN u))

theorem patched_rd {b : Nat} (hb : ∀ u < 32, b ≠ DBG_PU_CTL u) : (h.patched acc u a v).canon.rd b = (h.patchTaken acc u a v).rd b := by
  rw [Hw.rd_canon, Hw.patched, patchDups_rd _ hb, patchDrop_rd]

theorem patched_get {f : Fld} (hf : ∀ u < 32, (DBG_PU_CTL.DUP u).apart f = true) :
    (h.patched acc u a v).canon.get f = (h.patchTaken acc u a v).get f := by
  rw [Hw.get_canon, Hw.patched, patchDups_get _ hf]
  exact congrArg f.of (patchDrop_rd _ _ _ _ _)

/-- The lines of the unit leave the I-caches where the write changes it. -/
theorem patched_listed (hr : puReg u a m) {p : Prop} (hm : h.patchMoves acc u a v = true ↔ p) {l : Nat}
    (hl : l = h.get (DBG_PU_LINE.ADDR u) ∨ l = (h.patchTaken acc u a v).get (DBG_PU_LINE.ADDR u)) :
    (p → (h.patched acc u a v).canon.lineGone l) ∧ (¬ p → h.sameFetch (h.patched acc u a v).canon) := by
  obtain ⟨h1, h2⟩ := patchDrop_listed (patchTaken_fetch (acc := acc) (v := v) hr) u (h.get (DBG_PU_LINE.ADDR u)) l (h.patchMoves acc u a v) hl
  exact ⟨fun hp => h1 (hm.mpr hp), fun hp => h2 (Bool.eq_false_iff.mpr (mt hm.mp hp))⟩

end

theorem on_eq_of_b2n {h : Hw} {f : Fld} {b : Bool} (hf : h.get f = b2n b) : h.on f = b := by
  rw [Hw.on, hf]
  cases b <;> rfl

theorem b2n_on {h : Hw} {f : Fld} (hw : f.wid = 1) : b2n (h.on f) = h.get f := by
  have hlt := h.get_lt f
  rw [hw] at hlt
  have : h.get f = 0 ∨ h.get f = 1 := by omega
  unfold Hw.on
  rcases this with e | e <;> rw [e] <;> rfl

/-! CTL of a unit. -/

section
variable (h : Hw) (acc : Access) (u : Fin 32) (v : Word)

theorem puReg_ctl : puReg u (DBG_PU_CTL u) 0x3 := ⟨plainRow_puCtl u, by simp only [DBG_PU_CTL]; omega, by simp only [DBG_PU_CTL]; omega, u.isLt⟩

/-- A field of CTL after its word has been written: a bit of the word within the mask. -/
theorem puCtl_written {f : Fld} (ha : f.adr = DBG_PU_CTL u) (b : Bool) (hf : maskAt 0x3 f.lo f.wid b = true)
    (hlo : f.lo + f.wid ≤ 32) : (h.wr (DBG_PU_CTL u) (masked 0x3 (h.rd (DBG_PU_CTL u)) v)).get f = if b then f.of v else h.get f := by
  have hs : (h.wr (DBG_PU_CTL u) (masked 0x3 (h.rd (DBG_PU_CTL u)) v)).get f = f.of (masked 0x3 (h.rd (DBG_PU_CTL u)) v) := by
    unfold Hw.get
    rw [ha, Hw.rd_wr_self]
  rw [hs, of_masked b hf hlo]
  cases b
  · exact congrArg (fun a => f.of (h.rd a)) ha.symm
  · rfl

theorem puCtl_en : (h.patchTaken acc u (DBG_PU_CTL u) v).get (DBG_PU_CTL.EN u) = b2n (v.getLsbD 0) := by
  rw [patchTaken_eq (puReg_ctl u), patchClaim_get _ _ (by simp [Fld.apart, DBG_PU_CTL.SRC, DBG_PU_CTL.EN]), puCtl_written h u v rfl true (by decide : maskAt 0x3 0 1 true = true) (by decide : 0 + 1 ≤ 32)]
  exact of_bit rfl v

theorem puCtl_hitIe : (h.patchTaken acc u (DBG_PU_CTL u) v).get (DBG_PU_CTL.HIT_IE u) = b2n (v.getLsbD 1) := by
  rw [patchTaken_eq (puReg_ctl u), patchClaim_get _ _ (by simp [Fld.apart, DBG_PU_CTL.SRC, DBG_PU_CTL.HIT_IE]), puCtl_written h u v rfl true (by decide : maskAt 0x3 1 1 true = true) (by decide : 1 + 1 ≤ 32)]
  exact of_bit rfl v

theorem patchSrc_lt (acc : Access) : patchSrc acc % 2 ^ 2 = patchSrc acc := by
  unfold patchSrc
  split <;> rfl

theorem puCtl_src : (h.patchTaken acc u (DBG_PU_CTL u) v).get (DBG_PU_CTL.SRC u) =
    if h.get (DBG_PU_CTL.EN u) = b2n (v.getLsbD 0) then h.get (DBG_PU_CTL.SRC u) else if h.get (DBG_PU_CTL.EN u) = 1 then 0 else patchSrc acc := by
  have hen : (h.wr (DBG_PU_CTL u) (masked 0x3 (h.rd (DBG_PU_CTL u)) v)).on (DBG_PU_CTL.EN u) = v.getLsbD 0 :=
    on_eq_of_b2n ((puCtl_written h u v (f := DBG_PU_CTL.EN u) rfl true (by decide : maskAt 0x3 0 1 true = true) (by decide : 0 + 1 ≤ 32)).trans (of_bit rfl v))
  have hsrc := puCtl_written h u v (f := DBG_PU_CTL.SRC u) rfl false (by decide : maskAt 0x3 2 2 false = true) (by decide : 2 + 2 ≤ 32)
  rw [if_neg (by decide)] at hsrc
  have hwas : b2n (h.on (DBG_PU_CTL.EN u)) = h.get (DBG_PU_CTL.EN u) := b2n_on rfl
  rw [patchTaken_eq (puReg_ctl u), Hw.patchClaim, hen, ← hwas]
  cases h.on (DBG_PU_CTL.EN u) <;> cases v.getLsbD 0
  · exact hsrc
  · exact (Hw.get_set_self _ _ _ (by decide : 2 + 2 ≤ 32)).trans (patchSrc_lt acc)
  · exact Hw.get_set_self _ _ _ (by decide : 2 + 2 ≤ 32)
  · exact hsrc

theorem puCtl_moves : h.patchMoves acc u (DBG_PU_CTL u) v = true ↔ h.get (DBG_PU_CTL.EN u) ≠ b2n (v.getLsbD 0) := by
  have hwas : b2n (h.on (DBG_PU_CTL.EN u)) = h.get (DBG_PU_CTL.EN u) := b2n_on rfl
  rw [Hw.patchMoves, on_eq_of_b2n (puCtl_en h acc u v), bne_self_eq_false, Bool.false_and, Bool.or_false, bne_iff_ne, ← hwas]
  cases h.on (DBG_PU_CTL.EN u) <;> cases v.getLsbD 0 <;> decide

theorem puCtl_patched : let t := (h.patched acc u (DBG_PU_CTL u) v).canon
    t.reads [(DBG_PU_CTL.EN u, b2n (v.getLsbD 0)), (DBG_PU_CTL.HIT_IE u, b2n (v.getLsbD 1)),
      (DBG_PU_CTL.SRC u, if h.get (DBG_PU_CTL.EN u) = b2n (v.getLsbD 0) then h.get (DBG_PU_CTL.SRC u)
        else if h.get (DBG_PU_CTL.EN u) = 1 then 0 else patchSrc acc)] ∧
    ((h.get (DBG_PU_CTL.EN u) ≠ b2n (v.getLsbD 0) → t.lineGone (h.get (DBG_PU_LINE.ADDR u))) ∧
      (¬ h.get (DBG_PU_CTL.EN u) ≠ b2n (v.getLsbD 0) → h.sameFetch t)) ∧ SameMemory h t := by
  refine ⟨?_, patched_listed (puReg_ctl u) (puCtl_moves h acc u v) (.inl rfl), patched_same (puReg_ctl u)⟩
  simp only [Hw.reads_cons, Hw.reads_nil, and_true]
  exact ⟨(patched_get (fun v _ => dup_apart_low v (by decide : 0 + 1 ≤ 5))).trans (puCtl_en h acc u v),
    (patched_get (fun v _ => dup_apart_low v (by decide : 1 + 1 ≤ 5))).trans (puCtl_hitIe h acc u v),
    (patched_get (fun v _ => dup_apart_low v (by decide : 2 + 2 ≤ 5))).trans (puCtl_src h acc u v)⟩

end

/-! LINE and DATA of a unit. -/

section
variable {h : Hw} {acc : Access} {u : Fin 32} {a m : Nat} {v : Word} (hr : puReg u a m) (ha : a ≠ DBG_PU_CTL u)
include hr ha

/-- EN stands, so the unit stays whose it is. -/
theorem patchTaken_beside : h.patchTaken acc u a v = h.wr a (masked m (h.rd a) v) := by
  have hen : (h.wr a (masked m (h.rd a) v)).on (DBG_PU_CTL.EN u) = h.on (DBG_PU_CTL.EN u) := by
    unfold Hw.on
    rw [Hw.get_wr_other _ _ _ (show (DBG_PU_CTL.EN u).adr ≠ a from Ne.symm ha)]
  rw [patchTaken_eq hr, Hw.patchClaim, hen, bne_self_eq_false, if_neg (by decide)]

theorem patchTaken_en : (h.patchTaken acc u a v).get (DBG_PU_CTL.EN u) = h.get (DBG_PU_CTL.EN u) := by
  rw [patchTaken_beside hr ha, Hw.get_wr_other _ _ _ (show (DBG_PU_CTL.EN u).adr ≠ a from Ne.symm ha)]

theorem patchTaken_word : (h.patchTaken acc u a v).rd a = masked m (h.rd a) v := by
  rw [patchTaken_beside hr ha, Hw.rd_wr_self]

theorem patchMoves_beside : h.patchMoves acc u a v = true ↔ masked m (h.rd a) v ≠ h.rd a := by
  have hon : (h.patchTaken acc u a v).on (DBG_PU_CTL.EN u) = h.on (DBG_PU_CTL.EN u) := by
    unfold Hw.on
    rw [patchTaken_en hr ha]
  rw [Hw.patchMoves, hon, bne_self_eq_false, Bool.false_or, patchTaken_word hr ha, Bool.and_eq_true, bne_iff_ne, bne_iff_ne]
  exact and_iff_right ha

theorem patched_en : (h.patched acc u a v).canon.get (DBG_PU_CTL.EN u) = h.get (DBG_PU_CTL.EN u) :=
  (patched_get (fun v _ => dup_apart_low v (by decide : 0 + 1 ≤ 5))).trans (patchTaken_en hr ha)

end

section
variable (h : Hw) (acc : Access) (u : Fin 32) (v : Word)

theorem puReg_line : puReg u (DBG_PU_LINE u) 0xffffffe0 :=
  ⟨plainRow_puLine u, by simp only [DBG_PU_LINE]; omega, by simp only [DBG_PU_LINE]; omega, u.isLt⟩

theorem puReg_data (k : Fin 8) : puReg u (DBG_PU_DATA u k) 0xffffffff :=
  ⟨plainRow_puData u k, by simp only [DBG_PU_DATA]; omega, by simp only [DBG_PU_DATA]; omega, u.isLt⟩

theorem puLine_addr : (h.patchTaken acc u (DBG_PU_LINE u) v).get (DBG_PU_LINE.ADDR u) = v.toNat / 32 := by
  have hw := patchTaken_word (h := h) (acc := acc) (v := v) (puReg_line u) (by simp only [DBG_PU_LINE, DBG_PU_CTL]; omega)
  have hv := v.isLt
  have hof : (DBG_PU_LINE.ADDR u).of (masked 0xffffffe0 (h.rd (DBG_PU_LINE u)) v) = (DBG_PU_LINE.ADDR u).of v :=
    of_masked true (by decide : maskAt 0xffffffe0 5 27 true = true) (by decide : 5 + 27 ≤ 32) _ _
  have hsh : (DBG_PU_LINE.ADDR u).of v = v.toNat / 32 := by
    show v.toNat >>> 5 % 2 ^ 27 = _
    rw [Nat.shiftRight_eq_div_pow]
    omega
  exact (congrArg (DBG_PU_LINE.ADDR u).of hw).trans (hof.trans hsh)

theorem puLine_patched : let t := (h.patched acc u (DBG_PU_LINE u) v).canon
    let moved := t.rd (DBG_PU_LINE u) ≠ h.rd (DBG_PU_LINE u)
    t.reads [(DBG_PU_LINE.ADDR u, v.toNat / 32), (DBG_PU_CTL.EN u, h.get (DBG_PU_CTL.EN u))] ∧
    ((moved → t.lineGone (h.get (DBG_PU_LINE.ADDR u))) ∧ (¬ moved → h.sameFetch t)) ∧
    ((moved → t.lineGone (v.toNat / 32)) ∧ (¬ moved → h.sameFetch t)) ∧ SameMemory h t := by
  have ha : DBG_PU_LINE u ≠ DBG_PU_CTL u := by simp only [DBG_PU_LINE, DBG_PU_CTL]; omega
  have hn : ∀ x < 32, DBG_PU_LINE u ≠ DBG_PU_CTL x := by intro x _; simp only [DBG_PU_LINE, DBG_PU_CTL]; omega
  have hrd : (h.patched acc u (DBG_PU_LINE u) v).canon.rd (DBG_PU_LINE u) = masked 0xffffffe0 (h.rd (DBG_PU_LINE u)) v :=
    (patched_rd hn).trans (patchTaken_word (puReg_line u) ha)
  have hm := patchMoves_beside (h := h) (acc := acc) (v := v) (puReg_line u) ha
  rw [← hrd] at hm
  have hadr := puLine_addr h acc u v
  refine ⟨?_, patched_listed (puReg_line u) hm (.inl rfl), patched_listed (puReg_line u) hm (.inr hadr.symm), patched_same (puReg_line u)⟩
  simp only [Hw.reads_cons, Hw.reads_nil, and_true]
  refine ⟨?_, patched_en (puReg_line u) ha⟩
  exact (patched_get (fun x hx => by simpa [Fld.apart, DBG_PU_CTL.DUP, DBG_PU_LINE.ADDR] using (hn x hx).symm)).trans hadr

theorem puData_patched (k : Fin 8) : let t := (h.patched acc u (DBG_PU_DATA u k) v).canon
    t.rd (DBG_PU_DATA u k) = v ∧ t.get (DBG_PU_CTL.EN u) = h.get (DBG_PU_CTL.EN u) ∧
    ((v ≠ h.rd (DBG_PU_DATA u k) → t.lineGone (h.get (DBG_PU_LINE.ADDR u))) ∧ (¬ v ≠ h.rd (DBG_PU_DATA u k) → h.sameFetch t)) ∧ SameMemory h t := by
  have ha : DBG_PU_DATA u k ≠ DBG_PU_CTL u := by simp only [DBG_PU_DATA, DBG_PU_CTL]; omega
  have hn : ∀ x < 32, DBG_PU_DATA u k ≠ DBG_PU_CTL x := by intro x _; simp only [DBG_PU_DATA, DBG_PU_CTL]; omega
  have hm := patchMoves_beside (h := h) (acc := acc) (v := v) (puReg_data u k) ha
  rw [masked_full] at hm
  refine ⟨(patched_rd hn).trans ((patchTaken_word (puReg_data u k) ha).trans (masked_full _ _)), patched_en (puReg_data u k) ha,
    patched_listed (puReg_data u k) hm (.inl rfl), patched_same (puReg_data u k)⟩

end

/-! The command, by the register of the unit. -/

section
variable {s : State} {acc : Access} {u : Fin 32} {w : Fin 16} {v : Word} (ho : s.hw.opens acc = true)
  (hp : acc.who = .debug → bitOf (s.hw.get LCS_STAT.DBG_PERM) 1 = true) (hm : s.hw.patcher acc) (hl : s.hw.get (DBG_PU_CTL.LOCKED u) = 0)
  (hf : ¬ s.hw.patchForeign acc u)
include ho hp hm hl hf

theorem completes_patch_ctl (hw : w = 0) : Completes (.patchUnitWrite acc u w v) s (fun t =>
    t.reads [(DBG_PU_CTL.EN u, b2n (v.getLsbD 0)), (DBG_PU_CTL.HIT_IE u, b2n (v.getLsbD 1)),
      (DBG_PU_CTL.SRC u, if s.hw.get (DBG_PU_CTL.EN u) = b2n (v.getLsbD 0) then s.hw.get (DBG_PU_CTL.SRC u)
        else if s.hw.get (DBG_PU_CTL.EN u) = 1 then 0 else patchSrc acc)] ∧
    ((s.hw.get (DBG_PU_CTL.EN u) ≠ b2n (v.getLsbD 0) → t.lineGone (s.hw.get (DBG_PU_LINE.ADDR u))) ∧
      (¬ s.hw.get (DBG_PU_CTL.EN u) ≠ b2n (v.getLsbD 0) → s.hw.sameFetch t)) ∧ SameMemory s.hw t) :=
  (becomes_patched ho hp hm hl hf (a := DBG_PU_CTL u) (by rw [hw]; rfl)).completes (puCtl_patched s.hw acc u v)

theorem completes_patch_line (hw : w = 1) : Completes (.patchUnitWrite acc u w v) s (fun t =>
    t.reads [(DBG_PU_LINE.ADDR u, v.toNat / 32), (DBG_PU_CTL.EN u, s.hw.get (DBG_PU_CTL.EN u))] ∧
    ((t.rd (DBG_PU_LINE u) ≠ s.hw.rd (DBG_PU_LINE u) → t.lineGone (s.hw.get (DBG_PU_LINE.ADDR u))) ∧
      (¬ t.rd (DBG_PU_LINE u) ≠ s.hw.rd (DBG_PU_LINE u) → s.hw.sameFetch t)) ∧
    ((t.rd (DBG_PU_LINE u) ≠ s.hw.rd (DBG_PU_LINE u) → t.lineGone (v.toNat / 32)) ∧
      (¬ t.rd (DBG_PU_LINE u) ≠ s.hw.rd (DBG_PU_LINE u) → s.hw.sameFetch t)) ∧ SameMemory s.hw t) := by
  have ha : DBG_PU_CTL u + 4 * w.val = DBG_PU_LINE u := by
    have h1 : w.val = 1 := congrArg Fin.val hw
    simp only [DBG_PU_CTL, DBG_PU_LINE]
    omega
  exact (becomes_patched ho hp hm hl hf ha).completes (puLine_patched s.hw acc u v)

theorem completes_patch_data (hw : 8 ≤ w.val) : Completes (.patchUnitWrite acc u w v) s (fun t =>
    t.rd (DBG_PU_DATA u (w.val - 8)) = v ∧ t.get (DBG_PU_CTL.EN u) = s.hw.get (DBG_PU_CTL.EN u) ∧
    ((v ≠ s.hw.rd (DBG_PU_DATA u (w.val - 8)) → t.lineGone (s.hw.get (DBG_PU_LINE.ADDR u))) ∧
      (¬ v ≠ s.hw.rd (DBG_PU_DATA u (w.val - 8)) → s.hw.sameFetch t)) ∧ SameMemory s.hw t) := by
  have ha : DBG_PU_CTL u + 4 * w.val = DBG_PU_DATA u (w.val - 8) := by
    simp only [DBG_PU_CTL, DBG_PU_DATA]
    omega
  exact (becomes_patched ho hp hm hl hf ha).completes (puData_patched s.hw acc u v ⟨w.val - 8, by omega⟩)

end

/-! ### A write of a watchpoint (R449, R450) -/

/-- The access is the core's own, a supervisor's of T0. -/
def Hw.wpOwn (h : Hw) (acc : Access) (c : Fin 3) : Prop :=
  ((c = 0 ∧ acc.who = .m0) ∨ (c = 1 ∧ acc.who = .m1) ∨ (c = 2 ∧ acc.who = .polder)) ∧ h.superAccess acc

theorem wpOwn_iff (h : Hw) (acc : Access) (c : Fin 3) : (acc.who = coreIni (dbgCore c) && h.superT0 acc) = true ↔ h.wpOwn acc c := by
  rw [Bool.and_eq_true, decide_eq_true_eq, superT0_iff, Hw.wpOwn]
  fin_cases c <;> simp [coreIni, dbgCore]

/-- What SRC of a watchpoint shows once this access has enabled it. -/
def wpSrc (acc : Access) : Nat := if acc.who = .debug then 1 else 0

/-- The watchpoint is enabled by another source. -/
def Hw.wpForeign (h : Hw) (acc : Access) (c i : Nat) : Prop := h.get (DBG_C_WP_CTL.EN c i) = 1 ∧ h.get (DBG_C_WP_CTL.SRC c i) ≠ wpSrc acc

theorem wpSrc_eq (acc : Access) : wpSrc acc = b2n (fromDebug acc) := by
  unfold wpSrc fromDebug
  by_cases hd : acc.who = .debug
  · rw [if_pos hd, decide_eq_true hd]
    rfl
  · rw [if_neg hd, decide_eq_false hd]
    rfl

section
variable {h : Hw} {acc : Access} {c : Fin 3} {i : Fin 8} {a : Nat} {v : Word}

theorem wpForeign_iff : (h.on (DBG_C_WP_CTL.EN c i) && h.on (DBG_C_WP_CTL.SRC c i) != fromDebug acc) = true ↔ h.wpForeign acc c i := by
  have hs : b2n (h.on (DBG_C_WP_CTL.SRC c i)) = h.get (DBG_C_WP_CTL.SRC c i) := b2n_on rfl
  rw [Bool.and_eq_true, h.on_iff rfl, Hw.wpForeign, wpSrc_eq, ← hs]
  refine and_congr_right (fun _ => ?_)
  cases h.on (DBG_C_WP_CTL.SRC c i) <;> cases fromDebug acc <;> decide

theorem wpWrite_barred (hd : acc.who ≠ .debug) (ho : ¬ h.wpOwn acc c) : h.wpWrite acc c i a v = (h, .owner) := by
  refine if_pos ?_
  have hno := Bool.eq_false_iff.mpr (mt (wpOwn_iff h acc c).mp ho)
  rw [hno]
  simp [fromDebug, hd]

theorem wp_permitted (hm : acc.who = .debug ∨ h.wpOwn acc c) : ¬ (!fromDebug acc && !(acc.who = coreIni (dbgCore c) && h.superT0 acc)) = true := by
  rcases hm with hd | ho
  · simp [fromDebug, hd]
  · simp [(wpOwn_iff h acc c).mpr ho]

variable (hm : acc.who = .debug ∨ h.wpOwn acc c)
include hm

theorem wpWrite_absent (hi : wpCount c ≤ i) : h.wpWrite acc c i a v = (h, .ok) := by
  rw [Hw.wpWrite]
  exact (if_neg (wp_permitted hm)).trans (if_pos hi)

variable (hi : i < wpCount c)
include hi

theorem wpWrite_foreign (hf : h.wpForeign acc c i) : h.wpWrite acc c i a v = (h.set DBG_STAT.WP_REJ 1, .ok) := by
  rw [Hw.wpWrite]
  exact (if_neg (wp_permitted hm)).trans ((if_neg (by omega)).trans (if_pos (wpForeign_iff.mpr hf)))

omit hm hi in
/-- The watchpoint after a write that it takes: who enables it owns it. -/
def Hw.wpTaken (h : Hw) (acc : Access) (c i a : Nat) (v : Word) : Hw :=
  let k := h.plainWrite a v
  if !h.on (DBG_C_WP_CTL.EN c i) && k.on (DBG_C_WP_CTL.EN c i) then k.put (DBG_C_WP_CTL.SRC c i) (fromDebug acc) else k

theorem wpWrite_takes (hf : ¬ h.wpForeign acc c i) : h.wpWrite acc c i a v = (h.wpTaken acc c i a v, .ok) := by
  rw [Hw.wpWrite]
  exact (if_neg (wp_permitted hm)).trans ((if_neg (by omega)).trans (if_neg (mt wpForeign_iff.mp hf)))

end

section
variable {h : Hw} {acc : Access} {c : Fin 3} {i : Fin 8} {v : Word}

/-- ADDR and MASK: EN stands. -/
theorem wpTaken_beside {a : Nat} (hp : plainRow a 0xffffffff = true) (hlo : 0x20170000 ≤ a) (hhi : a < 0x20180000) (ha : a ≠ DBG_C_WP_CTL c i) :
    h.wpTaken acc c i a v = h.wr a v := by
  have hk : h.plainWrite a v = h.wr a v := by rw [plainWrite_debug hp hlo hhi, masked_full]
  have hen : (h.wr a v).on (DBG_C_WP_CTL.EN c i) = h.on (DBG_C_WP_CTL.EN c i) := by
    unfold Hw.on
    rw [Hw.get_wr_other _ _ _ (show (DBG_C_WP_CTL.EN c i).adr ≠ a from Ne.symm ha)]
  rw [Hw.wpTaken, hk, hen, Bool.not_and_self, if_neg (by decide)]

theorem wpTaken_beside_reads {a : Nat} (hp : plainRow a 0xffffffff = true) (hlo : 0x20170000 ≤ a) (hhi : a < 0x20180000) (ha : a ≠ DBG_C_WP_CTL c i) :
    (h.wpTaken acc c i a v).canon.rd a = v ∧ (h.wpTaken acc c i a v).canon.reads [(DBG_C_WP_CTL.EN c i, h.get (DBG_C_WP_CTL.EN c i))] := by
  rw [wpTaken_beside hp hlo hhi ha, Hw.rd_canon, Hw.rd_wr_self, Hw.reads_cons, Hw.get_canon,
    Hw.get_wr_other _ _ _ (show (DBG_C_WP_CTL.EN c i).adr ≠ a from Ne.symm ha)]
  exact ⟨rfl, rfl, Hw.reads_nil _⟩

/-- CTL's word as it is written, without SRC. -/
def Hw.wpWord (h : Hw) (c i : Nat) (v : Word) : Hw := h.wr (DBG_C_WP_CTL c i) (masked 0x7ff (h.rd (DBG_C_WP_CTL c i)) v)

theorem wpTaken_ctl : h.wpTaken acc c i (DBG_C_WP_CTL c i) v =
    if !h.on (DBG_C_WP_CTL.EN c i) && (h.wpWord c i v).on (DBG_C_WP_CTL.EN c i) then (h.wpWord c i v).put (DBG_C_WP_CTL.SRC c i) (fromDebug acc)
    else h.wpWord c i v := by
  have hk : h.plainWrite (DBG_C_WP_CTL c i) v = h.wpWord c i v :=
    plainWrite_debug (plainRow_wpCtl c i) (by simp only [DBG_C_WP_CTL]; omega) (by simp only [DBG_C_WP_CTL]; omega) h v
  rw [Hw.wpTaken, hk]

theorem wpWord_get {f : Fld} (ha : f.adr = DBG_C_WP_CTL c i) (b : Bool) (hf : maskAt 0x7ff f.lo f.wid b = true)
    (hlo : f.lo + f.wid ≤ 32) : (h.wpWord c i v).get f = if b then f.of v else h.get f := by
  have hs : (h.wpWord c i v).get f = f.of (masked 0x7ff (h.rd (DBG_C_WP_CTL c i)) v) := by
    unfold Hw.get Hw.wpWord
    rw [ha, Hw.rd_wr_self]
  rw [hs, of_masked b hf hlo]
  cases b
  · exact congrArg (fun a => f.of (h.rd a)) ha.symm
  · rfl

theorem wpTaken_get {f : Fld} (hf : (DBG_C_WP_CTL.SRC c i).apart f = true) : (h.wpTaken acc c i (DBG_C_WP_CTL c i) v).get f = (h.wpWord c i v).get f := by
  rw [wpTaken_ctl]
  split
  · exact Hw.get_set_of_apart _ _ f _ hf
  · rfl

theorem wpTaken_en : (h.wpTaken acc c i (DBG_C_WP_CTL c i) v).get (DBG_C_WP_CTL.EN c i) = b2n (v.getLsbD 0) := by
  rw [wpTaken_get (by simp [Fld.apart, DBG_C_WP_CTL.SRC, DBG_C_WP_CTL.EN]), wpWord_get rfl true (by decide : maskAt 0x7ff 0 1 true = true) (by decide : 0 + 1 ≤ 32)]
  exact of_bit rfl v

theorem wpTaken_kind : (h.wpTaken acc c i (DBG_C_WP_CTL c i) v).get (DBG_C_WP_CTL.KIND c i) = v.toNat / 2 % 4 := by
  rw [wpTaken_get (by simp [Fld.apart, DBG_C_WP_CTL.SRC, DBG_C_WP_CTL.KIND]), wpWord_get rfl true (by decide : maskAt 0x7ff 1 2 true = true) (by decide : 1 + 2 ≤ 32)]
  exact congrArg (· % 2 ^ 2) (Nat.shiftRight_eq_div_pow v.toNat 1)

theorem wpTaken_tidEn : (h.wpTaken acc c i (DBG_C_WP_CTL c i) v).get (DBG_C_WP_CTL.TID_EN c i) = b2n (v.getLsbD 3) := by
  rw [wpTaken_get (by simp [Fld.apart, DBG_C_WP_CTL.SRC, DBG_C_WP_CTL.TID_EN]), wpWord_get rfl true (by decide : maskAt 0x7ff 3 1 true = true) (by decide : 3 + 1 ≤ 32)]
  exact of_bit rfl v

theorem wpTaken_tid : (h.wpTaken acc c i (DBG_C_WP_CTL c i) v).get (DBG_C_WP_CTL.TID c i) = v.toNat / 16 % 128 := by
  rw [wpTaken_get (by simp [Fld.apart, DBG_C_WP_CTL.SRC, DBG_C_WP_CTL.TID]), wpWord_get rfl true (by decide : maskAt 0x7ff 4 7 true = true) (by decide : 4 + 7 ≤ 32)]
  exact congrArg (· % 2 ^ 7) (Nat.shiftRight_eq_div_pow v.toNat 4)

theorem wpTaken_src : (h.wpTaken acc c i (DBG_C_WP_CTL c i) v).get (DBG_C_WP_CTL.SRC c i) =
    if h.get (DBG_C_WP_CTL.EN c i) = 0 ∧ v.getLsbD 0 = true then wpSrc acc else h.get (DBG_C_WP_CTL.SRC c i) := by
  have hen : (h.wpWord c i v).on (DBG_C_WP_CTL.EN c i) = v.getLsbD 0 :=
    on_eq_of_b2n ((wpWord_get (f := DBG_C_WP_CTL.EN c i) rfl true (by decide : maskAt 0x7ff 0 1 true = true) (by decide : 0 + 1 ≤ 32)).trans (of_bit rfl v))
  have hsrc := wpWord_get (h := h) (v := v) (f := DBG_C_WP_CTL.SRC c i) rfl false (by decide : maskAt 0x7ff 11 1 false = true) (by decide : 11 + 1 ≤ 32)
  rw [if_neg (by decide)] at hsrc
  have hwas : b2n (h.on (DBG_C_WP_CTL.EN c i)) = h.get (DBG_C_WP_CTL.EN c i) := b2n_on rfl
  rw [wpTaken_ctl, hen, ← hwas, wpSrc_eq]
  cases h.on (DBG_C_WP_CTL.EN c i) <;> cases v.getLsbD 0
  · exact hsrc
  · exact (Hw.get_set_self _ _ _ (by decide : 11 + 1 ≤ 32)).trans (b2n_mod1 _)
  · exact hsrc
  · exact hsrc

theorem wpTaken_ctl_reads : (h.wpTaken acc c i (DBG_C_WP_CTL c i) v).canon.rd (DBG_C_WP_ADDR c i) = h.rd (DBG_C_WP_ADDR c i) ∧
    (h.wpTaken acc c i (DBG_C_WP_CTL c i) v).canon.reads [(DBG_C_WP_CTL.EN c i, b2n (v.getLsbD 0)),
      (DBG_C_WP_CTL.KIND c i, v.toNat / 2 % 4), (DBG_C_WP_CTL.TID_EN c i, b2n (v.getLsbD 3)), (DBG_C_WP_CTL.TID c i, v.toNat / 16 % 128),
      (DBG_C_WP_CTL.SRC c i, if h.get (DBG_C_WP_CTL.EN c i) = 0 ∧ v.getLsbD 0 = true then wpSrc acc else h.get (DBG_C_WP_CTL.SRC c i))] := by
  have ha : DBG_C_WP_ADDR c i ≠ DBG_C_WP_CTL c i := by simp only [DBG_C_WP_ADDR, DBG_C_WP_CTL]; omega
  refine ⟨?_, Hw.reads_canon ?_⟩
  · rw [Hw.rd_canon, wpTaken_ctl]
    split
    · exact (Hw.rd_set_other _ _ _ _ ha).trans (Hw.rd_wr_other _ _ ha)
    · exact Hw.rd_wr_other _ _ ha
  · simp only [Hw.reads_cons, Hw.reads_nil, and_true]
    exact ⟨wpTaken_en, wpTaken_kind, wpTaken_tidEn, wpTaken_tid, wpTaken_src⟩

end

/-- The watchpoint exists. -/
theorem wpCount_iff (c : Fin 3) (i : Fin 8) : i.val < wpCount c ↔ c ≠ 2 ∨ i.val < 2 := by
  unfold wpCount
  fin_cases c <;> simp

section
variable {s : State} {acc : Access} {c : Fin 3} {i : Fin 8} {reg : Fin 4} {v : Word}

theorem dbgWrite_wp (h : Hw) (acc : Access) (c : Fin 3) (i : Fin 8) (reg : Fin 4) (v : Word) :
    h.dbgWrite acc (DBG_C_WP_ADDR c i + 4 * reg) v = h.wpWrite acc c i (DBG_C_WP_ADDR c i + 4 * reg) v := by
  have hc := c.isLt
  have hi := i.isLt
  have hr := reg.isLt
  have ho : DBG_C_WP_ADDR c i + 4 * reg.val - 0x20170000 = 0x140 + 0x100 * c.val + 0x10 * i.val + 4 * reg.val := by simp only [DBG_C_WP_ADDR]; omega
  have hn : (0x140 + 0x100 * c.val + 0x10 * i.val + 4 * reg.val) / 0x100 - 1 = c.val := by omega
  have hk : (0x140 + 0x100 * c.val + 0x10 * i.val + 4 * reg.val) % 0x100 = 0x40 + 0x10 * i.val + 4 * reg.val := by omega
  have hj : (0x40 + 0x10 * i.val + 4 * reg.val - 0x40) / 0x10 = i.val := by omega
  rw [Hw.dbgWrite, ho, hn, hk, if_neg (by omega), if_neg (by omega), if_pos (by simp; omega), if_pos (by simp; omega), hj]

variable (ho : s.hw.opens acc = true)
include ho

theorem becomes_wp {k : Hw} (hk : Hw.portAnswer acc (DBG_C_WP_ADDR c i + 4 * reg) (s.hw.wpWrite acc c i (DBG_C_WP_ADDR c i + 4 * reg) v) = k) :
    Becomes (.watchpointWrite acc c i reg v) s k :=
  becomes_onDebug (exec_watchpointWrite s acc c i reg v) ho (by simp only [DBG_C_WP_ADDR]; omega) (by simp only [DBG_C_WP_ADDR]; omega)
    (by rw [dbgWrite_wp, hk])

theorem becomes_wp_barred (hb : (acc.who ≠ .debug ∧ ¬ s.hw.wpOwn acc c) ∨ ¬ (c ≠ 2 ∨ i.val < 2)) :
    Becomes (.watchpointWrite acc c i reg v) s s.hw := by
  by_cases hm : acc.who = .debug ∨ s.hw.wpOwn acc c
  · have hn := hb.resolve_left (fun hn => hm.elim hn.1 hn.2)
    have hc : wpCount c ≤ i := by
      have := mt (wpCount_iff c i).mp hn
      omega
    exact becomes_wp ho (by rw [wpWrite_absent hm hc, Hw.portAnswer_ok])
  · have hd : acc.who ≠ .debug := fun hd => hm (.inl hd)
    have hown : ¬ s.hw.wpOwn acc c := fun h => hm (.inr h)
    exact becomes_wp ho (by rw [wpWrite_barred hd hown, portAnswer_other hd])

variable (hm : acc.who = .debug ∨ s.hw.wpOwn acc c) (ht : c ≠ 2 ∨ i.val < 2)
include hm ht

theorem becomes_wp_foreign (hf : s.hw.wpForeign acc c i) : Becomes (.watchpointWrite acc c i reg v) s (s.hw.set DBG_STAT.WP_REJ 1) :=
  becomes_wp ho (by rw [wpWrite_foreign hm ((wpCount_iff c i).mpr ht) hf, Hw.portAnswer_ok])

theorem becomes_wp_takes (hf : ¬ s.hw.wpForeign acc c i) {a : Nat} (ha : DBG_C_WP_ADDR c i + 4 * reg.val = a) :
    Becomes (.watchpointWrite acc c i reg v) s (s.hw.wpTaken acc c i a v) :=
  becomes_wp ho (by rw [wpWrite_takes hm ((wpCount_iff c i).mpr ht) hf, ha, Hw.portAnswer_ok])

variable (hf : ¬ s.hw.wpForeign acc c i)
include hf

/-- ADDR and MASK take the word. -/
theorem completes_wp_word (hr : reg = 0 ∨ reg = 1) : Completes (.watchpointWrite acc c i reg v) s (fun t =>
    t.rd (DBG_C_WP_ADDR c i + 4 * reg.val) = v ∧ t.reads [(DBG_C_WP_CTL.EN c i, s.hw.get (DBG_C_WP_CTL.EN c i))]) := by
  have hrow : plainRow (DBG_C_WP_ADDR c i + 4 * reg.val) 0xffffffff = true := by
    rcases hr with rfl | rfl
    · exact plainRow_wpAddr c i
    · have hmask : DBG_C_WP_ADDR c i + 4 * (1 : Fin 4).val = DBG_C_WP_MASK c i := by simp only [DBG_C_WP_ADDR, DBG_C_WP_MASK]; rw [Fin.val_one]; omega
      rw [hmask]
      exact plainRow_wpMask c i
  have hlt : reg.val < 2 := by rcases hr with rfl | rfl <;> decide
  exact (becomes_wp_takes ho hm ht hf rfl).completes (wpTaken_beside_reads hrow (by simp only [DBG_C_WP_ADDR]; omega) (by simp only [DBG_C_WP_ADDR]; omega)
    (by simp only [DBG_C_WP_ADDR, DBG_C_WP_CTL]; omega))

theorem completes_wp_ctl (hr : reg = 2) : Completes (.watchpointWrite acc c i reg v) s (fun t =>
    t.rd (DBG_C_WP_ADDR c i) = s.hw.rd (DBG_C_WP_ADDR c i) ∧ t.reads [(DBG_C_WP_CTL.EN c i, b2n (v.getLsbD 0)),
      (DBG_C_WP_CTL.KIND c i, v.toNat / 2 % 4), (DBG_C_WP_CTL.TID_EN c i, b2n (v.getLsbD 3)), (DBG_C_WP_CTL.TID c i, v.toNat / 16 % 128),
      (DBG_C_WP_CTL.SRC c i, if s.hw.get (DBG_C_WP_CTL.EN c i) = 0 ∧ v.getLsbD 0 = true then wpSrc acc else s.hw.get (DBG_C_WP_CTL.SRC c i))]) := by
  have ha : DBG_C_WP_ADDR c i + 4 * reg.val = DBG_C_WP_CTL c i := by
    have h2 : reg.val = 2 := congrArg Fin.val hr
    simp only [DBG_C_WP_ADDR, DBG_C_WP_CTL]
    omega
  exact (becomes_wp_takes ho hm ht hf ha).completes wpTaken_ctl_reads

end

end Sys2Proof.Machine

/-! The start of a self-test and the release of a core after it (spec/19_debug_and_test.md, R456 to R459). -/

namespace Sys2Proof.Machine

/-! ### Who may, and what is ready -/

/-- The access may use BIST: the debug port with BIST, or T0 (R456). -/
def Hw.bistAllowed (h : Hw) (acc : Access) : Prop := if acc.who = .debug then bitOf (h.get DBG_STAT.PERM) 2 = true else acc.tid = 0

theorem bistMay_iff (h : Hw) (acc : Access) : h.bistMay acc = true ↔ h.bistAllowed acc := by
  unfold Hw.bistMay Hw.bistAllowed fromDebug
  by_cases hd : acc.who = .debug <;> simp [hd]

/-- The targets of the tables of R457 to R459. -/
def bistKnown (n : Nat) : Prop := (1 ≤ n ∧ n ≤ 0xA) ∨ (0x10 ≤ n ∧ n ≤ 0x1B) ∨ n = 0x20

theorem bistTime_iff {n : Nat} (hn : n < 256) : (bistTime n).isNone = false ↔ bistKnown n := by
  unfold bistKnown
  revert n
  decide +kernel

/-- The target's precondition holds for who asks. -/
def Hw.bistSuits (h : Hw) (acc : Access) (n : Nat) : Prop := h.bistReady n = true ∧ (acc.who = .debug ∨ (n ≠ 0x10 ∧ n ≠ 0x11))

theorem bistMeets_iff (h : Hw) (acc : Access) (n : Nat) : h.bistMeets acc n = true ↔ h.bistSuits acc n := by
  unfold Hw.bistMeets Hw.bistSuits fromDebug
  by_cases hd : acc.who = .debug <;> simp [hd]

/-! ### BIST_CMD -/

/-- The word that asks for target `n` with the key. -/
theorem bistCmd_word {n : Nat} (hn : n < 256) :
    BIST_CMD.KEY.of (BitVec.ofNat 32 (0x42530000 + n)) = 0x4253 ∧ BIST_CMD.TARGET.of (BitVec.ofNat 32 (0x42530000 + n)) = n := by
  have hw : (BitVec.ofNat 32 (0x42530000 + n)).toNat = 0x42530000 + n := by
    rw [BitVec.toNat_ofNat]
    omega
  refine ⟨?_, ?_⟩
  · show (BitVec.ofNat 32 (0x42530000 + n)).toNat >>> 16 % 2 ^ 16 = _
    rw [hw, Nat.shiftRight_eq_div_pow]
    omega
  · show (BitVec.ofNat 32 (0x42530000 + n)).toNat >>> 0 % 2 ^ 8 = _
    rw [hw, Nat.shiftRight_zero]
    omega

theorem bistWrite_cmd (h : Hw) (acc : Access) {n : Nat} (hn : n < 256) :
    h.bistWrite acc BIST_CMD (BitVec.ofNat 32 (0x42530000 + n)) = (h.bistCmd acc n, .ok) := by
  obtain ⟨hk, ht⟩ := bistCmd_word hn
  rw [Hw.bistWrite, if_pos rfl, if_pos hk, ht]

/-- A refusal with its reason. -/
def Hw.bistRefused (h : Hw) (reason : Nat) : Hw := h.sets [(BIST_STAT.REFUSED, 1), (BIST_STAT.REASON, reason)]

/-- A run starts, or waits for the block's clock (R86). -/
def Hw.bistStarts (h : Hw) (n : Nat) : Hw :=
  Hw.sets (if h.blockOn 0x18 then h.bistPrepare n else { h with bistWait := true }) [(BIST_STAT.BUSY, 1), (BIST_STAT.TARGET, n), (BIST_STAT.REASON, 0)]

section
variable {h : Hw} {acc : Access} {n : Nat}

theorem bistCmd_perm (hm : ¬ h.bistAllowed acc) : h.bistCmd acc n = h.bistRefused 1 := by
  have hno : h.bistMay acc = false := Bool.eq_false_iff.mpr (mt (bistMay_iff h acc).mp hm)
  exact if_pos (by rw [hno]; rfl)

variable (hm : h.bistAllowed acc)
include hm

theorem bistCmd_allowed : h.bistCmd acc n = if h.on BIST_STAT.BUSY then h.bistRefuse brBusy
    else if (bistTime n).isNone then h.bistRefuse brBadTarget
    else if !h.bistMeets acc n then h.bistRefuse brPrecond else h.bistStarts n :=
  if_neg (by rw [(bistMay_iff h acc).mpr hm]; decide)

theorem bistCmd_busy (hb : h.get BIST_STAT.BUSY = 1) : h.bistCmd acc n = h.bistRefused 3 :=
  (bistCmd_allowed hm).trans (if_pos ((h.on_iff rfl).mpr hb))

variable (hb : ¬ h.get BIST_STAT.BUSY = 1)
include hb

theorem bistCmd_free : h.bistCmd acc n = if (bistTime n).isNone then h.bistRefuse brBadTarget
    else if !h.bistMeets acc n then h.bistRefuse brPrecond else h.bistStarts n :=
  (bistCmd_allowed hm).trans (if_neg (mt (h.on_iff rfl).mp hb))

variable (hn : n < 256)
include hn

theorem bistCmd_badTarget (hk : ¬ bistKnown n) : h.bistCmd acc n = h.bistRefused 4 :=
  (bistCmd_free hm hb).trans (if_pos (by simpa using mt (bistTime_iff hn).mp hk))

variable (hk : bistKnown n)
include hk

theorem bistCmd_precond (hr : ¬ h.bistSuits acc n) : h.bistCmd acc n = h.bistRefused 2 := by
  have hno : h.bistMeets acc n = false := Bool.eq_false_iff.mpr (mt (bistMeets_iff h acc n).mp hr)
  exact (bistCmd_free hm hb).trans ((if_neg (by rw [(bistTime_iff hn).mpr hk]; decide)).trans (if_pos (by rw [hno]; rfl)))

theorem bistCmd_starts (hr : h.bistSuits acc n) : h.bistCmd acc n = h.bistStarts n :=
  (bistCmd_free hm hb).trans ((if_neg (by rw [(bistTime_iff hn).mpr hk]; decide)).trans (if_neg (by rw [(bistMeets_iff h acc n).mpr hr]; decide)))

end

/-! What a start shows. -/

theorem started_reads (h : Hw) {n : Nat} (hn : n < 256) : (h.sets [(BIST_STAT.BUSY, 1), (BIST_STAT.TARGET, n), (BIST_STAT.REASON, 0)]).reads
    [(BIST_STAT.BUSY, 1), (BIST_STAT.TARGET, n), (BIST_STAT.REASON, 0)] := by
  simp only [Hw.reads_cons, Hw.reads_nil, and_true, Hw.sets_cons, Hw.sets_nil]
  refine ⟨?_, ?_, ?_⟩
  · rw [Hw.get_set_of_apart _ _ _ _ (by decide), Hw.get_set_of_apart _ _ _ _ (by decide), Hw.get_set_self _ _ _ (by decide)]
    rfl
  · rw [Hw.get_set_of_apart _ _ _ _ (by decide), Hw.get_set_self _ _ _ (by decide)]
    exact Nat.mod_eq_of_lt hn
  · rw [Hw.get_set_self _ _ _ (by decide)]
    rfl

theorem bistStarts_reads (h : Hw) {n : Nat} (hn : n < 256) :
    (h.bistStarts n).reads [(BIST_STAT.BUSY, 1), (BIST_STAT.TARGET, n), (BIST_STAT.REASON, 0)] := started_reads _ hn

/-- A core's LBIST holds it in reset with an empty I-cache. -/
theorem bistHeld_shows (h : Hw) {c : Nat} (hc : c < 3) :
    ((h.bistHeld c).coreAt c).run = .held ∧ ((h.bistHeld c).coreAt c).icache = [] ∧ bitOf (h.bistHeld c).bistHold c = true := by
  have hx : (h.bistHeld c).coreAt c = { run := .held, vbase := h.entryVbase c } := coreAt_setCoreAt_self h hc _
  refine ⟨by rw [hx], by rw [hx], ?_⟩
  show bitOf (setBit (h.setCoreAt c _).bistHold c true) c = true
  rw [bit_setBit, if_pos rfl]

theorem sets_coreAt (h : Hw) (l : List (Fld × Nat)) (j : Nat) : (h.sets l).coreAt j = h.coreAt j := foldl_keeps (fun h => h.coreAt j) l h (fun _ _ _ => set_coreAt ..)

theorem sets_bistHold (h : Hw) (l : List (Fld × Nat)) : (h.sets l).bistHold = h.bistHold := foldl_keeps Hw.bistHold l h (fun _ _ _ => Hw.set_bistHold ..)

/-- LBIST of a core: its caches are written back, and it is held. -/
theorem bistPrepare_core (h : Hw) {n : Nat} (hn : n = 1 ∨ n = 2) : h.bistPrepare n = (h.coreCaches (n - 1)).bistHeld (n - 1) := by
  unfold Hw.bistPrepare
  rcases hn with rfl | rfl
  · rfl
  · rfl

theorem bistStarts_core {h : Hw} {n : Nat} (hb : h.blockOn 0x18 = true) (hn : n = 1 ∨ n = 2) :
    ((h.bistStarts n).coreAt (n - 1)).run = .held ∧ ((h.bistStarts n).coreAt (n - 1)).icache = [] ∧ bitOf (h.bistStarts n).bistHold (n - 1) = true := by
  have hs : h.bistStarts n = Hw.sets ((h.coreCaches (n - 1)).bistHeld (n - 1)) [(BIST_STAT.BUSY, 1), (BIST_STAT.TARGET, n), (BIST_STAT.REASON, 0)] := by
    rw [Hw.bistStarts, if_pos hb, bistPrepare_core h hn]
  rw [hs, sets_coreAt, sets_bistHold]
  exact bistHeld_shows (h.coreCaches (n - 1)) (by omega)

theorem bistStarts_waits {h : Hw} (hb : ¬ h.blockOn 0x18 = true) (n : Nat) : h.bistStarts n =
    Hw.sets { h with bistWait := true } [(BIST_STAT.BUSY, 1), (BIST_STAT.TARGET, n), (BIST_STAT.REASON, 0)] := by
  rw [Hw.bistStarts, if_neg hb]

theorem waiting_same (h : Hw) (n : Nat) : SameMemory h (Hw.sets { h with bistWait := true } [(BIST_STAT.BUSY, 1), (BIST_STAT.TARGET, n), (BIST_STAT.REASON, 0)]).canon := by
  have h0 : SameBytes h { h with bistWait := true } := ⟨rfl, rfl, rfl, fun _ => rfl⟩
  have hs : SameBytes h (Hw.sets { h with bistWait := true } [(BIST_STAT.BUSY, 1), (BIST_STAT.TARGET, n), (BIST_STAT.REASON, 0)]) :=
    ((h0.trans (Hw.set_same _ BIST_STAT.BUSY 1 (by decide))).trans (Hw.set_same _ BIST_STAT.TARGET n (by decide))).trans
      (Hw.set_same _ BIST_STAT.REASON 0 (by decide))
  exact fun b => (Hw.byte_canon _ b).trans (hs.byte b)


theorem canon_bistWait (h : Hw) : h.canon.bistWait = h.bistWait := rfl

/-- A run that waits for the clock moves no core. -/
theorem waiting_keeps (h : Hw) (n : Nat) :
    (Hw.sets { h with bistWait := true } [(BIST_STAT.BUSY, 1), (BIST_STAT.TARGET, n), (BIST_STAT.REASON, 0)]).bistWait = true ∧
    ∀ c, (Hw.sets { h with bistWait := true } [(BIST_STAT.BUSY, 1), (BIST_STAT.TARGET, n), (BIST_STAT.REASON, 0)]).core c = h.core c := by
  refine ⟨foldl_keeps Hw.bistWait _ _ (fun _ _ _ => Hw.set_bistWait ..), fun c => ?_⟩
  refine (foldl_keeps (fun k => k.core c) _ _ (fun _ _ _ => Hw.set_core ..)).trans ?_
  cases c <;> rfl

section
variable {s : State} {acc : Access} {t : Byte} (ho : s.hw.opens acc = true) (hp : acc.who = .debug → bitOf (s.hw.get LCS_STAT.DBG_PERM) 2 = true)
include ho hp

theorem becomes_bistCmd : Becomes (.bistCmd acc t) s (s.hw.bistCmd acc t.toNat) :=
  becomes_onDebug_bist (exec_bistCmd s acc t) ho (by decide) hp (by rw [bistWrite_cmd _ _ t.isLt, Hw.portAnswer_ok])

theorem becomes_bistCmd_refused {j : Nat} (hj : s.hw.bistCmd acc t.toNat = s.hw.bistRefused j) :
    Becomes (.bistCmd acc t) s (s.hw.sets [(BIST_STAT.REFUSED, 1), (BIST_STAT.REASON, j)]) := by
  have hs := becomes_bistCmd (t := t) ho hp
  rwa [hj] at hs

variable (hm : s.hw.bistAllowed acc) (hb : ¬ s.hw.get BIST_STAT.BUSY = 1) (hk : bistKnown t.toNat) (hr : s.hw.bistSuits acc t.toNat)
include hm hb hk hr

theorem becomes_bistStarts : Becomes (.bistCmd acc t) s (s.hw.bistStarts t.toNat) := by
  have hs := becomes_bistCmd (t := t) ho hp
  rwa [bistCmd_starts hm hb t.isLt hk hr] at hs

theorem completes_bist_waits (hc : ¬ s.hw.blockOn 0x18 = true) : Completes (.bistCmd acc t) s (fun k =>
    k.reads [(BIST_STAT.BUSY, 1), (BIST_STAT.TARGET, t.toNat), (BIST_STAT.REASON, 0)] ∧ k.bistWait = true ∧ SameMemory s.hw k ∧
      ∀ c, k.core c = s.hw.core c) := by
  have hs := becomes_bistStarts ho hp hm hb hk hr
  rw [bistStarts_waits hc] at hs
  obtain ⟨hw, hk⟩ := waiting_keeps s.hw t.toNat
  refine hs.completes ?_
  exact ⟨Hw.reads_canon (started_reads _ t.isLt), (canon_bistWait _).trans hw, waiting_same _ _, fun c => (Hw.canon_core _ c).trans (hk c)⟩

theorem completes_bist_starts (hc : s.hw.blockOn 0x18 = true) : Completes (.bistCmd acc t) s (fun k =>
    k.reads [(BIST_STAT.BUSY, 1), (BIST_STAT.TARGET, t.toNat), (BIST_STAT.REASON, 0)] ∧
      (t.toNat = 1 ∨ t.toNat = 2 → (k.coreAt (t.toNat - 1)).run = .held ∧ (k.coreAt (t.toNat - 1)).icache = [] ∧ bitOf k.bistHold (t.toNat - 1) = true)) := by
  refine (becomes_bistStarts ho hp hm hb hk hr).completes ?_
  refine ⟨Hw.reads_canon (bistStarts_reads _ t.isLt), fun hn => ?_⟩
  rw [canon_coreAt, Hw.canon_bistHold]
  exact bistStarts_core hc hn

end

/-! ### BIST_REL -/

/-- Core `r` is held after its LBIST, and may start. -/
def Hw.bistWaits (h : Hw) (r : Nat) : Prop :=
  bitOf h.bistHold r = true ∧ h.lcsm.holds = false ∧ ¬ (h.get BIST_STAT.BUSY = 1 ∧ h.get BIST_STAT.TARGET = r + 1)

/-- Core `r` starts at BIST_PC in the state of R139. -/
def Hw.bistReleased (h : Hw) (r : Nat) : Hw :=
  Hw.setCoreAt { h with bistHold := setBit h.bistHold r false } r { run := .running, pc := h.rd BIST_PC, ssp := h.rd BIST_SSP, vbase := h.entryVbase r }

theorem bistWaits_iff (h : Hw) (r : Nat) : (bitOf h.bistHold r && !(h.bistRuns (r + 1)) && !h.lcsm.holds) = true ↔ h.bistWaits r := by
  unfold Hw.bistRuns Hw.bistWaits
  rw [Bool.and_eq_true, Bool.and_eq_true, Bool.not_eq_true', Bool.not_eq_true', ← Bool.not_eq_true (_ && _), Bool.and_eq_true, h.on_iff rfl, beq_iff_eq]
  exact ⟨fun ⟨⟨a, b⟩, c⟩ => ⟨a, c, b⟩, fun ⟨a, c, b⟩ => ⟨⟨a, b⟩, c⟩⟩

/-- The two keys name M0 and M1. -/
theorem bistRel_word (r : Fin 2) : (if BitVec.ofNat 32 (0x42530101 + r.val) = 0x42530101 then 0 else 1) = r.val ∧
    (decide (BitVec.ofNat 32 (0x42530101 + r.val) = 0x42530101) || decide (BitVec.ofNat 32 (0x42530101 + r.val) = 0x42530102)) = true := by
  revert r
  decide

theorem bistRel_key (h : Hw) (r : Fin 2) : h.bistRel (BitVec.ofNat 32 (0x42530101 + r.val)) =
    if bitOf h.bistHold r && !(h.bistRuns (r + 1)) && !h.lcsm.holds then h.bistReleased r else h := by
  obtain ⟨hc, hk⟩ := bistRel_word r
  rw [Hw.bistRel, hc, hk, Bool.true_and]
  rfl

theorem bistWrite_rel (h : Hw) (acc : Access) (v : Word) :
    h.bistWrite acc BIST_REL v = if h.bistMay acc then (h.bistRel v, .ok) else (h, .owner) := by
  rw [Hw.bistWrite, if_neg (by decide)]
  cases h.bistMay acc
  · rfl
  · exact congrArg (·, AccRes.ok) (if_pos rfl)

section
variable {s : State} {acc : Access} {r : Fin 2} (ho : s.hw.opens acc = true) (hp : acc.who = .debug → bitOf (s.hw.get LCS_STAT.DBG_PERM) 2 = true)
include ho hp

theorem becomes_bistRel_perm (hm : ¬ s.hw.bistAllowed acc) :
    Becomes (.bistRel acc r) s (if acc.who = .debug then s.hw.set DBG_STAT.FSD_FAULT 1 else s.hw) := by
  refine becomes_onDebug_bist (exec_bistRel s acc r) ho (by decide) hp ?_
  rw [bistWrite_rel, if_neg (mt (bistMay_iff _ _).mp hm), Hw.portAnswer_owner]
  rfl

variable (hm : s.hw.bistAllowed acc)
include hm

theorem becomes_bistRel : Becomes (.bistRel acc r) s (s.hw.bistRel (BitVec.ofNat 32 (0x42530101 + r.val))) :=
  becomes_onDebug_bist (exec_bistRel s acc r) ho (by decide) hp (by rw [bistWrite_rel, if_pos ((bistMay_iff _ _).mpr hm), Hw.portAnswer_ok])

theorem becomes_bistRel_idle (hw : ¬ s.hw.bistWaits r) : Becomes (.bistRel acc r) s s.hw := by
  have hb := becomes_bistRel (r := r) ho hp hm
  rwa [bistRel_key, if_neg (mt (bistWaits_iff _ _).mp hw)] at hb

theorem completes_bistRel (hw : s.hw.bistWaits r) : Completes (.bistRel acc r) s (fun k =>
    (k.coreAt r).run = .running ∧ (k.coreAt r).pc = s.hw.rd BIST_PC ∧ (k.coreAt r).ssp = s.hw.rd BIST_SSP ∧ bitOf k.bistHold r = false) := by
  have hb := becomes_bistRel (r := r) ho hp hm
  have hr : r.val < 3 := by omega
  rw [bistRel_key, if_pos ((bistWaits_iff _ _).mpr hw)] at hb
  refine hb.completes ?_
  have hx : (s.hw.bistReleased r).canon.coreAt r =
      { run := .running, pc := s.hw.rd BIST_PC, ssp := s.hw.rd BIST_SSP, vbase := s.hw.entryVbase r } := coreAt_setCoreAt_self _ hr _
  have hh : (s.hw.bistReleased r).canon.bistHold = setBit s.hw.bistHold r false := by
    show (s.hw.bistReleased r).bistHold = _
    rw [Hw.bistReleased, setCoreAt_core, Hw.setCore_bistHold]
  rw [hx, hh, bit_setBit, if_pos rfl]
  exact ⟨rfl, rfl, rfl, rfl⟩

end

/-! ### Preconditions of the targets -/

theorem off_get {h : Hw} {f : Fld} (hf : h.on f = false) : h.get f = 0 := by simpa [Hw.on] using hf

theorem ready_ports {h : Hw} (hr : h.bistReady 8 = true) : h.get (ETH_CFG.EN 0) = 0 ∧ h.get (ETH_CFG.EN 1) = 0 := by
  have hp : (!h.on (ETH_CFG.EN 0) && !h.on (ETH_CFG.EN 1)) = true := hr
  rw [Bool.and_eq_true, Bool.not_eq_true', Bool.not_eq_true'] at hp
  exact ⟨off_get hp.1, off_get hp.2⟩

theorem ready_twin {h : Hw} (hr : h.bistReady 9 = true) : h.get TWIN_STAT.STATE = 6 := of_decide_eq_true hr

theorem ready_pools {h : Hw} (hr : h.bistReady 7 = true) (p : Nat) (hp : p < 16) : h.get (PE_POOL_CFG.EN_L p) = 0 := by
  have hall : (List.range 16).all (fun p => !h.on (PE_POOL_CFG.EN_L p)) = true := hr
  have ho := List.all_eq_true.mp hall p (List.mem_range.mpr hp)
  rw [Bool.not_eq_true'] at ho
  exact off_get ho

theorem ready_island {h : Hw} (hr : h.bistReady 0xA = true) : h.get POL_TRIP_STAT.TRIPPED = 1 := by
  have hp : (h.on POL_TRIP_STAT.TRIPPED && (h.on POL_STAT.CORE_HELD || h.coreHalted 2)) = true := hr
  exact (h.on_iff rfl).mp (Bool.and_eq_true_iff.mp hp).1

theorem ready_sram {h : Hw} (hr : h.bistReady 0x10 = true) : h.m0.run = .halted ∧ h.m1.run = .halted := by
  have hp : (h.coreHalted 0 && h.coreHalted 1) = true := hr
  obtain ⟨h0, h1⟩ := Bool.and_eq_true_iff.mp hp
  exact ⟨(coreHalted_iff h 0).mp h0, (coreHalted_iff h 1).mp h1⟩

theorem ready_m0 {h : Hw} (hr : h.bistReady 1 = true) : h.m0.run = .halted ∨ h.m0.run = .held := by
  have hp : (decide (h.m0.run = .halted) || decide (h.m0.run = .held)) = true := hr
  simpa using hp

theorem ready_polSram {h : Hw} (hr : h.bistReady 0x1B = true) : h.get POL_STAT.CORE_HELD = 1 ∧ h.get POL_LOG_CFG.EN = 0 := by
  have hp : (h.on POL_STAT.CORE_HELD && !h.on POL_LOG_CFG.EN) = true := hr
  rw [Bool.and_eq_true, Bool.not_eq_true'] at hp
  exact ⟨(h.on_iff rfl).mp hp.1, off_get hp.2⟩

end Sys2Proof.Machine

/-! What memory accesses leave alone: whether the part sleeps, and the two registers that say so (spec/02_power.md, R68; spec/19_debug_and_test.md, R455). -/

namespace Sys2Proof.Machine

/-- The registers that say whether the part sleeps: PWR_SLEEP_CTL and DBG_STAT. -/
def sleepReg (a : Nat) : Prop := a = 0x2001001C ∨ a = 0x20170000

/-- Whether the part sleeps, and the words of the registers that say so. -/
def Hw.sleepView (h : Hw) : SleepSt × Word × Word := (h.pwr.sleep, h.rd 0x2001001C, h.rd 0x20170000)

theorem view_of {h k : Hw} (hp : k.pwr = h.pwr) (hr : k.regs = h.regs) : k.sleepView = h.sleepView := by
  unfold Hw.sleepView
  rw [hp, Hw.rd_of_regs hr, Hw.rd_of_regs hr]

@[simp] theorem view_wr (h : Hw) {a : Nat} (v : Word) (ha : ¬ sleepReg a) : (h.wr a v).sleepView = h.sleepView := by
  obtain ⟨hs, hd⟩ := not_or.mp ha
  unfold Hw.sleepView
  rw [Hw.rd_wr_other h v (Ne.symm hs), Hw.rd_wr_other h v (Ne.symm hd)]
  rfl

section
variable (h : Hw) {f : Fld} (hf : ¬ sleepReg f.adr)
include hf

@[simp] theorem view_set (v : Nat) : (h.set f v).sleepView = h.sleepView := view_wr h _ hf
@[simp] theorem view_up : (h.up f).sleepView = h.sleepView := view_set h hf 1
@[simp] theorem view_clr : (h.clr f).sleepView = h.sleepView := view_set h hf 0
@[simp] theorem view_put (b : Bool) : (h.put f b).sleepView = h.sleepView := view_set h hf _
@[simp] theorem view_inc : (h.inc f).sleepView = h.sleepView := view_set h hf _

@[simp] theorem view_upIf (b : Bool) : (h.upIf b f).sleepView = h.sleepView := by
  cases b
  · rfl
  · exact view_up h hf

end

theorem view_foldl {α : Type} {f : Hw → α → Hw} (l : List α) (h : Hw) (hf : ∀ h, ∀ x ∈ l, (f h x).sleepView = h.sleepView) :
    (l.foldl f h).sleepView = h.sleepView := foldl_keeps Hw.sleepView l h hf

@[simp] theorem view_ite {p : Prop} [Decidable p] (h k : Hw) : (if p then h else k).sleepView = if p then h.sleepView else k.sleepView := apply_ite ..

/-- The registers in which memory accesses show. -/
theorem memory_fields_apart : ¬ sleepReg HUB_QWAIT_CNT.COUNT.adr ∧ ¬ sleepReg MRC_ECC_CNT.CE.adr ∧ ¬ sleepReg MRC_CE_ADDR ∧ ¬ sleepReg MRC_STAT.ECC_CE.adr ∧
    ¬ sleepReg HUB_ECC_CNT.CE.adr ∧ ¬ sleepReg HUB_STAT.CE.adr ∧ ¬ sleepReg HUB_STAT.SRC.adr ∧ ¬ sleepReg DDR_ECC_CNT.CE.adr ∧ ¬ sleepReg DDR_STAT.CE.adr ∧
    ¬ sleepReg MRC_UE_ADDR ∧ ¬ sleepReg MRC_ECC_CNT.UE.adr ∧ ¬ sleepReg MRC_STAT.ECC_UE.adr ∧ ¬ sleepReg HUB_ECC_ADDR ∧ ¬ sleepReg HUB_STAT.UE.adr ∧
    ¬ sleepReg DDR_ECC_ADDR ∧ ¬ sleepReg DDR_STAT.UE.adr ∧ ¬ sleepReg TEN_DMAV_ADDR.ADDR.adr ∧ ¬ sleepReg TEN_DMAV_INFO.TID.adr ∧
    ¬ sleepReg TEN_DMAV_INFO.INIT.adr ∧ ¬ sleepReg TEN_DMAV_INFO.VALID.adr := by
  unfold sleepReg
  decide

/-! ### Lines and their owners -/

@[simp] theorem view_setDir (h : Hw) (n : Nat) (e : DirEnt) : (h.setDir n e).sleepView = h.sleepView := view_of rfl rfl
@[simp] theorem view_killResv (h : Hw) (n : Nat) : (h.killResv n).sleepView = h.sleepView := view_of rfl rfl
@[simp] theorem view_loseResv (h : Hw) (g : Agent) (n : Nat) : (h.loseResv g n).sleepView = h.sleepView := by cases g <;> exact view_of rfl rfl
@[simp] theorem view_setOv (h : Hw) (g : Agent) (l : List Host.Cell) : (h.setOv g l).sleepView = h.sleepView := by cases g <;> exact view_of rfl rfl
@[simp] theorem view_recallAll (h : Hw) (n : Nat) : (h.recallAll n).sleepView = h.sleepView := view_of rfl rfl
@[simp] theorem view_pokeMem (h : Hw) (cs : List Host.Cell) : (h.pokeMem cs).sleepView = h.sleepView := view_of rfl rfl

@[simp] theorem view_loseAll (h : Hw) (l : List Agent) (n : Nat) : (l.foldl (fun h a => h.loseResv a n) h).sleepView = h.sleepView :=
  view_foldl l h (fun k a _ => view_loseResv k a n)

@[simp] theorem view_metTransit (h : Hw) (n : Nat) : (h.metTransit n).sleepView = h.sleepView := by
  unfold Hw.metTransit
  split <;> simp [memory_fields_apart]

@[simp] theorem view_recallOwner (h : Hw) (n : Nat) : (h.recallOwner n).sleepView = h.sleepView := by
  unfold Hw.recallOwner
  dsimp only
  split <;> simp

@[simp] theorem view_claimWrite (h : Hw) (n : Nat) : (h.claimWrite n).sleepView = h.sleepView := by
  unfold Hw.claimWrite
  simp

@[simp] theorem view_own (h : Hw) (g : Agent) (n : Nat) : (h.own g n).sleepView = h.sleepView := by
  unfold Hw.own
  simp

@[simp] theorem view_performed (h : Hw) (g : Agent) (n : Nat) : (h.performed g n).sleepView = h.sleepView := by
  unfold Hw.performed
  simp

@[simp] theorem view_share (h : Hw) (g : Agent) (n : Nat) : (h.share g n).sleepView = h.sleepView := by
  unfold Hw.share
  simp

@[simp] theorem view_readThrough (h : Hw) (n : Nat) : (h.readThrough n).sleepView = h.sleepView := by
  unfold Hw.readThrough
  simp

/-! ### Check bits -/

@[simp] theorem view_corrected (h : Hw) (w : Nat) : (h.corrected w).sleepView = h.sleepView := by
  have hdel : Hw.sleepView { h with upsets := mdel w h.upsets } = h.sleepView := view_of rfl rfl
  unfold Hw.corrected
  dsimp only
  split <;> simp [memory_fields_apart, hdel]

@[simp] theorem view_uncorrected (h : Hw) (w : Nat) : (h.uncorrected w).sleepView = h.sleepView := by
  unfold Hw.uncorrected
  dsimp only
  split <;> simp [memory_fields_apart]

@[simp] theorem view_memWord (h : Hw) (w : Nat) : (h.memWord w).1.sleepView = h.sleepView := by
  unfold Hw.memWord
  split <;> simp

@[simp] theorem view_l2Word (h : Hw) (w : Nat) : (h.l2Word w).1.sleepView = h.sleepView := by
  have hdel : Hw.sleepView { h with l2ups := mdel w h.l2ups } = h.sleepView := view_of rfl rfl
  unfold Hw.l2Word Hw.l2Corrected Hw.l2Uncorrected
  split <;> simp [memory_fields_apart, hdel]

@[simp] theorem view_eccWord (h : Hw) (w : Nat) : (h.eccWord w).1.sleepView = h.sleepView := by
  unfold Hw.eccWord
  simp only [apply_ite Prod.fst, view_ite, view_l2Word, view_memWord, ite_self]

@[simp] theorem view_eccNarrow (h : Hw) (k : Nat) : (h.eccNarrow k).1.sleepView = h.sleepView := by
  unfold Hw.eccNarrow
  split <;> exact view_of rfl rfl

theorem view_eccFold {f : Hw → Nat → Hw × EccRes} (hf : ∀ h n, (f h n).1.sleepView = h.sleepView) (l : List Nat) (h : Hw) :
    (eccFold f h l).1.sleepView = h.sleepView :=
  List.foldlRecOn (motive := fun (p : Hw × EccRes) => p.1.sleepView = h.sleepView) l _ rfl (fun p (hp : p.1.sleepView = _) n _ => (hf p.1 n).trans hp)

@[simp] theorem view_merged (h : Hw) (cs : List Host.Cell) : (h.merged cs).sleepView = h.sleepView := view_eccFold view_eccWord _ h

@[simp] theorem view_eccRead (h : Hw) (a n : Nat) : (h.eccRead a n).1.sleepView = h.sleepView := by
  unfold Hw.eccRead
  split
  · exact view_eccFold view_eccNarrow _ h
  · exact view_eccFold view_eccWord _ h

/-! ### Stores -/

@[simp] theorem view_agentStore (h : Hw) (g : Agent) (a : Nat) (bs : List Byte) : (h.agentStore g a bs).sleepView = h.sleepView := by
  unfold Hw.agentStore
  dsimp only
  rw [view_foldl _ _ (fun k n _ => by simp), view_setOv, view_pokeMem, view_foldl _ _ (fun k n _ => by simp), view_merged]

@[simp] theorem view_hubCells (h : Hw) (ls : List Nat) (cs : List Host.Cell) : (h.hubCells ls cs).sleepView = h.sleepView := by
  unfold Hw.hubCells
  dsimp only
  have hv : (ls.foldl (fun h n => h.claimWrite n) (h.merged cs)).sleepView = h.sleepView :=
    (view_foldl _ _ (fun k n _ => view_claimWrite k n)).trans (view_merged h cs)
  exact (view_of (h := ls.foldl (fun h n => h.claimWrite n) (h.merged cs)) rfl rfl).trans hv

@[simp] theorem view_hubStore (h : Hw) (a : Nat) (bs : List Byte) : (h.hubStore a bs).sleepView = h.sleepView := view_hubCells ..

@[simp] theorem view_straightCells (h : Hw) (narrow : Bool) (cs : List Host.Cell) : (h.straightCells narrow cs).sleepView = h.sleepView := by
  unfold Hw.straightCells
  rw [view_pokeMem]
  split
  · exact view_eccFold view_eccNarrow _ h
  · exact view_eccFold view_memWord _ h

@[simp] theorem view_writeMem (h : Hw) (a : Nat) (bs : List Byte) : (h.writeMem a bs).sleepView = h.sleepView := by
  unfold Hw.writeMem Hw.straight
  simp

@[simp] theorem view_lineStore (h : Hw) (n : Nat) (cs : List Host.Cell) : (h.lineStore n cs).sleepView = h.sleepView := by
  unfold Hw.lineStore
  simp

/-! ### DMA -/

@[simp] theorem view_dmaViolation (h : Hw) (a t i : Nat) : (h.dmaViolation a t i).sleepView = h.sleepView := by
  unfold Hw.dmaViolation
  simp [Hw.sets, memory_fields_apart]

@[simp] theorem view_dmaRead (h : Hw) (t i a n : Nat) : (h.dmaRead t i a n).1.sleepView = h.sleepView := by
  unfold Hw.dmaRead
  have hread : ((linesOf a n).foldl (fun h l => h.readThrough l) h).sleepView = h.sleepView := view_foldl _ h (fun k l _ => view_readThrough k l)
  simp [apply_ite Prod.fst, hread]

@[simp] theorem view_dmaWrite (h : Hw) (t i a : Nat) (bs : List Byte) : (h.dmaWrite t i a bs).1.sleepView = h.sleepView := by
  unfold Hw.dmaWrite
  simp [apply_ite Prod.fst]

end Sys2Proof.Machine

/-! What the Pool Engine leaves alone as it serves requests: whether the part sleeps (spec/10_pool_engine.md, R249 to R259). -/

namespace Sys2Proof.Machine

/-- The state that a pair holds shows what the pair's does. -/
theorem view_fst {α : Type} {h k : Hw} {p : Hw × α} {x : α} (e : p = (k, x)) (hv : p.1.sleepView = h.sleepView) : k.sleepView = h.sleepView := by
  subst e
  exact hv

/-! ### Its registers -/

theorem pe_events_apart : ¬ sleepReg PE_EVT.RING_ERR.adr ∧ ¬ sleepReg PE_EVT.RING_POOL.adr ∧ ¬ sleepReg PE_EVT.QUOTA.adr ∧ ¬ sleepReg PE_QEVT.POOL.adr ∧
    ¬ sleepReg PE_QEVT.TID.adr ∧ ¬ sleepReg PE_EVT.EMPTY.adr ∧ ¬ sleepReg PE_EEVT.POOL.adr ∧ ¬ sleepReg PE_EEVT.TID.adr ∧ ¬ sleepReg PE_FAULT_INFO.LOST.adr ∧
    ¬ sleepReg PE_FAULT_INFO.CODE.adr ∧ ¬ sleepReg PE_FAULT_INFO.TID.adr ∧ ¬ sleepReg PE_FAULT_INFO.INIT.adr ∧ ¬ sleepReg PE_FAULT_INFO.OP.adr ∧
    ¬ sleepReg PE_FAULT_INFO.VALID.adr ∧ ¬ sleepReg PE_FAULT_HANDLE ∧ ¬ sleepReg (PE_LAST.CODE 0).adr ∧ ¬ sleepReg (PE_LAST.CODE 1).adr := by
  unfold sleepReg
  decide

theorem pool_fields_apart (p : Nat) : ¬ sleepReg (PE_POOL_STAT.CCOUNT p).adr ∧ ¬ sleepReg (PE_POOL_STAT.FAILED p).adr ∧ ¬ sleepReg (PE_POOL_STAT.INIT p).adr ∧
    ¬ sleepReg (PE_POOL_RCOUNT.COUNT p).adr ∧ ¬ sleepReg (PE_POOL_INUSE.COUNT p).adr ∧ ¬ sleepReg (PE_POOL_ALLOCS.COUNT p).adr ∧ ¬ sleepReg (PE_POOL_FAILS.COUNT p).adr := by
  simp only [sleepReg, PE_POOL_STAT.CCOUNT, PE_POOL_STAT.FAILED, PE_POOL_STAT.INIT, PE_POOL_STAT, PE_POOL_RCOUNT.COUNT, PE_POOL_RCOUNT, PE_POOL_INUSE.COUNT, PE_POOL_INUSE,
    PE_POOL_ALLOCS.COUNT, PE_POOL_ALLOCS, PE_POOL_FAILS.COUNT, PE_POOL_FAILS]
  omega

theorem quota_field_apart {t p : Nat} (ht : t < 128) (hp : p < 16) : ¬ sleepReg (PE_Q_USED.COUNT t p).adr := by
  simp only [sleepReg, PE_Q_USED.COUNT, PE_Q_USED]
  omega

theorem hdlPool_lt (w : Word) : hdlPool w < 16 := by
  have hw := w.isLt
  unfold hdlPool
  omega

theorem metaOwner_lt (h : Hw) (p i : Nat) : h.metaOwner p i < 128 := Nat.mod_lt _ (by decide)

/-! ### Pools, handles and the ring -/

@[simp] theorem view_setPool (h : Hw) (p : Nat) (x : Pool) : (h.setPool p x).sleepView = h.sleepView :=
  (view_set _ (pool_fields_apart p).1 _).trans (view_of rfl rfl)

@[simp] theorem view_ringError (h : Hw) (p : Nat) : (h.ringError p).sleepView = h.sleepView := by
  unfold Hw.ringError
  simp [pe_events_apart, pool_fields_apart]

@[simp] theorem view_loopSafe (h : Hw) (p : Nat) (b : Bool) : (h.loopSafe (loopPool p) b).sleepView = h.sleepView :=
  view_put h (by simp only [sleepReg, loopPool, PE_POOL_AUTH]; omega) b

@[simp] theorem view_metaOk (h : Hw) (p i : Nat) : (h.metaOk p i).1.sleepView = h.sleepView := by
  unfold Hw.metaOk
  simp [apply_ite Prod.fst]

@[simp] theorem view_metaWrite (h : Hw) (p i o : Nat) (bs : List Byte) : (h.metaWrite p i o bs).sleepView = h.sleepView := view_agentStore ..

@[simp] theorem view_fetchRing (p n : Nat) (h : Hw) : (h.fetchRing p n).sleepView = h.sleepView := by
  induction n generalizing h with
  | zero => rfl
  | succ n ih =>
    unfold Hw.fetchRing
    split
    · rfl
    · dsimp only
      split
      · simp
      · simp [ih, pool_fields_apart]

@[simp] theorem view_spillRing (p n : Nat) (h : Hw) : (h.spillRing p n).sleepView = h.sleepView := by
  induction n generalizing h with
  | zero => rfl
  | succ n ih =>
    unfold Hw.spillRing
    dsimp only
    split
    · rfl
    · simp [ih, pool_fields_apart]

/-! ### Allocation -/

@[simp] theorem view_quotaEvent (h : Hw) (p t : Nat) : (h.quotaEvent p t).sleepView = h.sleepView := by
  unfold Hw.quotaEvent
  simp [pe_events_apart]

@[simp] theorem view_noteMiss (h : Hw) (p : Nat) (rt : Bool) : (h.noteMiss p rt).sleepView = h.sleepView := by
  unfold Hw.noteMiss
  simp

@[simp] theorem view_takeHandle (h : Hw) (q : Nat) (rt : Bool) : (h.takeHandle q rt).1.sleepView = h.sleepView := by
  unfold Hw.takeHandle
  dsimp only
  split <;> simp

section
variable {t : Nat} (ht : t < 128)
include ht

theorem view_grantBuf (h : Hw) {q : Nat} (hq : q < 16) (w : Word) (sp : Bool) : (h.grantBuf q t w sp).1.sleepView = h.sleepView := by
  unfold Hw.grantBuf
  simp [apply_ite Prod.fst, quota_field_apart ht hq, pool_fields_apart]

theorem view_takeBuf (h : Hw) {q : Nat} (hq : q < 16) (rt sp : Bool) : (h.takeBuf q t rt sp).1.sleepView = h.sleepView := by
  unfold Hw.takeBuf
  dsimp only
  split
  · simp [view_grantBuf ht _ hq]
  · simp

theorem view_spillway (p : Nat) (rt : Bool) (fuel : Nat) (h : Hw) (q : Nat) : (h.spillway p t rt fuel q).1.sleepView = h.sleepView := by
  induction fuel generalizing h q with
  | zero =>
    unfold Hw.spillway
    simp [pe_events_apart, pool_fields_apart]
  | succ fuel ih =>
    have hdry : ∀ (k : Hw) (q : Nat), (k.spillway p t rt 0 q).1.sleepView = k.sleepView := fun k q => by
      unfold Hw.spillway
      simp [pe_events_apart, pool_fields_apart]
    have hn : h.get (PE_POOL_CFG.SPILL_L q) < 16 := Hw.get_lt h _
    have htake := view_takeBuf ht h hn rt true
    unfold Hw.spillway
    dsimp only
    split
    · exact hdry h q
    split
    · simp [ih]
    split
    · simp [pool_fields_apart]
    split
    · rfl
    split
    next e => exact view_fst e htake
    next e => exact (ih _ _).trans (view_fst e htake)

theorem view_alloc (h : Hw) {p : Nat} (hp : p < 16) (rt : Bool) : (h.alloc p t rt).1.sleepView = h.sleepView := by
  have htake := view_takeBuf ht h hp rt false
  have hspill := fun k : Hw => view_spillway ht p rt 3 k p
  have hheld := fun k : Hw => view_spillway ht p rt 0 k p
  unfold Hw.alloc
  dsimp only
  split
  · simp [pool_fields_apart]
  split
  · simp [pool_fields_apart]
  split
  · simp [pool_fields_apart]
  split
  · rfl
  split
  · simp [apply_ite Prod.fst, hheld]
  split
  · simp [hspill]
  split
  next e => exact view_fst e htake
  next e => simp [apply_ite Prod.fst, hspill, pool_fields_apart, view_fst e htake]

end

/-! ### Operations on a handle -/

@[simp] theorem view_checkHandle (h : Hw) (t : Nat) (w : Word) (win : Option Nat) : (h.checkHandle t w win).1.sleepView = h.sleepView := by
  unfold Hw.checkHandle
  simp [apply_ite Prod.fst]

@[simp] theorem view_poolFault (h : Hw) (code t init op : Nat) (w : Word) : (h.poolFault code t init op w).sleepView = h.sleepView := by
  unfold Hw.poolFault
  simp [Hw.sets, pe_events_apart]

@[simp] theorem view_releaseBuf (h : Hw) (w : Word) : (h.releaseBuf w).sleepView = h.sleepView := by
  unfold Hw.releaseBuf
  simp [quota_field_apart (metaOwner_lt _ _ _) (hdlPool_lt w), pool_fields_apart]

@[simp] theorem view_freeBuf (h : Hw) (t init : Nat) (w : Word) (win : Option Nat) : (h.freeBuf t init w win).1.sleepView = h.sleepView := by
  unfold Hw.freeBuf
  simp [apply_ite Prod.fst]

@[simp] theorem view_refBuf (h : Hw) (t init : Nat) (w : Word) (win : Option Nat) : (h.refBuf t init w win).1.sleepView = h.sleepView := by
  unfold Hw.refBuf
  simp [apply_ite Prod.fst]

theorem view_giveBuf (h : Hw) (t init : Nat) {u : Nat} (hu : u < 128) (w : Word) (win : Option Nat) : (h.giveBuf t init u w win).1.sleepView = h.sleepView := by
  unfold Hw.giveBuf
  simp [apply_ite Prod.fst, quota_field_apart hu (hdlPool_lt w), quota_field_apart (metaOwner_lt _ _ _) (hdlPool_lt w)]

@[simp] theorem view_handleAddr (h : Hw) (t init op : Nat) (w : Word) : (h.handleAddr t init op w).1.sleepView = h.sleepView := by
  unfold Hw.handleAddr
  simp [apply_ite Prod.fst]

/-! ### Requests -/

@[simp] theorem view_peLast (h : Hw) (a : Access) (code : Nat) : (h.peLast a code).sleepView = h.sleepView := by
  unfold Hw.peLast
  split <;> simp [pe_events_apart]

@[simp] theorem view_peOp (h : Hw) (a : Access) (p o : Nat) (w : Word) : (h.peOp a p o w).sleepView = h.sleepView := by
  unfold Hw.peOp
  dsimp only
  split
  · simp
  split
  · simp
  split
  · next ho =>
    have hu : (o - 0x400) / 4 < 128 := by
      simp only [Bool.and_eq_true, decide_eq_true_eq] at ho
      omega
    simp [view_giveBuf _ _ _ hu]
  · rfl

@[simp] theorem view_peDo (h : Hw) (p : Nat) (r : PeReq) : (h.peDo p r).sleepView = h.sleepView := by
  unfold Hw.peDo
  split <;> simp

@[simp] theorem view_peAnswer (h : Hw) (r : PeReq) (w : Word) : (h.peAnswer r w).sleepView = h.sleepView := by
  unfold Hw.peAnswer
  split <;> exact view_of rfl rfl

theorem view_serveHeld {p : Nat} (hp : p < 16) (n : Nat) (h : Hw) : (h.serveHeld p n).sleepView = h.sleepView := by
  induction n generalizing h with
  | zero => rfl
  | succ n ih =>
    unfold Hw.serveHeld
    dsimp only
    split
    · rfl
    · next r rest _ =>
      have halloc := view_alloc r.acc.tid.isLt h hp false
      split
      · rfl
      split
      · split
        · rfl
        · split
          next e => simp [ih, view_fst e halloc]
          next e => exact view_fst e halloc
      split
      · rfl
      · simp [ih]

@[simp] theorem view_serveAll (h : Hw) : h.serveAll.sleepView = h.sleepView :=
  view_foldl _ h (fun k _ hp => view_serveHeld (List.mem_range.mp hp) _ k)

@[simp] theorem view_peHold (h : Hw) (p : Nat) (r : PeReq) : (h.peHold p r).sleepView = h.sleepView := view_setPool ..

@[simp] theorem view_portFree (h : Hw) (t init : Nat) (w : Word) : (h.portFree t init w).sleepView = h.sleepView := by
  unfold Hw.portFree
  simp

end Sys2Proof.Machine

/-! The end of an emulated SLEEP: what resumes leaves PWR_SLEEP_CTL and DBG_STAT alone (spec/19_debug_and_test.md, R455). -/

namespace Sys2Proof.Machine

/-! ### Timers, CAN and I2C -/

theorem tmr_fields_apart (n : Nat) : ¬ sleepReg (TMR_GT_COUNT.COUNT n).adr ∧ ¬ sleepReg (TMR_GT_SLEEP.WRAPS n).adr ∧ ¬ sleepReg (TMR_GT_RLD_ACT.VALUE n).adr ∧
    ¬ sleepReg (TMR_PT_COUNT.COUNT n).adr ∧ ¬ sleepReg (TMR_PT_STAT.DIR n).adr ∧ ¬ sleepReg (TMR_PT_STAT.WRAPS n).adr ∧ ¬ sleepReg (TMR_PT_STAT.LOADED n).adr := by
  simp only [sleepReg, TMR_GT_COUNT.COUNT, TMR_GT_COUNT, TMR_GT_SLEEP.WRAPS, TMR_GT_SLEEP, TMR_GT_RLD_ACT.VALUE, TMR_GT_RLD_ACT, TMR_PT_COUNT.COUNT, TMR_PT_COUNT,
    TMR_PT_STAT.DIR, TMR_PT_STAT.WRAPS, TMR_PT_STAT.LOADED, TMR_PT_STAT]
  omega

theorem tmrRun_apart (t : Nat) : ¬ sleepReg (tmrRun t).adr := by
  unfold tmrRun
  split
  · simp only [sleepReg, TMR_GT_CTL.RUN, TMR_GT_CTL]
    omega
  · simp only [sleepReg, TMR_PT_CTL.RUN, TMR_PT_CTL]
    omega

theorem missed_apart : ¬ sleepReg TMR_MISSED.TIMERS.adr := by
  unfold sleepReg
  decide

theorem loaded_apart (n : Nat) : ¬ sleepReg (TMR_PT_STAT.LOADED n).adr := by simp [tmr_fields_apart]

@[simp] theorem view_ptLoad (h : Hw) (n : Nat) : (h.ptLoad n).sleepView = h.sleepView := by
  unfold Hw.ptLoad
  dsimp only
  rw [view_upIf _ (loaded_apart n)]
  refine view_foldl _ _ (fun k e he => view_wr k _ ?_)
  simp only [List.mem_cons, List.not_mem_nil, or_false] at he
  rcases he with rfl | rfl | rfl | rfl | rfl | rfl | rfl <;>
    simp only [sleepReg, TMR_PT_PERIOD_ACT, TMR_PT_DUTY_ACT, TMR_PT_DT_ACT, TMR_PT_EVCMP_ACT] <;> omega

@[simp] theorem view_ptJump (h : Hw) (n t : Nat) : (h.ptJump n t).1.sleepView = h.sleepView := by
  unfold Hw.ptJump
  simp [apply_ite Prod.fst, tmr_fields_apart]

@[simp] theorem view_setPhase (h : Hw) (t p : Nat) : (h.setPhase t p).sleepView = h.sleepView := view_of rfl rfl

@[simp] theorem view_ptDrive (h : Hw) (n r e : Nat) : (h.ptDrive n r e).sleepView = h.sleepView := view_of rfl rfl

@[simp] theorem view_tmrCatchup (h : Hw) (e t : Nat) : (h.tmrCatchup e t).sleepView = h.sleepView := by
  unfold Hw.tmrCatchup
  by_cases ht : t < 16
  · simp [ht, tmr_fields_apart, tmrRun_apart, missed_apart]
  · simp [ht, tmr_fields_apart, missed_apart]

@[simp] theorem view_tmrWake (h : Hw) (lsx irc : Nat) : (h.tmrWake lsx irc).sleepView = h.sleepView := view_foldl _ h (fun k t _ => view_tmrCatchup k _ t)

theorem can_fields_apart (n : Nat) : ¬ sleepReg (CAN_RXF.LEVEL n).adr ∧ ¬ sleepReg (CAN_STAT.RXNE n).adr ∧ ¬ sleepReg (I2C_STAT.BUS_CUT n).adr := by
  simp only [sleepReg, CAN_RXF.LEVEL, CAN_RXF, CAN_STAT.RXNE, CAN_STAT, I2C_STAT.BUS_CUT, I2C_STAT]
  omega

@[simp] theorem view_canKick (h : Hw) (n : Nat) : (h.canKick n).sleepView = h.sleepView := by
  have hset : ∀ x, (h.setCan n x).sleepView = h.sleepView := fun x => by
    obtain ⟨hl, hr, _⟩ := can_fields_apart n
    exact (view_set _ hr _).trans ((view_set _ hl _).trans (view_of rfl rfl))
  unfold Hw.canKick
  simp [hset]

@[simp] theorem view_i2cWake (h : Hw) (n : Nat) : (h.i2cWake n).sleepView = h.sleepView :=
  (view_upIf _ (can_fields_apart n).2.2 _).trans (view_of rfl rfl)

@[simp] theorem view_serialWake (h : Hw) (w : Nat) : (h.serialWake w).sleepView = h.sleepView := by
  unfold Hw.serialWake
  split
  · simp
  · exact view_foldl _ h (fun k n _ => view_i2cWake k n)
  · rfl

/-! ### The twin link -/

theorem twin_fields_apart : ¬ sleepReg TWIN_MSG_STAT.TXLVL.adr ∧ ¬ sleepReg TWIN_MSG_STAT.RXLVL.adr ∧ ¬ sleepReg TWIN_MSG_STAT.MSG_DROP.adr ∧
    ¬ sleepReg TWIN_STAT.LINK_UP.adr ∧ ¬ sleepReg TWIN_NEG_RESULT.DONE.adr ∧ ¬ sleepReg TWIN_STAT.PEER_NEW.adr := by
  unfold sleepReg
  decide

theorem torn_field_apart {w : Nat} (hw : w < 16) : ¬ sleepReg (TWIN_MW_STAT.TORN w).adr := by
  simp only [sleepReg, TWIN_MW_STAT.TORN, TWIN_MW_STAT]
  omega

@[simp] theorem view_setTwin (h : Hw) (x : Twin) : (h.setTwin x).sleepView = h.sleepView := view_of rfl rfl

@[simp] theorem view_twinSend (h : Hw) (ty : Nat) (bs : List Byte) : (h.twinSend ty bs).sleepView = h.sleepView := view_setTwin ..

@[simp] theorem view_setMir (h : Hw) (w : Nat) (m : Option TwinMir) : (h.setMir w m).sleepView = h.sleepView := view_setTwin ..

@[simp] theorem view_drawBytes (h : Hw) (n : Nat) : (h.drawBytes n).1.sleepView = h.sleepView := view_of rfl rfl

@[simp] theorem view_mirSpoil (h : Hw) (m : TwinMir) : (h.mirSpoil m).sleepView = h.sleepView := by
  unfold Hw.mirSpoil
  simp

theorem view_mirTorn (h : Hw) {w : Nat} (hw : w < 16) (m : TwinMir) (last : Bool) : (h.mirTorn w m last).sleepView = h.sleepView := by
  unfold Hw.mirTorn
  simp [torn_field_apart hw]

@[simp] theorem view_mirEnd (h : Hw) : h.mirEnd.sleepView = h.sleepView := by
  refine view_foldl _ h (fun k w hw => ?_)
  split
  · simp [view_mirTorn _ (List.mem_range.mp hw)]
  · rfl

@[simp] theorem view_msgDrop (h : Hw) : h.msgDrop.sleepView = h.sleepView := by
  unfold Hw.msgDrop
  split <;> simp [twin_fields_apart]

@[simp] theorem view_twinWake (h : Hw) : h.twinWake.sleepView = h.sleepView := by
  unfold Hw.twinWake Hw.trainStart Hw.linkDown
  simp [Hw.sets, twin_fields_apart]

/-! ### Messages that waited for the PE -/

@[simp] theorem view_setMsgs (h : Hw) (tx rx : List Word) : (h.setMsgs tx rx).sleepView = h.sleepView := by
  unfold Hw.setMsgs
  simp [Hw.sets, twin_fields_apart]

@[simp] theorem view_sendMessage (no total : Nat) (bs : List Byte) (fuel : Nat) (h : Hw) (o : Nat) : (h.sendMessage no total bs fuel o).sleepView = h.sleepView := by
  induction fuel generalizing h o with
  | zero => rfl
  | succ fuel ih =>
    unfold Hw.sendMessage
    simp [ih]

@[simp] theorem view_sendBuffer (h : Hw) (w : Word) : (h.sendBuffer w).sleepView = h.sleepView := by
  have hread := view_dmaRead h h.msgOwner iniTwin (h.bufAddr w) (h.bufLen w)
  unfold Hw.sendBuffer
  dsimp only
  rw [view_portFree]
  split
  · rfl
  split
  next e => simp [view_fst e hread]
  next e => exact view_fst e hread

@[simp] theorem view_sendQueued (fuel : Nat) (h : Hw) : (h.sendQueued fuel).sleepView = h.sleepView := by
  induction fuel generalizing h with
  | zero => rfl
  | succ fuel ih =>
    unfold Hw.sendQueued
    split
    · rfl
    · simp [ih]

@[simp] theorem view_msgChecked (h : Hw) (w : Word) : (h.msgChecked w).sleepView = h.sleepView := by
  have haddr := view_handleAddr h h.msgOwner iniTwin 4 w
  unfold Hw.msgChecked
  split
  next e => simp [view_fst e haddr]
  next e => simp [view_fst e haddr]

@[simp] theorem view_msgRun (h : Hw) : h.msgRun.sleepView = h.sleepView := by
  have hall : ∀ k l, (List.foldl Hw.msgChecked k l).sleepView = k.sleepView := fun k l => view_foldl l k (fun k w _ => view_msgChecked k w)
  unfold Hw.msgRun Hw.when
  simp [hall]

/-! ### The Lane Array -/

theorem lac_fields_apart (n : Nat) : ¬ sleepReg (LAC_LC_STAT.RUN n).adr ∧ ¬ sleepReg (LAC_Q_STAT.DEPTH n).adr ∧ ¬ sleepReg (LAC_Q_STAT.RUNNING n).adr ∧
    ¬ sleepReg (LAC_Q_STAT.ERR n).adr ∧ ¬ sleepReg (LAC_Q_STAT.ERRCODE n).adr ∧ ¬ sleepReg (LAC_Q_STAT.LAST_STATUS n).adr ∧ ¬ sleepReg (LAC_Q_STAT.LAST_CAUSE n).adr ∧
    ¬ sleepReg (LAC_Q_COMPLETED.COUNT n).adr ∧ ¬ sleepReg (LAC_Q_STAT.HALTED n).adr ∧ ¬ sleepReg (LAC_Q_STAT.IRQ_PEND n).adr := by
  simp only [sleepReg, LAC_LC_STAT.RUN, LAC_LC_STAT, LAC_Q_STAT.DEPTH, LAC_Q_STAT.RUNNING, LAC_Q_STAT.ERR, LAC_Q_STAT.ERRCODE, LAC_Q_STAT.LAST_STATUS,
    LAC_Q_STAT.LAST_CAUSE, LAC_Q_COMPLETED.COUNT, LAC_Q_COMPLETED, LAC_Q_STAT.HALTED, LAC_Q_STAT.IRQ_PEND, LAC_Q_STAT]
  omega

@[simp] theorem view_setGrp (h : Hw) (g : Nat) (x : LaneGrp) : (h.setGrp g x).sleepView = h.sleepView := view_of rfl rfl

@[simp] theorem view_setLq (h : Hw) (q : Nat) (x : LaneQ) : (h.setLq q x).sleepView = h.sleepView := by
  obtain ⟨_, hd, hr, _⟩ := lac_fields_apart q
  exact (view_set _ hr _).trans ((view_set _ hd _).trans (view_of rfl rfl))

@[simp] theorem view_laneSees (h : Hw) (g : Nat) (cs : List Host.Cell) : (h.laneSees g cs).sleepView = h.sleepView := by
  unfold Hw.laneSees
  split
  · rfl
  · exact view_of rfl rfl

@[simp] theorem view_l1Flush (h : Hw) (g : Nat) : (h.l1Flush g).sleepView = h.sleepView := by
  refine view_foldl _ h (fun k l _ => ?_)
  unfold Hw.l1Clean
  simp

@[simp] theorem view_freeGrp (h : Hw) (g : Nat) : (h.freeGrp g).sleepView = h.sleepView :=
  (view_set _ (lac_fields_apart _).1 _).trans (view_setGrp h g _)

@[simp] theorem view_postDone (h : Hw) (q tid : Nat) (record : Option Nat) (tag : List Byte) (irq : Bool) (status cause : Nat) (cycles : Word) :
    (h.postDone q tid record tag irq status cause cycles).sleepView = h.sleepView := by
  unfold Hw.postDone
  simp only [Hw.sets, List.foldl_cons, List.foldl_nil]
  rw [view_upIf _ (by simp [lac_fields_apart]), view_upIf _ (by simp [lac_fields_apart]), view_inc _ (by simp [lac_fields_apart]),
    view_set _ (by simp [lac_fields_apart]), view_set _ (by simp [lac_fields_apart])]
  split
  · rfl
  · next a =>
    have hwrite := view_dmaWrite h tid iniLane a (recordBytes tag status cause cycles)
    split
    next e => exact view_fst e hwrite
    next e => simp [Hw.lqErr, lac_fields_apart, view_fst e hwrite]

@[simp] theorem view_complete (h : Hw) (q status cause : Nat) : (h.complete q status cause).sleepView = h.sleepView := by
  have hdrawn : ∀ k : Hw, k.drawn.sleepView = k.sleepView := fun k => view_of rfl rfl
  unfold Hw.complete
  split
  · rfl
  · dsimp only
    rw [view_postDone, view_setLq, hdrawn]
    exact view_foldl _ h (fun k g _ => by simp)

@[simp] theorem view_laneWake (h : Hw) : h.laneWake.sleepView = h.sleepView := by
  unfold Hw.laneWake
  split
  · refine view_foldl _ h (fun k q _ => ?_)
    split <;> simp
  · rfl

/-! ### The wake -/

/-- RUN, and the fields that say so. -/
def Hw.awake (h : Hw) : Hw := { h with pwr := { h.pwr with sleep := .run, waking := false } }

theorem wakeDone_view (h : Hw) (lsx irc : Nat) :
    (h.wakeDone lsx irc).sleepView = (h.awake.sets [(PWR_SLEEP_CTL.MODE, 0), (DDR_STAT.SELF_REFRESH, 0), (DBG_STAT.EMUL, 0)]).sleepView := by
  unfold Hw.wakeDone
  dsimp only
  rw [view_laneWake, view_msgRun, view_serveAll, view_twinWake, view_serialWake, view_serialWake, view_tmrWake]
  rfl

/-- A state with the view of another reads the same MODE and EMUL. -/
theorem view_parts {h k : Hw} (hv : k.sleepView = h.sleepView) :
    k.pwr.sleep = h.pwr.sleep ∧ k.get PWR_SLEEP_CTL.MODE = h.get PWR_SLEEP_CTL.MODE ∧ k.get DBG_STAT.EMUL = h.get DBG_STAT.EMUL := by
  obtain ⟨hs, hrest⟩ := Prod.mk.inj hv
  obtain ⟨hm, he⟩ := Prod.mk.inj hrest
  exact ⟨hs, congrArg PWR_SLEEP_CTL.MODE.of hm, congrArg DBG_STAT.EMUL.of he⟩

theorem awake_sleep (h : Hw) (l : List (Fld × Nat)) : (h.awake.sets l).pwr.sleep = .run :=
  congrArg Pwr.sleep (foldl_keeps Hw.pwr l h.awake (fun k p _ => Hw.set_pwr k p.1 p.2))

theorem awake_parts (h : Hw) : (h.awake.sets [(PWR_SLEEP_CTL.MODE, 0), (DDR_STAT.SELF_REFRESH, 0), (DBG_STAT.EMUL, 0)]).get PWR_SLEEP_CTL.MODE = 0 ∧
    (h.awake.sets [(PWR_SLEEP_CTL.MODE, 0), (DDR_STAT.SELF_REFRESH, 0), (DBG_STAT.EMUL, 0)]).get DBG_STAT.EMUL = 0 := by
  simp only [Hw.sets_cons, Hw.sets_nil]
  refine ⟨?_, ?_⟩
  · rw [Hw.get_set_of_apart _ _ _ _ (by decide), Hw.get_set_of_apart _ _ _ _ (by decide), Hw.get_set_self _ _ _ (by decide)]
    rfl
  · rw [Hw.get_set_self _ _ _ (by decide)]
    rfl

/-- The end of an emulated SLEEP (R455). -/
theorem completes_debugWake {s : State} {acc : Access} (ho : s.hw.opens acc = true) (hw : acc.who = .debug) (he : s.hw.pwr.sleep = .sleepEmulated) :
    Completes (.debugWake acc) s (fun t => t.pwr.sleep = .run ∧ t.reads [(DBG_STAT.EMUL, 0), (PWR_SLEEP_CTL.MODE, 0)]) := by
  have hb := becomes_debugWake ho hw
  rw [Hw.emulatedWake, if_pos he] at hb
  obtain ⟨hs, hm, hemul⟩ := view_parts (wakeDone_view s.hw ((s.hw.clk.tb - s.hw.clk.tbEntry).toNat * 64 / 1953125) 0)
  obtain ⟨hm0, he0⟩ := awake_parts s.hw
  refine hb.completes ?_
  refine ⟨?_, Hw.reads_canon ?_⟩
  · rw [Hw.canon_pwr]
    exact hs.trans (awake_sleep s.hw _)
  · simp only [Hw.reads_cons, Hw.reads_nil, and_true]
    exact ⟨hemul.trans he0, hm.trans hm0⟩

end Sys2Proof.Machine

/-! What a logic self-test shows and leaves behind as it ends (spec/19_debug_and_test.md, R456, R457). -/

namespace Sys2Proof.Machine

/-! ### The end of a run -/

/-- BIST_STAT of `t` says that the run of `h` has ended, with this outcome. -/
def Hw.bistEnded (h t : Hw) (pass : Bool) : Prop :=
  t.reads [(BIST_STAT.BUSY, 0), (BIST_STAT.DONE, 1), (BIST_STAT.PASS, b2n pass), (BIST_STAT.FAIL, if pass then h.get BIST_STAT.FAIL else 1)]

theorem bistEnd_rd (k : Hw) (n : Nat) (fail : Bool) {a : Nat} (hs : a ≠ BIST_STAT) (ht : a ≠ BIST_TIME) : (k.bistEnd n fail).rd a = k.rd a := by
  have hset : ∀ (j : Hw) (f : Fld) (v : Nat), f.adr = BIST_STAT ∨ f.adr = BIST_TIME → (j.set f v).rd a = j.rd a := fun j f v hf =>
    Hw.rd_wr_other j _ (by rcases hf with hf | hf <;> rw [hf] <;> assumption)
  have hall : ∀ j : Hw, (j.sets [(BIST_STAT.BUSY, 0), (BIST_STAT.DONE, 1), (BIST_STAT.PASS, b2n (!fail)), (BIST_TIME.US, (bistTime n).getD 0)]).rd a = j.rd a := fun j => by
    simp only [Hw.sets_cons, Hw.sets_nil]
    rw [hset _ _ _ (.inr rfl), hset _ _ _ (.inl rfl), hset _ _ _ (.inl rfl), hset _ _ _ (.inl rfl)]
  unfold Hw.bistEnd Hw.upIf
  split
  · exact (hset _ _ _ (.inl rfl)).trans (hall k)
  · exact hall k

theorem bistEnd_ended {h k : Hw} (hk : k.get BIST_STAT.FAIL = h.get BIST_STAT.FAIL) (n : Nat) (fail : Bool) : h.bistEnded (k.bistEnd n fail) (!fail) := by
  unfold Hw.bistEnded Hw.bistEnd Hw.upIf
  simp only [Hw.reads_cons, Hw.reads_nil, and_true, Hw.sets_cons, Hw.sets_nil]
  cases fail
  · refine ⟨?_, ?_, ?_, ?_⟩
    · rw [if_neg (by decide), Hw.get_set_of_apart _ _ _ _ (by decide), Hw.get_set_of_apart _ _ _ _ (by decide), Hw.get_set_of_apart _ _ _ _ (by decide),
        Hw.get_set_self _ _ _ (by decide)]
      rfl
    · rw [if_neg (by decide), Hw.get_set_of_apart _ _ _ _ (by decide), Hw.get_set_of_apart _ _ _ _ (by decide), Hw.get_set_self _ _ _ (by decide)]
      rfl
    · rw [if_neg (by decide), Hw.get_set_of_apart _ _ _ _ (by decide), Hw.get_set_self _ _ _ (by decide)]
      rfl
    · rw [if_neg (by decide), Hw.get_set_of_apart _ _ _ _ (by decide), Hw.get_set_of_apart _ _ _ _ (by decide), Hw.get_set_of_apart _ _ _ _ (by decide),
        Hw.get_set_of_apart _ _ _ _ (by decide), hk]
      rfl
  · refine ⟨?_, ?_, ?_, ?_⟩
    · rw [if_pos rfl, Hw.up, Hw.get_set_of_apart _ _ _ _ (by decide), Hw.get_set_of_apart _ _ _ _ (by decide), Hw.get_set_of_apart _ _ _ _ (by decide),
        Hw.get_set_of_apart _ _ _ _ (by decide), Hw.get_set_self _ _ _ (by decide)]
      rfl
    · rw [if_pos rfl, Hw.up, Hw.get_set_of_apart _ _ _ _ (by decide), Hw.get_set_of_apart _ _ _ _ (by decide), Hw.get_set_of_apart _ _ _ _ (by decide),
        Hw.get_set_self _ _ _ (by decide)]
      rfl
    · rw [if_pos rfl, Hw.up, Hw.get_set_of_apart _ _ _ _ (by decide), Hw.get_set_of_apart _ _ _ _ (by decide), Hw.get_set_self _ _ _ (by decide)]
      rfl
    · rw [if_pos rfl, Hw.up, Hw.get_set_self _ _ _ (by decide)]
      rfl

/-! ### Memory through a run -/

/-- All that reads of memory look at, but for the register that says where LPDDR4 ends. -/
def Hw.memView (h : Hw) : List Host.Cell × List Host.Cell × List Host.Cell × List Host.Cell × List Host.Cell × List Host.Cell × Xspi :=
  (h.mem, h.nvm, h.dc0, h.dc1, h.pec, h.l2, h.xspi)

theorem region_low (h k : Hw) {a : Nat} (ha : a < 0x80000000) : k.region a = h.region a := by
  simp only [Hw.region, ha, if_true]

theorem region_high (h : Hw) {a : Nat} (ha : ¬ a < 0x80000000) : h.region a = if a < h.ddrTop then .ddr else .unmapped := by
  unfold Hw.region
  rw [if_neg, if_neg, if_neg, if_neg, if_neg, if_neg, if_neg, if_neg, if_neg, if_neg, if_neg, if_neg, if_neg, if_neg, if_neg, if_neg, if_neg] <;> omega

/-- From 0x80000000 on a read looks at the caches and at the memory behind them, whether LPDDR4 lies there or nothing. -/
theorem byte_high (h : Hw) {a : Nat} (ha : ¬ a < 0x80000000) : h.byte a = (h.dirtyAt a).getD (h.backing a) := by
  rw [Hw.byte_eq, region_high h ha]
  split
  · next hr =>
    split at hr <;> cases hr
  · next hr =>
    split at hr <;> cases hr
  · rfl

theorem sameMemory_of_memView {h k : Hw} (e : k.memView = h.memView) : SameMemory h k := by
  simp only [Hw.memView, Prod.mk.injEq] at e
  obtain ⟨hmem, hnvm, h0, h1, hpe, h2, hx⟩ := e
  have hd : ∀ b, (k.dirtyAt b).getD (k.backing b) = (h.dirtyAt b).getD (h.backing b) := fun b => by
    unfold Hw.dirtyAt Hw.backing
    rw [hmem, h0, h1, hpe, h2]
  intro b
  by_cases hb : b < 0x80000000
  · rw [Hw.byte_eq, Hw.byte_eq, region_low h k hb, hx, hnvm, hd b]
  · rw [byte_high k hb, byte_high h hb, hd b]

@[simp] theorem memView_set (h : Hw) (f : Fld) (v : Nat) : (h.set f v).memView = h.memView := rfl
@[simp] theorem memView_sets (h : Hw) (l : List (Fld × Nat)) : (h.sets l).memView = h.memView := foldl_keeps Hw.memView l h (fun k p _ => memView_set k p.1 p.2)
theorem memView_upIf (h : Hw) (b : Bool) (f : Fld) : (h.upIf b f).memView = h.memView := by cases b <;> rfl
@[simp] theorem memView_bistEnd (k : Hw) (n : Nat) (fail : Bool) : (k.bistEnd n fail).memView = k.memView := (memView_upIf _ _ _).trans (memView_sets _ _)

/-! ### Registers of a block at their reset words -/

/-- A list that holds no entry for `a`, or reads as something else than the reset word there. -/
def Hw.settled (h : Hw) (a : Nat) : Prop := h.rd a ≠ resetWord a ∨ ∀ e ∈ h.regs, e.1 ≠ a

theorem mem_mput {m : SMap Word} {k : Nat} {v : Word} {e : Nat × Word} (he : e ∈ mput resetWord m k v) : e.1 = k ∧ v ≠ resetWord k ∨ e ∈ m := by
  unfold mput at he
  split at he
  · exact .inr (List.mem_of_mem_filter he)
  · next hv => exact (mem_mins he).imp (fun hx => ⟨congrArg Prod.fst hx, hv⟩) id

theorem settled_wr_self (h : Hw) (a : Nat) (v : Word) : (h.wr a v).settled a := by
  by_cases hv : v = resetWord a
  · refine .inr (fun e he ha => ?_)
    have hdel : e ∈ mdel a h.regs := by
      have hm : mput resetWord h.regs a v = mdel a h.regs := if_pos hv
      rw [← hm]
      exact he
    simpa [ha] using (List.mem_filter.mp hdel).2
  · refine .inl ?_
    rw [Hw.rd_wr_self]
    exact hv

theorem settled_wr_other {h : Hw} {a b : Nat} (hs : h.settled a) (v : Word) (hb : b ≠ a) : (h.wr b v).settled a := by
  rcases hs with hr | hn
  · refine .inl ?_
    rw [Hw.rd_wr_other h v (Ne.symm hb)]
    exact hr
  · refine .inr (fun e he ha => ?_)
    rcases mem_mput he with ⟨hk, _⟩ | hm
    · exact hb (hk.symm.trans ha)
    · exact hn e hm ha

/-- What `remap` reads where the map holds on to the word that is read. -/
theorem mget_remap {f : Nat → Word → Word} {a : Nat} (hf : ∀ w, f a w = w) {m : SMap Word} (hm : mget resetWord m a ≠ resetWord a ∨ ∀ e ∈ m, e.1 ≠ a) :
    mget resetWord (remap f m) a = mget resetWord m a := by
  induction m with
  | nil => rfl
  | cons e t ih =>
    obtain ⟨k, w⟩ := e
    by_cases hk : k = a
    · subst hk
      have hw : w ≠ resetWord k := by
        rcases hm with hm | hm
        · simpa [mget] using hm
        · exact absurd rfl (hm (k, w) List.mem_cons_self)
      simp [remap, mget, hf w, hw]
    · have ht := ih (hm.imp (by simp [mget, hk]) (fun hn e he => hn e (List.mem_cons_of_mem _ he)))
      unfold remap at ht ⊢
      rw [List.filterMap_cons]
      split
      · simpa [mget, hk] using ht
      · next v hv =>
        split at hv
        · cases hv
        · cases hv
          simpa [mget, hk] using ht

/-- The word that a register returns to, or keeps. -/
def freshWord (lo hi a : Nat) (w : Word) : Word :=
  if lo ≤ a && a < hi then
    (match rowOf a with
      | some (r, false) => mixed (BitVec.ofNat 32 (r.lk ||| r.keep)) (resetWord a) w
      | _ => resetWord a)
  else w

theorem regsFresh_regs (h : Hw) (lo hi : Nat) : (h.regsFresh lo hi).regs = remap (freshWord lo hi) h.regs := rfl

theorem regsFresh_rd {h : Hw} {a lo hi : Nat} (ho : ¬ (lo ≤ a ∧ a < hi)) (hs : h.settled a) : (h.regsFresh lo hi).rd a = h.rd a := by
  have hf : ∀ w, freshWord lo hi a w = w := fun w => if_neg (by rwa [Bool.and_eq_true, decide_eq_true_eq, decide_eq_true_eq])
  unfold Hw.rd
  rw [regsFresh_regs, mget_remap hf hs]

theorem regsFresh_rd_of {h k : Hw} {a lo hi : Nat} (e : k.regs = h.regs) (ho : ¬ (lo ≤ a ∧ a < hi)) (hs : h.settled a) : (k.regsFresh lo hi).rd a = h.rd a := by
  have hk : k.settled a := by
    unfold Hw.settled at hs ⊢
    rwa [e, Hw.rd_of_regs e]
  rw [regsFresh_rd ho hk, Hw.rd_of_regs e]

/-- What `remap` reads where the map gives the reset word. -/
theorem mget_remap_reset {f : Nat → Word → Word} {a : Nat} (hf : ∀ w, f a w = resetWord a) (m : SMap Word) : mget resetWord (remap f m) a = resetWord a := by
  induction m with
  | nil => rfl
  | cons e t ih =>
    obtain ⟨k, w⟩ := e
    unfold remap at ih ⊢
    rw [List.filterMap_cons]
    split
    · exact ih
    · next v hv =>
      split at hv
      · cases hv
      · next hne =>
        cases hv
        have hk : k ≠ a := by
          rintro rfl
          exact hne (hf w)
        simpa [mget, hk] using ih

theorem mixed_zero (w v : Word) : mixed 0 w v = w := by
  show w &&& ~~~0#32 ||| v &&& 0#32 = w
  rw [BitVec.and_zero, BitVec.or_zero, BitVec.not_zero, BitVec.and_allOnes]

theorem regsFresh_inside (h : Hw) {a lo hi : Nat} {r : RegRow} (hr : rowOf a = some (r, false)) (hk : r.lk ||| r.keep = 0) (hlo : lo ≤ a) (hhi : a < hi) :
    (h.regsFresh lo hi).rd a = resetWord a := by
  have hf : ∀ w, freshWord lo hi a w = resetWord a := fun w => by
    rw [freshWord, if_pos (by simp [hlo, hhi]), hr]
    simp only [hk]
    exact mixed_zero _ w
  unfold Hw.rd
  rw [regsFresh_regs, mget_remap_reset hf]

end Sys2Proof.Machine

/-! A logic self-test ends: its signature, its outcome and what the block is left as (spec/19_debug_and_test.md, R457). -/

namespace Sys2Proof.Machine

/-! ### What each target is left as -/

/-- The queues of the cluster that target `n` tests are halted, its mode 0. -/
def Hw.queuesHalted (h : Hw) (n : Nat) : Hw := (List.range 4).foldl (fun h s => h.up (LAC_Q_STAT.HALTED (4 * (n - 3) + s))) (h.clr (LAC_LC_CFG.MODE (n - 3)))

/-- No pool has state beside its registers. -/
def Hw.noPools (h : Hw) : Hw := { h with pools := [] }

/-- No Ethernet port has state beside its registers. -/
def Hw.noEths (h : Hw) : Hw := { h with eths := [] }

/-- TWIN's state beside its registers is fresh, but for what holds the role line. -/
def Hw.noTwin (h : Hw) : Hw := { h with twin := { peerLow := h.twin.peerLow } }

/-- TWIN's registers and state are fresh, in TEST. -/
def Hw.twinFresh (h : Hw) : Hw := (h.noTwin.regsFresh 0x20150000 0x20160000).set TWIN_STAT.STATE twTest

/-- No rule of the Polder counts or is active. -/
def Hw.rulesFresh (h : Hw) : Hw := (List.range 32).foldl (fun h r => h.set (POL_RULE_STAT.COUNT r) 0 |>.clr (POL_RULE_STAT.ACTIVE r)) h

/-- The Polder's own state beside its registers is fresh, its core held. -/
def Hw.polderBlank (h : Hw) : Hw := { h with bqs := [], pgRule := (0, 0), pol := { run := .held } }

theorem lbistAfter_core (h : Hw) {n : Nat} (hn : n = 1 ∨ n = 2) : h.lbistAfter n = h := by
  rcases hn with rfl | rfl <;> rfl

theorem lbistAfter_cluster (h : Hw) {n : Nat} (h3 : 3 ≤ n) (h6 : n ≤ 6) : h.lbistAfter n = h.queuesHalted n := by
  interval_cases n <;> rfl

theorem lbistAfter_pe (h : Hw) : h.lbistAfter 7 = h.noPools.regsFresh 0x200A0000 0x200B0000 := rfl
theorem lbistAfter_eth (h : Hw) : h.lbistAfter 8 = h.noEths.regsFresh 0x20130000 0x20150000 := rfl
theorem lbistAfter_twin (h : Hw) : h.lbistAfter 9 = h.twinFresh.roleNow := rfl
theorem lbistAfter_polder (h : Hw) : h.lbistAfter 0xA =
    h.rulesFresh.polderBlank.sets [(POL_RULE_ACTIVE.RULES, 0), (POL_STAT.CORE_RUN, 0), (POL_STAT.CORE_HELD, 1), (DBG_C_STAT.HALTED 2, 0)] := rfl

theorem polderBlank_rd (h : Hw) (a : Nat) : h.polderBlank.rd a = h.rd a := Hw.rd_of_regs rfl a
theorem polderBlank_memView (h : Hw) : h.polderBlank.memView = h.memView := rfl
theorem rulesFresh_memView (h : Hw) : h.rulesFresh.memView = h.memView := foldl_keeps Hw.memView (List.range 32) h (fun _ _ _ => rfl)

/-- The targets of the table "LBIST targets". -/
theorem lbist_targets {n : Nat} (h1 : 1 ≤ n) (hA : n ≤ 0xA) : (n = 1 ∨ n = 2) ∨ (3 ≤ n ∧ n ≤ 6) ∨ n = 7 ∨ n = 8 ∨ n = 9 ∨ n = 0xA := by omega

/-! ### TWIN's role line -/

theorem rowOf_twinStat : rowOf TWIN_STAT = some (⟨0x0, 1, 0x4, 1, 0x4, 0, 0, 0, 0, 0, 0, 0, 0, 0, 0, 0x1ff07, 0⟩, false) := by decide +kernel

theorem twinFresh_drive (h : Hw) : h.twinFresh.on TWIN_STAT.ROLE_DRIVE = false := by
  have hreset : resetWord TWIN_STAT = 0 := by decide +kernel
  have hrd := (regsFresh_inside h.noTwin rowOf_twinStat rfl (lo := 0x20150000) (hi := 0x20160000) (by decide) (by decide)).trans hreset
  have hget : h.twinFresh.get TWIN_STAT.ROLE_DRIVE = 0 := by
    rw [Hw.twinFresh, Hw.get_set_of_apart _ _ _ _ (by decide), Hw.get]
    exact (congrArg TWIN_STAT.ROLE_DRIVE.of hrd).trans (by decide)
  rw [Hw.on, hget]
  rfl

/-- A device that does not drive TW_ROLE only senses it. -/
theorem roleNow_released {h : Hw} (hd : h.on TWIN_STAT.ROLE_DRIVE = false) : h.roleNow = h.put TWIN_STAT.ROLE_SENSE (h.roleBall || h.twin.peerLow) := by
  unfold Hw.roleNow
  dsimp only
  rw [hd, Bool.false_and, if_neg (by decide)]

theorem twinAfter_eq (h : Hw) : h.lbistAfter 9 = h.twinFresh.put TWIN_STAT.ROLE_SENSE (h.twinFresh.roleBall || h.twinFresh.twin.peerLow) :=
  (lbistAfter_twin h).trans (roleNow_released (twinFresh_drive h))

theorem twinAfter_state (h : Hw) : (h.lbistAfter 9).get TWIN_STAT.STATE = 6 := by
  rw [twinAfter_eq, Hw.put, Hw.get_set_of_apart _ _ _ _ (by decide), Hw.twinFresh, Hw.get_set_self _ _ _ (by decide)]
  rfl

/-! ### The Polder's rules -/

theorem ruleFresh_reads {k : Hw} {r j : Nat} (hk : j = r ∨ k.reads [(POL_RULE_STAT.ACTIVE r, 0), (POL_RULE_STAT.COUNT r, 0)]) :
    ((k.set (POL_RULE_STAT.COUNT j) 0).clr (POL_RULE_STAT.ACTIVE j)).reads [(POL_RULE_STAT.ACTIVE r, 0), (POL_RULE_STAT.COUNT r, 0)] := by
  simp only [Hw.reads_cons, Hw.reads_nil, and_true] at hk ⊢
  by_cases hj : j = r
  · subst hj
    refine ⟨?_, ?_⟩
    · rw [Hw.clr, Hw.get_set_self _ _ _ (by decide : 0 + 1 ≤ 32)]
      exact Nat.zero_mod _
    · rw [Hw.clr, Hw.get_set_apart _ _ _ _ (.inr (.inr (by decide : 0 + 1 ≤ 1))), Hw.get_set_self _ _ _ (by decide : 1 + 4 ≤ 32)]
      exact Nat.zero_mod _
  · obtain ⟨ha, hc⟩ := hk.resolve_left hj
    have hadr : POL_RULE_STAT j ≠ POL_RULE_STAT r := by
      unfold POL_RULE_STAT
      omega
    refine ⟨?_, ?_⟩
    · rw [Hw.clr, Hw.get_set_apart _ _ _ _ (.inl hadr), Hw.get_set_apart _ _ _ _ (.inl hadr), ha]
    · rw [Hw.clr, Hw.get_set_apart _ _ _ _ (.inl hadr), Hw.get_set_apart _ _ _ _ (.inl hadr), hc]

theorem rulesFresh_reads {r : Nat} (l : List Nat) (k : Hw) (hk : r ∈ l ∨ k.reads [(POL_RULE_STAT.ACTIVE r, 0), (POL_RULE_STAT.COUNT r, 0)]) :
    (l.foldl (fun h r => h.set (POL_RULE_STAT.COUNT r) 0 |>.clr (POL_RULE_STAT.ACTIVE r)) k).reads [(POL_RULE_STAT.ACTIVE r, 0), (POL_RULE_STAT.COUNT r, 0)] := by
  induction l generalizing k with
  | nil => exact hk.resolve_left List.not_mem_nil
  | cons j l ih =>
    refine ih _ ?_
    rcases hk with hm | hk
    · rcases List.mem_cons.mp hm with rfl | hm
      · exact .inr (ruleFresh_reads (.inl rfl))
      · exact .inl hm
    · exact .inr (ruleFresh_reads (.inr hk))

/-- A register in which none of the fields lies keeps its word. -/
theorem sets_rd {l : List (Fld × Nat)} {a : Nat} (hl : ∀ p ∈ l, p.1.adr ≠ a) (h : Hw) : (h.sets l).rd a = h.rd a :=
  foldl_keeps (fun k => k.rd a) l h (fun k p hp => Hw.rd_set_other k p.1 p.2 a (Ne.symm (hl p hp)))

theorem polderAfter_rule {h : Hw} {r : Nat} (hr : r < 32) : (h.lbistAfter 0xA).reads [(POL_RULE_STAT.ACTIVE r, 0), (POL_RULE_STAT.COUNT r, 0)] := by
  have hfresh : h.rulesFresh.reads [(POL_RULE_STAT.ACTIVE r, 0), (POL_RULE_STAT.COUNT r, 0)] := rulesFresh_reads _ h (.inl (List.mem_range.mpr hr))
  have hrd : (h.lbistAfter 0xA).rd (POL_RULE_STAT r) = h.rulesFresh.rd (POL_RULE_STAT r) := by
    rw [lbistAfter_polder, sets_rd, polderBlank_rd]
    · simp only [List.mem_cons, List.not_mem_nil, or_false]
      rintro p (rfl | rfl | rfl | rfl) <;> simp only [POL_RULE_ACTIVE.RULES, POL_RULE_ACTIVE, POL_STAT.CORE_RUN, POL_STAT.CORE_HELD, POL_STAT, DBG_C_STAT.HALTED, DBG_C_STAT,
        POL_RULE_STAT] <;> omega
  simp only [Hw.reads_cons, Hw.reads_nil, and_true] at hfresh ⊢
  exact ⟨(congrArg (POL_RULE_STAT.ACTIVE r).of hrd).trans hfresh.1, (congrArg (POL_RULE_STAT.COUNT r).of hrd).trans hfresh.2⟩

/-! ### What no target touches -/

theorem lbistAfter_memory (h : Hw) {n : Nat} (h1 : 1 ≤ n) (hA : n ≤ 0xA) : (h.lbistAfter n).memView = h.memView := by
  rcases lbist_targets h1 hA with hn | ⟨h3, h6⟩ | rfl | rfl | rfl | rfl
  · rw [lbistAfter_core h hn]
  · rw [lbistAfter_cluster h h3 h6]
    exact foldl_keeps Hw.memView _ _ (fun _ _ _ => rfl)
  · rfl
  · rfl
  · rw [twinAfter_eq]
    rfl
  · rw [lbistAfter_polder, memView_sets, polderBlank_memView, rulesFresh_memView]

/-- The self-test's own registers, where they are listed as they read, stand. -/
theorem lbistAfter_rd {h : Hw} {n a : Nat} (h1 : 1 ≤ n) (hA : n ≤ 0xA) (ha : a / 0x10000 = 0x2018) (hs : h.settled a) : (h.lbistAfter n).rd a = h.rd a := by
  rcases lbist_targets h1 hA with hn | ⟨h3, h6⟩ | rfl | rfl | rfl | rfl
  · rw [lbistAfter_core h hn]
  · rw [lbistAfter_cluster h h3 h6]
    refine (foldl_keeps (fun k => k.rd a) _ _ (fun k q hq => Hw.rd_set_other k _ _ a ?_)).trans (Hw.rd_set_other h _ _ a ?_)
    · have hq4 := List.mem_range.mp hq
      simp only [LAC_Q_STAT.HALTED, LAC_Q_STAT]
      omega
    · simp only [LAC_LC_CFG.MODE, LAC_LC_CFG]
      omega
  · rw [lbistAfter_pe]
    exact regsFresh_rd_of (k := h.noPools) rfl (by omega) hs
  · rw [lbistAfter_eth]
    exact regsFresh_rd_of (k := h.noEths) rfl (by omega) hs
  · have hadr : a ≠ TWIN_STAT := by
      unfold TWIN_STAT
      omega
    rw [twinAfter_eq, Hw.put, Hw.rd_set_other _ _ _ _ hadr, Hw.twinFresh, Hw.rd_set_other _ _ _ _ hadr]
    exact regsFresh_rd_of (k := h.noTwin) rfl (by omega) hs
  · rw [lbistAfter_polder, sets_rd, polderBlank_rd]
    · refine (foldl_keeps (fun k => k.rd a) (List.range 32) h (fun k r hr => ?_))
      have hadr : a ≠ POL_RULE_STAT r := by
        have hr32 := List.mem_range.mp hr
        unfold POL_RULE_STAT
        omega
      rw [Hw.clr, Hw.rd_set_other _ _ _ _ hadr, Hw.rd_set_other _ _ _ _ hadr]
    · simp only [List.mem_cons, List.not_mem_nil, or_false]
      rintro p (rfl | rfl | rfl | rfl) <;> simp only [POL_RULE_ACTIVE.RULES, POL_RULE_ACTIVE, POL_STAT.CORE_RUN, POL_STAT.CORE_HELD, POL_STAT, DBG_C_STAT.HALTED, DBG_C_STAT] <;> omega

end Sys2Proof.Machine

/-! The end of a logic self-test, as the command ends it (spec/19_debug_and_test.md, R456, R457). -/

namespace Sys2Proof.Machine

/-! ### The command -/

/-- A run is under way, and its block has its clock. -/
def Hw.bistRunning (h : Hw) : Prop := h.blockOn 0x18 = true ∧ h.get BIST_STAT.BUSY = 1 ∧ h.bistWait = false

section
variable (s : State) (misr : DWord) (bad : Option Word) (spare : Fin 17)

theorem exec_bistDone : exec (.bistDone misr bad spare []) s = s.run (fun h => h.when (h.blockOn 0x18) (fun h =>
    h.when (h.on BIST_STAT.BUSY && !h.bistWait) (fun h => h.bistFinish (h.get BIST_STAT.TARGET) misr.toNat bad spare))) := by
  refine (execBistDone.eq_1 ..).trans ?_
  simp only [List.foldl_nil, ite_self]
  rfl

theorem becomes_bistDone (hr : s.hw.bistRunning) :
    Becomes (.bistDone misr bad spare []) s (s.hw.bistFinish (s.hw.get BIST_STAT.TARGET) misr.toNat bad spare) := by
  obtain ⟨hc, hb, hw⟩ := hr
  refine becomes_of_when (exec_bistDone s misr bad spare) hc ?_
  exact if_pos (by rw [(s.hw.on_iff rfl).mpr hb, hw]; rfl)

theorem becomes_bistDone_idle (hr : ¬ s.hw.bistRunning) : Becomes (.bistDone misr bad spare []) s s.hw := by
  by_cases hc : s.hw.blockOn 0x18 = true
  · refine becomes_of_when (exec_bistDone s misr bad spare) hc ?_
    refine if_neg (fun hon => hr ⟨hc, ?_⟩)
    obtain ⟨hb, hw⟩ := Bool.and_eq_true_iff.mp hon
    exact ⟨(s.hw.on_iff rfl).mp hb, by simpa using hw⟩
  · exact becomes_of_when_not (exec_bistDone s misr bad spare) (Bool.eq_false_iff.mpr hc)

end

/-! ### The signature -/

/-- The signature measured, and the one that target `n` should give. -/
def Hw.signed (h : Hw) (n misr : Nat) : Hw := h.sets [(BIST_MISR_LO.MISR, misr % 2 ^ 32), (BIST_MISR_HI.MISR, misr / 2 ^ 32),
  (BIST_GOLDEN_LO.MISR, bistGolden n % 2 ^ 32), (BIST_GOLDEN_HI.MISR, bistGolden n / 2 ^ 32)]

/-- The registers of the signatures. -/
def misrReg (a : Nat) : Prop := a = BIST_MISR_LO ∨ a = BIST_MISR_HI ∨ a = BIST_GOLDEN_LO ∨ a = BIST_GOLDEN_HI

theorem bistFinish_logic (h : Hw) {n : Nat} (hn : n ≤ 0xA) (misr : Nat) (bad : Option Word) (spare : Nat) :
    h.bistFinish n misr bad spare = ((h.signed n misr).lbistAfter n).bistEnd n (misr != bistGolden n) := if_pos (by omega)

theorem bistGolden_lt {n : Nat} (h1 : 1 ≤ n) (hA : n ≤ 0xA) : bistGolden n < 2 ^ 64 := by
  interval_cases n <;> decide

theorem signed_reads (h : Hw) {n misr : Nat} (h1 : 1 ≤ n) (hA : n ≤ 0xA) (hm : misr < 2 ^ 64) : (h.signed n misr).reads [(BIST_MISR_LO.MISR, misr % 2 ^ 32),
    (BIST_MISR_HI.MISR, misr / 2 ^ 32), (BIST_GOLDEN_LO.MISR, bistGolden n % 2 ^ 32), (BIST_GOLDEN_HI.MISR, bistGolden n / 2 ^ 32)] := by
  have hg := bistGolden_lt h1 hA
  generalize hgold : bistGolden n = g at hg
  have hdiv : ∀ {x : Nat}, x < 2 ^ 64 → x / 2 ^ 32 % 2 ^ 32 = x / 2 ^ 32 := fun hx => Nat.mod_eq_of_lt (Nat.div_lt_of_lt_mul (by omega))
  unfold Hw.signed
  rw [hgold]
  simp only [Hw.reads_cons, Hw.reads_nil, and_true, Hw.sets_cons, Hw.sets_nil]
  refine ⟨?_, ?_, ?_, ?_⟩
  · rw [Hw.get_set_of_apart _ _ _ _ (by decide), Hw.get_set_of_apart _ _ _ _ (by decide), Hw.get_set_of_apart _ _ _ _ (by decide), Hw.get_set_self _ _ _ (by decide)]
    exact Nat.mod_mod _ _
  · rw [Hw.get_set_of_apart _ _ _ _ (by decide), Hw.get_set_of_apart _ _ _ _ (by decide), Hw.get_set_self _ _ _ (by decide)]
    exact hdiv hm
  · rw [Hw.get_set_of_apart _ _ _ _ (by decide), Hw.get_set_self _ _ _ (by decide)]
    exact Nat.mod_mod _ _
  · rw [Hw.get_set_self _ _ _ (by decide)]
    exact hdiv hg

theorem signed_rd (h : Hw) (n misr : Nat) {a : Nat} (ha : ¬ misrReg a) : (h.signed n misr).rd a = h.rd a := by
  refine sets_rd ?_ h
  simp only [misrReg, not_or] at ha
  obtain ⟨hlo, hhi, hglo, hghi⟩ := ha
  simp only [List.mem_cons, List.not_mem_nil, or_false]
  rintro p (rfl | rfl | rfl | rfl)
  · exact Ne.symm hlo
  · exact Ne.symm hhi
  · exact Ne.symm hglo
  · exact Ne.symm hghi

/-- A register that was written holds on to its word, whatever else is written. -/
theorem settled_sets {l : List (Fld × Nat)} {a : Nat} (h : Hw) (hl : a ∈ l.map (fun p => p.1.adr) ∨ h.settled a) : (h.sets l).settled a := by
  induction l generalizing h with
  | nil => exact hl.resolve_left List.not_mem_nil
  | cons p l ih =>
    rw [Hw.sets_cons]
    refine ih _ ?_
    by_cases hp : p.1.adr = a
    · exact .inr (hp ▸ settled_wr_self h _ _)
    · rcases hl with hm | hs
      · rcases List.mem_cons.mp hm with he | hm
        · exact absurd he.symm hp
        · exact .inl hm
      · exact .inr (settled_wr_other hs _ hp)

theorem signed_settled (h : Hw) (n misr : Nat) {a : Nat} (ha : misrReg a) : (h.signed n misr).settled a := by
  have hm : a ∈ [BIST_MISR_LO, BIST_MISR_HI, BIST_GOLDEN_LO, BIST_GOLDEN_HI] := by simpa [misrReg] using ha
  exact settled_sets h (.inl hm)

/-- While a run is under way BIST_STAT differs from its reset word. -/
theorem stat_settled {h : Hw} (hb : h.get BIST_STAT.BUSY = 1) : h.settled BIST_STAT := by
  refine .inl (fun he => ?_)
  have hz : BIST_STAT.BUSY.of (resetWord BIST_STAT) = 0 := by decide +kernel
  have hone : BIST_STAT.BUSY.of (h.rd BIST_STAT) = 1 := hb
  rw [he, hz] at hone
  exact absurd hone (by decide)

theorem misrReg_window {a : Nat} (ha : misrReg a) : a / 0x10000 = 0x2018 ∧ a ≠ BIST_STAT ∧ a ≠ BIST_TIME := by
  rcases ha with rfl | rfl | rfl | rfl <;> decide

/-! ### The end of a logic self-test -/

section
variable {h : Hw} {n : Nat} (h1 : 1 ≤ n) (hA : n ≤ 0xA) (misr : Nat)
include h1 hA

theorem signed_ended (hb : h.get BIST_STAT.BUSY = 1) : h.bistEnded (((h.signed n misr).lbistAfter n).bistEnd n (misr != bistGolden n)) (decide (misr = bistGolden n)) := by
  have hstat : (h.signed n misr).rd BIST_STAT = h.rd BIST_STAT := signed_rd h n misr (by unfold misrReg; decide)
  have hset : (h.signed n misr).settled BIST_STAT := settled_sets h (.inr (stat_settled hb))
  have hfail : ((h.signed n misr).lbistAfter n).get BIST_STAT.FAIL = h.get BIST_STAT.FAIL :=
    congrArg BIST_STAT.FAIL.of ((lbistAfter_rd h1 hA (by decide) hset).trans hstat)
  have hpass : decide (misr = bistGolden n) = !(misr != bistGolden n) := Bool.eq_iff_iff.mpr (by simp)
  rw [hpass]
  exact bistEnd_ended hfail n _

theorem signed_same : SameMemory h (((h.signed n misr).lbistAfter n).bistEnd n (misr != bistGolden n)) := by
  refine sameMemory_of_memView ?_
  rw [memView_bistEnd, lbistAfter_memory _ h1 hA, Hw.signed, memView_sets]

theorem signed_shows (hm : misr < 2 ^ 64) : (((h.signed n misr).lbistAfter n).bistEnd n (misr != bistGolden n)).reads [(BIST_MISR_LO.MISR, misr % 2 ^ 32),
    (BIST_MISR_HI.MISR, misr / 2 ^ 32), (BIST_GOLDEN_LO.MISR, bistGolden n % 2 ^ 32), (BIST_GOLDEN_HI.MISR, bistGolden n / 2 ^ 32)] := by
  have hrd : ∀ {a}, misrReg a → (((h.signed n misr).lbistAfter n).bistEnd n (misr != bistGolden n)).rd a = (h.signed n misr).rd a := fun ha => by
    obtain ⟨hwin, hs, ht⟩ := misrReg_window ha
    exact (bistEnd_rd _ _ _ hs ht).trans (lbistAfter_rd h1 hA hwin (signed_settled h n misr ha))
  have hr := signed_reads h h1 hA hm
  simp only [Hw.reads_cons, Hw.reads_nil, and_true] at hr ⊢
  obtain ⟨hlo, hhi, hglo, hghi⟩ := hr
  exact ⟨(congrArg BIST_MISR_LO.MISR.of (hrd (.inl rfl))).trans hlo, (congrArg BIST_MISR_HI.MISR.of (hrd (.inr (.inl rfl)))).trans hhi,
    (congrArg BIST_GOLDEN_LO.MISR.of (hrd (.inr (.inr (.inl rfl))))).trans hglo, (congrArg BIST_GOLDEN_HI.MISR.of (hrd (.inr (.inr (.inr rfl))))).trans hghi⟩

end

theorem bistEnd_keeps {β : Type} {g : Hw → β} (hg : ∀ k f v, g (Hw.set k f v) = g k) (k : Hw) (n : Nat) (fail : Bool) : g (k.bistEnd n fail) = g k := by
  have hs : ∀ l, g (k.sets l) = g k := fun l => foldl_keeps g l k (fun k p _ => hg k p.1 p.2)
  unfold Hw.bistEnd Hw.upIf
  split
  · exact (hg _ _ _).trans (hs _)
  · exact hs _

/-- What the block that target `n` tests is left as (column "Afterwards"). -/
theorem logic_after (k : Hw) (n : Nat) (fail : Bool) : (n = 8 → ((k.lbistAfter n).bistEnd n fail).eths = []) ∧ (n = 7 → ((k.lbistAfter n).bistEnd n fail).pools = []) ∧
    (n = 9 → ((k.lbistAfter n).bistEnd n fail).get TWIN_STAT.STATE = 6) ∧
    (n = 0xA → ∀ r, r < 32 → ((k.lbistAfter n).bistEnd n fail).reads [(POL_RULE_STAT.ACTIVE r, 0), (POL_RULE_STAT.COUNT r, 0)]) := by
  refine ⟨?_, ?_, ?_, ?_⟩
  · rintro rfl
    exact bistEnd_keeps (g := Hw.eths) (fun _ _ _ => rfl) _ _ _
  · rintro rfl
    exact bistEnd_keeps (g := Hw.pools) (fun _ _ _ => rfl) _ _ _
  · rintro rfl
    exact (congrArg TWIN_STAT.STATE.of (bistEnd_rd _ _ _ (by decide) (by decide))).trans (twinAfter_state k)
  · rintro rfl r hr
    have hrd : ((k.lbistAfter 0xA).bistEnd 0xA fail).rd (POL_RULE_STAT r) = (k.lbistAfter 0xA).rd (POL_RULE_STAT r) :=
      bistEnd_rd _ _ _ (by simp only [POL_RULE_STAT, BIST_STAT]; omega) (by simp only [POL_RULE_STAT, BIST_TIME]; omega)
    have hrule := polderAfter_rule (h := k) hr
    simp only [Hw.reads_cons, Hw.reads_nil, and_true] at hrule ⊢
    exact ⟨(congrArg (POL_RULE_STAT.ACTIVE r).of hrd).trans hrule.1, (congrArg (POL_RULE_STAT.COUNT r).of hrd).trans hrule.2⟩

theorem golden_listed {n : Nat} (h1 : 1 ≤ n) (hA : n ≤ 0xA) : [0, 0x6C1E93A40B7D52F8, 0x27D4A0C9E3168B5F, 0x91B35E0A7CD24F16, 0x4E08C7B12A9FD365, 0xB5F21D84E06A937C,
    0x0A7CE4D358B16F29, 0xD3186B2F94E70C5A, 0x5F610A3EC8D4B792, 0x83ADF75C1E206B94, 0x3E9527C0D1B84A6F].getD n 0 = bistGolden n := by
  interval_cases n <;> rfl

theorem sameMemory_canon {h k : Hw} (hs : SameMemory h k) : SameMemory h k.canon := fun b => (Hw.byte_canon k b).trans (hs b)

/-- The end of a logic self-test: its outcome, its signature, memory, and the block. -/
theorem completes_bistDone_logic {s : State} (misr : DWord) (bad : Option Word) (spare : Fin 17) (hr : s.hw.bistRunning) (h1 : 1 ≤ s.hw.get BIST_STAT.TARGET)
    (hA : s.hw.get BIST_STAT.TARGET ≤ 0xA) : Completes (.bistDone misr bad spare []) s (fun t =>
      s.hw.bistEnded t (decide (misr.toNat = bistGolden (s.hw.get BIST_STAT.TARGET))) ∧ SameMemory s.hw t ∧
      t.reads [(BIST_MISR_LO.MISR, misr.toNat % 2 ^ 32), (BIST_MISR_HI.MISR, misr.toNat / 2 ^ 32), (BIST_GOLDEN_LO.MISR, bistGolden (s.hw.get BIST_STAT.TARGET) % 2 ^ 32),
        (BIST_GOLDEN_HI.MISR, bistGolden (s.hw.get BIST_STAT.TARGET) / 2 ^ 32)] ∧
      (s.hw.get BIST_STAT.TARGET = 8 → t.eths = []) ∧ (s.hw.get BIST_STAT.TARGET = 7 → t.pools = []) ∧ (s.hw.get BIST_STAT.TARGET = 9 → t.get TWIN_STAT.STATE = 6) ∧
      (s.hw.get BIST_STAT.TARGET = 0xA → ∀ r, r < 32 → t.reads [(POL_RULE_STAT.ACTIVE r, 0), (POL_RULE_STAT.COUNT r, 0)])) := by
  have hb := becomes_bistDone s misr bad spare hr
  obtain ⟨_, hbusy, _⟩ := hr
  generalize s.hw.get BIST_STAT.TARGET = n at *
  rw [bistFinish_logic _ hA] at hb
  obtain ⟨heth, hpool, htwin, hpol⟩ := logic_after (s.hw.signed n misr.toNat) n (misr.toNat != bistGolden n)
  refine hb.completes ?_
  refine ⟨Hw.reads_canon (signed_ended h1 hA _ hbusy), sameMemory_canon (signed_same h1 hA _), Hw.reads_canon (signed_shows h1 hA _ misr.isLt), ?_, ?_, ?_, ?_⟩
  · rwa [Hw.canon_eths]
  · rwa [Hw.canon_pools]
  · rwa [Hw.get_canon]
  · exact fun hn r hr => Hw.reads_canon (hpol hn r hr)

end Sys2Proof.Machine

/-! The end of a memory self-test and of the MRAM test (spec/19_debug_and_test.md, R458, R459). -/

namespace Sys2Proof.Machine

/-! ### Registers through a memory self-test -/

theorem writeBad_high (h : Hw) (w : Nat) : SameHigh h (h.writeBad w) := by
  unfold Hw.writeBad
  split <;> exact high_of rfl

theorem cleanLine_high (h : Hw) (n : Nat) : SameHigh h (h.cleanLine n) := by
  unfold Hw.cleanLine
  dsimp only
  split
  · exact recallAll_high h n
  · refine ((recallAll_high h n).trans (eccFold_high l2Word_high (lineWords n) _)).trans ?_
    generalize (eccFold Hw.l2Word (h.recallAll n) (lineWords n)).1 = k
    generalize oline (h.recallAll n).l2 n = d
    have hput : SameHigh k { (k.memPut d) with l2 := odrop k.l2 n } := high_of rfl
    exact hput.trans (high_fold writeBad_high _ _)

theorem cleanLines_high (h : Hw) (l : List Nat) : SameHigh h (h.cleanLines l) := high_fold cleanLine_high l h

theorem coreCaches_high (h : Hw) (c : Nat) : SameHigh h (h.coreCaches c) := by
  have hdrop : ∀ (k : Hw) (g : Agent), SameHigh k (k.dropAgent g) := fun k g => by cases g <;> exact high_of rfl
  have hcore : ∀ (k : Hw) (x : Core), SameHigh k (k.setCoreAt c x) := fun k x => high_of (setCoreAt_regs k c x)
  unfold Hw.coreCaches
  exact ((cleanLines_high h _).trans (hdrop _ _)).trans (hcore _ _)

/-- The stores of a cluster's groups are empty. -/
def Hw.clusterWiped (h : Hw) (n : Nat) : Hw :=
  (List.range 4).foldl (fun h s => h.setGrp (4 * (n - 0x14) + s) { h.grp (4 * (n - 0x14) + s) with fill := [], dirty := [], bad := [] })
    { h with istore := h.istore.filter (fun e => !(0x8000 * (n - 0x14) ≤ e.1 && e.1 < 0x8000 * (n - 0x14) + 0x8000)),
             istoreBad := h.istoreBad.filter (fun a => !(0x8000 * (n - 0x14) ≤ a && a < 0x8000 * (n - 0x14) + 0x8000)) }

theorem mbistWipe_cluster (h : Hw) {n : Nat} (h4 : 0x14 ≤ n) (h7 : n ≤ 0x17) : h.mbistWipe n = h.clusterWiped n := by
  interval_cases n <;> rfl

theorem mbistWipe_core (h : Hw) {n : Nat} (hn : n = 0x12 ∨ n = 0x13) : h.mbistWipe n = h.coreCaches (n - 0x12) := by
  rcases hn with rfl | rfl <;> rfl

theorem mbistWipe_high (h : Hw) {n : Nat} (h0 : 0x10 ≤ n) (hB : n ≤ 0x1B) : SameHigh h (h.mbistWipe n) := by
  have hn : (n = 0x12 ∨ n = 0x13) ∨ (0x14 ≤ n ∧ n ≤ 0x17) ∨ n = 0x10 ∨ n = 0x11 ∨ n = 0x18 ∨ n = 0x19 ∨ n = 0x1A ∨ n = 0x1B := by omega
  rcases hn with hn | ⟨h4, h7⟩ | rfl | rfl | rfl | rfl | rfl | rfl
  · rw [mbistWipe_core h hn]
    exact coreCaches_high h _
  · rw [mbistWipe_cluster h h4 h7]
    refine SameHigh.trans (high_of rfl) (high_fold (fun k s => ?_) (List.range 4) _)
    exact high_of rfl
  all_goals exact high_of rfl

/-! ### Memory after a memory self-test -/

theorem ofind_filter_none {f : Host.Cell → Bool} {a : Nat} (hf : ∀ v, f (a, v) = false) (l : List Host.Cell) : ofind (l.filter f) a = none := by
  unfold ofind
  rw [Option.map_eq_none_iff, List.find?_eq_none]
  intro e he ha
  obtain ⟨k, v⟩ := e
  have hk : k = a := by simpa using ha
  subst hk
  exact absurd (List.mem_filter.mp he).2 (by simp [hf v])

theorem mget_filter_none {f : Host.Cell → Bool} {a : Nat} (hf : ∀ v, f (a, v) = false) (l : List Host.Cell) : mget (fun _ => (0 : Byte)) (l.filter f) a = 0 := by
  induction l with
  | nil => rfl
  | cons e l ih =>
    obtain ⟨k, v⟩ := e
    rw [List.filter_cons]
    split
    · next hk =>
      have hne : k ≠ a := by
        rintro rfl
        exact absurd hk (by simp [hf v])
      rw [mget, if_neg hne, ih]
    · exact ih

/-- A byte that was wiped, or that no cache holds any more, reads 0 where memory itself is read. -/
theorem byte_wiped {h : Hw} {a : Nat} (hrom : h.region a ≠ .rom) (hx : h.region a ≠ .xspi) (hd : h.dirtyAt a = none) (hb : h.backing a = 0) : h.byte a = 0 := by
  have hv : (h.dirtyAt a).getD (h.backing a) = 0 := by rw [hd, hb]; rfl
  rw [Hw.byte_eq]
  split
  · exact absurd ‹_› hrom
  · exact absurd ‹_› hx
  · exact hv

theorem wipeRange_dirty (h : Hw) {lo n a : Nat} (hlo : lo ≤ a) (hhi : a < lo + n) : (h.wipeRange lo n).dirtyAt a = none := by
  have hout : ∀ l : List Host.Cell, ofind (l.filter (fun e => !(lo ≤ e.1 && e.1 < lo + n))) a = none := ofind_filter_none (fun v => by simp [hlo, hhi])
  unfold Hw.dirtyAt Hw.wipeRange
  rw [hout, hout, hout, hout]
  rfl

theorem wipeRange_backing (h : Hw) {lo n a : Nat} (hlo : lo ≤ a) (hhi : a < lo + n) : (h.wipeRange lo n).backing a = 0 :=
  mget_filter_none (fun v => by simp [hlo, hhi]) h.mem

theorem dropCaches_dirty (h : Hw) (a : Nat) : h.dropCaches.dirtyAt a = none := rfl

theorem mbist_sram (h : Hw) {a : Nat} (hlo : 0x10000000 ≤ a) (hhi : a < 0x10200000) : (h.mbistWipe 0x10).byte a = 0 := by
  have hreg : (h.mbistWipe 0x10).region a = .sram := by
    rw [Hw.region, if_neg (by omega), if_neg (by omega), if_neg (by omega), if_pos hhi]
  exact byte_wiped (by rw [hreg]; decide) (by rw [hreg]; decide) (dropCaches_dirty _ a) (wipeRange_backing h hlo (by omega))

theorem mbist_lmem (h : Hw) {a : Nat} (hlo : 0x18000000 ≤ a) (hhi : a < 0x18100000) : (h.mbistWipe 0x18).byte a = 0 := by
  have hreg : (h.mbistWipe 0x18).region a = .lmem := by
    rw [Hw.region, if_neg (by omega), if_neg (by omega), if_neg (by omega), if_neg (by omega), if_neg (by omega), if_pos hhi]
  exact byte_wiped (by rw [hreg]; decide) (by rw [hreg]; decide) (wipeRange_dirty h hlo (by omega)) (wipeRange_backing h hlo (by omega))

theorem mbist_polsram (h : Hw) {a : Nat} (hlo : 0x30100000 ≤ a) (hhi : a < 0x30108000) : (h.mbistWipe 0x1B).byte a = 0 := by
  have hreg : (h.mbistWipe 0x1B).region a = .polsram := by
    rw [Hw.region, if_neg (by omega), if_neg (by omega), if_neg (by omega), if_neg (by omega), if_neg (by omega), if_neg (by omega), if_neg (by omega), if_neg (by omega),
      if_neg (by omega), if_neg (by omega), if_neg (by omega), if_neg (by omega), if_neg (by omega), if_pos hhi]
  exact byte_wiped (by rw [hreg]; decide) (by rw [hreg]; decide) (wipeRange_dirty h hlo (by omega)) (wipeRange_backing h hlo (by omega))

/-! ### The end of a memory self-test -/

/-- The first failing address is recorded. -/
def Hw.failAt (h : Hw) : Option Word → Hw
  | some a => h.wr BIST_FAIL_ADDR a
  | none => h

theorem bistFinish_memory (h : Hw) {n : Nat} (h0 : 0x10 ≤ n) (hB : n ≤ 0x1B) (misr : Nat) (bad : Option Word) (spare : Nat) :
    h.bistFinish n misr bad spare = ((h.failAt bad).mbistWipe n).bistEnd n bad.isSome := by
  unfold Hw.bistFinish
  rw [if_neg (by omega), if_neg (by omega)]
  cases bad <;> rfl

theorem failAt_stat (h : Hw) (bad : Option Word) : (h.failAt bad).rd BIST_STAT = h.rd BIST_STAT := by
  cases bad
  · rfl
  · exact Hw.rd_wr_other h _ (by decide)

theorem memory_ended (h : Hw) {n : Nat} (h0 : 0x10 ≤ n) (hB : n ≤ 0x1B) (bad : Option Word) :
    h.bistEnded (((h.failAt bad).mbistWipe n).bistEnd n bad.isSome) bad.isNone := by
  have hfail : ((h.failAt bad).mbistWipe n).get BIST_STAT.FAIL = h.get BIST_STAT.FAIL :=
    congrArg BIST_STAT.FAIL.of ((mbistWipe_high _ h0 hB BIST_STAT (by decide)).trans (failAt_stat h bad))
  have hpass : bad.isNone = !bad.isSome := by cases bad <;> rfl
  rw [hpass]
  exact bistEnd_ended hfail n _

theorem memory_failAddr (h : Hw) {n : Nat} (h0 : 0x10 ≤ n) (hB : n ≤ 0x1B) (a : Word) : (((h.failAt (some a)).mbistWipe n).bistEnd n true).rd BIST_FAIL_ADDR = a := by
  rw [bistEnd_rd _ _ _ (by decide) (by decide), mbistWipe_high _ h0 hB BIST_FAIL_ADDR (by decide)]
  exact Hw.rd_wr_self h _ a

/-- The end of a memory self-test. -/
theorem completes_bistDone_memory {s : State} (misr : DWord) (bad : Option Word) (spare : Fin 17) (hr : s.hw.bistRunning) (h0 : 0x10 ≤ s.hw.get BIST_STAT.TARGET)
    (hB : s.hw.get BIST_STAT.TARGET ≤ 0x1B) : Completes (.bistDone misr bad spare []) s (fun t =>
      s.hw.bistEnded t bad.isNone ∧ (∀ a, bad = some a → t.rd BIST_FAIL_ADDR = a) ∧
      (s.hw.get BIST_STAT.TARGET = 0x10 → t.byte 0x10000000 = 0 ∧ t.byte 0x101FFFFF = 0) ∧
      (s.hw.get BIST_STAT.TARGET = 0x18 → t.byte 0x18000000 = 0 ∧ t.byte 0x180FFFFF = 0) ∧
      (s.hw.get BIST_STAT.TARGET = 0x1B → t.byte 0x30100000 = 0 ∧ t.byte 0x30107FFF = 0)) := by
  have hb := becomes_bistDone s misr bad spare hr
  generalize s.hw.get BIST_STAT.TARGET = n at *
  rw [bistFinish_memory _ h0 hB] at hb
  have hbyte : ∀ a, (((s.hw.failAt bad).mbistWipe n).bistEnd n bad.isSome).canon.byte a = ((s.hw.failAt bad).mbistWipe n).byte a := fun a =>
    (Hw.byte_canon _ a).trans (sameMemory_of_memView (memView_bistEnd _ _ _) a)
  refine hb.completes ?_
  refine ⟨Hw.reads_canon (memory_ended _ h0 hB bad), ?_, ?_, ?_, ?_⟩
  · rintro a rfl
    rw [Hw.rd_canon]
    exact memory_failAddr s.hw h0 hB a
  · rintro rfl
    rw [hbyte, hbyte]
    exact ⟨mbist_sram _ (by decide) (by decide), mbist_sram _ (by decide) (by decide)⟩
  · rintro rfl
    rw [hbyte, hbyte]
    exact ⟨mbist_lmem _ (by decide) (by decide), mbist_lmem _ (by decide) (by decide)⟩
  · rintro rfl
    rw [hbyte, hbyte]
    exact ⟨mbist_polsram _ (by decide) (by decide), mbist_polsram _ (by decide) (by decide)⟩

/-! ### The MRAM test -/

/-- What the MRAM test found, where no word was upset. -/
def Hw.mramShown (h : Hw) (spare : Nat) : Hw :=
  h.sets [(BIST_MRAM_RES.CE, satU 16 0), (BIST_MRAM_RES.UE, satU 8 0), (BIST_MRAM_RES.SPARE_FAIL, satU 8 spare)]

theorem mramPass_clean {h : Hw} (hu : h.upsets = []) : h.mramPass = (h, 0, 0) := by
  rw [Hw.mramPass, hu]
  rfl

theorem bistFinish_mram {h : Hw} (hu : h.upsets = []) (misr : Nat) (bad : Option Word) (spare : Nat) :
    h.bistFinish 0x20 misr bad spare = (h.mramShown spare).bistEnd 0x20 (spare != 0) := by
  unfold Hw.bistFinish
  rw [if_neg (by decide), if_pos rfl, mramPass_clean hu]
  rfl

theorem mramShown_reads (h : Hw) {spare : Nat} (hs : spare < 17) :
    (h.mramShown spare).reads [(BIST_MRAM_RES.CE, 0), (BIST_MRAM_RES.UE, 0), (BIST_MRAM_RES.SPARE_FAIL, spare)] := by
  have hsat : satU 8 spare = spare := Nat.min_eq_left (by omega)
  unfold Hw.mramShown
  rw [hsat]
  simp only [Hw.reads_cons, Hw.reads_nil, and_true, Hw.sets_cons, Hw.sets_nil]
  refine ⟨?_, ?_, ?_⟩
  · rw [Hw.get_set_of_apart _ _ _ _ (by decide), Hw.get_set_of_apart _ _ _ _ (by decide), Hw.get_set_self _ _ _ (by decide)]
    rfl
  · rw [Hw.get_set_of_apart _ _ _ _ (by decide), Hw.get_set_self _ _ _ (by decide)]
    rfl
  · rw [Hw.get_set_self _ _ _ (by decide)]
    exact Nat.mod_eq_of_lt (by show spare < 256; omega)

/-- The end of the MRAM test, where no word was upset. -/
theorem completes_bistDone_mram {s : State} (misr : DWord) (bad : Option Word) (spare : Fin 17) (hr : s.hw.bistRunning) (hn : s.hw.get BIST_STAT.TARGET = 0x20)
    (hu : s.hw.upsets = []) : Completes (.bistDone misr bad spare []) s (fun t => s.hw.bistEnded t (decide (spare.val = 0)) ∧ SameMemory s.hw t ∧
      t.reads [(BIST_MRAM_RES.CE, 0), (BIST_MRAM_RES.UE, 0), (BIST_MRAM_RES.SPARE_FAIL, spare.val)]) := by
  have hb := becomes_bistDone s misr bad spare hr
  rw [hn, bistFinish_mram hu] at hb
  have hfail : (s.hw.mramShown spare).get BIST_STAT.FAIL = s.hw.get BIST_STAT.FAIL := by
    refine congrArg BIST_STAT.FAIL.of (sets_rd ?_ s.hw)
    simp only [List.mem_cons, List.not_mem_nil, or_false]
    rintro p (rfl | rfl | rfl) <;> exact (by decide : BIST_MRAM_RES ≠ BIST_STAT)
  have hrd : ((s.hw.mramShown spare).bistEnd 0x20 (spare.val != 0)).rd BIST_MRAM_RES = (s.hw.mramShown spare).rd BIST_MRAM_RES :=
    bistEnd_rd _ _ _ (by decide) (by decide)
  have hshown := mramShown_reads s.hw spare.isLt
  simp only [Hw.reads_cons, Hw.reads_nil, and_true] at hshown
  obtain ⟨hce, hue, hsp⟩ := hshown
  have hpass : decide (spare.val = 0) = !(spare.val != 0) := Bool.eq_iff_iff.mpr (by simp)
  refine hb.completes ?_
  refine ⟨?_, sameMemory_canon (sameMemory_of_memView ?_), Hw.reads_canon ?_⟩
  · rw [hpass]
    exact Hw.reads_canon (bistEnd_ended hfail 0x20 _)
  · rw [memView_bistEnd, Hw.mramShown, memView_sets]
  · simp only [Hw.reads_cons, Hw.reads_nil, and_true]
    exact ⟨(congrArg BIST_MRAM_RES.CE.of hrd).trans hce, (congrArg BIST_MRAM_RES.UE.of hrd).trans hue, (congrArg BIST_MRAM_RES.SPARE_FAIL.of hrd).trans hsp⟩

end Sys2Proof.Machine

/-! The balls: what drives one, and an edge sensed at one (spec/20_package_and_electrical.md, R461 to R468). -/

namespace Sys2Proof.Machine

/-! ### The boundary register has the ball -/

/-- The first cell of ball `k` below 72. -/
def ballCell (k : Nat) : Nat := if k < 36 then 137 + 3 * k else 248 + 3 * (k - 36)

theorem boundary_io {k : Nat} (hk : k < 72) : boundaryBalls.getD (boundaryBall k) false = true ∧ cellOf (boundaryBall k) = ballCell k := by
  have hall : ∀ j : Fin 72, boundaryBalls.getD (boundaryBall j) false = true ∧ cellOf (boundaryBall j) = ballCell j := by decide +kernel
  exact hall ⟨k, hk⟩

theorem boundary_input {k : Nat} (hlo : 72 ≤ k) (hhi : k < 75) : boundaryBalls.getD (boundaryBall k) false = false := by
  interval_cases k <;> decide +kernel

/-- The JTAG instruction is EXTEST or CLAMP. -/
def Hw.ballsTested (h : Hw) : Prop := h.dbg.ir = 0 ∨ h.dbg.ir = 4

section
variable {h : Hw}

theorem scanDrive_highz (hi : h.dbg.ir = 5) (b : Nat) : h.scanDrive b = some none := if_pos hi

theorem scanDrive_tested (ht : h.ballsTested) (b : Nat) : h.scanDrive b =
    some (if boundaryBalls.getD b false && !h.dbg.cells.getLsbD (cellOf b + 2) then some (h.dbg.cells.getLsbD (cellOf b + 1)) else none) := by
  have h5 : ¬ h.dbg.ir = 5 := by rcases ht with ht | ht <;> rw [ht] <;> decide
  unfold Hw.scanDrive
  rw [if_neg h5, if_pos (by simpa [Hw.ballsTested] using ht)]

theorem scanDrive_functional (ht : ¬ h.ballsTested) (h5 : h.dbg.ir ≠ 5) (b : Nat) : h.scanDrive b = none := by
  unfold Hw.scanDrive
  rw [if_neg h5, if_neg (by simpa [Hw.ballsTested] using ht)]

theorem ballDrive_scanned {k : Nat} {d : Option Bool} (hs : h.scanDrive (boundaryBall k) = some d) : h.ballDrive k = if h.gpioBank k then d else none := by
  unfold Hw.ballDrive
  rw [hs]

/-! ### Banks -/

/-- The bank of a ball that is no input only. -/
def Hw.ballThere (h : Hw) (k : Nat) : Prop := bitOf (h.get GPIO_BANK_STAT.PRESENT) (if k < 36 then 2 else 3) = true

theorem gpioBank_iff {k : Nat} (hk : k < 72) : h.gpioBank k = true ↔ h.ballThere k := by
  unfold Hw.gpioBank Hw.ballThere
  simp [show ¬ 72 ≤ k by omega]

/-! ### What a ball drives -/

theorem ballDrive_none {k : Nat} (hk : k < 75) (hn : h.dbg.ir = 5 ∨ (h.ballsTested ∧ (72 ≤ k ∨ ¬ h.ballThere k))) : h.ballDrive k = none := by
  rcases hn with h5 | ⟨ht, hn⟩
  · rw [ballDrive_scanned (scanDrive_highz h5 _), ite_self]
  · rw [ballDrive_scanned (scanDrive_tested ht _)]
    by_cases h72 : 72 ≤ k
    · rw [boundary_input h72 hk, Bool.false_and, if_neg (by decide : ¬ false = true), ite_self]
    · exact if_neg (mt (gpioBank_iff (by omega)).mp (hn.resolve_left h72))

theorem ballDrive_tested {k : Nat} (ht : h.ballsTested) (hk : k < 72) (hp : h.ballThere k) :
    h.ballDrive k = if h.dbg.cells.getLsbD (ballCell k + 2) then none else some (h.dbg.cells.getLsbD (ballCell k + 1)) := by
  obtain ⟨hio, hcell⟩ := boundary_io hk
  rw [ballDrive_scanned (scanDrive_tested ht _), if_pos ((gpioBank_iff hk).mpr hp), hio, hcell, Bool.true_and]
  cases h.dbg.cells.getLsbD (ballCell k + 2) <;> rfl

theorem ballDrive_functional {k : Nat} (ht : ¬ h.ballsTested) (h5 : h.dbg.ir ≠ 5) : h.ballDrive k = h.gpioDrive k := by
  unfold Hw.ballDrive
  rw [scanDrive_functional ht h5]

/-! ### What the functions drive -/

/-- The level that the function of the ball gives. -/
def Hw.fnDrive (h : Hw) (k : Nat) : Option Bool :=
  if h.get (GPIO_MUX.FN k) = 0 then (if h.gpioBit GPIO_DIR k then some (h.gpioBit GPIO_OUT k) else none)
  else if h.get (GPIO_MUX.FN k) = 1 then h.fn1Drive k else h.fn2Drive k

theorem gpioDrive_eq (k : Nat) : h.gpioDrive k = if 72 ≤ k || !h.gpioBank k || (h.fnDrive k = some true && h.on (GPIO_MUX.OD k)) then none else h.fnDrive k := rfl

theorem gpioDrive_absent {k : Nat} (hn : 72 ≤ k ∨ ¬ h.ballThere k) : h.gpioDrive k = none := by
  rw [gpioDrive_eq]
  refine if_pos ?_
  by_cases h72 : 72 ≤ k
  · simp [h72]
  · have hb : h.gpioBank k = false := Bool.eq_false_iff.mpr (mt (gpioBank_iff (by omega)).mp (hn.resolve_left h72))
    simp [hb]

theorem gpioDrive_silent {k : Nat} (hd : h.fnDrive k = none) : h.gpioDrive k = none := by
  rw [gpioDrive_eq, hd, ite_self]

theorem gpioDrive_pushPull {k : Nat} (hk : k < 72) (hp : h.ballThere k) (hod : h.get (GPIO_MUX.OD k) = 0) : h.gpioDrive k = h.fnDrive k := by
  have hoff : h.on (GPIO_MUX.OD k) = false := by simp [Hw.on, hod]
  rw [gpioDrive_eq, hoff, (gpioBank_iff hk).mpr hp]
  exact if_neg (by simp [hk])

theorem gpioDrive_in {k : Nat} (hf : h.get (GPIO_MUX.FN k) = 0) (hd : (h.rd (GPIO_DIR (k / 32))).getLsbD (k % 32) = false) : h.gpioDrive k = none :=
  gpioDrive_silent ((if_pos hf).trans (if_neg (by rw [Hw.gpioBit, hd]; decide)))

theorem gpioDrive_out {k : Nat} (hk : k < 72) (hp : h.ballThere k) (hf : h.get (GPIO_MUX.FN k) = 0) (hd : (h.rd (GPIO_DIR (k / 32))).getLsbD (k % 32) = true)
    (hod : h.get (GPIO_MUX.OD k) = 0) : h.gpioDrive k = some ((h.rd (GPIO_OUT (k / 32))).getLsbD (k % 32)) :=
  (gpioDrive_pushPull hk hp hod).trans ((if_pos hf).trans (if_pos hd))

/-! ### Serial outputs -/

section
variable {k : Nat} (hp : h.ballThere k) (hf : h.get (GPIO_MUX.FN k) = 1) (hod : h.get (GPIO_MUX.OD k) = 0)
include hp hf hod

theorem gpioDrive_fn1 (hk : k < 72) : h.gpioDrive k = h.fn1Drive k :=
  (gpioDrive_pushPull hk hp hod).trans ((if_neg (by rw [hf]; decide)).trans (if_pos hf))

theorem gpioDrive_uart {u : Nat} (hu : u < 6) (hk : k = 4 * u) : h.gpioDrive k = h.uartTx u := by
  rw [gpioDrive_fn1 hp hf hod (by omega), Hw.fn1Drive, if_pos (by omega), if_pos (by omega), show k / 4 = u by omega]

theorem gpioDrive_can {n : Nat} (hn : n < 2) (hk : k = 24 + 2 * n) : h.gpioDrive k = h.canTx n := by
  rw [gpioDrive_fn1 hp hf hod (by omega), Hw.fn1Drive, if_neg (by omega), if_pos (by omega), if_pos (by omega), show (k - 24) / 2 = n by omega]

theorem gpioDrive_spi {n j : Nat} (hn : n < 4) (hj : j < 7) (hk : k = 28 + 7 * n + j) : h.gpioDrive k = h.spiPin n j := by
  rw [gpioDrive_fn1 hp hf hod (by omega), Hw.fn1Drive, if_neg (by omega), if_neg (by omega), if_pos (by omega), show (k - 28) / 7 = n by omega,
    show (k - 28) % 7 = j by omega]

end

theorem uf_main (f : Nat → Fld) {u : Nat} (hu : u < 6) (hf : f u = { f 0 with adr := (f u).adr }) : uf f u = f u := by
  rw [uf, if_pos hu, ← hf]

theorem uartTx_break {u : Nat} (hu : u < 6) (hb : h.get (UART_CTL.BREAK u) = 1) : h.uartTx u = some false := by
  unfold Hw.uartTx
  rw [uf_main UART_CTL.BREAK hu rfl, (h.on_iff rfl).mpr hb]
  rfl

theorem uartTx_idle {u : Nat} (hu : u < 6) (hb : h.get (UART_CTL.BREAK u) = 0) (hc : (h.uart u).cur = none) : h.uartTx u = some true := by
  have hoff : h.on (UART_CTL.BREAK u) = false := by simp [Hw.on, hb]
  unfold Hw.uartTx
  rw [uf_main UART_CTL.BREAK hu rfl, hoff, hc]
  rfl

theorem canTx_recessive {n : Nat} (hn : h.get (CAN_CTL.MODE n) = 1 ∨ h.get (CAN_CTL.MODE n) = 3 ∨ ((h.can n).bus = none ∧ (h.can n).busy = false)) :
    h.canTx n = some true := by
  refine if_pos ?_
  rcases hn with hm | hm | ⟨hb, hy⟩
  · simp [hm]
  · simp [hm]
  · simp [hb, hy]

theorem spiPin_select {n j : Nat} (hj : 3 ≤ j) (hs : h.get (SPI_CFG.SLAVE n) = 0) (he : h.get (SPI_CFG.EN n) = 1) :
    h.spiPin n j = some (!((h.spi n).sel && decide (h.get (SPI_CFG.CS n) = j - 3))) := by
  have hslave : h.on (SPI_CFG.SLAVE n) = false := by simp [Hw.on, hs]
  have hen : h.on (SPI_CFG.EN n) = true := by simp [Hw.on, he]
  unfold Hw.spiPin
  dsimp only
  rw [hslave, hen, if_neg (by decide), if_neg (by omega), if_pos hj]

end

/-! ### An edge -/

theorem get_bit (h : Hw) (a i : Nat) : h.get ⟨a, i, 1⟩ = b2n ((h.rd a).getLsbD i) := of_bit rfl (h.rd a)

theorem b2n_inj {a b : Bool} (e : b2n a = b2n b) : a = b := by
  cases a <;> cases b
  · rfl
  · cases e
  · cases e
  · rfl

theorem put_bit_self (h : Hw) (a : Nat) {i : Nat} (hi : i < 32) (b : Bool) : ((h.put ⟨a, i, 1⟩ b).rd a).getLsbD i = b := by
  have hg := Hw.get_set_self h ⟨a, i, 1⟩ (b2n b) (Nat.succ_le_of_lt hi)
  rw [get_bit] at hg
  exact b2n_inj (hg.trans (b2n_mod1 b))

theorem put_bit_other (h : Hw) (a : Nat) {i j : Nat} (hj : j ≠ i) (b : Bool) : ((h.put ⟨a, i, 1⟩ b).rd a).getLsbD j = (h.rd a).getLsbD j := by
  have hg : (h.put ⟨a, i, 1⟩ b).get ⟨a, j, 1⟩ = h.get ⟨a, j, 1⟩ := Hw.get_set_apart h _ _ _ (.inr (by
    show j + 1 ≤ i ∨ i + 1 ≤ j
    omega))
  rw [get_bit, get_bit] at hg
  exact b2n_inj hg

/-- The ball's level differs from what IN shows, and that edge is enabled. -/
def Hw.ballEdge (h : Hw) (k : Nat) (level : Bool) : Prop :=
  (h.rd (GPIO_IN (k / 32))).getLsbD (k % 32) ≠ level ∧ (h.rd ((if level then GPIO_RISE else GPIO_FALL) (k / 32))).getLsbD (k % 32) = true

/-- IN shows the level. -/
def Hw.ballShown (h : Hw) (k : Nat) (level : Bool) : Hw := h.put ⟨GPIO_IN (k / 32), k % 32, 1⟩ level

section
variable {h : Hw} {k : Nat} {level : Bool}

theorem edgeReg_ne (w : Nat) : (if level then GPIO_RISE else GPIO_FALL) w ≠ GPIO_IN w := by
  cases level
  · show GPIO_FALL w ≠ GPIO_IN w
    unfold GPIO_FALL GPIO_IN
    omega
  · show GPIO_RISE w ≠ GPIO_IN w
    unfold GPIO_RISE GPIO_IN
    omega

theorem evt_ne (w : Nat) : GPIO_EVT w ≠ GPIO_IN w := by
  unfold GPIO_EVT GPIO_IN
  omega

theorem gpioLevel_cond : (h.gpioBit GPIO_IN k != level && (h.ballShown k level).gpioBit (if level then GPIO_RISE else GPIO_FALL) k) = true ↔ h.ballEdge k level := by
  unfold Hw.gpioBit Hw.ballShown Hw.ballEdge Hw.put
  rw [Bool.and_eq_true, bne_iff_ne, Hw.rd_set_other _ _ _ _ (edgeReg_ne _)]

theorem gpioLevel_edge (he : h.ballEdge k level) : h.gpioLevel k level = (h.ballShown k level).put ⟨GPIO_EVT (k / 32), k % 32, 1⟩ true :=
  if_pos (gpioLevel_cond.mpr he)

theorem gpioLevel_still (he : ¬ h.ballEdge k level) : h.gpioLevel k level = h.ballShown k level := if_neg (mt gpioLevel_cond.mp he)

theorem gpioLevel_rdIn : (h.gpioLevel k level).rd (GPIO_IN (k / 32)) = (h.ballShown k level).rd (GPIO_IN (k / 32)) := by
  by_cases he : h.ballEdge k level
  · rw [gpioLevel_edge he, Hw.put, Hw.rd_set_other _ _ _ _ (Ne.symm (evt_ne _))]
  · rw [gpioLevel_still he]

theorem ballShown_evt : (h.ballShown k level).rd (GPIO_EVT (k / 32)) = h.rd (GPIO_EVT (k / 32)) := Hw.rd_set_other h _ _ _ (evt_ne _)

theorem gpioLevel_evt_other {j : Nat} (hj : j ≠ k % 32) :
    ((h.gpioLevel k level).rd (GPIO_EVT (k / 32))).getLsbD j = (h.rd (GPIO_EVT (k / 32))).getLsbD j := by
  by_cases he : h.ballEdge k level
  · rw [gpioLevel_edge he, put_bit_other _ _ hj, ballShown_evt]
  · rw [gpioLevel_still he, ballShown_evt]

theorem gpioLevel_evt_self (he : h.ballEdge k level) : ((h.gpioLevel k level).rd (GPIO_EVT (k / 32))).getLsbD (k % 32) = true := by
  rw [gpioLevel_edge he, put_bit_self _ _ (Nat.mod_lt _ (by decide))]

theorem gpioLevel_evt_still (he : ¬ h.ballEdge k level) : (h.gpioLevel k level).rd (GPIO_EVT (k / 32)) = h.rd (GPIO_EVT (k / 32)) := by
  rw [gpioLevel_still he, ballShown_evt]

end

/-! ### GPIO_EDGE -/

/-- The GPIO block is clocked. -/
def Hw.gpioOn (h : Hw) : Prop := h.pwr.phase = .up ∧ bitOf (h.get CLK_GATE.EN) 25 = true

theorem gpioOn_iff (h : Hw) : (h.mainUp && bitOf (h.get CLK_GATE.EN) 0x19) = true ↔ h.gpioOn := by
  unfold Hw.mainUp Hw.gpioOn
  rw [Bool.and_eq_true, decide_eq_true_eq]

theorem becomes_gpioEdge_off {s : State} (k : Fin 75) (level : Bool) (ho : ¬ s.hw.gpioOn) : Becomes (.gpioEdge k level) s s.hw :=
  becomes_of_when_not (execGpioEdge.eq_1 ..) (Bool.eq_false_iff.mpr (mt (gpioOn_iff _).mp ho))

theorem completes_gpioEdge {s : State} (k : Fin 75) (level : Bool) (ho : s.hw.gpioOn) : Completes (.gpioEdge k level) s (fun t =>
    (t.rd (GPIO_IN (k.val / 32))).getLsbD (k.val % 32) = (s.hw.ballDrive k).getD level ∧
    (s.hw.ballEdge k ((s.hw.ballDrive k).getD level) → (t.rd (GPIO_EVT (k.val / 32))).getLsbD (k.val % 32) = true) ∧
    (¬ s.hw.ballEdge k ((s.hw.ballDrive k).getD level) → t.rd (GPIO_EVT (k.val / 32)) = s.hw.rd (GPIO_EVT (k.val / 32))) ∧
    (∀ j, j < 32 → j = k.val % 32 ∨ ((t.rd (GPIO_IN (k.val / 32))).getLsbD j = (s.hw.rd (GPIO_IN (k.val / 32))).getLsbD j ∧
      (t.rd (GPIO_EVT (k.val / 32))).getLsbD j = (s.hw.rd (GPIO_EVT (k.val / 32))).getLsbD j))) := by
  have hb : Becomes (.gpioEdge k level) s (s.hw.gpioLevel k ((s.hw.ballDrive k).getD level)) :=
    becomes_of_when (execGpioEdge.eq_1 ..) ((gpioOn_iff _).mpr ho) rfl
  refine hb.completes ?_
  rw [Hw.rd_canon, Hw.rd_canon, gpioLevel_rdIn]
  refine ⟨put_bit_self _ _ (Nat.mod_lt _ (by decide)) _, gpioLevel_evt_self, gpioLevel_evt_still, fun j _ => ?_⟩
  by_cases hj : j = k.val % 32
  · exact .inl hj
  · exact .inr ⟨put_bit_other _ _ hj _, gpioLevel_evt_other hj⟩

end Sys2Proof.Machine

/-! The debug ports, the debugger's commands, self-test and the balls together (spec/19_debug_and_test.md; spec/20_package_and_electrical.md). -/

namespace Sys2Proof.Machine

/-- Settles O57: each clause is the lemma of its command, for each of the outcomes that the spec gives it. -/
theorem debugPortsSelfTestAndBallsAct : Obligations.DebugPortsSelfTestAndBallsAct := by
  unfold Obligations.DebugPortsSelfTestAndBallsAct
  refine ⟨fun s inFlight req wdata dr code scans => ?_, ?_, ?_, ?_, ?_, ?_, ?_, ?_⟩
  · intro h bus perm st granted always fsd jtag fault op a v wrong torn may k r d op' a' k' r' d' listens c refused busy scanned lands
    refine ⟨becomes_fsd_unclocked, fun hb hw => becomes_fsd hb (fsdTransfer_wrong hw), becomes_fsd_retry, fun hb hw hi => ⟨?_, ?_, ?_, ?_, ?_, ?_⟩,
      becomes_fsdLinkReset, becomes_lands becomes_testLogicReset, becomes_jtag_off, fun hc hr => becomes_lands (becomes_jtag_refused hc hr),
      fun hc hr hcode => becomes_lands (becomes_jtag_scans hc hr hcode), fun hc hr h0 h2 => becomes_lands (becomes_jtag_selects hc hr h0 h2),
      becomes_dbgacc_deaf, fun hl => ⟨?_, ?_, ?_, ?_, ?_⟩, captureIr_eq h, captureDr_idcode, fun hl => captureDr_dbgacc hl.2⟩
    · exact becomes_fsd_badOp hb hw hi
    · exact becomes_fsd_perm hb hw hi
    · exact becomes_fsd_torn hb hw hi
    · exact fun hop hm hd => ⟨becomes_fsd_waits hb hw hi hop hm hd, fun hs => ⟨fun _ => becomes_fsd_reads hb hw hi hop hm hd hs, fun _ => becomes_fsd_readError hb hw hi hop hm hd hs⟩⟩
    · exact fun hop hm ht hd => ⟨becomes_fsd_writes hb hw hi hop hm ht hd, becomes_fsd_writeError hb hw hi hop hm ht hd⟩
    · exact completes_fsd_sysId hb hw hi
    · exact becomes_dbgacc_retry hl
    · exact becomes_dbgacc_badOp hl
    · exact becomes_dbgacc_perm hl
    · exact fun hi hop hm hd hs _ => becomes_dbgacc_reads hl hi hop hm hd hs
    · exact becomes_dbgacc_writes hl
  · intro s acc c q u w i reg t r v same wr port hw hc hh h perm
    exact ⟨fun hp => becomes_noHaltMem hw hc hh hp c q u w i reg t r v same wr port, fun hp => becomes_noPatch hw hc hh hp u w v,
      fun hp => becomes_noBist hw hc hh hp t r⟩
  · intro s acc c v same port ho h dbg x y owes miss halted goes rom num i others
    refine ⟨fun hw => ?_, fun hw => ⟨completes_attach ho hw port, becomes_detach_idle ho hw, completes_detach ho hw,
      fun hp => becomes_debugReset_first ho hw hp same, fun p hp => becomes_debugReset_later ho hw hp same, becomes_debugWake_awake ho hw, completes_debugWake ho hw,
      becomes_halt_idle ho hw, fun hg he => completes_halt_owes ho hw hg ?_, fun hg he => completes_halt_now ho hw hg ?_,
      fun hr => ⟨(becomes_run_step_idle ho hw hr).1, (becomes_run_step_idle ho hw hr).2, becomes_regdataWrite_running ho hw hr v⟩,
      fun hr => ⟨completes_run ho hw hr, becomes_step_rom ho hw hr, completes_step ho hw hr, completes_regdata_gr ho hw hr v, completes_regdata_f ho hw hr v,
        completes_regdata_epc ho hw hr v, completes_regdata_atRun ho hw hr v, completes_regdata_eprog ho hw hr v⟩⟩,
      fun hr => becomes_regdataRead_running ho hr v, fun hr => ⟨?_, ?_, ?_, ?_, ?_⟩⟩
    · obtain ⟨ha, hd, hrs, hwk⟩ := becomes_keys_other ho hw same port
      obtain ⟨hh, hr, hst⟩ := becomes_core_other ho hw c
      exact ⟨ha, hd, hrs, hwk, hh, hr, hst, becomes_regdataWrite_other ho hw v⟩
    · exact Bool.or_eq_true_iff.mpr he
    · exact fun hb => he (Bool.or_eq_true_iff.mp hb)
    · exact fun hn => picked_gr _ (dbgCore c) hn ▸ becomes_regdataRead_halted ho hr v
    · exact fun h32 h64 => picked_fLow _ (dbgCore c) h32 h64 ▸ becomes_regdataRead_halted ho hr v
    · exact fun h64 h96 => picked_fHigh _ (dbgCore c) h64 h96 ▸ becomes_regdataRead_halted ho hr v
    · exact fun hn => picked_epc _ (dbgCore c) hn ▸ becomes_regdataRead_halted ho hr v
    · exact fun hn => picked_fsr _ (dbgCore c) hn ▸ becomes_regdataRead_halted ho hr v
  · intro s acc q u w c i reg v ho hp h g dbg super src en line foreign dropped listed own mine wen busy there
    refine ⟨fun hw => ⟨becomes_lane_other ho (exec_laneHalt s acc q) hw, becomes_lane_other ho (exec_laneRun s acc q) hw, becomes_lane_other ho (exec_laneStep s acc q) hw⟩,
      fun hw => ⟨becomes_laneHalt_idle ho hw, completes_laneHalt ho hw, becomes_lane_running ho hw, fun hh => ⟨completes_laneRun ho hw hh, completes_laneStep ho hw hh⟩⟩,
      becomes_patch_barred ho hp, becomes_patch_foreign ho hp, fun hm hl hf => ⟨completes_patch_ctl ho hp hm hl hf, completes_patch_line ho hp hm hl hf,
        completes_patch_data ho hp hm hl hf⟩, ?_, ?_, ?_⟩
    · exact fun hb => becomes_wp_barred ho hb
    · exact fun hm ht hf => becomes_wp_foreign ho hm ht hf
    · intro hm ht hf
      refine ⟨fun hr => ?_, fun hr => ?_, completes_wp_ctl ho hm ht hf⟩
      · have hb := completes_wp_word (v := v) ho hm ht hf (.inl hr)
        rw [hr] at hb ⊢
        exact hb
      · have hb := completes_wp_word (v := v) ho hm ht hf (.inr hr)
        rw [hr] at hb ⊢
        exact hb
  · intro s acc t r ho hp h n may meets clock known busy refused waits
    exact ⟨fun hm => becomes_bistCmd_refused ho hp (bistCmd_perm hm), fun hm hb => becomes_bistCmd_refused ho hp (bistCmd_busy hm hb),
      fun hm hb hk => becomes_bistCmd_refused ho hp (bistCmd_badTarget hm hb t.isLt hk),
      fun hm hb hk hr => becomes_bistCmd_refused ho hp (bistCmd_precond hm hb t.isLt hk hr), completes_bist_waits ho hp, completes_bist_starts ho hp, becomes_bistRel_perm ho hp,
      becomes_bistRel_idle ho hp, completes_bistRel ho hp⟩
  · exact fun k => ⟨ready_ports, ready_twin, ready_pools, ready_island, ready_sram, ready_m0, ready_polSram, rfl⟩
  · intro s misr bad spare h runs n goldens golden ended
    refine ⟨becomes_bistDone_idle s misr bad spare, fun hr h1 hA => ?_, completes_bistDone_memory misr bad spare, completes_bistDone_mram misr bad spare⟩
    have hg : golden = bistGolden (s.hw.get BIST_STAT.TARGET) := golden_listed h1 hA
    rw [hg]
    exact completes_bistDone_logic misr bad spare hr h1 hA
  · intro s k level h on w i fn lvl tested cell present edge
    refine ⟨ballDrive_none k.isLt, ballDrive_tested, ballDrive_functional, gpioDrive_absent, fun _ => gpioDrive_in, gpioDrive_out, fun hp hf hod => ⟨?_, ?_, ?_⟩,
      becomes_gpioEdge_off k level, completes_gpioEdge k level⟩
    · exact fun u hu hk => ⟨fun hb => (gpioDrive_uart hp hf hod hu hk).trans (uartTx_break hu hb), fun hb hc => (gpioDrive_uart hp hf hod hu hk).trans (uartTx_idle hu hb hc)⟩
    · exact fun n hn hk hm => (gpioDrive_can hp hf hod hn hk).trans (canTx_recessive hm)
    · exact fun n j hn hj h7 hk hs he => (gpioDrive_spi hp hf hod hn h7 hk).trans (spiPin_select hj hs he)

end Sys2Proof.Machine
